-- ==== Sys2Proof/Word.lean ====
section
/-! DEFINITION. Word types and the plainest arithmetic on them. -/

namespace Sys2Proof

/-- A 64-bit scalar word. -/
abbrev Word := BitVec 64

/-- An 8-bit byte (R8: the unit of memory). -/
abbrev Byte := BitVec 8

/-- A register number x0 to x31. -/
abbrev XReg := BitVec 5

/-- An Aperture Table entry number ap0 to ap63 (R115). -/
abbrev Ap := BitVec 6

/-- A mask register number k0 to k7 (R115). -/
abbrev KReg := BitVec 3

/-- A 32-bit instruction word. -/
abbrev IWord := BitVec 32

end Sys2Proof
end

