-- ==== Sys2Proof/Config.lean ====
section
/-! DEFINITION. What one implementation fixes and the free values: every value here has no body, so no
proof can learn it, and a statement holds whichever value it has. -/

namespace Sys2Proof

/-- Free value: which of several runnable harts moves at step `n` (DESIGN CHOICE, log 2). -/
opaque Config.pick : Nat → Nat

/-- Free value: how many of the not yet performed stores of hart `h` to bytes that another agent reaches at step `n`
have been performed by then (R290, R293; DESIGN CHOICE, log 2). -/
opaque Config.performed : Nat → Nat → Nat

/-- Free value: whether load `k` of the late loads of hart `h` is performed after the store that step `n` makes
(R290, R293; DESIGN CHOICE, log 2). -/
opaque Config.lateLoad : Nat → Nat → Nat → Bool

/-- Free value: whether the atomic met at step `n` is left to be performed later (R290, R294; DESIGN CHOICE, log 2). -/
opaque Config.atomLater : Nat → Bool

/-- Free value: how much further engine command `c` has run when another stream reaches its bytes at step `n`
(R247; DESIGN CHOICE, log 2). -/
opaque Config.engineDone : Nat → Nat → Nat

/-- Free value: stall cycles that a hart's fetch that misses has waited for its translation at step `n` (R322, R323;
DESIGN CHOICE, log 7). -/
opaque Config.stalls : Nat → Nat

/-- Free value: whether the almanac entry that a fetch would hit at step `n` has been replaced or fails its parity (R321, R408;
DESIGN CHOICE, log 7). -/
opaque Config.entryLost : Nat → Bool

/-- Free value: island cycles that pass before a counter is read at step `n` (R138, R311; DESIGN CHOICE, log 5). -/
opaque Config.cycles : Nat → Nat

/-- Free value: cycles that the access of a vector memory instruction met at step `n` adds to its passes (R210; DESIGN CHOICE,
log 5). -/
opaque Config.accessTime : Nat → Nat

/-- Free value: how many of the vector instructions that follow the one that stops at step `n` its hart has dispatched before the stop
(R314, R384; DESIGN CHOICE, log 5). -/
opaque Config.discarded : Nat → Nat

/-- Free value: whether the vector instruction met at step `n`, which can join its hart's drain chain, is dispatched before the chain's
`tdrain` begins (R262; DESIGN CHOICE, log 5). -/
opaque Config.joins : Nat → Bool

/-- Free value: whether a frequency ramp that is due moves at step `n` (R324: a voltage move's time is not architected; DESIGN CHOICE,
log 5). -/
opaque Config.rampMoves : Nat → Bool

/-- Free value: boundaries of four uncore cycles that a relock abandoned at step `n` has passed (R325; DESIGN CHOICE, log 5). -/
opaque Config.abandoned : Nat → Nat

/-- Free value: which translation of page `p` an access uses at step `n`: 0 a fresh walk, else one of those held
(R282; DESIGN CHOICE, log 6). -/
opaque Config.useHeld : Nat → Nat → Nat

/-- Free value: how many of the lines of an access to frame `f` at step `n` are transferred, and not found in a cache
(R286; DESIGN CHOICE, log 20). -/
opaque Config.lineMoves : Nat → Nat → Nat → Nat

/-- Free value: which of the words that a fetch of address `a` at step `n` may still execute, old or new, it executes
(R307, R309, R321; DESIGN CHOICE, log 7). -/
opaque Config.codeChoice : Nat → Nat → Nat

/-- Free value: which of the values that R206 allows a path-3 read of byte `a` at step `n` returns (DESIGN CHOICE, log 9). -/
opaque Config.constChoice : Nat → Nat → Nat

/-- Free value: how many bytes `stpre` fills at step `n` (R203; DESIGN CHOICE, log 10). -/
opaque Config.stprefill : Nat → Nat

/-- Free value: how many chunks a killed or faulted command had begun (R414; DESIGN CHOICE, log 24). -/
opaque Config.chunksBegun : Nat → Nat

/-- Which tracking entry a new frame replaces (R286: not architected; DESIGN CHOICE, log 20). -/
opaque Config.replacedEntry : Nat → Nat

/-- The stepping of each die (R316): true for B0, false for A1 (DESIGN CHOICE, log 12). -/
opaque Config.isB0 : Nat → Bool

/-- Whether the Falcon-1024 signature of firmware image `n` is valid (R343; DESIGN CHOICE, log 13). -/
opaque Config.firmwareValid : Nat → Bool

/-- The bytes of firmware image `n` (R343, R346; DESIGN CHOICE, log 13). -/
opaque Config.image : Nat → List Byte

/-- The summary of the measurements of loaded images that a challenge is answered with (R344; DESIGN CHOICE, log 13). -/
opaque Config.summary : List Nat → BitVec 512

/-- The 1,280-byte Falcon-1024 signature over a challenge nonce (R345; DESIGN CHOICE, log 13). -/
opaque Config.signature : Nat → BitVec 10240

/-- The X.509 certificate chain of the identity key (R343; DESIGN CHOICE, log 13). -/
opaque Config.certificate : List Byte

/-- The digest of the certificate chain (R344; DESIGN CHOICE, log 13). -/
opaque Config.certDigest : BitVec 512

end Sys2Proof
end

