-- ==== Sys2Proof/Syntax.lean ====
section
/-! DEFINITION. The syntax: one constructor per row of spec/opcode_table.json. Rows that are instructions carry
their operand fields (the fields the encoding holds and the instruction uses); rows that are events of the device
or its surroundings carry what the event names. -/

namespace Sys2Proof

/-- The access kinds of a translated access (R396). -/
inductive Access where
  | fetch | load | store | atomic
  deriving DecidableEq, Repr

/-- The stair registers STB, STL and STP (R195). -/
inductive StairReg where
  | stb | stl | stp
  deriving DecidableEq, Repr

/-- What a register write addresses: a CSR of the current hart, or a management register at a path-5 offset
written by a master (R133, R335, R338). -/
inductive RegTarget where
  | csr (n : Nat)
  | mgmt (master : Nat) (offset : Nat)
  deriving DecidableEq, Repr

/-- A unit that degraded operation removes (R423), on die `d`. -/
inductive Resource where
  | core (d c : Nat)
  | way (d : Nat)
  | row (d : Nat)
  deriving DecidableEq, Repr

/-- A Gleip flit: the port that sends it, and its number there (R340). -/
structure Flit where
  port : Nat
  n : Nat
  deriving DecidableEq, Repr

/-- A host access to device memory (R20), or a master's read of the management registers through BAR0 or of the launch windows
through BAR2, n bytes from an offset (R335, R338). -/
inductive HostOp where
  | read (n : Nat)
  | write (bytes : List Byte)
  | bar0 (n : Nat)
  | bar2 (n : Nat)
  deriving DecidableEq, Repr

/-- Three-register scalar operations of a pair's PR layout (R114). -/
inductive PairOp where
  | add | sub | and | or | xor | sll | srl | sra
  deriving DecidableEq, Repr

/-- Immediate scalar operations of a pair's PI layout (R114). -/
inductive PairImm where
  | addi | slli | srli | srai
  deriving DecidableEq, Repr

/-- The scalar half of a pair (R114, R145). -/
inductive PairScalar where
  | nop
  | reg (op : PairOp) (rd ra rb : XReg)
  | imm (op : PairImm) (rd ra : XReg) (imm6 : BitVec 6)
  deriving DecidableEq, Repr

/-- The A-format vector operations (majors 0x28 to 0x2F, R117). -/
inductive AOp where
  | vadd | vsub | vadds | vsubs | vmul | vmulh | vmacc | vwmacc | vand | vor | vxor | vandn | vsll | vsrl
  | vsra | vssr | vneg | vfadd | vfsub | vfmul | vfdiv | vfsqrt | vfrcp | vfma | vfms | vfnma | vfwma
  | vceq | vcne | vclt | vcle | vfceq | vfclt | vfcle | vfcun | vmin | vmax | vfmin | vfmax | kand | kor
  | kxor | kandn | knot | kmw | kmr | vmov | vfneg | vfabs | vfsgnj | vrev | vperm | vslidn | vsliup
  | vidx | vfcvt | vfcvti | vicvtf | vnclip | vext | vredsum | vwredsum | vredmax | vredmin | vredand
  | vredor | vredxor | vfredsum | vfwredsum | vfredmax | vfredmin | vsredsum | vswredsum | vsredmax | vsredmin
  | vsredand | vsredor | vsredxor | vsfredsum | vsfwredsum | vsfredmax | vsfredmin | vscore | vscoreS
  | vsegr | vexps | vwacc | vclget | vclput | radd | uadd | rxor | rmulo | umulo | rfmul | ufmul | rfadd
  | ufadd | rcvt | ucvt | rnrw | unrw
  deriving DecidableEq, Repr

/-- An A-format instruction without its guard: the operation and its three fields, a field that the operation
does not use being 0, and a mask register number standing in the low 3 bits of its field (R107, R160). -/
structure AHalf where
  op : AOp
  apd : Ap
  apa : Ap
  apb : Ap
  deriving DecidableEq, Repr

/-- Every row of the opcode table. -/
inductive Instr where
  /-- `MODULE_RESET` (R11). Module reset sets every register field to its reset value, clears the scheduler pointer and slew state, and loses plane contents. -/
  | moduleReset (images : List Nat)
  /-- `MSG_WRITE` (R30). A posted 64-byte write to a launch window's MSG port is either accepted whole with the next acceptance number, or dropped. -/
  | msgWrite (window : Nat) (offset : Nat) (master : Nat) (bytes : List (BitVec 8))
  /-- `LQCFG_WRITE` (R34). The owner binds a window to a context or enables it; the write affects only messages accepted after it. -/
  | lqcfgWrite (window : Nat) (master : Nat) (v : BitVec 64)
  /-- `WAIT_COUNTER_READ` (R38). After a write completes at a wait counter's home, the rotunda rereads the counter as a sys-scope acquire and makes the launch ready once the value reaches WVAL. -/
  | waitCounterRead (acc : Nat)
  /-- `PLACEMENT_DECISION` (R43). The scheduler chooses the oldest ready launch at the highest priority and places its gangs, held gangs of a resumed launch first. -/
  | placementDecision
  /-- `LAUNCH_COMPLETE` (R57). When the launch's gangs have retired and its engine commands have finished, the completion record is written with STATE last, as a sys-scope release. -/
  | launchComplete (acc : Nat)
  /-- `LCTL_WRITE` (R47). A write to LCTL changes the gang's LREQ or GPRI, or the hart's HPRI, and triggers a recomputation of the dome targets. -/
  | lctlWrite (v : BitVec 64)
  /-- `VECTOR_ISSUE` (R54). Each cycle the vector sequencer issues at most one ready queue head per resident gang, by HPRI, then queue age, then round robin. -/
  | vectorIssue (core : Nat)
  /-- `VECTOR_PASS` (R78). A pass over one swept row runs on the gang's groups and writes its results 8 cycles after it ends; the instruction completes with its last pass. -/
  | vectorPass (core : Nat)
  /-- `LANE_GROUP_GATE` (R333). A lane group that belongs to no gang gates after 64 idle cycles. -/
  | laneGroupGate (core : Nat) (group : Nat)
  /-- `LANE_GROUP_WAKE` (R333). A gated group given to a gang finishes waking after 16 cycles and joins the gang at its next pass boundary. -/
  | laneGroupWake (core : Nat) (group : Nat)
  /-- `DISPATCH_GATE` (R328). Each cycle the bucket leaks LEAK units and waiting vector instructions are released in arrival order while their charges fit CAP. -/
  | dispatchGate (core : Nat)
  /-- `SLEW_STEP` (R332). At each 4-uncore-cycle step boundary the slew limiter moves each core's ramp state and starts up to SMAX quiet cores from its round-robin pointer. -/
  | slewStep (die : Nat)
  /-- `SLEW_CORE_QUIET` (R332). A core becomes quiet after QUIET consecutive steps with no issue. -/
  | slewCoreQuiet (core : Nat)
  /-- `TRANSIT_ISSUE` (R263). Each cycle the transit engine issues the oldest ready queue entry, pairing two h8 or i4 tmac where allowed. -/
  | transitIssue (core : Nat)
  /-- `TRANSIT_OP_COMPLETE` (R266). An issued transit instruction finishes at the cycle that its occupancy gives, loading the tile or writing the bank row. -/
  | transitOpComplete (core : Nat)
  /-- `TRANSIT_GATE` (R269). The transit engine gates after TIDLE.CYCLES consecutive idle cycles and keeps its tiles and banks. -/
  | transitGate (core : Nat)
  /-- `TRANSIT_WAKE` (R269). A gated transit engine becomes awake 96 cycles after a ready entry or a twake starts its wake. -/
  | transitWake (core : Nat)
  /-- `FREQREQ_WRITE` (R325). A write to FREQREQ sets the island's target frequency at once; the latest write wins, and a ramp may continue, reverse or end. -/
  | freqreqWrite (core : Nat) (v : BitVec 64)
  /-- `FREQ_RAMP_STEP` (R324). The island moves one operating point, raising the voltage before the relock when going up and lowering it after the relock when going down. -/
  | freqRampStep (core : Nat)
  /-- `RELOCK_END` (R324). After a 24-uncore-cycle relock stall the island clock restarts at the new point. -/
  | relockEnd (core : Nat)
  /-- `FSTAT_READ` (R104). A read of FSTAT waits for every older instruction of the hart that can set a flag and returns their flags. -/
  | fstatRead (rd : XReg)
  /-- `FSTAT_WRITE` (R104). A write of FSTAT waits like a read and then replaces the whole field. -/
  | fstatWrite (v : BitVec 64)
  /-- `CYCW_READ` (R138). A read of CYCW waits until every older instruction of the hart has completed and then returns CYC. -/
  | cycwRead (rd : XReg)
  /-- `VL_RC_READ` (R212). A read of the VL or RC CSR waits until every older instruction that can trim has passed its trim point. -/
  | vlRcRead (rc : Bool) (rd : XReg)
  /-- `STAIR_REG_READ` (R197). A read of STB, STL or STP waits for every older stair instruction of the hart. -/
  | stairRegRead (reg : StairReg) (rd : XReg)
  /-- `STAIR_REG_WRITE` (R197). A write of STB, STL or STP waits for older stair work, writes back the on-chip top or keeps or discards its bytes, and stores the new value. -/
  | stairRegWrite (reg : StairReg) (v : BitVec 64)
  /-- `XSTEP_WRITE` (R317). A write to XSTEP sets the target stepping and acts as fbar for the writing hart. -/
  | xstepWrite (v : BitVec 64)
  /-- `REGISTER_WRITE` (R133). A write to a CSR or management register that has no row of its own stores its fields under their Access codes and the owner rule. -/
  | registerWrite (target : RegTarget) (v : BitVec 64)
  /-- `CLAIM_WRITE` (R337). A ballot written to CLAIM while the module has no owner opens the claim window or becomes the candidate if it is higher. -/
  | claimWrite (master : Nat) (v : BitVec 64)
  /-- `CLAIM_WINDOW_CLOSE` (R337). When the claim window expires, the candidate becomes owner and EPOCH rises. -/
  | claimWindowClose
  /-- `HANDOVER_RELEASE` (R337). A HANDOVER write with REL = 1 by the owner releases ownership. -/
  | handoverRelease (master : Nat)
  /-- `HANDOVER_TRANSFER` (R337). A HANDOVER write with REL = 0 by the owner passes ownership to master TO and keeps the ballot. -/
  | handoverTransfer (master : Nat) (dest : Nat)
  /-- `OWNER_LINK_DOWN` (R337). When the owning host partition's link goes down or the BMC port resets while it owns the module, the rotunda performs the owner's release. -/
  | ownerLinkDown (master : Nat)
  /-- `PREEMPT` (R377). A PREEMPT write names a PLACING or RUNNING launch, fixes its save base, holds it and pre-empts its resident gangs. -/
  | preempt (master : Nat) (acc : Nat)
  /-- `RESUME` (R377). A RESUME write makes a launch's held gangs placeable ahead of the unplaced gangs of launches of the same or lower priority. -/
  | resume (master : Nat) (acc : Nat)
  /-- `KILL` (R414). A KILL write discards a launch's unplaced and held gangs, stops its resident gangs, stops its engine commands and aborts its collectives. -/
  | kill (master : Nat) (acc : Nat)
  /-- `GANG_SAVE` (R378). A pre-empted gang stops at its resume points, drains, writes back its stair, saves its dirty plates, hart state and gallery, and releases its resources. -/
  | gangSave (gang : Nat)
  /-- `PLATE_FILL` (R380). A register-miss micro-trap fills each ABSENT plate of an instruction's footprint from the band image before the instruction issues. -/
  | plateFill (plate : Nat)
  /-- `INTPOST_WRITE` (R372). The owner's write to INTPOST posts interrupt XI to the resident hart that it names. -/
  | intpostWrite (master : Nat) (v : BitVec 64)
  /-- `INTERRUPT_TAKE` (R372). A pending, enabled interrupt is taken to S or M at the hart's next dispatch boundary. -/
  | interruptTake (hart : Nat)
  /-- `MIGRATION_REQUEST` (R286). When a frame's count of qualifying accesses reaches HYST, the arbiter posts a migration request to the owner's hall. -/
  | migrationRequest (frame : Nat) (host : Bool)
  /-- `MIGRATION_CONTEST` (R287). A request or fault from one side while the other side's request for the frame is open is decided for the current home and posts a kind-2 record. -/
  | migrationContest (frame : Nat) (host : Bool)
  /-- `DATA_ERROR` (R403). An uncorrectable 32-byte unit is marked poisoned at its home and a kind-3 record is posted. -/
  | dataError (unit : Nat)
  /-- `SUPPLY_LIMIT` (R421). A die's supply monitor trips when its current passes the limit, posts a kind-0x13 record and writes 470 into FREQREQ of every core of the die. -/
  | supplyLimit (die : Nat)
  /-- `RESOURCE_REMOVAL` (R423). A core, L2 way or memory row is removed from service and a kind-0x15 record is posted. -/
  | resourceRemoval (what : Resource)
  /-- `GLEIP_FLIT_RETRY` (R340). A Gleip flit whose CRC fails is retried at link level. -/
  | gleipFlitRetry (flit : Flit)
  /-- `GLEIP_PORT_DOWN` (R419). After 1,024 failed retries of a flit, the Gleip port is down. -/
  | gleipPortDown (port : Nat)
  /-- `ABORT_TOKEN` (R418). A collective that receives an abort token before it ends ends ABORTED, writes its engine entry and forwards the token once. -/
  | abortToken (group : Nat) (die : Nat)
  /-- `UCIE_MODULE_LOSS` (R334). A UCIe link that loses a module trains the remaining modules and runs narrower. -/
  | ucieModuleLoss
  /-- `HOST_ACCESS` (R20). A host CXL access to device memory enters at the rotunda and reaches the home C-die over the management fabric. -/
  | hostAccess (addr : Nat) (access : HostOp)
  /-- `GET_VERSION` (R344). The module answers the SPDM GET_VERSION request. -/
  | getVersion
  /-- `GET_CAPABILITIES` (R344). The module answers the SPDM GET_CAPABILITIES request. -/
  | getCapabilities
  /-- `NEGOTIATE_ALGORITHMS` (R345). The module offers Falcon-1024 and SHAKE256 only, and answers InvalidRequest if the requester selects neither. -/
  | negotiateAlgorithms (asym : List Nat) (hash : List Nat)
  /-- `GET_DIGESTS` (R344). The module answers the SPDM GET_DIGESTS request. -/
  | getDigests
  /-- `GET_CERTIFICATE` (R344). The module returns its X.509 certificate chain. -/
  | getCertificate
  /-- `CHALLENGE` (R344). The module answers an SPDM CHALLENGE with a Falcon-1024 signature. -/
  | challenge (nonce : Nat)
  /-- `GET_MEASUREMENTS` (R346). The module reports the SHAKE256 measurements of its firmware, microcode and steppings. -/
  | getMeasurements
  /-- `UNSUPPORTED_REQUEST` (R344). Any other SPDM request receives an ERROR response of UnsupportedRequest. -/
  | unsupportedRequest (code : Nat)
  /-- `ENGINE_COMMAND_COMPLETE` (R247). When all of an engine command's transfers are done, it increments its completion counter with a release at its scope. -/
  | engineCommandComplete (cmd : Nat)
  /-- `COLLECTIVE_START` (R249). A collective's data moves once every member of the group has issued the command. -/
  | collectiveStart (group : Nat) (remote : List (Nat × List (BitVec 8)))
  /-- `STREAM_RUNAHEAD` (R305). A finder stream reads an element ahead of its consumer; the read is squashed and reissued when an older overlapping write or an acquire intervenes. -/
  | streamRunahead (fs : BitVec 4)
  /-- `PAGE_WALK` (R279). A die walker walks the five-level table for a TLB miss and sets A and D atomically in the leaf. -/
  | pageWalk (va : BitVec 64) (need : Access)
  /-- `FETCH` (R319). A hart fetches Mardun code from the almanac by the key of the translation unit. -/
  | fetch (hart : Nat)
  /-- `TRANSLATION_UNIT_LOWER` (R322). The translation engine lowers a missed unit into the almanac, up to 8 at once per die, and fetch resumes. -/
  | translationUnitLower (hart : Nat)
  /-- `LWAIT_RETURN` (R244). A waiting lwait returns as an acquire once PHASE changes. -/
  | lwaitReturn (hart : Nat)
  /-- `WFI_WAKE` (R141). A hart in wfi resumes fetching when an interrupt becomes pending, when its gang is pre-empted, or at any moment that the device chooses. -/
  | wfiWake (hart : Nat)
  /-- `MDAS_ASSEMBLE` (R347). mdas assembles one source file, reports its diagnostics and writes an object file only when no error is reported. -/
  | mdasAssemble (args : List String) (files : List (String × String))
  /-- `ADD` (R125). X(rd) := a + b. -/
  | add (rd : XReg) (ra : XReg) (rb : XReg)
  /-- `SUB` (R125). X(rd) := a - b. -/
  | sub (rd : XReg) (ra : XReg) (rb : XReg)
  /-- `AND` (R125). Bitwise AND. -/
  | and (rd : XReg) (ra : XReg) (rb : XReg)
  /-- `OR` (R125). Bitwise OR. -/
  | or (rd : XReg) (ra : XReg) (rb : XReg)
  /-- `XOR` (R125). Bitwise XOR. -/
  | xor (rd : XReg) (ra : XReg) (rb : XReg)
  /-- `ANDN` (R125). a AND NOT b. -/
  | andn (rd : XReg) (ra : XReg) (rb : XReg)
  /-- `SLL` (R125). Left shift by the low 6 bits of b. -/
  | sll (rd : XReg) (ra : XReg) (rb : XReg)
  /-- `SRL` (R125). Logical right shift by the low 6 bits of b. -/
  | srl (rd : XReg) (ra : XReg) (rb : XReg)
  /-- `SRA` (R125). Arithmetic right shift by the low 6 bits of b. -/
  | sra (rd : XReg) (ra : XReg) (rb : XReg)
  /-- `SLT` (R125). Signed less-than. -/
  | slt (rd : XReg) (ra : XReg) (rb : XReg)
  /-- `SLTN` (R125). Natural less-than. -/
  | sltn (rd : XReg) (ra : XReg) (rb : XReg)
  /-- `MIN` (R125). Signed minimum. -/
  | min (rd : XReg) (ra : XReg) (rb : XReg)
  /-- `MAX` (R125). Signed maximum. -/
  | max (rd : XReg) (ra : XReg) (rb : XReg)
  /-- `MINN` (R125). Natural minimum. -/
  | minn (rd : XReg) (ra : XReg) (rb : XReg)
  /-- `MAXN` (R125). Natural maximum. -/
  | maxn (rd : XReg) (ra : XReg) (rb : XReg)
  /-- `CLZ` (R125). Count of leading zero bits. -/
  | clz (rd : XReg) (ra : XReg)
  /-- `CTZ` (R125). Count of trailing zero bits. -/
  | ctz (rd : XReg) (ra : XReg)
  /-- `POPC` (R125). Population count. -/
  | popc (rd : XReg) (ra : XReg)
  /-- `SXB` (R125). Sign-extends the low byte. -/
  | sxb (rd : XReg) (ra : XReg)
  /-- `SXH` (R125). Sign-extends the low halfword. -/
  | sxh (rd : XReg) (ra : XReg)
  /-- `SXW` (R125). Sign-extends the low word. -/
  | sxw (rd : XReg) (ra : XReg)
  /-- `ZXB` (R125). Zero-extends the low byte. -/
  | zxb (rd : XReg) (ra : XReg)
  /-- `ZXH` (R125). Zero-extends the low halfword. -/
  | zxh (rd : XReg) (ra : XReg)
  /-- `ZXW` (R125). Zero-extends the low word. -/
  | zxw (rd : XReg) (ra : XReg)
  /-- `ADDS1` (R125). a + 2 × b. -/
  | adds1 (rd : XReg) (ra : XReg) (rb : XReg)
  /-- `ADDS2` (R125). a + 4 × b. -/
  | adds2 (rd : XReg) (ra : XReg) (rb : XReg)
  /-- `ADDS3` (R125). a + 8 × b. -/
  | adds3 (rd : XReg) (ra : XReg) (rb : XReg)
  /-- `SLICEOF` (R128). Translates an address without faulting and returns its home die and slice, tier and pin state. -/
  | sliceof (rd : XReg) (ra : XReg)
  /-- `SLLI` (R125). Left shift by an immediate count. -/
  | slli (rd : XReg) (ra : XReg) (n : BitVec 6)
  /-- `SRLI` (R125). Logical right shift by an immediate count. -/
  | srli (rd : XReg) (ra : XReg) (n : BitVec 6)
  /-- `SRAI` (R125). Arithmetic right shift by an immediate count. -/
  | srai (rd : XReg) (ra : XReg) (n : BitVec 6)
  /-- `ADDI` (R126). Adds a sign-extended immediate. -/
  | addi (rd : XReg) (ra : XReg) (imm : BitVec 16)
  /-- `ANDI` (R126). ANDs a zero-extended immediate. -/
  | andi (rd : XReg) (ra : XReg) (imm : BitVec 16)
  /-- `ORI` (R126). ORs a zero-extended immediate. -/
  | ori (rd : XReg) (ra : XReg) (imm : BitVec 16)
  /-- `XORI` (R126). XORs a zero-extended immediate. -/
  | xori (rd : XReg) (ra : XReg) (imm : BitVec 16)
  /-- `SLTI` (R126). Signed less-than against an immediate. -/
  | slti (rd : XReg) (ra : XReg) (imm : BitVec 16)
  /-- `SLTNI` (R126). Natural less-than against the sign-extended immediate. -/
  | sltni (rd : XReg) (ra : XReg) (imm : BitVec 16)
  /-- `LIH` (R126). Shifts X(ra) left by 16 and inserts a halfword. -/
  | lih (rd : XReg) (ra : XReg) (imm : BitVec 16)
  /-- `MUL` (R127). Low 64 bits of the product. -/
  | mul (rd : XReg) (ra : XReg) (rb : XReg)
  /-- `MULH` (R127). High 64 bits of the signed product. -/
  | mulh (rd : XReg) (ra : XReg) (rb : XReg)
  /-- `MULHN` (R127). High 64 bits of the natural product. -/
  | mulhn (rd : XReg) (ra : XReg) (rb : XReg)
  /-- `MULHSN` (R127). High 64 bits of the signed-by-natural product. -/
  | mulhsn (rd : XReg) (ra : XReg) (rb : XReg)
  /-- `DIV` (R127). Signed division rounded toward zero, with fixed results for b = 0 and for overflow. -/
  | div (rd : XReg) (ra : XReg) (rb : XReg)
  /-- `DIVN` (R127). Natural division. -/
  | divn (rd : XReg) (ra : XReg) (rb : XReg)
  /-- `REM` (R127). Signed remainder. -/
  | rem (rd : XReg) (ra : XReg) (rb : XReg)
  /-- `REMN` (R127). Natural remainder. -/
  | remn (rd : XReg) (ra : XReg) (rb : XReg)
  /-- `SETVL` (R150). VL := min(AVL, 16,384 ÷ width). -/
  | setvl (rd : XReg) (ra : XReg) (ty : BitVec 4)
  /-- `SETVL_G` (R150). VL := min(AVL, target × 2,048 ÷ width), and LGRANT.VIS := target. -/
  | setvlG (rd : XReg) (ra : XReg) (ty : BitVec 4)
  /-- `SETRC` (R150). RC := X(ra) + imm, which must not exceed the band height. -/
  | setrc (rd : XReg) (ra : XReg) (imm : BitVec 16)
  /-- `JMP` (R131). PC-relative jump. -/
  | jmp (disp : BitVec 26)
  /-- `CALL` (R131). PC-relative call; X(1) := PC + 4. -/
  | call (disp : BitVec 26)
  /-- `BEQ` (R130). Branches if equal. -/
  | beq (ra : XReg) (rb : XReg) (disp : BitVec 16)
  /-- `BNE` (R130). Branches if not equal. -/
  | bne (ra : XReg) (rb : XReg) (disp : BitVec 16)
  /-- `BLT` (R130). Branches if signed less. -/
  | blt (ra : XReg) (rb : XReg) (disp : BitVec 16)
  /-- `BGE` (R130). Branches if signed greater or equal. -/
  | bge (ra : XReg) (rb : XReg) (disp : BitVec 16)
  /-- `BLTN` (R130). Branches if natural less. -/
  | bltn (ra : XReg) (rb : XReg) (disp : BitVec 16)
  /-- `BGEN` (R130). Branches if natural greater or equal. -/
  | bgen (ra : XReg) (rb : XReg) (disp : BitVec 16)
  /-- `JMPL` (R131). Indirect jump and link. -/
  | jmpl (rd : XReg) (ra : XReg) (imm : BitVec 16)
  /-- `CSRRW` (R133). Reads a CSR and writes X(ra) to it. -/
  | csrrw (rd : XReg) (ra : XReg) (csr : BitVec 16)
  /-- `CSRRS` (R133). Reads a CSR and sets the bits of X(ra). -/
  | csrrs (rd : XReg) (ra : XReg) (csr : BitVec 16)
  /-- `CSRRC` (R133). Reads a CSR and clears the bits of X(ra). -/
  | csrrc (rd : XReg) (ra : XReg) (csr : BitVec 16)
  /-- `TRAP` (R140). Completes and takes a software trap with code n, resuming at PC + 4. -/
  | trap (n : BitVec 10)
  /-- `ERET` (R369). Returns from a handler, restoring PC, privilege, SWI and EFC. -/
  | eret
  /-- `WFI` (R141). Stops fetching until an interrupt is pending or the gang is pre-empted. -/
  | wfi
  /-- `DCLEAN` (R142). Writes the dirty L1 lines of a range back to their L2 homes. -/
  | dclean (ra : XReg) (rb : XReg)
  /-- `XCINV` (R142). Invalidates, on every die, the almanac entries and fetched instructions derived from a range. -/
  | xcinv (ra : XReg) (rb : XReg)
  /-- `FBAR` (R142). Fetches younger instructions only after every older xcinv has completed. -/
  | fbar
  /-- `PTSYNC` (R143). Completes when older stores are visible to every walker and stale translations have left every TLB. -/
  | ptsync
  /-- `LAUNCH` (R144). Submits a 64-byte message to the first eligible window, waiting for a free entry, and returns its acceptance number. -/
  | launch (rd : XReg) (ra : XReg)
  /-- `FENCE_SV` (R238). Orders scalar memory operations before vector ones at the given scope. -/
  | fenceSv (scope : BitVec 3)
  /-- `FENCE_VS` (R238). Orders vector operations and engine transfers before scalar ones. -/
  | fenceVs (scope : BitVec 3)
  /-- `FENCE_VV` (R238). Orders vector operations and engine transfers before later ones. -/
  | fenceVv (scope : BitVec 3)
  /-- `FENCE_ALL` (R238). Orders all earlier memory operations of the hart before all later ones. -/
  | fenceAll (scope : BitVec 3)
  /-- `LARRIVE` (R242). Arrives at the gang landing as a gang-scope release and returns the phase as token. -/
  | larrive (rd : XReg)
  /-- `LWAIT` (R244). Waits on the gang landing for a token, or returns at once, or faults on a future phase. -/
  | lwait (rd : XReg) (ra : XReg)
  /-- `LARRIVE_SCOPE` (R243). Arrives at a memory landing block atomically, as a release at its scope. -/
  | larriveScope (rd : XReg) (ra : XReg) (scope : BitVec 3)
  /-- `LWAIT_SCOPE` (R244). Waits on a memory landing block with an acquire at its scope. -/
  | lwaitScope (rd : XReg) (ra : XReg) (rb : XReg) (scope : BitVec 3)
  /-- `RETIRE` (R245). Waits for older work, clears the hart's LIVE bit and stops the hart. -/
  | retire
  /-- `TWAKE` (R253). Starts waking the gang's transit engine, or restarts its idle count. -/
  | twake
  /-- `TFILL` (R366). Queues up to 1,024 filler operations on the transit queue in one entry. -/
  | tfill (ra : XReg)
  /-- `BKT` (R253). Waits until the core's bucket has the requested room free and returns the level. -/
  | bkt (rd : XReg) (ra : XReg)
  /-- `LB` (R208). Loads a byte, sign-extended. -/
  | lb (rd : XReg) (base : XReg) (off : BitVec 12)
  /-- `LH` (R208). Loads a halfword, sign-extended. -/
  | lh (rd : XReg) (base : XReg) (off : BitVec 12)
  /-- `LW` (R208). Loads a word, sign-extended. -/
  | lw (rd : XReg) (base : XReg) (off : BitVec 12)
  /-- `LD` (R208). Loads a doubleword. -/
  | ld (rd : XReg) (base : XReg) (off : BitVec 12)
  /-- `LBN` (R208). Loads a byte, zero-extended. -/
  | lbn (rd : XReg) (base : XReg) (off : BitVec 12)
  /-- `LHN` (R208). Loads a halfword, zero-extended. -/
  | lhn (rd : XReg) (base : XReg) (off : BitVec 12)
  /-- `LWN` (R208). Loads a word, zero-extended. -/
  | lwn (rd : XReg) (base : XReg) (off : BitVec 12)
  /-- `LDN` (R208). Loads a doubleword. -/
  | ldn (rd : XReg) (base : XReg) (off : BitVec 12)
  /-- `SB` (R208). Stores a byte. -/
  | sb (rd : XReg) (base : XReg) (off : BitVec 12)
  /-- `SH` (R208). Stores a halfword. -/
  | sh (rd : XReg) (base : XReg) (off : BitVec 12)
  /-- `SW` (R208). Stores a word. -/
  | sw (rd : XReg) (base : XReg) (off : BitVec 12)
  /-- `SD` (R208). Stores a doubleword. -/
  | sd (rd : XReg) (base : XReg) (off : BitVec 12)
  /-- `AMSWP` (R230). Atomic swap. -/
  | amswp (rd : XReg) (ra : XReg) (rb : XReg) (dword : Bool) (scope : BitVec 3) (q : BitVec 2)
  /-- `AMCAS` (R230). Atomic compare and swap against X(rd). -/
  | amcas (rd : XReg) (ra : XReg) (rb : XReg) (dword : Bool) (scope : BitVec 3) (q : BitVec 2)
  /-- `AMADD` (R230). Atomic add. -/
  | amadd (rd : XReg) (ra : XReg) (rb : XReg) (dword : Bool) (scope : BitVec 3) (q : BitVec 2)
  /-- `AMAND` (R230). Atomic AND. -/
  | amand (rd : XReg) (ra : XReg) (rb : XReg) (dword : Bool) (scope : BitVec 3) (q : BitVec 2)
  /-- `AMOR` (R230). Atomic OR. -/
  | amor (rd : XReg) (ra : XReg) (rb : XReg) (dword : Bool) (scope : BitVec 3) (q : BitVec 2)
  /-- `AMXOR` (R230). Atomic XOR. -/
  | amxor (rd : XReg) (ra : XReg) (rb : XReg) (dword : Bool) (scope : BitVec 3) (q : BitVec 2)
  /-- `AMMIN` (R230). Atomic signed minimum. -/
  | ammin (rd : XReg) (ra : XReg) (rb : XReg) (dword : Bool) (scope : BitVec 3) (q : BitVec 2)
  /-- `AMMAX` (R230). Atomic signed maximum. -/
  | ammax (rd : XReg) (ra : XReg) (rb : XReg) (dword : Bool) (scope : BitVec 3) (q : BitVec 2)
  /-- `AMMINN` (R230). Atomic natural minimum. -/
  | amminn (rd : XReg) (ra : XReg) (rb : XReg) (dword : Bool) (scope : BitVec 3) (q : BitVec 2)
  /-- `AMMAXN` (R230). Atomic natural maximum. -/
  | ammaxn (rd : XReg) (ra : XReg) (rb : XReg) (dword : Bool) (scope : BitVec 3) (q : BitVec 2)
  /-- `AMFADD` (R230). Atomic f32 add rounded with rne. -/
  | amfadd (rd : XReg) (ra : XReg) (rb : XReg) (scope : BitVec 3) (q : BitVec 2)
  /-- `AMFMIN` (R231). Atomic f32 minimumNumber. -/
  | amfmin (rd : XReg) (ra : XReg) (rb : XReg) (scope : BitVec 3) (q : BitVec 2)
  /-- `AMFMAX` (R231). Atomic f32 maximumNumber. -/
  | amfmax (rd : XReg) (ra : XReg) (rb : XReg) (scope : BitVec 3) (q : BitVec 2)
  /-- `AMLD` (R230). Scoped atomic load. -/
  | amld (rd : XReg) (ra : XReg) (dword : Bool) (scope : BitVec 3) (q : BitVec 2)
  /-- `AMST` (R230). Scoped atomic store. -/
  | amst (ra : XReg) (rb : XReg) (dword : Bool) (scope : BitVec 3) (q : BitVec 2)
  /-- `VLD` (R215). Unit-stride fault-only-first vector load into an aperture. -/
  | vld (ap : Ap) (base : XReg) (off : BitVec 12) (size : BitVec 3)
  /-- `VST` (R215). Unit-stride vector store from an aperture, committing in sweep order. -/
  | vst (ap : Ap) (base : XReg) (off : BitVec 12) (size : BitVec 3)
  /-- `VADD` (R156). Wrapping integer add. -/
  | vadd (apd : Ap) (apa : Ap) (apb : Ap) (mask : BitVec 2)
  /-- `VSUB` (R156). Wrapping integer subtract. -/
  | vsub (apd : Ap) (apa : Ap) (apb : Ap) (mask : BitVec 2)
  /-- `VADDS` (R156). Saturating integer add. -/
  | vadds (apd : Ap) (apa : Ap) (apb : Ap) (mask : BitVec 2)
  /-- `VSUBS` (R156). Saturating integer subtract. -/
  | vsubs (apd : Ap) (apa : Ap) (apb : Ap) (mask : BitVec 2)
  /-- `VMUL` (R156). Wrapping integer multiply. -/
  | vmul (apd : Ap) (apa : Ap) (apb : Ap) (mask : BitVec 2)
  /-- `VMULH` (R156). High half of the integer product. -/
  | vmulh (apd : Ap) (apa : Ap) (apb : Ap) (mask : BitVec 2)
  /-- `VMACC` (R156). Wrapping multiply-accumulate. -/
  | vmacc (apd : Ap) (apa : Ap) (apb : Ap) (mask : BitVec 2)
  /-- `VWMACC` (R156). Widening multiply-accumulate. -/
  | vwmacc (apd : Ap) (apa : Ap) (apb : Ap) (mask : BitVec 2)
  /-- `VAND` (R156). Bitwise AND. -/
  | vand (apd : Ap) (apa : Ap) (apb : Ap) (mask : BitVec 2)
  /-- `VOR` (R156). Bitwise OR. -/
  | vor (apd : Ap) (apa : Ap) (apb : Ap) (mask : BitVec 2)
  /-- `VXOR` (R156). Bitwise XOR. -/
  | vxor (apd : Ap) (apa : Ap) (apb : Ap) (mask : BitVec 2)
  /-- `VANDN` (R156). a AND NOT b. -/
  | vandn (apd : Ap) (apa : Ap) (apb : Ap) (mask : BitVec 2)
  /-- `VSLL` (R156). Element left shift. -/
  | vsll (apd : Ap) (apa : Ap) (apb : Ap) (mask : BitVec 2)
  /-- `VSRL` (R156). Element logical right shift. -/
  | vsrl (apd : Ap) (apa : Ap) (apb : Ap) (mask : BitVec 2)
  /-- `VSRA` (R156). Element arithmetic right shift. -/
  | vsra (apd : Ap) (apa : Ap) (apb : Ap) (mask : BitVec 2)
  /-- `VSSR` (R156). Rounding right shift under XRM. -/
  | vssr (apd : Ap) (apa : Ap) (apb : Ap) (mask : BitVec 2)
  /-- `VNEG` (R156). Wrapping negation. -/
  | vneg (apd : Ap) (apa : Ap) (mask : BitVec 2)
  /-- `VFADD` (R158). Floating add. -/
  | vfadd (apd : Ap) (apa : Ap) (apb : Ap) (mask : BitVec 2)
  /-- `VFSUB` (R158). Floating subtract. -/
  | vfsub (apd : Ap) (apa : Ap) (apb : Ap) (mask : BitVec 2)
  /-- `VFMUL` (R158). Floating multiply. -/
  | vfmul (apd : Ap) (apa : Ap) (apb : Ap) (mask : BitVec 2)
  /-- `VFDIV` (R158). Floating divide. -/
  | vfdiv (apd : Ap) (apa : Ap) (apb : Ap) (mask : BitVec 2)
  /-- `VFSQRT` (R158). Floating square root. -/
  | vfsqrt (apd : Ap) (apa : Ap) (mask : BitVec 2)
  /-- `VFRCP` (R158). Floating reciprocal. -/
  | vfrcp (apd : Ap) (apa : Ap) (mask : BitVec 2)
  /-- `VFMA` (R158). Fused a × b + d. -/
  | vfma (apd : Ap) (apa : Ap) (apb : Ap) (mask : BitVec 2)
  /-- `VFMS` (R158). Fused a × b − d. -/
  | vfms (apd : Ap) (apa : Ap) (apb : Ap) (mask : BitVec 2)
  /-- `VFNMA` (R158). Fused −(a × b) + d. -/
  | vfnma (apd : Ap) (apa : Ap) (apb : Ap) (mask : BitVec 2)
  /-- `VFWMA` (R158). Widening fused multiply-add into f32. -/
  | vfwma (apd : Ap) (apa : Ap) (apb : Ap) (mask : BitVec 2)
  /-- `VCEQ` (R161). Integer equal compare of row 0 into a mask. -/
  | vceq (kd : KReg) (apa : Ap) (apb : Ap) (mask : BitVec 2)
  /-- `VCNE` (R161). Integer not-equal compare into a mask. -/
  | vcne (kd : KReg) (apa : Ap) (apb : Ap) (mask : BitVec 2)
  /-- `VCLT` (R161). Integer less-than compare into a mask. -/
  | vclt (kd : KReg) (apa : Ap) (apb : Ap) (mask : BitVec 2)
  /-- `VCLE` (R161). Integer less-or-equal compare into a mask. -/
  | vcle (kd : KReg) (apa : Ap) (apb : Ap) (mask : BitVec 2)
  /-- `VFCEQ` (R161). Floating equal compare into a mask. -/
  | vfceq (kd : KReg) (apa : Ap) (apb : Ap) (mask : BitVec 2)
  /-- `VFCLT` (R161). Floating less-than compare into a mask. -/
  | vfclt (kd : KReg) (apa : Ap) (apb : Ap) (mask : BitVec 2)
  /-- `VFCLE` (R161). Floating less-or-equal compare into a mask. -/
  | vfcle (kd : KReg) (apa : Ap) (apb : Ap) (mask : BitVec 2)
  /-- `VFCUN` (R161). Floating unordered compare into a mask. -/
  | vfcun (kd : KReg) (apa : Ap) (apb : Ap) (mask : BitVec 2)
  /-- `VMIN` (R160). Integer minimum. -/
  | vmin (apd : Ap) (apa : Ap) (apb : Ap) (mask : BitVec 2)
  /-- `VMAX` (R160). Integer maximum. -/
  | vmax (apd : Ap) (apa : Ap) (apb : Ap) (mask : BitVec 2)
  /-- `VFMIN` (R162). Floating minimumNumber. -/
  | vfmin (apd : Ap) (apa : Ap) (apb : Ap) (mask : BitVec 2)
  /-- `VFMAX` (R162). Floating maximumNumber. -/
  | vfmax (apd : Ap) (apa : Ap) (apb : Ap) (mask : BitVec 2)
  /-- `KAND` (R160). Mask AND. -/
  | kand (kd : KReg) (ka : KReg) (kb : KReg)
  /-- `KOR` (R160). Mask OR. -/
  | kor (kd : KReg) (ka : KReg) (kb : KReg)
  /-- `KXOR` (R160). Mask XOR. -/
  | kxor (kd : KReg) (ka : KReg) (kb : KReg)
  /-- `KANDN` (R160). Mask AND NOT. -/
  | kandn (kd : KReg) (ka : KReg) (kb : KReg)
  /-- `KNOT` (R160). Mask NOT. -/
  | knot (kd : KReg) (ka : KReg)
  /-- `KMW` (R160). Writes the low 256 bits of a mask into km. -/
  | kmw (ka : KReg)
  /-- `KMR` (R160). Reads km into a mask. -/
  | kmr (kd : KReg)
  /-- `VMOV` (R163). Bit-for-bit copy. -/
  | vmov (apd : Ap) (apa : Ap) (mask : BitVec 2)
  /-- `VFNEG` (R163). Inverts the sign bit. -/
  | vfneg (apd : Ap) (apa : Ap) (mask : BitVec 2)
  /-- `VFABS` (R163). Clears the sign bit. -/
  | vfabs (apd : Ap) (apa : Ap) (mask : BitVec 2)
  /-- `VFSGNJ` (R163). Copies the sign of b. -/
  | vfsgnj (apd : Ap) (apa : Ap) (apb : Ap) (mask : BitVec 2)
  /-- `VREV` (R164). Reverses each swept row. -/
  | vrev (apd : Ap) (apa : Ap) (mask : BitVec 2)
  /-- `VPERM` (R163). Permutes each row by index. -/
  | vperm (apd : Ap) (apa : Ap) (apb : Ap) (mask : BitVec 2)
  /-- `VSLIDN` (R164). Slides each row down by one element, filling from apb. -/
  | vslidn (apd : Ap) (apa : Ap) (apb : Ap) (mask : BitVec 2)
  /-- `VSLIUP` (R164). Slides each row up by one element, filling from apb. -/
  | vsliup (apd : Ap) (apa : Ap) (apb : Ap) (mask : BitVec 2)
  /-- `VIDX` (R163). Writes each element's index. -/
  | vidx (apd : Ap) (mask : BitVec 2)
  /-- `VFCVT` (R167). Floating-to-floating conversion. -/
  | vfcvt (apd : Ap) (apa : Ap) (mask : BitVec 2)
  /-- `VFCVTI` (R167). Floating-to-integer conversion under XRM. -/
  | vfcvti (apd : Ap) (apa : Ap) (mask : BitVec 2)
  /-- `VICVTF` (R167). Integer-to-floating conversion. -/
  | vicvtf (apd : Ap) (apa : Ap) (mask : BitVec 2)
  /-- `VNCLIP` (R166). Narrowing shift rounded under XRM and clamped. -/
  | vnclip (apd : Ap) (apa : Ap) (apb : Ap) (mask : BitVec 2)
  /-- `VEXT` (R166). Widening integer extension. -/
  | vext (apd : Ap) (apa : Ap) (mask : BitVec 2)
  /-- `VREDSUM` (R171). Integer sum of each swept row. -/
  | vredsum (apd : Ap) (apa : Ap) (mask : BitVec 2)
  /-- `VWREDSUM` (R171). Widening integer sum of each row. -/
  | vwredsum (apd : Ap) (apa : Ap) (mask : BitVec 2)
  /-- `VREDMAX` (R171). Integer maximum of each row. -/
  | vredmax (apd : Ap) (apa : Ap) (mask : BitVec 2)
  /-- `VREDMIN` (R171). Integer minimum of each row. -/
  | vredmin (apd : Ap) (apa : Ap) (mask : BitVec 2)
  /-- `VREDAND` (R171). AND reduction of each row. -/
  | vredand (apd : Ap) (apa : Ap) (mask : BitVec 2)
  /-- `VREDOR` (R171). OR reduction of each row. -/
  | vredor (apd : Ap) (apa : Ap) (mask : BitVec 2)
  /-- `VREDXOR` (R171). XOR reduction of each row. -/
  | vredxor (apd : Ap) (apa : Ap) (mask : BitVec 2)
  /-- `VFREDSUM` (R171). Floating tree sum of each row. -/
  | vfredsum (apd : Ap) (apa : Ap) (mask : BitVec 2)
  /-- `VFWREDSUM` (R171). Widening floating sum into f32. -/
  | vfwredsum (apd : Ap) (apa : Ap) (mask : BitVec 2)
  /-- `VFREDMAX` (R171). Floating maximum of each row. -/
  | vfredmax (apd : Ap) (apa : Ap) (mask : BitVec 2)
  /-- `VFREDMIN` (R171). Floating minimum of each row. -/
  | vfredmin (apd : Ap) (apa : Ap) (mask : BitVec 2)
  /-- `VSREDSUM` (R169). Segmented integer sum. -/
  | vsredsum (apd : Ap) (apa : Ap) (kb : KReg) (mask : BitVec 2)
  /-- `VSWREDSUM` (R169). Segmented widening integer sum. -/
  | vswredsum (apd : Ap) (apa : Ap) (kb : KReg) (mask : BitVec 2)
  /-- `VSREDMAX` (R169). Segmented integer maximum. -/
  | vsredmax (apd : Ap) (apa : Ap) (kb : KReg) (mask : BitVec 2)
  /-- `VSREDMIN` (R169). Segmented integer minimum. -/
  | vsredmin (apd : Ap) (apa : Ap) (kb : KReg) (mask : BitVec 2)
  /-- `VSREDAND` (R169). Segmented AND reduction. -/
  | vsredand (apd : Ap) (apa : Ap) (kb : KReg) (mask : BitVec 2)
  /-- `VSREDOR` (R169). Segmented OR reduction. -/
  | vsredor (apd : Ap) (apa : Ap) (kb : KReg) (mask : BitVec 2)
  /-- `VSREDXOR` (R169). Segmented XOR reduction. -/
  | vsredxor (apd : Ap) (apa : Ap) (kb : KReg) (mask : BitVec 2)
  /-- `VSFREDSUM` (R169). Segmented floating sum. -/
  | vsfredsum (apd : Ap) (apa : Ap) (kb : KReg) (mask : BitVec 2)
  /-- `VSFWREDSUM` (R169). Segmented widening floating sum. -/
  | vsfwredsum (apd : Ap) (apa : Ap) (kb : KReg) (mask : BitVec 2)
  /-- `VSFREDMAX` (R169). Segmented floating maximum. -/
  | vsfredmax (apd : Ap) (apa : Ap) (kb : KReg) (mask : BitVec 2)
  /-- `VSFREDMIN` (R169). Segmented floating minimum. -/
  | vsfredmin (apd : Ap) (apa : Ap) (kb : KReg) (mask : BitVec 2)
  /-- `VSCORE` (R177). Scores query against keys into the chain latch, one per token and head. -/
  | vscore (apa : Ap) (apb : Ap) (mask : BitVec 2)
  /-- `VSCORE_S` (R177). Scores with per-channel key scales. -/
  | vscoreS (apd : Ap) (apa : Ap) (apb : Ap) (mask : BitVec 2)
  /-- `VSEGR` (R178). Updates each head's running maximum and rescale factor. -/
  | vsegr (apd : Ap)
  /-- `VEXPS` (R179). Exponentiates the scores in the latch and updates each head's sum. -/
  | vexps (apd : Ap)
  /-- `VWACC` (R180). Rescales the output row and adds probability-weighted values. -/
  | vwacc (apd : Ap) (apa : Ap) (apb : Ap) (mask : BitVec 2)
  /-- `VCLGET` (R181). Copies the chain latch into an aperture. -/
  | vclget (apd : Ap) (mask : BitVec 2)
  /-- `VCLPUT` (R181). Copies an aperture into the chain latch. -/
  | vclput (apa : Ap) (mask : BitVec 2)
  /-- `RADD` (R185). Reversible wrapping add. -/
  | radd (apd : Ap) (apa : Ap) (apb : Ap) (mask : BitVec 2)
  /-- `UADD` (R185). Undoes radd. -/
  | uadd (apd : Ap) (apa : Ap) (apb : Ap) (mask : BitVec 2)
  /-- `RXOR` (R185). Self-inverse XOR. -/
  | rxor (apd : Ap) (apa : Ap) (apb : Ap) (mask : BitVec 2)
  /-- `RMULO` (R185). Wrapping multiply by an odd factor. -/
  | rmulo (apd : Ap) (apa : Ap) (apb : Ap) (mask : BitVec 2)
  /-- `UMULO` (R185). Multiplies by the inverse of an odd factor. -/
  | umulo (apd : Ap) (apa : Ap) (apb : Ap) (mask : BitVec 2)
  /-- `RFMUL` (R186). Reversible floating multiply that pushes the rounding errors. -/
  | rfmul (apd : Ap) (apa : Ap) (apb : Ap) (mask : BitVec 2)
  /-- `UFMUL` (R186). Pops an rfmul record and restores the original. -/
  | ufmul (apd : Ap) (apa : Ap) (apb : Ap) (mask : BitVec 2)
  /-- `RFADD` (R187). Reversible f32 add that pushes the rounding errors. -/
  | rfadd (apd : Ap) (apa : Ap) (apb : Ap) (mask : BitVec 2)
  /-- `UFADD` (R187). Pops an rfadd record and restores the original. -/
  | ufadd (apd : Ap) (apa : Ap) (apb : Ap) (mask : BitVec 2)
  /-- `RCVT` (R188). Reversible f32-to-bf16 narrowing that pushes the low halves and round-up bits. -/
  | rcvt (apd : Ap) (apa : Ap) (mask : BitVec 2)
  /-- `UCVT` (R188). Pops an rcvt record and rebuilds the f32 values. -/
  | ucvt (apd : Ap) (apa : Ap) (mask : BitVec 2)
  /-- `RNRW` (R189). Reversible s32-to-s8 narrowing shift that pushes the originals. -/
  | rnrw (apd : Ap) (apa : Ap) (apb : Ap) (mask : BitVec 2)
  /-- `UNRW` (R189). Pops an rnrw record and restores the s32 originals. -/
  | unrw (apd : Ap) (apa : Ap) (mask : BitVec 2)
  /-- `PAIR` (R112). A guarded scalar operation and an A-format vector instruction that commit together. -/
  | pair (g : KReg) (gs : Bool) (sc : PairScalar) (vec : AHalf)
  /-- `ADEF_RECT` (R151). Writes a rect or rectt Aperture Table entry from immediates. -/
  | adefRect (apd : Ap) (tr : Bool) (ty : BitVec 4) (row0 : BitVec 8) (col0 : BitVec 10) (slots : BitVec 10) (hm1 : BitVec 8)
  /-- `ADEF_LINE` (R152). Writes a row, col, diag or adiag entry, with optional broadcast. -/
  | adefLine (apd : Ap) (line : BitVec 2) (bc : Bool) (ty : BitVec 4) (row0 : BitVec 8) (col0 : BitVec 10) (slots : BitVec 10)
  /-- `ADEFX` (R153). Writes an entry from an x register. -/
  | adefx (apd : Ap) (ra : XReg)
  /-- `AGET` (R154). Reads an entry into an x register. -/
  | aget (rd : XReg) (apa : Ap)
  /-- `AMOV` (R154). Copies one entry into another. -/
  | amov (apd : Ap) (apa : Ap)
  /-- `ASWAP` (R154). Exchanges two entries. -/
  | aswap (apd : Ap) (apa : Ap)
  /-- `ABIND` (R153). Binds an entry to a finder stream. -/
  | abind (apd : Ap) (fs : BitVec 4)
  /-- `AUNBIND` (R153). Unbinds an entry from its stream. -/
  | aunbind (apd : Ap)
  /-- `EFCGET` (R155). Copies EFC carries into an f32 aperture. -/
  | efcget (kg : KReg) (ks : Bool) (apd : Ap)
  /-- `EFCPUT` (R155). Copies an f32 aperture into EFC. -/
  | efcput (kg : KReg) (ks : Bool) (apa : Ap)
  /-- `VSPLAT` (R154). Writes the low bits of an x register into every active element. -/
  | vsplat (kg : KReg) (ks : Bool) (apd : Ap) (ra : XReg)
  /-- `VGET` (R154). Reads one element into an x register through the vector queue. -/
  | vget (rd : XReg) (apa : Ap) (rb : XReg)
  /-- `VLDS` (R217). Strided vector load. -/
  | vlds (kg : KReg) (ks : Bool) (ap : Ap) (base : XReg) (xs : XReg) (xr : XReg) (off : BitVec 11)
  /-- `VLSEG` (R217). Segment load of N fields into consecutive apertures. -/
  | vlseg (kg : KReg) (ks : Bool) (ap : Ap) (nf : BitVec 3) (base : XReg) (xs : XReg) (xr : XReg) (off : BitVec 11)
  /-- `VSTS` (R217). Strided vector store. -/
  | vsts (kg : KReg) (ks : Bool) (ap : Ap) (base : XReg) (xs : XReg) (xr : XReg) (off : BitVec 11)
  /-- `VSSEG` (R217). Segment store of N fields. -/
  | vsseg (kg : KReg) (ks : Bool) (ap : Ap) (nf : BitVec 3) (base : XReg) (xs : XReg) (xr : XReg) (off : BitVec 11)
  /-- `VLDX` (R218). Element-indexed vector load. -/
  | vldx (kg : KReg) (ks : Bool) (ap : Ap) (base : XReg) (xr : XReg) (idx : Ap) (off : BitVec 11)
  /-- `VLDXR` (R218). Row-indexed vector load. -/
  | vldxr (kg : KReg) (ks : Bool) (ap : Ap) (base : XReg) (xs : XReg) (idx : Ap) (off : BitVec 11)
  /-- `VSTX` (R218). Element-indexed vector store. -/
  | vstx (kg : KReg) (ks : Bool) (ap : Ap) (base : XReg) (xr : XReg) (idx : Ap) (off : BitVec 11)
  /-- `VSTXR` (R218). Row-indexed vector store. -/
  | vstxr (kg : KReg) (ks : Bool) (ap : Ap) (base : XReg) (xs : XReg) (idx : Ap) (off : BitVec 11)
  /-- `FSBIND` (R222). Reads a stream record and binds a finder stream at position 0. -/
  | fsbind (fs : BitVec 4) (ra : XReg)
  /-- `FSREL` (R222). Unbinds a finder stream and discards its run-ahead. -/
  | fsrel (fs : BitVec 4)
  /-- `FSGET` (R222). Returns a stream's position. -/
  | fsget (rd : XReg) (fs : BitVec 4)
  /-- `VXLAT` (R226). Translates token positions to pool offsets and marks bad positions in a mask. -/
  | vxlat (kg : KReg) (ks : Bool) (kd : KReg) (apd : Ap) (apa : Ap) (xt : XReg) (xp : XReg)
  /-- `VXLAT_FF` (R226). Translates positions and trims VL at the first bad one. -/
  | vxlatFf (kg : KReg) (ks : Bool) (kd : KReg) (apd : Ap) (apa : Ap) (xt : XReg) (xp : XReg)
  /-- `VAMADD` (R233). Indexed vector atomic integer add with merged duplicates. -/
  | vamadd (kg : KReg) (ks : Bool) (ret : Bool) (apd : Ap) (apa : Ap) (base : XReg) (idx : Ap) (scope : BitVec 3) (q : BitVec 2)
  /-- `VAMFADD` (R233). Indexed vector atomic f32 add. -/
  | vamfadd (kg : KReg) (ks : Bool) (ret : Bool) (apd : Ap) (apa : Ap) (base : XReg) (idx : Ap) (scope : BitVec 3) (q : BitVec 2)
  /-- `VAMMIN` (R233). Indexed vector atomic integer minimum. -/
  | vammin (kg : KReg) (ks : Bool) (ret : Bool) (apd : Ap) (apa : Ap) (base : XReg) (idx : Ap) (scope : BitVec 3) (q : BitVec 2)
  /-- `VAMMAX` (R233). Indexed vector atomic integer maximum. -/
  | vammax (kg : KReg) (ks : Bool) (ret : Bool) (apd : Ap) (apa : Ap) (base : XReg) (idx : Ap) (scope : BitVec 3) (q : BitVec 2)
  /-- `VAMFMIN` (R233). Indexed vector atomic f32 minimum. -/
  | vamfmin (kg : KReg) (ks : Bool) (ret : Bool) (apd : Ap) (apa : Ap) (base : XReg) (idx : Ap) (scope : BitVec 3) (q : BitVec 2)
  /-- `VAMFMAX` (R233). Indexed vector atomic f32 maximum. -/
  | vamfmax (kg : KReg) (ks : Bool) (ret : Bool) (apd : Ap) (apa : Ap) (base : XReg) (idx : Ap) (scope : BitVec 3) (q : BitVec 2)
  /-- `VAMAND` (R233). Indexed vector atomic AND. -/
  | vamand (kg : KReg) (ks : Bool) (ret : Bool) (apd : Ap) (apa : Ap) (base : XReg) (idx : Ap) (scope : BitVec 3) (q : BitVec 2)
  /-- `VAMOR` (R233). Indexed vector atomic OR. -/
  | vamor (kg : KReg) (ks : Bool) (ret : Bool) (apd : Ap) (apa : Ap) (base : XReg) (idx : Ap) (scope : BitVec 3) (q : BitVec 2)
  /-- `VAMXOR` (R233). Indexed vector atomic XOR. -/
  | vamxor (kg : KReg) (ks : Bool) (ret : Bool) (apd : Ap) (apa : Ap) (base : XReg) (idx : Ap) (scope : BitVec 3) (q : BitVec 2)
  /-- `ACCWIN` (R235). Declares an accumulation window and fills its copies with the identity. -/
  | accwin (aw : BitVec 2) (op : BitVec 2) (ty : BitVec 4) (xb : XReg) (xl : XReg) (xg : XReg)
  /-- `AWACC` (R236). Updates window copies in sweep order. -/
  | awacc (kg : KReg) (ks : Bool) (aw : BitVec 2) (idx : Ap) (apa : Ap)
  /-- `MERGE` (R237). Folds the window copies into memory atomically in lane order and resets them. -/
  | merge (aw : BitVec 2) (scope : BitVec 3) (q : BitVec 2)
  /-- `AWREL` (R237). Undeclares a window. -/
  | awrel (aw : BitVec 2)
  /-- `STPEEK` (R203). Returns the top record's COUNT, WVT and TAG. -/
  | stpeek (rd : XReg)
  /-- `STDROP` (R203). Removes the top records without checks. -/
  | stdrop (ra : XReg)
  /-- `STCUT` (R203). Sets STP to a record boundary. -/
  | stcut (ra : XReg)
  /-- `STSYNC` (R362). Writes the on-chip stair top to memory and keeps it on chip. -/
  | stsync
  /-- `STPRE` (R203). Hint that may fill stair bytes below STP. -/
  | stpre (ra : XReg)
  /-- `TSHAPE` (R257). Sets the shape of the next tile loaded. -/
  | tshape (nm1 : BitVec 6) (km1 : BitVec 7)
  /-- `TLOAD` (R258). Fills a tile from a rect or rectt aperture. -/
  | tload (t : BitVec 3) (apa : Ap)
  /-- `TMAC` (R259). Multiplies one aperture row by a tile and accumulates into a bank row. -/
  | tmac (t : BitVec 3) (apa : Ap) (xr : XReg)
  /-- `TZERO` (R260). Clears an accumulator bank. -/
  | tzero (t : BitVec 3)
  /-- `TDRAIN` (R261). Copies bank rows into the plane, possibly heading a drain chain. -/
  | tdrain (kg : KReg) (ks : Bool) (apd : Ap) (t : BitVec 3) (xr : XReg)
  /-- `TRESTART` (R267). Registers a restart label for rebuilding accumulators. -/
  | trestart (disp : BitVec 32)
  /-- `TCLOSE` (R267). Clears the restart label. -/
  | tclose
  /-- `CPY` (R248). Engine copy of a byte range with an optional completion counter. -/
  | cpy (xd : XReg) (xs : XReg) (xn : XReg) (xc : XReg) (scope : BitVec 3)
  /-- `COLL_AR` (R249). All-reduce collective. -/
  | collAr (xa : XReg) (scope : BitVec 3)
  /-- `COLL_RS` (R249). Reduce-scatter collective. -/
  | collRs (xa : XReg) (scope : BitVec 3)
  /-- `COLL_AG` (R249). All-gather collective. -/
  | collAg (xa : XReg) (scope : BitVec 3)
  /-- `COLL_A2A` (R249). All-to-all collective. -/
  | collA2a (xa : XReg) (scope : BitVec 3)
  /-- `UPD_SGDM` (R250). Engine SGD-with-momentum weight update. -/
  | updSgdm (xa : XReg) (scope : BitVec 3)
  /-- `UPD_ADAMW` (R250). Engine AdamW weight update. -/
  | updAdamw (xa : XReg) (scope : BitVec 3)
  /-- `SKIPSET` (R251). Sets a skip word when the condition is nonzero. -/
  | skipset (xa : XReg) (xb : XReg)
  /-- `WVER` (R251). Binds a weight-version register to a memory word. -/
  | wver (n : BitVec 6) (xa : XReg)
  /-- `MEMORY_ACCESS_PERFORMED` (R303). A store, atomic step or engine transfer reaches the point of R239 (its home slice, gallery or CXL port) and becomes readable by all agents, or a load's value becomes fixed, and its interlock entry is freed. -/
  | memoryAccessPerformed (hart : Nat)
  /-- `MODULE_POWER_REMOVAL` (R80). Removal of module power loses plane contents and all volatile state, except DEGST counts, until power returns through module reset. -/
  | modulePowerRemoval
  deriving DecidableEq, Repr

end Sys2Proof
end

