-- ==== Sys2Proof/WellFormed.lean ====
section
/-! DEFINITION. Which terms of the syntax are instructions or events of the spec: the limits that a field's width
alone does not give (R119 and the entry of each instruction). -/

namespace Sys2Proof

/-- A TYPE code of R64 that is not reserved. -/
def typeOk (ty : BitVec 4) : Bool := decide (ty.toNat ≤ 0xA)

/-- A scope of R115: 6 and 7 are reserved. -/
def scopeOk (s : BitVec 3) : Bool := decide (s.toNat ≤ 5)

/-- How an operation uses one of the three A-format fields. -/
inductive FieldUse where
  | ap | mask | zero
  deriving DecidableEq, Repr

/-- A field holds what its use allows: a mask register number has its high 3 bits 0 (R160), an unused field is 0. -/
def FieldUse.ok : FieldUse → Ap → Bool
  | .ap, _ => true
  | .mask, a => decide (a.toNat < 8)
  | .zero, a => decide (a = 0)

/-- The uses of apd, apa and apb by each operation (R156, R158, R160, R163, R166, R169, R176, R183). -/
def AOp.uses : AOp → FieldUse × FieldUse × FieldUse
  | .vadd => (.ap, .ap, .ap)
  | .vsub => (.ap, .ap, .ap)
  | .vadds => (.ap, .ap, .ap)
  | .vsubs => (.ap, .ap, .ap)
  | .vmul => (.ap, .ap, .ap)
  | .vmulh => (.ap, .ap, .ap)
  | .vmacc => (.ap, .ap, .ap)
  | .vwmacc => (.ap, .ap, .ap)
  | .vand => (.ap, .ap, .ap)
  | .vor => (.ap, .ap, .ap)
  | .vxor => (.ap, .ap, .ap)
  | .vandn => (.ap, .ap, .ap)
  | .vsll => (.ap, .ap, .ap)
  | .vsrl => (.ap, .ap, .ap)
  | .vsra => (.ap, .ap, .ap)
  | .vssr => (.ap, .ap, .ap)
  | .vneg => (.ap, .ap, .zero)
  | .vfadd => (.ap, .ap, .ap)
  | .vfsub => (.ap, .ap, .ap)
  | .vfmul => (.ap, .ap, .ap)
  | .vfdiv => (.ap, .ap, .ap)
  | .vfsqrt => (.ap, .ap, .zero)
  | .vfrcp => (.ap, .ap, .zero)
  | .vfma => (.ap, .ap, .ap)
  | .vfms => (.ap, .ap, .ap)
  | .vfnma => (.ap, .ap, .ap)
  | .vfwma => (.ap, .ap, .ap)
  | .vceq => (.mask, .ap, .ap)
  | .vcne => (.mask, .ap, .ap)
  | .vclt => (.mask, .ap, .ap)
  | .vcle => (.mask, .ap, .ap)
  | .vfceq => (.mask, .ap, .ap)
  | .vfclt => (.mask, .ap, .ap)
  | .vfcle => (.mask, .ap, .ap)
  | .vfcun => (.mask, .ap, .ap)
  | .vmin => (.ap, .ap, .ap)
  | .vmax => (.ap, .ap, .ap)
  | .vfmin => (.ap, .ap, .ap)
  | .vfmax => (.ap, .ap, .ap)
  | .kand => (.mask, .mask, .mask)
  | .kor => (.mask, .mask, .mask)
  | .kxor => (.mask, .mask, .mask)
  | .kandn => (.mask, .mask, .mask)
  | .knot => (.mask, .mask, .zero)
  | .kmw => (.zero, .mask, .zero)
  | .kmr => (.mask, .zero, .zero)
  | .vmov => (.ap, .ap, .zero)
  | .vfneg => (.ap, .ap, .zero)
  | .vfabs => (.ap, .ap, .zero)
  | .vfsgnj => (.ap, .ap, .ap)
  | .vrev => (.ap, .ap, .zero)
  | .vperm => (.ap, .ap, .ap)
  | .vslidn => (.ap, .ap, .ap)
  | .vsliup => (.ap, .ap, .ap)
  | .vidx => (.ap, .zero, .zero)
  | .vfcvt => (.ap, .ap, .zero)
  | .vfcvti => (.ap, .ap, .zero)
  | .vicvtf => (.ap, .ap, .zero)
  | .vnclip => (.ap, .ap, .ap)
  | .vext => (.ap, .ap, .zero)
  | .vredsum => (.ap, .ap, .zero)
  | .vwredsum => (.ap, .ap, .zero)
  | .vredmax => (.ap, .ap, .zero)
  | .vredmin => (.ap, .ap, .zero)
  | .vredand => (.ap, .ap, .zero)
  | .vredor => (.ap, .ap, .zero)
  | .vredxor => (.ap, .ap, .zero)
  | .vfredsum => (.ap, .ap, .zero)
  | .vfwredsum => (.ap, .ap, .zero)
  | .vfredmax => (.ap, .ap, .zero)
  | .vfredmin => (.ap, .ap, .zero)
  | .vsredsum => (.ap, .ap, .mask)
  | .vswredsum => (.ap, .ap, .mask)
  | .vsredmax => (.ap, .ap, .mask)
  | .vsredmin => (.ap, .ap, .mask)
  | .vsredand => (.ap, .ap, .mask)
  | .vsredor => (.ap, .ap, .mask)
  | .vsredxor => (.ap, .ap, .mask)
  | .vsfredsum => (.ap, .ap, .mask)
  | .vsfwredsum => (.ap, .ap, .mask)
  | .vsfredmax => (.ap, .ap, .mask)
  | .vsfredmin => (.ap, .ap, .mask)
  | .vscore => (.zero, .ap, .ap)
  | .vscoreS => (.ap, .ap, .ap)
  | .vsegr => (.ap, .zero, .zero)
  | .vexps => (.ap, .zero, .zero)
  | .vwacc => (.ap, .ap, .ap)
  | .vclget => (.ap, .zero, .zero)
  | .vclput => (.zero, .ap, .zero)
  | .radd => (.ap, .ap, .ap)
  | .uadd => (.ap, .ap, .ap)
  | .rxor => (.ap, .ap, .ap)
  | .rmulo => (.ap, .ap, .ap)
  | .umulo => (.ap, .ap, .ap)
  | .rfmul => (.ap, .ap, .ap)
  | .ufmul => (.ap, .ap, .ap)
  | .rfadd => (.ap, .ap, .ap)
  | .ufadd => (.ap, .ap, .ap)
  | .rcvt => (.ap, .ap, .zero)
  | .ucvt => (.ap, .ap, .zero)
  | .rnrw => (.ap, .ap, .ap)
  | .unrw => (.ap, .ap, .zero)

/-- The operations that carry a guard in their mask field (R110, R146, R176). -/
def AOp.guarded : AOp → Bool
  | .vadd => true
  | .vsub => true
  | .vadds => true
  | .vsubs => true
  | .vmul => true
  | .vmulh => true
  | .vmacc => true
  | .vwmacc => true
  | .vand => true
  | .vor => true
  | .vxor => true
  | .vandn => true
  | .vsll => true
  | .vsrl => true
  | .vsra => true
  | .vssr => true
  | .vneg => true
  | .vfadd => true
  | .vfsub => true
  | .vfmul => true
  | .vfdiv => true
  | .vfsqrt => true
  | .vfrcp => true
  | .vfma => true
  | .vfms => true
  | .vfnma => true
  | .vfwma => true
  | .vceq => true
  | .vcne => true
  | .vclt => true
  | .vcle => true
  | .vfceq => true
  | .vfclt => true
  | .vfcle => true
  | .vfcun => true
  | .vmin => true
  | .vmax => true
  | .vfmin => true
  | .vfmax => true
  | .kand => false
  | .kor => false
  | .kxor => false
  | .kandn => false
  | .knot => false
  | .kmw => false
  | .kmr => false
  | .vmov => true
  | .vfneg => true
  | .vfabs => true
  | .vfsgnj => true
  | .vrev => true
  | .vperm => true
  | .vslidn => true
  | .vsliup => true
  | .vidx => true
  | .vfcvt => true
  | .vfcvti => true
  | .vicvtf => true
  | .vnclip => true
  | .vext => true
  | .vredsum => true
  | .vwredsum => true
  | .vredmax => true
  | .vredmin => true
  | .vredand => true
  | .vredor => true
  | .vredxor => true
  | .vfredsum => true
  | .vfwredsum => true
  | .vfredmax => true
  | .vfredmin => true
  | .vsredsum => true
  | .vswredsum => true
  | .vsredmax => true
  | .vsredmin => true
  | .vsredand => true
  | .vsredor => true
  | .vsredxor => true
  | .vsfredsum => true
  | .vsfwredsum => true
  | .vsfredmax => true
  | .vsfredmin => true
  | .vscore => true
  | .vscoreS => true
  | .vsegr => false
  | .vexps => false
  | .vwacc => true
  | .vclget => true
  | .vclput => true
  | .radd => true
  | .uadd => true
  | .rxor => true
  | .rmulo => true
  | .umulo => true
  | .rfmul => true
  | .ufmul => true
  | .rfadd => true
  | .ufadd => true
  | .rcvt => true
  | .ucvt => true
  | .rnrw => true
  | .unrw => true

/-- An A-format instruction whose unused fields are 0. -/
def AHalf.wf (h : AHalf) : Bool :=
  h.op.uses.1.ok h.apd && h.op.uses.2.1.ok h.apa && h.op.uses.2.2.ok h.apb

/-- A unit of the module (R16, R21). -/
def Resource.wf : Resource → Bool
  | .core d c => decide (d < 8 ∧ c < 64)
  | .way d => decide (d < 8)
  | .row d => decide (d < 8)

/-- A CSR number of 16 bits, or a management offset inside the 16 MiB register space written by one of the six
masters (R205, R335). -/
def RegTarget.wf : RegTarget → Bool
  | .csr n => decide (n < 0x10000)
  | .mgmt m off => decide (m ≤ 5 ∧ off < 0x1000000)

/-- The well-formed terms. -/
def Instr.wf : Instr → Bool
  | .moduleReset _ => true
  | .msgWrite window _ master _ => decide (window < 64 ∧ master ≤ 5)
  | .lqcfgWrite window master _ => decide (window < 64 ∧ master ≤ 5)
  | .waitCounterRead _ => true
  | .placementDecision => true
  | .launchComplete _ => true
  | .lctlWrite _ => true
  | .vectorIssue core => decide (core < 512)
  | .vectorPass core => decide (core < 512)
  | .laneGroupGate core group => decide (core < 512) && decide (group < 8)
  | .laneGroupWake core group => decide (core < 512) && decide (group < 8)
  | .dispatchGate core => decide (core < 512)
  | .slewStep die => decide (die < 8)
  | .slewCoreQuiet core => decide (core < 512)
  | .transitIssue core => decide (core < 512)
  | .transitOpComplete core => decide (core < 512)
  | .transitGate core => decide (core < 512)
  | .transitWake core => decide (core < 512)
  | .freqreqWrite core _ => decide (core < 512)
  | .freqRampStep core => decide (core < 512)
  | .relockEnd core => decide (core < 512)
  | .fstatRead _ => true
  | .fstatWrite _ => true
  | .cycwRead _ => true
  | .vlRcRead _ _ => true
  | .stairRegRead _ _ => true
  | .stairRegWrite _ _ => true
  | .xstepWrite _ => true
  | .registerWrite target _ => target.wf
  | .claimWrite master _ => decide (master ≤ 5)
  | .claimWindowClose => true
  | .handoverRelease master => decide (master ≤ 5)
  | .handoverTransfer master dest => decide (master ≤ 5 ∧ dest < 8)
  | .ownerLinkDown master => decide (master ≤ 4)
  | .preempt master _ => decide (master ≤ 5)
  | .resume master _ => decide (master ≤ 5)
  | .kill master _ => decide (master ≤ 5)
  | .gangSave _ => true
  | .plateFill plate => decide (plate < 256)
  | .intpostWrite master _ => decide (master ≤ 5)
  | .interruptTake hart => decide (hart < 2048)
  | .migrationRequest _ _ => true
  | .migrationContest _ _ => true
  | .dataError _ => true
  | .supplyLimit die => decide (die < 8)
  | .resourceRemoval what => what.wf
  | .gleipFlitRetry flit => decide (flit.port < 16)
  | .gleipPortDown port => decide (port < 16)
  | .abortToken group die => decide (group < 256 ∧ die < 8)
  | .ucieModuleLoss => true
  | .hostAccess _ _ => true
  | .getVersion => true
  | .getCapabilities => true
  | .negotiateAlgorithms _ _ => true
  | .getDigests => true
  | .getCertificate => true
  | .challenge _ => true
  | .getMeasurements => true
  | .unsupportedRequest _ => true
  | .engineCommandComplete _ => true
  | .collectiveStart group _ => decide (group < 256)
  | .streamRunahead _ => true
  | .pageWalk _ _ => true
  | .fetch hart => decide (hart < 2048)
  | .translationUnitLower hart => decide (hart < 2048)
  | .lwaitReturn hart => decide (hart < 2048)
  | .wfiWake hart => decide (hart < 2048)
  | .mdasAssemble _ _ => true
  | .add _ _ _ => true
  | .sub _ _ _ => true
  | .and _ _ _ => true
  | .or _ _ _ => true
  | .xor _ _ _ => true
  | .andn _ _ _ => true
  | .sll _ _ _ => true
  | .srl _ _ _ => true
  | .sra _ _ _ => true
  | .slt _ _ _ => true
  | .sltn _ _ _ => true
  | .min _ _ _ => true
  | .max _ _ _ => true
  | .minn _ _ _ => true
  | .maxn _ _ _ => true
  | .clz _ _ => true
  | .ctz _ _ => true
  | .popc _ _ => true
  | .sxb _ _ => true
  | .sxh _ _ => true
  | .sxw _ _ => true
  | .zxb _ _ => true
  | .zxh _ _ => true
  | .zxw _ _ => true
  | .adds1 _ _ _ => true
  | .adds2 _ _ _ => true
  | .adds3 _ _ _ => true
  | .sliceof _ _ => true
  | .slli _ _ _ => true
  | .srli _ _ _ => true
  | .srai _ _ _ => true
  | .addi _ _ _ => true
  | .andi _ _ _ => true
  | .ori _ _ _ => true
  | .xori _ _ _ => true
  | .slti _ _ _ => true
  | .sltni _ _ _ => true
  | .lih _ _ _ => true
  | .mul _ _ _ => true
  | .mulh _ _ _ => true
  | .mulhn _ _ _ => true
  | .mulhsn _ _ _ => true
  | .div _ _ _ => true
  | .divn _ _ _ => true
  | .rem _ _ _ => true
  | .remn _ _ _ => true
  | .setvl _ _ ty => typeOk ty
  | .setvlG _ _ ty => typeOk ty
  | .setrc _ _ _ => true
  | .jmp _ => true
  | .call _ => true
  | .beq _ _ _ => true
  | .bne _ _ _ => true
  | .blt _ _ _ => true
  | .bge _ _ _ => true
  | .bltn _ _ _ => true
  | .bgen _ _ _ => true
  | .jmpl _ _ _ => true
  | .csrrw _ _ _ => true
  | .csrrs _ _ _ => true
  | .csrrc _ _ _ => true
  | .trap _ => true
  | .eret => true
  | .wfi => true
  | .dclean _ _ => true
  | .xcinv _ _ => true
  | .fbar => true
  | .ptsync => true
  | .launch _ _ => true
  | .fenceSv scope => scopeOk scope
  | .fenceVs scope => scopeOk scope
  | .fenceVv scope => scopeOk scope
  | .fenceAll scope => scopeOk scope
  | .larrive _ => true
  | .lwait _ _ => true
  | .larriveScope _ _ scope => scopeOk scope && decide (2 ≤ scope.toNat)
  | .lwaitScope _ _ _ scope => scopeOk scope && decide (2 ≤ scope.toNat)
  | .retire => true
  | .twake => true
  | .tfill _ => true
  | .bkt _ _ => true
  | .lb _ _ _ => true
  | .lh _ _ _ => true
  | .lw _ _ _ => true
  | .ld _ _ _ => true
  | .lbn _ _ _ => true
  | .lhn _ _ _ => true
  | .lwn _ _ _ => true
  | .ldn _ _ _ => true
  | .sb _ _ _ => true
  | .sh _ _ _ => true
  | .sw _ _ _ => true
  | .sd _ _ _ => true
  | .amswp _ _ _ _ scope _ => scopeOk scope
  | .amcas _ _ _ _ scope _ => scopeOk scope
  | .amadd _ _ _ _ scope _ => scopeOk scope
  | .amand _ _ _ _ scope _ => scopeOk scope
  | .amor _ _ _ _ scope _ => scopeOk scope
  | .amxor _ _ _ _ scope _ => scopeOk scope
  | .ammin _ _ _ _ scope _ => scopeOk scope
  | .ammax _ _ _ _ scope _ => scopeOk scope
  | .amminn _ _ _ _ scope _ => scopeOk scope
  | .ammaxn _ _ _ _ scope _ => scopeOk scope
  | .amfadd _ _ _ scope _ => scopeOk scope
  | .amfmin _ _ _ scope _ => scopeOk scope
  | .amfmax _ _ _ scope _ => scopeOk scope
  | .amld _ _ _ scope q => scopeOk scope && decide (q = 0 ∨ q = 1)
  | .amst _ _ _ scope q => scopeOk scope && decide (q = 0 ∨ q = 2)
  | .vld _ _ _ _ => true
  | .vst _ _ _ _ => true
  | .vadd _ _ _ _ => true
  | .vsub _ _ _ _ => true
  | .vadds _ _ _ _ => true
  | .vsubs _ _ _ _ => true
  | .vmul _ _ _ _ => true
  | .vmulh _ _ _ _ => true
  | .vmacc _ _ _ _ => true
  | .vwmacc _ _ _ _ => true
  | .vand _ _ _ _ => true
  | .vor _ _ _ _ => true
  | .vxor _ _ _ _ => true
  | .vandn _ _ _ _ => true
  | .vsll _ _ _ _ => true
  | .vsrl _ _ _ _ => true
  | .vsra _ _ _ _ => true
  | .vssr _ _ _ _ => true
  | .vneg _ _ _ => true
  | .vfadd _ _ _ _ => true
  | .vfsub _ _ _ _ => true
  | .vfmul _ _ _ _ => true
  | .vfdiv _ _ _ _ => true
  | .vfsqrt _ _ _ => true
  | .vfrcp _ _ _ => true
  | .vfma _ _ _ _ => true
  | .vfms _ _ _ _ => true
  | .vfnma _ _ _ _ => true
  | .vfwma _ _ _ _ => true
  | .vceq _ _ _ _ => true
  | .vcne _ _ _ _ => true
  | .vclt _ _ _ _ => true
  | .vcle _ _ _ _ => true
  | .vfceq _ _ _ _ => true
  | .vfclt _ _ _ _ => true
  | .vfcle _ _ _ _ => true
  | .vfcun _ _ _ _ => true
  | .vmin _ _ _ _ => true
  | .vmax _ _ _ _ => true
  | .vfmin _ _ _ _ => true
  | .vfmax _ _ _ _ => true
  | .kand _ _ _ => true
  | .kor _ _ _ => true
  | .kxor _ _ _ => true
  | .kandn _ _ _ => true
  | .knot _ _ => true
  | .kmw _ => true
  | .kmr _ => true
  | .vmov _ _ _ => true
  | .vfneg _ _ _ => true
  | .vfabs _ _ _ => true
  | .vfsgnj _ _ _ _ => true
  | .vrev _ _ _ => true
  | .vperm _ _ _ _ => true
  | .vslidn _ _ _ _ => true
  | .vsliup _ _ _ _ => true
  | .vidx _ _ => true
  | .vfcvt _ _ _ => true
  | .vfcvti _ _ _ => true
  | .vicvtf _ _ _ => true
  | .vnclip _ _ _ _ => true
  | .vext _ _ _ => true
  | .vredsum _ _ _ => true
  | .vwredsum _ _ _ => true
  | .vredmax _ _ _ => true
  | .vredmin _ _ _ => true
  | .vredand _ _ _ => true
  | .vredor _ _ _ => true
  | .vredxor _ _ _ => true
  | .vfredsum _ _ _ => true
  | .vfwredsum _ _ _ => true
  | .vfredmax _ _ _ => true
  | .vfredmin _ _ _ => true
  | .vsredsum _ _ _ _ => true
  | .vswredsum _ _ _ _ => true
  | .vsredmax _ _ _ _ => true
  | .vsredmin _ _ _ _ => true
  | .vsredand _ _ _ _ => true
  | .vsredor _ _ _ _ => true
  | .vsredxor _ _ _ _ => true
  | .vsfredsum _ _ _ _ => true
  | .vsfwredsum _ _ _ _ => true
  | .vsfredmax _ _ _ _ => true
  | .vsfredmin _ _ _ _ => true
  | .vscore _ _ _ => true
  | .vscoreS _ _ _ _ => true
  | .vsegr _ => true
  | .vexps _ => true
  | .vwacc _ _ _ _ => true
  | .vclget _ _ => true
  | .vclput _ _ => true
  | .radd _ _ _ _ => true
  | .uadd _ _ _ _ => true
  | .rxor _ _ _ _ => true
  | .rmulo _ _ _ _ => true
  | .umulo _ _ _ _ => true
  | .rfmul _ _ _ _ => true
  | .ufmul _ _ _ _ => true
  | .rfadd _ _ _ _ => true
  | .ufadd _ _ _ _ => true
  | .rcvt _ _ _ => true
  | .ucvt _ _ _ => true
  | .rnrw _ _ _ _ => true
  | .unrw _ _ _ => true
  | .pair g gs _ vec => vec.wf && (vec.op.guarded || (decide (g = 0) && !gs))
  | .adefRect _ _ ty _ _ _ _ => typeOk ty
  | .adefLine _ _ _ ty _ _ _ => typeOk ty
  | .adefx _ _ => true
  | .aget _ _ => true
  | .amov _ _ => true
  | .aswap _ _ => true
  | .abind _ _ => true
  | .aunbind _ => true
  | .efcget _ _ _ => true
  | .efcput _ _ _ => true
  | .vsplat _ _ _ _ => true
  | .vget _ _ _ => true
  | .vlds _ _ _ _ _ _ _ => true
  | .vlseg _ _ _ nf _ _ _ _ => decide (nf ≠ 0)
  | .vsts _ _ _ _ _ _ _ => true
  | .vsseg _ _ _ nf _ _ _ _ => decide (nf ≠ 0)
  | .vldx _ _ _ _ _ _ _ => true
  | .vldxr _ _ _ _ xs _ _ => decide (xs ≠ 0)
  | .vstx _ _ _ _ _ _ _ => true
  | .vstxr _ _ _ _ xs _ _ => decide (xs ≠ 0)
  | .fsbind _ _ => true
  | .fsrel _ => true
  | .fsget _ _ => true
  | .vxlat _ _ _ _ _ _ _ => true
  | .vxlatFf _ _ _ _ _ _ _ => true
  | .vamadd _ _ ret apd _ _ _ scope _ => scopeOk scope && (ret || decide (apd = 0))
  | .vamfadd _ _ ret apd _ _ _ scope _ => scopeOk scope && (ret || decide (apd = 0))
  | .vammin _ _ ret apd _ _ _ scope _ => scopeOk scope && (ret || decide (apd = 0))
  | .vammax _ _ ret apd _ _ _ scope _ => scopeOk scope && (ret || decide (apd = 0))
  | .vamfmin _ _ ret apd _ _ _ scope _ => scopeOk scope && (ret || decide (apd = 0))
  | .vamfmax _ _ ret apd _ _ _ scope _ => scopeOk scope && (ret || decide (apd = 0))
  | .vamand _ _ ret apd _ _ _ scope _ => scopeOk scope && (ret || decide (apd = 0))
  | .vamor _ _ ret apd _ _ _ scope _ => scopeOk scope && (ret || decide (apd = 0))
  | .vamxor _ _ ret apd _ _ _ scope _ => scopeOk scope && (ret || decide (apd = 0))
  | .accwin _ op ty _ _ _ => decide (op ≠ 3) && decide (ty = 4 ∨ ty = 5 ∨ ty = 8)
  | .awacc _ _ _ _ _ => true
  | .merge _ scope q => scopeOk scope && decide (q = 0 ∨ q = 2)
  | .awrel _ => true
  | .stpeek _ => true
  | .stdrop _ => true
  | .stcut _ => true
  | .stsync => true
  | .stpre _ => true
  | .tshape _ _ => true
  | .tload _ _ => true
  | .tmac _ _ _ => true
  | .tzero _ => true
  | .tdrain _ _ _ _ _ => true
  | .trestart _ => true
  | .tclose => true
  | .cpy _ _ _ _ scope => scopeOk scope
  | .collAr _ scope => scopeOk scope
  | .collRs _ scope => scopeOk scope
  | .collAg _ scope => scopeOk scope
  | .collA2a _ scope => scopeOk scope
  | .updSgdm _ scope => scopeOk scope
  | .updAdamw _ scope => scopeOk scope
  | .skipset _ _ => true
  | .wver _ _ => true
  | .memoryAccessPerformed hart => decide (hart < 2048)
  | .modulePowerRemoval => true

end Sys2Proof
end

