-- ==== Sys2Proof/Decode.lean ====
section
/-! DEFINITION. The decoder, total on any two words, and the encoder, both written from the encoding tables of the
spec (R107, R114, R117, R118 and the entries of the instructions). A word is an instruction exactly when the fields
read from it give a well-formed term whose encoding is that very word: so no bit that an entry requires to be zero
is ever ignored (R119). -/

namespace Sys2Proof

/-- The words of an instruction: one, or two for the L and P formats (R105). -/
inductive Words where
  | none
  | one (w : IWord)
  | two (w v : IWord)
  deriving DecidableEq, Repr

/-! ### Field layouts of the formats (R107) -/

/-- R format: major, rd, ra, rb, func. -/
def rWord (major : BitVec 6) (rd ra rb : XReg) (func : BitVec 11) : IWord := major ++ rd ++ ra ++ rb ++ func

/-- I format (and B, whose ra and rb stand where I has rd and ra). -/
def iWord (major : BitVec 6) (rd ra : XReg) (imm : BitVec 16) : IWord := major ++ rd ++ ra ++ imm

/-- A format. -/
def aWord (major : BitVec 6) (apd apa apb : Ap) (func : BitVec 6) (mask : BitVec 2) : IWord :=
  major ++ apd ++ apa ++ apb ++ func ++ mask

/-- M format. -/
def mWord (major : BitVec 6) (r : BitVec 6) (base : XReg) (off : BitVec 12) (size : BitVec 3) : IWord :=
  major ++ r ++ base ++ off ++ size

/-- J format. -/
def jWord (major : BitVec 6) (disp : BitVec 26) : IWord := major ++ disp

/-- First word of the L format. -/
def lWord (xop : BitVec 12) (kg : KReg) (ks : Bool) (f1x : BitVec 10) : IWord :=
  0x3e#6 ++ xop ++ kg ++ BitVec.ofBool ks ++ f1x

/-- First word of the P format. -/
def pWord (g : KReg) (gs : Bool) (sop : BitVec 22) : IWord := 0x3f#6 ++ g ++ BitVec.ofBool gs ++ sop

/-! ### Fields read from a word -/

def fMajor (w : IWord) : BitVec 6 := w.extractLsb' 26 6
def fRd (w : IWord) : XReg := w.extractLsb' 21 5
def fRa (w : IWord) : XReg := w.extractLsb' 16 5
def fRb (w : IWord) : XReg := w.extractLsb' 11 5
def fFunc (w : IWord) : BitVec 11 := w.extractLsb' 0 11
def fImm (w : IWord) : BitVec 16 := w.extractLsb' 0 16
def fApd (w : IWord) : Ap := w.extractLsb' 20 6
def fApa (w : IWord) : Ap := w.extractLsb' 14 6
def fApb (w : IWord) : Ap := w.extractLsb' 8 6
def fAFunc (w : IWord) : BitVec 6 := w.extractLsb' 2 6
def fMask (w : IWord) : BitVec 2 := w.extractLsb' 0 2
def fBase (w : IWord) : XReg := w.extractLsb' 15 5
def fOff (w : IWord) : BitVec 12 := w.extractLsb' 3 12
def fXop (w : IWord) : BitVec 12 := w.extractLsb' 14 12
def fKg (w : IWord) : KReg := w.extractLsb' 11 3
def fKs (w : IWord) : Bool := w.getLsbD 10

/-! ### A-format operations -/

/-- Major opcode and function value of each A-format operation. -/
def AOp.code : AOp → BitVec 6 × BitVec 6
  | .vadd => (0x28, 0x00)
  | .vsub => (0x28, 0x01)
  | .vadds => (0x28, 0x02)
  | .vsubs => (0x28, 0x03)
  | .vmul => (0x28, 0x04)
  | .vmulh => (0x28, 0x05)
  | .vmacc => (0x28, 0x06)
  | .vwmacc => (0x28, 0x07)
  | .vand => (0x28, 0x08)
  | .vor => (0x28, 0x09)
  | .vxor => (0x28, 0x0a)
  | .vandn => (0x28, 0x0b)
  | .vsll => (0x28, 0x0c)
  | .vsrl => (0x28, 0x0d)
  | .vsra => (0x28, 0x0e)
  | .vssr => (0x28, 0x0f)
  | .vneg => (0x28, 0x10)
  | .vfadd => (0x29, 0x00)
  | .vfsub => (0x29, 0x01)
  | .vfmul => (0x29, 0x02)
  | .vfdiv => (0x29, 0x03)
  | .vfsqrt => (0x29, 0x04)
  | .vfrcp => (0x29, 0x05)
  | .vfma => (0x29, 0x06)
  | .vfms => (0x29, 0x07)
  | .vfnma => (0x29, 0x08)
  | .vfwma => (0x29, 0x09)
  | .vceq => (0x2a, 0x00)
  | .vcne => (0x2a, 0x01)
  | .vclt => (0x2a, 0x02)
  | .vcle => (0x2a, 0x03)
  | .vfceq => (0x2a, 0x04)
  | .vfclt => (0x2a, 0x05)
  | .vfcle => (0x2a, 0x06)
  | .vfcun => (0x2a, 0x07)
  | .vmin => (0x2a, 0x08)
  | .vmax => (0x2a, 0x09)
  | .vfmin => (0x2a, 0x0a)
  | .vfmax => (0x2a, 0x0b)
  | .kand => (0x2a, 0x10)
  | .kor => (0x2a, 0x11)
  | .kxor => (0x2a, 0x12)
  | .kandn => (0x2a, 0x13)
  | .knot => (0x2a, 0x14)
  | .kmw => (0x2a, 0x15)
  | .kmr => (0x2a, 0x16)
  | .vmov => (0x2b, 0x00)
  | .vfneg => (0x2b, 0x01)
  | .vfabs => (0x2b, 0x02)
  | .vfsgnj => (0x2b, 0x03)
  | .vrev => (0x2b, 0x04)
  | .vperm => (0x2b, 0x05)
  | .vslidn => (0x2b, 0x06)
  | .vsliup => (0x2b, 0x07)
  | .vidx => (0x2b, 0x08)
  | .vfcvt => (0x2c, 0x00)
  | .vfcvti => (0x2c, 0x01)
  | .vicvtf => (0x2c, 0x02)
  | .vnclip => (0x2c, 0x03)
  | .vext => (0x2c, 0x04)
  | .vredsum => (0x2d, 0x00)
  | .vwredsum => (0x2d, 0x01)
  | .vredmax => (0x2d, 0x02)
  | .vredmin => (0x2d, 0x03)
  | .vredand => (0x2d, 0x04)
  | .vredor => (0x2d, 0x05)
  | .vredxor => (0x2d, 0x06)
  | .vfredsum => (0x2d, 0x08)
  | .vfwredsum => (0x2d, 0x09)
  | .vfredmax => (0x2d, 0x0a)
  | .vfredmin => (0x2d, 0x0b)
  | .vsredsum => (0x2d, 0x10)
  | .vswredsum => (0x2d, 0x11)
  | .vsredmax => (0x2d, 0x12)
  | .vsredmin => (0x2d, 0x13)
  | .vsredand => (0x2d, 0x14)
  | .vsredor => (0x2d, 0x15)
  | .vsredxor => (0x2d, 0x16)
  | .vsfredsum => (0x2d, 0x18)
  | .vsfwredsum => (0x2d, 0x19)
  | .vsfredmax => (0x2d, 0x1a)
  | .vsfredmin => (0x2d, 0x1b)
  | .vscore => (0x2e, 0x00)
  | .vscoreS => (0x2e, 0x01)
  | .vsegr => (0x2e, 0x02)
  | .vexps => (0x2e, 0x03)
  | .vwacc => (0x2e, 0x04)
  | .vclget => (0x2e, 0x05)
  | .vclput => (0x2e, 0x06)
  | .radd => (0x2f, 0x00)
  | .uadd => (0x2f, 0x01)
  | .rxor => (0x2f, 0x02)
  | .rmulo => (0x2f, 0x04)
  | .umulo => (0x2f, 0x05)
  | .rfmul => (0x2f, 0x08)
  | .ufmul => (0x2f, 0x09)
  | .rfadd => (0x2f, 0x0a)
  | .ufadd => (0x2f, 0x0b)
  | .rcvt => (0x2f, 0x0c)
  | .ucvt => (0x2f, 0x0d)
  | .rnrw => (0x2f, 0x0e)
  | .unrw => (0x2f, 0x0f)

/-- The A-format operation of a major opcode and a function value; every other value is reserved (R117). -/
def AOp.ofCode (major func : Nat) : Option AOp :=
  match major with
  | 0x28 =>
    match func with
    | 0x00 => some .vadd
    | 0x01 => some .vsub
    | 0x02 => some .vadds
    | 0x03 => some .vsubs
    | 0x04 => some .vmul
    | 0x05 => some .vmulh
    | 0x06 => some .vmacc
    | 0x07 => some .vwmacc
    | 0x08 => some .vand
    | 0x09 => some .vor
    | 0x0a => some .vxor
    | 0x0b => some .vandn
    | 0x0c => some .vsll
    | 0x0d => some .vsrl
    | 0x0e => some .vsra
    | 0x0f => some .vssr
    | 0x10 => some .vneg
    | _ => none
  | 0x29 =>
    match func with
    | 0x00 => some .vfadd
    | 0x01 => some .vfsub
    | 0x02 => some .vfmul
    | 0x03 => some .vfdiv
    | 0x04 => some .vfsqrt
    | 0x05 => some .vfrcp
    | 0x06 => some .vfma
    | 0x07 => some .vfms
    | 0x08 => some .vfnma
    | 0x09 => some .vfwma
    | _ => none
  | 0x2a =>
    match func with
    | 0x00 => some .vceq
    | 0x01 => some .vcne
    | 0x02 => some .vclt
    | 0x03 => some .vcle
    | 0x04 => some .vfceq
    | 0x05 => some .vfclt
    | 0x06 => some .vfcle
    | 0x07 => some .vfcun
    | 0x08 => some .vmin
    | 0x09 => some .vmax
    | 0x0a => some .vfmin
    | 0x0b => some .vfmax
    | 0x10 => some .kand
    | 0x11 => some .kor
    | 0x12 => some .kxor
    | 0x13 => some .kandn
    | 0x14 => some .knot
    | 0x15 => some .kmw
    | 0x16 => some .kmr
    | _ => none
  | 0x2b =>
    match func with
    | 0x00 => some .vmov
    | 0x01 => some .vfneg
    | 0x02 => some .vfabs
    | 0x03 => some .vfsgnj
    | 0x04 => some .vrev
    | 0x05 => some .vperm
    | 0x06 => some .vslidn
    | 0x07 => some .vsliup
    | 0x08 => some .vidx
    | _ => none
  | 0x2c =>
    match func with
    | 0x00 => some .vfcvt
    | 0x01 => some .vfcvti
    | 0x02 => some .vicvtf
    | 0x03 => some .vnclip
    | 0x04 => some .vext
    | _ => none
  | 0x2d =>
    match func with
    | 0x00 => some .vredsum
    | 0x01 => some .vwredsum
    | 0x02 => some .vredmax
    | 0x03 => some .vredmin
    | 0x04 => some .vredand
    | 0x05 => some .vredor
    | 0x06 => some .vredxor
    | 0x08 => some .vfredsum
    | 0x09 => some .vfwredsum
    | 0x0a => some .vfredmax
    | 0x0b => some .vfredmin
    | 0x10 => some .vsredsum
    | 0x11 => some .vswredsum
    | 0x12 => some .vsredmax
    | 0x13 => some .vsredmin
    | 0x14 => some .vsredand
    | 0x15 => some .vsredor
    | 0x16 => some .vsredxor
    | 0x18 => some .vsfredsum
    | 0x19 => some .vsfwredsum
    | 0x1a => some .vsfredmax
    | 0x1b => some .vsfredmin
    | _ => none
  | 0x2e =>
    match func with
    | 0x00 => some .vscore
    | 0x01 => some .vscoreS
    | 0x02 => some .vsegr
    | 0x03 => some .vexps
    | 0x04 => some .vwacc
    | 0x05 => some .vclget
    | 0x06 => some .vclput
    | _ => none
  | 0x2f =>
    match func with
    | 0x00 => some .radd
    | 0x01 => some .uadd
    | 0x02 => some .rxor
    | 0x04 => some .rmulo
    | 0x05 => some .umulo
    | 0x08 => some .rfmul
    | 0x09 => some .ufmul
    | 0x0a => some .rfadd
    | 0x0b => some .ufadd
    | 0x0c => some .rcvt
    | 0x0d => some .ucvt
    | 0x0e => some .rnrw
    | 0x0f => some .unrw
    | _ => none
  | _ => none

/-- The word of an A-format instruction with its guard field. -/
def AHalf.word (h : AHalf) (mask : BitVec 2) : IWord :=
  aWord h.op.code.1 h.apd h.apa h.apb h.op.code.2 mask

/-- The fields of an A-format word. -/
def AHalf.ofWord (w : IWord) : Option AHalf :=
  match AOp.ofCode (fMajor w).toNat (fAFunc w).toNat with
  | some op => some ⟨op, fApd w, fApa w, fApb w⟩
  | none => none

/-- A mask register number in a 6-bit field (R160). -/
def kField (k : KReg) : Ap := 0#3 ++ k

/-- The mask register number of a 6-bit field. -/
def kOfField (a : Ap) : KReg := a.extractLsb' 0 3

/-- An A-format instruction as its half and its guard field; `none` for every other term. -/
def Instr.toHalf : Instr → Option (AHalf × BitVec 2)
  | .vadd apd apa apb mask => some (⟨.vadd, apd, apa, apb⟩, mask)
  | .vsub apd apa apb mask => some (⟨.vsub, apd, apa, apb⟩, mask)
  | .vadds apd apa apb mask => some (⟨.vadds, apd, apa, apb⟩, mask)
  | .vsubs apd apa apb mask => some (⟨.vsubs, apd, apa, apb⟩, mask)
  | .vmul apd apa apb mask => some (⟨.vmul, apd, apa, apb⟩, mask)
  | .vmulh apd apa apb mask => some (⟨.vmulh, apd, apa, apb⟩, mask)
  | .vmacc apd apa apb mask => some (⟨.vmacc, apd, apa, apb⟩, mask)
  | .vwmacc apd apa apb mask => some (⟨.vwmacc, apd, apa, apb⟩, mask)
  | .vand apd apa apb mask => some (⟨.vand, apd, apa, apb⟩, mask)
  | .vor apd apa apb mask => some (⟨.vor, apd, apa, apb⟩, mask)
  | .vxor apd apa apb mask => some (⟨.vxor, apd, apa, apb⟩, mask)
  | .vandn apd apa apb mask => some (⟨.vandn, apd, apa, apb⟩, mask)
  | .vsll apd apa apb mask => some (⟨.vsll, apd, apa, apb⟩, mask)
  | .vsrl apd apa apb mask => some (⟨.vsrl, apd, apa, apb⟩, mask)
  | .vsra apd apa apb mask => some (⟨.vsra, apd, apa, apb⟩, mask)
  | .vssr apd apa apb mask => some (⟨.vssr, apd, apa, apb⟩, mask)
  | .vneg apd apa mask => some (⟨.vneg, apd, apa, 0⟩, mask)
  | .vfadd apd apa apb mask => some (⟨.vfadd, apd, apa, apb⟩, mask)
  | .vfsub apd apa apb mask => some (⟨.vfsub, apd, apa, apb⟩, mask)
  | .vfmul apd apa apb mask => some (⟨.vfmul, apd, apa, apb⟩, mask)
  | .vfdiv apd apa apb mask => some (⟨.vfdiv, apd, apa, apb⟩, mask)
  | .vfsqrt apd apa mask => some (⟨.vfsqrt, apd, apa, 0⟩, mask)
  | .vfrcp apd apa mask => some (⟨.vfrcp, apd, apa, 0⟩, mask)
  | .vfma apd apa apb mask => some (⟨.vfma, apd, apa, apb⟩, mask)
  | .vfms apd apa apb mask => some (⟨.vfms, apd, apa, apb⟩, mask)
  | .vfnma apd apa apb mask => some (⟨.vfnma, apd, apa, apb⟩, mask)
  | .vfwma apd apa apb mask => some (⟨.vfwma, apd, apa, apb⟩, mask)
  | .vceq kd apa apb mask => some (⟨.vceq, kField kd, apa, apb⟩, mask)
  | .vcne kd apa apb mask => some (⟨.vcne, kField kd, apa, apb⟩, mask)
  | .vclt kd apa apb mask => some (⟨.vclt, kField kd, apa, apb⟩, mask)
  | .vcle kd apa apb mask => some (⟨.vcle, kField kd, apa, apb⟩, mask)
  | .vfceq kd apa apb mask => some (⟨.vfceq, kField kd, apa, apb⟩, mask)
  | .vfclt kd apa apb mask => some (⟨.vfclt, kField kd, apa, apb⟩, mask)
  | .vfcle kd apa apb mask => some (⟨.vfcle, kField kd, apa, apb⟩, mask)
  | .vfcun kd apa apb mask => some (⟨.vfcun, kField kd, apa, apb⟩, mask)
  | .vmin apd apa apb mask => some (⟨.vmin, apd, apa, apb⟩, mask)
  | .vmax apd apa apb mask => some (⟨.vmax, apd, apa, apb⟩, mask)
  | .vfmin apd apa apb mask => some (⟨.vfmin, apd, apa, apb⟩, mask)
  | .vfmax apd apa apb mask => some (⟨.vfmax, apd, apa, apb⟩, mask)
  | .kand kd ka kb => some (⟨.kand, kField kd, kField ka, kField kb⟩, 0)
  | .kor kd ka kb => some (⟨.kor, kField kd, kField ka, kField kb⟩, 0)
  | .kxor kd ka kb => some (⟨.kxor, kField kd, kField ka, kField kb⟩, 0)
  | .kandn kd ka kb => some (⟨.kandn, kField kd, kField ka, kField kb⟩, 0)
  | .knot kd ka => some (⟨.knot, kField kd, kField ka, 0⟩, 0)
  | .kmw ka => some (⟨.kmw, 0, kField ka, 0⟩, 0)
  | .kmr kd => some (⟨.kmr, kField kd, 0, 0⟩, 0)
  | .vmov apd apa mask => some (⟨.vmov, apd, apa, 0⟩, mask)
  | .vfneg apd apa mask => some (⟨.vfneg, apd, apa, 0⟩, mask)
  | .vfabs apd apa mask => some (⟨.vfabs, apd, apa, 0⟩, mask)
  | .vfsgnj apd apa apb mask => some (⟨.vfsgnj, apd, apa, apb⟩, mask)
  | .vrev apd apa mask => some (⟨.vrev, apd, apa, 0⟩, mask)
  | .vperm apd apa apb mask => some (⟨.vperm, apd, apa, apb⟩, mask)
  | .vslidn apd apa apb mask => some (⟨.vslidn, apd, apa, apb⟩, mask)
  | .vsliup apd apa apb mask => some (⟨.vsliup, apd, apa, apb⟩, mask)
  | .vidx apd mask => some (⟨.vidx, apd, 0, 0⟩, mask)
  | .vfcvt apd apa mask => some (⟨.vfcvt, apd, apa, 0⟩, mask)
  | .vfcvti apd apa mask => some (⟨.vfcvti, apd, apa, 0⟩, mask)
  | .vicvtf apd apa mask => some (⟨.vicvtf, apd, apa, 0⟩, mask)
  | .vnclip apd apa apb mask => some (⟨.vnclip, apd, apa, apb⟩, mask)
  | .vext apd apa mask => some (⟨.vext, apd, apa, 0⟩, mask)
  | .vredsum apd apa mask => some (⟨.vredsum, apd, apa, 0⟩, mask)
  | .vwredsum apd apa mask => some (⟨.vwredsum, apd, apa, 0⟩, mask)
  | .vredmax apd apa mask => some (⟨.vredmax, apd, apa, 0⟩, mask)
  | .vredmin apd apa mask => some (⟨.vredmin, apd, apa, 0⟩, mask)
  | .vredand apd apa mask => some (⟨.vredand, apd, apa, 0⟩, mask)
  | .vredor apd apa mask => some (⟨.vredor, apd, apa, 0⟩, mask)
  | .vredxor apd apa mask => some (⟨.vredxor, apd, apa, 0⟩, mask)
  | .vfredsum apd apa mask => some (⟨.vfredsum, apd, apa, 0⟩, mask)
  | .vfwredsum apd apa mask => some (⟨.vfwredsum, apd, apa, 0⟩, mask)
  | .vfredmax apd apa mask => some (⟨.vfredmax, apd, apa, 0⟩, mask)
  | .vfredmin apd apa mask => some (⟨.vfredmin, apd, apa, 0⟩, mask)
  | .vsredsum apd apa kb mask => some (⟨.vsredsum, apd, apa, kField kb⟩, mask)
  | .vswredsum apd apa kb mask => some (⟨.vswredsum, apd, apa, kField kb⟩, mask)
  | .vsredmax apd apa kb mask => some (⟨.vsredmax, apd, apa, kField kb⟩, mask)
  | .vsredmin apd apa kb mask => some (⟨.vsredmin, apd, apa, kField kb⟩, mask)
  | .vsredand apd apa kb mask => some (⟨.vsredand, apd, apa, kField kb⟩, mask)
  | .vsredor apd apa kb mask => some (⟨.vsredor, apd, apa, kField kb⟩, mask)
  | .vsredxor apd apa kb mask => some (⟨.vsredxor, apd, apa, kField kb⟩, mask)
  | .vsfredsum apd apa kb mask => some (⟨.vsfredsum, apd, apa, kField kb⟩, mask)
  | .vsfwredsum apd apa kb mask => some (⟨.vsfwredsum, apd, apa, kField kb⟩, mask)
  | .vsfredmax apd apa kb mask => some (⟨.vsfredmax, apd, apa, kField kb⟩, mask)
  | .vsfredmin apd apa kb mask => some (⟨.vsfredmin, apd, apa, kField kb⟩, mask)
  | .vscore apa apb mask => some (⟨.vscore, 0, apa, apb⟩, mask)
  | .vscoreS apd apa apb mask => some (⟨.vscoreS, apd, apa, apb⟩, mask)
  | .vsegr apd => some (⟨.vsegr, apd, 0, 0⟩, 0)
  | .vexps apd => some (⟨.vexps, apd, 0, 0⟩, 0)
  | .vwacc apd apa apb mask => some (⟨.vwacc, apd, apa, apb⟩, mask)
  | .vclget apd mask => some (⟨.vclget, apd, 0, 0⟩, mask)
  | .vclput apa mask => some (⟨.vclput, 0, apa, 0⟩, mask)
  | .radd apd apa apb mask => some (⟨.radd, apd, apa, apb⟩, mask)
  | .uadd apd apa apb mask => some (⟨.uadd, apd, apa, apb⟩, mask)
  | .rxor apd apa apb mask => some (⟨.rxor, apd, apa, apb⟩, mask)
  | .rmulo apd apa apb mask => some (⟨.rmulo, apd, apa, apb⟩, mask)
  | .umulo apd apa apb mask => some (⟨.umulo, apd, apa, apb⟩, mask)
  | .rfmul apd apa apb mask => some (⟨.rfmul, apd, apa, apb⟩, mask)
  | .ufmul apd apa apb mask => some (⟨.ufmul, apd, apa, apb⟩, mask)
  | .rfadd apd apa apb mask => some (⟨.rfadd, apd, apa, apb⟩, mask)
  | .ufadd apd apa apb mask => some (⟨.ufadd, apd, apa, apb⟩, mask)
  | .rcvt apd apa mask => some (⟨.rcvt, apd, apa, 0⟩, mask)
  | .ucvt apd apa mask => some (⟨.ucvt, apd, apa, 0⟩, mask)
  | .rnrw apd apa apb mask => some (⟨.rnrw, apd, apa, apb⟩, mask)
  | .unrw apd apa mask => some (⟨.unrw, apd, apa, 0⟩, mask)
  | _ => none

/-- The instruction of a half and its guard field. -/
noncomputable def AHalf.toInstr (h : AHalf) (mask : BitVec 2) : Instr :=
  match h.op with
  | .vadd => .vadd h.apd h.apa h.apb mask
  | .vsub => .vsub h.apd h.apa h.apb mask
  | .vadds => .vadds h.apd h.apa h.apb mask
  | .vsubs => .vsubs h.apd h.apa h.apb mask
  | .vmul => .vmul h.apd h.apa h.apb mask
  | .vmulh => .vmulh h.apd h.apa h.apb mask
  | .vmacc => .vmacc h.apd h.apa h.apb mask
  | .vwmacc => .vwmacc h.apd h.apa h.apb mask
  | .vand => .vand h.apd h.apa h.apb mask
  | .vor => .vor h.apd h.apa h.apb mask
  | .vxor => .vxor h.apd h.apa h.apb mask
  | .vandn => .vandn h.apd h.apa h.apb mask
  | .vsll => .vsll h.apd h.apa h.apb mask
  | .vsrl => .vsrl h.apd h.apa h.apb mask
  | .vsra => .vsra h.apd h.apa h.apb mask
  | .vssr => .vssr h.apd h.apa h.apb mask
  | .vneg => .vneg h.apd h.apa mask
  | .vfadd => .vfadd h.apd h.apa h.apb mask
  | .vfsub => .vfsub h.apd h.apa h.apb mask
  | .vfmul => .vfmul h.apd h.apa h.apb mask
  | .vfdiv => .vfdiv h.apd h.apa h.apb mask
  | .vfsqrt => .vfsqrt h.apd h.apa mask
  | .vfrcp => .vfrcp h.apd h.apa mask
  | .vfma => .vfma h.apd h.apa h.apb mask
  | .vfms => .vfms h.apd h.apa h.apb mask
  | .vfnma => .vfnma h.apd h.apa h.apb mask
  | .vfwma => .vfwma h.apd h.apa h.apb mask
  | .vceq => .vceq (kOfField h.apd) h.apa h.apb mask
  | .vcne => .vcne (kOfField h.apd) h.apa h.apb mask
  | .vclt => .vclt (kOfField h.apd) h.apa h.apb mask
  | .vcle => .vcle (kOfField h.apd) h.apa h.apb mask
  | .vfceq => .vfceq (kOfField h.apd) h.apa h.apb mask
  | .vfclt => .vfclt (kOfField h.apd) h.apa h.apb mask
  | .vfcle => .vfcle (kOfField h.apd) h.apa h.apb mask
  | .vfcun => .vfcun (kOfField h.apd) h.apa h.apb mask
  | .vmin => .vmin h.apd h.apa h.apb mask
  | .vmax => .vmax h.apd h.apa h.apb mask
  | .vfmin => .vfmin h.apd h.apa h.apb mask
  | .vfmax => .vfmax h.apd h.apa h.apb mask
  | .kand => .kand (kOfField h.apd) (kOfField h.apa) (kOfField h.apb)
  | .kor => .kor (kOfField h.apd) (kOfField h.apa) (kOfField h.apb)
  | .kxor => .kxor (kOfField h.apd) (kOfField h.apa) (kOfField h.apb)
  | .kandn => .kandn (kOfField h.apd) (kOfField h.apa) (kOfField h.apb)
  | .knot => .knot (kOfField h.apd) (kOfField h.apa)
  | .kmw => .kmw (kOfField h.apa)
  | .kmr => .kmr (kOfField h.apd)
  | .vmov => .vmov h.apd h.apa mask
  | .vfneg => .vfneg h.apd h.apa mask
  | .vfabs => .vfabs h.apd h.apa mask
  | .vfsgnj => .vfsgnj h.apd h.apa h.apb mask
  | .vrev => .vrev h.apd h.apa mask
  | .vperm => .vperm h.apd h.apa h.apb mask
  | .vslidn => .vslidn h.apd h.apa h.apb mask
  | .vsliup => .vsliup h.apd h.apa h.apb mask
  | .vidx => .vidx h.apd mask
  | .vfcvt => .vfcvt h.apd h.apa mask
  | .vfcvti => .vfcvti h.apd h.apa mask
  | .vicvtf => .vicvtf h.apd h.apa mask
  | .vnclip => .vnclip h.apd h.apa h.apb mask
  | .vext => .vext h.apd h.apa mask
  | .vredsum => .vredsum h.apd h.apa mask
  | .vwredsum => .vwredsum h.apd h.apa mask
  | .vredmax => .vredmax h.apd h.apa mask
  | .vredmin => .vredmin h.apd h.apa mask
  | .vredand => .vredand h.apd h.apa mask
  | .vredor => .vredor h.apd h.apa mask
  | .vredxor => .vredxor h.apd h.apa mask
  | .vfredsum => .vfredsum h.apd h.apa mask
  | .vfwredsum => .vfwredsum h.apd h.apa mask
  | .vfredmax => .vfredmax h.apd h.apa mask
  | .vfredmin => .vfredmin h.apd h.apa mask
  | .vsredsum => .vsredsum h.apd h.apa (kOfField h.apb) mask
  | .vswredsum => .vswredsum h.apd h.apa (kOfField h.apb) mask
  | .vsredmax => .vsredmax h.apd h.apa (kOfField h.apb) mask
  | .vsredmin => .vsredmin h.apd h.apa (kOfField h.apb) mask
  | .vsredand => .vsredand h.apd h.apa (kOfField h.apb) mask
  | .vsredor => .vsredor h.apd h.apa (kOfField h.apb) mask
  | .vsredxor => .vsredxor h.apd h.apa (kOfField h.apb) mask
  | .vsfredsum => .vsfredsum h.apd h.apa (kOfField h.apb) mask
  | .vsfwredsum => .vsfwredsum h.apd h.apa (kOfField h.apb) mask
  | .vsfredmax => .vsfredmax h.apd h.apa (kOfField h.apb) mask
  | .vsfredmin => .vsfredmin h.apd h.apa (kOfField h.apb) mask
  | .vscore => .vscore h.apa h.apb mask
  | .vscoreS => .vscoreS h.apd h.apa h.apb mask
  | .vsegr => .vsegr h.apd
  | .vexps => .vexps h.apd
  | .vwacc => .vwacc h.apd h.apa h.apb mask
  | .vclget => .vclget h.apd mask
  | .vclput => .vclput h.apa mask
  | .radd => .radd h.apd h.apa h.apb mask
  | .uadd => .uadd h.apd h.apa h.apb mask
  | .rxor => .rxor h.apd h.apa h.apb mask
  | .rmulo => .rmulo h.apd h.apa h.apb mask
  | .umulo => .umulo h.apd h.apa h.apb mask
  | .rfmul => .rfmul h.apd h.apa h.apb mask
  | .ufmul => .ufmul h.apd h.apa h.apb mask
  | .rfadd => .rfadd h.apd h.apa h.apb mask
  | .ufadd => .ufadd h.apd h.apa h.apb mask
  | .rcvt => .rcvt h.apd h.apa mask
  | .ucvt => .ucvt h.apd h.apa mask
  | .rnrw => .rnrw h.apd h.apa h.apb mask
  | .unrw => .unrw h.apd h.apa mask

/-! ### The scalar half of a pair (R114) -/

/-- sop value of a three-register scalar half. -/
def PairOp.code : PairOp → BitVec 6
  | .add => 0x01 | .sub => 0x02 | .and => 0x03 | .or => 0x04 | .xor => 0x05 | .sll => 0x06 | .srl => 0x07
  | .sra => 0x0c

/-- sop value of an immediate scalar half. -/
def PairImm.code : PairImm → BitVec 6
  | .addi => 0x08 | .slli => 0x09 | .srli => 0x0a | .srai => 0x0b

/-- The 22-bit scalar operation field. -/
def PairScalar.sop : PairScalar → BitVec 22
  | .nop => 0#22
  | .reg op rd ra rb => op.code ++ rd ++ ra ++ rb ++ 0#1
  | .imm op rd ra imm6 => op.code ++ rd ++ ra ++ imm6

/-- The scalar operation of a 22-bit field, its unused bits not yet checked. -/
def PairScalar.ofSop (s : BitVec 22) : Option PairScalar :=
  let rd : XReg := s.extractLsb' 11 5
  let ra : XReg := s.extractLsb' 6 5
  let rb : XReg := s.extractLsb' 1 5
  let imm6 : BitVec 6 := s.extractLsb' 0 6
  match (s.extractLsb' 16 6).toNat with
  | 0x00 => some .nop
  | 0x01 => some (.reg .add rd ra rb)
  | 0x02 => some (.reg .sub rd ra rb)
  | 0x03 => some (.reg .and rd ra rb)
  | 0x04 => some (.reg .or rd ra rb)
  | 0x05 => some (.reg .xor rd ra rb)
  | 0x06 => some (.reg .sll rd ra rb)
  | 0x07 => some (.reg .srl rd ra rb)
  | 0x08 => some (.imm .addi rd ra imm6)
  | 0x09 => some (.imm .slli rd ra imm6)
  | 0x0a => some (.imm .srli rd ra imm6)
  | 0x0b => some (.imm .srai rd ra imm6)
  | 0x0c => some (.reg .sra rd ra rb)
  | _ => none

/-! ### The encoder -/

/-- The words of an instruction; an event has none. -/
def encode : Instr → Words
  | .moduleReset _ => .none
  | .msgWrite _ _ _ _ => .none
  | .lqcfgWrite _ _ _ => .none
  | .waitCounterRead _ => .none
  | .placementDecision => .none
  | .launchComplete _ => .none
  | .lctlWrite _ => .none
  | .vectorIssue _ => .none
  | .vectorPass _ => .none
  | .laneGroupGate _ _ => .none
  | .laneGroupWake _ _ => .none
  | .dispatchGate _ => .none
  | .slewStep _ => .none
  | .slewCoreQuiet _ => .none
  | .transitIssue _ => .none
  | .transitOpComplete _ => .none
  | .transitGate _ => .none
  | .transitWake _ => .none
  | .freqreqWrite _ _ => .none
  | .freqRampStep _ => .none
  | .relockEnd _ => .none
  | .fstatRead _ => .none
  | .fstatWrite _ => .none
  | .cycwRead _ => .none
  | .vlRcRead _ _ => .none
  | .stairRegRead _ _ => .none
  | .stairRegWrite _ _ => .none
  | .xstepWrite _ => .none
  | .registerWrite _ _ => .none
  | .claimWrite _ _ => .none
  | .claimWindowClose => .none
  | .handoverRelease _ => .none
  | .handoverTransfer _ _ => .none
  | .ownerLinkDown _ => .none
  | .preempt _ _ => .none
  | .resume _ _ => .none
  | .kill _ _ => .none
  | .gangSave _ => .none
  | .plateFill _ => .none
  | .intpostWrite _ _ => .none
  | .interruptTake _ => .none
  | .migrationRequest _ _ => .none
  | .migrationContest _ _ => .none
  | .dataError _ => .none
  | .supplyLimit _ => .none
  | .resourceRemoval _ => .none
  | .gleipFlitRetry _ => .none
  | .gleipPortDown _ => .none
  | .abortToken _ _ => .none
  | .ucieModuleLoss => .none
  | .hostAccess _ _ => .none
  | .getVersion => .none
  | .getCapabilities => .none
  | .negotiateAlgorithms _ _ => .none
  | .getDigests => .none
  | .getCertificate => .none
  | .challenge _ => .none
  | .getMeasurements => .none
  | .unsupportedRequest _ => .none
  | .engineCommandComplete _ => .none
  | .collectiveStart _ _ => .none
  | .streamRunahead _ => .none
  | .pageWalk _ _ => .none
  | .fetch _ => .none
  | .translationUnitLower _ => .none
  | .lwaitReturn _ => .none
  | .wfiWake _ => .none
  | .mdasAssemble _ _ => .none
  | .add rd ra rb => .one (rWord 0x01 rd ra rb 0x000)
  | .sub rd ra rb => .one (rWord 0x01 rd ra rb 0x001)
  | .and rd ra rb => .one (rWord 0x01 rd ra rb 0x002)
  | .or rd ra rb => .one (rWord 0x01 rd ra rb 0x003)
  | .xor rd ra rb => .one (rWord 0x01 rd ra rb 0x004)
  | .andn rd ra rb => .one (rWord 0x01 rd ra rb 0x005)
  | .sll rd ra rb => .one (rWord 0x01 rd ra rb 0x006)
  | .srl rd ra rb => .one (rWord 0x01 rd ra rb 0x007)
  | .sra rd ra rb => .one (rWord 0x01 rd ra rb 0x008)
  | .slt rd ra rb => .one (rWord 0x01 rd ra rb 0x009)
  | .sltn rd ra rb => .one (rWord 0x01 rd ra rb 0x00a)
  | .min rd ra rb => .one (rWord 0x01 rd ra rb 0x00b)
  | .max rd ra rb => .one (rWord 0x01 rd ra rb 0x00c)
  | .minn rd ra rb => .one (rWord 0x01 rd ra rb 0x00d)
  | .maxn rd ra rb => .one (rWord 0x01 rd ra rb 0x00e)
  | .clz rd ra => .one (rWord 0x01 rd ra 0 0x00f)
  | .ctz rd ra => .one (rWord 0x01 rd ra 0 0x010)
  | .popc rd ra => .one (rWord 0x01 rd ra 0 0x011)
  | .sxb rd ra => .one (rWord 0x01 rd ra 0 0x012)
  | .sxh rd ra => .one (rWord 0x01 rd ra 0 0x013)
  | .sxw rd ra => .one (rWord 0x01 rd ra 0 0x014)
  | .zxb rd ra => .one (rWord 0x01 rd ra 0 0x015)
  | .zxh rd ra => .one (rWord 0x01 rd ra 0 0x016)
  | .zxw rd ra => .one (rWord 0x01 rd ra 0 0x017)
  | .adds1 rd ra rb => .one (rWord 0x01 rd ra rb 0x019)
  | .adds2 rd ra rb => .one (rWord 0x01 rd ra rb 0x01a)
  | .adds3 rd ra rb => .one (rWord 0x01 rd ra rb 0x01b)
  | .sliceof rd ra => .one (rWord 0x01 rd ra 0 0x020)
  | .slli rd ra n => .one (rWord 0x01 rd ra 0 (1#5 ++ n))
  | .srli rd ra n => .one (rWord 0x01 rd ra 0 (2#5 ++ n))
  | .srai rd ra n => .one (rWord 0x01 rd ra 0 (3#5 ++ n))
  | .addi rd ra imm => .one (iWord 0x02 rd ra imm)
  | .andi rd ra imm => .one (iWord 0x03 rd ra imm)
  | .ori rd ra imm => .one (iWord 0x04 rd ra imm)
  | .xori rd ra imm => .one (iWord 0x05 rd ra imm)
  | .slti rd ra imm => .one (iWord 0x06 rd ra imm)
  | .sltni rd ra imm => .one (iWord 0x07 rd ra imm)
  | .lih rd ra imm => .one (iWord 0x08 rd ra imm)
  | .mul rd ra rb => .one (rWord 0x09 rd ra rb 0x000)
  | .mulh rd ra rb => .one (rWord 0x09 rd ra rb 0x001)
  | .mulhn rd ra rb => .one (rWord 0x09 rd ra rb 0x002)
  | .mulhsn rd ra rb => .one (rWord 0x09 rd ra rb 0x003)
  | .div rd ra rb => .one (rWord 0x09 rd ra rb 0x008)
  | .divn rd ra rb => .one (rWord 0x09 rd ra rb 0x009)
  | .rem rd ra rb => .one (rWord 0x09 rd ra rb 0x00a)
  | .remn rd ra rb => .one (rWord 0x09 rd ra rb 0x00b)
  | .setvl rd ra ty => .one (iWord 0x0a rd ra (0#12 ++ ty))
  | .setvlG rd ra ty => .one (iWord 0x0b rd ra (0#12 ++ ty))
  | .setrc rd ra imm => .one (iWord 0x0c rd ra imm)
  | .jmp disp => .one (jWord 0x10 disp)
  | .call disp => .one (jWord 0x11 disp)
  | .beq ra rb disp => .one (iWord 0x12 ra rb disp)
  | .bne ra rb disp => .one (iWord 0x13 ra rb disp)
  | .blt ra rb disp => .one (iWord 0x14 ra rb disp)
  | .bge ra rb disp => .one (iWord 0x15 ra rb disp)
  | .bltn ra rb disp => .one (iWord 0x16 ra rb disp)
  | .bgen ra rb disp => .one (iWord 0x17 ra rb disp)
  | .jmpl rd ra imm => .one (iWord 0x18 rd ra imm)
  | .csrrw rd ra csr => .one (iWord 0x19 rd ra csr)
  | .csrrs rd ra csr => .one (iWord 0x1a rd ra csr)
  | .csrrc rd ra csr => .one (iWord 0x1b rd ra csr)
  | .trap n => .one (rWord 0x1c 0 (n.extractLsb' 5 5) (n.extractLsb' 0 5) 0x001)
  | .eret => .one (rWord 0x1c 0 0 0 0x002)
  | .wfi => .one (rWord 0x1c 0 0 0 0x003)
  | .dclean ra rb => .one (rWord 0x1c 0 ra rb 0x010)
  | .xcinv ra rb => .one (rWord 0x1c 0 ra rb 0x011)
  | .fbar => .one (rWord 0x1c 0 0 0 0x012)
  | .ptsync => .one (rWord 0x1c 0 0 0 0x013)
  | .launch rd ra => .one (rWord 0x1c rd ra 0 0x020)
  | .fenceSv scope => .one (rWord 0x1d 0 0 0 (0#6 ++ 0#2 ++ scope))
  | .fenceVs scope => .one (rWord 0x1d 0 0 0 (0#6 ++ 1#2 ++ scope))
  | .fenceVv scope => .one (rWord 0x1d 0 0 0 (0#6 ++ 2#2 ++ scope))
  | .fenceAll scope => .one (rWord 0x1d 0 0 0 (0#6 ++ 3#2 ++ scope))
  | .larrive rd => .one (rWord 0x1e rd 0 0 0x000)
  | .lwait rd ra => .one (rWord 0x1e rd ra 0 0x001)
  | .larriveScope rd ra scope => .one (rWord 0x1e rd ra 0 (8#6 ++ scope ++ 0#2))
  | .lwaitScope rd ra rb scope => .one (rWord 0x1e rd ra rb (16#6 ++ scope ++ 0#2))
  | .retire => .one (rWord 0x1e 0 0 0 0x300)
  | .twake => .one (rWord 0x1f 0 0 0 0x000)
  | .tfill ra => .one (rWord 0x1f 0 ra 0 0x001)
  | .bkt rd ra => .one (rWord 0x1f rd ra 0 0x002)
  | .lb rd base off => .one (mWord 0x20 (0#1 ++ rd) base off 0)
  | .lh rd base off => .one (mWord 0x20 (0#1 ++ rd) base off 1)
  | .lw rd base off => .one (mWord 0x20 (0#1 ++ rd) base off 2)
  | .ld rd base off => .one (mWord 0x20 (0#1 ++ rd) base off 3)
  | .lbn rd base off => .one (mWord 0x21 (0#1 ++ rd) base off 0)
  | .lhn rd base off => .one (mWord 0x21 (0#1 ++ rd) base off 1)
  | .lwn rd base off => .one (mWord 0x21 (0#1 ++ rd) base off 2)
  | .ldn rd base off => .one (mWord 0x21 (0#1 ++ rd) base off 3)
  | .sb rd base off => .one (mWord 0x22 (0#1 ++ rd) base off 0)
  | .sh rd base off => .one (mWord 0x22 (0#1 ++ rd) base off 1)
  | .sw rd base off => .one (mWord 0x22 (0#1 ++ rd) base off 2)
  | .sd rd base off => .one (mWord 0x22 (0#1 ++ rd) base off 3)
  | .amswp rd ra rb dword scope q => .one (rWord 0x23 rd ra rb (0#5 ++ BitVec.ofBool dword ++ scope ++ q))
  | .amcas rd ra rb dword scope q => .one (rWord 0x23 rd ra rb (1#5 ++ BitVec.ofBool dword ++ scope ++ q))
  | .amadd rd ra rb dword scope q => .one (rWord 0x23 rd ra rb (2#5 ++ BitVec.ofBool dword ++ scope ++ q))
  | .amand rd ra rb dword scope q => .one (rWord 0x23 rd ra rb (3#5 ++ BitVec.ofBool dword ++ scope ++ q))
  | .amor rd ra rb dword scope q => .one (rWord 0x23 rd ra rb (4#5 ++ BitVec.ofBool dword ++ scope ++ q))
  | .amxor rd ra rb dword scope q => .one (rWord 0x23 rd ra rb (5#5 ++ BitVec.ofBool dword ++ scope ++ q))
  | .ammin rd ra rb dword scope q => .one (rWord 0x23 rd ra rb (6#5 ++ BitVec.ofBool dword ++ scope ++ q))
  | .ammax rd ra rb dword scope q => .one (rWord 0x23 rd ra rb (7#5 ++ BitVec.ofBool dword ++ scope ++ q))
  | .amminn rd ra rb dword scope q => .one (rWord 0x23 rd ra rb (8#5 ++ BitVec.ofBool dword ++ scope ++ q))
  | .ammaxn rd ra rb dword scope q => .one (rWord 0x23 rd ra rb (9#5 ++ BitVec.ofBool dword ++ scope ++ q))
  | .amfadd rd ra rb scope q => .one (rWord 0x23 rd ra rb (10#5 ++ 0#1 ++ scope ++ q))
  | .amfmin rd ra rb scope q => .one (rWord 0x23 rd ra rb (11#5 ++ 0#1 ++ scope ++ q))
  | .amfmax rd ra rb scope q => .one (rWord 0x23 rd ra rb (12#5 ++ 0#1 ++ scope ++ q))
  | .amld rd ra dword scope q => .one (rWord 0x23 rd ra 0 (13#5 ++ BitVec.ofBool dword ++ scope ++ q))
  | .amst ra rb dword scope q => .one (rWord 0x23 0 ra rb (14#5 ++ BitVec.ofBool dword ++ scope ++ q))
  | .vld ap base off size => .one (mWord 0x24 ap base off size)
  | .vst ap base off size => .one (mWord 0x25 ap base off size)
  | .vadd apd apa apb mask => .one (aWord 0x28 apd apa apb 0x00 mask)
  | .vsub apd apa apb mask => .one (aWord 0x28 apd apa apb 0x01 mask)
  | .vadds apd apa apb mask => .one (aWord 0x28 apd apa apb 0x02 mask)
  | .vsubs apd apa apb mask => .one (aWord 0x28 apd apa apb 0x03 mask)
  | .vmul apd apa apb mask => .one (aWord 0x28 apd apa apb 0x04 mask)
  | .vmulh apd apa apb mask => .one (aWord 0x28 apd apa apb 0x05 mask)
  | .vmacc apd apa apb mask => .one (aWord 0x28 apd apa apb 0x06 mask)
  | .vwmacc apd apa apb mask => .one (aWord 0x28 apd apa apb 0x07 mask)
  | .vand apd apa apb mask => .one (aWord 0x28 apd apa apb 0x08 mask)
  | .vor apd apa apb mask => .one (aWord 0x28 apd apa apb 0x09 mask)
  | .vxor apd apa apb mask => .one (aWord 0x28 apd apa apb 0x0a mask)
  | .vandn apd apa apb mask => .one (aWord 0x28 apd apa apb 0x0b mask)
  | .vsll apd apa apb mask => .one (aWord 0x28 apd apa apb 0x0c mask)
  | .vsrl apd apa apb mask => .one (aWord 0x28 apd apa apb 0x0d mask)
  | .vsra apd apa apb mask => .one (aWord 0x28 apd apa apb 0x0e mask)
  | .vssr apd apa apb mask => .one (aWord 0x28 apd apa apb 0x0f mask)
  | .vneg apd apa mask => .one (aWord 0x28 apd apa 0 0x10 mask)
  | .vfadd apd apa apb mask => .one (aWord 0x29 apd apa apb 0x00 mask)
  | .vfsub apd apa apb mask => .one (aWord 0x29 apd apa apb 0x01 mask)
  | .vfmul apd apa apb mask => .one (aWord 0x29 apd apa apb 0x02 mask)
  | .vfdiv apd apa apb mask => .one (aWord 0x29 apd apa apb 0x03 mask)
  | .vfsqrt apd apa mask => .one (aWord 0x29 apd apa 0 0x04 mask)
  | .vfrcp apd apa mask => .one (aWord 0x29 apd apa 0 0x05 mask)
  | .vfma apd apa apb mask => .one (aWord 0x29 apd apa apb 0x06 mask)
  | .vfms apd apa apb mask => .one (aWord 0x29 apd apa apb 0x07 mask)
  | .vfnma apd apa apb mask => .one (aWord 0x29 apd apa apb 0x08 mask)
  | .vfwma apd apa apb mask => .one (aWord 0x29 apd apa apb 0x09 mask)
  | .vceq kd apa apb mask => .one (aWord 0x2a (kField kd) apa apb 0x00 mask)
  | .vcne kd apa apb mask => .one (aWord 0x2a (kField kd) apa apb 0x01 mask)
  | .vclt kd apa apb mask => .one (aWord 0x2a (kField kd) apa apb 0x02 mask)
  | .vcle kd apa apb mask => .one (aWord 0x2a (kField kd) apa apb 0x03 mask)
  | .vfceq kd apa apb mask => .one (aWord 0x2a (kField kd) apa apb 0x04 mask)
  | .vfclt kd apa apb mask => .one (aWord 0x2a (kField kd) apa apb 0x05 mask)
  | .vfcle kd apa apb mask => .one (aWord 0x2a (kField kd) apa apb 0x06 mask)
  | .vfcun kd apa apb mask => .one (aWord 0x2a (kField kd) apa apb 0x07 mask)
  | .vmin apd apa apb mask => .one (aWord 0x2a apd apa apb 0x08 mask)
  | .vmax apd apa apb mask => .one (aWord 0x2a apd apa apb 0x09 mask)
  | .vfmin apd apa apb mask => .one (aWord 0x2a apd apa apb 0x0a mask)
  | .vfmax apd apa apb mask => .one (aWord 0x2a apd apa apb 0x0b mask)
  | .kand kd ka kb => .one (aWord 0x2a (kField kd) (kField ka) (kField kb) 0x10 0)
  | .kor kd ka kb => .one (aWord 0x2a (kField kd) (kField ka) (kField kb) 0x11 0)
  | .kxor kd ka kb => .one (aWord 0x2a (kField kd) (kField ka) (kField kb) 0x12 0)
  | .kandn kd ka kb => .one (aWord 0x2a (kField kd) (kField ka) (kField kb) 0x13 0)
  | .knot kd ka => .one (aWord 0x2a (kField kd) (kField ka) 0 0x14 0)
  | .kmw ka => .one (aWord 0x2a 0 (kField ka) 0 0x15 0)
  | .kmr kd => .one (aWord 0x2a (kField kd) 0 0 0x16 0)
  | .vmov apd apa mask => .one (aWord 0x2b apd apa 0 0x00 mask)
  | .vfneg apd apa mask => .one (aWord 0x2b apd apa 0 0x01 mask)
  | .vfabs apd apa mask => .one (aWord 0x2b apd apa 0 0x02 mask)
  | .vfsgnj apd apa apb mask => .one (aWord 0x2b apd apa apb 0x03 mask)
  | .vrev apd apa mask => .one (aWord 0x2b apd apa 0 0x04 mask)
  | .vperm apd apa apb mask => .one (aWord 0x2b apd apa apb 0x05 mask)
  | .vslidn apd apa apb mask => .one (aWord 0x2b apd apa apb 0x06 mask)
  | .vsliup apd apa apb mask => .one (aWord 0x2b apd apa apb 0x07 mask)
  | .vidx apd mask => .one (aWord 0x2b apd 0 0 0x08 mask)
  | .vfcvt apd apa mask => .one (aWord 0x2c apd apa 0 0x00 mask)
  | .vfcvti apd apa mask => .one (aWord 0x2c apd apa 0 0x01 mask)
  | .vicvtf apd apa mask => .one (aWord 0x2c apd apa 0 0x02 mask)
  | .vnclip apd apa apb mask => .one (aWord 0x2c apd apa apb 0x03 mask)
  | .vext apd apa mask => .one (aWord 0x2c apd apa 0 0x04 mask)
  | .vredsum apd apa mask => .one (aWord 0x2d apd apa 0 0x00 mask)
  | .vwredsum apd apa mask => .one (aWord 0x2d apd apa 0 0x01 mask)
  | .vredmax apd apa mask => .one (aWord 0x2d apd apa 0 0x02 mask)
  | .vredmin apd apa mask => .one (aWord 0x2d apd apa 0 0x03 mask)
  | .vredand apd apa mask => .one (aWord 0x2d apd apa 0 0x04 mask)
  | .vredor apd apa mask => .one (aWord 0x2d apd apa 0 0x05 mask)
  | .vredxor apd apa mask => .one (aWord 0x2d apd apa 0 0x06 mask)
  | .vfredsum apd apa mask => .one (aWord 0x2d apd apa 0 0x08 mask)
  | .vfwredsum apd apa mask => .one (aWord 0x2d apd apa 0 0x09 mask)
  | .vfredmax apd apa mask => .one (aWord 0x2d apd apa 0 0x0a mask)
  | .vfredmin apd apa mask => .one (aWord 0x2d apd apa 0 0x0b mask)
  | .vsredsum apd apa kb mask => .one (aWord 0x2d apd apa (kField kb) 0x10 mask)
  | .vswredsum apd apa kb mask => .one (aWord 0x2d apd apa (kField kb) 0x11 mask)
  | .vsredmax apd apa kb mask => .one (aWord 0x2d apd apa (kField kb) 0x12 mask)
  | .vsredmin apd apa kb mask => .one (aWord 0x2d apd apa (kField kb) 0x13 mask)
  | .vsredand apd apa kb mask => .one (aWord 0x2d apd apa (kField kb) 0x14 mask)
  | .vsredor apd apa kb mask => .one (aWord 0x2d apd apa (kField kb) 0x15 mask)
  | .vsredxor apd apa kb mask => .one (aWord 0x2d apd apa (kField kb) 0x16 mask)
  | .vsfredsum apd apa kb mask => .one (aWord 0x2d apd apa (kField kb) 0x18 mask)
  | .vsfwredsum apd apa kb mask => .one (aWord 0x2d apd apa (kField kb) 0x19 mask)
  | .vsfredmax apd apa kb mask => .one (aWord 0x2d apd apa (kField kb) 0x1a mask)
  | .vsfredmin apd apa kb mask => .one (aWord 0x2d apd apa (kField kb) 0x1b mask)
  | .vscore apa apb mask => .one (aWord 0x2e 0 apa apb 0x00 mask)
  | .vscoreS apd apa apb mask => .one (aWord 0x2e apd apa apb 0x01 mask)
  | .vsegr apd => .one (aWord 0x2e apd 0 0 0x02 0)
  | .vexps apd => .one (aWord 0x2e apd 0 0 0x03 0)
  | .vwacc apd apa apb mask => .one (aWord 0x2e apd apa apb 0x04 mask)
  | .vclget apd mask => .one (aWord 0x2e apd 0 0 0x05 mask)
  | .vclput apa mask => .one (aWord 0x2e 0 apa 0 0x06 mask)
  | .radd apd apa apb mask => .one (aWord 0x2f apd apa apb 0x00 mask)
  | .uadd apd apa apb mask => .one (aWord 0x2f apd apa apb 0x01 mask)
  | .rxor apd apa apb mask => .one (aWord 0x2f apd apa apb 0x02 mask)
  | .rmulo apd apa apb mask => .one (aWord 0x2f apd apa apb 0x04 mask)
  | .umulo apd apa apb mask => .one (aWord 0x2f apd apa apb 0x05 mask)
  | .rfmul apd apa apb mask => .one (aWord 0x2f apd apa apb 0x08 mask)
  | .ufmul apd apa apb mask => .one (aWord 0x2f apd apa apb 0x09 mask)
  | .rfadd apd apa apb mask => .one (aWord 0x2f apd apa apb 0x0a mask)
  | .ufadd apd apa apb mask => .one (aWord 0x2f apd apa apb 0x0b mask)
  | .rcvt apd apa mask => .one (aWord 0x2f apd apa 0 0x0c mask)
  | .ucvt apd apa mask => .one (aWord 0x2f apd apa 0 0x0d mask)
  | .rnrw apd apa apb mask => .one (aWord 0x2f apd apa apb 0x0e mask)
  | .unrw apd apa mask => .one (aWord 0x2f apd apa 0 0x0f mask)
  | .pair g gs sc vec => .two (pWord g gs sc.sop) (vec.word 0)
  | .adefRect apd tr ty row0 col0 slots hm1 => .two (lWord (0#7 ++ BitVec.ofBool tr ++ ty) 0 false (apd ++ hm1.extractLsb' 4 4)) (row0 ++ col0 ++ slots ++ hm1.extractLsb' 0 4)
  | .adefLine apd line bc ty row0 col0 slots => .two (lWord (4#9 ++ BitVec.ofBool bc ++ line) 0 false (apd ++ ty)) (row0 ++ col0 ++ slots ++ 0#4)
  | .adefx apd ra => .two (lWord 0x028 0 false 0) (apd ++ 0#6 ++ ra ++ 0#5 ++ 0#4 ++ 0#6)
  | .aget rd apa => .two (lWord 0x029 0 false 0) (0#6 ++ apa ++ rd ++ 0#5 ++ 0#4 ++ 0#6)
  | .amov apd apa => .two (lWord 0x02a 0 false 0) (apd ++ apa ++ 0#5 ++ 0#5 ++ 0#4 ++ 0#6)
  | .aswap apd apa => .two (lWord 0x02b 0 false 0) (apd ++ apa ++ 0#5 ++ 0#5 ++ 0#4 ++ 0#6)
  | .abind apd fs => .two (lWord 0x02c 0 false 0) (apd ++ 0#6 ++ 0#5 ++ 0#5 ++ fs ++ 0#6)
  | .aunbind apd => .two (lWord 0x02d 0 false 0) (apd ++ 0#6 ++ 0#5 ++ 0#5 ++ 0#4 ++ 0#6)
  | .efcget kg ks apd => .two (lWord 0x030 kg ks 0) (apd ++ 0#6 ++ 0#5 ++ 0#5 ++ 0#4 ++ 0#6)
  | .efcput kg ks apa => .two (lWord 0x031 kg ks 0) (0#6 ++ apa ++ 0#5 ++ 0#5 ++ 0#4 ++ 0#6)
  | .vsplat kg ks apd ra => .two (lWord 0x032 kg ks 0) (apd ++ 0#6 ++ ra ++ 0#5 ++ 0#4 ++ 0#6)
  | .vget rd apa rb => .two (lWord 0x033 0 false 0) (0#6 ++ apa ++ rd ++ rb ++ 0#4 ++ 0#6)
  | .vlds kg ks ap base xs xr off => .two (lWord 0x040 kg ks (ap ++ 0#4)) (base ++ xs ++ xr ++ 0#6 ++ off)
  | .vlseg kg ks ap nf base xs xr off => .two (lWord 0x040 kg ks (ap ++ 0#1 ++ nf)) (base ++ xs ++ xr ++ 0#6 ++ off)
  | .vsts kg ks ap base xs xr off => .two (lWord 0x041 kg ks (ap ++ 0#4)) (base ++ xs ++ xr ++ 0#6 ++ off)
  | .vsseg kg ks ap nf base xs xr off => .two (lWord 0x041 kg ks (ap ++ 0#1 ++ nf)) (base ++ xs ++ xr ++ 0#6 ++ off)
  | .vldx kg ks ap base xr idx off => .two (lWord 0x042 kg ks (ap ++ 0#4)) (base ++ 0#5 ++ xr ++ idx ++ off)
  | .vldxr kg ks ap base xs idx off => .two (lWord 0x042 kg ks (ap ++ 0#4)) (base ++ xs ++ 0#5 ++ idx ++ off)
  | .vstx kg ks ap base xr idx off => .two (lWord 0x043 kg ks (ap ++ 0#4)) (base ++ 0#5 ++ xr ++ idx ++ off)
  | .vstxr kg ks ap base xs idx off => .two (lWord 0x043 kg ks (ap ++ 0#4)) (base ++ xs ++ 0#5 ++ idx ++ off)
  | .fsbind fs ra => .two (lWord 0x048 0 false (0#6 ++ fs)) (ra ++ 0#27)
  | .fsrel fs => .two (lWord 0x049 0 false (0#6 ++ fs)) (0#32)
  | .fsget rd fs => .two (lWord 0x04a 0 false (0#6 ++ fs)) (rd ++ 0#27)
  | .vxlat kg ks kd apd apa xt xp => .two (lWord 0x060 kg ks (apd ++ 0#1 ++ kd)) (xt ++ xp ++ 0#5 ++ apa ++ 0#11)
  | .vxlatFf kg ks kd apd apa xt xp => .two (lWord 0x061 kg ks (apd ++ 0#1 ++ kd)) (xt ++ xp ++ 0#5 ++ apa ++ 0#11)
  | .vamadd kg ks ret apd apa base idx scope q => .two (lWord 0x100 kg ks (apa ++ 0#4)) (base ++ scope ++ q ++ BitVec.ofBool ret ++ 0#4 ++ idx ++ apd ++ 0#5)
  | .vamfadd kg ks ret apd apa base idx scope q => .two (lWord 0x101 kg ks (apa ++ 0#4)) (base ++ scope ++ q ++ BitVec.ofBool ret ++ 0#4 ++ idx ++ apd ++ 0#5)
  | .vammin kg ks ret apd apa base idx scope q => .two (lWord 0x102 kg ks (apa ++ 0#4)) (base ++ scope ++ q ++ BitVec.ofBool ret ++ 0#4 ++ idx ++ apd ++ 0#5)
  | .vammax kg ks ret apd apa base idx scope q => .two (lWord 0x103 kg ks (apa ++ 0#4)) (base ++ scope ++ q ++ BitVec.ofBool ret ++ 0#4 ++ idx ++ apd ++ 0#5)
  | .vamfmin kg ks ret apd apa base idx scope q => .two (lWord 0x104 kg ks (apa ++ 0#4)) (base ++ scope ++ q ++ BitVec.ofBool ret ++ 0#4 ++ idx ++ apd ++ 0#5)
  | .vamfmax kg ks ret apd apa base idx scope q => .two (lWord 0x105 kg ks (apa ++ 0#4)) (base ++ scope ++ q ++ BitVec.ofBool ret ++ 0#4 ++ idx ++ apd ++ 0#5)
  | .vamand kg ks ret apd apa base idx scope q => .two (lWord 0x106 kg ks (apa ++ 0#4)) (base ++ scope ++ q ++ BitVec.ofBool ret ++ 0#4 ++ idx ++ apd ++ 0#5)
  | .vamor kg ks ret apd apa base idx scope q => .two (lWord 0x107 kg ks (apa ++ 0#4)) (base ++ scope ++ q ++ BitVec.ofBool ret ++ 0#4 ++ idx ++ apd ++ 0#5)
  | .vamxor kg ks ret apd apa base idx scope q => .two (lWord 0x108 kg ks (apa ++ 0#4)) (base ++ scope ++ q ++ BitVec.ofBool ret ++ 0#4 ++ idx ++ apd ++ 0#5)
  | .accwin aw op ty xb xl xg => .two (lWord 0x110 0 false (aw ++ op ++ 0#2 ++ ty)) (xb ++ xl ++ xg ++ 0#17)
  | .awacc kg ks aw idx apa => .two (lWord 0x111 kg ks (aw ++ 0#8)) (0#15 ++ idx ++ apa ++ 0#5)
  | .merge aw scope q => .two (lWord 0x112 0 false (aw ++ 0#8)) (0#5 ++ scope ++ q ++ 0#22)
  | .awrel aw => .two (lWord 0x113 0 false (aw ++ 0#8)) (0#32)
  | .stpeek rd => .two (lWord 0x140 0 false 0) (rd ++ 0#27)
  | .stdrop ra => .two (lWord 0x141 0 false 0) (ra ++ 0#27)
  | .stcut ra => .two (lWord 0x142 0 false 0) (ra ++ 0#27)
  | .stsync => .two (lWord 0x143 0 false 0) (0#32)
  | .stpre ra => .two (lWord 0x144 0 false 0) (ra ++ 0#27)
  | .tshape nm1 km1 => .two (lWord 0x180 0 false 0) (0#18 ++ nm1 ++ 0#1 ++ km1)
  | .tload t apa => .two (lWord 0x181 0 false 0) (apa ++ t ++ 0#23)
  | .tmac t apa xr => .two (lWord 0x184 0 false 0) (apa ++ t ++ xr ++ 0#18)
  | .tzero t => .two (lWord 0x188 0 false 0) (0#6 ++ t ++ 0#23)
  | .tdrain kg ks apd t xr => .two (lWord 0x18c kg ks 0) (apd ++ t ++ xr ++ 0#18)
  | .trestart disp => .two (lWord 0x190 0 false 0) (disp)
  | .tclose => .two (lWord 0x191 0 false 0) (0#32)
  | .cpy xd xs xn xc scope => .two (lWord 0x1c0 0 false 0) (xd ++ xs ++ xn ++ xc ++ scope ++ 0#9)
  | .collAr xa scope => .two (lWord 0x1c4 0 false 0) (xa ++ 0#5 ++ 0#5 ++ 0#5 ++ scope ++ 0#9)
  | .collRs xa scope => .two (lWord 0x1c5 0 false 0) (xa ++ 0#5 ++ 0#5 ++ 0#5 ++ scope ++ 0#9)
  | .collAg xa scope => .two (lWord 0x1c6 0 false 0) (xa ++ 0#5 ++ 0#5 ++ 0#5 ++ scope ++ 0#9)
  | .collA2a xa scope => .two (lWord 0x1c7 0 false 0) (xa ++ 0#5 ++ 0#5 ++ 0#5 ++ scope ++ 0#9)
  | .updSgdm xa scope => .two (lWord 0x1c8 0 false 0) (xa ++ 0#5 ++ 0#5 ++ 0#5 ++ scope ++ 0#9)
  | .updAdamw xa scope => .two (lWord 0x1c9 0 false 0) (xa ++ 0#5 ++ 0#5 ++ 0#5 ++ scope ++ 0#9)
  | .skipset xa xb => .two (lWord 0x1cc 0 false 0) (xa ++ xb ++ 0#5 ++ 0#5 ++ 0#3 ++ 0#9)
  | .wver n xa => .two (lWord 0x1cd 0 false (0#4 ++ n)) (xa ++ 0#5 ++ 0#5 ++ 0#5 ++ 0#3 ++ 0#9)
  | .memoryAccessPerformed _ => .none
  | .modulePowerRemoval => .none

/-! ### The decoder -/

/-- Major 0x01 by its function value. -/
def rawR01 (w : IWord) : Option Instr :=
  match (w.extractLsb' 6 5).toNat with
  | 1 => some (.slli (fRd w) (fRa w) (w.extractLsb' 0 6))
  | 2 => some (.srli (fRd w) (fRa w) (w.extractLsb' 0 6))
  | 3 => some (.srai (fRd w) (fRa w) (w.extractLsb' 0 6))
  | 0 =>
    match (fFunc w).toNat with
    | 0x000 => some (.add (fRd w) (fRa w) (fRb w))
    | 0x001 => some (.sub (fRd w) (fRa w) (fRb w))
    | 0x002 => some (.and (fRd w) (fRa w) (fRb w))
    | 0x003 => some (.or (fRd w) (fRa w) (fRb w))
    | 0x004 => some (.xor (fRd w) (fRa w) (fRb w))
    | 0x005 => some (.andn (fRd w) (fRa w) (fRb w))
    | 0x006 => some (.sll (fRd w) (fRa w) (fRb w))
    | 0x007 => some (.srl (fRd w) (fRa w) (fRb w))
    | 0x008 => some (.sra (fRd w) (fRa w) (fRb w))
    | 0x009 => some (.slt (fRd w) (fRa w) (fRb w))
    | 0x00a => some (.sltn (fRd w) (fRa w) (fRb w))
    | 0x00b => some (.min (fRd w) (fRa w) (fRb w))
    | 0x00c => some (.max (fRd w) (fRa w) (fRb w))
    | 0x00d => some (.minn (fRd w) (fRa w) (fRb w))
    | 0x00e => some (.maxn (fRd w) (fRa w) (fRb w))
    | 0x00f => some (.clz (fRd w) (fRa w))
    | 0x010 => some (.ctz (fRd w) (fRa w))
    | 0x011 => some (.popc (fRd w) (fRa w))
    | 0x012 => some (.sxb (fRd w) (fRa w))
    | 0x013 => some (.sxh (fRd w) (fRa w))
    | 0x014 => some (.sxw (fRd w) (fRa w))
    | 0x015 => some (.zxb (fRd w) (fRa w))
    | 0x016 => some (.zxh (fRd w) (fRa w))
    | 0x017 => some (.zxw (fRd w) (fRa w))
    | 0x019 => some (.adds1 (fRd w) (fRa w) (fRb w))
    | 0x01a => some (.adds2 (fRd w) (fRa w) (fRb w))
    | 0x01b => some (.adds3 (fRd w) (fRa w) (fRb w))
    | 0x020 => some (.sliceof (fRd w) (fRa w))
    | _ => none
  | _ => none

/-- Major 0x09 by its function value. -/
def rawR09 (w : IWord) : Option Instr :=
  match (fFunc w).toNat with
  | 0x000 => some (.mul (fRd w) (fRa w) (fRb w))
  | 0x001 => some (.mulh (fRd w) (fRa w) (fRb w))
  | 0x002 => some (.mulhn (fRd w) (fRa w) (fRb w))
  | 0x003 => some (.mulhsn (fRd w) (fRa w) (fRb w))
  | 0x008 => some (.div (fRd w) (fRa w) (fRb w))
  | 0x009 => some (.divn (fRd w) (fRa w) (fRb w))
  | 0x00a => some (.rem (fRd w) (fRa w) (fRb w))
  | 0x00b => some (.remn (fRd w) (fRa w) (fRb w))
  | _ => none

/-- Major 0x1c by its function value. -/
def rawR1c (w : IWord) : Option Instr :=
  match (fFunc w).toNat with
  | 0x001 => some (.trap (fRa w ++ fRb w))
  | 0x002 => some (.eret)
  | 0x003 => some (.wfi)
  | 0x010 => some (.dclean (fRa w) (fRb w))
  | 0x011 => some (.xcinv (fRa w) (fRb w))
  | 0x012 => some (.fbar)
  | 0x013 => some (.ptsync)
  | 0x020 => some (.launch (fRd w) (fRa w))
  | _ => none

/-- Major 0x1e by its function value. -/
def rawR1e (w : IWord) : Option Instr :=
  match (w.extractLsb' 5 6).toNat with
  | 8 => some (.larriveScope (fRd w) (fRa w) (w.extractLsb' 2 3))
  | 16 => some (.lwaitScope (fRd w) (fRa w) (fRb w) (w.extractLsb' 2 3))
  | _ =>
    match (fFunc w).toNat with
    | 0x000 => some (.larrive (fRd w))
    | 0x001 => some (.lwait (fRd w) (fRa w))
    | 0x300 => some (.retire)
    | _ => none

/-- Major 0x1f by its function value. -/
def rawR1f (w : IWord) : Option Instr :=
  match (fFunc w).toNat with
  | 0x000 => some (.twake)
  | 0x001 => some (.tfill (fRa w))
  | 0x002 => some (.bkt (fRd w) (fRa w))
  | _ => none

/-- Fences by their direction (R238). -/
def rawFence (w : IWord) : Option Instr :=
  match (w.extractLsb' 3 2).toNat with
  | 0 => some (.fenceSv (w.extractLsb' 0 3))
  | 1 => some (.fenceVs (w.extractLsb' 0 3))
  | 2 => some (.fenceVv (w.extractLsb' 0 3))
  | 3 => some (.fenceAll (w.extractLsb' 0 3))
  | _ => none

/-- Scalar atomics by their OP (R229). -/
def rawAtomic (w : IWord) : Option Instr :=
  match (w.extractLsb' 6 5).toNat with
  | 0x00 => some (.amswp (fRd w) (fRa w) (fRb w) (w.getLsbD 5) (w.extractLsb' 2 3) (w.extractLsb' 0 2))
  | 0x01 => some (.amcas (fRd w) (fRa w) (fRb w) (w.getLsbD 5) (w.extractLsb' 2 3) (w.extractLsb' 0 2))
  | 0x02 => some (.amadd (fRd w) (fRa w) (fRb w) (w.getLsbD 5) (w.extractLsb' 2 3) (w.extractLsb' 0 2))
  | 0x03 => some (.amand (fRd w) (fRa w) (fRb w) (w.getLsbD 5) (w.extractLsb' 2 3) (w.extractLsb' 0 2))
  | 0x04 => some (.amor (fRd w) (fRa w) (fRb w) (w.getLsbD 5) (w.extractLsb' 2 3) (w.extractLsb' 0 2))
  | 0x05 => some (.amxor (fRd w) (fRa w) (fRb w) (w.getLsbD 5) (w.extractLsb' 2 3) (w.extractLsb' 0 2))
  | 0x06 => some (.ammin (fRd w) (fRa w) (fRb w) (w.getLsbD 5) (w.extractLsb' 2 3) (w.extractLsb' 0 2))
  | 0x07 => some (.ammax (fRd w) (fRa w) (fRb w) (w.getLsbD 5) (w.extractLsb' 2 3) (w.extractLsb' 0 2))
  | 0x08 => some (.amminn (fRd w) (fRa w) (fRb w) (w.getLsbD 5) (w.extractLsb' 2 3) (w.extractLsb' 0 2))
  | 0x09 => some (.ammaxn (fRd w) (fRa w) (fRb w) (w.getLsbD 5) (w.extractLsb' 2 3) (w.extractLsb' 0 2))
  | 0x0a => some (.amfadd (fRd w) (fRa w) (fRb w) (w.extractLsb' 2 3) (w.extractLsb' 0 2))
  | 0x0b => some (.amfmin (fRd w) (fRa w) (fRb w) (w.extractLsb' 2 3) (w.extractLsb' 0 2))
  | 0x0c => some (.amfmax (fRd w) (fRa w) (fRb w) (w.extractLsb' 2 3) (w.extractLsb' 0 2))
  | 0x0d => some (.amld (fRd w) (fRa w) (w.getLsbD 5) (w.extractLsb' 2 3) (w.extractLsb' 0 2))
  | 0x0e => some (.amst (fRa w) (fRb w) (w.getLsbD 5) (w.extractLsb' 2 3) (w.extractLsb' 0 2))
  | _ => none

/-- Scalar loads and stores by major and size (R208). -/
def rawScalarMem (major : Nat) (w : IWord) : Option Instr :=
  match major, (w.extractLsb' 0 3).toNat with
  | 0x20, 0 => some (.lb (w.extractLsb' 20 5) (fBase w) (fOff w))
  | 0x20, 1 => some (.lh (w.extractLsb' 20 5) (fBase w) (fOff w))
  | 0x20, 2 => some (.lw (w.extractLsb' 20 5) (fBase w) (fOff w))
  | 0x20, 3 => some (.ld (w.extractLsb' 20 5) (fBase w) (fOff w))
  | 0x21, 0 => some (.lbn (w.extractLsb' 20 5) (fBase w) (fOff w))
  | 0x21, 1 => some (.lhn (w.extractLsb' 20 5) (fBase w) (fOff w))
  | 0x21, 2 => some (.lwn (w.extractLsb' 20 5) (fBase w) (fOff w))
  | 0x21, 3 => some (.ldn (w.extractLsb' 20 5) (fBase w) (fOff w))
  | 0x22, 0 => some (.sb (w.extractLsb' 20 5) (fBase w) (fOff w))
  | 0x22, 1 => some (.sh (w.extractLsb' 20 5) (fBase w) (fOff w))
  | 0x22, 2 => some (.sw (w.extractLsb' 20 5) (fBase w) (fOff w))
  | 0x22, 3 => some (.sd (w.extractLsb' 20 5) (fBase w) (fOff w))
  | _, _ => none

/-- L instructions by XOP (R118). -/
noncomputable def rawL (w v : IWord) : Option Instr :=
  let xop := (fXop w).toNat
  if xop < 0x020 then
    some (.adefRect (w.extractLsb' 4 6) (w.getLsbD 18) (w.extractLsb' 14 4) (v.extractLsb' 24 8) (v.extractLsb' 14 10) (v.extractLsb' 4 10) (w.extractLsb' 0 4 ++ v.extractLsb' 0 4))
  else if xop < 0x028 then
    some (.adefLine (w.extractLsb' 4 6) (w.extractLsb' 14 2) (w.getLsbD 16) (w.extractLsb' 0 4) (v.extractLsb' 24 8) (v.extractLsb' 14 10) (v.extractLsb' 4 10))
  else
    match xop with
    | 0x028 => some (.adefx (v.extractLsb' 26 6) (v.extractLsb' 15 5))
    | 0x029 => some (.aget (v.extractLsb' 15 5) (v.extractLsb' 20 6))
    | 0x02a => some (.amov (v.extractLsb' 26 6) (v.extractLsb' 20 6))
    | 0x02b => some (.aswap (v.extractLsb' 26 6) (v.extractLsb' 20 6))
    | 0x02c => some (.abind (v.extractLsb' 26 6) (v.extractLsb' 6 4))
    | 0x02d => some (.aunbind (v.extractLsb' 26 6))
    | 0x030 => some (.efcget (fKg w) (fKs w) (v.extractLsb' 26 6))
    | 0x031 => some (.efcput (fKg w) (fKs w) (v.extractLsb' 20 6))
    | 0x032 => some (.vsplat (fKg w) (fKs w) (v.extractLsb' 26 6) (v.extractLsb' 15 5))
    | 0x033 => some (.vget (v.extractLsb' 15 5) (v.extractLsb' 20 6) (v.extractLsb' 10 5))
    | 0x040 =>
      if w.extractLsb' 0 3 = 0#3 then some (.vlds (fKg w) (fKs w) (w.extractLsb' 4 6) (v.extractLsb' 27 5) (v.extractLsb' 22 5) (v.extractLsb' 17 5) (v.extractLsb' 0 11))
      else some (.vlseg (fKg w) (fKs w) (w.extractLsb' 4 6) (w.extractLsb' 0 3) (v.extractLsb' 27 5) (v.extractLsb' 22 5) (v.extractLsb' 17 5) (v.extractLsb' 0 11))
    | 0x041 =>
      if w.extractLsb' 0 3 = 0#3 then some (.vsts (fKg w) (fKs w) (w.extractLsb' 4 6) (v.extractLsb' 27 5) (v.extractLsb' 22 5) (v.extractLsb' 17 5) (v.extractLsb' 0 11))
      else some (.vsseg (fKg w) (fKs w) (w.extractLsb' 4 6) (w.extractLsb' 0 3) (v.extractLsb' 27 5) (v.extractLsb' 22 5) (v.extractLsb' 17 5) (v.extractLsb' 0 11))
    | 0x042 =>
      if v.extractLsb' 22 5 = 0#5 then some (.vldx (fKg w) (fKs w) (w.extractLsb' 4 6) (v.extractLsb' 27 5) (v.extractLsb' 17 5) (v.extractLsb' 11 6) (v.extractLsb' 0 11))
      else some (.vldxr (fKg w) (fKs w) (w.extractLsb' 4 6) (v.extractLsb' 27 5) (v.extractLsb' 22 5) (v.extractLsb' 11 6) (v.extractLsb' 0 11))
    | 0x043 =>
      if v.extractLsb' 22 5 = 0#5 then some (.vstx (fKg w) (fKs w) (w.extractLsb' 4 6) (v.extractLsb' 27 5) (v.extractLsb' 17 5) (v.extractLsb' 11 6) (v.extractLsb' 0 11))
      else some (.vstxr (fKg w) (fKs w) (w.extractLsb' 4 6) (v.extractLsb' 27 5) (v.extractLsb' 22 5) (v.extractLsb' 11 6) (v.extractLsb' 0 11))
    | 0x048 => some (.fsbind (w.extractLsb' 0 4) (v.extractLsb' 27 5))
    | 0x049 => some (.fsrel (w.extractLsb' 0 4))
    | 0x04a => some (.fsget (v.extractLsb' 27 5) (w.extractLsb' 0 4))
    | 0x060 => some (.vxlat (fKg w) (fKs w) (w.extractLsb' 0 3) (w.extractLsb' 4 6) (v.extractLsb' 11 6) (v.extractLsb' 27 5) (v.extractLsb' 22 5))
    | 0x061 => some (.vxlatFf (fKg w) (fKs w) (w.extractLsb' 0 3) (w.extractLsb' 4 6) (v.extractLsb' 11 6) (v.extractLsb' 27 5) (v.extractLsb' 22 5))
    | 0x100 => some (.vamadd (fKg w) (fKs w) (v.getLsbD 21) (v.extractLsb' 5 6) (w.extractLsb' 4 6) (v.extractLsb' 27 5) (v.extractLsb' 11 6) (v.extractLsb' 24 3) (v.extractLsb' 22 2))
    | 0x101 => some (.vamfadd (fKg w) (fKs w) (v.getLsbD 21) (v.extractLsb' 5 6) (w.extractLsb' 4 6) (v.extractLsb' 27 5) (v.extractLsb' 11 6) (v.extractLsb' 24 3) (v.extractLsb' 22 2))
    | 0x102 => some (.vammin (fKg w) (fKs w) (v.getLsbD 21) (v.extractLsb' 5 6) (w.extractLsb' 4 6) (v.extractLsb' 27 5) (v.extractLsb' 11 6) (v.extractLsb' 24 3) (v.extractLsb' 22 2))
    | 0x103 => some (.vammax (fKg w) (fKs w) (v.getLsbD 21) (v.extractLsb' 5 6) (w.extractLsb' 4 6) (v.extractLsb' 27 5) (v.extractLsb' 11 6) (v.extractLsb' 24 3) (v.extractLsb' 22 2))
    | 0x104 => some (.vamfmin (fKg w) (fKs w) (v.getLsbD 21) (v.extractLsb' 5 6) (w.extractLsb' 4 6) (v.extractLsb' 27 5) (v.extractLsb' 11 6) (v.extractLsb' 24 3) (v.extractLsb' 22 2))
    | 0x105 => some (.vamfmax (fKg w) (fKs w) (v.getLsbD 21) (v.extractLsb' 5 6) (w.extractLsb' 4 6) (v.extractLsb' 27 5) (v.extractLsb' 11 6) (v.extractLsb' 24 3) (v.extractLsb' 22 2))
    | 0x106 => some (.vamand (fKg w) (fKs w) (v.getLsbD 21) (v.extractLsb' 5 6) (w.extractLsb' 4 6) (v.extractLsb' 27 5) (v.extractLsb' 11 6) (v.extractLsb' 24 3) (v.extractLsb' 22 2))
    | 0x107 => some (.vamor (fKg w) (fKs w) (v.getLsbD 21) (v.extractLsb' 5 6) (w.extractLsb' 4 6) (v.extractLsb' 27 5) (v.extractLsb' 11 6) (v.extractLsb' 24 3) (v.extractLsb' 22 2))
    | 0x108 => some (.vamxor (fKg w) (fKs w) (v.getLsbD 21) (v.extractLsb' 5 6) (w.extractLsb' 4 6) (v.extractLsb' 27 5) (v.extractLsb' 11 6) (v.extractLsb' 24 3) (v.extractLsb' 22 2))
    | 0x110 => some (.accwin (w.extractLsb' 8 2) (w.extractLsb' 6 2) (w.extractLsb' 0 4) (v.extractLsb' 27 5) (v.extractLsb' 22 5) (v.extractLsb' 17 5))
    | 0x111 => some (.awacc (fKg w) (fKs w) (w.extractLsb' 8 2) (v.extractLsb' 11 6) (v.extractLsb' 5 6))
    | 0x112 => some (.merge (w.extractLsb' 8 2) (v.extractLsb' 24 3) (v.extractLsb' 22 2))
    | 0x113 => some (.awrel (w.extractLsb' 8 2))
    | 0x140 => some (.stpeek (v.extractLsb' 27 5))
    | 0x141 => some (.stdrop (v.extractLsb' 27 5))
    | 0x142 => some (.stcut (v.extractLsb' 27 5))
    | 0x143 => some (.stsync)
    | 0x144 => some (.stpre (v.extractLsb' 27 5))
    | 0x180 => some (.tshape (v.extractLsb' 8 6) (v.extractLsb' 0 7))
    | 0x181 => some (.tload (v.extractLsb' 23 3) (v.extractLsb' 26 6))
    | 0x184 => some (.tmac (v.extractLsb' 23 3) (v.extractLsb' 26 6) (v.extractLsb' 18 5))
    | 0x188 => some (.tzero (v.extractLsb' 23 3))
    | 0x18c => some (.tdrain (fKg w) (fKs w) (v.extractLsb' 26 6) (v.extractLsb' 23 3) (v.extractLsb' 18 5))
    | 0x190 => some (.trestart v)
    | 0x191 => some (.tclose)
    | 0x1c0 => some (.cpy (v.extractLsb' 27 5) (v.extractLsb' 22 5) (v.extractLsb' 17 5) (v.extractLsb' 12 5) (v.extractLsb' 9 3))
    | 0x1c4 => some (.collAr (v.extractLsb' 27 5) (v.extractLsb' 9 3))
    | 0x1c5 => some (.collRs (v.extractLsb' 27 5) (v.extractLsb' 9 3))
    | 0x1c6 => some (.collAg (v.extractLsb' 27 5) (v.extractLsb' 9 3))
    | 0x1c7 => some (.collA2a (v.extractLsb' 27 5) (v.extractLsb' 9 3))
    | 0x1c8 => some (.updSgdm (v.extractLsb' 27 5) (v.extractLsb' 9 3))
    | 0x1c9 => some (.updAdamw (v.extractLsb' 27 5) (v.extractLsb' 9 3))
    | 0x1cc => some (.skipset (v.extractLsb' 27 5) (v.extractLsb' 22 5))
    | 0x1cd => some (.wver (w.extractLsb' 0 6) (v.extractLsb' 27 5))
    | _ => none

/-- Pair instructions (R114): the second word must be an A-format instruction, its mask field checked by `decode`. -/
noncomputable def rawPair (w v : IWord) : Option Instr :=
  match PairScalar.ofSop (w.extractLsb' 0 22), AHalf.ofWord v with
  | some sc, some h => some (.pair (w.extractLsb' 23 3) (w.getLsbD 22) sc h)
  | _, _ => none

/-- The term whose fields two words hold, by major opcode (R117), before any bit is checked. -/
noncomputable def rawDecode (w v : IWord) : Option Instr :=
  match (fMajor w).toNat with
  | 0x01 => rawR01 w
  | 0x02 => some (.addi (fRd w) (fRa w) (fImm w))
  | 0x03 => some (.andi (fRd w) (fRa w) (fImm w))
  | 0x04 => some (.ori (fRd w) (fRa w) (fImm w))
  | 0x05 => some (.xori (fRd w) (fRa w) (fImm w))
  | 0x06 => some (.slti (fRd w) (fRa w) (fImm w))
  | 0x07 => some (.sltni (fRd w) (fRa w) (fImm w))
  | 0x08 => some (.lih (fRd w) (fRa w) (fImm w))
  | 0x0a => some (.setvl (fRd w) (fRa w) (w.extractLsb' 0 4))
  | 0x0b => some (.setvlG (fRd w) (fRa w) (w.extractLsb' 0 4))
  | 0x0c => some (.setrc (fRd w) (fRa w) (fImm w))
  | 0x10 => some (.jmp (w.extractLsb' 0 26))
  | 0x11 => some (.call (w.extractLsb' 0 26))
  | 0x12 => some (.beq (fRd w) (fRa w) (fImm w))
  | 0x13 => some (.bne (fRd w) (fRa w) (fImm w))
  | 0x14 => some (.blt (fRd w) (fRa w) (fImm w))
  | 0x15 => some (.bge (fRd w) (fRa w) (fImm w))
  | 0x16 => some (.bltn (fRd w) (fRa w) (fImm w))
  | 0x17 => some (.bgen (fRd w) (fRa w) (fImm w))
  | 0x18 => some (.jmpl (fRd w) (fRa w) (fImm w))
  | 0x19 => some (.csrrw (fRd w) (fRa w) (fImm w))
  | 0x1a => some (.csrrs (fRd w) (fRa w) (fImm w))
  | 0x1b => some (.csrrc (fRd w) (fRa w) (fImm w))
  | 0x24 => some (.vld (fApd w) (fBase w) (fOff w) (w.extractLsb' 0 3))
  | 0x25 => some (.vst (fApd w) (fBase w) (fOff w) (w.extractLsb' 0 3))
  | 0x09 => rawR09 w
  | 0x1c => rawR1c w
  | 0x1d => rawFence w
  | 0x1e => rawR1e w
  | 0x1f => rawR1f w
  | 0x20 => rawScalarMem 0x20 w
  | 0x21 => rawScalarMem 0x21 w
  | 0x22 => rawScalarMem 0x22 w
  | 0x23 => rawAtomic w
  | 0x3e => rawL w v
  | 0x3f => rawPair w v
  | _ =>
    match AHalf.ofWord w with
    | some h => some (h.toInstr (fMask w))
    | none => none

/-- A first word of a two-word format (R105). -/
def isLong (w : IWord) : Bool := decide (0x3e ≤ (fMajor w).toNat)

/-- The words an instruction beginning with `w` occupies in memory, `v` being the next word. -/
def wordsAt (w v : IWord) : Words := if isLong w then .two w v else .one w

/-- The decoder: the instruction of the word `w` (and the next word `v`, which a one-word instruction does not
use), or none: an illegal encoding (R119). -/
noncomputable def decode (w v : IWord) : Option Instr :=
  match rawDecode w v with
  | some i => if i.wf && decide (encode i = wordsAt w v) then some i else none
  | none => none

/-- The words of an instruction given as one number, bit 0 the lowest bit of the first word. -/
def tableWords (w : Nat) : IWord × IWord := (BitVec.ofNat 32 w, BitVec.ofNat 32 (w / 2 ^ 32))

/-- The instruction that the decoder reads from the bits `w`; the bits above `nbits` are 0. -/
noncomputable def decodeTableWord (nbits w : Nat) : Option Instr :=
  decode (tableWords (w % 2 ^ nbits)).1 (tableWords (w % 2 ^ nbits)).2

/-- Bytes an instruction occupies: 4, or 8 for the two-word formats (R106); 0 for an event. -/
def Instr.length (i : Instr) : Nat :=
  match encode i with
  | .none => 0
  | .one _ => 4
  | .two _ _ => 8

end Sys2Proof
end

