-- ==== Sys2Proof/Machine/Num.lean ====
section
/-! DEFINITION. Bit fields, two's complement, byte order and flag sets: the plain numbers that the operations share. -/

namespace Sys2Proof.Machine

/-- Bits h:l of a number (R120). -/
def bits (v h l : Nat) : Nat := v / 2 ^ l % 2 ^ (h + 1 - l)

/-- The low n bits read as two's complement (R120, Sext). -/
def sext (v n : Nat) : Int := if n = 0 then 0 else (v % 2 ^ n : Nat) - (if 2 ^ (n - 1) ≤ v % 2 ^ n then (2 ^ n : Nat) else 0 : Int)

/-- An integer reduced modulo 2^n. -/
def wrap (n : Nat) (x : Int) : Nat := (x % (2 ^ n : Nat)).toNat

/-- A 64-bit word of an integer, modulo 2^64. -/
def word (x : Int) : Word := BitVec.ofNat 64 (wrap 64 x)

/-- Little-endian value of bytes (R8). -/
def leNat : List Byte → Nat
  | [] => 0
  | b :: bs => b.toNat + 256 * leNat bs

/-- The n bytes of a number, lowest first (R8). -/
def leBytes : Nat → Nat → List Byte
  | 0, _ => []
  | n + 1, v => BitVec.ofNat 8 v :: leBytes n (v / 256)

/-- The smallest multiple of k that is at least n. -/
def ceilTo (k n : Nat) : Nat := (n + k - 1) / k * k

/-- FSTAT flag numbers (R102). -/
abbrev Flags := BitVec 6

end Sys2Proof.Machine
end

