-- ==== Sys2Proof/Machine/State.lean ====
section
/-! DEFINITION. The state of the module as plain data, the reasons a step can stop, and the state after module
reset. Every structure is a value of lists, numbers and bit vectors; accessors stand in Ops.lean. -/

namespace Sys2Proof.Machine

/-- Sparse data by number: strictly rising keys, no entry equal to 0, which is what an unlisted key reads as. -/
abbrev SMap (w : Nat) := List (Nat × BitVec w)

/-- The memory of the module: bytes at flat locations. Location a < 2^48 is the physical address a (R275); location
2^48 + q × 2^21 + o is byte o of the gallery of core q (R273). An unlisted byte reads 0 (DESIGN CHOICE, log 3). -/
abbrev Memory := List Host.Cell

/-- Privilege levels (R26, R371). -/
inductive Priv where
  | u | s | m
  deriving DecidableEq, Repr

/-- What a hart does next: it runs, or waits in `wfi` (R141) or `lwait` (R244). -/
inductive Run where
  | running
  | wfi
  /-- Destination register and token, and the landing block of the memory form. -/
  | lwait (rd : XReg) (token : BitVec 16) (block : Option Word)
  /-- A `launch` with its message read from an address and its window chosen, waiting for room in the queue (R144). -/
  | launching (rd : XReg) (va : Word) (msg : BitVec 512) (window : Nat)
  deriving DecidableEq, Repr

/-- Where a load puts what it reads: X(r), extended by sign or by zeros; element (r, e) of an aperture, of which `part` tells
the half of a packed byte; or the elements of an aperture that one I4S block holds, each (r, e) with its place in the block. -/
inductive LateDest where
  | xreg (r : XReg) (signed : Bool)
  | cell (ap : Ap) (r e part : Nat)
  | block (ap : Ap) (els : List (Nat × Nat × Nat))
  deriving DecidableEq, Repr

/-- What an atomic does to the value of its location (R210, R229 to R232): `nib` writes one half of a byte, `red` is an operator of
R98 on a TYPE. -/
inductive AtomOp where
  | ld | swp | add | and | or | xor | min | max | minn | maxn
  | cas (old : Nat)
  | fadd | fmin | fmax
  | nib (hi : Bool)
  | red (ty op : Nat)
  deriving DecidableEq, Repr

/-- An atomic's operation, its operand, and where its old value goes. -/
structure Rmw where
  op : AtomOp
  b : Nat
  dests : List LateDest
  /-- It sets no flag (R237). -/
  quiet : Bool := false
  deriving DecidableEq, Repr

/-- A store or an atomic that its hart has made and that is not yet performed at its home (R290, R293). -/
structure Pending where
  /-- It belongs to the vector stream. -/
  vec : Bool
  loc : Nat
  /-- The bytes it stores; of an atomic, as many bytes as it has. -/
  bytes : List Byte
  rmw : Option Rmw := none
  deriving DecidableEq, Repr

/-- A load that its hart has made and that may still be performed after younger accesses of the hart, which nothing orders
against it (R290, R293 to R300; DESIGN CHOICE, log 2). -/
structure Late where
  /-- It belongs to the vector stream. -/
  vec : Bool
  loc : Nat
  n : Nat
  dest : LateDest
  /-- A fence has put it before every later scalar, or vector, operation of the hart (R238). -/
  noSc : Bool := false
  noVec : Bool := false
  deriving DecidableEq, Repr

/-- A finder stream's binding: the record of R223 and its position n (R222). -/
structure Stream where
  base : Word
  estr : BitVec 32
  rstr : BitVec 32
  rlen : BitVec 32
  limit : BitVec 32
  fmt : BitVec 4
  /-- Byte 25 of the record: scale on and scale stream. -/
  scl : BitVec 8
  pos : Nat
  /-- Elements read ahead of the position (R305); no result depends on it. -/
  ahead : Nat
  deriving DecidableEq, Repr

/-- A declared accumulation window (R234, R235). -/
structure Window where
  base : Word
  len : Nat
  gal : Nat
  op : BitVec 2
  ty : BitVec 4
  deriving DecidableEq, Repr

/-- The stair of one hart besides its registers: the on-chip bytes [low, STP) by address, the record boundaries
that pushes have left (R198, R203), and the address below which every byte was pushed before the hart's last fence or
release over its vector stores (R199). -/
structure Stair where
  low : Word
  bytes : SMap 8
  marks : List Word
  fenced : Word
  /-- While its gang is held: the on-chip bytes are in the stair image (R378, R394). -/
  inImage : Bool
  deriving DecidableEq, Repr

/-- The fault of an engine command that the hart's next covering fence reports (R406, R418, R419). -/
structure EngineFault where
  code : Nat
  tva : Word
  deriving DecidableEq, Repr

/-- A translation unit of an almanac (R319): its key, its words, the fault that the code read of the word after them has met
(R320, R408), and how it was translated: the root of the tables, its leaves' locations and the moment. -/
structure AlmUnit where
  ctx : Option Nat
  va : Word
  frames : List Nat
  priv : Priv
  xstep : Word
  words : List IWord
  fault : Option Nat
  root : Nat
  /-- The frame of the page of a word that could not be read, where it is another. -/
  past : Option Nat
  leaves : List Nat
  born : Nat
  deriving DecidableEq, Repr

/-- A place in a translation unit: the instruction fetched last, the one that follows it, and the unit's end (R319). -/
structure UnitPlace where
  here : Word
  next : Word
  stop : Word
  deriving DecidableEq, Repr

/-- An Aperture Table entry as an instruction has captured it (R71), whether it writes it or reads it, and the rows and the
elements of a row that it sweeps; one row: row 0, for every row of the sweep. -/
structure SweptAp where
  word : Word
  write : Bool
  rows : Nat
  els : Nat
  /-- It counts in the cycles of a pass (R79, R172, R182). -/
  paced : Bool
  deriving DecidableEq, Repr

/-- How an instruction uses its hart's stair (R202). -/
inductive StairUse where
  | push | pop | manage
  deriving DecidableEq, Repr

/-- The passes of a vector instruction (R78, R182): one for each swept row, of so many times the cycles of R79 (R149), or one
pass over so many scores of the latch, of `vsegr` or of `vexps`. -/
inductive PassShape where
  | row (times : Nat)
  | segr (n : Nat)
  | exps (n : Nat)
  deriving DecidableEq, Repr

/-- A vector or transit instruction on its way through the gate, the queues and the passes: timing only (R54, R73 to R78, R262 to
R266, R328). -/
structure Job where
  hid : Nat := 0
  slot : Nat := 0
  idx : Nat := 0
  /-- Its place in the order in which the core's harts have dispatched. -/
  seq : Nat := 0
  /-- Its class and the units that the gate charges it for (R328, R329). -/
  cls : Nat := 15
  units : Nat := 0
  /-- Younger than an instruction that stops, or a `tdrain` that stops: once the gate has released it, it is gone (R384, R389). -/
  dropped : Bool := false
  /-- Band height, the entries, and the sweep. -/
  bh : Nat := 0
  ops : List SweptAp := []
  rc : Nat := 0
  vl : Nat := 0
  shape : PassShape := .row 1
  /-- Snapshot mode (R77). -/
  snap : Bool := false
  /-- Mask registers that it reads and writes, 8 for km (R147), and whether it reads and writes the latch (R182). -/
  kr : List Nat := []
  kw : List Nat := []
  clR : Bool := false
  clW : Bool := false
  /-- Its only results are latch entries. -/
  clOnly : Bool := false
  /-- It reads or writes memory (R210). -/
  mem : Bool := false
  /-- Its use of the stair, and the record bytes of a row's elements (R202). -/
  stair : Option StairUse := none
  recBytes : Nat := 0
  /-- It can be a link of a drain chain (R262). -/
  link : Bool := false
  /-- The tile of a `tdrain`. -/
  drain : Option Nat := none
  /-- Row of its first pass, its passes, and those that have begun. -/
  start : Nat := 0
  rows : Nat := 0
  begun : Nat := 0
  /-- Cycles that a memory access adds to its results (R210). -/
  extra : Nat := 0
  /-- Cycle in which it entered its queue. -/
  since : Nat := 0
  /-- By row, the cycle at whose end the results of its pass are written; and the one of its last latch entry. -/
  ends : List (Nat × Nat) := []
  clEnd : Nat := 0
  /-- The older instruction on which it chains (R75), and the `tdrain` whose passes it shares with its place in the chain
  (R262). -/
  chain : Option Nat := none
  fused : Option (Nat × Nat) := none
  deriving DecidableEq, Repr

/-- One resident hart (R26). -/
structure Hart where
  /-- Bits 10:0 of `WHERE`: die + 8 × core + 512 × context (R137, R372). -/
  hid : Nat
  /-- Dome slot of its gang, bits 12:11 of `WHERE`. -/
  slot : Nat
  /-- Hart index within the gang. -/
  idx : Nat
  pc : Word
  priv : Priv
  run : Run
  /-- x1 to x31; x0 is no key (R120). -/
  x : SMap 64
  /-- Aperture Table entries (R63). -/
  ap : SMap 64
  /-- k1 to k7; k0 is no key (R115). -/
  k : SMap 1024
  km : BitVec 256
  vl : Nat
  rc : Nat
  swi : Nat
  /-- CSRs of the hart that hold what was written, by number: FRM 0xC01, XRM 0xC02, FSTAT 0xC03, FEN 0xC04, XLSTAT
  0xC13, STB 0xC30, STL 0xC31, STP 0xC32, STWV 0xC33, LCTL.HPRI 0xC40, LGRANT.VIS 0xC41, TSHAPE 0xC48, TRST 0xC49,
  CHSEG 0xC50, PGROOT 0xD10, SPGROOT 0xD11, XSTEP 0xD12, the S trap registers 0xD20 to 0xD2C and the M trap
  registers 0xF20 to 0xF2C but for TEFCD (R371), RPTVA 0xD30, RPTPC 0xD31, RPTCNT 0xD32 (R398). -/
  csr : SMap 64
  /-- Error-feedback carries (R94). -/
  efc : SMap 32
  /-- TEFC of level S and of level M (R369). -/
  tefcS : SMap 32
  tefcM : SMap 32
  /-- Chain latch, entry CL[r][j] at 16 × r + j (R173). -/
  cl : SMap 32
  stair : Stair
  /-- On-chip stair share S in bytes (R41). -/
  share : Nat
  /-- Band height in rows (R60) and first physical row. -/
  bh : Nat
  origin : Nat
  /-- Cells of the band, cell (b, c) at 1,024 × b + c (R59, R60). -/
  plane : SMap 16
  /-- Plate state bytes (R380). -/
  plates : SMap 8
  streams : List (Nat × Stream)
  windows : List (Nat × Window)
  /-- Weight-version bindings (R251). -/
  wver : List (Nat × Word)
  pending : List Pending
  /-- Loads that may still be performed later (DESIGN CHOICE, log 2). -/
  late : List Late
  /-- What atomics performed late have read, and their flags, until the hart's next step (DESIGN CHOICE, log 2). -/
  landed : List (LateDest × List Byte)
  landedFlags : BitVec 6
  engineFaults : List EngineFault
  /-- Code of the last counted memory fault without its REPEAT bit (R398); no CSR shows it. -/
  rptCode : Nat
  /-- Units that an `xcinv` has taken out of the almanac of the hart's die and that the hart may have fetched before, until its
  `fbar` (R307, R309). -/
  fetched : List AlmUnit
  /-- Where the hart stands in a translation unit that it has fetched; none: its next fetch begins a unit (R319). -/
  unit : Option UnitPlace
  /-- The hart's drain chain as long as its next vector instruction can join it: the links, the youngest first, down to the
  `tdrain` (R262). -/
  drain : List Job
  deriving DecidableEq, Repr

/-- A tile and its accumulator bank (R254): element T[k][c] at 64 × k + c, A[m][c] at 64 × m + c. -/
structure Tile where
  phys : Nat
  /-- TYPE of R64; none: the tile is empty. -/
  ty : Option (BitVec 4)
  rows : Nat
  cols : Nat
  elems : SMap 32
  bank : SMap 32
  deriving DecidableEq, Repr

/-- One resident gang (R28). -/
structure Gang where
  /-- Core q = 8 × core + die (R42) and dome slot. -/
  core : Nat
  slot : Nat
  /-- Acceptance number of its launch, and its index within the launch. -/
  launch : Nat
  index : Nat
  /-- Placement sequence number on its core (R41), and the moment since which its launch has had a gang on the core (R272). -/
  seq : Nat
  since : Nat
  lreq : Nat
  gpri : Nat
  /-- LND: LIVE, ARR, PHASE (R240). -/
  live : BitVec 4
  arr : BitVec 4
  phase : BitVec 16
  tiles : List Tile
  galBase : Nat
  galSize : Nat
  /-- Hart contexts and first band rows by hart index, band height in rows, and stair units of 4 KiB (R41): held until
  the gang ends. -/
  ctxs : List Nat
  bands : List Nat
  rows : Nat
  stair : Nat
  /-- Round-robin pointer of the vector sequencer (R54), and the heads that it has passed over, by number, each with the index of
  a hart that has won over it (R55; DESIGN CHOICE, log 59). -/
  rr : Nat
  passed : List (Nat × Nat)
  /-- ROOT of its context at its placement (R339). -/
  root : Nat
  /-- A PREEMPT has named its launch, and its save has not ended (R377). -/
  due : Bool
  deriving DecidableEq, Repr

/-- States of a launch (R45). -/
inductive LaunchState where
  | waiting | ready | placing | running | held | complete
  deriving DecidableEq, Repr

/-- A hart entry of a completion record (R58). -/
structure HartEntry where
  tpc : Word
  gang : Nat
  code : Nat
  idx : Nat
  tswi : Nat
  loc : Nat
  tva : Word
  deriving DecidableEq, Repr

/-- The owner's writes of the pre-emption block that name a launch (R377, R414). -/
inductive RotWrite where
  | preempt | resume | kill
  deriving DecidableEq, Repr

/-- A gang taken off its core: what the save area does not hold as architected, and a copy of the rest (R379; DEDUCED, log 32). -/
structure HeldGang where
  index : Nat
  gang : Gang
  harts : List Hart
  gallery : List Byte
  /-- Poisoned 32-byte units of its gallery, counted from the allocation's start (R403). -/
  bad : List Nat
  deriving DecidableEq, Repr

/-- An accepted launch: the 512-bit message of R31 and what has become of it. -/
structure Launch where
  /-- Acceptance number (R30). -/
  acc : Nat
  window : Nat
  ctx : Nat
  msg : BitVec 512
  st : LaunchState
  /-- Acceptance moment, for path 3 (R206). -/
  stamp : Nat
  /-- Gangs placed and gangs ended (R57). -/
  placed : Nat
  ended : Nat
  held : List HeldGang
  /-- A RESUME has made its held gangs placeable (R377). -/
  resumed : Bool
  saveBase : Option Nat
  /-- ROOT of its context at its latest placement (R339). -/
  root : Option Nat
  killed : Bool
  failed : Bool
  hartEntries : List HartEntry
  lost : Nat
  /-- Engine entries, each 64 bytes (R252). -/
  engEntries : List (List Byte)
  deriving DecidableEq, Repr

/-- What an engine command does (R247 to R251). -/
inductive EngineWork where
  | copy (dst src : Word) (len : Nat)
  /-- Kind 2 to 5 of R252, its descriptor, its member's rank and the group's size. -/
  | collective (kind : Nat) (desc : List Byte) (rank size : Nat)
  /-- `upd.sgdm` or `upd.adamw`, its descriptor, and the word of its weight version where VADV is 1. -/
  | update (adamw : Bool) (desc : List Byte) (ver : Option Word)
  deriving DecidableEq, Repr

/-- A running engine command (R247). -/
structure EngineCmd where
  id : Nat
  /-- Number of its hart; none once the hart has left. -/
  hid : Option Nat
  launch : Nat
  gang : Nat
  idx : Nat
  pc : Word
  scope : Nat
  ctr : Word
  work : EngineWork
  /-- Core and gallery allocation of its gang. -/
  core : Nat
  galBase : Nat
  galSize : Nat
  /-- The hart's address space when it issued. -/
  pgroot : Word
  spgroot : Word
  priv : Priv
  /-- Ranges it reads, ranges it writes and its counter, as flat locations and lengths (R291). -/
  reads : List (Nat × Nat)
  writes : List (Nat × Nat)
  ctrAt : List (Nat × Nat)
  /-- The pieces of its ranges, one to a page, that had no valid translation at its issue, and whether it writes them: they count from the
  moment they have one (R291). -/
  unmapped : List (Bool × Word × Nat)
  /-- L of R252, and how many of its L bytes are done. -/
  total : Nat
  next : Nat
  /-- The byte of a copy after the last piece that has brought poison (R403). -/
  tainted : Nat := 0
  /-- The skip word has been read, and its answer (R251). -/
  skip : Option Bool
  /-- What each rank has contributed: how many elements of each of its blocks, and these elements, block by block (R249);
  none before the collective has started. -/
  remote : Option (List (Nat × Nat × List Nat))
  /-- The ranks that have dropped out, each with its record posted (R419). -/
  missing : List Nat
  /-- An abort token has reached it (R418). -/
  token : Bool
  deriving DecidableEq, Repr

/-- What an entry of the transit queue is (R263, R266): a `tmac` of bf16, of f32, or of h8 or i4. -/
inductive TransitKind where
  | load | mac | mac32 | macHalf | zero | drain | fill
  deriving DecidableEq, Repr

/-- An entry of the transit queue: its instruction, its tile, how many fillers are left (R366), the cycles that a `tload` holds
the load port, and, once it has issued, the last cycle in which it is in flight (R266). -/
structure TransitJob where
  job : Job
  kind : TransitKind
  tile : Nat
  count : Nat
  port : Nat
  done : Option Nat
  deriving DecidableEq, Repr

/-- One lane group (R51, R333): the dome slot of the gang that holds it, that of the gang that it is to join, whether it is gated,
the cycle in which a wake ends, and the cycle since which no gang has had it. -/
structure LaneGroup where
  owner : Option Nat
  dest : Option Nat
  gated : Bool
  wake : Option Nat
  idle : Nat
  deriving DecidableEq, Repr

/-- The transit engine's power state (R269): awake with its idle cycles, gated, or awake from a cycle on. -/
inductive EnginePower where
  | awake (idle : Nat)
  | gated
  | waking (ready : Nat)
  deriving DecidableEq, Repr

/-- One core (R21), as far as it is not its harts, gangs and gallery. -/
structure CoreSt where
  q : Nat
  /-- Island cycles, nominal cycles in units of 2^−16, and the uncore time that the island has reached, in the same units (R138,
  R327, R331). -/
  cyc : Nat
  ncyc : Nat
  time : Nat
  /-- BKTCAP 0xD40, BKTLEAK 0xD41, BKTWT0 to BKTWT3 0xD44 to 0xD47, TIDLE 0xD48 (R330, R269). -/
  csr : SMap 64
  level : Nat
  throt : Nat
  /-- Current target and last completed operating point in MHz (R325, R326). -/
  target : Nat
  cur : Nat
  /-- The point whose voltage the island has (R324). -/
  volt : Nat
  /-- A relock under way, and whether it moves up (R324). -/
  relock : Option Bool
  rstall : Nat
  /-- Instructions that its harts have dispatched. -/
  jobs : Nat
  /-- Instructions at the gate, in the vector queues by their entry, and in flight by their issue; entries of the transit queue,
  and those in flight. -/
  gate : List Job
  /-- `tdrain`s past the gate that wait for a place in the transit queue (R263). -/
  drains : List Job
  vqueue : List Job
  flight : List Job
  transit : List TransitJob
  tflight : List TransitJob
  /-- The vector sequencer's decisions, and the transit engine's, are made in this cycle. -/
  decided : Bool
  tissued : Bool
  /-- By dome slot, the first cycle after the pass that its gang's groups run. -/
  busy : List (Nat × Nat)
  /-- The first cycles in which the transit array, the load port and the accumulator write port are free (R266). -/
  array : Nat
  port : Nat
  wport : Nat
  engine : EnginePower
  groups : List LaneGroup
  /-- Slew ramp state; none: quiet (R332). -/
  slew : Option Nat
  slewEmpty : Nat
  /-- What the core issued in this step: 0 nothing, 1 fillers only, 2 a tmac; and the slots it used. -/
  slewIssued : Nat
  slewSlots : Nat
  /-- Next placement sequence number (R41). -/
  seq : Nat
  spared : Bool
  deriving DecidableEq, Repr

/-- One die. -/
structure DieSt where
  d : Nat
  almanac : List AlmUnit
  /-- The slew limiter: its round-robin pointer, SLEWCFG and SLEWRAMP as the last step boundary found them, and the steps that have
  ended (R331, R332). -/
  slewPtr : Nat
  slewCfg : Word
  slewRamp : Word
  steps : Nat
  deriving DecidableEq, Repr

/-- A translation held by a core's TLB, by its die's, or for the streams of a hart (R282). -/
structure Held where
  /-- The core that has used it, in its TLB and in its die's. -/
  core : Nat
  /-- The hart whose stream has it held ahead; such an entry is in no TLB. -/
  stream : Option Nat
  ctx : Option Nat
  /-- Page of the address: bits 60:16. -/
  page : Nat
  entry : Word
  level : Nat
  deriving DecidableEq, Repr

/-- A line of path 3 as a core has read it for a launch: the moment of the values it returned last (R272). -/
structure ConstLine where
  core : Nat
  launch : Nat
  line : Nat
  moment : Nat
  deriving DecidableEq, Repr

/-- A migration tracking entry (R286). -/
structure Track where
  frame : Nat
  count : Nat
  /-- Side of the open request: true for the host. -/
  request : Option Bool
  /-- A fault on the page has posted a migration record (R286, R402). -/
  noted : Bool
  deriving DecidableEq, Repr

/-- A diagnostic of mdas (R425): the line that it names and the lines that enclose that, whether it is printed as an error, its
code and its check. -/
structure MdasDiag where
  place : List (String × Nat)
  error : Bool
  code : String
  check : String
  deriving DecidableEq, Repr

/-- A line of a listing (R347): its section and offset, its words and its text. -/
structure MdasListed where
  sect : Nat
  offset : Nat
  words : List Nat
  text : String
  deriving DecidableEq, Repr

/-- The result of one run of mdas (R347, R425): exit status, the object file and the listing by their names, and what is printed. -/
structure MdasResult where
  status : Nat
  object : Option (String × List Byte)
  listing : Option (String × List MdasListed)
  diags : List MdasDiag
  deriving DecidableEq, Repr

/-- Answers of the DOE mailbox (R344 to R346). -/
inductive SpdmAnswer where
  | version (versions : List Nat)
  | capabilities
  | algorithms (asym hash : Nat)
  | digests (d : BitVec 512)
  | certificate (chain : List Byte)
  | challengeAuth (digest measurements : BitVec 512) (sig : BitVec 10240)
  | measurements (ms : List (BitVec 512))
  | error (code : Nat)
  deriving DecidableEq, Repr

/-- The module. -/
structure State where
  /-- The hart that moves. -/
  cur : Nat
  harts : List Hart
  gangs : List Gang
  launches : List Launch
  cores : List CoreSt
  dies : List DieSt
  mem : Memory
  /-- Poisoned 32-byte units, each with the place of its hall record until a hart has faulted on it (R403). -/
  poison : List (Nat × Option Nat)
  /-- Old bytes that stores replaced, with their moment: what path 3 may still return (R206). -/
  history : List (Nat × Byte × Nat)
  consts : List ConstLine
  /-- Translations held, the youngest first. -/
  tlb : List Held
  /-- Management registers by path-5 offset (R335): ownership 0x20_0000, contexts 0x21_0000, groups 0x22_0000, PRESAVE
  0x23_0000, vector table 0x25_0000, halls 0x26_0000, DEGST 0x27_0000, SPROOT 0x28_0000, MIGCFG 0x30_0000, slew
  0x40_0000, LQCFG 0x10_0048 + 0x1000 × n. -/
  mgmt : SMap 64
  /-- Claim candidate: master and ballot (R337). -/
  candidate : Option (Nat × Nat)
  /-- Acceptance counter (R144) and placement pointer NEXT (R42). -/
  accepted : Nat
  next : Nat
  engines : List EngineCmd
  engineId : Nat
  /-- Abort tokens of members on this module on their way: group, die, and the command that each is for (R418). -/
  tokens : List (Nat × Nat × Nat)
  tracks : List Track
  /-- Gleip ports that are down, and how often a port has sent a flit again (R340, R419). -/
  portsDown : List Nat
  portRetry : List ((Nat × Nat) × Nat)
  /-- UCIe modules trained (R334). -/
  ucie : Nat
  /-- Writes of PREEMPT, RESUME and KILL that wait for the end of a save, oldest first (R377, R414). -/
  rotQueue : List (RotWrite × Nat)
  /-- SPDM answers sent, newest first, and whether the requester has negotiated algorithms. -/
  doe : List SpdmAnswer
  /-- Firmware images loaded at the last module reset: the rotunda's, the C-dies', the microcode (R346); and those that passed
  their check and run (R343). -/
  images : List Nat
  firmware : List Nat
  mdas : Option MdasResult
  /-- Result of the last host access (R20, R286): bytes read, or none where the access met an error. -/
  hostData : Option (List Byte)
  /-- Power is applied (R80). -/
  power : Bool
  /-- Events that are due, oldest first: the model's own. -/
  inbox : List Instr
  /-- The model's own counter of free values and moments (DESIGN CHOICE, log 2). -/
  tick : Nat
  deriving DecidableEq, Repr

/-- The ways a run of the model stops. -/
inductive Fault where
  /-- Raised by exec, never by step, when an instruction is given to a state that has no hart to run it: safe. -/
  | noHart
  /-- Raised by every event and by step once module power is removed (R80: everything is lost): safe. -/
  | powerOff
  deriving DecidableEq, Repr

/-- The refusals of the model. -/
inductive Refusal where
  /-- An instruction without a meaning in the model; raised by exec's arm alone: safe. -/
  | notModelled (mnemonic : String)
  deriving DecidableEq, Repr

/-- Weights of R329, eight to a word. -/
def resetWeights : SMap 64 :=
  [(0xd40, 0x10000), (0xd41, 0x200), (0xd44, 0x0303010804030402#64), (0xd45, 0x0002020402020506#64),
   (0xd48, 0x100)]

/-- A core after module reset (R11, R138, R269, R325, R330, R332). -/
def CoreSt.reset (q : Nat) : CoreSt :=
  { q, cyc := 0, ncyc := 0, time := 0, csr := resetWeights, level := 0, throt := 0, target := 940, cur := 940, volt := 940,
    relock := none, rstall := 0, jobs := 0, gate := [], drains := [], vqueue := [], flight := [], transit := [], tflight := [], decided := false,
    tissued := false, busy := [], array := 0, port := 0, wport := 0, engine := .awake 0,
    groups := List.replicate 8 ⟨none, none, false, none, 0⟩, slew := none, slewEmpty := 0, slewIssued := 0, slewSlots := 0,
    seq := 0, spared := false }

/-- A core that has done nothing for so many steps of four uncore cycles since module reset: its clock has run at the nominal rate, its
engine and its lane groups have gated in time (R269, R324, R331, R333). -/
def CoreSt.idleFor (q steps : Nat) : CoreSt :=
  let n := 4 * steps
  { CoreSt.reset q with
    cyc := n, ncyc := n * 2 ^ 16, time := n * 2 ^ 16, engine := if 256 ≤ n then .gated else .awake n
    groups := List.replicate 8 ⟨none, none, decide (64 ≤ n), none, 0⟩ }

/-- A die after module reset. -/
def DieSt.reset (d : Nat) : DieSt :=
  { d, almanac := [], slewPtr := 0, slewCfg := 0x1004, slewRamp := 0x9246db492249, steps := 0 }

/-- Management registers with a reset value other than 0: ECFG (R336), HSIZE (R400), MIGCFG (R285), SLEWCFG and
SLEWRAMP (R331). -/
def resetMgmt : SMap 64 :=
  [(0x200018, 0x64)] ++ (List.range 6).map (fun n => (0x260008 + 0x20 * n, 6#64)) ++ [(0x300000, 0x40)] ++
  ((List.range 8).map (fun d => [(0x400000 + 0x1000 * d, 0x1004#64), (0x400008 + 0x1000 * d, 0x9246db492249#64)])).flatten

/-- The module right after module reset (R11): no launch, no hart, memory with nothing listed. -/
def State.reset : State :=
  { cur := 0, harts := [], gangs := [], launches := [], cores := [], dies := [], mem := [], poison := [],
    history := [], consts := [], tlb := [], mgmt := resetMgmt, candidate := none, accepted := 0, next := 0, engines := [],
    engineId := 0, tokens := [], tracks := [], portsDown := [], portRetry := [], rotQueue := [], ucie := 8, doe := [], images := [], firmware := [], mdas := none,
    hostData := none, power := true, inbox := [], tick := 0 }

end Sys2Proof.Machine
end

