-- ==== Sys2Proof/Machine/Flags.lean ====
section
/-! DEFINITION. Number formats, exact arithmetic, rounding and the sticky flags (R81 to R104), the pairwise tree of
R98 and the exponential of the chain. A floating value is computed exactly as ± m × 2^e and rounded once. -/

namespace Sys2Proof.Machine

/-! ### Flags (R102) -/

def fNX : Flags := 1
def fUF : Flags := 2
def fOF : Flags := 4
def fDZ : Flags := 8
def fNV : Flags := 16
def fSAT : Flags := 32

/-- Order in which enabled flags of one element are reported: NV, DZ, OF, UF, NX, SAT (R374). -/
def flagOrder : List Nat := [4, 3, 2, 1, 0, 5]

/-- The FSTAT bit of the first flag raised that FEN enables. -/
def trapFlag (fen f : Flags) : Option Nat := flagOrder.find? (fun b => (fen &&& f).getLsbD b)

/-! ### Types (R64, R81, R82) -/

/-- Width w of a TYPE (R64). -/
def tyWidth (ty : Nat) : Nat :=
  match ty with
  | 0 | 1 | 9 => 8
  | 2 | 3 | 6 | 7 => 16
  | 4 | 5 | 8 => 32
  | _ => 4

/-- Signed integer types. -/
def tySigned (ty : Nat) : Bool := ty = 0 || ty = 2 || ty = 4 || ty = 10

/-- The set INT of R156: s8, n8, s16, n16, s32, n32. -/
def tyInt (ty : Nat) : Bool := decide (ty ≤ 5)

/-- The set FLT of R158: f32, f16, bf16. -/
def tyFlt (ty : Nat) : Bool := ty = 6 || ty = 7 || ty = 8

/-- Floating types (R82). -/
def tyFloat (ty : Nat) : Bool := tyFlt ty || ty = 9

/-- The integer that the bits of an integer element stand for (R81). -/
def intVal (ty b : Nat) : Int := if tySigned ty then sext b (tyWidth ty) else (b % 2 ^ tyWidth ty : Nat)

/-- Lowest value of an integer type. -/
def intMin (ty : Nat) : Int := if tySigned ty then -(2 ^ (tyWidth ty - 1) : Nat) else 0

/-- Highest value of an integer type. -/
def intMax (ty : Nat) : Int := if tySigned ty then (2 ^ (tyWidth ty - 1) : Nat) - 1 else (2 ^ tyWidth ty : Nat) - 1

/-- Clamp(t, x) (R120): the bits, with SAT where x lies outside. -/
def clampInt (ty : Nat) (x : Int) : Nat × Flags :=
  if x < intMin ty then (wrap (tyWidth ty) (intMin ty), fSAT)
  else if intMax ty < x then (wrap (tyWidth ty) (intMax ty), fSAT)
  else (wrap (tyWidth ty) x, 0)

/-- A floating format (R82). -/
structure Fmt where
  w : Nat
  ebits : Nat
  fbits : Nat
  bias : Nat
  /-- It has infinities; h8 has none and saturates. -/
  inf : Bool
  deriving DecidableEq, Repr

def f32 : Fmt := ⟨32, 8, 23, 127, true⟩
def f16 : Fmt := ⟨16, 5, 10, 15, true⟩
def bf16 : Fmt := ⟨16, 8, 7, 127, true⟩
def h8 : Fmt := ⟨8, 4, 3, 7, false⟩

/-- The format of a floating TYPE. -/
def fmtOf (ty : Nat) : Fmt := if ty = 6 then f16 else if ty = 7 then bf16 else if ty = 9 then h8 else f32

/-- An exact value ± m × 2^e; zero keeps its sign. -/
structure Ex where
  neg : Bool
  m : Nat
  e : Int
  deriving DecidableEq, Repr

/-- What the bits of a floating element stand for (R83, R84). -/
inductive FV where
  | nan (signalling : Bool)
  | inf (neg : Bool)
  | fin (x : Ex)
  deriving DecidableEq, Repr

/-- Canon(t) (R85). -/
def Fmt.canon (f : Fmt) : Nat := if f.inf then (2 ^ f.ebits - 1) * 2 ^ f.fbits + 2 ^ (f.fbits - 1) else 0x7f

/-- Bits of an infinity. -/
def Fmt.infBits (f : Fmt) (neg : Bool) : Nat :=
  (if neg then 2 ^ (f.w - 1) else 0) + (2 ^ f.ebits - 1) * 2 ^ f.fbits

/-- Bits of the largest finite value (R82). -/
def Fmt.maxBits (f : Fmt) (neg : Bool) : Nat :=
  (if neg then 2 ^ (f.w - 1) else 0) +
    (if f.inf then (2 ^ f.ebits - 1) * 2 ^ f.fbits - 1 else 0x7e)

/-- The value of an element's bits. -/
def Fmt.decode (f : Fmt) (b : Nat) : FV :=
  let neg := decide (bits b (f.w - 1) (f.w - 1) = 1)
  let ef := bits b (f.w - 2) f.fbits
  let fr := b % 2 ^ f.fbits
  if f.inf && decide (ef = 2 ^ f.ebits - 1) then
    if fr = 0 then .inf neg else .nan (decide (fr < 2 ^ (f.fbits - 1)))
  else if !f.inf && decide (b % 128 = 127) then .nan false
  else if ef = 0 then .fin ⟨neg, fr, 1 - (f.bias : Int) - f.fbits⟩
  else .fin ⟨neg, 2 ^ f.fbits + fr, (ef : Int) - f.bias - f.fbits⟩

/-! ### Exact arithmetic -/

/-- The signed integer of a value at a common exponent below its own. -/
def Ex.at (x : Ex) (e : Int) : Int :=
  let v : Int := (x.m * 2 ^ (x.e - e).toNat : Nat)
  if x.neg then -v else v

/-- Sign of an exact zero sum (R159 step 5): both signs equal keep it; otherwise + except under rdn. -/
def zeroSign (a b : Bool) (mode : Nat) : Bool := if a = b then a else mode = 2

/-- a + b, exact. -/
def Ex.add (a b : Ex) (mode : Nat) : Ex :=
  let e := min a.e b.e
  let v := a.at e + b.at e
  if v = 0 then ⟨if a.m = 0 ∧ b.m = 0 then zeroSign a.neg b.neg mode else mode = 2, 0, e⟩
  else ⟨decide (v < 0), v.natAbs, e⟩

/-- a × b, exact. -/
def Ex.mul (a b : Ex) : Ex := ⟨a.neg != b.neg, a.m * b.m, a.e + b.e⟩

/-- −a. -/
def Ex.negate (a : Ex) : Ex := { a with neg := !a.neg }

/-- a ÷ b for nonzero b: enough bits for one rounding into any format, a last bit standing for what is cut off. -/
def Ex.div (a b : Ex) : Ex :=
  let k := 100 + Nat.log2 b.m
  let n := a.m * 2 ^ k
  let q := n / b.m
  ⟨a.neg != b.neg, if n % b.m = 0 then 4 * q else 4 * q + 1, a.e - b.e - k - 2⟩

/-- The integer square root of n, bit by bit from bit k − 1 down, above the part r found so far. -/
def rootFrom (n : Nat) : Nat → Nat → Nat
  | 0, r => r
  | k + 1, r => rootFrom n k (if (r + 2 ^ k) * (r + 2 ^ k) ≤ n then r + 2 ^ k else r)

/-- √a for a ≥ 0, in the same way. -/
def Ex.sqrt (a : Ex) : Ex :=
  let k : Nat := 100 + (a.e % 2).toNat
  let n := a.m * 2 ^ (k + 100)
  let e : Int := a.e - (k + 100)
  let q := rootFrom n (Nat.log2 n / 2 + 1) 0
  ⟨a.neg, if q * q = n then 4 * q else 4 * q + 1, e / 2 - 2⟩

/-- a < b as real numbers. -/
def Ex.lt (a b : Ex) : Bool :=
  let e := min a.e b.e
  decide (a.at e < b.at e)

/-- a = b as real numbers. -/
def Ex.eq (a b : Ex) : Bool :=
  let e := min a.e b.e
  decide (a.at e = b.at e)

/-! ### Rounding (R87 to R93) -/

/-- The magnitude lo or lo + 1 that a mode chooses for a value lo + rem ÷ 2^sh (R90): 0 rne (and 5 ef), 1 rtz, 2 rdn,
3 rup, 4 rod. -/
def roundMag (mode : Nat) (neg : Bool) (lo rem sh : Nat) : Nat :=
  if rem = 0 then lo
  else
    match mode with
    | 1 => lo
    | 2 => if neg then lo + 1 else lo
    | 3 => if neg then lo else lo + 1
    | 4 => if lo % 2 = 1 then lo else lo + 1
    | _ => if 2 ^ sh < 2 * rem then lo + 1 else if 2 * rem < 2 ^ sh then lo else lo + lo % 2

/-- m × 2^e at the quantum 2^q: the integer part and the part cut off, with the number of bits cut. -/
def cut (m : Nat) (e q : Int) : Nat × Nat × Nat :=
  if q ≤ e then (m * 2 ^ (e - q).toNat, 0, 0)
  else
    let sh := (q - e).toNat
    (m / 2 ^ sh, m % 2 ^ sh, sh)

/-- Bits of a magnitude k × 2^q that lies in the finite range. -/
def Fmt.encode (f : Fmt) (neg : Bool) (k : Nat) (q : Int) : Nat :=
  (if neg then 2 ^ (f.w - 1) else 0) +
    (if k < 2 ^ f.fbits then k
     else (q + f.fbits + f.bias).toNat * 2 ^ f.fbits + (k - 2 ^ f.fbits))

/-- Round(fmt, x, mode) for a floating format (R90 to R92): the bits and the flags raised. -/
def Fmt.round (f : Fmt) (mode : Nat) (x : Ex) : Nat × Flags :=
  if x.m = 0 then (if x.neg then 2 ^ (f.w - 1) else 0, 0)
  else
    let emin : Int := 1 - (f.bias : Int) - f.fbits
    let top : Int := x.e + Nat.log2 x.m - f.fbits
    let q := max emin top
    let c := cut x.m x.e q
    let k := roundMag mode x.neg c.1 c.2.1 c.2.2
    let inexact := decide (c.2.1 ≠ 0)
    -- a carry out of the significand moves the quantum up
    let k' := if k = 2 ^ (f.fbits + 1) then 2 ^ f.fbits else k
    let q' := if k = 2 ^ (f.fbits + 1) then q + 1 else q
    let ef : Int := q' + f.fbits + f.bias
    let ovf := decide (2 ^ f.fbits ≤ k') &&
      (if f.inf then decide ((2 ^ f.ebits - 1 : Nat) ≤ ef)
       else decide (15 < ef) || (decide (ef = 15) && decide (k' = 15)))
    if ovf then
      if !f.inf then (f.maxBits x.neg, fOF ||| fNX)
      else
        let toInf := match mode with
          | 1 | 4 => false
          | 2 => x.neg
          | 3 => !x.neg
          | _ => true
        (if toInf then f.infBits x.neg else f.maxBits x.neg, fOF ||| fNX)
    else
      let c2 := cut x.m x.e top
      let k2 := roundMag mode x.neg c2.1 c2.2.1 c2.2.2
      let tiny := decide (top < emin) && !(decide (k2 = 2 ^ (f.fbits + 1)) && decide (top + 1 = emin))
      (f.encode x.neg k' q', (if inexact then fNX else 0) ||| (if inexact && tiny then fUF else 0))

/-- An exact value rounded to an integer (R90). -/
def Ex.toInt (x : Ex) (mode : Nat) : Int :=
  let c := cut x.m x.e 0
  let k : Int := roundMag mode x.neg c.1 c.2.1 c.2.2
  if x.neg then -k else k

/-- A floating value converted to an integer type (R93). -/
def FV.toIntType (v : FV) (ty mode : Nat) : Nat × Flags :=
  match v with
  | .nan _ => (0, fNV)
  | .inf neg => (wrap (tyWidth ty) (if neg then intMin ty else intMax ty), fNV ||| fSAT)
  | .fin x =>
    let c := clampInt ty (x.toInt mode)
    (c.1, if c.2 = 0 then 0 else fNV ||| fSAT)

/-- An infinity in a format (R92). -/
def Fmt.inf? (f : Fmt) (neg : Bool) : Nat × Flags :=
  if f.inf then (f.infBits neg, 0) else (f.maxBits neg, fOF ||| fNX)

/-- A floating value converted to a floating format (R85, R91, R92, R167). -/
def FV.convert (v : FV) (f : Fmt) (mode : Nat) : Nat × Flags :=
  match v with
  | .nan sig => (f.canon, if sig then fNV else 0)
  | .inf neg => f.inf? neg
  | .fin x => f.round mode x

/-- An integer as an exact value. -/
def Ex.ofInt (x : Int) : Ex := ⟨decide (x < 0), x.natAbs, 0⟩

/-! ### Floating operations on elements (R159) -/

/-- A signalling NaN sets NV. -/
def FV.sig : FV → Flags
  | .nan true => fNV
  | _ => 0

/-- It is a NaN. -/
def FV.isNaN : FV → Bool
  | .nan _ => true
  | _ => false

/-- Sign of a value that is no NaN. -/
def FV.neg : FV → Bool
  | .nan _ => false
  | .inf n => n
  | .fin x => x.neg

/-- −v. -/
def FV.negate : FV → FV
  | .nan s => .nan s
  | .inf n => .inf (!n)
  | .fin x => .fin x.negate

/-- a + b rounded into a format. -/
def fAdd (f : Fmt) (mode : Nat) (a b : FV) : Nat × Flags :=
  match a, b with
  | .inf x, .inf y => if x = y then ((f.inf? x).1, 0) else (f.canon, fNV)
  | .fin x, .fin y => f.round mode (x.add y mode)
  | .inf x, .fin _ => ((f.inf? x).1, 0)
  | .fin _, .inf y => ((f.inf? y).1, 0)
  | _, _ => (f.canon, a.sig ||| b.sig)

/-- The exact product of two values, or the invalid product 0 × ∞. -/
inductive Prod where
  | nan (sig : Bool)
  | invalid
  | inf (neg : Bool)
  | fin (x : Ex)
  deriving DecidableEq, Repr

/-- a × b. -/
def fProd (a b : FV) : Prod :=
  match a, b with
  | .nan s, v => .nan (s || v.sig != 0)
  | v, .nan s => .nan (s || v.sig != 0)
  | .inf x, .inf y => .inf (x != y)
  | .inf x, .fin y => if y.m = 0 then .invalid else .inf (x != y.neg)
  | .fin x, .inf y => if x.m = 0 then .invalid else .inf (x.neg != y)
  | .fin x, .fin y => .fin (x.mul y)

/-- a × b rounded. -/
def fMul (f : Fmt) (mode : Nat) (a b : FV) : Nat × Flags :=
  match fProd a b with
  | .nan s => (f.canon, if s then fNV else 0)
  | .invalid => (f.canon, fNV)
  | .inf n => ((f.inf? n).1, 0)
  | .fin x => f.round mode x

/-- p + d rounded, p an exact product (R159: 0 × ∞ sets NV even beside a quiet NaN). -/
def fProdAdd (f : Fmt) (mode : Nat) (p : Prod) (d : FV) : Nat × Flags :=
  match p, d with
  | .invalid, _ => (f.canon, fNV)
  | .nan s, d => (f.canon, (if s then fNV else 0) ||| d.sig)
  | _, .nan s => (f.canon, if s then fNV else 0)
  | .inf n, .inf m => if n = m then ((f.inf? n).1, 0) else (f.canon, fNV)
  | .inf n, .fin _ => ((f.inf? n).1, 0)
  | .fin _, .inf m => ((f.inf? m).1, 0)
  | .fin x, .fin y => f.round mode (x.add y mode)

/-- −p. -/
def Prod.negate : Prod → Prod
  | .inf n => .inf (!n)
  | .fin x => .fin x.negate
  | p => p

/-- a ÷ b rounded (R102, R159). -/
def fDiv (f : Fmt) (mode : Nat) (a b : FV) : Nat × Flags :=
  match a, b with
  | .nan _, _ => (f.canon, a.sig ||| b.sig)
  | _, .nan _ => (f.canon, a.sig ||| b.sig)
  | .inf _, .inf _ => (f.canon, fNV)
  | .inf x, .fin y => (f.infBits (x != y.neg), 0)
  | .fin x, .inf y => (if x.neg != y then 2 ^ (f.w - 1) else 0, 0)
  | .fin x, .fin y =>
    if y.m = 0 then
      if x.m = 0 then (f.canon, fNV) else (f.infBits (x.neg != y.neg), fDZ)
    else f.round mode (x.div y)

/-- √a rounded (R159). -/
def fSqrt (f : Fmt) (mode : Nat) (a : FV) : Nat × Flags :=
  match a with
  | .nan _ => (f.canon, a.sig)
  | .inf n => if n then (f.canon, fNV) else (f.infBits false, 0)
  | .fin x => if x.m = 0 then (if x.neg then 2 ^ (f.w - 1) else 0, 0)
    else if x.neg then (f.canon, fNV) else f.round mode x.sqrt

/-- One, for the reciprocal. -/
def fOne : FV := .fin ⟨false, 1, 0⟩

/-- a < b for values that are no NaN. -/
def FV.lt (a b : FV) : Bool :=
  match a, b with
  | .inf n, .inf m => n && !m
  | .inf n, .fin _ => n
  | .fin _, .inf m => !m
  | .fin x, .fin y => x.lt y
  | _, _ => false

/-- a = b, with −0 = +0, for values that are no NaN. -/
def FV.eq (a b : FV) : Bool :=
  match a, b with
  | .inf n, .inf m => n = m
  | .fin x, .fin y => x.eq y
  | _, _ => false

/-- minimumNumber or maximumNumber of two elements' bits (R162, R231). -/
def fMinMax (f : Fmt) (isMax : Bool) (x y : Nat) : Nat × Flags :=
  let a := f.decode x
  let b := f.decode y
  let fl := a.sig ||| b.sig
  match a.isNaN, b.isNaN with
  | true, true => (f.canon, fl)
  | true, false => (y, fl)
  | false, true => (x, fl)
  | false, false =>
    let less := a.lt b || (a.eq b && a.neg && !b.neg)
    (if less != isMax then x else y, fl)

/-! ### The pairwise tree (R98) -/

/-- Smallest power of two at least n, by doubling. -/
def pow2Ge (n : Nat) : Nat := if n ≤ 1 then 1 else 2 ^ (Nat.log2 (n - 1) + 1)

/-- One level of the tree. -/
def treeLevel {α : Type} (op : α → α → α) : List (Option α) → List (Option α)
  | some a :: some b :: r => some (op a b) :: treeLevel op r
  | some a :: none :: r => some a :: treeLevel op r
  | none :: b :: r => b :: treeLevel op r
  | [a] => [a]
  | [] => []

/-- Levels until one node is left. -/
def treeFuel {α : Type} (op : α → α → α) : Nat → List (Option α) → Option α
  | 0, l => l.head?.join
  | n + 1, l =>
    match l with
    | [] => none
    | [a] => a
    | l => treeFuel op n (treeLevel op l)

/-- The result of the tree over leaves, absent ones being none: pairing by index leaves an unpaired last node to
itself, as the absent leaves n to m − 1 of R98 do. -/
def tree {α : Type} (op : α → α → α) (leaves : List (Option α)) : Option α :=
  treeFuel op (leaves.length + 1) leaves

/-- A reduction's operator at an accumulation type, with the flags it raises (R170): 0 add, 1 max, 2 min, 3 and,
4 or, 5 xor. -/
def redOp (ty op mode : Nat) (a b : Nat × Flags) : Nat × Flags :=
  let fl := a.2 ||| b.2
  if tyFloat ty then
    let f := fmtOf ty
    match op with
    | 0 => let r := fAdd f mode (f.decode a.1) (f.decode b.1); (r.1, fl ||| r.2)
    | 1 => let r := fMinMax f true a.1 b.1; (r.1, fl ||| r.2)
    | _ => let r := fMinMax f false a.1 b.1; (r.1, fl ||| r.2)
  else
    match op with
    | 0 => ((a.1 + b.1) % 2 ^ tyWidth ty, fl)
    | 1 => (if intVal ty a.1 < intVal ty b.1 then b.1 else a.1, fl)
    | 2 => (if intVal ty b.1 < intVal ty a.1 then b.1 else a.1, fl)
    | 3 => (a.1 &&& b.1, fl)
    | 4 => (a.1 ||| b.1, fl)
    | _ => (a.1 ^^^ b.1, fl)

/-- The identity of an operator (R98). -/
def redId (ty op : Nat) : Nat :=
  if tyFloat ty then
    match op with
    | 0 => 0
    | 1 => (fmtOf ty).infBits true
    | _ => (fmtOf ty).infBits false
  else
    match op with
    | 1 => wrap (tyWidth ty) (intMin ty)
    | 2 => wrap (tyWidth ty) (intMax ty)
    | 3 => 2 ^ tyWidth ty - 1
    | _ => 0

/-- A reduction of leaves already at the accumulation type, with the flags of the tree. -/
def reduce (ty op mode : Nat) (leaves : List (Option (Nat × Flags))) : Nat × Flags :=
  match tree (redOp ty op mode) leaves with
  | some r => r
  | none => (redId ty op, 0)

/-! ### Atomics (R229 to R232) -/

/-- The new value of a location of w bits that holds m, none where nothing is written, and the flags. -/
def AtomOp.apply (op : AtomOp) (w m b : Nat) : Option Nat × Flags :=
  let some' (r : Nat × Flags) : Option Nat × Flags := (some r.1, r.2)
  match op with
  | .ld => (none, 0)
  | .swp => (some b, 0)
  | .add => (some ((m + b) % 2 ^ w), 0)
  | .and => (some (m &&& b), 0)
  | .or => (some (m ||| b), 0)
  | .xor => (some (m ^^^ b), 0)
  | .min => (some (if sext m w ≤ sext b w then m else b), 0)
  | .max => (some (if sext m w ≤ sext b w then b else m), 0)
  | .minn => (some (Nat.min m b), 0)
  | .maxn => (some (Nat.max m b), 0)
  | .cas old => (if m = old then some b else none, 0)
  | .fadd => some' (fAdd f32 0 (f32.decode m) (f32.decode b))
  | .fmin => some' (fMinMax f32 false m b)
  | .fmax => some' (fMinMax f32 true m b)
  | .nib hi => (some (if hi then m % 16 + 16 * b else m / 16 * 16 + b), 0)
  | .red ty o => some' (redOp ty o 0 (m, 0) (b, 0))

/-! ### The exponential (R178, R179) -/

/-- Fixed-point precision of the exponential in bits. -/
def expBits : Nat := 600

/-- Sum of t^n ÷ n! from the n-th term on, in fixed point. -/
def expSum (t : Int) : Nat → Nat → Int → Int
  | 0, _, _ => 0
  | fuel + 1, n, term => term + expSum t fuel (n + 1) (term * t / (2 ^ expBits : Nat) / (n + 1))

/-- A fixed-point square, n times. -/
def sqTimes : Nat → Nat → Nat
  | 0, v => v
  | n + 1, v => sqTimes n (v * v / 2 ^ expBits)

/-- exp of an exact value as a value that lies on the same side of every number a format could round it to: outside
±256 only its size matters; inside, a Taylor sum over x ÷ 2^10 and ten squarings give more than 500 bits, and a last
bit stands for the rest (exp of a nonzero dyadic number is never a dyadic number). -/
def Ex.exp (x : Ex) : Ex :=
  if x.m = 0 then ⟨false, 1, 0⟩
  else if (256 : Int) ≤ (x.toInt 1).natAbs then if x.neg then ⟨false, 1, -1000⟩ else ⟨false, 1, 1000⟩
  else
    let t := x.at (min x.e (-(expBits : Int)))
    let t := t / (2 ^ ((-(expBits : Int)) - min x.e (-(expBits : Int))).toNat : Nat) / 1024
    let v := (expSum t 120 0 (2 ^ expBits : Nat)).toNat
    ⟨false, 4 * sqTimes 10 v + 1, -(expBits : Int) - 2⟩

/-- Round(f32, exp(τ × (a − b)), rne) with the infinities of R178 and R179; NaNs are the caller's. -/
def expDiff (tau : Ex) (a b : FV) : Nat × Flags :=
  match a, b with
  | .inf x, .inf y => if x = y then (f32.canon, fNV) else if x then (0, 0) else (f32.infBits false, 0)
  | .inf x, _ => if x then (0, 0) else (f32.infBits false, 0)
  | _, .inf y => if y then (f32.infBits false, 0) else (0, 0)
  | .fin x, .fin y => f32.round 0 (tau.mul (x.add y.negate 0)).exp
  | _, _ => (f32.canon, a.sig ||| b.sig)

end Sys2Proof.Machine
end

