-- ==== Sys2Proof/Machine/Ops.lean ====
section
/-! DEFINITION. The named operations over maps, memory and registers, the commit of an instruction, taking an
exception and returning from one, and the retirement of a hart. -/

namespace Sys2Proof.Machine

/-! ### Sparse maps -/

/-- The value at a key; 0 where it is not listed. -/
def SMap.get {w : Nat} : SMap w → Nat → BitVec w
  | [], _ => 0
  | (a, v) :: m, k => if a = k then v else SMap.get m k

/-- A key put at its place. -/
def SMap.insert {w : Nat} (k : Nat) (v : BitVec w) : SMap w → SMap w
  | [] => [(k, v)]
  | (a, u) :: m => if a < k then (a, u) :: SMap.insert k v m else (k, v) :: (a, u) :: m

/-- A key taken out. -/
def SMap.erase {w : Nat} (k : Nat) : SMap w → SMap w
  | [] => []
  | (a, u) :: m => if a = k then SMap.erase k m else (a, u) :: SMap.erase k m

/-- A key given a value; the value 0 is not listed. -/
def SMap.set {w : Nat} (m : SMap w) (k : Nat) (v : BitVec w) : SMap w :=
  if v = 0 then m.erase k else (m.erase k).insert k v

/-- Every listed key is above `lo`, the keys rise, and no value is 0. -/
def SMap.above {w : Nat} : Nat → SMap w → Bool
  | _, [] => true
  | lo, (a, v) :: m => decide (lo ≤ a) && decide (v ≠ 0) && SMap.above (a + 1) m

/-- The canonical form. -/
def SMap.wf {w : Nat} (m : SMap w) : Bool := SMap.above 0 m

/-- The canonical form of memory. -/
def Memory.wf (m : Memory) : Bool := SMap.wf (w := 8) m

/-- Consecutive values put from a key on. -/
def SMap.setAll {w : Nat} (m : SMap w) (k : Nat) : List (BitVec w) → SMap w
  | [] => m
  | v :: vs => SMap.setAll (m.set k v) (k + 1) vs

/-- Lookup in a list of pairs. -/
def find {κ α : Type} [BEq κ] (l : List (κ × α)) (n : κ) : Option α := (l.find? (fun p => p.1 == n)).map (·.2)

/-- A pair put in place of the one of its key. -/
def put {κ α : Type} [BEq κ] (l : List (κ × α)) (n : κ) (v : Option α) : List (κ × α) :=
  let r := l.filter (fun p => p.1 != n)
  match v with
  | some v => r ++ [(n, v)]
  | none => r

/-- An item put before the first item that it need not follow. -/
def insertBy {α : Type} (le : α → α → Bool) (a : α) : List α → List α
  | [] => [a]
  | b :: l => if le a b then a :: b :: l else b :: insertBy le a l

/-! ### Addresses and fields -/

/-- The path of an address, bits 63:61 (R204). -/
def pathOf (va : Word) : Nat := va.toNat / 2 ^ 61

/-- A value with one field of n bits at bit l replaced. -/
def setField (v : Word) (l n : Nat) (x : Nat) : Word :=
  BitVec.ofNat 64 (v.toNat - bits v.toNat (l + n - 1) l * 2 ^ l + x % 2 ^ n * 2 ^ l)

/-! ### Harts, gangs, launches, cores, dies -/

/-- A hart with every register 0. -/
def Hart.blank : Hart :=
  { hid := 0, slot := 0, idx := 0, pc := 0, priv := .u, run := .running, x := [], ap := [], k := [], km := 0, vl := 0,
    rc := 0, swi := 0, csr := [], efc := [], tefcS := [], tefcM := [], cl := [], stair := ⟨0, [], [], 0, false⟩, share := 0,
    bh := 0, origin := 0, plane := [], plates := [], streams := [], windows := [], wver := [], pending := [], late := [], landed := [], landedFlags := 0,
    engineFaults := [], rptCode := 0, fetched := [], unit := none, drain := [] }

/-- The hart of a number. -/
def State.hartAt (s : State) (hid : Nat) : Option Hart := s.harts.find? (fun h => h.hid == hid)

/-- The hart that moves. -/
def State.hart? (s : State) : Option Hart := s.hartAt s.cur

/-- Core q = 8 × core + die of a hart (R42): bits 8:0 of its number. -/
def Hart.q (h : Hart) : Nat := h.hid % 512

/-- C-die of a hart. -/
def Hart.die (h : Hart) : Nat := h.hid % 8

/-- `WHERE` (R137). -/
def Hart.whereNat (h : Hart) : Nat := h.slot * 2048 + h.hid

/-- The hart of one number changed. -/
def State.updHartAt (s : State) (hid : Nat) (f : Hart → Hart) : State :=
  { s with harts := s.harts.map (fun g => if g.hid == hid then f g else g) }

/-- The current hart changed. -/
def State.updHart (s : State) (f : Hart → Hart) : State := s.updHartAt s.cur f

/-- The current hart's new registers: what its memory accesses meanwhile did to its outstanding stores and atomics and its engine
commands did to their fault list stays. -/
def State.setHart (s : State) (h : Hart) : State :=
  s.updHart (fun g => { h with pending := g.pending, landed := g.landed, landedFlags := g.landedFlags, engineFaults := g.engineFaults })

/-- The gang in a dome slot of a core. -/
def State.gangAt (s : State) (q slot : Nat) : Option Gang :=
  s.gangs.find? (fun g => g.core == q && g.slot == slot)

/-- A hart's gang. -/
def State.gangOf (s : State) (h : Hart) : Option Gang := s.gangAt h.q h.slot

/-- The gang of a slot replaced. -/
def State.setGang (s : State) (g : Gang) : State :=
  { s with gangs := s.gangs.map (fun f => if f.core == g.core && f.slot == g.slot then g else f) }

/-- The launch of an acceptance number. -/
def State.launchAt (s : State) (acc : Nat) : Option Launch := s.launches.find? (fun l => l.acc == acc)

/-- The launch of an acceptance number changed. -/
def State.updLaunch (s : State) (acc : Nat) (f : Launch → Launch) : State :=
  { s with launches := s.launches.map (fun l => if l.acc == acc then f l else l) }

/-- A hart's launch. -/
def State.launchOf (s : State) (h : Hart) : Option Launch := (s.gangOf h).bind (fun g => s.launchAt g.launch)

/-- A die. -/
def State.dieAt (s : State) (d : Nat) : DieSt :=
  match s.dies.find? (fun c => c.d == d) with
  | some c => c
  | none => DieSt.reset d

/-- A core; one that nothing has touched has been idle since module reset. -/
def State.coreAt (s : State) (q : Nat) : CoreSt :=
  match s.cores.find? (fun c => c.q == q) with
  | some c => c
  | none => CoreSt.idleFor q (s.dieAt (q % 8)).steps

/-- A core replaced. -/
def State.setCore (s : State) (c : CoreSt) : State :=
  { s with cores := c :: s.cores.filter (fun b => b.q != c.q) }

/-- A core changed. -/
def State.updCore (s : State) (q : Nat) (f : CoreSt → CoreSt) : State := s.setCore (f (s.coreAt q))

/-- A die replaced. -/
def State.setDie (s : State) (c : DieSt) : State :=
  { s with dies := c :: s.dies.filter (fun b => b.d != c.d) }

/-- The harts of a gang, in hart-index order of their list. -/
def State.hartsOf (s : State) (g : Gang) : List Hart :=
  s.harts.filter (fun h => h.q == g.core && h.slot == g.slot)

/-- Events made due. -/
def State.post (s : State) (es : List Instr) : State := { s with inbox := s.inbox ++ es }

/-! ### Registers of a hart -/

/-- X(n): x0 reads 0 (R120). -/
def Hart.getX (h : Hart) (n : XReg) : Word := if n = 0 then 0 else h.x.get n.toNat

/-- X(n) := v: x0 discards it (R120). -/
def Hart.setX (h : Hart) (n : XReg) (v : Word) : Hart := if n = 0 then h else { h with x := h.x.set n.toNat v }

/-- A register that CSR instructions hold raw. -/
def Hart.getCsr (h : Hart) (n : Nat) : Word := h.csr.get n

/-- Its value replaced. -/
def Hart.setCsr (h : Hart) (n : Nat) (v : Word) : Hart := { h with csr := h.csr.set n v }

/-- A mask register: k0 reads all ones (R115). -/
def Hart.getK (h : Hart) (n : Nat) : BitVec 1024 := if n = 0 then BitVec.allOnes 1024 else h.k.get n

/-- A mask register written: a write to k0 has no effect (R147). -/
def Hart.setK (h : Hart) (n : Nat) (v : BitVec 1024) : Hart := if n = 0 then h else { h with k := h.k.set n v }

/-- Flags set in FSTAT (R102): they only accumulate. -/
def Hart.orFlags (h : Hart) (f : Flags) : Hart :=
  h.setCsr 0xc03 (h.getCsr 0xc03 ||| f.setWidth 64)

/-- FEN (R103). -/
def Hart.fen (h : Hart) : Flags := (h.getCsr 0xc04).setWidth 6

/-- The rounding mode captured from FRM or XRM (R88). -/
def Hart.mode (h : Hart) (csr : Nat) : Nat := (h.getCsr csr).toNat % 8

/-! ### Memory at its home -/

/-- The bytes of n consecutive locations. -/
def peek (m : Memory) (loc n : Nat) : List Byte := (List.range n).map (fun i => SMap.get (w := 8) m (loc + i))

/-- Entry at a level of a page table, as a number. -/
def peekNat (m : Memory) (loc n : Nat) : Nat := leNat (peek m loc n)

/-- A list of byte positions is inside another. -/
def overlaps (a n b m : Nat) : Bool := decide (a < b + m) && decide (b < a + n)

/-- Poison that a store of n bytes leaves: it clears the units it covers whole (R403). -/
def clearPoison (ps : List (Nat × Option Nat)) (loc n : Nat) : List (Nat × Option Nat) :=
  if ps.isEmpty then ps else ps.filter (fun u => !(decide (loc ≤ 32 * u.1) && decide (32 * u.1 + 32 ≤ loc + n)))

/-- A read of n bytes meets a poisoned unit (R403). -/
def poisoned (ps : List (Nat × Option Nat)) (loc n : Nat) : Bool := ps.any (fun u => overlaps loc n (32 * u.1) 32)

/-- Bytes a store replaces by other values, kept for path 3 (R206). -/
def replaced (m : Memory) (tick : Nat) : Nat → List Byte → List (Nat × Byte × Nat)
  | _, [] => []
  | a, b :: bs =>
    let o := SMap.get (w := 8) m a
    if o = b then replaced m tick (a + 1) bs else (a, o, tick) :: replaced m tick (a + 1) bs

/-- A store performed at its home (R239, R303). -/
def State.pokeRaw (s : State) (loc : Nat) (bs : List Byte) : State :=
  { s with
    mem := SMap.setAll (w := 8) s.mem loc bs
    poison := clearPoison s.poison loc bs.length
    history := if s.launches.isEmpty then [] else replaced s.mem s.tick loc bs ++ s.history }

/-- n locations set to zero, and what poison lies in them gone. -/
def State.zeroRange (s : State) (loc n : Nat) : State :=
  { s with mem := s.mem.filter (fun c => !(decide (loc ≤ c.1) && decide (c.1 < loc + n))), poison := clearPoison s.poison loc n }

/-! ### Page tables (R275, R279 to R281) -/

/-- A physical address lies in a region of R275. -/
def inRegion (pa : Nat) : Bool :=
  decide (pa < 0xc000000000) || (decide (0x100000000000 ≤ pa) && decide (pa < 0x180000000000)) ||
  (decide (0x800000000000 ≤ pa) && decide (pa < 0x1000000000000))

/-- Second-tier memory (R275); every port's device presents its whole 1,024 GB (DESIGN CHOICE, log 79). -/
def isTier2 (pa : Nat) : Bool := decide (0x100000000000 ≤ pa) && decide (pa < 0x180000000000)

/-- Exclusive or of the fields of `w` bits at bits lo, lo + w, …, n of them. -/
def xorFields (v w : Nat) : Nat → Nat → Nat
  | _, 0 => 0
  | lo, n + 1 => bits v (lo + w - 1) lo ^^^ xorFields v w (lo + w) n

/-- Home die of a line (R275, R276). -/
def homeDie (pa : Nat) : Nat :=
  if isTier2 pa then (pa - 0x100000000000) / 2 ^ 40 else xorFields (pa / 2 ^ 16) 3 0 8

/-- Home slice of a line (R276). -/
def homeSlice (pa : Nat) : Nat := xorFields pa 6 7 6

/-- A field of a page-table entry (R280). -/
def pteBit (e n : Nat) : Bool := decide (e / 2 ^ n % 2 = 1)

/-- FRAME × 2^16. -/
def pteFrame (e : Nat) : Nat := bits e 47 16 * 2 ^ 16

/-- A valid entry at a level is malformed (R281). -/
def pteMalformed (level e : Nat) : Bool :=
  if pteBit e 62 then
    decide (level ≤ 1) || (pteBit e 61 && pteBit e 59 && pteBit e 58) ||
    (pteBit e 51 && decide (bits e 50 48 ≠ homeDie (pteFrame e))) ||
    (pteBit e 54 != isTier2 (pteFrame e)) || decide (bits e 53 52 = 3) || !inRegion (pteFrame e) ||
    decide (bits e 3 0 ≠ 0) || decide (bits e 15 8 ≠ 0) ||
    (decide (level = 3) && decide (bits e 20 16 ≠ 0)) || (decide (level = 2) && decide (bits e 29 16 ≠ 0))
  else
    decide (level = 4) || decide (bits e 60 58 ≠ 0) || decide (bits e 55 51 ≠ 0) ||
    !inRegion (pteFrame e + bits e 15 8 * 2 ^ 8)

/-- What a walk finds: a leaf with its place and level, an entry with V = 0, or a malformed entry. -/
inductive Walk where
  | leaf (entry loc level : Nat)
  | invalid (entry level : Nat)
  | malformed
  deriving DecidableEq, Repr

/-- Lowest address bit and width of the index at each level (R279). -/
def walkLevels : List (Nat × Nat) := [(48, 13), (39, 9), (30, 9), (21, 9), (16, 5)]

/-- The walk from a level on. -/
def walkFrom (m : Memory) (va : Nat) : Nat → Nat → List (Nat × Nat) → Walk
  | _, _, [] => .malformed
  | level, table, (lo, w) :: rest =>
    let loc := table + 8 * bits va (lo + w - 1) lo
    let e := peekNat m loc 8
    if !pteBit e 63 then .invalid e level
    else if pteMalformed level e then .malformed
    else if pteBit e 62 then .leaf e loc level
    else walkFrom m va (level + 1) (pteFrame e + bits e 15 8 * 2 ^ 8) rest

/-- The walk of bits 60:16 of an address from a level-0 table (R279). A ROOT outside every region of R275 makes no entry malformed: the
level-0 entries there are read as memory (DESIGN CHOICE, log 71). -/
def walk (m : Memory) (root va : Nat) : Walk := walkFrom m va 0 root walkLevels

/-- Address bits that a leaf at a level leaves to the offset (R279). -/
def pageBits (level : Nat) : Nat := if level = 2 then 30 else if level = 3 then 21 else 16

/-- The physical address of a virtual address under a leaf. -/
def leafAddr (e level va : Nat) : Nat :=
  pteFrame e / 2 ^ pageBits level * 2 ^ pageBits level + va % 2 ^ pageBits level

/-- The root of the level-0 table for a path (R277). -/
def Hart.root (h : Hart) (path : Nat) : Nat :=
  bits (h.getCsr (if path = 7 then 0xd11 else 0xd10)).toNat 47 16 * 2 ^ 16

/-- CTX of PGROOT (R277). -/
def Hart.ctx (h : Hart) : Nat := (h.getCsr 0xd10).toNat / 2 ^ 48

/-- ROOT of a context's entry as an address (R339). -/
def State.ctxRoot (s : State) (ctx : Nat) : Nat := bits (s.mgmt.get (0x210000 + 8 * ctx)).toNat 47 16 * 2 ^ 16

/-- Translation of a context's address without any effect: what the rotunda reads through (R32, R38). -/
def State.ctxWalk (s : State) (ctx va : Nat) : Walk := walk s.mem (s.ctxRoot ctx) (va % 2 ^ 61)

/-! ### Launch messages (R31) -/

/-- A field of a launch message. -/
def Launch.field (l : Launch) (h lo : Nat) : Nat := bits l.msg.toNat h lo

def Launch.entry (l : Launch) : Nat := l.field 63 0
def Launch.arg (l : Launch) : Nat := l.field 127 64
def Launch.waddr (l : Launch) : Nat := l.field 191 128
def Launch.wval (l : Launch) : Nat := l.field 255 192
def Launch.crec (l : Launch) : Nat := l.field 319 256
def Launch.gangs (l : Launch) : Nat := l.field 343 320
def Launch.hpg (l : Launch) : Nat := l.field 353 352
def Launch.prio (l : Launch) : Nat := l.field 356 354
def Launch.cosched (l : Launch) : Bool := decide (l.field 357 357 = 1)
def Launch.waiten (l : Launch) : Bool := decide (l.field 358 358 = 1)
def Launch.tiles (l : Launch) : Nat := l.field 363 360
def Launch.band (l : Launch) : Nat := l.field 368 364
def Launch.gal (l : Launch) : Nat := l.field 393 384
def Launch.stair (l : Launch) : Nat := l.field 406 400
def Launch.tag (l : Launch) : Nat := l.field 447 416

/-- The launch holds an entry of its queue: its last gang is not placed yet, and it has not ended (R37). -/
def Launch.takesEntry (l : Launch) : Bool := l.st != .complete && !l.killed && !l.failed && decide (l.placed < l.gangs)

/-- The location of a launch's wait counter. -/
def State.waitLoc (s : State) (l : Launch) : Option Nat :=
  match s.ctxWalk l.ctx l.waddr with
  | .leaf e _ level => some (leafAddr e level (l.waddr % 2 ^ 61))
  | _ => none

/-- A store performed at its home, after which the rotunda reads every wait counter it touched again (R38). -/
def State.poke (s : State) (loc : Nat) (bs : List Byte) : State :=
  let s' := s.pokeRaw loc bs
  let ws := s.launches.filter (fun l => l.st == .waiting &&
    match s.waitLoc l with
    | some a => overlaps loc bs.length a 8
    | none => false)
  s'.post (ws.map (fun l => .waitCounterRead l.acc))

/-! ### Stores that are not yet performed (R290, R293) -/

/-- How many of a hart's stores may be outstanding in the model before the oldest is performed (DESIGN CHOICE, log 2). -/
def pendingLimit : Nat := 32

/-- The first `c` stores that satisfy `p` marked. -/
def choose (p : Pending → Bool) : Nat → List Pending → List (Pending × Bool)
  | _, [] => []
  | c, x :: l => if p x && decide (0 < c) then (x, true) :: choose p (c - 1) l else (x, false) :: choose p c l

/-- A location in a gallery (R301). -/
def inGallery (loc : Nat) : Bool := decide (2 ^ 48 ≤ loc)

/-- Two accesses of one stream keep their order: they share a byte, or a gallery word (R209, R214, R301). -/
def keepOrder (a n b m : Nat) : Bool :=
  if inGallery a && inGallery b then overlaps (a / 8) ((a % 8 + n + 7) / 8) (b / 8) ((b % 8 + m + 7) / 8) else overlaps a n b m

/-- With a marked store, every older one of its stream whose order with it is kept is marked too. -/
def withOlder : List (Pending × Bool) → List (Pending × Bool)
  | [] => []
  | (x, b) :: l =>
    let r := withOlder l
    (x, b || r.any (fun y => y.2 && y.1.vec == x.vec &&
      keepOrder x.loc x.bytes.length y.1.loc y.1.bytes.length)) :: r

/-- A store or an atomic of hart `hid` performed at its home: an atomic reads and replaces its location at once (R227), and what
it has read waits for the hart. -/
def State.perform (s : State) (hid : Nat) (x : Pending) : State :=
  match x.rmw with
  | none => s.poke x.loc x.bytes
  | some a =>
    let old := peek s.mem x.loc x.bytes.length
    let r := a.op.apply (8 * x.bytes.length) (leNat old) a.b
    let s := match r.1 with
      | none => s
      | some v => s.poke x.loc (leBytes x.bytes.length v)
    s.updHartAt hid (fun h => { h with
      landed := h.landed ++ a.dests.map (fun d => (d, old)), landedFlags := if a.quiet then h.landedFlags else h.landedFlags ||| r.2 })

/-- The first `c` outstanding stores of hart `hid` that satisfy `p`, and what must come before them, taken out and
performed in order. -/
def State.performSome (s : State) (hid : Nat) (p : Pending → Bool) (c : Nat) : State :=
  match s.hartAt hid with
  | none => s
  | some h =>
    let l := withOlder (choose p c h.pending)
    let s' := s.updHartAt hid (fun h => { h with pending := (l.filter (fun x => !x.2)).map (·.1) })
    (l.filter (·.2)).foldl (fun s x => s.perform hid x.1) s'

/-- How many stores of a hart are outstanding. -/
def State.outstanding (s : State) (hid : Nat) : Nat :=
  match s.hartAt hid with
  | none => 0
  | some h => h.pending.length

/-- Every outstanding store of hart `hid` that satisfies `p` performed, and what must come before it. -/
def State.performAll (s : State) (hid : Nat) (p : Pending → Bool) : State := s.performSome hid p (s.outstanding hid)

/-- Every outstanding store of a hart performed, oldest first. -/
def State.drain (s : State) (hid : Nat) : State := s.performAll hid (fun _ => true)

/-- An atomic whose result only its performing tells. -/
def Pending.opaque (x : Pending) : Bool := x.rmw.any (fun a => match a.op with
  | .nib _ => false
  | _ => true)

/-- The operation can raise a flag (R102). -/
def AtomOp.raises (op : AtomOp) : Bool :=
  match op with
  | .fadd | .fmin | .fmax => true
  | .red ty _ => tyFloat ty
  | _ => false

/-- An atomic that may set a flag when it is performed. -/
def Pending.raises (x : Pending) : Bool := x.rmw.any (fun a => a.op.raises && !a.quiet)

/-- A load of [loc, loc + n) may take its bytes from an outstanding store: one that holds them all. -/
def Pending.holds (x : Pending) (loc n : Nat) : Bool :=
  !x.opaque && decide (x.loc ≤ loc) && decide (loc + n ≤ x.loc + x.bytes.length)

/-- What a stream of a hart must perform of its own where it reaches [loc, loc + n): what keeps its order with that and does not hold
all those bytes, with what is older there (R209, R214, R301). -/
def State.settleOwn (s : State) (hid : Nat) (vec : Bool) (loc n : Nat) : State :=
  let p : Pending → Bool := fun x => x.vec == vec && keepOrder loc n x.loc x.bytes.length && !x.holds loc n
  if (s.hartAt hid).any (fun h => h.pending.any p) then s.performAll hid p else s

/-- The free choice of what other streams' outstanding stores to [loc, loc + n) have been performed when one stream
reaches those bytes (R290; DESIGN CHOICE, log 2), with what its own order performs. -/
def State.settle (s : State) (hid : Nat) (vec : Bool) (loc n : Nat) : State :=
  (s.harts.foldl (fun s h =>
    let p : Pending → Bool := fun x =>
      overlaps loc n x.loc x.bytes.length && !(h.hid == hid && x.vec == vec)
    if h.pending.any p then s.performSome h.hid p (Config.performed s.tick h.hid) else s) s).settleOwn hid vec loc n

/-- A walk's entries as a walker finds them: stores to them that are not yet performed may be by then (R298). -/
def State.settleWalk (s : State) (va : Nat) : Nat → List (Nat × Nat) → State
  | _, [] => s
  | table, (lo, w) :: rest =>
    let loc := table + 8 * bits va (lo + w - 1) lo
    let s := s.settle (2 ^ 32) false loc 8
    let e := peekNat s.mem loc 8
    if pteBit e 63 && !pteBit e 62 then s.settleWalk va (pteFrame e + bits e 15 8 * 2 ^ 8) rest else s

/-- The same, where any store is outstanding. -/
def State.seeTables (s : State) (root va : Nat) : State :=
  if s.harts.any (fun h => !h.pending.isEmpty) then s.settleWalk va root walkLevels else s

/-- A byte as an outstanding store leaves it that covers it. -/
def Pending.over (x : Pending) (loc : Nat) (b : Byte) : Byte :=
  match x.rmw with
  | none => x.bytes.getD (loc - x.loc) b
  | some a => BitVec.ofNat 8 ((a.op.apply 8 b.toNat a.b).1.getD b.toNat)

/-- Bytes as a stream of a hart sees them: its own outstanding stores over the home's bytes (R209, R214). -/
def overlay (ps : List Pending) (vec : Bool) (loc : Nat) (b : Byte) : Byte :=
  ps.foldl (fun b x => if x.vec == vec && decide (x.loc ≤ loc) && decide (loc < x.loc + x.bytes.length) then x.over loc b
    else b) b

/-- n bytes read by a stream of a hart at a location whose other writers are settled. -/
def State.see (s : State) (h : Hart) (vec : Bool) (loc n : Nat) : List Byte :=
  let ps := h.pending.filter (fun x => x.vec == vec && overlaps loc n x.loc x.bytes.length)
  let bs := peek s.mem loc n
  if ps.isEmpty then bs else (List.range n).map (fun i => overlay ps vec (loc + i) (bs.getD i 0))

/-- A store or an atomic made by a hart: outstanding until it is performed. -/
def State.leave (s : State) (hid : Nat) (x : Pending) : State :=
  let s := s.updHartAt hid (fun h => { h with pending := h.pending ++ [x] })
  match s.hartAt hid with
  | none => s
  | some h => if pendingLimit < h.pending.length then s.performSome hid (fun _ => true) 1 else s

/-- A store made by a stream of a hart. -/
def State.store (s : State) (hid : Nat) (vec : Bool) (loc : Nat) (bs : List Byte) : State := s.leave hid { vec, loc, bytes := bs }

/-! ### Management registers and fault halls -/

/-- A management register. -/
def State.getMgmt (s : State) (off : Nat) : Word := s.mgmt.get off

/-- A management register's value replaced. -/
def State.setMgmt (s : State) (off : Nat) (v : Word) : State := { s with mgmt := s.mgmt.set off v }

/-- OWNED and OWNER of OWNST (R336). -/
def State.owner? (s : State) : Option Nat :=
  let v := (s.getMgmt 0x200000).toNat
  if pteBit v 8 then some (v % 8) else none

/-- A hall record's fields (R401). -/
structure HallRec where
  kind : Nat
  flags : Nat := 0
  ctx : Nat := 0
  va : Nat := 0
  pa : Nat := 0
  code : Nat := 0
  loc : Nat := 0xffff
  count : Nat := 0
  pc : Nat := 0
  deriving DecidableEq, Repr

/-- The 64 bytes of a record appended at HEAD (R401). -/
def HallRec.bytes (r : HallRec) (head : Nat) : List Byte :=
  leBytes 1 r.kind ++ leBytes 1 r.flags ++ leBytes 2 r.ctx ++ leBytes 4 head ++ leBytes 8 r.va ++ leBytes 8 r.pa ++
  leBytes 2 r.code ++ leBytes 2 r.loc ++ leBytes 4 r.count ++ leBytes 8 r.pc ++ List.replicate 24 0

/-- FH posted to every hart at S or M (R372; DEDUCED, log 11). -/
def State.postFH (s : State) : State :=
  { s with harts := s.harts.map (fun h => if h.priv = .u then h else
      (h.setCsr 0xd2c (h.getCsr 0xd2c ||| 2)).setCsr 0xf2c (h.getCsr 0xf2c ||| 2)) }

/-- Where the owner's hall puts its next record; none where it drops it (R401). -/
def State.hallLoc (s : State) : Option Nat :=
  let b := 0x260000 + 0x20 * (s.owner?.getD 5)
  let base := (s.getMgmt b).toNat
  let n := 2 ^ (s.getMgmt (b + 8)).toNat
  let head := (s.getMgmt (b + 0x10)).toNat % 2 ^ 32
  if !pteBit base 0 || decide ((head + 2 ^ 32 - (s.getMgmt (b + 0x18)).toNat % 2 ^ 32) % 2 ^ 32 = n) then none
  else some (bits base 47 12 * 2 ^ 12 + 64 * (head % n))

/-- A record appended to the owner's hall, or dropped and counted in LOST (R401). -/
def State.hall (s : State) (r : HallRec) : State :=
  let b := 0x260000 + 0x20 * (s.owner?.getD 5)
  let hh := (s.getMgmt (b + 0x10)).toNat
  let head := hh % 2 ^ 32
  match s.hallLoc with
  | none => s.setMgmt (b + 0x10) (BitVec.ofNat 64 (head + min (hh / 2 ^ 32 + 1) (2 ^ 32 - 1) * 2 ^ 32))
  | some loc =>
    let s := s.poke loc (r.bytes head)
    (s.setMgmt (b + 0x10) (BitVec.ofNat 64 ((head + 1) % 2 ^ 32 + hh / 2 ^ 32 * 2 ^ 32))).postFH

/-! ### Writes by masters (R338, R422) -/

/-- The record of an ignored write. -/
def State.ignored (s : State) (master off : Nat) : State := s.hall { kind := 0x14, count := master, pa := off }

/-- A write to an owner-written register: it has its effect if the owner makes it. -/
def State.ownerWrite (s : State) (master off : Nat) (f : State → State) : State :=
  if s.owner? = some master then f s else s.ignored master off

/-! ### The dome (R49 to R51, R333) -/

/-- Targets of the gangs of one core, in the order given (R49). -/
def grantFrom : Nat → List Gang → List (Nat × Nat)
  | _, [] => []
  | left, g :: gs =>
    let take := min (g.lreq - 1) left
    (g.slot, 1 + take) :: grantFrom (left - take) gs

/-- The gangs of a core by GPRI descending, then placement sequence ascending (R49). -/
def State.gangOrder (s : State) (q : Nat) : List Gang :=
  (s.gangs.filter (fun g => g.core == q)).foldr (insertBy (fun a b =>
    decide (b.gpri < a.gpri) || (a.gpri == b.gpri && decide (a.seq ≤ b.seq)))) []

/-- Targets of a core by dome slot (R49). -/
def State.targets (s : State) (q : Nat) : List (Nat × Nat) :=
  let gs := s.gangOrder q
  grantFrom (8 - gs.length) gs

/-- The target of a hart's gang. -/
def State.target (s : State) (h : Hart) : Nat := (find (s.targets h.q) h.slot).getD 1

/-- How many groups a dome slot's gang holds, and how many it is to be joined by. -/
def ownedBy (gs : List LaneGroup) (slot : Nat) : Nat := gs.countP (fun g => g.owner == some slot)
def givenTo (gs : List LaneGroup) (slot : Nat) : Nat := gs.countP (fun g => g.dest == some slot)

/-- Groups above the target of the gang that holds them released, but for those of a gang in the middle of a pass (R51, item 1);
`kept` lists the groups looked at. -/
def releaseGroups (targets : List (Nat × Nat)) (mid : Nat → Bool) (now : Nat) : List LaneGroup → List LaneGroup → List LaneGroup
  | kept, [] => kept
  | kept, g :: gs =>
    let keep := match g.owner with
      | none => true
      | some slot => mid slot || decide (ownedBy kept slot < (find targets slot).getD 0)
    releaseGroups targets mid now (kept ++ [if keep then g else { g with owner := none, idle := now }]) gs

/-- Groups that their gang no longer needs belong to no gang; `all` lists every group. -/
def recallGroups (targets : List (Nat × Nat)) (all : List LaneGroup) (now : Nat) : List LaneGroup → List LaneGroup → List LaneGroup
  | kept, [] => kept
  | kept, g :: gs =>
    let keep := match g.dest with
      | none => true
      | some slot => decide (ownedBy all slot + givenTo kept slot < (find targets slot).getD 0)
    recallGroups targets all now (kept ++ [if keep then g else { g with dest := none, idle := now }]) gs

/-- The first `n` groups of no gang given to a dome slot; a gated one wakes in 16 cycles (R333). -/
def giveGroups (slot now : Nat) : Nat → List LaneGroup → List LaneGroup
  | _, [] => []
  | n, g :: gs =>
    if 0 < n ∧ g.owner = none ∧ g.dest = none then
      { g with dest := some slot, wake := if g.gated && g.wake.isNone then some (now + 16) else g.wake } :: giveGroups slot now (n - 1) gs
    else g :: giveGroups slot now n gs

/-- An awake group joins the gang that it is given to, where that gang is at a pass boundary (R51, item 2). -/
def LaneGroup.join (mid : Nat → Bool) (g : LaneGroup) : LaneGroup :=
  match g.dest with
  | some slot => if g.gated || mid slot then g else { g with owner := some slot, dest := none }
  | none => g

/-- A gang's groups run a pass (R78). -/
def CoreSt.midPass (c : CoreSt) (slot : Nat) : Bool := decide (c.cyc < (find c.busy slot).getD 0)

/-- The groups of a core as its targets move them (R51, R333). -/
def CoreSt.moveGroups (c : CoreSt) (ts : List (Nat × Nat)) : CoreSt :=
  let gs := releaseGroups ts c.midPass c.cyc [] c.groups
  let gs := recallGroups ts gs c.cyc [] gs
  let gs := ts.foldl (fun gs t => giveGroups t.1 c.cyc (t.2 - ownedBy gs t.1 - givenTo gs t.1) gs) gs
  { c with groups := gs.map (LaneGroup.join c.midPass) }

/-- Targets recomputed on a core, and its groups moved (R50, R51). -/
def State.regroup (s : State) (q : Nat) : State := s.updCore q (fun c => c.moveGroups (s.targets q))

/-- The instructions of some harts taken out of a core's gate, queues and passes. -/
def CoreSt.dropJobs (c : CoreSt) (p : Job → Bool) : CoreSt :=
  { c with
    gate := c.gate.filter (fun j => !p j), drains := c.drains.filter (fun j => !p j), vqueue := c.vqueue.filter (fun j => !p j), flight := c.flight.filter (fun j => !p j)
    transit := c.transit.filter (fun j => !p j.job), tflight := c.tflight.filter (fun j => !p j.job) }

/-- A gang's instructions are gone, and the pass that its groups run (R28, R268). -/
def CoreSt.dropGang (c : CoreSt) (slot : Nat) : CoreSt := { c.dropJobs (fun j => j.slot == slot) with busy := put c.busy slot none }

/-- A gang leaves its core: its instructions are gone, and its groups are the dome's (R50). -/
def State.clearGang (s : State) (g : Gang) : State := (s.updCore g.core (fun c => c.dropGang g.slot)).regroup g.core

/-! ### The end of a hart (R245, R413) -/

/-- LND after a hart leaves: its LIVE bit clear, and the phase over if the rest have arrived (R245). -/
def Gang.leave (g : Gang) (idx : Nat) : Gang :=
  let live := g.live &&& ~~~(1#4 <<< idx)
  if live ≠ 0 ∧ g.arr &&& live = live then { g with live, arr := 0, phase := g.phase + 1 } else { g with live }

/-- The launch has nothing left to run, and is not complete: its gangs have ended, or it has been killed or removed, and none of its
engine commands runs (R57, R245, R415). -/
def State.launchDone (s : State) (acc : Nat) : Bool :=
  match s.launchAt acc with
  | none => false
  | some l =>
    ((l.st == .running && decide (l.ended = l.gangs)) || (l.st != .complete && (l.killed || l.failed))) &&
      !(s.engines.any (fun c => c.launch == acc))

/-- A gang ends when its last hart has left (R28); the dome recomputes its targets (R50). -/
def State.endGang (s : State) (g : Gang) : State :=
  let s := { s with gangs := s.gangs.filter (fun f => !(f.core == g.core && f.slot == g.slot)) }
  let s := (s.updLaunch g.launch (fun l => { l with ended := l.ended + 1 })).clearGang g
  let s := s.post [.placementDecision]
  if s.launchDone g.launch then s.post [.launchComplete g.launch] else s

/-- A hart's older stores are performed, its LIVE bit clears, its stair is discarded and it is gone (R245). -/
def State.leaveHart (s : State) (h : Hart) : State :=
  let s := (s.drain h.hid).updCore h.q (fun c => c.dropJobs (fun j => j.hid == h.hid))
  match s.gangOf h with
  | none => { s with harts := s.harts.filter (fun g => g.hid != h.hid) }
  | some g =>
    let s := s.setGang (g.leave h.idx)
    let s := { s with harts := s.harts.filter (fun g => g.hid != h.hid), engines := s.engines.map (fun (c : EngineCmd) =>
      if c.hid == some h.hid then { c with hid := none } else c) }
    if (s.hartsOf g).isEmpty then s.endGang (g.leave h.idx) else s

/-! ### Taking an exception and returning from one (R368, R369) -/

/-- What a stopping boundary records (R373, R375). -/
structure TrapRec where
  code : Nat
  tva : Word := 0
  tswi : Nat := 0
  tap : Option Nat := none
  /-- Band row and column of the cell that TCELL names. -/
  tcell : Option (Nat × Nat) := none
  /-- TPC where it is not the stopped instruction's address (`trap n`: PC + 4). -/
  tpc : Option Word := none
  deriving DecidableEq, Repr

/-- First CSR number of the S or M trap registers (R368). -/
def trapBase (m : Bool) : Nat := if m then 0xf20 else 0xd20

/-- A level can take a trap: TVEC.V = 1 and TSTAT.ACT = 0 (R368). -/
def Hart.levelFree (h : Hart) (m : Bool) : Bool :=
  (h.getCsr (trapBase m + 7)).getLsbD 0 && !(h.getCsr (trapBase m + 6)).getLsbD 2

/-- The level a trap goes to: false S, true M (R368). -/
def Hart.trapLevel (h : Hart) : Option Bool :=
  match h.priv with
  | .u => if h.levelFree false then some false else if h.levelFree true then some true else none
  | .s => if h.levelFree true then some true else none
  | .m => none

/-- TSTAT.PP of a privilege (R371). -/
def Priv.code : Priv → Nat
  | .u => 0
  | .s => 1
  | .m => 3

/-- The privilege of a TSTAT.PP value (R371). -/
def Priv.ofCode (n : Nat) : Priv := if n % 4 = 1 then .s else if n % 4 = 3 then .m else .u

/-- TAP of a record (R371). -/
def tapWord : Option Nat → Word
  | none => 0
  | some a => BitVec.ofNat 64 (64 + a)

/-- TCELL of a record (R371). -/
def tcellWord : Option (Nat × Nat) → Word
  | none => 0
  | some (r, c) => BitVec.ofNat 64 (2 ^ 63 + c * 2 ^ 16 + r)

/-- The step of R369 on the hart: the trap registers written, EFC copied, ACT and PP set, the privilege and the
program counter changed. SWI is 0 at the handler's first instruction (R376; DEDUCED, log 15). -/
def Hart.enterTrap (h : Hart) (m : Bool) (t : TrapRec) : Hart :=
  let b := trapBase m
  let g := ((((((h.setCsr b (BitVec.ofNat 64 t.code)).setCsr (b + 1) (t.tpc.getD h.pc)).setCsr (b + 2)
    (BitVec.ofNat 64 t.tswi)).setCsr (b + 3) (tapWord t.tap)).setCsr (b + 4) (tcellWord t.tcell)).setCsr (b + 5)
    t.tva).setCsr (b + 6) (BitVec.ofNat 64 (4 + h.priv.code))
  let g := if m then { g with tefcM := h.efc } else { g with tefcS := h.efc }
  { g with priv := if m then .m else .s, pc := h.getCsr (b + 7) &&& ~~~3, swi := 0, run := .running, unit := none,
           late := [], drain := [] }

/-- A trap that no level takes stops the hart (R413). -/
def State.stopHart (s : State) (h : Hart) (t : TrapRec) : State :=
  let tpc := t.tpc.getD h.pc
  let ctx := h.ctx
  let s := match s.gangOf h with
    | none => s
    | some g => s.updLaunch g.launch (fun l =>
        let e : HartEntry := ⟨tpc, g.index, t.code, h.idx, t.tswi, h.whereNat, t.tva⟩
        if l.hartEntries.length < 63 then { l with hartEntries := l.hartEntries ++ [e] }
        else { l with lost := min (l.lost + 1) 65535 })
  let s := s.leaveHart h
  s.hall { kind := 0x11, ctx := ctx, va := t.tva.toNat, code := t.code, loc := h.whereNat, pc := tpc.toNat }

/-- TAKING A TRAP at the current hart (R368, R369, R413). -/
def State.takeTrap (s : State) (t : TrapRec) : State :=
  match s.hart? with
  | none => s
  | some h =>
    match h.trapLevel with
    | some m => s.setHart (h.enterTrap m t)
    | none => s.stopHart h t

/-- RETURNING from the handler of the hart's own level (R369). -/
def Hart.leaveTrap (h : Hart) : Hart :=
  let m := h.priv == .m
  let b := trapBase m
  let st := h.getCsr (b + 6)
  let g := h.setCsr (b + 6) (st &&& ~~~4#64)
  { g with pc := h.getCsr (b + 1) &&& ~~~3, priv := .ofCode st.toNat, swi := bits (h.getCsr (b + 2)).toNat 19 0,
           efc := if m then h.tefcM else h.tefcS }

/-! ### How an instruction ends -/

/-- How an instruction's effect on a hart ends. -/
inductive Exec where
  /-- It commits, and the next instruction follows it (R312). -/
  | done (s : State)
  /-- It commits and transfers control. -/
  | jump (s : State) (pc : Word)
  /-- It stops, its completed elements written (R375). -/
  | trap (s : State) (t : TrapRec)
  /-- It commits and has itself moved the program counter, or removed its hart. -/
  | moved (s : State)
  /-- It has not taken effect and is met again (R315). -/
  | wait (s : State)
  deriving DecidableEq, Repr

/-- RPTCNT after the instruction at the program counter commits (R398). -/
def Hart.clearRepeat (h : Hart) : Hart :=
  if h.getCsr 0xd31 = h.pc ∧ h.getCsr 0xd32 ≠ 0 then h.setCsr 0xd32 0 else h

/-- A hart commits: SWI becomes 0 (R376), RPTCNT becomes 0 when this was the instruction at RPTPC (R398), and the
program counter moves. -/
def Hart.commit (h : Hart) (pc : Word) : Hart := { h.clearRepeat with pc, swi := 0 }

/-- An effect settled at the current hart, for an instruction of `len` bytes. -/
def Exec.outcome (len : Nat) : Exec → Host.Outcome State Fault Refusal
  | .done s => .next (s.updHart (fun h => h.commit (h.pc + BitVec.ofNat 64 len)))
  | .jump s pc => .next (s.updHart (fun h => h.commit pc))
  | .trap s t => .next (s.takeTrap t)
  | .moved s => .next s
  | .wait s => .next s

/-- An instruction of `len` bytes executed by the current hart. -/
def onHart (len : Nat) (s : State) (f : Hart → Exec) : Host.Outcome State Fault Refusal :=
  match s.hart? with
  | none => .fault .noHart
  | some h => (f h).outcome len

/-- An instruction that changes only its hart and cannot stop. -/
def hartOp (len : Nat) (s : State) (f : Hart → Hart) : Host.Outcome State Fault Refusal :=
  onHart len s (fun h => .done (s.setHart (f h)))

/-- An event of the device: it happens while power is applied (R80). -/
def event (s : State) (f : State → State) : Host.Outcome State Fault Refusal :=
  if s.power then .next (f s) else .fault .powerOff

/-- An illegal use (R386): TCAUSE 0x1100 + reason. -/
def illegalUse (reason : Nat) (tap : Option Nat := none) (tcell : Option (Nat × Nat) := none) : TrapRec :=
  { code := 0x1100 + reason, tap, tcell }

/-- A privilege violation (R124, R373). -/
def privilegeViolation : TrapRec := { code := 0x1001 }

end Sys2Proof.Machine
end

