-- ==== Sys2Proof/Machine/Access.lean ====
section
/-! DEFINITION. Memory accesses: the paths of R204 and R205, translation with its rights and its TLBs (R279 to R282,
R396), the constant path (R206), and device registers as they read. -/

namespace Sys2Proof.Machine

/-- The uses of an address that R204 tells apart. -/
inductive Use where
  | scalarLoad | scalarStore
  | vecLoad | vecStore
  /-- Segment forms of a vector load or store: as unit-stride, but not on paths 4 and 5. -/
  | segLoad | segStore
  | idxLoad | idxStore
  | stream | table | atomic
  /-- Source and destination of an engine command, and the source of an update's code (R248). -/
  | engineRead | engineWrite
  deriving DecidableEq, Repr

/-- The access a use makes (R396). -/
def Use.access : Use → Access
  | .scalarLoad | .vecLoad | .segLoad | .idxLoad | .stream | .table | .engineRead => .load
  | .scalarStore | .vecStore | .segStore | .idxStore | .engineWrite => .store
  | .atomic => .atomic

/-- K of R395. -/
def Use.k : Use → Nat
  | .scalarLoad | .vecLoad | .segLoad | .idxLoad | .stream | .table | .engineRead => 1
  | .scalarStore | .vecStore | .segStore | .idxStore | .engineWrite => 2
  | .atomic => 3

/-- The path admits the use at this privilege (R204). -/
def Use.admits (u : Use) (path : Nat) (sup : Bool) : Bool :=
  if path = 7 then sup
  else if path = 0 ∨ path = 1 then true
  else if path = 2 then u != .stream && u != .table
  else if path = 3 then
    u == .scalarLoad || u == .vecLoad || u == .segLoad || u == .idxLoad || u == .stream || u == .table ||
    u == .engineRead
  else if path = 4 then u == .vecLoad || u == .stream
  else if path = 5 then sup && (u == .scalarLoad || u == .scalarStore || u == .vecLoad || u == .vecStore)
  else false

/-- The leaf rights an access needs (R396). -/
def rightsOk (need : Access) (e : Nat) : Bool :=
  match need with
  | .fetch => pteBit e 58
  | .load => pteBit e 60
  | .store => pteBit e 59
  | .atomic => pteBit e 60 && pteBit e 59

/-- The access needs WR, so it makes the page dirty (R280). -/
def needsWrite : Access → Bool
  | .fetch | .load => false
  | .store | .atomic => true

/-- An entry without its A and D bits. -/
def pteCore (e : Nat) : Nat := e - bits e 57 56 * 2 ^ 56

/-- The tag of a translation: CTX, or global for path 7 (R282). -/
def Hart.tag (h : Hart) (path : Nat) : Option Nat := if path = 7 then none else some h.ctx

/-- The address whose translation a view address needs: the path-0 address of its block on path 4 (R205). -/
def viewBase (va : Word) : Word := if pathOf va = 4 then BitVec.ofNat 64 (64 * (va.toNat % 2 ^ 61 / 128)) else va

/-- A held translation covers an address for a tag, and serves a core: one of its own die, or a stream of its hart
(R282). -/
def Held.covers (t : Held) (core : Nat) (hid : Option Nat) (tag : Option Nat) (va : Nat) : Bool :=
  (match t.stream with
    | none => t.core % 8 == core % 8
    | some n => hid == some n) &&
  t.ctx == tag && decide (t.page / 2 ^ (pageBits t.level - 16) = va / 2 ^ pageBits t.level)

/-- The held translations down to the one that the core itself has used last (R399: none older is used again). -/
def Held.upTo (core : Nat) : List Held → List Held
  | [] => []
  | t :: l => if t.stream.isNone && t.core == core then [t] else t :: Held.upTo core l

/-- The held translations that an access of a hart may use, the youngest first; which holder keeps one, and for how long, is
not architected (R282): a die's TLB keeps what any of its cores has used until `ptsync` (DESIGN CHOICE, log 6). -/
def State.heldFor (s : State) (h : Hart) (stream : Bool) (path va : Nat) : List Held :=
  Held.upTo h.q (s.tlb.filter (fun t => t.covers h.q (if stream then some h.hid else none) (h.tag path) va))

/-- The translation an access finds: the fresh walk, or a translation still held, where the device may use any of them
(R282). One whose D is 0 serves no access that needs WR (`wr`): the walker sets D in the leaf that it finds (R280; DESIGN CHOICE, log 6). -/
def State.lookup (s : State) (h : Hart) (path va : Nat) (stream : Bool := false) (wr : Bool := false) : Walk :=
  let fresh := walk s.mem (h.root path) va
  let old := (s.heldFor h stream path va).filter (fun t => (!wr || pteBit t.entry.toNat 56) && (match fresh with
    | .leaf e _ l => decide (pteCore e ≠ pteCore t.entry.toNat) || decide (l ≠ t.level)
    | _ => true))
  match (if old.isEmpty then 0 else Config.useHeld s.tick (va / 2 ^ 16)) with
  | 0 => fresh
  | k + 1 =>
    match old[k % old.length]? with
    | none => fresh
    | some t => .leaf t.entry.toNat (2 ^ 64) t.level

/-- The translations that stay of a list, the youngest first: the 32 K of each die, and the 256 of each core (R21); a stream's own are
not among them. -/
def fitHeld : List Held → List Held → List Held
  | _, [] => []
  | seen, t :: l =>
    let room := decide ((seen.filter (fun u => u.stream.isNone && u.core % 8 == t.core % 8)).length < 32768) ||
      decide ((seen.filter (fun u => u.stream.isNone && u.core == t.core)).length < 256)
    if t.stream.isSome || room then t :: fitHeld (t :: seen) l else fitHeld seen l

/-- A translation that a hart's access has used, noted as the youngest (R282), or, where it was held, at its age (R399). -/
def State.hold (s : State) (h : Hart) (stream : Bool) (path va e loc level : Nat) : State :=
  let t : Held := ⟨h.q, none, h.tag path, va / 2 ^ 16, BitVec.ofNat 64 e, level⟩
  let l := s.heldFor h stream path va
  if l.head? = some t then s
  else if loc = 2 ^ 64 then
    match l.find? (fun u => decide (u.entry.toNat = e) && decide (u.level = level)) with
    | none => s
    | some u => if u = t then s else { s with tlb := (s.tlb.filter (fun v => v != t)).flatMap (fun v => if v = u then [t, v] else [v]) }
  else
    let l := t :: s.tlb.filter (fun v => v != t)
    { s with tlb := if l.length ≤ 256 then l else fitHeld [] l }

/-! ### Counted accesses (R286) -/

/-- A frame is homed in device memory (R275). -/
def deviceFrame (frame : Nat) : Bool := decide (frame * 65536 < 0xc000000000) || isTier2 (frame * 65536)

/-- A tracking entry in its frame's place, or in the place of one that is not architected where all 4,096 are in use
(R286; DESIGN CHOICE, log 20). -/
def State.track (s : State) (t : Track) : State :=
  if s.tracks.any (fun u => u.frame == t.frame) then
    { s with tracks := s.tracks.map (fun u => if u.frame == t.frame then t else u) }
  else if s.tracks.length < 4096 then { s with tracks := s.tracks ++ [t] }
  else { s with tracks := s.tracks.set (Config.replacedEntry s.tick % 4096) t }

/-- EN and HYST of MIGCFG (R285). -/
def State.arbiterOn (s : State) : Bool := pteBit (s.getMgmt 0x300000).toNat 16
def State.hyst (s : State) : Nat := (s.getMgmt 0x300000).toNat % 2 ^ 16

/-- The tracking entry of a frame; one that has none counts from 0. -/
def State.trackOf (s : State) (frame : Nat) : Track := (s.tracks.find? (fun t => t.frame == frame)).getD ⟨frame, 0, none, false⟩

/-- n counted accesses to a frame; at HYST its request is due (R286). -/
def State.countMove (s : State) (frame : Nat) (host : Bool) (n : Nat) : State :=
  let t := s.trackOf frame
  let c := min (t.count + n) (2 ^ 32 - 1)
  if n = 0 then s
  else
    let s := s.track { t with count := c }
    if decide (s.hyst ≤ c) && t.request.isNone && !s.inbox.contains (.migrationRequest frame host) then
      s.post [.migrationRequest frame host]
    else s

/-- The leaf entries for a frame in the tables of a level and those below, valid or not (R279, R280); an entry with V = 0 is one
where bit 62 or its level says so. -/
def leavesFrom (m : Memory) (frame : Nat) : Nat → List (Nat × Nat) → List Nat → List Nat
  | _, [], _ => []
  | level, (_, w) :: rest, tables =>
    let es := tables.flatMap (fun t => (List.range (2 ^ w)).map (fun i => peekNat m (t + 8 * i) 8))
    let here := es.filter (fun e => (pteBit e 62 || decide (level = 4)) && !(pteBit e 63 && pteMalformed level e) &&
      decide (frame * 65536 / 2 ^ pageBits level = pteFrame e / 2 ^ pageBits level))
    here ++ leavesFrom m frame (level + 1) rest
      ((es.filter (fun e => pteBit e 63 && !pteBit e 62 && !pteMalformed level e)).map (fun e => pteFrame e + bits e 15 8 * 2 ^ 8))

/-- The roots of the registered contexts' tables, and of the supervisor's (R277, R278, R339). -/
def State.roots (s : State) : List Nat :=
  ((s.mgmt.filter (fun p => (decide (0x210000 ≤ p.1) && decide (p.1 < 0x212000) && pteBit p.2.toNat 63) || p.1 == 0x280000)).map
    (fun p => bits p.2.toNat 47 16 * 2 ^ 16)).eraseDups

/-- The leaf entries for a frame in every table of the module. -/
def State.leavesOf (s : State) (frame : Nat) : List Nat := leavesFrom s.mem frame 0 walkLevels s.roots

/-- A valid leaf maps a frame. -/
def State.stillMapped (s : State) (frame : Nat) : Bool := (s.leavesOf frame).any (fun e => pteBit e 63)

/-- The policy of a leaf counts an access of one side to a frame (R286). -/
def counted (mig frame : Nat) (host : Bool) : Bool :=
  (mig = 1 && isTier2 (frame * 65536)) || (mig = 2 && deviceFrame frame == host)

/-- The lines of a device access of n bytes, counted as far as they are transferred (DESIGN CHOICE, log 20). -/
def State.countLines (s : State) (mig pa n : Nat) : State :=
  if s.arbiterOn && counted mig (pa / 65536) false then
    s.countMove (pa / 65536) false (Config.lineMoves s.tick (pa / 65536) (s.trackOf (pa / 65536)).count %
      ((pa % 128 + n + 127) / 128 + 1))
  else s

/-- The translation of an address for an access of n bytes, setting A and D in its leaf (R279 to R282, R396). A fault answers
F of R395. -/
def State.translate (s : State) (h : Hart) (need : Access) (va : Word) (stream : Bool := false) (n : Nat := 1) :
    Except Nat (State × Nat) :=
  let path := pathOf va
  let v := va.toNat % 2 ^ 61
  let s := s.seeTables (h.root path) v
  match s.lookup h path v stream (needsWrite need) with
  | .invalid _ _ => .error 0
  | .malformed => .error 2
  | .leaf e loc level =>
    if h.priv = .u && !pteBit e 61 then .error 1
    else if !rightsOk need e then .error 1
    else
      let e' := pteCore e + 2 ^ 57 + (if needsWrite need || pteBit e 56 then 2 ^ 56 else 0)
      let s := if e' = e || decide (loc = 2 ^ 64) then s else s.poke loc (leBytes 8 e')
      let s := s.hold h stream path v (if loc = 2 ^ 64 then e else e') loc level
      .ok (s.countLines (bits e 53 52) (leafAddr e level v) n, leafAddr e level v)

/-- Where an admitted access lands: a flat memory location, or a device register offset. -/
inductive Place where
  | mem (loc : Nat)
  | dev (off : Nat)
  deriving DecidableEq, Repr

/-- Flat location of an offset of a core's gallery. -/
def galleryLoc (q off : Nat) : Nat := 2 ^ 48 + q * 2 ^ 21 + off

/-- The place of an access of a use at an address (R204, R205, R396); a fault answers F of R395. -/
def State.place (s : State) (h : Hart) (u : Use) (va : Word) (n : Nat := 1) : Except Nat (State × Place) :=
  let path := pathOf va
  let v := va.toNat % 2 ^ 61
  if !u.admits path (h.priv != .u) then .error 3
  else if path = 1 then
    match s.gangOf h with
    | none => .error 3
    | some g => if v < g.galSize then .ok (s, .mem (galleryLoc h.q (g.galBase + v))) else .error 3
  else if path = 2 then
    let q := 8 * bits v 27 22 + h.die
    match s.gangAt q (bits v 29 28), s.gangOf h with
    | some g, some mine =>
      if v / 2 ^ 30 = 0 ∧ bits v 21 21 = 0 ∧ g.launch = mine.launch ∧ v % 2 ^ 21 < g.galSize then
        .ok (s, .mem (galleryLoc q (g.galBase + v % 2 ^ 21)))
      else .error 3
    | _, _ => .error 3
  else if path = 4 then
    if v % 2 ≠ 0 then .error 3
    else
      match s.translate h u.access (BitVec.ofNat 64 (64 * (v / 128))) (u == .stream) n with
      | .error f => .error f
      | .ok (s, loc) => .ok (s, .mem loc)
  else if path = 5 then
    if v / 2 ^ 24 ≠ 0 then .error 3 else .ok (s, .dev v)
  else
    match s.translate h u.access va (u == .stream) n with
    | .error f => .error f
    | .ok (s, loc) => .ok (s, .mem loc)

/-! ### Device registers as they read (R205, R336, R377) -/

/-- LQSTAT of a window (R33). -/
def State.lqstat (s : State) (n : Nat) : Word :=
  let ls := s.launches.filter (fun l => l.window == n)
  let waiting := (ls.filter (fun l => l.st == .waiting)).length
  let taken := (ls.filter Launch.takesEntry).length
  BitVec.ofNat 64 (waiting * 2 ^ 16 + (1024 - taken))

/-- A save is in progress (R377). -/
def State.saving (s : State) : Bool := s.gangs.any (fun g => g.due)

/-- PRESTAT (R377): BUSY while a save is due, and the held gangs. -/
def State.prestat (s : State) : Word :=
  BitVec.ofNat 64 ((if s.saving then 2 ^ 63 else 0) + (s.launches.map (fun l => l.held.length)).sum)

/-- The doubleword of device registers at an offset that is a multiple of 8; unoccupied offsets and write-only
registers read zero (R10, R205). -/
def State.devWord (s : State) (off : Nat) : Word :=
  if 0x100000 ≤ off ∧ off < 0x140000 then
    if off % 0x1000 = 0x40 then s.lqstat ((off - 0x100000) / 0x1000)
    else if off % 0x1000 = 0x48 then s.getMgmt off else 0
  else if off = 0x230018 then s.prestat
  else s.getMgmt off

/-- n bytes of device registers from an offset. -/
def State.devRead (s : State) (off n : Nat) : List Byte :=
  (List.range n).map (fun i =>
    BitVec.ofNat 8 ((s.devWord ((off + i) / 8 * 8)).toNat / 2 ^ (8 * ((off + i) % 8))))

/-! ### The constant path (R206) -/

/-- Values that path 3 may return for a byte: its present value and every value replaced since the launch was
accepted (R206). -/
def State.constValues (s : State) (stamp loc : Nat) : List Byte :=
  SMap.get (w := 8) s.mem loc ::
    (s.history.filter (fun x => decide (x.1 = loc) && decide (stamp ≤ x.2.2))).map (fun x => x.2.1)

/-- A byte read through path 3 by an engine (R206). -/
def State.constByte (s : State) (stamp loc : Nat) : Byte :=
  let vs := s.constValues stamp loc
  vs.getD (if vs.length = 1 then 0 else Config.constChoice s.tick loc % vs.length) 0

/-- What a byte held at a moment: the oldest value replaced since, else its present one. -/
def State.byteAt (s : State) (moment loc : Nat) : Byte :=
  (((s.history.filter (fun x => decide (x.1 = loc) && decide (moment ≤ x.2.2))).getLast?).map (fun x => x.2.1)).getD
    (SMap.get (w := 8) s.mem loc)

/-- A core's read of a line for a launch that has been on it since a moment: it is filled at that moment or later, not before the
fill that a read has hit already, and a hit returns the values of one fill (R272). Where no byte of it has changed since, every
moment gives the same. -/
def State.constLine (s : State) (core launch since line : Nat) : State × Nat :=
  let old := s.consts.filter (fun c => c.core == core && c.launch == launch && c.line == line)
  let lo := old.foldl (fun m c => max m c.moment) since
  if s.history.any (fun x => decide (x.1 / 128 = line) && decide (lo ≤ x.2.2)) then
    let m := lo + Config.constChoice s.tick line % (s.tick + 2 - lo)
    ({ s with consts := ⟨core, launch, line, m⟩ :: s.consts.filter (fun c => !old.contains c) }, m)
  else (s, lo)

/-- n bytes of path 3 read by a hart of a gang, line by line (R206, R272). -/
def State.constRead (s : State) (g : Gang) (stamp loc n : Nat) : State × List Byte :=
  let lines := List.range' (loc / 128) ((loc + n + 127) / 128 - loc / 128)
  lines.foldl (fun a line =>
    let r := a.1.constLine g.core g.launch (max stamp g.since) line
    let lo := max loc (128 * line)
    let hi := min (loc + n) (128 * line + 128)
    (r.1, a.2 ++ (List.range' lo (hi - lo)).map (r.1.byteAt r.2))) (s, [])

/-! ### Faults on pages that are moving (R286, R402) -/

/-- What the translation of an address finds for an access of a hart that needs WR or not, without any effect. -/
def State.lookAt (s : State) (h : Hart) (va : Word) (wr : Bool := false) : Walk :=
  let v := viewBase va
  s.lookup h (pathOf v) (v.toNat % 2 ^ 61) false wr

/-- An address's path has a translation (R204). -/
def translated (va : Word) : Bool := let p := pathOf (viewBase va); p == 0 || p == 3 || p == 7

/-- The entries of an address's walk as its access has found them (R298). -/
def State.sawTables (s : State) (h : Hart) (va : Word) : State :=
  let v := viewBase va
  if translated va then s.seeTables (h.root (pathOf v)) (v.toNat % 2 ^ 61) else s

/-- The frame of the MIG = 2 leaf with V = 0 that a walk of an address ends at (R402). -/
def movingFrame (va : Nat) : Walk → Option Nat
  | .invalid e level =>
    if (pteBit e 62 || decide (level = 4)) && decide (bits e 53 52 = 2) then some (leafAddr e level va / 65536) else none
  | _ => none

/-- A fault of one side on such a frame: its kind-1 record, noted with the frame's count where it has one, and the contest with an open request of the other side (R287,
R402). -/
def State.noteMigration (s : State) (r : HallRec) (frame : Nat) (host : Bool) : State :=
  let s := s.hall { r with pa := frame * 65536, count := (s.trackOf frame).count }
  let s := { s with tracks := s.tracks.map (fun (t : Track) => if t.frame == frame then { t with noted := true } else t) }
  if s.tracks.any (fun t => t.frame == frame && t.request == some (!host)) then s.post [.migrationContest frame host] else s

/-- What an F = 0 fault of the device adds on such a frame, by the walk that has met it: its record (R286, R402). -/
def State.noteBarred (s : State) (w : Walk) (f : Nat) (r : HallRec) : State :=
  match (if f = 0 then movingFrame (r.va % 2 ^ 61) w else none) with
  | none => s
  | some frame => s.noteMigration { r with kind := 1 } frame false

/-- The same of an access of the rotunda through a context's root. -/
def State.noteRotunda (s : State) (root f : Nat) (r : HallRec) : State :=
  let s := if f = 0 then s.seeTables root r.va else s
  (s.hall r).noteBarred (walk s.mem root r.va) f r

end Sys2Proof.Machine
end

