-- ==== Sys2Proof/Machine/Scalar.lean ====
section
/-! DEFINITION. The scalar instructions of majors 0x01 to 0x09, and `sliceof` (R123 to R129). -/

namespace Sys2Proof.Machine

/-! ### Operations on two words -/

/-- x1 to x31 written with a function of two registers. -/
def binary (rd ra rb : XReg) (f : Word → Word → Word) (s : State) : Host.Outcome State Fault Refusal :=
  hartOp 4 s (fun h => h.setX rd (f (h.getX ra) (h.getX rb)))

/-- x1 to x31 written with a function of one register. -/
def unary (rd ra : XReg) (f : Word → Word) (s : State) : Host.Outcome State Fault Refusal :=
  hartOp 4 s (fun h => h.setX rd (f (h.getX ra)))

/-- 1 or 0. -/
def boolWord (b : Bool) : Word := if b then 1 else 0

/-- Leading zero bits of a word (R125). -/
def leadingZeros (a : Word) : Word := if a = 0 then 64 else BitVec.ofNat 64 (63 - Nat.log2 a.toNat)

/-- Trailing zero bits, counted from bit i on. -/
def trailingFrom (a : Word) : Nat → Nat → Nat
  | 0, i => i
  | n + 1, i => if a.getLsbD i then i else trailingFrom a n (i + 1)

/-- Trailing zero bits of a word (R125). -/
def trailingZeros (a : Word) : Word := BitVec.ofNat 64 (trailingFrom a 64 0)

/-- Number of 1 bits of a word (R125). -/
def popCount (a : Word) : Word := BitVec.ofNat 64 (((List.range 64).filter (fun i => a.getLsbD i)).length)

/-- The low n bits, sign-extended. -/
def signExt (n : Nat) (a : Word) : Word := (a.setWidth n).signExtend 64

/-- The low n bits, zero-extended. -/
def zeroExt (n : Nat) (a : Word) : Word := (a.setWidth n).setWidth 64

/-- A 16-bit immediate, sign-extended. -/
def simm (imm : BitVec 16) : Word := imm.signExtend 64

/-- A 16-bit immediate, zero-extended. -/
def zimm (imm : BitVec 16) : Word := imm.setWidth 64

/-- Quotient rounded toward zero, with the fixed results of R127. -/
def divSigned (a b : Word) : Word := if b = 0 then BitVec.allOnes 64 else word (a.toInt.tdiv b.toInt)

/-- Remainder with the sign of a (R127). -/
def remSigned (a b : Word) : Word := if b = 0 then a else word (a.toInt.tmod b.toInt)

/-- Bits 127:64 of a product. -/
def highWord (x : Int) : Word := word (x / (2 ^ 64 : Nat))

/-! ### Register forms, major 0x01 (R125) -/

def execAdd (rd ra rb : XReg) (s : State) := binary rd ra rb (fun a b => a + b) s
def execSub (rd ra rb : XReg) (s : State) := binary rd ra rb (fun a b => a - b) s
def execAnd (rd ra rb : XReg) (s : State) := binary rd ra rb (fun a b => a &&& b) s
def execOr (rd ra rb : XReg) (s : State) := binary rd ra rb (fun a b => a ||| b) s
def execXor (rd ra rb : XReg) (s : State) := binary rd ra rb (fun a b => a ^^^ b) s
def execAndn (rd ra rb : XReg) (s : State) := binary rd ra rb (fun a b => a &&& ~~~b) s
def execSll (rd ra rb : XReg) (s : State) := binary rd ra rb (fun a b => a <<< (b.toNat % 64)) s
def execSrl (rd ra rb : XReg) (s : State) := binary rd ra rb (fun a b => a >>> (b.toNat % 64)) s
def execSra (rd ra rb : XReg) (s : State) := binary rd ra rb (fun a b => a.sshiftRight (b.toNat % 64)) s
def execSlt (rd ra rb : XReg) (s : State) := binary rd ra rb (fun a b => boolWord (a.slt b)) s
def execSltn (rd ra rb : XReg) (s : State) := binary rd ra rb (fun a b => boolWord (a.ult b)) s
def execMin (rd ra rb : XReg) (s : State) := binary rd ra rb (fun a b => if b.slt a then b else a) s
def execMax (rd ra rb : XReg) (s : State) := binary rd ra rb (fun a b => if a.slt b then b else a) s
def execMinn (rd ra rb : XReg) (s : State) := binary rd ra rb (fun a b => if b.ult a then b else a) s
def execMaxn (rd ra rb : XReg) (s : State) := binary rd ra rb (fun a b => if a.ult b then b else a) s
def execClz (rd ra : XReg) (s : State) := unary rd ra (fun a => leadingZeros a) s
def execCtz (rd ra : XReg) (s : State) := unary rd ra (fun a => trailingZeros a) s
def execPopc (rd ra : XReg) (s : State) := unary rd ra (fun a => popCount a) s
def execSxb (rd ra : XReg) (s : State) := unary rd ra (fun a => signExt 8 a) s
def execSxh (rd ra : XReg) (s : State) := unary rd ra (fun a => signExt 16 a) s
def execSxw (rd ra : XReg) (s : State) := unary rd ra (fun a => signExt 32 a) s
def execZxb (rd ra : XReg) (s : State) := unary rd ra (fun a => zeroExt 8 a) s
def execZxh (rd ra : XReg) (s : State) := unary rd ra (fun a => zeroExt 16 a) s
def execZxw (rd ra : XReg) (s : State) := unary rd ra (fun a => zeroExt 32 a) s
def execAdds1 (rd ra rb : XReg) (s : State) := binary rd ra rb (fun a b => a + 2#64 * b) s
def execAdds2 (rd ra rb : XReg) (s : State) := binary rd ra rb (fun a b => a + 4#64 * b) s
def execAdds3 (rd ra rb : XReg) (s : State) := binary rd ra rb (fun a b => a + 8#64 * b) s
def execSlli (rd ra : XReg) (n : BitVec 6) (s : State) := unary rd ra (fun a => a <<< n.toNat) s
def execSrli (rd ra : XReg) (n : BitVec 6) (s : State) := unary rd ra (fun a => a >>> n.toNat) s
def execSrai (rd ra : XReg) (n : BitVec 6) (s : State) := unary rd ra (fun a => a.sshiftRight n.toNat) s

/-- The translation of an address for a hart at its privilege, without its rights (R428): the leaf and its level. It is that of the
page-table stores that have been performed (R282; DESIGN CHOICE, log 68). -/
def State.validLeaf (s : State) (h : Hart) (va : Word) : Option (Nat × Nat) :=
  if !(pathOf va = 0 || pathOf va = 3 || (pathOf va = 7 && h.priv != .u)) then none
  else
    match s.lookup h (pathOf va) (va.toNat % 2 ^ 61) with
    | .leaf e _ level => if h.priv = .u && !pteBit e 61 then none else some (e, level)
    | _ => none

/-- Result of `sliceof` (R128). -/
def State.sliceOf (s : State) (h : Hart) (va : Word) : Word :=
  let path := pathOf va
  if path = 1 ∨ path = 2 ∨ path = 5 ∨ path = 6 then 2 ^ 62
  else
    let v := viewBase va
    match s.validLeaf h v with
    | none => 2 ^ 63
    | some (e, level) =>
      let pa := leafAddr e level (v.toNat % 2 ^ 61)
      BitVec.ofNat 64 ((if isTier2 pa then 2 ^ 10 else 0) + (if pteBit e 51 then 2 ^ 9 else 0) + homeDie pa * 64 +
        homeSlice pa)

def execSliceof (rd ra : XReg) (s : State) := hartOp 4 s (fun h => h.setX rd (s.sliceOf h (h.getX ra)))

/-! ### Immediate forms (R126) -/

def execAddi (rd ra : XReg) (imm : BitVec 16) (s : State) := unary rd ra (fun a => a + simm imm) s
def execAndi (rd ra : XReg) (imm : BitVec 16) (s : State) := unary rd ra (fun a => a &&& zimm imm) s
def execOri (rd ra : XReg) (imm : BitVec 16) (s : State) := unary rd ra (fun a => a ||| zimm imm) s
def execXori (rd ra : XReg) (imm : BitVec 16) (s : State) := unary rd ra (fun a => a ^^^ zimm imm) s
def execSlti (rd ra : XReg) (imm : BitVec 16) (s : State) := unary rd ra (fun a => boolWord (a.slt (simm imm))) s
def execSltni (rd ra : XReg) (imm : BitVec 16) (s : State) := unary rd ra (fun a => boolWord (a.ult (simm imm))) s
def execLih (rd ra : XReg) (imm : BitVec 16) (s : State) := unary rd ra (fun a => a <<< 16 + zimm imm) s

/-! ### Multiply and divide, major 0x09 (R127) -/

def execMul (rd ra rb : XReg) (s : State) := binary rd ra rb (fun a b => a * b) s
def execMulh (rd ra rb : XReg) (s : State) := binary rd ra rb (fun a b => highWord (a.toInt * b.toInt)) s
def execMulhn (rd ra rb : XReg) (s : State) := binary rd ra rb (fun a b => highWord (a.toNat * b.toNat : Nat)) s
def execMulhsn (rd ra rb : XReg) (s : State) := binary rd ra rb (fun a b => highWord (a.toInt * b.toNat)) s
def execDiv (rd ra rb : XReg) (s : State) := binary rd ra rb (fun a b => divSigned a b) s
def execDivn (rd ra rb : XReg) (s : State) := binary rd ra rb (fun a b => if b = 0 then BitVec.allOnes 64 else a / b) s
def execRem (rd ra rb : XReg) (s : State) := binary rd ra rb (fun a b => remSigned a b) s
def execRemn (rd ra rb : XReg) (s : State) := binary rd ra rb (fun a b => if b = 0 then a else a % b) s

end Sys2Proof.Machine
end

