-- ==== Sys2Proof/Machine/Control.lean ====
section
/-! DEFINITION. Branches and jumps (R130 to R132). -/

namespace Sys2Proof.Machine

/-- PC + 4 × Sext(disp). -/
def branchTarget {n : Nat} (pc : Word) (disp : BitVec n) : Word := pc + 4#64 * disp.signExtend 64

/-- A conditional branch. -/
def branch (ra rb : XReg) (disp : BitVec 16) (cond : Word → Word → Bool) (s : State) : Host.Outcome State Fault Refusal :=
  onHart 4 s (fun h => if cond (h.getX ra) (h.getX rb) then .jump s (branchTarget h.pc disp) else .done s)

def execBeq (ra rb : XReg) (disp : BitVec 16) (s : State) := branch ra rb disp (fun a b => a == b) s
def execBne (ra rb : XReg) (disp : BitVec 16) (s : State) := branch ra rb disp (fun a b => a != b) s
def execBlt (ra rb : XReg) (disp : BitVec 16) (s : State) := branch ra rb disp (fun a b => a.slt b) s
def execBge (ra rb : XReg) (disp : BitVec 16) (s : State) := branch ra rb disp (fun a b => !a.slt b) s
def execBltn (ra rb : XReg) (disp : BitVec 16) (s : State) := branch ra rb disp (fun a b => a.ult b) s
def execBgen (ra rb : XReg) (disp : BitVec 16) (s : State) := branch ra rb disp (fun a b => !a.ult b) s

def execJmp (disp : BitVec 26) (s : State) := onHart 4 s (fun h => .jump s (branchTarget h.pc disp))

def execCall (disp : BitVec 26) (s : State) :=
  onHart 4 s (fun h => .jump (s.setHart (h.setX 1 (h.pc + 4))) (branchTarget h.pc disp))

def execJmpl (rd ra : XReg) (imm : BitVec 16) (s : State) :=
  onHart 4 s (fun h => .jump (s.setHart (h.setX rd (h.pc + 4))) ((h.getX ra + simm imm) &&& ~~~3))

end Sys2Proof.Machine
end

