-- ==== Sys2Proof/Machine/Engines.lean ====
section
/-! DEFINITION. The engine commands after their issue (R246 to R252, R341, R342, R406, R415, R418, R419): their transfers, their
counters, how they end, and the interlock with the accesses of other streams (R247, R291). A command's bytes are done
in ascending order (DESIGN CHOICE, log 2). -/

namespace Sys2Proof.Machine

/-! ### Commands -/

/-- A command. -/
def State.engine? (s : State) (id : Nat) : Option EngineCmd := s.engines.find? (fun c => c.id == id)

/-- A command replaced. -/
def State.setEngine (s : State) (c : EngineCmd) : State :=
  { s with engines := s.engines.map (fun d => if d.id == c.id then c else d) }

/-- Two commands of one hart. -/
def EngineCmd.sameHart (c d : EngineCmd) : Bool := c.launch == d.launch && c.gang == d.gang && c.idx == d.idx

/-- A list of ranges meets [loc, loc + n), by gallery words where they lie in a gallery (R301). -/
def meets (rs : List (Nat × Nat)) (loc n : Nat) : Bool := rs.any (fun r => keepOrder r.1 r.2 loc n)


/-- Two lists of ranges meet. -/
def rangesMeet (a b : List (Nat × Nat)) : Bool := b.any (fun r => meets a r.1 r.2)

/-- KIND of R252. -/
def EngineCmd.kind (c : EngineCmd) : Nat :=
  match c.work with
  | .copy _ _ _ => 1
  | .collective k _ _ _ => k
  | .update adamw _ _ => if adamw then 7 else 6

/-- CL of R252. -/
def EngineCmd.cl (c : EngineCmd) : Nat := max 16 (if c.total ≤ 256 then 0 else Nat.log2 ((c.total + 255) / 256 - 1) + 1)

/-- Number of chunks (R252). -/
def EngineCmd.chunks (c : EngineCmd) : Nat := max 1 ((c.total + 2 ^ c.cl - 1) / 2 ^ c.cl)

/-- A field of n bytes of a descriptor. -/
def descField (desc : List Byte) (off n : Nat) : Nat := leNat ((desc.drop off).take n)

/-- Group of a collective command. -/
def EngineCmd.group? (c : EngineCmd) : Option Nat :=
  match c.work with
  | .collective _ desc _ _ => some (descField desc 0x16 2)
  | _ => none

/-- A collective of the same group that stands where this one does: both have started, or neither has. A die has one command of a group at
a time (R342), so these are the members of one collective. -/
def EngineCmd.fellow (c d : EngineCmd) : Bool := d.group? == c.group? && d.id != c.id && d.remote.isSome == c.remote.isSome

/-- The hart's address space as an engine uses it. -/
def EngineCmd.space (c : EngineCmd) : Hart :=
  { Hart.blank with hid := c.core, priv := c.priv, csr := SMap.set (SMap.set [] 0xd10 c.pgroot) 0xd11 c.spgroot }

/-! ### Transfers -/

/-- Where an engine access lands (R204, R205, R248); a fault answers F of R395. -/
def State.enginePlace (s : State) (c : EngineCmd) (u : Use) (va : Word) (n : Nat) : Except Nat (State × Nat) :=
  let path := pathOf va
  let v := va.toNat % 2 ^ 61
  if !u.admits path (c.priv != .u) then .error 3
  else if path = 1 then
    if v + n ≤ c.galSize then .ok (s, galleryLoc c.core (c.galBase + v)) else .error 3
  else if path = 2 then
    let q := 8 * bits v 27 22 + c.core % 8
    match s.gangAt q (bits v 29 28) with
    | none => .error 3
    | some g =>
      if v / 2 ^ 30 = 0 ∧ bits v 21 21 = 0 ∧ g.launch = c.launch ∧ v % 2 ^ 21 + n ≤ g.galSize then
        .ok (s, galleryLoc q (g.galBase + v % 2 ^ 21))
      else .error 3
  else s.translate c.space u.access va false n

/-- The hart of a command, if it is resident; otherwise a number that no hart has. -/
def EngineCmd.owner (c : EngineCmd) : Nat := c.hid.getD (2 ^ 32)

/-- Outstanding stores that an engine access to [loc, loc + n) meets: the hart's older vector stores are performed, those
of other streams as the free choice says (R214, R290). -/
def State.engineSees (s : State) (c : EngineCmd) (loc n : Nat) : State :=
  (s.settle c.owner true loc n).performAll c.owner (fun x => x.vec && overlaps loc n x.loc x.bytes.length)

/-- n bytes fetched by an engine, and whether a poisoned unit lies among them. -/
def State.engineFetch (s : State) (c : EngineCmd) (va : Word) (n : Nat) : Except Nat (State × List Byte × Bool) :=
  match s.enginePlace c .engineRead va n with
  | .error f => .error f
  | .ok (s, loc) =>
    if pathOf va = 3 then
      let stamp := ((s.launchAt c.launch).map (fun l => l.stamp)).getD 0
      .ok (s, (List.range n).map (fun i => s.constByte stamp (loc + i)), poisoned s.poison loc n)
    else
      let s := s.engineSees c loc n
      .ok (s, peek s.mem loc n, poisoned s.poison loc n)

/-- n bytes read by an engine (R403). -/
def State.engineRead (s : State) (c : EngineCmd) (va : Word) (n : Nat) : Except Nat (State × List Byte) :=
  match s.engineFetch c va n with
  | .error f => .error f
  | .ok (s, bs, bad) => if bad then .error 5 else .ok (s, bs)

/-- n bytes written by an engine, after `back` of the command that lie below them; poison that travels with them marks the unit that they
lie in, and the unit that they complete is clear of poison (R403). -/
def State.engineWrite (s : State) (c : EngineCmd) (va : Word) (bs : List Byte) (back : Nat) (bad : Bool := false) : Except Nat State :=
  match s.enginePlace c .engineWrite va bs.length with
  | .error f => .error f
  | .ok (s, loc) =>
    let s := (s.engineSees c loc bs.length).poke loc bs
    let s := if loc % 32 ≤ back then { s with poison := clearPoison s.poison (loc / 32 * 32) (loc % 32 + bs.length) } else s
    .ok (if bad && !poisoned s.poison loc 1 then { s with poison := (loc / 32, none) :: s.poison } else s)

/-- `amadd.d` of 1 by an engine (R247, R251). -/
def State.engineAdd (s : State) (c : EngineCmd) (va : Word) : Except Nat State :=
  if (Use.atomic).admits (pathOf va) (c.priv != .u) && decide (va.toNat % 8 ≠ 0) then .error 4
  else
    match s.enginePlace c .atomic va 8 with
    | .error f => .error f
    | .ok (s, loc) =>
      if poisoned s.poison loc 8 then .error 5
      else
        let s := s.engineSees c loc 8
        .ok (s.poke loc (leBytes 8 (peekNat s.mem loc 8 + 1)))

/-- Flat ranges of n bytes from an address, page by page; pages without a valid translation are left out. -/
def State.segments (s : State) (c : EngineCmd) (u : Use) (va : Word) (n : Nat) : List (Nat × Nat) :=
  let first := va.toNat / 65536
  let pages := if n = 0 then 0 else (va.toNat % 65536 + n - 1) / 65536 + 1
  (List.range pages).filterMap (fun i =>
    let a := if i = 0 then va.toNat else (first + i) * 65536
    let e := min (va.toNat + n) ((first + i + 1) * 65536)
    match s.enginePlace c u (BitVec.ofNat 64 a) 1 with
    | .ok (_, loc) => some (loc, e - a)
    | .error _ => none)

/-- The pieces of a range, one to a page, that have no valid translation. -/
def State.unplaced (s : State) (c : EngineCmd) (u : Use) (va : Word) (n : Nat) : List (Word × Nat) :=
  let first := va.toNat / 65536
  let pages := if n = 0 then 0 else (va.toNat % 65536 + n - 1) / 65536 + 1
  (List.range pages).filterMap (fun i =>
    let a := if i = 0 then va.toNat else (first + i) * 65536
    let e := min (va.toNat + n) ((first + i + 1) * 65536)
    match s.enginePlace c u (BitVec.ofNat 64 a) 1 with
    | .ok _ => none
    | .error _ => some (BitVec.ofNat 64 a, e - a))

/-- What a command's pieces without a translation at its issue name by now, those that it writes or those that it reads (R291). -/
def State.mappedSince (s : State) (c : EngineCmd) (write : Bool) : List (Nat × Nat) :=
  (c.unmapped.filter (fun r => r.1 == write)).flatMap (fun r => s.segments c (if write then .engineWrite else .engineRead) r.2.1 r.2.2)

/-- The interlock entries of a command: the ranges that it writes, and those that it reads (R291). -/
def State.writesOf (s : State) (c : EngineCmd) : List (Nat × Nat) := c.writes ++ s.mappedSince c true
def State.readsOf (s : State) (c : EngineCmd) : List (Nat × Nat) := c.reads ++ s.mappedSince c false

/-- A command must wait for an older one of its hart (R214, R291). -/
def State.follows (s : State) (c d : EngineCmd) : Bool :=
  c.sameHart d && decide (d.id < c.id) &&
    (rangesMeet (s.writesOf d) (s.writesOf c) || rangesMeet (s.readsOf d) (s.writesOf c) || rangesMeet (s.writesOf d) (s.readsOf c))

/-! ### Arithmetic of the update engine (R250) -/

/-- An exact product times a third factor. -/
def Prod.times (p : Prod) (c : FV) : Prod :=
  match p with
  | .invalid => .invalid
  | .nan s => .nan (s || c.sig != 0)
  | .inf n => fProd (.inf n) c
  | .fin x => fProd (.fin x) c

/-- An exact product as a value; the invalid product is a NaN. -/
def Prod.value : Prod → FV
  | .nan s => .nan s
  | .invalid => .nan false
  | .inf n => .inf n
  | .fin x => .fin x

/-- The exact sum of two values. -/
def FV.plus (a b : FV) : FV :=
  match a, b with
  | .fin x, .fin y => .fin (x.add y 0)
  | .inf x, .inf y => if x = y then .inf x else .nan false
  | .inf x, .fin _ => .inf x
  | .fin _, .inf y => .inf y
  | _, _ => .nan false

/-- a × b, exact. -/
def FV.mulEx (a b : FV) : FV := (fProd a b).value

/-- A value rounded to f32 with rne. -/
def FV.toF32 (v : FV) : Nat := (v.convert f32 0).1

/-- Parameter Pj of a descriptor. -/
def descParam (desc : List Byte) (j : Nat) : FV := f32.decode (descField desc (0x40 + 4 * j) 4)

/-- New M and W of `upd.sgdm`. -/
def sgdmStep (desc : List Byte) (g : FV) (m w : Nat) : Nat × Nat :=
  let m' := (((descParam desc 0).mulEx (f32.decode m)).plus g).toF32
  (m', ((f32.decode w).plus ((descParam desc 1).mulEx (f32.decode m')).negate).toF32)

/-- New M, V and W of `upd.adamw`. -/
def adamwStep (desc : List Byte) (g : FV) (m v w : Nat) : Nat × Nat × Nat :=
  let p := descParam desc
  let m' := (((p 0).mulEx (f32.decode m)).plus ((p 1).mulEx g)).toF32
  let v' := (((p 2).mulEx (f32.decode v)).plus (((fProd (p 3) g).times g).value)).toF32
  let q := (fSqrt f32 0 ((p 4).mulEx (f32.decode v'))).1
  let r := (fDiv f32 0 (f32.decode m') ((f32.decode q).plus (p 5))).1
  let w' := (((f32.decode w).plus ((p 6).mulEx (f32.decode r)).negate).plus
    ((p 7).mulEx (f32.decode w)).negate).toF32
  (m', v', w')

/-! ### One unit of work -/

/-- Address of byte n past a descriptor's address field. -/
def descAddr (desc : List Byte) (off n : Nat) : Word := BitVec.ofNat 64 (descField desc off 8 + n)

/-- How many of n bytes from an address lie in its page. -/
def inPage (va : Word) (n : Nat) : Nat := min n (65536 - va.toNat % 65536)

/-- A word of n bytes read by an engine at any address, each byte by the translation of its page (R248); a fault answers F and the address
of the bytes that met it. Buffers need no alignment (DESIGN CHOICE, log 74). -/
def State.engineWord (s : State) (c : EngineCmd) (va : Word) (n : Nat := 4) : Except (Nat × Word) (State × Nat) :=
  let m := inPage va n
  let next := va + BitVec.ofNat 64 m
  match s.engineRead c va m with
  | .error f => .error (f, va)
  | .ok (s, bs) =>
    if m = n then .ok (s, leNat bs)
    else
      match s.engineRead c next (n - m) with
      | .error f => .error (f, next)
      | .ok (s, bs2) => .ok (s, leNat (bs ++ bs2))

/-- Word i of a buffer written by an engine that has written those before it, at any address. -/
def State.enginePut (s : State) (c : EngineCmd) (va : Word) (i v : Nat) (n : Nat := 4) : Except (Nat × Word) State :=
  let m := inPage va n
  let next := va + BitVec.ofNat 64 m
  match s.engineWrite c va ((leBytes n v).take m) (n * i) with
  | .error f => .error (f, va)
  | .ok t =>
    if m = n then .ok t
    else
      match t.engineWrite c next ((leBytes n v).drop m) (n * i + m) with
      | .error f => .error (f, next)
      | .ok s => .ok s

/-- The byte that an engine finds where it writes half of one: no read of the buffer, so that it needs WR alone (R396). -/
def State.engineOld (s : State) (c : EngineCmd) (va : Word) : Except (Nat × Word) (State × Nat) :=
  match s.enginePlace c .engineWrite va 1 with
  | .error f => .error (f, va)
  | .ok (s, loc) =>
    let s := s.engineSees c loc 1
    .ok (s, peekNat s.mem loc 1)

/-- Element i of an update: the new W written to W and, where it is wanted, to W16. -/
def State.putWeights (s : State) (c : EngineCmd) (desc : List Byte) (i w : Nat) : Except (Nat × Word) State :=
  match s.enginePut c (descAddr desc 0 (4 * i)) i w with
  | .error e => .error e
  | .ok s =>
    if descField desc 0x20 8 = 0 then .ok s
    else s.enginePut c (descAddr desc 0x20 (2 * i)) i ((f32.decode w).convert bf16 0).1 2

/-- Element i of an update command (R250): what it reads of the element it reads before it writes any, also where W, M, V and W16 share
bytes (DESIGN CHOICE, log 65). -/
def State.updateStep (s : State) (c : EngineCmd) (adamw : Bool) (desc : List Byte) (i : Nat) :
    Except (Nat × Word) State :=
  let gt := descField desc 0x2c 1
  match s.engineWord c (descAddr desc 8 (tyWidth gt / 8 * i)) (tyWidth gt / 8) with
  | .error e => .error e
  | .ok (s, gb) =>
    let g := (fmtOf gt).decode gb
    match s.engineWord c (descAddr desc 0x10 (4 * i)) with
    | .error e => .error e
    | .ok (s, m) =>
      match s.engineWord c (descAddr desc 0 (4 * i)) with
      | .error e => .error e
      | .ok (s, w) =>
        if adamw then
          match s.engineWord c (descAddr desc 0x18 (4 * i)) with
          | .error e => .error e
          | .ok (s, v) =>
            let r := adamwStep desc g m v w
            match s.enginePut c (descAddr desc 0x10 (4 * i)) i r.1 with
            | .error e => .error e
            | .ok s =>
              match s.enginePut c (descAddr desc 0x18 (4 * i)) i r.2.1 with
              | .error e => .error e
              | .ok s => s.putWeights c desc i r.2.2
        else
          let r := sgdmStep desc g m w
          match s.enginePut c (descAddr desc 0x10 (4 * i)) i r.1 with
          | .error e => .error e
          | .ok s => s.putWeights c desc i r.2

/-- TYPE and COUNT of a collective descriptor. -/
def collTy (desc : List Byte) : Nat := descField desc 0x14 1
def collCount (desc : List Byte) : Nat := descField desc 0x10 4

/-- Element e of the block that rank q has contributed to the member of rank k; none where it has not come. -/
def contributed (kind k : Nat) (parts : List (Nat × Nat × List Nat)) (q e : Nat) : Option Nat :=
  match find parts q with
  | none => none
  | some (got, els) => if e < got then els[(if kind = 3 ∨ kind = 5 then k else 0) * got + e]? else none

/-- Element i of a member's result (R249): OP 0 add, 1 min, 2 max. The tree's nodes are rounded to TYPE (DESIGN CHOICE, log 64); a NaN is the
canonical one, in a group of one member too (R85). -/
def collElement (kind k size : Nat) (desc : List Byte) (parts : List (Nat × Nat × List Nat)) (i : Nat) : Nat :=
  if kind ≤ 3 then
    let op := match descField desc 0x15 1 with
      | 0 => 0
      | 1 => 2
      | _ => 1
    let v := (reduce (collTy desc) op 0 ((List.range size).map (fun q => (contributed kind k parts q i).map (fun v => (v, 0))))).1
    if tyFloat (collTy desc) && ((fmtOf (collTy desc)).decode v).isNaN then (fmtOf (collTy desc)).canon else v
  else (contributed kind k parts (i / collCount desc) (i % collCount desc)).getD 0

/-- Elements of a collective's result. -/
def collElements (kind size : Nat) (desc : List Byte) : Nat := if kind ≤ 3 then collCount desc else size * collCount desc

/-- The unit of a collective at byte b of DST: one element, or two of i4. SRC and DST need no alignment (DESIGN CHOICE, log 74). -/
def State.collStep (s : State) (c : EngineCmd) (kind k size : Nat) (desc : List Byte)
    (parts : List (Nat × Nat × List Nat)) (b : Nat) : Except (Nat × Word) (State × Nat) :=
  let va := descAddr desc 8 b
  let w := tyWidth (collTy desc)
  if w = 4 then
    let lo := collElement kind k size desc parts (2 * b)
    match (if 2 * b + 1 < collElements kind size desc then
        (.ok (s, collElement kind k size desc parts (2 * b + 1)) : Except (Nat × Word) (State × Nat))
      else match s.engineOld c va with
        | .error e => .error e
        | .ok (s, old) => .ok (s, old / 16)) with
    | .error e => .error e
    | .ok (s, hi) => (s.enginePut c va b (hi * 16 + lo % 16) 1).map (fun s => (s, 1))
  else
    (s.enginePut c va (b / (w / 8)) (collElement kind k size desc parts (b / (w / 8))) (w / 8)).map (fun s => (s, w / 8))

/-- A piece of a copy: up to `m` bytes that lie in one page of either range (R248). Poison travels into a gallery and ends a copy
to memory; the unit that it has come into is not clear of it when the rest is written (R403). -/
def State.copyStep (s : State) (c : EngineCmd) (dst src : Word) (m : Nat) : Except (Nat × Word) (State × Nat) :=
  let m := min m (min (65536 - dst.toNat % 65536) (65536 - src.toNat % 65536))
  let m := if s.poison.isEmpty then m else min m (min (32 - dst.toNat % 32) (32 - src.toNat % 32))
  match s.engineFetch c src m with
  | .error f => .error (f, src)
  | .ok (s, bs, bad) =>
    if bad && !(pathOf dst = 1 || pathOf dst = 2) then .error (5, src)
    else
      match s.engineWrite c dst bs (c.next - c.tainted) bad with
      | .error f => .error (f, dst)
      | .ok s => .ok (if bad then s.setEngine { c with tainted := c.next + m } else s, m)

/-- The next unit of a command, at most `m` bytes of a copy; it answers how many bytes of L it has done. -/
def State.engineUnit (s : State) (c : EngineCmd) (m : Nat) : Except (Nat × Word) (State × Nat) :=
  match c.work with
  | .copy dst src _ => s.copyStep c (dst + BitVec.ofNat 64 c.next) (src + BitVec.ofNat 64 c.next) m
  | .collective kind desc k size => s.collStep c kind k size desc (c.remote.getD []) c.next
  | .update adamw desc _ => (s.updateStep c adamw desc (c.next / 4)).map (fun s => (s, 4))

/-! ### How a command ends (R252, R406, R415, R418, R419) -/

/-- How many leading elements of each block every rank has contributed. -/
def EngineCmd.allContributed (c : EngineCmd) : Nat :=
  match c.work with
  | .collective _ desc _ size =>
    (List.range size).foldl (fun m q => min m (((find (c.remote.getD []) q).map (·.1)).getD 0)) (collCount desc)
  | _ => 0

/-- Bytes of L that hold their final value: those done, and of a reduce-scatter with a rank missing, those to which
every rank has contributed. -/
def EngineCmd.final (c : EngineCmd) : Nat :=
  match c.work with
  | .collective 3 desc _ _ =>
    if !c.missing.isEmpty then min c.next (c.allContributed * (tyWidth (collTy desc) / 8)) else c.next
  | _ => c.next

/-- The engine entry of a command (R252): STATUS 2 FAULTED, 3 ABORTED, 4 INCOMPLETE. -/
def EngineCmd.entryBytes (c : EngineCmd) (status : Nat) : List Byte :=
  let done := ((List.range c.chunks).map (fun j =>
    if min c.total ((j + 1) * 2 ^ c.cl) ≤ c.final then 2 ^ j else 0)).sum
  leBytes 8 c.pc.toNat ++ leBytes 4 c.gang ++ leBytes 1 c.idx ++ leBytes 1 c.kind ++ leBytes 1 status ++ leBytes 1 c.cl ++
    leBytes 2 c.chunks ++ List.replicate 14 0 ++ leBytes 32 done

/-- A command gone, with its engine entry unless it is done (status 0), and its launch complete if it was the last
thing to run (R57, R415); a collective of its hart that has waited for it may start (R291). -/
def State.endEngine (s : State) (c : EngineCmd) (status : Nat) : State :=
  let s := { s with engines := s.engines.filter (fun d => d.id != c.id) }
  let s := if status = 0 then s
    else s.updLaunch c.launch (fun l =>
      if l.engEntries.length < 31 then { l with engEntries := l.engEntries ++ [c.entryBytes status] } else l)
  let waiting := s.engines.filter (fun d => c.sameHart d && d.remote.isNone)
  let s := s.post (waiting.filterMap (fun d => d.group?.map (fun g => .collectiveStart g [])))
  if s.launchDone c.launch then s.post [.launchComplete c.launch] else s

/-- A fault kept for the next covering fence of the command's hart, resident or held (R406). -/
def State.owe (s : State) (c : EngineCmd) (f : EngineFault) : State :=
  match c.hid with
  | some hid => s.updHartAt hid (fun h => { h with engineFaults := h.engineFaults ++ [f] })
  | none => s.updLaunch c.launch (fun l => { l with held := l.held.map (fun g =>
      if g.index == c.gang then { g with harts := g.harts.map (fun h =>
        if h.idx == c.idx then { h with engineFaults := h.engineFaults ++ [f] } else h) } else g) })

/-- A command that a token has reached ends ABORTED (R418). -/
def State.endAborted (s : State) (c : EngineCmd) : State := (s.endEngine c 3).owe c { code := 0x5010, tva := 0 }

/-- Abort tokens on their way to commands of a group, each to the die of its command (R418). -/
def State.sendTokens (s : State) (g : Nat) (ds : List EngineCmd) : State :=
  ({ s with tokens := s.tokens ++ ds.map (fun d => (g, d.core % 8, d.id)) } : State).post (ds.map (fun d => .abortToken g (d.core % 8)))

/-- The other members of a collective on this module after one has dropped out (R419): a reduce-scatter goes on without
it, the others end ABORTED as a token makes them; each posts a kind-0x12 record. -/
def State.dropOut (s : State) (c : EngineCmd) : State :=
  match c.work with
  | .collective kind _ rank _ =>
    (s.engines.filter c.fellow).foldl (fun s d =>
      let s := s.hall { kind := 0x12, ctx := d.space.ctx, count := rank }
      if kind = 3 then
        match s.engine? d.id with
        | none => s
        | some d => s.setEngine { d with missing := d.missing ++ [rank] }
      else match d.group? with
        | none => s
        | some g => s.sendTokens g [d]) s
  | _ => s

/-- The chunk in which a fault has met a command: the one that it had come to; of a collective that cannot read its source at an address
(`src`), the chunk of its block that the address lies in, since that is what is read before anything is done (DEDUCED, log 57). -/
def EngineCmd.chunkAt (c : EngineCmd) (src : Option Word) : Nat :=
  let n := match c.work, src with
    | .collective kind desc _ _, some va =>
      let o := (va - descAddr desc 0 0).toNat
      let block := max 1 ((collCount desc * tyWidth (collTy desc) + 7) / 8)
      if kind = 3 ∨ kind = 5 then o % block else o
    | _, _ => c.next
  min (n / 2 ^ c.cl) (c.chunks - 1)

/-- A command ended FAULTED (R406, R402), or ABORTED where a token has reached it (R418). -/
def State.faultEngine (s : State) (c : EngineCmd) (k f : Nat) (va : Word) (src : Option Word := none) : State :=
  let code := 0x3000 + 0x10 * k + f
  if c.token then s.endAborted c
  else
    let s := ((if f = 0 then s.sawTables c.space va else s).endEngine c 2).owe c { code, tva := va }
    let r : HallRec := { kind := 4, ctx := c.space.ctx, va := va.toNat, code, pc := c.pc.toNat, count := c.chunkAt src }
    let met := match s.lookAt c.space va with
      | .leaf _ _ _ => s.lookAt c.space va true
      | w => w
    let s := (s.hall r).noteBarred met f r
    s.dropOut c

/-! ### Progress -/

/-- The skip word read (R251), as the command's first act; where it is not zero the command has nothing to write. Its address needs no
alignment (DESIGN CHOICE, log 74). -/
def State.readSkip (s : State) (c : EngineCmd) : Except (Nat × Word) (State × EngineCmd) :=
  match c.work, c.skip with
  | .update _ desc _, none =>
    if descField desc 0x30 8 = 0 then .ok (s, { c with skip := some false })
    else
      match s.engineWord c (descAddr desc 0x30 0) 8 with
      | .error e => .error e
      | .ok (s, v) => .ok (s, if v = 0 then { c with skip := some false } else { c with skip := some true, next := c.total })
  | _, _ => .ok (s, c)

/-- Units of a command until `upto` bytes are done, at most n of them. -/
def State.transfer (id upto : Nat) : Nat → State → State
  | 0, s => s
  | n + 1, s =>
    match s.engine? id with
    | none => s
    | some c =>
      if upto ≤ c.next then s
      else
        match s.engineUnit c (upto - c.next) with
        | .error (f, va) => s.faultEngine c 5 f va
        | .ok (s, m) => State.transfer id upto n (match s.engine? id with
          | none => s
          | some c => s.setEngine { c with next := min c.total (c.next + m) })

/-- It can move data: a collective has started (R249). -/
def EngineCmd.startable (c : EngineCmd) : Bool := c.group?.isNone || c.remote.isSome

/-- A command run until `upto` bytes are done, after the older commands of its hart whose ranges it meets; `n` bounds the
depth of that order. -/
def State.advance : Nat → Nat → Nat → State → State
  | 0, _, _, s => s
  | n + 1, id, upto, s =>
    match s.engine? id with
    | none => s
    | some c =>
      let olds := s.engines.filter (fun d => s.follows c d)
      let s := olds.foldl (fun s d => State.advance n d.id d.total s) s
      if !c.startable || olds.any (fun d => match s.engine? d.id with
          | none => false
          | some d => decide (d.next < d.total) || !d.startable) then s
      else
        match s.readSkip c with
        | .error (f, va) => s.faultEngine c 5 f va
        | .ok (s, c) => State.transfer id upto (upto - c.next) (s.setEngine c)

/-- All of a command's bytes done, as far as it can run. -/
def State.advanceAll (s : State) (id : Nat) : State :=
  match s.engine? id with
  | none => s
  | some c => s.advance (s.engines.length + 1) id c.total

/-- A command's chunks in flight when it stops transferred: how many it had begun is free, but one of which a part is done had begun, and
none while an older command that it waits for runs (R291, R414, R418; DESIGN CHOICE, log 24). It answers whether that was all. -/
def State.lastChunks (s : State) (c : EngineCmd) : State × Bool :=
  let k := Config.chunksBegun s.tick % (c.chunks + 2)
  if s.engines.any (fun d => s.follows c d && (decide (d.next < d.total) || !d.startable)) then (s, false)
  else (s.advance (s.engines.length + 1) c.id (min c.total (max (k * 2 ^ c.cl) (ceilTo (2 ^ c.cl) c.next))), decide (k = c.chunks + 1))

/-- A token reaches a command: its chunks in flight complete, those of one that a kill has stopped before, and it ends ABORTED (R414,
R418). -/
def State.abortEngine (s : State) (c : EngineCmd) : State :=
  let s := if c.token then s else ((s.setEngine { c with token := true }).lastChunks c).1
  match s.engine? c.id with
  | none => s
  | some c => s.endAborted c

/-- The word of a weight version that the command steps when it is done (R251). -/
def EngineCmd.version (c : EngineCmd) : Option Word :=
  match c.work, c.skip with
  | .update _ _ (some va), some false => some va
  | _, _ => none

/-- The command ends with an `amadd.d` that releases (R247, R251). -/
def EngineCmd.releases (c : EngineCmd) : Bool :=
  c.ctr != 0 || (match c.work with
    | .update _ _ (some _) => c.skip != some true
    | _ => false)

/-- A fence or release of a hart over its vector stores: the stores that its stair will make of bytes pushed before it come
before it as well (R199). -/
def State.markFence (s : State) (hid : Nat) : State :=
  s.updHartAt hid (fun h => { h with stair := { h.stair with fenced := h.getCsr 0xc32 } })

/-- The end of a command whose transfers are done: the version step of R251, then the counter of R247; a fault of either leaves both as
they were (R406). A reduce-scatter without one of its ranks ends INCOMPLETE (R419). -/
def State.closeEngine (s : State) (c : EngineCmd) : State :=
  if !c.missing.isEmpty then
    (s.endEngine c 4).owe c { code := 0x5011, tva := 0 }
  else
    let s := match c.hid with
      | some hid => if c.releases then (s.drain hid).markFence hid else s
      | none => s
    let step : Except (Nat × Word) State := match c.version with
      | some va =>
        match s.engineAdd c va with
        | .error f => .error (f, va)
        | .ok s => .ok s
      | none => .ok s
    match step with
    | .error (f, va) => s.faultEngine c 3 f va
    | .ok t =>
      if c.ctr = 0 then t.endEngine c 0
      else
        match t.engineAdd c c.ctr with
        | .error f => s.faultEngine c 5 f c.ctr
        | .ok t => t.endEngine c 0

/-- A command complete, as far as it can run: after the older commands of its hart when it releases them (R227, R247). -/
def State.complete : Nat → Nat → State → State
  | 0, _, s => s
  | n + 1, id, s =>
    match s.engine? id with
    | none => s
    | some c =>
      let olds := if c.releases then s.engines.filter (fun d => c.sameHart d && decide (d.id < c.id)) else []
      let s := (olds.foldl (fun s d => State.complete n d.id s) s).advanceAll id
      match s.engine? id with
      | none => s
      | some c =>
        if c.next < c.total || !c.startable || olds.any (fun d => (s.engine? d.id).isSome) then s else s.closeEngine c

/-- One command complete, if it can. -/
def State.completeEngine (s : State) (id : Nat) : State := State.complete (s.engines.length + 1) id s

/-- A hart's commands. -/
def State.enginesOf (s : State) (hid : Nat) : List EngineCmd := s.engines.filter (fun c => c.hid == some hid)

/-- A hart's commands complete, as far as they can run (R238). -/
def State.completeAll (s : State) (hid : Nat) : State :=
  (s.enginesOf hid).foldl (fun s c => s.completeEngine c.id) s

/-! ### Collectives (R249, R342) -/

/-- Elements of TYPE `ty` from element i of a buffer on, n of them, as far as they can be read. -/
def State.readRun (c : EngineCmd) (va : Word) (ty : Nat) : Nat → Nat → State → State × List Nat × Option (Nat × Word)
  | 0, _, s => (s, [], none)
  | n + 1, i, s =>
    let w := tyWidth ty
    match s.engineWord c (va + BitVec.ofNat 64 (i * w / 8)) ((w + 7) / 8) with
    | .error e => (s, [], some e)
    | .ok (s, v) =>
      let r := State.readRun c va ty n (i + 1) s
      (r.1, v / 2 ^ (i * w % 8) % 2 ^ w :: r.2.1, r.2.2)

/-- What a member contributes: its blocks read until a fault; of each, the whole chunks that have come. -/
def State.contribution (s : State) (c : EngineCmd) (kind : Nat) (desc : List Byte) (size : Nat) :
    State × (Nat × List Nat) × Option (Nat × Word) :=
  let n := collCount desc
  let blocks := if kind = 3 ∨ kind = 5 then size else 1
  let r := (List.range blocks).foldl (fun (a : State × List (List Nat) × Option (Nat × Word)) j =>
    let x := State.readRun c (descAddr desc 0 0) (collTy desc) n (j * n) a.1
    (x.1, a.2.1 ++ [x.2.1], a.2.2.orElse (fun _ => x.2.2))) (s, [], none)
  let got := r.2.1.foldl (fun m l => min m l.length) n
  let unit := 2 ^ c.cl * 8 / tyWidth (collTy desc)
  let got := if got < n then got / unit * unit else n
  (r.1, (got, (r.2.1.map (fun l => l.take got)).flatten), r.2.2)

/-- A group's size, base rank and members on this module (R341). -/
def State.groupSize (s : State) (g : Nat) : Nat := bits (s.getMgmt (0x220000 + 16 * g)).toNat 59 48 + 1
def State.groupBase (s : State) (g : Nat) : Nat := bits (s.getMgmt (0x220000 + 16 * g)).toNat 47 36
def State.groupDies (s : State) (g : Nat) : List Nat :=
  (List.range 8).filter (fun d => pteBit (s.getMgmt (0x220000 + 16 * g)).toNat (24 + d))

/-- The running commands of a group, if every member on this module has issued the same one. -/
def State.groupReady (s : State) (g : Nat) : Option (List EngineCmd) :=
  let cs := s.engines.filter (fun c => c.group? == some g && c.remote.isNone)
  match cs with
  | [] => none
  | c :: _ => if (s.groupDies g).all (fun d => cs.any (fun e => e.core % 8 == d && e.kind == c.kind)) then some cs else none

/-- Data of ranks on other modules as contributions to a command: bytes in the order of their blocks. -/
def outside (kind : Nat) (desc : List Byte) (size : Nat) (remote : List (Nat × List Byte)) : List (Nat × Nat × List Nat) :=
  let w := tyWidth (collTy desc)
  let blocks := if kind = 3 ∨ kind = 5 then size else 1
  remote.map (fun r =>
    let n := r.2.length * 8 / w
    (r.1, n / blocks, (List.range n).map (fun i => leNat ((r.2.drop (i * w / 8)).take ((w + 7) / 8)) / 2 ^ (i * w % 8) % 2 ^ w)))

/-- What the members on this module contribute, by rank, and the faults that their reads meet. -/
def State.gather (s : State) (cs : List EngineCmd) :
    State × List (Nat × Nat × List Nat) × List (EngineCmd × Nat × Word) :=
  cs.foldl (fun (a : State × List (Nat × Nat × List Nat) × List (EngineCmd × Nat × Word)) c =>
    match c.work with
    | .collective kind desc k size =>
      let x := a.1.contribution c kind desc size
      (x.1, a.2.1 ++ [(k, x.2.1)], a.2.2 ++ (x.2.2.toList.map (fun f => (c, f))))
    | _ => a) (s, [], [])

/-- A command given what the ranks have contributed. -/
def EngineCmd.begun (c : EngineCmd) (parts : List (Nat × Nat × List Nat)) (remote : List (Nat × List Byte)) : EngineCmd :=
  match c.work with
  | .collective kind desc _ size => { c with remote := some (parts ++ outside kind desc size remote) }
  | _ => c

/-- The ranks of other modules that have not contributed all to a command. -/
def EngineCmd.short (c : EngineCmd) (remote : List (Nat × List Byte)) : List Nat :=
  match c.work with
  | .collective kind desc _ size =>
    ((outside kind desc size remote).filter (fun r => decide (r.2.1 < collCount desc))).map (fun r => r.1)
  | _ => []

/-- Ranks that have dropped out are missing to a command from now on: it posts a record of each, and ends unless it is a reduce-scatter
(R419). -/
def State.lackRanks (s : State) (c : EngineCmd) (rs : List Nat) : State :=
  let rs := rs.filter (fun r => !c.missing.contains r)
  let c := { c with missing := c.missing ++ rs }
  let s := rs.foldl (fun s r => s.hall { kind := 0x12, ctx := c.space.ctx, count := r }) (s.setEngine c)
  if rs.isEmpty || c.kind = 3 then s else s.abortEngine c

/-- Every rank on another module is listed. -/
def State.remoteCome (s : State) (g : Nat) (remote : List (Nat × List Byte)) : Bool :=
  let base := s.groupBase g
  (List.range (s.groupSize g)).all (fun q =>
    (decide (base ≤ q) && decide (q < base + (s.groupDies g).length)) || (find remote q).isSome)

/-- The older commands of a collective's hart that write what it contributes: they come first (R214, R291). It answers whether they have
done so. -/
def State.sourceReady (s : State) (c : EngineCmd) : State × Bool :=
  let olds := s.engines.filter (fun d => c.sameHart d && decide (d.id < c.id) && rangesMeet (s.writesOf d) (s.readsOf c))
  let s := olds.foldl (fun s d => s.advanceAll d.id) s
  (s, olds.all (fun d => (s.engine? d.id).all (fun d => decide (d.total ≤ d.next) && d.startable)))

/-- The same of all members on this module. -/
def State.sourcesReady (s : State) (cs : List EngineCmd) : State × Bool :=
  cs.foldl (fun (a : State × Bool) c =>
    let r := a.1.sourceReady c
    (r.1, a.2 && r.2)) (s, true)

/-- A collective starts, once every member has issued it and the data of ranks on other modules have come (R249): what
each member contributes is fixed, after the older commands that write it; members whose data do not come drop out (R419). -/
def State.startGroup (s : State) (g : Nat) (remote : List (Nat × List Byte)) : State :=
  match s.groupReady g with
  | none => s
  | some cs =>
    let ready := if s.remoteCome g remote then s.sourcesReady cs else (s, false)
    if !ready.2 then ready.1
    else
      let r := ready.1.gather cs
      let ids := cs.map (fun c => c.id)
      let s := ids.foldl (fun s id => match s.engine? id with
        | none => s
        | some c => s.setEngine (c.begun r.2.1 remote)) r.1
      let s := r.2.2.foldl (fun s x => match s.engine? x.1.id with
        | none => s
        | some c => s.faultEngine c 5 x.2.1 x.2.2 (some x.2.2)) s
      ids.foldl (fun s id => match s.engine? id with
        | none => s
        | some c => s.lackRanks c (c.short remote)) s

/-! ### The interlock (R247, R291) -/

/-- The command is a copy that a hart of some number has issued for the gang of another hart (R220). -/
def State.gangCopy (s : State) (c : EngineCmd) (who : Option Nat) : Bool :=
  match c.work, (who.bind s.hartAt).bind s.gangOf with
  | .copy _ _ _, some g => g.launch == c.launch && g.index == c.gang
  | _, _ => false

/-- What an access of another stream to [loc, loc + n) finds of the running commands. A younger vector access of a
command's own hart waits for its bytes (`blocked` where they cannot come yet), as a vector load on path 1 (`near`) does for the
copies of its gang (R220); other streams find as much done as the free choice says. -/
def State.engineSettle (s : State) (who : Option Nat) (vec store : Bool) (loc n : Nat) (near : Bool := false) : State × Bool :=
  s.engines.foldl (fun (a : State × Bool) c =>
    let hit := meets (a.1.writesOf c) loc n || (store && meets (a.1.readsOf c) loc n)
    if hit && vec && who.isSome && (c.hid == who || (near && s.gangCopy c who)) then
      let s := a.1.advanceAll c.id
      (s, a.2 || (match s.engine? c.id with
        | none => false
        | some c => decide (c.next < c.total) || !c.startable))
    else if hit || meets c.ctrAt loc n then
      let k := Config.engineDone a.1.tick c.id % (c.total - c.next + 2)
      if c.next + k ≤ c.total then (a.1.advance (a.1.engines.length + 1) c.id (c.next + k), a.2)
      else (a.1.completeEngine c.id, a.2)
    else a) (s, false)

end Sys2Proof.Machine
end

