-- ==== Sys2Proof/Machine/Mem.lean ====
section
/-! DEFINITION. What a stream of a hart reads and writes (R206, R209, R214, R290), its atomic steps (R227), and the memory
faults (R395, R397, R398). -/

namespace Sys2Proof.Machine

/-- What F answers for an access that is not ready: it waits for bytes of an engine command that cannot come yet. -/
def notReady : Nat := 15

/-- A stream of a hart reaches [loc, loc + n): engine commands and the outstanding stores of other streams are settled
there (R247, R290); none where the access is not ready. -/
def State.reach (s : State) (h : Hart) (vec store : Bool) (loc n : Nat) (near : Bool := false) : Option State :=
  let r := if s.engines.isEmpty then (s, false) else s.engineSettle (some h.hid) vec store loc n near
  if r.2 then none else some r.1

/-- n bytes loaded by a stream of a hart (R206, R207, R209, R214); a fault answers F of R395. The stream's own outstanding
stores are performed before a poisoned unit counts, since one that covers it clears it (R403). -/
def State.load (s : State) (h : Hart) (vec : Bool) (u : Use) (va : Word) (n : Nat) :
    Except Nat (State × List Byte) :=
  match s.place h u va n with
  | .error f => .error f
  | .ok (s, .dev off) => .ok (s, s.devRead off n)
  | .ok (s, .mem loc) =>
    if pathOf va = 3 then
      if poisoned s.poison loc n then .error 5
      else
        match s.gangOf h with
        | none => .ok (s, peek s.mem loc n)
        | some g => .ok (s.constRead g (((s.launchAt g.launch).map (fun l => l.stamp)).getD 0) loc n)
    else
      match s.reach h vec false loc n (pathOf va = 1) with
      | none => .error notReady
      | some s =>
        let s := s.settle h.hid vec loc n
        let s := if poisoned s.poison loc n then
            s.performAll h.hid (fun x => x.vec == vec && overlaps loc n x.loc x.bytes.length) else s
        if poisoned s.poison loc n then .error 5
        else
          match s.hartAt h.hid with
          | none => .ok (s, peek s.mem loc n)
          | some g => .ok (s, s.see g vec loc n)

/-- n bytes stored by a stream of a hart. A device write by a hart is ignored (R336). -/
def State.save (s : State) (h : Hart) (vec : Bool) (u : Use) (va : Word) (bs : List Byte) : Except Nat State :=
  match s.place h u va bs.length with
  | .error f => .error f
  | .ok (s, .dev _) => .ok s
  | .ok (s, .mem loc) =>
    match s.reach h vec true loc bs.length with
    | none => .error notReady
    | some s => .ok (s.store h.hid vec loc bs)

/-- One atomic step on n bytes (R227): the stream's own outstanding stores to those bytes come first, and the hart's where the
atomic is an acquire (R294, note d); those of others as the free choice says; then the bytes are read and replaced at once. `f`
answers the new value, or none where nothing is written. -/
def State.rmw (s : State) (h : Hart) (vec : Bool) (va : Word) (n : Nat) (f : Nat → Option Nat) (acq : Bool := false) :
    Except Nat (State × Nat) :=
  match s.place h .atomic va n with
  | .error e => .error e
  | .ok (_, .dev _) => .error 3
  | .ok (s, .mem loc) =>
    match s.reach h vec true loc n with
    | none => .error notReady
    | some s =>
      let s := s.settle h.hid vec loc n
      let s := s.performAll h.hid (fun x => (acq || x.vec == vec) && overlaps loc n x.loc x.bytes.length)
      if poisoned s.poison loc n then .error 5
      else
        let m := peekNat s.mem loc n
        match f m with
        | none => .ok (s, m)
        | some v => .ok (s.poke loc (leBytes n v), m)

/-- The same step left to be performed later (R290; DESIGN CHOICE, log 2): the atomic is outstanding. -/
def State.rmwLate (s : State) (h : Hart) (vec : Bool) (va : Word) (n : Nat) (a : Rmw) : Except Nat State :=
  match s.place h .atomic va n with
  | .error e => .error e
  | .ok (_, .dev _) => .error 3
  | .ok (s, .mem loc) =>
    match s.reach h vec true loc n with
    | none => .error notReady
    | some s =>
      let s := if poisoned s.poison loc n then
          s.performAll h.hid (fun x => x.vec == vec && overlaps loc n x.loc x.bytes.length) else s
      if poisoned s.poison loc n then .error 5
      else .ok (s.leave h.hid { vec, loc, bytes := List.replicate n 0, rmw := some a })

/-! ### Memory faults (R395, R397 to R399, R402, R403) -/

/-- The flat location of an address by its translation, without any effect. -/
def State.locOf (s : State) (h : Hart) (va : Word) (wr : Bool := false) : Option Nat :=
  if pathOf va = 1 ∨ pathOf va = 2 then
    match s.place h .scalarLoad va with
    | .ok (_, .mem loc) => some loc
    | _ => none
  else
    match s.lookAt h va wr with
    | .leaf e _ level => some (leafAddr e level ((viewBase va).toNat % 2 ^ 61))
    | _ => none

/-- The first of the n locations from `loc` on that is poisoned. -/
def State.badLoc (s : State) (loc n : Nat) : Nat :=
  loc + ((List.range n).find? (fun i => poisoned s.poison (loc + i) 1)).getD 0

/-- The first hart that faults on a poisoned unit adds VA and PC to its record (R403; DEDUCED, log 16). -/
def State.notePoison (s : State) (h : Hart) (loc : Nat) (va : Word) : State :=
  match s.poison.find? (fun u => u.2.isSome && decide (u.1 = loc / 32)) with
  | some (n, some r) =>
    let s := (s.poke (r + 8) (leBytes 8 va.toNat)).poke (r + 0x20) (leBytes 8 h.pc.toNat)
    { s with poison := s.poison.map (fun u => if u.1 = n then (n, none) else u) }
  | _ => s

/-- A translation that an access, one that needs WR or not, has met has been used, with the entries of its walk: none older is (R298,
R399). -/
def State.noteUsed (s : State) (h : Hart) (va : Word) (wr : Bool := false) : State :=
  let v := viewBase va
  if !translated va then s
  else
    let s := s.sawTables h va
    match s.lookAt h va wr with
    | .leaf e loc level => s.hold h false (pathOf v) (v.toNat % 2 ^ 61) e loc level
    | _ => s

/-- The same of the accesses to n bytes from an address on, page by page. -/
def State.noteRange (s : State) (h : Hart) (va : Word) (n : Nat) (wr : Bool := false) : State :=
  if n = 0 then s
  else
    ((List.range ((n + 65535) / 65536)).foldl (fun s i => s.noteUsed h (va + BitVec.ofNat 64 (65536 * i)) wr) s).noteUsed h
      (va + BitVec.ofNat 64 (n - 1)) wr

/-- What a memory fault leaves besides its trap: the translation it used, the unit it met, among the n bytes of its access, and
the lowest byte at fault, which TVA names unless it names a block (R397, R399, R403). -/
def State.noteFault (s : State) (h : Hart) (wr : Bool) (f : Nat) (tva : Word) (n : Nat) (block : Bool) : State × Word :=
  let s := if f ≤ 2 ∨ f = 5 then s.sawTables h tva else s
  if f = 1 then (s.noteUsed h tva wr, tva)
  else if f = 5 then
    match s.locOf h tva wr with
    | none => (s, tva)
    | some loc =>
      let bad := s.badLoc loc n
      let at' := if block then tva else tva + BitVec.ofNat 64 (bad - loc)
      ((s.noteUsed h tva wr).notePoison h bad at', at')
  else (s, tva)

/-- RPTVA, RPTPC and RPTCNT after a fault, with whether it carries REPEAT (R398). -/
def Hart.repeated (h : Hart) (code : Nat) (tva : Word) : Hart × Bool :=
  let cnt := (h.getCsr 0xd32).toNat % 256
  let again := decide (h.getCsr 0xd30 = tva) && decide (h.getCsr 0xd31 = h.pc) && decide (h.rptCode = code) &&
    decide (1 ≤ cnt)
  let cnt := if again then min (cnt + 1) 255 else 1
  ({ ((h.setCsr 0xd30 tva).setCsr 0xd31 h.pc).setCsr 0xd32 (BitVec.ofNat 64 cnt) with rptCode := code }, decide (3 ≤ cnt))

/-- The trap of a memory fault of kind K and fault F at an address whose access takes n bytes: its code with REPEAT, the
registers of R398, and the hall records that go with it; an access that is not ready makes its instruction wait. -/
def State.memTrap (s : State) (h : Hart) (k f : Nat) (tva : Word) (tswi : Nat := 0) (tap : Option Nat := none)
    (tcell : Option (Nat × Nat) := none) (n : Nat := 1) (block : Bool := false) : Exec :=
  if f = notReady then .wait s
  else
    let wr := decide (k = 2 ∨ k = 3)
    let (s, tva) := s.noteFault h wr f tva n block
    let code := 0x3000 + 0x10 * k + f
    if f ≤ 2 then
      let r := h.repeated code tva
      let s := s.updHart (fun g => (g.repeated code tva).1)
      let code := if r.2 then code + 0x800 else code
      let base : HallRec :=
        { kind := 1, flags := if r.2 then 1 else 0, ctx := h.ctx, va := tva.toNat, code, loc := h.whereNat, pc := h.pc.toNat }
      let s := s.noteBarred (s.lookAt h tva wr) f base
      let s := if r.2 then s.hall { base with kind := 6, count := (r.1.getCsr 0xd32).toNat } else s
      .trap s { code, tva, tswi, tap, tcell }
    else .trap s { code, tva, tswi, tap, tcell }

end Sys2Proof.Machine
end

