-- ==== Sys2Proof/Machine/Operands.lean ====
section
/-! DEFINITION. Operand forms of the vector instructions: Aperture Table entries (R63 to R70), where an element lies
(R65, R66), footprints and plate states (R72, R380), guards (R110, R111), snapshot mode (R77), finder streams as
operands (R222 to R225), and the shared illegal uses (R386, R387). -/

namespace Sys2Proof.Machine

/-! ### Entries (R63, R64, R67) -/

/-- An Aperture Table entry taken apart. -/
structure Apt where
  v : Bool
  kind : Nat
  ty : Nat
  row0 : Nat
  col0 : Nat
  h : Nat
  w : Nat
  bc : Bool
  sb : Bool
  fs : Nat
  deriving DecidableEq, Repr

/-- The fields of an entry (R63). -/
def Apt.ofWord (x : Word) : Apt :=
  let n := x.toNat
  { v := pteBit n 63, kind := bits n 62 60, ty := bits n 59 56, row0 := bits n 55 48, col0 := bits n 47 38,
    h := bits n 37 29, w := bits n 28 19, bc := pteBit n 18, sb := pteBit n 17, fs := bits n 16 13 }

/-- The entry of fields. -/
def Apt.toWord (a : Apt) : Word :=
  BitVec.ofNat 64 ((if a.v then 2 ^ 63 else 0) + a.kind * 2 ^ 60 + a.ty * 2 ^ 56 + a.row0 * 2 ^ 48 + a.col0 * 2 ^ 38 +
    a.h * 2 ^ 29 + a.w * 2 ^ 19 + (if a.bc then 2 ^ 18 else 0) + (if a.sb then 2 ^ 17 else 0) + a.fs * 2 ^ 13)

/-- Slots per logical row WS (R65). -/
def Apt.ws (a : Apt) : Nat := if a.w = 0 then 1024 else a.w

/-- Cells per slot S (R64). -/
def tyCells (ty : Nat) : Nat := if tyWidth ty = 32 then 2 else 1

/-- Elements per slot P (R64). -/
def tyPack (ty : Nat) : Nat := if tyWidth ty = 8 then 2 else if tyWidth ty = 4 then 4 else 1

/-- E(ap) (R65). -/
def Apt.e (a : Apt) : Nat := a.ws * tyPack a.ty

/-- HL(ap) (R64). -/
def Apt.hl (a : Apt) : Nat := if a.kind ≤ 1 then a.h else 1

/-- The code of the first condition of R67 that a value with V = 1 breaks (R390). -/
def Apt.fault? (a : Apt) (bh : Nat) : Option Nat :=
  let s := tyCells a.ty
  if 5 < a.kind ∨ 10 < a.ty then some 0x4000
  else if bh ≤ a.row0 then some 0x4001
  else if a.h = 0 ∨ 256 < a.h ∨ (1 < a.kind ∧ a.h ≠ 1) then some 0x4002
  else if a.bc ∧ 1 < a.hl then some 0x4003
  else
    let ok :=
      match a.kind with
      | 0 => decide (a.ws * s ≤ 1024) && decide (a.h ≤ bh)
      | 1 => decide (a.ws ≤ bh) && decide (a.h * s ≤ 1024)
      | 2 => decide (a.ws * s ≤ 1024)
      | 3 => decide (a.ws ≤ bh)
      | _ => decide (a.ws ≤ Nat.lcm bh (1024 / s))
    if ok then none else some 0x4004

/-- The entry of a number. -/
def Hart.apt (h : Hart) (n : Ap) : Apt := Apt.ofWord (h.ap.get n.toNat)

/-! ### Where an element lies (R61, R65, R66) -/

/-- Band row and column of slot s of logical row r, before the reduction of R61. -/
def Apt.slot (a : Apt) (r s : Nat) : Nat × Nat :=
  let c := tyCells a.ty
  match a.kind with
  | 0 | 2 => (a.row0 + r, a.col0 + s * c)
  | 1 => (a.row0 + s, a.col0 + r * c)
  | 3 => (a.row0 + s, a.col0)
  | 4 => (a.row0 + s, a.col0 + s * c)
  | _ => (a.row0 + s, a.col0 + (s * c / 1024 + 1) * 1024 - s * c)

/-- The logical row that a sweep row uses: row 0 under BC (R69). -/
def Apt.row (a : Apt) (r : Nat) : Nat := if a.bc then 0 else r

/-- The first cell of element (r, e) after the reduction of R61. -/
def Apt.cell (a : Apt) (bh r e : Nat) : Nat × Nat :=
  let p := a.slot (a.row r) (e / tyPack a.ty)
  (p.1 % bh, p.2 % 1024)

/-- Key of a cell in the plane. -/
def cellKey (rc : Nat × Nat) : Nat := rc.1 * 1024 + rc.2

/-- Bits of element (r, e) (R66). -/
def Hart.getEl (h : Hart) (a : Apt) (r e : Nat) : Nat :=
  let rc := a.cell h.bh r e
  let lo := (h.plane.get (cellKey rc)).toNat
  match tyWidth a.ty with
  | 32 => lo + (h.plane.get (cellKey (rc.1, (rc.2 + 1) % 1024))).toNat * 65536
  | 16 => lo
  | w => lo / 2 ^ (w * (e % tyPack a.ty)) % 2 ^ w

/-- Plate of a cell (R72, R380). -/
def plateOf (rc : Nat × Nat) : Nat := 16 * (rc.1 / 16) + rc.2 / 64

/-- A cell written: its plate becomes DIRTY, its valid length reaches the row (R380). -/
def Hart.putCell (h : Hart) (rc : Nat × Nat) (v : BitVec 16) : Hart :=
  let p := plateOf rc
  let len := max ((h.plates.get p).toNat % 32) (rc.1 % 16 + 1)
  { h with plane := h.plane.set (cellKey rc) v, plates := h.plates.set p (BitVec.ofNat 8 (192 + len)) }

/-- Bits written into element (r, e), and into no other bit (R66). -/
def Hart.setEl (h : Hart) (a : Apt) (r e v : Nat) : Hart :=
  let rc := a.cell h.bh r e
  match tyWidth a.ty with
  | 32 => (h.putCell rc (BitVec.ofNat 16 v)).putCell (rc.1, (rc.2 + 1) % 1024) (BitVec.ofNat 16 (v / 65536))
  | 16 => h.putCell rc (BitVec.ofNat 16 v)
  | w =>
    let old := (h.plane.get (cellKey rc)).toNat
    let sh := w * (e % tyPack a.ty)
    h.putCell rc (BitVec.ofNat 16 (old - old / 2 ^ sh % 2 ^ w * 2 ^ sh + v % 2 ^ w * 2 ^ sh))

/-! ### Guards (R110, R111, R120) -/

/-- Guard register and sense. -/
structure Guard where
  k : Nat
  sense : Bool
  deriving DecidableEq, Repr

/-- The guard of an A-format instruction alone (R110). -/
def maskGuard (mask : BitVec 2) : Guard := ⟨mask.toNat, false⟩

/-- Bit(kG, p mod 1,024) XOR GS. -/
def Hart.guardBit (h : Hart) (g : Guard) (p : Nat) : Bool := (h.getK g.k).getLsbD (p % 1024) != g.sense

/-- Active(r, e) (R120). -/
def Hart.active (h : Hart) (g : Guard) (r e : Nat) : Bool := h.guardBit g e && h.km.getLsbD r

/-! ### Footprints and absent plates (R72, R73, R380) -/

/-- Every cell of an entry's full array. -/
def Apt.cells (a : Apt) (bh : Nat) : List (Nat × Nat) :=
  ((List.range a.hl).map (fun r => (List.range a.ws).map (fun s =>
    let p := a.slot r s
    let rc := (p.1 % bh, p.2 % 1024)
    if tyCells a.ty = 2 then [rc, (rc.1, (rc.2 + 1) % 1024)] else [rc]))).flatten.flatten

/-- The footprint of an entry: the mask of the plates that hold any bit of any element of its full array (R72). Plates are counted from
the band's first row, which is a multiple of 16; two entries of one hart share the same ones either way. -/
def Apt.footprint (a : Apt) (bh : Nat) : BitVec 256 := (a.cells bh).foldl (fun m rc => m ||| 1#256 <<< plateOf rc) 0

/-- An ABSENT plate in the footprint of some of these entries, if there is one (R380). -/
def Hart.absent (h : Hart) (as : List Apt) : Option Nat :=
  let ps := (h.plates.filter (fun p => p.2.toNat / 64 = 1)).map (fun p => p.1)
  if ps.isEmpty then none
  else
    let m := as.foldl (fun m a => m ||| a.footprint h.bh) 0
    ps.find? (fun p => m.getLsbD p)

/-- Save area of a hart: base of its gang's area and the parts of R379. -/
def State.saveArea (s : State) (h : Hart) : Nat :=
  match s.gangOf h with
  | none => 0
  | some g => ((s.launchAt g.launch).bind (fun l => l.saveBase)).getD 0 + g.index * 0x800000

/-- Address of the image of a cell (R379). -/
def bandImage (area idx row col : Nat) : Nat := area + 0x80000 + idx * 0x80000 + 2048 * row + 2 * col

/-- One plate row read back from the band image: 64 cells of 16 bits (R380). A fault answers F and the address. -/
def State.fillRow (s : State) (h : Hart) (area plate t : Nat) : Except (Nat × Word) (State × List (BitVec 16)) :=
  let va := BitVec.ofNat 64 (bandImage area h.idx (plate / 16 * 16 + t) (plate % 16 * 64))
  match s.load h true .vecLoad va 128 with
  | .error f => .error (f, va)
  | .ok (s, bs) => .ok (s, (List.range 64).map (fun c => BitVec.ofNat 16 (leNat ((bs.drop (2 * c)).take 2))))

/-- The rows of a plate below its valid length read back (R380). -/
def State.fillRows (s : State) (h : Hart) (area plate : Nat) : Nat → SMap 16 → Except (Nat × Word) (State × SMap 16)
  | 0, m => .ok (s, m)
  | t + 1, m =>
    match s.fillRows h area plate t m with
    | .error f => .error f
    | .ok (s, m) =>
      match s.fillRow h area plate t with
      | .error f => .error f
      | .ok (s, vs) => .ok (s, m.setAll (cellKey (plate / 16 * 16 + t, plate % 16 * 64)) vs)

/-- PLATE FILL (R380): rows below LEN from the band image, the rest zero, and the plate CLEAN. -/
def State.fillPlate (s : State) (h : Hart) (plate : Nat) : Except (Nat × Word) State :=
  let len := (h.plates.get plate).toNat % 32
  let inPlate : Nat × BitVec 16 → Bool := fun x => plateOf (x.1 / 1024, x.1 % 1024) = plate
  match s.fillRows h (s.saveArea h) plate len (h.plane.filter (fun x => !inPlate x)) with
  | .error f => .error f
  | .ok (s, m) => .ok (s.updHart (fun h => { h with plane := m, plates := h.plates.set plate (BitVec.ofNat 8 (128 + len)) }))

/-- The ABSENT plates of the footprints filled before an instruction issues, at most as many as there are plates; a
fill that faults traps to S with K = 4 (R380, R410). -/
def withPlates (as : List Apt) : Nat → State → Hart → (State → Hart → Exec) → Exec
  | 0, s, h, f => f s h
  | n + 1, s, h, f =>
    match h.absent as with
    | none => f s h
    | some p =>
      match s.fillPlate h p with
      | .error (c, va) => s.memTrap h 4 c va 0 none none 128
      | .ok s' =>
        match s'.hart? with
        | none => f s' h
        | some h' => withPlates as n s' h' f

/-! ### Finder streams as operands (R222 to R225) -/

/-- Address of element n of a record, or none at or past LIMIT (R223). -/
def Stream.addr (t : Stream) (n : Nat) : Option Word :=
  let limit := if t.limit = 0 then 2 ^ 32 else t.limit.toNat
  if limit ≤ n then none
  else
    let q := if t.rlen = 0 then 0 else n / t.rlen.toNat
    let k := if t.rlen = 0 then n else n % t.rlen.toNat
    let off : Int := if t.fmt = 0xa then (n / 2 : Nat) else q * t.rstr.toInt + k * t.estr.toInt
    some (BitVec.ofNat 64 (t.base.toNat / 2 ^ 61 * 2 ^ 61 + wrap 61 ((t.base.toNat % 2 ^ 61 : Nat) + off)))

/-- Bytes of an element of a TYPE in memory. -/
def tyBytes (ty : Nat) : Nat := if tyWidth ty = 4 then 1 else tyWidth ty / 8

/-- The bf16 element of an I4S block (R97). A zero slot under a negative SCALE gives −0, and reserved bits that are not zero
(R96) change nothing (DESIGN CHOICE, log 51). -/
def expandI4S (block : List Byte) (i : Nat) : Nat :=
  let byte (n : Nat) : Nat := (block.getD n 0).toNat
  let half (n : Nat) : Nat := byte n + 256 * byte (n + 1)
  let ctl := byte 32
  let v0 : FV := .fin (Ex.ofInt (sext (byte (i / 2) / (if i % 2 = 1 then 16 else 1)) 4))
  let v1 : Nat := if ctl / 8 % 2 = 1 then
      (fMul ⟨64, 11, 52, 1023, true⟩ 0 v0 (bf16.decode (half 34))).1
    else ((FV.convert v0 ⟨64, 11, 52, 1023, true⟩ 0).1)
  let v : Nat := (List.range (ctl % 8)).foldl (fun v m =>
    if byte (36 + 4 * m) % 64 = i then (FV.convert (f16.decode (half (38 + 4 * m))) ⟨64, 11, 52, 1023, true⟩ 0).1
    else v) v1
  (FV.convert (Fmt.decode ⟨64, 11, 52, 1023, true⟩ v) bf16 0).1

/-- Bytes that have been read put where they belong. -/
def LateDest.put (d : LateDest) (bs : List Byte) (h : Hart) : Hart :=
  match d with
  | .xreg r signed => h.setX r (if signed then word (sext (leNat bs) (8 * bs.length)) else BitVec.ofNat 64 (leNat bs))
  | .cell ap r e part =>
    let a := h.apt ap
    h.setEl a r e (if tyWidth a.ty = 4 then leNat bs / 16 ^ part % 16 else leNat bs)
  | .block ap els => els.foldl (fun g x => g.setEl (h.apt ap) x.1 x.2.1 (expandI4S bs x.2.2)) h

/-- What atomics performed late have read, put where it belongs, with their flags. -/
def Hart.arrive (h : Hart) : Hart :=
  if h.landed.isEmpty && h.landedFlags == 0 then h
  else
    let g := (h.landed.foldl (fun g x => x.1.put x.2 g) h).orFlags h.landedFlags
    { g with landed := [], landedFlags := 0 }

/-- A vector access that faults: F, the address it names, the bytes it takes, and whether it names a block (R397). -/
structure MemMiss where
  f : Nat
  va : Word
  n : Nat := 1
  block : Bool := false
  deriving DecidableEq, Repr

/-- Path-0 address of the I4S block of a view address (R205). -/
def blockAddr (va : Word) : Word := BitVec.ofNat 64 (64 * (va.toNat % 2 ^ 61 / 128))

/-- The fault of an element: a path-4 element names its block (R397). -/
def elMiss (u : Use) (ty : Nat) (va : Word) (f : Nat) : MemMiss :=
  if pathOf va = 4 ∧ u.admits 4 false = true ∧ ty = 7 then ⟨f, blockAddr va, 64, true⟩ else ⟨f, va, tyBytes ty, false⟩

/-- The trap of a vector access. -/
def State.missTrap (s : State) (h : Hart) (k : Nat) (m : MemMiss) (tswi : Nat := 0) (tap : Option Nat := none)
    (tcell : Option (Nat × Nat) := none) : Exec := s.memTrap h k m.f m.va tswi tap tcell m.n m.block

/-- Blocks of path 4 that an instruction has read, each once, by number (R221). -/
abbrev Blocks := List (Nat × List Byte)

/-- One element of a TYPE loaded at an address by the vector stream, path 4 expanded (R210, R221); `nib` selects the
half of a packed i4 byte. An odd address on path 4 is a misaligned one, F = 4, and no path fault (DESIGN CHOICE, log 69). -/
def State.loadEl (s : State) (h : Hart) (u : Use) (ty : Nat) (va : Word) (nib : Nat) (bl : Blocks) :
    Except MemMiss (State × Nat × Blocks) :=
  if pathOf va = 4 then
    if ty ≠ 7 ∨ u.admits 4 false = false then .error (elMiss u ty va 3)
    else if va.toNat % 2 ≠ 0 then .error (elMiss u ty va 4)
    else
      match find bl (va.toNat % 2 ^ 61 / 128) with
      | some bs => .ok (s, expandI4S bs (va.toNat % 128 / 2), bl)
      | none =>
        match s.load h true u va 64 with
        | .error f => .error (elMiss u ty va f)
        | .ok (s, bs) => .ok (s, expandI4S bs (va.toNat % 128 / 2), (va.toNat % 2 ^ 61 / 128, bs) :: bl)
  else if u.admits (pathOf va) (h.priv != .u) && decide (va.toNat % tyBytes ty ≠ 0) then .error (elMiss u ty va 4)
  else
    match s.load h true u va (tyBytes ty) with
    | .error f => .error (elMiss u ty va f)
    | .ok (s, bs) => .ok (s, if tyWidth ty = 4 then leNat bs / 16 ^ nib % 16 else leNat bs, bl)

/-- The value that an element's bits stand for. -/
def elValue (ty b : Nat) : FV := if tyFloat ty then (fmtOf ty).decode b else .fin (Ex.ofInt (intVal ty b))

/-- The bits of element n of a stream; past LIMIT it reads 0 without an access (R223). -/
def State.rawEl (s : State) (h : Hart) (t : Stream) (n : Nat) (bl : Blocks) : Except MemMiss (State × Nat × Blocks) :=
  match t.addr n with
  | none => .ok (s, 0, bl)
  | some va => s.loadEl h .stream t.fmt.toNat va (n % 2) bl

/-- Round(FMT, v × s, rne) of an element and an element of its scale stream (R223). -/
def scaledEl (fmt v sfmt x : Nat) : Nat × Flags :=
  let f := fmtOf fmt
  match fProd (f.decode v) (elValue sfmt x) with
  | .nan sg => (f.canon, if sg then fNV else 0)
  | .invalid => (f.canon, fNV)
  | .inf neg => f.inf? neg
  | .fin x => f.round 0 x

/-- The value of element n of a stream, scaled where its record says so, with the flags of that rounding (R223). One at or past LIMIT is +0,
neither multiplied nor with a scale element read (DESIGN CHOICE, log 78). -/
def State.streamEl (s : State) (h : Hart) (t : Stream) (n : Nat) (bl : Blocks) :
    Except MemMiss (State × Nat × Flags × Blocks) :=
  match s.rawEl h t n bl with
  | .error f => .error f
  | .ok (s, v, bl) =>
    match (if t.scl.getLsbD 7 && (t.addr n).isSome then find h.streams (t.scl.toNat % 16) else none) with
    | none => .ok (s, v, 0, bl)
    | some u =>
      match s.rawEl h u (if t.rlen = 0 then 0 else n / t.rlen.toNat) bl with
      | .error f => .error f
      | .ok (s, x, bl) =>
        let r := scaledEl t.fmt.toNat v u.fmt.toNat x
        .ok (s, r.1, r.2, bl)

/-- Where element n of a stream cannot be read, the element itself has been, unless it is what cannot: its translation is used (R399). -/
def State.readBefore (s : State) (h : Hart) (t : Stream) (n : Nat) (bl : Blocks) : State :=
  match s.rawEl h t n bl with
  | .error _ => s
  | .ok (s, _, _) => s

/-- The stream bound to an entry is the scale stream of another binding (R223). -/
def Hart.isScale (h : Hart) (fs : Nat) : Bool :=
  h.streams.any (fun p => p.2.scl.getLsbD 7 && decide (p.2.scl.toNat % 16 = fs))

/-- The first entry among the sources that breaks R224, or a destination with SB = 1 (reason 0x44). -/
def Hart.streamFault (h : Hart) (dst : List Ap) (src : List Ap) : Option Ap :=
  match dst.find? (fun n => (h.apt n).sb) with
  | some n => some n
  | none =>
    src.find? (fun n =>
      let a := h.apt n
      a.sb && (match find h.streams a.fs with
        | none => true
        | some t => a.bc || decide (t.fmt.toNat ≠ a.ty) || h.isScale a.fs ||
            (t.scl.getLsbD 7 && (find h.streams (t.scl.toNat % 16)).isNone) ||
            decide (2 ≤ (src.filter (fun m => (h.apt m).sb && (h.apt m).fs == a.fs)).length)))

/-- Addresses that a stream will touch next: its next elements, the pages that follow in its direction, and its next rows. -/
def Stream.next (t : Stream) : List Word :=
  let row := if t.rlen = 0 then [] else (List.range' 1 3).map (fun k => (t.pos / t.rlen.toNat + k) * t.rlen.toNat)
  let els := (((List.range 4).map (fun k => t.pos + k)) ++ row).filterMap t.addr
  let pages := (t.addr t.pos).toList.flatMap (fun va => (List.range' 1 3).map (fun k =>
    if t.estr.toInt < 0 then va - BitVec.ofNat 64 (65536 * k) else va + BitVec.ofNat 64 (65536 * k)))
  els ++ pages

/-- The translations of the pages that a stream will touch next, as far as it may read them, held for it (R222, R282; which it
holds, up to four, is not architected: DESIGN CHOICE, log 6). -/
def State.holdAhead (s : State) (h : Hart) (t : Stream) : State :=
  t.next.foldl (fun s va =>
    let v := viewBase va
    let path := pathOf v
    let page := v.toNat % 2 ^ 61 / 65536
    if path ≠ 0 ∧ path ≠ 3 ∧ path ≠ 7 then s
    else
      match walk s.mem (h.root path) (v.toNat % 2 ^ 61) with
      | .leaf e _ level =>
        let x : Held := ⟨h.q, some h.hid, h.tag path, page, BitVec.ofNat 64 e, level⟩
        if pteBit e 57 && rightsOk .load e && (h.priv != .u || pteBit e 61) && !s.tlb.contains x then { s with tlb := x :: s.tlb } else s
      | _ => s) s

/-- Where the reading of a stream faults: the item of its consumer that reaches it, the fault, and the entry and cell of the
element (R225, R397). -/
structure FeedStop where
  item : Nat
  miss : MemMiss
  ap : Ap
  cell : Nat × Nat
  deriving DecidableEq, Repr

/-- Order of the causes within one element (R374): path and alignment, translation, permission, then the rest. -/
def faultClass (f : Nat) : Nat := if f = 3 ∨ f = 4 then 0 else if f = 0 ∨ f = 2 then 1 else if f = 1 then 2 else 3

/-- An instruction whose streams are read: the state and the hart with its streamed cells, the flags of scaled elements by
item, the first fault that the instruction reaches, and the blocks it has read. -/
structure Fed where
  s : State
  h : Hart
  fl : List (Nat × Flags)
  stop : Option FeedStop
  blocks : Blocks
  deriving DecidableEq, Repr

/-- A fault noted where none is met earlier: at a lower item, or at the same item by an earlier cause or operand (R374). -/
def Fed.halt (f : Fed) (x : FeedStop) : Fed :=
  match f.stop with
  | none => { f with stop := some x }
  | some y =>
    if x.item < y.item ∨ (x.item = y.item ∧ faultClass x.miss.f < faultClass y.miss.f) then { f with stop := some x } else f

/-- The flags that the streamed elements of an item raise. -/
def Fed.flags (f : Fed) (item : Nat) : Flags := f.fl.foldl (fun a x => if x.1 = item then a ||| x.2 else a) 0

/-- Elements of the stream bound to an entry read for their consumer and written into their cells, none for an item, the first
part of a place, above one that meets a fault (R224, R225); `els` elements to a row. -/
def Fed.read (h0 : Hart) (n : Ap) (t : Stream) (els : Nat) : List (Nat × Nat × Nat) → Fed → Fed
  | [], f => f
  | (item, r, e) :: ps, f =>
    if f.stop.any (fun x => decide (x.item < item)) then Fed.read h0 n t els ps f
    else
      match f.s.streamEl h0 t (t.pos + (r * els + e)) f.blocks with
      | .error m =>
        let s := f.s.readBefore h0 t (t.pos + (r * els + e)) f.blocks
        Fed.read h0 n t els ps ({ f with s }.halt ⟨item, m, n, (h0.apt n).cell h0.bh r e⟩)
      | .ok (s, v, fl, bl) =>
        Fed.read h0 n t els ps { f with
          s, h := f.h.setEl (h0.apt n) r e v, fl := if fl = 0 then f.fl else (item, fl) :: f.fl, blocks := bl }

/-- The stream of a source consumed, where one is bound to it: the places' elements read, and its position moved by the size
of the sweep (R224). -/
def Fed.source (h0 : Hart) (els size : Nat) (places : List (Nat × Nat × Nat)) (f : Fed) (n : Ap) : Fed :=
  match (if (h0.apt n).sb then find h0.streams (h0.apt n).fs else none) with
  | none => f
  | some t =>
    let f := Fed.read h0 n t els places f
    let t := { t with pos := t.pos + size, ahead := 0 }
    { f with s := f.s.holdAhead h0 t, h := { f.h with streams := put f.h.streams (h0.apt n).fs (some t) } }

/-! ### Snapshot mode (R77) -/

/-- The bits of element (r, e): its cells with the first bit and the number of bits in each. -/
def Apt.elBits (a : Apt) (bh r e : Nat) : List (Nat × Nat × Nat) :=
  let rc := a.cell bh r e
  match tyWidth a.ty with
  | 32 => [(cellKey rc, 0, 16), (cellKey (rc.1, (rc.2 + 1) % 1024), 0, 16)]
  | w => [(cellKey rc, w * (e % tyPack a.ty), w)]

/-- Two elements share a bit. -/
def shareBit (x y : List (Nat × Nat × Nat)) : Bool :=
  x.any (fun p => y.any (fun q => p.1 == q.1 && overlaps p.2.1 p.2.2 q.2.1 q.2.2))

/-- Elements, each with its entry. -/
abbrev Els := List (Apt × Nat × Nat)

/-- Some bit that the elements written at a sweep position below n hold is read at another one (R77). -/
def snapAt (bh n : Nat) (writes reads : Nat → Els) : Bool :=
  let bits (l : Els) : List (Nat × Nat × Nat) := l.flatMap (fun x => x.1.elBits bh x.2.1 x.2.2)
  (List.range n).any (fun i => (List.range n).any (fun j => i != j && shareBit (bits (writes i)) (bits (reads j))))

/-- Some bit that the destination writes at a sweep position is read by a source at another one (R77). `reads` gives
the positions of each source as elements by the sweep position that reads them. -/
def snapshot (bh vl rc : Nat) (d : Apt) (srcs : List Apt) : Bool :=
  (List.range (rc * vl)).any (fun i =>
    let x := d.elBits bh (i / vl) (i % vl)
    srcs.any (fun a => (List.range (rc * vl)).any (fun j => i != j && shareBit x (a.elBits bh (j / vl) (j % vl)))))

/-! ### Shared illegal uses (R386, R387) -/

/-- An operand of a vector instruction as the checks see it: its entry, whether it is a destination, and the rows and
elements it must cover (none: no cover check). -/
structure Opd where
  n : Ap
  dest : Bool
  rows : Nat
  els : Nat
  /-- The entry itself has that many rows, BC or not (R169, R176). -/
  rowsToo : Bool
  deriving DecidableEq, Repr

/-- The entry covers rows and elements (R69). -/
def Apt.covers (a : Apt) (rows els : Nat) : Bool := decide (els ≤ a.e) && (decide (rows ≤ a.hl) || a.bc)

/-- The entry covers what the operand asks for. -/
def Apt.meets (a : Apt) (o : Opd) : Bool := a.covers o.rows o.els && (!o.rowsToo || decide (o.rows ≤ a.hl))

/-- The first shared reason that the operands break, in the order of R387: 0x10, 0x11 (only when the sweep is not
empty), 0x12, and 0x13 for a TYPE combination that is not listed. -/
def Hart.sharedFault (h : Hart) (ops : List Opd) (sweep typesOk : Bool) : Option TrapRec :=
  match ops.find? (fun o => !(h.apt o.n).v) with
  | some o => some (illegalUse 0x10 (some o.n.toNat))
  | none =>
    match (if sweep then ops.find? (fun o => !(h.apt o.n).meets o) else none) with
    | some o => some (illegalUse 0x11 (some o.n.toNat))
    | none =>
      match ops.find? (fun o => o.dest && (h.apt o.n).bc) with
      | some o => some (illegalUse 0x12 (some o.n.toNat))
      | none => if typesOk then none else some (illegalUse 0x13 (ops.head?.map (fun o => o.n.toNat)))

/-- What goes with an instruction that is not met again, whatever it came to. -/
def Exec.also (f : State → State) : Exec → Exec
  | .done s => .done (f s)
  | .jump s pc => .jump (f s) pc
  | .trap s t => .trap (f s) t
  | .moved s => .moved s
  | .wait s => .wait s

/-- The same of a change that a stop makes otherwise: `f true` where the instruction stops, `f false` where it commits. -/
def Exec.settle (f : Bool → State → State) : Exec → Exec
  | .trap s t => .trap (f true s) t
  | e => e.also (f false)

end Sys2Proof.Machine
end

