-- ==== Sys2Proof/Machine/Jobs.lean ====
section
/-! DEFINITION. Vector and transit instructions as their core's queues hold them: footprints and their meets (R72, R73), mask and
latch interlocks (R147, R182), chaining (R75), the cycles of a pass (R79, R149, R202), and dispatch (R263, R328). -/

namespace Sys2Proof.Machine

/-! ### Footprints (R72, R73) -/

/-- The footprint of an instruction's entries that satisfy a condition. -/
def Job.footprint (j : Job) (p : SweptAp → Bool) : BitVec 256 :=
  (j.ops.filter p).foldl (fun m o => m ||| (Apt.ofWord o.word).footprint j.bh) 0

/-- R and W of an instruction (R73): guards and masks shrink neither. -/
def Job.reads (j : Job) : BitVec 256 := j.footprint (fun o => !o.write)
def Job.writes (j : Job) : BitVec 256 := j.footprint (fun o => o.write)

/-- An older instruction meets a younger one (R74): read after write, write after write, or write after read. -/
def Job.meets (i j : Job) : Bool :=
  i.writes &&& j.reads != 0 || i.writes &&& j.writes != 0 || i.reads &&& j.writes != 0

/-- `i` is an older instruction of the hart of `j`. -/
def Job.older (i j : Job) : Bool := i.hid == j.hid && decide (i.seq < j.seq)

/-! ### Passes begun and results written (R78) -/

/-- Every pass of an instruction has begun. -/
def Job.begunAll (j : Job) : Bool := decide (j.rows ≤ j.begun)

/-- The last cycle at whose end results of the passes begun are written. -/
def Job.lastEnd (j : Job) : Nat := j.ends.foldl (fun m x => max m x.2) j.clEnd

/-- The instruction has completed before a cycle (R78, R182). -/
def Job.complete (j : Job) (now : Nat) : Bool := j.begunAll && decide (j.lastEnd < now)

/-! ### Mask registers and the latch (R147, R182) -/

/-- An instruction in flight keeps a younger one waiting over a mask register: it writes one that the younger reads or writes, or reads
one that the younger writes. -/
def Job.masksHold (i j : Job) : Bool :=
  i.kw.any (fun k => j.kr.contains k || j.kw.contains k) || i.kr.any (fun k => j.kw.contains k)

/-- The same over the latch: a reader waits for the latch results of a writer, a writer for the end of a reader or writer. -/
def Job.latchHolds (i j : Job) (now : Nat) : Bool :=
  (j.clR && i.clW && !(i.begunAll && decide (i.clEnd < now))) || (j.clW && (i.clR || i.clW))

/-! ### Chaining (R75) -/

/-- The bits that an entry's sweep touches at a sweep row. -/
def SweptAp.bitsAt (o : SweptAp) (bh r : Nat) : List (Nat × Nat × Nat) :=
  (List.range o.els).flatMap (fun e => (Apt.ofWord o.word).elBits bh (if o.rows ≤ 1 then 0 else r) e)

/-- The bits that an instruction touches at a sweep row through entries that satisfy a condition. -/
def Job.bitsAt (j : Job) (p : SweptAp → Bool) (r : Nat) : List (Nat × Nat × Nat) := (j.ops.filter p).flatMap (fun o => o.bitsAt j.bh r)

/-- Every bit that `i` touches at a row is touched by `j`, if at all, only at that row. -/
def Job.onlyAt (i : Job) (p : SweptAp → Bool) (j : Job) (q : SweptAp → Bool) : Bool :=
  (List.range i.rc).all (fun r => (List.range j.rc).all (fun t => r == t || !shareBit (i.bitsAt p r) (j.bitsAt q t)))

/-- The passes follow the swept rows. `vsegr` and `vexps`, each of one pass that follows no row, never chain and are never chained on
(R75, R182; DESIGN CHOICE, log 60). -/
def Job.byRow (j : Job) : Bool :=
  match j.shape with
  | .row _ => true
  | _ => false

/-- Two captured entries agree in V, KIND, TYPE, ROW0, COL0, H and W, with BC = 0 in both. -/
def sameArray (x y : Word) : Bool := x.toNat / 2 ^ 19 == y.toNat / 2 ^ 19 && !(Apt.ofWord x).bc && !(Apt.ofWord y).bc

/-- J can chain on I, as far as the two alone decide (R75): I writes its destination, not the cells of a stream-bound source (R224), and is
no load (R210). No chain is on an instruction whose results wait for memory, an atomic or a `vxlat` (DESIGN CHOICE, log 60). -/
def Job.chains (i j : Job) : Bool :=
  j.ops.any (fun o => !o.write && i.ops.any (fun d => d.write && !(Apt.ofWord d.word).sb && sameArray o.word d.word)) &&
  !i.mem && i.byRow && j.byRow && i.rc == j.rc && i.vl == j.vl && !i.snap && !j.snap &&
  j.onlyAt (fun o => o.write) i (fun _ => true) && i.onlyAt (fun o => o.write) j (fun o => !o.write)

/-! ### Cycles of a pass (R61, R79, R149, R182) -/

/-- A row of an entry's first elements takes so many granule accesses, `row` and `rect` by the granules that its cells touch, `col`
and `rectt` by its slots. -/
def Apt.accesses (a : Apt) (r els : Nat) : Nat :=
  let slots := (els + tyPack a.ty - 1) / tyPack a.ty
  let c := (a.slot (a.row r) 0).2 % 4
  if a.kind = 0 ∨ a.kind = 2 then (if slots = 0 then 0 else (c + slots * tyCells a.ty + 3) / 4)
  else if tyCells a.ty = 2 ∧ c = 3 then 2 * slots
  else slots

/-- Cycles of one pass over an entry with g groups. -/
def Apt.cycles (a : Apt) (r els g : Nat) : Nat :=
  if 4 ≤ a.kind then (els * tyWidth a.ty + 64 * g - 1) / (64 * g) else (a.accesses r els + 8 * g - 1) / (8 * g)

/-- The largest count of R79 among the operands of some instructions at a row. -/
def passCycles (js : List Job) (r g : Nat) : Nat :=
  (js.flatMap (fun j => j.ops.filter (fun o => o.paced))).foldl (fun m o => max m ((Apt.ofWord o.word).cycles (if o.rows ≤ 1 then 0 else r) o.els g)) 1

/-- Cycles of an instruction's next pass with g groups; of one that pushes or pops no fewer than its record bytes take at 512 bytes a cycle
(R202). -/
def Job.cycles (j : Job) (g : Nat) : Nat :=
  match j.shape with
  | .row times => times * (if j.snap then 2 else 1) * max (passCycles [j] (j.start + j.begun) g) ((j.recBytes + 511) / 512)
  | .segr n => (n + 63) / 64 + 1
  | .exps n => (n + 2 * g - 1) / (2 * g)

/-- A pass that begins in a cycle and takes c cycles: its results are written 8 cycles after it ends, later by a memory access and by a
place in a drain chain; latch results two (R78, R182, R262). -/
def Job.pass (j : Job) (now c : Nat) : Job :=
  let late := match j.fused with
    | some (_, k) => 2 * k
    | none => 0
  let plane := if j.clOnly then [] else [(j.start + j.begun, now + c + 7 + j.extra + late)]
  { j with begun := j.begun + 1, ends := j.ends ++ plane, clEnd := if j.clW then now + c + 1 else j.clEnd }

/-! ### The stair (R202) -/

/-- An older stair instruction keeps a younger one waiting: only a push may follow a push in flight. -/
def Job.stairHolds (i j : Job) : Bool :=
  match i.stair, j.stair with
  | some .push, some .push => false
  | some _, some _ => true
  | _, _ => false

/-! ### Dispatch (R263, R328, R329) -/

/-- What the gate charges an instruction at the present weights of its core (R328 to R330). -/
def CoreSt.charge (c : CoreSt) (j : Job) : Nat :=
  j.units * ((c.csr.get (0xd44 + j.cls / 8)).toNat / 2 ^ (8 * (j.cls % 8)) % 256)

/-- Order of arrival at the gate, ties going to the lower hart context (R328). -/
def Job.arrives (a b : Job) : Bool := decide (a.since < b.since) || (a.since == b.since && decide (a.hid < b.hid))

/-- An instruction that may be the next link of its hart's drain chain, answered with the chain's `tdrain`: it is of the form of a
link, no more than three have joined, it chains on the last one, and it meets none of the others. -/
def Hart.nextLink (h : Hart) (j : Job) : Option Job :=
  let j := { j with bh := h.bh }
  match h.drain with
  | [] => none
  | prev :: olds =>
    if j.link && decide (olds.length < 4) && prev.chains j && !olds.any (fun i => i.meets j) then (prev :: olds).getLast? else none

/-- An instruction as its core's gate receives it: n units of its class; the result of a memory access comes later by a free time
(R210; DESIGN CHOICE, log 5). -/
def State.gated (s : State) (h : Hart) (cls n : Nat) (j : Job) : Job :=
  let c := s.coreAt h.q
  let mem := decide (10 ≤ cls) && decide (cls ≤ 13)
  { j with hid := h.hid, slot := h.slot, idx := h.idx, seq := c.jobs, cls, units := n, bh := h.bh, since := c.cyc, mem
           extra := if mem then Config.accessTime s.tick else 0, link := (h.nextLink j).isSome }

/-- The hart's drain chain after one of its vector instructions: a `tdrain` begins one, a link goes on with it, any other ends it
(R262). -/
def Hart.noteDrain (j : Job) (g : Hart) : Hart :=
  { g with drain := if j.dropped then [] else if j.drain.isSome then [j] else if j.link then j :: g.drain else [] }

/-- A vector instruction reaches its core's dispatch gate (R328). -/
def State.dispatch (s : State) (h : Hart) (cls n : Nat) (j : Job) : State :=
  let j := s.gated h cls n j
  (s.updCore h.q (fun c => { c with gate := insertBy Job.arrives j c.gate, jobs := c.jobs + 1 })).updHartAt h.hid (Hart.noteDrain j)

end Sys2Proof.Machine
end

