-- ==== Sys2Proof/Machine/Clock.lean ====
section
/-! DEFINITION. The cycles of a core's island: the dispatch gate (R328, R330), the vector sequencer and the passes (R54, R55, R74 to
R78, R262), the transit queue and its engine (R263 to R269, R366), lane groups (R51, R333), the slew limiter (R331, R332, R365) and the
island clock (R324 to R327). No result of an instruction depends on them but through the registers that count (R101, R310). -/

namespace Sys2Proof.Machine

/-! ### The dispatch gate (R328, R330) -/

/-- Waiting instructions, each with its charge, released in order while the bucket takes them (R328); the rest wait. At a level of exactly CAP
one of charge 0 goes, also where the level has come down to a CAP that was written below it (R330; DESIGN CHOICE, log 81). -/
def releaseJobs (cap : Nat) (charge : Job → Nat) : Nat → List Job → List Job → Nat × List Job × List Job
  | level, out, [] => (level, out, [])
  | level, out, j :: js =>
    if level + charge j ≤ cap then releaseJobs cap charge (level + charge j) (out ++ [j]) js
    else if cap < charge j ∧ level = 0 then releaseJobs cap charge cap (out ++ [j]) js
    else (level, out, j :: js)

/-- A `tdrain` as the transit queue holds it. -/
def Job.toDrain (j : Job) : TransitJob := ⟨j, .drain, j.drain.getD 0, 0, 0, none⟩

/-- Each `tdrain` past the gate takes its place in the transit queue as soon as an entry is free (R263). -/
def CoreSt.takeDrains (c : CoreSt) : CoreSt :=
  { c with transit := c.transit ++ (c.drains.take (32 - c.transit.length)).map Job.toDrain, drains := c.drains.drop (32 - c.transit.length) }

/-- The gate in a cycle: it leaks, then releases what fits, in the order of arrival, ties going to the lower hart context; a `tdrain`
goes on to the transit queue, the rest to their vector queues, and an instruction that has stopped or been discarded nowhere (R384, R389). -/
def CoreSt.gate1 (c : CoreSt) : CoreSt :=
  let level := c.level - (c.csr.get 0xd41).toNat % 2 ^ 16
  let r := releaseJobs ((c.csr.get 0xd40).toNat % 2 ^ 32) c.charge level [] c.gate
  let out := (r.2.1.filter (fun j => !j.dropped)).map (fun j => { j with since := c.cyc })
  { c with
    level := r.1, gate := r.2.2, throt := if r.2.2.isEmpty then c.throt else min (c.throt + 1) (2 ^ 32 - 1)
    vqueue := c.vqueue ++ out.filter (fun j => j.drain.isNone), drains := c.drains ++ out.filter (fun j => j.drain.isSome) : CoreSt }.takeDrains

/-! ### Readiness at the head of a vector queue (R54, R74 to R76, R147, R182, R265) -/

/-- The older instructions of a hart in flight that a vector instruction meets; a transit instruction counts from its entry into the
queue (R265), a `tdrain` among the passes once it has issued. -/
def CoreSt.met (c : CoreSt) (j : Job) : List Job := c.flight.filter (fun i => i.older j && i.meets j)

def CoreSt.metTransit (c : CoreSt) (j : Job) : Bool :=
  c.transit.any (fun i => i.job.older j && i.job.meets j) ||
    c.tflight.any (fun i => i.kind != .drain && i.job.older j && i.job.meets j)

/-- What R74 to R76 ask of a head but for the results that it waits for: whether it may start, and the instruction that it chains on, if
any (R147, R182, R202). -/
def CoreSt.startable (c : CoreSt) (j : Job) : Option (Option Job) :=
  let old := c.flight.filter (fun i => i.older j)
  if c.metTransit j || old.any (fun i => i.masksHold j || i.latchHolds j c.cyc || i.stairHolds j) ||
      decide (4 ≤ c.flight.countP (fun i => i.slot == j.slot && i.drain.isNone)) || ownedBy c.groups j.slot == 0 then none
  else
    match c.met j with
    | [] => some none
    | [i] => if i.chains j then some (some i) else none
    | _ => none

/-- The results of an instruction for a row are written before a cycle; a row below those that it runs after a stop is written already. -/
def Job.written (i : Job) (r now : Nat) : Bool := decide (r < i.start) || (find i.ends r).any (fun e => decide (e < now))

/-- A head that may issue, and the instruction that it chains on, whose results for its first row are written (R78). -/
def CoreSt.ready (c : CoreSt) (j : Job) : Option (Option Nat) :=
  match c.startable j with
  | none => none
  | some none => some none
  | some (some i) => if i.written j.start c.cyc then some (some i.seq) else none

/-- The heads of a gang's vector queues, one for each hart. -/
def CoreSt.heads (c : CoreSt) (slot : Nat) : List Job :=
  (List.range 4).filterMap (fun idx => c.vqueue.find? (fun j => j.slot == slot && j.idx == idx))

/-- The heads that may issue in this cycle. -/
def CoreSt.candidates (c : CoreSt) (slot : Nat) : List (Job × Option Nat) :=
  (c.heads slot).filterMap (fun j => (c.ready j).map (fun on => (j, on)))

/-! ### The vector sequencer (R54, R55) -/

/-- HPRI of a core's hart (R47). -/
def State.hpri (s : State) (hid : Nat) : Nat := ((s.hartAt hid).map (fun h => bits (h.getCsr 0xc40).toNat 7 6)).getD 0

/-- Hart-index distance from a gang's round-robin pointer, modulo the gang's size. -/
def Gang.turn (g : Gang) (idx : Nat) : Nat := (idx + g.ctxs.length - g.rr % g.ctxs.length) % g.ctxs.length

/-- `a` comes before `b`: by HPRI, then by the cycle of its entry into the queue, then from the pointer on. -/
def State.issuesFirst (s : State) (g : Gang) (a b : Job) : Bool :=
  let p := s.hpri a.hid
  let q := s.hpri b.hid
  decide (q < p) || (p == q && (decide (a.since < b.since) || (a.since == b.since && decide (g.turn a.idx ≤ g.turn b.idx))))

/-- A hart has already won over another's head of its own HPRI: it wins no second time over that head, so that R55's promise holds
beside the order of R54 (R55; DESIGN CHOICE, log 59). -/
def State.barred (s : State) (g : Gang) (js : List (Job × Option Nat)) (a : Job) : Bool :=
  js.any (fun b => s.hpri b.1.hid == s.hpri a.hid && g.passed.contains (a.idx, b.1.seq))

/-- The winner among a gang's candidates (R54, R55). -/
def State.winner (s : State) (c : CoreSt) (g : Gang) : Option (Job × Option Nat) :=
  let js := c.candidates g.slot
  ((js.foldr (insertBy (fun a b => s.issuesFirst g a.1 b.1)) []).filter (fun a => !s.barred g js a.1)).head?

/-- A gang after its hart's head of a number has won: the pointer is past the hart, and the other candidates of the same HPRI are passed
over; what is noted of heads that have left their queues goes. -/
def State.noteWin (s : State) (c : CoreSt) (j : Job) (g : Gang) : Gang :=
  let lost := ((c.candidates g.slot).filter (fun b => b.1.seq != j.seq && s.hpri b.1.hid == s.hpri j.hid)).map (fun b => (j.idx, b.1.seq))
  { g with rr := (j.idx + 1) % g.ctxs.length
           passed := lost ++ g.passed.filter (fun p => !lost.contains p && p.2 != j.seq && c.vqueue.any (fun i => i.seq == p.2)) }

/-- An instruction leaves its queue and is in flight; one without passes has its results 8 cycles later, as if after an empty pass
(DESIGN CHOICE, log 5). -/
def CoreSt.issue (c : CoreSt) (j : Job) (on : Option Nat) (fused : Option (Nat × Nat)) : CoreSt :=
  let j := { j with chain := on, fused, ends := if j.rows = 0 then [(j.start, c.cyc + 7)] else [] }
  { c with vqueue := c.vqueue.filter (fun i => i.seq != j.seq), flight := c.flight ++ [j] }

/-- A gang's decision: the winner issues. -/
def State.decide1 (s : State) (g : Gang) : State :=
  let c := s.coreAt g.core
  match s.winner c g with
  | none => s
  | some (j, on) => (s.setGang (s.noteWin c j g)).updCore g.core (fun c => c.issue j on none)

/-- The gangs of a core. -/
def State.gangsOn (s : State) (q : Nat) : List Gang := s.gangs.filter (fun g => g.core == q)

/-- The vector sequencer in a cycle: at most one decision for each resident gang. -/
def State.sequence (s : State) (q : Nat) : State :=
  if (s.coreAt q).decided then s
  else ((s.gangsOn q).foldl State.decide1 s).updCore q (fun c => { c with decided := true })

/-! ### Passes (R51, R78, R262) -/

/-- A row of a chained instruction begins after the results of the older one for that row are written (R75). -/
def CoreSt.chainFree (c : CoreSt) (j : Job) : Bool :=
  match j.chain with
  | none => true
  | some n =>
    match c.flight.find? (fun i => i.seq == n) with
    | none => true
    | some i => i.written (j.start + j.begun) c.cyc

/-- The instruction whose pass a gang runs next: passes begin in issue order, and a later instruction begins its first only after
every pass of every earlier one has begun; a link of a drain chain runs in the passes of its `tdrain`. -/
def CoreSt.nextPass (c : CoreSt) (slot : Nat) : Option Job :=
  match c.flight.find? (fun j => j.slot == slot && j.fused.isNone && !j.begunAll) with
  | none => none
  | some j => if c.midPass slot || ownedBy c.groups slot == 0 || !c.chainFree j then none else some j

/-- The links that join a `tdrain` whose first pass begins: each is at its queue head, chains on the link before, and is otherwise
ready; at most n of them. -/
def CoreSt.joinDrain (d : Nat) : Nat → Nat → Job → CoreSt → CoreSt
  | 0, _, _, c => c
  | n + 1, k, prev, c =>
    match c.vqueue.find? (fun j => j.hid == prev.hid) with
    | none => c
    | some j =>
      if j.link && (c.startable j).any (fun on => on.any (fun i => i.seq == prev.seq)) && !c.flight.any (fun i => prev.older i) then
        CoreSt.joinDrain d n (k + 1) j (c.issue j (some prev.seq) (some (d, k)))
      else c

/-- A pass of an instruction and of the links fused with it. -/
def CoreSt.runPass (c : CoreSt) (j : Job) : CoreSt :=
  let c := if j.drain.isSome && j.begun == 0 then CoreSt.joinDrain j.seq 4 1 j c else c
  let links := c.flight.filter (fun i => i.fused.any (fun f => f.1 == j.seq))
  let g := ownedBy c.groups j.slot
  let n := if links.isEmpty then j.cycles g else passCycles (j :: links) (j.start + j.begun) g
  let mine (i : Job) : Bool := i.seq == j.seq || i.fused.any (fun f => f.1 == j.seq)
  { c with
    flight := c.flight.map (fun i => if mine i then i.pass c.cyc n else i)
    busy := put c.busy j.slot (some (c.cyc + n)) }

/-- The passes that begin in a cycle, one for each gang. -/
def CoreSt.runPasses (c : CoreSt) : CoreSt :=
  (List.range 4).foldl (fun (c : CoreSt) slot => match c.nextPass slot with
    | none => c
    | some j => c.runPass j) c

/-! ### The transit queue (R263 to R266, R366) -/

/-- An older entry in flight keeps a younger one of its tile waiting (R264). -/
def TransitJob.holds (old new : TransitJob) : Bool :=
  old.job.slot == new.job.slot && old.tile == new.tile &&
  (match new.kind, old.kind with
   | .load, .load | .load, .mac | .load, .macHalf | .load, .mac32 => true
   | .mac, .load | .mac, .zero | .mac, .drain => true
   | .mac32, .load | .mac32, .zero | .mac32, .drain => true
   | .macHalf, .load | .macHalf, .zero | .macHalf, .drain => true
   | .zero, .mac | .zero, .macHalf | .zero, .mac32 | .zero, .drain => true
   | .drain, .mac | .drain, .macHalf | .drain, .mac32 | .drain, .zero => true
   | _, _ => false)

/-- The limiter meters the entry (R332). -/
def TransitKind.metered : TransitKind → Bool
  | .mac | .macHalf | .mac32 | .fill => true
  | _ => false

/-- What an entry occupies is free in a cycle (R266). -/
def CoreSt.free (c : CoreSt) (k : TransitKind) : Bool :=
  match k with
  | .load => decide (c.port ≤ c.cyc)
  | .zero => decide (c.wport ≤ c.cyc)
  | .mac | .macHalf | .mac32 => decide (c.array ≤ c.cyc)
  | .drain | .fill => true

/-- The plates of an older vector instruction of the hart, from its dispatch on, or of an older transit instruction in flight keep an
entry waiting (R265). -/
def CoreSt.platesHold (c : CoreSt) (j : TransitJob) : Bool :=
  let held (i : Job) : Bool := i.older j.job && i.meets j.job
  c.gate.any held || c.vqueue.any held || c.flight.any held || c.tflight.any (fun i => held i.job)

/-- An older vector instruction of the hart, from its dispatch on, keeps an entry waiting over the mask registers that a `tdrain` reads
(R147). -/
def CoreSt.masksKeep (c : CoreSt) (j : TransitJob) : Bool :=
  let held (i : Job) : Bool := i.older j.job && i.masksHold j.job
  c.gate.any held || c.vqueue.any held || c.flight.any held

/-- Entry i of the queue is ready but for the engine and the grant: no older entry of its gang waits, and the scoreboard, the plates, the
mask registers of a `tdrain` and what it occupies allow it; `gone` has issued before it in this cycle. -/
def CoreSt.entryReady (c : CoreSt) (gone : Option Nat) (i : Nat) : Option TransitJob :=
  match c.transit[i]? with
  | none => none
  | some j =>
    if ((List.range i).any (fun n => some n != gone && (c.transit[n]?).any (fun o => o.job.slot == j.job.slot))) ||
        c.tflight.any (fun o => o.holds j) || c.platesHold j || c.masksKeep j ||
        !c.free j.kind then none
    else some j

/-- The entries that are ready but for the engine and the grant, oldest first, by their place. -/
def CoreSt.readyEntries (c : CoreSt) (gone : Option Nat) (lo : Nat) : List (Nat × TransitJob) :=
  (List.range' lo (c.transit.length - lo)).filterMap (fun i => (c.entryReady gone i).map (fun j => (i, j)))

/-- RAMP[j] of a die's limiter (R331). -/
def DieSt.ramp (d : DieSt) (j : Nat) : Nat :=
  let v := bits d.slewRamp.toNat (3 * j + 2) (3 * j)
  if v = 0 then 1 else if 4 < v then 4 else v

/-- The limiter grants the core one more slot in this step (R332). -/
def DieSt.grants (d : DieSt) (c : CoreSt) : Bool :=
  match c.slew with
  | none => false
  | some j => decide (c.slewSlots < d.ramp j)

/-- An entry in flight from this cycle on, with what it occupies (R266). -/
def CoreSt.fly (c : CoreSt) (j : TransitJob) : CoreSt :=
  let c := { c with slewIssued := if j.kind = .fill then max c.slewIssued 1 else if j.kind.metered then 2 else c.slewIssued }
  let put (n : Nat) : List TransitJob := c.tflight ++ [{ j with done := some (c.cyc + n) }]
  match j.kind with
  | .load => { c with tflight := put (j.port + 3), port := c.cyc + j.port }
  | .mac | .macHalf => { c with tflight := put 11 }
  | .mac32 => { c with tflight := put 14, array := c.cyc + 4 }
  | .zero => { c with tflight := put 3, wport := c.cyc + 4 }
  | .drain => { c with tflight := c.tflight ++ [j], flight := c.flight ++ [j.job] }
  | .fill => c

/-- Entry i issues: it leaves the queue, a `tfill` with its last filler, and a waiting `tdrain` has its place. -/
def CoreSt.issueEntry (c : CoreSt) (i : Nat) (j : TransitJob) : CoreSt :=
  let c := c.fly j
  if j.kind = .fill ∧ 1 < j.count then { c with transit := c.transit.set i { j with count := j.count - 1 } }
  else { c with transit := c.transit.eraseIdx i : CoreSt }.takeDrains

/-- The oldest ready entry issues, an h8 or i4 `tmac` with the next ready one where that is another, for one slot (R263). -/
def CoreSt.issueReady (c : CoreSt) (d : DieSt) : CoreSt :=
  let granted (x : Nat × TransitJob) : Bool := !x.2.kind.metered || d.grants c
  match (c.readyEntries none 0).find? granted with
  | none => c
  | some (i, j) =>
    let pair := if j.kind = .macHalf then
        match (c.readyEntries (some i) (i + 1)).find? granted with
        | some (n, k) => if k.kind = .macHalf then some (n, k) else none
        | none => none
      else none
    let c := match pair with
      | some (n, k) => (c.issueEntry n k).issueEntry i j
      | none => c.issueEntry i j
    { c with slewSlots := if j.kind.metered then c.slewSlots + 1 else c.slewSlots, tissued := true, engine := .awake 0 }

/-- The transit engine in a cycle: one issue; an entry that a gated engine keeps waiting starts a wake of 96 cycles (R269). -/
def CoreSt.transit1 (c : CoreSt) (d : DieSt) : CoreSt :=
  if c.tissued then c
  else
    match c.engine with
    | .waking _ => c
    | .gated => if (c.readyEntries none 0).isEmpty then c else { c with engine := .waking (c.cyc + 96) }
    | .awake _ => c.issueReady d

/-- An entry has been in flight for its time: a `tdrain` until the results of its last row are written. -/
def CoreSt.landed (c : CoreSt) (j : TransitJob) : Bool :=
  match j.done with
  | some n => decide (n < c.cyc)
  | none => !c.flight.any (fun i => i.seq == j.job.seq)

/-- Transit instructions complete. -/
def CoreSt.landTransit (c : CoreSt) : CoreSt := { c with tflight := c.tflight.filter (fun j => !c.landed j) }

/-! ### The engine's power (R269) -/

/-- Nothing is in the transit queue or in flight, and the engine has issued nothing in this cycle. -/
def CoreSt.engineIdle (c : CoreSt) : Bool := c.transit.isEmpty && c.tflight.isEmpty && !c.tissued

/-- The end of a cycle that is the engine's CYCLES-th idle one, TIDLE.CYCLES being not 0: it gates. -/
def CoreSt.gateEngine (c : CoreSt) : CoreSt :=
  match c.engine with
  | .awake n =>
    let idle := (c.csr.get 0xd48).toNat % 2 ^ 16
    if c.engineIdle && decide (idle ≠ 0) && decide (idle ≤ n + 1) then { c with engine := .gated } else c
  | _ => c

/-- A wake ends. -/
def CoreSt.wakeEngine (c : CoreSt) : CoreSt :=
  match c.engine with
  | .waking n => if n ≤ c.cyc then { c with engine := .awake 0 } else c
  | _ => c

/-- The engine's idle count after a cycle in which its queue was or was not empty with nothing in flight. -/
def CoreSt.countIdle (c : CoreSt) : CoreSt :=
  match c.engine with
  | .awake n => { c with engine := .awake (if c.engineIdle then n + 1 else 0) }
  | _ => c

/-! ### Gated lane groups (R333) -/

/-- A group that no gang has had for 64 cycles gates. -/
def CoreSt.groupIdle (c : CoreSt) (g : LaneGroup) : Bool :=
  g.owner.isNone && g.dest.isNone && g.wake.isNone && !g.gated && decide (g.idle + 64 ≤ c.cyc)

def CoreSt.gateGroup (c : CoreSt) (n : Nat) : CoreSt :=
  { c with groups := c.groups.modify n (fun g => if c.groupIdle g then { g with gated := true } else g) }

/-- A group's wake of 16 cycles has ended. -/
def CoreSt.groupAwake (c : CoreSt) (g : LaneGroup) : Bool := g.wake.any (fun n => decide (n ≤ c.cyc))

/-- It joins its gang at that gang's pass boundary. -/
def CoreSt.wakeGroup (c : CoreSt) (n : Nat) : CoreSt :=
  { c with groups := c.groups.modify n (fun g =>
      if c.groupAwake g then ({ g with gated := false, wake := none, idle := c.cyc } : LaneGroup).join c.midPass else g) }

/-! ### The island clock (R324 to R327) -/

/-- INC of R327: nominal cycles to an island cycle, in units of 2^−16. -/
def CoreSt.inc (c : CoreSt) : Nat := 940 * 2 ^ 16 / c.cur

/-- The counters advance by one island cycle; a relock stops them. -/
def CoreSt.count (c : CoreSt) : CoreSt :=
  { c with cyc := c.cyc + 1, ncyc := c.ncyc + c.inc, time := c.time + c.inc, decided := false, tissued := false }

/-- A core's cycle ends and its next one begins: its counters advance, completed instructions leave, groups move, and the gate works
(R327, R328). -/
def State.nextCycle (s : State) (q : Nat) : State :=
  if (s.coreAt q).relock.isSome then s
  else
    s.updCore q (fun c =>
      let c := c.countIdle.count
      let c := { c with flight := c.flight.filter (fun j => !j.complete c.cyc) }
      (c.moveGroups (s.targets q)).gate1)

/-- A ramp's step: up, the voltage rises to the next point's before the relock to it; down, the relock comes first (R324). -/
def CoreSt.rampStep (c : CoreSt) : CoreSt :=
  if c.relock.isSome then c
  else if c.cur < c.target then { c with volt := max c.volt (c.cur + 10), relock := some true }
  else if c.target < c.cur then { c with relock := some false }
  else { c with volt := c.cur }

/-- Uncore cycles in the units of R327. -/
def uncore (n : Nat) : Nat := n * 2 ^ 16

/-- A relock ends after 24 uncore cycles, the island's clock stopped: the point is complete, and after a move down the voltage
falls. -/
def CoreSt.relocked (c : CoreSt) : CoreSt :=
  match c.relock with
  | none => c
  | some up =>
    let cur := if up then c.cur + 10 else c.cur - 10
    { c with cur, volt := if up then c.volt else cur, relock := none, time := c.time + uncore 24, rstall := min (c.rstall + 24) (2 ^ 32 - 1) }

/-! ### The slew limiter (R331, R332, R365) -/

/-- QUIET and SMAX of a die's limiter. -/
def DieSt.quiet (d : DieSt) : Nat := max 1 (bits d.slewCfg.toNat 13 8)
def DieSt.smax (d : DieSt) : Nat := max 1 (min 64 (bits d.slewCfg.toNat 6 0))

/-- The uncore time at which a die's present step ends. -/
def DieSt.boundary (d : DieSt) : Nat := uncore (4 * (d.steps + 1))

/-- A core that has met QUIET empty steps is quiet. -/
def CoreSt.quieten (c : CoreSt) (quiet : Nat) : CoreSt :=
  if quiet ≤ c.slewEmpty then { c with slew := none, slewEmpty := 0 } else c

/-- A core at the end of a step. -/
def CoreSt.stepEnd (c : CoreSt) (quiet : Nat) : CoreSt :=
  match c.slew with
  | none => { c with slewIssued := 0, slewSlots := 0, slewEmpty := 0 }
  | some j =>
    let c := if c.slewIssued = 2 then { c with slew := some (min (j + 1) 15), slewEmpty := 0 }
      else if c.slewIssued = 1 then { c with slew := some (j - 1), slewEmpty := 0 }
      else { c with slewEmpty := c.slewEmpty + 1 }
    { c.quieten quiet with slewIssued := 0, slewSlots := 0 }

/-- A quiet core whose queue head is a `tmac` or a filler that is ready in every other respect, with the engine awake. -/
def CoreSt.wantsStart (c : CoreSt) : Bool :=
  c.slew.isNone &&
    (match c.engine, c.entryReady none 0 with
     | .awake _, some j => j.kind.metered
     | _, _ => false)

/-- Up to n of a die's waiting cores started, in ascending order from the pointer, which then names the core after the last. -/
def startCores (d ptr : Nat) : Nat → List Nat → State → State
  | _, [], s => s
  | 0, _, s => s
  | n + 1, k :: ks, s =>
    let q := 8 * ((ptr + k) % 64) + d
    if (s.coreAt q).wantsStart then
      let s := s.updCore q (fun c => { c with slew := some 0, slewEmpty := 0 })
      startCores d ptr n ks (s.setDie { s.dieAt d with slewPtr := ((ptr + k) % 64 + 1) % 64 })
    else startCores d ptr (n + 1) ks s

/-- A die's step ends and the next begins: what was written to its registers takes effect, ramp states move, and waiting cores
start. -/
def State.slewBoundary (s : State) (d : Nat) : State :=
  let e := s.dieAt d
  let s := { s with cores := s.cores.map (fun (c : CoreSt) => if c.q % 8 == d then c.stepEnd e.quiet else c) }
  let e := { e with steps := e.steps + 1, slewCfg := s.getMgmt (0x400000 + 0x1000 * d), slewRamp := s.getMgmt (0x400008 + 0x1000 * d) }
  startCores d e.slewPtr e.smax (List.range 64) (s.setDie e)

/-! ### Whole cycles -/

/-- What is there at the beginning of a cycle: transit instructions have completed, and wakes have ended. Twice in a cycle is as once. -/
def CoreSt.opened (c : CoreSt) : CoreSt :=
  (List.range c.groups.length).foldl CoreSt.wakeGroup c.landTransit.wakeEngine

/-- The transit engine and the passes of a core in a cycle, and what of it gates at the end. -/
def CoreSt.work (c : CoreSt) (d : DieSt) : CoreSt :=
  ((List.range c.groups.length).foldl CoreSt.gateGroup (c.transit1 d).runPasses).gateEngine

/-- What is left to do in a core's present cycle, and the beginning of the next one; or the end of its relock. -/
def State.coreCycle (s : State) (q : Nat) : State :=
  if (s.coreAt q).relock.isSome then s.updCore q CoreSt.relocked
  else
    let s := (s.updCore q CoreSt.opened).sequence q
    (s.updCore q (fun c => c.work (s.dieAt (q % 8)))).nextCycle q

/-- A core's cycles until it has reached an uncore time, at most n. -/
def State.catchUp (s : State) (q time : Nat) : Nat → State
  | 0 => s
  | n + 1 => if time ≤ (s.coreAt q).time then s else (s.coreCycle q).catchUp q time n

/-- A core run to a boundary, in the cycle that begins there or after it; a cycle advances the time. -/
def State.toBoundary (s : State) (q time : Nat) : State := (s.catchUp q time (time - (s.coreAt q).time)).updCore q CoreSt.opened

/-- A step of a die's limiter: its cores run to the end of the step, then the boundary, which sees them as the cycle that begins there
does (R332). -/
def State.slewStep (s : State) (d : Nat) : State :=
  let t := (s.dieAt d).boundary
  (((s.cores.filter (fun c => c.q % 8 == d)).map (fun c => c.q)).foldl (fun (s : State) q => s.toBoundary q t) s).slewBoundary d

/-- Boundaries of a core's die passed, at most n, until the core's time lies in the present step. -/
def State.boundaries (s : State) (q : Nat) : Nat → State
  | 0 => s
  | n + 1 => if (s.coreAt q).time < (s.dieAt (q % 8)).boundary then s else (s.slewStep (q % 8)).boundaries q n

/-- k island cycles of a core. -/
def State.runCycles (s : State) (q : Nat) : Nat → State
  | 0 => s
  | k + 1 => (((s.boundaries q 7).coreCycle q).runCycles q k)

/-- The cycles that pass on a core before one of its counters is read (DESIGN CHOICE, log 5). -/
def State.passTime (s : State) (q : Nat) : State := s.runCycles q (Config.cycles s.tick)

/-! ### What a hart has outstanding (R138, R245) -/

/-- An instruction of a hart is at the gate, or a `tdrain` waits for its place in the transit queue: the hart dispatches nothing younger
(R263, R328). -/
def CoreSt.stalls (c : CoreSt) (hid : Nat) : Bool := c.gate.any (fun j => j.hid == hid) || c.drains.any (fun j => j.hid == hid)

/-- A vector or transit instruction of a hart has not completed. -/
def CoreSt.outstanding (c : CoreSt) (hid : Nat) : Bool :=
  c.stalls hid || c.vqueue.any (fun j => j.hid == hid) || c.flight.any (fun j => j.hid == hid) ||
    c.transit.any (fun j => j.job.hid == hid) || c.tflight.any (fun j => j.job.hid == hid)

/-! ### The event that a core's machinery has to make -/

/-- Nothing of a core moves in time: no instruction is under way, what is idle is gated, and no ramp is due. -/
def CoreSt.still (c : CoreSt) : Bool :=
  c.gate.isEmpty && c.drains.isEmpty && c.vqueue.isEmpty && c.flight.isEmpty && c.transit.isEmpty && c.tflight.isEmpty && c.slew.isNone &&
    (match c.engine with
     | .awake _ => decide ((c.csr.get 0xd48).toNat % 2 ^ 16 = 0)
     | .gated => true
     | .waking _ => false) &&
    c.groups.all (fun g => g.dest.isNone && g.wake.isNone && (g.owner.isSome || g.gated))

/-- The event that comes next on a core: in a cycle, what has completed and wakes, the sequencer, the transit engine, the passes, what
gates; then the next cycle. A relock comes before all, a ramp's step when the free choice says so (DESIGN CHOICE, log 5), and a step of the
limiter as soon as the core is in a cycle past its end. -/
def State.coreWork (s : State) (q : Nat) : Option Instr :=
  let c := s.coreAt q
  let d := s.dieAt (q % 8)
  let ramp := decide (c.target ≠ c.cur ∨ c.volt ≠ c.cur)
  if c.relock.isSome then some (.relockEnd q)
  else if ramp && (Config.rampMoves s.tick || c.still) then some (.freqRampStep q)
  else if c.still then none
  else if c.tflight.any c.landed then some (.transitOpComplete q)
  else if c.wakeEngine != c then some (.transitWake q)
  else
    match (List.range c.groups.length).find? (fun n => (c.groups[n]?).any c.groupAwake) with
    | some n => some (.laneGroupWake q n)
    | none =>
      if d.boundary ≤ c.time then some (.slewStep (q % 8))
      else if !c.decided && (s.gangsOn q).any (fun g => (s.winner c g).isSome) then some (.vectorIssue q)
      else if c.transit1 d != c then some (.transitIssue q)
      else if (List.range 4).any (fun slot => (c.nextPass slot).isSome) then some (.vectorPass q)
      else
        match (List.range c.groups.length).find? (fun n => (c.groups[n]?).any c.groupIdle) with
        | some n => some (.laneGroupGate q n)
        | none => if c.gateEngine != c then some (.transitGate q) else some (.dispatchGate q)

/-! ### Drain chains (R262) -/

/-- A `tdrain` has issued and begun its first pass, or it is gone. -/
def CoreSt.started (c : CoreSt) (seq : Nat) : Bool :=
  !((c.gate.any (fun j => j.seq == seq) || c.drains.any (fun j => j.seq == seq) || c.transit.any (fun j => j.job.seq == seq) ||
    c.flight.any (fun j => j.seq == seq && j.begun == 0)))

/-- A core's cycles until the `tdrain` of a number has begun its first pass, at most n. -/
def State.untilStarted (s : State) (q d : Nat) : Nat → State
  | 0 => s
  | n + 1 => if (s.coreAt q).started d then s else ((s.boundaries q 7).coreCycle q).untilStarted q d n

/-- The cycles that pass before an instruction is dispatched, where the free choice has its chain's `tdrain` begin before it
(DESIGN CHOICE, log 5). -/
def State.letDrainGo (s : State) (h : Hart) (j : Job) : State :=
  match h.nextLink j with
  | none => s
  | some d => if Config.joins s.tick then s else s.untilStarted h.q d.seq (2 ^ 18)

/-- A vector instruction joins its hart's drain chain: it is at its queue head and otherwise ready no later than the cycle in which the
`tdrain` begins its first pass. So do the core's cycles from its dispatch on show it, and where something rests on it, a stop or the element
that a resumed instruction starts at, those cycles pass (`State.settleLink`); where nothing does, it joins as the passes come to it
(DESIGN CHOICE, log 5). -/
def State.joins (s : State) (h : Hart) (cls n : Nat) (j : Job) : Bool :=
  match h.nextLink j with
  | none => false
  | some d =>
    !(s.coreAt h.q).started d.seq &&
      (let c := ((s.dispatch h cls n j).untilStarted h.q d.seq (2 ^ 18)).coreAt h.q
       !c.started d.seq || c.flight.any (fun i => i.seq == (s.coreAt h.q).jobs && i.fused.isSome))

/-- The cycles that show whether an instruction has joined its hart's drain chain pass (R262, R375). -/
def State.settleLink (s : State) (h : Hart) (j : Job) : State :=
  match h.nextLink j with
  | none => s
  | some d => s.untilStarted h.q d.seq (2 ^ 18)

end Sys2Proof.Machine
end

