-- ==== Sys2Proof/Machine/Vector.lean ====
section
/-! DEFINITION. The element loop that the vector instructions share: the checks of R387, plate fills, stream
consumption, the sweep with its stop classes (R27, R111, R121, R375, R376, R383, R385, R391). -/

namespace Sys2Proof.Machine

/-- What a sweep comes to. -/
inductive Swept where
  | ok (h : Hart) (fl : Flags)
  /-- Element i raised an enabled flag, FSTAT bit b; the elements below it are in `h`, their flags in `fl`. -/
  | stop (h : Hart) (fl : Flags) (i b : Nat)
  deriving DecidableEq, Repr

/-- The active elements of a list of sweep indices, in order; an element whose flag is enabled stops the sweep with
nothing of it done. -/
def sweep (fen : Flags) (vl : Nat) (act : Nat → Nat → Bool) (el : Hart → Nat → Nat → Hart × Flags) :
    List Nat → Hart → Flags → Swept
  | [], h, fl => .ok h fl
  | i :: is, h, fl =>
    if act (i / vl) (i % vl) then
      let r := el h (i / vl) (i % vl)
      match trapFlag fen r.2 with
      | some b => .stop h fl i b
      | none => sweep fen vl act el is r.1 (fl ||| r.2)
    else sweep fen vl act el is h fl

/-- The flag of an FSTAT bit number. -/
def flagBit (b : Nat) : Flags := 1#6 <<< b

/-- A vector instruction as the shared loop runs it: its items are positions (r, e) with r < `rc` and e < `vl`. -/
structure Vec where
  /-- Aperture operands in field order, with what they must cover. -/
  ops : List Opd
  /-- Sources over the whole sweep, and sources used in logical row 0 only. -/
  srcs : List Ap
  srcs1 : List Ap := []
  /-- Sources that addresses are computed from. -/
  addrAps : List Ap := []
  dsts : List Ap
  typesOk : Bool
  /-- Illegal uses of the mnemonic's own, with reasons below and above that of a stream-bound entry (R388, R389, R407). -/
  own : Option TrapRec := none
  own2 : Option TrapRec := none
  /-- An illegal use that lies in the values of one source at the items below a number, and that source (R389, R407). -/
  valueAp : Option Ap := none
  value : Hart → Nat → Option TrapRec := fun _ _ => none
  rc : Nat
  vl : Nat
  /-- The sweep holds an element: only then are cover checks made (R387). -/
  swept : Bool := decide (0 < vl) && decide (0 < rc)
  guard : Guard
  act : Nat → Nat → Bool
  /-- The sweep of streamed operands (R224), and the item that reads each of its positions. -/
  srows : Nat := rc
  sels : Nat := vl
  item : Nat → Nat → Nat := fun r e => r * vl + e
  /-- The elements of the sources used in row 0 only: how many, which are read, and an item that no reader precedes. -/
  els1 : Nat := sels
  use1 : Hart → Nat → Bool := fun h e => h.guardBit guard e && (List.range srows).any (fun r => h.km.getLsbD r)
  item1 : Nat → Nat := fun e => e
  /-- Whole-instruction class (R375). -/
  whole : Bool := false
  /-- It runs in snapshot mode; looked at only when an element stops it or SWI is not 0. -/
  snap : Bool := false
  /-- Weight class, charged elements and swept rows (R328, R329). -/
  cls : Nat
  charge : Nat
  rows : Nat := rc
  /-- For the interlocks: destinations that it also reads (R73), mask registers that it reads besides its guard and writes (R147), its
  use of the latch (R182), and whether it can be a link of a drain chain (R262); its passes, and the tile of a `tdrain`. -/
  reread : List Ap := []
  ks : List Nat := []
  kw : List Nat := []
  clR : Bool := false
  clW : Bool := false
  link : Bool := false
  shape : PassShape := .row 1
  drain : Option Nat := none
  /-- The operands whose rates its passes take (R79, R172, R182), its use of the stair and the record bytes of a row (R202). -/
  pace : Opd → Bool := fun _ => true
  stair : Option StairUse := none
  recBytes : Nat := 0
  /-- TAP of an enabled flag and the cell that TCELL names (R383, R391). -/
  tap : Ap
  cell : Nat → Nat → Nat × Nat
  /-- The effect at an item: from the hart with its streamed cells and the hart so far. -/
  el : Hart → Hart → Nat → Nat → Hart × Flags
  /-- What follows the sweep: the hart as its sources were read, the hart after it, and the flags raised. -/
  last : State → Hart → Hart → Flags → Exec := fun s _ h fl => .done (s.setHart (h.orFlags fl))

/-- An entry that a Vec reads is bound to a stream. -/
def Vec.streamed (v : Vec) (h : Hart) : Bool := (v.srcs ++ v.srcs1).any (fun n => (h.apt n).sb)

/-- The values that an illegal use may lie in come from a stream. -/
def Vec.valueStreamed (v : Vec) (h : Hart) : Bool := v.valueAp.any (fun n => (h.apt n).sb)

/-- The illegal use of the lowest code (R387). -/
def lowestCode (l : List TrapRec) : Option TrapRec :=
  l.foldl (fun b t => match b with
    | none => some t
    | some u => if t.code < u.code then some t else b) none

/-- The illegal uses that follow the others in code order: bad values, the rules of R224, and what has a higher reason. -/
def Vec.late? (v : Vec) (h : Hart) : Option TrapRec :=
  lowestCode ((if v.valueStreamed h then none else v.value h (v.rc * v.vl)).toList ++
    ((h.streamFault v.dsts (v.srcs ++ v.srcs1)).map (fun n => illegalUse 0x44 (some n.toNat))).toList ++ v.own2.toList)

/-- The illegal uses that the captured operands show without the values of elements, in ascending order (R386, R387, R407). -/
def Vec.fault? (v : Vec) (h : Hart) : Option TrapRec :=
  match h.sharedFault v.ops v.swept v.typesOk with
  | some t => some t
  | none =>
    match v.own with
    | some t => some t
    | none => if v.valueAp.isNone then v.late? h else none

/-- The instruction as one that reads a stream or belongs to the whole-instruction class (R225, R375). -/
def Vec.isWhole (v : Vec) (h : Hart) : Bool := v.whole || v.streamed h || v.snap

/-- The item that the sweep starts at (R376). -/
def Vec.first (v : Vec) (h : Hart) : Nat := if h.swi = 0 then 0 else if v.isWhole h then 0 else h.swi

/-- The swept rows that take passes (R385). -/
def Vec.passes (v : Vec) (h : Hart) : Nat := if v.charge = 0 then 0 else v.rows - v.first h / v.vl

/-- The entry of an operand as the instruction captures it. -/
def Vec.taken (v : Vec) (h : Hart) (o : Opd) (write : Bool) : SweptAp :=
  ⟨h.ap.get o.n.toNat, write, o.rows, if o.els = 0 then v.vl else o.els, v.pace o⟩

/-- The instruction as the core's queues hold it (R71, R73, R147, R182). The cells of a stream-bound source are written too (R224). -/
def Vec.job (v : Vec) (h : Hart) : Job :=
  let writes (o : Opd) : Bool := o.dest && v.dsts.contains o.n
  { ops := v.ops.map (fun o => v.taken h o (writes o)) ++
      (v.ops.filter (fun o => v.reread.contains o.n)).map (fun o => v.taken h o false) ++
      (v.ops.filter (fun o => !writes o && (h.apt o.n).sb)).map (fun o => v.taken h o true)
    rc := v.srows, vl := v.sels, shape := v.shape, snap := v.snap, kr := (v.guard.k :: v.ks).filter (fun k => k != 0) ++ [8]
    kw := v.kw.filter (fun k => k != 0), clR := v.clR, clW := v.clW, clOnly := v.clW && v.dsts.isEmpty, link := v.link, drain := v.drain
    stair := v.stair, recBytes := v.recBytes, start := v.first h / v.vl, rows := v.passes h }

/-- The streams of the sources consumed (R224, R225). At one element, a source of row 0 and the earlier operand come first. -/
def Vec.feed (v : Vec) (s : State) (h : Hart) : Fed :=
  let f : Fed := ⟨s, h, [], none, []⟩
  if v.streamed h then
    let all := (List.range v.srows).flatMap (fun r => (List.range v.sels).map (fun e => (v.item r e, r, e)))
    let items := (List.range (v.rc * v.vl)).filter (fun i => v.act (i / v.vl) (i % v.vl))
    let one := ((List.range v.els1).filter (v.use1 h)).map (fun e =>
      ((items.find? (fun i => decide (v.item1 e ≤ i))).getD (items.getLast?.getD 0), 0, e))
    let size := v.srows * v.sels
    let f := v.srcs1.foldl (Fed.source h v.sels size one) f
    v.srcs.foldl (Fed.source h v.sels size (all.filter (fun p => h.active v.guard p.2.1 p.2.2))) f
  else f

/-- The items that precede what stops the reading of the streams. -/
def Vec.limit (v : Vec) (f : Fed) : Nat := f.stop.elim (v.rc * v.vl) (fun x => min x.item (v.rc * v.vl))

/-- The trap of a stream whose element cannot be read (R225, R397). -/
def FeedStop.trap (x : FeedStop) (s : State) (h : Hart) : Exec := s.missTrap h 1 x.miss 0 (some x.ap.toNat) (some x.cell)

/-- The effect at an item, with the flags of its streamed elements. -/
def Vec.effect (v : Vec) (f : Fed) (h : Hart) (r e : Nat) : Hart × Flags :=
  let x := v.el f.h h r e
  (x.1, x.2 ||| f.flags (r * v.vl + e))

/-- The sweep of an instruction whose checks passed, whose plates are present and whose streams are read: `h` is the hart
before the instruction. -/
def Vec.finish (v : Vec) (h : Hart) (f : Fed) : Exec :=
  match sweep h.fen v.vl v.act (v.effect f) (List.range' (v.first h) (v.limit f - v.first h)) f.h 0 with
  | .ok h2 fl =>
    match f.stop with
    | none => v.last f.s f.h h2 fl
    | some x => x.trap f.s h
  | .stop h2 fl i b =>
    let t : TrapRec := { code := 0x2000 + b, tap := some v.tap.toNat, tcell := some (v.cell (i / v.vl) (i % v.vl)) }
    if v.isWhole h then .trap (f.s.setHart (h.orFlags (flagBit b))) t
    else .trap (f.s.setHart (h2.orFlags (fl ||| flagBit b))) { t with tswi := i }

/-- The checks of an instruction, its plates made present, the checks of its values and its streams, then the rest. -/
def Vec.check (v : Hart → Vec) (s : State) (h : Hart) (k : Vec → Hart → Fed → Exec) : Exec :=
  match (v h).fault? h with
  | some t => .trap s t
  | none =>
    withPlates ((v h).ops.map (fun o => h.apt o.n)) 257 s h (fun s h =>
      match (if (v h).valueAp.isNone then none else (v h).late? h) with
      | some t => .trap s t
      | none =>
        let f := (v h).feed s h
        match (if (v h).valueStreamed h then (v h).value f.h ((v h).limit f) else none) with
        | some t => .trap f.s t
        | none => k (v h) h f)

/-- A link of its hart's drain chain stops as a whole, as the `tdrain` does (R375). -/
def Vec.linked (v : Vec) (joins : Bool) : Vec := { v with whole := v.whole || joins }

/-- A vector instruction at the gate, whatever it comes to (R328): a `tdrain` that stops goes no further (R389), and whether a link of a
drain chain has joined is known where it stops, or starts at an element (R262). -/
def State.dispatchVec (s : State) (h : Hart) (v : Vec) (stops : Bool) : State :=
  let s := s.dispatch h v.cls v.charge { v.job h with dropped := stops && v.drain.isSome }
  if stops || h.swi != 0 then s.settleLink h (v.job h) else s

/-- An instruction of the shared form up to its checks, and its charge at the gate. -/
def Vec.start (v : Hart → Vec) (s : State) (h : Hart) (k : Vec → Hart → Fed → Exec) : Exec :=
  let s := s.letDrainGo h ((v h).job h)
  let joins := s.joins h (v h).cls (v h).charge ((v h).job h)
  (Vec.check (fun h => (v h).linked joins) s h k).settle (fun stops s => s.dispatchVec h ((v h).linked joins) stops)

/-- A vector instruction of the shared form. -/
def Vec.run (v : Hart → Vec) (s : State) (h : Hart) : Exec := Vec.start v s h Vec.finish

/-- The aperture operands of an A-format instruction in field order, each covering rows and elements. -/
def halfOpds (f : AHalf) (rows els : Nat) : List Opd :=
  let u := f.op.uses
  (if u.1 = .ap then [⟨f.apd, true, rows, els, false⟩] else []) ++ (if u.2.1 = .ap then [⟨f.apa, false, rows, els, false⟩] else []) ++
  (if u.2.2 = .ap then [⟨f.apb, false, rows, els, false⟩] else [])

/-- The source entries of an A-format instruction. -/
def halfSources (f : AHalf) : List Ap :=
  let u := f.op.uses
  (if u.2.1 = .ap then [f.apa] else []) ++ (if u.2.2 = .ap then [f.apb] else [])

/-- The A-format full sweeps that can be links of a drain chain, by their weight class: majors 0x28, 0x29 and 0x2C (R262, R329). -/
def linkClass (cls : Nat) : Bool := decide (cls ≤ 4) || cls == 6

/-- A full-sweep A-format instruction (R146) with apd as its destination, given by its guard, its types, its weight
class, the entries whose reading brings snapshot mode about, and its effect at an element. -/
def fullSweep (f : AHalf) (g : Guard) (cls : Nat) (types : Nat → Nat → Nat → Bool) (acc : Bool)
    (el : Hart → Hart → Hart → Nat → Nat → Nat × Flags) (h : Hart) : Vec :=
  let d := h.apt f.apd
  { ops := halfOpds f h.rc h.vl, srcs := halfSources f, dsts := [f.apd]
    typesOk := types d.ty (h.apt f.apa).ty (h.apt f.apb).ty
    rc := h.rc, vl := h.vl, guard := g, act := fun r e => h.active g r e, cls, charge := h.rc * h.vl
    snap := snapshot h.bh h.vl h.rc d ((halfSources f).map h.apt ++ if acc then [d] else [])
    reread := if acc then [f.apd] else [], link := linkClass cls
    tap := f.apd, cell := fun r e => d.cell h.bh r e
    el := fun h1 h2 r e =>
      let v := el h h1 h2 r e
      (h2.setEl d r e v.1, v.2) }

/-- An element function on the bits of a, b and d at one position. -/
def pointwise (f : AHalf) (fn : Hart → (td ta tb a b d : Nat) → Nat × Flags) (h h1 _h2 : Hart) (r e : Nat) :
    Nat × Flags :=
  let d := h.apt f.apd
  let a := h.apt f.apa
  let b := h.apt f.apb
  fn h d.ty a.ty b.ty (h1.getEl a r e) (h1.getEl b r e) (h1.getEl d r e)

end Sys2Proof.Machine
end

