-- ==== Sys2Proof/Machine/VecArith.lean ====
section
/-! DEFINITION. Integer and floating vector arithmetic, majors 0x28 and 0x29 (R156 to R159). -/

namespace Sys2Proof.Machine

/-! ### Integer arithmetic, major 0x28 -/

/-- All three operands of one INT type. -/
def typesInt3 (td ta tb : Nat) : Bool := td = ta && td = tb && tyInt td

/-- All three operands of one width (ANY). -/
def typesAny3 (td ta tb : Nat) : Bool := tyWidth td = tyWidth ta && tyWidth td = tyWidth tb

/-- The types of `vwmacc` (R156). -/
def typesWmacc (td ta tb : Nat) : Bool := ta = tb && decide (ta ≤ 3) && td = ta + 2

/-- Destination and source of one INT type. -/
def typesInt2 (td ta _ : Nat) : Bool := td = ta && tyInt td

/-- Shift count of an integer shift (R156). -/
def shiftOf (ty b : Nat) : Nat := b % tyWidth ty

/-- Round(t, a ÷ 2^sh, XRM), before the clamp: an integer (R90). -/
def shiftRound (mode : Nat) (a : Int) (sh : Nat) : Int := Ex.toInt ⟨decide (a < 0), a.natAbs, -(sh : Int)⟩ mode

/-- Element functions of major 0x28 (R156). -/
def intEl (op : AOp) (h : Hart) (td ta tb a b d : Nat) : Nat × Flags :=
  let w := tyWidth td
  let x := intVal ta a
  let y := intVal tb b
  match op with
  | .vadd => (wrap w (x + y), 0)
  | .vsub => (wrap w (x - y), 0)
  | .vadds => clampInt td (x + y)
  | .vsubs => clampInt td (x - y)
  | .vmul => (wrap w (x * y), 0)
  | .vmulh => (wrap w (x * y / (2 ^ w : Nat)), 0)
  | .vmacc | .vwmacc => (wrap w (x * y + intVal td d), 0)
  | .vand => (a &&& b, 0)
  | .vor => (a ||| b, 0)
  | .vxor => (a ^^^ b, 0)
  | .vandn => (a &&& (2 ^ w - 1 - b), 0)
  | .vsll => (wrap w (x * (2 ^ shiftOf td b : Nat)), 0)
  | .vsrl => (a / 2 ^ shiftOf td b, 0)
  | .vsra => (wrap w (sext a w / (2 ^ shiftOf td b : Nat)), 0)
  | .vssr => (wrap w (shiftRound (h.mode 0xc02) x (shiftOf td b)), 0)
  | _ => (wrap w (-x), 0)

/-- The types of an operation of major 0x28. -/
def intTypes (op : AOp) : Nat → Nat → Nat → Bool :=
  match op with
  | .vand | .vor | .vxor | .vandn => typesAny3
  | .vwmacc => typesWmacc
  | .vneg => typesInt2
  | _ => typesInt3

/-- Weight class of major 0x28 (R329). -/
def intClass (op : AOp) : Nat :=
  match op with
  | .vmul | .vmulh | .vmacc | .vwmacc => 1
  | _ => 0

/-- The operations that read their destination. -/
def accumulates (op : AOp) : Bool :=
  match op with
  | .vmacc | .vwmacc | .vfma | .vfms | .vfnma | .vfwma => true
  | _ => false

/-- An instruction of major 0x28 under a guard. -/
def vecInt (f : AHalf) (g : Guard) (s : State) (h : Hart) : Exec :=
  Vec.run (fullSweep f g (intClass f.op) (intTypes f.op) (accumulates f.op) (pointwise f (intEl f.op))) s h

def execVadd (apd apa apb : Ap) (mask : BitVec 2) (s : State) := onHart 4 s (vecInt ⟨.vadd, apd, apa, apb⟩ (maskGuard mask) s)
def execVsub (apd apa apb : Ap) (mask : BitVec 2) (s : State) := onHart 4 s (vecInt ⟨.vsub, apd, apa, apb⟩ (maskGuard mask) s)
def execVadds (apd apa apb : Ap) (mask : BitVec 2) (s : State) := onHart 4 s (vecInt ⟨.vadds, apd, apa, apb⟩ (maskGuard mask) s)
def execVsubs (apd apa apb : Ap) (mask : BitVec 2) (s : State) := onHart 4 s (vecInt ⟨.vsubs, apd, apa, apb⟩ (maskGuard mask) s)
def execVmul (apd apa apb : Ap) (mask : BitVec 2) (s : State) := onHart 4 s (vecInt ⟨.vmul, apd, apa, apb⟩ (maskGuard mask) s)
def execVmulh (apd apa apb : Ap) (mask : BitVec 2) (s : State) := onHart 4 s (vecInt ⟨.vmulh, apd, apa, apb⟩ (maskGuard mask) s)
def execVmacc (apd apa apb : Ap) (mask : BitVec 2) (s : State) := onHart 4 s (vecInt ⟨.vmacc, apd, apa, apb⟩ (maskGuard mask) s)
def execVwmacc (apd apa apb : Ap) (mask : BitVec 2) (s : State) := onHart 4 s (vecInt ⟨.vwmacc, apd, apa, apb⟩ (maskGuard mask) s)
def execVand (apd apa apb : Ap) (mask : BitVec 2) (s : State) := onHart 4 s (vecInt ⟨.vand, apd, apa, apb⟩ (maskGuard mask) s)
def execVor (apd apa apb : Ap) (mask : BitVec 2) (s : State) := onHart 4 s (vecInt ⟨.vor, apd, apa, apb⟩ (maskGuard mask) s)
def execVxor (apd apa apb : Ap) (mask : BitVec 2) (s : State) := onHart 4 s (vecInt ⟨.vxor, apd, apa, apb⟩ (maskGuard mask) s)
def execVandn (apd apa apb : Ap) (mask : BitVec 2) (s : State) := onHart 4 s (vecInt ⟨.vandn, apd, apa, apb⟩ (maskGuard mask) s)
def execVsll (apd apa apb : Ap) (mask : BitVec 2) (s : State) := onHart 4 s (vecInt ⟨.vsll, apd, apa, apb⟩ (maskGuard mask) s)
def execVsrl (apd apa apb : Ap) (mask : BitVec 2) (s : State) := onHart 4 s (vecInt ⟨.vsrl, apd, apa, apb⟩ (maskGuard mask) s)
def execVsra (apd apa apb : Ap) (mask : BitVec 2) (s : State) := onHart 4 s (vecInt ⟨.vsra, apd, apa, apb⟩ (maskGuard mask) s)
def execVssr (apd apa apb : Ap) (mask : BitVec 2) (s : State) := onHart 4 s (vecInt ⟨.vssr, apd, apa, apb⟩ (maskGuard mask) s)
def execVneg (apd apa : Ap) (mask : BitVec 2) (s : State) := onHart 4 s (vecInt ⟨.vneg, apd, apa, 0⟩ (maskGuard mask) s)

/-! ### Floating arithmetic, major 0x29 -/

/-- All three operands of one FLT type. -/
def typesFlt3 (td ta tb : Nat) : Bool := td = ta && td = tb && tyFlt td

/-- Destination and source of one FLT type. -/
def typesFlt2 (td ta _ : Nat) : Bool := td = ta && tyFlt td

/-- The types of `vfwma`: f32 from two f16 or two bf16. -/
def typesFwma (td ta tb : Nat) : Bool := td = 8 && ta = tb && (ta = 6 || ta = 7)

/-- Element functions of major 0x29 (R158, R159). -/
def floatEl (op : AOp) (h : Hart) (td ta tb a b d : Nat) : Nat × Flags :=
  let f := fmtOf td
  let m := h.mode 0xc01
  let x := (fmtOf ta).decode a
  let y := (fmtOf tb).decode b
  let z := f.decode d
  match op with
  | .vfadd => fAdd f m x y
  | .vfsub => fAdd f m x y.negate
  | .vfmul => fMul f m x y
  | .vfdiv => fDiv f m x y
  | .vfsqrt => fSqrt f m x
  | .vfrcp => fDiv f m fOne x
  | .vfms => fProdAdd f m (fProd x y) z.negate
  | .vfnma => fProdAdd f m (fProd x y).negate z
  | _ => fProdAdd f m (fProd x y) z

/-- The types of an operation of major 0x29. -/
def floatTypes (op : AOp) : Nat → Nat → Nat → Bool :=
  match op with
  | .vfsqrt | .vfrcp => typesFlt2
  | .vfwma => typesFwma
  | _ => typesFlt3

/-- Weight class of major 0x29 (R329). -/
def floatClass (op : AOp) : Nat :=
  match op with
  | .vfadd | .vfsub => 2
  | .vfdiv | .vfsqrt | .vfrcp => 4
  | _ => 3

/-- A pass takes so many times the cycles of R79 (R149). -/
def floatTimes (op : AOp) (ty : Nat) : Nat := if floatClass op = 4 then (if ty = 8 then 8 else 4) else 1

/-- The sweep of an instruction of major 0x29. -/
def floatVec (f : AHalf) (g : Guard) (h : Hart) : Vec :=
  { fullSweep f g (floatClass f.op) (floatTypes f.op) (accumulates f.op) (pointwise f (floatEl f.op)) h with
    shape := .row (floatTimes f.op (h.apt f.apd).ty) }

/-- An instruction of major 0x29 under a guard. -/
def vecFloat (f : AHalf) (g : Guard) (s : State) (h : Hart) : Exec := Vec.run (floatVec f g) s h

def execVfadd (apd apa apb : Ap) (mask : BitVec 2) (s : State) := onHart 4 s (vecFloat ⟨.vfadd, apd, apa, apb⟩ (maskGuard mask) s)
def execVfsub (apd apa apb : Ap) (mask : BitVec 2) (s : State) := onHart 4 s (vecFloat ⟨.vfsub, apd, apa, apb⟩ (maskGuard mask) s)
def execVfmul (apd apa apb : Ap) (mask : BitVec 2) (s : State) := onHart 4 s (vecFloat ⟨.vfmul, apd, apa, apb⟩ (maskGuard mask) s)
def execVfdiv (apd apa apb : Ap) (mask : BitVec 2) (s : State) := onHart 4 s (vecFloat ⟨.vfdiv, apd, apa, apb⟩ (maskGuard mask) s)
def execVfsqrt (apd apa : Ap) (mask : BitVec 2) (s : State) := onHart 4 s (vecFloat ⟨.vfsqrt, apd, apa, 0⟩ (maskGuard mask) s)
def execVfrcp (apd apa : Ap) (mask : BitVec 2) (s : State) := onHart 4 s (vecFloat ⟨.vfrcp, apd, apa, 0⟩ (maskGuard mask) s)
def execVfma (apd apa apb : Ap) (mask : BitVec 2) (s : State) := onHart 4 s (vecFloat ⟨.vfma, apd, apa, apb⟩ (maskGuard mask) s)
def execVfms (apd apa apb : Ap) (mask : BitVec 2) (s : State) := onHart 4 s (vecFloat ⟨.vfms, apd, apa, apb⟩ (maskGuard mask) s)
def execVfnma (apd apa apb : Ap) (mask : BitVec 2) (s : State) := onHart 4 s (vecFloat ⟨.vfnma, apd, apa, apb⟩ (maskGuard mask) s)
def execVfwma (apd apa apb : Ap) (mask : BitVec 2) (s : State) := onHart 4 s (vecFloat ⟨.vfwma, apd, apa, apb⟩ (maskGuard mask) s)

end Sys2Proof.Machine
end

