-- ==== Sys2Proof/Machine/VecMask.lean ====
section
/-! DEFINITION. Compares, mask logic, minimum and maximum, major 0x2A (R160 to R162), and the permutes and
moves of major 0x2B (R163, R164). -/

namespace Sys2Proof.Machine

/-! ### Compares, masks, minimum and maximum, major 0x2A -/

/-- One bit of a mask value replaced. -/
def setBit {n : Nat} (v : BitVec n) (p : Nat) (b : Bool) : BitVec n :=
  if b then v ||| 1#n <<< p else v &&& ~~~(1#n <<< p)

/-- The condition of a compare on the bits of two elements, and its flags (R161). -/
def compare (op : AOp) (ty a b : Nat) : Bool × Flags :=
  let x := (fmtOf ty).decode a
  let y := (fmtOf ty).decode b
  let un := x.isNaN || y.isNaN
  match op with
  | .vceq => (decide (intVal ty a = intVal ty b), 0)
  | .vcne => (decide (intVal ty a ≠ intVal ty b), 0)
  | .vclt => (decide (intVal ty a < intVal ty b), 0)
  | .vcle => (decide (intVal ty a ≤ intVal ty b), 0)
  | .vfceq => (!un && x.eq y, x.sig ||| y.sig)
  | .vfclt => (!un && x.lt y, if un then fNV else 0)
  | .vfcle => (!un && (x.lt y || x.eq y), if un then fNV else 0)
  | _ => (un, x.sig ||| y.sig)

/-- Source types of a compare. -/
def compareTypes (op : AOp) (ta tb : Nat) : Bool :=
  ta = tb && (match op with
    | .vceq | .vcne | .vclt | .vcle => tyInt ta
    | _ => tyFlt ta)

/-- A compare as a single-row sweep into mask register kd, the low 3 bits of its apd field. -/
def compareVec (f : AHalf) (g : Guard) (h : Hart) : Vec :=
  let a := h.apt f.apa
  let b := h.apt f.apb
  let kd := f.apd.toNat % 8
  { ops := halfOpds f 1 h.vl, srcs := halfSources f, dsts := [], typesOk := compareTypes f.op a.ty b.ty
    rc := 1, vl := h.vl, guard := g, act := fun r e => h.active g r e, cls := 2, charge := h.vl, kw := [kd]
    tap := f.apa, cell := fun _ e => a.cell h.bh 0 e
    el := fun h1 h2 _ e =>
      let c := compare f.op a.ty (h1.getEl a 0 e) (h1.getEl b 0 e)
      (h2.setK kd (setBit (h2.getK kd) (e % 1024) c.1), c.2) }

/-- Element functions of the minimum and maximum forms (R160, R162). -/
def minMaxEl (op : AOp) (_ : Hart) (td _ta _tb a b _d : Nat) : Nat × Flags :=
  match op with
  | .vmin => (if intVal td b < intVal td a then b else a, 0)
  | .vmax => (if intVal td a < intVal td b then b else a, 0)
  | .vfmin => fMinMax (fmtOf td) false a b
  | _ => fMinMax (fmtOf td) true a b

/-- Types of the minimum and maximum forms. -/
def minMaxTypes (op : AOp) : Nat → Nat → Nat → Bool :=
  match op with
  | .vmin | .vmax => typesInt3
  | _ => typesFlt3

/-- Mask logic on the registers (R160); the fields hold mask register numbers. -/
def maskLogic (f : AHalf) (h : Hart) : Hart :=
  let kd := f.apd.toNat % 8
  let a := h.getK (f.apa.toNat % 8)
  let b := h.getK (f.apb.toNat % 8)
  match f.op with
  | .kand => h.setK kd (a &&& b)
  | .kor => h.setK kd (a ||| b)
  | .kxor => h.setK kd (a ^^^ b)
  | .kandn => h.setK kd (a &&& ~~~b)
  | .knot => h.setK kd (~~~a)
  | .kmw => { h with km := a.setWidth 256 }
  | _ => h.setK kd (h.km.setWidth 1024)

/-- Mask logic as the core's queues hold it: mask registers read and written, no pass (R147, R149). -/
def maskJob (f : AHalf) : Job :=
  let kd := f.apd.toNat % 8
  let ks := ([f.apa.toNat % 8, f.apb.toNat % 8]).filter (fun k => k != 0)
  { kr := if f.op = .kmr then [8] else ks, kw := if f.op = .kmw then [8] else if kd = 0 then [] else [kd] }

/-- An instruction of major 0x2A under a guard. -/
def vecMask (f : AHalf) (g : Guard) (s : State) (h : Hart) : Exec :=
  match f.op with
  | .vmin | .vmax | .vfmin | .vfmax =>
    Vec.run (fun h => { fullSweep f g 2 (minMaxTypes f.op) false (pointwise f (minMaxEl f.op)) h with link := false }) s h
  | .kand | .kor | .kxor | .kandn | .knot | .kmw | .kmr =>
    (Exec.done (s.setHart (maskLogic f h))).also (fun s => s.dispatch h 2 0 (maskJob f))
  | _ => Vec.run (compareVec f g) s h

def execVceq (kd : KReg) (apa apb : Ap) (mask : BitVec 2) (s : State) := onHart 4 s (vecMask ⟨.vceq, kd.setWidth 6, apa, apb⟩ (maskGuard mask) s)
def execVcne (kd : KReg) (apa apb : Ap) (mask : BitVec 2) (s : State) := onHart 4 s (vecMask ⟨.vcne, kd.setWidth 6, apa, apb⟩ (maskGuard mask) s)
def execVclt (kd : KReg) (apa apb : Ap) (mask : BitVec 2) (s : State) := onHart 4 s (vecMask ⟨.vclt, kd.setWidth 6, apa, apb⟩ (maskGuard mask) s)
def execVcle (kd : KReg) (apa apb : Ap) (mask : BitVec 2) (s : State) := onHart 4 s (vecMask ⟨.vcle, kd.setWidth 6, apa, apb⟩ (maskGuard mask) s)
def execVfceq (kd : KReg) (apa apb : Ap) (mask : BitVec 2) (s : State) := onHart 4 s (vecMask ⟨.vfceq, kd.setWidth 6, apa, apb⟩ (maskGuard mask) s)
def execVfclt (kd : KReg) (apa apb : Ap) (mask : BitVec 2) (s : State) := onHart 4 s (vecMask ⟨.vfclt, kd.setWidth 6, apa, apb⟩ (maskGuard mask) s)
def execVfcle (kd : KReg) (apa apb : Ap) (mask : BitVec 2) (s : State) := onHart 4 s (vecMask ⟨.vfcle, kd.setWidth 6, apa, apb⟩ (maskGuard mask) s)
def execVfcun (kd : KReg) (apa apb : Ap) (mask : BitVec 2) (s : State) := onHart 4 s (vecMask ⟨.vfcun, kd.setWidth 6, apa, apb⟩ (maskGuard mask) s)
def execVmin (apd apa apb : Ap) (mask : BitVec 2) (s : State) := onHart 4 s (vecMask ⟨.vmin, apd, apa, apb⟩ (maskGuard mask) s)
def execVmax (apd apa apb : Ap) (mask : BitVec 2) (s : State) := onHart 4 s (vecMask ⟨.vmax, apd, apa, apb⟩ (maskGuard mask) s)
def execVfmin (apd apa apb : Ap) (mask : BitVec 2) (s : State) := onHart 4 s (vecMask ⟨.vfmin, apd, apa, apb⟩ (maskGuard mask) s)
def execVfmax (apd apa apb : Ap) (mask : BitVec 2) (s : State) := onHart 4 s (vecMask ⟨.vfmax, apd, apa, apb⟩ (maskGuard mask) s)
def execKand (kd ka kb : KReg) (s : State) := onHart 4 s (vecMask ⟨.kand, kd.setWidth 6, ka.setWidth 6, kb.setWidth 6⟩ ⟨0, false⟩ s)
def execKor (kd ka kb : KReg) (s : State) := onHart 4 s (vecMask ⟨.kor, kd.setWidth 6, ka.setWidth 6, kb.setWidth 6⟩ ⟨0, false⟩ s)
def execKxor (kd ka kb : KReg) (s : State) := onHart 4 s (vecMask ⟨.kxor, kd.setWidth 6, ka.setWidth 6, kb.setWidth 6⟩ ⟨0, false⟩ s)
def execKandn (kd ka kb : KReg) (s : State) := onHart 4 s (vecMask ⟨.kandn, kd.setWidth 6, ka.setWidth 6, kb.setWidth 6⟩ ⟨0, false⟩ s)
def execKnot (kd ka : KReg) (s : State) := onHart 4 s (vecMask ⟨.knot, kd.setWidth 6, ka.setWidth 6, 0⟩ ⟨0, false⟩ s)
def execKmw (ka : KReg) (s : State) := onHart 4 s (vecMask ⟨.kmw, 0, ka.setWidth 6, 0⟩ ⟨0, false⟩ s)
def execKmr (kd : KReg) (s : State) := onHart 4 s (vecMask ⟨.kmr, kd.setWidth 6, 0, 0⟩ ⟨0, false⟩ s)

/-! ### Permutes and moves, major 0x2B -/

/-- Destination and source of one width. -/
def typesWidth2 (td ta _ : Nat) : Bool := tyWidth td = tyWidth ta

/-- Destination and source of one floating type. -/
def typesFloat2 (td ta _ : Nat) : Bool := td = ta && tyFloat td

/-- All three operands of one floating type. -/
def typesFloat3 (td ta tb : Nat) : Bool := td = ta && td = tb && tyFloat td

/-- Destination and source of one type. -/
def typesSame2 (td ta _ : Nat) : Bool := td = ta

/-- All three operands of one type. -/
def typesSame3 (td ta tb : Nat) : Bool := td = ta && td = tb

/-- Destination and source of one type, an integer type for the index. -/
def typesPerm (td ta tb : Nat) : Bool := td = ta && tyInt tb

/-- An integer destination alone. -/
def typesInt1 (td _ _ : Nat) : Bool := tyInt td

/-- Types of major 0x2B. -/
def moveTypes (op : AOp) : Nat → Nat → Nat → Bool :=
  match op with
  | .vmov => typesWidth2
  | .vfneg | .vfabs => typesFloat2
  | .vfsgnj => typesFloat3
  | .vrev => typesSame2
  | .vperm => typesPerm
  | .vslidn | .vsliup => typesSame3
  | _ => typesInt1

/-- The bits written by an instruction of major 0x2B (R163, R164). -/
def moveEl (f : AHalf) (h h1 _h2 : Hart) (r e : Nat) : Nat × Flags :=
  let d := h.apt f.apd
  let a := h.apt f.apa
  let b := h.apt f.apb
  let x := h1.getEl a r e
  let sgn := 2 ^ (tyWidth d.ty - 1)
  let v : Nat :=
    match f.op with
    | .vmov => x
    | .vfneg => x ^^^ sgn
    | .vfabs => x % sgn
    | .vfsgnj => x % sgn + h1.getEl b r e / sgn * sgn
    | .vrev => h1.getEl a r (h.vl - 1 - e)
    | .vperm => h1.getEl a r (h1.getEl b r e % h.vl)
    | .vslidn => if e + 1 < h.vl then h1.getEl a r (e + 1) else h1.getEl b r 0
    | .vsliup => if 0 < e then h1.getEl a r (e - 1) else h1.getEl b r (h.vl - 1)
    | _ => e % 2 ^ tyWidth d.ty
  (v, 0)

/-- Some element of the sweep of d shares a bit with some swept element of a source (R164). -/
def sharesAny (bh vl rc : Nat) (d : Apt) (srcs : List Apt) : Bool :=
  (List.range (rc * vl)).any (fun i =>
    let x := d.elBits bh (i / vl) (i % vl)
    srcs.any (fun a => (List.range (rc * vl)).any (fun j => shareBit x (a.elBits bh (j / vl) (j % vl)))))

/-- An instruction of major 0x2B under a guard. -/
def vecMove (f : AHalf) (g : Guard) (s : State) (h : Hart) : Exec :=
  Vec.run (fun h =>
    let v := fullSweep f g 5 (moveTypes f.op) false (moveEl f) h
    match f.op with
    | .vmov | .vfneg | .vfabs | .vfsgnj => { v with link := true }
    | .vrev | .vperm | .vslidn | .vsliup =>
      { v with snap := sharesAny h.bh h.vl h.rc (h.apt f.apd) ((halfSources f).map h.apt) }
    | _ => v) s h

def execVmov (apd apa : Ap) (mask : BitVec 2) (s : State) := onHart 4 s (vecMove ⟨.vmov, apd, apa, 0⟩ (maskGuard mask) s)
def execVfneg (apd apa : Ap) (mask : BitVec 2) (s : State) := onHart 4 s (vecMove ⟨.vfneg, apd, apa, 0⟩ (maskGuard mask) s)
def execVfabs (apd apa : Ap) (mask : BitVec 2) (s : State) := onHart 4 s (vecMove ⟨.vfabs, apd, apa, 0⟩ (maskGuard mask) s)
def execVfsgnj (apd apa apb : Ap) (mask : BitVec 2) (s : State) := onHart 4 s (vecMove ⟨.vfsgnj, apd, apa, apb⟩ (maskGuard mask) s)
def execVrev (apd apa : Ap) (mask : BitVec 2) (s : State) := onHart 4 s (vecMove ⟨.vrev, apd, apa, 0⟩ (maskGuard mask) s)
def execVperm (apd apa apb : Ap) (mask : BitVec 2) (s : State) := onHart 4 s (vecMove ⟨.vperm, apd, apa, apb⟩ (maskGuard mask) s)
def execVslidn (apd apa apb : Ap) (mask : BitVec 2) (s : State) := onHart 4 s (vecMove ⟨.vslidn, apd, apa, apb⟩ (maskGuard mask) s)
def execVsliup (apd apa apb : Ap) (mask : BitVec 2) (s : State) := onHart 4 s (vecMove ⟨.vsliup, apd, apa, apb⟩ (maskGuard mask) s)
def execVidx (apd : Ap) (mask : BitVec 2) (s : State) := onHart 4 s (vecMove ⟨.vidx, apd, 0, 0⟩ (maskGuard mask) s)

end Sys2Proof.Machine
end

