-- ==== Sys2Proof/Machine/Convert.lean ====
section
/-! DEFINITION. The conversions of major 0x2C (R165 to R168), with error-feedback rounding (R94, R95). -/

namespace Sys2Proof.Machine

/-- Types of a conversion: destination, source, shift count (R166). -/
def convertTypes (op : AOp) (td ta tb : Nat) : Bool :=
  match op with
  | .vfcvt => tyFloat td && tyFloat ta && td != ta
  | .vfcvti => (tyInt td || td = 10) && tyFloat ta
  | .vicvtf => tyFloat td && (tyInt ta || ta = 10)
  | .vnclip =>
    tyInt tb &&
      (match ta with
      | 4 => td = 2 || td = 3
      | 5 => td = 3
      | 2 => td = 0 || td = 1
      | 3 => td = 1
      | 0 => td = 10
      | _ => false)
  | _ => tyInt td && decide (tyWidth ta < tyWidth td) && (decide (ta ≤ 3) || ta = 10) && (tySigned td || !tySigned ta)

/-- Some finite value of the source type is no value of the destination type (R167). -/
def narrowing (op : AOp) (td ta : Nat) : Bool :=
  match op with
  | .vfcvti | .vnclip => true
  | .vfcvt =>
    match ta with
    | 8 => true
    | 6 => td = 7 || td = 9
    | 7 => td = 6 || td = 9
    | _ => false
  | .vicvtf =>
    match tyWidth ta with
    | 32 => true
    | 16 => td != 8
    | 8 => td = 9
    | _ => false
  | _ => false

/-- The value converted at an element, before rounding (R166). -/
def convertSource (op : AOp) (ta a b : Nat) : FV :=
  match op with
  | .vfcvt | .vfcvti => (fmtOf ta).decode a
  | .vnclip =>
    let x := intVal ta a
    .fin ⟨decide (x < 0), x.natAbs, -((b % tyWidth ta : Nat) : Int)⟩
  | _ => .fin (Ex.ofInt (intVal ta a))

/-- Round(dt, x, M) of a conversion: the bits and the flags (R85, R90 to R93). -/
def convertRound (op : AOp) (td mode : Nat) (x : FV) : Nat × Flags :=
  match op with
  | .vfcvt | .vicvtf => x.convert (fmtOf td) mode
  | .vfcvti => x.toIntType td mode
  | _ =>
    match x with
    | .fin y => clampInt td (y.toInt mode)
    | v => v.toIntType td mode

/-- The source value plus a carry; a zero carry leaves it unchanged, with its sign (R94). The spec is silent on a carry that is
a NaN or infinite: a NaN carry makes y a NaN, signalling with the carry unless the source is a NaN, an infinite one makes y
infinite, and ∞ − ∞ is a signalling NaN (DESIGN CHOICE, log 51). -/
def addCarry (x c : FV) : FV :=
  match x, c with
  | .nan s, _ => .nan s
  | _, .nan s => .nan s
  | .inf n, .inf m => if n = m then .inf n else .nan true
  | .inf n, _ => .inf n
  | _, .inf m => .inf m
  | .fin x, .fin c => if c.m = 0 then .fin x else .fin (x.add c 0)

/-- The value of a written result. -/
def resultValue (td q : Nat) : FV := if tyFloat td then (fmtOf td).decode q else .fin (Ex.ofInt (intVal td q))

/-- The carry after an element: Round(f32, y − q, rne), or +0.0 where y is not finite or q overflowed or saturated
(R94). -/
def newCarry (td : Nat) (y : FV) (q : Nat × Flags) : Nat :=
  match y, resultValue td q.1 with
  | .fin y, .fin z =>
    if q.2 &&& (fOF ||| fSAT) ≠ 0 then 0
    else
      let d := y.add z.negate 0
      if d.m = 0 then 0 else (f32.round 0 d).1
  | _, _ => 0

/-- A conversion under a guard. -/
def convertVec (f : AHalf) (g : Guard) (h : Hart) : Vec :=
  let d := h.apt f.apd
  let a := h.apt f.apa
  let b := h.apt f.apb
  let v := fullSweep f g 6 (convertTypes f.op) false (fun _ _ _ _ _ => (0, 0)) h
  let mode := match f.op with
    | .vfcvt | .vicvtf => h.mode 0xc01
    | _ => h.mode 0xc02
  let ef := narrowing f.op d.ty a.ty && decide (mode = 5)
  { v with
    el := fun h1 h2 r e =>
      let x := convertSource f.op a.ty (h1.getEl a r e) (h1.getEl b r e)
      match f.op with
      | .vext => (h2.setEl d r e (wrap (tyWidth d.ty) (intVal a.ty (h1.getEl a r e))), 0)
      | _ =>
        if ef then
          let y := addCarry x (f32.decode (h2.efc.get r).toNat)
          let q := convertRound f.op d.ty 0 y
          ({ h2.setEl d r e q.1 with efc := h2.efc.set r (BitVec.ofNat 32 (newCarry d.ty y q)) }, q.2)
        else
          let q := convertRound f.op d.ty mode x
          (h2.setEl d r e q.1, q.2) }

/-- An instruction of major 0x2C under a guard. -/
def vecConvert (f : AHalf) (g : Guard) (s : State) (h : Hart) : Exec := Vec.run (convertVec f g) s h

def execVfcvt (apd apa : Ap) (mask : BitVec 2) (s : State) := onHart 4 s (vecConvert ⟨.vfcvt, apd, apa, 0⟩ (maskGuard mask) s)
def execVfcvti (apd apa : Ap) (mask : BitVec 2) (s : State) := onHart 4 s (vecConvert ⟨.vfcvti, apd, apa, 0⟩ (maskGuard mask) s)
def execVicvtf (apd apa : Ap) (mask : BitVec 2) (s : State) := onHart 4 s (vecConvert ⟨.vicvtf, apd, apa, 0⟩ (maskGuard mask) s)
def execVnclip (apd apa apb : Ap) (mask : BitVec 2) (s : State) := onHart 4 s (vecConvert ⟨.vnclip, apd, apa, apb⟩ (maskGuard mask) s)
def execVext (apd apa : Ap) (mask : BitVec 2) (s : State) := onHart 4 s (vecConvert ⟨.vext, apd, apa, 0⟩ (maskGuard mask) s)

end Sys2Proof.Machine
end

