-- ==== Sys2Proof/Machine/Reduce.lean ====
section
/-! DEFINITION. The reductions of major 0x2D (R169 to R172). -/

namespace Sys2Proof.Machine

/-- A reduction: its operator (0 add, 1 max, 2 min, 3 and, 4 or, 5 xor) and whether it is segmented. -/
def reduceOp (op : AOp) : Nat × Bool :=
  match op with
  | .vredsum | .vwredsum | .vfredsum | .vfwredsum => (0, false)
  | .vredmax | .vfredmax => (1, false)
  | .vredmin | .vfredmin => (2, false)
  | .vredand => (3, false)
  | .vredor => (4, false)
  | .vredxor => (5, false)
  | .vsredsum | .vswredsum | .vsfredsum | .vsfwredsum => (0, true)
  | .vsredmax | .vsfredmax => (1, true)
  | .vsredmin | .vsfredmin => (2, true)
  | .vsredand => (3, true)
  | .vsredor => (4, true)
  | _ => (5, true)

/-- Types of a reduction: destination and source (R170). -/
def reduceTypes (op : AOp) (td ta : Nat) : Bool :=
  match op with
  | .vwredsum | .vswredsum => (td = 4 && (ta = 0 || ta = 2 || ta = 10)) || (td = 5 && (ta = 1 || ta = 3))
  | .vfwredsum | .vsfwredsum => td = 8 && (ta = 6 || ta = 7 || ta = 9)
  | .vfredsum | .vfredmax | .vfredmin | .vsfredsum | .vsfredmax | .vsfredmin => td = ta && tyFlt ta
  | _ => td = ta && tyInt ta

/-- First elements of the segments among elements 0 to vl − 1 (R169). -/
def segStarts (k : BitVec 1024) (segmented : Bool) (vl : Nat) : List Nat :=
  (List.range vl).filter (fun e => e = 0 || (segmented && k.getLsbD (e % 1024)))

/-- An element converted exactly into the accumulation type, with NV for a signalling NaN (R171). -/
def leafOf (td ta b : Nat) : Nat × Flags :=
  if tyFloat td then ((fmtOf ta).decode b).convert (fmtOf td) 0 else (wrap (tyWidth td) (intVal ta b), 0)

/-- The destination of a reduction, of so many elements to a row, shares a bit with a swept element of its source (R172). -/
def reduceSnap (bh rc ns vl : Nat) (d a : Apt) : Bool :=
  (List.range rc).any (fun r => (List.range ns).any (fun j =>
    (List.range rc).any (fun t => (List.range vl).any (fun e => shareBit (d.elBits bh r j) (a.elBits bh t e)))))

/-- A reduction under a guard: its items are the segments of the swept rows. -/
def reduceVec (f : AHalf) (g : Guard) (h : Hart) : Vec :=
  let d := h.apt f.apd
  let a := h.apt f.apa
  let o := reduceOp f.op
  let st := segStarts (h.getK (f.apb.toNat % 8)) o.2 h.vl
  let ns := st.length
  { ops := [⟨f.apd, true, h.rc, 0, true⟩, ⟨f.apa, false, h.rc, h.vl, false⟩], srcs := [f.apa], dsts := [f.apd]
    typesOk := reduceTypes f.op d.ty a.ty
    own := if o.2 && decide (0 < h.vl) && decide (0 < h.rc) && decide (d.e < ns) then
      some (illegalUse 0x23 (some f.apd.toNat)) else none
    rc := h.rc, vl := ns, sels := h.vl
    item := fun r e => r * ns + (st.countP (fun x => decide (x ≤ e)) - 1), guard := g, act := fun r _ => h.km.getLsbD r, whole := true, cls := 7
    snap := reduceSnap h.bh h.rc ns h.vl d a, pace := fun o => !o.dest
    charge := h.rc * h.vl, ks := if o.2 then [f.apb.toNat % 8] else [], tap := f.apd, cell := fun r j => d.cell h.bh r j
    el := fun h1 h2 r j =>
      let e0 := st.getD j 0
      let e1 := st.getD (j + 1) h.vl
      let leaves := (List.range' e0 (e1 - e0)).map (fun e =>
        if h.guardBit g e then some (leafOf d.ty a.ty (h1.getEl a r e)) else none)
      let v := reduce d.ty o.1 (h.mode 0xc01) leaves
      (h2.setEl d r j v.1, v.2) }

/-- An instruction of major 0x2D under a guard. -/
def vecReduce (f : AHalf) (g : Guard) (s : State) (h : Hart) : Exec := Vec.run (reduceVec f g) s h

def execVredsum (apd apa : Ap) (mask : BitVec 2) (s : State) := onHart 4 s (vecReduce ⟨.vredsum, apd, apa, 0⟩ (maskGuard mask) s)
def execVwredsum (apd apa : Ap) (mask : BitVec 2) (s : State) := onHart 4 s (vecReduce ⟨.vwredsum, apd, apa, 0⟩ (maskGuard mask) s)
def execVredmax (apd apa : Ap) (mask : BitVec 2) (s : State) := onHart 4 s (vecReduce ⟨.vredmax, apd, apa, 0⟩ (maskGuard mask) s)
def execVredmin (apd apa : Ap) (mask : BitVec 2) (s : State) := onHart 4 s (vecReduce ⟨.vredmin, apd, apa, 0⟩ (maskGuard mask) s)
def execVredand (apd apa : Ap) (mask : BitVec 2) (s : State) := onHart 4 s (vecReduce ⟨.vredand, apd, apa, 0⟩ (maskGuard mask) s)
def execVredor (apd apa : Ap) (mask : BitVec 2) (s : State) := onHart 4 s (vecReduce ⟨.vredor, apd, apa, 0⟩ (maskGuard mask) s)
def execVredxor (apd apa : Ap) (mask : BitVec 2) (s : State) := onHart 4 s (vecReduce ⟨.vredxor, apd, apa, 0⟩ (maskGuard mask) s)
def execVfredsum (apd apa : Ap) (mask : BitVec 2) (s : State) := onHart 4 s (vecReduce ⟨.vfredsum, apd, apa, 0⟩ (maskGuard mask) s)
def execVfwredsum (apd apa : Ap) (mask : BitVec 2) (s : State) := onHart 4 s (vecReduce ⟨.vfwredsum, apd, apa, 0⟩ (maskGuard mask) s)
def execVfredmax (apd apa : Ap) (mask : BitVec 2) (s : State) := onHart 4 s (vecReduce ⟨.vfredmax, apd, apa, 0⟩ (maskGuard mask) s)
def execVfredmin (apd apa : Ap) (mask : BitVec 2) (s : State) := onHart 4 s (vecReduce ⟨.vfredmin, apd, apa, 0⟩ (maskGuard mask) s)
def execVsredsum (apd apa : Ap) (kb : KReg) (mask : BitVec 2) (s : State) := onHart 4 s (vecReduce ⟨.vsredsum, apd, apa, kb.setWidth 6⟩ (maskGuard mask) s)
def execVswredsum (apd apa : Ap) (kb : KReg) (mask : BitVec 2) (s : State) := onHart 4 s (vecReduce ⟨.vswredsum, apd, apa, kb.setWidth 6⟩ (maskGuard mask) s)
def execVsredmax (apd apa : Ap) (kb : KReg) (mask : BitVec 2) (s : State) := onHart 4 s (vecReduce ⟨.vsredmax, apd, apa, kb.setWidth 6⟩ (maskGuard mask) s)
def execVsredmin (apd apa : Ap) (kb : KReg) (mask : BitVec 2) (s : State) := onHart 4 s (vecReduce ⟨.vsredmin, apd, apa, kb.setWidth 6⟩ (maskGuard mask) s)
def execVsredand (apd apa : Ap) (kb : KReg) (mask : BitVec 2) (s : State) := onHart 4 s (vecReduce ⟨.vsredand, apd, apa, kb.setWidth 6⟩ (maskGuard mask) s)
def execVsredor (apd apa : Ap) (kb : KReg) (mask : BitVec 2) (s : State) := onHart 4 s (vecReduce ⟨.vsredor, apd, apa, kb.setWidth 6⟩ (maskGuard mask) s)
def execVsredxor (apd apa : Ap) (kb : KReg) (mask : BitVec 2) (s : State) := onHart 4 s (vecReduce ⟨.vsredxor, apd, apa, kb.setWidth 6⟩ (maskGuard mask) s)
def execVsfredsum (apd apa : Ap) (kb : KReg) (mask : BitVec 2) (s : State) := onHart 4 s (vecReduce ⟨.vsfredsum, apd, apa, kb.setWidth 6⟩ (maskGuard mask) s)
def execVsfwredsum (apd apa : Ap) (kb : KReg) (mask : BitVec 2) (s : State) := onHart 4 s (vecReduce ⟨.vsfwredsum, apd, apa, kb.setWidth 6⟩ (maskGuard mask) s)
def execVsfredmax (apd apa : Ap) (kb : KReg) (mask : BitVec 2) (s : State) := onHart 4 s (vecReduce ⟨.vsfredmax, apd, apa, kb.setWidth 6⟩ (maskGuard mask) s)
def execVsfredmin (apd apa : Ap) (kb : KReg) (mask : BitVec 2) (s : State) := onHart 4 s (vecReduce ⟨.vsfredmin, apd, apa, kb.setWidth 6⟩ (maskGuard mask) s)

end Sys2Proof.Machine
end

