-- ==== Sys2Proof/Machine/Chain.lean ====
section
/-! DEFINITION. The attention chain, major 0x2E (R173 to R182). -/

namespace Sys2Proof.Machine

/-- SEGLEN of CHSEG (R174). -/
def Hart.seglen (h : Hart) : Nat := (h.getCsr 0xc50).toNat % 2 ^ 11

/-- N = VL ÷ SEGLEN (R175), rounded down where SEGLEN does not divide VL and 0 where it is 0: what E ≥ 3N of the cover
check, which comes before reasons 0x24 and 0x25, then compares with (DESIGN CHOICE, log 52). -/
def Hart.heads (h : Hart) : Nat := h.vl / h.seglen

/-- τ of CHSEG as a value. -/
def Hart.tau (h : Hart) : FV := bf16.decode (bits (h.getCsr 0xc50).toNat 31 16)

/-- τ is finite and positive. -/
def Hart.tauOk (h : Hart) : Bool :=
  match h.tau with
  | .fin x => !x.neg && x.m != 0
  | _ => false

/-- τ, where it is finite. -/
def Hart.tauEx (h : Hart) : Ex :=
  match h.tau with
  | .fin x => x
  | _ => ⟨false, 0, 0⟩

/-- The illegal uses of R175, in the order of their reasons; none where the sweep is empty. -/
def Hart.chainFault (h : Hart) (usesTau : Bool) : Option TrapRec :=
  if h.vl = 0 ∨ h.rc = 0 then none
  else if h.seglen = 0 ∨ 1024 < h.seglen then some (illegalUse 0x24)
  else if h.vl % h.seglen ≠ 0 then some (illegalUse 0x25)
  else if 16 < h.heads then some (illegalUse 0x26)
  else if usesTau && !h.tauOk then some (illegalUse 0x27)
  else none

/-- CL[r][j] (R173). -/
def Hart.getCL (h : Hart) (r j : Nat) : Nat := (h.cl.get (16 * r + j)).toNat

/-- CL[r][j] written. -/
def Hart.setCL (h : Hart) (r j v : Nat) : Hart := { h with cl := h.cl.set (16 * r + j) (BitVec.ofNat 32 v) }

/-- Round(f32, p, mode) of an exact product. -/
def Prod.round (f : Fmt) (mode : Nat) (p : Prod) : Nat × Flags :=
  match p with
  | .nan s => (f.canon, if s then fNV else 0)
  | .invalid => (f.canon, fNV)
  | .inf n => ((f.inf? n).1, 0)
  | .fin x => f.round mode x

/-- `vscore` and `vscore.s` (R177); `aps` is the scale entry. -/
def scoreVec (f : AHalf) (g : Guard) (scaled : Bool) (h : Hart) : Vec :=
  let p := h.apt f.apd
  let a := h.apt f.apa
  let b := h.apt f.apb
  let ops : List Opd := [⟨f.apa, false, h.rc, h.vl, false⟩, ⟨f.apb, false, h.rc, h.vl, false⟩]
  { ops := if scaled then ⟨f.apd, false, 1, h.vl, false⟩ :: ops else ops
    srcs := [f.apa, f.apb], srcs1 := if scaled then [f.apd] else [], dsts := []
    typesOk := if scaled then p.ty = 7 && a.ty = 7 && b.ty = 7 else a.ty = b.ty && (a.ty = 6 || a.ty = 7)
    own := h.chainFault false
    rc := h.rc, vl := h.heads, swept := decide (0 < h.vl) && decide (0 < h.rc), sels := h.vl, guard := g
    item := fun r e => r * h.heads + e / h.seglen
    item1 := fun e => ((List.range h.rc).find? (fun r => h.km.getLsbD r)).getD 0 * h.heads + e / h.seglen
    act := fun r _ => h.km.getLsbD r, whole := true, cls := 8, charge := h.rc * h.vl, clW := true, pace := fun o => o.n == f.apa || o.n == f.apb
    tap := f.apa
    cell := fun r j => a.cell h.bh r (j * h.seglen)
    el := fun h1 h2 r j =>
      let leaves := (List.range h.seglen).map (fun k =>
        let e := j * h.seglen + k
        if h.guardBit g e then
          let x := fProd ((fmtOf a.ty).decode (h1.getEl a r e)) ((fmtOf b.ty).decode (h1.getEl b r e))
          let y := if scaled then x.times (bf16.decode (h1.getEl p 0 e)) else x
          some (y.round f32 (h.mode 0xc01))
        else none)
      let v := reduce 8 0 (h.mode 0xc01) leaves
      (h2.setCL r j v.1, v.2) }

/-- Operands of the instructions on the statistics entry alone; `vexps` writes the latch. -/
def statVec (f : AHalf) (h : Hart) (writes : Bool) (el : Apt → Hart → Hart → Nat → Hart × Flags) : Vec :=
  let d := h.apt f.apd
  { ops := [⟨f.apd, true, 1, 3 * h.heads, false⟩], srcs := [], dsts := [f.apd], typesOk := d.ty = 8, own := h.chainFault true
    rc := if h.rc = 0 then 0 else 1, vl := h.heads, swept := decide (0 < h.vl) && decide (0 < h.rc)
    guard := ⟨0, false⟩, act := fun _ _ => true, whole := true, cls := 8, charge := h.rc * h.vl, reread := [f.apd], clR := true, clW := writes
    shape := if writes then .exps (h.rc * h.heads) else .segr (h.rc * h.heads), tap := f.apd
    snap := snapAt h.bh h.heads (fun j => if writes then [(d, 0, h.heads + j)] else [(d, 0, j), (d, 0, 2 * h.heads + j)])
      (fun j => (d, 0, j) :: if writes then [(d, 0, h.heads + j), (d, 0, 2 * h.heads + j)] else [])
    cell := fun _ j => d.cell h.bh 0 j, el := fun h1 h2 _ j => el d h1 h2 j }

/-- `vsegr` at head j (R178). -/
def segrEl (h : Hart) (d : Apt) (h1 h2 : Hart) (j : Nat) : Hart × Flags :=
  let mo := h1.getEl d 0 j
  let ms := reduce 8 1 0 ((List.range h.rc).map (fun r =>
    if h.km.getLsbD r then some (h1.getCL r j, (0 : Flags)) else none))
  let mn := fMinMax f32 true mo ms.1
  let x := f32.decode mo
  let y := f32.decode mn.1
  let a : Nat × Flags :=
    if x.isNaN || y.isNaN then (f32.canon, 0)
    else if mo = mn.1 then (0x3f800000, 0)
    else expDiff h.tauEx x y
  ((h2.setEl d 0 j mn.1).setEl d 0 (2 * h.heads + j) a.1, ms.2 ||| mn.2 ||| a.2)

/-- p of `vexps` for a score s and a maximum m (R179). -/
def expScore (h : Hart) (s m : Nat) : Nat × Flags :=
  let v := f32.decode s
  let w := f32.decode m
  if v = .inf true then (0, 0)
  else if v.isNaN || w.isNaN then (f32.canon, v.sig ||| w.sig)
  else expDiff h.tauEx v w

/-- `vexps` at head j (R179). -/
def expsEl (h : Hart) (d : Apt) (h1 h2 : Hart) (j : Nat) : Hart × Flags :=
  let m := h1.getEl d 0 j
  let a := h1.getEl d 0 (2 * h.heads + j)
  let ps := (List.range h.rc).map (fun r => if h.km.getLsbD r then some (expScore h (h1.getCL r j) m) else none)
  let sj := reduce 8 0 (h.mode 0xc01) ps
  let l := fProdAdd f32 (h.mode 0xc01) (fProd (f32.decode a) (f32.decode (h1.getEl d 0 (h.heads + j)))) (f32.decode sj.1)
  let h3 := (List.range h.rc).foldl (fun g r =>
    match ps.getD r none with
    | some p => g.setCL r j p.1
    | none => g) h2
  (h3.setEl d 0 (h.heads + j) l.1, ps.foldl (fun fl p => fl ||| (p.map (·.2)).getD 0) (sj.2 ||| l.2))

/-- `vwacc` (R180). Its statistics entry must have BC = 0 (R176), as a destination must. The sweep position that R77 compares is its output
element: what it reads of every row there counts as read at that position (DESIGN CHOICE, log 76). -/
def waccVec (f : AHalf) (g : Guard) (h : Hart) : Vec :=
  let d := h.apt f.apd
  let a := h.apt f.apa
  let b := h.apt f.apb
  { ops := [⟨f.apd, true, 1, h.vl, false⟩, ⟨f.apa, true, 1, 3 * h.heads, false⟩, ⟨f.apb, false, h.rc, h.vl, false⟩]
    srcs := [f.apb], srcs1 := [f.apa], dsts := [f.apd], pace := fun o => !o.dest
    snap := snapAt h.bh h.vl (fun e => [(d, 0, e)])
      (fun e => [(d, 0, e), (a, 0, 2 * h.heads + e / h.seglen)] ++ (List.range h.rc).map (fun r => (b, r, e)))
    typesOk := d.ty = 8 && a.ty = 8 && (b.ty = 6 || b.ty = 7), own := h.chainFault false
    rc := if h.rc = 0 then 0 else 1, vl := h.vl, rows := h.rc, srows := h.rc, item := fun _ e => e, guard := g
    els1 := 3 * h.heads, use1 := fun _ _ => (List.range h.vl).any (fun e => h.guardBit g e), item1 := fun e => e % h.heads * h.seglen, act := fun _ e => h.guardBit g e
    whole := true, cls := 8, charge := h.rc * h.vl, reread := [f.apd], clR := true, tap := f.apd, cell := fun _ e => d.cell h.bh 0 e
    el := fun h1 h2 _ e =>
      let m := h.mode 0xc01
      let j := e / h.seglen
      let leaves := (List.range h.rc).map (fun r =>
        if h.km.getLsbD r then some ((fProd (f32.decode (h1.getCL r j))
          ((fmtOf b.ty).decode (h1.getEl b r e))).round f32 m) else none)
      let se := reduce 8 0 m leaves
      let v := fProdAdd f32 m (fProd (f32.decode (h1.getEl a 0 (2 * h.heads + j))) (f32.decode (h1.getEl d 0 e)))
        (f32.decode se.1)
      (h2.setEl d 0 e v.1, se.2 ||| v.2) }

/-- `vclget` and `vclput` over their own range, rows by 16 (R181). HL ≥ RC and E ≥ 16 are checked whatever VL is, since VL
plays no part in their range, and dropped where RC is 0 (R387; DESIGN CHOICE, log 52). -/
def latchVec (f : AHalf) (g : Guard) (get : Bool) (h : Hart) : Vec :=
  let n := if get then f.apd else f.apa
  let a := h.apt n
  { ops := [⟨n, get, h.rc, 16, true⟩], srcs := if get then [] else [n], dsts := if get then [n] else [], typesOk := a.ty = 8
    rc := h.rc, vl := 16, guard := g, act := fun r j => h.km.getLsbD r && h.guardBit g j, whole := true, cls := 8
    charge := h.rc * 16, clR := get, clW := !get, tap := n, cell := fun r j => a.cell h.bh r j
    el := fun h1 h2 r j =>
      if get then (h2.setEl a r j (h1.getCL r j), 0) else (h2.setCL r j (h1.getEl a r j), 0) }

/-- An instruction of major 0x2E under a guard. -/
def vecChain (f : AHalf) (g : Guard) (s : State) (h : Hart) : Exec :=
  match f.op with
  | .vscore => Vec.run (scoreVec f g false) s h
  | .vscoreS => Vec.run (scoreVec f g true) s h
  | .vsegr => Vec.run (fun h => statVec f h false (segrEl h)) s h
  | .vexps => Vec.run (fun h => statVec f h true (expsEl h)) s h
  | .vwacc => Vec.run (waccVec f g) s h
  | .vclget => Vec.run (latchVec f g true) s h
  | _ => Vec.run (latchVec f g false) s h

def execVscore (apa apb : Ap) (mask : BitVec 2) (s : State) := onHart 4 s (vecChain ⟨.vscore, 0, apa, apb⟩ (maskGuard mask) s)
def execVscoreS (apd apa apb : Ap) (mask : BitVec 2) (s : State) := onHart 4 s (vecChain ⟨.vscoreS, apd, apa, apb⟩ (maskGuard mask) s)
def execVsegr (apd : Ap) (s : State) := onHart 4 s (vecChain ⟨.vsegr, apd, 0, 0⟩ ⟨0, false⟩ s)
def execVexps (apd : Ap) (s : State) := onHart 4 s (vecChain ⟨.vexps, apd, 0, 0⟩ ⟨0, false⟩ s)
def execVwacc (apd apa apb : Ap) (mask : BitVec 2) (s : State) := onHart 4 s (vecChain ⟨.vwacc, apd, apa, apb⟩ (maskGuard mask) s)
def execVclget (apd : Ap) (mask : BitVec 2) (s : State) := onHart 4 s (vecChain ⟨.vclget, apd, 0, 0⟩ (maskGuard mask) s)
def execVclput (apa : Ap) (mask : BitVec 2) (s : State) := onHart 4 s (vecChain ⟨.vclput, 0, apa, 0⟩ (maskGuard mask) s)

end Sys2Proof.Machine
end

