-- ==== Sys2Proof/Machine/Stair.lean ====
section
/-! DEFINITION. The stair: its registers, records, spill, fill and write-back, the checks of a push and a pop, and the
management instructions (R191 to R203, R361, R362, R393, R394). -/

namespace Sys2Proof.Machine

/-! ### Registers (R195, R196, R201) -/

def Hart.stb (h : Hart) : Nat := (h.getCsr 0xc30).toNat
def Hart.stl (h : Hart) : Nat := (h.getCsr 0xc31).toNat
def Hart.stp (h : Hart) : Nat := (h.getCsr 0xc32).toNat

/-- The stair has no spill area. -/
def Hart.noSpill (h : Hart) : Bool := h.stl = h.stb

/-- Capacity C (R196). -/
def Hart.stairCap (h : Hart) : Nat := if h.noSpill then h.share else h.stl - h.stb

/-- STP = p lies inside the stair (R196): it is a 64-bit register. -/
def Hart.stairHolds (h : Hart) (p : Nat) : Bool :=
  decide (p < 2 ^ 64) && decide (h.stb ≤ h.stl) && decide (h.stb ≤ p) && decide (p ≤ h.stb + h.stairCap) &&
    (h.noSpill || (decide (h.stb < 2 ^ 61) && decide (h.stl - 1 < 2 ^ 61)))

/-- STWV.VEN and VIDX (R201). -/
def Hart.ven (h : Hart) : Bool := pteBit (h.getCsr 0xc33).toNat 63
def Hart.vidx (h : Hart) : Nat := (h.getCsr 0xc33).toNat % 64

/-- The value of the version register that STWV selects: none where it is unbound (R201, R251). A fault answers F and
the address. -/
def State.versionOf (s : State) (h : Hart) (n : Nat) : Except (Nat × Word) (State × Option Nat) :=
  match find h.wver n with
  | none => .ok (s, none)
  | some va =>
    match s.load h true .vecLoad va 8 with
    | .error f => .error (f, va)
    | .ok (s, bs) => .ok (s, some (leNat bs))

/-! ### Bytes on chip and in memory (R198, R199) -/

/-- Units of 32 bytes of the stair from an address on: on chip at or above L, otherwise filled from memory. A fault
answers F and the address. -/
def State.stairUnits (s : State) (h : Hart) (va : Word) : Nat → Except (Nat × Word) (State × List Byte)
  | 0 => .ok (s, [])
  | n + 1 =>
    match (if h.noSpill || decide (h.stair.low ≤ va) then
        (.ok (s, (List.range 32).map (fun i => h.stair.bytes.get (va.toNat + i))) : Except Nat (State × List Byte))
      else s.load h true .vecLoad va 32) with
    | .error f => .error (f, va)
    | .ok (s, bs) =>
      match s.stairUnits h (va + 32) n with
      | .error e => .error e
      | .ok (s, rest) => .ok (s, bs ++ rest)

/-- The youngest outstanding store of a hart performed, and what must come before it. -/
def State.performLast (s : State) (hid : Nat) : State :=
  match (s.hartAt hid).bind (fun h => h.pending.getLast?) with
  | none => s
  | some y => s.performAll hid (fun x => x == y)

/-- Units of on-chip bytes stored to memory at their own addresses, lowest first. A store is ordered at the push of its bytes,
so one whose bytes a fence has passed since is performed at once (R199). A fault answers F and the address, after the units
below it (R394). -/
def State.stairOut (s : State) (h : Hart) (va : Word) : Nat → Except (State × Nat × Word) State
  | 0 => .ok s
  | n + 1 =>
    match s.save h true .vecStore va ((List.range 32).map (fun i => h.stair.bytes.get (va.toNat + i))) with
    | .error f => .error (s, f, va)
    | .ok t => (if va < h.stair.fenced then t.performLast h.hid else t).stairOut h (va + 32) n

/-- The on-chip part cut to [low, top). -/
def Stair.cut (t : Stair) (low top : Nat) : Stair :=
  { t with low := BitVec.ofNat 64 low
           bytes := t.bytes.filter (fun x => decide (low ≤ x.1) && decide (x.1 < top)) }

/-- STP lowered or set to p inside the stair, bits 4:0 of it being 0 (R195): bytes and marks above it go (R203). -/
def Hart.stairTop (h : Hart) (p : Nat) : Hart :=
  let p := p / 32 * 32
  let t := h.stair.cut (min h.stair.low.toNat p) p
  { h.setCsr 0xc32 (BitVec.ofNat 64 p) with stair := { t with
    marks := t.marks.filter (fun m => decide (m.toNat ≤ p)), fenced := BitVec.ofNat 64 (min t.fenced.toNat p) } }

/-- Bytes put above STP, spilling the lowest on-chip bytes until the rest fits the share (R194, R198). A spill that
faults answers F and the address. -/
def State.stairPush (s : State) (h : Hart) (bs : List Byte) : Except (State × Nat × Word) (State × Hart) :=
  let top := h.stp + bs.length
  let g : Hart := { h with stair := { h.stair with
    bytes := h.stair.bytes.setAll h.stp bs, marks := BitVec.ofNat 64 top :: h.stair.marks } }
  let low := h.stair.low.toNat
  let low' := if h.noSpill || decide (top - low ≤ h.share) then low else ceilTo 32 (top - h.share)
  match s.stairOut g h.stair.low ((low' - low) / 32) with
  | .error e => .error e
  | .ok s => .ok (s, { g.setCsr 0xc32 (BitVec.ofNat 64 top) with stair := g.stair.cut low' top })

/-! ### Records (R191 to R193) -/

/-- SHAPE (R192) of the result entry and the original entry. -/
def shapeHash (result original : Word) (rc vl : Nat) : Nat :=
  let u := result.toNat / 2 ^ 19
  let v := original.toNat / 2 ^ 19
  let h := u ^^^ (v * 2 ^ 19 % 2 ^ 64)
  (h % 2 ^ 32) ^^^ (h / 2 ^ 32) ^^^ ((rc * 2 ^ 16 + vl) % 2 ^ 32)

/-- Bytes padded with zeros to a multiple of 32. -/
def pad32 (bs : List Byte) : List Byte := bs ++ List.replicate (ceilTo 32 bs.length - bs.length) 0

/-- The granules of BITS (R193). -/
def bitGranules (bits : List Bool) : List Byte :=
  ((List.range ((bits.length + 15) / 16)).map (fun g =>
    leBytes 2 (((List.range 16).map (fun i => if bits.getD (16 * g + i) false then 2 ^ i else 0)).sum))).flatten

/-- The payload of slots of `size` bytes with their B bits (R193). -/
def payloadOf (size : Nat) (hasBits : Bool) (slots : List (Nat × Bool)) : List Byte :=
  pad32 ((slots.map (fun d => leBytes size d.1)).flatten) ++
    (if hasBits then pad32 (bitGranules (slots.map (·.2))) else [])

/-- A record: payload and header (R191). -/
def recordOf (payload : List Byte) (tag wvt shape rc vl : Nat) : List Byte :=
  payload ++ leBytes 2 tag ++ leBytes 2 wvt ++ leBytes 4 (rc * vl) ++ leBytes 4 shape ++ leBytes 4 payload.length ++
    leBytes 2 vl ++ leBytes 2 rc ++ List.replicate 12 0

/-- Bytes of a payload for n elements (R193). -/
def payloadLen (size : Nat) (hasBits : Bool) (n : Nat) : Nat :=
  ceilTo 32 (n * size) + (if hasBits then ceilTo 32 (2 * ((n + 15) / 16)) else 0)

/-- Slot i and bit i of a payload (R193). -/
def slotOf (size n : Nat) (payload : List Byte) (i : Nat) : Nat × Bool :=
  (leNat ((payload.drop (size * i)).take size),
   (leNat ((payload.drop (ceilTo 32 (n * size) + 2 * (i / 16))).take 2)).testBit (i % 16))

/-- A field of n bytes at an offset of a header. -/
def headField (hd : List Byte) (off n : Nat) : Nat := leNat ((hd.drop off).take n)

/-- A stair fault (R393). -/
def stairFault (code : Nat) (ap : Ap) : TrapRec := { code, tap := some ap.toNat }

/-- The checks of a push (R393), and the version that its record carries (R201). -/
def State.pushCheck (s : State) (h : Hart) (ap : Ap) (len : Nat) : Except Exec (State × Nat) :=
  if !(h.stairHolds h.stp && h.stairHolds (h.stp + len)) then .error (.trap s (stairFault 0x4015 ap))
  else if h.ven then
    match s.versionOf h h.vidx with
    | .error (f, va) => .error (s.memTrap h 1 f va 0 none none 8)
    | .ok (s, none) => .error (.trap s (stairFault 0x4014 ap))
    | .ok (s, some v) => .ok (s, v % 2 ^ 16)
  else .ok (s, 0)

/-- The version check of a pop (R201). -/
def State.popVersion (s : State) (h : Hart) (ap : Ap) (wvt : Nat) : Except Exec State :=
  if h.ven then
    match s.versionOf h h.vidx with
    | .error (f, va) => .error (s.memTrap h 1 f va 0 none none 8)
    | .ok (s, none) => .error (.trap s (stairFault 0x4014 ap))
    | .ok (s, some v) => if v % 2 ^ 16 = wvt then .ok s else .error (.trap s (stairFault 0x4014 ap))
  else .ok s

/-- Pop(tag, shape, n) (R194, R393): the hart with STP lowered, and the payload. -/
def State.stairPop (s : State) (h : Hart) (ap : Ap) (tag shape n : Nat) : Except Exec (State × Hart × List Byte) :=
  if !h.stairHolds h.stp then .error (.trap s (stairFault 0x4015 ap))
  else if h.stp = h.stb then .error (.trap s (stairFault 0x4010 ap))
  else
    match s.stairUnits h (BitVec.ofNat 64 (h.stp - 32)) 1 with
    | .error (f, va) => .error (s.memTrap h 1 f va 0 none none 32)
    | .ok (s, hd) =>
      let plen := headField hd 12 4
      if h.stp < h.stb + plen + 32 then .error (.trap s (stairFault 0x4015 ap))
      else if headField hd 0 2 ≠ tag then .error (.trap s (stairFault 0x4011 ap))
      else if headField hd 8 4 ≠ shape then .error (.trap s (stairFault 0x4012 ap))
      else if headField hd 4 4 ≠ n then .error (.trap s (stairFault 0x4013 ap))
      else
        match s.popVersion h ap (headField hd 2 2) with
        | .error e => .error e
        | .ok s =>
          match s.stairUnits h (BitVec.ofNat 64 (h.stp - 32 - plen)) (plen / 32) with
          | .error (f, va) =>
            let base := BitVec.ofNat 64 (h.stp - 32 - plen)
            .error ((s.noteRange h base (va - base).toNat).memTrap h 1 f va 0 none none 32)
          | .ok (s, p) => .ok (s, h.stairTop (h.stp - 32 - plen), p)

/-! ### Write-back and writes of the stair registers (R197, R198) -/

/-- [L, STP) stored to memory and performed at its home; nothing where the stair has no spill area. A fault answers F
and the address, after the units below it. R203 asks only that the stair's own stores are performed; with them the hart's
other outstanding stores are (DESIGN CHOICE, log 62). -/
def State.stairSync (s : State) (h : Hart) : Except (State × Nat × Word) State :=
  if h.noSpill then .ok s
  else
    match s.stairOut h h.stair.low ((h.stp - h.stair.low.toNat) / 32) with
    | .error e => .error e
    | .ok s => .ok (s.drain h.hid)

/-- A stair register's CSR number. -/
def stairCsr : StairReg → Nat
  | .stb => 0xc30
  | .stl => 0xc31
  | .stp => 0xc32

/-- A write of STB, STL or STP (R197): a write-back first, then the new value; marks are forgotten (R203). Where the write takes the spill area
away, R197 leaves no byte on chip and there is none to fill: [STB, STP) then reads as zero (DESIGN CHOICE, log 77). -/
def State.stairWrite (s : State) (h : Hart) (reg : StairReg) (v : Word) : Except (State × Nat × Word) (State × Hart) :=
  match s.stairSync h with
  | .error e => .error e
  | .ok s =>
    let g := h.setCsr (stairCsr reg) (v &&& ~~~31)
    let t : Stair :=
      if h.noSpill && g.noSpill then h.stair.cut g.stb g.stp
      else ⟨BitVec.ofNat 64 (if g.noSpill then g.stb else g.stp), [], [], 0, false⟩
    .ok (s, { g with stair := { t with marks := [], fenced := 0 } })

/-! ### Management instructions (R203) -/

/-- A management instruction as it passes the gate, without charge, and its hart's vector queue, without a pass (R202, R203, R328). -/
def stairManaged (s : State) (f : Hart → Exec) : Host.Outcome State Fault Refusal :=
  onHart 8 s (fun h => (f h).also (fun s => s.dispatch h 15 0 { stair := some .manage }))

/-- A management instruction whose memory access may fault. -/
def stairOp (s : State) (h : Hart) (k : Nat) (r : Except (Nat × Word) (State × Hart)) : Exec :=
  match r with
  | .error (f, va) => s.memTrap h k f va 0 none none 32
  | .ok (s, h) => .done (s.setHart h)

/-- A top header that lies below L is read from memory, and may fault, with nothing of it put on chip; R198 lists no such
moment (DESIGN CHOICE, log 54). -/
def execStpeek (rd : XReg) (s : State) := stairManaged s (fun h =>
  if h.stp = h.stb then .done (s.setHart (h.setX rd 0))
  else stairOp s h 1 (match s.stairUnits h (BitVec.ofNat 64 h.stp - 32) 1 with
    | .error e => .error e
    | .ok (s, hd) => .ok (s, h.setX rd (BitVec.ofNat 64
        (headField hd 4 4 * 2 ^ 32 + headField hd 2 2 * 2 ^ 16 + headField hd 0 2)))))

/-- Up to n top records removed without checks; a header below L is read from memory, and may fault (DESIGN CHOICE, log 54). -/
def State.stairDrop (s : State) : Nat → Hart → Except (State × Nat × Word) (State × Hart)
  | 0, h => .ok (s, h)
  | n + 1, h =>
    if h.stp ≤ h.stb then .ok (s, h)
    else
      match s.stairUnits h (BitVec.ofNat 64 (h.stp - 32)) 1 with
      | .error e => .error (s, e)
      | .ok (s, hd) =>
        if h.stp < h.stb + headField hd 12 4 + 32 then .ok (s, h)
        else s.stairDrop n (h.stairTop (h.stp - 32 - headField hd 12 4))

def execStdrop (ra : XReg) (s : State) := stairManaged s (fun h =>
  match s.stairDrop (min (h.getX ra).toNat ((h.stp - h.stb) / 32)) h with
  | .error (t, f, va) => t.memTrap h 1 f va 0 none none 32
  | .ok (s, h) => .done (s.setHart h))

def execStcut (ra : XReg) (s : State) := stairManaged s (fun h =>
  let p := (h.getX ra).toNat
  if h.stb ≤ p ∧ p ≤ h.stp ∧ p % 32 = 0 ∧ (p = h.stb ∨ p = h.stp ∨ (h.getX ra) ∈ h.stair.marks) then
    .done (s.setHart (h.stairTop p))
  else .trap s (illegalUse 0x2b))

def execStsync (s : State) := stairManaged s (fun h =>
  match s.stairSync h with
  | .error (t, f, va) => t.memTrap h 2 f va 0 none none 32
  | .ok t => .done (t.setHart h))

/-- The hart with n more units below L on chip, or as it is where a fill would fault (R203). -/
def State.stairPre (s : State) (h : Hart) (n : Nat) : State × Hart :=
  let low := h.stair.low.toNat - 32 * n
  match s.stairUnits h (BitVec.ofNat 64 low) n with
  | .error _ => (s, h)
  | .ok (s, bs) =>
    (s, { h with stair := { h.stair with low := BitVec.ofNat 64 low, bytes := h.stair.bytes.setAll low bs } })

/-- `stpre` may fill; how much is free (DESIGN CHOICE, log 10). -/
def execStpre (ra : XReg) (s : State) := stairManaged s (fun h =>
  let want := min (h.getX ra).toNat h.share / 32 - (h.stp - h.stair.low.toNat) / 32
  let room := if h.noSpill then 0 else min want ((h.stair.low.toNat - h.stb) / 32)
  if room = 0 then .done s
  else
    let r := s.stairPre h (min room (Config.stprefill s.tick))
    .done (r.1.setHart r.2))

end Sys2Proof.Machine
end

