-- ==== Sys2Proof/Machine/Reversible.lean ====
section
/-! DEFINITION. The reversible and undo instructions of major 0x2F (R183 to R190). -/

namespace Sys2Proof.Machine

/-! ### Integer pairs (R185) -/

/-- b⁻¹ modulo 2^w for odd b: each round doubles the number of right bits, from 3 on. -/
def oddInverse (w b : Nat) : Nat :=
  (List.range 4).foldl (fun x _ => x * (2 ^ w + 2 - b * x % 2 ^ w) % 2 ^ w) (b % 2 ^ w)

/-- Element functions of the integer pairs. -/
def revIntEl (op : AOp) (_ : Hart) (td _ta _tb a b _d : Nat) : Nat × Flags :=
  let m := 2 ^ tyWidth td
  match op with
  | .radd => ((a + b) % m, 0)
  | .uadd => ((a + m - b) % m, 0)
  | .rxor => (a ^^^ b, 0)
  | .rmulo => (a * b % m, 0)
  | _ => (a * oddInverse (tyWidth td) b % m, 0)

/-- The first active element of apb, among the first n, whose bits are bad, as an illegal use (R389). -/
def badFactor (f : AHalf) (g : Guard) (reason : Nat) (bad : Nat → Nat → Bool) (h0 h : Hart) (n : Nat) : Option TrapRec :=
  let b := h0.apt f.apb
  ((List.range n).find? (fun i =>
    h0.active g (i / h0.vl) (i % h0.vl) && bad b.ty (h.getEl b (i / h0.vl) (i % h0.vl)))).map (fun i =>
      illegalUse reason (some f.apb.toNat) (some (b.cell h0.bh (i / h0.vl) (i % h0.vl))))

/-- An even bit pattern. -/
def evenBits (_ b : Nat) : Bool := b % 2 = 0

/-- Zero, infinite or NaN. -/
def noFactor (ty b : Nat) : Bool :=
  match (fmtOf ty).decode b with
  | .fin x => x.m = 0
  | _ => true

/-- An integer pair under a guard. -/
def revIntVec (f : AHalf) (g : Guard) (h : Hart) : Vec :=
  let v := fullSweep f g 9 (if f.op = .rxor then typesAny3 else typesInt3) false (pointwise f (revIntEl f.op)) h
  match f.op with
  | .rmulo | .umulo => { v with whole := true, valueAp := some f.apb, value := badFactor f g 0x29 evenBits h }
  | _ => { v with whole := true }

/-! ### Forward instructions that push (R186 to R189) -/

/-- Bytes of a slot, whether the payload has BITS, and the forward func, of a pushing or popping operation on a
destination type. -/
def recordShape (op : AOp) (ty : Nat) : Nat × Bool × Nat :=
  match op with
  | .rfmul | .ufmul => (if ty = 8 then 4 else 2, true, 0x08)
  | .rfadd | .ufadd => (4, true, 0x0a)
  | .rcvt | .ucvt => (2, true, 0x0c)
  | _ => (4, false, 0x0e)

/-- Record bytes of the elements of a row: their slots, and one bit for each where the payload has BITS (R193, R202). -/
def rowBytes (q : Nat × Bool × Nat) (vl : Nat) : Nat := q.1 * vl + if q.2.1 then (vl + 7) / 8 else 0

/-- The bits of an exact value in a format, where it is one of its values; a zero is +0.0 (R361). -/
def exactBits (f : Fmt) (x : Ex) : Option Nat :=
  if x.m = 0 then some 0
  else
    let r := f.round 0 x
    if r.2 &&& (fNX ||| fOF) = 0 then some r.1 else none

/-- The slot of a residual x − d: itself where a and d are finite and it is a value of the format, else the original
with its escape bit (R186, R187). -/
def residual (f : Fmt) (x : Option Ex) (d a : Nat) : Nat × Bool :=
  match x, f.decode d with
  | some x, .fin y =>
    match exactBits f (x.add y.negate 0) with
    | some r => (r, false)
    | none => (a, true)
  | _, _ => (a, true)

/-- The result, its flags and its slot at an element of a pushing instruction. -/
def forwardEl (op : AOp) (h : Hart) (td _ta tb a b : Nat) : Nat × Flags × Nat × Bool :=
  let f := fmtOf td
  let m := h.mode 0xc01
  match op with
  | .rfmul =>
    let d := fMul f m (f.decode a) (f.decode b)
    let x : Option Ex := match f.decode a, f.decode b with
      | .fin x, .fin y => some (x.mul y)
      | _, _ => none
    (d.1, d.2, residual f x d.1 a)
  | .rfadd =>
    let d := fAdd f m (f.decode a) (f.decode b)
    let x : Option Ex := match f.decode a, f.decode b with
      | .fin x, .fin y => if x.m = 0 then none else some (x.add y 0)
      | _, _ => none
    (d.1, d.2, residual f x d.1 a)
  | .rcvt =>
    let hi := a / 2 ^ 16
    let q : Nat × Flags := match f32.decode a with
      | .nan _ => (if hi % 2 ^ 7 = 0 then hi + 1 else hi, 0)
      | v => v.convert bf16 m
    (q.1, q.2, a % 2 ^ 16, decide (q.1 ≠ hi))
  | _ =>
    let x := intVal 4 a
    let q := clampInt 0 (Ex.toInt ⟨decide (x < 0), x.natAbs, -((b % 2 ^ 5 : Nat) : Int)⟩ (h.mode 0xc02))
    let _ := tb
    (q.1, q.2, a, false)

/-- Types of the pushing instructions (R183). -/
def forwardTypes (op : AOp) (td ta tb : Nat) : Bool :=
  match op with
  | .rfmul => td = ta && td = tb && (td = 7 || td = 8)
  | .rfadd => td = 8 && ta = 8 && tb = 8
  | .rcvt => td = 7 && ta = 8
  | _ => td = 0 && ta = 4 && tyInt tb

/-- The slots of the whole sweep, zero where an element is inactive (R193). -/
def slotsOf (f : AHalf) (g : Guard) (h h1 : Hart) : List (Nat × Bool) :=
  let d := h.apt f.apd
  let a := h.apt f.apa
  let b := h.apt f.apb
  (List.range (h.rc * h.vl)).map (fun i =>
    let r := i / h.vl
    let e := i % h.vl
    if h.active g r e then (forwardEl f.op h d.ty a.ty b.ty (h1.getEl a r e) (h1.getEl b r e)).2.2 else (0, false))

/-- A pushing instruction without its push. -/
def forwardVec (f : AHalf) (g : Guard) (h : Hart) : Vec :=
  let v := fullSweep f g 9 (forwardTypes f.op) false (pointwise f (fun h td ta tb a b _ =>
    let r := forwardEl f.op h td ta tb a b
    (r.1, r.2.1))) h
  let v := { v with whole := true, stair := some .push, recBytes := rowBytes (recordShape f.op (h.apt f.apd).ty) h.vl }
  if f.op = .rfmul then { v with valueAp := some f.apb, value := badFactor f g 0x2a noFactor h } else v

/-- A pushing instruction under a guard: its checks, the checks of the stair, its sweep, then the push. -/
def revPush (f : AHalf) (g : Guard) (s : State) (h : Hart) : Exec :=
  Vec.start (forwardVec f g) s h (fun v h fd =>
    let td := (h.apt f.apd).ty
    let q := recordShape f.op td
    match fd.s.pushCheck h f.apd (payloadLen q.1 q.2.1 (h.rc * h.vl) + 32) with
    | .error e => e
    | .ok (s, wvt) =>
      { v with last := fun s h1 h2 fl =>
          let p := payloadOf q.1 q.2.1 (slotsOf f g h h1)
          let shape := shapeHash (h.ap.get f.apd.toNat) (h.ap.get f.apa.toNat) h.rc h.vl
          match s.stairPush h2 (recordOf p (0xbc00 + 64 * td + q.2.2) wvt shape h.rc h.vl) with
          | .error (s, c, va) => s.memTrap h 2 c va 0 none none 32
          | .ok (s, h3) => .done (s.setHart (h3.orFlags fl)) }.finish h { fd with s })

/-! ### Undo instructions that pop -/

/-- Exact sum of two values; a zero b leaves a as it is. -/
def exactSum (a b : FV) : FV :=
  match a, b with
  | .nan s, _ => .nan s
  | _, .nan s => .nan s
  | .inf n, .inf m => if n = m then .inf n else .nan false
  | .inf n, _ => .inf n
  | _, .inf m => .inf m
  | .fin x, .fin y => if y.m = 0 then .fin x else .fin (x.add y 0)

/-- The bits restored at an element from the slot and the bit of the record. -/
def undoEl (op : AOp) (td a b : Nat) (slot : Nat × Bool) : Nat :=
  let f := fmtOf td
  match op with
  | .ufmul =>
    if slot.2 then slot.1 else (fDiv f 0 (exactSum (f.decode a) (f.decode slot.1)) (f.decode b)).1
  | .ufadd =>
    if slot.2 then slot.1
    else
      let x : FV := match f.decode a, f.decode b with
        | .fin x, .fin y => .fin (x.add y.negate 0)
        | x, y => exactSum x y.negate
      ((exactSum x (f.decode slot.1)).convert f 0).1
  | .ucvt => ((a + 2 ^ 16 - (if slot.2 then 1 else 0)) * 2 ^ 16 + slot.1) % 2 ^ 32
  | _ => slot.1

/-- Types of the undo instructions (R183). -/
def undoTypes (op : AOp) (td ta tb : Nat) : Bool :=
  match op with
  | .ufmul => td = ta && td = tb && (td = 7 || td = 8)
  | .ufadd => td = 8 && ta = 8 && tb = 8
  | .ucvt => td = 8 && ta = 7
  | _ => td = 4 && ta = 0

/-- An undo instruction with the payload of its record. -/
def undoVec (f : AHalf) (g : Guard) (payload : List Byte) (h : Hart) : Vec :=
  let q := recordShape f.op (h.apt f.apa).ty
  let v := fullSweep f g 9 (undoTypes f.op) false (fun h h1 _ r e =>
    (undoEl f.op (h.apt f.apd).ty (h1.getEl (h.apt f.apa) r e) (h1.getEl (h.apt f.apb) r e)
      (slotOf q.1 (h.rc * h.vl) payload (r * h.vl + e)), 0)) h
  let v := { v with whole := true, stair := some .pop, recBytes := rowBytes q h.vl }
  if f.op = .ufmul then { v with valueAp := some f.apb, value := badFactor f g 0x2a noFactor h } else v

/-- The stair of the hart after a pop. -/
def Hart.popped (h hp : Hart) : Hart := { h.setCsr 0xc32 (hp.getCsr 0xc32) with stair := hp.stair }

/-- An undo instruction under a guard: its checks, the pop, its sweep. A fault of a stream leaves the stair as it
was. No undo sets a flag (R184), but a stream-bound scaled source raises the flags of its scaling in one too, at its consumption (R223;
DESIGN CHOICE, log 61). -/
def revPop (f : AHalf) (g : Guard) (s : State) (h : Hart) : Exec :=
  Vec.start (undoVec f g []) s h (fun _ h fd =>
    let ta := (h.apt f.apa).ty
    let q := recordShape f.op ta
    let shape := shapeHash (h.ap.get f.apa.toNat) (h.ap.get f.apd.toNat) h.rc h.vl
    match fd.s.stairPop h f.apa (0xbc00 + 64 * ta + q.2.2) shape (h.rc * h.vl) with
    | .error e => e
    | .ok (s, hp, payload) =>
      let last : State → Hart → Hart → Flags → Exec := fun s _ h2 fl =>
        .done (s.setHart ((h2.orFlags fl).popped hp))
      { undoVec f g payload h with last }.finish h { fd with s })

/-- An instruction of major 0x2F under a guard. -/
def vecReversible (f : AHalf) (g : Guard) (s : State) (h : Hart) : Exec :=
  match f.op with
  | .rfmul | .rfadd | .rcvt | .rnrw => revPush f g s h
  | .ufmul | .ufadd | .ucvt | .unrw => revPop f g s h
  | _ => Vec.run (revIntVec f g) s h

def execRadd (apd apa apb : Ap) (mask : BitVec 2) (s : State) := onHart 4 s (vecReversible ⟨.radd, apd, apa, apb⟩ (maskGuard mask) s)
def execUadd (apd apa apb : Ap) (mask : BitVec 2) (s : State) := onHart 4 s (vecReversible ⟨.uadd, apd, apa, apb⟩ (maskGuard mask) s)
def execRxor (apd apa apb : Ap) (mask : BitVec 2) (s : State) := onHart 4 s (vecReversible ⟨.rxor, apd, apa, apb⟩ (maskGuard mask) s)
def execRmulo (apd apa apb : Ap) (mask : BitVec 2) (s : State) := onHart 4 s (vecReversible ⟨.rmulo, apd, apa, apb⟩ (maskGuard mask) s)
def execUmulo (apd apa apb : Ap) (mask : BitVec 2) (s : State) := onHart 4 s (vecReversible ⟨.umulo, apd, apa, apb⟩ (maskGuard mask) s)
def execRfmul (apd apa apb : Ap) (mask : BitVec 2) (s : State) := onHart 4 s (vecReversible ⟨.rfmul, apd, apa, apb⟩ (maskGuard mask) s)
def execUfmul (apd apa apb : Ap) (mask : BitVec 2) (s : State) := onHart 4 s (vecReversible ⟨.ufmul, apd, apa, apb⟩ (maskGuard mask) s)
def execRfadd (apd apa apb : Ap) (mask : BitVec 2) (s : State) := onHart 4 s (vecReversible ⟨.rfadd, apd, apa, apb⟩ (maskGuard mask) s)
def execUfadd (apd apa apb : Ap) (mask : BitVec 2) (s : State) := onHart 4 s (vecReversible ⟨.ufadd, apd, apa, apb⟩ (maskGuard mask) s)
def execRcvt (apd apa : Ap) (mask : BitVec 2) (s : State) := onHart 4 s (vecReversible ⟨.rcvt, apd, apa, 0⟩ (maskGuard mask) s)
def execUcvt (apd apa : Ap) (mask : BitVec 2) (s : State) := onHart 4 s (vecReversible ⟨.ucvt, apd, apa, 0⟩ (maskGuard mask) s)
def execRnrw (apd apa apb : Ap) (mask : BitVec 2) (s : State) := onHart 4 s (vecReversible ⟨.rnrw, apd, apa, apb⟩ (maskGuard mask) s)
def execUnrw (apd apa : Ap) (mask : BitVec 2) (s : State) := onHart 4 s (vecReversible ⟨.unrw, apd, apa, 0⟩ (maskGuard mask) s)

end Sys2Proof.Machine
end

