-- ==== Sys2Proof/Machine/Aperture.lean ====
section
/-! DEFINITION. The length instructions, writes of the Aperture Table, moves of the carry array, `vsplat` and `vget` (R150 to R155,
R390). -/

namespace Sys2Proof.Machine

/-! ### Length instructions (R150, R53) -/

def execSetvl (rd ra : XReg) (ty : BitVec 4) (s : State) := hartOp 4 s (fun h =>
  let n := min (h.getX ra).toNat (16384 / tyWidth ty.toNat)
  { h.setX rd (BitVec.ofNat 64 n) with vl := n })

/-- LGRANT.VIS, bits 11:8, replaced (R48). -/
def Hart.setVis (h : Hart) (t : Nat) : Hart := h.setCsr 0xc41 (BitVec.ofNat 64 (t % 16 * 256))

def execSetvlG (rd ra : XReg) (ty : BitVec 4) (s : State) := hartOp 4 s (fun h =>
  let t := s.target h
  let n := min (h.getX ra).toNat (t * 2048 / tyWidth ty.toNat)
  ({ h.setX rd (BitVec.ofNat 64 n) with vl := n }).setVis t)

def execSetrc (rd ra : XReg) (imm : BitVec 16) (s : State) := onHart 4 s (fun h =>
  let n := h.getX ra + zimm imm
  if h.bh < n.toNat then .trap s (illegalUse 0x20)
  else .done (s.setHart { h.setX rd n with rc := n.toNat }))

/-! ### Table writes (R151 to R154, R390) -/

/-- An aperture definition fault that writing a value into entry n would be. -/
def Hart.aptFault (h : Hart) (n : Ap) (v : Word) : Option TrapRec :=
  let a := Apt.ofWord v
  if a.v then (a.fault? h.bh).map (fun c => { code := c, tap := some n.toNat }) else none

/-- Entry n := v. -/
def Hart.setAp (h : Hart) (n : Ap) (v : Word) : Hart := { h with ap := h.ap.set n.toNat v }

/-- A definition of one entry. -/
def define (n : Ap) (v : Hart → Word) (s : State) : Host.Outcome State Fault Refusal :=
  onHart 8 s (fun h =>
    match h.aptFault n (v h) with
    | some t => .trap s t
    | none => .done (s.setHart (h.setAp n (v h))))

def execAdefRect (apd : Ap) (tr : Bool) (ty : BitVec 4) (row0 : BitVec 8) (col0 slots : BitVec 10) (hm1 : BitVec 8)
    (s : State) :=
  define apd (fun _ => Apt.toWord ⟨true, if tr then 1 else 0, ty.toNat, row0.toNat, col0.toNat, hm1.toNat + 1,
    slots.toNat, false, false, 0⟩) s

def execAdefLine (apd : Ap) (line : BitVec 2) (bc : Bool) (ty : BitVec 4) (row0 : BitVec 8) (col0 slots : BitVec 10)
    (s : State) :=
  define apd (fun _ => Apt.toWord ⟨true, 2 + line.toNat, ty.toNat, row0.toNat, col0.toNat, 1, slots.toNat, bc, false,
    0⟩) s

def execAdefx (apd : Ap) (ra : XReg) (s : State) := define apd (fun h => h.getX ra &&& ~~~0x1fff) s

def execAget (rd : XReg) (apa : Ap) (s : State) := hartOp 8 s (fun h => h.setX rd (h.ap.get apa.toNat))

def execAmov (apd apa : Ap) (s : State) := define apd (fun h => h.ap.get apa.toNat) s

def execAswap (apd apa : Ap) (s : State) := onHart 8 s (fun h =>
  let p := h.ap.get apd.toNat
  let q := h.ap.get apa.toNat
  match h.aptFault apd q with
  | some t => .trap s t
  | none =>
    match h.aptFault apa p with
    | some t => .trap s t
    | none => .done (s.setHart ((h.setAp apd q).setAp apa p)))

def execAbind (apd : Ap) (fs : BitVec 4) (s : State) := hartOp 8 s (fun h =>
  h.setAp apd (setField (setField (h.ap.get apd.toNat) 17 1 1) 13 4 fs.toNat))

def execAunbind (apd : Ap) (s : State) := hartOp 8 s (fun h =>
  h.setAp apd (setField (h.ap.get apd.toNat) 13 5 0))

/-! ### Moves of the carry array, splat and get (R154, R155) -/

/-- `efcget` and `efcput` as single-row sweeps. -/
def efcVec (n : Ap) (get : Bool) (g : Guard) (h : Hart) : Vec :=
  let a := h.apt n
  { ops := [⟨n, get, 1, h.vl, false⟩], srcs := if get then [] else [n], dsts := if get then [n] else [], typesOk := true
    own := if a.ty ≠ 8 then some (illegalUse 0x22 (some n.toNat)) else if 256 < h.vl then some (illegalUse 0x22)
      else none
    rc := 1, vl := h.vl, guard := g, act := fun r e => h.active g r e, cls := 5, charge := h.vl, tap := n
    cell := fun r e => a.cell h.bh r e
    el := fun h1 h2 _ e =>
      if get then (h2.setEl a 0 e (h1.efc.get e).toNat, 0)
      else ({ h2 with efc := h2.efc.set e (BitVec.ofNat 32 (h1.getEl a 0 e)) }, 0) }

def execEfcget (kg : KReg) (ks : Bool) (apd : Ap) (s : State) :=
  onHart 8 s (Vec.run (efcVec apd true ⟨kg.toNat, ks⟩) s)

def execEfcput (kg : KReg) (ks : Bool) (apa : Ap) (s : State) :=
  onHart 8 s (Vec.run (efcVec apa false ⟨kg.toNat, ks⟩) s)

/-- `vsplat` as a full sweep. -/
def splatVec (apd : Ap) (ra : XReg) (g : Guard) (h : Hart) : Vec :=
  let d := h.apt apd
  { ops := [⟨apd, true, h.rc, h.vl, false⟩], srcs := [], dsts := [apd], typesOk := true, rc := h.rc, vl := h.vl, guard := g
    act := fun r e => h.active g r e, cls := 5, charge := h.rc * h.vl, tap := apd, cell := fun r e => d.cell h.bh r e
    el := fun _ h2 r e => (h2.setEl d r e ((h.getX ra).toNat % 2 ^ tyWidth d.ty), 0) }

def execVsplat (kg : KReg) (ks : Bool) (apd : Ap) (ra : XReg) (s : State) :=
  onHart 8 s (Vec.run (splatVec apd ra ⟨kg.toNat, ks⟩) s)

/-- An element as `vget` returns it (R154). -/
def elementWord (ty v : Nat) : Word := if tySigned ty then word (sext v (tyWidth ty)) else BitVec.ofNat 64 v

/-- `vget`. It sweeps nothing (R146), so of a stream-bound entry it consumes nothing and reads the cell as it is (R224; DESIGN CHOICE,
log 55). -/
def execVget (rd : XReg) (apa : Ap) (rb : XReg) (s : State) := onHart 8 s (fun h =>
  let a := h.apt apa
  let r := bits (h.getX rb).toNat 28 16
  let e := bits (h.getX rb).toNat 12 0
  if !a.v then .trap s (illegalUse 0x10 (some apa.toNat))
  else if a.hl ≤ r ∨ a.e ≤ e then .trap s (illegalUse 0x21 (some apa.toNat))
  else
    match h.streamFault [] [apa] with
    | some n => .trap s (illegalUse 0x44 (some n.toNat))
    | none => withPlates [a] 257 s h (fun s h =>
        (Exec.done (s.setHart (h.setX rd (elementWord a.ty (h.getEl a r e))))).also (fun s =>
          s.dispatch h 5 0 { ops := [⟨h.ap.get apa.toNat, false, 1, 1, true⟩], rc := 1, vl := 1, rows := 1 })))

end Sys2Proof.Machine
end

