-- ==== Sys2Proof/Machine/Csr.lean ====
section
/-! DEFINITION. The CSRs: their reads and writes (R10, R12, R133 to R138), the dome's grants (R47 to R51), the clock of a core's
island (R324 to R327) and the counters. -/

namespace Sys2Proof.Machine

/-! ### The dome (R47, R48) -/

/-- LGRANT.PHYS: groups that a hart's gang holds (R48). -/
def State.physGroups (s : State) (h : Hart) : Nat := ownedBy (s.coreAt h.q).groups h.slot

/-- A write to LCTL by the current hart (R47, R50). -/
def State.writeLctl (s : State) (h : Hart) (v : Word) : State :=
  let s := s.setHart (h.setCsr 0xc40 (BitVec.ofNat 64 (bits v.toNat 7 6 * 64)))
  match s.gangOf h with
  | none => s
  | some g =>
    let l := v.toNat % 16
    (s.setGang { g with gpri := bits v.toNat 5 4, lreq := if l = 0 then 1 else if 8 < l then 8 else l }).regroup h.q

/-! ### The island's clock (R324 to R327) -/

/-- A frequency written to FREQREQ, rounded and clamped (R325). -/
def freqOf (v : Word) : Nat := max 470 (min 1200 (v.toNat % 2 ^ 11 / 10 * 10))

/-- A write to FREQREQ (R325): the target changes at once; a point that the island is moving to away from the new target
is abandoned at the next boundary of four uncore cycles, n of them counted from the relock's begin (how far a relock has come, the model
leaves free; DESIGN CHOICE, log 5), and a target equal to the last completed point ends the ramp. -/
def CoreSt.request (c : CoreSt) (mhz n : Nat) : CoreSt :=
  let keep := match c.relock with
    | some true => decide (c.cur < mhz)
    | some false => decide (mhz < c.cur)
    | none => true
  if keep then { c with target := mhz }
  else
    let stall := 4 * (n % 6 + 1)
    { c with target := mhz, relock := none, time := c.time + uncore stall, rstall := min (c.rstall + stall) (2 ^ 32 - 1) }

/-- CLKST (R326): a ramp is under way until the target is the last completed point. -/
def CoreSt.clkst (c : CoreSt) : Nat :=
  c.rstall * 2 ^ 32 + (if c.target ≠ c.cur then 2 ^ 31 else 0) + c.cur * 2 ^ 16 + c.target

/-! ### Numbers and privileges (R134, R135) -/

/-- A chapter assigns the number. -/
def csrAssigned (n : Nat) : Bool :=
  [0xc01, 0xc02, 0xc03, 0xc04, 0xc08, 0xc09, 0xc0a, 0xc10, 0xc11, 0xc13, 0xc20, 0xc21, 0xc22, 0xc30, 0xc31, 0xc32,
    0xc33, 0xc40, 0xc41, 0xc42, 0xc44, 0xc46, 0xc48, 0xc49, 0xc50, 0xd10, 0xd11, 0xd12, 0xd30, 0xd31, 0xd32, 0xd40,
    0xd41, 0xd44, 0xd45, 0xd46, 0xd47, 0xd48, 0xd4c].contains n ||
  (decide (0xd20 ≤ n) && decide (n ≤ 0xd2c)) || (decide (0xf20 ≤ n) && decide (n ≤ 0xf2c))

/-- The hart's privilege reaches a number of the three ranges (R134). -/
def csrReach (p : Priv) (n : Nat) : Bool :=
  if n / 256 = 0xd then p != .u else if n / 256 = 0xf then p == .m else true

/-- What an access of a CSR number meets instead of the CSR (R374, R382). -/
def Hart.csrFault (h : Hart) (n : Nat) : Option TrapRec :=
  if !csrReach h.priv n then some privilegeViolation
  else if !csrAssigned n then some (illegalUse 1)
  else none

/-! ### Reads -/

/-- MDID of a die (R316). -/
def mdid (die : Nat) : Word := if Config.isB0 die then 0x10b00 else 0x10a01

/-- LND as a CSR (R240). -/
def Gang.lnd (g : Gang) : Word :=
  BitVec.ofNat 64 (g.live.toNat * 2 ^ 20 + g.arr.toNat * 2 ^ 16 + g.phase.toNat)

/-- The value of an assigned CSR, read with its read rules. -/
def State.readCsr (s : State) (h : Hart) (n : Nat) : State × Word :=
  let c := s.coreAt h.q
  match n with
  | 0xc08 => (s, BitVec.ofNat 64 h.vl)
  | 0xc09 => (s, BitVec.ofNat 64 h.rc)
  | 0xc0a => (s, BitVec.ofNat 64 h.swi)
  | 0xc10 => (s, BitVec.ofNat 64 h.whereNat)
  | 0xc11 => (s, mdid h.die)
  | 0xc20 | 0xc22 =>
    let s := s.passTime h.q
    (s, BitVec.ofNat 64 (s.coreAt h.q).cyc)
  | 0xc21 =>
    let s := s.passTime h.q
    (s, BitVec.ofNat 64 (s.coreAt h.q).ncyc)
  | 0xc40 =>
    match s.gangOf h with
    | none => (s, h.getCsr 0xc40)
    | some g => (s, h.getCsr 0xc40 + BitVec.ofNat 64 (g.gpri * 16 + g.lreq))
  | 0xc41 => (s, h.getCsr 0xc41 + BitVec.ofNat 64 (s.physGroups h * 16 + s.target h))
  | 0xc42 => (s, ((s.gangOf h).map Gang.lnd).getD 0)
  | 0xc44 =>
    let s := s.passTime h.q
    let c := s.coreAt h.q
    (s, BitVec.ofNat 64 (c.throt * 2 ^ 32 + c.level))
  | 0xc46 => (s, BitVec.ofNat 64 c.clkst)
  | 0xd2a => (s, (h.tefcS.get ((h.getCsr 0xd29).toNat % 256)).setWidth 64)
  | 0xf2a => (s, (h.tefcM.get ((h.getCsr 0xf29).toNat % 256)).setWidth 64)
  | 0xd4c => (s, BitVec.ofNat 64 c.target)
  | n => if (0xd40 ≤ n ∧ n ≤ 0xd48) then (s, c.csr.get n) else (s, h.getCsr n)

/-! ### Writes -/

/-- Bits of a hart's CSR that a write stores; 0 for a read-only register (R10, R12). -/
def csrMask (n : Nat) : Word :=
  match n with
  | 0xc01 | 0xc02 => 0x7
  | 0xc03 | 0xc04 => 0x3f
  | 0xc33 => 0x800000000000003f
  | 0xc50 => 0xffff07ff
  | 0xd10 => 0xffffffffffff0000
  | 0xd11 => 0xffffffff0000
  | 0xd12 => 0x800000000000ffff
  | 0xd20 | 0xf20 => 0xffff
  | 0xd21 | 0xf21 => 0xfffffffffffffffc
  | 0xd22 | 0xf22 => 0xfffff
  | 0xd23 | 0xf23 => 0x7f
  | 0xd24 | 0xf24 => 0x8000000003ff00ff
  | 0xd25 | 0xf25 | 0xd28 | 0xf28 => 0xffffffffffffffff
  | 0xd26 | 0xf26 => 0x7
  | 0xd27 | 0xf27 => 0xfffffffffffffffd
  | 0xd29 | 0xf29 => 0xff
  | 0xd2b | 0xf2b => 0x3
  | _ => 0

/-- The value a write stores in a hart's CSR, with the values that a field replaces: MODE 6 and 7 are not stored
(R88), PP 2 is stored as 0 (R371). -/
def csrStored (n : Nat) (old v : Word) : Word :=
  let w := v &&& csrMask n
  if n = 0xc01 ∨ n = 0xc02 then (if 6 ≤ w.toNat then old else w)
  else if n = 0xd26 ∨ n = 0xf26 then (if w.toNat % 4 = 2 then w &&& 4 else w)
  else w

/-- Bits of a core's CSR that a write stores (R269, R330). -/
def coreStored (n : Nat) (v : Word) : Word :=
  match n with
  | 0xd40 => if v.toNat % 2 ^ 32 = 0 then 1 else v &&& 0xffffffff
  | 0xd41 | 0xd48 => v &&& 0xffff
  | _ => v

/-- A write of an assigned CSR by the current hart; a stair write-back that faults answers F and the address, after the units
below it (R394). -/
def State.writeCsr (s : State) (h : Hart) (n : Nat) (v : Word) : Except (State × Nat × Word) State :=
  match n with
  | 0xc30 => (s.stairWrite h .stb v).map (fun r => r.1.setHart r.2)
  | 0xc31 => (s.stairWrite h .stl v).map (fun r => r.1.setHart r.2)
  | 0xc32 => (s.stairWrite h .stp v).map (fun r => r.1.setHart r.2)
  | 0xc40 => .ok (s.writeLctl h v)
  | 0xd12 => .ok (s.setHart { h.setCsr n (csrStored n 0 v) with fetched := [], unit := none })
  | 0xd2a => .ok (s.setHart { h with tefcS := h.tefcS.set ((h.getCsr 0xd29).toNat % 256) (v.setWidth 32) })
  | 0xf2a => .ok (s.setHart { h with tefcM := h.tefcM.set ((h.getCsr 0xf29).toNat % 256) (v.setWidth 32) })
  | 0xd40 | 0xd41 | 0xd44 | 0xd45 | 0xd46 | 0xd47 | 0xd48 =>
    .ok (s.updCore h.q (fun c => { c with csr := c.csr.set n (coreStored n v) }))
  | 0xd4c => .ok (s.updCore h.q (fun c => c.request (freqOf v) (Config.abandoned s.tick)))
  | n => if csrMask n = 0 then .ok s else .ok (s.setHart (h.setCsr n (csrStored n (h.getCsr n) v)))

/-- A read of CYCW waits: an older instruction of the hart has not completed (R138). -/
def State.holdsCycw (s : State) (h : Hart) : Bool := (s.coreAt h.q).outstanding h.hid || !h.pending.isEmpty

/-- The hart's older floating atomics performed, and their flags in FSTAT, before FSTAT is read or written (R104). -/
def State.flagsReady (s : State) (h : Hart) : State :=
  if h.pending.any Pending.raises || h.landedFlags != 0 then (s.performAll h.hid Pending.raises).updHart Hart.arrive else s

/-- A CSR instruction (R133): the old value read, a new one written unless `new` is none, X(rd) := old. -/
def csrOp (rd : XReg) (n : Nat) (new : Hart → Word → Option Word) (s : State) : Host.Outcome State Fault Refusal :=
  onHart 4 s (fun h =>
    match h.csrFault n with
    | some t => .trap s t
    | none =>
      if n = 0xc22 && s.holdsCycw h then .wait (s.drain h.hid)
      else
        let s := if n = 0xc03 then s.flagsReady h else s
        let h := (s.hart?).getD h
        let r := s.readCsr h n
        let h' := (r.1.hart?).getD h
        match new h r.2 with
        | none => .done (r.1.updHart (fun h => h.setX rd r.2))
        | some v =>
          match r.1.writeCsr h' n v with
          | .error (t, f, va) => t.memTrap h' 2 f va 0 none none 32
          | .ok s => .done (s.updHart (fun h => h.setX rd r.2)))

def execCsrrw (rd ra : XReg) (csr : BitVec 16) (s : State) :=
  csrOp rd csr.toNat (fun h _ => some (h.getX ra)) s

def execCsrrs (rd ra : XReg) (csr : BitVec 16) (s : State) :=
  csrOp rd csr.toNat (fun h old => if ra = 0 then none else some (old ||| h.getX ra)) s

def execCsrrc (rd ra : XReg) (csr : BitVec 16) (s : State) :=
  csrOp rd csr.toNat (fun h old => if ra = 0 then none else some (old &&& ~~~(h.getX ra))) s

/-! ### Accesses with rows of their own: the read or write part of a CSR instruction by the current hart -/

/-- A read of one CSR. -/
def csrGet (rd : XReg) (n : Nat) (s : State) : Host.Outcome State Fault Refusal := csrOp rd n (fun _ _ => none) s

/-- A write of one CSR. -/
def csrPut (n : Nat) (v : Word) (s : State) : Host.Outcome State Fault Refusal := csrOp 0 n (fun _ _ => some v) s

def execLctlWrite (v : BitVec 64) (s : State) := csrPut 0xc40 v s
def execFstatRead (rd : XReg) (s : State) := csrGet rd 0xc03 s
def execFstatWrite (v : BitVec 64) (s : State) := csrPut 0xc03 v s
def execCycwRead (rd : XReg) (s : State) := csrGet rd 0xc22 s
def execVlRcRead (rc : Bool) (rd : XReg) (s : State) := csrGet rd (if rc then 0xc09 else 0xc08) s
def execStairRegRead (reg : StairReg) (rd : XReg) (s : State) := csrGet rd (stairCsr reg) s
def execStairRegWrite (reg : StairReg) (v : BitVec 64) (s : State) := csrPut (stairCsr reg) v s
def execXstepWrite (v : BitVec 64) (s : State) := csrPut 0xd12 v s

def execFreqreqWrite (core : Nat) (v : BitVec 64) (s : State) :=
  event s (fun s => s.updCore core (fun c => c.request (freqOf v) (Config.abandoned s.tick)))

end Sys2Proof.Machine
end

