-- ==== Sys2Proof/Machine/System.lean ====
section
/-! DEFINITION. The system instructions of major 0x1C but for `launch` (R139 to R143, R369), interrupts and waits as they end
(R141, R372), and what invalidates translated code (R307 to R309, R321). -/

namespace Sys2Proof.Machine

/-! ### Traps and returns -/

/-- `trap n` completes and then takes its trap, to be resumed after it (R140, R373). -/
def execTrap (n : BitVec 10) (s : State) := onHart 4 s (fun h =>
  .trap (s.setHart h.clearRepeat) { code := n.toNat, tpc := some (h.pc + 4) })

def execEret (s : State) := onHart 4 s (fun h =>
  if h.priv = .u then .trap s privilegeViolation
  else .moved (s.setHart h.clearRepeat.leaveTrap))

/-! ### Interrupts (R372) -/

/-- The number of the lowest pending interrupt that a level's TIE enables. -/
def Hart.enabledIrq (h : Hart) (m : Bool) : Option Nat :=
  let p := h.getCsr (trapBase m + 12) &&& h.getCsr (trapBase m + 11)
  if p.getLsbD 0 then some 0 else if p.getLsbD 1 then some 1 else none

/-- The interrupt that a hart takes at a boundary, and its level: S before M. -/
def Hart.takeable (h : Hart) : Option (Nat × Bool) :=
  match (if (h.getCsr 0xd26).getLsbD 2 then none else h.enabledIrq false) with
  | some n => some (n, false)
  | none =>
    match (if (h.getCsr 0xf26).getLsbD 2 then none else h.enabledIrq true) with
    | some n => some (n, true)
    | none => none

/-- A hart with interrupt n pending (R371, R372): one pending bit, seen in the TIP of both levels. -/
def Hart.postIrq (h : Hart) (n : Nat) : Hart :=
  (h.setCsr 0xd2c (h.getCsr 0xd2c ||| 1#64 <<< n)).setCsr 0xf2c (h.getCsr 0xf2c ||| 1#64 <<< n)

/-- Interrupt n no longer pending. -/
def Hart.clearIrq (h : Hart) (n : Nat) : Hart :=
  (h.setCsr 0xd2c (h.getCsr 0xd2c &&& ~~~(1#64 <<< n))).setCsr 0xf2c (h.getCsr 0xf2c &&& ~~~(1#64 <<< n))

/-- A hart takes its pending, enabled interrupt (R372); without one it goes on. -/
def Hart.takeIrq (h : Hart) : Hart :=
  match h.takeable with
  | none => h
  | some (n, m) => (h.clearIrq n).enterTrap m { code := 0x8000 + n, tswi := h.swi }

def execInterruptTake (hart : Nat) (s : State) := event s (fun s => s.updHartAt hart Hart.takeIrq)

def execIntpostWrite (master : Nat) (v : BitVec 64) (s : State) := event s (fun s =>
  s.ownerWrite master 0x240000 (fun s => if v.toNat / 2 ^ 11 = 0 then s.updHartAt v.toNat (fun h => h.postIrq 0) else s))

/-! ### Waiting for an interrupt (R141) -/

def execWfi (s : State) := onHart 4 s (fun h => .done (s.setHart { h with run := .wfi }))

/-- The wait ends: an interrupt is pending, or the device ends it. -/
def execWfiWake (hart : Nat) (s : State) := event s (fun s =>
  s.updHartAt hart (fun h => if h.run = .wfi then { h with run := .running } else h))

/-! ### Caches and code (R142, R143, R308, R309, R409) -/

/-- Most pages of a range that the model walks one by one; above that, every unit counts as met (DESIGN CHOICE, log 7). -/
def pageLimit : Nat := 65536

/-- The pieces of a range of n bytes from va, page by page: address and length. -/
def rangePieces (va : Word) (n : Nat) : List (Word × Nat) :=
  let first := va.toNat / 65536
  let pages := if n = 0 then 0 else (va.toNat % 65536 + n - 1) / 65536 + 1
  (List.range pages).map (fun i =>
    let a := if i = 0 then va.toNat else (first + i) * 65536
    (BitVec.ofNat 64 a, min (va.toNat + n) ((first + i + 1) * 65536) - a))

/-- The physical bytes of a piece: its address and length; of a path-4 piece, the blocks that it views (R205). A piece without a
valid translation is skipped (R142, R409, R428). -/
def State.rangeBytes (s : State) (h : Hart) (p : Word × Nat) : Option (Nat × Nat) :=
  let v := viewBase p.1
  (s.validLeaf h v).map (fun e => (leafAddr e.1 e.2 (v.toNat % 2 ^ 61),
    if pathOf p.1 = 4 then ((p.1.toNat % 128 + p.2 + 127) / 128) * 64 else p.2))

/-- What a range names, piece by piece. -/
def State.rangeOf (s : State) (h : Hart) (va : Word) (n : Nat) : List (Nat × Nat) := (rangePieces va n).filterMap (s.rangeBytes h)

/-- The hart's older stores to the bytes of a range, its engine commands' among them, performed; none where they wait. -/
def State.cleanRange (s : State) (h : Hart) : List (Nat × Nat) → Option State
  | [] => some s
  | (loc, n) :: rs =>
    match s.reach h true false loc n with
    | none => none
    | some s => (s.performAll h.hid (fun x => overlaps loc n x.loc x.bytes.length)).cleanRange h rs

/-- `dclean`: the hart's older stores to the range have reached their homes. -/
def execDclean (ra rb : XReg) (s : State) := onHart 4 s (fun h =>
  let n := (h.getX rb).toNat
  if n / 65536 < pageLimit then
    match s.cleanRange h (s.rangeOf h (h.getX ra) n) with
    | none => .wait s
    | some s => .done s
  else .done (s.drain h.hid))

/-- A unit holds the word at an address. -/
def AlmUnit.holds (u : AlmUnit) (va : Word) : Bool := decide ((va - u.va).toNat < 4 * u.words.length)

/-- Units that satisfy `p` taken out of every die's almanac; harts that have fetched their words may still execute
them until their `fbar` (R307, R309). -/
def State.dropUnits (s : State) (p : AlmUnit → Bool) : State :=
  { s with
    dies := s.dies.map (fun d => { d with almanac := d.almanac.filter (fun u => !p u) })
    harts := s.harts.map (fun h => { h with fetched := (s.dieAt h.die).almanac.filter p ++ h.fetched }) }

def execXcinv (ra rb : XReg) (s : State) := onHart 4 s (fun h =>
  if h.priv = .u then .trap s privilegeViolation
  else
    let n := (h.getX rb).toNat
    if n / 65536 < pageLimit then
      let fs := (s.rangeOf h (h.getX ra) n).map (fun r => r.1 / 65536)
      .done (s.dropUnits (fun u => (u.past.toList ++ u.frames).any (fun f => fs.contains f)))
    else .done (s.dropUnits (fun _ => true)))

def execFbar (s : State) := hartOp 4 s (fun h => { h with fetched := [], unit := none })

/-- A unit is still translated through its leaves: each page of it maps, executable, to the frame it was read from. -/
def State.unitValid (s : State) (u : AlmUnit) : Bool :=
  (List.range u.frames.length).all (fun i =>
    let va := (u.va.toNat / 65536 + i) * 65536 % 2 ^ 61
    match walk s.mem u.root va with
    | .leaf e _ level => pteBit e 58 && u.frames.getD i 0 == leafAddr e level va / 65536
    | _ => false)

/-- Bits of byte i of a page-table entry that hold V, EX or FRAME (R280). -/
def leafBits (i : Nat) : Byte := if i = 7 then 0x84 else if 2 ≤ i ∧ i < 6 then 0xff else 0

/-- V, EX or FRAME of a leaf that the unit was translated through have changed since, be it that they have changed back (R308,
R321). -/
def State.unitChanged (s : State) (u : AlmUnit) : Bool :=
  u.leaves.any (fun l => s.history.any (fun x =>
    decide (l ≤ x.1) && decide (x.1 < l + 8) && decide (u.born ≤ x.2.2) &&
      (x.2.1 ^^^ SMap.get (w := 8) s.mem x.1) &&& leafBits (x.1 - l) != 0))

/-- A unit that a `ptsync` leaves in the almanac. -/
def State.unitKept (s : State) (u : AlmUnit) : Bool := s.unitValid u && !s.unitChanged u

/-- `ptsync`: older stores are visible to every walker, and translations and code derived from what they replaced are
gone everywhere (R143, R305, R306, R308); the arbiter restarts the count of every frame that a request or a recorded fault has had moved (R286;
DEDUCED, log 35). -/
def execPtsync (s : State) := onHart 4 s (fun h =>
  if h.priv = .u then .trap s privilegeViolation
  else
    let s := s.drain h.hid
    let s := { s with tlb := [], tracks := s.tracks.filter (fun t => (t.request.isNone && !t.noted) || s.stillMapped t.frame) }
    .done { s with
      dies := s.dies.map (fun d => { d with almanac := d.almanac.filter s.unitKept })
      harts := s.harts.map (fun h => { h with
        fetched := h.fetched.filter s.unitKept
        unit := h.unit.filter (fun p => (s.dieAt h.die).almanac.any (fun u => u.holds p.here && s.unitKept u))
        streams := h.streams.map (fun t => (t.1, { t.2 with ahead := 0 })) }) })

end Sys2Proof.Machine
end

