-- ==== Sys2Proof/Machine/MemInstr.lean ====
section
/-! DEFINITION. Scalar and vector loads and stores, finder-stream bindings and position translation (R207 to R226, R397, R404). -/

namespace Sys2Proof.Machine

/-! ### Scalar loads and stores (R208, R209) -/

/-- X(base) + Sext(off) × n. -/
def scaledAddr (h : Hart) (base : XReg) (off : BitVec 12) (n : Nat) : Word :=
  h.getX base + off.signExtend 64 * BitVec.ofNat 64 n

/-- An admitted address that is not a multiple of n (F = 4). -/
def misaligned (h : Hart) (u : Use) (va : Word) (n : Nat) : Bool :=
  u.admits (pathOf va) (h.priv != .u) && decide (va.toNat % n ≠ 0)

/-- A scalar load of n bytes. -/
def scalarLoad (n : Nat) (signed : Bool) (rd base : XReg) (off : BitVec 12) (s : State) :
    Host.Outcome State Fault Refusal :=
  onHart 4 s (fun h =>
    let va := scaledAddr h base off n
    match (if misaligned h .scalarLoad va n then .error 4 else s.load h false .scalarLoad va n) with
    | .error f => s.missTrap h 1 ⟨f, va, n, false⟩
    | .ok (s, bs) =>
      let v := leNat bs
      .done (s.updHart (fun h => h.setX rd (if signed then word (sext v (8 * n)) else BitVec.ofNat 64 v))))

def execLb (rd base : XReg) (off : BitVec 12) (s : State) := scalarLoad 1 true rd base off s
def execLh (rd base : XReg) (off : BitVec 12) (s : State) := scalarLoad 2 true rd base off s
def execLw (rd base : XReg) (off : BitVec 12) (s : State) := scalarLoad 4 true rd base off s
def execLd (rd base : XReg) (off : BitVec 12) (s : State) := scalarLoad 8 true rd base off s
def execLbn (rd base : XReg) (off : BitVec 12) (s : State) := scalarLoad 1 false rd base off s
def execLhn (rd base : XReg) (off : BitVec 12) (s : State) := scalarLoad 2 false rd base off s
def execLwn (rd base : XReg) (off : BitVec 12) (s : State) := scalarLoad 4 false rd base off s
def execLdn (rd base : XReg) (off : BitVec 12) (s : State) := scalarLoad 8 false rd base off s

/-- A scalar store of n bytes. -/
def scalarStore (n : Nat) (rd base : XReg) (off : BitVec 12) (s : State) : Host.Outcome State Fault Refusal :=
  onHart 4 s (fun h =>
    let va := scaledAddr h base off n
    match (if misaligned h .scalarStore va n then .error 4
      else s.save h false .scalarStore va (leBytes n (h.getX rd).toNat)) with
    | .error f => s.missTrap h 2 ⟨f, va, n, false⟩
    | .ok s => .done s)

def execSb (rd base : XReg) (off : BitVec 12) (s : State) := scalarStore 1 rd base off s
def execSh (rd base : XReg) (off : BitVec 12) (s : State) := scalarStore 2 rd base off s
def execSw (rd base : XReg) (off : BitVec 12) (s : State) := scalarStore 4 rd base off s
def execSd (rd base : XReg) (off : BitVec 12) (s : State) := scalarStore 8 rd base off s

/-! ### Vector loads and stores (R210 to R221) -/

/-- A vector memory form. -/
structure MemForm where
  load : Bool
  /-- Data aperture and number of consecutive entries. -/
  ap : Ap
  nf : Nat
  use : Use
  /-- Unit-stride form of the M format, where i4 elements are packed. -/
  packed : Bool := false
  /-- Index aperture, and whether it is indexed by row. -/
  idx : Option (Ap × Bool) := none
  guard : Guard
  /-- a(r, e, f) of R215, R217 and R218, from the hart as it reads its index cells. -/
  addr : Hart → Nat → Nat → Nat → Word

/-- Entry f of the data apertures. -/
def MemForm.entry (m : MemForm) (f : Nat) : Ap := BitVec.ofNat 6 (m.ap.toNat + f)

/-- Index TYPE of R218. -/
def indexType (ty : Nat) : Bool := ty = 2 || ty = 3 || ty = 4 || ty = 5

/-- The illegal uses 0x40, 0x41 and 0x42 (R407). -/
def MemForm.own (m : MemForm) (h : Hart) : Option TrapRec :=
  let ns := (List.range (min m.nf (64 - m.ap.toNat))).map m.entry
  match (if m.packed then none else ns.find? (fun n => tyWidth (h.apt n).ty = 4)) with
  | some n => some (illegalUse 0x40 (some n.toNat))
  | none =>
    if 64 < m.ap.toNat + m.nf then some (illegalUse 0x41 (some m.ap.toNat))
    else
      match ns.find? (fun n => decide ((h.apt n).ty ≠ (h.apt m.ap).ty)) with
      | some n => some (illegalUse 0x41 (some n.toNat))
      | none =>
        match m.idx with
        | some (n, _) => if indexType (h.apt n).ty then none else some (illegalUse 0x42 (some n.toNat))
        | none => none

/-- A load whose destination shares bits with its index aperture runs in snapshot mode (R210). -/
def MemForm.snap (m : MemForm) (h : Hart) : Bool :=
  match m.idx with
  | some (n, byRow) =>
    m.load && (if byRow then
      let a := h.apt n
      let d := h.apt m.ap
      (List.range (h.rc * h.vl)).any (fun i => (List.range h.rc).any (fun r =>
        (r != i / h.vl || decide (1 < h.vl)) && shareBit (d.elBits h.bh (i / h.vl) (i % h.vl)) (a.elBits h.bh 0 r)))
    else snapshot h.bh h.vl h.rc (h.apt m.ap) [h.apt n])
  | none => false

/-- The form as the shared checks see it. R79 and R218 do not say how much of the index aperture of a row-indexed form a pass touches, which
reads one index of it: every pass counts its RC elements of row 0 (DESIGN CHOICE, log 73). -/
def MemForm.vec (m : MemForm) (h : Hart) : Vec :=
  let ns := (List.range (min m.nf (64 - m.ap.toNat))).map m.entry
  let byRow := match m.idx with
    | some (_, b) => b
    | none => false
  let ix := m.idx.toList.map (·.1)
  { ops := ns.map (fun n => ⟨n, m.load, h.rc, h.vl, false⟩) ++
      ix.map (fun n => ⟨n, false, if byRow then 1 else h.rc, if byRow then h.rc else h.vl, false⟩)
    srcs := (if m.load then [] else ns) ++ (if byRow then [] else ix), srcs1 := if byRow then ix else [], addrAps := ix
    dsts := if m.load then ns else [], typesOk := true, own := m.own h, rc := h.rc, vl := h.vl, guard := m.guard
    act := fun r e => h.active m.guard r e
    els1 := h.rc, use1 := fun h r => h.km.getLsbD r && (List.range h.vl).any (fun e => h.guardBit m.guard e), item1 := fun r => r * h.vl
    snap := m.snap h, cls := if m.load then 10 else 11, charge := h.rc * h.vl
    tap := m.ap, cell := fun r e => (h.apt m.ap).cell h.bh r e, el := fun _ h2 _ _ => (h2, 0) }

/-- A fault of an element: sweep index, field and the fault. -/
structure ElFault where
  i : Nat
  field : Nat
  miss : MemMiss
  deriving DecidableEq, Repr

/-- The fields of one element loaded; a fault names the lowest faulting field. -/
def MemForm.loadFields (m : MemForm) (h : Hart) (ty : Nat) (i : Nat) (va : Nat → Word) :
    List Nat → State → Blocks → Except ElFault (State × List Nat × Blocks)
  | [], s, bl => .ok (s, [], bl)
  | f :: fs, s, bl =>
    match s.loadEl h m.use ty (va f) (i % 2) bl with
    | .error e => .error ⟨i, f, e⟩
    | .ok (s, v, bl) => (MemForm.loadFields m h ty i va fs s bl).map (fun r => (r.1, v :: r.2.1, r.2.2))

/-- What a load of some elements comes to: the state, the elements loaded, and the first fault. -/
structure Loaded where
  s : State
  els : List (Nat × List Nat)
  stop : Option ElFault
  deriving DecidableEq, Repr

/-- Active elements loaded in sweep order up to the first that faults. -/
def MemForm.loadEls (m : MemForm) (h : Hart) (ty : Nat) (addr : Nat → Nat → Word) :
    List Nat → State → Blocks → Loaded
  | [], s, _ => ⟨s, [], none⟩
  | i :: is, s, bl =>
    match m.loadFields h ty i (addr i) (List.range m.nf) s bl with
    | .error e => ⟨s, [], some e⟩
    | .ok (s, vs, bl) =>
      let r := MemForm.loadEls m h ty addr is s bl
      { r with els := (i, vs) :: r.els }

/-- Loaded elements written into their apertures. -/
def MemForm.deliver (m : MemForm) (h0 : Hart) (els : List (Nat × List Nat)) (h : Hart) : Hart :=
  els.foldl (fun h x => (List.range m.nf).foldl (fun h f =>
    h.setEl (h0.apt (m.entry f)) (x.1 / h0.vl) (x.1 % h0.vl) (x.2.getD f 0)) h) h

/-- The sweep indices that an instruction works on, in order, below the one where its streams stop it (R376). -/
def Vec.todo (v : Vec) (h : Hart) (f : Fed) : List Nat :=
  (List.range' (v.first h) (v.limit f - v.first h)).filter (fun i => v.act (i / v.vl) (i % v.vl))

/-- The flags of the streamed elements that the items bring, and the first item and flag that is enabled (R374). -/
def Fed.sum (f : Fed) (fen : Flags) : List Nat → Flags → Flags × Option (Nat × Nat)
  | [], fl => (fl, none)
  | i :: is, fl =>
    match trapFlag fen (f.flags i) with
    | some b => (fl, some (i, b))
    | none => f.sum fen is (fl ||| f.flags i)

/-- The items whose streamed elements bring no enabled flag before them. -/
def cutAt (l : List Nat) (stop : Option (Nat × Nat)) : List Nat :=
  match stop with
  | none => l
  | some (i, _) => l.filter (fun j => decide (j ≤ i))

/-- What stops a memory instruction that has met no fault of its own: an enabled flag of a streamed element, or a streamed
element that cannot be read (R374, R375, R383); a streamed instruction stops as a whole. -/
def Vec.fedStop (v : Vec) (h : Hart) (f : Fed) (flag : Option (Nat × Nat)) (s : State) : Option Exec :=
  match flag, f.stop with
  | some (i, b), _ => some (.trap (s.setHart (h.orFlags (flagBit b)))
      { code := 0x2000 + b, tap := some v.tap.toNat, tcell := some (v.cell (i / v.vl) (i % v.vl)) })
  | none, some x => some (x.trap s h)
  | none, none => none

/-- An access fault of the item whose streamed data cannot be read, where it is the earlier cause and its address comes from no
stream (R374). -/
def Vec.ownAt {α : Type} (v : Vec) (f : Fed) (own : Nat → Option (α × Nat)) : Option α :=
  match f.stop with
  | none => none
  | some x =>
    if v.addrAps.contains x.ap then none
    else (own x.item).bind (fun o => if faultClass o.2 < faultClass x.miss.f then some o.1 else none)

/-- The first n fields of an element have used their translations (R399). -/
def MemForm.used (m : MemForm) (h g : Hart) (i n : Nat) (s : State) : State :=
  (List.range n).foldl (fun s f => s.noteUsed h (m.addr g (i / h.vl) (i % h.vl) f) (!m.load)) s

/-- The trap of an element of a vector memory instruction (R397), whose fields before the one at fault have used their translations. -/
def MemForm.elTrap (m : MemForm) (v : Vec) (s : State) (h g : Hart) (k : Nat) (e : ElFault) : Exec :=
  (m.used h g e.i e.field s).missTrap h k e.miss (if v.isWhole h then 0 else e.i) (some (m.entry e.field).toNat)
    (some ((h.apt (m.entry e.field)).cell h.bh (e.i / h.vl) (e.i % h.vl)))

/-- A vector load after its checks (R211). -/
def MemForm.runLoad (m : MemForm) (v : Vec) (h : Hart) (f : Fed) : Exec :=
  let items := v.todo h f
  let q := f.sum h.fen items 0
  let r := m.loadEls h (h.apt m.ap).ty (fun i n => m.addr f.h (i / h.vl) (i % h.vl) n) (cutAt items q.2) f.s f.blocks
  let out := fun (els : List (Nat × List Nat)) => (m.deliver h els f.h).orFlags q.1
  match r.stop with
  | none => (v.fedStop h f q.2 r.s).getD (.done (r.s.setHart (out r.els)))
  | some e =>
    if e.miss.f = notReady then .wait f.s
    else if r.els.isEmpty then m.elTrap v r.s h f.h 1 e
    else if e.i < h.vl then .done (r.s.setHart { out r.els with vl := e.i, rc := 1 })
    else
      let row := e.i / h.vl
      .done (r.s.setHart { out (r.els.filter (fun x => decide (x.1 < row * h.vl))) with rc := row })

/-- Consecutive bytes of one store that are not yet handed on: where they begin, and the bytes, last first; and half a byte. -/
structure StoreRun where
  run : Option (Nat × List Byte)
  half : Option (Nat × Bool × Nat)
  deriving DecidableEq, Repr

/-- A run handed to the hart's vector stream; half a byte leaves the other half alone (R210). -/
def State.flushRun (s : State) (h : Hart) (b : StoreRun) : State :=
  let s := match b.run with
    | none => s
    | some (loc, bs) => s.store h.hid true loc bs.reverse
  match b.half with
  | none => s
  | some (loc, hi, v) => s.leave h.hid { vec := true, loc, bytes := [0], rmw := some { op := .nib hi, b := v, dests := [] } }

/-- Bytes of an element added to a run. -/
def State.addRun (s : State) (h : Hart) (b : StoreRun) (loc : Nat) (bs : List Byte) : State × StoreRun :=
  match b with
  | ⟨some (l, rs), none⟩ =>
    if l + rs.length = loc then (s, ⟨some (l, bs.reverse ++ rs), none⟩) else (s.flushRun h b, ⟨some (loc, bs.reverse), none⟩)
  | b => (s.flushRun h b, ⟨some (loc, bs.reverse), none⟩)

/-- Half a byte added to a run: with the half below it, a byte. -/
def State.addNibble (s : State) (h : Hart) (b : StoreRun) (loc : Nat) (hi : Bool) (v : Nat) : State × StoreRun :=
  match b.half with
  | some (l, false, lo) =>
    if hi && l == loc then s.addRun h { b with half := none } loc [BitVec.ofNat 8 (lo + 16 * v)]
    else (s.flushRun h b, ⟨none, some (loc, hi, v)⟩)
  | some _ => (s.flushRun h b, ⟨none, some (loc, hi, v)⟩)
  | none => (s, { b with half := some (loc, hi, v) })

/-- The places of the fields of one element, all checked before any is written (R213, R217). -/
def MemForm.storePlaces (m : MemForm) (h : Hart) (n i : Nat) (va : Nat → Word) :
    List Nat → State → Except ElFault (State × List Place)
  | [], s => .ok (s, [])
  | f :: fs, s =>
    match (if misaligned h m.use (va f) n then .error 4 else s.place h m.use (va f) n) with
    | .error e => .error ⟨i, f, e, va f, n, false⟩
    | .ok (s, p) =>
      match (match p with
        | .mem loc => s.reach h true true loc n
        | .dev _ => some s) with
      | none => .error ⟨i, f, notReady, va f, n, false⟩
      | some s => (MemForm.storePlaces m h n i va fs s).map (fun r => (r.1, p :: r.2))

/-- The fields of one element written at their places. -/
def MemForm.putFields (m : MemForm) (h1 : Hart) (ty i r e : Nat) :
    List (Nat × Place) → State × StoreRun → State × StoreRun
  | [], a => a
  | (f, p) :: ps, a =>
    let v := h1.getEl (h1.apt (m.entry f)) r e
    let a := match p with
      | .dev _ => (a.1.flushRun h1 a.2, ⟨none, none⟩)
      | .mem loc =>
        if tyWidth ty = 4 then a.1.addNibble h1 a.2 loc (decide (i % 2 = 1)) v
        else a.1.addRun h1 a.2 loc (leBytes (tyWidth ty / 8) v)
    MemForm.putFields m h1 ty i r e ps a

/-- Active elements stored in sweep order up to the first that faults (R213). -/
def MemForm.storeEls (m : MemForm) (h1 : Hart) (ty : Nat) :
    List Nat → State × StoreRun → State × Option ElFault
  | [], a => (a.1.flushRun h1 a.2, none)
  | i :: is, a =>
    let r := i / h1.vl
    let e := i % h1.vl
    match m.storePlaces h1 (tyBytes ty) i (m.addr h1 r e) (List.range m.nf) a.1 with
    | .error f => (a.1.flushRun h1 a.2, some f)
    | .ok (s, ps) =>
      MemForm.storeEls m h1 ty is (m.putFields h1 ty i r e ((List.range m.nf).zip ps) (s, a.2))

/-- The half bytes that the fields of an element store. -/
def MemForm.halves (m : MemForm) (h g : Hart) (s : State) (i : Nat) : List (Nat × Nat) :=
  let w := tyWidth (h.apt m.ap).ty
  (List.range m.nf).filterMap (fun f =>
    match s.place h m.use (m.addr g (i / h.vl) (i % h.vl) f) (tyBytes (h.apt m.ap).ty) with
    | .ok (_, .mem loc) => some (2 * loc + (if w = 4 then i % 2 else 0), w / 4)
    | _ => none)

/-- Half bytes cover a 32-byte unit. -/
def coverUnit (rs : List (Nat × Nat)) (unit : Nat) : Bool :=
  (List.range 64).all (fun k => rs.any (fun r => decide (r.1 ≤ 64 * unit + k) && decide (64 * unit + k < r.1 + r.2)))

/-- One store that covers a poisoned unit in pieces clears it, once they are performed (R403). -/
def State.clearUnits (s : State) (hid : Nat) (rs : List (Nat × Nat)) : State :=
  (s.poison.filter (fun (u : Nat × Option Nat) => coverUnit rs u.1)).foldl (fun (s : State) (u : Nat × Option Nat) =>
    let s := s.performAll hid (fun x => x.vec && overlaps x.loc x.bytes.length (32 * u.1) 32)
    { s with poison := clearPoison s.poison (32 * u.1) 32 }) s

/-- A vector store after its checks (R213); a whole stop stores nothing, but its elements have used their translations (R399). -/
def MemForm.runStore (m : MemForm) (v : Vec) (h : Hart) (f : Fed) : Exec :=
  let items := v.todo h f
  let q := f.sum h.fen items 0
  let r := m.storeEls f.h (h.apt m.ap).ty (cutAt items q.2) (f.s, ⟨none, none⟩)
  let atStop := if r.2.isNone && q.2.isNone then v.ownAt f (fun i =>
      match m.storePlaces h (tyBytes (h.apt m.ap).ty) i (m.addr f.h (i / h.vl) (i % h.vl)) (List.range m.nf) f.s with
      | .error e => some (e, e.miss.f)
      | .ok _ => none) else none
  let whole (upTo : Nat → Bool) : State := ((cutAt items q.2).filter upTo).foldl (fun s i => m.used h f.h i m.nf s) f.s
  let stored (upTo : Nat → Bool) : State := if f.s.poison.isEmpty then r.1
    else r.1.clearUnits h.hid (((cutAt items q.2).filter upTo).flatMap (m.halves h f.h f.s))
  match r.2.or atStop with
  | none => (v.fedStop h f q.2 (whole (fun _ => true))).getD (.done ((stored (fun _ => true)).setHart (f.h.orFlags q.1)))
  | some e =>
    if e.miss.f = notReady then .wait f.s
    else m.elTrap v ((if v.isWhole h then whole else stored) (fun i => decide (i < e.i))) h f.h 2 e

/-- A vector memory instruction. -/
def MemForm.run (form : Hart → MemForm) (s : State) (h : Hart) : Exec :=
  Vec.start (fun h => (form h).vec h) s h (fun v h f => if (form h).load then (form h).runLoad v h f else (form h).runStore v h f)

/-- Unit stride (R215). -/
def unitForm (load : Bool) (ap : Ap) (base : XReg) (off : BitVec 12) (size : BitVec 3) (h : Hart) : MemForm :=
  let ea := scaledAddr h base off (2 ^ size.toNat)
  let w := tyWidth (h.apt ap).ty
  { load, ap, nf := 1, use := if load then .vecLoad else .vecStore, packed := true, guard := ⟨0, false⟩
    addr := fun _ r e _ => ea + BitVec.ofNat 64 ((r * h.vl + e) * w / 8) }

def execVld (ap : Ap) (base : XReg) (off : BitVec 12) (size : BitVec 3) (s : State) :=
  onHart 4 s (MemForm.run (unitForm true ap base off size) s)

def execVst (ap : Ap) (base : XReg) (off : BitVec 12) (size : BitVec 3) (s : State) :=
  onHart 4 s (MemForm.run (unitForm false ap base off size) s)

/-- Strided and segment forms (R217). -/
def strideForm (load : Bool) (kg : KReg) (ks : Bool) (ap : Ap) (nf : Nat) (base xs xr : XReg) (off : BitVec 11)
    (h : Hart) : MemForm :=
  let ea := h.getX base + off.signExtend 64
  let w := tyWidth (h.apt ap).ty
  let es := if xs = 0 then BitVec.ofNat 64 (nf * w / 8) else h.getX xs
  let rs := if xr = 0 then BitVec.ofNat 64 h.vl * es else h.getX xr
  { load, ap, nf, guard := ⟨kg.toNat, ks⟩
    use := if load then (if nf = 1 then .vecLoad else .segLoad) else if nf = 1 then .vecStore else .segStore
    addr := fun _ r e f => ea + BitVec.ofNat 64 r * rs + BitVec.ofNat 64 e * es + BitVec.ofNat 64 (f * w / 8) }

def execVlds (kg : KReg) (ks : Bool) (ap : Ap) (base xs xr : XReg) (off : BitVec 11) (s : State) :=
  onHart 8 s (MemForm.run (strideForm true kg ks ap 1 base xs xr off) s)

def execVlseg (kg : KReg) (ks : Bool) (ap : Ap) (nf : BitVec 3) (base xs xr : XReg) (off : BitVec 11) (s : State) :=
  onHart 8 s (MemForm.run (strideForm true kg ks ap (nf.toNat + 1) base xs xr off) s)

def execVsts (kg : KReg) (ks : Bool) (ap : Ap) (base xs xr : XReg) (off : BitVec 11) (s : State) :=
  onHart 8 s (MemForm.run (strideForm false kg ks ap 1 base xs xr off) s)

def execVsseg (kg : KReg) (ks : Bool) (ap : Ap) (nf : BitVec 3) (base xs xr : XReg) (off : BitVec 11) (s : State) :=
  onHart 8 s (MemForm.run (strideForm false kg ks ap (nf.toNat + 1) base xs xr off) s)

/-- A byte offset read from an index aperture (R218). -/
def Hart.indexAt (h : Hart) (n : Ap) (r e : Nat) : Word :=
  let a := h.apt n
  word (intVal a.ty (h.getEl a r e))

/-- Element-indexed and row-indexed forms (R218); `x` is XR or XS. -/
def indexForm (load byRow : Bool) (kg : KReg) (ks : Bool) (ap : Ap) (base x : XReg) (idx : Ap) (off : BitVec 11)
    (h : Hart) : MemForm :=
  let ea := h.getX base + off.signExtend 64
  let st := h.getX x
  { load, ap, nf := 1, use := if load then .idxLoad else .idxStore, idx := some (idx, byRow), guard := ⟨kg.toNat, ks⟩
    addr := fun h1 r e _ =>
      if byRow then ea + h1.indexAt idx 0 r + BitVec.ofNat 64 e * st
      else ea + BitVec.ofNat 64 r * st + h1.indexAt idx r e }

def execVldx (kg : KReg) (ks : Bool) (ap : Ap) (base xr : XReg) (idx : Ap) (off : BitVec 11) (s : State) :=
  onHart 8 s (MemForm.run (indexForm true false kg ks ap base xr idx off) s)

def execVldxr (kg : KReg) (ks : Bool) (ap : Ap) (base xs : XReg) (idx : Ap) (off : BitVec 11) (s : State) :=
  onHart 8 s (MemForm.run (indexForm true true kg ks ap base xs idx off) s)

def execVstx (kg : KReg) (ks : Bool) (ap : Ap) (base xr : XReg) (idx : Ap) (off : BitVec 11) (s : State) :=
  onHart 8 s (MemForm.run (indexForm false false kg ks ap base xr idx off) s)

def execVstxr (kg : KReg) (ks : Bool) (ap : Ap) (base xs : XReg) (idx : Ap) (off : BitVec 11) (s : State) :=
  onHart 8 s (MemForm.run (indexForm false true kg ks ap base xs idx off) s)

/-! ### Finder streams (R222, R223) -/

/-- n bytes of a record or descriptor read as a vector load; no view of path 4 serves them. -/
def State.loadRecord (s : State) (h : Hart) (va : Word) (n : Nat) : Except Nat (State × List Byte) :=
  if pathOf va = 4 then .error 3 else s.load h true .vecLoad va n

/-- A record breaks R223. -/
def badRecord (r : List Byte) : Bool :=
  let fmt := descField r 24 1
  let scl := descField r 25 1
  decide (10 < fmt) || decide (bits scl 6 4 ≠ 0) || decide (descField r 26 6 ≠ 0) ||
    (decide (fmt = 10) && decide (descField r 8 12 ≠ 0)) || (decide (128 ≤ scl) && !tyFlt fmt)

/-- The binding of a record, at position 0. -/
def Stream.ofRecord (r : List Byte) : Stream :=
  { base := BitVec.ofNat 64 (descField r 0 8), estr := BitVec.ofNat 32 (descField r 8 4)
    rstr := BitVec.ofNat 32 (descField r 12 4), rlen := BitVec.ofNat 32 (descField r 16 4)
    limit := BitVec.ofNat 32 (descField r 20 4), fmt := BitVec.ofNat 4 (descField r 24 1)
    scl := BitVec.ofNat 8 (descField r 25 1), pos := 0, ahead := 0 }

def execFsbind (fs : BitVec 4) (ra : XReg) (s : State) := onHart 8 s (fun h =>
  let va := h.getX ra
  if va.toNat % 32 ≠ 0 then .trap s (illegalUse 0x43)
  else
    match s.loadRecord h va 32 with
    | .error f => s.missTrap h 1 ⟨f, va, 32, false⟩
    | .ok (s, r) =>
      if badRecord r then .trap s (illegalUse 0x43)
      else .done ((s.holdAhead h (Stream.ofRecord r)).updHart (fun h =>
        { h with streams := put h.streams fs.toNat (some (Stream.ofRecord r)) })))

def execFsrel (fs : BitVec 4) (s : State) :=
  hartOp 8 s (fun h => { h with streams := put h.streams fs.toNat none })

def execFsget (rd : XReg) (fs : BitVec 4) (s : State) := hartOp 8 s (fun h =>
  h.setX rd (match find h.streams fs.toNat with
    | none => 2 ^ 63
    | some t => BitVec.ofNat 64 t.pos))

/-! ### Translating positions (R226, R404) -/

/-- Fields NB, BSH and TSH of X(xp). -/
structure Xlat where
  table : Word
  nb : Nat
  bsh : Nat
  tsh : Nat
  deriving DecidableEq, Repr

/-- How the loop over the elements of a translation ends. -/
inductive XlatEnd where
  | all
  /-- `vxlat.ff` met a bad position. -/
  | bad (e : Nat)
  /-- The table read of an element faulted; whether it is the first active one. -/
  | fault (e : Nat) (first : Bool) (f : Nat) (va : Word)
  deriving DecidableEq, Repr

/-- One active element: its offset, or none where the position is bad. -/
def State.xlatEl (s : State) (h : Hart) (x : Xlat) (p : Int) : Except (Nat × Word) (State × Option Nat) :=
  let b := p / (2 ^ x.bsh : Nat)
  if p < 0 ∨ (x.nb : Int) ≤ b then .ok (s, none)
  else
    let va := x.table + BitVec.ofNat 64 (4 * b.toNat)
    match s.load h true .table va 4 with
    | .error f => .error (f, va)
    | .ok (s, bs) =>
      let blk := leNat bs
      let o := blk * 2 ^ (x.bsh + x.tsh) + p.toNat % 2 ^ x.bsh * 2 ^ x.tsh
      .ok (s, if blk = 0xffffffff ∨ 2 ^ 32 ≤ o then none else some o)

/-- Active elements of a translation in order; `h1` is the hart as its positions are read. `vxlat.ff` leaves bit e of kd alone
where it stops (R226, R404; DEDUCED, log 50). -/
def xlatEls (x : Xlat) (ff : Bool) (kd : KReg) (d a : Apt) (h1 : Hart) (first : Bool) :
    List Nat → State → Hart → State × Hart × XlatEnd
  | [], s, h => (s, h, .all)
  | e :: es, s, h =>
    match s.xlatEl h1 x (intVal a.ty (h1.getEl a 0 e)) with
    | .error (f, va) => (s, h, .fault e first f va)
    | .ok (s, o) =>
      if ff && o.isNone then (s, h, .bad e)
      else
        let g := h.setEl d 0 e (o.getD 0)
        let g := g.setK kd.toNat (if o.isNone then g.getK kd.toNat ||| 1#1024 <<< (e % 1024)
          else g.getK kd.toNat &&& ~~~(1#1024 <<< (e % 1024)))
        xlatEls x ff kd d a h1 false es s g

/-- A translation as the shared checks see it: a single-row sweep. -/
def xlatVec (g : Guard) (kd : KReg) (apd apa : Ap) (xt xp : XReg) (h : Hart) : Vec :=
  let d := h.apt apd
  let a := h.apt apa
  let p := (h.getX xp).toNat
  { ops := [⟨apd, true, 1, h.vl, false⟩, ⟨apa, false, 1, h.vl, false⟩], srcs := [], srcs1 := [apa], dsts := [apd]
    typesOk := d.ty = 5 && (a.ty = 4 || a.ty = 5)
    own2 := if 20 < bits p 36 32 ∨ 20 < bits p 44 40 ∨ bits p 39 37 ≠ 0 ∨ bits p 63 45 ≠ 0 ∨ (h.getX xt).toNat % 4 ≠ 0 then
      some (illegalUse 0x45) else none
    rc := 1, vl := h.vl, guard := g, act := fun _ e => h.active g 0 e
    snap := snapshot h.bh h.vl 1 d [a], kw := [kd.toNat], cls := 13, charge := h.vl, tap := apd
    cell := fun r e => d.cell h.bh r e, el := fun _ h2 _ _ => (h2, 0) }

/-- A translation after its checks. -/
def xlatRun (ff : Bool) (kd : KReg) (apd apa : Ap) (xt xp : XReg) (v : Vec) (h : Hart) (f : Fed) : Exec :=
  let p := (h.getX xp).toNat
  let x : Xlat := ⟨h.getX xt, bits p 31 0, bits p 36 32, bits p 44 40⟩
  let items := v.todo h f
  let q := f.sum h.fen items 0
  match xlatEls x ff kd (h.apt apd) (h.apt apa) f.h true (cutAt items q.2) f.s f.h with
  | (s, h2, .all) => (v.fedStop h f q.2 s).getD (.done (s.setHart (h2.orFlags q.1)))
  | (s, h2, .bad e) => .done (s.setHart { h2.orFlags q.1 with vl := e })
  | (s, h2, .fault e first c va) =>
    if c = notReady then .wait f.s
    else if first then
      s.missTrap h 1 ⟨c, va, 4, false⟩ (if v.isWhole h then 0 else e) (some apd.toNat) (some ((h.apt apd).cell h.bh 0 e))
    else .done (s.setHart { h2.orFlags q.1 with vl := e, rc := 1 })

/-- `vxlat` and `vxlat.ff`. -/
def xlat (ff : Bool) (kg : KReg) (ks : Bool) (kd : KReg) (apd apa : Ap) (xt xp : XReg) (s : State) :
    Host.Outcome State Fault Refusal :=
  onHart 8 s (fun h => Vec.start (xlatVec ⟨kg.toNat, ks⟩ kd apd apa xt xp) s h (xlatRun ff kd apd apa xt xp))

def execVxlat (kg : KReg) (ks : Bool) (kd : KReg) (apd apa : Ap) (xt xp : XReg) (s : State) :=
  xlat false kg ks kd apd apa xt xp s

def execVxlatFf (kg : KReg) (ks : Bool) (kd : KReg) (apd apa : Ap) (xt xp : XReg) (s : State) :=
  xlat true kg ks kd apd apa xt xp s

end Sys2Proof.Machine
end

