-- ==== Sys2Proof/Machine/Atomics.lean ====
section
/-! DEFINITION. Scalar and vector atomics, accumulation windows and `skipset` (R227 to R237, R251, R363, R364). -/

namespace Sys2Proof.Machine

/-! ### Orders (R227) -/

/-- A release: every older memory operation of the hart is performed, its engine commands among them; false where one of
them cannot complete yet. -/
def State.release (s : State) (hid : Nat) : State × Bool :=
  let s := ((s.drain hid).markFence hid).completeAll hid
  (s, (s.enginesOf hid).isEmpty)

/-- The qualifier makes the operation a release. -/
def isRel (q : BitVec 2) : Bool := q.getLsbD 1

/-- The release that a qualifier asks for. -/
def State.releaseIf (s : State) (q : BitVec 2) (hid : Nat) : State × Bool :=
  if isRel q then s.release hid else (s, true)

/-- The qualifier makes the operation an acquire. -/
def isAcq (q : BitVec 2) : Bool := q.getLsbD 0

/-! ### Scalar atomics (R229 to R231) -/

/-- Bytes of SZ. -/
def szBytes (dword : Bool) : Nat := if dword then 8 else 4

/-- A scalar atomic: its bytes, where its old value goes, its address register, its operand register, its qualifier, and its
operation. -/
structure AtomForm where
  n : Nat
  rd : Option XReg
  ra : XReg
  rb : XReg
  q : BitVec 2
  op : Hart → AtomOp

/-- Its operand. -/
def AtomForm.operand (a : AtomForm) (h : Hart) : Nat := (h.getX a.rb).toNat % 2 ^ (8 * a.n)

/-- What it makes of its location's value. -/
def AtomForm.apply (a : AtomForm) (h : Hart) (m : Nat) : Option Nat × Flags := (a.op h).apply (8 * a.n) m (a.operand h)

/-- An atomic may be performed later than its hart meets it: one that is no acquire, that cannot trap by a flag, and that is
more than a load. -/
def mayLate (h : Hart) (q : BitVec 2) (op : AtomOp) : Bool := !isAcq q && (h.fen == 0 || !op.raises) && op != .ld

/-- A scalar atomic; `later` leaves it to be performed later, where it may be (R290). -/
def AtomForm.run (a : AtomForm) (later : Bool) (s : State) : Host.Outcome State Fault Refusal :=
  onHart 4 s (fun h =>
    let va := h.getX a.ra
    let r := s.releaseIf a.q h.hid
    if !r.2 then .wait r.1
    else if misaligned h .atomic va a.n then r.1.memTrap h 3 4 va
    else if later && mayLate h a.q (a.op h) then
      match r.1.rmwLate h false va a.n { op := a.op h, b := a.operand h, dests := a.rd.toList.map (fun x => .xreg x false) } with
      | .error e => r.1.missTrap h 3 ⟨e, va, a.n, false⟩
      | .ok s => .done s
    else
      match r.1.rmw h false va a.n (fun m => if (trapFlag h.fen (a.apply h m).2).isSome then none else (a.apply h m).1) (isAcq a.q) with
      | .error e => r.1.missTrap h 3 ⟨e, va, a.n, false⟩
      | .ok (s, m) =>
        let fl := (a.apply h m).2
        match trapFlag h.fen fl with
        | some b => .trap (s.updHart (fun h => h.orFlags (flagBit b))) { code := 0x2000 + b }
        | none => .done (s.updHart (fun h => ((a.rd.map (fun x => h.setX x (BitVec.ofNat 64 m))).getD h).orFlags fl)))

/-- An atomic that always writes. -/
def intForm (op : AtomOp) (rd ra rb : XReg) (dword : Bool) (q : BitVec 2) : AtomForm := ⟨szBytes dword, some rd, ra, rb, q, fun _ => op⟩

/-- An f32 atomic. -/
def floatForm (op : AtomOp) (rd ra rb : XReg) (q : BitVec 2) : AtomForm := ⟨4, some rd, ra, rb, q, fun _ => op⟩

/-- `amcas`: the value it compares with is X(rd). -/
def casForm (rd ra rb : XReg) (dword : Bool) (q : BitVec 2) : AtomForm :=
  ⟨szBytes dword, some rd, ra, rb, q, fun h => .cas ((h.getX rd).toNat % 2 ^ (8 * szBytes dword))⟩

/-- `amst`: a swap whose old value goes nowhere. -/
def stForm (ra rb : XReg) (dword : Bool) (q : BitVec 2) : AtomForm := ⟨szBytes dword, none, ra, rb, q, fun _ => .swp⟩

def execAmswp (rd ra rb : XReg) (dword : Bool) (_scope : BitVec 3) (q : BitVec 2) (s : State) :=
  (intForm .swp rd ra rb dword q).run false s
def execAmadd (rd ra rb : XReg) (dword : Bool) (_scope : BitVec 3) (q : BitVec 2) (s : State) :=
  (intForm .add rd ra rb dword q).run false s
def execAmand (rd ra rb : XReg) (dword : Bool) (_scope : BitVec 3) (q : BitVec 2) (s : State) :=
  (intForm .and rd ra rb dword q).run false s
def execAmor (rd ra rb : XReg) (dword : Bool) (_scope : BitVec 3) (q : BitVec 2) (s : State) :=
  (intForm .or rd ra rb dword q).run false s
def execAmxor (rd ra rb : XReg) (dword : Bool) (_scope : BitVec 3) (q : BitVec 2) (s : State) :=
  (intForm .xor rd ra rb dword q).run false s
def execAmmin (rd ra rb : XReg) (dword : Bool) (_scope : BitVec 3) (q : BitVec 2) (s : State) :=
  (intForm .min rd ra rb dword q).run false s
def execAmmax (rd ra rb : XReg) (dword : Bool) (_scope : BitVec 3) (q : BitVec 2) (s : State) :=
  (intForm .max rd ra rb dword q).run false s
def execAmminn (rd ra rb : XReg) (dword : Bool) (_scope : BitVec 3) (q : BitVec 2) (s : State) :=
  (intForm .minn rd ra rb dword q).run false s
def execAmmaxn (rd ra rb : XReg) (dword : Bool) (_scope : BitVec 3) (q : BitVec 2) (s : State) :=
  (intForm .maxn rd ra rb dword q).run false s
def execAmcas (rd ra rb : XReg) (dword : Bool) (_scope : BitVec 3) (q : BitVec 2) (s : State) :=
  (casForm rd ra rb dword q).run false s
def execAmfadd (rd ra rb : XReg) (_scope : BitVec 3) (q : BitVec 2) (s : State) := (floatForm .fadd rd ra rb q).run false s
def execAmfmin (rd ra rb : XReg) (_scope : BitVec 3) (q : BitVec 2) (s : State) := (floatForm .fmin rd ra rb q).run false s
def execAmfmax (rd ra rb : XReg) (_scope : BitVec 3) (q : BitVec 2) (s : State) := (floatForm .fmax rd ra rb q).run false s
def execAmld (rd ra : XReg) (dword : Bool) (_scope : BitVec 3) (q : BitVec 2) (s : State) :=
  (intForm .ld rd ra 0 dword q).run false s
def execAmst (ra rb : XReg) (dword : Bool) (_scope : BitVec 3) (q : BitVec 2) (s : State) := (stForm ra rb dword q).run false s

/-! ### Vector atomics (R232, R233) -/

/-- A vector atomic as the shared checks see it; `op` is an operator of R98 by its number in `redOp`. -/
def vamVec (float ret : Bool) (g : Guard) (apd apa : Ap) (idx : Ap) (h : Hart) : Vec :=
  let a := h.apt apa
  { ops := (if ret then [⟨apd, true, h.rc, h.vl, false⟩] else []) ++ [⟨apa, false, h.rc, h.vl, false⟩, ⟨idx, false, h.rc, h.vl, false⟩]
    srcs := [apa, idx], addrAps := [idx], dsts := if ret then [apd] else []
    typesOk := (if float then a.ty = 8 else a.ty = 4 || a.ty = 5) && (!ret || (h.apt apd).ty = a.ty)
    own := if indexType (h.apt idx).ty then none else some (illegalUse 0x42 (some idx.toNat))
    rc := h.rc, vl := h.vl, guard := g, act := fun r e => h.active g r e, whole := true, cls := 12
    charge := h.rc * h.vl, snap := ret && snapshot h.bh h.vl h.rc (h.apt apd) [a, h.apt idx]
    tap := apa, cell := fun r e => a.cell h.bh r e, el := fun _ h2 _ _ => (h2, 0) }

/-- The translations and checks of active elements up to the first that fails one (R233): the state as the checks leave it, and
that element's sweep index, F and address. -/
def State.vamCheck (s : State) (h : Hart) : List (Nat × Word) → State × Option (Nat × Nat × Word)
  | [] => (s, none)
  | (i, va) :: l =>
    if misaligned h .atomic va 4 then (s, some (i, 4, va))
    else
      match s.place h .atomic va 4 with
      | .error f => (s, some (i, f, va))
      | .ok (s, .mem loc) => if poisoned s.poison loc 4 then (s, some (i, 5, va)) else s.vamCheck h l
      | .ok (s, .dev _) => s.vamCheck h l

/-- Addresses without repeats, in the order of their first element. -/
def distinct (l : List (Nat × Word)) : List Word :=
  l.foldl (fun ds x => if ds.contains x.2 then ds else ds ++ [x.2]) []

/-- The atomic steps at distinct addresses (DESIGN CHOICE, log 23): the old values by address, the flags, and the first element whose
address raised one of them. A step that is not ready answers none. -/
def vamSteps (ty op : Nat) (acq : Bool) (h h1 : Hart) (a : Apt) (els : List (Nat × Word)) :
    List Word → State → Option (State × List (Word × Nat × Flags))
  | [], s => some (s, [])
  | va :: vas, s =>
    let leaves := (els.filter (fun x => x.2 == va)).map (fun x => some (h1.getEl a (x.1 / h.vl) (x.1 % h.vl), (0 : Flags)))
    let v := reduce ty op 0 leaves
    match s.rmw h true va 4 (fun m => some (redOp ty op 0 (m, 0) v).1) acq with
    | .error _ => none
    | .ok (s, m) =>
      (vamSteps ty op acq h h1 a els vas s).map (fun r => (r.1, (va, m, (redOp ty op 0 (m, 0) v).2) :: r.2))

/-- The flags of the step at an address. -/
def flagsAt (steps : List (Word × Nat × Flags)) (va : Word) : Flags := ((steps.find? (fun x => x.1 == va)).map (fun x => x.2.2)).getD 0

/-- The old value that an address held. -/
def oldAt (steps : List (Word × Nat × Flags)) (va : Word) : Nat :=
  ((steps.find? (fun x => x.1 == va)).map (fun x => x.2.1)).getD 0

/-- The atomic steps left to be performed later, each with the cells of its elements, and the flags of the trees over their leaves. -/
def vamLeave (ty op : Nat) (ret : Bool) (apd : Ap) (h h1 : Hart) (a : Apt) (els : List (Nat × Word)) :
    List Word → State → Option (State × Flags)
  | [], s => some (s, 0)
  | va :: vas, s =>
    let mine := els.filter (fun x => x.2 == va)
    let v := reduce ty op 0 (mine.map (fun x => some (h1.getEl a (x.1 / h.vl) (x.1 % h.vl), (0 : Flags))))
    let dests := if ret then mine.map (fun x => .cell apd (x.1 / h.vl) (x.1 % h.vl) 0) else []
    match s.rmwLate h true va 4 { op := .red ty op, b := v.1, dests } with
    | .error _ => none
    | .ok s => (vamLeave ty op ret apd h h1 a els vas s).map (fun r => (r.1, v.2 ||| r.2))

/-- A vector atomic. -/
structure VamForm where
  float : Bool
  op : Nat
  kg : KReg
  ks : Bool
  ret : Bool
  apd : Ap
  apa : Ap
  base : XReg
  idx : Ap
  q : BitVec 2
  deriving DecidableEq, Repr

/-- The hart as a release has left its stair, with the registers of another (R199). -/
def State.withStair (s : State) (h : Hart) : Hart := { h with stair := ((s.hart?).getD h).stair }

/-- A vector atomic after its checks of the operands. A flag stops it at the lowest element that brings an enabled one, by its streams or
by the step at its address, unless a streamed element that cannot be read comes first (R374). -/
def VamForm.body (m : VamForm) (later : Bool) (v : Vec) (h : Hart) (f : Fed) : Exec :=
  let a := h.apt m.apa
  let cell (i : Nat) := a.cell h.bh (i / h.vl) (i % h.vl)
  let at' (i : Nat) : Nat × Word := (i, h.getX m.base + f.h.indexAt m.idx (i / h.vl) (i % h.vl))
  let items := v.todo h f
  let fs := f.sum h.fen items 0
  let els := (cutAt items fs.2).map at'
  let c := f.s.vamCheck h els
  let atStop := if c.2.isNone && fs.2.isNone then v.ownAt f (fun i => (c.1.vamCheck h [at' i]).2.map (fun x => (x, x.2.1))) else none
  match c.2.or atStop with
  | some (i, e, va) => c.1.missTrap h 3 ⟨e, va, 4, false⟩ 0 (some m.apa.toNat) (some (cell i))
  | none =>
    let r := c.1.releaseIf m.q h.hid
    if !r.2 then .wait r.1
    else if later && mayLate h m.q (.red a.ty m.op) then
      match v.fedStop h f fs.2 r.1 with
      | some e => e
      | none =>
        match vamLeave a.ty m.op m.ret m.apd h f.h a els (distinct els) r.1 with
        | none => .wait f.s
        | some (s, fl) => .done (s.setHart (r.1.withStair (f.h.orFlags (fs.1 ||| fl))))
    else
      match vamSteps a.ty m.op (isAcq m.q) h f.h a els (distinct els) r.1 with
      | none => .wait f.s
      | some (s, steps) =>
        match els.findSome? (fun x => (trapFlag h.fen (f.flags x.1 ||| flagsAt steps x.2)).map (fun b => (x.1, b))) with
        | some (i, b) => .trap (r.1.setHart (r.1.withStair (h.orFlags (flagBit b))))
            { code := 0x2000 + b, tap := some m.apa.toNat, tcell := some (cell i) }
        | none =>
          match f.stop with
          | some x => x.trap r.1 h
          | none =>
            let h2 := if m.ret then els.foldl (fun g x =>
              g.setEl (h.apt m.apd) (x.1 / h.vl) (x.1 % h.vl) (oldAt steps x.2)) f.h else f.h
            .done (s.setHart (r.1.withStair (h2.orFlags (steps.foldl (fun g x => g ||| x.2.2) fs.1))))

/-- A vector atomic; `later` leaves its steps to be performed later, where they may be. -/
def VamForm.run (m : VamForm) (later : Bool) (s : State) : Host.Outcome State Fault Refusal :=
  onHart 8 s (fun h => Vec.start (vamVec m.float m.ret ⟨m.kg.toNat, m.ks⟩ m.apd m.apa m.idx) s h (m.body later))

def execVamadd (kg : KReg) (ks ret : Bool) (apd apa : Ap) (base : XReg) (idx : Ap) (_scope : BitVec 3) (q : BitVec 2)
    (s : State) := VamForm.run ⟨false, 0, kg, ks, ret, apd, apa, base, idx, q⟩ false s
def execVamfadd (kg : KReg) (ks ret : Bool) (apd apa : Ap) (base : XReg) (idx : Ap) (_scope : BitVec 3) (q : BitVec 2)
    (s : State) := VamForm.run ⟨true, 0, kg, ks, ret, apd, apa, base, idx, q⟩ false s
def execVammin (kg : KReg) (ks ret : Bool) (apd apa : Ap) (base : XReg) (idx : Ap) (_scope : BitVec 3) (q : BitVec 2)
    (s : State) := VamForm.run ⟨false, 2, kg, ks, ret, apd, apa, base, idx, q⟩ false s
def execVammax (kg : KReg) (ks ret : Bool) (apd apa : Ap) (base : XReg) (idx : Ap) (_scope : BitVec 3) (q : BitVec 2)
    (s : State) := VamForm.run ⟨false, 1, kg, ks, ret, apd, apa, base, idx, q⟩ false s
def execVamfmin (kg : KReg) (ks ret : Bool) (apd apa : Ap) (base : XReg) (idx : Ap) (_scope : BitVec 3) (q : BitVec 2)
    (s : State) := VamForm.run ⟨true, 2, kg, ks, ret, apd, apa, base, idx, q⟩ false s
def execVamfmax (kg : KReg) (ks ret : Bool) (apd apa : Ap) (base : XReg) (idx : Ap) (_scope : BitVec 3) (q : BitVec 2)
    (s : State) := VamForm.run ⟨true, 1, kg, ks, ret, apd, apa, base, idx, q⟩ false s
def execVamand (kg : KReg) (ks ret : Bool) (apd apa : Ap) (base : XReg) (idx : Ap) (_scope : BitVec 3) (q : BitVec 2)
    (s : State) := VamForm.run ⟨false, 3, kg, ks, ret, apd, apa, base, idx, q⟩ false s
def execVamor (kg : KReg) (ks ret : Bool) (apd apa : Ap) (base : XReg) (idx : Ap) (_scope : BitVec 3) (q : BitVec 2)
    (s : State) := VamForm.run ⟨false, 4, kg, ks, ret, apd, apa, base, idx, q⟩ false s
def execVamxor (kg : KReg) (ks ret : Bool) (apd apa : Ap) (base : XReg) (idx : Ap) (_scope : BitVec 3) (q : BitVec 2)
    (s : State) := VamForm.run ⟨false, 5, kg, ks, ret, apd, apa, base, idx, q⟩ false s

/-! ### Accumulation windows (R234 to R237) -/

/-- A window's operator as `redOp` numbers it (R234: 0 add, 1 min, 2 max). -/
def Window.redop (w : Window) : Nat := if w.op = 0 then 0 else if w.op = 1 then 2 else 1

/-- Path-1 address of copy c, byte o of a window (R235). -/
def Window.addr (w : Window) (c o : Nat) : Word := BitVec.ofNat 64 (2 ^ 61 + w.gal + c * w.len + o)

/-- The identity of a window's operator. -/
def Window.ident (w : Window) : Nat := redId w.ty.toNat w.redop

/-- A declaration breaks R235. -/
def badWindow (gal : Nat) (wb xl xg : Nat) : Bool :=
  decide (wb % 4 ≠ 0) || !(decide (wb / 2 ^ 61 = 0) || decide (wb / 2 ^ 61 = 7)) || decide (xl % 4 ≠ 0) ||
    decide (xl < 4) || decide (8192 < xl) || decide (xg % 128 ≠ 0) || decide (gal < xg + 128 * xl)

def execAccwin (aw : BitVec 2) (op : BitVec 2) (ty : BitVec 4) (xb xl xg : XReg) (s : State) := onHart 8 s (fun h =>
  let n := (h.getX xl).toNat
  let w : Window := ⟨h.getX xb, n, (h.getX xg).toNat, op, ty⟩
  if badWindow (((s.gangOf h).map (fun g => g.galSize)).getD 0) (h.getX xb).toNat n w.gal then .trap s (illegalUse 0x46)
  else
    match s.save h true .vecStore (w.addr 0 0) ((List.replicate (32 * n) (leBytes 4 w.ident)).flatten) with
    | .error f => s.missTrap h 2 ⟨f, w.addr 0 0, 128 * n, false⟩
    | .ok s => .done (s.updHart (fun h => { h with windows := put h.windows aw.toNat (some w) })))

/-- An offset that R236 does not allow. -/
def badOffset (w : Window) (o : Int) : Bool := decide (o < 0) || decide ((w.len : Int) ≤ o) || decide (o % 4 ≠ 0)

/-- `awacc` as the shared checks see it. -/
def awaccVec (aw : BitVec 2) (g : Guard) (idx apa : Ap) (h : Hart) : Vec :=
  let a := h.apt apa
  let x := h.apt idx
  let w := find h.windows aw.toNat
  { ops := [⟨apa, false, h.rc, h.vl, false⟩, ⟨idx, false, h.rc, h.vl, false⟩], srcs := [apa, idx], addrAps := [idx], dsts := []
    typesOk := match w with
      | some w => a.ty = w.ty.toNat
      | none => true
    own := if !indexType x.ty then some (illegalUse 0x42 (some idx.toNat)) else none
    own2 := if w.isNone then some (illegalUse 0x47) else none
    valueAp := some idx
    value := fun h1 n => w.bind (fun w =>
      if (List.range n).any (fun i => h.active g (i / h.vl) (i % h.vl) &&
          badOffset w (intVal x.ty (h1.getEl x (i / h.vl) (i % h.vl)))) then
        some (illegalUse 0x48 (some idx.toNat)) else none)
    rc := h.rc, vl := h.vl, guard := g, act := fun r e => h.active g r e, whole := true, cls := 12
    charge := h.rc * h.vl, tap := apa, cell := fun r e => a.cell h.bh r e, el := fun _ h2 _ _ => (h2, 0) }

/-- Updates of the copies in sweep order (R236). -/
def State.accumulate (h h1 : Hart) (w : Window) (apa idx : Ap) :
    List Nat → State → Except (Nat × Nat × Nat × Word) State
  | [], s => .ok s
  | i :: is, s =>
    let r := i / h.vl
    let e := i % h.vl
    let va := w.addr (e % 128) (h1.indexAt idx r e).toNat
    match s.load h true .vecLoad va 4 with
    | .error f => .error (i, 1, f, va)
    | .ok (s, bs) =>
      let v := (redOp w.ty.toNat w.redop 0 (leNat bs, 0) (h1.getEl (h1.apt apa) r e, 0)).1
      match s.save h true .vecStore va (leBytes 4 v) with
      | .error f => .error (i, 2, f, va)
      | .ok s => State.accumulate h h1 w apa idx is s

/-- `awacc` after its checks. -/
def awaccRun (aw : BitVec 2) (idx apa : Ap) (v : Vec) (h : Hart) (f : Fed) : Exec :=
  match find h.windows aw.toNat with
  | none => .trap f.s (illegalUse 0x47)
  | some w =>
    let items := v.todo h f
    let q := f.sum h.fen items 0
    match State.accumulate h f.h w apa idx (cutAt items q.2) f.s with
    | .error (i, k, c, va) =>
      f.s.missTrap h k ⟨c, va, 4, false⟩ 0 (some apa.toNat) (some ((h.apt apa).cell h.bh (i / h.vl) (i % h.vl)))
    | .ok s => (v.fedStop h f q.2 f.s).getD (.done (s.setHart (f.h.orFlags q.1)))

def execAwacc (kg : KReg) (ks : Bool) (aw : BitVec 2) (idx apa : Ap) (s : State) := onHart 8 s (fun h =>
  Vec.start (awaccVec aw ⟨kg.toNat, ks⟩ idx apa) s h (awaccRun aw idx apa))

/-- The leaves of word k over the 128 copies (R237). -/
def State.copies (s : State) (h : Hart) (w : Window) (k : Nat) :
    Nat → Except (Nat × Word) (State × List (Option (Nat × Flags)))
  | 0 => .ok (s, [])
  | c + 1 =>
    match s.copies h w k c with
    | .error e => .error e
    | .ok (s, l) =>
      match s.load h true .vecLoad (w.addr c (4 * k)) 4 with
      | .error f => .error (f, w.addr c (4 * k))
      | .ok (s, bs) => .ok (s, l ++ [some (leNat bs, 0)])

/-- Word k of every copy set to the identity. -/
def State.clearCopies (s : State) (h : Hart) (w : Window) (k : Nat) : Nat → Except (Nat × Word) State
  | 0 => .ok s
  | c + 1 =>
    match s.clearCopies h w k c with
    | .error e => .error e
    | .ok s =>
      match s.save h true .vecStore (w.addr c (4 * k)) (leBytes 4 w.ident) with
      | .error f => .error (f, w.addr c (4 * k))
      | .ok s => .ok s

/-- Words 0 to n − 1 folded into memory in ascending order; a fault answers F and the address. -/
def State.mergeWords (s : State) (h : Hart) (w : Window) (acq later : Bool) : Nat → Except (Nat × Word) State
  | 0 => .ok s
  | k + 1 =>
    match s.mergeWords h w acq later k with
    | .error e => .error e
    | .ok s =>
      match s.copies h w k 128 with
      | .error e => .error e
      | .ok (s, l) =>
        let v := (reduce w.ty.toNat w.redop 0 l).1
        let va := w.base + BitVec.ofNat 64 (4 * k)
        match (if later then s.rmwLate h true va 4 { op := .red w.ty.toNat w.redop, b := v, dests := [], quiet := true }
          else (s.rmw h true va 4 (fun m => some (redOp w.ty.toNat w.redop 0 (m, 0) (v, 0)).1) acq).map (·.1)) with
        | .error f => .error (f, va)
        | .ok s =>
          s.clearCopies h w k 128

/-- `merge`: a fault is one of its atomic steps, with K = 3 (R395), and leaves memory and the copies as they were; `later` leaves
the steps to be performed later. -/
def merge (aw : BitVec 2) (q : BitVec 2) (later : Bool) (s : State) : Host.Outcome State Fault Refusal := onHart 8 s (fun h =>
  match find h.windows aw.toNat with
  | none => .trap s (illegalUse 0x47)
  | some w =>
    let r := s.releaseIf q h.hid
    if !r.2 then .wait r.1
    else
      (match r.1.mergeWords h w (isAcq q) (later && !isAcq q) (w.len / 4) with
        | .error (f, va) => (r.1.noteRange h w.base (va - w.base).toNat true).missTrap h 3 ⟨f, va, 4, false⟩
        | .ok s => .done s).also (fun s => s.dispatch h 12 0 {}))

def execMerge (aw : BitVec 2) (_scope : BitVec 3) (q : BitVec 2) (s : State) := merge aw q false s

def execAwrel (aw : BitVec 2) (s : State) := onHart 8 s (fun h =>
  match find h.windows aw.toNat with
  | none => .trap s (illegalUse 0x47)
  | some _ => .done (s.updHart (fun h => { h with windows := put h.windows aw.toNat none })))

/-! ### `skipset` (R251) -/

def execSkipset (xa xb : XReg) (s : State) := onHart 8 s (fun h =>
  if h.getX xb = 0 then .done s
  else
    let va := h.getX xa
    let r := s.release h.hid
    if !r.2 then .wait r.1
    else if misaligned h .atomic va 8 then r.1.memTrap h 3 4 va
    else
      match r.1.rmw h true va 8 (fun m => some (m ||| 1)) with
      | .error f => r.1.missTrap h 3 ⟨f, va, 8, false⟩
      | .ok (s, _) => .done s)

end Sys2Proof.Machine
end

