-- ==== Sys2Proof/Machine/EngineInstr.lean ====
section
/-! DEFINITION. The engine commands at their issue (R246 to R251, R341, R342, R406, R407) and the events of the engines and the
Gleip ports (R247, R249, R340, R418, R419). -/

namespace Sys2Proof.Machine

/-! ### Issue (R247, R406) -/

/-- A command of a hart, not yet given its ranges. -/
def State.newCmd (s : State) (h : Hart) (scope : BitVec 3) (ctr : Word) (work : EngineWork) (total : Nat) : EngineCmd :=
  let g := s.gangOf h
  { id := s.engineId, hid := some h.hid, launch := (g.map (fun g => g.launch)).getD 0
    gang := (g.map (fun g => g.index)).getD 0, idx := h.idx, pc := h.pc, scope := scope.toNat, ctr, work, core := h.q
    galBase := (g.map (fun g => g.galBase)).getD 0, galSize := (g.map (fun g => g.galSize)).getD 0
    pgroot := h.getCsr 0xd10, spgroot := h.getCsr 0xd11, priv := h.priv, reads := [], writes := [], ctrAt := [], unmapped := [], total
    next := 0, skip := none, remote := none, missing := [], token := false }

/-- A range: where it begins and how long it is. -/
abbrev Range := Word × Nat

/-- The first byte of a range that is a path fault known at issue: a path that the use does not admit, or a byte beyond
a gallery allocation (R204, R205, R406). -/
def State.rangeFault (s : State) (c : EngineCmd) (u : Use) (r : Range) : Option Word :=
  let v := r.1.toNat % 2 ^ 61
  if !u.admits (pathOf r.1) (c.priv != .u) then some r.1
  else if r.2 = 0 then none
  else if pathOf r.1 = 1 then
    if v + r.2 ≤ c.galSize then none else some (if v < c.galSize then r.1 + BitVec.ofNat 64 (c.galSize - v) else r.1)
  else if pathOf r.1 = 2 then
    match s.enginePlace c u r.1 1 with
    | .error _ => some r.1
    | .ok _ =>
      let size := ((s.gangAt (8 * bits v 27 22 + c.core % 8) (bits v 29 28)).map (fun g => g.galSize)).getD 0
      let o := v % 2 ^ 21
      if o + r.2 ≤ size then none else some (r.1 + BitVec.ofNat 64 (size - o))
  else none

/-- An address by the bytes it names: path 3 as path 0, a gallery by its core (R205). -/
def State.byName (s : State) (c : EngineCmd) (va : Word) : Nat :=
  if pathOf va = 3 then va.toNat % 2 ^ 61
  else if pathOf va = 1 ∨ pathOf va = 2 then
    match s.enginePlace c .engineRead va 1 with
    | .ok (_, loc) => 2 ^ 64 + loc
    | .error _ => va.toNat
  else va.toNat

/-- Two ranges share a byte. -/
def State.rangesOverlap (s : State) (c : EngineCmd) (a b : Range) : Bool :=
  overlaps (s.byName c a.1) a.2 (s.byName c b.1) b.2 && decide (0 < a.2) && decide (0 < b.2)

/-- The command issues: the die's engine takes it, and the hart goes on. A hart with 16 commands outstanding first needs
one of them to complete. -/
def State.issue (s : State) (h : Hart) (c : EngineCmd) (reads writes : List Range) : Exec :=
  let rd := reads.filter (fun r => pathOf r.1 ≠ 3)
  let c := { c with reads := rd.flatMap (fun (r : Range) => s.segments c .engineRead r.1 r.2)
                    writes := writes.flatMap (fun (r : Range) => s.segments c .engineWrite r.1 r.2)
                    unmapped := rd.flatMap (fun (r : Range) => (s.unplaced c .engineRead r.1 r.2).map (fun p => (false, p))) ++
                      writes.flatMap (fun (r : Range) => (s.unplaced c .engineWrite r.1 r.2).map (fun p => (true, p)))
                    ctrAt := if c.ctr = 0 then [] else s.segments c .atomic c.ctr 8 }
  let s := if (s.enginesOf h.hid).length < 16 then s
    else (s.enginesOf h.hid).foldl (fun s d =>
      if (s.enginesOf h.hid).length < 16 then s else s.completeEngine d.id) s
  if 16 ≤ (s.enginesOf h.hid).length then .wait s
  else .done { s with engines := s.engines ++ [{ c with id := s.engineId }], engineId := s.engineId + 1 }

/-- The path faults of the ranges, those read first, and among them a word that is read at issue; otherwise the issue. -/
def State.checkIssue (s : State) (h : Hart) (c : EngineCmd) (reads writes : List Range) (word : List Range := []) : Exec :=
  match (reads ++ word).findSome? (s.rangeFault c .engineRead) with
  | some va => s.memTrap h 1 3 va
  | none =>
    match writes.findSome? (s.rangeFault c .engineWrite) with
    | some va => s.memTrap h 2 3 va
    | none => s.issue h c reads writes

/-! ### `cpy` (R248) -/

def execCpy (xd xs xn xc : XReg) (scope : BitVec 3) (s : State) := onHart 8 s (fun h =>
  let n := (h.getX xn).toNat
  let dst : Range := (h.getX xd, n)
  let src : Range := (h.getX xs, n)
  let c := s.newCmd h scope (h.getX xc) (.copy dst.1 src.1 n) n
  if s.rangesOverlap c src dst then .trap s (illegalUse 0x4a)
  else s.checkIssue h c [src] [dst])

/-! ### Collectives (R249, R341, R342) -/

/-- Bytes of n elements of a TYPE. -/
def elBytes (ty n : Nat) : Nat := (n * tyWidth ty + 7) / 8

/-- A collective descriptor field outside R249. -/
def badColl (kind : Nat) (d : List Byte) : Bool :=
  let ty := collTy d
  decide (collCount d = 0) || decide (10 < ty) ||
    (decide (kind ≤ 3) && !(ty = 4 || ty = 5 || ty = 8 || ty = 6 || ty = 7)) ||
    (if kind ≤ 3 then decide (2 < descField d 0x15 1) else decide (descField d 0x15 1 ≠ 0)) ||
    decide (descField d 0x20 32 ≠ 0)

/-- A group condition of R341 or R342 that a command on a die breaks. -/
def State.badGroup (s : State) (ctx die g : Nat) : Bool :=
  decide (256 ≤ g) || !pteBit (s.getMgmt (0x220000 + 16 * g)).toNat 63 ||
    decide ((s.getMgmt (0x220008 + 16 * g)).toNat % 2 ^ 16 ≠ ctx) || !(s.groupDies g).contains die ||
    s.engines.any (fun c => c.group? == some g && c.core % 8 == die)

/-- A group with members on other modules, and no port up that may carry its traffic (R341, R419). -/
def State.cutOff (s : State) (g : Nat) : Bool :=
  decide ((s.groupDies g).length < s.groupSize g) &&
    (List.range 16).all (fun p => !pteBit (s.getMgmt (0x220000 + 16 * g)).toNat p || s.portsDown.contains p)

/-- Ranks of a group on other modules. -/
def State.farRanks (s : State) (g : Nat) : List Nat :=
  let base := s.groupBase g
  (List.range (s.groupSize g)).filter (fun q => !(decide (base ≤ q) && decide (q < base + (s.groupDies g).length)))

/-- The data of a group's ranks on other modules: what has come, and nothing of the others where no port leads to them (R419). -/
def State.come (s : State) (g : Nat) (remote : List (Nat × List Byte)) : List (Nat × List Byte) :=
  remote ++ if s.cutOff g then ((s.farRanks g).filter (fun q => (find remote q).isNone)).map (fun q => (q, [])) else []

/-- A group whose members on this module have all issued starts by itself when no data can come from elsewhere: it has no
other members, or none that a port leads to. -/
def State.selfStart (s : State) (g : Nat) : State := s.startGroup g (s.come g [])

/-- The start that follows an issue. -/
def Exec.thenStart (g : Nat) : Exec → Exec
  | .done s => .done (s.selfStart g)
  | e => e

/-- A collective command of KIND 2 to 5 (R252). -/
def collective (kind : Nat) (xa : XReg) (scope : BitVec 3) (s : State) : Host.Outcome State Fault Refusal :=
  onHart 8 s (fun h =>
    let va := h.getX xa
    if va.toNat % 64 ≠ 0 then .trap s (illegalUse 0x4b)
    else
      match s.loadRecord h va 64 with
      | .error f => s.memTrap h 1 f va 0 none none 64
      | .ok (s, d) =>
        let g := descField d 0x16 2
        let size := s.groupSize g
        let ty := collTy d
        let blocks := fun (b : Bool) => if b then size else 1
        let src : Range := (descAddr d 0 0, elBytes ty (blocks (kind = 3 || kind = 5) * collCount d))
        let n := elBytes ty (collElements kind size d)
        let dst : Range := (descAddr d 8 0, n)
        let rank := s.groupBase g + ((s.groupDies g).filter (fun x => x < h.die)).length
        let c := s.newCmd h scope (descAddr d 0x18 0) (.collective kind d rank size) n
        if badColl kind d || s.badGroup h.ctx h.die g ||
            (s.rangesOverlap c src dst && !(kind = 2 && s.byName c src.1 = s.byName c dst.1)) then
          .trap s (illegalUse 0x4b)
        else (s.checkIssue h c [src] [dst]).thenStart g)

def execCollAr (xa : XReg) (scope : BitVec 3) (s : State) := collective 2 xa scope s
def execCollRs (xa : XReg) (scope : BitVec 3) (s : State) := collective 3 xa scope s
def execCollAg (xa : XReg) (scope : BitVec 3) (s : State) := collective 4 xa scope s
def execCollA2a (xa : XReg) (scope : BitVec 3) (s : State) := collective 5 xa scope s

/-! ### Updates (R250, R251) -/

/-- An update descriptor outside R250. -/
def badUpdate (h : Hart) (d : List Byte) : Bool :=
  let gt := descField d 0x2c 1
  let ver := descField d 0x2d 1
  !(gt = 8 || gt = 7) || pteBit ver 6 || decide (descField d 0x2e 2 ≠ 0) || decide (descField d 0x60 32 ≠ 0) ||
    (pteBit ver 7 && (find h.wver (ver % 64)).isNone)

/-- The skip word read, as the first act of the command that has just issued: no younger memory operation of the hart comes
before it (R251). -/
def Exec.thenSkip : Exec → Exec
  | .done s => .done (s.advance (s.engines.length + 1) (s.engineId - 1) 0)
  | e => e

/-- An update command. One with a skip word issues after every older memory operation of the hart. -/
def update (adamw : Bool) (xa : XReg) (scope : BitVec 3) (s : State) : Host.Outcome State Fault Refusal :=
  onHart 8 s (fun h =>
    let va := h.getX xa
    if va.toNat % 128 ≠ 0 then .trap s (illegalUse 0x4c)
    else
      match s.loadRecord h va 128 with
      | .error f => s.memTrap h 1 f va 0 none none 128
      | .ok (s, d) =>
        if badUpdate h d then .trap s (illegalUse 0x4c)
        else
          let n := descField d 0x28 4
          let ver := descField d 0x2d 1
          let word : Option Word := if pteBit ver 7 then find h.wver (ver % 64) else none
          let c := s.newCmd h scope (descAddr d 0x38 0) (.update adamw d word) (4 * n)
          let w : Range := (descAddr d 0 0, 4 * n)
          let g : Range := (descAddr d 8 0, tyWidth (descField d 0x2c 1) / 8 * n)
          let m : Range := (descAddr d 0x10 0, 4 * n)
          let v : List Range := if adamw then [(descAddr d 0x18 0, 4 * n)] else []
          let w16 : List Range := if descField d 0x20 8 = 0 then [] else [(descAddr d 0x20 0, 2 * n)]
          if descField d 0x30 8 = 0 then s.checkIssue h c ([w, g, m] ++ v) ([w, m] ++ v ++ w16)
          else
            let r := s.release h.hid
            if !r.2 then .wait r.1
            else (r.1.checkIssue h c ([w, g, m] ++ v) ([w, m] ++ v ++ w16) [(descAddr d 0x30 0, 8)]).thenSkip)

def execUpdSgdm (xa : XReg) (scope : BitVec 3) (s : State) := update false xa scope s
def execUpdAdamw (xa : XReg) (scope : BitVec 3) (s : State) := update true xa scope s

def execWver (n : BitVec 6) (xa : XReg) (s : State) := onHart 8 s (fun h =>
  if (h.getX xa).toNat % 8 ≠ 0 then .trap s (illegalUse 0x4d)
  else .done (s.setHart { h with wver := put h.wver n.toNat (some (h.getX xa)) }))

/-! ### Events -/

def execEngineCommandComplete (cmd : Nat) (s : State) := event s (fun s => s.completeEngine cmd)

def execCollectiveStart (group : Nat) (remote : List (Nat × List (BitVec 8))) (s : State) :=
  event s (fun s => s.startGroup group (s.come group remote))

/-- A command that an abort token has reached ends ABORTED, and forwards the token once, to the members of its collective that have not
ended (R418). -/
def State.abortMember (s : State) (g : Nat) (c : EngineCmd) : State :=
  let s := s.abortEngine c
  s.sendTokens g (s.engines.filter c.fellow)

/-- The command of a group on a die. -/
def State.memberOn (s : State) (g die : Nat) : Option EngineCmd := s.engines.find? (fun c => c.group? == some g && c.core % 8 == die)

/-- A token reaches a die. One of a member on this module is for one command, and a command that has ended ignores it, whatever the die's
member of the group runs by then; one from elsewhere is for the command that runs (R418). -/
def State.abortDie (s : State) (g die : Nat) : State :=
  match s.tokens.find? (fun t => t.1 == g && t.2.1 == die) with
  | none =>
    match s.memberOn g die with
    | none => s
    | some c => s.abortMember g c
  | some t =>
    let s := { s with tokens := s.tokens.erase t }
    match s.engine? t.2.2 with
    | none => s
    | some c => s.abortMember g c

def execAbortToken (group die : Nat) (s : State) := event s (fun s => s.abortDie group die)

/-- A port goes down: members that no port leads to any more drop out (R419). -/
def State.portDown (s : State) (port : Nat) : State :=
  let s := { s with portsDown := if s.portsDown.contains port then s.portsDown else port :: s.portsDown }
  let cut := s.engines.filter (fun c => match c.group? with
    | some g => s.cutOff g
    | none => false)
  let s := cut.foldl (fun s c =>
    match s.engine? c.id, c.group? with
    | some c, some g => s.lackRanks c (s.farRanks g)
    | _, _ => s) s
  cut.foldl (fun s c => match c.group? with
    | some g => s.selfStart g
    | none => s) s

def execGleipPortDown (port : Nat) (s : State) := event s (fun s => s.portDown port)

/-- A port's flit of some number is sent again; after its last attempt, the 1,024th, the port is down (R340, R419). -/
def State.retryFlit (s : State) (port flit : Nat) : State :=
  let n := (find s.portRetry (port, flit)).getD 0 + 1
  if 1024 ≤ n then { s.portDown port with portRetry := s.portRetry.filter (fun p => p.1.1 != port) }
  else { s with portRetry := put s.portRetry (port, flit) (some n) }

def execGleipFlitRetry (flit : Flit) (s : State) := event s (fun s => s.retryFlit flit.port flit.n)

end Sys2Proof.Machine
end

