-- ==== Sys2Proof/Machine/Sync.lean ====
section
/-! DEFINITION. Fences, landings and `retire` (R238 to R245, R406, R420), and how outstanding accesses are performed (R293,
R303). -/

namespace Sys2Proof.Machine

/-! ### Fences (R238, R239) -/

/-- A hart's outstanding stores of one stream performed. -/
def State.performStream (s : State) (hid : Nat) (vec : Bool) : State :=
  let s := s.performAll hid (fun x => x.vec == vec)
  if vec then s.markFence hid else s

/-- A fence whose earlier set holds engine transfers: it waits for the hart's commands, and reports one that has ended
with a fault (R406, R418, R419). -/
def fenceEngines (s : State) (h : Hart) : Exec :=
  let s := s.completeAll h.hid
  if !(s.enginesOf h.hid).isEmpty then .wait s
  else
    match (s.hartAt h.hid).bind (fun h => h.engineFaults.head?) with
    | none => .done s
    | some f =>
      .trap (s.updHartAt h.hid (fun h => { h with engineFaults := h.engineFaults.drop 1 })) { code := f.code, tva := f.tva }

def execFenceSv (_scope : BitVec 3) (s : State) := onHart 4 s (fun h => .done (s.performStream h.hid false))
def execFenceVs (_scope : BitVec 3) (s : State) := onHart 4 s (fun h => fenceEngines (s.performStream h.hid true) h)
def execFenceVv (_scope : BitVec 3) (s : State) := onHart 4 s (fun h => fenceEngines (s.performStream h.hid true) h)
def execFenceAll (_scope : BitVec 3) (s : State) := onHart 4 s (fun h => fenceEngines ((s.drain h.hid).markFence h.hid) h)

/-! ### The gang's landing register (R240, R242, R244) -/

/-- The phase ends when every LIVE hart has arrived: a hart that has arrived and retired since keeps its bit of ARR, which does not count
(R242, R245; DESIGN CHOICE, log 70). -/
def Gang.arrive (g : Gang) (idx : Nat) : Gang :=
  let arr := g.arr ||| 1#4 <<< idx
  if arr &&& g.live = g.live then { g with arr := 0, phase := g.phase + 1 } else { g with arr }

def execLarrive (rd : XReg) (s : State) := onHart 4 s (fun h =>
  match s.gangOf h with
  | none => .wait s
  | some g =>
    if g.arr.getLsbD h.idx then .wait s
    else
      let r := s.release h.hid
      if !r.2 then .wait r.1
      else .done ((r.1.setGang (g.arrive h.idx)).updHart (fun h => h.setX rd (g.phase.setWidth 64))))

/-- d of R244 for a phase and a token. -/
def phaseDistance (p t : BitVec 16) : Nat := (p - t).toNat

/-- What a `lwait` that has read phase p does (R244, R420). -/
def lwaitOn (s : State) (rd : XReg) (p t : BitVec 16) (block : Option Word) : Exec :=
  let d := phaseDistance p t
  if 32768 ≤ d then .trap s { code := 0x5000, tva := block.getD 0 }
  else if d = 0 then .wait (s.updHart (fun h => { h with run := .lwait rd t block }))
  else .done (s.updHart (fun h => h.setX rd (if d = 1 then 0 else BitVec.ofNat 64 d)))

def execLwait (rd ra : XReg) (s : State) := onHart 4 s (fun h =>
  match s.gangOf h with
  | none => .wait s
  | some g => lwaitOn s rd g.phase ((h.getX ra).setWidth 16) none)

/-! ### Memory landings (R243, R244) -/

/-- A landing block lies on path 0, 1, 2 or 7; an access elsewhere is a path fault, one that is not 8-byte aligned F = 4. -/
def blockFault (h : Hart) (va : Word) : Option Nat :=
  if !(Use.atomic).admits (pathOf va) (h.priv != .u) then some 3
  else if va.toNat % 8 ≠ 0 then some 4 else none

/-- A landing block after one more arrival (R243). -/
def blockArrive (w : Nat) : Nat :=
  let phase := w / 2 ^ 48
  let arr := bits w 47 24
  let count := w % 2 ^ 24
  if count ≤ arr + 1 then (phase + 1) % 2 ^ 16 * 2 ^ 48 + count else phase * 2 ^ 48 + (arr + 1) * 2 ^ 24 + count

def execLarriveScope (rd ra : XReg) (_scope : BitVec 3) (s : State) := onHart 4 s (fun h =>
  let va := h.getX ra
  let r := s.release h.hid
  if !r.2 then .wait r.1
  else
    match blockFault h va with
    | some f => r.1.memTrap h 3 f va 0 none none 8
    | none =>
      match r.1.rmw h false va 8 (fun w => if w % 2 ^ 24 = 0 then none else some (blockArrive w)) with
      | .error f => r.1.memTrap h 3 f va 0 none none 8
      | .ok (s, w) =>
        if w % 2 ^ 24 = 0 then .trap s (illegalUse 0x49)
        else .done (s.updHart (fun h => h.setX rd (BitVec.ofNat 64 (w / 2 ^ 48)))))

/-- The block read of `lwait.scope`: a load (R395), and an acquire, so that the hart's older stores of either stream to the block
come before it (R294, note d). A fault answers F. -/
def State.blockRead (s : State) (h : Hart) (va : Word) : Except Nat (State × Nat) :=
  match blockFault h va with
  | some f => .error f
  | none =>
    let s := match s.place h .scalarLoad va 8 with
      | .ok (t, .mem loc) => t.performAll h.hid (fun x => overlaps loc 8 x.loc x.bytes.length)
      | _ => s
    (s.load h false .scalarLoad va 8).map (fun r => (r.1, leNat r.2))

def execLwaitScope (rd ra rb : XReg) (_scope : BitVec 3) (s : State) := onHart 4 s (fun h =>
  let va := h.getX ra
  match s.blockRead h va with
  | .error f => s.memTrap h 1 f va 0 none none 8
  | .ok (s, w) =>
    if w % 2 ^ 24 = 0 then .trap s (illegalUse 0x49)
    else lwaitOn s rd (BitVec.ofNat 16 (w / 2 ^ 48)) ((h.getX rb).setWidth 16) (some va))

/-! ### The end of a wait (R244) -/

/-- A wait that has ended: the result 0, and the hart goes on. -/
def lwaitEnd (s : State) (rd : XReg) (p t : BitVec 16) : Exec :=
  if p = t then .wait s else .done (s.updHart (fun h => { h.setX rd 0 with run := .running }))

/-- A waiting hart reads its phase again. -/
def lwaitAgain (s : State) (h : Hart) : Exec :=
  match h.run with
  | .lwait rd t none =>
    match s.gangOf h with
    | none => .wait s
    | some g => lwaitEnd s rd g.phase t
  | .lwait rd t (some va) =>
    match s.blockRead h va with
    | .error f => s.memTrap h 1 f va 0 none none 8
    | .ok (s, w) =>
      if w % 2 ^ 24 = 0 then .trap s (illegalUse 0x49) else lwaitEnd s rd (BitVec.ofNat 16 (w / 2 ^ 48)) t
  | _ => .wait s

def execLwaitReturn (hart : Nat) (s : State) : Host.Outcome State Fault Refusal :=
  if !s.power then .fault .powerOff
  else
    match s.hartAt hart with
    | none => .next s
    | some h => (lwaitAgain { s with cur := hart } h).outcome 4

/-! ### `retire` (R245) -/

/-- `retire` waits until every vector and transit instruction of its hart has completed; older engine commands have issued. -/
def execRetire (s : State) := onHart 4 s (fun h =>
  if (s.coreAt h.q).outstanding h.hid then .wait s else .moved (s.leaveHart h))

/-! ### Accesses performed (R239, R303) -/

def execMemoryAccessPerformed (hart : Nat) (s : State) := event s (fun s => s.performSome hart (fun _ => true) 1)

end Sys2Proof.Machine
end

