-- ==== Sys2Proof/Machine/Transit.lean ====
section
/-! DEFINITION. The transit matrix engine's instructions and the power hints (R100, R253 to R261, R263, R267, R366). Each takes its
effect when its hart meets it; its place in the transit queue is timing only (R101; DESIGN CHOICE, log 5). -/

namespace Sys2Proof.Machine

/-! ### The queue (R263) -/

/-- The queue of a hart's core has room for one more entry. -/
def State.transitRoom (s : State) (h : Hart) : Bool := decide ((s.coreAt h.q).transit.length < 32)

/-- An entry made in the queue of a hart's core: its entries, its tile, its fillers and the cycles of its `tload`. -/
def State.enqueue (s : State) (h : Hart) (kind : TransitKind) (ops : List SweptAp) (tile count port : Nat) : State :=
  s.updCore h.q (fun c =>
    let j : Job := { hid := h.hid, slot := h.slot, idx := h.idx, seq := c.jobs, bh := h.bh, ops }
    { c with transit := c.transit ++ [⟨j, kind, tile, count, port, none⟩], jobs := c.jobs + 1 })

/-! ### Tiles and banks (R254) -/

/-- Tile n of a gang. -/
def Gang.tile? (g : Gang) (n : Nat) : Option Tile := g.tiles[n]?

/-- Tile n changed. -/
def State.updTile (s : State) (g : Gang) (n : Nat) (f : Tile → Tile) : State :=
  s.setGang { g with tiles := g.tiles.modify n f }

/-- T[k][c] and A[m][c]. -/
def Tile.elem (t : Tile) (k c : Nat) : Nat := (t.elems.get (64 * k + c)).toNat
def Tile.acc (t : Tile) (m c : Nat) : Nat := (t.bank.get (64 * m + c)).toNat

/-- A TYPE that a tile holds. -/
def tileType (ty : Nat) : Bool := ty = 7 || ty = 9 || ty = 10 || ty = 8

/-- A transit instruction on tile n of the hart's gang: reason 0x30 first of all, then the rest with the tile. -/
def onTile (n : BitVec 3) (s : State) (h : Hart) (f : Gang → Tile → Exec) : Exec :=
  match s.gangOf h with
  | none => .trap s (illegalUse 0x30)
  | some g =>
    match g.tile? n.toNat with
    | none => .trap s (illegalUse 0x30)
    | some t => f g t

/-- One that enters the queue as its hart meets it, once the queue has room; it is checked as it enters (R389). -/
def transit (n : BitVec 3) (s : State) (f : Hart → Gang → Tile → Exec) : Host.Outcome State Fault Refusal :=
  onHart 8 s (fun h => onTile n s h (fun g t => if s.transitRoom h then f h g t else .wait s))

/-- An entry that a transit instruction reads: V, then its own reasons, then the rules for a stream-bound entry; then its
plates are made present (R380). As VL and RC do not apply to it, it consumes nothing of the stream and reads the cells as they are
(R224, R258, R259; DESIGN CHOICE, log 55). -/
def readEntry (s : State) (h : Hart) (n : Ap) (own : Option TrapRec) (k : State → Hart → Exec) : Exec :=
  if !(h.apt n).v then .trap s (illegalUse 0x10 (some n.toNat))
  else
    match own with
    | some t => .trap s t
    | none =>
      match h.streamFault [] [n] with
      | some n => .trap s (illegalUse 0x44 (some n.toNat))
      | none => withPlates [h.apt n] 257 s h k

/-! ### `tshape`, `tload`, `tzero` (R257, R258, R260) -/

def execTshape (nm1 : BitVec 6) (km1 : BitVec 7) (s : State) := hartOp 8 s (fun h =>
  h.setCsr 0xc48 (BitVec.ofNat 64 ((nm1.toNat + 1) * 256 + km1.toNat + 1)))

/-- K and N of TSHAPE (R255). -/
def Hart.shapeK (h : Hart) : Nat := (h.getCsr 0xc48).toNat % 256
def Hart.shapeN (h : Hart) : Nat := (h.getCsr 0xc48).toNat / 256 % 256

/-- The reasons of `tload` after 0x10 (R258, R389). -/
def tloadFault (h : Hart) (n : Ap) : Option TrapRec :=
  let a := h.apt n
  if !((decide (h.shapeK ≤ a.hl) || a.bc) && decide (h.shapeN ≤ a.e)) then some (illegalUse 0x11 (some n.toNat))
  else if 1 < a.kind ∨ !tileType a.ty then some (illegalUse 0x31 (some n.toNat))
  else if h.shapeK = 0 then some (illegalUse 0x31) else none

/-- Cycles that a `tload` of K rows holds the load port (R266). -/
def portCycles (a : Apt) (k n : Nat) : Nat := ((List.range k).map (fun r => (a.accesses r n + 63) / 64)).sum

/-- A tile loaded from an aperture (R258). -/
def Tile.load (t : Tile) (h : Hart) (a : Apt) (k n : Nat) : Tile :=
  let els := ((List.range k).map (fun r => (List.range n).map (fun c => (64 * r + c, BitVec.ofNat 32 (h.getEl a r c))))).flatten
  { t with ty := some (BitVec.ofNat 4 a.ty), rows := k, cols := n, elems := els.filter (fun x => decide (x.2 ≠ 0)) }

def execTload (t : BitVec 3) (apa : Ap) (s : State) := transit t s (fun h _ _ =>
  readEntry s h apa (tloadFault h apa) (fun s h =>
    match s.gangOf h with
    | none => .wait s
    | some g =>
      .done ((s.updTile g t.toNat (fun x => x.load h (h.apt apa) h.shapeK h.shapeN)).enqueue h .load
        [⟨h.ap.get apa.toNat, false, h.shapeK, h.shapeN, true⟩] t.toNat 0 (portCycles (h.apt apa) h.shapeK h.shapeN))))

def execTzero (t : BitVec 3) (s : State) := transit t s (fun h g _ =>
  .done ((s.updTile g t.toNat (fun x => { x with bank := [] })).enqueue h .zero [] t.toNat 0 0))

/-! ### `tmac` (R100, R259) -/

/-- The exact sum of products, with the flags of R100. -/
def groupSum (ps : List Prod) : FV × Flags :=
  let bad := ps.any (fun p => match p with
    | .nan _ | .invalid => true
    | _ => false)
  let has (n : Bool) := ps.any (fun p => match p with
    | .inf m => m = n
    | _ => false)
  let fl : Flags := ps.foldl (fun f p => match p with
    | .nan true | .invalid => f ||| fNV
    | _ => f) (if has true && has false then fNV else 0)
  if bad || (has true && has false) then (.nan false, fl)
  else if has true then (.inf true, fl)
  else if has false then (.inf false, fl)
  else
    match ps with
    | [] => (.fin ⟨false, 0, 0⟩, fl)
    | p :: r =>
      let ex (p : Prod) : Ex := match p with
        | .fin x => x
        | _ => ⟨false, 0, 0⟩
      (.fin (r.foldl (fun a q => a.add (ex q) 0) (ex p)), fl)

/-- One group added to an accumulator: both roundings with their flags. A signalling NaN in the accumulator counts as a
signalling operand and sets NV (DESIGN CHOICE, log 51). -/
def groupStep (acc : Nat) (ps : List Prod) : Nat × Flags :=
  let s := groupSum ps
  let t := s.1.convert f32 0
  let r := fAdd f32 0 (f32.decode acc) (f32.decode t.1)
  (r.1, s.2 ||| t.2 ||| r.2)

/-- Eight products from product 8j on, padded with +0 (R100). -/
def groupOf (ps : List Prod) (j : Nat) : List Prod :=
  let g := (ps.drop (8 * j)).take 8
  g ++ List.replicate (8 - g.length) (.fin ⟨false, 0, 0⟩)

/-- The accumulation over a row of floating products (R100). -/
def accFloat (acc : Nat) (ps : List Prod) : Nat × Flags :=
  (List.range ((ps.length + 7) / 8)).foldl (fun a j =>
    let r := groupStep a.1 (groupOf ps j)
    (r.1, a.2 ||| r.2)) (acc, 0)

/-- A[m][c] after a row of operands of a TYPE meets column c of a tile. -/
def Tile.macEl (t : Tile) (ty m : Nat) (row : List Nat) (c : Nat) : Nat × Flags :=
  if ty = 10 then
    let s : Int := ((List.range t.rows).map (fun k => sext (row.getD k 0) 4 * sext (t.elem k c) 4)).sum
    (wrap 32 (t.acc m c + s), 0)
  else
    let f := fmtOf ty
    accFloat (t.acc m c) ((List.range t.rows).map (fun k => fProd (f.decode (row.getD k 0)) (f.decode (t.elem k c))))

/-- The reasons of `tmac` after 0x10, in their order (R387, R389). -/
def tmacFault (h : Hart) (n : Ap) (t : Tile) (m : Nat) : Option TrapRec :=
  let a := h.apt n
  match t.ty with
  | none => some (illegalUse 0x32)
  | some ty =>
    if a.e < t.rows ∨ (!a.bc ∧ a.hl ≤ m) then some (illegalUse 0x11 (some n.toNat))
    else if a.ty ≠ ty.toNat then some (illegalUse 0x13 (some n.toNat)) else none

/-- The kind of a `tmac` in the queue, by TYPE (R266). -/
def macKind (ty : Nat) : TransitKind := if ty = 7 then .mac else if ty = 8 then .mac32 else .macHalf

/-- `tmac` (R259). A stop reports, of the enabled flags that any column raises, the first in the order of the flags: it has no sweep index
(DESIGN CHOICE, log 66). -/
def execTmac (t : BitVec 3) (apa : Ap) (xr : XReg) (s : State) := transit t s (fun h _ ti =>
  let m := (h.getX xr).toNat % 256
  readEntry s h apa (tmacFault h apa ti m) (fun s h =>
    match s.gangOf h with
    | none => .wait s
    | some g =>
      let a := h.apt apa
      let row := (List.range ti.rows).map (fun k => h.getEl a m k)
      let out := (List.range ti.cols).map (fun c => ti.macEl a.ty m row c)
      let fl := out.foldl (fun f x => f ||| x.2) (0 : Flags)
      match trapFlag h.fen fl with
      | some b => .trap (s.setHart (h.orFlags (flagBit b))) { code := 0x2000 + b, tap := some apa.toNat }
      | none =>
        let s := s.updTile g t.toNat (fun x =>
          { x with bank := x.bank.setAll (64 * m) (out.map (fun v => BitVec.ofNat 32 v.1)) })
        .done ((s.enqueue h (macKind a.ty) [⟨h.ap.get apa.toNat, false, 1, ti.rows, true⟩] t.toNat 0 0).setHart (h.orFlags fl))))

/-! ### `tdrain` (R261) -/

/-- `tdrain` as a full sweep. -/
def tdrainVec (g : Guard) (apd : Ap) (n : Nat) (t : Tile) (xr : XReg) (h : Hart) : Vec :=
  let d := h.apt apd
  let m0 := (h.getX xr).toNat % 256
  { ops := [⟨apd, true, h.rc, h.vl, false⟩], srcs := [], dsts := [apd], typesOk := tyWidth d.ty = 32
    own := if 64 < h.vl ∧ h.rc ≠ 0 then some (illegalUse 0x34) else none
    rc := h.rc, vl := h.vl, guard := g, act := fun r e => h.active g r e, whole := true, cls := 14, charge := h.rc * h.vl
    drain := some n, tap := apd, cell := fun r e => d.cell h.bh r e
    el := fun _ h2 r e => (h2.setEl d r e (t.acc ((m0 + r) % 256) e), 0)
    last := fun s _ h2 _ => .done (s.setHart h2) }

/-- `tdrain`: it goes by the gate, and takes its place in the queue after it (R263). -/
def execTdrain (kg : KReg) (ks : Bool) (apd : Ap) (t : BitVec 3) (xr : XReg) (s : State) := onHart 8 s (fun h =>
  onTile t s h (fun _ ti => Vec.run (tdrainVec ⟨kg.toNat, ks⟩ apd t.toNat ti xr) s h))

/-! ### Restart labels (R267) -/

def execTrestart (disp : BitVec 32) (s : State) := hartOp 8 s (fun h =>
  h.setCsr 0xc49 (((h.pc + 4 * disp.signExtend 64) &&& ~~~3) ||| 1))

def execTclose (s : State) := hartOp 8 s (fun h => h.setCsr 0xc49 (h.getCsr 0xc49 &&& ~~~1))

/-! ### Power hints (R253) -/

/-- `twake`: a gated engine starts to wake, otherwise its idle count starts again (R269). -/
def CoreSt.wake (c : CoreSt) : CoreSt :=
  { c with engine := match c.engine with
      | .gated => .waking (c.cyc + 96)
      | .awake _ => .awake 0
      | .waking n => .waking n }

def execTwake (s : State) := onHart 4 s (fun h => .done (s.updCore h.q CoreSt.wake))

/-- `tfill`: an entry of fillers; without one it leaves the queue at once (R366). -/
def execTfill (ra : XReg) (s : State) := onHart 4 s (fun h =>
  let n := min (h.getX ra).toNat 1024
  if !s.transitRoom h then .wait s
  else if n = 0 then .done s
  else .done (s.enqueue h .fill [] 0 n 0))

/-- `bkt`: until the bucket has room, one cycle of the island passes at a time. -/
def execBkt (rd ra : XReg) (s : State) := onHart 4 s (fun h =>
  let s := s.passTime h.q
  let c := s.coreAt h.q
  let cap := (c.csr.get 0xd40).toNat % 2 ^ 32
  if min (h.getX ra).toNat cap + c.level ≤ cap then .done (s.updHart (fun h => h.setX rd (BitVec.ofNat 64 c.level)))
  else .wait (s.runCycles h.q 1))

end Sys2Proof.Machine
end

