-- ==== Sys2Proof/Machine/Timing.lean ====
section
/-! DEFINITION. The events of a core's timing machinery: the dispatch gate, the vector queues, the transit queue, the slew
limiter, gating and the island clock (R54, R78, R263 to R269, R324 to R333, R365, R421), each one step of the machinery of Clock.lean. -/

namespace Sys2Proof.Machine

/-- An event on a core. -/
def coreEvent (q : Nat) (s : State) (f : CoreSt → CoreSt) : Host.Outcome State Fault Refusal :=
  event s (fun s => s.updCore q f)

/-- A cycle of the dispatch gate: the core's next island cycle (R328). -/
def execDispatchGate (core : Nat) (s : State) := event s (fun s => s.nextCycle core)

/-- The vector sequencer's decisions in a cycle (R54). -/
def execVectorIssue (core : Nat) (s : State) := event s (fun s => s.sequence core)

/-- The passes that begin in a cycle (R78). -/
def execVectorPass (core : Nat) (s : State) := coreEvent core s CoreSt.runPasses

/-- A lane group that no gang has had for 64 cycles gates (R333). -/
def execLaneGroupGate (core group : Nat) (s : State) := coreEvent core s (fun c => c.gateGroup group)

/-- A lane group's wake ends (R333). -/
def execLaneGroupWake (core group : Nat) (s : State) := coreEvent core s (fun c => c.wakeGroup group)

/-- The transit engine's issue in a cycle, or the wake that an entry starts (R263, R269). -/
def execTransitIssue (core : Nat) (s : State) :=
  event s (fun s => s.updCore core (fun c => c.transit1 (s.dieAt (core % 8))))

/-- Transit instructions whose time in flight has ended complete (R266). -/
def execTransitOpComplete (core : Nat) (s : State) := coreEvent core s CoreSt.landTransit

/-- The transit engine gates at the end of its last idle cycle (R269). -/
def execTransitGate (core : Nat) (s : State) := event s (fun s => (s.updCore core CoreSt.gateEngine).nextCycle core)

/-- The transit engine's wake ends (R269). -/
def execTransitWake (core : Nat) (s : State) := coreEvent core s CoreSt.wakeEngine

/-- A step of a die's slew limiter (R332). -/
def execSlewStep (die : Nat) (s : State) := event s (fun s => s.slewStep die)

/-- A core that has met QUIET empty steps is quiet (R332). -/
def execSlewCoreQuiet (core : Nat) (s : State) :=
  event s (fun s => s.updCore core (fun c => c.quieten (s.dieAt (core % 8)).quiet))

/-- A frequency ramp's step, and the end of its relock (R324). -/
def execFreqRampStep (core : Nat) (s : State) := coreEvent core s CoreSt.rampStep
def execRelockEnd (core : Nat) (s : State) := coreEvent core s CoreSt.relocked

/-- A die's current has passed its limit: a kind-0x13 record, and 470 MHz requested of its cores (R421). -/
def execSupplyLimit (die : Nat) (s : State) := event s (fun s =>
  (List.range 64).foldl (fun s k => s.updCore (8 * k + die) (fun c => c.request 470 (Config.abandoned s.tick)))
    (s.hall { kind := 0x13, count := die }))

end Sys2Proof.Machine
end

