-- ==== Sys2Proof/Machine/Pair.lean ====
section
/-! DEFINITION. The pair (R109, R112 to R114): a vector half with its guard, and a scalar half that takes effect when the pair
commits. -/

namespace Sys2Proof.Machine

/-- An A-format instruction under any guard, by its major (R117). -/
def vecHalf (f : AHalf) (g : Guard) (s : State) (h : Hart) : Exec :=
  match f.op.code.1.toNat with
  | 0x28 => vecInt f g s h
  | 0x29 => vecFloat f g s h
  | 0x2a => vecMask f g s h
  | 0x2b => vecMove f g s h
  | 0x2c => vecConvert f g s h
  | 0x2d => vecReduce f g s h
  | 0x2e => vecChain f g s h
  | _ => vecReversible f g s h

/-- A register operation of R114. -/
def pairReg (op : PairOp) (a b : Word) : Word :=
  match op with
  | .add => a + b
  | .sub => a - b
  | .and => a &&& b
  | .or => a ||| b
  | .xor => a ^^^ b
  | .sll => a <<< (b.toNat % 64)
  | .srl => a >>> (b.toNat % 64)
  | .sra => a.sshiftRight (b.toNat % 64)

/-- An immediate operation of R114: imm6 is signed for `addi` and a count for the shifts. -/
def pairImm (op : PairImm) (a : Word) (imm : BitVec 6) : Word :=
  match op with
  | .addi => a + imm.signExtend 64
  | .slli => a <<< imm.toNat
  | .srli => a >>> imm.toNat
  | .srai => a.sshiftRight imm.toNat

/-- The register that a scalar half writes, with its value from the hart before the pair. -/
def scalarHalf (sc : PairScalar) (h : Hart) : Option (XReg × Word) :=
  match sc with
  | .nop => none
  | .reg op rd ra rb => some (rd, pairReg op (h.getX ra) (h.getX rb))
  | .imm op rd ra imm => some (rd, pairImm op (h.getX ra) imm)

/-- A pair: its scalar half takes effect with its commit where bit 0 of the guard is 1 (R112). Where the vector half has stopped at an
element and writes the guard's own register, that bit is the one that the resumed pair finds (DESIGN CHOICE, log 67). -/
def pair (g : Guard) (sc : PairScalar) (vec : AHalf) (s : State) (h : Hart) : Exec :=
  match vecHalf vec g s h with
  | .done t =>
    if h.guardBit g 0 then
      match scalarHalf sc h with
      | none => .done t
      | some (rd, v) => .done (t.updHart (fun h => h.setX rd v))
    else .done t
  | e => e

def execPair (g : KReg) (gs : Bool) (sc : PairScalar) (vec : AHalf) (s : State) :=
  onHart 8 s (pair ⟨g.toNat, gs⟩ sc vec s)

end Sys2Proof.Machine
end

