-- ==== Sys2Proof/Machine/Launch.lean ====
section
/-! DEFINITION. Launches: windows and messages (R29 to R37, R412), wait counters (R38, R39, R416), placement (R40 to R46, R370,
R424), completion records (R57, R58, R415, R417), and the `launch` instruction (R144). -/

namespace Sys2Proof.Machine

/-! ### Accesses of the rotunda through a context's page tables (R32, R38, R417) -/

/-- The root through which the rotunda reads a launch's wait counter and writes its record: what its context's entry held at the launch's
latest placement, or holds now where nothing of it has been placed (R339); a gang is saved through the root of its own placement. -/
def State.rootOf (s : State) (l : Launch) : Nat := l.root.getD (s.ctxRoot l.ctx)

/-- The physical address of an access of n bytes at a path-0 address under a root, counted as any of the device (R286); a fault answers F of R395. The rotunda has no privilege
level, so U is not asked for (DEDUCED, log 30). -/
def State.rotAccess (s : State) (root : Nat) (need : Access) (va : Nat) (n : Nat := 1) : Except Nat (State × Nat) :=
  if va / 2 ^ 61 ≠ 0 then .error 3
  else
    let s := s.seeTables root va
    match walk s.mem root va with
    | .invalid _ _ => .error 0
    | .malformed => .error 2
    | .leaf e loc level =>
      if !rightsOk need e then .error 1
      else
        let e' := pteCore e + 2 ^ 57 + (if needsWrite need || pteBit e 56 then 2 ^ 56 else 0)
        let s := if e' = e then s else s.poke loc (leBytes 8 e')
        .ok (s.countLines (bits e 53 52) (leafAddr e level va) n, leafAddr e level va)

/-- Bytes cut at page boundaries, at most n pieces. -/
def pieces : Nat → Nat → List Byte → List (Nat × List Byte)
  | 0, _, _ => []
  | n + 1, va, bs =>
    let m := 65536 - va % 65536
    if bs.isEmpty then [] else (va, bs.take m) :: pieces n (va + m) (bs.drop m)

/-- Writes of the rotunda, in order, until one faults: that fault is answered as F and its address. -/
def State.rotWrite (s : State) (root : Nat) : List (Nat × List Byte) → State × Option (Nat × Nat)
  | [] => (s, none)
  | (va, bs) :: ps =>
    match s.rotAccess root .store va bs.length with
    | .error f => (s, some (f, va))
    | .ok (s, pa) => ((s.settle (2 ^ 32) false pa bs.length).poke pa bs).rotWrite root ps

/-- n bytes as the rotunda reads them back from memory; none where a page of them cannot be read. -/
def State.rotRead (s : State) (root va n : Nat) : Option (List Byte) :=
  (pieces 64 va (List.replicate n 0)).foldl (fun (a : Option (List Byte)) p =>
    match a, s.rotAccess root .load p.1 with
    | some l, .ok (s, pa) => if poisoned s.poison pa p.2.length then none else some (l ++ peek s.mem pa p.2.length)
    | _, _ => none) (some [])

/-- What such a read leaves: A set in its leaves, and its lines counted (R280, R286). -/
def State.rotSeen (root : Nat) (s : State) (r : Nat × Nat) : State :=
  (pieces 64 r.1 (List.replicate r.2 0)).foldl (fun s p => match s.rotAccess root .load p.1 p.2.length with
    | .error _ => s
    | .ok (s, _) => s) s

/-! ### Windows and messages (R29 to R35, R412) -/

/-- CTX of a window. -/
def State.windowCtx (s : State) (n : Nat) : Nat := bits (s.getMgmt (0x100048 + 0x1000 * n)).toNat 31 16

/-- The window is enabled, and its context is registered (R339). -/
def State.windowOpen (s : State) (n : Nat) : Bool :=
  let c := s.windowCtx n
  pteBit (s.getMgmt (0x100048 + 0x1000 * n)).toNat 0 && decide (c < 1024) &&
    pteBit (s.getMgmt (0x210000 + 8 * c)).toNat 63

/-- Queue entries of a window that are taken (R37). -/
def State.taken (s : State) (n : Nat) : Nat :=
  (s.launches.filter (fun l => l.window == n && l.takesEntry)).length

/-- Cores in service (R40, R423). -/
def State.liveCores (s : State) : Nat := 512 - (s.cores.filter (fun c => c.spared)).length

/-- Gangs of a launch that an empty core takes. -/
def Launch.perCore (l : Launch) : Nat :=
  let share (total each : Nat) : Nat := if each = 0 then 4 else total / each
  min (min (4 / (l.hpg + 1)) (16 / (l.band * (l.hpg + 1)))) (min (share 512 l.gal) (min (share 64 l.stair) (share 8 l.tiles)))

/-- The message is well formed (R32). -/
def State.wellFormed (s : State) (l : Launch) : Bool :=
  decide (l.entry % 4 = 0) && decide (l.crec % 64 = 0) && (!l.waiten || decide (l.waddr % 8 = 0)) && decide (1 ≤ l.gangs) &&
  decide (1 ≤ l.band) && decide ((l.hpg + 1) * l.band ≤ 16) && decide (l.gal ≤ 512) &&
  decide (l.stair % (l.hpg + 1) = 0) && decide (l.stair ≤ 16 * (l.hpg + 1)) && decide (l.tiles ≤ 8) &&
  decide (l.field 511 448 = 0) && decide (l.field 415 407 = 0) && decide (l.field 399 394 = 0) &&
  decide (l.field 383 369 = 0) && decide (l.field 359 359 = 0) && decide (l.field 351 344 = 0) &&
  (!l.cosched || decide (l.gangs ≤ l.perCore * s.liveCores))

/-- A message as the launch it would be. -/
def Launch.ofMsg (window ctx : Nat) (msg : BitVec 512) : Launch :=
  { acc := 0, window, ctx, msg, st := .ready, stamp := 0, placed := 0, ended := 0, held := [], resumed := false, saveBase := none, root := none,
    killed := false, failed := false, hartEntries := [], lost := 0, engEntries := [] }

/-- A launch accepted (R30, R38, R45); path 3 reads for it what its bytes hold from this moment on (R206). -/
def State.accept (s : State) (l : Launch) : State :=
  let l := { l with acc := s.accepted, stamp := s.tick + 1, st := if l.waiten then .waiting else .ready }
  { s with accepted := s.accepted + 1, launches := s.launches ++ [l] }.post
    [if l.waiten then .waitCounterRead l.acc else .placementDecision]

/-- A master that a context's MASTER field allows (R339). -/
def State.masterOk (s : State) (ctx master : Nat) : Bool :=
  let m := bits (s.getMgmt (0x210000 + 8 * ctx)).toNat 50 48
  decide (m = 7) || (decide (m ≤ 5) && decide (m = master))

/-- The reason for which a MSG write is dropped, the first in the order of R412. -/
def State.dropReason (s : State) (window master : Nat) (whole : Bool) (l : Launch) : Option Nat :=
  if !whole then some 5
  else if !s.windowOpen window then some 2
  else if !s.masterOk l.ctx master then some 3
  else if !s.wellFormed l then some 1
  else if 1024 ≤ s.taken window then some 4
  else none

/-- The message of 64 bytes. -/
def msgOf (bytes : List Byte) : BitVec 512 := BitVec.ofNat 512 (leNat bytes)

/-- Bytes that a master writes to a window: to MSG, a launch or its drop (R29, R30, R412); the rest of the window is read-only or
reserved (R34). -/
def State.msgWrite (s : State) (window offset master : Nat) (bytes : List Byte) : State :=
  if 64 ≤ window ∨ 0x40 ≤ offset then s
  else
    let l := Launch.ofMsg window (s.windowCtx window) (msgOf bytes)
    match s.dropReason window master (decide (offset = 0) && decide (bytes.length = 64)) l with
    | none => s.accept l
    | some r => s.hall { kind := 0x10, flags := if master ≤ 3 then 2 else 0, ctx := l.ctx, code := r, count := window }

def execMsgWrite (window offset master : Nat) (bytes : List (BitVec 8)) (s : State) := event s (fun s =>
  s.msgWrite window offset master bytes)

/-- The lowest-numbered window that a `launch` of a context may use (R35). -/
def State.launchWindow (s : State) (ctx : Nat) : Option Nat :=
  (List.range 64).find? (fun n => s.windowCtx n == ctx && s.windowOpen n)

/-- A message of the current hart submitted, or the hart waiting with it for room in the queue (R144). -/
def State.submit (s : State) (rd : XReg) (va : Word) (l : Launch) : Exec :=
  if 1024 ≤ s.taken l.window then .wait (s.updHart (fun h => { h with run := .launching rd va l.msg l.window }))
  else .done ((s.accept l).updHart (fun h => { h.setX rd (BitVec.ofNat 64 s.accepted) with run := .running }))

/-- A message checked and submitted to a chosen window (R32, R382). -/
def State.checkSubmit (s : State) (h : Hart) (rd : XReg) (va : Word) (msg : BitVec 512) (window : Nat) : Exec :=
  let l := Launch.ofMsg window h.ctx msg
  if !s.wellFormed l then .trap s { code := 0x5001, tva := va } else s.submit rd va l

/-- The window that a waiting `launch` submits to: the one chosen, as long as it meets the conditions of R35, since what changes before
acceptance governs the message (R34); then another that does (DESIGN CHOICE, log 63). -/
def State.windowNow (s : State) (ctx n : Nat) : Option Nat :=
  if s.windowCtx n == ctx && s.windowOpen n then some n else s.launchWindow ctx

/-- `launch`: the message is read once, and what waits for room goes on with it. -/
def execLaunch (rd ra : XReg) (s : State) := onHart 4 s (fun h =>
  match h.run with
  | .launching rd va msg n =>
    let s := s.setHart { h with run := .running }
    match s.windowNow h.ctx n with
    | none => .trap s (illegalUse 3)
    | some n => s.checkSubmit h rd va msg n
  | _ =>
    let va := h.getX ra
    if va.toNat % 64 ≠ 0 then .trap s (illegalUse 2)
    else
      let r := s.release h.hid
      if !r.2 then .wait r.1
      else
        match r.1.launchWindow h.ctx with
        | none => .trap r.1 (illegalUse 3)
        | some n =>
          match r.1.load h false .scalarLoad va 64 with
          | .error f => r.1.memTrap h 1 f va 0 none none 64
          | .ok (s, bs) =>
            s.checkSubmit h rd va (msgOf bs) n)

/-! ### Wait counters (R38, R39, R416) -/

/-- One read of a wait counter; a failure answers F. -/
def State.readCounter (s : State) (l : Launch) : Except Nat (State × Nat) :=
  match s.rotAccess (s.rootOf l) .load l.waddr 8 with
  | .error f => .error f
  | .ok (s, pa) =>
    if !(decide (pa < 0xc000000000) || isTier2 pa) then .error 3
    else
      let s := (s.engineSettle none false false pa 8).1.settle (2 ^ 32) false pa 8
      if poisoned s.poison pa 8 then .error 5 else .ok (s, peekNat s.mem pa 8)

/-- The read, and what becomes of the launch. -/
def State.waitRead (s : State) (acc : Nat) : State :=
  match s.launchAt acc with
  | none => s
  | some l =>
    if l.st != .waiting then s
    else
      match s.readCounter l with
      | .error f =>
        let s := s.updLaunch acc (fun l => { l with failed := true, st := .running })
        (s.noteRotunda (s.rootOf l) f { kind := 0x17, ctx := l.ctx, va := l.waddr, code := 0x3010 + f }).post [.launchComplete acc]
      | .ok (s, v) =>
        if v < l.wval then s
        else (s.updLaunch acc (fun l => { l with st := .ready })).post [.placementDecision]

def execWaitCounterRead (acc : Nat) (s : State) := event s (fun s => s.waitRead acc)

/-! ### The fit test and the allocation (R40, R41) -/

/-- What is taken on a core. -/
structure Room where
  ctxs : List Nat
  slots : List Nat
  bands : List (Nat × Nat)
  gals : List (Nat × Nat)
  stair : Nat
  tiles : List Nat
  deriving DecidableEq, Repr

/-- What the gangs of a core hold. -/
def State.room (s : State) (q : Nat) : Room :=
  let gs := s.gangs.filter (fun g => g.core == q)
  { ctxs := (gs.map (fun g => g.ctxs)).flatten, slots := gs.map (fun g => g.slot)
    bands := (gs.map (fun g => g.bands.map (fun b => (b, g.rows)))).flatten
    gals := gs.map (fun g => (g.galBase, g.galSize))
    stair := (gs.map (fun g => g.stair)).sum
    tiles := (gs.map (fun g => g.tiles.map (fun t => t.phys))).flatten }

/-- The lowest start of a free run of `len` below `size` that is a multiple of `step`. -/
def freeRun (taken : List (Nat × Nat)) (step size len : Nat) : Option Nat :=
  ((List.range (size / step)).map (· * step)).find? (fun b => decide (b + len ≤ size) && !taken.any (fun t => overlaps b len t.1 t.2))

/-- The n lowest numbers below `size` that are not taken. -/
def lowest (taken : List Nat) (size n : Nat) : Option (List Nat) :=
  let free := (List.range size).filter (fun i => !taken.contains i)
  if n ≤ free.length then some (free.take n) else none

/-- Bands for n harts in hart-index order. -/
def bandRuns (rows : Nat) : Nat → List (Nat × Nat) → Option (List Nat)
  | 0, _ => some []
  | n + 1, taken =>
    match freeRun taken 16 256 rows with
    | none => none
    | some b => (bandRuns rows n ((b, rows) :: taken)).map (fun bs => b :: bs)

/-- A gang of a launch on a core, if it fits: its allocation, and the state of R46 of what a gang holds. -/
def State.fit (s : State) (l : Launch) (index q : Nat) : Option Gang :=
  let r := s.room q
  let rows := 16 * l.band
  if (s.coreAt q).spared || decide (64 < r.stair + l.stair) then none
  else
    match lowest r.ctxs 4 (l.hpg + 1), lowest r.slots 4 1, bandRuns rows (l.hpg + 1) r.bands,
      freeRun r.gals 4096 (2 ^ 21) (4096 * l.gal), lowest r.tiles 8 l.tiles with
    | some ctxs, some slots, some bands, some gal, some tiles =>
      some { core := q, slot := slots.headD 0, launch := l.acc, index, seq := (s.coreAt q).seq
             since := ((s.gangs.find? (fun g => g.core == q && g.launch == l.acc)).map (fun g => g.since)).getD (s.tick + 1), lreq := 8, gpri := 0
             live := BitVec.ofNat 4 (2 ^ (l.hpg + 1) - 1), arr := 0, phase := 0
             tiles := tiles.map (fun p => ⟨p, none, 0, 0, [], []⟩), galBase := gal, galSize := 4096 * l.gal
             ctxs, bands, rows, stair := l.stair, rr := 0, passed := [], root := s.ctxRoot l.ctx, due := false }
    | _, _, _, _, _ => none

/-- The first core from NEXT on that takes a gang (R42). -/
def State.findCore (s : State) (l : Launch) (index : Nat) : Option Gang :=
  (List.range 512).findSome? (fun k => s.fit l index ((s.next + k) % 512))

/-! ### The starting state of a hart (R46, R278, R370) -/

/-- Vector-table entry of a context, with TVEC's layout (R370, R371). -/
def State.tvec (s : State) (ctx word : Nat) : Word := s.getMgmt (0x250000 + 16 * ctx + 8 * word) &&& ~~~2#64

/-- What placement gives a hart by its place: number, slot, band, stair share. -/
def Hart.placed (h : Hart) (g : Gang) (idx : Nat) : Hart :=
  { h with hid := 512 * g.ctxs.getD idx 0 + g.core, slot := g.slot, idx, bh := g.rows, origin := g.bands.getD idx 0,
           share := 4096 * g.stair / g.ctxs.length }

/-- A hart at its start. -/
def State.startHart (s : State) (l : Launch) (g : Gang) (idx : Nat) : Hart :=
  let root (off : Nat) : Word := s.getMgmt off &&& 0xffffffff0000
  let args := [l.arg, g.index, idx, l.gangs, l.tag].map (BitVec.ofNat 64)
  Hart.placed { Hart.blank with
    pc := BitVec.ofNat 64 l.entry
    x := SMap.setAll [] 10 args
    km := BitVec.allOnes 256
    rc := 1
    csr := (((SMap.set [] 0xd10 (root (0x210000 + 8 * l.ctx) ||| BitVec.ofNat 64 (l.ctx * 2 ^ 48))).set 0xd11
      (root 0x280000)).set 0xd27 (s.tvec l.ctx 0)).set 0xf27 (s.tvec l.ctx 1) } g idx

/-! ### Placement decisions (R42 to R44, R377, R424) -/

/-- A placed gang's core: its sequence numbers move on, NEXT follows, and the dome's targets are recomputed (R50). -/
def State.settleGang (s : State) (g : Gang) (hs : List Hart) : State :=
  let s := { s with
    gangs := s.gangs ++ [g], harts := s.harts ++ hs, next := (g.core + 1) % 512
    tlb := s.tlb.filter (fun t => !hs.any (fun h => t.stream == some h.hid)) }
  (s.updCore g.core (fun c => { c with seq := c.seq + 1 })).regroup g.core

/-- The next unplaced gang of a launch placed, if it fits a core; its gallery allocation reads as zero (R273). -/
def State.placeNew (s : State) (l : Launch) : Option State :=
  match s.findCore l l.placed with
  | none => none
  | some g =>
    let root := s.ctxRoot l.ctx
    let s := (s.settleGang g ((List.range (l.hpg + 1)).map (s.startHart l g))).zeroRange (galleryLoc g.core g.galBase) g.galSize
    some (s.updLaunch l.acc (fun l => { l with placed := l.placed + 1, st := .placing, root := some root }))

end Sys2Proof.Machine
end

