-- ==== Sys2Proof/Machine/Preempt.lean ====
section
/-! DEFINITION. Pre-emption: the save area and its image, how a gang is saved, and how it comes back (R268, R377 to R380, R410,
R411). -/

namespace Sys2Proof.Machine

/-! ### The image of a hart (R379) -/

/-- The value of a hart's CSR as the save area holds it; `lg` holds PHYS and TGT of LGRANT. -/
def Hart.csrImage (h : Hart) (g : Gang) (lg : Word) (n : Nat) : Word :=
  match n with
  | 0xc11 => mdid h.die
  | 0xc41 => h.getCsr n + lg
  | 0xc08 => BitVec.ofNat 64 h.vl
  | 0xc09 => BitVec.ofNat 64 h.rc
  | 0xc0a => BitVec.ofNat 64 h.swi
  | 0xc10 => BitVec.ofNat 64 h.whereNat
  | 0xc40 => h.getCsr n + BitVec.ofNat 64 (g.gpri * 16 + g.lreq)
  | 0xc42 => g.lnd
  | 0xd2a => (h.tefcS.get ((h.getCsr 0xd29).toNat % 256)).setWidth 64
  | 0xf2a => (h.tefcM.get ((h.getCsr 0xf29).toNat % 256)).setWidth 64
  | n => h.getCsr n

/-- Values laid out one after the other, n of them from key `lo`, `size` bytes each. -/
def layOut {w : Nat} (size lo n : Nat) (f : Nat → BitVec w) : List Byte :=
  ((List.range n).map (fun i => leBytes size (f (lo + i)).toNat)).flatten

/-- The hart area: its parts by offset. -/
def Hart.parts (h : Hart) (g : Gang) (lg : Word) : List (Nat × List Byte) :=
  [(0, layOut 8 0 32 h.x.get), (0x100, leBytes 8 h.pc.toNat), (0x108, leBytes 8 h.priv.code), (0x110, leBytes 8 h.vl),
    (0x118, leBytes 8 h.rc), (0x120, leBytes 8 h.swi), (0x140, leBytes 32 h.km.toNat), (0x200, layOut 8 0 64 h.ap.get),
    (0x400, layOut 128 0 8 h.k.get), (0x800, layOut 4 0 256 h.efc.get),
    (0xc00, layOut 8 0xc00 256 (h.csrImage g lg)), (0x1400, layOut 8 0xd00 256 (h.csrImage g lg)),
    (0x1c00, layOut 8 0xf00 256 (h.csrImage g lg)), (0x2400, layOut 4 0 256 h.tefcS.get),
    (0x2800, layOut 4 0 256 h.tefcM.get), (0x3800, layOut 1 0 256 h.plates.get),
    (0x4000, layOut 4 0 4096 h.cl.get)]

/-- Offset of a hart's area and of its stair image in its gang's area. -/
def hartArea (idx : Nat) : Nat := 0x1000 + idx * 0x18000
def stairImage (idx : Nat) : Nat := 0x9000 + idx * 0x18000

/-- Base of a gang's save area. -/
def Launch.area (l : Launch) (index : Nat) : Nat := l.saveBase.getD 0 + index * 0x800000

/-! ### Saving (R378, R380, R411) -/

/-- What a save has come to: the state, and the fault that abandons it, with F and the address. -/
abbrev Save := State × Option (Nat × Nat)

/-- The next part of a save, unless it is abandoned. -/
def Save.then (a : Save) (f : State → Save) : Save :=
  match a.2 with
  | none => f a.1
  | some _ => a

/-- Bytes stored into the save area. -/
def saveBytes (root va : Nat) (bs : List Byte) (s : State) : Save := s.rotWrite root (pieces 64 va bs)

/-- A hart at its resume point: it waits no more, and its stores are performed, as by a fence over all of them (R293). -/
def State.halt (s : State) (hid : Nat) : State :=
  ((s.drain hid).markFence hid).updHartAt hid
    (fun h => { h.arrive with run := .running, fetched := [], unit := none, late := [], drain := [] })

/-- The stair's on-chip top written back, or put into the stair image where it has no spill area or the write-back faults, the stores
made before the fault being performed (R293, R378, R394). -/
def saveStair (root area : Nat) (hid : Nat) (s : State) : Save :=
  match s.hartAt hid with
  | none => (s, none)
  | some h =>
    let low := h.stair.low.toNat
    let image (s : State) : Save :=
      saveBytes root (area + stairImage h.idx) ((List.range (min (h.stp - low) 65536)).map (fun i => h.stair.bytes.get (low + i)))
        (s.updHartAt hid (fun g => { g with stair := { g.stair with inImage := true } }))
    if h.noSpill then image s
    else
      match s.stairSync h with
      | .error (t, _, _) => image (t.drain hid)
      | .ok t => (t.updHartAt hid (fun g => { g with stair := { g.stair with inImage := false } }), none)

/-- The rows below LEN of a dirty plate written into the band image; the plate is then CLEAN. -/
def savePlate (root area hid p : Nat) (s : State) : Save :=
  match s.hartAt hid with
  | none => (s, none)
  | some h =>
    let len := (h.plates.get p).toNat % 32
    let row (t : Nat) : Nat × List Byte :=
      (bandImage area h.idx (p / 16 * 16 + t) (p % 16 * 64),
       layOut 2 (cellKey (p / 16 * 16 + t, p % 16 * 64)) 64 h.plane.get)
    Save.then (s.rotWrite root ((List.range len).map row)) (fun s =>
      (s.updHartAt hid (fun h => { h with plates := h.plates.set p (BitVec.ofNat 8 (128 + len)) }), none))

/-- Every dirty plate of a hart saved. -/
def savePlates (root area hid : Nat) (s : State) : Save :=
  match s.hartAt hid with
  | none => (s, none)
  | some h => (h.plates.filter (fun p => p.2.toNat / 64 = 3)).foldl (fun a p => Save.then a (savePlate root area hid p.1)) (s, none)

/-- Plates after a complete save: what was CLEAN or DIRTY is ABSENT, and its cells are gone. -/
def Hart.unplated (h : Hart) : Hart :=
  { h with plane := [], plates := h.plates.map (fun p => if p.2.toNat / 64 = 0 then p else (p.1, BitVec.ofNat 8 (64 + p.2.toNat % 32))) }

/-- The hart's state saved. -/
def saveHart (root area : Nat) (g : Gang) (hid : Nat) (s : State) : Save :=
  match s.hartAt hid with
  | none => (s, none)
  | some h =>
    (h.unplated.parts g (BitVec.ofNat 64 (s.physGroups h * 16 + s.target h))).foldl (fun a p => Save.then a (saveBytes root (area + hartArea h.idx + p.1) p.2)) (s, none)

/-- The gallery allocation saved, after every outstanding store to it is performed. -/
def saveGallery (root area : Nat) (g : Gang) (s : State) : Save :=
  let loc := galleryLoc g.core g.galBase
  let s := s.harts.foldl (fun s h => s.performAll h.hid (fun x => overlaps loc g.galSize x.loc x.bytes.length)) s
  saveBytes root (area + 0x280000) (peek s.mem loc g.galSize) s

/-- A resident gang's save (R378, steps 1 to 4). The commands of its harts that can complete do so first (DESIGN CHOICE, log 31). -/
def saveGang (g : Gang) (s : State) : Save :=
  match s.launchAt g.launch with
  | none => (s, none)
  | some l =>
    let area := l.area g.index
    let root := g.root
    let hids := (s.hartsOf g).map (fun h => h.hid)
    let s := hids.foldl (fun s hid => (s.halt hid).completeAll hid) s
    let each (f : Nat → State → Save) (a : Save) : Save := hids.foldl (fun a hid => Save.then a (f hid)) a
    let a := each (saveStair root area) (s, none)
    let a := each (savePlates root area) a
    let a := each (saveHart root area g) a
    Save.then (Save.then a (saveGallery root area g)) (saveBytes root area (leBytes 8 g.lnd.toNat))

/-- A saved gang leaves its core and is held (R378, step 5). -/
def State.holdGang (s : State) (g : Gang) : State :=
  let hs := s.hartsOf g
  let hids := hs.map (fun h => h.hid)
  let loc := galleryLoc g.core g.galBase
  let gone : HeldGang := ⟨g.index, g, hs.map Hart.unplated, peek s.mem loc g.galSize,
    (s.poison.filter (fun u => overlaps loc g.galSize (32 * u.1) 32)).map (fun (u : Nat × Option Nat) => u.1 - loc / 32)⟩
  let s := { s with
    harts := s.harts.filter (fun h => !hids.contains h.hid)
    gangs := s.gangs.filter (fun f => !(f.core == g.core && f.slot == g.slot))
    engines := s.engines.map (fun (c : EngineCmd) => match c.hid with
      | some n => if hids.contains n then { c with hid := none } else c
      | none => c) }
  let s := s.updLaunch g.launch (fun l => { l with held := l.held ++ [gone] })
  (s.clearGang g).post [.placementDecision]

/-! ### Coming back (R56, R268, R377, R379) -/

/-- A field of the save area as it reads now, through the root of the gang's placement; where it cannot be read, as it was saved (DEDUCED, log 32). -/
def State.savedPart (s : State) (root base : Nat) (p : Nat × List Byte) : Nat × List Byte :=
  (p.1, (s.rotRead root (base + p.1) p.2.length).getD p.2)

/-- A map read back: n values of `size` bytes, for keys from `lo` on. -/
def mapOf (w size lo n : Nat) (bs : List Byte) : SMap w :=
  SMap.setAll [] lo ((List.range n).map (fun i => BitVec.ofNat w (leNat ((bs.drop (size * i)).take size))))

/-- CSRs of a hart that Hart.csr holds. -/
def heldCsrs : List Nat :=
  [0xc01, 0xc02, 0xc03, 0xc04, 0xc13, 0xc30, 0xc31, 0xc32, 0xc33, 0xc41, 0xc48, 0xc49, 0xc50, 0xd10, 0xd11, 0xd12,
    0xd20, 0xd21, 0xd22, 0xd23, 0xd24, 0xd25, 0xd26, 0xd27, 0xd28, 0xd29, 0xd2b, 0xd2c, 0xd30, 0xd31, 0xd32,
    0xf20, 0xf21, 0xf22, 0xf23, 0xf24, 0xf25, 0xf26, 0xf27, 0xf28, 0xf29, 0xf2b, 0xf2c]

/-- The bits of a CSR that hold fields: the rest read as zero (R12). -/
def heldMask (n : Nat) : Word :=
  match n with
  | 0xc13 | 0xd30 | 0xd31 => 0xffffffffffffffff
  | 0xc30 | 0xc31 | 0xc32 => ~~~0x1f
  | 0xc41 => 0xf00
  | 0xc48 => 0xffff
  | 0xc49 => ~~~2
  | 0xd2c | 0xf2c => 3
  | 0xd32 => 0xff
  | n => csrMask n

/-- The hart's CSRs read back; LCTL's HPRI is all that a hart holds of LCTL. -/
def csrsOf (c d f : List Byte) : SMap 64 :=
  let word (n : Nat) : Word :=
    BitVec.ofNat 64 (leNat (((if n / 256 = 0xc then c else if n / 256 = 0xd then d else f).drop (8 * (n % 256))).take 8))
  heldCsrs.foldl (fun m n => SMap.set m n (word n &&& heldMask n)) (SMap.set [] 0xc40 (word 0xc40 &&& 0xc0))

/-- The stair read back: what its image holds is on chip again (R394). -/
def State.savedStair (s : State) (root area : Nat) (h : Hart) : Stair :=
  if h.stair.inImage then
    let low := h.stair.low.toNat
    let n := min (h.stp - low) 65536
    let old := (List.range n).map (fun i => h.stair.bytes.get (low + i))
    { h.stair with bytes := SMap.setAll [] low ((s.savedPart root (area + stairImage h.idx) (0, old)).2), inImage := false }
  else ⟨h.getCsr 0xc32, [], h.stair.marks, 0, false⟩

/-- A held hart as its save area gives it (R379). Entries of the Aperture Table that software has changed there come back as they are read,
their bits 12:0 and their fields unchecked (DESIGN CHOICE, log 75). -/
def State.savedHart (s : State) (area : Nat) (g : Gang) (h : Hart) : Hart :=
  let ps := (h.parts g 0).map (s.savedPart g.root (area + hartArea h.idx))
  let at' (off : Nat) : List Byte := (find ps off).getD []
  let num (off : Nat) : Nat := leNat (at' off)
  let h := { h with
    x := SMap.setAll [] 1 ((List.range 31).map (fun i => BitVec.ofNat 64 (leNat (((at' 0).drop (8 * i + 8)).take 8))))
    pc := BitVec.ofNat 64 (num 0x100) &&& ~~~3
    priv := .ofCode (num 0x108)
    vl := min (num 0x110) 4096
    rc := min (num 0x118) g.rows
    swi := num 0x120 % 2 ^ 20
    km := BitVec.ofNat 256 (num 0x140)
    ap := mapOf 64 8 0 64 (at' 0x200)
    k := mapOf 1024 128 1 7 ((at' 0x400).drop 128)
    efc := mapOf 32 4 0 256 (at' 0x800)
    csr := csrsOf (at' 0xc00) (at' 0x1400) (at' 0x1c00)
    tefcS := mapOf 32 4 0 256 (at' 0x2400)
    tefcM := mapOf 32 4 0 256 (at' 0x2800)
    plates := mapOf 8 1 0 256 (at' 0x3800)
    cl := mapOf 32 4 0 4096 (at' 0x4000) }
  { h with stair := s.savedStair g.root area h }

/-- A hart of a gang that holds a tile restarts at its label, if it has one (R268). -/
def Hart.restart (h : Hart) (tiles : Bool) : Hart :=
  let t := h.getCsr 0xc49
  if tiles && t.getLsbD 0 then { h with pc := t &&& ~~~3, swi := 0 } else h

/-- A gang as it comes back: its place is new, its tiles are empty, its landing register is as it was saved. -/
def State.savedGang (s : State) (area : Nat) (old new : Gang) : Gang :=
  let lnd := leNat (s.savedPart old.root area (0, leBytes 8 old.lnd.toNat)).2
  { new with live := BitVec.ofNat 4 (bits lnd 23 20), arr := BitVec.ofNat 4 (bits lnd 19 16), phase := BitVec.ofNat 16 lnd
             lreq := old.lreq, gpri := old.gpri, rr := old.rr, root := old.root }

/-- What is read of a held gang's save area: places and lengths. -/
def HeldGang.reads (hg : HeldGang) (area : Nat) : List (Nat × Nat) :=
  hg.harts.flatMap (fun h => (h.parts hg.gang 0).map (fun p => (area + hartArea h.idx + p.1, p.2.length)) ++
    (if h.stair.inImage then [(area + stairImage h.idx, min (h.stp - h.stair.low.toNat) 65536)] else [])) ++
  [(area, 8), (area + 0x280000, hg.gang.galSize)]

/-- A held gang placed, if it fits a core. -/
def State.placeHeld (s : State) (l : Launch) (hg : HeldGang) : Option State :=
  match s.findCore l hg.index with
  | none => none
  | some new =>
    let area := l.area hg.index
    let g := s.savedGang area hg.gang new
    let hs := hg.harts.map (fun h => ((s.savedHart area hg.gang h).placed g h.idx).restart (l.tiles != 0))
    let gal := (s.savedPart hg.gang.root area (0x280000, hg.gallery)).2
    let s := (hg.reads area).foldl (State.rotSeen hg.gang.root) s
    let loc := galleryLoc g.core g.galBase
    let s := (s.settleGang g hs).poke loc gal
    let s := { s with poison := hg.bad.map (fun u => (loc / 32 + u, none)) ++ s.poison.filter (fun (u : Nat × Option Nat) => !overlaps loc g.galSize (32 * u.1) 32), engines := s.engines.map (fun (c : EngineCmd) =>
      if c.launch == l.acc && c.gang == hg.index then
        { c with hid := (hs.find? (fun (h : Hart) => h.idx == c.idx)).map (fun (h : Hart) => h.hid) } else c) }
    some (s.updLaunch l.acc (fun l =>
      { l with held := l.held.filter (fun g => g.index != hg.index), st := .placing }))

end Sys2Proof.Machine
end

