-- ==== Sys2Proof/Machine/Placement.lean ====
section
/-! DEFINITION. Placement decisions (R42 to R44, R377, R424), completion records (R57, R58, R415, R417), and the owner's PREEMPT, RESUME
and KILL (R377, R414, R418, R422). -/

namespace Sys2Proof.Machine

/-! ### The chosen launch (R43, R377) -/

/-- A launch that runs no gang any more, though its record is still to be written: killed, failed or removed (R414, R416, R424). -/
def Launch.over (l : Launch) : Bool := l.killed || l.failed

/-- A launch has gangs to place. -/
def Launch.wantsPlace (l : Launch) : Bool :=
  !l.over && (l.st == .ready || l.st == .placing) && (!l.held.isEmpty || decide (l.placed < l.gangs))

/-- `a` is chosen before `b`: by priority, then a launch that brings held gangs back, then by age. An older launch that stops
waiting while a younger co-scheduled one of its priority does not fit goes before it, as R56 item 5 says, though R43 says that
the latter stays chosen (DESIGN CHOICE, log 53). -/
def Launch.before (a b : Launch) : Bool :=
  decide (b.prio < a.prio) ||
  (decide (a.prio = b.prio) &&
    ((!a.held.isEmpty && b.held.isEmpty) || (a.held.isEmpty == b.held.isEmpty && decide (a.acc ≤ b.acc))))

/-- The chosen launch. -/
def State.chosen (s : State) : Option Launch :=
  ((s.launches.filter Launch.wantsPlace).foldr (insertBy Launch.before) []).head?

/-! ### Placing (R42, R43) -/

/-- The launch's next gang placed: held gangs first, in gang-index order. -/
def State.placeNext (s : State) (l : Launch) : Option State :=
  match (l.held.foldr (insertBy (fun a b => decide (a.index ≤ b.index))) []).head? with
  | some hg => s.placeHeld l hg
  | none => s.placeNew l

/-- Up to n gangs of a launch placed, all of them or none. -/
def State.placeAll (acc : Nat) : Nat → State → Option State
  | 0, s => some s
  | n + 1, s =>
    match s.launchAt acc with
    | none => some s
    | some l =>
      if !l.wantsPlace then some s
      else
        match s.placeNext l with
        | none => none
        | some s => State.placeAll acc n s

/-- A launch whose last gang is placed runs (R45). -/
def State.settleLaunch (s : State) (acc : Nat) : State :=
  let s := s.updLaunch acc (fun l =>
    if l.st == .placing && l.held.isEmpty && decide (l.placed = l.gangs) then { l with st := .running, resumed := false } else l)
  if s.launchDone acc then s.post [.launchComplete acc] else s

/-- Gangs that a launch has to place. -/
def Launch.toPlace (l : Launch) : Nat := l.held.length + (l.gangs - l.placed)

/-- A co-scheduled launch that no longer fits the cores in service leaves (R424). -/
def State.evict (s : State) (l : Launch) : State :=
  let s := s.updLaunch l.acc (fun l => { l with failed := true, held := [], st := .running })
  (s.hall { kind := 0x19, ctx := l.ctx, count := l.gangs }).post [.launchComplete l.acc, .placementDecision]

/-- One decision: the chosen launch places its next gang, a co-scheduled one all its gangs, if they fit. -/
def State.decision (s : State) : State :=
  match s.chosen with
  | none => s
  | some l =>
    if l.cosched && decide (l.perCore * s.liveCores < l.toPlace) then s.evict l
    else
      match (if l.cosched then State.placeAll l.acc 2048 s else s.placeNext l) with
      | none => s
      | some s => (s.settleLaunch l.acc).post [.placementDecision]

def execPlacementDecision (s : State) := event s State.decision

/-! ### Completion records (R57, R58, R415, R417) -/

/-- The 32 bytes of a hart entry (R58). -/
def HartEntry.bytes (e : HartEntry) : List Byte :=
  leBytes 8 e.tpc.toNat ++ leBytes 4 e.gang ++ leBytes 2 e.code ++ leBytes 1 (e.idx % 4) ++ [0] ++ leBytes 4 e.tswi ++
    leBytes 4 (e.loc % 8192) ++ leBytes 8 e.tva.toNat

/-- STATE of a record (R415). -/
def Launch.endState (l : Launch) : Nat :=
  if l.killed then 3
  else if l.failed || !l.hartEntries.isEmpty || !l.engEntries.isEmpty || l.lost != 0 then 2
  else 1

/-- The 64 bytes of the header. -/
def Launch.header (l : Launch) : List Byte :=
  leBytes 8 (l.lost * 2 ^ 32 + l.engEntries.length * 2 ^ 24 + l.hartEntries.length * 2 ^ 16 + l.endState) ++
    leBytes 4 l.ended ++ leBytes 4 l.placed ++ leBytes 4 l.tag ++ List.replicate 44 0

/-- The parts of a record in the order written, as 32-byte units but for the header, which comes last and whole. -/
def Launch.record (l : Launch) : List (Nat × List Byte) :=
  let harts := (List.range l.hartEntries.length).map (fun j =>
    (l.crec + 0x40 + 32 * j, ((l.hartEntries[j]?).map HartEntry.bytes).getD []))
  let engs := ((List.range l.engEntries.length).map (fun m =>
    let bs := l.engEntries.getD m []
    [(l.crec + 0x820 + 64 * m, bs.take 32), (l.crec + 0x840 + 64 * m, bs.drop 32)])).flatten
  harts ++ engs ++ [(l.crec, l.header)]

/-- The first part that has no valid writable translation: F and the address. -/
def State.recordFault (s : State) (l : Launch) : Option (Nat × Nat) :=
  l.record.findSome? (fun p => match s.rotAccess (s.rootOf l) .store p.1 with
    | .error f => some (f, p.1)
    | .ok _ => none)

/-- The record written, or its kind-0x18 record posted, with what a moving page adds (R402); the launch is complete either way. -/
def State.completeLaunch (s : State) (acc : Nat) : State :=
  match s.launchAt acc with
  | none => s
  | some l =>
    if !s.launchDone acc then s
    else
      let s := match s.recordFault l with
        | some (f, va) => s.noteRotunda (s.rootOf l) f { kind := 0x18, ctx := l.ctx, va, code := 0x3020 + f, count := l.endState }
        | none => (s.rotWrite (s.rootOf l) l.record).1
      s.updLaunch acc (fun l => { l with st := .complete })

def execLaunchComplete (acc : Nat) (s : State) := event s (fun s => s.completeLaunch acc)

/-! ### PREEMPT and RESUME, and the saves they ask for (R377, R378, R411) -/

/-- Number by which GANG_SAVE names a resident gang: 512 × dome slot + core. -/
def Gang.number (g : Gang) : Nat := 512 * g.slot + g.core

/-- A launch held, and the saves of its resident gangs due. -/
def State.preemptLaunch (s : State) (acc : Nat) : State :=
  match s.launchAt acc with
  | none => s
  | some l =>
    if l.over || (l.st != .placing && l.st != .running) then s
    else
      let base := (s.getMgmt 0x230000).toNat / 2 ^ 23 * 2 ^ 23
      let s := s.updLaunch acc (fun l => { l with st := .held, resumed := false, saveBase := some (l.saveBase.getD base) })
      let s := { s with gangs := s.gangs.map (fun (g : Gang) => if g.launch == acc then { g with due := true } else g) }
      s.post ((s.gangs.filter (fun (g : Gang) => g.launch == acc)).map (fun g => .gangSave g.number))

/-- A held launch's gangs made placeable. -/
def State.resumeLaunch (s : State) (acc : Nat) : State :=
  match s.launchAt acc with
  | none => s
  | some l =>
    if l.over || l.st != .held then s
    else ((s.updLaunch acc (fun l => { l with st := .placing, resumed := true })).settleLaunch acc).post [.placementDecision]

/-! ### KILL (R414, R418) -/

/-- A command of a killed launch: its chunks in flight complete, and it with them if they were its last and it is no collective. -/
def State.lastWork (s : State) (id : Nat) : State :=
  match s.engine? id with
  | none => s
  | some c =>
    if c.group?.isSome then ((s.setEngine { c with token := true }).lastChunks c).1
    else
      let r := s.lastChunks c
      if r.2 then r.1.completeEngine id else r.1

/-- The end of a command of a killed launch: a collective sends its tokens; any other that is not complete ends ABORTED. -/
def State.killEngine (s : State) (id : Nat) : State :=
  match s.engine? id with
  | none => s
  | some c =>
    match c.group? with
    | some g => s.abortMember g c
    | none => s.endEngine c 3

/-- A resident gang stopped without save and without hart entries. -/
def State.killGang (s : State) (g : Gang) : State :=
  let hids := (s.hartsOf g).map (fun h => h.hid)
  let s := hids.foldl (fun s hid => s.drain hid) s
  let s := { s with
    harts := s.harts.filter (fun h => !hids.contains h.hid)
    gangs := s.gangs.filter (fun f => !(f.core == g.core && f.slot == g.slot))
    engines := s.engines.map (fun (c : EngineCmd) => match c.hid with
      | some n => if hids.contains n then { c with hid := none } else c
      | none => c) }
  (s.updLaunch g.launch (fun l => { l with ended := l.ended + 1 })).clearGang g

/-- A launch killed (R414): no command of it begins a chunk once another has ended. -/
def State.killLaunch (s : State) (acc : Nat) : State :=
  match s.launchAt acc with
  | none => s
  | some l =>
    if l.st == .complete then s
    else
      let s := s.updLaunch acc (fun l => { l with killed := true, held := [], st := .running })
      let s := (s.gangs.filter (fun g => g.launch == acc)).foldl (fun s g => s.killGang g) s
      let ids := (s.engines.filter (fun c => c.launch == acc)).map (fun c => c.id)
      (ids.foldl State.killEngine (ids.foldl State.lastWork s)).post [.launchComplete acc, .placementDecision]

/-! ### The owner's writes in their order (R377, R414) -/

/-- A held launch of which no gang is held, due or left to place runs on, as if no PREEMPT had named it (R411). -/
def State.runOn (s : State) (acc : Nat) : State :=
  let s := s.updLaunch acc (fun l =>
    if l.st == .held && l.held.isEmpty && decide (l.placed = l.gangs) && !s.gangs.any (fun g => g.launch == acc && g.due) then
      { l with st := .running }
    else l)
  if s.launchDone acc then s.post [.launchComplete acc] else s

/-- Held launches that no PREEMPT holds any more run on. -/
def State.runOnAll (s : State) : State := (s.launches.map (fun l => l.acc)).foldl State.runOn s

/-- Waiting writes of PREEMPT, RESUME and KILL handled in arrival order: a KILL, which ends a save of its launch, at once, the others
when no save is in progress. -/
def State.rotunda : Nat → State → State
  | 0, s => s
  | n + 1, s =>
    match s.rotQueue with
    | [] => s
    | (w, acc) :: q =>
      if w != .kill && s.saving then s
      else
        let s := { s with rotQueue := q }
        State.rotunda n (match w with
          | .preempt => s.preemptLaunch acc
          | .resume => s.resumeLaunch acc
          | .kill => (s.killLaunch acc).runOnAll)

/-- A write of PREEMPT, RESUME or KILL: one save at a time, in arrival order. -/
def State.rotundaWrite (s : State) (w : RotWrite) (acc : Nat) : State :=
  { s with rotQueue := s.rotQueue ++ [(w, acc)] }.rotunda (s.rotQueue.length + 1)

def execPreempt (master acc : Nat) (s : State) := event s (fun s => s.ownerWrite master 0x230008 (fun s => s.rotundaWrite .preempt acc))

def execResume (master acc : Nat) (s : State) := event s (fun s => s.ownerWrite master 0x230010 (fun s => s.rotundaWrite .resume acc))

def execKill (master acc : Nat) (s : State) := event s (fun s => s.ownerWrite master 0x230020 (fun s => s.rotundaWrite .kill acc))

/-- A save has ended, or its gang is gone: what has waited for it goes on. -/
def State.saved (s : State) : State := s.runOnAll.rotunda (s.rotQueue.length + 1)

/-- The gangs that stay when a save is abandoned: the one itself, or, of a co-scheduled launch, all, and it is PLACING or RUNNING
again (R411). -/
def State.abandon (s : State) (l : Launch) (gs : List Gang) (f : Nat × Nat) : State :=
  let at' := (gs.find? (fun g => decide (l.area g.index ≤ f.2) && decide (f.2 < l.area g.index + 0x800000))).map (fun g => g.root)
  let s := s.noteRotunda (at'.getD (s.rootOf l)) f.1 { kind := 5, ctx := l.ctx, va := f.2, code := 0x3020 + f.1 }
  let s := { s with gangs := s.gangs.map (fun (g : Gang) =>
    if gs.any (fun (f : Gang) => f.core == g.core && f.slot == g.slot) then { g with due := false } else g) }
  if l.cosched then
    s.updLaunch l.acc (fun l => { l with st := if l.placed < l.gangs then .placing else .running })
  else s

/-- The save of a gang that is due; of a co-scheduled launch, of all its resident gangs, which leave together or not
at all (R378, R411). -/
def State.gangSave (s : State) (n : Nat) : State :=
  match s.gangs.find? (fun g => g.number == n && g.due) with
  | none => s.saved
  | some g =>
    match s.launchAt g.launch with
    | none => s
    | some l =>
      let gs : List Gang := if l.cosched then s.gangs.filter (fun f => f.launch == l.acc) else [g]
      let r := gs.foldl (fun (a : Save) g => Save.then a (saveGang g)) (s, none)
      let s := match r.2 with
        | some f => r.1.abandon l gs f
        | none =>
          gs.foldl (fun (s : State) (g : Gang) => match s.gangAt g.core g.slot with
            | some g => s.holdGang g
            | none => s) r.1
      s.saved

def execGangSave (gang : Nat) (s : State) := event s (fun s => s.gangSave gang)

end Sys2Proof.Machine
end

