-- ==== Sys2Proof/Machine/Shake.lean ====
section
/-! DEFINITION. SHAKE256 with 64 bytes of output, by which images are checked and measured (R343, R346). The spec names the function
alone; its tables are derived here from the rules that define them (PRESUMED, log 72). -/

namespace Sys2Proof.Machine

/-- The lane in column x and row y, both modulo 5. -/
def laneAt (a : List (BitVec 64)) (x y : Nat) : BitVec 64 := a.getD (x % 5 + 5 * (y % 5)) 0

/-- A state given lane by lane. -/
def eachLane (f : Nat → Nat → BitVec 64) : List (BitVec 64) :=
  (List.range 5).flatMap (fun y => (List.range 5).map (fun x => f x y))

/-- The walk through all lanes but the first, n steps of it from a lane. -/
def laneWalk : Nat → Nat × Nat → List (Nat × Nat)
  | 0, _ => []
  | n + 1, p => p :: laneWalk n (p.2, (2 * p.1 + 3 * p.2) % 5)

/-- Where a lane's new content comes from, and by how many places it is turned: the lane before it on the walk, by the triangular
number of that one's place. -/
def laneSource (x y : Nat) : Nat × Nat × Nat :=
  let walk := laneWalk 24 (1, 0)
  if x = 0 ∧ y = 0 then (0, 0, 0)
  else
    let t := (walk.findIdx (fun p => p == (x, y)) + 23) % 24
    let p := walk.getD t (0, 0)
    (p.1, p.2, (t + 1) * (t + 2) / 2 % 64)

/-- The powers of x modulo x^8 + x^6 + x^5 + x^4 + 1. -/
def shiftPower : Nat → Nat
  | 0 => 1
  | t + 1 =>
    let v := 2 * shiftPower t
    if 256 ≤ v then v ^^^ 0x171 else v

/-- The constant of a round: bit 2^j − 1 is the constant term of power j + 7 × round. -/
def roundConstant (round : Nat) : BitVec 64 :=
  (List.range 7).foldl (fun v j => if shiftPower (j + 7 * round) % 2 = 1 then v ||| 1#64 <<< (2 ^ j - 1) else v) 0

/-- One round: column parities spread, lanes turned and moved, rows combined, and the round's constant put into the first lane. -/
def mixRound (a : List (BitVec 64)) (round : Nat) : List (BitVec 64) :=
  let parity := (List.range 5).map (fun x => (List.range 5).foldl (fun v y => v ^^^ laneAt a x y) 0)
  let side (x : Nat) : BitVec 64 := parity.getD (x % 5) 0
  let evened := eachLane (fun x y => laneAt a x y ^^^ side (x + 4) ^^^ (side (x + 1)).rotateLeft 1)
  let moved := eachLane (fun x y =>
    let p := laneSource x y
    (laneAt evened p.1 p.2.1).rotateLeft p.2.2)
  eachLane (fun x y =>
    let v := laneAt moved x y ^^^ (laneAt moved (x + 2) y &&& ~~~laneAt moved (x + 1) y)
    if x + y = 0 then v ^^^ roundConstant round else v)

/-- All 24 rounds. -/
def mixLanes (a : List (BitVec 64)) : List (BitVec 64) := (List.range 24).foldl mixRound a

/-- The lane that bytes make, the first lowest. -/
def laneOfBytes (bs : List Byte) : BitVec 64 := BitVec.ofNat 64 (leNat bs)

/-- Blocks of 136 bytes taken in, n of them. -/
def takeIn : Nat → List Byte → List (BitVec 64) → List (BitVec 64)
  | 0, _, a => a
  | n + 1, bs, a =>
    takeIn n (bs.drop 136) (mixLanes (eachLane (fun x y =>
      if 5 * y + x < 17 then laneAt a x y ^^^ laneOfBytes ((bs.drop (40 * y + 8 * x)).take 8) else laneAt a x y)))

/-- A message filled up to whole blocks: the suffix 1111 and a one right after it, and a one in the last place. -/
def fillUp (bs : List Byte) : List Byte :=
  let bs := bs ++ [0x1f]
  let bs := bs ++ List.replicate ((136 - bs.length % 136) % 136) 0
  bs.dropLast ++ [bs.getLast?.getD 0 ||| 0x80]

/-- The first 64 bytes of output as a number, the first byte lowest. -/
def shake256 (bs : List Byte) : BitVec 512 :=
  let p := fillUp bs
  let a := takeIn (p.length / 136) p (List.replicate 25 0)
  BitVec.ofNat 512 ((a.take 8).foldr (fun l v => v * 2 ^ 64 + l.toNat) 0)

end Sys2Proof.Machine
end

