-- ==== Sys2Proof/Machine/Host.lean ====
section
/-! DEFINITION. What the host and the masters do: register writes (R34, R133, R335 to R339, R377, R400, R422), ownership (R336,
R337), host accesses (R20, R286, R334), reset and power (R11, R80, R343, R424), and the DOE mailbox (R344 to R346). -/

namespace Sys2Proof.Machine

/-! ### Owner-written registers (R338) -/

/-- What a write stores in an owner-written register that only holds its fields; none where the offset is no such
register. -/
def ownerStored (off : Nat) (v : Word) : Option Word :=
  let n := v.toNat
  if off % 8 ≠ 0 then none
  else if 0x100000 ≤ off ∧ off < 0x140000 then (if off % 0x1000 = 0x48 then some (v &&& 0xffff0001) else none)
  else if off = 0x200018 then some (if n % 2 ^ 16 = 0 then 1 else v &&& 0xffff)
  else if 0x210000 ≤ off ∧ off < 0x212000 then some (v &&& 0x8007ffffffff0000)
  else if 0x220000 ≤ off ∧ off < 0x221000 then some (v &&& (if off % 16 = 0 then 0x8ffffff0ff00ffff else 0xffff))
  else if off = 0x230000 then some (v &&& ~~~0x7fffff#64)
  else if 0x250000 ≤ off ∧ off < 0x254000 then some (v &&& ~~~2#64)
  else if 0x260000 ≤ off ∧ off < 0x2600c0 then
    match off % 0x20 with
    | 0 => some (v &&& 0xfffffffff001)
    | 8 => some (BitVec.ofNat 64 (max 6 (min 16 (n % 32))))
    | 0x18 => some (v &&& 0xffffffff)
    | _ => none
  else if off = 0x280000 then some (v &&& 0xffffffff0000)
  else if off = 0x300000 then some (if n % 2 ^ 16 = 0 then (v &&& 0x10000) ||| 1 else v &&& 0x1ffff)
  else if 0x400000 ≤ off ∧ off < 0x408000 then
    match off % 0x1000 with
    | 0 => some (BitVec.ofNat 64 (max 1 (bits n 13 8) * 256 + max 1 (min 64 (n % 128))))
    | 8 => some (BitVec.ofNat 64 (((List.range 16).map (fun j =>
        let r := bits n (3 * j + 2) (3 * j)
        (if r = 0 then 1 else if 4 < r then 4 else r) * 2 ^ (3 * j))).sum))
    | _ => none
  else none

def execLqcfgWrite (window master : Nat) (v : BitVec 64) (s : State) := event s (fun s =>
  let off := 0x100048 + 0x1000 * window
  if 64 ≤ window then s else s.ownerWrite master off (fun s => s.setMgmt off (v &&& 0xffff0001)))

/-! ### Ownership (R336, R337) -/

/-- OWNST of its fields. -/
def ownst (ballot epoch : Nat) (isOpen : Bool) (owner : Option Nat) : Word :=
  BitVec.ofNat 64 (ballot % 2 ^ 32 * 2 ^ 32 + epoch % 2 ^ 16 * 2 ^ 16 + (if isOpen then 512 else 0) +
    (match owner with
     | none => 0
     | some m => 256 + m % 8))

/-- BALLOT and EPOCH of OWNST. -/
def State.ballot (s : State) : Nat := (s.getMgmt 0x200000).toNat / 2 ^ 32
def State.epoch (s : State) : Nat := bits (s.getMgmt 0x200000).toNat 31 16

/-- A claim: it opens the window or contends for it. -/
def State.claim (s : State) (master ballot : Nat) : State :=
  if ballot = 0 ∨ s.owner?.isSome then s.ignored master 0x200008
  else
    let s := s.setMgmt 0x200000 (ownst s.ballot s.epoch true none)
    let wins := match s.candidate with
      | none => true
      | some (_, b) => decide (b < ballot)
    if wins then { s with candidate := some (master, ballot) } else s

def execClaimWrite (master : Nat) (v : BitVec 64) (s : State) := event s (fun s => s.claim master (v.toNat % 2 ^ 32))

/-- The window closes: the candidate owns the module. -/
def State.closeWindow (s : State) : State :=
  match s.candidate with
  | none => s
  | some (m, b) => { s.setMgmt 0x200000 (ownst b (s.epoch + 1) false (some m)) with candidate := none }

def execClaimWindowClose (s : State) := event s State.closeWindow

/-- Ownership released. -/
def State.disown (s : State) : State := s.setMgmt 0x200000 (ownst 0 (s.epoch + 1) false none)

def execHandoverRelease (master : Nat) (s : State) := event s (fun s => s.ownerWrite master 0x200010 State.disown)

/-- Ownership passed on. -/
def State.transferTo (s : State) (master dest : Nat) : State :=
  if dest = master ∨ 5 < dest then s.ignored master 0x200010
  else s.setMgmt 0x200000 (ownst s.ballot (s.epoch + 1) false (some dest))

def execHandoverTransfer (master dest : Nat) (s : State) := event s (fun s =>
  s.ownerWrite master 0x200010 (fun s => s.transferTo master dest))

/-- The owner's link or port is gone. -/
def State.ownerLost (s : State) (master : Nat) : State := if s.owner? = some master ∧ master ≤ 4 then s.disown else s

def execOwnerLinkDown (master : Nat) (s : State) := event s (fun s => s.ownerLost master)

/-! ### Any register write (R133, R335) -/

/-- A management write by a master: a register with a row of its own has that row's effect; read-only registers and
unoccupied offsets take none (R422). -/
def State.mgmtWrite (s : State) (master off : Nat) (v : Word) : State :=
  match off with
  | 0x200008 => s.claim master (v.toNat % 2 ^ 32)
  | 0x200010 => s.ownerWrite master off (fun s => if pteBit v.toNat 7 then s.disown else s.transferTo master (v.toNat % 8))
  | 0x230008 => s.ownerWrite master off (fun s => s.rotundaWrite .preempt v.toNat)
  | 0x230010 => s.ownerWrite master off (fun s => s.rotundaWrite .resume v.toNat)
  | 0x230020 => s.ownerWrite master off (fun s => s.rotundaWrite .kill v.toNat)
  | 0x240000 => s.post [.intpostWrite master v]
  | _ =>
    if 0x100000 ≤ off ∧ off < 0x140000 ∧ off % 0x1000 < 0x40 then
      s.msgWrite ((off - 0x100000) / 0x1000) (off % 0x1000) master (leBytes 8 v.toNat)
    else
      match ownerStored off v with
      | none => s
      | some w => s.ownerWrite master off (fun s => s.setMgmt off w)

def execRegisterWrite (target : RegTarget) (v : BitVec 64) (s : State) : Host.Outcome State Fault Refusal :=
  match target with
  | .csr n => csrPut n v s
  | .mgmt master off => event s (fun s => s.mgmtWrite master off v)

/-! ### Host accesses (R20, R286, R403) -/

/-- [a, a + n) lies in the module's main memory or in one port's second tier. -/
def deviceRange (a n : Nat) : Bool :=
  decide (a + n ≤ 0xc000000000) ||
    (isTier2 a && decide (a + n ≤ 0x180000000000) && decide (n ≤ 2 ^ 40))

/-- The frame, among those of [a, a + n), of a MIG = 2 page with V = 0, which no valid leaf maps: a host access to it meets an access
error (R286, R402). -/
def State.hostBars (s : State) (a n : Nat) : Option Nat :=
  ((List.range ((a % 65536 + n + 65535) / 65536)).map (fun i => a / 65536 + i)).find? (fun f =>
    let es := s.leavesOf f
    es.any (fun e => !pteBit e 63 && decide (bits e 53 52 = 2)) && !es.any (fun e => pteBit e 63))

/-- The lines of a host access counted against each frame whose leaf's policy counts them, as far as they are transferred (R286); one that
promotes asks for a place in the device, as a request of its side (DESIGN CHOICE, log 20). -/
def State.hostCounts (s : State) (a n : Nat) : State :=
  if s.arbiterOn then
    (List.range ((a % 65536 + n + 65535) / 65536)).foldl (fun s i =>
      let f := a / 65536 + i
      let lo := max a (f * 65536)
      let hi := min (a + n) ((f + 1) * 65536)
      match ((s.leavesOf f).filter (fun e => pteBit e 63)).find? (fun e => counted (bits e 53 52) f true) with
      | none => s
      | some e =>
        s.countMove f (decide (bits e 53 52 = 2)) (Config.lineMoves s.tick f (s.trackOf f).count % ((hi + 127) / 128 - lo / 128 + 1))) s
  else s

/-- What a master reads at BAR0 offset `off` (R335): n bytes of the management registers. -/
def State.barRead (s : State) (size base off n : Nat) : State :=
  { s with hostData := if off + n ≤ size then some (s.devRead (base + off) n) else none }

/-- An access by the host to device memory; outside it, on a page that is moving, and on poisoned bytes read, it meets an access
error. A read through a BAR is open to every master. -/
def State.hostOp (s : State) (a : Nat) (op : HostOp) : State :=
  let go (n : Nat) (store : Bool) (f : State → State) : State :=
    if !deviceRange a n then { s with hostData := none }
    else
      match s.hostBars a n with
      | some frame =>
        { s.noteMigration { kind := 1, flags := 2 } frame true with hostData := none }
      | none => f (((s.engineSettle none false store a n).1.settle (2 ^ 32) false a n).hostCounts a n)
  match op with
  | .read n => go n false (fun s => { s with hostData := if poisoned s.poison a n then none else some (peek s.mem a n) })
  | .write bs => go bs.length true (fun s => { s.poke a bs with hostData := some [] })
  | .bar0 n => s.barRead 0x1000000 0 a n
  | .bar2 n => s.barRead 0x40000 0x100000 a n

def execHostAccess (addr : Nat) (access : HostOp) (s : State) := event s (fun s => s.hostOp addr access)

/-- A module of the UCIe link is lost: the rest is trained. With none left the host partitions' link is down. -/
def execUcieModuleLoss (s : State) := event s (fun s =>
  let s := { s with ucie := s.ucie - 1 }
  if s.ucie = 0 then s.post (((s.owner?.filter (fun m => decide (m ≤ 3))).toList).map (fun m => .ownerLinkDown m)) else s)

/-! ### Reset and power (R11, R80, R343, R424) -/

/-- DEGST of every die: what reset and the removal of power leave. -/
def keptMgmt (m : SMap 64) : SMap 64 :=
  (List.range 8).foldl (fun r d => SMap.set r (0x270000 + 8 * d) (m.get (0x270000 + 8 * d))) resetMgmt

/-- The state after reset, but for what reset leaves: DEGST and the cores spared. -/
def State.afterReset (s : State) : State :=
  { State.reset with
    mgmt := keptMgmt s.mgmt
    cores := (s.cores.filter (fun c => c.spared)).map (fun c => { CoreSt.reset c.q with spared := true })
    mdas := s.mdas, tick := s.tick }

/-- Module reset: memory keeps its bytes (DESIGN CHOICE, log 33); the firmware images whose signatures hold run. -/
def execModuleReset (images : List Nat) (s : State) : Host.Outcome State Fault Refusal :=
  .next { s.afterReset with mem := s.mem, poison := s.poison, images, firmware := images.filter Config.firmwareValid }

/-- Power removed: everything volatile is lost, and nothing happens until module reset. -/
def execModulePowerRemoval (s : State) := event s (fun s => { s.afterReset with power := false, firmware := [] })

/-! ### The DOE mailbox (R344 to R346) -/

/-- An answer sent. -/
def State.answer (s : State) (a : SpdmAnswer) : State := { s with doe := a :: s.doe }

/-- The stepping values of MDID for dies 0 to 7, each as its two bytes, lowest first (R8, R346; DEDUCED, log 56). -/
def steppings : List Byte := (List.range 8).flatMap (fun d => leBytes 2 ((mdid d).toNat % 2 ^ 16))

/-- The four measurements, by index: digests of the three firmware images loaded at the last module reset, and of the steppings
(R346). -/
def State.measurements (s : State) : List (BitVec 512) :=
  (List.range 3).map (fun i => shake256 (Config.image (s.images.getD i 0))) ++ [shake256 steppings]

def execGetVersion (s : State) := event s (fun s => s.answer (.version [0x12, 0x13]))
def execGetCapabilities (s : State) := event s (fun s => s.answer .capabilities)

/-- One ExtAsym and one ExtHash entry are offered; neither selected is InvalidRequest, code 0x01 (PRESUMED, log 34). -/
def execNegotiateAlgorithms (asym hash : List Nat) (s : State) := event s (fun s =>
  let a := asym.contains 0x101
  let h := hash.contains 0x102
  s.answer (if a || h then .algorithms (if a then 0x101 else 0) (if h then 0x102 else 0) else .error 1))

def execGetDigests (s : State) := event s (fun s => s.answer (.digests Config.certDigest))
def execGetCertificate (s : State) := event s (fun s => s.answer (.certificate Config.certificate))

def execChallenge (nonce : Nat) (s : State) := event s (fun s =>
  s.answer (.challengeAuth Config.certDigest (Config.summary s.images) (Config.signature nonce)))

def execGetMeasurements (s : State) := event s (fun s => s.answer (.measurements s.measurements))

/-- UnsupportedRequest, code 0x07 (PRESUMED, log 34). -/
def execUnsupportedRequest (_code : Nat) (s : State) := event s (fun s => s.answer (.error 7))

end Sys2Proof.Machine
end

