-- ==== Sys2Proof/Machine/Migration.lean ====
section
/-! DEFINITION. The page-migration arbiter (R285 to R287, R402), damaged data (R403), and degraded operation (R423, R424). -/

namespace Sys2Proof.Machine

/-! ### The arbiter (R285 to R287, R402) -/

/-- A frame's count has reached HYST for one side: a request, or a contest where the other side's request is open; a side
whose request is open makes no second one. -/
def State.requestMove (s : State) (frame : Nat) (host : Bool) : State :=
  let t := s.trackOf frame
  if !s.arbiterOn || decide (t.count < s.hyst) then s
  else
    match t.request with
    | some side => if side = host then s else s.post [.migrationContest frame host]
    | none =>
      (s.track { t with request := some host }).hall
        { kind := 1, flags := if host then 2 else 0, pa := frame * 65536, count := t.count }

def execMigrationRequest (frame : Nat) (host : Bool) (s : State) := event s (fun s => s.requestMove frame host)

/-- A contest: the current home wins, the open request closes, and the count toward the loser restarts at 0. -/
def State.contest (s : State) (frame : Nat) (host : Bool) : State :=
  match s.tracks.find? (fun t => t.frame == frame) with
  | none => s
  | some t =>
    if t.request = some (!host) then
      (s.track ⟨frame, 0, none, false⟩).hall
        { kind := 2, flags := if deviceFrame frame then 2 else 0, pa := frame * 65536 }
    else s

def execMigrationContest (frame : Nat) (host : Bool) (s : State) := event s (fun s => s.contest frame host)

/-! ### Damaged data (R403) -/

/-- A 32-byte unit found damaged: poisoned, with one kind-3 record; atomics that have been checked before are performed first, and so is
what stores a part of it, which may be a piece of a store that covers it. -/
def State.damage (s : State) (unit : Nat) : State :=
  if s.poison.any (fun u => u.1 == unit) then s
  else
    let s := s.harts.foldl (fun s h => s.performAll h.hid (fun x => overlaps (32 * unit) 32 x.loc x.bytes.length &&
      !x.holds (32 * unit) 32)) s
    let place := s.hallLoc
    let s := s.hall { kind := 3, pa := 32 * unit }
    { s with poison := (unit, place) :: s.poison }

def execDataError (unit : Nat) (s : State) := event s (fun s => s.damage unit)

/-! ### Degraded operation (R423, R424) -/

/-- DEGST of a die with one count raised: `lo` its lowest bit, `n` its width. -/
def State.degrade (s : State) (d lo n : Nat) : State :=
  let off := 0x270000 + 8 * d
  let v := s.getMgmt off
  s.setMgmt off (setField v lo n (min (bits v.toNat (lo + n - 1) lo + 1) (2 ^ n - 1)))

/-- A threshold of R423 is reached on some die. -/
def State.advised (s : State) : Bool :=
  (List.range 8).any (fun d =>
    let v := (s.getMgmt (0x270000 + 8 * d)).toNat
    decide (3 ≤ bits v 6 0) || decide (32 ≤ bits v 15 8) || decide (256 ≤ bits v 31 16))

/-- RA raised in every word, with its record, the first time. -/
def State.advise (s : State) : State :=
  if s.advised && !pteBit (s.getMgmt 0x270000).toNat 63 then
    ((List.range 8).foldl (fun s d => s.setMgmt (0x270000 + 8 * d) (s.getMgmt (0x270000 + 8 * d) ||| 1#64 <<< 63)) s).hall
      { kind := 0x16 }
  else s

/-- A unit removed from service: its count, its record, and what follows. A core goes once no gang is resident on it. -/
def State.remove (s : State) (what : Resource) : State :=
  let go (s : State) (d lo n : Nat) : State :=
    (((s.degrade d lo n).hall { kind := 0x15, count := d }).advise).post [.placementDecision]
  match what with
  | .core d c =>
    let q := 8 * c + d
    if 8 ≤ d ∨ 64 ≤ c ∨ (s.coreAt q).spared ∨ s.gangs.any (fun g => g.core == q) then s
    else go (s.updCore q (fun c => { c with spared := true })) d 0 7
  | .way d => if 8 ≤ d then s else go s d 8 8
  | .row d => if 8 ≤ d then s else go s d 16 16

def execResourceRemoval (what : Resource) (s : State) := event s (fun s => s.remove what)

end Sys2Proof.Machine
end

