-- ==== Sys2Proof/Machine/Frontend.lean ====
section
/-! DEFINITION. Instruction fetch: code reads and their faults, the almanac and its units (R307, R319 to R323, R408), illegal encodings
(R119, R381), and what runs ahead of a hart: page walks, streams, plate fills (R279, R305, R380). -/

namespace Sys2Proof.Machine

/-! ### Code reads (R204, R320, R396) -/

/-- The location of the word that a hart fetches at an address; a fault answers F of R395. -/
def State.codeAt (s : State) (h : Hart) (va : Word) : Except Nat (State × Nat) :=
  if pathOf va = 0 ∨ (pathOf va = 7 ∧ h.priv ≠ .u) then s.translate h .fetch va else .error 3

/-! ### The almanac (R319) -/

/-- The frame that a hart fetches the code at an address from. -/
def State.codeFrame (s : State) (h : Hart) (va : Word) : Option Nat :=
  match s.codeAt h va with
  | .error _ => none
  | .ok (_, loc) => some (loc / 65536)

/-- A unit's key matches in every part: address space, privilege, XSTEP, and the frame of each page that it covers. -/
def State.keyed (s : State) (h : Hart) (u : AlmUnit) : Bool :=
  u.ctx == h.tag (pathOf u.va) && u.priv == h.priv && u.xstep == h.getCsr 0xd12 &&
    (List.range u.frames.length).all (fun i =>
      s.codeFrame h (if i = 0 then u.va else BitVec.ofNat 64 ((u.va.toNat / 65536 + i) * 65536)) == u.frames[i]?)

/-- The units that a hart may execute: those of its die's almanac, and those it has fetched (R307). -/
def State.unitsFor (s : State) (h : Hart) : List AlmUnit :=
  (((s.dieAt h.die).almanac ++ h.fetched).filter (s.keyed h))

/-- A code read's result as a number: a word, or 2^32 and F. -/
def codeFault (f : Nat) : Nat := 2 ^ 32 + f

/-- What units lowered earlier hold for an address: their words, and the faults of their code reads (R307, R309, R320). -/
def State.oldWords (s : State) (h : Hart) (va : Word) : List Nat :=
  (s.unitsFor h).filterMap (fun u =>
    if u.holds va then (u.words[(va - u.va).toNat / 4]?).map (fun w => w.toNat)
    else if va = u.va + BitVec.ofNat 64 (4 * u.words.length) then u.fault.map codeFault
    else none)

/-- The word that memory holds for a fetch, or its fault. -/
def State.readCode (s : State) (h : Hart) (va : Word) : State × Nat :=
  match s.codeAt h va with
  | .error f => (s, codeFault f)
  | .ok (s, loc) =>
    let s := (if s.engines.isEmpty then s else (s.engineSettle none false false loc 4).1).settle (2 ^ 32) false loc 4
    (s, if poisoned s.poison loc 4 then codeFault 5 else peekNat s.mem loc 4)

/-- The word that a hart fetches at an address: what memory holds, or where an older lowering differs, either (R307, R321;
DESIGN CHOICE, log 7); a fault answers F of R395. -/
def State.fetchWord (s : State) (h : Hart) (va : Word) : Except Nat (State × IWord) :=
  let r := s.readCode h va
  let old := (s.oldWords h va).filter (fun w => w != r.2)
  let w := if old.isEmpty then r.2 else (r.2 :: old).getD (Config.codeChoice s.tick va.toNat % (old.length + 1)) r.2
  if 2 ^ 32 ≤ w then .error (w - 2 ^ 32) else .ok (r.1, BitVec.ofNat 32 w)

/-- The instruction ends a translation unit (R319). -/
def endsUnit (w : IWord) : Bool :=
  let m := (fMajor w).toNat
  (decide (0x10 ≤ m) && decide (m ≤ 0x18)) || (decide (m = 0x1c) && (decide (fFunc w = 1) || decide (fFunc w = 2))) ||
    (decide (m = 0x1e) && decide (fFunc w = 0x300))

/-- Words of a unit from word i on, at most n: a second word is never split off, so a unit whose 64th word is a first word
has 65 (DESIGN CHOICE, log 80); a word that cannot be read ends it, with its fault (R320, R408). -/
def unitWords (read : Nat → Except Nat IWord) : Nat → Nat → Bool → List IWord × Option Nat
  | 0, i, true =>
    match read i with
    | .error f => ([], some f)
    | .ok w => ([w], none)
  | 0, _, false => ([], none)
  | n + 1, i, second =>
    match read i with
    | .error f => ([], some f)
    | .ok w =>
      if !second && !isLong w && endsUnit w then ([w], none)
      else
        let r := unitWords read n (i + 1) (!second && isLong w)
        (w :: r.1, r.2)

/-- The location of word i of a unit that begins at `va` in `loc`: it follows in its page; one word may lie in the next. -/
def State.unitLoc (s : State) (h : Hart) (va : Word) (loc i : Nat) : Except Nat Nat :=
  if va.toNat % 65536 + 4 * i < 65536 then .ok (loc + 4 * i)
  else (s.codeAt h (va + BitVec.ofNat 64 (4 * i))).map (fun r => r.2)

/-- The locations of the entries that a walk reads. -/
def entriesRead (m : Memory) (va : Nat) : Nat → List (Nat × Nat) → List Nat
  | _, [] => []
  | table, (lo, w) :: rest =>
    let loc := table + 8 * bits va (lo + w - 1) lo
    let e := peekNat m loc 8
    loc :: (if pteBit e 63 && !pteBit e 62 then entriesRead m va (pteFrame e + bits e 15 8 * 2 ^ 8) rest else [])

/-- The location of the entry that the walk of an address ends at, valid or not, and the frame of its page, where it has one. -/
def walkEnd (m : Memory) (root : Nat) (va : Word) : List Nat × Option Nat :=
  let v := va.toNat % 2 ^ 61
  ((entriesRead m v root walkLevels).getLast?.toList, match walk m root v with
    | .leaf e _ level => some (leafAddr e level v / 65536)
    | _ => none)

/-- A unit lowered from an address (R319, R320). -/
def State.lowered (s : State) (h : Hart) (va : Word) (loc : Nat) : AlmUnit :=
  let read (i : Nat) : Except Nat IWord :=
    match s.unitLoc h va loc i with
    | .error f => .error f
    | .ok l => if poisoned s.poison l 4 then .error 5 else .ok (BitVec.ofNat 32 (peekNat s.mem l 4))
  let left := min 64 ((65536 - va.toNat % 65536) / 4)
  let r := unitWords read left 0 false
  let root := h.root (pathOf va)
  let next := va + BitVec.ofNat 64 (4 * r.1.length)
  let spans := decide (65536 < va.toNat % 65536 + 4 * r.1.length)
  let cut := r.2.isSome && decide (65536 ≤ va.toNat % 65536 + 4 * r.1.length)
  { ctx := h.tag (pathOf va), va, priv := h.priv, xstep := h.getCsr 0xd12, words := r.1, fault := r.2, root, born := s.tick
    frames := (loc / 65536) :: (if spans then ((s.unitLoc h va loc (r.1.length - 1)).toOption.map (fun l => l / 65536)).toList else [])
    past := if cut then (walkEnd s.mem root next).2 else none
    leaves := (walkEnd s.mem root va).1 ++ (if spans || cut then (walkEnd s.mem root (if cut then next else next - 4)).1 else []) }

/-- XLSTAT with one more miss, and the cycles in which its fetch has waited (R323); as MISS is at least 1, the value is listed. -/
def Hart.miss (stall : Nat) (h : Hart) : Hart :=
  let v := (h.getCsr 0xc13).toNat
  let w := min (v / 2 ^ 32 + 1) (2 ^ 32 - 1) * 2 ^ 32 + min (v % 2 ^ 32 + stall) (2 ^ 32 - 1)
  { h with csr := (h.csr.erase 0xc13).insert 0xc13 (BitVec.ofNat 64 w) }

/-- A word at an address of the unit that the hart goes through: its last instruction again, or the one after it. -/
def Hart.inUnit (h : Hart) (va : Word) : Option UnitPlace :=
  match h.unit with
  | none => none
  | some p => if va = p.here ∨ (va = p.next ∧ p.next.toNat < p.stop.toNat) then some p else none

/-- The hart goes through a unit, from its first word. -/
def Hart.beginUnit (u : AlmUnit) (h : Hart) : Hart :=
  { h with unit := some ⟨u.va, u.va, u.va + BitVec.ofNat 64 (4 * u.words.length)⟩ }

/-- The units that an almanac of 8 MiB holds, the youngest first, counted by their source words (R21; DESIGN CHOICE, log 7). -/
def fitAlmanac : Nat → List AlmUnit → List AlmUnit
  | _, [] => []
  | n, u :: us => if 4 * u.words.length ≤ n then u :: fitAlmanac (n - 4 * u.words.length) us else []

/-- A unit lowered for a fetch and installed: a miss (R322, R323). -/
def State.install (s : State) (h : Hart) (u : AlmUnit) : State :=
  let d := s.dieAt h.die
  (s.setDie { d with almanac := fitAlmanac (2 ^ 23) (u :: d.almanac.filter (fun v => !(v.va == u.va && s.keyed h v))) }).updHartAt h.hid
    (fun h => (Hart.beginUnit u h).miss (Config.stalls s.tick))

/-- A fetch outside the hart's unit begins one: it hits a unit whose key matches in every part, or it misses, as it does where that
unit has been replaced or fails its parity, and its unit is lowered and installed (R319, R321, R322, R408). -/
def State.lower (s : State) (h : Hart) (va : Word) : State :=
  match h.inUnit va, s.codeAt h va with
  | none, .ok (s, loc) =>
    match (s.dieAt h.die).almanac.find? (fun u => u.va == va && s.keyed h u) with
    | some u => if Config.entryLost s.tick then s.install h (s.lowered h va loc) else s.updHartAt h.hid (Hart.beginUnit u)
    | none => s.install h (s.lowered h va loc)
  | _, _ => s

/-- The hart's place in its unit at an instruction of n bytes that it fetches: past a transfer of control the next fetch
begins a unit, but a `retire` that waits is no transfer (R319). -/
def Hart.advanceUnit (w : IWord) (n : Nat) (h : Hart) : Hart :=
  { h with unit := match h.unit with
      | none => none
      | some p => if !isLong w && endsUnit w && decide (fMajor w ≠ 0x1e) then none else some ⟨h.pc, h.pc + BitVec.ofNat 64 n, p.stop⟩ }

/-! ### Fetching an instruction (R105, R119, R374, R381) -/

/-- A fetch fault: TPC is the instruction's address, TVA that of the word. -/
def State.fetchFault (s : State) (h : Hart) (f : Nat) (va : Word) : Exec := s.memTrap h 0 f va

/-- An illegal encoding: TVA holds its words. -/
def illegalEncoding (w : IWord) (v : Option IWord) : TrapRec :=
  { code := 0x1000, tva := (v.getD 0) ++ w }

/-- The words at a hart's program counter, its unit lowered: the first, and the second of a two-word format. -/
def State.fetchWords (s : State) (h : Hart) : Except Exec (State × IWord × Option IWord) :=
  match s.fetchWord h h.pc with
  | .error f => .error (s.fetchFault h f h.pc)
  | .ok (s, w) =>
    let s := s.lower h h.pc
    let s := s.updHartAt h.hid (Hart.advanceUnit w (if isLong w then 8 else 4))
    if !isLong w then .ok (s, w, none)
    else
      match s.fetchWord h (h.pc + 4) with
      | .error f => .error (s.fetchFault h f (h.pc + 4))
      | .ok (s, v) => .ok (s, w, some v)

/-- The instruction at a hart's program counter, or the trap that stands in its place. -/
noncomputable def State.fetchInstr (s : State) (h : Hart) : Except Exec (State × Instr) :=
  match s.fetchWords h with
  | .error e => .error e
  | .ok (s, w, v) =>
    match decode w (v.getD 0) with
    | none => .error (.trap s (illegalEncoding w v))
    | some i => .ok (s, i)

/-! ### Which step comes next (R54, R263, R315, R324, R332; DESIGN CHOICE, log 2, DESIGN CHOICE, log 5) -/

/-- The event of a core's machinery that keeps a hart from moving: its core's relock, which stops the clock, or the gate at which an
instruction of the hart waits (R263, R324, R328). -/
def State.heldUp (s : State) (h : Hart) : Option Instr :=
  let c := s.coreAt h.q
  if c.relock.isSome || c.stalls h.hid then s.coreWork h.q else none

/-- The core whose machinery works in a step that is its turn. -/
def State.pickCore (s : State) : Option Nat := (s.cores[Config.pick s.tick % s.cores.length]?).map (fun c => c.q)

/-- The hart that moves: the only one, or one that the free choice picks. -/
def State.pickHart (s : State) : Option Hart :=
  match s.harts with
  | [] => none
  | [h] => some h
  | hs => hs[Config.pick s.tick % hs.length]?

/-- What a hart does instead of fetching, if anything: it takes an interrupt, or a wait ends or goes on. -/
def Hart.instead (h : Hart) : Option Instr :=
  if h.takeable.isSome then some (.interruptTake h.hid)
  else
    match h.run with
    | .running => none
    | .wfi => some (.wfiWake h.hid)
    | .lwait _ _ _ => some (.lwaitReturn h.hid)
    | .launching rd _ _ _ => some (.launch rd 0)

/-- The event of a machine without a hart: an engine command goes on, or nothing happens. -/
def State.idleWork (s : State) : Option Instr := (s.engines.head?).map (fun c => .engineCommandComplete c.id)

/-! ### A program placed without a launch message: what State.withFetchWord sets (DESIGN CHOICE, log 37) -/

/-- ENTRY of the placed program: a virtual address of path 0. -/
def loadEntry : Nat := 0x1000

/-- Physical address of virtual address 0 of the placed program. -/
def loadBase : Nat := 0x40000000

/-- Page tables at 0x10000, 0x20000 and 0x30000 that map the first GiB to loadBase, readable and executable at U. -/
def loadTables : List (Nat × Nat) :=
  [(0x10000, 2 ^ 63 + 0x20000), (0x20000, 2 ^ 63 + 0x30000), (0x30000, 2 ^ 63 + 2 ^ 62 + 2 ^ 61 + 2 ^ 60 + 2 ^ 58 + 2 ^ 57 + loadBase)]

/-- The launch of the placed program: ENTRY, GANGS 1, TILES 8, BAND 16, GAL 512, STAIR 16 (R31). -/
def loadMsg : BitVec 512 :=
  BitVec.ofNat 512 0x100200000108000000000100000000000000000000000000000000000000000000000000000000000000000000000000001000

/-- The machine with one hart at the start of a program whose first bytes are given. -/
def State.loadProgram (s : State) (code : List Byte) : State :=
  let l := { Launch.ofMsg 0 0 loadMsg with acc := s.accepted, stamp := s.tick }
  let mem := loadTables.foldl (fun m t => SMap.setAll (w := 8) m t.1 (leBytes 8 t.2)) s.mem
  let s := { s with
    power := true, inbox := [], harts := [], gangs := [], engines := [], tokens := [], launches := [l], poison := [], tlb := [], next := 0
    cores := s.cores.filter (fun c => c.q != 0), dies := s.dies.filter (fun d => d.d != 0)
    mem := SMap.setAll (w := 8) mem (loadBase + loadEntry) code
    mgmt := s.mgmt.set 0x210000 (BitVec.ofNat 64 (2 ^ 63 + 0x10000)) }
  match s.placeNew l with
  | none => s
  | some s => s.settleLaunch l.acc

/-! ### Events that run ahead -/

/-- A hart's fetch made ahead of its execution: what it leaves is its translation and its unit. -/
def State.fetchAhead (s : State) (hid : Nat) : State :=
  match s.hartAt hid with
  | none => s
  | some h =>
    match s.fetchWord h h.pc with
    | .error _ => s
    | .ok (s, _) => s.lower h h.pc

def execFetch (hart : Nat) (s : State) := event s (fun s => s.fetchAhead hart)

def execTranslationUnitLower (hart : Nat) (s : State) := event s (fun s =>
  match s.hartAt hart with
  | none => s
  | some h => s.lower h h.pc)

/-- A walk for the current hart: A and D set, its translation held; a walk that faults leaves nothing. -/
def execPageWalk (va : BitVec 64) (need : Access) (s : State) := event s (fun s =>
  match s.hart? with
  | none => s
  | some h =>
    match s.translate h need va with
    | .error _ => s
    | .ok (s, _) => s)

/-- A stream of the current hart reads one more element ahead; no result depends on it (R305). -/
def execStreamRunahead (fs : BitVec 4) (s : State) := event s (fun s => s.updHart (fun h =>
  { h with streams := h.streams.map (fun t =>
      if t.1 = fs.toNat ∧ (t.2.addr (t.2.pos + t.2.ahead)).isSome then (t.1, { t.2 with ahead := t.2.ahead + 1 }) else t) }))

/-- An absent plate of the current hart filled; a fill that faults traps (R380, R410). -/
def execPlateFill (plate : Nat) (s : State) : Host.Outcome State Fault Refusal :=
  if !s.power then .fault .powerOff
  else
    match s.hart? with
    | none => .next s
    | some h =>
      if (h.plates.get plate).toNat / 64 ≠ 1 then .next s
      else
        match s.fillPlate h plate with
        | .error (f, va) => (s.memTrap h 4 f va 0 none none 128).outcome 4
        | .ok s => .next s

end Sys2Proof.Machine
end

