-- ==== Sys2Proof/Machine/MdasText.lean ====
section
/-! DEFINITION. The source text of mdas (R348): its tokens, its expressions and their values. -/

namespace Sys2Proof.Machine

/-! ### Tokens -/

/-- What a source line is made of: numbers, names, quoted texts and signs; and characters that belong to none of these. -/
inductive MdasTok where
  | num (v : Nat)
  | name (s : String)
  | text (s : String)
  | sign (s : String)
  | stray
  deriving DecidableEq, Repr

/-- The text with its letters small: mnemonics, register names and directive names do not tell them apart (R348). -/
def lower (s : String) : String :=
  String.ofList (s.toList.map (fun c => if 'A' ≤ c ∧ c ≤ 'Z' then Char.ofNat (c.toNat + 32) else c))

/-- A blank of a line. -/
def blankChar (c : Char) : Bool := c == ' ' || c == '\t' || c == '\r'

/-- A character that begins a symbol. -/
def symStart (c : Char) : Bool := c.isAlpha || c == '_' || c == '.' || c == '$'

/-- A character that goes on with a symbol. -/
def symChar (c : Char) : Bool := symStart c || c.isDigit

/-- The text is a symbol. -/
def isSymbol (s : String) : Bool :=
  match s.toList with
  | [] => false
  | c :: cs => symStart c && cs.all symChar

/-- Value of a digit. -/
def digitVal (c : Char) : Nat := if c.isDigit then c.toNat - 48 else if 'a' ≤ c then c.toNat - 87 else c.toNat - 55

/-- Digits of one base, an underscore among them not counting. -/
def isDigitOf (base : Nat) (c : Char) : Bool :=
  (c.isDigit && decide (digitVal c < base)) || (base == 16 && (('a' ≤ c && c ≤ 'f') || ('A' ≤ c && c ≤ 'F'))) || c == '_'

/-- The number that the digits of a base begin, and what follows it. -/
def numFrom (base : Nat) (cs : List Char) : Nat × List Char :=
  ((cs.takeWhile (isDigitOf base)).foldl (fun v c => if c == '_' then v else base * v + digitVal c) 0,
    cs.dropWhile (isDigitOf base))

/-- The text begins with digits of a base, one of them no underscore. -/
def digitsAhead (base : Nat) (cs : List Char) : Bool := (cs.takeWhile (isDigitOf base)).any (fun c => c != '_')

/-- The number at the head of a text whose first character is a digit. -/
def lexNum (cs : List Char) : Nat × List Char :=
  match cs with
  | '0' :: 'x' :: r => if digitsAhead 16 r then numFrom 16 r else (0, 'x' :: r)
  | '0' :: 'b' :: r => if digitsAhead 2 r then numFrom 2 r else (0, 'b' :: r)
  | _ => numFrom 10 cs

/-- Signs of one character. -/
def signChars : List Char := ['+', '-', '*', '/', '%', '&', '|', '^', '~', '(', ')', '[', ']', ',', '?', '!', '=']

/-- The tokens of a text; the first argument bounds their number. -/
def lexFrom : Nat → List Char → List MdasTok
  | _, [] => []
  | 0, _ => [.stray]
  | n + 1, c :: cs =>
    if blankChar c then lexFrom n cs
    else if c.isDigit then .num (lexNum (c :: cs)).1 :: lexFrom n (lexNum (c :: cs)).2
    else if symStart c then .name (String.ofList (c :: cs.takeWhile symChar)) :: lexFrom n (cs.dropWhile symChar)
    else if c == '"' then
      match cs.dropWhile (fun d => d != '"') with
      | _ :: r => .text (String.ofList (cs.takeWhile (fun d => d != '"'))) :: lexFrom n r
      | [] => .stray :: lexFrom n cs
    else if (c == '<' || c == '>' || c == '|') && cs.head? == some c then .sign (String.ofList [c, c]) :: lexFrom n cs.tail
    else if signChars.contains c then .sign (String.ofList [c]) :: lexFrom n cs
    else .stray :: lexFrom n cs

/-- The tokens of a text, with its stray characters. -/
def lexAll (cs : List Char) : List MdasTok := lexFrom (cs.length + 1) cs

/-- The tokens of a text; none where a character belongs to none. -/
def lex (cs : List Char) : Option (List MdasTok) := if (lexAll cs).contains .stray then none else some (lexAll cs)

/-- A line without its comment; `;` and `//` inside a quoted text begin none. -/
def uncomment : Bool → List Char → List Char
  | _, [] => []
  | quoted, c :: cs =>
    if quoted then c :: uncomment (c != '"') cs
    else if c == ';' || (c == '/' && cs.head? == some '/') then []
    else c :: uncomment (c == '"') cs

/-- A text without the blanks around it. -/
def trim (cs : List Char) : List Char := ((cs.dropWhile blankChar).reverse.dropWhile blankChar).reverse

/-- Pieces of a list at the elements that divide it, brackets counted by `depth`. -/
def splitAtTop {α : Type} (cut : α → Bool) (depth : α → Int) (xs : List α) : List (List α) :=
  let r := xs.foldl (fun (a : List (List α) × List α × Int) x =>
    if cut x && decide (a.2.2 = 0) then (a.1 ++ [a.2.1], [], 0) else (a.1, a.2.1 ++ [x], a.2.2 + depth x)) ([], [], 0)
  r.1 ++ [r.2.1]

/-- The operands of a line: its tokens cut at the commas outside brackets. -/
def operands (ts : List MdasTok) : List (List MdasTok) :=
  if ts.isEmpty then []
  else splitAtTop (fun t => t == .sign ",") (fun t =>
    if t == .sign "(" || t == .sign "[" then 1 else if t == .sign ")" || t == .sign "]" then -1 else 0) ts

/-! ### Expressions -/

/-- Operators of an expression with two operands. -/
inductive MdasOp where
  | or | xor | and | shl | shr | add | sub | mul | div | mod
  deriving DecidableEq, Repr

/-- An expression (R348). -/
inductive MdasExpr where
  | num (v : Nat)
  | name (s : String)
  /-- `hwN(e)`. -/
  | hw (n : Nat) (e : MdasExpr)
  | neg (e : MdasExpr)
  | not (e : MdasExpr)
  | bin (op : MdasOp) (a b : MdasExpr)
  deriving DecidableEq, Repr

/-- The operators of each rank of C, weakest first. -/
def opRanks : List (List (String × MdasOp)) :=
  [[("|", .or)], [("^", .xor)], [("&", .and)], [("<<", .shl), (">>", .shr)], [("+", .add), ("-", .sub)],
    [("*", .mul), ("/", .div), ("%", .mod)]]

/-- The operator that a token writes. -/
def opOf (ops : List (String × MdasOp)) : MdasTok → Option MdasOp
  | .sign s => (ops.find? (fun x => x.1 == s)).map (·.2)
  | _ => none

/-- Operators of one rank after a first operand, from the left. -/
def chainOps (ops : List (String × MdasOp)) (next : List MdasTok → Option (MdasExpr × List MdasTok)) :
    Nat → MdasExpr → List MdasTok → Option (MdasExpr × List MdasTok)
  | 0, e, ts => some (e, ts)
  | n + 1, e, ts =>
    match ts with
    | [] => some (e, ts)
    | t :: r =>
      match opOf ops t with
      | none => some (e, ts)
      | some op => (next r).bind (fun x => chainOps ops next n (.bin op e x.1) x.2)

/-- Ranks of operators over what the strongest of them takes as operands. -/
def rankOps (unary : List MdasTok → Option (MdasExpr × List MdasTok)) :
    List (List (String × MdasOp)) → List MdasTok → Option (MdasExpr × List MdasTok)
  | [], ts => unary ts
  | ops :: rest, ts => (rankOps unary rest ts).bind (fun x => chainOps ops (rankOps unary rest) x.2.length x.1 x.2)

/-- `hwN` as the name of a function: N. -/
def hwName (s : String) : Option Nat :=
  if s == "hw0" then some 0 else if s == "hw1" then some 1 else if s == "hw2" then some 2 else if s == "hw3" then some 3 else none

/-- Signs before an operand, and the operand: a number, a symbol, `hwN(…)`, or an expression in parentheses. -/
def unaryOps (inner : List MdasTok → Option (MdasExpr × List MdasTok)) : Nat → List MdasTok → Option (MdasExpr × List MdasTok)
  | 0, _ => none
  | n + 1, ts =>
    let closed (f : MdasExpr → MdasExpr) (r : List MdasTok) : Option (MdasExpr × List MdasTok) :=
      match inner r with
      | some (e, .sign ")" :: r') => some (f e, r')
      | _ => none
    match ts with
    | .sign "-" :: r => (unaryOps inner n r).map (fun x => (.neg x.1, x.2))
    | .sign "+" :: r => unaryOps inner n r
    | .sign "~" :: r => (unaryOps inner n r).map (fun x => (.not x.1, x.2))
    | .sign "(" :: r => closed id r
    | .num v :: r => some (.num v, r)
    | .name s :: .sign "(" :: r => (hwName s).bind (fun k => closed (.hw k) r)
    | .name s :: r => some (.name s, r)
    | _ => none

/-- An expression at the head of tokens; the first argument bounds its depth. -/
def exprFrom : Nat → List MdasTok → Option (MdasExpr × List MdasTok)
  | 0, _ => none
  | n + 1, ts => rankOps (fun r => unaryOps (exprFrom n) (r.length + 1) r) opRanks ts

/-- The expression that tokens write, all of them. -/
def readExpr (ts : List MdasTok) : Option MdasExpr :=
  match exprFrom (ts.length + 1) ts with
  | some (e, []) => some e
  | _ => none

/-- The symbols that an expression names. -/
def MdasExpr.names : MdasExpr → List String
  | .num _ => []
  | .name s => [s]
  | .hw _ e | .neg e | .not e => e.names
  | .bin _ a b => a.names ++ b.names

/-! ### Values -/

/-- A symbol: the index of its section plus 1, 0 where it is undefined, and its offset. -/
structure MdasSym where
  name : String
  sect : Nat
  global : Bool
  value : Nat
  deriving DecidableEq, Repr

/-- A value: a constant, a symbol with an addend, or a halfword of one. -/
inductive MdasVal where
  | const (v : Word)
  | sym (name : String) (addend : Word)
  | hw (n : Nat) (name : String) (addend : Word)
  deriving DecidableEq, Repr

/-- What the symbols of an expression stand for, in a line of section `own`. -/
structure MdasEnv where
  consts : List (String × Word)
  syms : List MdasSym
  own : Nat

/-- Halfword n of a value. -/
def halfword (n : Nat) (v : Word) : Word := BitVec.ofNat 64 (v.toNat / 2 ^ (16 * n) % 2 ^ 16)

/-- The symbol where it is defined. -/
def MdasEnv.symbol (g : MdasEnv) (n : String) : Option MdasSym := g.syms.find? (fun y => y.name == n && y.sect != 0)

/-- A value as a constant: a symbol of the line's own section stands for its offset there (DEDUCED, log 58). -/
def MdasEnv.fixed (g : MdasEnv) : MdasVal → Option Word
  | .const v => some v
  | .sym n a => (g.symbol n).bind (fun y => if y.sect = g.own + 1 then some (BitVec.ofNat 64 y.value + a) else none)
  | .hw k n a =>
    (g.symbol n).bind (fun y => if y.sect = g.own + 1 then some (halfword k (BitVec.ofNat 64 y.value + a)) else none)

/-- An operator on two constants: a zero divisor and a shift count outside 0 to 63 have no value. -/
def MdasOp.apply (op : MdasOp) (x y : Word) : Option Word :=
  match op with
  | .or => some (x ||| y)
  | .xor => some (x ^^^ y)
  | .and => some (x &&& y)
  | .add => some (x + y)
  | .sub => some (x - y)
  | .mul => some (x * y)
  | .shl => if y.toNat ≤ 63 then some (x <<< y.toNat) else none
  | .shr => if y.toNat ≤ 63 then some (x.sshiftRight y.toNat) else none
  | .div => if y = 0 then none else some (x.sdiv y)
  | .mod => if y = 0 then none else some (x.srem y)

/-- An operator on two values: a constant added to a symbol or taken from it moves its addend, and the difference of two
symbols of one section is a constant. -/
def MdasEnv.apply (g : MdasEnv) (op : MdasOp) (a b : MdasVal) : Option MdasVal :=
  let plain : Option MdasVal := (g.fixed a).bind (fun x => (g.fixed b).bind (fun y => (op.apply x y).map .const))
  match op, a, b with
  | .add, .sym n x, .const y | .add, .const y, .sym n x => some (.sym n (x + y))
  | .sub, .sym n x, .const y => some (.sym n (x - y))
  | .sub, .sym n x, .sym m y =>
    if n = m then some (.const (x - y))
    else
      match g.symbol n, g.symbol m with
      | some p, some q =>
        if p.sect = q.sect then some (.const (BitVec.ofNat 64 p.value + x - (BitVec.ofNat 64 q.value + y))) else none
      | _, _ => none
  | _, _, _ => plain

/-- The value of an expression; none is E102. -/
def MdasEnv.eval (g : MdasEnv) : MdasExpr → Option MdasVal
  | .num v => if v < 2 ^ 64 then some (.const (BitVec.ofNat 64 v)) else none
  | .name s => some (match g.consts.find? (fun x => x.1 == s) with | some x => .const x.2 | none => .sym s 0)
  | .hw k e =>
    (g.eval e).bind (fun v =>
      match v with
      | .sym n a => some (.hw k n a)
      | v => (g.fixed v).map (fun x => .const (halfword k x)))
  | .neg e => (g.eval e).bind (fun v => (g.fixed v).map (fun x => .const (-x)))
  | .not e => (g.eval e).bind (fun v => (g.fixed v).map (fun x => .const (~~~x)))
  | .bin op a b => (g.eval a).bind (fun x => (g.eval b).bind (fun y => g.apply op x y))

/-- Every symbol of an expression is defined in the line's own section: a place that no relocation fills takes no other (R348). -/
def MdasEnv.home (g : MdasEnv) (e : MdasExpr) : Bool :=
  e.names.all (fun n => g.consts.any (fun x => x.1 == n) || (g.symbol n).any (fun y => y.sect == g.own + 1))

/-- The constant that an expression has in a place that no relocation fills. -/
def MdasEnv.constant (g : MdasEnv) (e : MdasExpr) : Option Word := if g.home e then (g.eval e).bind g.fixed else none

end Sys2Proof.Machine
end

