-- ==== Sys2Proof/Machine/MdasTable.lean ====
section
/-! DEFINITION. The mnemonics that mdas accepts, each with its words, the suffixes and operands of its syntax and the fields
that they fill: the Syntax and encoding tables of the instruction chapters (R125 to R131, R133, R139, R150 to R153, R156 to R183,
R203, R208, R215 to R226, R229 to R256). -/

namespace Sys2Proof.Machine

/-! ### What a row is made of -/

/-- Kinds of named operands (R115, R222, R234, R256). -/
inductive MdasReg where
  | x | ap | k | fs | tt | ta | aw
  deriving DecidableEq, Repr

/-- The letters before the number of a named operand, and how many there are. -/
def MdasReg.names : MdasReg → String × Nat
  | .x => ("x", 32)
  | .ap => ("ap", 64)
  | .k => ("k", 8)
  | .fs => ("fs", 16)
  | .tt => ("tt", 8)
  | .ta => ("ta", 8)
  | .aw => ("aw", 4)

/-- How a value fills its field, and which values do. -/
inductive MdasFit where
  /-- Values from `least` to `most`, less `bias`, in `width` bits of a word from bit `lo` on. -/
  | field (word lo width : Nat) (least most : Int) (bias : Nat)
  /-- The imm of an I word, from `least` to `most`, or a halfword of a symbol (R126, R355). -/
  | imm (least most : Int)
  /-- The offset of a scalar access of 2^size bytes (R208). -/
  | scaled (size : Nat)
  /-- The offset of a unit-stride vector access, in the smallest size that holds it (R215). -/
  | spread
  /-- H of a rect or rectt: HHI and HLO (R151). -/
  | rows
  /-- E of an entry whose slots hold `pack` elements: W (R151, R152). -/
  | slots (pack : Nat)
  /-- A displacement of `width` bits to a label, relocation type `ty` (R355). -/
  | disp (width ty : Nat)
  deriving DecidableEq, Repr

/-- One operand of a syntax. -/
inductive MdasSlot where
  | reg (kind : MdasReg) (word lo : Nat)
  /-- Operand n again (R122). -/
  | again (n : Nat)
  | val (fit : MdasFit)
  /-- `[xb]`. -/
  | mem (word lo : Nat)
  /-- `[xb+offset]` or `[xb]`. -/
  | memOff (word lo : Nat) (fit : MdasFit)
  | type (word lo : Nat)
  deriving DecidableEq, Repr

/-- One dotted suffix of a syntax. -/
inductive MdasSuffix where
  /-- An element type that is checked and not encoded (R116). -/
  | type
  /-- An element type in bits from `lo` on. -/
  | typeAt (word lo : Nat)
  | scope (word lo : Nat)
  /-- An ordering qualifier, which may be left out. -/
  | order (word lo : Nat)
  /-- `.w` or `.d`. -/
  | wide (word lo : Nat)
  /-- `.add`, `.min` or `.max` of a window. -/
  | fold (word lo : Nat)
  deriving DecidableEq, Repr

/-- Which guard an instruction takes (R350). -/
inductive MdasGuard where
  | none
  /-- An A-format instruction that takes a guard. -/
  | vector
  /-- A sweeping L instruction. -/
  | long
  /-- `vld` and `vst`. -/
  | strided
  deriving DecidableEq, Repr

/-- A row: a mnemonic with its fixed suffixes, the words with every other field 0, and the syntax. The last `optional`
operands may be left out. -/
structure MdasRow where
  name : String
  words : List IWord
  suffixes : List MdasSuffix
  slots : List MdasSlot
  optional : Nat := 0
  guard : MdasGuard := .none
  deriving DecidableEq, Repr

/-! ### Scalar rows -/

/-- Operands of the R format. -/
def slotRd : MdasSlot := .reg .x 0 21
def slotRa : MdasSlot := .reg .x 0 16
def slotRb : MdasSlot := .reg .x 0 11

/-- Three-register forms. -/
def rowsR3 (major : BitVec 6) (l : List (String × BitVec 11)) : List MdasRow :=
  l.map (fun x => { name := x.1, words := [rWord major 0 0 0 x.2], suffixes := [], slots := [slotRd, slotRa, slotRb] })

/-- Two-register forms. -/
def rowsR2 (major : BitVec 6) (l : List (String × BitVec 11)) : List MdasRow :=
  l.map (fun x => { name := x.1, words := [rWord major 0 0 0 x.2], suffixes := [], slots := [slotRd, slotRa] })

/-- Forms without operands. -/
def rowsR0 (l : List (String × IWord)) : List MdasRow :=
  l.map (fun x => { name := x.1, words := [x.2], suffixes := [], slots := [] })

/-- Register forms (R125, R127). -/
def rowsAlu : List MdasRow :=
  rowsR3 0x01 [("add", 0x000), ("sub", 0x001), ("and", 0x002), ("or", 0x003), ("xor", 0x004), ("andn", 0x005), ("sll", 0x006),
    ("srl", 0x007), ("sra", 0x008), ("slt", 0x009), ("sltn", 0x00a), ("min", 0x00b), ("max", 0x00c), ("minn", 0x00d),
    ("maxn", 0x00e), ("adds1", 0x019), ("adds2", 0x01a), ("adds3", 0x01b)] ++
  rowsR2 0x01 [("clz", 0x00f), ("ctz", 0x010), ("popc", 0x011), ("sxb", 0x012), ("sxh", 0x013), ("sxw", 0x014), ("zxb", 0x015),
    ("zxh", 0x016), ("zxw", 0x017), ("sliceof", 0x020)] ++
  [("slli", 0x040), ("srli", 0x080), ("srai", 0x0c0)].map (fun (x : String × BitVec 11) =>
    { name := x.1, words := [rWord 0x01 0 0 0 x.2], suffixes := [], slots := [slotRd, slotRa, .val (.field 0 0 6 0 63 0)] }) ++
  rowsR3 0x09 [("mul", 0x000), ("mulh", 0x001), ("mulhn", 0x002), ("mulhsn", 0x003), ("div", 0x008), ("divn", 0x009),
    ("rem", 0x00a), ("remn", 0x00b)]

/-- Immediate forms, length instructions, branches, jumps and CSR access (R126, R130, R131, R133, R150). -/
def rowsImm : List MdasRow :=
  let signed : MdasSlot := .val (.imm (-32768) 32767)
  let natural : MdasSlot := .val (.imm 0 65535)
  let imm (name : String) (major : BitVec 6) (v : MdasSlot) : MdasRow :=
    { name := name, words := [iWord major 0 0 0], suffixes := [], slots := [slotRd, slotRa, v] }
  let csr (name : String) (major : BitVec 6) : MdasRow :=
    { name := name, words := [iWord major 0 0 0], suffixes := [], slots := [slotRd, natural, slotRa] }
  let branch (name : String) (major : BitVec 6) : MdasRow :=
    { name := name, words := [iWord major 0 0 0], suffixes := [], slots := [slotRd, slotRa, .val (.disp 16 3)] }
  let jump (name : String) (major : BitVec 6) : MdasRow :=
    { name := name, words := [jWord major 0], suffixes := [], slots := [.val (.disp 26 4)] }
  [imm "addi" 0x02 signed, imm "andi" 0x03 natural, imm "ori" 0x04 natural, imm "xori" 0x05 natural, imm "slti" 0x06 signed,
    imm "sltni" 0x07 signed, imm "lih" 0x08 natural, imm "setvl" 0x0a (.type 0 0), imm "setvl.g" 0x0b (.type 0 0),
    { imm "setrc" 0x0c natural with optional := 1 }, imm "jmpl" 0x18 signed,
    csr "csrrw" 0x19, csr "csrrs" 0x1a, csr "csrrc" 0x1b,
    branch "beq" 0x12, branch "bne" 0x13, branch "blt" 0x14, branch "bge" 0x15, branch "bltn" 0x16, branch "bgen" 0x17,
    jump "jmp" 0x10, jump "call" 0x11]

/-- System instructions, fences, landings and hints (R139, R238, R241, R253), and the pseudo-instructions of one word (R351). -/
def rowsSystem : List MdasRow :=
  rowsR0 [("eret", rWord 0x1c 0 0 0 0x002), ("wfi", rWord 0x1c 0 0 0 0x003), ("fbar", rWord 0x1c 0 0 0 0x012),
    ("ptsync", rWord 0x1c 0 0 0 0x013), ("retire", rWord 0x1e 0 0 0 0x300), ("twake", rWord 0x1f 0 0 0 0x000),
    ("nop", 0x08000000), ("ret", 0x60010000)] ++
  rowsR2 0x1c [("launch", 0x020)] ++ rowsR2 0x1e [("lwait", 0x001)] ++ rowsR2 0x1f [("bkt", 0x002)] ++
  [{ name := "trap", words := [rWord 0x1c 0 0 0 0x001], suffixes := [], slots := [.val (.field 0 11 10 0 1023 0)] },
    { name := "dclean", words := [rWord 0x1c 0 0 0 0x010], suffixes := [], slots := [slotRa, slotRb] },
    { name := "xcinv", words := [rWord 0x1c 0 0 0 0x011], suffixes := [], slots := [slotRa, slotRb] },
    { name := "fence.sv", words := [rWord 0x1d 0 0 0 0x000], suffixes := [.scope 0 0], slots := [] },
    { name := "fence.vs", words := [rWord 0x1d 0 0 0 0x008], suffixes := [.scope 0 0], slots := [] },
    { name := "fence.vv", words := [rWord 0x1d 0 0 0 0x010], suffixes := [.scope 0 0], slots := [] },
    { name := "fence.all", words := [rWord 0x1d 0 0 0 0x018], suffixes := [.scope 0 0], slots := [] },
    { name := "larrive", words := [rWord 0x1e 0 0 0 0x000], suffixes := [], slots := [slotRd] },
    { name := "larrive", words := [rWord 0x1e 0 0 0 0x100], suffixes := [.scope 0 2], slots := [slotRd, .mem 0 16] },
    { name := "lwait", words := [rWord 0x1e 0 0 0 0x200], suffixes := [.scope 0 2], slots := [slotRd, .mem 0 16, slotRb] },
    { name := "tfill", words := [rWord 0x1f 0 0 0 0x001], suffixes := [], slots := [slotRa] }]

/-- Scalar loads and stores, and scalar atomics (R208, R229). -/
def rowsScalarMem : List MdasRow :=
  let mem (name : String) (major : BitVec 6) (size : Nat) : MdasRow :=
    { name := name, words := [mWord major 0 0 0 (BitVec.ofNat 3 size)], suffixes := [], slots := [.reg .x 0 20, .memOff 0 15 (.scaled size)] }
  let atomic (name : String) (op : Nat) : MdasRow :=
    { name := name, words := [rWord 0x23 0 0 0 (BitVec.ofNat 11 (64 * op))], suffixes := [.wide 0 5, .scope 0 2, .order 0 0],
      slots := [slotRd, .mem 0 16, slotRb] }
  [mem "lb" 0x20 0, mem "lh" 0x20 1, mem "lw" 0x20 2, mem "ld" 0x20 3, mem "lbn" 0x21 0, mem "lhn" 0x21 1, mem "lwn" 0x21 2,
    mem "ldn" 0x21 3, mem "sb" 0x22 0, mem "sh" 0x22 1, mem "sw" 0x22 2, mem "sd" 0x22 3,
    atomic "amswp" 0, atomic "amcas" 1, atomic "amadd" 2, atomic "amand" 3, atomic "amor" 4, atomic "amxor" 5, atomic "ammin" 6,
    atomic "ammax" 7, atomic "amminn" 8, atomic "ammaxn" 9, atomic "amfadd" 10, atomic "amfmin" 11, atomic "amfmax" 12,
    atomic "amld" 13, atomic "amst" 14]

/-! ### A-format rows -/

/-- Integer and floating arithmetic (R156, R158). -/
def namesArith : List (String × AOp) :=
  [("vadd", .vadd), ("vsub", .vsub), ("vadds", .vadds), ("vsubs", .vsubs), ("vmul", .vmul), ("vmulh", .vmulh), ("vmacc", .vmacc),
    ("vwmacc", .vwmacc), ("vand", .vand), ("vor", .vor), ("vxor", .vxor), ("vandn", .vandn), ("vsll", .vsll), ("vsrl", .vsrl),
    ("vsra", .vsra), ("vssr", .vssr), ("vneg", .vneg), ("vfadd", .vfadd), ("vfsub", .vfsub), ("vfmul", .vfmul), ("vfdiv", .vfdiv),
    ("vfsqrt", .vfsqrt), ("vfrcp", .vfrcp), ("vfma", .vfma), ("vfms", .vfms), ("vfnma", .vfnma), ("vfwma", .vfwma)]

/-- Compares, mask operations, moves and conversions (R160, R163, R166). -/
def namesMove : List (String × AOp) :=
  [("vceq", .vceq), ("vcne", .vcne), ("vclt", .vclt), ("vcle", .vcle), ("vfceq", .vfceq), ("vfclt", .vfclt), ("vfcle", .vfcle),
    ("vfcun", .vfcun), ("vmin", .vmin), ("vmax", .vmax), ("vfmin", .vfmin), ("vfmax", .vfmax), ("kand", .kand), ("kor", .kor),
    ("kxor", .kxor), ("kandn", .kandn), ("knot", .knot), ("kmw", .kmw), ("kmr", .kmr), ("vmov", .vmov), ("vfneg", .vfneg),
    ("vfabs", .vfabs), ("vfsgnj", .vfsgnj), ("vrev", .vrev), ("vperm", .vperm), ("vslidn", .vslidn), ("vsliup", .vsliup),
    ("vidx", .vidx), ("vfcvt", .vfcvt), ("vfcvti", .vfcvti), ("vicvtf", .vicvtf), ("vnclip", .vnclip), ("vext", .vext)]

/-- Reductions (R170). -/
def namesReduce : List (String × AOp) :=
  [("vredsum", .vredsum), ("vwredsum", .vwredsum), ("vredmax", .vredmax), ("vredmin", .vredmin), ("vredand", .vredand),
    ("vredor", .vredor), ("vredxor", .vredxor), ("vfredsum", .vfredsum), ("vfwredsum", .vfwredsum), ("vfredmax", .vfredmax),
    ("vfredmin", .vfredmin), ("vsredsum", .vsredsum), ("vswredsum", .vswredsum), ("vsredmax", .vsredmax), ("vsredmin", .vsredmin),
    ("vsredand", .vsredand), ("vsredor", .vsredor), ("vsredxor", .vsredxor), ("vsfredsum", .vsfredsum),
    ("vsfwredsum", .vsfwredsum), ("vsfredmax", .vsfredmax), ("vsfredmin", .vsfredmin)]

/-- The attention chain and the reversible set (R176, R183). -/
def namesChain : List (String × AOp) :=
  [("vscore", .vscore), ("vscore.s", .vscoreS), ("vsegr", .vsegr), ("vexps", .vexps), ("vwacc", .vwacc), ("vclget", .vclget),
    ("vclput", .vclput), ("radd", .radd), ("uadd", .uadd), ("rxor", .rxor), ("rmulo", .rmulo), ("umulo", .umulo),
    ("rfmul", .rfmul), ("ufmul", .ufmul), ("rfadd", .rfadd), ("ufadd", .ufadd), ("rcvt", .rcvt), ("ucvt", .ucvt),
    ("rnrw", .rnrw), ("unrw", .unrw)]

/-- The mnemonics of the A-format instructions. -/
def vectorNames : List (String × AOp) := namesArith ++ namesMove ++ namesReduce ++ namesChain

/-- The instruction sweeps nothing and takes no guard: the mask operations, `vsegr` and `vexps` (R110, R160, R176). -/
def guardless (op : AOp) : Bool := [.kand, .kor, .kxor, .kandn, .knot, .kmw, .kmr, .vsegr, .vexps].contains op

/-- Type suffixes of an A-format mnemonic: none on mask operations, two on conversions, else one. -/
def typeSuffixes (op : AOp) : Nat :=
  if [.kand, .kor, .kxor, .kandn, .knot, .kmw, .kmr].contains op then 0
  else if op.code.1 = 0x2c || [.rcvt, .ucvt, .rnrw, .unrw].contains op then 2
  else 1

/-- The row of an A-format mnemonic. -/
def rowVector (x : String × AOp) : MdasRow :=
  let field (u : FieldUse) (lo : Nat) : List MdasSlot :=
    match u with
    | .ap => [.reg .ap 0 lo]
    | .mask => [.reg .k 0 lo]
    | .zero => []
  let u := x.2.uses
  { name := x.1, words := [AHalf.word ⟨x.2, 0, 0, 0⟩ 0], suffixes := List.replicate (typeSuffixes x.2) .type
    slots := field u.1 20 ++ field u.2.1 14 ++ field u.2.2 8 ++ (if accumulates x.2 then [.again 0] else [])
    guard := if guardless x.2 then .none else .vector }

/-! ### M- and L-format vector rows -/

/-- The first word of an L instruction with its F1X. -/
def longWord (xop : BitVec 12) (f1x : BitVec 10) : IWord := lWord xop 0 false f1x

/-- Table instructions, plane moves and carry moves (R153). -/
def rowsTable : List MdasRow :=
  let p : MdasSlot := .reg .ap 1 26
  let q : MdasSlot := .reg .ap 1 20
  let xa : MdasSlot := .reg .x 1 15
  let row (name : String) (xop : BitVec 12) (slots : List MdasSlot) (guard : MdasGuard) : MdasRow :=
    { name := name, words := [longWord xop 0, 0], suffixes := [], slots := slots, guard := guard }
  [row "adefx" 0x028 [p, xa] .none, row "aget" 0x029 [xa, q] .none, row "amov" 0x02a [p, q] .none, row "aswap" 0x02b [p, q] .none,
    row "abind" 0x02c [p, .reg .fs 1 6] .none, row "aunbind" 0x02d [p] .none, row "efcget" 0x030 [p] .long,
    row "efcput" 0x031 [q] .long, row "vsplat" 0x032 [p, xa] .long, row "vget" 0x033 [xa, q, .reg .x 1 10] .none]

/-- Vector memory, streams and translation of positions (R215, R216, R222, R226). -/
def rowsVectorMem : List MdasRow :=
  let data : MdasSlot := .reg .ap 0 4
  let mem : MdasSlot := .memOff 1 27 (.field 1 0 11 (-1024) 1023 0)
  let xs : MdasSlot := .reg .x 1 22
  let xr : MdasSlot := .reg .x 1 17
  let idx : MdasSlot := .reg .ap 1 11
  let row (name : String) (xop : BitVec 12) (nf : BitVec 10) (slots : List MdasSlot) (optional : Nat) : MdasRow :=
    { name := name, words := [longWord xop nf, 0], suffixes := [.type], slots := slots, optional := optional, guard := .long }
  let segment (n : Nat) : List MdasRow :=
    [row ("vlseg" ++ String.ofList [Char.ofNat (48 + n)]) 0x040 (BitVec.ofNat 10 (n - 1)) [data, mem, xs, xr] 2,
      row ("vsseg" ++ String.ofList [Char.ofNat (48 + n)]) 0x041 (BitVec.ofNat 10 (n - 1)) [data, mem, xs, xr] 2]
  let fs : MdasSlot := .reg .fs 0 0
  let x : MdasSlot := .reg .x 1 27
  let plain (name : String) (xop : BitVec 12) (slots : List MdasSlot) (guard : MdasGuard) : MdasRow :=
    { name := name, words := [longWord xop 0, 0], suffixes := [], slots := slots, guard := guard }
  [{ name := "vld", words := [mWord 0x24 0 0 0 0], suffixes := [.type], slots := [.reg .ap 0 20, .memOff 0 15 .spread], guard := .strided },
    { name := "vst", words := [mWord 0x25 0 0 0 0], suffixes := [.type], slots := [.reg .ap 0 20, .memOff 0 15 .spread], guard := .strided },
    row "vlds" 0x040 0 [data, mem, xs, xr] 2, row "vsts" 0x041 0 [data, mem, xs, xr] 2,
    row "vldx" 0x042 0 [data, mem, idx, xr] 1, row "vldxr" 0x042 0 [data, mem, idx, xs] 1,
    row "vstx" 0x043 0 [data, mem, idx, xr] 1, row "vstxr" 0x043 0 [data, mem, idx, xs] 1] ++
  (([2, 3, 4, 5, 6, 7, 8] : List Nat).map segment).flatten ++
  [plain "fsbind" 0x048 [fs, x] .none, plain "fsrel" 0x049 [fs] .none, plain "fsget" 0x04a [x, fs] .none,
    plain "vxlat" 0x060 [.reg .k 0 0, data, idx, x, xs] .long, plain "vxlat.ff" 0x061 [.reg .k 0 0, data, idx, x, xs] .long]

/-- Vector atomics, windows, the stair and transit (R203, R232, R234, R256). -/
def rowsAtomicStairTransit : List MdasRow :=
  let x : MdasSlot := .reg .x 1 27
  let idx : MdasSlot := .reg .ap 1 11
  let atomic (y : String × BitVec 12) : List MdasRow :=
    let suffixes : List MdasSuffix := [.type, .scope 1 24, .order 1 22]
    [{ name := y.1, words := [longWord y.2 0, 0], suffixes := suffixes, slots := [.reg .ap 0 4, .mem 1 27, idx], guard := .long },
      { name := y.1, words := [longWord y.2 0, 0x00200000], suffixes := suffixes
        slots := [.reg .ap 1 5, .reg .ap 0 4, .mem 1 27, idx], guard := .long }]
  let aw : MdasSlot := .reg .aw 0 8
  let plain (name : String) (xop : BitVec 12) (slots : List MdasSlot) : MdasRow :=
    { name := name, words := [longWord xop 0, 0], suffixes := [], slots := slots }
  let t (kind : MdasReg) : MdasSlot := .reg kind 1 23
  let ap : MdasSlot := .reg .ap 1 26
  let xr : MdasSlot := .reg .x 1 18
  (([("vamadd", 0x100), ("vamfadd", 0x101), ("vammin", 0x102), ("vammax", 0x103), ("vamfmin", 0x104), ("vamfmax", 0x105),
    ("vamand", 0x106), ("vamor", 0x107), ("vamxor", 0x108)] : List (String × BitVec 12)).map atomic).flatten ++
  [{ name := "accwin", words := [longWord 0x110 0, 0], suffixes := [.typeAt 0 0, .fold 0 6]
     slots := [aw, x, .reg .x 1 22, .reg .x 1 17] },
    { plain "awacc" 0x111 [aw, idx, .reg .ap 1 5] with guard := .long },
    { plain "merge" 0x112 [aw] with suffixes := [.scope 1 24, .order 1 22] },
    plain "awrel" 0x113 [aw], plain "stpeek" 0x140 [x], plain "stdrop" 0x141 [x], plain "stcut" 0x142 [x], plain "stsync" 0x143 [],
    plain "stpre" 0x144 [x], plain "tshape" 0x180 [.val (.field 1 0 7 1 128 1), .val (.field 1 8 6 1 64 1)],
    plain "tload" 0x181 [t .tt, ap], { plain "tmac" 0x184 [t .tt, ap, xr] with suffixes := [.type] },
    plain "tzero" 0x188 [t .ta], { plain "tdrain" 0x18c [ap, t .ta, xr] with suffixes := [.type], guard := .long },
    plain "trestart" 0x190 [.val (.disp 32 9)], plain "tclose" 0x191 []]

/-- Engine commands (R246). -/
def rowsEngine : List MdasRow :=
  let xa : MdasSlot := .reg .x 1 27
  let command (name : String) (xop : BitVec 12) (slots : List MdasSlot) : MdasRow :=
    { name := name, words := [longWord xop 0, 0], suffixes := [.scope 1 9], slots := slots }
  [command "cpy" 0x1c0 [xa, .reg .x 1 22, .reg .x 1 17, .reg .x 1 12], command "coll.ar" 0x1c4 [xa], command "coll.rs" 0x1c5 [xa],
    command "coll.ag" 0x1c6 [xa], command "coll.a2a" 0x1c7 [xa], command "upd.sgdm" 0x1c8 [xa], command "upd.adamw" 0x1c9 [xa],
    { name := "skipset", words := [longWord 0x1cc 0, 0], suffixes := [], slots := [xa, .reg .x 1 22] },
    { name := "wver", words := [longWord 0x1cd 0, 0], suffixes := [], slots := [.val (.field 0 0 6 0 63 0), xa] }]

/-- Every row. -/
def mdasRows : List MdasRow :=
  rowsAlu ++ rowsImm ++ rowsSystem ++ rowsScalarMem ++ vectorNames.map rowVector ++ rowsTable ++ rowsVectorMem ++
    rowsAtomicStairTransit ++ rowsEngine

/-- The scalar halves of a pair (R114, R145). -/
def pairRows : List MdasRow :=
  let word (sop : BitVec 6) : List IWord := [pWord 0 false (sop ++ 0#16), 0]
  let rd : MdasSlot := .reg .x 0 11
  let ra : MdasSlot := .reg .x 0 6
  let reg (name : String) (sop : BitVec 6) : MdasRow :=
    { name := name, words := word sop, suffixes := [], slots := [rd, ra, .reg .x 0 1] }
  let imm (name : String) (sop : BitVec 6) (least most : Int) : MdasRow :=
    { name := name, words := word sop, suffixes := [], slots := [rd, ra, .val (.field 0 0 6 least most 0)] }
  [reg "add" 0x01, reg "sub" 0x02, reg "and" 0x03, reg "or" 0x04, reg "xor" 0x05, reg "sll" 0x06, reg "srl" 0x07,
    imm "addi" 0x08 (-32) 31, imm "slli" 0x09 0 63, imm "srli" 0x0a 0 63, imm "srai" 0x0b 0 63, reg "sra" 0x0c]

/-! ### Names that no symbol may take (R348, R353) -/

/-- Pseudo-instructions (R351) and `adef`, whose syntax is its own (R151, R152). -/
def pseudoNames : List String := ["nop", "ret", "li", "la"]

/-- Directives (R352). -/
def directiveNames : List String :=
  [".text", ".data", ".rodata", ".bss", ".section", ".align", ".byte", ".half", ".word", ".dword", ".space", ".global", ".equ",
    ".include", ".macro", ".endm", ".gang", ".band", ".restart", ".stair", ".lifetime"]

/-- Digits without a leading zero, as a number. -/
def plainNumber (cs : List Char) : Option Nat :=
  if cs.isEmpty || !cs.all (fun c => c.isDigit) || (cs.head? == some '0' && decide (1 < cs.length)) then none
  else some (numFrom 10 cs).1

/-- The number of a named operand of a kind. -/
def MdasReg.number (kind : MdasReg) (s : String) : Option Nat :=
  let cs := (lower s).toList
  let pre := kind.names.1.toList
  if cs.take pre.length == pre then
    (plainNumber (cs.drop pre.length)).bind (fun n => if n < kind.names.2 then some n else none)
  else none

/-- The name is a register's. -/
def registerName (s : String) : Bool :=
  lower s == "km" || ([.x, .ap, .k, .fs, .tt, .ta, .aw] : List MdasReg).any (fun kind => (kind.number s).isSome)

/-- The name is a mnemonic's: of an instruction, its fixed suffixes with it. -/
def mnemonicName (s : String) : Bool :=
  let n := lower s
  (n == "adef" || mdasRows.any (fun r => r.name == n)) && !pseudoNames.contains n

/-- The name may not be used as a symbol (R348): mnemonics, register names and directive names. -/
def reservedName (s : String) : Bool := registerName s || directiveNames.contains (lower s) || mnemonicName s

end Sys2Proof.Machine
end

