-- ==== Sys2Proof/Machine/MdasRead.lean ====
section
/-! DEFINITION. How mdas reads a source (R348 to R353): instructions, pairs, guards and aperture definitions, directives, files
and macros. -/

namespace Sys2Proof.Machine

/-! ### Instructions -/

/-- An instruction as read: its words with the fields that its operands name, the expressions still to be put into them, the
TYPE codes of its suffixes, the guard that it takes, and the errors that its text shows. -/
structure MdasCode where
  words : List IWord
  holes : List (MdasFit × MdasExpr)
  types : List Nat
  guard : MdasGuard
  errors : List String
  deriving DecidableEq, Repr

/-- A number put into a field. -/
def MdasCode.put (c : MdasCode) (word lo v : Nat) : MdasCode :=
  { c with words := c.words.modify word (fun w => w ||| BitVec.ofNat 32 (v * 2 ^ lo)) }

/-- An expression left for a field. -/
def MdasCode.hole (c : MdasCode) (fit : MdasFit) (e : MdasExpr) : MdasCode := { c with holes := c.holes ++ [(fit, e)] }

/-- An error of the line. -/
def MdasCode.error (c : MdasCode) (code : String) : MdasCode := { c with errors := c.errors ++ [code] }

/-- TYPE code of a type name (R64). -/
def typeCode (s : String) : Option Nat :=
  let names := ["s8", "n8", "s16", "n16", "s32", "n32", "f16", "bf16", "f32", "h8", "i4"]
  if names.contains s then some (names.findIdx (fun n => n == s)) else none

/-- Code of a scope (R115): by its name, or by its number. -/
def scopeCode (s : String) : Option Nat :=
  let names := ["hart", "gang", "core", "die", "dev", "sys"]
  if names.contains s then some (names.findIdx (fun n => n == s)) else plainNumber s.toList

/-- One suffix read. -/
def MdasSuffix.read (x : MdasSuffix) (s : String) (c : MdasCode) : Option MdasCode :=
  let choice (names : List String) (word lo first : Nat) : Option MdasCode :=
    if names.contains s then some (c.put word lo (names.findIdx (fun n => n == s) + first)) else none
  match x with
  | .type => (typeCode s).map (fun t => { c with types := c.types ++ [t] })
  | .typeAt word lo => (typeCode s).map (c.put word lo)
  | .scope word lo => (scopeCode s).map (fun n => if n < 8 then c.put word lo n else c.error "E200")
  | .order word lo => choice ["acq", "rel", "ar"] word lo 1
  | .wide word lo => choice ["w", "d"] word lo 0
  | .fold word lo => choice ["add", "min", "max"] word lo 0

/-- The suffixes of a mnemonic read in turn; a qualifier may be left out. -/
def readSuffixes : List MdasSuffix → List String → MdasCode → Option MdasCode
  | [], [], c => some c
  | [.order _ _], [], c => some c
  | x :: xs, s :: ss, c => (x.read s c).bind (readSuffixes xs ss)
  | _, _, _ => none

/-- The number of a named operand. -/
def readReg (kind : MdasReg) : List MdasTok → Option Nat
  | [.name s] => kind.number s
  | _ => none

/-- A reserved name stands where a symbol would (R348). -/
def MdasExpr.reserved (e : MdasExpr) : Bool := e.names.any reservedName

/-- An instruction as read, without the operands that use a reserved name as a symbol (R426). -/
def MdasCode.named (c : MdasCode) : MdasCode :=
  if c.holes.any (fun h => h.2.reserved) then { c with holes := c.holes.filter (fun h => !h.2.reserved), errors := c.errors ++ ["E101"] }
  else c

/-- One operand read; `all` are the operands of the instruction. -/
def MdasSlot.read (x : MdasSlot) (all : List (List MdasTok)) (o : List MdasTok) (c : MdasCode) : Option MdasCode :=
  match x with
  | .reg kind word lo => (readReg kind o).map (c.put word lo)
  | .again n => (readReg .ap o).map (fun m => if readReg .ap (all.getD n []) = some m then c else c.error "E204")
  | .val fit => (readExpr o).map (c.hole fit)
  | .type word lo =>
    match o with
    | [.name s] => (typeCode (lower s)).map (c.put word lo)
    | _ => none
  | .mem word lo =>
    match o with
    | [.sign "[", .name b, .sign "]"] => (MdasReg.x.number b).map (c.put word lo)
    | _ => none
  | .memOff word lo fit =>
    match o with
    | .sign "[" :: .name b :: r =>
      if r.getLast? != some (.sign "]") then none
      else
        (MdasReg.x.number b).bind (fun n =>
          match r.dropLast with
          | [] => some (c.put word lo n)
          | .sign "+" :: e => (readExpr e).map ((c.put word lo n).hole fit)
          | _ => none)
    | _ => none

/-- The operands of an instruction read in turn. -/
def readSlots (all : List (List MdasTok)) : List MdasSlot → List (List MdasTok) → MdasCode → Option MdasCode
  | _, [], c => some c
  | x :: xs, o :: os, c => (x.read all o c).bind (readSlots all xs os)
  | [], _ :: _, _ => none

/-- The row read with suffixes and operands. -/
def MdasRow.read (r : MdasRow) (suffixes : List String) (ops : List (List MdasTok)) : Option MdasCode :=
  if ops.length + r.optional < r.slots.length || r.slots.length < ops.length then none
  else (readSuffixes r.suffixes suffixes ⟨r.words, [], [], r.guard, []⟩).bind (readSlots ops r.slots ops)

/-- The parts of a mnemonic between its dots. -/
def dotted (m : String) : List (List Char) := splitAtTop (fun c => c == '.') (fun _ => 0) (lower m).toList

/-- The rows that the longest fixed part of a mnemonic names, and its other suffixes. -/
def namedRows (rows : List MdasRow) (m : String) : List MdasRow × List String :=
  let parts := dotted m
  let at' (n : Nat) : List MdasRow :=
    let name := String.ofList (List.intercalate ['.'] (parts.take n))
    rows.filter (fun r => r.name == name)
  match ((List.range parts.length).reverse.map (fun n => n + 1)).find? (fun n => !(at' n).isEmpty) with
  | some n => (at' n, (parts.drop n).map String.ofList)
  | none => ([], [])

/-- An instruction of the rows. -/
def readCode (rows : List MdasRow) (ts : List MdasTok) : Option MdasCode :=
  match ts with
  | .name m :: r =>
    let x := namedRows rows m
    let cs := x.1.filterMap (fun row => row.read x.2 (operands r))
    ((cs.find? (fun c => !c.holes.any (fun h => h.2.reserved))).or cs.head?).map MdasCode.named
  | _ => none

/-! ### Aperture definitions (R151, R152, R351) -/

/-- What follows the origin of a rect or rectt: H and E. -/
def readShape (ts : List MdasTok) : Option (MdasExpr × MdasExpr) :=
  match exprFrom (ts.length + 1) ts with
  | some (rows, .name s :: r) =>
    match s.toList with
    | c :: cs =>
      if c != 'x' && c != 'X' then none
      else if cs.isEmpty then (readExpr r).map (fun e => (rows, e))
      else if r.isEmpty && (cs.headD ' ').isDigit && (lexNum cs).2.isEmpty then some (rows, .num (lexNum cs).1)
      else none
    | [] => none
  | _ => none

/-- The flags `bc` and `fs=N`, each at most once. -/
def readFlags : List (List MdasTok) → Option (Bool × Option MdasExpr)
  | [] => some (false, none)
  | o :: os =>
    (readFlags os).bind (fun x =>
      match o with
      | [.name s] => if lower s == "bc" && !x.1 then some (true, x.2) else none
      | .name s :: .sign "=" :: e =>
        if lower s == "fs" && x.2.isNone then (readExpr e).map (fun v => (x.1, some v)) else none
      | _ => none)

/-- `adef`, and the `abind` after it where it has `fs=N`. -/
def readAdef (ops : List (List MdasTok)) : Option MdasCode :=
  match ops with
  | o :: (.name kt :: .sign "(" :: r) :: flags =>
    (readReg .ap o).bind (fun n => (readFlags flags).bind (fun fl =>
      match (dotted kt).map String.ofList, exprFrom (r.length + 1) r with
      | [kind, ty], some (row0, .sign "," :: r') =>
        match typeCode ty, exprFrom (r'.length + 1) r' with
        | some t, some (col0, .sign ")" :: r'') =>
          let code (xop f1x : Nat) (holes : List (MdasFit × MdasExpr)) : MdasCode :=
            { words := [longWord (BitVec.ofNat 12 xop) (BitVec.ofNat 10 (16 * n + f1x)), 0]
              holes := [(.field 1 24 8 0 255 0, row0), (.field 1 14 10 0 1023 0, col0)] ++ holes
              types := [], guard := .none, errors := [] }
          let bind (c : MdasCode) : MdasCode :=
            match fl.2 with
            | none => c
            | some e => ({ c with words := c.words ++ [longWord 0x2c 0, BitVec.ofNat 32 (n * 2 ^ 26)] }).hole (.field 3 6 4 0 15 0) e
          if kind == "rect" || kind == "rectt" then
            (readShape r'').map (fun s =>
              let c := bind (code (t + (if kind == "rectt" then 16 else 0)) 0 [(.rows, s.1), (.slots (tyPack t), s.2)])
              if fl.1 then c.error "E203" else c)
          else
            let lines := ["row", "col", "diag", "adiag"]
            if lines.contains kind then
              (readExpr r'').map (fun e =>
                bind (code (0x20 + (if fl.1 then 4 else 0) + lines.findIdx (fun l => l == kind)) t [(.slots (tyPack t), e)]))
            else none
        | _, _ => none
      | _, _ => none))
  | _ => none

/-! ### Guards and pairs (R113, R350) -/

/-- A guard: its mask register and its sense. -/
structure MdasPrefix where
  k : Nat
  inverted : Bool
  deriving DecidableEq, Repr

/-- The guard before an instruction. -/
def readPrefix : List MdasTok → Option (Option MdasPrefix × List MdasTok)
  | .sign "?" :: .sign "!" :: .name s :: r => (MdasReg.k.number s).map (fun n => (some ⟨n, true⟩, r))
  | .sign "?" :: .name s :: r => (MdasReg.k.number s).map (fun n => (some ⟨n, false⟩, r))
  | .sign "?" :: _ => none
  | ts => some (none, ts)

/-- KG and KS, or G and GS, of a guard. -/
def MdasPrefix.bits (g : MdasPrefix) (k sense : Nat) : IWord := BitVec.ofNat 32 (g.k * 2 ^ k + (if g.inverted then 2 ^ sense else 0))

/-- An instruction under a guard: in the mask field of an A-format one or in a pair with the no-op before it, in KG and KS of a
sweeping L one, and with packed strides for `vld` and `vst` (R113, R215). -/
def MdasCode.guarded (c : MdasCode) (g : MdasPrefix) : MdasCode :=
  let w := c.words.headD 0
  match c.guard with
  | .none => c.error "E205"
  | .vector =>
    if g.k ≤ 3 && !g.inverted then { c with words := [w ||| BitVec.ofNat 32 g.k] }
    else { c with words := [pWord 0 false 0 ||| g.bits 23 22, w] }
  | .long => { c with words := c.words.modify 0 (fun w => w ||| g.bits 11 10) }
  | .strided =>
    { c with
      words := [longWord (if fMajor w = 0x24 then 0x40 else 0x41) (BitVec.ofNat 10 (16 * (fApd w).toNat)) ||| g.bits 11 10,
        BitVec.ofNat 32 ((fBase w).toNat * 2 ^ 27)]
      holes := c.holes.map (fun x => (.field 1 0 11 (-1024) 1023 0, x.2)) }

/-- A pair of a scalar half and a vector half, under a guard or none; halves that make none stand one after the other. -/
def pairOf (g : Option MdasPrefix) (sc vec : MdasCode) : MdasCode :=
  let v := vec.words.headD 0
  let c : MdasCode :=
    { words := [sc.words.headD 0 ||| (match g with | some x => x.bits 23 22 | none => 0), v]
      holes := sc.holes, types := vec.types, guard := .none, errors := sc.errors ++ vec.errors }
  let alone : Bool := vec.words.length = 1 && 0x28 ≤ (fMajor v).toNat && (fMajor v).toNat ≤ 0x2f
  if !alone || (g.isSome && vec.guard != .vector) then ({ c with words := sc.words ++ vec.words } : MdasCode).error "E205" else c

/-- The text is an instruction, whichever its operands, that the rows do not name. -/
def outsideRows (rows : List MdasRow) (ts : List MdasTok) : Bool :=
  match ts with
  | .name m :: _ =>
    (!(namedRows mdasRows m).1.isEmpty || (["adef", "li", "la"] : List String).contains (lower m)) && (namedRows rows m).1.isEmpty
  | _ => false

/-! ### Statements -/

/-- What a line holds besides its label (R348 to R352). -/
inductive MdasBody where
  | blank
  /-- A line that its text alone makes an error, with the entries and x registers that it names, and the words that its register operands
  give each of its instructions; where there are none, it names destinations alone. -/
  | rejected (code : String) (aps xs : List Nat) (words : List (List IWord))
  | code (c : MdasCode)
  | li (xd : Nat) (e : MdasExpr)
  | la (xd : Nat) (e : MdasExpr)
  | data (size : Nat) (es : List MdasExpr)
  | space (e : MdasExpr)
  | align (e : MdasExpr)
  | sect (name : String) (flags : Nat)
  | globl (name : String)
  | equ (name : String) (e : MdasExpr)
  | gang (e : MdasExpr)
  | band (e : MdasExpr)
  | stair (e : MdasExpr)
  /-- 0 any, 1 A1, 2 B0. -/
  | lifetime (step : Nat)
  deriving DecidableEq, Repr

/-- The words of a row with those operands that can be read. -/
def MdasRow.partly (r : MdasRow) (ops : List (List MdasTok)) : List IWord :=
  ((r.slots.zip ops).foldl (fun (c : MdasCode) x => (x.1.read ops x.2 c).getD c) ⟨r.words, [], [], r.guard, []⟩).words

/-- The row that an instruction's name gives, with as many operands as it has if there is one. -/
def rowOf (m : String) (n : Nat) : Option MdasRow :=
  let rs := (namedRows mdasRows m).1 ++ (namedRows pairRows m).1
  (rs.find? (fun r => r.slots.length == n)).or rs.head?

/-- A line without its guard, or without what stands in the place of one. -/
def afterPrefix (ts : List MdasTok) : List MdasTok :=
  match readPrefix ts with
  | some x => x.2
  | none =>
    let r := ts.dropWhile (fun t => t == .sign "?" || t == .sign "!" || t == .stray)
    match r with
    | .name m :: r' => if (rowOf m 0).isSome then r else r'
    | _ => r

/-- An error of a line's text: the words that its operands give where they can be read, by which its destinations are told; of an
instruction that is none, the first operands (R349, R425). -/
def rejectLine (code : String) (ts : List MdasTok) : MdasBody :=
  let ts := afterPrefix ts
  let halves := splitAtTop (fun t => t == .sign "||") (fun _ => 0) ts
  let words := halves.filterMap (fun h =>
    match h with
    | .name m :: r => (rowOf m (operands r).length).map (fun row => row.partly (operands r))
    | _ => none)
  let ops := if words.length = halves.length then halves.flatMap (fun h => operands h.tail)
    else halves.map (fun h => (operands h.tail).headD [])
  .rejected code (ops.filterMap (readReg .ap)) (ops.filterMap (readReg .x)) (if words.length = halves.length then words else [])

/-- An instruction, its halves and its guard. -/
def readInstr (ts : List MdasTok) : MdasBody :=
  match readPrefix ts with
  | none => rejectLine "E100" ts
  | some (g, rest) =>
    match splitAtTop (fun t => t == .sign "||") (fun _ => 0) rest with
    | [one] =>
      let plain : MdasBody :=
        match one with
        | .name m :: r =>
          if lower m == "li" || lower m == "la" then
            match operands r with
            | [x, e] =>
              match readReg .x x, readExpr e with
              | some n, some e =>
                if g.isSome then rejectLine "E205" ts
                else if e.reserved then rejectLine "E101" ts
                else if lower m == "li" then .li n e else .la n e
              | _, _ => rejectLine "E100" ts
            | _ => rejectLine "E100" ts
          else
            match (if lower m == "adef" then (readAdef (operands r)).map MdasCode.named else readCode mdasRows one) with
            | none => rejectLine "E100" ts
            | some c =>
              match g with
              | none => .code c
              | some x => .code (c.guarded x)
        | _ => rejectLine "E100" ts
      plain
    | [a, b] =>
      match readCode pairRows a, readCode mdasRows b with
      | some sc, some v => .code (pairOf g sc v)
      | sc, v =>
        let read (half : Option MdasCode) (rows : List MdasRow) (text : List MdasTok) : Bool := half.isSome || outsideRows rows text
        rejectLine (if read sc pairRows a && read v mdasRows b then "E205" else "E100") ts
    | _ => rejectLine "E100" ts

/-- Flags of a section (R352, R354). -/
def sectFlags (s : String) : Option Nat :=
  s.toList.foldl (fun f c => f.bind (fun n =>
    match c with
    | 'a' => some (n ||| 1)
    | 'w' => some (n ||| 2)
    | 'x' => some (n ||| 4)
    | 'n' => some (n ||| 8)
    | _ => none)) (some 0)

/-- A directive (R352), besides `.include`, `.macro` and `.endm`. -/
def readDirective (d : String) (r : List MdasTok) : Option MdasBody :=
  let sound (es : List MdasExpr) (b : MdasBody) : MdasBody := if es.any MdasExpr.reserved then .rejected "E101" [] [] [] else b
  let one (f : MdasExpr → MdasBody) : Option MdasBody := (readExpr r).map (fun e => sound [e] (f e))
  let data (size : Nat) : Option MdasBody :=
    let es := (operands r).map readExpr
    if r.isEmpty || es.any (fun e => e.isNone) then none else some (sound (es.filterMap id) (.data size (es.filterMap id)))
  let plain (b : MdasBody) : Option MdasBody := if r.isEmpty then some b else none
  match d with
  | ".text" => plain (.sect ".text" 5)
  | ".data" => plain (.sect ".data" 3)
  | ".rodata" => plain (.sect ".rodata" 1)
  | ".bss" => plain (.sect ".bss" 11)
  | ".section" =>
    match r with
    | [.name n, .sign ",", .text f] => (sectFlags f).map (.sect n)
    | _ => none
  | ".align" => one .align
  | ".byte" => data 1
  | ".half" => data 2
  | ".word" => data 4
  | ".dword" => data 8
  | ".space" => one .space
  | ".global" =>
    match r with
    | [.name n] => some (if reservedName n then .rejected "E101" [] [] [] else .globl n)
    | _ => none
  | ".equ" =>
    match r with
    | .name n :: .sign "," :: e => (readExpr e).map (fun v => sound [v, .name n] (.equ n v))
    | _ => none
  | ".gang" => one .gang
  | ".band" => one .band
  | ".stair" => one .stair
  | ".restart" => plain (.code ⟨[longWord 0x190 0, 2], [], [], .none, []⟩)
  | ".lifetime" =>
    match r with
    | [.name s] =>
      if s == "any" then some (.lifetime 0) else if s == "A1" then some (.lifetime 1) else if s == "B0" then some (.lifetime 2) else none
    | _ => none
  | _ => none

/-- What the text of a line holds after its label. -/
def readBody (cs : List Char) : MdasBody :=
  match lex cs with
  | none =>
    match lexAll cs with
    | .name m :: r =>
      if directiveNames.contains (lower m) then .rejected "E100" [] [] [] else rejectLine "E100" (.name m :: r)
    | ts => rejectLine "E100" ts
  | some [] => .blank
  | some ts =>
    match ts with
    | .name m :: r =>
      if directiveNames.contains (lower m) then (readDirective (lower m) r).getD (.rejected "E100" [] [] []) else readInstr ts
    | _ => readInstr ts

/-! ### Files and macros (R352, R353) -/

/-- A line of the source as expanded: its place with the lines that enclose it, innermost first, and its text. -/
structure MdasLine where
  place : List (String × Nat)
  text : String
  label : Option String
  body : MdasBody
  deriving DecidableEq, Repr

/-- A macro: its body keeps the places of its lines. -/
structure MdasMacro where
  name : String
  params : List String
  lines : List ((String × Nat) × String)
  deriving DecidableEq, Repr

/-- The source expanded so far, the macros defined, the expansions made, and the macro whose body is being read with the place
of its `.macro`. -/
structure MdasPre where
  lines : List MdasLine
  macros : List MdasMacro
  count : Nat
  reading : Option (MdasMacro × List (String × Nat) × Bool)
  deriving DecidableEq, Repr

/-- A line put after the others. -/
def MdasPre.add (s : MdasPre) (place : List (String × Nat)) (text : String) (label : Option String) (body : MdasBody) : MdasPre :=
  { s with lines := s.lines ++ [⟨place, text, label, body⟩] }

/-- The label at the head of a line, and what follows it. -/
def readLabel (cs : List Char) : Option String × List Char :=
  match cs with
  | [] => (none, [])
  | c :: _ =>
    if !symStart c then (none, cs)
    else
      match (cs.dropWhile symChar).dropWhile blankChar with
      | ':' :: r => (some (String.ofList (cs.takeWhile symChar)), r.dropWhile blankChar)
      | _ => (none, cs)

/-- The text put in place of what follows a `\`, and the rest: `@` is the number of the expansion, a parameter its argument;
the longest parameter counts. -/
def substituteOne (number : Nat) (args : List (List Char × List Char)) (cs : List Char) : List Char × List Char :=
  match cs with
  | '@' :: r => ((toString number).toList, r)
  | _ =>
    let best := (args.filter (fun a => cs.take a.1.length == a.1)).foldl
      (fun (b : Option (List Char × List Char)) a => if (b.map (fun x => x.1.length)).getD 0 < a.1.length then some a else b) none
    match best with
    | some a => (a.2, cs.drop a.1.length)
    | none => (['\\'], cs)

/-- The text of a macro's line in an expansion; the first argument bounds its length. -/
def substitute (number : Nat) (args : List (List Char × List Char)) : Nat → List Char → List Char
  | 0, cs => cs
  | _, [] => []
  | n + 1, c :: cs =>
    if c == '\\' then
      let x := substituteOne number args cs
      x.1 ++ substitute number args n x.2
    else c :: substitute number args n cs

/-- The arguments of a macro, as texts. -/
def readArgs (cs : List Char) : List (List Char) :=
  if (trim cs).isEmpty then []
  else (splitAtTop (fun c => c == ',') (fun c => if c == '(' || c == '[' then 1 else if c == ')' || c == ']' then -1 else 0) cs).map trim

/-- The name and the parameters that a `.macro` line gives. -/
def readMacro (cs : List Char) : Option MdasMacro :=
  let name := String.ofList (cs.takeWhile symChar)
  let params := (readArgs (cs.dropWhile symChar)).map String.ofList
  if isSymbol name && params.all isSymbol then some ⟨name, params, []⟩ else none

/-- A macro may not take the name (R353): a mnemonic's, a pseudo-instruction's, a directive's. -/
def macroNameTaken (s : String) : Bool :=
  mnemonicName s || pseudoNames.contains (lower s) || directiveNames.contains (lower s)

/-- The lines of a text. -/
def textLines (s : String) : List String := (splitAtTop (fun c => c == '\n') (fun _ => 0) s.toList).map String.ofList

/-- The lines of a file with their places. -/
def fileLines (name text : String) (outer : List (String × Nat)) : List (List (String × Nat) × String) :=
  let ls := textLines text
  ((List.range ls.length).zip ls).map (fun x => ((name, x.1 + 1) :: outer, x.2))

/-- The first file of a name in the directories. -/
def findFile (files : List (String × String)) (dirs : List String) (name : String) : Option (String × String) :=
  let dirs := if name.toList.head? == some '/' then [""] else dirs
  dirs.findSome? (fun d => files.find? (fun f => f.1 == d ++ name))

/-- The source with its files included and its macros expanded. The first number bounds the depth; `m` macros and `i` files
enclose the lines. -/
def expandLines (files : List (String × String)) (dirs : List String) :
    Nat → Nat → Nat → List (List (String × Nat) × String) → MdasPre → MdasPre
  | 0, _, _, _, s => s
  | n + 1, m, i, ls, s =>
    let s := ls.foldl (fun (s : MdasPre) (l : List (String × Nat) × String) =>
      let lr := readLabel (trim (uncomment false l.2.toList))
      let head := String.ofList (lr.2.takeWhile (fun c => !blankChar c))
      let rest := trim (lr.2.dropWhile (fun c => !blankChar c))
      let add (b : MdasBody) : MdasPre := s.add l.1 l.2 lr.1 b
      match s.reading with
      | some (mc, p, good) =>
        if lower head == ".endm" then
          { s with reading := none, macros := if good then mc :: s.macros else s.macros }
        else { s with reading := some ({ mc with lines := mc.lines ++ [(l.1.headD ("", 0), l.2)] }, p, good) }
      | none =>
        if lower head == ".macro" then
          match readMacro rest with
          | some mc =>
            let good := !macroNameTaken mc.name
            { add (if good then .blank else .rejected "E304" [] [] []) with reading := some (mc, l.1, good) }
          | none => { add (.rejected "E100" [] [] []) with reading := some (⟨"", [], []⟩, l.1, false) }
        else if lower head == ".endm" then add (.rejected "E100" [] [] [])
        else if lower head == ".include" then
          match lex rest with
          | some [.text f] =>
            match (if i < 16 then findFile files dirs f else none) with
            | some x => expandLines files dirs n m (i + 1) (fileLines x.1 x.2 l.1) (add .blank)
            | none => add (.rejected "E303" [] [] [])
          | _ => add (.rejected "E100" [] [] [])
        else
          match s.macros.find? (fun x => x.name == head) with
          | none => add (readBody lr.2)
          | some mc =>
            let args := readArgs rest
            if 64 ≤ m then add (.rejected "E304" [] [] [])
            else if mc.params.length < args.length then add (.rejected "E100" [] [] [])
            else
              let pairs := (List.range mc.params.length).map (fun k => ((mc.params.getD k "").toList, args.getD k []))
              let lines := mc.lines.map (fun x =>
                (x.1 :: l.1, String.ofList (substitute s.count pairs x.2.toList.length x.2.toList)))
              expandLines files dirs n (m + 1) i lines { add .blank with count := s.count + 1 }) s
    match s.reading with
    | some (_, p, _) => { s.add p ".macro" none (.rejected "E100" [] [] []) with reading := none }
    | none => s

end Sys2Proof.Machine
end

