-- ==== Sys2Proof/Machine/MdasLayout.lean ====
section
/-! DEFINITION. The two passes of mdas (R348 to R352, R354, R355): places and symbols first, then words, bytes and relocations,
with the errors of R426 that each finds. -/

namespace Sys2Proof.Machine

/-! ### Options (R347) -/

/-- The options of a run. -/
structure MdasOptions where
  /-- `-step`: 0 any, 1 A1, 2 B0; none where it is not given. -/
  step : Option Nat
  /-- `-priv s`. -/
  privS : Bool
  /-- `-W error`. -/
  warnError : Bool
  /-- The checks of `-w`. -/
  silent : List String
  /-- The directories of `-I`. -/
  dirs : List String
  /-- The constants of `-D`. -/
  defs : List (String × Word)
  out : Option String
  listing : Option String
  file : String
  deriving DecidableEq, Repr

/-- No option given. -/
def MdasOptions.none : MdasOptions := ⟨Option.none, false, false, [], [], [], Option.none, Option.none, ""⟩

/-- `name=value` of `-D`. -/
def readDefine (defs : List (String × Word)) (s : String) : Option (String × Word) :=
  let name := String.ofList (s.toList.takeWhile (fun c => c != '='))
  let value := s.toList.dropWhile (fun c => c != '=')
  if !isSymbol name || reservedName name || defs.any (fun d => d.1 == name) || value.isEmpty then none
  else ((lex value.tail).bind readExpr).bind (fun e => if e.reserved then none else (MdasEnv.constant ⟨defs, [], 0⟩ e).map (fun v => (name, v)))

/-- The options and the file of a command line; none where an option is malformed. -/
def readOptions : List String → MdasOptions → Option MdasOptions
  | [], _ => none
  | [f], o => if f.toList.head? == some '-' then none else some { o with file := f }
  | a :: v :: r, o =>
    match a with
    | "-o" => readOptions r { o with out := some v }
    | "-step" =>
      if v == "any" then readOptions r { o with step := some 0 }
      else if v == "A1" then readOptions r { o with step := some 1 }
      else if v == "B0" then readOptions r { o with step := some 2 }
      else none
    | "-priv" => if v == "u" || v == "s" then readOptions r { o with privS := v == "s" } else none
    | "-I" => readOptions r { o with dirs := o.dirs ++ [v] }
    | "-D" =>
      match readDefine o.defs v with
      | some d => readOptions r { o with defs := o.defs ++ [d] }
      | none => none
    | "-l" => readOptions r { o with listing := some v }
    | "-W" => if v == "error" then readOptions r { o with warnError := true } else none
    | "-w" =>
      if (["extent", "snapshot", "undo", "fence", "type"] : List String).contains v then readOptions r { o with silent := v :: o.silent }
      else none
    | _ => none

/-! ### Sections and places (R352, R354) -/

structure MdasSect where
  name : String
  flags : Nat
  data : List Byte
  size : Nat
  align : Nat
  deriving DecidableEq, Repr

structure MdasRel where
  offset : Nat
  addend : Word
  sym : String
  sect : Nat
  ty : Nat
  deriving DecidableEq, Repr

/-- A line with its place: its section and offset, its size, the value of its expression, and, after the second pass, its
words and whether a relocation fills an immediate of it. -/
structure MdasItem where
  line : Nat
  src : MdasLine
  sect : Nat
  off : Nat
  size : Nat
  value : Word
  words : List IWord
  data : List Byte
  reloc : Bool
  bad : Bool
  deriving DecidableEq, Repr

/-- What the passes have found. -/
structure MdasPass where
  sects : List MdasSect
  cur : Nat
  syms : List MdasSym
  consts : List (String × Word)
  gang : Nat
  band : Nat
  step : Nat
  items : List MdasItem
  diags : List (Nat × String)
  deriving DecidableEq, Repr

/-- A section of no contents yet. -/
def newSect (name : String) (flags : Nat) : MdasSect := ⟨name, flags, [], 0, if pteBit flags 2 then 4 else 1⟩

/-- A symbol put into the table, or changed there. -/
def putSym (syms : List MdasSym) (name : String) (f : MdasSym → MdasSym) : List MdasSym :=
  if syms.any (fun y => y.name == name) then syms.map (fun y => if y.name == name then f y else y)
  else syms ++ [f ⟨name, 0, false, 0⟩]

/-- Highest halfword at which a constant is not 0, or 0 (R351). -/
def liTop (v : Word) : Nat := if 2 ^ 48 ≤ v.toNat then 3 else if 2 ^ 32 ≤ v.toNat then 2 else if 2 ^ 16 ≤ v.toNat then 1 else 0

/-- The expression of a line that its place in the layout rests on. -/
def firstExpr : MdasBody → Option MdasExpr
  | .li _ e | .space e | .align e | .equ _ e | .gang e | .band e | .stair e => some e
  | _ => none

/-- Bytes that a line takes at an offset. -/
def bodySize (b : MdasBody) (v : Word) (off : Nat) : Nat :=
  match b with
  | .code c => 4 * c.words.length
  | .li _ _ => 4 * (liTop v + 1)
  | .la _ _ => 16
  | .data size es => size * es.length
  | .space _ => v.toNat
  | .align _ => if v = 0 then 0 else ceilTo v.toNat off - off
  | _ => 0

/-- n is a power of two. -/
def isPow2 (n : Nat) : Bool := decide (0 < n) && decide (2 ^ Nat.log2 n = n)

/-- The name is taken. -/
def MdasPass.defined (p : MdasPass) (n : String) : Bool :=
  p.consts.any (fun x => x.1 == n) || p.syms.any (fun y => y.name == n && y.sect != 0)

/-- What the symbols stand for in a section. -/
def MdasPass.env (p : MdasPass) (sect : Nat) : MdasEnv := ⟨p.consts, p.syms, sect⟩

/-- The label of a line may not be defined by it: the name is reserved or taken. -/
def MdasPass.badLabel (p : MdasPass) (l : MdasLine) : Bool := l.label.any (fun n => reservedName n || p.defined n)

/-- The errors of a line that its place shows (R426); `v` is the value of its expression. -/
def MdasPass.errors (p : MdasPass) (o : MdasOptions) (l : MdasLine) (v : Option Word) : List String :=
  let sect := p.sects.getD p.cur (newSect "" 0)
  let open' : Bool := (firstExpr l.body).isSome && v.isNone
  let x := (v.getD 0).toInt
  let own : List String :=
    match l.body with
    | .rejected c _ _ _ => [c]
    | .code c => c.errors
    | .data size _ => if sect.size % size ≠ 0 then ["E301"] else []
    | .space _ => if x < 0 then ["E200"] else []
    | .align _ => if x < 0 || !isPow2 x.toNat || (sect.name == ".text" && decide (x < 4)) then ["E301"] else []
    | .sect _ f => if pteBit f 1 && pteBit f 2 && !o.privS then ["E300"] else []
    | .gang _ => if x < 1 ∨ 4 < x ∨ (p.gang ≠ 0 ∧ p.gang ≠ x.toNat) then ["E302"] else []
    | .band _ => if x < 16 ∨ 256 < x ∨ x % 16 ≠ 0 ∨ (p.band ≠ 0 ∧ p.band ≠ x.toNat) then ["E302"] else []
    | .lifetime n => if o.step.isSome && o.step != some n then ["E305"] else []
    | _ => []
  let name : List String :=
    match l.body with
    | .equ n _ => if p.defined n then ["E302"] else []
    | _ => []
  (if p.badLabel l then ["E101"] else []) ++ name ++ (if open' then ["E102"] else own)

/-- What is known before a first pass: the constants and the symbols of the pass before it, and the codes of lines found to be in error,
which emit nothing (R425). -/
structure MdasPrior where
  consts : List (String × Word)
  syms : List MdasSym
  bad : List (Nat × String)
  deriving DecidableEq, Repr

/-- One line of the first pass: its label defined, its place kept, its section grown. Its expression may name what is defined below
it. -/
def MdasPass.line (o : MdasOptions) (k : MdasPrior) (p : MdasPass) (num : Nat) (l : MdasLine) : MdasPass :=
  let v := (firstExpr l.body).bind (MdasEnv.constant ⟨p.consts ++ k.consts, p.syms ++ k.syms, p.cur⟩)
  let errs := (p.errors o l v ++ (k.bad.filter (fun x => x.1 == num)).map (·.2)).eraseDups
  let off := (p.sects.getD p.cur (newSect "" 0)).size
  let size := if errs.isEmpty then bodySize l.body (v.getD 0) off else 0
  let p := { p with diags := p.diags ++ errs.map (fun e => (num, e))
                    items := p.items ++ [⟨num, l, p.cur, off, size, v.getD 0, [], [], false, !errs.isEmpty⟩] }
  let p := match l.label with
    | some n => if p.badLabel l then p else { p with syms := putSym p.syms n (fun y => { y with sect := p.cur + 1, value := off }) }
    | none => p
  if !errs.isEmpty then p
  else
    match l.body with
    | .sect name f =>
      match p.sects.findIdx? (fun c => c.name == name) with
      | some i => { p with cur := i }
      | none => { p with sects := p.sects ++ [newSect name f], cur := p.sects.length }
    | .globl n => { p with syms := putSym p.syms n (fun y => { y with global := true }) }
    | .equ n _ => { p with consts := p.consts ++ [(n, v.getD 0)] }
    | .gang _ => { p with gang := (v.getD 0).toNat }
    | .band _ => { p with band := (v.getD 0).toNat }
    | .lifetime n => { p with step := n }
    | b =>
      { p with sects := p.sects.modify p.cur (fun c =>
        { c with size := c.size + size
                 align := match b with
                   | .align _ => max c.align (v.getD 0).toNat
                   | _ => c.align }) }

/-- The first pass. -/
def firstPass (o : MdasOptions) (src : List MdasLine) (k : MdasPrior) : MdasPass :=
  ((List.range src.length).zip src).foldl (fun p x => p.line o k x.1 x.2)
    { sects := [newSect ".text" 5], cur := 0, syms := [], consts := o.defs, gang := 0, band := 0, step := o.step.getD 0,
      items := [], diags := [] }

/-- First passes until what they define stays: a line may rest on a symbol defined below it, whose place it may change. Where n passes do
not settle that, such a line cannot be evaluated. -/
def settlePass (o : MdasOptions) (src : List MdasLine) (bad : List (Nat × String)) : Nat → MdasPrior → MdasPass
  | 0, _ => firstPass o src ⟨[], [], bad⟩
  | n + 1, k =>
    let p := firstPass o src k
    if decide (p.consts = k.consts) && decide (p.syms = k.syms) then p else settlePass o src bad n ⟨p.consts, p.syms, bad⟩

/-! ### Words and relocations (R349, R351, R355) -/

/-- A displacement of n bits from place `off` of a section to a symbol: resolved, in a relocation, or out of range. -/
def displace (p : MdasPass) (sect off : Nat) (target : String) (addend : Word) (n ty : Nat) :
    Except String (Nat × List MdasRel) :=
  match p.syms.find? (fun y => y.name == target && y.sect == sect + 1) with
  | none => .ok (0, [⟨off, addend, target, sect, ty⟩])
  | some y =>
    let d : Int := (y.value : Int) + addend.toInt - off
    if d % 4 ≠ 0 ∨ d / 4 < -(2 ^ (n - 1) : Nat) ∨ (2 ^ (n - 1) : Nat) ≤ d / 4 then .error "E206" else .ok (wrap n (d / 4), [])

/-- What the second pass makes of a line. -/
structure MdasOut where
  words : List IWord
  data : List Byte
  rels : List MdasRel
  reloc : Bool
  errors : List String

/-- Words without more. -/
def MdasOut.ofWords (ws : List IWord) : MdasOut := ⟨ws, [], [], false, []⟩

/-- An error found. -/
def MdasOut.error (m : MdasOut) (code : String) : MdasOut := { m with errors := m.errors ++ [code] }

/-- A number put into a field. -/
def MdasOut.put (m : MdasOut) (word lo v : Nat) : MdasOut :=
  { m with words := m.words.modify word (fun w => w ||| BitVec.ofNat 32 (v * 2 ^ lo)) }

/-- The smallest size whose scale divides an offset and leaves a quotient of 12 bits (R215). -/
def spreadSize (x : Int) : Option Nat :=
  (List.range 8).find? (fun s => decide (x % (2 ^ s : Nat) = 0 ∧ -2048 ≤ x / (2 ^ s : Nat) ∧ x / (2 ^ s : Nat) ≤ 2047))

/-- A constant put into its field, or the error of a value that does not fit. -/
def MdasOut.fit (m : MdasOut) (f : MdasFit) (x : Int) : MdasOut :=
  match f with
  | .field word lo width least most bias =>
    if least ≤ x ∧ x ≤ most then m.put word lo (wrap width (x - bias)) else m.error "E200"
  | .imm least most => if least ≤ x ∧ x ≤ most then m.put 0 0 (wrap 16 x) else m.error "E200"
  | .scaled size =>
    if x % (2 ^ size : Nat) = 0 ∧ -2048 ≤ x / (2 ^ size : Nat) ∧ x / (2 ^ size : Nat) ≤ 2047 then m.put 0 3 (wrap 12 (x / (2 ^ size : Nat)))
    else m.error "E201"
  | .spread =>
    match spreadSize x with
    | some s => (m.put 0 3 (wrap 12 (x / (2 ^ s : Nat)))).put 0 0 s
    | none => m.error "E200"
  | .rows => if 1 ≤ x ∧ x ≤ 256 then (m.put 0 0 ((x.toNat - 1) / 16)).put 1 0 ((x.toNat - 1) % 16) else m.error "E202"
  | .slots pack =>
    if x % pack = 0 ∧ 1 ≤ x / pack ∧ x / pack ≤ 1024 then m.put 1 4 ((x / pack).toNat % 1024) else m.error "E202"
  | .disp _ _ => m.error "E102"

/-- An expression put into its field (R349, R355). -/
def MdasOut.fill (p : MdasPass) (t : MdasItem) (m : MdasOut) (h : MdasFit × MdasExpr) : MdasOut :=
  match (p.env t.sect).eval h.2 with
  | none => m.error "E102"
  | some v =>
    match h.1, v with
    | .disp width ty, .sym n a =>
      match displace p t.sect t.off n a width ty with
      | .error e => m.error e
      | .ok (d, rs) => { m.put (if width = 32 then 1 else 0) 0 d with rels := m.rels ++ rs }
    | .imm _ _, .hw k n a => { m with rels := m.rels ++ [⟨t.off, a, n, t.sect, 5 + k⟩], reloc := true }
    | .imm least most, .const x =>
      let halved : Bool := match h.2 with | .hw _ _ => true | _ => false
      if halved || (p.env t.sect).home h.2 then m.fit (.imm least most) x.toInt else m.error "E102"
    | f, _ =>
      match (p.env t.sect).constant h.2 with
      | some x => m.fit f x.toInt
      | none => m.error "E102"

/-- The instructions in the words of a line. -/
def splitWords : List IWord → List (IWord × IWord)
  | [] => []
  | [w] => [(w, 0)]
  | w :: v :: ws => if isLong w then (w, v) :: splitWords ws else (w, 0) :: splitWords (v :: ws)

/-- The words of an instruction that mdas can write hold a value that the entry of the instruction reserves (R119): a scope, a
qualifier or a size that it does not take, a field that must be 0, a reserved TYPE, or segment entries past ap63 (R208, R217, R229,
R232, R234, R238, R241, R246). -/
def reservedValue (w v : IWord) : Bool :=
  let at' (x : IWord) (lo n : Nat) : Nat := (x.extractLsb' lo n).toNat
  let badScope (s : Nat) : Bool := decide (5 < s)
  match (fMajor w).toNat with
  | 0x1d => badScope (at' w 0 3)
  | 0x1e => decide (0x100 ≤ at' w 0 11 ∧ at' w 0 11 < 0x300) && (decide (at' w 2 3 < 2) || badScope (at' w 2 3))
  | 0x23 =>
    badScope (at' w 2 3) ||
      match at' w 6 5 with
      | 10 | 11 | 12 => decide (at' w 5 1 = 1)
      | 13 => decide (fRb w ≠ 0 ∨ 2 ≤ at' w 0 2)
      | 14 => decide (fRd w ≠ 0 ∨ at' w 0 2 % 2 = 1)
      | _ => false
  | 0x3e =>
    let x := (fXop w).toNat
    if x = 0x40 ∨ x = 0x41 then decide (63 < at' w 4 6 + at' w 0 3)
    else if 0x100 ≤ x ∧ x ≤ 0x108 then badScope (at' v 24 3)
    else if x = 0x110 then !([4, 5, 8] : List Nat).contains (at' w 0 4)
    else if x = 0x112 then badScope (at' v 24 3) || decide (at' v 22 2 % 2 = 1)
    else if 0x1c0 ≤ x ∧ x ≤ 0x1c9 then badScope (at' v 9 3)
    else false
  | _ => false

/-- A reserved value is an error of the line (R349). -/
def MdasOut.legal (m : MdasOut) : MdasOut :=
  if m.errors.isEmpty && (splitWords m.words).any (fun x => reservedValue x.1 x.2) then m.error "E200" else m

/-- `lih` of halfword i from the top of the n that a constant takes. -/
def lihWord (xd n i : Nat) (v : Word) : IWord :=
  iWord 0x08 (BitVec.ofNat 5 xd) (if i = 0 then 0 else BitVec.ofNat 5 xd) (BitVec.ofNat 16 (v.toNat / 2 ^ (16 * (n - 1 - i))))

/-- Values of a data directive, with the relocations of symbols: 8 and 4 bytes can carry one (R355). -/
def dataBytes (g : MdasEnv) (size : Nat) : Nat → List MdasExpr → MdasOut
  | _, [] => MdasOut.ofWords []
  | off, e :: es =>
    let m := dataBytes g size (off + size) es
    let value (w : Word) : MdasOut :=
      let x := w.toInt
      let m := { m with data := leBytes size w.toNat ++ m.data }
      if size < 8 ∧ ((2 ^ (8 * size) : Nat) ≤ x ∨ x < -(2 ^ (8 * size - 1) : Nat)) then m.error "E200" else m
    let symbol (n : String) (a : Word) (ty : Nat) : MdasOut :=
      { m with data := leBytes size 0 ++ m.data, rels := ⟨off, a, n, g.own, ty⟩ :: m.rels }
    match g.eval e with
    | some (.sym n a) =>
      if size = 8 then symbol n a 1
      else if size = 4 then symbol n a 2
      else
        match g.fixed (.sym n a) with
        | some w => value w
        | none => m.error "E102"
    | some v =>
      match (if size < 4 then g.constant e else g.fixed v) with
      | some w => value w
      | none => m.error "E102"
    | none => m.error "E102"

/-- What a line emits. `.align` in `.text` pads with `nop`, after zero bytes up to a multiple of 4. -/
def MdasItem.emit (p : MdasPass) (t : MdasItem) : MdasOut :=
  match t.src.body with
  | .code c => (c.holes.foldl (MdasOut.fill p t) (MdasOut.ofWords c.words)).legal
  | .li xd _ => MdasOut.ofWords ((List.range (liTop t.value + 1)).map (fun i => lihWord xd (liTop t.value + 1) i t.value))
  | .la xd e =>
    match (p.env t.sect).eval e with
    | some (.const v) => MdasOut.ofWords ((List.range 4).map (fun i => lihWord xd 4 i v))
    | some (.sym n a) =>
      { MdasOut.ofWords ((List.range 4).map (fun i => lihWord xd 4 i 0)) with
        rels := (List.range 4).map (fun i => ⟨t.off + 4 * i, a, n, t.sect, 8 - i⟩) }
    | some v =>
      match (p.env t.sect).fixed v with
      | some w => MdasOut.ofWords ((List.range 4).map (fun i => lihWord xd 4 i w))
      | none => (MdasOut.ofWords []).error "E102"
    | none => (MdasOut.ofWords []).error "E102"
  | .data size es => dataBytes (p.env t.sect) size t.off es
  | .space _ => { MdasOut.ofWords [] with data := List.replicate t.size 0 }
  | .align _ =>
    if (p.sects.getD t.sect (newSect "" 0)).name == ".text" then
      { MdasOut.ofWords [] with
        data := List.replicate (t.size % 4) 0 ++ (List.replicate (t.size / 4) (leBytes 4 0x08000000)).flatten }
    else { MdasOut.ofWords [] with data := List.replicate t.size 0 }
  | _ => MdasOut.ofWords []

/-- The second pass: section contents, relocations in source order, and the errors it finds; a line with an error emits
nothing. -/
def secondPass (p : MdasPass) : MdasPass × List MdasRel :=
  p.items.foldl (fun (a : MdasPass × List MdasRel) t =>
    let m := t.emit p
    let new := m.errors.eraseDups.filter (fun e => !p.diags.contains (t.line, e))
    let bytes := (m.words.map (fun w => leBytes 4 w.toNat)).flatten ++ m.data
    if t.bad || !new.isEmpty then
      ({ a.1 with diags := a.1.diags ++ new.map (fun e => (t.line, e)), items := a.1.items ++ [{ t with bad := true }] }, a.2)
    else
      ({ a.1 with sects := a.1.sects.modify t.sect (fun c => { c with data := c.data ++ bytes })
                  items := a.1.items ++ [{ t with words := m.words, data := m.data, reloc := m.reloc }] }, a.2 ++ m.rels))
    ({ p with items := [] }, [])

end Sys2Proof.Machine
end

