-- ==== Sys2Proof/Machine/MdasCheck.lean ====
section
/-! DEFINITION. The checks of mdas, which follow each function in textual order (R356, R357, R425 to R427). -/

namespace Sys2Proof.Machine

/-- What a check knows inside a function: entries and x registers by the line of the write that set them (an x register
holds a symbol, or a constant where none is named), the stores not yet fenced, the pushes not yet undone with the
result and original entries where both are known, and pushes minus pops. -/
structure MdasFacts where
  ents : List (Nat × Nat × Word)
  regs : List (Nat × Nat × Option String)
  scalar : List String
  vector : List String
  pushes : List (AOp × Option (Word × Word))
  net : Int
  declared : Option Int
  undo : Bool
  deriving DecidableEq, Repr

/-- Nothing known: the start of a function. -/
def MdasFacts.empty : MdasFacts := ⟨[], [], [], [], [], 0, none, true⟩

/-- A branch or jump by the index of its line, and the index of a label that it targets. -/
structure MdasJump where
  source : Nat
  label : Nat
  deriving DecidableEq, Repr

/-- The section and the place that a branch, jump or call leads to. -/
def MdasItem.leadsTo (p : MdasPass) (t : MdasItem) : Option (Nat × Int) :=
  match t.src.body with
  | .code c =>
    c.holes.findSome? (fun h =>
      match h.1, (p.env t.sect).eval h.2 with
      | .disp 32 _, _ => none
      | .disp _ _, some (.sym n a) => ((p.env t.sect).symbol n).map (fun y => (y.sect - 1, (y.value : Int) + a.toInt))
      | _, _ => none)
  | _ => none

/-- Every branch or jump of a section with the labels that it targets. -/
def MdasPass.jumps (p : MdasPass) (sect : Nat) : List MdasJump :=
  let ts := (List.range p.items.length).zip p.items
  (ts.map (fun a =>
    match a.2.leadsTo p with
    | none => []
    | some (c, v) => (ts.filter (fun b => b.2.sect == sect && b.2.sect == c && b.2.src.label.isSome && decide ((b.2.off : Int) = v))).map
        (fun b => MdasJump.mk (if a.2.sect = sect then a.1 else ts.length) b.1))).flatten

/-- A write at line w still tells what an operand holds at line j: no label in between is targeted from outside (R356). -/
def stillKnown (js : List MdasJump) (w j : Nat) : Bool :=
  !js.any (fun b => decide (w < b.label) && decide (b.label ≤ j) && !(decide (w < b.source) && decide (b.source < j)))

/-- The entry known at a line. -/
def MdasFacts.ent (f : MdasFacts) (js : List MdasJump) (j n : Nat) : Option Word :=
  (find f.ents n).bind (fun x => if stillKnown js x.1 j then some x.2 else none)

/-- What an x register is known to hold at a line; x0 holds a constant. -/
def MdasFacts.reg (f : MdasFacts) (js : List MdasJump) (j n : Nat) : Option (Option String) :=
  if n = 0 then some none else (find f.regs n).bind (fun x => if stillKnown js x.1 j then some x.2 else none)

/-- The symbol that an x register holds at a line. -/
def MdasFacts.symbol (f : MdasFacts) (js : List MdasJump) (j n : Nat) : Option String := (f.reg js j n).bind id

/-- Entries and registers forgotten. -/
def MdasFacts.forget (f : MdasFacts) (aps xs : List Nat) : MdasFacts :=
  { f with ents := f.ents.filter (fun x => !aps.contains x.1), regs := f.regs.filter (fun x => !xs.contains x.1) }

/-! #### Operands of an instruction -/

/-- The value that an `adef` writes, and its entry. -/
def adefValue (w v : IWord) : Option (Nat × Word) :=
  if fMajor w ≠ 0x3e then none
  else
    let xop := (fXop w).toNat
    let row := (v.extractLsb' 24 8).toNat
    let col := (v.extractLsb' 14 10).toNat
    let slots := (v.extractLsb' 4 10).toNat
    let ap := (w.extractLsb' 4 6).toNat
    if xop < 0x20 then
      some (ap, Apt.toWord ⟨true, if w.getLsbD 18 then 1 else 0, (w.extractLsb' 14 4).toNat, row, col,
        (w.extractLsb' 0 4 ++ v.extractLsb' 0 4).toNat + 1, slots, false, false, 0⟩)
    else if xop < 0x28 then
      some (ap, Apt.toWord ⟨true, 2 + (w.extractLsb' 14 2).toNat, (w.extractLsb' 0 4).toNat, row, col, 1, slots,
        w.getLsbD 16, false, 0⟩)
    else none

/-- The A-format instruction in the words of an instruction: alone or as a vector half. -/
def halfOf (w v : IWord) : Option AHalf := if fMajor w = 0x3f then AHalf.ofWord v else AHalf.ofWord w

/-- Types that an A-format instruction lists for its three fields; a field that names no aperture counts as 0 (R116). -/
def halfTypes (op : AOp) (td ta tb : Nat) : Bool :=
  match op.code.1.toNat with
  | 0x28 => intTypes op td ta tb
  | 0x29 => floatTypes op td ta tb
  | 0x2a =>
    match op with
    | .vmin | .vmax | .vfmin | .vfmax => minMaxTypes op td ta tb
    | _ => compareTypes op ta tb
  | 0x2b => moveTypes op td ta tb
  | 0x2c => convertTypes op td ta tb
  | 0x2d => reduceTypes op td ta
  | 0x2e =>
    match op with
    | .vscore => ta = tb && (ta = 6 || ta = 7)
    | .vscoreS => td = 7 && ta = 7 && tb = 7
    | .vwacc => td = 8 && ta = 8 && (tb = 6 || tb = 7)
    | .vclput => ta = 8
    | _ => td = 8
  | _ =>
    match op with
    | .rxor => typesAny3 td ta tb
    | .radd | .uadd | .rmulo | .umulo => typesInt3 td ta tb
    | .rfmul | .rfadd | .rcvt | .rnrw => forwardTypes op td ta tb
    | _ => undoTypes op td ta tb

/-- A rule about the types of entries; suffix i of the mnemonic names the types of the entries at the places `named` i. -/
structure MdasTypes where
  ents : List Nat
  named : List (List Nat)
  ok : List Nat → Bool

/-- The entries that an instruction names as operands: destinations and sources. -/
structure MdasUses where
  dst : List Nat
  src : List Nat
  deriving DecidableEq, Repr

/-- Number of a 6-bit field of a word. -/
def apAt (w : IWord) (lo : Nat) : Nat := (w.extractLsb' lo 6).toNat

/-- Entries of a segment form (R217). -/
def segEnts (w : IWord) : List Nat := (List.range ((w.extractLsb' 0 3).toNat + 1)).map (fun f => apAt w 4 + f)

/-- The aperture operands of an instruction. -/
def apertureUses (w v : IWord) : MdasUses :=
  match halfOf w v with
  | some h =>
    if h.op.code.1 = 0x2d then ⟨[h.apd.toNat], [h.apa.toNat]⟩
    else
      let u := h.op.uses
      let src := (halfSources h).map (·.toNat)
      if u.1 = .ap then (if h.op = .vscoreS then ⟨[], h.apd.toNat :: src⟩ else ⟨[h.apd.toNat], src⟩) else ⟨[], src⟩
  | none =>
    match (fMajor w).toNat with
    | 0x24 => ⟨[(fApd w).toNat], []⟩
    | 0x25 => ⟨[], [(fApd w).toNat]⟩
    | 0x3e =>
      match (fXop w).toNat with
      | 0x30 | 0x32 | 0x18c => ⟨[apAt v 26], []⟩
      | 0x31 | 0x33 => ⟨[], [apAt v 20]⟩
      | 0x40 => ⟨segEnts w, []⟩
      | 0x41 => ⟨[], segEnts w⟩
      | 0x42 => ⟨[apAt w 4], [apAt v 11]⟩
      | 0x43 => ⟨[], [apAt w 4, apAt v 11]⟩
      | 0x60 | 0x61 => ⟨[apAt w 4], [apAt v 11]⟩
      | 0x111 => ⟨[], [apAt v 11, apAt v 5]⟩
      | 0x181 | 0x184 => ⟨[], [apAt v 26]⟩
      | x => if 0x100 ≤ x ∧ x ≤ 0x108 then ⟨if v.getLsbD 21 then [apAt v 5] else [], [apAt w 4, apAt v 11]⟩ else ⟨[], []⟩
    | _ => ⟨[], []⟩

/-- The operands whose types the suffixes of an A-format mnemonic name, by their places among its apertures: two suffixes name
destination and source; one names every aperture, but the destination of a widening instruction (R359), the values of `vwacc`,
and the two apertures of one TYPE of `vperm`. -/
def suffixPlaces (op : AOp) (n : Nat) : List (List Nat) :=
  if typeSuffixes op = 2 then [[0], [1]]
  else if [.vwmacc, .vfwma, .vwredsum, .vfwredsum, .vswredsum, .vsfwredsum].contains op then [[0]]
  else if op = .vwacc then [[2]]
  else if op = .vperm then [[0, 1]]
  else [List.range n]

/-- The type rules of an instruction (R116, R359). -/
def typeRules (w v : IWord) : List MdasTypes :=
  match halfOf w v with
  | some h =>
    let u := h.op.uses
    let d := if u.1 = .ap then [h.apd.toNat] else []
    let a := if u.2.1 = .ap then [h.apa.toNat] else []
    let b := if u.2.2 = .ap ∧ h.op.code.1 ≠ 0x2d then [h.apb.toNat] else []
    if (d ++ a ++ b).isEmpty then []
    else
      [{ ents := d ++ a ++ b, named := suffixPlaces h.op (d ++ a ++ b).length
         ok := fun ts => halfTypes h.op (if d.isEmpty then 0 else ts.getD 0 0) (if a.isEmpty then 0 else ts.getD d.length 0)
           (if b.isEmpty then 0 else ts.getD (d.length + a.length) 0) }]
  | none =>
    let one (n : Nat) (ok : Nat → Bool) : List MdasTypes := [⟨[n], [[0]], fun ts => ok (ts.getD 0 0)⟩]
    let index (n : Nat) : List MdasTypes := [⟨[n], [], fun ts => indexType (ts.getD 0 0)⟩]
    match (fMajor w).toNat with
    | 0x24 | 0x25 => one (fApd w).toNat (fun _ => true)
    | 0x3e =>
      match (fXop w).toNat with
      | 0x30 => one (apAt v 26) (fun t => t = 8)
      | 0x31 => one (apAt v 20) (fun t => t = 8)
      | 0x32 => one (apAt v 26) (fun _ => true)
      | 0x33 => one (apAt v 20) (fun _ => true)
      | 0x40 | 0x41 =>
        (segEnts w).flatMap (fun n => one n (fun t => tyWidth t ≠ 4))
      | 0x42 | 0x43 => one (apAt w 4) (fun t => tyWidth t ≠ 4) ++ index (apAt v 11)
      | 0x60 | 0x61 => [⟨[apAt w 4, apAt v 11], [], fun ts => ts.getD 0 0 = 5 && (ts.getD 1 0 = 4 || ts.getD 1 0 = 5)⟩]
      | 0x111 => index (apAt v 11) ++ [⟨[apAt v 5], [], fun ts => ts.getD 0 0 = 4 || ts.getD 0 0 = 5 || ts.getD 0 0 = 8⟩]
      | 0x181 => one (apAt v 26) (fun t => decide (7 ≤ t))
      | 0x184 => one (apAt v 26) (fun t => decide (7 ≤ t))
      | 0x18c => one (apAt v 26) (fun t => tyWidth t = 32)
      | x =>
        if 0x100 ≤ x ∧ x ≤ 0x108 then
          let ok (t : Nat) : Bool := if x = 0x101 ∨ x = 0x104 ∨ x = 0x105 then t = 8 else t = 4 || t = 5
          (if v.getLsbD 21 then [⟨[apAt v 5, apAt w 4], [[0, 1]], fun ts => ts.getD 0 0 = ts.getD 1 0 && ok (ts.getD 0 0)⟩]
            else one (apAt w 4) ok) ++ index (apAt v 11)
        else []
    | _ => []

/-- Some types of the entries of a rule meet it: `cand` gives what each entry may have, and an entry named twice has one
type. -/
def someTypes (cand : Nat → List Nat) (ok : List Nat → Bool) : List Nat → List (Nat × Nat) → List Nat → Bool
  | [], _, ts => ok ts
  | n :: ns, seen, ts =>
    match find seen n with
    | some t => someTypes cand ok ns seen (ts ++ [t])
    | none => (cand n).any (fun t => someTypes cand ok ns ((n, t) :: seen) (ts ++ [t]))

/-- The type check of one rule: some types of the entries not known meet it and the suffixes. -/
def MdasTypes.check (r : MdasTypes) (types : List Nat) (known : Nat → Option Apt) : List String :=
  let cand (n : Nat) : List Nat :=
    match known n with
    | some a => [a.ty]
    | none => List.range 11
  let ok (ts : List Nat) : Bool := r.ok ts && (types.zip r.named).all (fun x => x.2.all (fun i => ts.getD i 11 == x.1))
  if someTypes cand ok r.ents [] [] then [] else ["E402"]

/-- The stream rules that known entries break (R224, W402): bound as a destination, or two sources of one stream. -/
def streamCheck (u : MdasUses) (known : Nat → Option Apt) : List String :=
  let bound (n : Nat) : Option Nat := (known n).bind (fun a => if a.sb then some a.fs else none)
  let fs := u.src.filterMap bound
  if u.dst.any (fun n => (bound n).isSome) || !decide (fs.eraseDups = fs) then ["W402"] else []

/-! #### Extent and snapshot -/

/-- Extent of a known entry: an error where no band height up to the declared one admits it, a warning where some does
(R357, R427). -/
def extentCheck (band : Nat) (v : Word) : List String :=
  let a := Apt.ofWord v
  let bad (bh : Nat) : Bool := (a.fault? bh).isSome
  if band ≠ 0 then (if bad band then ["E401"] else [])
  else
    let bhs := (List.range 16).map (fun i => 16 * (i + 1))
    if bhs.all bad then ["E401"] else if bhs.any bad then ["W401"] else []

/-- Elements of a destination of dr rows of de elements and of a source of sr rows of se elements share a bit, at
another position or at any. No two elements of one entry share a bit (R67), and entries without a common plate share none. -/
def sharesShapes (anyPos : Bool) (bh dr de sr se : Nat) (d a : Apt) : Bool :=
  let alike : Bool := !anyPos && !a.bc && dr = sr && de = se && decide (({ d with sb := false, fs := 0 } : Apt) = { a with sb := false, fs := 0 })
  !alike && decide (d.footprint bh &&& a.footprint bh ≠ 0) && (List.range (dr * de)).any (fun i => (List.range (sr * se)).any (fun j =>
    (anyPos || decide ((i / de, i % de) ≠ (j / se, j % se))) &&
      shareBit (d.elBits bh (i / de) (i % de)) (a.elBits bh (j / se) (j % se))))

/-- Elements of an entry's row. -/
def Apt.rowEls (a : Apt) : Nat := a.ws * tyPack a.ty

/-- `vwacc` runs in snapshot mode for some VL, RC and SEGLEN: a bit of an output element is read at another element, as a statistic of row 0
at 2N + j, or as a value of some row (R77, R175, R180). -/
def waccSnaps (bh : Nat) (d : Apt) (a b : Option Apt) : Bool :=
  let vl := min d.rowEls ((b.map Apt.rowEls).getD d.rowEls)
  a.any (fun a => decide (d.footprint bh &&& a.footprint bh ≠ 0) && (List.range vl).any (fun e => (List.range (min a.rowEls 48)).any (fun s =>
    shareBit (d.elBits bh 0 e) (a.elBits bh 0 s) && (List.range 17).any (fun n =>
      let len := min 1024 (vl / n)
      decide (2 * n ≤ s ∧ s < 3 * n ∧ 3 * n ≤ a.rowEls ∧ e < n * len) && (decide (2 ≤ len) || s - 2 * n != e))))) ||
  b.any (fun b => decide (d.footprint bh &&& b.footprint bh ≠ 0) && (List.range vl).any (fun e => (List.range vl).any (fun x => e != x &&
    (List.range (if b.bc then 1 else b.hl)).any (fun r => shareBit (d.elBits bh 0 e) (b.elBits bh r x)))))

/-- A load indexed by rows runs in snapshot mode for some VL and RC: element r of row 0 of its indices is read at every element of row r,
and they hold an element for every row swept (R77, R218). -/
def rowIndexSnaps (bh : Nat) (d a : Apt) : Bool :=
  let rc := min d.hl a.rowEls
  decide (d.footprint bh &&& a.footprint bh ≠ 0) && (List.range (rc * d.rowEls)).any (fun i =>
    (List.range rc).any (fun r => (r != i / d.rowEls || decide (1 < d.rowEls)) &&
      shareBit (d.elBits bh (i / d.rowEls) (i % d.rowEls)) (a.elBits bh 0 r)))

/-- The snapshot check over the full logical shapes that one VL and RC can sweep (R77, R164, R172, R210, R357): `unrw` reads no cell of
apa (R189), and a segmented reduction writes no more elements than its source's rows have. -/
def snapCheck (band : Nat) (w v : IWord) (u : MdasUses) (known : Nat → Option Apt) : List String :=
  let bh := if band = 0 then 256 else band
  match u.dst.head?.bind known with
  | none => []
  | some d =>
    let srcs := if (halfOf w v).any (fun h => h.op == .unrw) then [] else u.src.filterMap known
    let els := Apt.rowEls
    let rows (a : Apt) : Nat := if a.bc then d.hl else a.hl
    let rc := srcs.foldl (fun n a => min n (rows a)) d.hl
    let vl := srcs.foldl (fun n a => min n (els a)) (els d)
    let hit : Bool :=
      match halfOf w v with
      | some h =>
        match h.op.code.1.toNat with
        | 0x2b => (match h.op with
          | .vrev | .vperm | .vslidn | .vsliup => srcs.any (sharesShapes true bh rc vl rc vl d)
          | _ => srcs.any (sharesShapes false bh rc vl rc vl d))
        | 0x2d => srcs.any (fun a => sharesShapes true bh (min d.hl (rows a)) (if (reduceOp h.op).2 then min (els d) (els a) else 1)
            (min d.hl (rows a)) (els a) d a)
        | 0x2e => h.op == .vwacc && waccSnaps bh d (known h.apa.toNat) (known h.apb.toNat)
        | _ => srcs.any (sharesShapes false bh rc vl rc vl d)
      | none =>
        match (fXop w).toNat with
        | 0x42 =>
          if v.extractLsb' 22 5 = 0#5 then srcs.any (sharesShapes false bh rc vl rc vl d)
          else srcs.any (rowIndexSnaps bh d)
        | 0x60 | 0x61 => srcs.any (sharesShapes false bh 1 vl 1 vl d)
        | x => if fMajor w = 0x3e ∧ 0x100 ≤ x ∧ x ≤ 0x108 then srcs.any (sharesShapes false bh rc vl rc vl d) else false
    if hit && (fMajor w ≠ 0x3e || (halfOf w v).isNone) then ["W410"] else []

/-! #### The undo check -/

/-- The pop that undoes a push (R183). -/
def undoOf : AOp → Option AOp
  | .rfmul => some .ufmul
  | .rfadd => some .ufadd
  | .rcvt => some .ucvt
  | .rnrw => some .unrw
  | _ => none

/-- The popping instructions. -/
def isPop (o : AOp) : Bool := o == .ufmul || o == .ufadd || o == .ucvt || o == .unrw

/-- A vector half's effect on the undo check, with its warnings; `ent` gives the entries known. -/
def MdasFacts.half (f : MdasFacts) (h : AHalf) (ent : Nat → Option Word) : MdasFacts × List String :=
  let pair (res orig : Ap) : Option (Word × Word) := (ent res.toNat).bind (fun x => (ent orig.toNat).map (fun y => (x, y)))
  if (undoOf h.op).isSome then ({ f with pushes := (h.op, pair h.apd h.apa) :: f.pushes, net := f.net + 1 }, [])
  else if isPop h.op then
    match f.pushes with
    | [] => ({ f with net := f.net - 1 }, if f.undo then ["W430"] else [])
    | p :: ps =>
      let differs : Bool :=
        match p.2, pair h.apa h.apd with
        | some x, some y => decide (shapeHash x.1 x.2 0 0 ≠ shapeHash y.1 y.2 0 0)
        | _, _ => false
      ({ f with pushes := ps, net := f.net - 1 },
        if f.undo then (if undoOf p.1 != some h.op then ["W431"] else []) ++ (if differs then ["W432"] else []) else [])
  else (f, [])

/-- The instruction ends the undo check for the function: `stdrop`, `stcut`, a write of STB, STL or STP (R357). -/
def endsUndo (w : IWord) : Bool :=
  let m := (fMajor w).toNat
  (m = 0x3e && ((fXop w).toNat = 0x141 || (fXop w).toNat = 0x142)) ||
    ((m = 0x19 || ((m = 0x1a || m = 0x1b) && fRa w ≠ 0)) && (0xc30 ≤ (fImm w).toNat && (fImm w).toNat ≤ 0xc32 : Bool))

/-! #### Registers, fences, entries -/

/-- The x register that the words of an instruction write; 0 for none. -/
def destX (w v : IWord) : Nat :=
  let m := (fMajor w).toNat
  if (1 ≤ m ∧ m ≤ 0x0c) ∨ (0x18 ≤ m ∧ m ≤ 0x1c) ∨ m = 0x1e ∨ m = 0x1f ∨ m = 0x23 then (fRd w).toNat
  else if m = 0x11 then 1
  else if m = 0x20 ∨ m = 0x21 then (w.extractLsb' 20 5).toNat
  else if m = 0x3e then
    match (fXop w).toNat with
    | 0x29 | 0x33 => (v.extractLsb' 15 5).toNat
    | 0x4a | 0x140 => (v.extractLsb' 27 5).toNat
    | _ => 0
  else if m = 0x3f then
    match PairScalar.ofSop (w.extractLsb' 0 22) with
    | some (.reg _ rd _ _) | some (.imm _ rd _ _) => rd.toNat
    | _ => 0
  else 0

/-- A memory access that the fence check follows: its base register, whether it loads and whether it stores, and whether it is of the
vector stream. -/
structure MdasAccess where
  base : Nat
  loads : Bool
  stores : Bool
  vec : Bool
  deriving DecidableEq, Repr

/-- The accesses of an instruction: a scalar atomic counts as a store, but `amld`, which writes nothing, as a load (R230), and so do the
memory forms of `larrive` and `lwait`, `skipset`, and the message read of `launch` (R243, R251, R289); a vector atomic as a vector
store, and with RET = 1 as a vector load too (R233); `fsbind`, `vxlat` and the descriptors of engine commands as vector loads (R222,
R226, R247), and the ranges of `cpy` as a vector load and store (R248). -/
def memBase (w v : IWord) : List MdasAccess :=
  let m := (fMajor w).toNat
  let x := (fXop w).toNat
  let func := (w.extractLsb' 0 11).toNat
  let base := (v.extractLsb' 27 5).toNat
  if m = 0x1c ∧ func = 0x20 then [⟨(fRa w).toNat, true, false, false⟩]
  else if m = 0x1e ∧ 0x100 ≤ func ∧ func < 0x300 then [⟨(fRa w).toNat, decide (0x200 ≤ func), decide (func < 0x200), false⟩]
  else if m = 0x20 ∨ m = 0x21 then [⟨(fBase w).toNat, true, false, false⟩]
  else if m = 0x22 then [⟨(fBase w).toNat, false, true, false⟩]
  else if m = 0x23 then [⟨(fRa w).toNat, w.extractLsb' 6 5 == 13#5, w.extractLsb' 6 5 != 13#5, false⟩]
  else if m = 0x24 then [⟨(fBase w).toNat, true, false, true⟩]
  else if m = 0x25 then [⟨(fBase w).toNat, false, true, true⟩]
  else if m ≠ 0x3e then []
  else if x = 0x40 ∨ x = 0x42 ∨ x = 0x48 ∨ x = 0x60 ∨ x = 0x61 ∨ (0x1c4 ≤ x ∧ x ≤ 0x1c9) then [⟨base, true, false, true⟩]
  else if x = 0x41 ∨ x = 0x43 then [⟨base, false, true, true⟩]
  else if 0x100 ≤ x ∧ x ≤ 0x108 then [⟨base, v.getLsbD 21, true, true⟩]
  else if x = 0x1c0 then [⟨(v.extractLsb' 22 5).toNat, true, false, true⟩, ⟨base, false, true, true⟩]
  else if x = 0x1cc then [⟨base, false, true, false⟩]
  else []

/-- One access in the fence check, `y` being the symbol that its base register holds. -/
def MdasFacts.access (f : MdasFacts) (a : MdasAccess) (y : String) : MdasFacts × List String :=
  (if !a.stores then f else if a.vec then { f with vector := y :: f.vector } else { f with scalar := y :: f.scalar },
    if !a.loads then [] else if a.vec then (if f.scalar.contains y then ["W420"] else [])
    else if f.vector.contains y then ["W421"] else [])

/-- The fence check at one instruction (R357, R427); `sym` gives the symbol that a register holds. -/
def MdasFacts.fence (f : MdasFacts) (w v : IWord) (sym : Nat → Option String) : MdasFacts × List String :=
  if fMajor w = 0x1d then
    let k := (w.extractLsb' 3 2).toNat
    ({ f with scalar := if k = 0 ∨ k = 3 then [] else f.scalar, vector := if k = 1 ∨ k = 3 then [] else f.vector }, [])
  else
    (memBase w v).foldl (fun r a =>
      match sym a.base with
      | none => r
      | some y => ((r.1.access a y).1, r.2 ++ (r.1.access a y).2)) (f, [])

/-- The sum of what two registers hold: a symbol and a constant keep the symbol. -/
def addHeld : Option (Option String) → Option (Option String) → Option (Option String)
  | some (some y), some none | some none, some (some y) => some (some y)
  | some none, some none => some none
  | _, _ => none

/-- What the destination register of an instruction is known to hold after it (R356). -/
def heldAfter (w : IWord) (reg : Nat → Option (Option String)) : Option (Option String) :=
  match (fMajor w).toNat with
  | 0x02 => reg (fRa w).toNat
  | 0x01 => if (fFunc w).toNat = 0 then addHeld (reg (fRa w).toNat) (reg (fRb w).toNat) else none
  | 0x08 => if reg (fRa w).toNat = some none then some none else none
  | 0x3f =>
    match PairScalar.ofSop (w.extractLsb' 0 22) with
    | some (.imm .addi _ ra _) => reg ra.toNat
    | some (.reg .add _ ra rb) => addHeld (reg ra.toNat) (reg rb.toNat)
    | _ => none
  | _ => none

/-- What an instruction at line j leaves known: `call` and a linking `jmpl` forget all (R356), `amov` copies, `adefx`
and `aswap` forget, binding keeps the shape. -/
def MdasFacts.writes (f : MdasFacts) (js : List MdasJump) (j : Nat) (w v : IWord) : MdasFacts :=
  if fMajor w = 0x11 ∨ (fMajor w = 0x18 ∧ fRd w ≠ 0) then { f with ents := [], regs := [] }
  else
    let x := destX w v
    let f := if x = 0 then f else { f with regs := put f.regs x ((heldAfter w (f.reg js j)).map (fun y => (j, y))) }
    match adefValue w v with
    | some (n, x) => { f with ents := put f.ents n (some (j, x)) }
    | none =>
      if fMajor w ≠ 0x3e then f
      else
        let d := apAt v 26
        let a := apAt v 20
        let bind (g : Apt → Apt) : MdasFacts :=
          { f with ents := f.ents.map (fun x => if x.1 = d then (x.1, x.2.1, (g (Apt.ofWord x.2.2)).toWord) else x) }
        match (fXop w).toNat with
        | 0x28 => { f with ents := put f.ents d none }
        | 0x2a => { f with ents := put f.ents d ((f.ent js j a).map (fun x => (j, x))) }
        | 0x2b => { f with ents := put (put f.ents d none) a none }
        | 0x2c => bind (fun e => { e with sb := true, fs := (v.extractLsb' 6 4).toNat })
        | 0x2d => bind (fun e => { e with sb := false, fs := 0 })
        | _ => f

/-- The entries and x registers that the words of an instruction name as destinations. -/
def wordDests (w v : IWord) : List Nat × List Nat :=
  let table : List Nat :=
    match adefValue w v with
    | some (n, _) => [n]
    | none =>
      if fMajor w ≠ 0x3e then []
      else
        match (fXop w).toNat with
        | 0x28 | 0x2a | 0x2c | 0x2d => [apAt v 26]
        | 0x2b => [apAt v 26, apAt v 20]
        | _ => []
  (table ++ (apertureUses w v).dst, [destX w v])

/-- The entries and x registers that a line names as destinations (R425). -/
def bodyDests : MdasBody → List Nat × List Nat
  | .rejected _ aps xs words =>
    if words.isEmpty then (aps, xs)
    else
      let ds := (words.flatMap splitWords).map (fun x => wordDests x.1 x.2)
      ((ds.map (·.1)).flatten.filter (fun n => aps.contains n), (ds.map (·.2)).flatten.filter (fun n => xs.contains n))
  | .code c =>
    let ds := (splitWords c.words).map (fun x => wordDests x.1 x.2)
    ((ds.map (·.1)).flatten, (ds.map (·.2)).flatten)
  | .li xd _ | .la xd _ => ([], [xd])
  | _ => ([], [])

/-! #### Lines and functions -/

/-- The checks at one instruction of line j. -/
def MdasFacts.inst (f : MdasFacts) (band : Nat) (js : List MdasJump) (j : Nat) (types : List Nat) (w v : IWord) :
    MdasFacts × List String :=
  let known (n : Nat) : Option Apt := (f.ent js j n).map Apt.ofWord
  let u := apertureUses w v
  let a := f.fence w v (f.symbol js j)
  let b : MdasFacts × List String :=
    match halfOf w v with
    | none => (a.1, [])
    | some h => a.1.half h (f.ent js j)
  let own : List String :=
    match adefValue w v with
    | some (_, x) => extentCheck band x
    | none => if fMajor w = 0x3e ∧ fXop w = 0x2c ∧ (known (apAt v 26)).any (fun e => e.bc) = true then ["W402"] else []
  let life := if fMajor w = 0x3e ∧ 0xf00 ≤ (fXop w).toNat then ["E400"] else []
  let g := b.1.writes js j w v
  (if endsUndo w then { g with undo := false } else g,
    life ++ own ++ ((typeRules w v).map (fun r => r.check types known)).flatten ++ streamCheck u known ++
      snapCheck band w v u known ++ a.2 ++ b.2)

/-- The instructions of a line in turn. -/
def MdasFacts.insts (f : MdasFacts) (band : Nat) (js : List MdasJump) (j : Nat) (types : List Nat) :
    List (IWord × IWord) → MdasFacts × List String
  | [] => (f, [])
  | x :: xs =>
    let a := f.inst band js j types x.1 x.2
    let b := a.1.insts band js j types xs
    (b.1, a.2 ++ b.2)

/-- A code is a warning's. -/
def isWarning (c : String) : Bool := c.startsWith "W"

/-- A register set to what an expression is: a symbol or a constant. -/
def MdasFacts.hold (f : MdasFacts) (j xd : Nat) (y : Option String) : MdasFacts :=
  if xd = 0 then f else { f with regs := put f.regs xd (some (j, y)) }

/-- The checks at line j: a line that reports an error only makes what it names as destinations unknown (R425). -/
def MdasFacts.line (p : MdasPass) (js : List MdasJump) (f : MdasFacts) (j : Nat) (t : MdasItem) : MdasFacts × List String :=
  let d := bodyDests t.src.body
  if t.bad then (f.forget d.1 d.2, [])
  else
    match t.src.body with
    | .stair _ => ({ f with declared := some t.value.toInt }, [])
    | .la xd e =>
      match (p.env t.sect).eval e with
      | some (.sym y _) | some (.hw _ y _) => (f.hold j xd (some y), [])
      | _ => (f.hold j xd none, [])
    | .li xd _ => (f.hold j xd none, [])
    | .code c =>
      let r := f.insts p.band js j c.types (splitWords t.words)
      if !r.2.all isWarning then (f.forget d.1 d.2, r.2) else if t.reloc then (r.1.forget [] d.2, r.2) else r
    | _ => (f, [])

/-- W433 at the last line of a function. -/
def MdasFacts.close (f : MdasFacts) (line : Nat) : List (Nat × String) :=
  match f.declared with
  | some n => if f.undo && n != f.net then [(line, "W433")] else []
  | none => []

/-- A line begins a function: a global label in an executable section (R352). -/
def MdasItem.opens (p : MdasPass) (t : MdasItem) : Bool :=
  match t.src.label with
  | none => false
  | some n => p.syms.any (fun y => y.name == n && y.global) && pteBit (p.sects.getD t.sect (newSect "" 0)).flags 2

/-- A line holds code or data, whether or not it is in error. -/
def MdasItem.filled (t : MdasItem) : Bool :=
  match t.src.body with
  | .code _ | .li _ _ | .la _ _ | .data _ _ => true
  | .rejected _ _ _ words => !words.isEmpty
  | _ => decide (0 < t.size)

/-- The checks over the lines of one section, each with its index; `last` is the last line of the function so far that
holds code. -/
def checkLines (p : MdasPass) (js : List MdasJump) : List (Nat × MdasItem) → Nat → MdasFacts → List (Nat × String)
  | [], last, f => f.close last
  | (j, t) :: ts, last, f =>
    let opens := t.opens p
    let done := if opens then f.close last else []
    let f := if opens then MdasFacts.empty else f
    let r := MdasFacts.line p js f j t
    let last := if opens || t.filled then t.line else last
    done ++ r.2.map (fun c => (t.line, c)) ++ checkLines p js ts last r.1

/-- The checks over every executable section. -/
def checkSections (p : MdasPass) : List (Nat × String) :=
  let ts := (List.range p.items.length).zip p.items
  ((List.range p.sects.length).map (fun c =>
    if pteBit (p.sects.getD c (newSect "" 0)).flags 2 then
      checkLines p (p.jumps c) (ts.filter (fun x => x.2.sect == c)) 0 MdasFacts.empty
    else [])).flatten

/-- The check that a code belongs to, `syntax` for the others (R425 to R427). -/
def checkName (c : String) : String :=
  match c with
  | "E400" => "lifetime"
  | "E401" | "W401" => "extent"
  | "E402" | "W402" => "type"
  | "W410" => "snapshot"
  | "W420" | "W421" => "fence"
  | "W430" | "W431" | "W432" | "W433" => "undo"
  | _ => "syntax"

/-! #### Lines that emit nothing -/

/-- The expressions of a line. -/
def bodyExprs : MdasBody → List MdasExpr
  | .code c => c.holes.map (·.2)
  | .data _ es => es
  | .la _ e => [e]
  | b => (firstExpr b).toList

/-- What the symbols of line t stand for may change once line u emits nothing: u lies before one of them, or between it and t, or a line
there takes a size that rests on a symbol. -/
def MdasPass.rests (p : MdasPass) (t u : MdasItem) : Bool :=
  t.line != u.line && ((bodyExprs t.src.body).flatMap MdasExpr.names).any (fun n =>
    match p.syms.find? (fun y => y.name == n && y.sect != 0) with
    | some y => p.items.any (fun v => v.sect + 1 == y.sect && decide (v.off < max y.value t.off) &&
        (v.line == u.line || (firstExpr v.src.body).any (fun e => !e.names.isEmpty)))
    | none => p.items.any (fun v =>
        match v.src.body with
        | .equ m e => m == n && !e.names.isEmpty
        | _ => false))

/-- Errors that rest on no other line of theirs; all of them where each rests on another. -/
def MdasPass.firm (p : MdasPass) (ds : List (Nat × String)) : List (Nat × String) :=
  let item (n : Nat) : List MdasItem := p.items.filter (fun t => t.line == n)
  let free := ds.filter (fun d => !ds.any (fun e => (item d.1).any (fun t => (item e.1).any (p.rests t))))
  if free.isEmpty then ds else free

/-- The passes and the checks, again and again until no line that emits has an error: those that the second pass or the checks show to be
in error emit nothing (R349, R425), which may move what follows them. A line whose error rests on another such line waits for it, the
checks count once the second pass shows no more, and a displacement once everything else is settled. The number bounds how often. -/
def settleLines (o : MdasOptions) (src : List MdasLine) : Nat → List (Nat × String) → MdasPass × List MdasRel × List (Nat × String)
  | 0, bad =>
    let r := secondPass (settlePass o src bad (src.length + 2) ⟨[], [], bad⟩)
    (r.1, r.2, checkSections r.1)
  | n + 1, bad =>
    let p := settlePass o src bad (src.length + 2) ⟨[], [], bad⟩
    let r := secondPass p
    let found := checkSections r.1
    let new := r.1.diags.drop p.diags.length
    let layout := new.filter (fun d => d.2 != "E206")
    let checked := found.filter (fun d => !isWarning d.2)
    let firm := p.firm (if !layout.isEmpty then layout else if !checked.isEmpty then checked else new)
    if firm.isEmpty then (r.1, r.2, found)
    else settleLines o src n (bad ++ firm ++ found.filter (fun d => isWarning d.2 && firm.any (fun e => e.1 == d.1)))

end Sys2Proof.Machine
end

