-- ==== Sys2Proof/Machine/Mdas.lean ====
section
/-! DEFINITION. A run of the assembler mdas (R347, R425): its options, the object file (R354), the listing and the diagnostics;
and the relocations that a loader resolves (R355). -/

namespace Sys2Proof.Machine

/-! ### The object file (R354) -/

/-- The bytes of a name, with its zero. -/
def nameBytes (n : String) : List Byte := n.toList.map (fun c => BitVec.ofNat 8 c.toNat) ++ [0]

/-- Names with their string offsets. -/
def nameTable : Nat → List String → List (String × Nat)
  | _, [] => []
  | off, n :: ns => (n, off) :: nameTable (off + n.length + 1) ns

/-- The offset of a name. -/
def nameOff (t : List (String × Nat)) (n : String) : Nat := ((t.find? (fun x => x.1 == n)).map (·.2)).getD 0

/-- Symbols of the table: those defined or declared, then those that only relocations name. -/
def allSyms (p : MdasPass) (rels : List MdasRel) : List MdasSym :=
  rels.foldl (fun ys r => if ys.any (fun y => y.name == r.sym) then ys else ys ++ [⟨r.sym, 0, true, 0⟩]) p.syms

/-- File offsets of section contents, one after the other from 64 on. -/
def dataOffs : Nat → List MdasSect → List Nat
  | _, [] => []
  | off, c :: cs => off :: dataOffs (off + ceilTo 8 c.data.length) cs

/-- TSTEP of a target stepping (R316, R354). -/
def tstep (step : Nat) : Nat := if step = 1 then 0x0a01 else if step = 2 then 0x0b00 else 0

/-- The object file; the order of its tables is the model's choice (DESIGN CHOICE, log 36). -/
def objectFile (p : MdasPass) (rels : List MdasRel) : List Byte :=
  let syms := allSyms p rels
  let names := nameTable 1 (p.sects.map (fun c => c.name) ++ syms.map (fun y => y.name))
  let sects := p.sects.map (fun c => { c with data := if pteBit c.flags 3 then [] else c.data })
  let offs := dataOffs 64 sects
  let body := (sects.map (fun c => c.data ++ List.replicate (ceilTo 8 c.data.length - c.data.length) 0)).flatten
  let sectOff := 64 + body.length
  let symOff := sectOff + 32 * sects.length
  let relOff := symOff + 16 * (syms.length + 1)
  let strOff := relOff + 24 * rels.length
  let sectBytes := ((List.range sects.length).map (fun i =>
    let c := sects.getD i (newSect "" 0)
    leBytes 4 (nameOff names c.name) ++ leBytes 4 c.flags ++ leBytes 8 (offs.getD i 0) ++ leBytes 8 c.size ++ leBytes 8 c.align)).flatten
  let symBytes := (syms.map (fun y =>
    leBytes 4 (nameOff names y.name) ++ leBytes 2 y.sect ++ leBytes 1 (if y.global then 1 else 0) ++ [0] ++ leBytes 8 y.value)).flatten
  let relBytes := (rels.map (fun r =>
    leBytes 8 r.offset ++ leBytes 8 r.addend.toNat ++ leBytes 4 (syms.findIdx (fun y => y.name == r.sym) + 1) ++
      leBytes 2 r.sect ++ leBytes 2 r.ty)).flatten
  let strBytes := [0] ++ ((p.sects.map (fun c => c.name) ++ syms.map (fun y => y.name)).map nameBytes).flatten
  [0x4d, 0x4f, 0x46, 0x01] ++ leBytes 2 sects.length ++ leBytes 2 0 ++ leBytes 8 sectOff ++ leBytes 8 symOff ++
    leBytes 4 (syms.length + 1) ++ leBytes 4 rels.length ++ leBytes 8 relOff ++ leBytes 8 strOff ++
    leBytes 2 (tstep p.step) ++ [1, 0, 0xff] ++ leBytes 1 (if p.gang = 0 then 0 else p.gang - 1) ++ leBytes 1 (p.band / 16) ++
    List.replicate 9 0 ++ body ++ sectBytes ++ List.replicate 16 0 ++ symBytes ++ relBytes ++ strBytes

/-! ### Loading (R355) -/

/-- The value that the loader puts into the field of a relocation, s being the symbol's address, a the addend and p the address of
the patched word; none where its check fails. -/
def relValue (ty : Nat) (s a p : Word) : Option Nat :=
  let d := (s + a - p).toInt
  let disp (n : Nat) : Option Nat :=
    if d % 4 = 0 ∧ -(2 ^ (n - 1) : Nat) ≤ d / 4 ∧ d / 4 < (2 ^ (n - 1) : Nat) then some (wrap n (d / 4)) else none
  match ty with
  | 1 => some (s + a).toNat
  | 2 => if (s + a).toNat < 2 ^ 32 then some (s + a).toNat else none
  | 3 => disp 16
  | 4 => disp 26
  | 5 => some (halfword 0 (s + a)).toNat
  | 6 => some (halfword 1 (s + a)).toNat
  | 7 => some (halfword 2 (s + a)).toNat
  | 8 => some (halfword 3 (s + a)).toNat
  | 9 => disp 32
  | _ => none

/-- The field of a relocation: its place after the patched byte or word, its bytes, and its bits. -/
def relField (ty : Nat) : Nat × Nat × Nat :=
  match ty with
  | 1 => (0, 8, 64)
  | 4 => (0, 4, 26)
  | 2 => (0, 4, 32)
  | 9 => (4, 4, 32)
  | _ => (0, 4, 16)

/-- The contents of a section with one relocation resolved: the low bits of its field replaced; none where it is not loaded. -/
def patchRel (r : MdasRel) (s p : Word) (data : List Byte) : Option (List Byte) :=
  let f := relField r.ty
  let at' := r.offset + f.1
  (relValue r.ty s r.addend p).map (fun v =>
    let old := leNat ((data.drop at').take f.2.1)
    data.take at' ++ leBytes f.2.1 (old / 2 ^ f.2.2 * 2 ^ f.2.2 + v) ++ data.drop (at' + f.2.1))

/-- The contents of the sections as loaded: every relocation resolved, sections placed at `base` and symbols by theirs, a symbol
that the object does not define by `extern`. -/
def loadSections (syms : List MdasSym) (rels : List MdasRel) (base : Nat → Word) (extern : String → Option Word)
    (sects : List (List Byte)) : Option (List (List Byte)) :=
  rels.foldl (fun (cs : Option (List (List Byte))) r =>
    cs.bind (fun cs =>
      let s := match syms.find? (fun y => y.name == r.sym && y.sect != 0) with
        | some y => some (base (y.sect - 1) + BitVec.ofNat 64 y.value)
        | none => extern r.sym
      s.bind (fun s =>
        (patchRel r s (base r.sect + BitVec.ofNat 64 r.offset) (cs.getD r.sect [])).map (fun d => cs.set r.sect d)))) (some sects)

/-! ### One run (R347, R425) -/

/-- Diagnostics in source order, errors before warnings within a line, each code once a line. -/
def sortDiags (ds : List (Nat × String)) : List (Nat × String) :=
  (ds.foldr (insertBy (fun a b => decide (a.1 < b.1) || (a.1 == b.1 && (!isWarning a.2 || isWarning b.2)))) []).dedup

/-- The directory of a file, with its last `/`. -/
def dirOf (f : String) : String := String.ofList (f.toList.reverse.dropWhile (fun c => c != '/')).reverse

/-- The name of the object file where `-o` gives none: the source's, its suffix replaced by `.mof`. -/
def objectName (f : String) : String :=
  let cs := f.toList.reverse
  let suffix := cs.takeWhile (fun c => c != '.' && c != '/')
  match cs.drop suffix.length with
  | '.' :: r => String.ofList r.reverse ++ ".mof"
  | _ => f ++ ".mof"

/-- Bytes as words, the last one filled up with zeros. -/
def listedWords (bs : List Byte) : List Nat :=
  (List.range ((bs.length + 3) / 4)).map (fun i => leNat ((bs.drop (4 * i)).take 4))

/-- The listing: address, words and source line of every line (R347). -/
def listingOf (p : MdasPass) : List MdasListed :=
  p.items.map (fun t => ⟨t.sect, t.off, t.words.map (fun w => w.toNat) ++ listedWords t.data, t.src.text⟩)

/-- A run of mdas on its command line, `files` being the files that it can read. Under `-W error` a warning counts as an error
and keeps its code. A source that is not there ends the run with status 1. -/
def assemble (args : List String) (files : List (String × String)) : MdasResult :=
  match readOptions args MdasOptions.none with
  | none => ⟨2, none, none, []⟩
  | some o =>
    match files.find? (fun f => f.1 == o.file) with
    | none => ⟨1, none, none, []⟩
    | some src =>
      let dirs := dirOf o.file :: o.dirs.map (fun d => d ++ "/")
      let pre := expandLines files dirs 82 0 0 (fileLines src.1 src.2 []) ⟨[], [], 0, none⟩
      let r := settleLines o pre.lines (4 * pre.lines.length + 1) []
      let found := (r.1.diags ++ r.2.2).filter (fun d => !(isWarning d.2 && o.silent.contains (checkName d.2)))
      let ds := (sortDiags found).map (fun d =>
        MdasDiag.mk ((pre.lines.map (fun l => l.place)).getD d.1 []) (o.warnError || !isWarning d.2) d.2 (checkName d.2))
      let failed := ds.any (fun d => d.error)
      { status := if failed then 1 else 0
        object := if failed then none else some (o.out.getD (objectName o.file), objectFile r.1 r.2.1)
        listing := o.listing.map (fun f => (f, listingOf r.1))
        diags := ds }

/-- mdas is a tool beside the machine: it runs whether or not the module has power. -/
def execMdasAssemble (args : List String) (files : List (String × String)) (s : State) :
    Host.Outcome State Fault Refusal :=
  .next { s with mdas := some (assemble args files) }

end Sys2Proof.Machine
end

