-- ==== Sys2Proof/Machine/Dispatch.lean ====
section
/-! DEFINITION. One arm per instruction: each is a direct call of that instruction's meaning. -/

namespace Sys2Proof.Machine

open Sys2Proof

def exec (i : Instr) (s : State) : Host.Outcome State Fault Refusal :=
  match i with
  | .moduleReset images => Sys2Proof.Machine.execModuleReset images s
  | .msgWrite window offset master bytes => Sys2Proof.Machine.execMsgWrite window offset master bytes s
  | .lqcfgWrite window master v => Sys2Proof.Machine.execLqcfgWrite window master v s
  | .waitCounterRead acc => Sys2Proof.Machine.execWaitCounterRead acc s
  | .placementDecision => Sys2Proof.Machine.execPlacementDecision s
  | .launchComplete acc => Sys2Proof.Machine.execLaunchComplete acc s
  | .lctlWrite v => Sys2Proof.Machine.execLctlWrite v s
  | .vectorIssue core => Sys2Proof.Machine.execVectorIssue core s
  | .vectorPass core => Sys2Proof.Machine.execVectorPass core s
  | .laneGroupGate core group => Sys2Proof.Machine.execLaneGroupGate core group s
  | .laneGroupWake core group => Sys2Proof.Machine.execLaneGroupWake core group s
  | .dispatchGate core => Sys2Proof.Machine.execDispatchGate core s
  | .slewStep die => Sys2Proof.Machine.execSlewStep die s
  | .slewCoreQuiet core => Sys2Proof.Machine.execSlewCoreQuiet core s
  | .transitIssue core => Sys2Proof.Machine.execTransitIssue core s
  | .transitOpComplete core => Sys2Proof.Machine.execTransitOpComplete core s
  | .transitGate core => Sys2Proof.Machine.execTransitGate core s
  | .transitWake core => Sys2Proof.Machine.execTransitWake core s
  | .freqreqWrite core v => Sys2Proof.Machine.execFreqreqWrite core v s
  | .freqRampStep core => Sys2Proof.Machine.execFreqRampStep core s
  | .relockEnd core => Sys2Proof.Machine.execRelockEnd core s
  | .fstatRead rd => Sys2Proof.Machine.execFstatRead rd s
  | .fstatWrite v => Sys2Proof.Machine.execFstatWrite v s
  | .cycwRead rd => Sys2Proof.Machine.execCycwRead rd s
  | .vlRcRead rc rd => Sys2Proof.Machine.execVlRcRead rc rd s
  | .stairRegRead reg rd => Sys2Proof.Machine.execStairRegRead reg rd s
  | .stairRegWrite reg v => Sys2Proof.Machine.execStairRegWrite reg v s
  | .xstepWrite v => Sys2Proof.Machine.execXstepWrite v s
  | .registerWrite target v => Sys2Proof.Machine.execRegisterWrite target v s
  | .claimWrite master v => Sys2Proof.Machine.execClaimWrite master v s
  | .claimWindowClose => Sys2Proof.Machine.execClaimWindowClose s
  | .handoverRelease master => Sys2Proof.Machine.execHandoverRelease master s
  | .handoverTransfer master dest => Sys2Proof.Machine.execHandoverTransfer master dest s
  | .ownerLinkDown master => Sys2Proof.Machine.execOwnerLinkDown master s
  | .preempt master acc => Sys2Proof.Machine.execPreempt master acc s
  | .resume master acc => Sys2Proof.Machine.execResume master acc s
  | .kill master acc => Sys2Proof.Machine.execKill master acc s
  | .gangSave gang => Sys2Proof.Machine.execGangSave gang s
  | .plateFill plate => Sys2Proof.Machine.execPlateFill plate s
  | .intpostWrite master v => Sys2Proof.Machine.execIntpostWrite master v s
  | .interruptTake hart => Sys2Proof.Machine.execInterruptTake hart s
  | .migrationRequest frame host => Sys2Proof.Machine.execMigrationRequest frame host s
  | .migrationContest frame host => Sys2Proof.Machine.execMigrationContest frame host s
  | .dataError unit => Sys2Proof.Machine.execDataError unit s
  | .supplyLimit die => Sys2Proof.Machine.execSupplyLimit die s
  | .resourceRemoval what => Sys2Proof.Machine.execResourceRemoval what s
  | .gleipFlitRetry flit => Sys2Proof.Machine.execGleipFlitRetry flit s
  | .gleipPortDown port => Sys2Proof.Machine.execGleipPortDown port s
  | .abortToken group die => Sys2Proof.Machine.execAbortToken group die s
  | .ucieModuleLoss => Sys2Proof.Machine.execUcieModuleLoss s
  | .hostAccess addr access => Sys2Proof.Machine.execHostAccess addr access s
  | .getVersion => Sys2Proof.Machine.execGetVersion s
  | .getCapabilities => Sys2Proof.Machine.execGetCapabilities s
  | .negotiateAlgorithms asym hash => Sys2Proof.Machine.execNegotiateAlgorithms asym hash s
  | .getDigests => Sys2Proof.Machine.execGetDigests s
  | .getCertificate => Sys2Proof.Machine.execGetCertificate s
  | .challenge nonce => Sys2Proof.Machine.execChallenge nonce s
  | .getMeasurements => Sys2Proof.Machine.execGetMeasurements s
  | .unsupportedRequest code => Sys2Proof.Machine.execUnsupportedRequest code s
  | .engineCommandComplete cmd => Sys2Proof.Machine.execEngineCommandComplete cmd s
  | .collectiveStart group remote => Sys2Proof.Machine.execCollectiveStart group remote s
  | .streamRunahead fs => Sys2Proof.Machine.execStreamRunahead fs s
  | .pageWalk va need => Sys2Proof.Machine.execPageWalk va need s
  | .fetch hart => Sys2Proof.Machine.execFetch hart s
  | .translationUnitLower hart => Sys2Proof.Machine.execTranslationUnitLower hart s
  | .lwaitReturn hart => Sys2Proof.Machine.execLwaitReturn hart s
  | .wfiWake hart => Sys2Proof.Machine.execWfiWake hart s
  | .mdasAssemble args files => Sys2Proof.Machine.execMdasAssemble args files s
  | .add rd ra rb => Sys2Proof.Machine.execAdd rd ra rb s
  | .sub rd ra rb => Sys2Proof.Machine.execSub rd ra rb s
  | .and rd ra rb => Sys2Proof.Machine.execAnd rd ra rb s
  | .or rd ra rb => Sys2Proof.Machine.execOr rd ra rb s
  | .xor rd ra rb => Sys2Proof.Machine.execXor rd ra rb s
  | .andn rd ra rb => Sys2Proof.Machine.execAndn rd ra rb s
  | .sll rd ra rb => Sys2Proof.Machine.execSll rd ra rb s
  | .srl rd ra rb => Sys2Proof.Machine.execSrl rd ra rb s
  | .sra rd ra rb => Sys2Proof.Machine.execSra rd ra rb s
  | .slt rd ra rb => Sys2Proof.Machine.execSlt rd ra rb s
  | .sltn rd ra rb => Sys2Proof.Machine.execSltn rd ra rb s
  | .min rd ra rb => Sys2Proof.Machine.execMin rd ra rb s
  | .max rd ra rb => Sys2Proof.Machine.execMax rd ra rb s
  | .minn rd ra rb => Sys2Proof.Machine.execMinn rd ra rb s
  | .maxn rd ra rb => Sys2Proof.Machine.execMaxn rd ra rb s
  | .clz rd ra => Sys2Proof.Machine.execClz rd ra s
  | .ctz rd ra => Sys2Proof.Machine.execCtz rd ra s
  | .popc rd ra => Sys2Proof.Machine.execPopc rd ra s
  | .sxb rd ra => Sys2Proof.Machine.execSxb rd ra s
  | .sxh rd ra => Sys2Proof.Machine.execSxh rd ra s
  | .sxw rd ra => Sys2Proof.Machine.execSxw rd ra s
  | .zxb rd ra => Sys2Proof.Machine.execZxb rd ra s
  | .zxh rd ra => Sys2Proof.Machine.execZxh rd ra s
  | .zxw rd ra => Sys2Proof.Machine.execZxw rd ra s
  | .adds1 rd ra rb => Sys2Proof.Machine.execAdds1 rd ra rb s
  | .adds2 rd ra rb => Sys2Proof.Machine.execAdds2 rd ra rb s
  | .adds3 rd ra rb => Sys2Proof.Machine.execAdds3 rd ra rb s
  | .sliceof rd ra => Sys2Proof.Machine.execSliceof rd ra s
  | .slli rd ra n => Sys2Proof.Machine.execSlli rd ra n s
  | .srli rd ra n => Sys2Proof.Machine.execSrli rd ra n s
  | .srai rd ra n => Sys2Proof.Machine.execSrai rd ra n s
  | .addi rd ra imm => Sys2Proof.Machine.execAddi rd ra imm s
  | .andi rd ra imm => Sys2Proof.Machine.execAndi rd ra imm s
  | .ori rd ra imm => Sys2Proof.Machine.execOri rd ra imm s
  | .xori rd ra imm => Sys2Proof.Machine.execXori rd ra imm s
  | .slti rd ra imm => Sys2Proof.Machine.execSlti rd ra imm s
  | .sltni rd ra imm => Sys2Proof.Machine.execSltni rd ra imm s
  | .lih rd ra imm => Sys2Proof.Machine.execLih rd ra imm s
  | .mul rd ra rb => Sys2Proof.Machine.execMul rd ra rb s
  | .mulh rd ra rb => Sys2Proof.Machine.execMulh rd ra rb s
  | .mulhn rd ra rb => Sys2Proof.Machine.execMulhn rd ra rb s
  | .mulhsn rd ra rb => Sys2Proof.Machine.execMulhsn rd ra rb s
  | .div rd ra rb => Sys2Proof.Machine.execDiv rd ra rb s
  | .divn rd ra rb => Sys2Proof.Machine.execDivn rd ra rb s
  | .rem rd ra rb => Sys2Proof.Machine.execRem rd ra rb s
  | .remn rd ra rb => Sys2Proof.Machine.execRemn rd ra rb s
  | .setvl rd ra ty => Sys2Proof.Machine.execSetvl rd ra ty s
  | .setvlG rd ra ty => Sys2Proof.Machine.execSetvlG rd ra ty s
  | .setrc rd ra imm => Sys2Proof.Machine.execSetrc rd ra imm s
  | .jmp disp => Sys2Proof.Machine.execJmp disp s
  | .call disp => Sys2Proof.Machine.execCall disp s
  | .beq ra rb disp => Sys2Proof.Machine.execBeq ra rb disp s
  | .bne ra rb disp => Sys2Proof.Machine.execBne ra rb disp s
  | .blt ra rb disp => Sys2Proof.Machine.execBlt ra rb disp s
  | .bge ra rb disp => Sys2Proof.Machine.execBge ra rb disp s
  | .bltn ra rb disp => Sys2Proof.Machine.execBltn ra rb disp s
  | .bgen ra rb disp => Sys2Proof.Machine.execBgen ra rb disp s
  | .jmpl rd ra imm => Sys2Proof.Machine.execJmpl rd ra imm s
  | .csrrw rd ra csr => Sys2Proof.Machine.execCsrrw rd ra csr s
  | .csrrs rd ra csr => Sys2Proof.Machine.execCsrrs rd ra csr s
  | .csrrc rd ra csr => Sys2Proof.Machine.execCsrrc rd ra csr s
  | .trap n => Sys2Proof.Machine.execTrap n s
  | .eret => Sys2Proof.Machine.execEret s
  | .wfi => Sys2Proof.Machine.execWfi s
  | .dclean ra rb => Sys2Proof.Machine.execDclean ra rb s
  | .xcinv ra rb => Sys2Proof.Machine.execXcinv ra rb s
  | .fbar => Sys2Proof.Machine.execFbar s
  | .ptsync => Sys2Proof.Machine.execPtsync s
  | .launch rd ra => Sys2Proof.Machine.execLaunch rd ra s
  | .fenceSv scope => Sys2Proof.Machine.execFenceSv scope s
  | .fenceVs scope => Sys2Proof.Machine.execFenceVs scope s
  | .fenceVv scope => Sys2Proof.Machine.execFenceVv scope s
  | .fenceAll scope => Sys2Proof.Machine.execFenceAll scope s
  | .larrive rd => Sys2Proof.Machine.execLarrive rd s
  | .lwait rd ra => Sys2Proof.Machine.execLwait rd ra s
  | .larriveScope rd ra scope => Sys2Proof.Machine.execLarriveScope rd ra scope s
  | .lwaitScope rd ra rb scope => Sys2Proof.Machine.execLwaitScope rd ra rb scope s
  | .retire => Sys2Proof.Machine.execRetire s
  | .twake => Sys2Proof.Machine.execTwake s
  | .tfill ra => Sys2Proof.Machine.execTfill ra s
  | .bkt rd ra => Sys2Proof.Machine.execBkt rd ra s
  | .lb rd base off => Sys2Proof.Machine.execLb rd base off s
  | .lh rd base off => Sys2Proof.Machine.execLh rd base off s
  | .lw rd base off => Sys2Proof.Machine.execLw rd base off s
  | .ld rd base off => Sys2Proof.Machine.execLd rd base off s
  | .lbn rd base off => Sys2Proof.Machine.execLbn rd base off s
  | .lhn rd base off => Sys2Proof.Machine.execLhn rd base off s
  | .lwn rd base off => Sys2Proof.Machine.execLwn rd base off s
  | .ldn rd base off => Sys2Proof.Machine.execLdn rd base off s
  | .sb rd base off => Sys2Proof.Machine.execSb rd base off s
  | .sh rd base off => Sys2Proof.Machine.execSh rd base off s
  | .sw rd base off => Sys2Proof.Machine.execSw rd base off s
  | .sd rd base off => Sys2Proof.Machine.execSd rd base off s
  | .amswp rd ra rb dword scope q => Sys2Proof.Machine.execAmswp rd ra rb dword scope q s
  | .amcas rd ra rb dword scope q => Sys2Proof.Machine.execAmcas rd ra rb dword scope q s
  | .amadd rd ra rb dword scope q => Sys2Proof.Machine.execAmadd rd ra rb dword scope q s
  | .amand rd ra rb dword scope q => Sys2Proof.Machine.execAmand rd ra rb dword scope q s
  | .amor rd ra rb dword scope q => Sys2Proof.Machine.execAmor rd ra rb dword scope q s
  | .amxor rd ra rb dword scope q => Sys2Proof.Machine.execAmxor rd ra rb dword scope q s
  | .ammin rd ra rb dword scope q => Sys2Proof.Machine.execAmmin rd ra rb dword scope q s
  | .ammax rd ra rb dword scope q => Sys2Proof.Machine.execAmmax rd ra rb dword scope q s
  | .amminn rd ra rb dword scope q => Sys2Proof.Machine.execAmminn rd ra rb dword scope q s
  | .ammaxn rd ra rb dword scope q => Sys2Proof.Machine.execAmmaxn rd ra rb dword scope q s
  | .amfadd rd ra rb scope q => Sys2Proof.Machine.execAmfadd rd ra rb scope q s
  | .amfmin rd ra rb scope q => Sys2Proof.Machine.execAmfmin rd ra rb scope q s
  | .amfmax rd ra rb scope q => Sys2Proof.Machine.execAmfmax rd ra rb scope q s
  | .amld rd ra dword scope q => Sys2Proof.Machine.execAmld rd ra dword scope q s
  | .amst ra rb dword scope q => Sys2Proof.Machine.execAmst ra rb dword scope q s
  | .vld ap base off size => Sys2Proof.Machine.execVld ap base off size s
  | .vst ap base off size => Sys2Proof.Machine.execVst ap base off size s
  | .vadd apd apa apb mask => Sys2Proof.Machine.execVadd apd apa apb mask s
  | .vsub apd apa apb mask => Sys2Proof.Machine.execVsub apd apa apb mask s
  | .vadds apd apa apb mask => Sys2Proof.Machine.execVadds apd apa apb mask s
  | .vsubs apd apa apb mask => Sys2Proof.Machine.execVsubs apd apa apb mask s
  | .vmul apd apa apb mask => Sys2Proof.Machine.execVmul apd apa apb mask s
  | .vmulh apd apa apb mask => Sys2Proof.Machine.execVmulh apd apa apb mask s
  | .vmacc apd apa apb mask => Sys2Proof.Machine.execVmacc apd apa apb mask s
  | .vwmacc apd apa apb mask => Sys2Proof.Machine.execVwmacc apd apa apb mask s
  | .vand apd apa apb mask => Sys2Proof.Machine.execVand apd apa apb mask s
  | .vor apd apa apb mask => Sys2Proof.Machine.execVor apd apa apb mask s
  | .vxor apd apa apb mask => Sys2Proof.Machine.execVxor apd apa apb mask s
  | .vandn apd apa apb mask => Sys2Proof.Machine.execVandn apd apa apb mask s
  | .vsll apd apa apb mask => Sys2Proof.Machine.execVsll apd apa apb mask s
  | .vsrl apd apa apb mask => Sys2Proof.Machine.execVsrl apd apa apb mask s
  | .vsra apd apa apb mask => Sys2Proof.Machine.execVsra apd apa apb mask s
  | .vssr apd apa apb mask => Sys2Proof.Machine.execVssr apd apa apb mask s
  | .vneg apd apa mask => Sys2Proof.Machine.execVneg apd apa mask s
  | .vfadd apd apa apb mask => Sys2Proof.Machine.execVfadd apd apa apb mask s
  | .vfsub apd apa apb mask => Sys2Proof.Machine.execVfsub apd apa apb mask s
  | .vfmul apd apa apb mask => Sys2Proof.Machine.execVfmul apd apa apb mask s
  | .vfdiv apd apa apb mask => Sys2Proof.Machine.execVfdiv apd apa apb mask s
  | .vfsqrt apd apa mask => Sys2Proof.Machine.execVfsqrt apd apa mask s
  | .vfrcp apd apa mask => Sys2Proof.Machine.execVfrcp apd apa mask s
  | .vfma apd apa apb mask => Sys2Proof.Machine.execVfma apd apa apb mask s
  | .vfms apd apa apb mask => Sys2Proof.Machine.execVfms apd apa apb mask s
  | .vfnma apd apa apb mask => Sys2Proof.Machine.execVfnma apd apa apb mask s
  | .vfwma apd apa apb mask => Sys2Proof.Machine.execVfwma apd apa apb mask s
  | .vceq kd apa apb mask => Sys2Proof.Machine.execVceq kd apa apb mask s
  | .vcne kd apa apb mask => Sys2Proof.Machine.execVcne kd apa apb mask s
  | .vclt kd apa apb mask => Sys2Proof.Machine.execVclt kd apa apb mask s
  | .vcle kd apa apb mask => Sys2Proof.Machine.execVcle kd apa apb mask s
  | .vfceq kd apa apb mask => Sys2Proof.Machine.execVfceq kd apa apb mask s
  | .vfclt kd apa apb mask => Sys2Proof.Machine.execVfclt kd apa apb mask s
  | .vfcle kd apa apb mask => Sys2Proof.Machine.execVfcle kd apa apb mask s
  | .vfcun kd apa apb mask => Sys2Proof.Machine.execVfcun kd apa apb mask s
  | .vmin apd apa apb mask => Sys2Proof.Machine.execVmin apd apa apb mask s
  | .vmax apd apa apb mask => Sys2Proof.Machine.execVmax apd apa apb mask s
  | .vfmin apd apa apb mask => Sys2Proof.Machine.execVfmin apd apa apb mask s
  | .vfmax apd apa apb mask => Sys2Proof.Machine.execVfmax apd apa apb mask s
  | .kand kd ka kb => Sys2Proof.Machine.execKand kd ka kb s
  | .kor kd ka kb => Sys2Proof.Machine.execKor kd ka kb s
  | .kxor kd ka kb => Sys2Proof.Machine.execKxor kd ka kb s
  | .kandn kd ka kb => Sys2Proof.Machine.execKandn kd ka kb s
  | .knot kd ka => Sys2Proof.Machine.execKnot kd ka s
  | .kmw ka => Sys2Proof.Machine.execKmw ka s
  | .kmr kd => Sys2Proof.Machine.execKmr kd s
  | .vmov apd apa mask => Sys2Proof.Machine.execVmov apd apa mask s
  | .vfneg apd apa mask => Sys2Proof.Machine.execVfneg apd apa mask s
  | .vfabs apd apa mask => Sys2Proof.Machine.execVfabs apd apa mask s
  | .vfsgnj apd apa apb mask => Sys2Proof.Machine.execVfsgnj apd apa apb mask s
  | .vrev apd apa mask => Sys2Proof.Machine.execVrev apd apa mask s
  | .vperm apd apa apb mask => Sys2Proof.Machine.execVperm apd apa apb mask s
  | .vslidn apd apa apb mask => Sys2Proof.Machine.execVslidn apd apa apb mask s
  | .vsliup apd apa apb mask => Sys2Proof.Machine.execVsliup apd apa apb mask s
  | .vidx apd mask => Sys2Proof.Machine.execVidx apd mask s
  | .vfcvt apd apa mask => Sys2Proof.Machine.execVfcvt apd apa mask s
  | .vfcvti apd apa mask => Sys2Proof.Machine.execVfcvti apd apa mask s
  | .vicvtf apd apa mask => Sys2Proof.Machine.execVicvtf apd apa mask s
  | .vnclip apd apa apb mask => Sys2Proof.Machine.execVnclip apd apa apb mask s
  | .vext apd apa mask => Sys2Proof.Machine.execVext apd apa mask s
  | .vredsum apd apa mask => Sys2Proof.Machine.execVredsum apd apa mask s
  | .vwredsum apd apa mask => Sys2Proof.Machine.execVwredsum apd apa mask s
  | .vredmax apd apa mask => Sys2Proof.Machine.execVredmax apd apa mask s
  | .vredmin apd apa mask => Sys2Proof.Machine.execVredmin apd apa mask s
  | .vredand apd apa mask => Sys2Proof.Machine.execVredand apd apa mask s
  | .vredor apd apa mask => Sys2Proof.Machine.execVredor apd apa mask s
  | .vredxor apd apa mask => Sys2Proof.Machine.execVredxor apd apa mask s
  | .vfredsum apd apa mask => Sys2Proof.Machine.execVfredsum apd apa mask s
  | .vfwredsum apd apa mask => Sys2Proof.Machine.execVfwredsum apd apa mask s
  | .vfredmax apd apa mask => Sys2Proof.Machine.execVfredmax apd apa mask s
  | .vfredmin apd apa mask => Sys2Proof.Machine.execVfredmin apd apa mask s
  | .vsredsum apd apa kb mask => Sys2Proof.Machine.execVsredsum apd apa kb mask s
  | .vswredsum apd apa kb mask => Sys2Proof.Machine.execVswredsum apd apa kb mask s
  | .vsredmax apd apa kb mask => Sys2Proof.Machine.execVsredmax apd apa kb mask s
  | .vsredmin apd apa kb mask => Sys2Proof.Machine.execVsredmin apd apa kb mask s
  | .vsredand apd apa kb mask => Sys2Proof.Machine.execVsredand apd apa kb mask s
  | .vsredor apd apa kb mask => Sys2Proof.Machine.execVsredor apd apa kb mask s
  | .vsredxor apd apa kb mask => Sys2Proof.Machine.execVsredxor apd apa kb mask s
  | .vsfredsum apd apa kb mask => Sys2Proof.Machine.execVsfredsum apd apa kb mask s
  | .vsfwredsum apd apa kb mask => Sys2Proof.Machine.execVsfwredsum apd apa kb mask s
  | .vsfredmax apd apa kb mask => Sys2Proof.Machine.execVsfredmax apd apa kb mask s
  | .vsfredmin apd apa kb mask => Sys2Proof.Machine.execVsfredmin apd apa kb mask s
  | .vscore apa apb mask => Sys2Proof.Machine.execVscore apa apb mask s
  | .vscoreS apd apa apb mask => Sys2Proof.Machine.execVscoreS apd apa apb mask s
  | .vsegr apd => Sys2Proof.Machine.execVsegr apd s
  | .vexps apd => Sys2Proof.Machine.execVexps apd s
  | .vwacc apd apa apb mask => Sys2Proof.Machine.execVwacc apd apa apb mask s
  | .vclget apd mask => Sys2Proof.Machine.execVclget apd mask s
  | .vclput apa mask => Sys2Proof.Machine.execVclput apa mask s
  | .radd apd apa apb mask => Sys2Proof.Machine.execRadd apd apa apb mask s
  | .uadd apd apa apb mask => Sys2Proof.Machine.execUadd apd apa apb mask s
  | .rxor apd apa apb mask => Sys2Proof.Machine.execRxor apd apa apb mask s
  | .rmulo apd apa apb mask => Sys2Proof.Machine.execRmulo apd apa apb mask s
  | .umulo apd apa apb mask => Sys2Proof.Machine.execUmulo apd apa apb mask s
  | .rfmul apd apa apb mask => Sys2Proof.Machine.execRfmul apd apa apb mask s
  | .ufmul apd apa apb mask => Sys2Proof.Machine.execUfmul apd apa apb mask s
  | .rfadd apd apa apb mask => Sys2Proof.Machine.execRfadd apd apa apb mask s
  | .ufadd apd apa apb mask => Sys2Proof.Machine.execUfadd apd apa apb mask s
  | .rcvt apd apa mask => Sys2Proof.Machine.execRcvt apd apa mask s
  | .ucvt apd apa mask => Sys2Proof.Machine.execUcvt apd apa mask s
  | .rnrw apd apa apb mask => Sys2Proof.Machine.execRnrw apd apa apb mask s
  | .unrw apd apa mask => Sys2Proof.Machine.execUnrw apd apa mask s
  | .pair g gs sc vec => Sys2Proof.Machine.execPair g gs sc vec s
  | .adefRect apd tr ty row0 col0 slots hm1 => Sys2Proof.Machine.execAdefRect apd tr ty row0 col0 slots hm1 s
  | .adefLine apd line bc ty row0 col0 slots => Sys2Proof.Machine.execAdefLine apd line bc ty row0 col0 slots s
  | .adefx apd ra => Sys2Proof.Machine.execAdefx apd ra s
  | .aget rd apa => Sys2Proof.Machine.execAget rd apa s
  | .amov apd apa => Sys2Proof.Machine.execAmov apd apa s
  | .aswap apd apa => Sys2Proof.Machine.execAswap apd apa s
  | .abind apd fs => Sys2Proof.Machine.execAbind apd fs s
  | .aunbind apd => Sys2Proof.Machine.execAunbind apd s
  | .efcget kg ks apd => Sys2Proof.Machine.execEfcget kg ks apd s
  | .efcput kg ks apa => Sys2Proof.Machine.execEfcput kg ks apa s
  | .vsplat kg ks apd ra => Sys2Proof.Machine.execVsplat kg ks apd ra s
  | .vget rd apa rb => Sys2Proof.Machine.execVget rd apa rb s
  | .vlds kg ks ap base xs xr off => Sys2Proof.Machine.execVlds kg ks ap base xs xr off s
  | .vlseg kg ks ap nf base xs xr off => Sys2Proof.Machine.execVlseg kg ks ap nf base xs xr off s
  | .vsts kg ks ap base xs xr off => Sys2Proof.Machine.execVsts kg ks ap base xs xr off s
  | .vsseg kg ks ap nf base xs xr off => Sys2Proof.Machine.execVsseg kg ks ap nf base xs xr off s
  | .vldx kg ks ap base xr idx off => Sys2Proof.Machine.execVldx kg ks ap base xr idx off s
  | .vldxr kg ks ap base xs idx off => Sys2Proof.Machine.execVldxr kg ks ap base xs idx off s
  | .vstx kg ks ap base xr idx off => Sys2Proof.Machine.execVstx kg ks ap base xr idx off s
  | .vstxr kg ks ap base xs idx off => Sys2Proof.Machine.execVstxr kg ks ap base xs idx off s
  | .fsbind fs ra => Sys2Proof.Machine.execFsbind fs ra s
  | .fsrel fs => Sys2Proof.Machine.execFsrel fs s
  | .fsget rd fs => Sys2Proof.Machine.execFsget rd fs s
  | .vxlat kg ks kd apd apa xt xp => Sys2Proof.Machine.execVxlat kg ks kd apd apa xt xp s
  | .vxlatFf kg ks kd apd apa xt xp => Sys2Proof.Machine.execVxlatFf kg ks kd apd apa xt xp s
  | .vamadd kg ks ret apd apa base idx scope q => Sys2Proof.Machine.execVamadd kg ks ret apd apa base idx scope q s
  | .vamfadd kg ks ret apd apa base idx scope q => Sys2Proof.Machine.execVamfadd kg ks ret apd apa base idx scope q s
  | .vammin kg ks ret apd apa base idx scope q => Sys2Proof.Machine.execVammin kg ks ret apd apa base idx scope q s
  | .vammax kg ks ret apd apa base idx scope q => Sys2Proof.Machine.execVammax kg ks ret apd apa base idx scope q s
  | .vamfmin kg ks ret apd apa base idx scope q => Sys2Proof.Machine.execVamfmin kg ks ret apd apa base idx scope q s
  | .vamfmax kg ks ret apd apa base idx scope q => Sys2Proof.Machine.execVamfmax kg ks ret apd apa base idx scope q s
  | .vamand kg ks ret apd apa base idx scope q => Sys2Proof.Machine.execVamand kg ks ret apd apa base idx scope q s
  | .vamor kg ks ret apd apa base idx scope q => Sys2Proof.Machine.execVamor kg ks ret apd apa base idx scope q s
  | .vamxor kg ks ret apd apa base idx scope q => Sys2Proof.Machine.execVamxor kg ks ret apd apa base idx scope q s
  | .accwin aw op ty xb xl xg => Sys2Proof.Machine.execAccwin aw op ty xb xl xg s
  | .awacc kg ks aw idx apa => Sys2Proof.Machine.execAwacc kg ks aw idx apa s
  | .merge aw scope q => Sys2Proof.Machine.execMerge aw scope q s
  | .awrel aw => Sys2Proof.Machine.execAwrel aw s
  | .stpeek rd => Sys2Proof.Machine.execStpeek rd s
  | .stdrop ra => Sys2Proof.Machine.execStdrop ra s
  | .stcut ra => Sys2Proof.Machine.execStcut ra s
  | .stsync => Sys2Proof.Machine.execStsync s
  | .stpre ra => Sys2Proof.Machine.execStpre ra s
  | .tshape nm1 km1 => Sys2Proof.Machine.execTshape nm1 km1 s
  | .tload t apa => Sys2Proof.Machine.execTload t apa s
  | .tmac t apa xr => Sys2Proof.Machine.execTmac t apa xr s
  | .tzero t => Sys2Proof.Machine.execTzero t s
  | .tdrain kg ks apd t xr => Sys2Proof.Machine.execTdrain kg ks apd t xr s
  | .trestart disp => Sys2Proof.Machine.execTrestart disp s
  | .tclose => Sys2Proof.Machine.execTclose s
  | .cpy xd xs xn xc scope => Sys2Proof.Machine.execCpy xd xs xn xc scope s
  | .collAr xa scope => Sys2Proof.Machine.execCollAr xa scope s
  | .collRs xa scope => Sys2Proof.Machine.execCollRs xa scope s
  | .collAg xa scope => Sys2Proof.Machine.execCollAg xa scope s
  | .collA2a xa scope => Sys2Proof.Machine.execCollA2a xa scope s
  | .updSgdm xa scope => Sys2Proof.Machine.execUpdSgdm xa scope s
  | .updAdamw xa scope => Sys2Proof.Machine.execUpdAdamw xa scope s
  | .skipset xa xb => Sys2Proof.Machine.execSkipset xa xb s
  | .wver n xa => Sys2Proof.Machine.execWver n xa s
  | .memoryAccessPerformed hart => Sys2Proof.Machine.execMemoryAccessPerformed hart s
  | .modulePowerRemoval => Sys2Proof.Machine.execModulePowerRemoval s

end Sys2Proof.Machine
end

