-- ==== Sys2Proof/Machine/Late.lean ====
section
/-! DEFINITION. Loads and atomics that are performed after younger accesses of their hart (R290, R293 to R300; DESIGN CHOICE, log 2):
a load has its value at its step, and while it may still be performed later, the hart holds where it read and what it wrote; an
atomic left to later is outstanding, and performed at the latest before an instruction that may meet what it returns. -/

namespace Sys2Proof

open Sys2Proof.Machine

/-- The length and the form of a vector load or store (R210 to R221). -/
def Instr.memForm? : Instr → Option (Nat × (Hart → MemForm))
  | .vld ap base off size => some (4, unitForm true ap base off size)
  | .vst ap base off size => some (4, unitForm false ap base off size)
  | .vlds kg ks ap base xs xr off => some (8, strideForm true kg ks ap 1 base xs xr off)
  | .vlseg kg ks ap nf base xs xr off => some (8, strideForm true kg ks ap (nf.toNat + 1) base xs xr off)
  | .vsts kg ks ap base xs xr off => some (8, strideForm false kg ks ap 1 base xs xr off)
  | .vsseg kg ks ap nf base xs xr off => some (8, strideForm false kg ks ap (nf.toNat + 1) base xs xr off)
  | .vldx kg ks ap base xr idx off => some (8, indexForm true false kg ks ap base xr idx off)
  | .vldxr kg ks ap base xs idx off => some (8, indexForm true true kg ks ap base xs idx off)
  | .vstx kg ks ap base xr idx off => some (8, indexForm false false kg ks ap base xr idx off)
  | .vstxr kg ks ap base xs idx off => some (8, indexForm false true kg ks ap base xs idx off)
  | _ => none

/-- A scalar load: its bytes, whether it extends the sign, its destination, base and offset (R208). -/
def Instr.scalarLoad? : Instr → Option (Nat × Bool × XReg × XReg × BitVec 12)
  | .lb rd base off => some (1, true, rd, base, off)
  | .lh rd base off => some (2, true, rd, base, off)
  | .lw rd base off => some (4, true, rd, base, off)
  | .ld rd base off => some (8, true, rd, base, off)
  | .lbn rd base off => some (1, false, rd, base, off)
  | .lhn rd base off => some (2, false, rd, base, off)
  | .lwn rd base off => some (4, false, rd, base, off)
  | .ldn rd base off => some (8, false, rd, base, off)
  | _ => none

/-- A scalar store: its bytes, base and offset (R208). -/
def Instr.scalarStore? : Instr → Option (Nat × XReg × BitVec 12)
  | .sb _ base off => some (1, base, off)
  | .sh _ base off => some (2, base, off)
  | .sw _ base off => some (4, base, off)
  | .sd _ base off => some (8, base, off)
  | _ => none

/-- The x registers that an integer, branch, jump or scalar memory instruction names. -/
def Instr.scalarNames? : Instr → Option (List XReg)
  | .add rd ra rb | .sub rd ra rb | .and rd ra rb | .or rd ra rb | .xor rd ra rb | .andn rd ra rb | .sll rd ra rb
  | .srl rd ra rb | .sra rd ra rb | .slt rd ra rb | .sltn rd ra rb | .min rd ra rb | .max rd ra rb | .minn rd ra rb
  | .maxn rd ra rb | .adds1 rd ra rb | .adds2 rd ra rb | .adds3 rd ra rb | .mul rd ra rb | .mulh rd ra rb
  | .mulhn rd ra rb | .mulhsn rd ra rb | .div rd ra rb | .divn rd ra rb | .rem rd ra rb | .remn rd ra rb => some [rd, ra, rb]
  | .clz rd ra | .ctz rd ra | .popc rd ra | .sxb rd ra | .sxh rd ra | .sxw rd ra | .zxb rd ra | .zxh rd ra | .zxw rd ra =>
    some [rd, ra]
  | .slli rd ra _ | .srli rd ra _ | .srai rd ra _ => some [rd, ra]
  | .addi rd ra _ | .andi rd ra _ | .ori rd ra _ | .xori rd ra _ | .slti rd ra _ | .sltni rd ra _ | .lih rd ra _
  | .jmpl rd ra _ => some [rd, ra]
  | .beq ra rb _ | .bne ra rb _ | .blt ra rb _ | .bge ra rb _ | .bltn ra rb _ | .bgen ra rb _ => some [ra, rb]
  | .jmp _ => some []
  | .call _ => some [1]
  | .sb rd base _ | .sh rd base _ | .sw rd base _ | .sd rd base _ => some [rd, base]
  | i => i.scalarLoad?.map (fun p => [p.2.2.1, p.2.2.2.1])

/-- The entries that an A-format instruction names. -/
def AHalf.entries (f : AHalf) : List Ap :=
  let u := f.op.uses
  (if u.1 = .ap then [f.apd] else []) ++ (if u.2.1 = .ap then [f.apa] else []) ++ (if u.2.2 = .ap then [f.apb] else [])

/-- The x registers that the scalar half of a pair names. -/
def PairScalar.names : PairScalar → List XReg
  | .nop => []
  | .reg _ rd ra rb => [rd, ra, rb]
  | .imm _ rd ra _ => [rd, ra]

/-- The entries from one on, as many as a segmented form has fields. -/
def segEntries (ap : Ap) (nf : BitVec 3) : List Ap := (List.range (nf.toNat + 1)).map (fun k => BitVec.ofNat 6 (ap.toNat + k))

/-- The x registers and the entries that an A-format instruction, a pair, a vector load or store, or an instruction on a window names. -/
def Instr.vectorNames? : Instr → Option (List XReg × List Ap)
  | .vld ap base _ _ | .vst ap base _ _ => some ([base], [ap])
  | .vlds _ _ ap base xs xr _ | .vsts _ _ ap base xs xr _ => some ([base, xs, xr], [ap])
  | .vlseg _ _ ap nf base xs xr _ | .vsseg _ _ ap nf base xs xr _ => some ([base, xs, xr], segEntries ap nf)
  | .vldx _ _ ap base x idx _ | .vldxr _ _ ap base x idx _ | .vstx _ _ ap base x idx _ | .vstxr _ _ ap base x idx _ =>
    some ([base, x], [ap, idx])
  | .pair _ _ sc f => some (sc.names, f.entries)
  | .accwin _ _ _ xb xl xg => some ([xb, xl, xg], [])
  | .awacc _ _ _ idx apa => some ([], [idx, apa])
  | .merge _ _ _ | .awrel _ => some ([], [])
  | i => i.toHalf.map (fun p => ([], p.1.entries))

/-- The same of an instruction on VL and RC, the Aperture Table, EFC or the transit queue. -/
def Instr.tableNames? : Instr → Option (List XReg × List Ap)
  | .setvl rd ra _ | .setvlG rd ra _ | .setrc rd ra _ | .sliceof rd ra => some ([rd, ra], [])
  | .adefRect apd _ _ _ _ _ _ | .adefLine apd _ _ _ _ _ _ | .efcget _ _ apd | .efcput _ _ apd | .tload _ apd => some ([], [apd])
  | .adefx ap x | .vsplat _ _ ap x | .aget x ap | .tmac _ ap x | .tdrain _ _ ap _ x => some ([x], [ap])
  | .amov apd apa | .aswap apd apa => some ([], [apd, apa])
  | .vget rd apa rb => some ([rd, rb], [apa])
  | .tshape _ _ | .tzero _ | .trestart _ | .tclose => some ([], [])
  | _ => none

/-- A scalar atomic (R229 to R231). -/
def Instr.atom? : Instr → Option AtomForm
  | .amswp rd ra rb dw _ q => some (intForm .swp rd ra rb dw q)
  | .amadd rd ra rb dw _ q => some (intForm .add rd ra rb dw q)
  | .amand rd ra rb dw _ q => some (intForm .and rd ra rb dw q)
  | .amor rd ra rb dw _ q => some (intForm .or rd ra rb dw q)
  | .amxor rd ra rb dw _ q => some (intForm .xor rd ra rb dw q)
  | .ammin rd ra rb dw _ q => some (intForm .min rd ra rb dw q)
  | .ammax rd ra rb dw _ q => some (intForm .max rd ra rb dw q)
  | .amminn rd ra rb dw _ q => some (intForm .minn rd ra rb dw q)
  | .ammaxn rd ra rb dw _ q => some (intForm .maxn rd ra rb dw q)
  | .amcas rd ra rb dw _ q => some (casForm rd ra rb dw q)
  | .amfadd rd ra rb _ q => some (floatForm .fadd rd ra rb q)
  | .amfmin rd ra rb _ q => some (floatForm .fmin rd ra rb q)
  | .amfmax rd ra rb _ q => some (floatForm .fmax rd ra rb q)
  | .amld rd ra dw _ q => some (intForm .ld rd ra 0 dw q)
  | .amst ra rb dw _ q => some (stForm ra rb dw q)
  | _ => none

/-- A vector atomic (R232, R233). -/
def Instr.vam? : Instr → Option VamForm
  | .vamadd kg ks ret apd apa base idx _ q => some ⟨false, 0, kg, ks, ret, apd, apa, base, idx, q⟩
  | .vamfadd kg ks ret apd apa base idx _ q => some ⟨true, 0, kg, ks, ret, apd, apa, base, idx, q⟩
  | .vammin kg ks ret apd apa base idx _ q => some ⟨false, 2, kg, ks, ret, apd, apa, base, idx, q⟩
  | .vammax kg ks ret apd apa base idx _ q => some ⟨false, 1, kg, ks, ret, apd, apa, base, idx, q⟩
  | .vamfmin kg ks ret apd apa base idx _ q => some ⟨true, 2, kg, ks, ret, apd, apa, base, idx, q⟩
  | .vamfmax kg ks ret apd apa base idx _ q => some ⟨true, 1, kg, ks, ret, apd, apa, base, idx, q⟩
  | .vamand kg ks ret apd apa base idx _ q => some ⟨false, 3, kg, ks, ret, apd, apa, base, idx, q⟩
  | .vamor kg ks ret apd apa base idx _ q => some ⟨false, 4, kg, ks, ret, apd, apa, base, idx, q⟩
  | .vamxor kg ks ret apd apa base idx _ q => some ⟨false, 5, kg, ks, ret, apd, apa, base, idx, q⟩
  | _ => none

/-- What the instruction does where its atomic steps are left to be performed later; none where they are not (R290). -/
def Instr.later? (i : Instr) : Option (State → Host.Outcome State Fault Refusal) :=
  match i.atom?, i.vam?, i with
  | some a, _, _ => some (a.run true)
  | _, some m, _ => some (m.run true)
  | _, _, .merge aw _ q => some (Machine.merge aw q true)
  | _, _, _ => none

/-- The stream of a load, store or atomic: true for the vector stream (R289). -/
def Instr.stream? (i : Instr) : Option Bool :=
  if i.scalarLoad?.isSome || i.scalarStore?.isSome || i.atom?.isSome then some false
  else if i.memForm?.isSome || i.vam?.isSome then some true
  else
    match i with
    | .merge _ _ _ => some true
    | _ => none

/-- The stream in which an instruction of these stores. -/
def Instr.storeStream? (i : Instr) : Option Bool :=
  match i with
  | .vld _ _ _ _ | .vlds _ _ _ _ _ _ _ | .vlseg _ _ _ _ _ _ _ _ | .vldx _ _ _ _ _ _ _ | .vldxr _ _ _ _ _ _ _ => none
  | _ => if i.scalarLoad?.isSome then none else i.stream?

/-- A fence and its direction (R238). -/
def Instr.fence? : Instr → Option (BitVec 2)
  | .fenceSv _ => some 0
  | .fenceVs _ => some 1
  | .fenceVv _ => some 2
  | .fenceAll _ => some 3
  | _ => none

/-- The qualifier of an atomic or `merge`. -/
def Instr.qual (i : Instr) : BitVec 2 :=
  match i.atom?, i.vam?, i with
  | some a, _, _ => a.q
  | _, some m, _ => m.q
  | _, _, .merge _ _ q => q
  | _, _, _ => 0

/-- An instruction may store: any but integer, branch and jump instructions, loads and A-format instructions. -/
def Instr.mayStore (i : Instr) : Bool :=
  i.storeStream?.isSome || (i.scalarNames?.isNone && i.memForm?.isNone && i.toHalf.isNone)

/-- The x registers and the entries that an instruction names; none of those whose registers the model does not tell apart. -/
def Instr.names? (i : Instr) : Option (List XReg × List Ap) :=
  match i.scalarNames?, i.vectorNames?, i.atom?, i.vam? with
  | some ns, _, _, _ => some (ns, [])
  | _, some ns, _, _ => some ns
  | _, _, some a, _ => some (a.ra :: a.rb :: a.rd.toList, [])
  | _, _, _, some m => some ([m.base], [m.apd, m.apa, m.idx])
  | _, _, _, _ => if i.fence?.isSome then some ([], []) else i.tableNames?

/-- An entry of the hart's shares no plate with any of these, and is none of them. -/
def Machine.Hart.apart (h : Hart) (ap : Ap) (aps : List Ap) : Bool :=
  aps.all (fun n => n != ap && (h.apt n).footprint h.bh &&& (h.apt ap).footprint h.bh == 0)

/-- An instruction of the hart meets neither the register nor the cells of a destination. -/
def Instr.spares (i : Instr) (h : Hart) (d : LateDest) : Bool :=
  match i.names?, d with
  | some (ns, _), .xreg r _ => !ns.contains r
  | some (_, aps), .cell ap _ _ _ => h.apart ap aps
  | some (_, aps), .block ap _ => h.apart ap aps
  | none, _ => false

/-- An instruction of the hart leaves a load late: it spares its destination, it is no release, and no fence stands between them (R238,
R294). -/
def Instr.leavesLate (i : Instr) (h : Hart) (l : Late) : Bool :=
  i.spares h l.dest && !isRel i.qual && i.fence? != some 3 &&
    (match i.stream? with
      | some v => if v then !l.noVec else !l.noSc
      | none => true)

/-- A late load after a fence that holds it in its earlier set (R238). -/
def Instr.marks (i : Instr) (l : Late) : Late :=
  match i.fence? with
  | some 0 => if l.vec then l else { l with noVec := true }
  | some 1 => if l.vec then { l with noSc := true } else l
  | some 2 => if l.vec then { l with noVec := true } else l
  | _ => l

end Sys2Proof

namespace Sys2Proof.Machine

/-- A late load meets a younger access of its own stream to one of these ranges: it has been performed (R209, R214, R301). -/
def Late.meetsAt (l : Late) (rs : List (Nat × Nat)) : Bool := rs.any (fun r => keepOrder l.loc l.n r.1 r.2)

/-- The same of a younger late load. -/
def Late.meets (l m : Late) : Bool := l.vec == m.vec && m.meetsAt [(l.loc, l.n)]

/-- The location of an access of a late load; none on path 3, on device registers, and where it faults. -/
def State.lateLoc (s : State) (h : Hart) (u : Use) (va : Word) : Option Nat :=
  if pathOf va = 3 then none
  else
    match s.place h u va with
    | .ok (_, .mem loc) => some loc
    | _ => none

/-- The element loads of a vector load that has come to the VL and RC of `h'`, those of one I4S block as one read (R221); none
where an index comes from a stream. -/
def State.lateEls (s : State) (m : MemForm) (h h' : Hart) : List Late :=
  let v := m.vec h
  let ty := (h.apt m.ap).ty
  let items := (List.range' (v.first h) (v.rc * v.vl - v.first h)).filter (fun i =>
    v.act (i / v.vl) (i % v.vl) && decide (i / h.vl < h'.rc) && decide (i % h.vl < h'.vl))
  let at' (i : Nat) : Word := m.addr h (i / h.vl) (i % h.vl) 0
  if !m.load || v.streamed h then []
  else
    let blocks := ((items.filter (fun i => pathOf (at' i) = 4)).map (fun i => blockAddr (at' i))).eraseDups
    blocks.filterMap (fun b =>
      let els := (items.filter (fun i => pathOf (at' i) = 4 && blockAddr (at' i) == b)).map (fun i =>
        (i / h.vl, i % h.vl, (at' i).toNat % 128 / 2))
      (s.lateLoc h .vecLoad b).map (fun loc => ({ vec := true, loc, n := 64, dest := .block m.ap els } : Late))) ++
    items.flatMap (fun i => (List.range m.nf).filterMap (fun f =>
      let va := m.addr h (i / h.vl) (i % h.vl) f
      if pathOf va = 4 then none
      else (s.lateLoc h m.use va).map (fun loc =>
        ({ vec := true, loc, n := tyBytes ty, dest := .cell (m.entry f) (i / h.vl) (i % h.vl) (i % 2) } : Late))))

/-- The hart has come to the instruction that follows one of `len` bytes, and not by a trap. -/
def Hart.passed (h h' : Hart) (len : Nat) : Bool :=
  let next := h.pc + BitVec.ofNat 64 len
  h'.priv == h.priv && h'.pc == next && (h.getCsr (trapBase false + 7) &&& ~~~3) != next &&
  (h.getCsr (trapBase true + 7) &&& ~~~3) != next

/-- A late load of n bytes into X(rd) from an address. -/
def State.lateScalar (s : State) (h : Hart) (u : Use) (va : Word) (n : Nat) (signed : Bool) (rd : XReg) : List Late :=
  if rd = 0 then [] else (s.lateLoc h u va).toList.map (fun loc => { vec := false, loc, n, dest := .xreg rd signed })

/-- The loads that an instruction has made, by the hart before it and after it; `amld` is one where it is no acquire. -/
def State.lateNew (s : State) (i : Instr) (h h' : Hart) : List Late :=
  match i.scalarLoad?, i.memForm?, i with
  | some (n, signed, rd, base, off), _, _ =>
    if h.passed h' 4 then s.lateScalar h .scalarLoad (scaledAddr h base off n) n signed rd else []
  | none, some (len, form), _ => if h.passed h' len then s.lateEls (form h) h h' else []
  | none, none, .amld rd ra dw _ q => if h.passed h' 4 && !isAcq q then s.lateScalar h .atomic (h.getX ra) (szBytes dw) false rd else []
  | _, _, _ => []

/-- Where the elements of a vector instruction lie, f of them to a position, n bytes each. -/
def State.elementsAt (s : State) (u : Use) (v : Vec) (h : Hart) (f n : Nat) (addr : Nat → Nat → Nat → Word) : List (Nat × Nat) :=
  ((List.range' (v.first h) (v.rc * v.vl - v.first h)).filter (fun i => v.act (i / v.vl) (i % v.vl))).flatMap (fun i =>
    (List.range f).filterMap (fun k => (s.lateLoc h u (addr (i / v.vl) (i % v.vl) k)).map (fun loc => (loc, n))))

/-- The bytes that an instruction stores or has an atomic step at, in its own stream; none where a stream of elements tells them. -/
def State.storesAt (s : State) (i : Instr) (h : Hart) : Option (List (Nat × Nat)) :=
  let at' (u : Use) (va : Word) (n : Nat) : List (Nat × Nat) := (s.lateLoc h u va).toList.map (fun loc => (loc, n))
  match i.scalarStore?, i.atom?, i.memForm?, i.vam?, i with
  | some (n, base, off), _, _, _, _ => some (at' .scalarStore (scaledAddr h base off n) n)
  | _, some a, _, _, _ => some (at' .atomic (h.getX a.ra) a.n)
  | _, _, some (_, form), _, _ =>
    let m := form h
    if (m.vec h).streamed h then none
    else if m.load then some []
    else some (s.elementsAt m.use (m.vec h) h m.nf (tyBytes (h.apt m.ap).ty) (m.addr h))
  | _, _, _, some m, _ =>
    let v := vamVec m.float m.ret ⟨m.kg.toNat, m.ks⟩ m.apd m.apa m.idx h
    if v.streamed h then none
    else some (s.elementsAt .atomic v h 1 (tyBytes (h.apt m.apa).ty) (fun r e _ => h.getX m.base + h.indexAt m.idx r e))
  | _, _, _, _, .merge aw _ _ =>
    some (match find h.windows aw.toNat with
      | none => []
      | some w => (List.range (w.len / 4)).flatMap (fun k => at' .atomic (w.base + BitVec.ofNat 64 (4 * k)) 4))
  | _, _, _, _, _ => some []

/-- The instruction has stored in the stream of a late load of its hart what that load may not return: the load has been performed. -/
def State.lateFixed (s : State) (i : Instr) (h h' : Hart) (l : Late) : Bool :=
  h'.pending.any (fun x => x.vec == l.vec && l.meetsAt [(x.loc, x.bytes.length)] && !h.pending.contains x) ||
    (i.storeStream? == some l.vec && ((s.storesAt i h).map l.meetsAt).getD true)

/-- A late load of hart `hid` performed after the outstanding stores to its bytes of the hart that moves, but for those of its own
stream. -/
def State.performLate (t : State) (hid : Nat) (l : Late) : State :=
  let t := (t.performAll t.cur (fun x => !(hid == t.cur && x.vec == l.vec) && overlaps l.loc l.n x.loc x.bytes.length)).settleOwn
    hid l.vec l.loc l.n
  t.updHartAt hid (fun g => l.dest.put (t.see g l.vec l.loc l.n) g)

/-- The bytes of a late load as a stream of the hart that moves sees them may have changed from `s` to `t`. -/
def State.lateSeen (s t : State) (h h' : Hart) (vec : Bool) (l : Late) : Bool :=
  s.see h vec l.loc l.n != t.see h' vec l.loc l.n ||
    h'.pending.any (fun x => x.vec == vec && x.opaque && overlaps l.loc l.n x.loc x.bytes.length && !h.pending.contains x)

/-- A late load of hart `hid` may return what an instruction has stored that has led from `s` to `t`. -/
def State.lateMay (s t : State) (h h' : Hart) (l : Late) : Bool :=
  s.lateSeen t h h' false l || s.lateSeen t h h' true l || peek s.mem l.loc l.n != peek t.mem l.loc l.n

/-- The late loads of hart `hid` after such an instruction: one whose bytes it may have changed is performed again where the free choice
says so. -/
def State.lateStores (s t : State) (h h' : Hart) (hid : Nat) : Nat → List Late → State → State
  | _, [], u => u
  | k, l :: ls, u =>
    let u := if s.lateMay t h h' l && Config.lateLoad s.tick hid k then u.performLate hid l else u
    State.lateStores s t h h' hid (k + 1) ls u

/-- The late loads of the hart that moves which an instruction leaves late: not one of the location of an acquire (R294, note d). -/
def State.lateLeft (s : State) (i : Instr) (h : Hart) (ls : List Late) : List Late :=
  let ls := ls.filter (i.leavesLate h)
  if ls.isEmpty || !isAcq i.qual then ls.map i.marks
  else
    match i.atom? with
    | none => []
    | some a =>
      match s.lateLoc h .atomic (h.getX a.ra) with
      | none => ls
      | some loc => ls.filter (fun l => !overlaps loc a.n l.loc l.n)

/-- The late loads of hart `g` where instruction `i` has led from `s` to `t`: those of the hart that moves which it leaves late and has
not fixed, and all those of another. -/
def State.lateHart (s t : State) (h h' : Hart) (i : Instr) (u : State) (g : Hart) : State :=
  let ls := if g.hid == s.cur then (s.lateLeft i h g.late).filter (fun l => !s.lateFixed i h h' l) else g.late
  if g.late.isEmpty then u
  else (s.lateStores t h h' g.hid 0 ls u).updHartAt g.hid (fun g => { g with late := ls })

/-- The state `t` that instruction `i` has led to from `s`, with the loads that are still late. -/
def State.lateAfter (s : State) (i : Instr) (t : State) : State :=
  match s.hart?, t.hart? with
  | some h, some h' =>
    let new := s.lateNew i h h'
    let u := t.updHart (fun g => { g with late := s.lateLeft i h g.late })
    let u := if i.mayStore || h.pending != h'.pending then t.harts.foldl (fun u g => s.lateHart t h h' i u g) u else u
    u.updHart (fun g => { g with late := g.late.filter (fun l => !new.any l.meets) ++ new })
  | _, _ => t

/-- The same for an outcome. -/
def State.lateOutcome (s : State) (i : Instr) : Host.Outcome State Fault Refusal → Host.Outcome State Fault Refusal
  | .next t => .next (s.lateAfter i t)
  | o => o

/-- What a hart does before an instruction: its atomics are performed whose results the instruction may meet, and what atomics have
read arrives. -/
def State.readyFor (s : State) (i : Instr) : State :=
  let met (h : Hart) (x : Pending) : Bool := x.rmw.any (fun a => !a.dests.all (i.spares h))
  let s := match s.hart? with
    | none => s
    | some h => if h.pending.any (met h) then s.performAll s.cur (met h) else s
  s.updHart Hart.arrive

end Sys2Proof.Machine
end

