-- ==== Sys2Proof/Machine/Younger.lean ====
section
/-! DEFINITION. The instructions that follow one that stops: what its hart has dispatched of them before the stop leaves nothing but the
charge it has paid at the dispatch gate (R314, R376, R384). -/

namespace Sys2Proof

open Sys2Proof.Machine

/-- The x register that an instruction writes, of those that a hart may execute before an older one has completed. -/
def Instr.target? (i : Instr) : Option XReg :=
  match i with
  | .beq _ _ _ | .bne _ _ _ | .blt _ _ _ | .bge _ _ _ | .bltn _ _ _ | .bgen _ _ _ | .jmp _ => none
  | .sb _ _ _ | .sh _ _ _ | .sw _ _ _ | .sd _ _ _ => none
  | .call _ => some 1
  | .sliceof rd _ | .setvl rd _ _ | .setvlG rd _ _ | .setrc rd _ _ | .aget rd _ | .vget rd _ _ | .fsget rd _ => some rd
  | .csrrw rd _ _ | .csrrs rd _ _ | .csrrc rd _ _ => some rd
  | .pair _ _ sc _ => sc.names.head?
  | i =>
    match i.scalarNames?, i.atom? with
    | some ns, _ => ns.head?
    | _, some a => a.rd
    | _, _ => none

/-- The x registers that an instruction reads, of those that a hart may execute before an older one has completed; none of the others, and of
those that wait for an older one: they read its cells, its flags, or what its trim leaves (R104, R123, R136, R212, R238). -/
def Instr.sources? (i : Instr) : Option (List XReg) :=
  match i with
  | .sliceof _ ra | .setvl _ ra _ | .setvlG _ ra _ | .setrc _ ra _ | .adefx _ ra | .vsplat _ _ _ ra | .tmac _ _ ra
  | .tdrain _ _ _ _ ra => some [ra]
  | .adefRect _ _ _ _ _ _ _ | .adefLine _ _ _ _ _ _ _ | .amov _ _ | .aswap _ _ | .abind _ _ | .aunbind _ | .efcget _ _ _ | .efcput _ _ _
  | .tshape _ _ | .tload _ _ | .tzero _ | .trestart _ | .tclose => some []
  | .csrrw _ ra n | .csrrs _ ra n | .csrrc _ ra n => if n = 0xc01 ∨ n = 0xc02 ∨ n = 0xc04 then some [ra] else none
  | .pair _ _ sc _ => some sc.names.tail
  | i =>
    match i.scalarNames?, i.vectorNames?, i.atom?, i.vam? with
    | some ns, _, _, _ => some (if i.target?.isSome then ns.tail else ns)
    | _, some ns, _, _ => some ns.1
    | _, _, some a, _ => if isRel a.q || isAcq a.q then none else some (a.ra :: a.rb :: a.rd.toList)
    | _, _, _, some m => if isRel m.q || isAcq m.q then none else some [m.base]
    | _, _, _, _ => none

/-- No younger instruction that takes VL and RC is ready: the instruction that has stopped can trim, and has not passed its trim point, which
it does with its checks done; a poisoned element is none of them (R211, R212). -/
def Instr.holdsTrim (i : Instr) (g : Hart) : Bool :=
  let can := match i with
    | .vxlat _ _ _ _ _ _ _ | .vxlatFf _ _ _ _ _ _ _ => true
    | i => i.memForm?.isSome && i.storeStream?.isNone
  let cause := (g.getCsr (trapBase (g.priv == .m))).toNat
  can && !(cause / 0x1000 == 3 && cause % 16 == 5)

end Sys2Proof

namespace Sys2Proof.Machine

open Sys2Proof

noncomputable section

/-- The instruction that a hart executed has stopped with a trap: the hart's level has risen, or the hart is gone (R368, R413). -/
def Hart.stopped (h : Hart) (i : Instr) (t : State) : Bool :=
  match i with
  | .eret | .retire => false
  | _ =>
    match t.hartAt h.hid with
    | none => true
    | some g => decide (h.priv.code < g.priv.code)

/-- The vector instructions that a hart dispatches from its program counter on, in program order, until one stops or waits, or needs what is
not there: the registers `un` wait for an older instruction that does not complete (R123, R132), an atomic among them (R314). The hart
dispatches in program order (DESIGN CHOICE, log 5). -/
def State.dispatches (hid : Nat) : Nat → List XReg → State → List Job
  | 0, _, _ => []
  | n + 1, un, s =>
    match s.hartAt hid with
    | none => []
    | some h =>
      match s.fetchInstr h with
      | .error _ => []
      | .ok (s, i) =>
        match i.sources? with
        | none => []
        | some ns =>
          if ns.any (fun r => r != 0 && un.contains r) then []
          else if i.atom?.isSome then
            State.dispatches hid n (i.target?.toList ++ un) (s.updHartAt hid (fun g => { g with pc := g.pc + BitVec.ofNat 64 i.length }))
          else
            match exec i (s.readyFor i) with
            | .next t =>
              let js := (t.coreAt h.q).gate.filter (fun j => j.hid == hid && decide ((s.coreAt h.q).jobs ≤ j.seq))
              let on := match t.hartAt hid with
                | none => false
                | some g => !h.stopped i t && g.pc != h.pc
              js ++ if on then State.dispatches hid n (un.filter (fun r => i.target? != some r)) t else []
            | _ => []

/-- Discarded instructions at a core's gate: what the gate releases of them in a free number of cycles has paid its charge, the rest has
not reached the gate (R384; DESIGN CHOICE, log 5). -/
def State.chargeYounger (t : State) (q hid : Nat) (js : List Job) : State :=
  let t := t.updCore q (fun c =>
    { c with gate := js.foldl (fun g j => insertBy Job.arrives { j with dropped := true, since := c.cyc } g) c.gate })
  (t.runCycles q (Config.cycles t.tick)).updCore q (fun c => { c with gate := c.gate.filter (fun j => !(j.dropped && j.hid == hid)) })

/-- The state `t` that instruction `i` of hart `h` has led to from `s`; where it has stopped, the hart may have dispatched vector
instructions that follow it (R314, R384; how many is free: DESIGN CHOICE, log 5). -/
def State.afterStop (s : State) (h : Hart) (i : Instr) (t : State) : State :=
  if !h.stopped i t || (t.hartAt h.hid).any i.holdsTrim then t
  else
    let ahead := (s.readyFor i).updHartAt h.hid (fun g => { g with pc := h.pc + BitVec.ofNat 64 i.length, swi := 0 })
    let js := ahead.dispatches h.hid (2 ^ 16) i.target?.toList
    if js.isEmpty then t else t.chargeYounger h.q h.hid (js.take (Config.discarded s.tick))

end

end Sys2Proof.Machine
end

