-- ==== Sys2Proof/Machine/Step.lean ====
section
/-! DEFINITION. One step of the machine, and an instruction placed where the next step fetches it. -/

namespace Sys2Proof.Machine

open Sys2Proof

noncomputable section

/-- An instruction of the hart that moves: an atomic whose order lets it is left to be performed later where the free choice says
so. -/
def State.runInstr (s : State) (i : Instr) : Host.Outcome State Fault Refusal :=
  let s := s.readyFor i
  s.lateOutcome i (match (if i.later?.isSome && Config.atomLater s.tick then i.later? else none) with
    | some f => f s
    | none => exec i s)

/-- A fetched instruction of a hart, and what its stop leaves of those that follow it. -/
def State.runFetched (s : State) (h : Hart) (i : Instr) : Host.Outcome State Fault Refusal :=
  match s.runInstr i with
  | .next t => .next (s.afterStop h i t)
  | o => o

/-- What the running hart does: the instruction at its program counter, or the trap that stands in its place. -/
def stepHart (s : State) (h : Hart) : Host.Outcome State Fault Refusal :=
  match h.instead with
  | some i => exec i s
  | none =>
    match s.fetchInstr h with
    | .error e => e.outcome 4
    | .ok (s, i) => s.runFetched h i

/-- One step: an event that is due; otherwise every second time the machinery of a core, if it has work; and otherwise a hart moves,
unless its core's machinery holds it up. -/
def step (s : State) : Host.Outcome State Fault Refusal :=
  let s := { s with tick := s.tick + 1 }
  match s.inbox with
  | i :: is => exec i { s with inbox := is }
  | [] =>
    if !s.power then .fault .powerOff
    else
      match (if s.tick % 2 = 0 then s.pickCore.bind s.coreWork else none) with
      | some i => exec i s
      | none =>
        match s.pickHart with
        | none =>
          match s.idleWork with
          | some i => exec i s
          | none => .next s
        | some h =>
          match s.heldUp h with
          | some i => exec i s
          | none => stepHart { s with cur := h.hid } h

/-- The instruction whose bits are `w`, stored where the next step fetches, in a machine that has one hart, at the start
of a program (DESIGN CHOICE, log 37). -/
def State.withFetchWord (s : State) (nbits w : Nat) : State := s.loadProgram (leBytes 8 (w % 2 ^ nbits))

end

end Sys2Proof.Machine
end

