-- ==== Sys2Proof/Safety.lean ====
section
/-! DEFINITION. What counts as a safe run, and the states and frames that the claims name. -/

namespace Sys2Proof.Machine

open Sys2Proof

/-- The invariant of a run: memory is in its one canonical form. -/
def State.Inv (s : State) : Prop := Memory.wf s.mem = true

/-- The byte of memory at a location. -/
def State.byte (s : State) (loc : Nat) : Byte := SMap.get (w := 8) s.mem loc

/-! ### States after an instruction -/

/-- The hart that moves commits an instruction of `len` bytes, and the next instruction follows it. -/
def State.stepOver (s : State) (len : Nat) : State := s.updHart (fun g => g.commit (g.pc + BitVec.ofNat 64 len))

/-- The state after an instruction of `len` bytes that leaves its hart as `h'`: the next instruction follows it. -/
def State.ran (s : State) (h' : Hart) (len : Nat) : State := (s.setHart h').stepOver len

/-- The hart that moves commits, and transfers control. -/
def State.went (s : State) (pc : Word) : State := s.updHart (fun g => g.commit pc)

/-- The state after an instruction that leaves its hart as `h'` and transfers control. -/
def State.jumped (s : State) (h' : Hart) (pc : Word) : State := (s.setHart h').went pc

/-- The state after an instruction of `len` bytes whose only effect on its hart is `f`. -/
def State.did (s : State) (f : Hart → Hart) (len : Nat) : State := (s.updHart f).stepOver len

/-! ### Frames -/

/-- Nothing but harts, and of the harts only the one that moves. -/
def State.OnlyHart (s t : State) : Prop :=
  t = { s with harts := t.harts } ∧ ∀ n, n ≠ s.cur → t.hartAt n = s.hartAt n

/-- What the timing of cores may change: nothing but the timing state of cores and dies, and what the vector sequencer keeps of gangs. -/
def State.TimingAlike (s t : State) : Prop :=
  t = { s with harts := t.harts, cores := t.cores, dies := t.dies, gangs := t.gangs } ∧
    (∀ d, (t.dieAt d).almanac = (s.dieAt d).almanac) ∧
    t.gangs.map (fun g => { g with rr := 0, passed := [] }) = s.gangs.map (fun g => { g with rr := 0, passed := [] })

/-- Nothing but that timing. -/
def State.OnlyTiming (s t : State) : Prop := s.TimingAlike t ∧ t.harts = s.harts

/-- Nothing but harts and that timing, and of the harts only the one that moves. -/
def State.OnlyHartAndTiming (s t : State) : Prop := s.TimingAlike t ∧ ∀ n, n ≠ s.cur → t.hartAt n = s.hartAt n

/-- A hart but for x registers, the program counter, SWI and RPTCNT. -/
def Hart.KeepsButX (h h' : Hart) : Prop :=
  h' = { h with x := h'.x, pc := h'.pc, swi := h'.swi, csr := h'.csr } ∧ ∀ n, n ≠ 0xd32 → h'.getCsr n = h.getCsr n

/-- A hart but for cells, the program counter, SWI, FSTAT and RPTCNT. -/
def Hart.KeepsButPlane (h h' : Hart) : Prop :=
  h' = { h with plane := h'.plane, pc := h'.pc, swi := h'.swi, csr := h'.csr } ∧
  (∀ n, n ≠ 0xd32 → n ≠ 0xc03 → h'.getCsr n = h.getCsr n)

/-! ### Conditions that claims name -/

/-- No engine command runs and no store of any hart is outstanding. -/
def State.Quiet (s : State) : Prop := s.engines = [] ∧ ∀ g ∈ s.harts, g.pending = []

/-- Fewer than 16 engine commands of the hart are outstanding (R247). -/
def State.FewCommands (s : State) (h : Hart) : Prop := (s.engines.filter (fun c => c.hid == some h.hid)).length < 16

/-- The state after an engine command has issued with its ranges read and its ranges written, of each also the pieces that no translation
places at issue (R247, R291). -/
def State.issued (s : State) (c : EngineCmd) (reads writes : List Range) : State :=
  { s with
    engines := s.engines ++ [{ c with
      id := s.engineId
      reads := ((reads.filter (fun r => pathOf r.1 ≠ 3)).map (fun r => s.segments c .engineRead r.1 r.2)).flatten
      writes := (writes.map (fun r => s.segments c .engineWrite r.1 r.2)).flatten
      unmapped := ((reads.filter (fun r => pathOf r.1 ≠ 3)).map (fun r => (s.unplaced c .engineRead r.1 r.2).map (fun p => (false, p)))).flatten ++
        (writes.map (fun r => (s.unplaced c .engineWrite r.1 r.2).map (fun p => (true, p)))).flatten
      ctrAt := if c.ctr = 0 then [] else s.segments c .atomic c.ctr 8 }]
    engineId := s.engineId + 1 }

/-! ### Sweeps (R110, R111, R121, R375, R376) -/

/-- The checks of a vector instruction pass, its plates are present, and its streams give their elements. -/
structure Vec.Ready (v : Vec) (s : State) (h : Hart) : Prop where
  checks : v.fault? h = none
  plates : h.absent (v.ops.map (fun o => h.apt o.n)) = none
  late : v.valueAp.isSome = true → v.late? h = none
  streams : (v.feed s h).stop = none
  values : v.valueStreamed h = true → v.value (v.feed s h).h (v.rc * v.vl) = none

/-- The active items from index `i` on, `n` indices, one after the other, from a hart and its flags. -/
def Vec.fold (v : Vec) (f : Fed) (i n : Nat) (a : Hart × Flags) : Hart × Flags :=
  (List.range' i n).foldl (fun a i =>
    if v.act (i / v.vl) (i % v.vl) then
      let r := v.effect f a.1 (i / v.vl) (i % v.vl)
      (r.1, a.2 ||| r.2)
    else a) a

/-- The whole sweep, from where it starts: the hart after it, and the flags it raises. -/
def Vec.result (v : Vec) (h : Hart) (f : Fed) : Hart × Flags :=
  v.fold f (v.first h) (v.rc * v.vl - v.first h) (f.h, 0)

/-- A sweep whose checks pass, whose streams give their elements and none of whose flags FEN enables, completed. -/
def Vec.Completes (v : Vec) (s : State) (h : Hart) (t : State) : Prop :=
  v.Ready s h ∧ h.fen &&& (v.result h (v.feed s h)).2 = 0 ∧
    t = ((v.feed s h).s.setHart ((v.result h (v.feed s h)).1.orFlags (v.result h (v.feed s h)).2)).dispatchVec h v false

/-- The state after a vector instruction of `len` bytes that leaves state `t` and its hart as `g`: charged at the gate, and the next
instruction follows it (R328). -/
def Vec.ran (v : Vec) (h : Hart) (t : State) (g : Hart) (len : Nat) : State :=
  ((t.setHart g).dispatchVec h v false).stepOver len

/-- The state after a vector instruction that traps in state `t`: it is charged all the same (R328). -/
def Vec.trapped (v : Vec) (h : Hart) (t : State) (r : TrapRec) : State := (t.dispatchVec h v true).takeTrap r

/-- What a memory fault of a vector instruction of `len` bytes comes to. -/
def Vec.missed (v : Vec) (h : Hart) (e : Exec) (len : Nat) : Host.Outcome State Fault Refusal :=
  (e.settle (fun stops s => s.dispatchVec h v stops)).outcome len

/-- The state in which an instruction of the shared form finds the machine: its chain's `tdrain` may have begun (R262). -/
def Vec.entry (v : Hart → Vec) (s : State) (h : Hart) : State := s.letDrainGo h ((v h).job h)

/-- An instruction of the shared form as its hart meets it: a link of the hart's drain chain, or none (R262, R375). -/
def Vec.met (v : Hart → Vec) (s : State) (h : Hart) : Vec :=
  (v h).linked ((Vec.entry v s h).joins h (v h).cls (v h).charge ((v h).job h))

/-! ### Stops -/

/-- The sweep of a ready instruction comes to its item `k`, which raises or brings the enabled flag `b` first: the state in which it traps,
and its record (R375, R383). -/
def Vec.Stops (v : Vec) (s : State) (h : Hart) (k b : Nat) (t : State) (r : TrapRec) : Prop :=
  let f := v.feed s h
  let n := k - v.first h
  let a := v.fold f (v.first h) n (f.h, 0)
  let all := v.whole || v.streamed h || v.snap
  v.Ready s h ∧ v.first h ≤ k ∧ k < v.rc * v.vl ∧ h.fen &&& a.2 = 0 ∧ v.act (k / v.vl) (k % v.vl) = true ∧
    trapFlag h.fen ((v.el f.h a.1 (k / v.vl) (k % v.vl)).2 ||| f.flags k) = some b ∧
    t = f.s.setHart (if all then h.orFlags (1#6 <<< b) else a.1.orFlags (a.2 ||| 1#6 <<< b)) ∧
    r = { code := 0x2000 + b, tap := some v.tap.toNat, tcell := some (v.cell (k / v.vl) (k % v.vl)), tswi := if all then 0 else k }

/-! ### Placement (R40, R41) -/

/-- A run of `len` from `b` on lies below `size` and meets no run that is taken. -/
def RunFree (taken : List (Nat × Nat)) (size len b : Nat) : Prop := b + len ≤ size ∧ ∀ t ∈ taken, overlaps b len t.1 t.2 = false

/-- It is the lowest free one that begins at a multiple of `step`. -/
def RunLowest (taken : List (Nat × Nat)) (step size len b : Nat) : Prop :=
  b % step = 0 ∧ RunFree taken size len b ∧ ∀ c, c < b → c % step = 0 → ¬ RunFree taken size len c

/-- Bands for harts in hart-index order, each the lowest free run, those of the earlier ones taken (R40, R41). -/
def BandsLowest (rows : Nat) : List (Nat × Nat) → List Nat → Prop
  | _, [] => True
  | taken, b :: bs => RunLowest taken 16 256 rows b ∧ BandsLowest rows ((b, rows) :: taken) bs

/-- The numbers below `n` that are not taken, in rising order. -/
def unused (taken : List Nat) (n : Nat) : List Nat := (List.range n).filter (fun i => !taken.contains i)

/-- A gang of a launch fits a core: the conditions of R40, and a free slot of its dome. -/
structure State.Fits (s : State) (l : Launch) (q : Nat) : Prop where
  served : (s.coreAt q).spared = false
  harts : l.hpg + 1 ≤ (unused (s.room q).ctxs 4).length
  slot : 1 ≤ (unused (s.room q).slots 4).length
  bands : ∃ bs, bs.length = l.hpg + 1 ∧ BandsLowest (16 * l.band) (s.room q).bands bs
  gallery : ∃ b, RunLowest (s.room q).gals 4096 (2 ^ 21) (4096 * l.gal) b
  stair : (s.room q).stair + l.stair ≤ 64
  tiles : l.tiles ≤ (unused (s.room q).tiles 8).length

/-- What a gang that is placed receives on its core (R41). -/
structure State.Allocates (s : State) (l : Launch) (g : Gang) : Prop where
  bands : BandsLowest (16 * l.band) (s.room g.core).bands g.bands
  band : g.bands.length = l.hpg + 1 ∧ g.rows = 16 * l.band
  gallery : g.galSize = 4096 * l.gal ∧ RunLowest (s.room g.core).gals 4096 (2 ^ 21) g.galSize g.galBase
  stair : g.stair = l.stair
  tiles : g.tiles.map (fun t => t.phys) = (unused (s.room g.core).tiles 8).take l.tiles
  sequence : g.seq = (s.coreAt g.core).seq

end Sys2Proof.Machine

namespace Sys2Proof

open Sys2Proof.Machine

/-! ### Pushes and pops (R183 to R194) -/

/-- The state in which a pushing half leaves the machine: its checks and those of the stair pass, FEN enables none of its flags, and its
record is on the stair. -/
def AHalf.Pushed (f : AHalf) (g : Guard) (s : State) (h : Hart) (t : State) : Prop :=
  let v := forwardVec f g h
  let fd := v.feed s h
  let q := recordShape f.op (h.apt f.apd).ty
  let res := v.result h fd
  v.Ready s h ∧ h.fen &&& res.2 = 0 ∧ ∃ s1 wvt s2 h2,
    fd.s.pushCheck h f.apd (payloadLen q.1 q.2.1 (h.rc * h.vl) + 32) = .ok (s1, wvt) ∧
    s1.stairPush res.1 (recordOf (payloadOf q.1 q.2.1 (slotsOf f g h fd.h)) (0xbc00 + 64 * (h.apt f.apd).ty + q.2.2) wvt
      (shapeHash (h.ap.get f.apd.toNat) (h.ap.get f.apa.toNat) h.rc h.vl) h.rc h.vl) = .ok (s2, h2) ∧
    t = (s2.setHart (h2.orFlags res.2)).dispatchVec h v false

/-- The same of an undo half: its record is the one on top, and is taken off. -/
def AHalf.Popped (f : AHalf) (g : Guard) (s : State) (h : Hart) (t : State) : Prop :=
  let u := undoVec f g [] h
  let fd := u.feed s h
  let q := recordShape f.op (h.apt f.apa).ty
  u.Ready s h ∧ ∃ s1 hp payload,
    fd.s.stairPop h f.apa (0xbc00 + 64 * (h.apt f.apa).ty + q.2.2)
      (shapeHash (h.ap.get f.apa.toNat) (h.ap.get f.apd.toNat) h.rc h.vl) (h.rc * h.vl) = .ok (s1, hp, payload) ∧
    h.fen &&& ((undoVec f g payload h).result h fd).2 = 0 ∧
    t = (s1.setHart ((((undoVec f g payload h).result h fd).1.orFlags ((undoVec f g payload h).result h fd).2).popped hp)).dispatchVec h u
      false

/-- The register that an integer, branch, jump, length or table-read instruction may write; none for other instructions
and for those that write no x register. -/
def Instr.xDest : Instr → Option XReg
  | .add rd _ _ | .sub rd _ _ | .and rd _ _ | .or rd _ _ | .xor rd _ _ | .andn rd _ _ | .sll rd _ _ | .srl rd _ _
  | .sra rd _ _ | .slt rd _ _ | .sltn rd _ _ | .min rd _ _ | .max rd _ _ | .minn rd _ _ | .maxn rd _ _
  | .adds1 rd _ _ | .adds2 rd _ _ | .adds3 rd _ _ | .mul rd _ _ | .mulh rd _ _ | .mulhn rd _ _ | .mulhsn rd _ _
  | .div rd _ _ | .divn rd _ _ | .rem rd _ _ | .remn rd _ _ => some rd
  | .clz rd _ | .ctz rd _ | .popc rd _ | .sxb rd _ | .sxh rd _ | .sxw rd _ | .zxb rd _ | .zxh rd _ | .zxw rd _
  | .sliceof rd _ => some rd
  | .slli rd _ _ | .srli rd _ _ | .srai rd _ _ => some rd
  | .addi rd _ _ | .andi rd _ _ | .ori rd _ _ | .xori rd _ _ | .slti rd _ _ | .sltni rd _ _ | .lih rd _ _ => some rd
  | .jmpl rd _ _ => some rd
  | .call _ => some 1
  | .jmp _ | .beq _ _ _ | .bne _ _ _ | .blt _ _ _ | .bge _ _ _ | .bltn _ _ _ | .bgen _ _ _ => some 0
  | .aget rd _ => some rd
  | _ => none

/-- The sweep of an A-format instruction that neither pushes nor pops and is no mask logic. -/
def AHalf.sweep? (f : AHalf) (g : Guard) : Option (Hart → Vec) :=
  match f.op.code.1.toNat with
  | 0x28 => some (fullSweep f g (intClass f.op) (intTypes f.op) (accumulates f.op) (pointwise f (intEl f.op)))
  | 0x29 => some (floatVec f g)
  | 0x2a =>
    match f.op with
    | .vmin | .vmax | .vfmin | .vfmax => some (fun h =>
      { fullSweep f g 2 (minMaxTypes f.op) false (pointwise f (minMaxEl f.op)) h with link := false })
    | .kand | .kor | .kxor | .kandn | .knot | .kmw | .kmr => none
    | _ => some (compareVec f g)
  | 0x2b =>
    match f.op with
    | .vmov | .vfneg | .vfabs | .vfsgnj => some (fun h => { fullSweep f g 5 (moveTypes f.op) false (moveEl f) h with link := true })
    | .vrev | .vperm | .vslidn | .vsliup => some (fun h =>
      { fullSweep f g 5 (moveTypes f.op) false (moveEl f) h with
        snap := sharesAny h.bh h.vl h.rc (h.apt f.apd) ((halfSources f).map h.apt) })
    | _ => some (fullSweep f g 5 (moveTypes f.op) false (moveEl f))
  | 0x2c => some (convertVec f g)
  | 0x2d => some (reduceVec f g)
  | 0x2e =>
    match f.op with
    | .vscore => some (scoreVec f g false)
    | .vscoreS => some (scoreVec f g true)
    | .vsegr => some (fun h => statVec f h false (segrEl h))
    | .vexps => some (fun h => statVec f h true (expsEl h))
    | .vwacc => some (waccVec f g)
    | .vclget => some (latchVec f g true)
    | _ => some (latchVec f g false)
  | _ =>
    match f.op with
    | .radd | .uadd | .rxor | .rmulo | .umulo => some (revIntVec f g)
    | _ => none

/-- The length and the sweep of an instruction that is one sweep. -/
def Instr.sweep? : Instr → Option (Nat × (Hart → Vec))
  | .efcget kg ks apd => some (8, efcVec apd true ⟨kg.toNat, ks⟩)
  | .efcput kg ks apa => some (8, efcVec apa false ⟨kg.toNat, ks⟩)
  | .vsplat kg ks apd ra => some (8, splatVec apd ra ⟨kg.toNat, ks⟩)
  | i => i.toHalf.bind (fun p => (p.1.sweep? (maskGuard p.2)).map (fun v => (4, v)))

/-- The entry whose elements the sweep of an A-format instruction may write, and which of them; none of one that writes no cell (R146, R160,
R169, R173 to R181). -/
def AHalf.writes? (f : AHalf) (g : Guard) (h : Hart) : Option (Ap × (Nat → Nat → Bool)) :=
  let full := some (f.apd, fun r e => decide (r < h.rc) && decide (e < h.vl) && h.active g r e)
  match f.op.code.1.toNat with
  | 0x2a =>
    match f.op with
    | .vmin | .vmax | .vfmin | .vfmax => full
    | _ => none
  | 0x2d => some (f.apd, fun r e => decide (r < h.rc) && decide (e < h.vl) && h.km.getLsbD r)
  | 0x2e =>
    match f.op with
    | .vsegr => some (f.apd, fun r e => r == 0 && decide (e < 3 * h.heads) && !(decide (h.heads ≤ e) && decide (e < 2 * h.heads)))
    | .vexps => some (f.apd, fun r e => r == 0 && decide (h.heads ≤ e) && decide (e < 2 * h.heads))
    | .vwacc => some (f.apd, fun r e => r == 0 && decide (e < h.vl) && h.guardBit g e)
    | .vclget => some (f.apd, fun r e => decide (r < h.rc) && decide (e < 16) && h.km.getLsbD r && h.guardBit g e)
    | _ => none
  | _ => full

/-- The same of every instruction that is one sweep. -/
def Instr.writes? (h : Hart) : Instr → Option (Ap × (Nat → Nat → Bool))
  | .efcget kg ks apd => some (apd, fun r e => r == 0 && decide (e < h.vl) && h.active ⟨kg.toNat, ks⟩ r e)
  | .efcput _ _ _ => none
  | .vsplat kg ks apd _ => some (apd, fun r e => decide (r < h.rc) && decide (e < h.vl) && h.active ⟨kg.toNat, ks⟩ r e)
  | i => i.toHalf.bind (fun p => p.1.writes? (maskGuard p.2) h)

end Sys2Proof
end

