-- ==== Sys2Proof/Certificates/Slice0/Obligations.lean ====
section
/-! DEFINITION. The statements for the provers. Each says of which rule of the spec it speaks; `s.ran h' len` is the state in which
the hart that moves has become `h'` and stands at the next instruction. -/

open Sys2Proof Sys2Proof.Machine

/-! ### Reset, decoding and the step -/

/-- The invariant holds right after reset. -/
def Obligations.ResetInvariant : Prop := State.reset.Inv

/-- Right after module reset: no launch and no hart, no owner, every fault hall off with 2^6 records, every core at CYC and NCYC 0
with no group owned, an empty bucket of capacity 0x0001_0000 that leaks 0x0200 a cycle, and the acceptance count 0.
Values that the spec does not state are the model's (DESIGN CHOICE, log 8), as are the first acceptance number (DEDUCED, log 40) and the empty counters of the model (DESIGN CHOICE, log 2). -/
def Obligations.ResetValues : Prop :=
  State.reset.launches = [] ∧ State.reset.harts = [] ∧ State.reset.owner? = none ∧ State.reset.accepted = 0 ∧
  (∀ n, n < 6 → State.reset.getMgmt (0x260000 + 0x20 * n) = 0 ∧ State.reset.getMgmt (0x260008 + 0x20 * n) = 6 ∧
    State.reset.getMgmt (0x260010 + 0x20 * n) = 0 ∧ State.reset.getMgmt (0x260018 + 0x20 * n) = 0) ∧
  ∀ q, (State.reset.coreAt q).cyc = 0 ∧ (State.reset.coreAt q).ncyc = 0 ∧
    (State.reset.coreAt q).csr.get 0xd40 = 0x10000 ∧ (State.reset.coreAt q).csr.get 0xd41 = 0x200 ∧
    (State.reset.coreAt q).level = 0 ∧ (∀ g ∈ (State.reset.coreAt q).groups, g.owner = none)

/-- The invariant is kept by every step: memory stays in its one canonical form. -/
def Obligations.StepKeepsMemoryCanonical : Prop := ∀ s t : State, s.Inv → step s = .next t → t.Inv

/-- Words of the spec's encodings, written out bit by bit, decode to the instructions they stand for: `addi x5, x0, 1`,
`mul x5, x5, x7`, `bne x6, x0, -2`, `csrrw x5, 0x0C03, x0`, `retire`, a `vadd` under k1 and a transit `tclose`. -/
def Obligations.WordsDecode : Prop :=
  decode 0b000010_00101_00000_0000000000000001#32 0 = some (.addi 5 0 1) ∧
  decode 0b001001_00101_00101_00111_00000000000#32 0 = some (.mul 5 5 7) ∧
  decode 0b010011_00110_00000_1111111111111110#32 0 = some (.bne 6 0 0xfffe) ∧
  decode 0b011001_00101_00000_0000110000000011#32 0 = some (.csrrw 5 0 0xc03) ∧
  decode 0b011110_00000_00000_00000_01100000000#32 0 = some .retire ∧
  decode 0b101000_000001_000010_000011_000000_01#32 0 = some (.vadd 1 2 3 1) ∧
  decode 0b111110_000110010001_000_0_0000000000#32 0 = some .tclose

/-- Decode and encode agree: the words of every well-formed instruction decode to it, with every operand at every value the
encoding admits. -/
def Obligations.EncodedInstructionsDecode : Prop :=
  ∀ (i : Instr) (w v : IWord), i.wf = true → (encode i = .one w ∨ encode i = .two w v) → decode w v = some i

/-- A step runs the decoded instruction. With no event due, power applied, a hart to move that has no interrupt to take and does not
wait, nothing of the cores' machinery in its turn or holding the hart up, and the words at its program counter read, what the hart's
atomics have returned arrives, which changes nothing where none is outstanding; then step at that state is exec of the instruction that
the words decode to, or, for an atomic that the model leaves to be performed later, that form of it (R290; DESIGN CHOICE, log 2). A next
state then has its late loads brought up to date (DESIGN CHOICE, log 2), which changes nothing but the list of them where none was late
before; and where the instruction has stopped with a trap, instructions that follow it may have been charged at the dispatch gate and are
otherwise discarded (R384; DESIGN CHOICE, log 5). Where the words decode to no instruction, the hart takes the illegal-encoding trap. -/
def Obligations.StepRunsDecoded : Prop :=
  ∀ (s t : State) (h : Hart) (w : IWord) (v : Option IWord),
    let s1 : State := { s with tick := s.tick + 1 }
    s.inbox = [] → s.power = true → s1.pickHart = some h → (s1.tick % 2 = 0 → s1.pickCore.bind s1.coreWork = none) →
    s1.heldUp h = none → h.instead = none → ({ s1 with cur := h.hid } : State).fetchWords h = .ok (t, w, v) →
    (∀ i, decode w (v.getD 0) = some i →
      let u := t.readyFor i
      let r (o : Host.Outcome State Fault Refusal) : Host.Outcome State Fault Refusal :=
        match u.lateOutcome i o with
        | .next y => .next (t.afterStop h i y)
        | o => o
      (step s = r (exec i u) ∨ ∃ f, i.later? = some f ∧ step s = r (f u)) ∧
      (∀ y, h.stopped i y = false → t.afterStop h i y = y) ∧
      (∀ y, t.afterStop h i y = y ∨ ∃ js, t.afterStop h i y = y.chargeYounger h.q h.hid js) ∧
      ((∀ g ∈ t.harts, g.landed = [] ∧ g.landedFlags = 0 ∧ ∀ x ∈ g.pending, x.rmw = none) → u = t) ∧
      (i.later? = none → (∀ f, exec i u = .fault f → step s = .fault f) ∧
        ∀ y, exec i u = .next y → step s = .next (t.afterStop h i (u.lateAfter i y)) ∧
          (∀ g, u.hart? = some g → (∀ g' ∈ y.harts, g'.late = []) →
            ∃ late, u.lateAfter i y = y.updHart (fun g => { g with late }))) ) ∧
    (decode w (v.getD 0) = none → step s = .next (t.takeTrap { code := 0x1000, tva := (v.getD 0) ++ w }))

/-! ### Scalar instructions (R123 to R132) -/

/-- The integer forms of majors 0x01 to 0x08: the three-register forms, each with its exact result reduced modulo 2^64; the one-operand
forms (counts of leading, trailing and 1 bits, extensions); the shifts by n; and the immediate forms. -/
def Obligations.IntegerForms : Prop :=
  ∀ (s : State) (h : Hart) (rd ra rb : XReg) (imm : BitVec 16), s.hart? = some h →
    let a := h.getX ra
    let b := h.getX rb
    let k := bits b.toNat 5 0
    let w (v : Word) : Host.Outcome State Fault Refusal := .next (s.ran (h.setX rd v) 4)
    exec (.add rd ra rb) s = w (BitVec.ofInt 64 (a.toInt + b.toInt)) ∧
    exec (.sub rd ra rb) s = w (BitVec.ofInt 64 (a.toInt - b.toInt)) ∧
    exec (.and rd ra rb) s = w (a &&& b) ∧ exec (.or rd ra rb) s = w (a ||| b) ∧ exec (.xor rd ra rb) s = w (a ^^^ b) ∧
    exec (.andn rd ra rb) s = w (a &&& ~~~b) ∧
    exec (.sll rd ra rb) s = w (BitVec.ofNat 64 (a.toNat * 2 ^ k)) ∧
    exec (.srl rd ra rb) s = w (BitVec.ofNat 64 (a.toNat / 2 ^ k)) ∧
    exec (.sra rd ra rb) s = w (BitVec.ofInt 64 (a.toInt / 2 ^ k)) ∧
    exec (.slt rd ra rb) s = w (if a.toInt < b.toInt then 1 else 0) ∧
    exec (.sltn rd ra rb) s = w (if a.toNat < b.toNat then 1 else 0) ∧
    exec (.min rd ra rb) s = w (if a.toInt ≤ b.toInt then a else b) ∧
    exec (.max rd ra rb) s = w (if b.toInt ≤ a.toInt then a else b) ∧
    exec (.minn rd ra rb) s = w (if a.toNat ≤ b.toNat then a else b) ∧
    exec (.maxn rd ra rb) s = w (if b.toNat ≤ a.toNat then a else b) ∧
    exec (.adds1 rd ra rb) s = w (BitVec.ofNat 64 (a.toNat + 2 * b.toNat)) ∧
    exec (.adds2 rd ra rb) s = w (BitVec.ofNat 64 (a.toNat + 4 * b.toNat)) ∧
    exec (.adds3 rd ra rb) s = w (BitVec.ofNat 64 (a.toNat + 8 * b.toNat)) ∧
    (∀ n, n ≤ 64 → (∀ i, 64 - n ≤ i → i < 64 → a.getLsbD i = false) → (n < 64 → a.getLsbD (63 - n) = true) →
      exec (.clz rd ra) s = w (BitVec.ofNat 64 n)) ∧
    (∀ n, n ≤ 64 → (∀ i, i < n → a.getLsbD i = false) → (n < 64 → a.getLsbD n = true) →
      exec (.ctz rd ra) s = w (BitVec.ofNat 64 n)) ∧
    exec (.popc rd ra) s = w (BitVec.ofNat 64 ((List.range 64).countP (fun i => a.getLsbD i))) ∧
    exec (.sxb rd ra) s = w (BitVec.ofInt 64 (sext a.toNat 8)) ∧
    exec (.sxh rd ra) s = w (BitVec.ofInt 64 (sext a.toNat 16)) ∧
    exec (.sxw rd ra) s = w (BitVec.ofInt 64 (sext a.toNat 32)) ∧
    exec (.zxb rd ra) s = w (BitVec.ofNat 64 (a.toNat % 2 ^ 8)) ∧
    exec (.zxh rd ra) s = w (BitVec.ofNat 64 (a.toNat % 2 ^ 16)) ∧
    exec (.zxw rd ra) s = w (BitVec.ofNat 64 (a.toNat % 2 ^ 32)) ∧
    exec (.addi rd ra imm) s = w (BitVec.ofInt 64 (a.toInt + imm.toInt)) ∧
    exec (.andi rd ra imm) s = w (a &&& BitVec.ofNat 64 imm.toNat) ∧
    exec (.ori rd ra imm) s = w (a ||| BitVec.ofNat 64 imm.toNat) ∧
    exec (.xori rd ra imm) s = w (a ^^^ BitVec.ofNat 64 imm.toNat) ∧
    exec (.slti rd ra imm) s = w (if a.toInt < imm.toInt then 1 else 0) ∧
    exec (.sltni rd ra imm) s = w (if a.toNat < (BitVec.ofInt 64 imm.toInt).toNat then 1 else 0) ∧
    exec (.lih rd ra imm) s = w (BitVec.ofNat 64 (a.toNat * 2 ^ 16 + imm.toNat)) ∧
    ∀ n : BitVec 6, exec (.slli rd ra n) s = w (BitVec.ofNat 64 (a.toNat * 2 ^ n.toNat)) ∧
      exec (.srli rd ra n) s = w (BitVec.ofNat 64 (a.toNat / 2 ^ n.toNat)) ∧
      exec (.srai rd ra n) s = w (BitVec.ofInt 64 (a.toInt / 2 ^ n.toNat))

/-- R127 whole: the encodings of multiply and divide, that every other func value is reserved, and their results, the two fixed
operand combinations included. -/
def Obligations.MultiplyAndDivide : Prop :=
  (∀ (rd ra rb : XReg) (f : BitVec 11) (v : IWord), f.toNat ∉ [0, 1, 2, 3, 8, 9, 10, 11] →
    decode (0x09#6 ++ rd ++ ra ++ rb ++ f) v = none) ∧
  ∀ (s : State) (h : Hart) (rd ra rb : XReg), s.hart? = some h →
    let a := h.getX ra
    let b := h.getX rb
    let r (i : Instr) (f : BitVec 11) (v : Word) : Prop := encode i = .one (0x09#6 ++ rd ++ ra ++ rb ++ f) ∧
      (∀ x, decode (0x09#6 ++ rd ++ ra ++ rb ++ f) x = some i) ∧ exec i s = .next (s.ran (h.setX rd v) 4)
    r (.mul rd ra rb) 0 (BitVec.ofNat 64 (a.toNat * b.toNat)) ∧
    r (.mulh rd ra rb) 1 (BitVec.ofInt 64 (a.toInt * b.toInt / 2 ^ 64)) ∧
    r (.mulhn rd ra rb) 2 (BitVec.ofNat 64 (a.toNat * b.toNat / 2 ^ 64)) ∧
    r (.mulhsn rd ra rb) 3 (BitVec.ofInt 64 (a.toInt * b.toNat / 2 ^ 64)) ∧
    (b ≠ 0 → r (.div rd ra rb) 8 (BitVec.ofInt 64 (a.toInt.tdiv b.toInt)) ∧
      r (.divn rd ra rb) 9 (BitVec.ofNat 64 (a.toNat / b.toNat)) ∧
      r (.rem rd ra rb) 10 (BitVec.ofInt 64 (a.toInt - b.toInt * a.toInt.tdiv b.toInt)) ∧
      r (.remn rd ra rb) 11 (BitVec.ofNat 64 (a.toNat % b.toNat))) ∧
    (b = 0 → r (.div rd ra rb) 8 (BitVec.ofInt 64 (-1)) ∧ r (.divn rd ra rb) 9 (BitVec.ofInt 64 (-1)) ∧
      r (.rem rd ra rb) 10 a ∧ r (.remn rd ra rb) 11 a) ∧
    (a = BitVec.ofInt 64 (-2 ^ 63) → b = BitVec.ofInt 64 (-1) →
      r (.div rd ra rb) 8 (BitVec.ofInt 64 (-2 ^ 63)) ∧ r (.rem rd ra rb) 10 0)

/-- `sliceof` never faults. On paths 1, 2, 5 and 6 it answers NOHOME alone; where the path-0 address, or the block of a path-4 address,
has no translation valid for the hart, UNMAPPED alone; otherwise TIER, PIN, the home die and the home slice of the line. That the
tables are read as performed, past outstanding stores to them, is the model's choice (DESIGN CHOICE, log 68). -/
def Obligations.SliceofReportsTheHome : Prop :=
  ∀ (s : State) (h : Hart) (rd ra : XReg), s.hart? = some h →
    let va := h.getX ra
    let w (v : Word) : Host.Outcome State Fault Refusal := .next (s.ran (h.setX rd v) 4)
    (pathOf va ∈ [1, 2, 5, 6] → exec (.sliceof rd ra) s = w (2 ^ 62)) ∧
    (pathOf va ∈ [0, 3, 7] → s.validLeaf h va = none → exec (.sliceof rd ra) s = w (2 ^ 63)) ∧
    (pathOf va = 4 → s.validLeaf h (BitVec.ofNat 64 (64 * (va.toNat % 2 ^ 61 / 128))) = none →
      exec (.sliceof rd ra) s = w (2 ^ 63)) ∧
    ∀ v e level, (pathOf va ∈ [0, 3, 7] ∧ v = va) ∨ (pathOf va = 4 ∧ v = BitVec.ofNat 64 (64 * (va.toNat % 2 ^ 61 / 128))) →
      s.validLeaf h v = some (e, level) →
      let pa := leafAddr e level (v.toNat % 2 ^ 61)
      exec (.sliceof rd ra) s = w (BitVec.ofNat 64 ((if isTier2 pa then 2 ^ 10 else 0) + (if pteBit e 51 then 2 ^ 9 else 0) +
        homeDie pa * 2 ^ 6 + homeSlice pa))

/-- R130 whole: the encodings of the conditional branches, and where the hart goes: to PC + 4 × Sext(disp, 16) when the condition
holds, otherwise to PC + 4. -/
def Obligations.ConditionalBranches : Prop :=
  ∀ (s : State) (h : Hart) (ra rb : XReg) (disp : BitVec 16), s.hart? = some h →
    let a := h.getX ra
    let b := h.getX rb
    let r (i : Instr) (major : BitVec 6) (c : Prop) : Prop :=
      (∀ x, decode (major ++ ra ++ rb ++ disp) x = some i) ∧
      (c → exec i s = .next (s.went (BitVec.ofInt 64 (h.pc.toInt + 4 * disp.toInt)))) ∧ (¬ c → exec i s = .next (s.stepOver 4))
    r (.beq ra rb disp) 0x12 (a = b) ∧ r (.bne ra rb disp) 0x13 (a ≠ b) ∧
    r (.blt ra rb disp) 0x14 (a.toInt < b.toInt) ∧ r (.bge ra rb disp) 0x15 (a.toInt ≥ b.toInt) ∧
    r (.bltn ra rb disp) 0x16 (a.toNat < b.toNat) ∧ r (.bgen ra rb disp) 0x17 (a.toNat ≥ b.toNat)

/-- R131 whole: the encodings of the jumps, the return address, and the target; `jmpl` reads X(ra) before it writes X(rd). -/
def Obligations.Jumps : Prop :=
  ∀ (s : State) (h : Hart) (rd ra : XReg) (imm : BitVec 16) (disp : BitVec 26), s.hart? = some h →
    let far := BitVec.ofInt 64 (h.pc.toInt + 4 * disp.toInt)
    (∀ x, decode (0x10#6 ++ disp) x = some (.jmp disp)) ∧ (∀ x, decode (0x11#6 ++ disp) x = some (.call disp)) ∧
    (∀ x, decode (0x18#6 ++ rd ++ ra ++ imm) x = some (.jmpl rd ra imm)) ∧
    exec (.jmp disp) s = .next (s.went far) ∧
    exec (.call disp) s = .next (s.jumped (h.setX 1 (h.pc + 4)) far) ∧
    exec (.jmpl rd ra imm) s = .next (s.jumped (h.setX rd (h.pc + 4))
      (BitVec.ofInt 64 ((h.getX ra).toInt + imm.toInt) &&& ~~~3))

/-- Frame of the integer, branch and jump instructions and of `aget`: at a next state every x register but the destination is as before,
and so is every other register of the hart but the program counter, SWI (R376) and RPTCNT (R398), every other hart, every byte of
memory and everything else. x0 reads 0 after it. -/
def Obligations.ScalarFrame : Prop :=
  ∀ (i : Instr) (s t : State) (h : Hart) (rd : XReg), i.xDest = some rd → s.hart? = some h → exec i s = .next t →
    s.OnlyHart t ∧ (∀ a, t.byte a = s.byte a) ∧ ∃ h', t.hart? = some h' ∧ h.KeepsButX h' ∧ h'.getX 0 = 0 ∧
      ∀ n, n ≠ rd → h'.getX n = h.getX n

/-! ### CSRs (R133 to R138, R197) -/

/-- The CSR instructions. A number above the hart's privilege is a privilege violation, and one that no chapter assigns, inside the three
ranges of R134 or outside them, an illegal use with reason 1. On a CSR that the hart reaches and that a chapter assigns, the old value is read
with its read rules and goes to X(rd); `csrrw` writes X(ra), and with ra ≠ 0 `csrrs` writes old OR X(ra) and `csrrc` old AND NOT X(ra); with
ra = 0 these two write nothing. An access of FSTAT first performs the hart's older floating atomics, and takes their flags (R104). A read of
CYCW waits while an older instruction of the hart has not completed (R138). -/
def Obligations.CsrInstructions : Prop :=
  ∀ (s : State) (h : Hart) (rd ra : XReg) (csr : BitVec 16), s.hart? = some h →
    let n := csr.toNat
    let assigned : List Nat := [0xc01, 0xc02, 0xc03, 0xc04, 0xc08, 0xc09, 0xc0a, 0xc10, 0xc11, 0xc13, 0xc20, 0xc21, 0xc22, 0xc30, 0xc31,
      0xc32, 0xc33, 0xc40, 0xc41, 0xc42, 0xc44, 0xc46, 0xc48, 0xc49, 0xc50, 0xd10, 0xd11, 0xd12, 0xd20, 0xd21, 0xd22, 0xd23, 0xd24, 0xd25,
      0xd26, 0xd27, 0xd28, 0xd29, 0xd2a, 0xd2b, 0xd2c, 0xd30, 0xd31, 0xd32, 0xd40, 0xd41, 0xd44, 0xd45, 0xd46, 0xd47, 0xd48, 0xd4c, 0xf20,
      0xf21, 0xf22, 0xf23, 0xf24, 0xf25, 0xf26, 0xf27, 0xf28, 0xf29, 0xf2a, 0xf2b, 0xf2c]
    let barred := (h.priv = .u ∧ 0xd00 ≤ n ∧ n ≤ 0xdff) ∨ (h.priv ≠ .m ∧ 0xf00 ≤ n ∧ n ≤ 0xfff)
    (∀ i, i = .csrrw rd ra csr ∨ i = .csrrs rd ra csr ∨ i = .csrrc rd ra csr →
      (barred → exec i s = .next (s.takeTrap { code := 0x1001 })) ∧
      (¬ barred → n ∉ assigned → exec i s = .next (s.takeTrap { code := 0x1101 })) ∧
      (n = 0xc22 → s.holdsCycw h = true → exec i s = .next (s.drain h.hid))) ∧
    (¬ barred → n ∈ assigned → n ≠ 0xc22 ∨ s.holdsCycw h = false →
    let s1 := if n = 0xc03 then s.flagsReady h else s
    let h1 := (s1.hart?).getD h
    let r := s1.readCsr h1 n
    let h' := (r.1.hart?).getD h1
    let w (u : State) : Host.Outcome State Fault Refusal := .next (u.did (fun g => g.setX rd r.2) 4)
    exec (.csrrs rd 0 csr) s = w r.1 ∧ exec (.csrrc rd 0 csr) s = w r.1 ∧
    (∀ u, r.1.writeCsr h' n (h1.getX ra) = .ok u → exec (.csrrw rd ra csr) s = w u) ∧
    (ra ≠ 0 → (∀ u, r.1.writeCsr h' n (r.2 ||| h1.getX ra) = .ok u → exec (.csrrs rd ra csr) s = w u) ∧
      (∀ u, r.1.writeCsr h' n (r.2 &&& ~~~(h1.getX ra)) = .ok u → exec (.csrrc rd ra csr) s = w u)))

/-- Fields that a write of a user CSR stores: FSTAT and FEN keep bits 5:0, CHSEG its two fields, FRM and XRM bits 2:0 unless they hold
6 or 7, which are not stored; WHERE, which is read-only, ignores the write. X(rd) receives the old value. The accesses that have rows
of their own: a read of FSTAT, VL, RC, STB, STL or STP gives the value, FSTAT's after the hart's older floating atomics (R104), of which none
is left outstanding; a read of CYCW, once the hart has nothing outstanding, the core's CYC at that moment, after free cycles (DESIGN CHOICE,
log 5); writes of FSTAT and XSTEP store their fields, XSTEP with the effect of `fbar`; a write of LCTL gives the gang GPRI and LREQ, an LREQ of 0 stored as 1
and one above 8 as 8. A write of STB, STL or STP first writes the stair's on-chip bytes to the spill area; where that meets no fault,
the register takes the value with bits 4:0 cleared, no record boundary is known any more (R203), and no stair byte of the old extent
stays on chip where the stair has a spill area. -/
def Obligations.CsrFields : Prop :=
  ∀ (s : State) (h : Hart) (rd ra : XReg) (v : Word), s.hart? = some h →
    let u := h.getX ra
    let settled := h.landedFlags = 0 ∧ ∀ x ∈ h.pending, x.raises = false
    (∀ csr : BitVec 16, (csr = 0xc03 ∧ settled) ∨ csr = 0xc04 → exec (.csrrw rd ra csr) s =
      .next (s.ran ((h.setCsr csr.toNat (u &&& 0x3f)).setX rd (h.getCsr csr.toNat)) 4)) ∧
    exec (.csrrw rd ra 0xc50) s = .next (s.ran ((h.setCsr 0xc50 (u &&& 0xffff07ff)).setX rd (h.getCsr 0xc50)) 4) ∧
    (∀ csr : BitVec 16, csr = 0xc01 ∨ csr = 0xc02 → exec (.csrrw rd ra csr) s =
      .next (s.ran ((h.setCsr csr.toNat (if u.toNat % 8 < 6 then u &&& 7 else h.getCsr csr.toNat)).setX rd
        (h.getCsr csr.toNat)) 4)) ∧
    exec (.csrrw rd ra 0xc10) s = .next (s.did (fun g => g.setX rd (BitVec.ofNat 64 h.whereNat)) 4) ∧
    (let s1 := s.flagsReady h
      ∃ h1, s1.hart? = some h1 ∧ (settled → s1 = s) ∧ (∀ x ∈ h1.pending, x.raises = false) ∧
        exec (.fstatRead rd) s = .next (s1.did (fun g => g.setX rd (h1.getCsr 0xc03)) 4) ∧
        exec (.fstatWrite v) s = .next (s1.ran (h1.setCsr 0xc03 (v &&& 0x3f)) 4)) ∧
    exec (.vlRcRead false rd) s = .next (s.did (fun g => g.setX rd (BitVec.ofNat 64 h.vl)) 4) ∧
    exec (.vlRcRead true rd) s = .next (s.did (fun g => g.setX rd (BitVec.ofNat 64 h.rc)) 4) ∧
    (∀ reg, exec (.stairRegRead reg rd) s = .next (s.did (fun g => g.setX rd (h.getCsr (stairCsr reg))) 4)) ∧
    (s.holdsCycw h = false → exec (.cycwRead rd) s =
      .next ((s.passTime h.q).did (fun g => g.setX rd (BitVec.ofNat 64 ((s.passTime h.q).coreAt h.q).cyc)) 4)) ∧
    (h.priv ≠ .u → exec (.xstepWrite v) s =
      .next (s.ran { h.setCsr 0xd12 (v &&& 0x800000000000ffff) with fetched := [], unit := none } 4)) ∧
    (∀ g, s.gangOf h = some g → ∃ t, exec (.lctlWrite v) s = .next t ∧ ∃ g', t.gangAt h.q h.slot = some g' ∧
      g'.gpri = bits v.toNat 5 4 ∧
      g'.lreq = (if v.toNat % 16 = 0 then 1 else if 8 < v.toNat % 16 then 8 else v.toNat % 16)) ∧
    ∀ reg s1, s.stairSync h = .ok s1 →
      ∃ t h', exec (.stairRegWrite reg v) s = .next t ∧ t.hart? = some h' ∧ h'.getCsr (stairCsr reg) = v &&& ~~~31 ∧
        h'.stair.marks = [] ∧ (h.noSpill = false → h'.stair.bytes = []) ∧ h'.pc = h.pc + 4

/-! ### Lengths and the Aperture Table (R150 to R153, R390) -/

/-- `setvl` clamps to the plane's 16,384 bits a row, `setvl.g` to the lanes of the groups that the dome has made the gang's target,
which it also makes visible in LGRANT; `setrc` sets RC to X(ra) + imm when the band has that many rows, and otherwise traps with
reason 0x20, RC and X(rd) unchanged. -/
def Obligations.LengthInstructions : Prop :=
  ∀ (s : State) (h : Hart) (rd ra : XReg) (ty : BitVec 4) (imm : BitVec 16), s.hart? = some h →
    let a := (h.getX ra).toNat
    let n := min a (16384 / tyWidth ty.toNat)
    let m := min a (s.target h * 2048 / tyWidth ty.toNat)
    let r := BitVec.ofNat 64 (a + imm.toNat)
    exec (.setvl rd ra ty) s = .next (s.ran { h.setX rd (BitVec.ofNat 64 n) with vl := n } 4) ∧
    exec (.setvlG rd ra ty) s =
      .next (s.ran ({ h.setX rd (BitVec.ofNat 64 m) with vl := m }.setCsr 0xc41 (BitVec.ofNat 64 (s.target h % 16 * 256))) 4) ∧
    (r.toNat ≤ h.bh → exec (.setrc rd ra imm) s = .next (s.ran { h.setX rd r with rc := r.toNat } 4)) ∧
    (h.bh < r.toNat → exec (.setrc rd ra imm) s = .next (s.takeTrap { code := 0x1120 }))

/-- Definitions of an entry: `adef`, `adefx` and `amov` write their value where it has V = 0 or breaks none of R67's conditions, and otherwise
take the fault of the first condition of R390 that it breaks, with TAP naming the entry and every entry unchanged. `aget` reads an entry; `aswap` exchanges two where
both values suit their new places, and otherwise traps with every entry unchanged, the value for the first entry checked first; `abind` sets
SB and FS of an entry and `aunbind` clears them, no other bit changing. `vget` reads the element that X(rb) names, sign-extended where its type
is signed; an entry with V = 0, a position outside the entry and a bound stream that breaks R224 are illegal uses. That `vget` consumes no
element of a bound stream is the model's choice (DESIGN CHOICE, log 55). -/
def Obligations.ApertureTable : Prop :=
  ∀ (s : State) (h : Hart) (rd rb : XReg) (apd apa : Ap) (fs : BitVec 4) (ra : XReg) (tr bc : Bool) (line : BitVec 2) (ty : BitVec 4) (row0 : BitVec 8)
    (col0 slots : BitVec 10) (hm1 : BitVec 8), s.hart? = some h →
    let ill (v : Word) : Option Nat :=
      let kind := bits v.toNat 62 60
      let rows := bits v.toNat 37 29
      let slots := if bits v.toNat 28 19 = 0 then 1024 else bits v.toNat 28 19
      let wide := if bits v.toNat 59 56 ∈ [4, 5, 8] then 2 else 1
      if v.getLsbD 63 = false then none
      else if 6 ≤ kind ∨ 11 ≤ bits v.toNat 59 56 then some 0x4000
      else if h.bh ≤ bits v.toNat 55 48 then some 0x4001
      else if rows = 0 ∨ 256 < rows ∨ (2 ≤ kind ∧ rows ≠ 1) then some 0x4002
      else if v.getLsbD 18 = true ∧ 1 < rows then some 0x4003
      else if (kind = 0 ∧ (1024 < slots * wide ∨ h.bh < rows)) ∨ (kind = 1 ∧ (h.bh < slots ∨ 1024 < rows * wide)) ∨
        (kind = 2 ∧ 1024 < slots * wide) ∨ (kind = 3 ∧ h.bh < slots) ∨ (4 ≤ kind ∧ Nat.lcm h.bh (1024 / wide) < slots) then some 0x4004
      else none
    let fault (n : Ap) (c : Nat) : Host.Outcome State Fault Refusal := .next (s.takeTrap { code := c, tap := some n.toNat })
    let ok (i : Instr) (v : Word) : Prop :=
      (ill v = none → exec i s = .next (s.ran { h with ap := h.ap.set apd.toNat v } 8)) ∧ ∀ c, ill v = some c → exec i s = fault apd c
    ok (.adefRect apd tr ty row0 col0 slots hm1) (Apt.toWord
      { v := true, kind := if tr then 1 else 0, ty := ty.toNat, row0 := row0.toNat, col0 := col0.toNat, h := hm1.toNat + 1
        w := slots.toNat, bc := false, sb := false, fs := 0 }) ∧
    ok (.adefLine apd line bc ty row0 col0 slots) (Apt.toWord
      { v := true, kind := 2 + line.toNat, ty := ty.toNat, row0 := row0.toNat, col0 := col0.toNat, h := 1
        w := slots.toNat, bc := bc, sb := false, fs := 0 }) ∧
    ok (.adefx apd ra) (h.getX ra &&& ~~~0x1fff) ∧ ok (.amov apd apa) (h.ap.get apa.toNat) ∧
    let p := h.ap.get apd.toNat
    let q := h.ap.get apa.toNat
    exec (.aget rd apa) s = .next (s.ran (h.setX rd q) 8) ∧
    (ill q = none → ill p = none →
      exec (.aswap apd apa) s = .next (s.ran { h with ap := (h.ap.set apd.toNat q).set apa.toNat p } 8)) ∧
    (∀ c, ill q = some c → exec (.aswap apd apa) s = fault apd c) ∧
    (∀ c, ill q = none → ill p = some c → exec (.aswap apd apa) s = fault apa c) ∧
    (∃ e : Word, exec (.abind apd fs) s = .next (s.ran { h with ap := h.ap.set apd.toNat e } 8) ∧
      e.getLsbD 17 = true ∧ bits e.toNat 16 13 = fs.toNat ∧ ∀ n, n < 13 ∨ 17 < n → e.getLsbD n = p.getLsbD n) ∧
    (∃ e : Word, exec (.aunbind apd) s = .next (s.ran { h with ap := h.ap.set apd.toNat e } 8) ∧
      bits e.toNat 17 13 = 0 ∧ ∀ n, n < 13 ∨ 17 < n → e.getLsbD n = p.getLsbD n) ∧
    let a := h.apt apa
    let r := bits (h.getX rb).toNat 28 16
    let e := bits (h.getX rb).toNat 12 0
    (a.v = false → exec (.vget rd apa rb) s = .next (s.takeTrap { code := 0x1110, tap := some apa.toNat })) ∧
    (a.v = true → a.hl ≤ r ∨ a.e ≤ e → exec (.vget rd apa rb) s = .next (s.takeTrap { code := 0x1121, tap := some apa.toNat })) ∧
    (a.sb = false → h.streamFault [] [apa] = none) ∧
    (a.v = true → r < a.hl → e < a.e → ∀ n, h.streamFault [] [apa] = some n →
      exec (.vget rd apa rb) s = .next (s.takeTrap { code := 0x1144, tap := some n.toNat })) ∧
    (a.v = true → h.streamFault [] [apa] = none → r < a.hl → e < a.e → h.absent [a] = none → exec (.vget rd apa rb) s =
      .next (((s.setHart (h.setX rd (if tySigned a.ty then BitVec.ofInt 64 (sext (h.getEl a r e) (tyWidth a.ty))
        else BitVec.ofNat 64 (h.getEl a r e)))).dispatch h 5 0 { ops := [⟨q, false, 1, 1, true⟩], rc := 1, vl := 1, rows := 1 }).stepOver 8))

/-! ### Traps, system instructions and interrupts (R139 to R143, R368 to R373) -/

/-- The level that a trap goes to (R368). At U it is S where S TVEC.V is 1 and S TSTAT.ACT is 0, else M where the same holds of M;
at S only M; at M none. A trap that finds no level stops the hart (R413): its older stores are performed and it is gone; its LIVE bit
clears, and where every other LIVE hart of the gang has arrived, PHASE advances and ARR clears; the launch receives a hart entry, up to 63 of
them, and counts further ones in LOST; and a kind-0x11 record is posted with TVA, TCAUSE, TPC and WHERE. -/
def Obligations.TrapLevels : Prop :=
  ∀ (s : State) (h : Hart) (t : TrapRec), s.hart? = some h →
    let free (tvec tstat : Nat) : Prop := (h.getCsr tvec).getLsbD 0 = true ∧ (h.getCsr tstat).getLsbD 2 = false
    (h.priv = .u → free 0xd27 0xd26 → s.takeTrap t = s.setHart (h.enterTrap false t)) ∧
    (h.priv = .u → ¬ free 0xd27 0xd26 → free 0xf27 0xf26 → s.takeTrap t = s.setHart (h.enterTrap true t)) ∧
    (h.priv = .s → free 0xf27 0xf26 → s.takeTrap t = s.setHart (h.enterTrap true t)) ∧
    ((h.priv = .u ∧ ¬ free 0xd27 0xd26 ∧ ¬ free 0xf27 0xf26) ∨ (h.priv = .s ∧ ¬ free 0xf27 0xf26) ∨ h.priv = .m →
      let tpc := t.tpc.getD h.pc
      ∃ u : State, s.takeTrap t = u.hall
          { kind := 0x11, ctx := h.ctx, va := t.tva.toNat, code := t.code, loc := h.whereNat, pc := tpc.toNat } ∧
        u.mem = (s.drain h.hid).mem ∧ (∀ g ∈ u.harts, g.hid ≠ h.hid) ∧
        ∀ g l, s.gangOf h = some g → s.launchAt g.launch = some l →
          (∃ l', u.launchAt g.launch = some l' ∧
            (l.hartEntries.length < 63 → l'.lost = l.lost ∧
              l'.hartEntries = l.hartEntries ++ [⟨tpc, g.index, t.code, h.idx, t.tswi, h.whereNat, t.tva⟩]) ∧
            (63 ≤ l.hartEntries.length → l'.hartEntries = l.hartEntries ∧ l'.lost = min (l.lost + 1) 65535)) ∧
          ((∃ o ∈ s.harts, o.hid ≠ h.hid ∧ o.q = g.core ∧ o.slot = g.slot) →
            let live := g.live &&& ~~~(1#4 <<< h.idx)
            ∃ g', u.gangOf h = some g' ∧ g'.live = live ∧
              (live ≠ 0 → g.arr &&& live = live → g'.phase = g.phase + 1 ∧ g'.arr = 0) ∧
              (g.arr &&& live ≠ live → g'.phase = g.phase ∧ g'.arr = g.arr)))

/-- What taking a trap to a level saves and changes (R369): TCAUSE, TPC, TSWI, TAP, TCELL and TVA of the level, EFC copied, TSTAT.PP and
ACT, the privilege and the program counter. Every register of the other level, FSTAT, EFC, the x registers, the cells and TVEC stay.
SWI becomes 0: that is the model's reading of R376 (DEDUCED, log 15). `trap n` takes the trap of code n with TPC = PC + 4. `eret` at S or M:
the program counter, the privilege, SWI and EFC come back from the registers of the level at which it executes, and ACT is cleared; at U it is a
privilege violation. -/
def Obligations.TrapsEnterAndReturn : Prop :=
  (∀ (h : Hart) (m : Bool) (t : TrapRec),
    let b := if m then 0xf20 else 0xd20
    let g := h.enterTrap m t
    g.getCsr b = BitVec.ofNat 64 t.code ∧ g.getCsr (b + 1) = t.tpc.getD h.pc ∧ g.getCsr (b + 2) = BitVec.ofNat 64 t.tswi ∧
    g.getCsr (b + 3) = (match t.tap with | none => 0 | some a => BitVec.ofNat 64 (2 ^ 6 + a)) ∧
    g.getCsr (b + 4) = (match t.tcell with | none => 0 | some (r, c) => BitVec.ofNat 64 (2 ^ 63 + c * 2 ^ 16 + r)) ∧
    g.getCsr (b + 5) = t.tva ∧
    g.getCsr (b + 6) = (match h.priv with | .u => 4 | .s => 5 | .m => 7) ∧
    (if m then g.tefcM = h.efc ∧ g.tefcS = h.tefcS else g.tefcS = h.efc ∧ g.tefcM = h.tefcM) ∧
    g.priv = (if m then .m else .s) ∧ g.pc = h.getCsr (b + 7) &&& ~~~3 ∧ g.swi = 0 ∧
    (∀ n, n < b ∨ b + 6 < n → g.getCsr n = h.getCsr n) ∧
    g = { h with csr := g.csr, tefcS := g.tefcS, tefcM := g.tefcM, priv := g.priv, pc := g.pc, swi := 0, run := .running
                 unit := none, late := [], drain := [] }) ∧
  ∀ (s : State) (h : Hart) (n : BitVec 10), s.hart? = some h →
    (∀ m, h.trapLevel = some m →
      ∃ t g, exec (.trap n) s = .next t ∧ t.hart? = some g ∧
        g.getCsr (if m then 0xf20 else 0xd20) = BitVec.ofNat 64 n.toNat ∧
        g.getCsr (if m then 0xf21 else 0xd21) = h.pc + 4 ∧ g.getCsr (if m then 0xf22 else 0xd22) = 0 ∧
        g.getCsr (if m then 0xf25 else 0xd25) = 0 ∧ g.priv = (if m then .m else .s) ∧
        g.pc = h.getCsr (if m then 0xf27 else 0xd27) &&& ~~~3 ∧ g.x = h.x ∧ s.OnlyHart t) ∧
    (h.priv = .u → exec .eret s = .next (s.takeTrap { code := 0x1001 })) ∧
    (h.priv ≠ .u →
      let b := if h.priv = .m then 0xf20 else 0xd20
      ∃ t g, exec .eret s = .next t ∧ t.hart? = some g ∧ g.pc = h.getCsr (b + 1) &&& ~~~3 ∧
        g.priv.code = (if (h.getCsr (b + 6)).toNat % 4 = 2 then 0 else (h.getCsr (b + 6)).toNat % 4) ∧
        g.swi = bits (h.getCsr (b + 2)).toNat 19 0 ∧ g.efc = (if h.priv = .m then h.tefcM else h.tefcS) ∧
        (g.getCsr (b + 6)).getLsbD 2 = false ∧ g.x = h.x ∧ g.plane = h.plane ∧ s.OnlyHart t)

/-- The other system instructions. `wfi` stops the hart from fetching, at PC + 4; `dclean` completes, with no engine command under way,
with no store of the hart to a byte of its range outstanding, and of an empty range changes nothing; `fbar` completes, after which the
hart executes no word that an older `xcinv` has taken out. At U, `xcinv` and `ptsync` are privilege violations; above it, `xcinv` takes from
every die the units whose source frames the range maps, and `ptsync` performs the hart's stores, leaves no translation in a TLB, and keeps
only units that the tables still translate to the frames they were read from. That `dclean` of 2^32 bytes and more performs every store, and
`xcinv` of as many leaves no unit, is the model's choice (DESIGN CHOICE, log 48 and DESIGN CHOICE, log 7), as is that both take their range
through the tables as memory holds them, past stores that are outstanding (DESIGN CHOICE, log 68), and that `ptsync` leaves no translation at
all, where R143 takes away those derived from what was there before (DESIGN CHOICE, log 6). -/
def Obligations.SystemInstructions : Prop :=
  ∀ (s : State) (h : Hart) (ra rb : XReg), s.hart? = some h →
    let n := (h.getX rb).toNat
    exec .wfi s = .next (s.ran { h with run := .wfi } 4) ∧
    (n = 0 → exec (.dclean ra rb) s = .next (s.stepOver 4)) ∧
    (s.engines = [] → ∃ t g, exec (.dclean ra rb) s = .next t ∧ t.hart? = some g ∧ g.pc = h.pc + 4 ∧ g.x = h.x ∧
      (∀ x ∈ g.pending, x ∈ h.pending) ∧ (2 ^ 32 ≤ n → g.pending = []) ∧
      (n < 2 ^ 32 → ∀ x ∈ g.pending, ∀ r ∈ s.rangeOf h (h.getX ra) n, overlaps r.1 r.2 x.loc x.bytes.length = false)) ∧
    exec .fbar s = .next (s.ran { h with fetched := [], unit := none } 4) ∧
    (h.priv = .u → exec (.xcinv ra rb) s = .next (s.takeTrap { code := 0x1001 }) ∧
      exec .ptsync s = .next (s.takeTrap { code := 0x1001 })) ∧
    (h.priv ≠ .u →
      (∃ t, exec (.xcinv ra rb) s = .next t ∧ t.mem = s.mem ∧ ∀ d ∈ t.dies, ∀ u ∈ d.almanac, (∃ d' ∈ s.dies, u ∈ d'.almanac) ∧
        2 ^ 32 > n ∧ ∀ r ∈ s.rangeOf h (h.getX ra) n, r.1 / 65536 ∉ u.frames ∧ u.past ≠ some (r.1 / 65536)) ∧
      ∃ t, exec .ptsync s = .next t ∧ t.tlb = [] ∧ t.mem = (s.drain h.hid).mem ∧
        (∀ d ∈ t.dies, ∀ u ∈ d.almanac, t.unitValid u = true) ∧ ∀ g ∈ t.harts, ∀ u ∈ g.fetched, t.unitValid u = true)

/-- Interrupts. The owner's INTPOST write makes XI pending in both TIPs of the hart it names, and no other master's does. Where S TSTAT.ACT is 0
and S TIE enables a pending interrupt, a hart takes the lowest such one to S; else, where M ACT is 0 and M TIE enables one, the lowest such to M;
else none: TCAUSE 0x8000 + number, TPC, TSWI = SWI, its TIP bits cleared. `wfi`'s wait ends.
One pending bit an interrupt, seen in both TIPs, is the model's reading (DEDUCED, log 14). -/
def Obligations.Interrupts : Prop :=
  ∀ (s : State) (h : Hart) (n master : Nat) (v : Word), s.power = true → s.hartAt n = some h → n < 2048 →
    (s.owner? = some master → v.toNat = n → ∃ t g, exec (.intpostWrite master v) s = .next t ∧ t.hartAt n = some g ∧
      (g.getCsr 0xd2c).getLsbD 0 = true ∧ (g.getCsr 0xf2c).getLsbD 0 = true) ∧
    (s.owner? ≠ some master → exec (.intpostWrite master v) s = .next (s.ignored master 0x240000)) ∧
    let enabled (m : Bool) (k : Nat) : Prop := k < 2 ∧ (h.getCsr (if m then 0xf26 else 0xd26)).getLsbD 2 = false ∧
      (h.getCsr (if m then 0xf2b else 0xd2b)).getLsbD k = true ∧ (h.getCsr (if m then 0xf2c else 0xd2c)).getLsbD k = true
    let taken (m : Bool) (k : Nat) : Prop := enabled m k ∧ (∀ j, j < k → ¬ enabled m j) ∧ (m = true → ∀ j, ¬ enabled false j)
    ((∀ m k, ¬ enabled m k) → ∃ t, exec (.interruptTake n) s = .next t ∧ t.hartAt n = some h) ∧
    (∀ k m, taken m k → ∃ t g, exec (.interruptTake n) s = .next t ∧ t.hartAt n = some g ∧
      g.getCsr (if m then 0xf20 else 0xd20) = BitVec.ofNat 64 (0x8000 + k) ∧
      g.getCsr (if m then 0xf22 else 0xd22) = BitVec.ofNat 64 h.swi ∧
      g.getCsr (if m then 0xf21 else 0xd21) = h.pc ∧ g.priv = (if m then .m else .s) ∧
      (g.getCsr 0xd2c).getLsbD k = false ∧ (g.getCsr 0xf2c).getLsbD k = false) ∧
    (h.run = .wfi → ∃ t g, exec (.wfiWake n) s = .next t ∧ t.hartAt n = some g ∧ g = { h with run := .running })

/-! ### Timing: the island's clock, the dispatch gate, the transit queue (R263 to R269, R324 to R333, R421) -/

/-- The island's clock, the dispatch gate and the lane groups. A write of FREQREQ rounds down to a multiple of 10 MHz and clamps to 470 to
1200; a ramp's step up raises the voltage and begins a relock, one down begins the relock; its end moves the point by 10 MHz, after a move
down the voltage with it; a supply limit requests 470 MHz of every core of the die. A cycle of the gate counts CYC, and NCYC by INC, leaks
BKTLEAK and releases the oldest waiting instruction where the bucket has room for its charge at the present weights, or is empty and the charge exceeds the
capacity; otherwise it waits, and THROT counts; a `tdrain` that the gate releases takes its place in the transit queue as soon as that has fewer than 32
entries; during a relock no cycle passes. A lane group that no gang has had for 64 cycles gates, and
one given to a gang wakes at the end of its wake and joins the gang at a pass boundary. None of these events changes anything but timing
state, the supply limit's hall record excepted. Which cycles pass before an instruction is free (DESIGN CHOICE, log 5). -/
def Obligations.CoreTiming : Prop :=
  ∀ (s : State) (q : Nat) (v : Word), s.power = true →
    let c := s.coreAt q
    let mhz := max 470 (min 1200 (bits v.toNat 10 0 / 10 * 10))
    let cap := (c.csr.get 0xd40).toNat % 2 ^ 32
    let left := c.level - (c.csr.get 0xd41).toNat % 2 ^ 16
    (∃ t, exec (.freqreqWrite q v) s = .next t ∧ s.OnlyTiming t ∧ (t.coreAt q).target = mhz ∧ (t.coreAt q).cur = c.cur ∧
      (c.relock = none → t = s.updCore q (fun c => { c with target := mhz }))) ∧
    (∃ t, exec (.freqRampStep q) s = .next t ∧ s.OnlyTiming t ∧ (c.relock.isSome → t.coreAt q = c) ∧ (c.relock = none →
      (c.cur < c.target → (t.coreAt q).relock = some true ∧ (t.coreAt q).volt = max c.volt (c.cur + 10)) ∧
      (c.target < c.cur → (t.coreAt q).relock = some false ∧ (t.coreAt q).volt = c.volt) ∧
      (c.target = c.cur → (t.coreAt q).relock = none ∧ (t.coreAt q).volt = c.cur))) ∧
    (∃ t, exec (.relockEnd q) s = .next t ∧ s.OnlyTiming t ∧ ∀ up, c.relock = some up →
      (t.coreAt q).cur = (if up then c.cur + 10 else c.cur - 10) ∧ (t.coreAt q).relock = none ∧
      (t.coreAt q).volt = (if up then c.volt else c.cur - 10) ∧ (t.coreAt q).cyc = c.cyc ∧ (t.coreAt q).ncyc = c.ncyc ∧
      (t.coreAt q).rstall = min (c.rstall + 24) (2 ^ 32 - 1)) ∧
    (∃ t, exec (.supplyLimit q) s = .next t ∧ t.mem = (s.hall { kind := 0x13, count := q }).mem ∧
      t.mgmt = (s.hall { kind := 0x13, count := q }).mgmt ∧ ∀ k, k < 64 → (t.coreAt (8 * k + q)).target = 470) ∧
    (c.relock.isSome → exec (.dispatchGate q) s = .next s) ∧
    (c.relock = none → ∃ t, exec (.dispatchGate q) s = .next t ∧ s.OnlyTiming t ∧ (t.coreAt q).cyc = c.cyc + 1 ∧
      (t.coreAt q).ncyc = c.ncyc + 940 * 2 ^ 16 / c.cur ∧
      (∀ j, c.gate = [j] → j.dropped = false → left + c.charge j ≤ cap → (t.coreAt q).gate = [] ∧ (t.coreAt q).level = left + c.charge j ∧
        (t.coreAt q).throt = c.throt ∧
        (j.drain = none → (t.coreAt q).vqueue = c.vqueue ++ [{ j with since := c.cyc + 1 }] ∧
          (c.drains = [] → (t.coreAt q).transit = c.transit)) ∧
        (∀ n, j.drain = some n → (t.coreAt q).vqueue = c.vqueue ∧ (c.drains = [] →
          (c.transit.length < 32 → (t.coreAt q).drains = [] ∧
            (t.coreAt q).transit = c.transit ++ [⟨{ j with since := c.cyc + 1 }, .drain, n, 0, 0, none⟩]) ∧
          (32 ≤ c.transit.length → (t.coreAt q).drains = [{ j with since := c.cyc + 1 }] ∧ (t.coreAt q).transit = c.transit)))) ∧
      (∀ j, c.gate = [j] → left = 0 → cap < c.charge j → (t.coreAt q).gate = [] ∧ (t.coreAt q).level = cap) ∧
      (∀ j js, c.gate = j :: js → cap < left + c.charge j → ¬ (left = 0 ∧ cap < c.charge j) →
        (t.coreAt q).gate = c.gate ∧ (t.coreAt q).level = left ∧ (t.coreAt q).vqueue = c.vqueue ∧
        (c.drains = [] → (t.coreAt q).transit = c.transit) ∧
        (t.coreAt q).throt = min (c.throt + 1) (2 ^ 32 - 1))) ∧
    ∀ n g, c.groups[n]? = some g →
      (∃ t, exec (.laneGroupGate q n) s = .next t ∧ s.OnlyTiming t ∧ (t.coreAt q).groups[n]? =
        some (if g.owner = none ∧ g.dest = none ∧ g.wake = none ∧ g.gated = false ∧ g.idle + 64 ≤ c.cyc then { g with gated := true } else g)) ∧
      ∃ t, exec (.laneGroupWake q n) s = .next t ∧ s.OnlyTiming t ∧
        ((g.wake = none ∨ ∃ w, g.wake = some w ∧ c.cyc < w) → (t.coreAt q).groups[n]? = some g) ∧
        ∀ w, g.wake = some w → w ≤ c.cyc → ∃ g', (t.coreAt q).groups[n]? = some g' ∧ g'.gated = false ∧ g'.wake = none ∧
          ∀ slot, g.dest = some slot → (c.midPass slot = false → g'.owner = some slot ∧ g'.dest = none) ∧
            (c.midPass slot = true → g'.owner = g.owner ∧ g'.dest = some slot)

/-- The vector sequencer and the passes. In a cycle whose decisions are not yet made, each gang's winner among the heads that are ready
issues: none that may issue and is not barred has a higher HPRI, and none such of the same HPRI entered its queue earlier; a hart is barred where
it has won before over a head of its own HPRI that may issue now (R55; DESIGN CHOICE, log 59). The pointer of the gang moves to the hart after
the winner's, and the heads that it won over are noted. A head that chains may issue once the results that its first row needs are written. A head with nothing in flight before it, a group to run on and an older `tdrain` nowhere issues. In the passes of a cycle,
the one instruction in flight of a gang that is at a pass boundary and holds a group begins the pass of its next row, whose results are
written 8 cycles after it ends. How far the model's cycles reach is free (DESIGN CHOICE, log 5). -/
def Obligations.VectorSequencer : Prop :=
  ∀ (s : State) (q : Nat), s.power = true →
    let c := s.coreAt q
    (∀ g j on, s.winner c g = some (j, on) → (j, on) ∈ c.candidates g.slot ∧
      (∀ k ∈ c.candidates g.slot, s.hpri k.1.hid = s.hpri j.hid → (j.idx, k.1.seq) ∉ g.passed) ∧
      ∀ k ∈ c.candidates g.slot, (∀ b ∈ c.candidates g.slot, s.hpri b.1.hid = s.hpri k.1.hid → (k.1.idx, b.1.seq) ∉ g.passed) →
        s.hpri k.1.hid ≤ s.hpri j.hid ∧ (s.hpri k.1.hid = s.hpri j.hid → j.since ≤ k.1.since)) ∧
    (∀ j i, c.startable j = some (some i) → (∀ e, find i.ends j.start = some e → c.cyc ≤ e) → i.start ≤ j.start → c.ready j = none) ∧
    (c.decided = true → exec (.vectorIssue q) s = .next s) ∧
    (c.decided = false → ∃ t, exec (.vectorIssue q) s = .next t ∧ s.OnlyTiming t ∧ (t.coreAt q).decided = true ∧
      ∀ g, s.gangs.filter (fun g => g.core == q) = [g] →
        (s.winner c g = none → (t.coreAt q).vqueue = c.vqueue ∧ (t.coreAt q).flight = c.flight) ∧
        (∀ j on, s.winner c g = some (j, on) → (t.coreAt q).vqueue = c.vqueue.filter (fun i => i.seq != j.seq) ∧
          (∃ j', (t.coreAt q).flight = c.flight ++ [j'] ∧ j'.seq = j.seq ∧ j'.chain = on ∧ j'.fused = none) ∧
          ∃ g', t.gangAt q g.slot = some g' ∧ g' = { g with rr := (j.idx + 1) % g.ctxs.length, passed := g'.passed } ∧
            ∀ k ∈ c.candidates g.slot, k.1.seq ≠ j.seq → s.hpri k.1.hid = s.hpri j.hid → (j.idx, k.1.seq) ∈ g'.passed) ∧
        ∀ j, c.vqueue = [j] → c.flight = [] → c.transit = [] → c.tflight = [] → j.slot = g.slot → j.idx < 4 → (j.idx, j.seq) ∉ g.passed →
          0 < c.groups.countP (fun x => x.owner == some j.slot) → (t.coreAt q).vqueue = [] ∧ (t.coreAt q).flight.length = 1) ∧
    ∃ t, exec (.vectorPass q) s = .next t ∧ s.OnlyTiming t ∧ (t.coreAt q).vqueue.length ≤ c.vqueue.length ∧
      ∀ j, c.flight = [j] → j.slot < 4 → j.fused = none → j.chain = none → j.drain = none → j.begun < j.rows →
        c.midPass j.slot = false → 0 < c.groups.countP (fun x => x.owner == some j.slot) →
        let n := j.cycles (c.groups.countP (fun x => x.owner == some j.slot))
        ∃ j', (t.coreAt q).flight = [j'] ∧ j'.begun = j.begun + 1 ∧ find (t.coreAt q).busy j.slot = some (c.cyc + n) ∧
          j'.ends = (if j.clOnly then j.ends else j.ends ++ [(j.start + j.begun, c.cyc + n + 7 + j.extra)])

/-- The transit queue, its engine and the slew limiter. In a cycle in which the engine has issued nothing and is awake, the only entry of the
queue, which nothing in flight holds up, issues: a load, zero or drain at once, a `tmac` or a filler where the limiter grants its core a slot, and
otherwise not. A gated engine that such an entry finds starts to wake for 96 cycles, and a waking one issues nothing. An engine gates at the
end of its TIDLE.CYCLES-th idle cycle, where that is not 0, and the next cycle begins. At the end of a limiter step, what was written to SLEWCFG and SLEWRAMP takes effect; a
core that issued a `tmac` moves one place up its ramp, one that issued only fillers one down, and an empty step counts toward QUIET. These events
change timing state alone. That a core's cycles reach the end of the step before it ends is the model's order (DESIGN CHOICE, log 5). -/
def Obligations.TransitTiming : Prop :=
  ∀ (s : State) (q : Nat), s.power = true →
    let c := s.coreAt q
    let e := s.dieAt (q % 8)
    let tidle := (c.csr.get 0xd48).toNat % 2 ^ 16
    (∃ t, exec (.transitIssue q) s = .next t ∧ s.OnlyTiming t ∧ (c.tissued = true → t.coreAt q = c) ∧
      (∀ n, c.engine = .waking n → t.coreAt q = c) ∧
      ∀ j, c.tissued = false → c.transit = [j] → c.tflight = [] → c.gate = [] → c.drains = [] → c.vqueue = [] → c.flight = [] →
        (j.kind = .drain ∨ j.kind = .fill ∨ (j.kind = .load ∧ c.port ≤ c.cyc) ∨ (j.kind = .zero ∧ c.wport ≤ c.cyc) ∨
          ((j.kind = .mac ∨ j.kind = .macHalf ∨ j.kind = .mac32) ∧ c.array ≤ c.cyc)) →
        (c.engine = .gated → (t.coreAt q).engine = .waking (c.cyc + 96) ∧ (t.coreAt q).transit = c.transit) ∧
        ∀ n, c.engine = .awake n →
          (j.kind = .load ∨ j.kind = .zero ∨ j.kind = .drain → (t.coreAt q).transit = [] ∧ (t.coreAt q).tflight.map (fun x => x.job) = [j.job] ∧
            (t.coreAt q).engine = .awake 0 ∧ (t.coreAt q).slewSlots = c.slewSlots) ∧
          (j.kind ≠ .load → j.kind ≠ .zero → j.kind ≠ .drain →
            (c.slew = none ∨ (∃ k, c.slew = some k ∧ e.ramp k ≤ c.slewSlots) → (t.coreAt q).transit = c.transit ∧
              (t.coreAt q).tflight = [] ∧ (t.coreAt q).slewSlots = c.slewSlots) ∧
            ∀ k, c.slew = some k → c.slewSlots < e.ramp k → (t.coreAt q).engine = .awake 0 ∧ (t.coreAt q).slewSlots = c.slewSlots + 1 ∧
              (j.kind = .fill → (t.coreAt q).tflight = [] ∧
                (t.coreAt q).transit = if 1 < j.count then [{ j with count := j.count - 1 }] else []) ∧
              (j.kind ≠ .fill → (t.coreAt q).transit = [] ∧ (t.coreAt q).slewIssued = 2))) ∧
    (∃ t, exec (.transitOpComplete q) s = .next t ∧ s.OnlyTiming t ∧ (t.coreAt q).transit = c.transit ∧
      (t.coreAt q).tflight = c.tflight.filter (fun j => match j.done with
        | some n => decide (c.cyc ≤ n)
        | none => c.flight.any (fun i => i.seq == j.job.seq))) ∧
    (∃ t, exec (.transitGate q) s = .next t ∧ s.OnlyTiming t ∧ (c.relock.isSome → (t.coreAt q).cyc = c.cyc) ∧
      (c.relock = none → (t.coreAt q).cyc = c.cyc + 1 ∧ ∀ n, c.engine = .awake n →
        let idle := c.transit = [] ∧ c.tflight = [] ∧ c.tissued = false
        (idle → tidle ≠ 0 → tidle ≤ n + 1 → (t.coreAt q).engine = .gated) ∧
        (idle → tidle = 0 ∨ n + 1 < tidle → (t.coreAt q).engine = .awake (n + 1)) ∧
        (¬ idle → (t.coreAt q).engine = .awake 0))) ∧
    (∃ t, exec (.transitWake q) s = .next t ∧ s.OnlyTiming t ∧ ∀ n, c.engine = .waking n →
      (n ≤ c.cyc → (t.coreAt q).engine = .awake 0) ∧ (c.cyc < n → (t.coreAt q).engine = .waking n)) ∧
    (∃ t, exec (.slewStep (q % 8)) s = .next t ∧ s.OnlyTiming t ∧ (t.dieAt (q % 8)).steps = e.steps + 1 ∧
      (t.dieAt (q % 8)).slewCfg = s.getMgmt (0x400000 + 0x1000 * (q % 8)) ∧
      (t.dieAt (q % 8)).slewRamp = s.getMgmt (0x400008 + 0x1000 * (q % 8)) ∧
      ((∀ b ∈ s.cores, b.q % 8 = q % 8 → e.boundary ≤ b.time) → ∀ k, c.slew = some k →
        (c.slewIssued = 2 → (t.coreAt q).slew = some (min (k + 1) 15) ∧ (t.coreAt q).slewEmpty = 0 ∧ (t.coreAt q).slewSlots = 0) ∧
        (c.slewIssued = 1 → (t.coreAt q).slew = some (k - 1) ∧ (t.coreAt q).slewEmpty = 0 ∧ (t.coreAt q).slewSlots = 0) ∧
        (c.slewIssued = 0 → c.slewEmpty + 1 < e.quiet → (t.coreAt q).slew = some k ∧ (t.coreAt q).slewEmpty = c.slewEmpty + 1))) ∧
    ∃ t, exec (.slewCoreQuiet q) s = .next t ∧ s.OnlyTiming t ∧
      (e.quiet ≤ c.slewEmpty → (t.coreAt q).slew = none) ∧ (c.slewEmpty < e.quiet → t.coreAt q = c)

/-! ### Fences, landings, `retire`, hints (R238 to R245, R253, R303) -/

/-- A fence performs the hart's stores of the streams it covers, whatever its scope, and keeps the others outstanding; one that covers
engine transfers needs the hart's commands gone and reports the fault of one that has ended so: the oldest one, the rest kept for later
fences (DESIGN CHOICE, log 19). The oldest outstanding store of a hart
is performed by itself, too; an atomic so left replaces its bytes then, and what it has read waits for the hart.
Performing the covered stores whatever the scope is the model's choice (DESIGN CHOICE, log 4), and stores are outstanding as DESIGN CHOICE, log 2 says (DESIGN CHOICE). -/
def Obligations.FencesPerformStores : Prop :=
  ∀ (s : State) (h : Hart) (sc : BitVec 3), s.hart? = some h →
    (∃ t g, exec (.fenceSv sc) s = .next t ∧ t.hart? = some g ∧ g.pending = h.pending.filter (fun p => p.vec) ∧ g.x = h.x ∧
      g.pc = h.pc + 4) ∧
    (s.enginesOf h.hid = [] → h.engineFaults = [] →
      (∀ i, i = .fenceVs sc ∨ i = .fenceVv sc → ∃ t g, exec i s = .next t ∧ t.hart? = some g ∧
        g.pending = h.pending.filter (fun p => !p.vec) ∧ g.x = h.x ∧ g.pc = h.pc + 4) ∧
      ∃ t g, exec (.fenceAll sc) s = .next t ∧ t.hart? = some g ∧ g.pending = [] ∧ g.x = h.x ∧ g.pc = h.pc + 4) ∧
    (∀ f fs, s.enginesOf h.hid = [] → h.engineFaults = f :: fs → exec (.fenceAll sc) s =
      .next ((((s.drain h.hid).markFence h.hid).updHartAt h.hid (fun g => { g with engineFaults := g.engineFaults.drop 1 })).takeTrap
        { code := f.code, tva := f.tva })) ∧
    (s.power = true → ∀ p ps, h.pending = p :: ps → ∃ t g, exec (.memoryAccessPerformed s.cur) s = .next t ∧ t.hart? = some g ∧
      g.pending = ps ∧ (p.rmw = none → g.landed = h.landed ∧ t.mem = SMap.setAll (w := 8) s.mem p.loc p.bytes) ∧
      ∀ a, p.rmw = some a → g.landed = h.landed ++ a.dests.map (fun d => (d, peek s.mem p.loc p.bytes.length)) ∧
        t.mem = (match (a.op.apply (8 * p.bytes.length) (peekNat s.mem p.loc p.bytes.length) a.b).1 with
          | none => s.mem
          | some v => SMap.setAll (w := 8) s.mem p.loc (leBytes p.bytes.length v)))

/-- Landings. `larrive` is a release: it performs the hart's stores at their homes (DESIGN CHOICE, log 4) and waits while an engine command of the
hart is outstanding. Of a hart that has not arrived it returns PHASE and counts it, and the last arrival clears ARR and steps PHASE; a
hart that has arrived waits. `lwait` returns 0 or the number of phases passed, waits in the phase of its token, and traps on one from the future
with code 0x5000. The memory forms do the same on a block of 8 bytes, whose COUNT must not be 0 (reason 0x49). A wait ends with 0 once the phase is
over.
The result 0 of a wait that had to wait is the model's reading (DEDUCED, log 39); that the arrivals of harts that have retired do not count, so
that the last one is told by ARR covering LIVE, is the model's choice (DESIGN CHOICE, log 70). -/
def Obligations.Landings : Prop :=
  ∀ (s : State) (h : Hart) (rd ra rb : XReg) (sc : BitVec 3), s.hart? = some h →
    let va := h.getX ra
    let r := s.release h.hid
    (s.enginesOf h.hid = [] → r = ((s.drain h.hid).markFence h.hid, true)) ∧ (r.2 = true ↔ r.1.enginesOf h.hid = []) ∧
    (∀ g, s.gangOf h = some g →
      (g.arr.getLsbD h.idx = true → exec (.larrive rd) s = .next s) ∧
      (g.arr.getLsbD h.idx = false → r.2 = false → exec (.larrive rd) s = .next r.1) ∧
      (g.arr.getLsbD h.idx = false → r.2 = true →
        let arr := g.arr ||| 1#4 <<< h.idx
        let g' : Gang := if arr &&& g.live = g.live then { g with arr := 0, phase := g.phase + 1 } else { g with arr := arr }
        exec (.larrive rd) s =
          .next ((r.1.setGang g').did (fun k => k.setX rd (g.phase.setWidth 64)) 4))) ∧
    (∀ g, s.gangOf h = some g →
      let t := (h.getX ra).setWidth 16
      let d := (g.phase - t).toNat
      (32768 ≤ d → exec (.lwait rd ra) s = .next (s.takeTrap { code := 0x5000 })) ∧
      (d = 0 → exec (.lwait rd ra) s = .next (s.updHart (fun k => { k with run := .lwait rd t none }))) ∧
      (0 < d → d < 32768 → exec (.lwait rd ra) s =
        .next (s.did (fun k => k.setX rd (if d = 1 then 0 else BitVec.ofNat 64 d)) 4))) ∧
    (s.Quiet → pathOf va ∈ [0, 1, 2] ∨ (pathOf va = 7 ∧ h.priv ≠ .u) → va.toNat % 8 = 0 → ∀ t loc, t.Quiet →
      poisoned t.poison loc 8 = false →
      let w := peekNat t.mem loc 8
      let count := bits w 23 0
      let arr := bits w 47 24
      let phase := bits w 63 48
      ((s.markFence h.hid).place h .atomic va 8 = .ok (t, .mem loc) →
        (count = 0 → exec (.larriveScope rd ra sc) s = .next (t.takeTrap { code := 0x1149 })) ∧
        (count ≠ 0 → exec (.larriveScope rd ra sc) s = .next ((t.poke loc (leBytes 8
          (if count ≤ arr + 1 then (phase + 1) % 2 ^ 16 * 2 ^ 48 + count else phase * 2 ^ 48 + (arr + 1) * 2 ^ 24 + count))).did
            (fun k => k.setX rd (BitVec.ofNat 64 phase)) 4))) ∧
      ∀ u l, s.place h .scalarLoad va 8 = .ok (u, .mem l) → u.Quiet → u.place h .scalarLoad va 8 = .ok (t, .mem loc) →
        let tok := (h.getX rb).setWidth 16
        let d := (BitVec.ofNat 16 phase - tok).toNat
        (count = 0 → exec (.lwaitScope rd ra rb sc) s = .next (t.takeTrap { code := 0x1149 })) ∧
        (count ≠ 0 → 32768 ≤ d → exec (.lwaitScope rd ra rb sc) s = .next (t.takeTrap { code := 0x5000, tva := va })) ∧
        (count ≠ 0 → d = 0 → exec (.lwaitScope rd ra rb sc) s = .next (t.updHart (fun k => { k with run := .lwait rd tok (some va) }))) ∧
        (count ≠ 0 → 0 < d → d < 32768 → exec (.lwaitScope rd ra rb sc) s =
          .next (t.did (fun k => k.setX rd (if d = 1 then 0 else BitVec.ofNat 64 d)) 4))) ∧
    (∀ g tok, s.power = true → s.gangOf h = some g → h.run = .lwait rd tok none →
      (g.phase = tok → exec (.lwaitReturn s.cur) s = .next s) ∧
      (g.phase ≠ tok → exec (.lwaitReturn s.cur) s = .next (s.did (fun k => { k.setX rd 0 with run := .running }) 4)))

/-- `retire` waits until the hart's vector and transit instructions have completed; then it performs the hart's older stores, clears its
LIVE bit, steps PHASE and clears ARR where every remaining LIVE hart has arrived, and ends the hart; no other hart changes. When it was the last
of its gang, the gang ends and its launch counts it (R28, R57, R245). -/
def Obligations.RetireEndsTheHart : Prop :=
  ∀ (s : State) (h : Hart), s.hart? = some h →
    ((s.coreAt h.q).outstanding h.hid = true → exec .retire s = .next s) ∧
    ((s.coreAt h.q).outstanding h.hid = false → ∃ t, exec .retire s = .next t ∧ t.hart? = none ∧ t.mem = (s.drain h.hid).mem ∧ (∀ n, n ≠ s.cur → t.hartAt n = s.hartAt n) ∧
      ∀ g, s.gangOf h = some g →
        ((∃ k ∈ s.harts, k.hid ≠ h.hid ∧ k.q = h.q ∧ k.slot = h.slot) → ∃ g', t.gangAt h.q h.slot = some g' ∧
          let live := g.live &&& ~~~(1#4 <<< h.idx)
          g'.live = live ∧ g'.index = g.index ∧ (live ≠ 0 → g.arr &&& live = live → g'.phase = g.phase + 1 ∧ g'.arr = 0) ∧
          (g.arr &&& live ≠ live → g'.phase = g.phase ∧ g'.arr = g.arr)) ∧
        ((∀ k ∈ s.harts, k.hid = h.hid ∨ k.q ≠ h.q ∨ k.slot ≠ h.slot) → t.gangAt h.q h.slot = none ∧
          ∀ l, s.launchAt g.launch = some l → t.launchAt g.launch = some { l with ended := l.ended + 1 }))

/-- The power hints, TSHAPE and the restart label. `twake` starts the 96 cycles of a gated engine's wake; `tfill` enters min(X(ra), 1024)
fillers once the queue has room, and none of 0; `bkt` returns the level once the bucket has room for min(X(ra), capacity), and until then a
cycle passes, both after free cycles (DESIGN CHOICE, log 5); `tshape` sets K and N; `trestart` arms TRST with PC + 4 × disp, and `tclose` disarms it. -/
def Obligations.HintsAndLabels : Prop :=
  ∀ (s : State) (h : Hart) (rd ra : XReg) (nm1 : BitVec 6) (km1 : BitVec 7) (disp : BitVec 32), s.hart? = some h →
    let x := (h.getX ra).toNat
    let u := s.passTime h.q
    let c := u.coreAt h.q
    let cap := (c.csr.get 0xd40).toNat % 2 ^ 32
    (∃ t, exec .twake s = .next (t.stepOver 4) ∧ s.OnlyTiming t ∧ (t.coreAt h.q).engine = (match (s.coreAt h.q).engine with
      | .gated => .waking ((s.coreAt h.q).cyc + 96)
      | .waking n => .waking n
      | .awake _ => .awake 0)) ∧
    (s.transitRoom h = true → x = 0 → exec (.tfill ra) s = .next (s.stepOver 4)) ∧
    (s.transitRoom h = true → 0 < x → ∃ t j, exec (.tfill ra) s = .next (t.stepOver 4) ∧ s.OnlyTiming t ∧
      (t.coreAt h.q).transit = (s.coreAt h.q).transit ++ [j] ∧ j.kind = .fill ∧ j.count = min x 1024 ∧ j.job.slot = h.slot) ∧
    (s.transitRoom h = false → exec (.tfill ra) s = .next s) ∧
    (min x cap + c.level ≤ cap → exec (.bkt rd ra) s = .next (u.did (fun g => g.setX rd (BitVec.ofNat 64 c.level)) 4)) ∧
    (cap < min x cap + c.level → ∃ t, exec (.bkt rd ra) s = .next t ∧ s.OnlyTiming t ∧ c.cyc ≤ (t.coreAt h.q).cyc) ∧
    exec (.tshape nm1 km1) s =
      .next (s.ran (h.setCsr 0xc48 (BitVec.ofNat 64 ((nm1.toNat + 1) * 256 + (km1.toNat + 1)))) 8) ∧
    exec (.trestart disp) s =
      .next (s.ran (h.setCsr 0xc49 (((BitVec.ofInt 64 (h.pc.toInt + 4 * disp.toInt)) &&& ~~~3) ||| 1)) 8) ∧
    exec .tclose s = .next (s.ran (h.setCsr 0xc49 (h.getCsr 0xc49 &&& ~~~1)) 8)

/-! ### Scalar memory instructions (R204 to R209, R227 to R231, R280, R395 to R398) -/

/-- A translation where nothing is outstanding and no TLB holds one: it walks to a valid leaf that gives the access its rights, its
address is the leaf's, and it changes no byte of memory but the one that holds the leaf's A and D bits, of which A is then set, and D
where the access writes. -/
def Obligations.TranslationsOnlyMark : Prop :=
  ∀ (s t : State) (h : Hart) (need : Access) (va : Word) (pa : Nat), s.Quiet → s.tlb = [] → s.translate h need va = .ok (t, pa) →
    ∃ e loc level, walk s.mem (h.root (pathOf va)) (va.toNat % 2 ^ 61) = .leaf e loc level ∧
      pa = leafAddr e level (va.toNat % 2 ^ 61) ∧ (h.priv = .u → pteBit e 61 = true) ∧
      (need = .fetch → pteBit e 58 = true) ∧ (need = .load ∨ need = .atomic → pteBit e 60 = true) ∧
      (need = .store ∨ need = .atomic → pteBit e 59 = true) ∧ (∀ a, a ≠ loc + 7 → t.byte a = s.byte a) ∧
      pteBit (peekNat t.mem loc 8) 57 = true ∧ (need = .store ∨ need = .atomic → pteBit (peekNat t.mem loc 8) 56 = true) ∧
      t.harts = s.harts ∧ t.engines = s.engines

/-- Scalar loads. An admitted address that is not a multiple of n is fault F = 4; an address without a place is the fault that its
translation or path names; otherwise, with nothing outstanding and no poison, X(rd) receives the n bytes there, lowest first, sign- or
zero-extended, and nothing else changes but what the translation does. On path 3 only the lines that the core has read are noted (R272), and each byte is one that R206 allows.
A load that meets poison leaves the A bit as it was (DEDUCED, log 41). -/
def Obligations.ScalarLoads : Prop :=
  ∀ (s : State) (h : Hart) (rd base : XReg) (off : BitVec 12), s.hart? = some h →
    let r (i : Instr) (n : Nat) (signed : Bool) : Prop :=
      let va := h.getX base + BitVec.ofInt 64 (off.toInt * n)
      let admitted := (Use.scalarLoad).admits (pathOf va) (h.priv != .u) = true
      let value (v : Nat) : Word := if signed then BitVec.ofInt 64 (sext v (8 * n)) else BitVec.ofNat 64 v
      (admitted → va.toNat % n ≠ 0 → exec i s = .next (s.takeTrap { code := 0x3014, tva := va })) ∧
      (¬ admitted → exec i s = .next (s.takeTrap { code := 0x3013, tva := va })) ∧
      (admitted → va.toNat % n = 0 →
        (∀ f, s.place h .scalarLoad va n = .error f → exec i s = (s.memTrap h 1 f va 0 none none n).outcome 4) ∧
        (∀ t o, s.place h .scalarLoad va n = .ok (t, .dev o) → exec i s = .next (t.did (fun g => g.setX rd (value (leNat (t.devRead o n)))) 4)) ∧
        ∀ t loc, s.place h .scalarLoad va n = .ok (t, .mem loc) → t.Quiet →
          (poisoned t.poison loc n = true → exec i s = (s.memTrap h 1 5 va 0 none none n).outcome 4) ∧
          (poisoned t.poison loc n = false → pathOf va ≠ 3 →
            exec i s = .next (t.did (fun g => g.setX rd (value (peekNat t.mem loc n))) 4)) ∧
          (poisoned t.poison loc n = false → pathOf va = 3 → ∃ (u : State) (bs : List Byte), bs.length = n ∧ u = { t with consts := u.consts } ∧
            (∀ k, k < n → bs.getD k 0 ∈ t.constValues (((t.launchOf h).map (fun l => l.stamp)).getD 0) (loc + k)) ∧
            exec i s = .next (u.did (fun g => g.setX rd (value (leNat bs))) 4)))
    r (.lb rd base off) 1 true ∧ r (.lh rd base off) 2 true ∧ r (.lw rd base off) 4 true ∧ r (.ld rd base off) 8 true ∧
    r (.lbn rd base off) 1 false ∧ r (.lhn rd base off) 2 false ∧ r (.lwn rd base off) 4 false ∧ r (.ldn rd base off) 8 false

/-- Scalar stores. An admitted address that is not a multiple of n is fault F = 4; otherwise the store of the low n bytes of X(rd) at the
place of its address becomes outstanding, no register changes, and no byte of memory but by the translation. Once the hart's stores are
performed, every byte outside the n stored ones reads as before and these read as the register's bytes. A write of a device register by
a hart has no effect. That a store becomes outstanding and is performed later is the model's choice (DESIGN CHOICE, log 2). -/
def Obligations.ScalarStores : Prop :=
  ∀ (s : State) (h : Hart) (rd base : XReg) (off : BitVec 12), s.hart? = some h →
    let r (i : Instr) (n : Nat) : Prop :=
      let va := h.getX base + BitVec.ofInt 64 (off.toInt * n)
      let admitted := (Use.scalarStore).admits (pathOf va) (h.priv != .u) = true
      (admitted → va.toNat % n ≠ 0 → exec i s = .next (s.takeTrap { code := 0x3024, tva := va })) ∧
      (¬ admitted → exec i s = .next (s.takeTrap { code := 0x3023, tva := va })) ∧
      (admitted → va.toNat % n = 0 →
        (∀ f, s.place h .scalarStore va n = .error f → exec i s = (s.memTrap h 2 f va 0 none none n).outcome 4) ∧
        (∀ t o, s.place h .scalarStore va n = .ok (t, .dev o) → exec i s = .next (t.stepOver 4)) ∧
        ∀ t loc, s.place h .scalarStore va n = .ok (t, .mem loc) → t.Quiet → t.hart? = some h →
          ∃ u g, exec i s = .next u ∧ u.hart? = some g ∧ t.OnlyHart u ∧ h.KeepsButX { g with pending := [] } ∧ g.x = h.x ∧
            g.pending = [{ vec := false, loc := loc, bytes := leBytes n (h.getX rd).toNat }] ∧
            (∀ a, a < loc ∨ loc + n ≤ a → (u.drain s.cur).byte a = t.byte a) ∧
            ∀ k, k < n → (u.drain s.cur).byte (loc + k) = (h.getX rd).extractLsb' (8 * k) 8)
    r (.sb rd base off) 1 ∧ r (.sh rd base off) 2 ∧ r (.sw rd base off) 4 ∧ r (.sd rd base off) 8

/-- Scalar atomics, whatever their scope and qualifier: with nothing outstanding, an aligned address on a path that admits them and no
poison, the 4 or 8 bytes m at its place are replaced by the result, and X(rd) receives m zero-extended (`amst` writes no register,
`amld` and an `amcas` that compares unequal write no byte). A release notes how far the stair's bytes have been pushed (R199). An address not aligned is fault F = 4. The float forms raise their flags in
FSTAT; where FEN enables one, they trap with nothing written (DEDUCED, log 22). A path that does not admit atomics is fault F = 3. -/
def Obligations.ScalarAtomics : Prop :=
  ∀ (s t : State) (h : Hart) (rd ra rb : XReg) (sc : BitVec 3) (q : BitVec 2) (dw : Bool) (loc : Nat), s.hart? = some h → s.Quiet →
    let n := if dw then 8 else 4
    let u := if q.getLsbD 1 then s.markFence h.hid else s
    let va := h.getX ra
    let sized : List Instr := [.amswp rd ra rb dw sc q, .amadd rd ra rb dw sc q, .amand rd ra rb dw sc q, .amor rd ra rb dw sc q,
      .amxor rd ra rb dw sc q, .ammin rd ra rb dw sc q, .ammax rd ra rb dw sc q, .amminn rd ra rb dw sc q, .ammaxn rd ra rb dw sc q,
      .amcas rd ra rb dw sc q, .amld rd ra dw sc q, .amst ra rb dw sc q]
    let floats : List Instr := [.amfadd rd ra rb sc q, .amfmin rd ra rb sc q, .amfmax rd ra rb sc q]
    let admitted := (Use.atomic).admits (pathOf va) (h.priv != .u) = true
    (admitted → va.toNat % n ≠ 0 → ∀ i ∈ sized, exec i s = .next (u.takeTrap { code := 0x3034, tva := va })) ∧
    (admitted → va.toNat % 4 ≠ 0 → ∀ i ∈ floats, exec i s = .next (u.takeTrap { code := 0x3034, tva := va })) ∧
    (¬ admitted → ∀ i ∈ sized ++ floats, exec i s = .next (u.takeTrap { code := 0x3033, tva := va })) ∧
    (t.Quiet → u.place h .atomic va n = .ok (t, .mem loc) → poisoned t.poison loc n = false → va.toNat % n = 0 →
      let m := peekNat t.mem loc n
      let b := (h.getX rb).toNat % 2 ^ (8 * n)
      let c := (h.getX rd).toNat % 2 ^ (8 * n)
      let w := 8 * n
      let put (v : Nat) : State := t.poke loc (leBytes n v)
      let got (u : State) (fl : Flags) : Host.Outcome State Fault Refusal :=
        .next (u.did (fun g => (g.setX rd (BitVec.ofNat 64 m)).orFlags fl) 4)
      exec (.amswp rd ra rb dw sc q) s = got (put b) 0 ∧ exec (.amadd rd ra rb dw sc q) s = got (put ((m + b) % 2 ^ w)) 0 ∧
      exec (.amand rd ra rb dw sc q) s = got (put (m &&& b)) 0 ∧ exec (.amor rd ra rb dw sc q) s = got (put (m ||| b)) 0 ∧
      exec (.amxor rd ra rb dw sc q) s = got (put (m ^^^ b)) 0 ∧
      exec (.ammin rd ra rb dw sc q) s = got (put (if sext m w ≤ sext b w then m else b)) 0 ∧
      exec (.ammax rd ra rb dw sc q) s = got (put (if sext m w ≤ sext b w then b else m)) 0 ∧
      exec (.amminn rd ra rb dw sc q) s = got (put (min m b)) 0 ∧ exec (.ammaxn rd ra rb dw sc q) s = got (put (max m b)) 0 ∧
      exec (.amcas rd ra rb dw sc q) s = got (if m = c then put b else t) 0 ∧ exec (.amld rd ra dw sc q) s = got t 0 ∧
      exec (.amst ra rb dw sc q) s = .next ((put b).did (fun g => g.orFlags 0) 4) ∧
      (dw = false → ∀ i (f : Nat × Flags), (i = .amfadd rd ra rb sc q ∧ f = fAdd f32 0 (f32.decode m) (f32.decode b)) ∨
          (i = .amfmin rd ra rb sc q ∧ f = fMinMax f32 false m b) ∨ (i = .amfmax rd ra rb sc q ∧ f = fMinMax f32 true m b) →
        (h.fen &&& f.2 = 0 → exec i s = got (put f.1) f.2) ∧
        ∀ k, trapFlag h.fen f.2 = some k →
          exec i s = .next ((t.updHart (fun g => g.orFlags (1#6 <<< k))).takeTrap { code := 0x2000 + k })))

/-! ### Vector memory instructions, streams, translation of positions (R210 to R226, R404) -/

/-- The vector loads `vld`, `vlds`, `vlseg`, `vldx` and `vldx.r`. Where the checks pass, the plates are present, the streams give their
elements and none of their flags is enabled, the active elements are loaded in sweep order. If none faults, each goes to its place. If a
later one than the first active element faults, the load completes short: in row 0 with VL the faulting element and RC 1, below it with RC
its row; if it is the first, it takes the memory fault with TSWI its index, or 0 of an instruction of the whole class, after the fields below
the faulting one have used their translations (R399). A failed check is the trap of R387 or R407. Each is charged at the dispatch gate. -/
def Obligations.VectorLoads : Prop :=
  ∀ (s : State) (h : Hart) (i : Instr) (len : Nat) (form : Hart → MemForm), s.hart? = some h →
    i.memForm? = some (len, form) → (form h).load = true →
    let m := form h
    let v := m.vec h
    let f := v.feed s h
    let q := f.sum h.fen (v.todo h f) 0
    let r := m.loadEls h (h.apt m.ap).ty (fun i n => m.addr f.h (i / h.vl) (i % h.vl) n) (v.todo h f) f.s f.blocks
    let out (els : List (Nat × List Nat)) : Hart := (m.deliver h els f.h).orFlags q.1
    (∀ t, v.fault? h = some t → exec i s = .next (v.trapped h s t)) ∧
    (v.Ready s h → q.2 = none →
      (r.stop = none → exec i s = .next (v.ran h r.s (out r.els) len)) ∧
      ∀ e, r.stop = some e → e.miss.f ≠ notReady →
        let used := m.used h f.h e.i e.field r.s
        (r.els = [] → exec i s = v.missed h (used.missTrap h 1 e.miss (if v.streamed h || v.snap then 0 else e.i)
          (some (m.entry e.field).toNat) (some ((h.apt (m.entry e.field)).cell h.bh (e.i / h.vl) (e.i % h.vl)))) len) ∧
        (r.els ≠ [] → e.i < h.vl → exec i s = .next (v.ran h r.s { out r.els with vl := e.i, rc := 1 } len)) ∧
        (r.els ≠ [] → h.vl ≤ e.i → exec i s = .next (v.ran h r.s
          { out (r.els.filter (fun x => decide (x.1 < e.i / h.vl * h.vl))) with rc := e.i / h.vl } len)))

/-- A unit-stride load from the hart's own gallery fills the aperture: with nothing outstanding and nothing damaged, an element width of
whole bytes, an aligned base, all elements inside the allocation and no two swept elements sharing a bit, every element (r, e) of an
enabled row reads afterwards as the bytes at EA + (r × VL + e) × w ÷ 8, and memory is as before. -/
def Obligations.GalleryLoadFillsTheAperture : Prop :=
  ∀ (s : State) (h : Hart) (g : Gang) (ap : Ap) (base : XReg) (off : BitVec 12) (size : BitVec 3), s.hart? = some h → s.gangOf h = some g →
    s.Quiet → s.poison = [] → h.swi = 0 → ((unitForm true ap base off size h).vec h).Ready s h →
    let a := h.apt ap
    let n := tyWidth a.ty / 8
    let ea := (h.getX base + BitVec.ofInt 64 (off.toInt * 2 ^ size.toNat)).toNat
    1 ≤ n → ea / 2 ^ 61 = 1 → ea % n = 0 → ea % 2 ^ 61 + h.rc * h.vl * n ≤ g.galSize → g.galSize ≤ 2 ^ 21 →
    snapshot h.bh h.vl h.rc a [a] = false →
    ∃ t h', exec (.vld ap base off size) s = .next t ∧ t.hart? = some h' ∧ h'.pc = h.pc + 4 ∧ t.mem = s.mem ∧ h'.x = h.x ∧
      ∀ r e, r < h.rc → e < h.vl → h.km.getLsbD r = true →
        h'.getEl a r e = peekNat s.mem (galleryLoc h.q (g.galBase + ea % 2 ^ 61 + (r * h.vl + e) * n)) n

/-- The vector stores `vst`, `vsts`, `vsseg`, `vstx` and `vstx.r`. Under the conditions of the loads, the active elements are stored in
sweep order; if none faults, the store completes and no cell and no x register changes; if one does, it takes the memory fault with TSWI
its index, the elements before it stored, or, where it reads a stream, with TSWI 0 and nothing stored; the elements and fields before it
have used their translations (R399). A store that covers a poisoned unit in
pieces clears it (R403). A failed check is the trap of R387 or R407. Each is charged at the dispatch gate. And what a unit-stride store into
the hart's own gallery writes, under the conditions of the load above: once its stores are performed, the bytes at EA + (r × VL + e) × w ÷ 8 are
those of element (r, e) of every enabled row, every other byte of memory is as before, and no register and no cell changes. -/
def Obligations.VectorStores : Prop :=
  ∀ (s : State) (h : Hart) (i : Instr) (len : Nat) (form : Hart → MemForm), s.hart? = some h →
    i.memForm? = some (len, form) → (form h).load = false →
    let m := form h
    let v := m.vec h
    let f := v.feed s h
    let q := f.sum h.fen (v.todo h f) 0
    let r := m.storeEls f.h (h.apt m.ap).ty (v.todo h f) (f.s, ⟨none, none⟩)
    let stored (n : Nat) : State := if f.s.poison.isEmpty then r.1
      else r.1.clearUnits h.hid (((v.todo h f).filter (fun i => decide (i < n))).flatMap (m.halves h f.h f.s))
    (∀ t, v.fault? h = some t → exec i s = .next (v.trapped h s t)) ∧
    (v.Ready s h → q.2 = none →
      (r.2 = none → exec i s = .next (v.ran h (stored (h.rc * h.vl)) (f.h.orFlags q.1) len)) ∧
      ∀ e, r.2 = some e → e.miss.f ≠ notReady →
        let u : State := if v.streamed h then
            ((v.todo h f).filter (fun i => decide (i < e.i))).foldl (fun u i => m.used h f.h i m.nf u) f.s
          else stored e.i
        let used := m.used h f.h e.i e.field u
        exec i s = v.missed h (used.missTrap h 2 e.miss (if v.streamed h then 0 else e.i)
          (some (m.entry e.field).toNat) (some ((h.apt (m.entry e.field)).cell h.bh (e.i / h.vl) (e.i % h.vl)))) len) ∧
    ∀ (g : Gang) (ap : Ap) (base : XReg) (off : BitVec 12) (size : BitVec 3), i = .vst ap base off size → s.gangOf h = some g →
      s.Quiet → s.poison = [] → h.swi = 0 → v.Ready s h → (h.apt ap).sb = false →
      let n := tyWidth (h.apt ap).ty / 8
      let ea := (h.getX base + BitVec.ofInt 64 (off.toInt * 2 ^ size.toNat)).toNat
      let loc (r e : Nat) : Nat := galleryLoc h.q (g.galBase + ea % 2 ^ 61 + (r * h.vl + e) * n)
      1 ≤ n → ea / 2 ^ 61 = 1 → ea % n = 0 → ea % 2 ^ 61 + h.rc * h.vl * n ≤ g.galSize → g.galSize ≤ 2 ^ 21 →
      ∃ t h', exec i s = .next t ∧ t.hart? = some h' ∧ h'.pc = h.pc + 4 ∧ h'.x = h.x ∧ h'.plane = h.plane ∧
        (∀ r e k, r < h.rc → e < h.vl → h.km.getLsbD r = true → k < n →
          (t.drain s.cur).byte (loc r e + k) = BitVec.ofNat 8 (h.getEl (h.apt ap) r e / 2 ^ (8 * k))) ∧
        ∀ b, (∀ r e, r < h.rc → e < h.vl → h.km.getLsbD r = true → b < loc r e ∨ loc r e + n ≤ b) → (t.drain s.cur).byte b = s.byte b

/-- Finder streams and position translation. `fsbind` of a record that R223 admits binds it at position 0, and traps with reason 0x43 on
an address that is no multiple of 32 and on any other record; `fsrel` unbinds; `fsget` returns the position, or 2^63 where nothing is
bound. `vxlat` and `vxlat.ff`, whose checks pass, translate their active elements in order; a bad position sets its bit of kd, or ends
`vxlat.ff` with VL its index, bit e of kd and RC left alone (DEDUCED, log 50); a table read that faults is a memory fault at the first active element, and later trims VL and sets RC to 1;
a position below 0 or at or past NB × 2^BSH is bad. -/
def Obligations.StreamsAndTranslation : Prop :=
  ∀ (s : State) (h : Hart) (rd ra : XReg) (fs : BitVec 4), s.hart? = some h →
    let va := h.getX ra
    (va.toNat % 32 ≠ 0 → exec (.fsbind fs ra) s = .next (s.takeTrap { code := 0x1143 })) ∧
    (∀ t r, va.toNat % 32 = 0 → s.loadRecord h va 32 = .ok (t, r) →
      let bound : Stream :=
        { base := BitVec.ofNat 64 (leNat (r.take 8)), estr := BitVec.ofNat 32 (leNat ((r.drop 8).take 4))
          rstr := BitVec.ofNat 32 (leNat ((r.drop 12).take 4)), rlen := BitVec.ofNat 32 (leNat ((r.drop 16).take 4))
          limit := BitVec.ofNat 32 (leNat ((r.drop 20).take 4)), fmt := BitVec.ofNat 4 (leNat ((r.drop 24).take 1))
          scl := BitVec.ofNat 8 (leNat ((r.drop 25).take 1)), pos := 0, ahead := 0 }
      (badRecord r = true → exec (.fsbind fs ra) s = .next (t.takeTrap { code := 0x1143 })) ∧
      (badRecord r = false → exec (.fsbind fs ra) s =
        .next ((t.holdAhead h bound).did (fun g => { g with streams := put g.streams fs.toNat (some bound) }) 8))) ∧
    exec (.fsrel fs) s = .next (s.ran { h with streams := h.streams.filter (fun p => p.1 != fs.toNat) } 8) ∧
    exec (.fsget rd fs) s = .next (s.ran (h.setX rd (match h.streams.find? (fun p => p.1 == fs.toNat) with
      | none => 2 ^ 63
      | some p => BitVec.ofNat 64 p.2.pos)) 8) ∧
    (∀ (kg kd : KReg) (ks ff : Bool) (apd apa : Ap) (xt xp : XReg) (i : Instr),
      i = (if ff then .vxlatFf kg ks kd apd apa xt xp else .vxlat kg ks kd apd apa xt xp) →
      let v := xlatVec ⟨kg.toNat, ks⟩ kd apd apa xt xp h
      let p := (h.getX xp).toNat
      let f := v.feed s h
      let q := f.sum h.fen (v.todo h f) 0
      let out := xlatEls ⟨h.getX xt, bits p 31 0, bits p 36 32, bits p 44 40⟩ ff kd (h.apt apd) (h.apt apa) f.h true (v.todo h f) f.s f.h
      (∀ t, v.fault? h = some t → exec i s = .next (v.trapped h s t)) ∧
      (v.Ready s h → q.2 = none →
        (out.2.2 = .all → exec i s = .next (v.ran h out.1 (out.2.1.orFlags q.1) 8)) ∧
        (∀ e, out.2.2 = .bad e → exec i s = .next (v.ran h out.1 { out.2.1.orFlags q.1 with vl := e } 8)) ∧
        ∀ e c a, c ≠ notReady →
          (out.2.2 = .fault e true c a → exec i s = v.missed h (out.1.missTrap h 1 ⟨c, a, 4, false⟩ (if v.streamed h || v.snap then 0 else e)
            (some apd.toNat) (some ((h.apt apd).cell h.bh 0 e))) 8) ∧
          (out.2.2 = .fault e false c a → exec i s = .next (v.ran h out.1 { out.2.1.orFlags q.1 with vl := e, rc := 1 } 8)))) ∧
    ∀ (x : Xlat) (p : Int), p < 0 ∨ x.nb * 2 ^ x.bsh ≤ p → s.xlatEl h x p = .ok (s, none)

/-- Vector atomics. Where the checks pass, no address fails one and every step can be made, each distinct address receives, in one atomic
step, the combination of its elements, and apd the old values where it is asked for; a failed address is its memory fault with nothing
changed but what its checks looked up; where FEN enables a flag, the lowest element that brings one stops it as a whole. Of integer elements
that `vamadd` has at one address m, the word there becomes (m + their sum) mod 2^32, and its old value is m.
The order of the distinct addresses is the model's choice (DESIGN CHOICE, log 23), as is the trap on an enabled flag (DEDUCED, log 22). -/
def Obligations.VectorAtomics : Prop :=
  ∀ (s : State) (h : Hart) (kg : KReg) (ks ret : Bool) (apd apa idx : Ap) (base : XReg) (sc : BitVec 3) (q : BitVec 2), s.hart? = some h →
    let a := h.apt apa
    let r (i : Instr) (float : Bool) (op : Nat) : Prop :=
      let v := vamVec float ret ⟨kg.toNat, ks⟩ apd apa idx h
      let f := v.feed s h
      let fl := f.sum h.fen (v.todo h f) 0
      let els := (v.todo h f).map (fun i => (i, h.getX base + f.h.indexAt idx (i / h.vl) (i % h.vl)))
      let c := f.s.vamCheck h els
      let u := c.1.releaseIf q h.hid
      let cell (j : Nat) : Nat × Nat := a.cell h.bh (j / h.vl) (j % h.vl)
      (∀ t, v.fault? h = some t → exec i s = .next (v.trapped h s t)) ∧
      (v.Ready s h → fl.2 = none →
        (∀ j e va, c.2 = some (j, e, va) →
          exec i s = v.missed h (c.1.missTrap h 3 ⟨e, va, 4, false⟩ 0 (some apa.toNat) (some (cell j))) 8) ∧
        (c.2 = none → u.2 = true → ∀ t steps, vamSteps a.ty op (q.getLsbD 0) h f.h a els (distinct els) u.1 = some (t, steps) →
          let raised := steps.foldl (fun g x => g ||| x.2.2) fl.1
          (h.fen &&& raised = 0 → exec i s = .next (v.ran h t (u.1.withStair ((if ret then els.foldl (fun g x =>
            g.setEl (h.apt apd) (x.1 / h.vl) (x.1 % h.vl) (oldAt steps x.2)) f.h else f.h).orFlags raised)) 8)) ∧
          ∀ n j b, j < els.length → n = (els.getD j (0, 0)).1 → trapFlag h.fen (f.flags n ||| flagsAt steps (els.getD j (0, 0)).2) = some b →
            (∀ k, k < j → trapFlag h.fen (f.flags (els.getD k (0, 0)).1 ||| flagsAt steps (els.getD k (0, 0)).2) = none) →
            exec i s = .next (v.trapped h (u.1.setHart (u.1.withStair (h.orFlags (1#6 <<< b))))
              { code := 0x2000 + b, tap := some apa.toNat, tcell := some (cell n) })))
    r (.vamadd kg ks ret apd apa base idx sc q) false 0 ∧ r (.vamfadd kg ks ret apd apa base idx sc q) true 0 ∧
    r (.vammin kg ks ret apd apa base idx sc q) false 2 ∧ r (.vammax kg ks ret apd apa base idx sc q) false 1 ∧
    r (.vamfmin kg ks ret apd apa base idx sc q) true 2 ∧ r (.vamfmax kg ks ret apd apa base idx sc q) true 1 ∧
    r (.vamand kg ks ret apd apa base idx sc q) false 3 ∧ r (.vamor kg ks ret apd apa base idx sc q) false 4 ∧
    r (.vamxor kg ks ret apd apa base idx sc q) false 5 ∧
    ∀ (g : Hart) (els : List (Nat × Word)) (va : Word) (t : State) (loc : Nat) (acq : Bool), els ≠ [] → (∀ x ∈ els, x.2 = va) →
      a.ty ∈ [4, 5] → s.place h .atomic va 4 = .ok (t, .mem loc) → t.Quiet → poisoned t.poison loc 4 = false →
      let m := peekNat t.mem loc 4
      let sum := (els.map (fun x => g.getEl a (x.1 / h.vl) (x.1 % h.vl))).sum
      ∃ steps, vamSteps a.ty 0 acq h g a els (distinct els) s = some (t.poke loc (leBytes 4 ((m + sum) % 2 ^ 32)), steps) ∧
        oldAt steps va = m ∧ flagsAt steps va = 0

/-- Accumulation windows and `skipset`. `accwin` with a window that R235 admits declares it and fills its 128 copies with the identity,
and traps with reason 0x46 on any other; `awacc` updates the copies of its active elements; `merge` folds every word of the copies into
memory, of an integer add by adding the 128 copies of a word to the word at the base modulo 2^32 and clearing them to the identity, and takes
the memory fault of the word that has no place; `awrel` ends the declaration; the last two trap with reason 0x47 on a window that is not declared. `skipset` does nothing where
X(xb) is 0, and otherwise sets bit 0 of the doubleword at X(xa), in one atomic step after the release (R199 among what it marks).
That a merge that faults merges nothing, and that K is 3 also where the fault is one of a copy, is the model's reading (DEDUCED, log 42). -/
def Obligations.AccumulationWindows : Prop :=
  ∀ (s : State) (h : Hart) (aw op : BitVec 2) (ty : BitVec 4) (xa xb xl xg : XReg), s.hart? = some h →
    let n := (h.getX xl).toNat
    let gal := (h.getX xg).toNat
    let size := ((s.gangOf h).map (fun g => g.galSize)).getD 0
    let w : Window := ⟨h.getX xb, n, gal, op, ty⟩
    let ok := (h.getX xb).toNat % 4 = 0 ∧ (pathOf (h.getX xb) = 0 ∨ pathOf (h.getX xb) = 7) ∧ n % 4 = 0 ∧ 4 ≤ n ∧ n ≤ 8192 ∧
      gal % 128 = 0 ∧ gal + 128 * n ≤ size
    (¬ ok → exec (.accwin aw op ty xb xl xg) s = .next (s.takeTrap { code := 0x1146 })) ∧
    (ok → ∀ t, s.save h true .vecStore (BitVec.ofNat 64 (2 ^ 61 + gal)) ((List.replicate (32 * n) (leBytes 4 w.ident)).flatten) = .ok t →
      exec (.accwin aw op ty xb xl xg) s = .next (t.did (fun g => { g with windows := put g.windows aw.toNat (some w) }) 8)) ∧
    (∀ (t : State) (kg : KReg) (ks : Bool) (idx apa : Ap) (w : Window),
      let v := awaccVec aw ⟨kg.toNat, ks⟩ idx apa h
      let f := v.feed s h
      let q := f.sum h.fen (v.todo h f) 0
      v.Ready s h → q.2 = none → find h.windows aw.toNat = some w → State.accumulate h f.h w apa idx (v.todo h f) f.s = .ok t →
      exec (.awacc kg ks aw idx apa) s = .next (v.ran h t (f.h.orFlags q.1) 8)) ∧
    (∀ (sc : BitVec 3) (q : BitVec 2), find h.windows aw.toNat = none →
      exec (.merge aw sc q) s = .next (s.takeTrap { code := 0x1147 }) ∧ exec (.awrel aw) s = .next (s.takeTrap { code := 0x1147 })) ∧
    (∀ w, find h.windows aw.toNat = some w →
      exec (.awrel aw) s = .next (s.did (fun g => { g with windows := put g.windows aw.toNat none }) 8) ∧
      ∀ (sc : BitVec 3) (q : BitVec 2),
        let u := s.releaseIf q h.hid
        let m := u.1.mergeWords h w (q.getLsbD 0) false (w.len / 4)
        (u.2 = false → exec (.merge aw sc q) s = .next u.1) ∧
        (u.2 = true → (∀ t, m = .ok t → exec (.merge aw sc q) s = .next ((t.dispatch h 12 0 {}).stepOver 8)) ∧
          ∀ e va, m = .error (e, va) → exec (.merge aw sc q) s = (((u.1.noteRange h w.base (va - w.base).toNat true).missTrap h 3 ⟨e, va, 4, false⟩).also
            (fun t => t.dispatch h 12 0 {})).outcome 8)) ∧
    (∀ (w : Window) (acq : Bool) (k loc : Nat) (s1 s2 t : State) (l : List (Option (Nat × Flags))), w.op = 0 → w.ty ∈ [4#4, 5#4] →
      s.mergeWords h w acq false k = .ok s1 → s1.copies h w k 128 = .ok (s2, l) → s2.Quiet →
      s2.place h .atomic (w.base + BitVec.ofNat 64 (4 * k)) 4 = .ok (t, .mem loc) → t.Quiet → poisoned t.poison loc 4 = false →
      l.length = 128 ∧ s.mergeWords h w acq false (k + 1) =
        (t.poke loc (leBytes 4 ((peekNat t.mem loc 4 + (l.map (fun x => (x.getD (0, 0)).1)).sum) % 2 ^ 32))).clearCopies h w k 128) ∧
    (∀ (w : Window) (k c : Nat) (s1 t u : State) (l : List (Option (Nat × Flags))) (bs : List Byte), s.copies h w k c = .ok (s1, l) →
      let va := BitVec.ofNat 64 (2 ^ 61 + w.gal + c * w.len + 4 * k)
      (s1.load h true .vecLoad va 4 = .ok (t, bs) → s.copies h w k (c + 1) = .ok (t, l ++ [some (leNat bs, 0)])) ∧
      (s.clearCopies h w k c = .ok u → ∀ t, u.save h true .vecStore va (leBytes 4 w.ident) = .ok t → s.clearCopies h w k (c + 1) = .ok t)) ∧
    (h.getX xb = 0 → exec (.skipset xa xb) s = .next (s.stepOver 8)) ∧
    ∀ t loc, h.getX xb ≠ 0 → s.Quiet → t.Quiet → (s.markFence h.hid).place h .atomic (h.getX xa) 8 = .ok (t, .mem loc) →
      (h.getX xa).toNat % 8 = 0 → poisoned t.poison loc 8 = false →
      exec (.skipset xa xb) s = .next ((t.poke loc (leBytes 8 (peekNat t.mem loc 8 ||| 1))).stepOver 8)

/-! ### Vector sweeps (R76, R77, R87 to R104, R110, R111, R121, R146, R156 to R182, R375, R376, R383) -/

/-- Every vector instruction that is one sweep: a failed check is its trap, and so is a bad value; otherwise, where FEN enables none of
the flags raised, it completes: the active items take their effect one after the other, and FSTAT receives all flags. Either way it is
charged at the dispatch gate. An instruction that may join its hart's drain chain is met after the cycles that its chain's `tdrain` may have
(R262; DESIGN CHOICE, log 5). The instructions:
`efcget`, `efcput`, `vsplat`, `VADD`, `VSUB`, `VADDS`, `VSUBS`, `VMUL`, `VMULH`, `VMACC`, `VWMACC`, `VAND`, `VOR`, `VXOR`, `VANDN`,
`VSLL`, `VSRL`, `VSRA`, `VSSR`, `VNEG`, `VFADD`, `VFSUB`, `VFMUL`, `VFDIV`, `VFSQRT`, `VFRCP`, `VFMA`, `VFMS`, `VFNMA`, `VFWMA`, `VCEQ`,
`VCNE`, `VCLT`, `VCLE`, `VFCEQ`, `VFCLT`, `VFCLE`, `VFCUN`, `VMIN`, `VMAX`, `VFMIN`, `VFMAX`, `VMOV`, `VFNEG`, `VFABS`, `VFSGNJ`,
`VREV`, `VPERM`, `VSLIDN`, `VSLIUP`, `VIDX`, `VFCVT`, `VFCVTI`, `VICVTF`, `VNCLIP`, `VEXT`, `VREDSUM`, `VWREDSUM`, `VREDMAX`, `VREDMIN`,
`VREDAND`, `VREDOR`, `VREDXOR`, `VFREDSUM`, `VFWREDSUM`, `VFREDMAX`, `VFREDMIN`, `VSREDSUM`, `VSWREDSUM`, `VSREDMAX`, `VSREDMIN`,
`VSREDAND`, `VSREDOR`, `VSREDXOR`, `VSFREDSUM`, `VSFWREDSUM`, `VSFREDMAX`, `VSFREDMIN`, `VSCORE`, `VSCORE_S`, `VSEGR`, `VEXPS`, `VWACC`,
`VCLGET`, `VCLPUT`, `RADD`, `UADD`, `RXOR`, `RMULO`, `UMULO`. -/
def Obligations.SweepsComplete : Prop :=
  ∀ (s t : State) (h : Hart) (i : Instr) (len : Nat) (v : Hart → Vec), s.hart? = some h → i.sweep? = some (len, v) →
    let u := Vec.met v s h
    let s1 := Vec.entry v s h
    let f := u.feed s1 h
    ((v h).link = false → u = v h ∧ s1 = s) ∧
    (∀ r, u.fault? h = some r → exec i s = .next (u.trapped h s1 r)) ∧
    (u.fault? h = none → h.absent (u.ops.map (fun o => h.apt o.n)) = none → u.valueAp.isSome = true → ∀ r,
      (u.late? h = some r → exec i s = .next (u.trapped h s1 r)) ∧
      (u.late? h = none → u.valueStreamed h = true → u.value f.h (u.limit f) = some r → exec i s = .next (u.trapped h f.s r))) ∧
    (u.Completes s1 h t → exec i s = .next (t.stepOver len))

/-- An item whose flag FEN enables, its own or one of its streamed elements', stops the sweep before it: FSTAT receives the flag, TCAUSE is
0x2000 + its number, TAP and TCELL name the destination and the cell. An element-stop instruction keeps the items and flags before it, with
TSWI its index; a whole-instruction, snapshot or streamed one, and a link of a drain chain, keeps nothing else, with TSWI 0.
That of the stopped item only the reported flag enters FSTAT is the model's reading (DEDUCED, log 38). -/
def Obligations.EnabledFlagStopsTheSweep : Prop :=
  ∀ (s : State) (h : Hart) (i : Instr) (len n b : Nat) (v : Hart → Vec), s.hart? = some h → i.sweep? = some (len, v) →
    let u := Vec.met v s h
    let f := u.feed (Vec.entry v s h) h
    let k := u.first h + n
    let a := u.fold f (u.first h) n (f.h, 0)
    let all := u.whole || u.streamed h || u.snap
    u.Ready (Vec.entry v s h) h → k < u.rc * u.vl → h.fen &&& a.2 = 0 → u.act (k / u.vl) (k % u.vl) = true →
    trapFlag h.fen ((u.el f.h a.1 (k / u.vl) (k % u.vl)).2 ||| f.flags k) = some b →
    let h' := if all then h.orFlags (1#6 <<< b) else a.1.orFlags (a.2 ||| 1#6 <<< b)
    exec i s = .next (u.trapped h (f.s.setHart h')
      { code := 0x2000 + b, tap := some u.tap.toNat, tcell := some (u.cell (k / u.vl) (k % u.vl)), tswi := if all then 0 else k })

/-- Frame of the sweeps that read no stream: at completion no byte of memory, no other hart and no x register has changed, and of the
hart only cells, plates, mask registers, carries, chain latches, the program counter, SWI, FSTAT and RPTCNT; mask registers only by
compares, carries only by conversions and `efcput`, chain latches only by the chain. A cell that holds no element that the sweep may write is
as before: an active element of the destination; of a reduction an element of an enabled row; of `vsegr` the first and last third of the
statistics, of `vexps` the second, of `vwacc` an active output, of `vclget` an active one of its sixteen; none of a compare, of `efcput`,
`vscore`, `vscore.s` and `vclput`. The hart's note of its drain chain, by which the model follows R262, and the timing of cores may change too. -/
def Obligations.SweepFrame : Prop :=
  ∀ (s t : State) (h : Hart) (i : Instr) (len : Nat) (v : Hart → Vec), s.hart? = some h →
    i.sweep? = some (len, v) → (v h).streamed h = false → (Vec.met v s h).Completes (Vec.entry v s h) h t →
    let major (c : BitVec 6) : Prop := ∃ p, i.toHalf = some p ∧ p.1.op.code.1 = c
    ∃ h', exec i s = .next (t.stepOver len) ∧ s.OnlyHartAndTiming (t.stepOver len) ∧ (t.stepOver len).hart? = some h' ∧
      h' = { h with plane := h'.plane, plates := h'.plates, k := h'.k, efc := h'.efc, cl := h'.cl, pc := h'.pc, swi := 0, csr := h'.csr, drain := h'.drain } ∧
      (∀ n, n ≠ 0xc03 → n ≠ 0xd32 → h'.getCsr n = h.getCsr n) ∧ h'.pc = h.pc + BitVec.ofNat 64 len ∧
      (¬ major 0x2a → h'.k = h.k) ∧ (¬ major 0x2c → (∀ kg ks apa, i ≠ .efcput kg ks apa) → h'.efc = h.efc) ∧ (¬ major 0x2e → h'.cl = h.cl) ∧
      (i.writes? h = none → h'.plane = h.plane) ∧
      ∀ ap at', i.writes? h = some (ap, at') → ∀ key, (∀ r e, at' r e = true → ∀ p ∈ (h.apt ap).elBits h.bh r e, p.1 ≠ key) →
        h'.plane.get key = h.plane.get key

/-- Elements of the integer forms of major 0x28 on operands of one integer type: the exact results reduced modulo 2^w, the saturating
forms clamped with SAT where they lie outside, the high half of a product, bitwise forms, and shifts by the count modulo w. Elements of major
0x2B: moved bits, with the sign changed, cleared or taken from b; the reversed, permuted and slid rows; the index. Of 0x2C, `vext` keeps the
value, and `vnclip` clamps the value divided by 2^count, rounded in the mode, with SAT where it lies outside. -/
def Obligations.IntegerElements : Prop :=
  (∀ (h : Hart) (ty a b d : Nat), ty ≤ 5 → a < 2 ^ tyWidth ty → b < 2 ^ tyWidth ty → d < 2 ^ tyWidth ty →
    let w := tyWidth ty
    let x := intVal ty a
    let y := intVal ty b
    let out (op : AOp) : Nat := (intEl op h ty ty ty a b d).1
    let same (op : AOp) (z : Int) : Prop := intVal ty (out op) % 2 ^ w = z % 2 ^ w ∧ out op < 2 ^ w
    let clamp (op : AOp) (z : Int) : Prop := intVal ty (out op) = max (intMin ty) (min z (intMax ty)) ∧
      (intEl op h ty ty ty a b d).2 = (if z < intMin ty ∨ intMax ty < z then fSAT else 0)
    same .vadd (x + y) ∧ same .vsub (x - y) ∧ same .vmul (x * y) ∧ same .vmacc (x * y + intVal ty d) ∧ same .vneg (-x) ∧
    clamp .vadds (x + y) ∧ clamp .vsubs (x - y) ∧ intVal ty (out .vmulh) = x * y / 2 ^ w ∧
    (∀ k, (out .vand).testBit k = (a.testBit k && b.testBit k)) ∧ (∀ k, (out .vor).testBit k = (a.testBit k || b.testBit k)) ∧
    (∀ k, (out .vxor).testBit k = (a.testBit k ^^ b.testBit k)) ∧ (∀ k, (out .vandn).testBit k = (a.testBit k && !b.testBit k)) ∧
    out .vsll = a * 2 ^ (b % w) % 2 ^ w ∧ out .vsrl = a / 2 ^ (b % w) ∧ sext (out .vsra) w = sext a w / 2 ^ (b % w) ∧
    intVal ty (out .vssr) = Ex.toInt ⟨decide (x < 0), x.natAbs, -((b % w : Nat) : Int)⟩ (h.mode 0xc02) ∧
    intVal ty (minMaxEl .vmin h ty ty ty a b d).1 = min x y ∧ intVal ty (minMaxEl .vmax h ty ty ty a b d).1 = max x y) ∧
  ∀ (h g : Hart) (gd : Guard) (apd apa apb : Ap) (r e : Nat),
    let d := h.apt apd
    let a := h.apt apa
    let b := h.apt apb
    let x := h.getEl a r e
    let sign := tyWidth d.ty - 1
    let moved (op : AOp) (v : Nat) : Prop := moveEl ⟨op, apd, apa, apb⟩ h h g r e = (v, 0)
    let conv (op : AOp) (v : Nat) (fl : Flags) : Prop := (convertVec ⟨op, apd, apa, apb⟩ gd h).el h g r e = (g.setEl d r e v, fl)
    moved .vmov x ∧ moved .vrev (h.getEl a r (h.vl - 1 - e)) ∧ moved .vperm (h.getEl a r (h.getEl b r e % h.vl)) ∧
    moved .vslidn (if e + 1 < h.vl then h.getEl a r (e + 1) else h.getEl b r 0) ∧
    moved .vsliup (if 0 < e then h.getEl a r (e - 1) else h.getEl b r (h.vl - 1)) ∧ moved .vidx (e % 2 ^ tyWidth d.ty) ∧
    (tyWidth a.ty = tyWidth d.ty → tyWidth b.ty = tyWidth d.ty → d.ty ≤ 10 →
      (∃ v, moved .vfneg v ∧ (∀ k, v.testBit k = (x.testBit k ^^ decide (k = sign)))) ∧
      (∃ v, moved .vfabs v ∧ ∀ k, v.testBit k = (x.testBit k && decide (k ≠ sign))) ∧
      ∃ v, moved .vfsgnj v ∧ ∀ k, v.testBit k = (if k = sign then (h.getEl b r e).testBit k else x.testBit k)) ∧
    (convertTypes .vext d.ty a.ty b.ty = true → ∃ v, conv .vext v 0 ∧ intVal d.ty v = intVal a.ty x ∧ v < 2 ^ tyWidth d.ty) ∧
    (convertTypes .vnclip d.ty a.ty b.ty = true → h.mode 0xc02 ≤ 4 →
      let y := intVal a.ty x
      let z := Ex.toInt ⟨decide (y < 0), y.natAbs, -((h.getEl b r e % tyWidth a.ty : Nat) : Int)⟩ (h.mode 0xc02)
      ∃ v fl, conv .vnclip v fl ∧ intVal d.ty v = max (intMin d.ty) (min z (intMax d.ty)) ∧
        fl = (if z < intMin d.ty ∨ intMax d.ty < z then fSAT else 0))

/-- Rounding of an exact value v ÷ 2^k to an integer, in the five modes of R87: to nearest, ties to even; toward zero; down; up; to odd
where it is no integer. The floating forms of major 0x29 at a type with infinities: a NaN operand gives Canon, with NV where it is
signalling; ∞ − ∞, 0 × ∞, 0 ÷ 0 and the root of a negative number give Canon with NV; a finite number over zero is an infinity with DZ;
and a finite nonzero number is itself after adding or subtracting +0, and after multiplying or dividing by 1, with no flag. Conversions of 0x2C:
bf16 to f32 keeps a finite number or an infinity, f32 to bf16 toward zero drops the low 16 bits of a finite one, and a NaN becomes Canon, with NV where it is
signalling; a floating value to an integer type is rounded in the mode and clamped with NV and SAT, and a NaN is 0 with NV. -/
def Obligations.RoundingAndFloats : Prop :=
  (∀ (neg : Bool) (m k : Nat),
    let v : Int := if neg then -(m : Int) else m
    let r (mode : Nat) : Int := Ex.toInt ⟨neg, m, -(k : Int)⟩ mode
    2 * (v - r 0 * 2 ^ k).natAbs ≤ 2 ^ k ∧ (2 * (v - r 0 * 2 ^ k).natAbs = 2 ^ k → r 0 % 2 = 0) ∧
    r 1 = v.tdiv (2 ^ k) ∧ r 2 = v / 2 ^ k ∧ r 3 = -(-v / 2 ^ k) ∧
    (v % 2 ^ k = 0 → r 4 = v / 2 ^ k) ∧ (v % 2 ^ k ≠ 0 → r 4 % 2 = 1 ∧ (v - r 4 * 2 ^ k).natAbs < 2 ^ k)) ∧
  (∀ (h : Hart) (ty a b d : Nat), ty = 6 ∨ ty = 7 ∨ ty = 8 → a < 2 ^ tyWidth ty → b < 2 ^ tyWidth ty →
    let f := fmtOf ty
    let x := f.decode a
    let y := f.decode b
    let out (op : AOp) (b : Nat) : Nat × Flags := floatEl op h ty ty ty a b d
    (x.isNaN = true ∨ y.isNaN = true → ∀ op ∈ [AOp.vfadd, .vfsub, .vfmul, .vfdiv], out op b =
      (f.canon, if x = .nan true ∨ y = .nan true then fNV else 0)) ∧
    (∀ n, x = .inf n → out .vfadd (f.infBits (!n)) = (f.canon, fNV) ∧ out .vfsub (f.infBits n) = (f.canon, fNV) ∧
      out .vfmul 0 = (f.canon, fNV) ∧ out .vfdiv (f.infBits n) = (f.canon, fNV)) ∧
    (∀ e, x = .fin e → e.m = 0 → out .vfdiv 0 = (f.canon, fNV) ∧ out .vfmul (f.infBits false) = (f.canon, fNV) ∧ out .vfsqrt 0 = (a, 0)) ∧
    (∀ e, x = .fin e → e.m ≠ 0 →
      let one := f.bias * 2 ^ f.fbits
      out .vfdiv 0 = (f.infBits e.neg, fDZ) ∧ out .vfadd 0 = (a, 0) ∧ out .vfsub 0 = (a, 0) ∧ out .vfmul one = (a, 0) ∧
      out .vfdiv one = (a, 0) ∧ (e.neg = true → out .vfsqrt 0 = (f.canon, fNV)))) ∧
  ∀ (h g : Hart) (gd : Guard) (apd apa apb : Ap) (r e : Nat),
    let d := h.apt apd
    let a := h.apt apa
    let x := h.getEl a r e
    let v := (fmtOf a.ty).decode x
    let conv (op : AOp) (v : Nat) (fl : Flags) : Prop := (convertVec ⟨op, apd, apa, apb⟩ gd h).el h g r e = (g.setEl d r e v, fl)
    (a.ty = 7 → d.ty = 8 → (v.isNaN = false → conv .vfcvt (x * 2 ^ 16) 0) ∧
      ∀ sig, v = .nan sig → conv .vfcvt 0x7fc00000 (if sig then fNV else 0)) ∧
    (a.ty = 8 → d.ty = 7 → h.mode 0xc01 = 1 → (∀ y, v = .fin y → ∃ fl, conv .vfcvt (x / 2 ^ 16) fl) ∧
      ∀ sig, v = .nan sig → conv .vfcvt 0x7fc0 (if sig then fNV else 0)) ∧
    (tyFloat a.ty = true → tyInt d.ty = true → h.mode 0xc02 ≤ 4 →
      (∀ sig, v = .nan sig → conv .vfcvti 0 fNV) ∧
      ∀ y, v = .fin y →
        let z := y.toInt (h.mode 0xc02)
        ∃ n, conv .vfcvti n (if z < intMin d.ty ∨ intMax d.ty < z then fNV ||| fSAT else 0) ∧ intVal d.ty n = max (intMin d.ty) (min z (intMax d.ty)))

/-- Elements of the reductions and of the attention chain. Integer sums over the active elements of a row, or of each segment that a bit
of kb opens, modulo 2^w, in the source's type or widened; maximum, minimum and the bitwise forms; a row with no active element gives the
identity. `vscore` of segments of one element is the product in f32, exact against 1; `vclget` and `vclput` move latch entries; `vsegr`, where no
enabled score differs from the running maximum, keeps it and gives the factor 1; `vexps` of a score gives 1 at the maximum and 0 at −∞; `vwacc`
with no enabled row and the factor 1 keeps its output. -/
def Obligations.ReductionAndChainElements : Prop :=
  ∀ (h g : Hart) (gd : Guard) (apd apa apb : Ap) (r j : Nat),
    let d := h.apt apd
    let a := h.apt apa
    let b := h.apt apb
    (∀ (op : AOp) (seg : Bool), (op, seg) ∈ [(AOp.vredsum, false), (.vwredsum, false), (.vsredsum, true), (.vswredsum, true)] →
      reduceTypes op d.ty a.ty = true →
      let starts := (List.range h.vl).filter (fun e => decide (e = 0) || (seg && (h.getK (apb.toNat % 8)).getLsbD (e % 1024)))
      j < starts.length →
      let lo := starts.getD j 0
      let hi := starts.getD (j + 1) h.vl
      ∃ v, (reduceVec ⟨op, apd, apa, apb⟩ gd h).el h g r j = (g.setEl d r j v, 0) ∧
        (v : Int) = (((List.range h.vl).filter (fun e => decide (lo ≤ e) && decide (e < hi) && h.guardBit gd e)).map
          (fun e => intVal a.ty (h.getEl a r e))).sum % (2 ^ tyWidth d.ty : Nat)) ∧
    (0 < h.vl → d.ty ≤ 5 → a.ty = d.ty →
      let on := (List.range h.vl).filter (fun e => h.guardBit gd e)
      let x (e : Nat) : Nat := h.getEl a r e
      let red (op : AOp) (v : Nat) : Prop := (reduceVec ⟨op, apd, apa, apb⟩ gd h).el h g r 0 = (g.setEl d r 0 v, 0)
      (∃ v, red .vredmax v ∧ (∀ e ∈ on, intVal d.ty (x e) ≤ intVal d.ty v) ∧ (on ≠ [] → ∃ e ∈ on, v = x e) ∧ (on = [] → intVal d.ty v = intMin d.ty)) ∧
      (∃ v, red .vredmin v ∧ (∀ e ∈ on, intVal d.ty v ≤ intVal d.ty (x e)) ∧ (on ≠ [] → ∃ e ∈ on, v = x e) ∧ (on = [] → intVal d.ty v = intMax d.ty)) ∧
      (∃ v, red .vredand v ∧ ∀ k, k < tyWidth d.ty → v.testBit k = on.all (fun e => (x e).testBit k)) ∧
      (∃ v, red .vredor v ∧ ∀ k, k < tyWidth d.ty → v.testBit k = on.any (fun e => (x e).testBit k)) ∧
      ∃ v, red .vredxor v ∧ ∀ k, k < tyWidth d.ty → v.testBit k = decide (on.countP (fun e => (x e).testBit k) % 2 = 1)) ∧
    (h.seglen = 1 → a.ty = 7 → b.ty = 7 → h.guardBit gd j = true → h.getEl b r j = 0x3f80 →
      ∀ y, bf16.decode (h.getEl a r j) = .fin y → y.m ≠ 0 →
        (scoreVec ⟨.vscore, apd, apa, apb⟩ gd false h).el h g r j = (g.setCL r j (h.getEl a r j * 2 ^ 16), 0)) ∧
    (latchVec ⟨.vclget, apd, apa, apb⟩ gd true h).el h g r j = (g.setEl d r j (h.getCL r j), 0) ∧
    (latchVec ⟨.vclput, apd, apa, apb⟩ gd false h).el h g r j = (g.setCL r j (h.getEl a r j), 0) ∧
    (let old := h.getEl d 0 j
     (f32.decode old).isNaN = false → (∀ r, r < h.rc → h.km.getLsbD r = true → h.getCL r j = old) →
       segrEl h d h g j = ((g.setEl d 0 j old).setEl d 0 (2 * h.heads + j) 0x3f800000, 0)) ∧
    (∀ s y, f32.decode s = .fin y → expScore h s s = (0x3f800000, 0) ∧ expScore h 0xff800000 s = (0, 0)) ∧
    ((∀ r, r < h.rc → h.km.getLsbD r = false) → h.getEl a 0 (2 * h.heads + j / h.seglen) = 0x3f800000 →
      ∀ y, f32.decode (h.getEl d 0 j) = .fin y → y.m ≠ 0 →
        (waccVec ⟨.vwacc, apd, apa, apb⟩ gd h).el h g 0 j = (g.setEl d 0 j (h.getEl d 0 j), 0))

/-- Mask logic, and the compares of integer elements. `kand`, `kor`, `kxor`, `kandn`, `knot` and `kmr` write kd, which is discarded where
kd is k0; `kmw` writes the row mask (the number 8 in what the queues hold); a compare that reads no stream sets the bits of kd at its active elements to its condition and keeps
every other bit. -/
def Obligations.MaskLogicAndCompares : Prop :=
  ∀ (s : State) (h : Hart) (kd ka kb : KReg) (apa apb : Ap) (mask : BitVec 2), s.hart? = some h →
    let a := h.getK ka.toNat
    let b := h.getK kb.toNat
    let did (h' : Hart) (reads writes : List Nat) : Host.Outcome State Fault Refusal :=
      .next (((s.setHart h').dispatch h 2 0 { kr := reads.filter (fun k => k != 0), kw := writes.filter (fun k => k != 0) }).stepOver 4)
    let w (v : BitVec 1024) (reads : List Nat) : Host.Outcome State Fault Refusal := did (h.setK kd.toNat v) reads [kd.toNat]
    let ab := [ka.toNat, kb.toNat]
    exec (.kand kd ka kb) s = w (a &&& b) ab ∧ exec (.kor kd ka kb) s = w (a ||| b) ab ∧ exec (.kxor kd ka kb) s = w (a ^^^ b) ab ∧
    exec (.kandn kd ka kb) s = w (a &&& ~~~b) ab ∧ exec (.knot kd ka) s = w (~~~a) [ka.toNat] ∧
    exec (.kmr kd) s = w (h.km.setWidth 1024) [8] ∧ exec (.kmw ka) s = did { h with km := a.setWidth 256 } [ka.toNat] [8] ∧
    ∀ (i : Instr) (op : AOp) (c : Int → Int → Bool),
      (i = .vceq kd apa apb mask ∧ op = .vceq ∧ c = fun x y => decide (x = y)) ∨
      (i = .vcne kd apa apb mask ∧ op = .vcne ∧ c = fun x y => decide (x ≠ y)) ∨
      (i = .vclt kd apa apb mask ∧ op = .vclt ∧ c = fun x y => decide (x < y)) ∨
      (i = .vcle kd apa apb mask ∧ op = .vcle ∧ c = fun x y => decide (x ≤ y)) →
      let v := compareVec ⟨op, kField kd, apa, apb⟩ (maskGuard mask) h
      v.Ready s h → v.streamed h = false → h.swi = 0 → h.vl ≤ 1024 → kd ≠ 0 →
      ∃ t h', exec i s = .next t ∧ t.hart? = some h' ∧ ∀ e, e < 1024 → (h'.getK kd.toNat).getLsbD e =
        (if e < h.vl ∧ h.active (maskGuard mask) 0 e = true then
          c (intVal (h.apt apa).ty (h.getEl (h.apt apa) 0 e)) (intVal (h.apt apb).ty (h.getEl (h.apt apb) 0 e))
        else (h.getK kd.toNat).getLsbD e)

/-- A pair. Its vector half runs under the pair's guard as the A-format instruction does, and where it completes and bit 0 of the guard is
1 its scalar half takes effect with it, from the registers before the pair; where the vector half stops, at a failed check or at an enabled flag,
the scalar half does nothing. The half may be a sweep, a push, a pop or mask logic. Where a half that stops at an element writes the guard's
own register, the pair that resumes reads the new guard (DESIGN CHOICE, log 67). That the streamed sources of an undo half set the flags of
their scaling, and stop at one that FEN enables, is the model's choice (DESIGN CHOICE, log 61). -/
def Obligations.PairsCommitTogether : Prop :=
  ∀ (s t : State) (h : Hart) (g : KReg) (gs : Bool) (sc : PairScalar) (f : AHalf) (v : Hart → Vec), s.hart? = some h →
    let guard : Guard := ⟨g.toNat, gs⟩
    (∀ rd ra rb,
      let a := h.getX ra
      let b := h.getX rb
      scalarHalf .nop h = none ∧ scalarHalf (.reg .add rd ra rb) h = some (rd, a + b) ∧
      scalarHalf (.reg .sub rd ra rb) h = some (rd, a - b) ∧ scalarHalf (.reg .and rd ra rb) h = some (rd, a &&& b) ∧
      scalarHalf (.reg .or rd ra rb) h = some (rd, a ||| b) ∧ scalarHalf (.reg .xor rd ra rb) h = some (rd, a ^^^ b) ∧
      scalarHalf (.reg .sll rd ra rb) h = some (rd, BitVec.ofNat 64 (a.toNat * 2 ^ (b.toNat % 64))) ∧
      scalarHalf (.reg .srl rd ra rb) h = some (rd, BitVec.ofNat 64 (a.toNat / 2 ^ (b.toNat % 64))) ∧
      scalarHalf (.reg .sra rd ra rb) h = some (rd, BitVec.ofInt 64 (a.toInt / 2 ^ (b.toNat % 64))) ∧
      ∀ imm, scalarHalf (.imm .addi rd ra imm) h = some (rd, BitVec.ofInt 64 (a.toInt + imm.toInt)) ∧
        scalarHalf (.imm .slli rd ra imm) h = some (rd, BitVec.ofNat 64 (a.toNat * 2 ^ imm.toNat)) ∧
        scalarHalf (.imm .srli rd ra imm) h = some (rd, BitVec.ofNat 64 (a.toNat / 2 ^ imm.toNat)) ∧
        scalarHalf (.imm .srai rd ra imm) h = some (rd, BitVec.ofInt 64 (a.toInt / 2 ^ imm.toNat))) ∧
    let fin (t : State) : Host.Outcome State Fault Refusal := .next ((match scalarHalf sc h with
      | none => t
      | some (rd, x) => if (h.getK g.toNat).getLsbD 0 != gs then t.updHart (fun k => k.setX rd x) else t).stepOver 8)
    (f.sweep? guard = some v →
      (∀ r, (Vec.met v s h).fault? h = some r → exec (.pair g gs sc f) s = .next ((Vec.met v s h).trapped h (Vec.entry v s h) r)) ∧
      ((Vec.met v s h).Completes (Vec.entry v s h) h t → exec (.pair g gs sc f) s = fin t) ∧
      ∀ k b r, (Vec.met v s h).Stops (Vec.entry v s h) h k b t r → exec (.pair g gs sc f) s = .next ((Vec.met v s h).trapped h t r)) ∧
    (f.op ∈ [.rfmul, .rfadd, .rcvt, .rnrw] →
      (∀ r, (forwardVec f guard h).fault? h = some r → exec (.pair g gs sc f) s = .next ((forwardVec f guard h).trapped h s r)) ∧
      (f.Pushed guard s h t → exec (.pair g gs sc f) s = fin t)) ∧
    (f.op ∈ [.ufmul, .ufadd, .ucvt, .unrw] →
      (∀ r, (undoVec f guard [] h).fault? h = some r → exec (.pair g gs sc f) s = .next ((undoVec f guard [] h).trapped h s r)) ∧
      (f.Popped guard s h t → exec (.pair g gs sc f) s = fin t)) ∧
    (f.op ∈ [.kand, .kor, .kxor, .kandn, .knot, .kmw, .kmr] →
      exec (.pair g gs sc f) s = fin ((s.setHart (maskLogic f h)).dispatch h 2 0 (maskJob f)))

/-! ### Reversible instructions and the stair (R183 to R203, R361, R362, R393, R394) -/

/-- Elements of the reversible forms. The integer pairs undo each other: `uadd` after `radd`, `rxor` after `rxor`, and, for an odd factor,
`umulo` after `rmulo` give back every bit of a. `rfmul` and `rfadd` give the result and the flags of `vfmul` and `vfadd`, and `rnrw` the
element clamped to s8 after a rounded shift by the low 5 bits of b; the slot of `rnrw` is the original, and so is one with its escape bit of the
floating forms, whose undo gives it back; `ucvt` gives back every bit of what `rcvt` has converted toward zero, or of a NaN in any mode. -/
def Obligations.ReversibleElements : Prop :=
  ∀ (h : Hart) (ty a b c : Nat),
    (ty ≤ 5 → a < 2 ^ tyWidth ty → b < 2 ^ tyWidth ty →
      let el (op : AOp) (x : Nat) : Nat := (revIntEl op h ty ty ty x b c).1
      el .uadd (el .radd a) = a ∧ el .radd (el .uadd a) = a ∧ el .rxor (el .rxor a) = a ∧
      (b % 2 = 1 → el .umulo (el .rmulo a) = a ∧ el .rmulo (el .umulo a) = a)) ∧
    (let fwd (op : AOp) (td ta : Nat) : Nat × Flags × Nat × Bool := forwardEl op h td ta td a b
     (ty = 7 ∨ ty = 8 → a < 2 ^ tyWidth ty → b < 2 ^ tyWidth ty →
       (∀ p ∈ [(AOp.rfmul, AOp.vfmul), (.rfadd, .vfadd)],
         ((fwd p.1 ty ty).1, (fwd p.1 ty ty).2.1) = floatEl p.2 h ty ty ty a b c ∧
         ((fwd p.1 ty ty).2.2.2 = true → (fwd p.1 ty ty).2.2.1 = a)) ∧
       ∀ op ∈ [AOp.ufmul, .ufadd], ∀ x, undoEl op ty x b (a, true) = a) ∧
     (a < 2 ^ 32 →
       (∀ x, undoEl .unrw 4 x b (fwd .rnrw 0 4).2.2 = a) ∧
       (let z := Ex.toInt ⟨decide (intVal 4 a < 0), (intVal 4 a).natAbs, -((b % 32 : Nat) : Int)⟩ (h.mode 0xc02)
        intVal 0 (fwd .rnrw 0 4).1 = max (-128) (min z 127) ∧ (fwd .rnrw 0 4).2.1 = (if z < -128 ∨ 127 < z then fSAT else 0)) ∧
       ((f32.decode a).isNaN = true ∨ (h.mode 0xc01 = 1 ∧ ∃ y, f32.decode a = .fin y) →
         undoEl .ucvt 8 (fwd .rcvt 7 8).1 b (fwd .rcvt 7 8).2.2 = a)))

/-- A pop gives back what the push before it put on the stair: on a stair without a spill area that has room for the record, the push
raises STP by the record's length, and the pop of its tag, shape and count returns its payload and lowers STP again. -/
def Obligations.PopReturnsThePush : Prop :=
  ∀ (s : State) (h : Hart) (ap : Ap) (payload : List Byte) (tag wvt shape rc vl : Nat), h.noSpill = true → h.ven = false → h.stp % 32 = 0 →
    h.stair.low.toNat ≤ h.stp → h.stb ≤ h.stp → h.stp + payload.length + 32 ≤ h.stb + h.share → h.stb + h.share < 2 ^ 64 →
    payload.length % 32 = 0 → payload.length < 2 ^ 32 → tag < 2 ^ 16 → shape < 2 ^ 32 → rc * vl < 2 ^ 32 →
    ∃ h', s.stairPush h (recordOf payload tag wvt shape rc vl) = .ok (s, h') ∧ h'.stp = h.stp + payload.length + 32 ∧
      ∃ g, s.stairPop h' ap tag shape (rc * vl) = .ok (s, g, payload) ∧ g.stp = h.stp

/-- The pushing and popping instructions of major 0x2F. A push whose checks pass and whose stair has room does its sweep and then puts its
record on the stair, STP rising by the record's length; an undo whose record is the one on top takes it off and restores. Each is charged at
the dispatch gate. An undo's own elements set no flag; that its streamed sources set the flags of their scaling in FSTAT, and stop it at one
that FEN enables, is the model's choice (DESIGN CHOICE, log 61). -/
def Obligations.PushesAndPops : Prop :=
  ∀ (s t : State) (h : Hart) (i : Instr) (f : AHalf) (mask : BitVec 2), s.hart? = some h → i.toHalf = some (f, mask) →
    let g := maskGuard mask
    (f.op ∈ [.rfmul, .rfadd, .rcvt, .rnrw] →
      let v := forwardVec f g h
      let q := recordShape f.op (h.apt f.apd).ty
      let check := (v.feed s h).s.pushCheck h f.apd (payloadLen q.1 q.2.1 (h.rc * h.vl) + 32)
      (∀ r, v.fault? h = some r → exec i s = .next (v.trapped h s r)) ∧
      (v.Ready s h → ∀ e, check = .error e → exec i s = v.missed h e 4) ∧ (f.Pushed g s h t → exec i s = .next (t.stepOver 4))) ∧
    (f.op ∈ [.ufmul, .ufadd, .ucvt, .unrw] →
      let u := undoVec f g [] h
      let q := recordShape f.op (h.apt f.apa).ty
      let pop := (u.feed s h).s.stairPop h f.apa (0xbc00 + 64 * (h.apt f.apa).ty + q.2.2)
        (shapeHash (h.ap.get f.apa.toNat) (h.ap.get f.apd.toNat) h.rc h.vl) (h.rc * h.vl)
      (∀ r, u.fault? h = some r → exec i s = .next (u.trapped h s r)) ∧
      (u.Ready s h → ∀ e, pop = .error e → exec i s = u.missed h e 4) ∧ (f.Popped g s h t → exec i s = .next (t.stepOver 4)))

/-- The stair's management. `stpeek` returns TAG, the version tag and COUNT of the top header, 0 on an empty stair; `stdrop` of 0 changes
nothing, of n it takes off the top record and then n − 1 more, as far as whole records stand above STB; `stcut` cuts the stair to STB, STP or a known
record boundary and traps with reason 0x2B elsewhere; `stsync` writes the on-chip bytes back and changes no register; `stpre` changes no
register but what stands on chip. Each passes the gate without charge.
How much `stpre` fills is a free value (DESIGN CHOICE, log 10); the granule of spills is the model's reading (DEDUCED, log 44); that a header below
the on-chip part is read from memory is the model's choice (DESIGN CHOICE, log 54), as is that `stsync` performs the hart's other stores too (DESIGN
CHOICE, DESIGN CHOICE, log 62). -/
def Obligations.StairManagement : Prop :=
  ∀ (s : State) (h : Hart) (rd ra : XReg), s.hart? = some h →
    let p := (h.getX ra).toNat
    let did (t : State) (h' : Hart) : Host.Outcome State Fault Refusal :=
      .next (((t.setHart h').dispatch h 15 0 { stair := some .manage }).stepOver 8)
    (h.stp = h.stb → exec (.stpeek rd) s = did s (h.setX rd 0)) ∧
    (∀ t hd, h.stp ≠ h.stb → s.stairUnits h (BitVec.ofNat 64 h.stp - 32) 1 = .ok (t, hd) → exec (.stpeek rd) s =
      did t (h.setX rd (BitVec.ofNat 64 (leNat ((hd.drop 4).take 4) * 2 ^ 32 + leNat ((hd.drop 2).take 2) * 2 ^ 16 + leNat (hd.take 2))))) ∧
    (p = 0 ∨ h.stp ≤ h.stb → exec (.stdrop ra) s = did s h) ∧
    (∀ t h', s.stairDrop (min p ((h.stp - h.stb) / 32)) h = .ok (t, h') → exec (.stdrop ra) s = did t h') ∧
    (∀ n t hd, h.stb < h.stp → s.stairUnits h (BitVec.ofNat 64 (h.stp - 32)) 1 = .ok (t, hd) →
      let len := leNat ((hd.drop 12).take 4) + 32
      s.stairDrop (n + 1) h = if h.stp < h.stb + len then .ok (t, h) else t.stairDrop n (h.stairTop (h.stp - len))) ∧
    (let ok := h.stb ≤ p ∧ p ≤ h.stp ∧ p % 32 = 0 ∧ (p = h.stb ∨ p = h.stp ∨ h.getX ra ∈ h.stair.marks)
     (ok → ∃ t g, exec (.stcut ra) s = .next t ∧ t.hart? = some g ∧ g.stp = p ∧ g.stb = h.stb ∧ g.stl = h.stl ∧ g.x = h.x ∧
       s.OnlyHartAndTiming t ∧ ∀ k, k < p → h.stair.low.toNat ≤ k → g.stair.bytes.get k = h.stair.bytes.get k) ∧
     (¬ ok → exec (.stcut ra) s = .next ((s.dispatch h 15 0 { stair := some .manage }).takeTrap { code := 0x112b }))) ∧
    (∀ t, s.stairSync h = .ok t → exec .stsync s = did t h) ∧
    ∃ t g, exec (.stpre ra) s = .next t ∧ t.hart? = some g ∧ g.pc = h.pc + 8 ∧ g.x = h.x ∧ g.plane = h.plane ∧ g.stp = h.stp ∧
      g.stb = h.stb ∧ g.stl = h.stl

/-! ### The transit engine's instructions (R100, R254 to R261) -/

/-- The transit instructions. A tile that the gang does not hold is an illegal use with reason 0x30; otherwise `tload` puts K × N elements of an aperture into the tile with their TYPE, `tmac` adds the products of row X(rm) with the
tile to a row of the bank, integer ones modulo 2^32 and floating ones in groups of eight with the flags of R100, `tzero` clears the bank
and `tdrain` writes bank rows from X(rm) on into the active elements of an aperture. Each of the first three makes one entry in the core's
queue, and waits where that is full; `tdrain` makes one at the dispatch gate, after which it takes its place in the queue. Instructions take effect when their hart meets them; the queue is timing (DESIGN CHOICE, log 5).
A `tmac` reports the first of the enabled flags that any column raises, in the order of the flags (DESIGN CHOICE, log 66). -/
def Obligations.TransitInstructions : Prop :=
  ∀ (s : State) (h : Hart) (g : Gang) (t : BitVec 3) (ap : Ap) (xr : XReg) (kg : KReg) (ks : Bool), s.hart? = some h →
    s.gangOf h = some g →
    let a := h.apt ap
    let m := (h.getX xr).toNat % 256
    let K := (h.getCsr 0xc48).toNat % 256
    let N := (h.getCsr 0xc48).toNat / 256 % 256
    let forms : List Instr := [.tload t ap, .tmac t ap xr, .tzero t, .tdrain kg ks ap t xr]
    (g.tiles[t.toNat]? = none → ∀ i ∈ forms, exec i s = .next (s.takeTrap { code := 0x1130 })) ∧
    ∀ ti, g.tiles[t.toNat]? = some ti →
      let v := tdrainVec ⟨kg.toNat, ks⟩ ap t.toNat ti xr h
      (∀ r, v.fault? h = some r → exec (.tdrain kg ks ap t xr) s = .next (v.trapped h s r)) ∧
      (v.Ready s h → ∃ u, exec (.tdrain kg ks ap t xr) s = .next u ∧ (∃ h', u.hart? = some h' ∧
        h'.plane = (v.result h (v.feed s h)).1.plane ∧ h'.x = h.x ∧ h'.pc = h.pc + 8) ∧ u.mem = s.mem ∧ u.gangs = s.gangs ∧
        (∃ j, (u.coreAt h.q).gate = insertBy Job.arrives j (s.coreAt h.q).gate ∧ j.drain = some t.toNat ∧ j.hid = h.hid ∧ j.slot = h.slot ∧
          j.dropped = false) ∧
        (h.rc * h.vl = 1 → h.active ⟨kg.toNat, ks⟩ 0 0 = true → ∀ h', u.hart? = some h' → h'.getEl a 0 0 = ti.acc m 0)) ∧
      (s.transitRoom h = false → ∀ i ∈ [Instr.tload t ap, .tmac t ap xr, .tzero t], exec i s = .next s) ∧
      (s.transitRoom h = true →
        let tile (u : State) (kind : TransitKind) (ti' : Tile) : Prop :=
          (∃ g', u.gangAt h.q h.slot = some g' ∧ g' = { g with tiles := g'.tiles } ∧
            ∀ k, g'.tiles[k]? = if k = t.toNat then some ti' else g.tiles[k]?) ∧ u.mem = s.mem ∧
          ∃ j, (u.coreAt h.q).transit = (s.coreAt h.q).transit ++ [j] ∧ j.kind = kind ∧ j.tile = t.toNat ∧ j.job.hid = h.hid ∧
            j.job.slot = h.slot
        (∃ u, exec (.tzero t) s = .next u ∧ tile u .zero { ti with bank := [] } ∧ u.hart? = some (h.commit (h.pc + 8))) ∧
        ((a.v = false → exec (.tload t ap) s = .next (s.takeTrap { code := 0x1110, tap := some ap.toNat })) ∧
          (a.v = true → ¬ ((K ≤ a.hl ∨ a.bc = true) ∧ N ≤ a.e) → exec (.tload t ap) s =
            .next (s.takeTrap { code := 0x1111, tap := some ap.toNat })) ∧
          (a.v = true → (K ≤ a.hl ∨ a.bc = true) → N ≤ a.e →
            (1 < a.kind ∨ a.ty ∉ [7, 8, 9, 10] → exec (.tload t ap) s = .next (s.takeTrap { code := 0x1131, tap := some ap.toNat })) ∧
            (a.kind ≤ 1 → a.ty ∈ [7, 8, 9, 10] → K = 0 → exec (.tload t ap) s = .next (s.takeTrap { code := 0x1131 })) ∧
            (a.kind ≤ 1 → a.ty ∈ [7, 8, 9, 10] → 0 < K → N ≤ 64 → a.sb = false → h.absent [a] = none →
              ∃ u ti', exec (.tload t ap) s = .next u ∧ tile u .load ti' ∧ u.hart? = some (h.commit (h.pc + 8)) ∧
                ti'.ty = some (BitVec.ofNat 4 a.ty) ∧ ti'.rows = K ∧ ti'.cols = N ∧ ti'.bank = ti.bank ∧
                ∀ r c, r < K → c < N → ti'.elem r c = h.getEl a r c))) ∧
        ((ti.ty = none → a.v = true → exec (.tmac t ap xr) s = .next (s.takeTrap { code := 0x1132 })) ∧
          ∀ ty, ti.ty = some ty → a.v = true →
            (a.e < ti.rows ∨ (a.bc = false ∧ a.hl ≤ m) → exec (.tmac t ap xr) s =
              .next (s.takeTrap { code := 0x1111, tap := some ap.toNat })) ∧
            (ti.rows ≤ a.e → a.bc = true ∨ m < a.hl → a.ty ≠ ty.toNat → exec (.tmac t ap xr) s =
              .next (s.takeTrap { code := 0x1113, tap := some ap.toNat })) ∧
            (ti.rows ≤ a.e → a.bc = true ∨ m < a.hl → a.ty = ty.toNat → a.sb = false → h.absent [a] = none → ti.cols ≤ 64 →
              let row := (List.range ti.rows).map (fun k => h.getEl a m k)
              let fl := ((List.range ti.cols).map (fun c => ti.macEl a.ty m row c)).foldl (fun (f : Flags) x => f ||| x.2) 0
              (∀ b, trapFlag h.fen fl = some b → exec (.tmac t ap xr) s =
                .next ((s.setHart (h.orFlags (1#6 <<< b))).takeTrap { code := 0x2000 + b, tap := some ap.toNat })) ∧
              (trapFlag h.fen fl = none → ∃ u ti', exec (.tmac t ap xr) s = .next u ∧
                tile u (if a.ty = 7 then .mac else if a.ty = 8 then .mac32 else .macHalf) ti' ∧ u.hart? = some ((h.orFlags fl).commit (h.pc + 8)) ∧
                ti' = { ti with bank := ti'.bank } ∧ ∀ r c, c < 64 → ti'.acc r c =
                  if r = m ∧ c < ti.cols then
                    (if a.ty = 10 then
                      ((ti.acc m c + ((List.range ti.rows).map (fun k => sext (h.getEl a m k) 4 * sext (ti.elem k c) 4)).sum) % 2 ^ 32).toNat
                    else (ti.macEl a.ty m row c).1 % 2 ^ 32)
                  else ti.acc r c))))

/-! ### Engine commands (R246 to R252, R340 to R342, R406, R418, R419) -/

/-- The commands at issue. A check that fails is its trap, a path fault of a range known at issue among them, those read before
those written; otherwise the command goes to the engine and the hart goes on. A collective whose members have all issued starts then. An
update with a skip word issues as a release, and reads that word as its first act. `wver` binds a version register to an aligned address.
The reasons of a misaligned descriptor are the model's reading (DEDUCED, log 43), as are its bytes by name in an overlap (DESIGN CHOICE, log 19). -/
def Obligations.EngineCommandsIssue : Prop :=
  ∀ (s : State) (h : Hart) (xd xs xn xc xa : XReg) (scope : BitVec 3) (n : BitVec 6), s.hart? = some h →
    let size := (h.getX xn).toNat
    let va := h.getX xa
    let checked (i : Instr) (u : State) (c : EngineCmd) (rd wr word : List Range) (k : State → State) : Prop :=
      (∀ a, (rd ++ word).findSome? (u.rangeFault c .engineRead) = some a → exec i s = .next (u.takeTrap { code := 0x3013, tva := a })) ∧
      ((rd ++ word).findSome? (u.rangeFault c .engineRead) = none →
        (∀ a, wr.findSome? (u.rangeFault c .engineWrite) = some a → exec i s = .next (u.takeTrap { code := 0x3023, tva := a })) ∧
        (wr.findSome? (u.rangeFault c .engineWrite) = none → u.FewCommands h → exec i s = .next ((k (u.issued c rd wr)).stepOver 8)))
    (let c := s.newCmd h scope (h.getX xc) (.copy (h.getX xd) (h.getX xs) size) size
     (s.rangesOverlap c (h.getX xs, size) (h.getX xd, size) = true → exec (.cpy xd xs xn xc scope) s =
       .next (s.takeTrap { code := 0x114a })) ∧
     (s.rangesOverlap c (h.getX xs, size) (h.getX xd, size) = false →
       checked (.cpy xd xs xn xc scope) s c [(h.getX xs, size)] [(h.getX xd, size)] [] id)) ∧
    (∀ i kind, (i = .collAr xa scope ∧ kind = 2) ∨ (i = .collRs xa scope ∧ kind = 3) ∨ (i = .collAg xa scope ∧ kind = 4) ∨
        (i = .collA2a xa scope ∧ kind = 5) →
      (va.toNat % 64 ≠ 0 → exec i s = .next (s.takeTrap { code := 0x114b })) ∧
      (∀ u d, va.toNat % 64 = 0 → s.loadRecord h va 64 = .ok (u, d) →
        let g := descField d 0x16 2
        let src : Range := (descAddr d 0 0, elBytes (collTy d) ((if kind = 3 ∨ kind = 5 then u.groupSize g else 1) * collCount d))
        let bytes := elBytes (collTy d) (collElements kind (u.groupSize g) d)
        let dst : Range := (descAddr d 8 0, bytes)
        let rank := u.groupBase g + ((u.groupDies g).filter (fun x => x < h.die)).length
        let c := u.newCmd h scope (descAddr d 0x18 0) (.collective kind d rank (u.groupSize g)) bytes
        let bad := badColl kind d || u.badGroup h.ctx h.die g || (u.rangesOverlap c src dst &&
          !(kind = 2 && u.byName c src.1 = u.byName c dst.1))
        (bad = true → exec i s = .next (u.takeTrap { code := 0x114b })) ∧
        (bad = false → checked i u c [src] [dst] [] (fun x => x.selfStart g)))) ∧
    (∀ i adamw, (i = .updSgdm xa scope ∧ adamw = false) ∨ (i = .updAdamw xa scope ∧ adamw = true) →
      (va.toNat % 128 ≠ 0 → exec i s = .next (s.takeTrap { code := 0x114c })) ∧
      (∀ u d, va.toNat % 128 = 0 → s.loadRecord h va 128 = .ok (u, d) →
        (badUpdate h d = true → exec i s = .next (u.takeTrap { code := 0x114c })) ∧
        (badUpdate h d = false →
          let k := descField d 0x28 4
          let ver := descField d 0x2d 1
          let word : Option Word := if ver.testBit 7 then find h.wver (ver % 64) else none
          let c (u : State) := u.newCmd h scope (descAddr d 0x38 0) (.update adamw d word) (4 * k)
          let w : Range := (descAddr d 0 0, 4 * k)
          let g : Range := (descAddr d 8 0, tyWidth (descField d 0x2c 1) / 8 * k)
          let m : Range := (descAddr d 0x10 0, 4 * k)
          let v : List Range := if adamw then [(descAddr d 0x18 0, 4 * k)] else []
          let w16 : List Range := if descField d 0x20 8 = 0 then [] else [(descAddr d 0x20 0, 2 * k)]
          (descField d 0x30 8 = 0 → checked i u (c u) ([w, g, m] ++ v) ([w, m] ++ v ++ w16) [] id) ∧
          (descField d 0x30 8 ≠ 0 → (u.release h.hid).2 = true → let u' := (u.release h.hid).1
            checked i u' (c u') ([w, g, m] ++ v) ([w, m] ++ v ++ w16) [(descAddr d 0x30 0, 8)]
              (fun x => x.advance (x.engines.length + 1) (x.engineId - 1) 0))))) ∧
    (va.toNat % 8 ≠ 0 → exec (.wver n xa) s = .next (s.takeTrap { code := 0x114d })) ∧
    (va.toNat % 8 = 0 → ∃ h', exec (.wver n xa) s = .next (s.ran h' 8) ∧ h' = { h with wver := h'.wver } ∧
      ∀ k, find h'.wver k = if k = n.toNat then some va else find h.wver k)

/-- A copy between gallery allocations that do not meet completes with every byte of DST equal to the byte of SRC, no other byte of
memory changed, and the command gone. -/
def Obligations.CopyMovesBytes : Prop :=
  ∀ (s : State) (c : EngineCmd) (dst src : Word) (n : Nat), s.power = true → s.engines = [c] → s.poison = [] →
    (∀ g ∈ s.harts, g.pending = []) → c.work = .copy dst src n → c.total = n → c.next = 0 → c.ctr = 0 → c.missing = [] →
    c.galSize ≤ 2 ^ 21 → pathOf dst = 1 → pathOf src = 1 →
    let d := dst.toNat % 2 ^ 61
    let r := src.toNat % 2 ^ 61
    d + n ≤ c.galSize → r + n ≤ c.galSize → d + n ≤ r ∨ r + n ≤ d →
    let at' (o : Nat) : Nat := 2 ^ 48 + c.core * 2 ^ 21 + (c.galBase + o)
    ∃ t, exec (.engineCommandComplete c.id) s = .next t ∧ t.engines = [] ∧ (∀ i, i < n → t.byte (at' (d + i)) = s.byte (at' (r + i))) ∧
      ∀ loc, loc < at' d ∨ at' (d + n) ≤ loc → t.byte loc = s.byte loc

/-- Events of the engines and the ports. A number that names no command does nothing; a command whose bytes are done releases its
counter, adding 1 to it, and is gone. A group of which a member has not issued does not start, nor one whose data from other modules have not
come, nor one of which an older command of a member's hart that writes what it contributes cannot be done; a collective that starts has its data
fixed. A token ends the command of its group on the die ABORTED, its chunks in flight complete: its engine entry has STATUS 3 and its hart owes the
fault 0x5010; a token that was for a command that has ended does nothing but go. A port goes down at its event and at the 1,024th attempt of one flit; each flit of a port counts alone.
That a collective's data is fixed when it starts (DESIGN CHOICE, log 19) and how many chunks an aborted command had begun, a free value
(DESIGN CHOICE, log 24), are the model's. -/
def Obligations.EngineEvents : Prop :=
  ∀ (s : State) (n group die port flit : Nat) (remote : List (Nat × List Byte)), s.power = true →
    (s.engine? n = none → exec (.engineCommandComplete n) s = .next s) ∧
    (∀ c, s.engines = [c] → c.id = n → c.next = c.total → c.missing = [] → (∃ d r k, c.work = .copy d r k) →
      (c.ctr = 0 → exec (.engineCommandComplete n) s = .next (s.endEngine c 0)) ∧
      (c.ctr ≠ 0 → ∀ t, (match c.hid with
          | some k => (s.drain k).markFence k
          | none => s).engineAdd c c.ctr = .ok t → exec (.engineCommandComplete n) s = .next (t.endEngine c 0))) ∧
    (s.groupReady group = none → exec (.collectiveStart group remote) s = .next s) ∧
    (∀ cs, s.groupReady group = some cs →
      let come := s.remoteCome group (s.come group remote)
      let ready := s.sourcesReady cs
      (come = false → exec (.collectiveStart group remote) s = .next s) ∧
      (come = true → ready.2 = false → exec (.collectiveStart group remote) s = .next ready.1) ∧
      (come = true → ready.2 = true → ∃ t, exec (.collectiveStart group remote) s = .next t ∧
        ∀ c ∈ t.engines, c.group? = some group → c.remote.isSome)) ∧
    (∀ id, s.tokens.find? (fun t => t.1 == group && t.2.1 == die) = some (group, die, id) →
      (s.engine? id = none → exec (.abortToken group die) s = .next { s with tokens := s.tokens.erase (group, die, id) }) ∧
      ∀ c, s.engine? id = some c → ∃ t, exec (.abortToken group die) s = .next t ∧ t.engine? id = none) ∧
    (s.tokens.find? (fun t => t.1 == group && t.2.1 == die) = none →
     let found := s.memberOn group die
     (found = none → exec (.abortToken group die) s = .next s) ∧
     (∀ c, found = some c → ∃ t, exec (.abortToken group die) s = .next t ∧ t.engine? c.id = none) ∧
     (∀ c, found = some c → s.engines = [c] → ∃ t, exec (.abortToken group die) s = .next t ∧ t.engines = [] ∧
       (∀ l, s.launchAt c.launch = some l → l.engEntries.length < 31 → ∃ done, c.next ≤ done ∧
         (t.launchAt c.launch).map (fun l => l.engEntries) = some (l.engEntries ++ [({ c with next := done }).entryBytes 3])) ∧
       (∀ k h, c.hid = some k → s.hartAt k = some h →
         (t.hartAt k).map (fun h => h.engineFaults) = some (h.engineFaults ++ [{ code := 0x5010, tva := 0 }])))) ∧
    ((∀ c ∈ s.engines, c.group? = none) → exec (.gleipPortDown port) s =
      .next { s with portsDown := if s.portsDown.contains port then s.portsDown else port :: s.portsDown }) ∧
    let tries := (find s.portRetry (port, flit)).getD 0
    (tries < 1023 → exec (.gleipFlitRetry ⟨port, flit⟩) s = .next { s with portRetry := put s.portRetry (port, flit) (some (tries + 1)) }) ∧
    (1023 ≤ tries → ∃ t, exec (.gleipPortDown port) s = .next t ∧ exec (.gleipFlitRetry ⟨port, flit⟩) s =
      .next { t with portRetry := s.portRetry.filter (fun p => p.1.1 != port) })

/-! ### Launches and placement (R29 to R46, R57, R144, R370, R412, R415 to R417, R424) -/

/-- Launches. A MSG write is accepted, or dropped for the first reason of R412 with its record; an owner's LQCFG write stores EN and CTX. A
wait counter that has not reached WVAL leaves its launch waiting, one that has makes it ready, and a read that fails ends it. A decision
with nothing to choose, or whose launch does not fit, changes nothing; a gang that is placed takes the first core in the order from NEXT
on that it fits (R40, R42), with the lowest bands, gallery run and tiles that are free there (R41), and its gallery reads as zero. A
co-scheduled launch that no longer fits the cores in service leaves. A launch that has nothing left to run is complete after its event,
whether or not its record can be written; before that the event does nothing.
That a message receives the count before it as its acceptance number is the model's reading (DEDUCED, log 40), and so is that the gangs counted
against the cores in service are those still to place, held ones among them (DEDUCED, log 25). -/
def Obligations.Launches : Prop :=
  ∀ (s : State) (window offset master acc : Nat) (bytes : List Byte) (v : Word), s.power = true →
    (let l := Launch.ofMsg window (s.windowCtx window) (msgOf bytes)
     let r := if offset ≠ 0 ∨ bytes.length ≠ 64 then 5 else if s.windowOpen window = false then 2
       else if s.masterOk l.ctx master = false then 3 else if s.wellFormed l = false then 1
       else if 1024 ≤ s.taken window then 4 else 0
     window < 64 → offset < 64 →
     (r = 0 → ∃ t l', exec (.msgWrite window offset master bytes) s = .next t ∧ t.launches = s.launches ++ [l'] ∧
       l' = { l with acc := s.accepted, stamp := s.tick + 1, st := if l.waiten then .waiting else .ready } ∧ t.accepted = s.accepted + 1 ∧
       t.mem = s.mem) ∧
     (r ≠ 0 → exec (.msgWrite window offset master bytes) s =
       .next (s.hall { kind := 0x10, flags := if master ≤ 3 then 2 else 0, ctx := l.ctx, code := r, count := window }))) ∧
    (64 ≤ window ∨ 64 ≤ offset → exec (.msgWrite window offset master bytes) s = .next s) ∧
    (let off := 0x100048 + 0x1000 * window
     (window < 64 → s.owner? = some master → exec (.lqcfgWrite window master v) s = .next (s.setMgmt off (v &&& 0xffff0001))) ∧
     (window < 64 → s.owner? ≠ some master → exec (.lqcfgWrite window master v) s = .next (s.ignored master off)) ∧
     (64 ≤ window → exec (.lqcfgWrite window master v) s = .next s)) ∧
    (∀ l, s.launchAt acc = some l →
      (l.st ≠ .waiting → exec (.waitCounterRead acc) s = .next s) ∧
      (l.st = .waiting → ∀ u w, s.readCounter l = .ok (u, w) → u.launches = s.launches →
        (w < l.wval → exec (.waitCounterRead acc) s = .next u) ∧
        (l.wval ≤ w → ∃ t, exec (.waitCounterRead acc) s = .next t ∧ t.launchAt acc = some { l with st := .ready } ∧
          .placementDecision ∈ t.inbox)) ∧
      (l.st = .waiting → ∀ f, s.readCounter l = .error f → ∃ t, exec (.waitCounterRead acc) s = .next t ∧
        t.launchAt acc = some { l with failed := true, st := .running } ∧ .launchComplete acc ∈ t.inbox) ∧
      (l.st = .complete ∨ s.launchDone acc = false → exec (.launchComplete acc) s = .next s) ∧
      (s.launchDone acc = true → ∃ t, exec (.launchComplete acc) s = .next t ∧
        t.launchAt acc = some { l with st := .complete })) ∧
    (s.chosen = none → exec .placementDecision s = .next s) ∧
    (∀ l idx, (∀ g, s.findCore l idx = some g → s.Fits l g.core ∧ s.Allocates l g ∧
          ∃ k, k < 512 ∧ g.core = (s.next + k) % 512 ∧ ∀ j, j < k → ¬ s.Fits l ((s.next + j) % 512)) ∧
        (s.findCore l idx = none ↔ ∀ q, q < 512 → ¬ s.Fits l q)) ∧
    (∀ l, s.chosen = some l → l.cosched = true →
      (l.toPlace ≤ l.perCore * s.liveCores → State.placeAll l.acc 2048 s = none → exec .placementDecision s = .next s) ∧
      (l.perCore * s.liveCores < l.toPlace → ∃ t, exec .placementDecision s = .next t ∧ t.gangs = s.gangs ∧
        t.launchAt l.acc = (s.launchAt l.acc).map (fun l => { l with failed := true, held := [], st := .running }) ∧
        t.mem = (s.hall { kind := 0x19, ctx := l.ctx, count := l.gangs }).mem)) ∧
    ∀ l, s.chosen = some l → l.cosched = false →
      (s.placeNext l = none → exec .placementDecision s = .next s) ∧
      (l.held = [] → ∀ g, s.findCore l l.placed = some g → ∃ t, exec .placementDecision s = .next t ∧ g ∈ t.gangs ∧
        t.harts = s.harts ++ (List.range (l.hpg + 1)).map (s.startHart l g) ∧ t.next = (g.core + 1) % 512 ∧
        ∀ o, o < g.galSize → t.byte (galleryLoc g.core g.galBase + o) = 0)

/-- `launch` reads its message from memory after the hart's older stores: a misaligned address and a context without an open window are
illegal uses, and a message that is not well formed traps with 0x5001. A full window makes it wait with the message it has read; once there is
room, the message is accepted, under the conditions that then hold, and the acceptance number goes to X(rd) (DEDUCED, log 40). Where its window no longer meets the
conditions, it goes to the lowest-numbered one that does (DESIGN CHOICE, log 63). A hart begins at ENTRY, at U, with its five arguments, all rows
enabled, RC 1 and its context's vectors. -/
def Obligations.LaunchAndStart : Prop :=
  ∀ (s u : State) (h : Hart) (rd ra : XReg), s.hart? = some h →
    let va := h.getX ra
    let submit (t : State) (d : XReg) (va : Word) (l : Launch) : Prop :=
      (1024 ≤ t.taken l.window → exec (.launch rd ra) s =
        .next (t.updHart (fun g => { g with run := (.launching d va l.msg l.window) }))) ∧
      (t.taken l.window < 1024 → ∃ (w : State) (l' : Launch), exec (.launch rd ra) s =
        .next (w.did (fun g => { g.setX d (BitVec.ofNat 64 t.accepted) with run := .running }) 4) ∧ w.launches = t.launches ++ [l'] ∧
        l' = { l with acc := t.accepted, stamp := t.tick + 1, st := if l.waiten then .waiting else .ready } ∧
        w.accepted = t.accepted + 1 ∧ w.harts = t.harts ∧ w.mem = t.mem)
    let checked (t : State) (d : XReg) (va : Word) (l : Launch) : Prop :=
      (t.wellFormed l = false → exec (.launch rd ra) s = .next (t.takeTrap { code := 0x5001, tva := va })) ∧
      (t.wellFormed l = true → submit t d va l)
    (∀ rd' va msg n, h.run = .launching rd' va msg n →
      let r := s.setHart { h with run := .running }
      let now := if s.windowCtx n = h.ctx ∧ s.windowOpen n = true then some n else s.launchWindow h.ctx
      (now = none → exec (.launch rd ra) s = .next (r.takeTrap { code := 0x1103 })) ∧
      ∀ m, now = some m → checked r rd' va (Launch.ofMsg m h.ctx msg)) ∧
    ((∀ rd' va msg n, h.run ≠ .launching rd' va msg n) →
      (va.toNat % 64 ≠ 0 → exec (.launch rd ra) s = .next (s.takeTrap { code := 0x1102 })) ∧
      (va.toNat % 64 = 0 → s.release h.hid = (u, true) →
        (u.launchWindow h.ctx = none → exec (.launch rd ra) s = .next (u.takeTrap { code := 0x1103 })) ∧
        ∀ n t bs, u.launchWindow h.ctx = some n → u.load h false .scalarLoad va 64 = .ok (t, bs) →
          checked t rd va (Launch.ofMsg n h.ctx (msgOf bs)))) ∧
    ∀ (l : Launch) (g : Gang) (idx : Nat),
      let k := s.startHart l g idx
      k.pc = BitVec.ofNat 64 l.entry ∧ k.priv = .u ∧ k.vl = 0 ∧ k.rc = 1 ∧ k.swi = 0 ∧ k.km = BitVec.allOnes 256 ∧ k.run = .running ∧
      k.getX 10 = BitVec.ofNat 64 l.arg ∧ k.getX 11 = BitVec.ofNat 64 g.index ∧ k.getX 12 = BitVec.ofNat 64 idx ∧
      k.getX 13 = BitVec.ofNat 64 l.gangs ∧ k.getX 14 = BitVec.ofNat 64 l.tag ∧
      (∀ n : XReg, n < 10 ∨ 14 < n → k.getX n = 0) ∧ k.plane = [] ∧ k.bh = g.rows ∧ k.slot = g.slot ∧ k.idx = idx ∧
      k.getCsr 0xd27 = s.getMgmt (0x250000 + 16 * l.ctx) &&& ~~~2 ∧ k.getCsr 0xf27 = s.getMgmt (0x250008 + 16 * l.ctx) &&& ~~~2

/-- PREEMPT, RESUME and KILL, which only the owner's writes bring about and which take effect in arrival order, and the save of a gang.
PREEMPT holds a placing or running launch and makes the saves of its gangs due; RESUME makes a held launch placeable; either waits while a
save is in progress. KILL takes the launch's gangs and their harts away. A save that is not due does nothing itself, one that meets no
fault takes its gang from the core and holds it, and one that meets a fault leaves the gang in place; with each, what has waited for it
goes on. The gangs of a co-scheduled launch are saved one after the other and leave together, or, where a save is abandoned, all stay and
the launch is placing or running as before (R378, R411).
Commands that can complete doing so before the save is the model's choice (DESIGN CHOICE, log 31), as is the copy that a held gang keeps (DEDUCED, log 32). -/
def Obligations.PreemptResumeKill : Prop :=
  ∀ (s : State) (master acc n : Nat), s.power = true →
    (s.owner? ≠ some master → exec (.preempt master acc) s = .next (s.ignored master 0x230008) ∧
      exec (.resume master acc) s = .next (s.ignored master 0x230010) ∧ exec (.kill master acc) s = .next (s.ignored master 0x230020)) ∧
    (s.owner? = some master → s.saving = true → (∀ w, s.rotQueue.head? = some w → w.1 ≠ .kill) →
      exec (.preempt master acc) s = .next { s with rotQueue := s.rotQueue ++ [(.preempt, acc)] } ∧
      exec (.resume master acc) s = .next { s with rotQueue := s.rotQueue ++ [(.resume, acc)] } ∧
      (s.rotQueue ≠ [] → exec (.kill master acc) s = .next { s with rotQueue := s.rotQueue ++ [(.kill, acc)] })) ∧
    (s.owner? = some master → s.saving = false → s.rotQueue = [] →
      (s.launchAt acc = none → exec (.preempt master acc) s = .next s ∧ exec (.resume master acc) s = .next s) ∧
      ∀ l, s.launchAt acc = some l →
        (l.killed = true ∨ l.failed = true → exec (.preempt master acc) s = .next s ∧ exec (.resume master acc) s = .next s) ∧
        (l.killed = false → l.failed = false →
          (l.st = .placing ∨ l.st = .running → ∃ t, exec (.preempt master acc) s = .next t ∧
            t.launchAt acc = some { l with st := .held, resumed := false, saveBase := some (l.saveBase.getD
              ((s.getMgmt 0x230000).toNat / 2 ^ 23 * 2 ^ 23)) } ∧ t.harts = s.harts ∧
            t.gangs = s.gangs.map (fun g => if g.launch = acc then { g with due := true } else g) ∧
            ∀ g ∈ s.gangs, g.launch = acc → .gangSave (512 * g.slot + g.core) ∈ t.inbox) ∧
          (l.st ≠ .placing → l.st ≠ .running → exec (.preempt master acc) s = .next s) ∧
          (l.st = .held → ∃ t, exec (.resume master acc) s = .next t ∧ .placementDecision ∈ t.inbox ∧
            t.launchAt acc = some (if l.held = [] ∧ l.placed = l.gangs then { l with st := .running, resumed := false }
              else { l with st := .placing, resumed := true })) ∧
          (l.st ≠ .held → exec (.resume master acc) s = .next s))) ∧
    (s.owner? = some master → s.rotQueue = [] → (∀ l, s.launchAt acc = some l → l.st = .complete) →
      exec (.kill master acc) s = .next s.runOnAll) ∧
    (∀ l, s.owner? = some master → s.rotQueue = [] → s.launchAt acc = some l → l.st ≠ .complete → s.engines = [] →
      ∃ t, exec (.kill master acc) s = .next t ∧ (∀ g ∈ t.gangs, g.launch ≠ acc) ∧
        (∀ k ∈ t.harts, ∀ g ∈ s.gangs, g.launch = acc → ¬ (k.q = g.core ∧ k.slot = g.slot)) ∧
        (t.launchAt acc).map (fun l => (l.killed, l.held.length)) = some (true, 0) ∧ .launchComplete acc ∈ t.inbox) ∧
    ((∀ g ∈ s.gangs, 512 * g.slot + g.core = n → g.due = false) → exec (.gangSave n) s = .next s.saved) ∧
    (∀ q, s.runOnAll.rotQueue = q → (q = [] ∨ (s.runOnAll.saving = true ∧ ∀ w, q.head? = some w → w.1 ≠ .kill)) → s.saved = s.runOnAll) ∧
    ∀ g l, s.gangs.find? (fun g => 512 * g.slot + g.core == n && g.due) = some g → s.launchAt g.launch = some l →
      let stay (gs : List Gang) (u t : State) : Prop :=
        t.harts.map (fun h => h.hid) = u.harts.map (fun h => h.hid) ∧ t.gangs = u.gangs.map (fun k =>
        if ∃ g ∈ gs, g.core = k.core ∧ g.slot = k.slot then { k with due := false } else k)
      let alone (u : State) (f : Option (Nat × Nat)) : Prop := l.cosched = false ∧ saveGang g s = (u, f)
      let gs := s.gangs.filter (fun k => k.launch == l.acc)
      let together (u : State) (f : Option (Nat × Nat)) : Prop :=
        l.cosched = true ∧ gs.foldl (fun a g => Save.then a (saveGang g)) (s, none) = (u, f)
      (∀ u f, alone u (some f) → ∃ t : State, exec (.gangSave n) s = .next t.saved ∧ stay [g] u t ∧ t.launches = u.launches) ∧
      (∀ u g', alone u none → u.gangAt g.core g.slot = some g' → ∃ t : State, exec (.gangSave n) s = .next t.saved ∧
        t.gangAt g.core g.slot = none ∧ (∀ k ∈ t.harts, ∀ k' ∈ u.hartsOf g', k.hid ≠ k'.hid) ∧
        ∀ m, u.launchAt g'.launch = some m → ∃ m', (t.launchAt g'.launch).map (fun l => l.held) = some (m.held ++ [m']) ∧ m'.index = g'.index) ∧
      (∀ u f, together u (some f) → ∃ t : State, exec (.gangSave n) s = .next t.saved ∧ stay gs u t ∧
        t.launchAt l.acc = (u.launchAt l.acc).map (fun m => { m with st := if m.placed < m.gangs then .placing else .running })) ∧
      ∀ u, together u none → ∃ t : State, exec (.gangSave n) s = .next t.saved ∧
        ((∀ g ∈ gs, ∃ k, u.gangAt g.core g.slot = some k ∧ k.launch = l.acc ∧ k.index = g.index) →
          (∀ g ∈ gs, t.gangAt g.core g.slot = none ∧ ∀ k ∈ t.harts, ∀ k' ∈ u.hartsOf g, k.hid ≠ k'.hid) ∧
          ∀ m, t.launchAt l.acc = some m → ∀ g ∈ gs, ∃ x ∈ m.held, x.index = g.index)

/-! ### Masters, host, reset, migration and what runs ahead (R20, R80, R285 to R287, R305, R319, R334 to R347, R380, R400 to R403, R422 to R424) -/

/-- Ownership and register writes. A claim opens the window, and the highest ballot is its candidate, who owns the module when the
window closes; the owner releases or passes on what it has, and loses it with its link. EPOCH steps each time. A write that only holds
its fields is stored when the owner makes it, and is otherwise ignored with its record; one of 8 bytes to a window's MSG is a MSG write of
the wrong size (R412); a CSR target is the write of that CSR, FSTAT's after the hart's older floating atomics. A module of the UCIe link that is
lost is counted (R334). -/
def Obligations.Ownership : Prop :=
  ∀ (s : State) (master dest off n : Nat) (v : Word), s.power = true →
    let b := v.toNat % 2 ^ 32
    let word (t : State) : Nat := (t.getMgmt 0x200000).toNat
    let epoch (t : State) : Prop := bits (word t) 31 16 = (bits (word s) 31 16 + 1) % 2 ^ 16
    (b = 0 ∨ s.owner?.isSome → exec (.claimWrite master v) s = .next (s.ignored master 0x200008)) ∧
    (b ≠ 0 → s.owner? = none → ∃ t, exec (.claimWrite master v) s = .next t ∧ t.owner? = none ∧ (word t).testBit 9 = true ∧
      t.candidate = (match s.candidate with
        | none => some (master, b)
        | some (m, c) => if c < b then some (master, b) else some (m, c))) ∧
    (s.candidate = none → exec .claimWindowClose s = .next s) ∧
    (∀ m c, s.candidate = some (m, c) → m ≤ 5 → c < 2 ^ 32 → ∃ t, exec .claimWindowClose s = .next t ∧ t.owner? = some m ∧
      t.candidate = none ∧ word t / 2 ^ 32 = c ∧ epoch t ∧ (word t).testBit 9 = false) ∧
    (s.owner? ≠ some master → exec (.handoverRelease master) s = .next (s.ignored master 0x200010) ∧
      exec (.handoverTransfer master dest) s = .next (s.ignored master 0x200010) ∧ exec (.ownerLinkDown master) s = .next s) ∧
    (s.owner? = some master →
      (∃ t, exec (.handoverRelease master) s = .next t ∧ t.owner? = none ∧ word t / 2 ^ 32 = 0 ∧ epoch t) ∧
      (dest = master ∨ 5 < dest → exec (.handoverTransfer master dest) s = .next (s.ignored master 0x200010)) ∧
      (dest ≠ master → dest ≤ 5 → ∃ t, exec (.handoverTransfer master dest) s = .next t ∧ t.owner? = some dest ∧
        word t / 2 ^ 32 = word s / 2 ^ 32 ∧ epoch t) ∧
      (master ≤ 4 → ∃ t, exec (.ownerLinkDown master) s = .next t ∧ t.owner? = none ∧ epoch t)) ∧
    (0x100000 ≤ off ∧ off < 0x140000 ∧ off % 0x1000 < 0x40 → exec (.registerWrite (.mgmt master off) v) s =
      exec (.msgWrite ((off - 0x100000) / 0x1000) (off % 0x1000) master (leBytes 8 v.toNat)) s) ∧
    (off ∉ [0x200008, 0x200010, 0x230008, 0x230010, 0x230020, 0x240000] → ¬ (0x100000 ≤ off ∧ off < 0x140000 ∧ off % 0x1000 < 0x40) →
      (ownerStored off v = none → exec (.registerWrite (.mgmt master off) v) s = .next s) ∧
      (∀ w, ownerStored off v = some w → s.owner? = some master → exec (.registerWrite (.mgmt master off) v) s = .next (s.setMgmt off w)) ∧
      (∀ w, ownerStored off v = some w → s.owner? ≠ some master →
        exec (.registerWrite (.mgmt master off) v) s = .next (s.ignored master off))) ∧
    (∀ k, k < 1024 → s.owner? = some master → exec (.registerWrite (.mgmt master (0x210000 + 8 * k)) v) s =
      .next (s.setMgmt (0x210000 + 8 * k) (v &&& 0x8007ffffffff0000))) ∧
    (∀ h, s.hart? = some h → h.csrFault n = none → n ≠ 0xc22 →
      let s1 := if n = 0xc03 then s.flagsReady h else s
      let h1 := (s1.hart?).getD h
      let r := s1.readCsr h1 n
      ∀ u, r.1.writeCsr ((r.1.hart?).getD h1) n v = .ok u →
        exec (.registerWrite (.csr n) v) s = .next (u.did (fun g => g.setX 0 r.2) 4)) ∧
    ∃ t, exec .ucieModuleLoss s = .next t ∧ t.ucie = s.ucie - 1 ∧ t = { s with ucie := t.ucie, inbox := t.inbox }

/-- Reset, power, host accesses and the mailbox. Module reset leaves memory, poison and DEGST as they are and everything else as
State.reset says, the cores spared staying spared; the removal of power leaves no memory, and nothing happens after it. A host read
answers the bytes of device memory, or an error where they are poisoned; a host write stores; neither reaches beyond it, and with the
migration arbiter off neither is counted. A read through a BAR answers the registers' bytes. The mailbox answers as R344 to R346 say. A run
of mdas answers a status of 0, 1 or 2, 2 for a malformed command line, with an object only for 0, and touches nothing else.
A host access to a frame that is barred by R286 is an error.
That memory keeps its bytes over a reset (DESIGN CHOICE, log 33), that nothing happens without power (DESIGN CHOICE, log 49), the contents of certificate,
signature and images (DESIGN CHOICE, log 13), the digest (PRESUMED, log 72) of the steppings' bytes (DEDUCED, log 56), the codes of SPDM's errors (PRESUMED, log 34)
and the form of mdas's sources (DESIGN CHOICE, log 36) are the model's. -/
def Obligations.HostAndReset : Prop :=
  ∀ (s : State) (images asym hash : List Nat) (a n nonce code : Nat) (bs : List Byte) (args : List String) (files : List (String × String)),
    let kept (t : State) : Prop := (∀ d, d < 8 → t.getMgmt (0x270000 + 8 * d) = s.getMgmt (0x270000 + 8 * d)) ∧
      (∀ off, (∀ d, d < 8 → off ≠ 0x270000 + 8 * d) → t.getMgmt off = State.reset.getMgmt off) ∧
      ∀ c ∈ s.cores, c.spared = true → (t.coreAt c.q).spared = true
    (∃ t, exec (.moduleReset images) s = .next t ∧ kept t ∧ t = { State.reset with
      mgmt := t.mgmt, cores := t.cores, mem := s.mem, poison := s.poison, mdas := s.mdas, tick := s.tick
      images := images, firmware := images.filter Config.firmwareValid }) ∧
    (∃ r, exec (.mdasAssemble args files) s = .next { s with mdas := some r } ∧ r.status ≤ 2 ∧
      (r.status = 2 ↔ readOptions args MdasOptions.none = none) ∧ (r.status = 0 ↔ r.object.isSome)) ∧
    (s.power = true →
      (∃ t, exec .modulePowerRemoval s = .next t ∧ kept t ∧ t.power = false ∧ t.mem = [] ∧ t.poison = [] ∧ t.harts = [] ∧
        t.gangs = [] ∧ t.launches = [] ∧ t.firmware = [] ∧ exec .placementDecision t = .fault .powerOff) ∧
      (s.Quiet → s.arbiterOn = false →
        (a + n ≤ 0xc000000000 → s.hostBars a n = none → exec (.hostAccess a (.read n)) s =
          .next { s with hostData := if poisoned s.poison a n then none else some (peek s.mem a n) }) ∧
        (a + bs.length ≤ 0xc000000000 → s.hostBars a bs.length = none → ∃ t, exec (.hostAccess a (.write bs)) s = .next t ∧ t.hostData = some [] ∧ t.harts = s.harts ∧
          ∀ loc, t.byte loc = if a ≤ loc then (bs[loc - a]?).getD (s.byte loc) else s.byte loc)) ∧
      (deviceRange a n = true → ∀ f, s.hostBars a n = some f → ∃ t, exec (.hostAccess a (.read n)) s = .next t ∧ t.hostData = none ∧
        ∀ k ∈ t.tracks, ∃ m ∈ s.tracks, k = { m with noted := k.noted }) ∧
      (deviceRange a n = false → exec (.hostAccess a (.read n)) s = .next { s with hostData := none }) ∧
      (deviceRange a bs.length = false → exec (.hostAccess a (.write bs)) s = .next { s with hostData := none }) ∧
      exec (.hostAccess a (.bar0 n)) s = .next { s with hostData := if a + n ≤ 0x1000000 then some (s.devRead a n) else none } ∧
      exec (.hostAccess a (.bar2 n)) s = .next { s with hostData := if a + n ≤ 0x40000 then some (s.devRead (0x100000 + a) n) else none } ∧
      let sends (i : Instr) (x : SpdmAnswer) : Prop := exec i s = .next { s with doe := x :: s.doe }
      sends .getVersion (.version [0x12, 0x13]) ∧ sends .getCapabilities .capabilities ∧
      (0x101 ∈ asym → 0x102 ∈ hash → sends (.negotiateAlgorithms asym hash) (.algorithms 0x101 0x102)) ∧
      (0x101 ∈ asym → 0x102 ∉ hash → sends (.negotiateAlgorithms asym hash) (.algorithms 0x101 0)) ∧
      (0x101 ∉ asym → 0x102 ∈ hash → sends (.negotiateAlgorithms asym hash) (.algorithms 0 0x102)) ∧
      (0x101 ∉ asym → 0x102 ∉ hash → sends (.negotiateAlgorithms asym hash) (.error 1)) ∧
      sends .getDigests (.digests Config.certDigest) ∧ sends .getCertificate (.certificate Config.certificate) ∧
      sends (.challenge nonce) (.challengeAuth Config.certDigest (Config.summary s.images) (Config.signature nonce)) ∧
      sends .getMeasurements (.measurements ([0, 1, 2].map (fun i => shake256 (Config.image (s.images.getD i 0))) ++ [shake256 steppings])) ∧
      sends (.unsupportedRequest code) (.error 7))

/-- Migration, damage and removal. A frame's count that has reached HYST makes the request of one side, with its record; where the other
side's request is open it is a contest, which the current home wins: the request closes, and the count restarts at 0. Below HYST, or with MIGCFG
off, no request is made. A unit found damaged is poisoned with its record, once. A unit removed from service is counted in DEGST; a core
goes only once no gang is on it.
Which frame's entry a new one replaces is a free value (DESIGN CHOICE, log 20); that the counts of DEGST stay at their largest value is the
model's reading (DEDUCED, log 28). -/
def Obligations.MigrationEvents : Prop :=
  ∀ (s : State) (frame unit d k : Nat) (host : Bool), s.power = true →
    let cfg := (s.getMgmt 0x300000).toNat
    let track := (s.tracks.find? (fun t => t.frame == frame)).getD ⟨frame, 0, none, false⟩
    (cfg.testBit 16 = false ∨ track.count < cfg % 2 ^ 16 → exec (.migrationRequest frame host) s = .next s) ∧
    (cfg.testBit 16 = true → cfg % 2 ^ 16 ≤ track.count →
      (track.request = some host → exec (.migrationRequest frame host) s = .next s) ∧
      (track.request = some (!host) → exec (.migrationRequest frame host) s =
        .next { s with inbox := s.inbox ++ [.migrationContest frame host] }) ∧
      (track.request = none → ∃ t, exec (.migrationRequest frame host) s = .next t ∧
        { track with request := some host } ∈ t.tracks ∧
        t.mem = (s.hall { kind := 1, flags := if host then 2 else 0, pa := frame * 65536, count := track.count }).mem)) ∧
    (track.request ≠ some (!host) → exec (.migrationContest frame host) s = .next s) ∧
    (track.request = some (!host) → ∃ t, exec (.migrationContest frame host) s = .next t ∧
      t.tracks.find? (fun u => u.frame == frame) = some ⟨frame, 0, none, false⟩ ∧
      t.mem = (s.hall { kind := 2, flags := if deviceFrame frame then 2 else 0, pa := frame * 65536 }).mem) ∧
    (s.poison.any (fun u => u.1 == unit) = true → exec (.dataError unit) s = .next s) ∧
    (s.poison.any (fun u => u.1 == unit) = false → ∃ t, exec (.dataError unit) s = .next t ∧ poisoned t.poison (32 * unit) 1 = true ∧
      ((∀ g ∈ s.harts, g.pending = []) → t.mem = (s.hall { kind := 3, pa := 32 * unit }).mem)) ∧
    (let q := 8 * k + d
     let stays := 8 ≤ d ∨ 64 ≤ k ∨ (s.coreAt q).spared = true ∨ ∃ g ∈ s.gangs, g.core = q
     (stays → exec (.resourceRemoval (.core d k)) s = .next s) ∧
     (¬ stays → ∃ t, exec (.resourceRemoval (.core d k)) s = .next t ∧ (t.coreAt q).spared = true ∧
       bits (t.getMgmt (0x270000 + 8 * d)).toNat 6 0 = min (bits (s.getMgmt (0x270000 + 8 * d)).toNat 6 0 + 1) 127)) ∧
    (8 ≤ d → exec (.resourceRemoval (.way d)) s = .next s ∧ exec (.resourceRemoval (.row d)) s = .next s) ∧
    (d < 8 → (∃ t, exec (.resourceRemoval (.way d)) s = .next t ∧
        bits (t.getMgmt (0x270000 + 8 * d)).toNat 15 8 = min (bits (s.getMgmt (0x270000 + 8 * d)).toNat 15 8 + 1) 255) ∧
      ∃ t, exec (.resourceRemoval (.row d)) s = .next t ∧
        bits (t.getMgmt (0x270000 + 8 * d)).toNat 31 16 = min (bits (s.getMgmt (0x270000 + 8 * d)).toNat 31 16 + 1) 65535)

/-- What runs ahead of a hart. A fetch made ahead, or a lowering, begins a unit at the program counter, unless the hart goes through one there,
and, with nothing outstanding, changes of the hart nothing but that and XLSTAT; a fetch that faults leaves nothing. A page walk leaves what the
translation leaves, or nothing where it faults. A stream reads ahead without a change of its position. An absent plate is filled, and is then
clean with its valid length; any other is left alone, and a fill that faults traps with K = 4. XLSTAT counts a miss, and nothing else.
That a unit begins where the program counter does not follow inside the last one is the model's choice (DESIGN CHOICE, log 29). -/
def Obligations.RunAheadEvents : Prop :=
  ∀ (s : State) (k n : Nat) (fs : BitVec 4) (need : Access) (va : Word), s.power = true →
    (s.hartAt n = none → exec (.fetch n) s = .next s ∧ exec (.translationUnitLower n) s = .next s) ∧
    (∀ h, s.hartAt n = some h →
      (∀ f, s.fetchWord h h.pc = .error f → exec (.fetch n) s = .next s) ∧
      (∀ u w, s.fetchWord h h.pc = .ok (u, w) → exec (.fetch n) s = .next (u.lower h h.pc)) ∧
      (h.inUnit h.pc ≠ none → exec (.translationUnitLower n) s = .next s) ∧
      (∀ f, s.codeAt h h.pc = .error f → exec (.translationUnitLower n) s = .next s) ∧
      ∀ u loc, h.inUnit h.pc = none → s.codeAt h h.pc = .ok (u, loc) → ∃ t, exec (.translationUnitLower n) s = .next t ∧ t.mem = u.mem ∧
        (s.Quiet → ∃ h' p, t.hartAt n = some h' ∧ h' = { h with unit := some p, csr := h'.csr } ∧ p.here = h.pc ∧ p.next = h.pc ∧
          (∀ c, c ≠ 0xc13 → h'.getCsr c = h.getCsr c) ∧ (h'.getCsr 0xc13 = h.getCsr 0xc13 ∨
            (h'.getCsr 0xc13).toNat / 2 ^ 32 = min ((h.getCsr 0xc13).toNat / 2 ^ 32 + 1) (2 ^ 32 - 1)))) ∧
    (s.hart? = none → exec (.pageWalk va need) s = .next s ∧ exec (.plateFill k) s = .next s) ∧
    ∀ h, s.hart? = some h →
      (∀ f, s.translate h need va = .error f → exec (.pageWalk va need) s = .next s) ∧
      (∀ u loc, s.translate h need va = .ok (u, loc) → exec (.pageWalk va need) s = .next u) ∧
      (∃ t h', exec (.streamRunahead fs) s = .next t ∧ s.OnlyHart t ∧ t.hart? = some h' ∧ h' = { h with streams := h'.streams } ∧
        ∀ m, (find h'.streams m).map (fun x => { x with ahead := 0 }) = (find h.streams m).map (fun x => { x with ahead := 0 })) ∧
      ((h.plates.get k).toNat / 64 ≠ 1 → exec (.plateFill k) s = .next s) ∧
      ((h.plates.get k).toNat = 64 → ∃ t h', exec (.plateFill k) s = .next t ∧ s.OnlyHart t ∧ t.hart? = some h' ∧
        h' = { h with plane := h'.plane, plates := h'.plates } ∧ (h'.plates.get k).toNat = 128 ∧
        ∀ row col, col < 1024 → h'.plane.get (cellKey (row, col)) = if plateOf (row, col) = k then 0 else h.plane.get (cellKey (row, col))) ∧
      ((h.plates.get k).toNat / 64 = 1 → ∀ t, s.fillPlate h k = .ok t → exec (.plateFill k) s = .next t ∧ ∀ h', t.hart? = some h' →
        (h'.plates.get k).toNat = 128 + (h.plates.get k).toNat % 32) ∧
      ((h.plates.get k).toNat / 64 = 1 → ∀ f a, s.fillPlate h k = .error (f, a) →
        exec (.plateFill k) s = (s.memTrap h 4 f a 0 none none 128).outcome 4 ∧
        (f = 3 ∨ f = 4 → exec (.plateFill k) s = .next (s.takeTrap { code := 0x3040 + f, tva := a })))
end

