-- ==== Sys2Proof/Laws/Clock.lean ====
section
/-! SUPPORT. The bucket of a core over its cycles: only the gate moves it (R328, R330). -/

namespace Sys2Proof.Laws

open Sys2Proof Sys2Proof.Machine

/-- What the gate works on. -/
def bucket (c : CoreSt) : Nat × List Job × Nat × SMap 64 := (c.q, c.gate, c.level, c.csr)

@[simp] theorem bucket_countIdle (c : CoreSt) : bucket c.countIdle = bucket c := by
  unfold CoreSt.countIdle; split <;> rfl

@[simp] theorem bucket_count (c : CoreSt) : bucket c.count = bucket c := rfl

@[simp] theorem bucket_landTransit (c : CoreSt) : bucket c.landTransit = bucket c := rfl

@[simp] theorem bucket_wakeEngine (c : CoreSt) : bucket c.wakeEngine = bucket c := by
  unfold CoreSt.wakeEngine; split <;> [split <;> rfl; rfl]

@[simp] theorem bucket_gateEngine (c : CoreSt) : bucket c.gateEngine = bucket c := by
  unfold CoreSt.gateEngine; split <;> [(dsimp only; split <;> rfl); rfl]

@[simp] theorem bucket_wakeGroup (c : CoreSt) (n : Nat) : bucket (c.wakeGroup n) = bucket c := rfl

@[simp] theorem bucket_gateGroup (c : CoreSt) (n : Nat) : bucket (c.gateGroup n) = bucket c := rfl

@[simp] theorem bucket_issue (c : CoreSt) (j : Job) (on : Option Nat) (fused : Option (Nat × Nat)) :
    bucket (c.issue j on fused) = bucket c := rfl

@[simp] theorem bucket_fly (c : CoreSt) (j : TransitJob) : bucket (c.fly j) = bucket c := by
  unfold CoreSt.fly; dsimp only; cases j.kind <;> rfl

@[simp] theorem bucket_issueEntry (c : CoreSt) (i : Nat) (j : TransitJob) : bucket (c.issueEntry i j) = bucket c := by
  rw [← bucket_fly c j]; unfold CoreSt.issueEntry; dsimp only; split <;> rfl

@[simp] theorem bucket_issueReady (c : CoreSt) (d : DieSt) : bucket (c.issueReady d) = bucket c := by
  unfold CoreSt.issueReady; dsimp only
  split
  · rfl
  · rename_i i j _
    split
    · rename_i n k _
      exact (bucket_issueEntry (c.issueEntry n k) i j).trans (bucket_issueEntry c n k)
    · exact bucket_issueEntry c i j

@[simp] theorem bucket_transit1 (c : CoreSt) (d : DieSt) : bucket (c.transit1 d) = bucket c := by
  unfold CoreSt.transit1; split
  · rfl
  · split
    · rfl
    · split <;> rfl
    · simp

@[simp] theorem bucket_joinDrain (d n k : Nat) (p : Job) (c : CoreSt) : bucket (CoreSt.joinDrain d n k p c) = bucket c := by
  induction n generalizing k p c with
  | zero => rfl
  | succ n ih =>
    unfold CoreSt.joinDrain
    split
    · rfl
    · split
      · rw [ih]; rfl
      · rfl

@[simp] theorem bucket_runPass (c : CoreSt) (j : Job) : bucket (c.runPass j) = bucket c := by
  unfold CoreSt.runPass; dsimp only
  split <;> [exact bucket_joinDrain j.seq 4 1 j c; rfl]

/-- A fold of steps that keep the bucket keeps it. -/
theorem bucket_foldl {α : Type} (f : CoreSt → α → CoreSt) (hf : ∀ c a, bucket (f c a) = bucket c) (xs : List α) (c : CoreSt) :
    bucket (xs.foldl f c) = bucket c := by
  induction xs generalizing c with
  | nil => rfl
  | cons x xs ih => rw [List.foldl_cons, ih, hf]

@[simp] theorem bucket_runPasses (c : CoreSt) : bucket c.runPasses = bucket c := by
  unfold CoreSt.runPasses
  refine bucket_foldl _ (fun c slot => ?_) _ c
  split <;> simp

@[simp] theorem bucket_opened (c : CoreSt) : bucket c.opened = bucket c := by
  unfold CoreSt.opened; rw [bucket_foldl _ (fun c n => by simp)]; simp

@[simp] theorem bucket_work (c : CoreSt) (d : DieSt) : bucket (c.work d) = bucket c := by
  unfold CoreSt.work; rw [bucket_gateEngine, bucket_foldl _ (fun c n => by simp)]; simp

@[simp] theorem bucket_takeDrains (c : CoreSt) : bucket c.takeDrains = bucket c := rfl

@[simp] theorem bucket_relocked (c : CoreSt) : bucket c.relocked = bucket c := by
  unfold CoreSt.relocked; split <;> rfl

@[simp] theorem bucket_moveGroups (c : CoreSt) (ts : List (Nat × Nat)) : bucket (c.moveGroups ts) = bucket c := by
  unfold CoreSt.moveGroups; rfl

@[simp] theorem bucket_quieten (c : CoreSt) (n : Nat) : bucket (c.quieten n) = bucket c := by
  unfold CoreSt.quieten; split <;> rfl

@[simp] theorem bucket_stepEnd (c : CoreSt) (n : Nat) : bucket (c.stepEnd n) = bucket c := by
  unfold CoreSt.stepEnd; split
  · rfl
  · rename_i j _
    dsimp only
    refine Eq.trans (b := bucket (CoreSt.quieten _ n)) rfl ?_
    rw [bucket_quieten]; split <;> [rfl; split <;> rfl]

/-- A core without a waiting instruction, whose bucket leaks nothing that it holds. -/
def Calm (q level : Nat) (csr : SMap 64) (c : CoreSt) : Prop := bucket c = (q, [], level, csr)

theorem Calm.of_bucket {q level : Nat} {csr : SMap 64} {c d : CoreSt} (h : Calm q level csr c) (e : bucket d = bucket c) :
    Calm q level csr d := e.trans h

theorem Calm.gate1 {q level : Nat} {csr : SMap 64} {c : CoreSt} (h : Calm q level csr c)
    (hl : level - (csr.get 0xd41).toNat % 2 ^ 16 = level) : Calm q level csr c.gate1 := by
  simp only [Calm, bucket, Prod.mk.injEq] at h ⊢
  obtain ⟨hq, hg, hv, hc⟩ := h
  simpa [CoreSt.gate1, CoreSt.takeDrains, hg, hv, hc, hq, releaseJobs] using hl

/-! ### One core of a state -/

@[simp] theorem coreAt_q (s : State) (q : Nat) : (s.coreAt q).q = q := by
  unfold State.coreAt; split
  · rename_i c h; simpa using List.find?_some h
  · rfl

theorem coreAt_setCore (s : State) (c : CoreSt) (q : Nat) : (s.setCore c).coreAt q = if c.q = q then c else s.coreAt q := by
  unfold State.coreAt State.setCore
  by_cases h : c.q = q
  · simp [h]
  · have hf : (s.cores.filter (fun b => b.q != c.q)).find? (fun b => b.q == q) = s.cores.find? (fun b => b.q == q) := by
      induction s.cores with
      | nil => rfl
      | cons b bs ih =>
        by_cases hb : b.q = c.q
        · have hn : b.q ≠ q := fun e => h (hb.symm.trans e)
          simp [hb, ih, h]
        · by_cases hq : b.q = q <;> simp_all
    simp only [h, hf, List.find?_cons, beq_eq_false_iff_ne.mpr h, if_false]
    rfl

/-- A core changed, seen from a core. -/
theorem coreAt_updCore (s : State) (q p : Nat) (f : CoreSt → CoreSt) (hf : (f (s.coreAt q)).q = q) :
    (s.updCore q f).coreAt p = if q = p then f (s.coreAt q) else s.coreAt p := by
  unfold State.updCore; rw [coreAt_setCore, hf]

theorem Calm.updCore {level : Nat} {csr : SMap 64} {s : State} {p : Nat} (h : Calm p level csr (s.coreAt p)) (q : Nat)
    (f : CoreSt → CoreSt) (hq : (f (s.coreAt q)).q = q) (hf : ∀ c, c.q = p → Calm p level csr c → Calm p level csr (f c)) :
    Calm p level csr ((s.updCore q f).coreAt p) := by
  rw [coreAt_updCore s q p f hq]
  split
  · rename_i e; subst e; exact hf _ (coreAt_q s q) h
  · exact h

/-- A function that keeps the bucket keeps a core calm. -/
theorem Calm.updCore' {level : Nat} {csr : SMap 64} {s : State} {p : Nat} (h : Calm p level csr (s.coreAt p)) (q : Nat)
    (f : CoreSt → CoreSt) (hf : ∀ c, bucket (f c) = bucket c) : Calm p level csr ((s.updCore q f).coreAt p) :=
  h.updCore q f (by have := hf (s.coreAt q); simp only [bucket, Prod.mk.injEq] at this; simp [this.1]) (fun c _ hc => hc.of_bucket (hf c))

theorem Calm.decide1 {level : Nat} {csr : SMap 64} {s : State} {p : Nat} (h : Calm p level csr (s.coreAt p)) (g : Gang) :
    Calm p level csr ((s.decide1 g).coreAt p) := by
  unfold State.decide1; dsimp only; split
  · exact h
  · rename_i j on _; exact h.updCore' g.core (fun c => c.issue j on none) (fun c => by simp)

theorem Calm.sequence {level : Nat} {csr : SMap 64} {s : State} {p : Nat} (h : Calm p level csr (s.coreAt p)) (q : Nat) :
    Calm p level csr ((s.sequence q).coreAt p) := by
  unfold State.sequence; split
  · exact h
  · refine Calm.updCore' ?_ q (fun c => { c with decided := true }) (fun c => rfl)
    clear * - h
    generalize s.gangsOn q = gs
    induction gs generalizing s with
    | nil => exact h
    | cons g gs ih => exact ih (h.decide1 g)

theorem Calm.nextCycle {level : Nat} {csr : SMap 64} {s : State} {p : Nat} (h : Calm p level csr (s.coreAt p)) (q : Nat)
    (hl : level - (csr.get 0xd41).toNat % 2 ^ 16 = level) : Calm p level csr ((s.nextCycle q).coreAt p) := by
  unfold State.nextCycle; split
  · exact h
  · refine h.updCore q _ ?_ (fun c _ hc => ?_)
    · have e : ∀ c : CoreSt, c.gate1.q = c.q := fun c => rfl
      have e2 : ∀ (c : CoreSt) ts, (c.moveGroups ts).q = c.q := fun c ts => rfl
      dsimp only; rw [e, e2]
      have := congrArg Prod.fst (bucket_countIdle (s.coreAt q))
      exact this.trans (coreAt_q s q)
    · refine Calm.gate1 (hc.of_bucket ?_) hl
      rw [bucket_moveGroups]; exact (bucket_count _).trans (bucket_countIdle c)

theorem Calm.coreCycle {level : Nat} {csr : SMap 64} {s : State} {p : Nat} (h : Calm p level csr (s.coreAt p)) (q : Nat)
    (hl : level - (csr.get 0xd41).toNat % 2 ^ 16 = level) : Calm p level csr ((s.coreCycle q).coreAt p) := by
  unfold State.coreCycle; split
  · exact h.updCore' q _ bucket_relocked
  · exact (((h.updCore' q _ bucket_opened).sequence q).updCore' q _ (fun c => bucket_work c _)).nextCycle q hl

theorem Calm.catchUp {level : Nat} {csr : SMap 64} {p : Nat} (q time n : Nat) {s : State} (h : Calm p level csr (s.coreAt p))
    (hl : level - (csr.get 0xd41).toNat % 2 ^ 16 = level) : Calm p level csr ((s.catchUp q time n).coreAt p) := by
  induction n generalizing s with
  | zero => exact h
  | succ n ih => unfold State.catchUp; split <;> [exact h; exact ih (h.coreCycle q hl)]

theorem Calm.toBoundary {level : Nat} {csr : SMap 64} {p : Nat} (q time : Nat) {s : State} (h : Calm p level csr (s.coreAt p))
    (hl : level - (csr.get 0xd41).toNat % 2 ^ 16 = level) : Calm p level csr ((s.toBoundary q time).coreAt p) :=
  (h.catchUp q time _ hl).updCore' q _ bucket_opened

/-- A die changed leaves every core's bucket. -/
theorem bucket_coreAt_setDie (s : State) (d : DieSt) (p : Nat) : bucket ((s.setDie d).coreAt p) = bucket (s.coreAt p) := by
  unfold State.coreAt State.setDie
  dsimp only
  split <;> rfl

theorem Calm.setDie {level : Nat} {csr : SMap 64} {s : State} {p : Nat} (h : Calm p level csr (s.coreAt p)) (d : DieSt) :
    Calm p level csr ((s.setDie d).coreAt p) := h.of_bucket (bucket_coreAt_setDie s d p)

theorem Calm.startCores {level : Nat} {csr : SMap 64} {p : Nat} (d ptr n : Nat) (ks : List Nat) {s : State}
    (h : Calm p level csr (s.coreAt p)) : Calm p level csr ((startCores d ptr n ks s).coreAt p) := by
  induction ks generalizing n s with
  | nil => unfold Machine.startCores; exact h
  | cons k ks ih =>
    cases n with
    | zero => unfold Machine.startCores; exact h
    | succ n =>
      unfold Machine.startCores; dsimp only; split
      · exact ih n ((Calm.updCore' h _ (fun c => { c with slew := some 0, slewEmpty := 0 }) (fun c => rfl)).setDie _)
      · exact ih (n + 1) h

theorem Calm.slewBoundary {level : Nat} {csr : SMap 64} {s : State} {p : Nat} (h : Calm p level csr (s.coreAt p)) (d : Nat) : Calm p level csr ((s.slewBoundary d).coreAt p) := by
  unfold State.slewBoundary; dsimp only
  refine Calm.startCores _ _ _ _ ?_
  have key : ∀ f : CoreSt → CoreSt, (∀ c, bucket (f c) = bucket c) → Calm p level csr (({ s with cores := s.cores.map f } : State).coreAt p) := by
    intro f hf
    have hq : ∀ c, (f c).q = c.q := fun c => by simpa [bucket] using congrArg Prod.fst (hf c)
    have e : (s.cores.map f).find? (fun b => b.q == p) = (s.cores.find? (fun b => b.q == p)).map f := by
      rw [List.find?_map]; congr 2; funext c; simp [hq]
    unfold State.coreAt at h ⊢
    dsimp only
    rw [e]
    cases hc : s.cores.find? (fun b => b.q == p) with
    | none => rw [hc] at h; exact h
    | some c => rw [hc] at h; exact h.of_bucket (hf c)
  exact (key _ (fun c => by split <;> simp)).setDie _

theorem Calm.slewStep {level : Nat} {csr : SMap 64} {s : State} {p : Nat} (h : Calm p level csr (s.coreAt p)) (d : Nat)
    (hl : level - (csr.get 0xd41).toNat % 2 ^ 16 = level) : Calm p level csr ((s.slewStep d).coreAt p) := by
  unfold State.slewStep; dsimp only
  refine Calm.slewBoundary ?_ d
  generalize (s.dieAt d).boundary = t
  generalize (s.cores.filter (fun c => c.q % 8 == d)).map (fun c => c.q) = qs
  induction qs generalizing s with
  | nil => exact h
  | cons q qs ih => exact ih (h.toBoundary q t hl)

theorem Calm.boundaries {level : Nat} {csr : SMap 64} {p : Nat} (q n : Nat) {s : State} (h : Calm p level csr (s.coreAt p))
    (hl : level - (csr.get 0xd41).toNat % 2 ^ 16 = level) : Calm p level csr ((s.boundaries q n).coreAt p) := by
  induction n generalizing s with
  | zero => exact h
  | succ n ih => unfold State.boundaries; split <;> [exact h; exact ih (h.slewStep _ hl)]

/-- Whatever number of cycles passes, a calm core stays so. -/
theorem Calm.passTime {level : Nat} {csr : SMap 64} {s : State} {p : Nat} (h : Calm p level csr (s.coreAt p)) (q : Nat)
    (hl : level - (csr.get 0xd41).toNat % 2 ^ 16 = level) : Calm p level csr ((s.passTime q).coreAt p) := by
  unfold State.passTime
  generalize Config.cycles s.tick = n
  induction n generalizing s with
  | zero => exact h
  | succ n ih => unfold State.runCycles; exact ih ((Calm.boundaries q 7 h hl).coreCycle q hl)

end Sys2Proof.Laws
end

