-- ==== Sys2Proof/Laws/Decode.lean ====
section
/-! SUPPORT. Fields of the instruction formats, and when the decoder answers a term. -/

namespace Sys2Proof.Laws

open Sys2Proof

/-- A field that lies above the lower part of a word. -/
theorem field_above {a b : Nat} (x : BitVec a) (y : BitVec b) {s n : Nat} (h : b ≤ s) :
    (x ++ y).extractLsb' s n = x.extractLsb' (s - b) n := by
  ext i hi
  simp only [BitVec.getElem_extractLsb', BitVec.getLsbD_append]
  rw [if_neg (by omega)]
  congr 1
  omega

/-- A field that lies in the lower part of a word. -/
theorem field_below {a b : Nat} (x : BitVec a) (y : BitVec b) {s n : Nat} (h : s + n ≤ b) :
    (x ++ y).extractLsb' s n = y.extractLsb' s n := by
  ext i hi
  simp only [BitVec.getElem_extractLsb', BitVec.getLsbD_append]
  rw [if_pos (by omega)]

/-- A field that is a whole part. -/
theorem field_all {a : Nat} (x : BitVec a) : x.extractLsb' 0 a = x := by
  ext i hi
  simp [← BitVec.getLsbD_eq_getElem]

/-- A bit above the lower part of a word. -/
theorem bit_above {a b : Nat} (x : BitVec a) (y : BitVec b) {s : Nat} (h : b ≤ s) :
    (x ++ y).getLsbD s = x.getLsbD (s - b) := by
  simp only [BitVec.getLsbD_append]
  rw [if_neg (by omega)]

/-- A bit in the lower part of a word. -/
theorem bit_below {a b : Nat} (x : BitVec a) (y : BitVec b) {s : Nat} (h : s < b) :
    (x ++ y).getLsbD s = y.getLsbD s := by
  simp only [BitVec.getLsbD_append]
  rw [if_pos (by omega)]

/-- The two parts of a value put together. -/
theorem parts {n m : Nat} (x : BitVec (m + n)) : x.extractLsb' n m ++ x.extractLsb' 0 n = x := by
  ext i hi
  simp only [BitVec.getElem_append, BitVec.getElem_extractLsb']
  split
  · simp [← BitVec.getLsbD_eq_getElem]
  · rw [← BitVec.getLsbD_eq_getElem]
    congr 1
    omega

theorem parts_five (x : BitVec 10) : x.extractLsb' 5 5 ++ x.extractLsb' 0 5 = x := parts (n := 5) (m := 5) x

theorem parts_four (x : BitVec 8) : x.extractLsb' 4 4 ++ x.extractLsb' 0 4 = x := parts (n := 4) (m := 4) x

/-- The bit of a one-bit field. -/
theorem bit_ofBool (b : Bool) : (BitVec.ofBool b).getLsbD 0 = b := by cases b <;> rfl

/-- The decoder answers a well-formed term whose fields two words hold and whose encoding they are. -/
theorem decode_eq {i : Instr} {w v : IWord} (h : rawDecode w v = some i) (hw : i.wf = true)
    (he : encode i = wordsAt w v) : decode w v = some i := by
  simp [decode, h, hw, he]

/-- What the decoder answers is well formed, and the words are its encoding: no bit is ignored (R119). -/
theorem decode_sound {i : Instr} {w v : IWord} (h : decode w v = some i) : i.wf = true ∧ encode i = wordsAt w v := by
  unfold decode at h
  split at h
  · split at h
    · cases h
      simp_all
    · cases h
  · cases h

/-! ### The fields of each format -/

theorem fMajor_rWord (m : BitVec 6) (rd ra rb : XReg) (f : BitVec 11) : fMajor (rWord m rd ra rb f) = m := by
  simp (disch := decide) only [fMajor, rWord, field_above, field_all, Nat.reduceSub]

theorem fMajor_iWord (m : BitVec 6) (rd ra : XReg) (i : BitVec 16) : fMajor (iWord m rd ra i) = m := by
  simp (disch := decide) only [fMajor, iWord, field_above, field_all, Nat.reduceSub]

theorem fMajor_mWord (m r : BitVec 6) (b : XReg) (o : BitVec 12) (z : BitVec 3) : fMajor (mWord m r b o z) = m := by
  simp (disch := decide) only [fMajor, mWord, field_above, field_all, Nat.reduceSub]

theorem fMajor_jWord (m : BitVec 6) (d : BitVec 26) : fMajor (jWord m d) = m := by
  simp (disch := decide) only [fMajor, jWord, field_above, field_all, Nat.reduceSub]

theorem fMajor_lWord (x : BitVec 12) (g : KReg) (s : Bool) (f : BitVec 10) : fMajor (lWord x g s f) = 0x3e#6 := by
  simp (disch := decide) only [fMajor, lWord, field_above, field_all, Nat.reduceSub]

theorem fMajor_pWord (g : KReg) (s : Bool) (p : BitVec 22) : fMajor (pWord g s p) = 0x3f#6 := by
  simp (disch := decide) only [fMajor, pWord, field_above, field_all, Nat.reduceSub]

theorem fXop_lWord (x : BitVec 12) (g : KReg) (s : Bool) (f : BitVec 10) : fXop (lWord x g s f) = x := by
  simp (disch := decide) only [fXop, lWord, field_above, field_below, field_all, Nat.reduceSub]

theorem rawDecode_lWord (x : BitVec 12) (g : KReg) (s : Bool) (f : BitVec 10) (v : IWord) :
    rawDecode (lWord x g s f) v = rawL (lWord x g s f) v := by
  rw [rawDecode, fMajor_lWord]
  rfl

/-- An A-format operation's codes name it. -/
theorem ofCode_code (op : AOp) : AOp.ofCode op.code.1.toNat op.code.2.toNat = some op := by cases op <;> rfl

/-- The fields of a half's word are the half. -/
theorem ofWord_word (h : AHalf) (mask : BitVec 2) : AHalf.ofWord (h.word mask) = some h := by
  simp (disch := decide) only [AHalf.ofWord, AHalf.word, fMajor, fAFunc, fApd, fApa, fApb, aWord, field_above, field_below,
    field_all, Nat.reduceSub, ofCode_code]

/-- The guard field of a half's word. -/
theorem fMask_word (h : AHalf) (mask : BitVec 2) : fMask (h.word mask) = mask := by
  simp (disch := decide) only [AHalf.word, fMask, aWord, field_below, field_all]

/-- The major opcode of a half's word. -/
theorem fMajor_word (h : AHalf) (mask : BitVec 2) : fMajor (h.word mask) = h.op.code.1 := by
  simp (disch := decide) only [AHalf.word, fMajor, aWord, field_above, field_all, Nat.reduceSub]

/-- A mask register's field names it. -/
theorem kOfField_kField (k : KReg) : kOfField (kField k) = k := by
  simp (disch := decide) only [kOfField, kField, field_below, field_all]

/-- A scalar half's field is the half. -/
theorem ofSop_sop (s : PairScalar) : PairScalar.ofSop s.sop = some s := by
  cases s with
  | nop => rfl
  | reg op rd ra rb =>
    cases op <;> simp (disch := decide) only [PairScalar.ofSop, PairScalar.sop, PairOp.code, field_above, field_below,
      field_all, Nat.reduceSub, BitVec.reduceToNat]
  | imm op rd ra n =>
    cases op <;> simp (disch := decide) only [PairScalar.ofSop, PairScalar.sop, PairImm.code, field_above, field_below,
      field_all, Nat.reduceSub, BitVec.reduceToNat]

end Sys2Proof.Laws
end

