-- ==== Sys2Proof/Laws/State.lean ====
section
/-! SUPPORT. One lemma for each field of an update of the state or of a hart: no later proof unfolds an update. -/

namespace Sys2Proof.Machine

open Sys2Proof

/-! ### State.updHartAt -/

@[simp] theorem State.updHartAt_cur (s : State) (hid : Nat) (f : Hart → Hart) :
    (s.updHartAt hid f).cur = s.cur := rfl
@[simp] theorem State.updHartAt_harts (s : State) (hid : Nat) (f : Hart → Hart) :
    (s.updHartAt hid f).harts = s.harts.map (fun g => if g.hid == hid then f g else g) := rfl
@[simp] theorem State.updHartAt_gangs (s : State) (hid : Nat) (f : Hart → Hart) :
    (s.updHartAt hid f).gangs = s.gangs := rfl
@[simp] theorem State.updHartAt_launches (s : State) (hid : Nat) (f : Hart → Hart) :
    (s.updHartAt hid f).launches = s.launches := rfl
@[simp] theorem State.updHartAt_cores (s : State) (hid : Nat) (f : Hart → Hart) :
    (s.updHartAt hid f).cores = s.cores := rfl
@[simp] theorem State.updHartAt_dies (s : State) (hid : Nat) (f : Hart → Hart) :
    (s.updHartAt hid f).dies = s.dies := rfl
@[simp] theorem State.updHartAt_mem (s : State) (hid : Nat) (f : Hart → Hart) :
    (s.updHartAt hid f).mem = s.mem := rfl
@[simp] theorem State.updHartAt_poison (s : State) (hid : Nat) (f : Hart → Hart) :
    (s.updHartAt hid f).poison = s.poison := rfl
@[simp] theorem State.updHartAt_history (s : State) (hid : Nat) (f : Hart → Hart) :
    (s.updHartAt hid f).history = s.history := rfl
@[simp] theorem State.updHartAt_consts (s : State) (hid : Nat) (f : Hart → Hart) :
    (s.updHartAt hid f).consts = s.consts := rfl
@[simp] theorem State.updHartAt_tlb (s : State) (hid : Nat) (f : Hart → Hart) :
    (s.updHartAt hid f).tlb = s.tlb := rfl
@[simp] theorem State.updHartAt_mgmt (s : State) (hid : Nat) (f : Hart → Hart) :
    (s.updHartAt hid f).mgmt = s.mgmt := rfl
@[simp] theorem State.updHartAt_candidate (s : State) (hid : Nat) (f : Hart → Hart) :
    (s.updHartAt hid f).candidate = s.candidate := rfl
@[simp] theorem State.updHartAt_accepted (s : State) (hid : Nat) (f : Hart → Hart) :
    (s.updHartAt hid f).accepted = s.accepted := rfl
@[simp] theorem State.updHartAt_next (s : State) (hid : Nat) (f : Hart → Hart) :
    (s.updHartAt hid f).next = s.next := rfl
@[simp] theorem State.updHartAt_engines (s : State) (hid : Nat) (f : Hart → Hart) :
    (s.updHartAt hid f).engines = s.engines := rfl
@[simp] theorem State.updHartAt_engineId (s : State) (hid : Nat) (f : Hart → Hart) :
    (s.updHartAt hid f).engineId = s.engineId := rfl
@[simp] theorem State.updHartAt_tokens (s : State) (hid : Nat) (f : Hart → Hart) :
    (s.updHartAt hid f).tokens = s.tokens := rfl
@[simp] theorem State.updHartAt_tracks (s : State) (hid : Nat) (f : Hart → Hart) :
    (s.updHartAt hid f).tracks = s.tracks := rfl
@[simp] theorem State.updHartAt_portsDown (s : State) (hid : Nat) (f : Hart → Hart) :
    (s.updHartAt hid f).portsDown = s.portsDown := rfl
@[simp] theorem State.updHartAt_portRetry (s : State) (hid : Nat) (f : Hart → Hart) :
    (s.updHartAt hid f).portRetry = s.portRetry := rfl
@[simp] theorem State.updHartAt_ucie (s : State) (hid : Nat) (f : Hart → Hart) :
    (s.updHartAt hid f).ucie = s.ucie := rfl
@[simp] theorem State.updHartAt_rotQueue (s : State) (hid : Nat) (f : Hart → Hart) :
    (s.updHartAt hid f).rotQueue = s.rotQueue := rfl
@[simp] theorem State.updHartAt_doe (s : State) (hid : Nat) (f : Hart → Hart) :
    (s.updHartAt hid f).doe = s.doe := rfl
@[simp] theorem State.updHartAt_images (s : State) (hid : Nat) (f : Hart → Hart) :
    (s.updHartAt hid f).images = s.images := rfl
@[simp] theorem State.updHartAt_firmware (s : State) (hid : Nat) (f : Hart → Hart) :
    (s.updHartAt hid f).firmware = s.firmware := rfl
@[simp] theorem State.updHartAt_mdas (s : State) (hid : Nat) (f : Hart → Hart) :
    (s.updHartAt hid f).mdas = s.mdas := rfl
@[simp] theorem State.updHartAt_hostData (s : State) (hid : Nat) (f : Hart → Hart) :
    (s.updHartAt hid f).hostData = s.hostData := rfl
@[simp] theorem State.updHartAt_power (s : State) (hid : Nat) (f : Hart → Hart) :
    (s.updHartAt hid f).power = s.power := rfl
@[simp] theorem State.updHartAt_inbox (s : State) (hid : Nat) (f : Hart → Hart) :
    (s.updHartAt hid f).inbox = s.inbox := rfl
@[simp] theorem State.updHartAt_tick (s : State) (hid : Nat) (f : Hart → Hart) :
    (s.updHartAt hid f).tick = s.tick := rfl

/-! ### State.updHart -/

@[simp] theorem State.updHart_cur (s : State) (f : Hart → Hart) :
    (s.updHart f).cur = s.cur := rfl
@[simp] theorem State.updHart_harts (s : State) (f : Hart → Hart) :
    (s.updHart f).harts = s.harts.map (fun g => if g.hid == s.cur then f g else g) := rfl
@[simp] theorem State.updHart_gangs (s : State) (f : Hart → Hart) :
    (s.updHart f).gangs = s.gangs := rfl
@[simp] theorem State.updHart_launches (s : State) (f : Hart → Hart) :
    (s.updHart f).launches = s.launches := rfl
@[simp] theorem State.updHart_cores (s : State) (f : Hart → Hart) :
    (s.updHart f).cores = s.cores := rfl
@[simp] theorem State.updHart_dies (s : State) (f : Hart → Hart) :
    (s.updHart f).dies = s.dies := rfl
@[simp] theorem State.updHart_mem (s : State) (f : Hart → Hart) :
    (s.updHart f).mem = s.mem := rfl
@[simp] theorem State.updHart_poison (s : State) (f : Hart → Hart) :
    (s.updHart f).poison = s.poison := rfl
@[simp] theorem State.updHart_history (s : State) (f : Hart → Hart) :
    (s.updHart f).history = s.history := rfl
@[simp] theorem State.updHart_consts (s : State) (f : Hart → Hart) :
    (s.updHart f).consts = s.consts := rfl
@[simp] theorem State.updHart_tlb (s : State) (f : Hart → Hart) :
    (s.updHart f).tlb = s.tlb := rfl
@[simp] theorem State.updHart_mgmt (s : State) (f : Hart → Hart) :
    (s.updHart f).mgmt = s.mgmt := rfl
@[simp] theorem State.updHart_candidate (s : State) (f : Hart → Hart) :
    (s.updHart f).candidate = s.candidate := rfl
@[simp] theorem State.updHart_accepted (s : State) (f : Hart → Hart) :
    (s.updHart f).accepted = s.accepted := rfl
@[simp] theorem State.updHart_next (s : State) (f : Hart → Hart) :
    (s.updHart f).next = s.next := rfl
@[simp] theorem State.updHart_engines (s : State) (f : Hart → Hart) :
    (s.updHart f).engines = s.engines := rfl
@[simp] theorem State.updHart_engineId (s : State) (f : Hart → Hart) :
    (s.updHart f).engineId = s.engineId := rfl
@[simp] theorem State.updHart_tokens (s : State) (f : Hart → Hart) :
    (s.updHart f).tokens = s.tokens := rfl
@[simp] theorem State.updHart_tracks (s : State) (f : Hart → Hart) :
    (s.updHart f).tracks = s.tracks := rfl
@[simp] theorem State.updHart_portsDown (s : State) (f : Hart → Hart) :
    (s.updHart f).portsDown = s.portsDown := rfl
@[simp] theorem State.updHart_portRetry (s : State) (f : Hart → Hart) :
    (s.updHart f).portRetry = s.portRetry := rfl
@[simp] theorem State.updHart_ucie (s : State) (f : Hart → Hart) :
    (s.updHart f).ucie = s.ucie := rfl
@[simp] theorem State.updHart_rotQueue (s : State) (f : Hart → Hart) :
    (s.updHart f).rotQueue = s.rotQueue := rfl
@[simp] theorem State.updHart_doe (s : State) (f : Hart → Hart) :
    (s.updHart f).doe = s.doe := rfl
@[simp] theorem State.updHart_images (s : State) (f : Hart → Hart) :
    (s.updHart f).images = s.images := rfl
@[simp] theorem State.updHart_firmware (s : State) (f : Hart → Hart) :
    (s.updHart f).firmware = s.firmware := rfl
@[simp] theorem State.updHart_mdas (s : State) (f : Hart → Hart) :
    (s.updHart f).mdas = s.mdas := rfl
@[simp] theorem State.updHart_hostData (s : State) (f : Hart → Hart) :
    (s.updHart f).hostData = s.hostData := rfl
@[simp] theorem State.updHart_power (s : State) (f : Hart → Hart) :
    (s.updHart f).power = s.power := rfl
@[simp] theorem State.updHart_inbox (s : State) (f : Hart → Hart) :
    (s.updHart f).inbox = s.inbox := rfl
@[simp] theorem State.updHart_tick (s : State) (f : Hart → Hart) :
    (s.updHart f).tick = s.tick := rfl

/-! ### State.setHart -/

@[simp] theorem State.setHart_cur (s : State) (h : Hart) :
    (s.setHart h).cur = s.cur := rfl
@[simp] theorem State.setHart_harts (s : State) (h : Hart) :
    (s.setHart h).harts = s.harts.map (fun g => if g.hid == s.cur then { h with pending := g.pending, landed := g.landed, landedFlags := g.landedFlags, engineFaults := g.engineFaults } else g) := rfl
@[simp] theorem State.setHart_gangs (s : State) (h : Hart) :
    (s.setHart h).gangs = s.gangs := rfl
@[simp] theorem State.setHart_launches (s : State) (h : Hart) :
    (s.setHart h).launches = s.launches := rfl
@[simp] theorem State.setHart_cores (s : State) (h : Hart) :
    (s.setHart h).cores = s.cores := rfl
@[simp] theorem State.setHart_dies (s : State) (h : Hart) :
    (s.setHart h).dies = s.dies := rfl
@[simp] theorem State.setHart_mem (s : State) (h : Hart) :
    (s.setHart h).mem = s.mem := rfl
@[simp] theorem State.setHart_poison (s : State) (h : Hart) :
    (s.setHart h).poison = s.poison := rfl
@[simp] theorem State.setHart_history (s : State) (h : Hart) :
    (s.setHart h).history = s.history := rfl
@[simp] theorem State.setHart_consts (s : State) (h : Hart) :
    (s.setHart h).consts = s.consts := rfl
@[simp] theorem State.setHart_tlb (s : State) (h : Hart) :
    (s.setHart h).tlb = s.tlb := rfl
@[simp] theorem State.setHart_mgmt (s : State) (h : Hart) :
    (s.setHart h).mgmt = s.mgmt := rfl
@[simp] theorem State.setHart_candidate (s : State) (h : Hart) :
    (s.setHart h).candidate = s.candidate := rfl
@[simp] theorem State.setHart_accepted (s : State) (h : Hart) :
    (s.setHart h).accepted = s.accepted := rfl
@[simp] theorem State.setHart_next (s : State) (h : Hart) :
    (s.setHart h).next = s.next := rfl
@[simp] theorem State.setHart_engines (s : State) (h : Hart) :
    (s.setHart h).engines = s.engines := rfl
@[simp] theorem State.setHart_engineId (s : State) (h : Hart) :
    (s.setHart h).engineId = s.engineId := rfl
@[simp] theorem State.setHart_tokens (s : State) (h : Hart) :
    (s.setHart h).tokens = s.tokens := rfl
@[simp] theorem State.setHart_tracks (s : State) (h : Hart) :
    (s.setHart h).tracks = s.tracks := rfl
@[simp] theorem State.setHart_portsDown (s : State) (h : Hart) :
    (s.setHart h).portsDown = s.portsDown := rfl
@[simp] theorem State.setHart_portRetry (s : State) (h : Hart) :
    (s.setHart h).portRetry = s.portRetry := rfl
@[simp] theorem State.setHart_ucie (s : State) (h : Hart) :
    (s.setHart h).ucie = s.ucie := rfl
@[simp] theorem State.setHart_rotQueue (s : State) (h : Hart) :
    (s.setHart h).rotQueue = s.rotQueue := rfl
@[simp] theorem State.setHart_doe (s : State) (h : Hart) :
    (s.setHart h).doe = s.doe := rfl
@[simp] theorem State.setHart_images (s : State) (h : Hart) :
    (s.setHart h).images = s.images := rfl
@[simp] theorem State.setHart_firmware (s : State) (h : Hart) :
    (s.setHart h).firmware = s.firmware := rfl
@[simp] theorem State.setHart_mdas (s : State) (h : Hart) :
    (s.setHart h).mdas = s.mdas := rfl
@[simp] theorem State.setHart_hostData (s : State) (h : Hart) :
    (s.setHart h).hostData = s.hostData := rfl
@[simp] theorem State.setHart_power (s : State) (h : Hart) :
    (s.setHart h).power = s.power := rfl
@[simp] theorem State.setHart_inbox (s : State) (h : Hart) :
    (s.setHart h).inbox = s.inbox := rfl
@[simp] theorem State.setHart_tick (s : State) (h : Hart) :
    (s.setHart h).tick = s.tick := rfl

/-! ### State.setGang -/

@[simp] theorem State.setGang_cur (s : State) (g : Gang) :
    (s.setGang g).cur = s.cur := rfl
@[simp] theorem State.setGang_harts (s : State) (g : Gang) :
    (s.setGang g).harts = s.harts := rfl
@[simp] theorem State.setGang_gangs (s : State) (g : Gang) :
    (s.setGang g).gangs = s.gangs.map (fun f => if f.core == g.core && f.slot == g.slot then g else f) := rfl
@[simp] theorem State.setGang_launches (s : State) (g : Gang) :
    (s.setGang g).launches = s.launches := rfl
@[simp] theorem State.setGang_cores (s : State) (g : Gang) :
    (s.setGang g).cores = s.cores := rfl
@[simp] theorem State.setGang_dies (s : State) (g : Gang) :
    (s.setGang g).dies = s.dies := rfl
@[simp] theorem State.setGang_mem (s : State) (g : Gang) :
    (s.setGang g).mem = s.mem := rfl
@[simp] theorem State.setGang_poison (s : State) (g : Gang) :
    (s.setGang g).poison = s.poison := rfl
@[simp] theorem State.setGang_history (s : State) (g : Gang) :
    (s.setGang g).history = s.history := rfl
@[simp] theorem State.setGang_consts (s : State) (g : Gang) :
    (s.setGang g).consts = s.consts := rfl
@[simp] theorem State.setGang_tlb (s : State) (g : Gang) :
    (s.setGang g).tlb = s.tlb := rfl
@[simp] theorem State.setGang_mgmt (s : State) (g : Gang) :
    (s.setGang g).mgmt = s.mgmt := rfl
@[simp] theorem State.setGang_candidate (s : State) (g : Gang) :
    (s.setGang g).candidate = s.candidate := rfl
@[simp] theorem State.setGang_accepted (s : State) (g : Gang) :
    (s.setGang g).accepted = s.accepted := rfl
@[simp] theorem State.setGang_next (s : State) (g : Gang) :
    (s.setGang g).next = s.next := rfl
@[simp] theorem State.setGang_engines (s : State) (g : Gang) :
    (s.setGang g).engines = s.engines := rfl
@[simp] theorem State.setGang_engineId (s : State) (g : Gang) :
    (s.setGang g).engineId = s.engineId := rfl
@[simp] theorem State.setGang_tokens (s : State) (g : Gang) :
    (s.setGang g).tokens = s.tokens := rfl
@[simp] theorem State.setGang_tracks (s : State) (g : Gang) :
    (s.setGang g).tracks = s.tracks := rfl
@[simp] theorem State.setGang_portsDown (s : State) (g : Gang) :
    (s.setGang g).portsDown = s.portsDown := rfl
@[simp] theorem State.setGang_portRetry (s : State) (g : Gang) :
    (s.setGang g).portRetry = s.portRetry := rfl
@[simp] theorem State.setGang_ucie (s : State) (g : Gang) :
    (s.setGang g).ucie = s.ucie := rfl
@[simp] theorem State.setGang_rotQueue (s : State) (g : Gang) :
    (s.setGang g).rotQueue = s.rotQueue := rfl
@[simp] theorem State.setGang_doe (s : State) (g : Gang) :
    (s.setGang g).doe = s.doe := rfl
@[simp] theorem State.setGang_images (s : State) (g : Gang) :
    (s.setGang g).images = s.images := rfl
@[simp] theorem State.setGang_firmware (s : State) (g : Gang) :
    (s.setGang g).firmware = s.firmware := rfl
@[simp] theorem State.setGang_mdas (s : State) (g : Gang) :
    (s.setGang g).mdas = s.mdas := rfl
@[simp] theorem State.setGang_hostData (s : State) (g : Gang) :
    (s.setGang g).hostData = s.hostData := rfl
@[simp] theorem State.setGang_power (s : State) (g : Gang) :
    (s.setGang g).power = s.power := rfl
@[simp] theorem State.setGang_inbox (s : State) (g : Gang) :
    (s.setGang g).inbox = s.inbox := rfl
@[simp] theorem State.setGang_tick (s : State) (g : Gang) :
    (s.setGang g).tick = s.tick := rfl

/-! ### State.updLaunch -/

@[simp] theorem State.updLaunch_cur (s : State) (acc : Nat) (f : Launch → Launch) :
    (s.updLaunch acc f).cur = s.cur := rfl
@[simp] theorem State.updLaunch_harts (s : State) (acc : Nat) (f : Launch → Launch) :
    (s.updLaunch acc f).harts = s.harts := rfl
@[simp] theorem State.updLaunch_gangs (s : State) (acc : Nat) (f : Launch → Launch) :
    (s.updLaunch acc f).gangs = s.gangs := rfl
@[simp] theorem State.updLaunch_launches (s : State) (acc : Nat) (f : Launch → Launch) :
    (s.updLaunch acc f).launches = s.launches.map (fun l => if l.acc == acc then f l else l) := rfl
@[simp] theorem State.updLaunch_cores (s : State) (acc : Nat) (f : Launch → Launch) :
    (s.updLaunch acc f).cores = s.cores := rfl
@[simp] theorem State.updLaunch_dies (s : State) (acc : Nat) (f : Launch → Launch) :
    (s.updLaunch acc f).dies = s.dies := rfl
@[simp] theorem State.updLaunch_mem (s : State) (acc : Nat) (f : Launch → Launch) :
    (s.updLaunch acc f).mem = s.mem := rfl
@[simp] theorem State.updLaunch_poison (s : State) (acc : Nat) (f : Launch → Launch) :
    (s.updLaunch acc f).poison = s.poison := rfl
@[simp] theorem State.updLaunch_history (s : State) (acc : Nat) (f : Launch → Launch) :
    (s.updLaunch acc f).history = s.history := rfl
@[simp] theorem State.updLaunch_consts (s : State) (acc : Nat) (f : Launch → Launch) :
    (s.updLaunch acc f).consts = s.consts := rfl
@[simp] theorem State.updLaunch_tlb (s : State) (acc : Nat) (f : Launch → Launch) :
    (s.updLaunch acc f).tlb = s.tlb := rfl
@[simp] theorem State.updLaunch_mgmt (s : State) (acc : Nat) (f : Launch → Launch) :
    (s.updLaunch acc f).mgmt = s.mgmt := rfl
@[simp] theorem State.updLaunch_candidate (s : State) (acc : Nat) (f : Launch → Launch) :
    (s.updLaunch acc f).candidate = s.candidate := rfl
@[simp] theorem State.updLaunch_accepted (s : State) (acc : Nat) (f : Launch → Launch) :
    (s.updLaunch acc f).accepted = s.accepted := rfl
@[simp] theorem State.updLaunch_next (s : State) (acc : Nat) (f : Launch → Launch) :
    (s.updLaunch acc f).next = s.next := rfl
@[simp] theorem State.updLaunch_engines (s : State) (acc : Nat) (f : Launch → Launch) :
    (s.updLaunch acc f).engines = s.engines := rfl
@[simp] theorem State.updLaunch_engineId (s : State) (acc : Nat) (f : Launch → Launch) :
    (s.updLaunch acc f).engineId = s.engineId := rfl
@[simp] theorem State.updLaunch_tokens (s : State) (acc : Nat) (f : Launch → Launch) :
    (s.updLaunch acc f).tokens = s.tokens := rfl
@[simp] theorem State.updLaunch_tracks (s : State) (acc : Nat) (f : Launch → Launch) :
    (s.updLaunch acc f).tracks = s.tracks := rfl
@[simp] theorem State.updLaunch_portsDown (s : State) (acc : Nat) (f : Launch → Launch) :
    (s.updLaunch acc f).portsDown = s.portsDown := rfl
@[simp] theorem State.updLaunch_portRetry (s : State) (acc : Nat) (f : Launch → Launch) :
    (s.updLaunch acc f).portRetry = s.portRetry := rfl
@[simp] theorem State.updLaunch_ucie (s : State) (acc : Nat) (f : Launch → Launch) :
    (s.updLaunch acc f).ucie = s.ucie := rfl
@[simp] theorem State.updLaunch_rotQueue (s : State) (acc : Nat) (f : Launch → Launch) :
    (s.updLaunch acc f).rotQueue = s.rotQueue := rfl
@[simp] theorem State.updLaunch_doe (s : State) (acc : Nat) (f : Launch → Launch) :
    (s.updLaunch acc f).doe = s.doe := rfl
@[simp] theorem State.updLaunch_images (s : State) (acc : Nat) (f : Launch → Launch) :
    (s.updLaunch acc f).images = s.images := rfl
@[simp] theorem State.updLaunch_firmware (s : State) (acc : Nat) (f : Launch → Launch) :
    (s.updLaunch acc f).firmware = s.firmware := rfl
@[simp] theorem State.updLaunch_mdas (s : State) (acc : Nat) (f : Launch → Launch) :
    (s.updLaunch acc f).mdas = s.mdas := rfl
@[simp] theorem State.updLaunch_hostData (s : State) (acc : Nat) (f : Launch → Launch) :
    (s.updLaunch acc f).hostData = s.hostData := rfl
@[simp] theorem State.updLaunch_power (s : State) (acc : Nat) (f : Launch → Launch) :
    (s.updLaunch acc f).power = s.power := rfl
@[simp] theorem State.updLaunch_inbox (s : State) (acc : Nat) (f : Launch → Launch) :
    (s.updLaunch acc f).inbox = s.inbox := rfl
@[simp] theorem State.updLaunch_tick (s : State) (acc : Nat) (f : Launch → Launch) :
    (s.updLaunch acc f).tick = s.tick := rfl

/-! ### State.setCore -/

@[simp] theorem State.setCore_cur (s : State) (c : CoreSt) :
    (s.setCore c).cur = s.cur := rfl
@[simp] theorem State.setCore_harts (s : State) (c : CoreSt) :
    (s.setCore c).harts = s.harts := rfl
@[simp] theorem State.setCore_gangs (s : State) (c : CoreSt) :
    (s.setCore c).gangs = s.gangs := rfl
@[simp] theorem State.setCore_launches (s : State) (c : CoreSt) :
    (s.setCore c).launches = s.launches := rfl
@[simp] theorem State.setCore_cores (s : State) (c : CoreSt) :
    (s.setCore c).cores = c :: s.cores.filter (fun b => b.q != c.q) := rfl
@[simp] theorem State.setCore_dies (s : State) (c : CoreSt) :
    (s.setCore c).dies = s.dies := rfl
@[simp] theorem State.setCore_mem (s : State) (c : CoreSt) :
    (s.setCore c).mem = s.mem := rfl
@[simp] theorem State.setCore_poison (s : State) (c : CoreSt) :
    (s.setCore c).poison = s.poison := rfl
@[simp] theorem State.setCore_history (s : State) (c : CoreSt) :
    (s.setCore c).history = s.history := rfl
@[simp] theorem State.setCore_consts (s : State) (c : CoreSt) :
    (s.setCore c).consts = s.consts := rfl
@[simp] theorem State.setCore_tlb (s : State) (c : CoreSt) :
    (s.setCore c).tlb = s.tlb := rfl
@[simp] theorem State.setCore_mgmt (s : State) (c : CoreSt) :
    (s.setCore c).mgmt = s.mgmt := rfl
@[simp] theorem State.setCore_candidate (s : State) (c : CoreSt) :
    (s.setCore c).candidate = s.candidate := rfl
@[simp] theorem State.setCore_accepted (s : State) (c : CoreSt) :
    (s.setCore c).accepted = s.accepted := rfl
@[simp] theorem State.setCore_next (s : State) (c : CoreSt) :
    (s.setCore c).next = s.next := rfl
@[simp] theorem State.setCore_engines (s : State) (c : CoreSt) :
    (s.setCore c).engines = s.engines := rfl
@[simp] theorem State.setCore_engineId (s : State) (c : CoreSt) :
    (s.setCore c).engineId = s.engineId := rfl
@[simp] theorem State.setCore_tokens (s : State) (c : CoreSt) :
    (s.setCore c).tokens = s.tokens := rfl
@[simp] theorem State.setCore_tracks (s : State) (c : CoreSt) :
    (s.setCore c).tracks = s.tracks := rfl
@[simp] theorem State.setCore_portsDown (s : State) (c : CoreSt) :
    (s.setCore c).portsDown = s.portsDown := rfl
@[simp] theorem State.setCore_portRetry (s : State) (c : CoreSt) :
    (s.setCore c).portRetry = s.portRetry := rfl
@[simp] theorem State.setCore_ucie (s : State) (c : CoreSt) :
    (s.setCore c).ucie = s.ucie := rfl
@[simp] theorem State.setCore_rotQueue (s : State) (c : CoreSt) :
    (s.setCore c).rotQueue = s.rotQueue := rfl
@[simp] theorem State.setCore_doe (s : State) (c : CoreSt) :
    (s.setCore c).doe = s.doe := rfl
@[simp] theorem State.setCore_images (s : State) (c : CoreSt) :
    (s.setCore c).images = s.images := rfl
@[simp] theorem State.setCore_firmware (s : State) (c : CoreSt) :
    (s.setCore c).firmware = s.firmware := rfl
@[simp] theorem State.setCore_mdas (s : State) (c : CoreSt) :
    (s.setCore c).mdas = s.mdas := rfl
@[simp] theorem State.setCore_hostData (s : State) (c : CoreSt) :
    (s.setCore c).hostData = s.hostData := rfl
@[simp] theorem State.setCore_power (s : State) (c : CoreSt) :
    (s.setCore c).power = s.power := rfl
@[simp] theorem State.setCore_inbox (s : State) (c : CoreSt) :
    (s.setCore c).inbox = s.inbox := rfl
@[simp] theorem State.setCore_tick (s : State) (c : CoreSt) :
    (s.setCore c).tick = s.tick := rfl

/-! ### State.updCore -/

@[simp] theorem State.updCore_cur (s : State) (q : Nat) (f : CoreSt → CoreSt) :
    (s.updCore q f).cur = s.cur := rfl
@[simp] theorem State.updCore_harts (s : State) (q : Nat) (f : CoreSt → CoreSt) :
    (s.updCore q f).harts = s.harts := rfl
@[simp] theorem State.updCore_gangs (s : State) (q : Nat) (f : CoreSt → CoreSt) :
    (s.updCore q f).gangs = s.gangs := rfl
@[simp] theorem State.updCore_launches (s : State) (q : Nat) (f : CoreSt → CoreSt) :
    (s.updCore q f).launches = s.launches := rfl
@[simp] theorem State.updCore_cores (s : State) (q : Nat) (f : CoreSt → CoreSt) :
    (s.updCore q f).cores = f (s.coreAt q) :: s.cores.filter (fun b => b.q != (f (s.coreAt q)).q) := rfl
@[simp] theorem State.updCore_dies (s : State) (q : Nat) (f : CoreSt → CoreSt) :
    (s.updCore q f).dies = s.dies := rfl
@[simp] theorem State.updCore_mem (s : State) (q : Nat) (f : CoreSt → CoreSt) :
    (s.updCore q f).mem = s.mem := rfl
@[simp] theorem State.updCore_poison (s : State) (q : Nat) (f : CoreSt → CoreSt) :
    (s.updCore q f).poison = s.poison := rfl
@[simp] theorem State.updCore_history (s : State) (q : Nat) (f : CoreSt → CoreSt) :
    (s.updCore q f).history = s.history := rfl
@[simp] theorem State.updCore_consts (s : State) (q : Nat) (f : CoreSt → CoreSt) :
    (s.updCore q f).consts = s.consts := rfl
@[simp] theorem State.updCore_tlb (s : State) (q : Nat) (f : CoreSt → CoreSt) :
    (s.updCore q f).tlb = s.tlb := rfl
@[simp] theorem State.updCore_mgmt (s : State) (q : Nat) (f : CoreSt → CoreSt) :
    (s.updCore q f).mgmt = s.mgmt := rfl
@[simp] theorem State.updCore_candidate (s : State) (q : Nat) (f : CoreSt → CoreSt) :
    (s.updCore q f).candidate = s.candidate := rfl
@[simp] theorem State.updCore_accepted (s : State) (q : Nat) (f : CoreSt → CoreSt) :
    (s.updCore q f).accepted = s.accepted := rfl
@[simp] theorem State.updCore_next (s : State) (q : Nat) (f : CoreSt → CoreSt) :
    (s.updCore q f).next = s.next := rfl
@[simp] theorem State.updCore_engines (s : State) (q : Nat) (f : CoreSt → CoreSt) :
    (s.updCore q f).engines = s.engines := rfl
@[simp] theorem State.updCore_engineId (s : State) (q : Nat) (f : CoreSt → CoreSt) :
    (s.updCore q f).engineId = s.engineId := rfl
@[simp] theorem State.updCore_tokens (s : State) (q : Nat) (f : CoreSt → CoreSt) :
    (s.updCore q f).tokens = s.tokens := rfl
@[simp] theorem State.updCore_tracks (s : State) (q : Nat) (f : CoreSt → CoreSt) :
    (s.updCore q f).tracks = s.tracks := rfl
@[simp] theorem State.updCore_portsDown (s : State) (q : Nat) (f : CoreSt → CoreSt) :
    (s.updCore q f).portsDown = s.portsDown := rfl
@[simp] theorem State.updCore_portRetry (s : State) (q : Nat) (f : CoreSt → CoreSt) :
    (s.updCore q f).portRetry = s.portRetry := rfl
@[simp] theorem State.updCore_ucie (s : State) (q : Nat) (f : CoreSt → CoreSt) :
    (s.updCore q f).ucie = s.ucie := rfl
@[simp] theorem State.updCore_rotQueue (s : State) (q : Nat) (f : CoreSt → CoreSt) :
    (s.updCore q f).rotQueue = s.rotQueue := rfl
@[simp] theorem State.updCore_doe (s : State) (q : Nat) (f : CoreSt → CoreSt) :
    (s.updCore q f).doe = s.doe := rfl
@[simp] theorem State.updCore_images (s : State) (q : Nat) (f : CoreSt → CoreSt) :
    (s.updCore q f).images = s.images := rfl
@[simp] theorem State.updCore_firmware (s : State) (q : Nat) (f : CoreSt → CoreSt) :
    (s.updCore q f).firmware = s.firmware := rfl
@[simp] theorem State.updCore_mdas (s : State) (q : Nat) (f : CoreSt → CoreSt) :
    (s.updCore q f).mdas = s.mdas := rfl
@[simp] theorem State.updCore_hostData (s : State) (q : Nat) (f : CoreSt → CoreSt) :
    (s.updCore q f).hostData = s.hostData := rfl
@[simp] theorem State.updCore_power (s : State) (q : Nat) (f : CoreSt → CoreSt) :
    (s.updCore q f).power = s.power := rfl
@[simp] theorem State.updCore_inbox (s : State) (q : Nat) (f : CoreSt → CoreSt) :
    (s.updCore q f).inbox = s.inbox := rfl
@[simp] theorem State.updCore_tick (s : State) (q : Nat) (f : CoreSt → CoreSt) :
    (s.updCore q f).tick = s.tick := rfl

/-! ### State.setDie -/

@[simp] theorem State.setDie_cur (s : State) (d : DieSt) :
    (s.setDie d).cur = s.cur := rfl
@[simp] theorem State.setDie_harts (s : State) (d : DieSt) :
    (s.setDie d).harts = s.harts := rfl
@[simp] theorem State.setDie_gangs (s : State) (d : DieSt) :
    (s.setDie d).gangs = s.gangs := rfl
@[simp] theorem State.setDie_launches (s : State) (d : DieSt) :
    (s.setDie d).launches = s.launches := rfl
@[simp] theorem State.setDie_cores (s : State) (d : DieSt) :
    (s.setDie d).cores = s.cores := rfl
@[simp] theorem State.setDie_dies (s : State) (d : DieSt) :
    (s.setDie d).dies = d :: s.dies.filter (fun b => b.d != d.d) := rfl
@[simp] theorem State.setDie_mem (s : State) (d : DieSt) :
    (s.setDie d).mem = s.mem := rfl
@[simp] theorem State.setDie_poison (s : State) (d : DieSt) :
    (s.setDie d).poison = s.poison := rfl
@[simp] theorem State.setDie_history (s : State) (d : DieSt) :
    (s.setDie d).history = s.history := rfl
@[simp] theorem State.setDie_consts (s : State) (d : DieSt) :
    (s.setDie d).consts = s.consts := rfl
@[simp] theorem State.setDie_tlb (s : State) (d : DieSt) :
    (s.setDie d).tlb = s.tlb := rfl
@[simp] theorem State.setDie_mgmt (s : State) (d : DieSt) :
    (s.setDie d).mgmt = s.mgmt := rfl
@[simp] theorem State.setDie_candidate (s : State) (d : DieSt) :
    (s.setDie d).candidate = s.candidate := rfl
@[simp] theorem State.setDie_accepted (s : State) (d : DieSt) :
    (s.setDie d).accepted = s.accepted := rfl
@[simp] theorem State.setDie_next (s : State) (d : DieSt) :
    (s.setDie d).next = s.next := rfl
@[simp] theorem State.setDie_engines (s : State) (d : DieSt) :
    (s.setDie d).engines = s.engines := rfl
@[simp] theorem State.setDie_engineId (s : State) (d : DieSt) :
    (s.setDie d).engineId = s.engineId := rfl
@[simp] theorem State.setDie_tokens (s : State) (d : DieSt) :
    (s.setDie d).tokens = s.tokens := rfl
@[simp] theorem State.setDie_tracks (s : State) (d : DieSt) :
    (s.setDie d).tracks = s.tracks := rfl
@[simp] theorem State.setDie_portsDown (s : State) (d : DieSt) :
    (s.setDie d).portsDown = s.portsDown := rfl
@[simp] theorem State.setDie_portRetry (s : State) (d : DieSt) :
    (s.setDie d).portRetry = s.portRetry := rfl
@[simp] theorem State.setDie_ucie (s : State) (d : DieSt) :
    (s.setDie d).ucie = s.ucie := rfl
@[simp] theorem State.setDie_rotQueue (s : State) (d : DieSt) :
    (s.setDie d).rotQueue = s.rotQueue := rfl
@[simp] theorem State.setDie_doe (s : State) (d : DieSt) :
    (s.setDie d).doe = s.doe := rfl
@[simp] theorem State.setDie_images (s : State) (d : DieSt) :
    (s.setDie d).images = s.images := rfl
@[simp] theorem State.setDie_firmware (s : State) (d : DieSt) :
    (s.setDie d).firmware = s.firmware := rfl
@[simp] theorem State.setDie_mdas (s : State) (d : DieSt) :
    (s.setDie d).mdas = s.mdas := rfl
@[simp] theorem State.setDie_hostData (s : State) (d : DieSt) :
    (s.setDie d).hostData = s.hostData := rfl
@[simp] theorem State.setDie_power (s : State) (d : DieSt) :
    (s.setDie d).power = s.power := rfl
@[simp] theorem State.setDie_inbox (s : State) (d : DieSt) :
    (s.setDie d).inbox = s.inbox := rfl
@[simp] theorem State.setDie_tick (s : State) (d : DieSt) :
    (s.setDie d).tick = s.tick := rfl

/-! ### State.post -/

@[simp] theorem State.post_cur (s : State) (es : List Instr) :
    (s.post es).cur = s.cur := rfl
@[simp] theorem State.post_harts (s : State) (es : List Instr) :
    (s.post es).harts = s.harts := rfl
@[simp] theorem State.post_gangs (s : State) (es : List Instr) :
    (s.post es).gangs = s.gangs := rfl
@[simp] theorem State.post_launches (s : State) (es : List Instr) :
    (s.post es).launches = s.launches := rfl
@[simp] theorem State.post_cores (s : State) (es : List Instr) :
    (s.post es).cores = s.cores := rfl
@[simp] theorem State.post_dies (s : State) (es : List Instr) :
    (s.post es).dies = s.dies := rfl
@[simp] theorem State.post_mem (s : State) (es : List Instr) :
    (s.post es).mem = s.mem := rfl
@[simp] theorem State.post_poison (s : State) (es : List Instr) :
    (s.post es).poison = s.poison := rfl
@[simp] theorem State.post_history (s : State) (es : List Instr) :
    (s.post es).history = s.history := rfl
@[simp] theorem State.post_consts (s : State) (es : List Instr) :
    (s.post es).consts = s.consts := rfl
@[simp] theorem State.post_tlb (s : State) (es : List Instr) :
    (s.post es).tlb = s.tlb := rfl
@[simp] theorem State.post_mgmt (s : State) (es : List Instr) :
    (s.post es).mgmt = s.mgmt := rfl
@[simp] theorem State.post_candidate (s : State) (es : List Instr) :
    (s.post es).candidate = s.candidate := rfl
@[simp] theorem State.post_accepted (s : State) (es : List Instr) :
    (s.post es).accepted = s.accepted := rfl
@[simp] theorem State.post_next (s : State) (es : List Instr) :
    (s.post es).next = s.next := rfl
@[simp] theorem State.post_engines (s : State) (es : List Instr) :
    (s.post es).engines = s.engines := rfl
@[simp] theorem State.post_engineId (s : State) (es : List Instr) :
    (s.post es).engineId = s.engineId := rfl
@[simp] theorem State.post_tokens (s : State) (es : List Instr) :
    (s.post es).tokens = s.tokens := rfl
@[simp] theorem State.post_tracks (s : State) (es : List Instr) :
    (s.post es).tracks = s.tracks := rfl
@[simp] theorem State.post_portsDown (s : State) (es : List Instr) :
    (s.post es).portsDown = s.portsDown := rfl
@[simp] theorem State.post_portRetry (s : State) (es : List Instr) :
    (s.post es).portRetry = s.portRetry := rfl
@[simp] theorem State.post_ucie (s : State) (es : List Instr) :
    (s.post es).ucie = s.ucie := rfl
@[simp] theorem State.post_rotQueue (s : State) (es : List Instr) :
    (s.post es).rotQueue = s.rotQueue := rfl
@[simp] theorem State.post_doe (s : State) (es : List Instr) :
    (s.post es).doe = s.doe := rfl
@[simp] theorem State.post_images (s : State) (es : List Instr) :
    (s.post es).images = s.images := rfl
@[simp] theorem State.post_firmware (s : State) (es : List Instr) :
    (s.post es).firmware = s.firmware := rfl
@[simp] theorem State.post_mdas (s : State) (es : List Instr) :
    (s.post es).mdas = s.mdas := rfl
@[simp] theorem State.post_hostData (s : State) (es : List Instr) :
    (s.post es).hostData = s.hostData := rfl
@[simp] theorem State.post_power (s : State) (es : List Instr) :
    (s.post es).power = s.power := rfl
@[simp] theorem State.post_inbox (s : State) (es : List Instr) :
    (s.post es).inbox = s.inbox ++ es := rfl
@[simp] theorem State.post_tick (s : State) (es : List Instr) :
    (s.post es).tick = s.tick := rfl

/-! ### State.setMgmt -/

@[simp] theorem State.setMgmt_cur (s : State) (off : Nat) (v : Word) :
    (s.setMgmt off v).cur = s.cur := rfl
@[simp] theorem State.setMgmt_harts (s : State) (off : Nat) (v : Word) :
    (s.setMgmt off v).harts = s.harts := rfl
@[simp] theorem State.setMgmt_gangs (s : State) (off : Nat) (v : Word) :
    (s.setMgmt off v).gangs = s.gangs := rfl
@[simp] theorem State.setMgmt_launches (s : State) (off : Nat) (v : Word) :
    (s.setMgmt off v).launches = s.launches := rfl
@[simp] theorem State.setMgmt_cores (s : State) (off : Nat) (v : Word) :
    (s.setMgmt off v).cores = s.cores := rfl
@[simp] theorem State.setMgmt_dies (s : State) (off : Nat) (v : Word) :
    (s.setMgmt off v).dies = s.dies := rfl
@[simp] theorem State.setMgmt_mem (s : State) (off : Nat) (v : Word) :
    (s.setMgmt off v).mem = s.mem := rfl
@[simp] theorem State.setMgmt_poison (s : State) (off : Nat) (v : Word) :
    (s.setMgmt off v).poison = s.poison := rfl
@[simp] theorem State.setMgmt_history (s : State) (off : Nat) (v : Word) :
    (s.setMgmt off v).history = s.history := rfl
@[simp] theorem State.setMgmt_consts (s : State) (off : Nat) (v : Word) :
    (s.setMgmt off v).consts = s.consts := rfl
@[simp] theorem State.setMgmt_tlb (s : State) (off : Nat) (v : Word) :
    (s.setMgmt off v).tlb = s.tlb := rfl
@[simp] theorem State.setMgmt_mgmt (s : State) (off : Nat) (v : Word) :
    (s.setMgmt off v).mgmt = s.mgmt.set off v := rfl
@[simp] theorem State.setMgmt_candidate (s : State) (off : Nat) (v : Word) :
    (s.setMgmt off v).candidate = s.candidate := rfl
@[simp] theorem State.setMgmt_accepted (s : State) (off : Nat) (v : Word) :
    (s.setMgmt off v).accepted = s.accepted := rfl
@[simp] theorem State.setMgmt_next (s : State) (off : Nat) (v : Word) :
    (s.setMgmt off v).next = s.next := rfl
@[simp] theorem State.setMgmt_engines (s : State) (off : Nat) (v : Word) :
    (s.setMgmt off v).engines = s.engines := rfl
@[simp] theorem State.setMgmt_engineId (s : State) (off : Nat) (v : Word) :
    (s.setMgmt off v).engineId = s.engineId := rfl
@[simp] theorem State.setMgmt_tokens (s : State) (off : Nat) (v : Word) :
    (s.setMgmt off v).tokens = s.tokens := rfl
@[simp] theorem State.setMgmt_tracks (s : State) (off : Nat) (v : Word) :
    (s.setMgmt off v).tracks = s.tracks := rfl
@[simp] theorem State.setMgmt_portsDown (s : State) (off : Nat) (v : Word) :
    (s.setMgmt off v).portsDown = s.portsDown := rfl
@[simp] theorem State.setMgmt_portRetry (s : State) (off : Nat) (v : Word) :
    (s.setMgmt off v).portRetry = s.portRetry := rfl
@[simp] theorem State.setMgmt_ucie (s : State) (off : Nat) (v : Word) :
    (s.setMgmt off v).ucie = s.ucie := rfl
@[simp] theorem State.setMgmt_rotQueue (s : State) (off : Nat) (v : Word) :
    (s.setMgmt off v).rotQueue = s.rotQueue := rfl
@[simp] theorem State.setMgmt_doe (s : State) (off : Nat) (v : Word) :
    (s.setMgmt off v).doe = s.doe := rfl
@[simp] theorem State.setMgmt_images (s : State) (off : Nat) (v : Word) :
    (s.setMgmt off v).images = s.images := rfl
@[simp] theorem State.setMgmt_firmware (s : State) (off : Nat) (v : Word) :
    (s.setMgmt off v).firmware = s.firmware := rfl
@[simp] theorem State.setMgmt_mdas (s : State) (off : Nat) (v : Word) :
    (s.setMgmt off v).mdas = s.mdas := rfl
@[simp] theorem State.setMgmt_hostData (s : State) (off : Nat) (v : Word) :
    (s.setMgmt off v).hostData = s.hostData := rfl
@[simp] theorem State.setMgmt_power (s : State) (off : Nat) (v : Word) :
    (s.setMgmt off v).power = s.power := rfl
@[simp] theorem State.setMgmt_inbox (s : State) (off : Nat) (v : Word) :
    (s.setMgmt off v).inbox = s.inbox := rfl
@[simp] theorem State.setMgmt_tick (s : State) (off : Nat) (v : Word) :
    (s.setMgmt off v).tick = s.tick := rfl

/-! ### State.pokeRaw -/

@[simp] theorem State.pokeRaw_cur (s : State) (loc : Nat) (bs : List Byte) :
    (s.pokeRaw loc bs).cur = s.cur := rfl
@[simp] theorem State.pokeRaw_harts (s : State) (loc : Nat) (bs : List Byte) :
    (s.pokeRaw loc bs).harts = s.harts := rfl
@[simp] theorem State.pokeRaw_gangs (s : State) (loc : Nat) (bs : List Byte) :
    (s.pokeRaw loc bs).gangs = s.gangs := rfl
@[simp] theorem State.pokeRaw_launches (s : State) (loc : Nat) (bs : List Byte) :
    (s.pokeRaw loc bs).launches = s.launches := rfl
@[simp] theorem State.pokeRaw_cores (s : State) (loc : Nat) (bs : List Byte) :
    (s.pokeRaw loc bs).cores = s.cores := rfl
@[simp] theorem State.pokeRaw_dies (s : State) (loc : Nat) (bs : List Byte) :
    (s.pokeRaw loc bs).dies = s.dies := rfl
@[simp] theorem State.pokeRaw_mem (s : State) (loc : Nat) (bs : List Byte) :
    (s.pokeRaw loc bs).mem = SMap.setAll (w := 8) s.mem loc bs := rfl
@[simp] theorem State.pokeRaw_poison (s : State) (loc : Nat) (bs : List Byte) :
    (s.pokeRaw loc bs).poison = clearPoison s.poison loc bs.length := rfl
@[simp] theorem State.pokeRaw_history (s : State) (loc : Nat) (bs : List Byte) :
    (s.pokeRaw loc bs).history = if s.launches.isEmpty then [] else replaced s.mem s.tick loc bs ++ s.history := rfl
@[simp] theorem State.pokeRaw_consts (s : State) (loc : Nat) (bs : List Byte) :
    (s.pokeRaw loc bs).consts = s.consts := rfl
@[simp] theorem State.pokeRaw_tlb (s : State) (loc : Nat) (bs : List Byte) :
    (s.pokeRaw loc bs).tlb = s.tlb := rfl
@[simp] theorem State.pokeRaw_mgmt (s : State) (loc : Nat) (bs : List Byte) :
    (s.pokeRaw loc bs).mgmt = s.mgmt := rfl
@[simp] theorem State.pokeRaw_candidate (s : State) (loc : Nat) (bs : List Byte) :
    (s.pokeRaw loc bs).candidate = s.candidate := rfl
@[simp] theorem State.pokeRaw_accepted (s : State) (loc : Nat) (bs : List Byte) :
    (s.pokeRaw loc bs).accepted = s.accepted := rfl
@[simp] theorem State.pokeRaw_next (s : State) (loc : Nat) (bs : List Byte) :
    (s.pokeRaw loc bs).next = s.next := rfl
@[simp] theorem State.pokeRaw_engines (s : State) (loc : Nat) (bs : List Byte) :
    (s.pokeRaw loc bs).engines = s.engines := rfl
@[simp] theorem State.pokeRaw_engineId (s : State) (loc : Nat) (bs : List Byte) :
    (s.pokeRaw loc bs).engineId = s.engineId := rfl
@[simp] theorem State.pokeRaw_tokens (s : State) (loc : Nat) (bs : List Byte) :
    (s.pokeRaw loc bs).tokens = s.tokens := rfl
@[simp] theorem State.pokeRaw_tracks (s : State) (loc : Nat) (bs : List Byte) :
    (s.pokeRaw loc bs).tracks = s.tracks := rfl
@[simp] theorem State.pokeRaw_portsDown (s : State) (loc : Nat) (bs : List Byte) :
    (s.pokeRaw loc bs).portsDown = s.portsDown := rfl
@[simp] theorem State.pokeRaw_portRetry (s : State) (loc : Nat) (bs : List Byte) :
    (s.pokeRaw loc bs).portRetry = s.portRetry := rfl
@[simp] theorem State.pokeRaw_ucie (s : State) (loc : Nat) (bs : List Byte) :
    (s.pokeRaw loc bs).ucie = s.ucie := rfl
@[simp] theorem State.pokeRaw_rotQueue (s : State) (loc : Nat) (bs : List Byte) :
    (s.pokeRaw loc bs).rotQueue = s.rotQueue := rfl
@[simp] theorem State.pokeRaw_doe (s : State) (loc : Nat) (bs : List Byte) :
    (s.pokeRaw loc bs).doe = s.doe := rfl
@[simp] theorem State.pokeRaw_images (s : State) (loc : Nat) (bs : List Byte) :
    (s.pokeRaw loc bs).images = s.images := rfl
@[simp] theorem State.pokeRaw_firmware (s : State) (loc : Nat) (bs : List Byte) :
    (s.pokeRaw loc bs).firmware = s.firmware := rfl
@[simp] theorem State.pokeRaw_mdas (s : State) (loc : Nat) (bs : List Byte) :
    (s.pokeRaw loc bs).mdas = s.mdas := rfl
@[simp] theorem State.pokeRaw_hostData (s : State) (loc : Nat) (bs : List Byte) :
    (s.pokeRaw loc bs).hostData = s.hostData := rfl
@[simp] theorem State.pokeRaw_power (s : State) (loc : Nat) (bs : List Byte) :
    (s.pokeRaw loc bs).power = s.power := rfl
@[simp] theorem State.pokeRaw_inbox (s : State) (loc : Nat) (bs : List Byte) :
    (s.pokeRaw loc bs).inbox = s.inbox := rfl
@[simp] theorem State.pokeRaw_tick (s : State) (loc : Nat) (bs : List Byte) :
    (s.pokeRaw loc bs).tick = s.tick := rfl

/-! ### Hart.setX -/

@[simp] theorem Hart.setX_hid (h : Hart) (n : XReg) (v : Word) :
    (h.setX n v).hid = h.hid := by unfold Hart.setX; split <;> rfl
@[simp] theorem Hart.setX_slot (h : Hart) (n : XReg) (v : Word) :
    (h.setX n v).slot = h.slot := by unfold Hart.setX; split <;> rfl
@[simp] theorem Hart.setX_idx (h : Hart) (n : XReg) (v : Word) :
    (h.setX n v).idx = h.idx := by unfold Hart.setX; split <;> rfl
@[simp] theorem Hart.setX_pc (h : Hart) (n : XReg) (v : Word) :
    (h.setX n v).pc = h.pc := by unfold Hart.setX; split <;> rfl
@[simp] theorem Hart.setX_priv (h : Hart) (n : XReg) (v : Word) :
    (h.setX n v).priv = h.priv := by unfold Hart.setX; split <;> rfl
@[simp] theorem Hart.setX_run (h : Hart) (n : XReg) (v : Word) :
    (h.setX n v).run = h.run := by unfold Hart.setX; split <;> rfl
@[simp] theorem Hart.setX_x (h : Hart) (n : XReg) (v : Word) :
    (h.setX n v).x = if n = 0 then h.x else h.x.set n.toNat v := by unfold Hart.setX; split <;> rfl
@[simp] theorem Hart.setX_ap (h : Hart) (n : XReg) (v : Word) :
    (h.setX n v).ap = h.ap := by unfold Hart.setX; split <;> rfl
@[simp] theorem Hart.setX_k (h : Hart) (n : XReg) (v : Word) :
    (h.setX n v).k = h.k := by unfold Hart.setX; split <;> rfl
@[simp] theorem Hart.setX_km (h : Hart) (n : XReg) (v : Word) :
    (h.setX n v).km = h.km := by unfold Hart.setX; split <;> rfl
@[simp] theorem Hart.setX_vl (h : Hart) (n : XReg) (v : Word) :
    (h.setX n v).vl = h.vl := by unfold Hart.setX; split <;> rfl
@[simp] theorem Hart.setX_rc (h : Hart) (n : XReg) (v : Word) :
    (h.setX n v).rc = h.rc := by unfold Hart.setX; split <;> rfl
@[simp] theorem Hart.setX_swi (h : Hart) (n : XReg) (v : Word) :
    (h.setX n v).swi = h.swi := by unfold Hart.setX; split <;> rfl
@[simp] theorem Hart.setX_csr (h : Hart) (n : XReg) (v : Word) :
    (h.setX n v).csr = h.csr := by unfold Hart.setX; split <;> rfl
@[simp] theorem Hart.setX_efc (h : Hart) (n : XReg) (v : Word) :
    (h.setX n v).efc = h.efc := by unfold Hart.setX; split <;> rfl
@[simp] theorem Hart.setX_tefcS (h : Hart) (n : XReg) (v : Word) :
    (h.setX n v).tefcS = h.tefcS := by unfold Hart.setX; split <;> rfl
@[simp] theorem Hart.setX_tefcM (h : Hart) (n : XReg) (v : Word) :
    (h.setX n v).tefcM = h.tefcM := by unfold Hart.setX; split <;> rfl
@[simp] theorem Hart.setX_cl (h : Hart) (n : XReg) (v : Word) :
    (h.setX n v).cl = h.cl := by unfold Hart.setX; split <;> rfl
@[simp] theorem Hart.setX_stair (h : Hart) (n : XReg) (v : Word) :
    (h.setX n v).stair = h.stair := by unfold Hart.setX; split <;> rfl
@[simp] theorem Hart.setX_share (h : Hart) (n : XReg) (v : Word) :
    (h.setX n v).share = h.share := by unfold Hart.setX; split <;> rfl
@[simp] theorem Hart.setX_bh (h : Hart) (n : XReg) (v : Word) :
    (h.setX n v).bh = h.bh := by unfold Hart.setX; split <;> rfl
@[simp] theorem Hart.setX_origin (h : Hart) (n : XReg) (v : Word) :
    (h.setX n v).origin = h.origin := by unfold Hart.setX; split <;> rfl
@[simp] theorem Hart.setX_plane (h : Hart) (n : XReg) (v : Word) :
    (h.setX n v).plane = h.plane := by unfold Hart.setX; split <;> rfl
@[simp] theorem Hart.setX_plates (h : Hart) (n : XReg) (v : Word) :
    (h.setX n v).plates = h.plates := by unfold Hart.setX; split <;> rfl
@[simp] theorem Hart.setX_streams (h : Hart) (n : XReg) (v : Word) :
    (h.setX n v).streams = h.streams := by unfold Hart.setX; split <;> rfl
@[simp] theorem Hart.setX_windows (h : Hart) (n : XReg) (v : Word) :
    (h.setX n v).windows = h.windows := by unfold Hart.setX; split <;> rfl
@[simp] theorem Hart.setX_wver (h : Hart) (n : XReg) (v : Word) :
    (h.setX n v).wver = h.wver := by unfold Hart.setX; split <;> rfl
@[simp] theorem Hart.setX_pending (h : Hart) (n : XReg) (v : Word) :
    (h.setX n v).pending = h.pending := by unfold Hart.setX; split <;> rfl
@[simp] theorem Hart.setX_late (h : Hart) (n : XReg) (v : Word) :
    (h.setX n v).late = h.late := by unfold Hart.setX; split <;> rfl
@[simp] theorem Hart.setX_landed (h : Hart) (n : XReg) (v : Word) :
    (h.setX n v).landed = h.landed := by unfold Hart.setX; split <;> rfl
@[simp] theorem Hart.setX_landedFlags (h : Hart) (n : XReg) (v : Word) :
    (h.setX n v).landedFlags = h.landedFlags := by unfold Hart.setX; split <;> rfl
@[simp] theorem Hart.setX_engineFaults (h : Hart) (n : XReg) (v : Word) :
    (h.setX n v).engineFaults = h.engineFaults := by unfold Hart.setX; split <;> rfl
@[simp] theorem Hart.setX_rptCode (h : Hart) (n : XReg) (v : Word) :
    (h.setX n v).rptCode = h.rptCode := by unfold Hart.setX; split <;> rfl
@[simp] theorem Hart.setX_fetched (h : Hart) (n : XReg) (v : Word) :
    (h.setX n v).fetched = h.fetched := by unfold Hart.setX; split <;> rfl
@[simp] theorem Hart.setX_unit (h : Hart) (n : XReg) (v : Word) :
    (h.setX n v).unit = h.unit := by unfold Hart.setX; split <;> rfl
@[simp] theorem Hart.setX_drain (h : Hart) (n : XReg) (v : Word) :
    (h.setX n v).drain = h.drain := by unfold Hart.setX; split <;> rfl

/-! ### Hart.setCsr -/

@[simp] theorem Hart.setCsr_hid (h : Hart) (n : Nat) (v : Word) :
    (h.setCsr n v).hid = h.hid := rfl
@[simp] theorem Hart.setCsr_slot (h : Hart) (n : Nat) (v : Word) :
    (h.setCsr n v).slot = h.slot := rfl
@[simp] theorem Hart.setCsr_idx (h : Hart) (n : Nat) (v : Word) :
    (h.setCsr n v).idx = h.idx := rfl
@[simp] theorem Hart.setCsr_pc (h : Hart) (n : Nat) (v : Word) :
    (h.setCsr n v).pc = h.pc := rfl
@[simp] theorem Hart.setCsr_priv (h : Hart) (n : Nat) (v : Word) :
    (h.setCsr n v).priv = h.priv := rfl
@[simp] theorem Hart.setCsr_run (h : Hart) (n : Nat) (v : Word) :
    (h.setCsr n v).run = h.run := rfl
@[simp] theorem Hart.setCsr_x (h : Hart) (n : Nat) (v : Word) :
    (h.setCsr n v).x = h.x := rfl
@[simp] theorem Hart.setCsr_ap (h : Hart) (n : Nat) (v : Word) :
    (h.setCsr n v).ap = h.ap := rfl
@[simp] theorem Hart.setCsr_k (h : Hart) (n : Nat) (v : Word) :
    (h.setCsr n v).k = h.k := rfl
@[simp] theorem Hart.setCsr_km (h : Hart) (n : Nat) (v : Word) :
    (h.setCsr n v).km = h.km := rfl
@[simp] theorem Hart.setCsr_vl (h : Hart) (n : Nat) (v : Word) :
    (h.setCsr n v).vl = h.vl := rfl
@[simp] theorem Hart.setCsr_rc (h : Hart) (n : Nat) (v : Word) :
    (h.setCsr n v).rc = h.rc := rfl
@[simp] theorem Hart.setCsr_swi (h : Hart) (n : Nat) (v : Word) :
    (h.setCsr n v).swi = h.swi := rfl
@[simp] theorem Hart.setCsr_csr (h : Hart) (n : Nat) (v : Word) :
    (h.setCsr n v).csr = h.csr.set n v := rfl
@[simp] theorem Hart.setCsr_efc (h : Hart) (n : Nat) (v : Word) :
    (h.setCsr n v).efc = h.efc := rfl
@[simp] theorem Hart.setCsr_tefcS (h : Hart) (n : Nat) (v : Word) :
    (h.setCsr n v).tefcS = h.tefcS := rfl
@[simp] theorem Hart.setCsr_tefcM (h : Hart) (n : Nat) (v : Word) :
    (h.setCsr n v).tefcM = h.tefcM := rfl
@[simp] theorem Hart.setCsr_cl (h : Hart) (n : Nat) (v : Word) :
    (h.setCsr n v).cl = h.cl := rfl
@[simp] theorem Hart.setCsr_stair (h : Hart) (n : Nat) (v : Word) :
    (h.setCsr n v).stair = h.stair := rfl
@[simp] theorem Hart.setCsr_share (h : Hart) (n : Nat) (v : Word) :
    (h.setCsr n v).share = h.share := rfl
@[simp] theorem Hart.setCsr_bh (h : Hart) (n : Nat) (v : Word) :
    (h.setCsr n v).bh = h.bh := rfl
@[simp] theorem Hart.setCsr_origin (h : Hart) (n : Nat) (v : Word) :
    (h.setCsr n v).origin = h.origin := rfl
@[simp] theorem Hart.setCsr_plane (h : Hart) (n : Nat) (v : Word) :
    (h.setCsr n v).plane = h.plane := rfl
@[simp] theorem Hart.setCsr_plates (h : Hart) (n : Nat) (v : Word) :
    (h.setCsr n v).plates = h.plates := rfl
@[simp] theorem Hart.setCsr_streams (h : Hart) (n : Nat) (v : Word) :
    (h.setCsr n v).streams = h.streams := rfl
@[simp] theorem Hart.setCsr_windows (h : Hart) (n : Nat) (v : Word) :
    (h.setCsr n v).windows = h.windows := rfl
@[simp] theorem Hart.setCsr_wver (h : Hart) (n : Nat) (v : Word) :
    (h.setCsr n v).wver = h.wver := rfl
@[simp] theorem Hart.setCsr_pending (h : Hart) (n : Nat) (v : Word) :
    (h.setCsr n v).pending = h.pending := rfl
@[simp] theorem Hart.setCsr_late (h : Hart) (n : Nat) (v : Word) :
    (h.setCsr n v).late = h.late := rfl
@[simp] theorem Hart.setCsr_landed (h : Hart) (n : Nat) (v : Word) :
    (h.setCsr n v).landed = h.landed := rfl
@[simp] theorem Hart.setCsr_landedFlags (h : Hart) (n : Nat) (v : Word) :
    (h.setCsr n v).landedFlags = h.landedFlags := rfl
@[simp] theorem Hart.setCsr_engineFaults (h : Hart) (n : Nat) (v : Word) :
    (h.setCsr n v).engineFaults = h.engineFaults := rfl
@[simp] theorem Hart.setCsr_rptCode (h : Hart) (n : Nat) (v : Word) :
    (h.setCsr n v).rptCode = h.rptCode := rfl
@[simp] theorem Hart.setCsr_fetched (h : Hart) (n : Nat) (v : Word) :
    (h.setCsr n v).fetched = h.fetched := rfl
@[simp] theorem Hart.setCsr_unit (h : Hart) (n : Nat) (v : Word) :
    (h.setCsr n v).unit = h.unit := rfl
@[simp] theorem Hart.setCsr_drain (h : Hart) (n : Nat) (v : Word) :
    (h.setCsr n v).drain = h.drain := rfl

/-! ### Hart.setK -/

@[simp] theorem Hart.setK_hid (h : Hart) (n : Nat) (v : BitVec 1024) :
    (h.setK n v).hid = h.hid := by unfold Hart.setK; split <;> rfl
@[simp] theorem Hart.setK_slot (h : Hart) (n : Nat) (v : BitVec 1024) :
    (h.setK n v).slot = h.slot := by unfold Hart.setK; split <;> rfl
@[simp] theorem Hart.setK_idx (h : Hart) (n : Nat) (v : BitVec 1024) :
    (h.setK n v).idx = h.idx := by unfold Hart.setK; split <;> rfl
@[simp] theorem Hart.setK_pc (h : Hart) (n : Nat) (v : BitVec 1024) :
    (h.setK n v).pc = h.pc := by unfold Hart.setK; split <;> rfl
@[simp] theorem Hart.setK_priv (h : Hart) (n : Nat) (v : BitVec 1024) :
    (h.setK n v).priv = h.priv := by unfold Hart.setK; split <;> rfl
@[simp] theorem Hart.setK_run (h : Hart) (n : Nat) (v : BitVec 1024) :
    (h.setK n v).run = h.run := by unfold Hart.setK; split <;> rfl
@[simp] theorem Hart.setK_x (h : Hart) (n : Nat) (v : BitVec 1024) :
    (h.setK n v).x = h.x := by unfold Hart.setK; split <;> rfl
@[simp] theorem Hart.setK_ap (h : Hart) (n : Nat) (v : BitVec 1024) :
    (h.setK n v).ap = h.ap := by unfold Hart.setK; split <;> rfl
@[simp] theorem Hart.setK_k (h : Hart) (n : Nat) (v : BitVec 1024) :
    (h.setK n v).k = if n = 0 then h.k else h.k.set n v := by unfold Hart.setK; split <;> rfl
@[simp] theorem Hart.setK_km (h : Hart) (n : Nat) (v : BitVec 1024) :
    (h.setK n v).km = h.km := by unfold Hart.setK; split <;> rfl
@[simp] theorem Hart.setK_vl (h : Hart) (n : Nat) (v : BitVec 1024) :
    (h.setK n v).vl = h.vl := by unfold Hart.setK; split <;> rfl
@[simp] theorem Hart.setK_rc (h : Hart) (n : Nat) (v : BitVec 1024) :
    (h.setK n v).rc = h.rc := by unfold Hart.setK; split <;> rfl
@[simp] theorem Hart.setK_swi (h : Hart) (n : Nat) (v : BitVec 1024) :
    (h.setK n v).swi = h.swi := by unfold Hart.setK; split <;> rfl
@[simp] theorem Hart.setK_csr (h : Hart) (n : Nat) (v : BitVec 1024) :
    (h.setK n v).csr = h.csr := by unfold Hart.setK; split <;> rfl
@[simp] theorem Hart.setK_efc (h : Hart) (n : Nat) (v : BitVec 1024) :
    (h.setK n v).efc = h.efc := by unfold Hart.setK; split <;> rfl
@[simp] theorem Hart.setK_tefcS (h : Hart) (n : Nat) (v : BitVec 1024) :
    (h.setK n v).tefcS = h.tefcS := by unfold Hart.setK; split <;> rfl
@[simp] theorem Hart.setK_tefcM (h : Hart) (n : Nat) (v : BitVec 1024) :
    (h.setK n v).tefcM = h.tefcM := by unfold Hart.setK; split <;> rfl
@[simp] theorem Hart.setK_cl (h : Hart) (n : Nat) (v : BitVec 1024) :
    (h.setK n v).cl = h.cl := by unfold Hart.setK; split <;> rfl
@[simp] theorem Hart.setK_stair (h : Hart) (n : Nat) (v : BitVec 1024) :
    (h.setK n v).stair = h.stair := by unfold Hart.setK; split <;> rfl
@[simp] theorem Hart.setK_share (h : Hart) (n : Nat) (v : BitVec 1024) :
    (h.setK n v).share = h.share := by unfold Hart.setK; split <;> rfl
@[simp] theorem Hart.setK_bh (h : Hart) (n : Nat) (v : BitVec 1024) :
    (h.setK n v).bh = h.bh := by unfold Hart.setK; split <;> rfl
@[simp] theorem Hart.setK_origin (h : Hart) (n : Nat) (v : BitVec 1024) :
    (h.setK n v).origin = h.origin := by unfold Hart.setK; split <;> rfl
@[simp] theorem Hart.setK_plane (h : Hart) (n : Nat) (v : BitVec 1024) :
    (h.setK n v).plane = h.plane := by unfold Hart.setK; split <;> rfl
@[simp] theorem Hart.setK_plates (h : Hart) (n : Nat) (v : BitVec 1024) :
    (h.setK n v).plates = h.plates := by unfold Hart.setK; split <;> rfl
@[simp] theorem Hart.setK_streams (h : Hart) (n : Nat) (v : BitVec 1024) :
    (h.setK n v).streams = h.streams := by unfold Hart.setK; split <;> rfl
@[simp] theorem Hart.setK_windows (h : Hart) (n : Nat) (v : BitVec 1024) :
    (h.setK n v).windows = h.windows := by unfold Hart.setK; split <;> rfl
@[simp] theorem Hart.setK_wver (h : Hart) (n : Nat) (v : BitVec 1024) :
    (h.setK n v).wver = h.wver := by unfold Hart.setK; split <;> rfl
@[simp] theorem Hart.setK_pending (h : Hart) (n : Nat) (v : BitVec 1024) :
    (h.setK n v).pending = h.pending := by unfold Hart.setK; split <;> rfl
@[simp] theorem Hart.setK_late (h : Hart) (n : Nat) (v : BitVec 1024) :
    (h.setK n v).late = h.late := by unfold Hart.setK; split <;> rfl
@[simp] theorem Hart.setK_landed (h : Hart) (n : Nat) (v : BitVec 1024) :
    (h.setK n v).landed = h.landed := by unfold Hart.setK; split <;> rfl
@[simp] theorem Hart.setK_landedFlags (h : Hart) (n : Nat) (v : BitVec 1024) :
    (h.setK n v).landedFlags = h.landedFlags := by unfold Hart.setK; split <;> rfl
@[simp] theorem Hart.setK_engineFaults (h : Hart) (n : Nat) (v : BitVec 1024) :
    (h.setK n v).engineFaults = h.engineFaults := by unfold Hart.setK; split <;> rfl
@[simp] theorem Hart.setK_rptCode (h : Hart) (n : Nat) (v : BitVec 1024) :
    (h.setK n v).rptCode = h.rptCode := by unfold Hart.setK; split <;> rfl
@[simp] theorem Hart.setK_fetched (h : Hart) (n : Nat) (v : BitVec 1024) :
    (h.setK n v).fetched = h.fetched := by unfold Hart.setK; split <;> rfl
@[simp] theorem Hart.setK_unit (h : Hart) (n : Nat) (v : BitVec 1024) :
    (h.setK n v).unit = h.unit := by unfold Hart.setK; split <;> rfl
@[simp] theorem Hart.setK_drain (h : Hart) (n : Nat) (v : BitVec 1024) :
    (h.setK n v).drain = h.drain := by unfold Hart.setK; split <;> rfl

/-! ### Hart.orFlags -/

@[simp] theorem Hart.orFlags_hid (h : Hart) (f : Flags) :
    (h.orFlags f).hid = h.hid := rfl
@[simp] theorem Hart.orFlags_slot (h : Hart) (f : Flags) :
    (h.orFlags f).slot = h.slot := rfl
@[simp] theorem Hart.orFlags_idx (h : Hart) (f : Flags) :
    (h.orFlags f).idx = h.idx := rfl
@[simp] theorem Hart.orFlags_pc (h : Hart) (f : Flags) :
    (h.orFlags f).pc = h.pc := rfl
@[simp] theorem Hart.orFlags_priv (h : Hart) (f : Flags) :
    (h.orFlags f).priv = h.priv := rfl
@[simp] theorem Hart.orFlags_run (h : Hart) (f : Flags) :
    (h.orFlags f).run = h.run := rfl
@[simp] theorem Hart.orFlags_x (h : Hart) (f : Flags) :
    (h.orFlags f).x = h.x := rfl
@[simp] theorem Hart.orFlags_ap (h : Hart) (f : Flags) :
    (h.orFlags f).ap = h.ap := rfl
@[simp] theorem Hart.orFlags_k (h : Hart) (f : Flags) :
    (h.orFlags f).k = h.k := rfl
@[simp] theorem Hart.orFlags_km (h : Hart) (f : Flags) :
    (h.orFlags f).km = h.km := rfl
@[simp] theorem Hart.orFlags_vl (h : Hart) (f : Flags) :
    (h.orFlags f).vl = h.vl := rfl
@[simp] theorem Hart.orFlags_rc (h : Hart) (f : Flags) :
    (h.orFlags f).rc = h.rc := rfl
@[simp] theorem Hart.orFlags_swi (h : Hart) (f : Flags) :
    (h.orFlags f).swi = h.swi := rfl
@[simp] theorem Hart.orFlags_csr (h : Hart) (f : Flags) :
    (h.orFlags f).csr = h.csr.set 0xc03 (h.getCsr 0xc03 ||| f.setWidth 64) := rfl
@[simp] theorem Hart.orFlags_efc (h : Hart) (f : Flags) :
    (h.orFlags f).efc = h.efc := rfl
@[simp] theorem Hart.orFlags_tefcS (h : Hart) (f : Flags) :
    (h.orFlags f).tefcS = h.tefcS := rfl
@[simp] theorem Hart.orFlags_tefcM (h : Hart) (f : Flags) :
    (h.orFlags f).tefcM = h.tefcM := rfl
@[simp] theorem Hart.orFlags_cl (h : Hart) (f : Flags) :
    (h.orFlags f).cl = h.cl := rfl
@[simp] theorem Hart.orFlags_stair (h : Hart) (f : Flags) :
    (h.orFlags f).stair = h.stair := rfl
@[simp] theorem Hart.orFlags_share (h : Hart) (f : Flags) :
    (h.orFlags f).share = h.share := rfl
@[simp] theorem Hart.orFlags_bh (h : Hart) (f : Flags) :
    (h.orFlags f).bh = h.bh := rfl
@[simp] theorem Hart.orFlags_origin (h : Hart) (f : Flags) :
    (h.orFlags f).origin = h.origin := rfl
@[simp] theorem Hart.orFlags_plane (h : Hart) (f : Flags) :
    (h.orFlags f).plane = h.plane := rfl
@[simp] theorem Hart.orFlags_plates (h : Hart) (f : Flags) :
    (h.orFlags f).plates = h.plates := rfl
@[simp] theorem Hart.orFlags_streams (h : Hart) (f : Flags) :
    (h.orFlags f).streams = h.streams := rfl
@[simp] theorem Hart.orFlags_windows (h : Hart) (f : Flags) :
    (h.orFlags f).windows = h.windows := rfl
@[simp] theorem Hart.orFlags_wver (h : Hart) (f : Flags) :
    (h.orFlags f).wver = h.wver := rfl
@[simp] theorem Hart.orFlags_pending (h : Hart) (f : Flags) :
    (h.orFlags f).pending = h.pending := rfl
@[simp] theorem Hart.orFlags_late (h : Hart) (f : Flags) :
    (h.orFlags f).late = h.late := rfl
@[simp] theorem Hart.orFlags_landed (h : Hart) (f : Flags) :
    (h.orFlags f).landed = h.landed := rfl
@[simp] theorem Hart.orFlags_landedFlags (h : Hart) (f : Flags) :
    (h.orFlags f).landedFlags = h.landedFlags := rfl
@[simp] theorem Hart.orFlags_engineFaults (h : Hart) (f : Flags) :
    (h.orFlags f).engineFaults = h.engineFaults := rfl
@[simp] theorem Hart.orFlags_rptCode (h : Hart) (f : Flags) :
    (h.orFlags f).rptCode = h.rptCode := rfl
@[simp] theorem Hart.orFlags_fetched (h : Hart) (f : Flags) :
    (h.orFlags f).fetched = h.fetched := rfl
@[simp] theorem Hart.orFlags_unit (h : Hart) (f : Flags) :
    (h.orFlags f).unit = h.unit := rfl
@[simp] theorem Hart.orFlags_drain (h : Hart) (f : Flags) :
    (h.orFlags f).drain = h.drain := rfl

/-! ### Hart.clearRepeat -/

@[simp] theorem Hart.clearRepeat_hid (h : Hart) :
    (h.clearRepeat).hid = h.hid := by unfold Hart.clearRepeat; split <;> rfl
@[simp] theorem Hart.clearRepeat_slot (h : Hart) :
    (h.clearRepeat).slot = h.slot := by unfold Hart.clearRepeat; split <;> rfl
@[simp] theorem Hart.clearRepeat_idx (h : Hart) :
    (h.clearRepeat).idx = h.idx := by unfold Hart.clearRepeat; split <;> rfl
@[simp] theorem Hart.clearRepeat_pc (h : Hart) :
    (h.clearRepeat).pc = h.pc := by unfold Hart.clearRepeat; split <;> rfl
@[simp] theorem Hart.clearRepeat_priv (h : Hart) :
    (h.clearRepeat).priv = h.priv := by unfold Hart.clearRepeat; split <;> rfl
@[simp] theorem Hart.clearRepeat_run (h : Hart) :
    (h.clearRepeat).run = h.run := by unfold Hart.clearRepeat; split <;> rfl
@[simp] theorem Hart.clearRepeat_x (h : Hart) :
    (h.clearRepeat).x = h.x := by unfold Hart.clearRepeat; split <;> rfl
@[simp] theorem Hart.clearRepeat_ap (h : Hart) :
    (h.clearRepeat).ap = h.ap := by unfold Hart.clearRepeat; split <;> rfl
@[simp] theorem Hart.clearRepeat_k (h : Hart) :
    (h.clearRepeat).k = h.k := by unfold Hart.clearRepeat; split <;> rfl
@[simp] theorem Hart.clearRepeat_km (h : Hart) :
    (h.clearRepeat).km = h.km := by unfold Hart.clearRepeat; split <;> rfl
@[simp] theorem Hart.clearRepeat_vl (h : Hart) :
    (h.clearRepeat).vl = h.vl := by unfold Hart.clearRepeat; split <;> rfl
@[simp] theorem Hart.clearRepeat_rc (h : Hart) :
    (h.clearRepeat).rc = h.rc := by unfold Hart.clearRepeat; split <;> rfl
@[simp] theorem Hart.clearRepeat_swi (h : Hart) :
    (h.clearRepeat).swi = h.swi := by unfold Hart.clearRepeat; split <;> rfl
@[simp] theorem Hart.clearRepeat_csr (h : Hart) :
    (h.clearRepeat).csr = if h.getCsr 0xd31 = h.pc ∧ h.getCsr 0xd32 ≠ 0 then h.csr.set 0xd32 0 else h.csr := by unfold Hart.clearRepeat; split <;> rfl
@[simp] theorem Hart.clearRepeat_efc (h : Hart) :
    (h.clearRepeat).efc = h.efc := by unfold Hart.clearRepeat; split <;> rfl
@[simp] theorem Hart.clearRepeat_tefcS (h : Hart) :
    (h.clearRepeat).tefcS = h.tefcS := by unfold Hart.clearRepeat; split <;> rfl
@[simp] theorem Hart.clearRepeat_tefcM (h : Hart) :
    (h.clearRepeat).tefcM = h.tefcM := by unfold Hart.clearRepeat; split <;> rfl
@[simp] theorem Hart.clearRepeat_cl (h : Hart) :
    (h.clearRepeat).cl = h.cl := by unfold Hart.clearRepeat; split <;> rfl
@[simp] theorem Hart.clearRepeat_stair (h : Hart) :
    (h.clearRepeat).stair = h.stair := by unfold Hart.clearRepeat; split <;> rfl
@[simp] theorem Hart.clearRepeat_share (h : Hart) :
    (h.clearRepeat).share = h.share := by unfold Hart.clearRepeat; split <;> rfl
@[simp] theorem Hart.clearRepeat_bh (h : Hart) :
    (h.clearRepeat).bh = h.bh := by unfold Hart.clearRepeat; split <;> rfl
@[simp] theorem Hart.clearRepeat_origin (h : Hart) :
    (h.clearRepeat).origin = h.origin := by unfold Hart.clearRepeat; split <;> rfl
@[simp] theorem Hart.clearRepeat_plane (h : Hart) :
    (h.clearRepeat).plane = h.plane := by unfold Hart.clearRepeat; split <;> rfl
@[simp] theorem Hart.clearRepeat_plates (h : Hart) :
    (h.clearRepeat).plates = h.plates := by unfold Hart.clearRepeat; split <;> rfl
@[simp] theorem Hart.clearRepeat_streams (h : Hart) :
    (h.clearRepeat).streams = h.streams := by unfold Hart.clearRepeat; split <;> rfl
@[simp] theorem Hart.clearRepeat_windows (h : Hart) :
    (h.clearRepeat).windows = h.windows := by unfold Hart.clearRepeat; split <;> rfl
@[simp] theorem Hart.clearRepeat_wver (h : Hart) :
    (h.clearRepeat).wver = h.wver := by unfold Hart.clearRepeat; split <;> rfl
@[simp] theorem Hart.clearRepeat_pending (h : Hart) :
    (h.clearRepeat).pending = h.pending := by unfold Hart.clearRepeat; split <;> rfl
@[simp] theorem Hart.clearRepeat_late (h : Hart) :
    (h.clearRepeat).late = h.late := by unfold Hart.clearRepeat; split <;> rfl
@[simp] theorem Hart.clearRepeat_landed (h : Hart) :
    (h.clearRepeat).landed = h.landed := by unfold Hart.clearRepeat; split <;> rfl
@[simp] theorem Hart.clearRepeat_landedFlags (h : Hart) :
    (h.clearRepeat).landedFlags = h.landedFlags := by unfold Hart.clearRepeat; split <;> rfl
@[simp] theorem Hart.clearRepeat_engineFaults (h : Hart) :
    (h.clearRepeat).engineFaults = h.engineFaults := by unfold Hart.clearRepeat; split <;> rfl
@[simp] theorem Hart.clearRepeat_rptCode (h : Hart) :
    (h.clearRepeat).rptCode = h.rptCode := by unfold Hart.clearRepeat; split <;> rfl
@[simp] theorem Hart.clearRepeat_fetched (h : Hart) :
    (h.clearRepeat).fetched = h.fetched := by unfold Hart.clearRepeat; split <;> rfl
@[simp] theorem Hart.clearRepeat_unit (h : Hart) :
    (h.clearRepeat).unit = h.unit := by unfold Hart.clearRepeat; split <;> rfl
@[simp] theorem Hart.clearRepeat_drain (h : Hart) :
    (h.clearRepeat).drain = h.drain := by unfold Hart.clearRepeat; split <;> rfl

/-! ### Hart.commit -/

@[simp] theorem Hart.commit_hid (h : Hart) (p : Word) :
    (h.commit p).hid = h.hid := by unfold Hart.commit Hart.clearRepeat; split <;> rfl
@[simp] theorem Hart.commit_slot (h : Hart) (p : Word) :
    (h.commit p).slot = h.slot := by unfold Hart.commit Hart.clearRepeat; split <;> rfl
@[simp] theorem Hart.commit_idx (h : Hart) (p : Word) :
    (h.commit p).idx = h.idx := by unfold Hart.commit Hart.clearRepeat; split <;> rfl
@[simp] theorem Hart.commit_pc (h : Hart) (p : Word) :
    (h.commit p).pc = p := rfl
@[simp] theorem Hart.commit_priv (h : Hart) (p : Word) :
    (h.commit p).priv = h.priv := by unfold Hart.commit Hart.clearRepeat; split <;> rfl
@[simp] theorem Hart.commit_run (h : Hart) (p : Word) :
    (h.commit p).run = h.run := by unfold Hart.commit Hart.clearRepeat; split <;> rfl
@[simp] theorem Hart.commit_x (h : Hart) (p : Word) :
    (h.commit p).x = h.x := by unfold Hart.commit Hart.clearRepeat; split <;> rfl
@[simp] theorem Hart.commit_ap (h : Hart) (p : Word) :
    (h.commit p).ap = h.ap := by unfold Hart.commit Hart.clearRepeat; split <;> rfl
@[simp] theorem Hart.commit_k (h : Hart) (p : Word) :
    (h.commit p).k = h.k := by unfold Hart.commit Hart.clearRepeat; split <;> rfl
@[simp] theorem Hart.commit_km (h : Hart) (p : Word) :
    (h.commit p).km = h.km := by unfold Hart.commit Hart.clearRepeat; split <;> rfl
@[simp] theorem Hart.commit_vl (h : Hart) (p : Word) :
    (h.commit p).vl = h.vl := by unfold Hart.commit Hart.clearRepeat; split <;> rfl
@[simp] theorem Hart.commit_rc (h : Hart) (p : Word) :
    (h.commit p).rc = h.rc := by unfold Hart.commit Hart.clearRepeat; split <;> rfl
@[simp] theorem Hart.commit_swi (h : Hart) (p : Word) :
    (h.commit p).swi = 0 := rfl
@[simp] theorem Hart.commit_csr (h : Hart) (p : Word) :
    (h.commit p).csr = h.clearRepeat.csr := rfl
@[simp] theorem Hart.commit_efc (h : Hart) (p : Word) :
    (h.commit p).efc = h.efc := by unfold Hart.commit Hart.clearRepeat; split <;> rfl
@[simp] theorem Hart.commit_tefcS (h : Hart) (p : Word) :
    (h.commit p).tefcS = h.tefcS := by unfold Hart.commit Hart.clearRepeat; split <;> rfl
@[simp] theorem Hart.commit_tefcM (h : Hart) (p : Word) :
    (h.commit p).tefcM = h.tefcM := by unfold Hart.commit Hart.clearRepeat; split <;> rfl
@[simp] theorem Hart.commit_cl (h : Hart) (p : Word) :
    (h.commit p).cl = h.cl := by unfold Hart.commit Hart.clearRepeat; split <;> rfl
@[simp] theorem Hart.commit_stair (h : Hart) (p : Word) :
    (h.commit p).stair = h.stair := by unfold Hart.commit Hart.clearRepeat; split <;> rfl
@[simp] theorem Hart.commit_share (h : Hart) (p : Word) :
    (h.commit p).share = h.share := by unfold Hart.commit Hart.clearRepeat; split <;> rfl
@[simp] theorem Hart.commit_bh (h : Hart) (p : Word) :
    (h.commit p).bh = h.bh := by unfold Hart.commit Hart.clearRepeat; split <;> rfl
@[simp] theorem Hart.commit_origin (h : Hart) (p : Word) :
    (h.commit p).origin = h.origin := by unfold Hart.commit Hart.clearRepeat; split <;> rfl
@[simp] theorem Hart.commit_plane (h : Hart) (p : Word) :
    (h.commit p).plane = h.plane := by unfold Hart.commit Hart.clearRepeat; split <;> rfl
@[simp] theorem Hart.commit_plates (h : Hart) (p : Word) :
    (h.commit p).plates = h.plates := by unfold Hart.commit Hart.clearRepeat; split <;> rfl
@[simp] theorem Hart.commit_streams (h : Hart) (p : Word) :
    (h.commit p).streams = h.streams := by unfold Hart.commit Hart.clearRepeat; split <;> rfl
@[simp] theorem Hart.commit_windows (h : Hart) (p : Word) :
    (h.commit p).windows = h.windows := by unfold Hart.commit Hart.clearRepeat; split <;> rfl
@[simp] theorem Hart.commit_wver (h : Hart) (p : Word) :
    (h.commit p).wver = h.wver := by unfold Hart.commit Hart.clearRepeat; split <;> rfl
@[simp] theorem Hart.commit_pending (h : Hart) (p : Word) :
    (h.commit p).pending = h.pending := by unfold Hart.commit Hart.clearRepeat; split <;> rfl
@[simp] theorem Hart.commit_late (h : Hart) (p : Word) :
    (h.commit p).late = h.late := by unfold Hart.commit Hart.clearRepeat; split <;> rfl
@[simp] theorem Hart.commit_landed (h : Hart) (p : Word) :
    (h.commit p).landed = h.landed := by unfold Hart.commit Hart.clearRepeat; split <;> rfl
@[simp] theorem Hart.commit_landedFlags (h : Hart) (p : Word) :
    (h.commit p).landedFlags = h.landedFlags := by unfold Hart.commit Hart.clearRepeat; split <;> rfl
@[simp] theorem Hart.commit_engineFaults (h : Hart) (p : Word) :
    (h.commit p).engineFaults = h.engineFaults := by unfold Hart.commit Hart.clearRepeat; split <;> rfl
@[simp] theorem Hart.commit_rptCode (h : Hart) (p : Word) :
    (h.commit p).rptCode = h.rptCode := by unfold Hart.commit Hart.clearRepeat; split <;> rfl
@[simp] theorem Hart.commit_fetched (h : Hart) (p : Word) :
    (h.commit p).fetched = h.fetched := by unfold Hart.commit Hart.clearRepeat; split <;> rfl
@[simp] theorem Hart.commit_unit (h : Hart) (p : Word) :
    (h.commit p).unit = h.unit := by unfold Hart.commit Hart.clearRepeat; split <;> rfl
@[simp] theorem Hart.commit_drain (h : Hart) (p : Word) :
    (h.commit p).drain = h.drain := by unfold Hart.commit Hart.clearRepeat; split <;> rfl

end Sys2Proof.Machine
end

