-- ==== Sys2Proof/Laws/Memory.lean ====
section
/-! SUPPORT. Sparse maps and memory: a read after a write, the canonical form kept by every memory operation, and what the
operations over outstanding stores may change. -/

namespace Sys2Proof.Machine

open Sys2Proof

/-! ### Reads after writes -/

theorem SMap.get_insert_self {w : Nat} (k : Nat) (v : BitVec w) (m : SMap w) : (SMap.insert k v m).get k = v ∨
    (m.any (fun p => p.1 == k)) = true := by
  induction m with
  | nil => left; simp [SMap.insert, SMap.get]
  | cons p m ih =>
    obtain ⟨a, u⟩ := p
    by_cases h : a < k
    · rcases ih with h1 | h1
      · left
        simp [SMap.insert, h, SMap.get, h1, Nat.ne_of_lt h]
      · right
        simp [h1]
    · left
      simp [SMap.insert, h, SMap.get]

theorem SMap.get_insert_ne {w : Nat} {k j : Nat} (v : BitVec w) (m : SMap w) (h : j ≠ k) :
    (SMap.insert k v m).get j = m.get j := by
  induction m with
  | nil => simp [SMap.insert, SMap.get, Ne.symm h]
  | cons p m ih =>
    obtain ⟨a, u⟩ := p
    by_cases hk : a < k
    · simp [SMap.insert, hk, SMap.get, ih]
    · simp [SMap.insert, hk, SMap.get, Ne.symm h]

theorem SMap.get_erase_ne {w : Nat} {k j : Nat} (m : SMap w) (h : j ≠ k) : (SMap.erase k m).get j = m.get j := by
  induction m with
  | nil => rfl
  | cons p m ih =>
    obtain ⟨a, u⟩ := p
    by_cases hk : a = k
    · subst hk
      simp [SMap.erase, SMap.get, ih, Ne.symm h]
    · simp [SMap.erase, hk, SMap.get, ih]

theorem SMap.erase_none {w : Nat} (k : Nat) (m : SMap w) : (SMap.erase k m).any (fun p => p.1 == k) = false := by
  induction m with
  | nil => rfl
  | cons p m ih =>
    obtain ⟨a, u⟩ := p
    by_cases hk : a = k
    · simpa [SMap.erase, hk] using ih
    · simpa [SMap.erase, hk] using ih

theorem SMap.get_erase_self {w : Nat} (k : Nat) (m : SMap w) : (SMap.erase k m).get k = 0 := by
  induction m with
  | nil => rfl
  | cons p m ih =>
    obtain ⟨a, u⟩ := p
    by_cases hk : a = k
    · simp [SMap.erase, hk, ih]
    · simp [SMap.erase, hk, SMap.get, ih]

/-- A read after a write to the same key gives the value written. -/
@[simp] theorem SMap.get_set_self {w : Nat} (m : SMap w) (k : Nat) (v : BitVec w) : (m.set k v).get k = v := by
  unfold SMap.set
  split
  · rename_i h
    rw [h, SMap.get_erase_self]
  · rcases SMap.get_insert_self k v (SMap.erase k m) with h | h
    · exact h
    · rw [SMap.erase_none] at h
      cases h

/-- A write leaves every other key alone. -/
theorem SMap.get_set_ne {w : Nat} {k j : Nat} (m : SMap w) (v : BitVec w) (h : j ≠ k) : (m.set k v).get j = m.get j := by
  unfold SMap.set
  split
  · exact SMap.get_erase_ne m h
  · rw [SMap.get_insert_ne _ _ h, SMap.get_erase_ne m h]

/-- A read after a run of writes: the value written at the key, or what was there. -/
theorem SMap.get_setAll {w : Nat} (vs : List (BitVec w)) : ∀ (m : SMap w) (k j : Nat), (SMap.setAll m k vs).get j =
    if k ≤ j ∧ j < k + vs.length then vs.getD (j - k) 0 else m.get j := by
  induction vs with
  | nil =>
    intro m k j
    rw [if_neg (by simp only [List.length_nil]; omega)]
    rfl
  | cons v vs ih =>
    intro m k j
    rw [SMap.setAll, ih]
    by_cases h : j = k
    · subst h
      rw [if_neg (by omega), if_pos (by simp), SMap.get_set_self]
      simp
    · rw [SMap.get_set_ne _ _ h]
      by_cases h2 : k ≤ j ∧ j < k + (vs.length + 1)
      · rw [if_pos (by omega), if_pos (by simpa using h2)]
        obtain ⟨n, hn⟩ : ∃ n, j - k = n + 1 := ⟨j - k - 1, by omega⟩
        rw [hn, List.getD_cons_succ]
        congr 1
        omega
      · rw [if_neg (by omega), if_neg (by simpa using h2)]

/-! ### The canonical form -/

theorem SMap.above_mono {w : Nat} {lo lo' : Nat} (h : lo' ≤ lo) {m : SMap w} (hm : SMap.above lo m = true) :
    SMap.above lo' m = true := by
  cases m with
  | nil => rfl
  | cons p m =>
    obtain ⟨a, v⟩ := p
    simp only [SMap.above, Bool.and_eq_true, decide_eq_true_eq] at hm ⊢
    exact ⟨⟨by omega, hm.1.2⟩, hm.2⟩

theorem SMap.above_erase {w : Nat} (k : Nat) : ∀ (m : SMap w) (lo : Nat), SMap.above lo m = true →
    SMap.above lo (SMap.erase k m) = true := by
  intro m
  induction m with
  | nil => intro lo h; exact h
  | cons p m ih =>
    intro lo h
    obtain ⟨a, v⟩ := p
    simp only [SMap.above, Bool.and_eq_true, decide_eq_true_eq] at h
    by_cases hk : a = k
    · simp only [SMap.erase, hk, if_true]
      exact ih lo (SMap.above_mono (by omega) h.2)
    · simp only [SMap.erase, hk, if_false, SMap.above, Bool.and_eq_true, decide_eq_true_eq]
      exact ⟨h.1, ih _ h.2⟩

theorem SMap.above_insert {w : Nat} {k : Nat} {v : BitVec w} (hv : v ≠ 0) : ∀ (m : SMap w) (lo : Nat), lo ≤ k →
    m.any (fun p => p.1 == k) = false → SMap.above lo m = true → SMap.above lo (SMap.insert k v m) = true := by
  intro m
  induction m with
  | nil =>
    intro lo hl _ _
    simpa [SMap.insert, SMap.above, hl] using hv
  | cons p m ih =>
    intro lo hl hn h
    obtain ⟨a, u⟩ := p
    simp only [List.any_cons, Bool.or_eq_false_iff, beq_eq_false_iff_ne, ne_eq] at hn
    simp only [SMap.above, Bool.and_eq_true, decide_eq_true_eq] at h
    by_cases hk : a < k
    · simp only [SMap.insert, hk, if_true, SMap.above, Bool.and_eq_true, decide_eq_true_eq]
      exact ⟨h.1, ih _ (by omega) hn.2 h.2⟩
    · simp only [SMap.insert, hk, if_false, SMap.above, Bool.and_eq_true, decide_eq_true_eq]
      exact ⟨⟨hl, hv⟩, ⟨by omega, h.1.2⟩, h.2⟩

/-- A write keeps the canonical form. -/
theorem SMap.wf_set {w : Nat} {m : SMap w} (k : Nat) (v : BitVec w) (h : SMap.wf m = true) : SMap.wf (m.set k v) = true := by
  unfold SMap.set
  split
  · exact SMap.above_erase k m 0 h
  · rename_i hv
    exact SMap.above_insert hv _ 0 (Nat.zero_le _) (SMap.erase_none k m) (SMap.above_erase k m 0 h)

theorem SMap.wf_setAll {w : Nat} (vs : List (BitVec w)) : ∀ (m : SMap w) (k : Nat), SMap.wf m = true →
    SMap.wf (SMap.setAll m k vs) = true := by
  induction vs with
  | nil => intro m k h; exact h
  | cons v vs ih => intro m k h; exact ih _ _ (SMap.wf_set k v h)

theorem above_ext {w : Nat} : ∀ (m n : SMap w) (lo : Nat), SMap.above lo m = true → SMap.above lo n = true →
    (∀ j, m.get j = n.get j) → m = n := by
  have out : ∀ (m : SMap w) (lo j : Nat), SMap.above lo m = true → j < lo → m.get j = 0 := by
    intro m
    induction m with
    | nil => intros; rfl
    | cons p m ih =>
      intro lo j h hj
      obtain ⟨a, v⟩ := p
      simp only [SMap.above, Bool.and_eq_true, decide_eq_true_eq] at h
      rw [SMap.get, if_neg (by omega)]
      exact ih (a + 1) j h.2 (by omega)
  intro m
  induction m with
  | nil =>
    intro n lo _ hn he
    cases n with
    | nil => rfl
    | cons p n =>
      obtain ⟨a, v⟩ := p
      simp only [SMap.above, Bool.and_eq_true, decide_eq_true_eq] at hn
      have := he a
      simp only [SMap.get, if_true] at this
      exact absurd this.symm hn.1.2
  | cons p m ih =>
    intro n lo hm hn he
    obtain ⟨a, v⟩ := p
    simp only [SMap.above, Bool.and_eq_true, decide_eq_true_eq] at hm
    cases n with
    | nil =>
      have := he a
      simp only [SMap.get, if_true] at this
      exact absurd this hm.1.2
    | cons q n =>
      obtain ⟨b, u⟩ := q
      simp only [SMap.above, Bool.and_eq_true, decide_eq_true_eq] at hn
      have hab : a = b := by
        rcases Nat.lt_trichotomy a b with h | h | h
        · have := he a
          rw [SMap.get, if_pos rfl, SMap.get, if_neg (by omega), out n (b + 1) a hn.2 (by omega)] at this
          exact absurd this hm.1.2
        · exact h
        · have := he b
          rw [SMap.get, if_neg (by omega), out m (a + 1) b hm.2 (by omega), SMap.get, if_pos rfl] at this
          exact absurd this.symm hn.1.2
      subst hab
      have hv := he a
      simp only [SMap.get, if_true] at hv
      subst hv
      rw [ih n (a + 1) hm.2 hn.2 (fun j => ?_)]
      have hj := he j
      by_cases h : a = j
      · subst h
        rw [out m (a + 1) a hm.2 (by omega), out n (a + 1) a hn.2 (by omega)]
      · simpa only [SMap.get, if_neg h] using hj

/-- Two canonical maps that read alike are equal. -/
theorem SMap.ext {w : Nat} {m n : SMap w} (hm : SMap.wf m = true) (hn : SMap.wf n = true)
    (h : ∀ j, m.get j = n.get j) : m = n := above_ext m n 0 hm hn h

/-! ### Memory operations keep the canonical form -/

/-- Memory is canonical. -/
abbrev State.memOk (s : State) : Prop := Memory.wf s.mem = true

theorem State.memOk_pokeRaw {s : State} (loc : Nat) (bs : List Byte) (h : s.memOk) : (s.pokeRaw loc bs).memOk :=
  SMap.wf_setAll bs s.mem loc h

theorem State.poke_mem (s : State) (loc : Nat) (bs : List Byte) : (s.poke loc bs).mem = SMap.setAll (w := 8) s.mem loc bs := rfl

theorem State.memOk_poke {s : State} (loc : Nat) (bs : List Byte) (h : s.memOk) : (s.poke loc bs).memOk :=
  SMap.wf_setAll bs s.mem loc h

theorem State.memOk_foldl {α : Type} {f : State → α → State} (hf : ∀ s a, s.memOk → (f s a).memOk) (l : List α) :
    ∀ {s : State}, s.memOk → (l.foldl f s).memOk := by
  induction l with
  | nil => intro s h; exact h
  | cons a l ih => intro s h; exact ih (hf s a h)

theorem State.memOk_updHartAt {s : State} (n : Nat) (f : Hart → Hart) (h : s.memOk) : (s.updHartAt n f).memOk := h

theorem State.memOk_perform {s : State} (hid : Nat) (x : Pending) (h : s.memOk) : (s.perform hid x).memOk := by
  unfold State.perform
  split
  · exact State.memOk_poke _ _ h
  · dsimp only
    refine State.memOk_updHartAt _ _ ?_
    split
    · exact h
    · exact State.memOk_poke _ _ h

theorem State.memOk_performSome {s : State} (hid : Nat) (p : Pending → Bool) (c : Nat) (h : s.memOk) :
    (s.performSome hid p c).memOk := by
  unfold State.performSome
  split
  · exact h
  · exact State.memOk_foldl (fun s x hs => State.memOk_perform _ _ hs) _ h

theorem State.memOk_performAll {s : State} (hid : Nat) (p : Pending → Bool) (h : s.memOk) : (s.performAll hid p).memOk :=
  State.memOk_performSome _ _ _ h

theorem State.memOk_settleOwn {s : State} (hid : Nat) (vec : Bool) (loc n : Nat) (h : s.memOk) :
    (s.settleOwn hid vec loc n).memOk := by
  unfold State.settleOwn
  dsimp only
  split
  · exact State.memOk_performAll _ _ h
  · exact h

theorem State.memOk_drain {s : State} (hid : Nat) (h : s.memOk) : (s.drain hid).memOk := State.memOk_performSome _ _ _ h

theorem State.memOk_settle {s : State} (hid : Nat) (vec : Bool) (loc n : Nat) (h : s.memOk) :
    (s.settle hid vec loc n).memOk := by
  unfold State.settle
  refine State.memOk_settleOwn _ _ _ _ (State.memOk_foldl (fun s x hs => ?_) _ h)
  dsimp only
  split
  · exact State.memOk_performSome _ _ _ hs
  · exact hs

theorem State.memOk_settleWalk (va : Nat) : ∀ (ls : List (Nat × Nat)) (s : State) (t : Nat), s.memOk →
    (s.settleWalk va t ls).memOk := by
  intro ls
  induction ls with
  | nil => intro s t h; exact h
  | cons l ls ih =>
    intro s t h
    obtain ⟨lo, w⟩ := l
    rw [State.settleWalk]
    split
    · exact ih _ _ (State.memOk_settle _ _ _ _ h)
    · exact State.memOk_settle _ _ _ _ h

theorem State.memOk_seeTables {s : State} (root va : Nat) (h : s.memOk) : (s.seeTables root va).memOk := by
  unfold State.seeTables
  split
  · exact State.memOk_settleWalk _ _ _ _ h
  · exact h

theorem State.memOk_leave {s : State} (hid : Nat) (x : Pending) (h : s.memOk) : (s.leave hid x).memOk := by
  unfold State.leave
  dsimp only
  split
  · exact h
  · split
    · exact State.memOk_performSome _ _ _ h
    · exact h

theorem State.memOk_store {s : State} (hid : Nat) (vec : Bool) (loc : Nat) (bs : List Byte) (h : s.memOk) :
    (s.store hid vec loc bs).memOk := State.memOk_leave _ _ h

@[simp] theorem State.postFH_mem (s : State) : s.postFH.mem = s.mem := rfl

theorem State.memOk_hall {s : State} (r : HallRec) (h : s.memOk) : (s.hall r).memOk := by
  unfold State.hall
  split
  · rw [State.memOk, State.setMgmt_mem]
    exact h
  · rw [State.memOk, State.postFH_mem, State.setMgmt_mem]
    exact State.memOk_poke _ _ h

theorem State.memOk_ownerWrite {s : State} (m o : Nat) (f : State → State) (hf : (f s).memOk) (h : s.memOk) :
    (s.ownerWrite m o f).memOk := by
  unfold State.ownerWrite
  split
  · exact hf
  · exact State.memOk_hall _ h

theorem State.memOk_endGang {s : State} (g : Gang) (h : s.memOk) : (s.endGang g).memOk := by
  unfold State.endGang
  dsimp only
  split <;> exact h

theorem State.memOk_leaveHart {s : State} (x : Hart) (h : s.memOk) : (s.leaveHart x).memOk := by
  unfold State.leaveHart
  dsimp only
  have hd := State.memOk_drain x.hid h
  split
  · exact hd
  · split
    · exact State.memOk_endGang _ hd
    · exact hd

theorem State.memOk_stopHart {s : State} (x : Hart) (t : TrapRec) (h : s.memOk) : (s.stopHart x t).memOk := by
  unfold State.stopHart
  dsimp only
  apply State.memOk_hall
  apply State.memOk_leaveHart
  split <;> exact h

/-- Taking a trap keeps memory canonical. -/
theorem State.memOk_takeTrap {s : State} (t : TrapRec) (h : s.memOk) : (s.takeTrap t).memOk := by
  unfold State.takeTrap
  split
  · exact h
  · split
    · exact h
    · exact State.memOk_stopHart _ _ h

/-- The state that an effect leaves. -/
def Exec.state : Exec → State
  | .done s | .jump s _ | .trap s _ | .moved s | .wait s => s

/-- Settling an effect keeps memory canonical. -/
theorem Exec.memOk_outcome {e : Exec} (len : Nat) (h : e.state.memOk) {t : State} (ht : e.outcome len = .next t) :
    t.memOk := by
  cases e <;> simp only [Exec.outcome, Host.Outcome.next.injEq] at ht <;> subst ht
  case trap s t => exact State.memOk_takeTrap t h
  all_goals exact h

end Sys2Proof.Machine
end

