-- ==== Sys2Proof/Laws/Exec.lean ====
section
/-! SUPPORT. What the shared operations can do, said once: how an instruction ends at its hart, an event, updates of one hart, and accesses
in a state where nothing is outstanding. -/

namespace Sys2Proof.Machine

open Sys2Proof

/-! ### The hart that moves -/

theorem State.hid_of_hartAt {s : State} {n : Nat} {h : Hart} (hs : s.hartAt n = some h) : h.hid = n := by
  simpa using List.find?_some hs

theorem State.hid_of_hart? {s : State} {h : Hart} (hs : s.hart? = some h) : h.hid = s.cur := State.hid_of_hartAt hs

theorem onHart_eq {s : State} {h : Hart} (hs : s.hart? = some h) (len : Nat) (f : Hart → Exec) :
    onHart len s f = (f h).outcome len := by simp [onHart, hs]

theorem hartOp_eq {s : State} {h : Hart} (hs : s.hart? = some h) (len : Nat) (f : Hart → Hart) :
    hartOp len s f = .next (s.ran (f h) len) := by
  rw [hartOp, onHart_eq hs]; rfl

theorem event_eq {s : State} (hp : s.power = true) (f : State → State) : event s f = .next (f s) := by simp [event, hp]

theorem event_off {s : State} (hp : s.power = false) (f : State → State) : event s f = .fault .powerOff := by simp [event, hp]

@[simp] theorem Exec.outcome_done (len : Nat) (s : State) : (Exec.done s).outcome len = .next (s.stepOver len) := rfl
@[simp] theorem Exec.outcome_trap (len : Nat) (s : State) (t : TrapRec) : (Exec.trap s t).outcome len = .next (s.takeTrap t) := rfl
@[simp] theorem Exec.outcome_wait (len : Nat) (s : State) : (Exec.wait s).outcome len = .next s := rfl
@[simp] theorem Exec.outcome_moved (len : Nat) (s : State) : (Exec.moved s).outcome len = .next s := rfl

/-! ### One hart changed -/

theorem find_map_self {f : Hart → Hart} {n : Nat} {h : Hart} (hf : (f h).hid = h.hid) :
    ∀ {l : List Hart}, l.find? (fun g => g.hid == n) = some h →
      (l.map (fun g => if g.hid == n then f g else g)).find? (fun g => g.hid == n) = some (f h)
  | [], e => by simp at e
  | g :: l, e => by
    cases c : (g.hid == n) with
    | true =>
      simp only [List.find?_cons, c, Option.some.injEq] at e
      subst e
      simp only [List.map_cons, c, if_true, List.find?_cons, hf]
    | false =>
      simp only [List.find?_cons, c] at e
      simp only [List.map_cons, c, Bool.false_eq_true, if_false, List.find?_cons]
      exact find_map_self hf e

theorem find_map_ne {f : Hart → Hart} {n m : Nat} (hm : m ≠ n) (hf : ∀ g : Hart, g.hid = n → (f g).hid = n) :
    ∀ l : List Hart, (l.map (fun g => if g.hid == n then f g else g)).find? (fun g => g.hid == m) =
      l.find? (fun g => g.hid == m)
  | [] => rfl
  | g :: l => by
    have ih := find_map_ne hm hf l
    by_cases c : g.hid = n
    · have h1 : (g.hid == m) = false := beq_eq_false_iff_ne.mpr (by omega)
      have h2 : ((f g).hid == m) = false := beq_eq_false_iff_ne.mpr (by rw [hf g c]; omega)
      simp only [List.map_cons, c, beq_self_eq_true, if_true, List.find?_cons, h2]
      rw [ih]
      rw [show (n == m) = false from by rw [← c]; exact h1]
    · have h1 : (g.hid == n) = false := beq_eq_false_iff_ne.mpr c
      simp only [List.map_cons, h1, Bool.false_eq_true, if_false, List.find?_cons, ih]

theorem State.hartAt_updHartAt {s : State} {n : Nat} {h : Hart} (hs : s.hartAt n = some h) {f : Hart → Hart}
    (hf : (f h).hid = h.hid) : (s.updHartAt n f).hartAt n = some (f h) := find_map_self hf hs

theorem State.hart?_updHart {s : State} {h : Hart} (hs : s.hart? = some h) {f : Hart → Hart} (hf : (f h).hid = h.hid) :
    (s.updHart f).hart? = some (f h) := find_map_self hf hs

theorem State.hartAt_updHartAt_ne {s : State} {n m : Nat} (hm : m ≠ n) {f : Hart → Hart}
    (hf : ∀ g : Hart, g.hid = n → (f g).hid = n) : (s.updHartAt n f).hartAt m = s.hartAt m := find_map_ne hm hf _

/-- Registers put into the hart that moves: its outstanding stores, what its atomics have read and its engine faults stay. -/
theorem State.hart?_setHart {s : State} {h g : Hart} (hs : s.hart? = some h) (hg : g.hid = h.hid) : (s.setHart g).hart? =
    some { g with pending := h.pending, landed := h.landed, landedFlags := h.landedFlags, engineFaults := h.engineFaults } :=
  State.hart?_updHart (f := fun x => { g with pending := x.pending, landed := x.landed, landedFlags := x.landedFlags, engineFaults := x.engineFaults }) hs hg

theorem State.onlyHart_updHart (s : State) {f : Hart → Hart} (hf : ∀ g : Hart, g.hid = s.cur → (f g).hid = s.cur) :
    s.OnlyHart (s.updHart f) := ⟨rfl, fun _ hn => State.hartAt_updHartAt_ne hn hf⟩

theorem State.onlyHart_setHart (s : State) {g : Hart} (hg : g.hid = s.cur) : s.OnlyHart (s.setHart g) :=
  State.onlyHart_updHart s (fun _ _ => hg)

theorem State.OnlyHart.trans {s t u : State} (h : s.OnlyHart t) (k : t.OnlyHart u) : s.OnlyHart u := by
  obtain ⟨h1, h2⟩ := h
  obtain ⟨k1, k2⟩ := k
  have hc : t.cur = s.cur := by rw [h1]
  refine ⟨?_, fun n hn => (k2 n (hc ▸ hn)).trans (h2 n hn)⟩
  rw [k1, h1]

/-! ### Nothing outstanding -/

theorem State.performSome_quiet {s : State} (hq : ∀ g ∈ s.harts, g.pending = []) (hid : Nat) (p : Pending → Bool) (c : Nat) :
    s.performSome hid p c = s := by
  unfold State.performSome
  cases hs : s.hartAt hid with
  | none => rfl
  | some h =>
    have hp : h.pending = [] := hq h (List.mem_of_find?_eq_some hs)
    have hm : s.harts.map (fun g => if g.hid == hid then { g with pending := [] } else g) = s.harts := by
      conv_rhs => rw [← List.map_id s.harts]
      refine List.map_congr_left (fun g hg => ?_)
      have := hq g hg
      split
      · cases g; simp_all
      · rfl
    simp only [hp, choose, withOlder, State.updHartAt, List.filter_nil, List.map_nil, List.foldl_nil, hm]

theorem State.drain_quiet {s : State} (hq : ∀ g ∈ s.harts, g.pending = []) (hid : Nat) : s.drain hid = s :=
  State.performSome_quiet hq _ _ _

theorem State.performAll_quiet {s : State} (hq : ∀ g ∈ s.harts, g.pending = []) (hid : Nat) (p : Pending → Bool) :
    s.performAll hid p = s := State.performSome_quiet hq _ _ _

theorem State.settleOwn_quiet {s : State} (hq : ∀ g ∈ s.harts, g.pending = []) (hid : Nat) (vec : Bool) (loc n : Nat) :
    s.settleOwn hid vec loc n = s := by
  unfold State.settleOwn
  dsimp only
  rw [State.performAll_quiet hq, ite_self]

theorem State.settle_quiet {s : State} (hq : ∀ g ∈ s.harts, g.pending = []) (hid : Nat) (vec : Bool) (loc n : Nat) :
    s.settle hid vec loc n = s := by
  have : ∀ l : List Hart, (∀ g ∈ l, g.pending = []) → l.foldl (fun s h =>
      if h.pending.any (fun x => overlaps loc n x.loc x.bytes.length && !(h.hid == hid && x.vec == vec)) then
        s.performSome h.hid (fun x => overlaps loc n x.loc x.bytes.length && !(h.hid == hid && x.vec == vec))
          (Config.performed s.tick h.hid) else s) s = s := by
    intro l
    induction l with
    | nil => intro _; rfl
    | cons g l ih =>
      intro hl
      simp only [List.foldl_cons, hl g (by simp), List.any_nil, Bool.false_eq_true, if_false]
      exact ih (fun g hg => hl g (by simp [hg]))
  unfold State.settle
  rw [this _ hq]
  exact State.settleOwn_quiet hq _ _ _ _

theorem State.reach_quiet {s : State} (hq : s.engines = []) (h : Hart) (vec store : Bool) (loc n : Nat) (near : Bool) :
    s.reach h vec store loc n near = some s := by simp [State.reach, hq]

theorem State.completeAll_none {s : State} {hid : Nat} (hq : s.enginesOf hid = []) : s.completeAll hid = s := by
  simp [State.completeAll, hq]

/-- A release where nothing is outstanding: only the stair's part in it is noted (R199). -/
theorem State.release_quiet {s : State} (hq : s.Quiet) (hid : Nat) : s.release hid = (s.markFence hid, true) := by
  have he : (s.markFence hid).enginesOf hid = [] := by simp [State.enginesOf, State.markFence, hq.1]
  simp [State.release, State.drain_quiet hq.2, State.completeAll_none he, he]

theorem State.releaseIf_quiet {s : State} (hq : s.Quiet) (q : BitVec 2) (hid : Nat) :
    s.releaseIf q hid = (if isRel q then s.markFence hid else s, true) := by
  unfold State.releaseIf; split
  · exact State.release_quiet hq hid
  · rfl

theorem overlay_nil (vec : Bool) (loc : Nat) (b : Byte) : overlay [] vec loc b = b := rfl

theorem State.see_quiet {s : State} {h : Hart} (hq : h.pending = []) (vec : Bool) (loc n : Nat) :
    s.see h vec loc n = peek s.mem loc n := by simp [State.see, hq]

/-- A load where nothing is outstanding gives the bytes of memory. -/
theorem State.load_quiet {s t : State} {h : Hart} {vec : Bool} {u : Use} {va : Word} {n loc : Nat}
    (hp : s.place h u va n = .ok (t, .mem loc)) (hq : t.Quiet) (h3 : pathOf va ≠ 3) (hb : poisoned t.poison loc n = false) :
    s.load h vec u va n = .ok (t, peek t.mem loc n) := by
  unfold State.load
  simp only [hp, h3, if_false, State.reach_quiet hq.1, State.settle_quiet hq.2, State.performAll_quiet hq.2, ite_self, hb,
    Bool.false_eq_true]
  cases hs : t.hartAt h.hid with
  | none => rfl
  | some g => simp [State.see_quiet (hq.2 g (List.mem_of_find?_eq_some hs))]

/-- An atomic step where nothing is outstanding. -/
theorem State.rmw_quiet {s t : State} {h : Hart} {vec acq : Bool} {va : Word} {n loc : Nat} {f : Nat → Option Nat}
    (hp : s.place h .atomic va n = .ok (t, .mem loc)) (hq : t.Quiet) (hb : poisoned t.poison loc n = false) :
    s.rmw h vec va n f acq = .ok (match f (peekNat t.mem loc n) with
      | none => t
      | some v => t.poke loc (leBytes n v), peekNat t.mem loc n) := by
  unfold State.rmw
  simp only [hp, State.reach_quiet hq.1, State.settle_quiet hq.2, State.performAll, State.performSome_quiet hq.2, hb,
    Bool.false_eq_true, if_false]
  cases f (peekNat t.mem loc n) <;> rfl

end Sys2Proof.Machine
end

