-- ==== Sys2Proof/Laws/Late.lean ====
section
/-! SUPPORT. What late loads can do: they keep memory canonical, and where no load is late a step adds only the list of its own. -/

namespace Sys2Proof.Machine

open Sys2Proof

theorem State.memOk_updHart {s : State} (f : Hart → Hart) (h : s.memOk) : (s.updHart f).memOk := h

theorem State.memOk_performLate {t : State} (hid : Nat) (l : Late) (h : t.memOk) : (t.performLate hid l).memOk :=
  State.memOk_updHartAt _ _ (State.memOk_settleOwn _ _ _ _ (State.memOk_performAll _ _ h))

theorem State.memOk_lateStores (s t : State) (g g' : Hart) (hid : Nat) : ∀ (ls : List Late) (k : Nat) (u : State),
    u.memOk → (State.lateStores s t g g' hid k ls u).memOk := by
  intro ls
  induction ls with
  | nil => intro k u h; exact h
  | cons l ls ih =>
    intro k u h
    rw [State.lateStores]
    refine ih _ _ ?_
    split
    · exact State.memOk_performLate hid l h
    · exact h

theorem State.memOk_lateHart (s t : State) (g g' : Hart) (i : Instr) {u : State} (x : Hart) (h : u.memOk) :
    (s.lateHart t g g' i u x).memOk := by
  unfold State.lateHart
  dsimp only
  split
  · exact h
  · exact State.memOk_lateStores _ _ _ _ _ _ _ _ h

/-- Late loads keep memory canonical. -/
theorem State.memOk_lateAfter (s : State) (i : Instr) {t : State} (h : t.memOk) : (s.lateAfter i t).memOk := by
  unfold State.lateAfter
  split
  · refine State.memOk_updHart _ ?_
    split
    · exact State.memOk_foldl (fun u x hu => State.memOk_lateHart _ _ _ _ _ x hu) _ h
    · exact h
  · exact h

theorem State.lateOutcome_next {s t : State} {i : Instr} {o : Host.Outcome State Fault Refusal} (h : s.lateOutcome i o = .next t) :
    ∃ u, o = .next u ∧ t = s.lateAfter i u := by
  cases o with
  | next u => exact ⟨u, rfl, by simpa [State.lateOutcome] using h.symm⟩
  | fault _ => simp [State.lateOutcome] at h
  | refused _ => simp [State.lateOutcome] at h

theorem State.updHart_late_nil {t : State} {f : List Late → List Late} (hf : f [] = []) (hl : ∀ g ∈ t.harts, g.late = []) :
    t.updHart (fun g => { g with late := f g.late }) = t := by
  have : t.harts.map (fun g => if g.hid == t.cur then { g with late := f g.late } else g) = t.harts := by
    conv_rhs => rw [← List.map_id t.harts]
    refine List.map_congr_left (fun g hg => ?_)
    have := hl g hg
    split
    · cases g; simp_all
    · rfl
  simp only [State.updHart, State.updHartAt, this]

@[simp] theorem State.lateLeft_nil (s : State) (i : Instr) (h : Hart) : s.lateLeft i h [] = [] := by simp [State.lateLeft]

theorem State.lateHart_none (s t : State) (h h' : Hart) (i : Instr) (u : State) {g : Hart} (hl : g.late = []) :
    s.lateHart t h h' i u g = u := by simp [State.lateHart, hl]

/-- Where no load is late before, only the list of late loads is new. -/
theorem State.lateAfter_none {s t : State} {h h' : Hart} (i : Instr) (hs : s.hart? = some h) (ht : t.hart? = some h')
    (hl : ∀ g ∈ t.harts, g.late = []) :
    s.lateAfter i t = t.updHart (fun g => { g with late := g.late ++ s.lateNew i h h' }) := by
  have hfold : ∀ (l : List Hart), (∀ g ∈ l, g.late = []) → ∀ u : State, l.foldl (fun u g => s.lateHart t h h' i u g) u = u := by
    intro l
    induction l with
    | nil => intro _ u; rfl
    | cons g l ih =>
      intro hg u
      rw [List.foldl_cons, State.lateHart_none _ _ _ _ _ _ (hg g (by simp))]
      exact ih (fun x hx => hg x (by simp [hx])) u
  have hm : t.harts.map (fun g => if g.hid == t.cur then
      { g with late := g.late.filter (fun l => !(s.lateNew i h h').any l.meets) ++ s.lateNew i h h' } else g) =
      t.harts.map (fun g => if g.hid == t.cur then { g with late := g.late ++ s.lateNew i h h' } else g) := by
    refine List.map_congr_left (fun g hg => ?_)
    rw [hl g hg]
    rfl
  unfold State.lateAfter
  rw [hs, ht]
  dsimp only
  rw [State.updHart_late_nil (f := s.lateLeft i h) (State.lateLeft_nil s i h) hl, hfold _ hl, ite_self]
  simp only [State.updHart, State.updHartAt, hm]

end Sys2Proof.Machine
end

