-- ==== Sys2Proof/Laws/PerInstr.lean ====
section
/-! SUPPORT. The family Encoding: the decoder reads every well-formed instruction back from its encoding. One lemma per
constructor; an event has no words. -/

set_option linter.all false

namespace Sys2Proof.Laws

open Sys2Proof

/-- The words of a well-formed instruction decode to it, with every operand at every value the encoding admits. -/
def Encoding.Statement (i : Instr) : Prop :=
  i.wf = true → ∀ w v, (encode i = .one w → decode w v = some i) ∧ (encode i = .two w v → decode w v = some i)

/-- An event has no words. -/
theorem Encoding.noWords {i : Instr} (he : encode i = .none) : Encoding.Statement i := by
  intro _ w v
  exact ⟨fun e => (by rw [he] at e; cases e), fun e => (by rw [he] at e; cases e)⟩

/-- A one-word instruction whose fields are read back. -/
theorem Encoding.oneWord {i : Instr} {w : IWord} (he : encode i = .one w) (hm : isLong w = false)
    (h : i.wf = true → ∀ v, rawDecode w v = some i) : Encoding.Statement i := by
  intro hw w' v
  refine ⟨fun e => ?_, fun e => ?_⟩
  · rw [he] at e
    cases e
    exact decode_eq (h hw v) hw (by rw [he, wordsAt, hm]; rfl)
  · rw [he] at e
    cases e

/-- A two-word instruction whose fields are read back. -/
theorem Encoding.twoWords {i : Instr} {w v : IWord} (he : encode i = .two w v) (hm : isLong w = true)
    (h : i.wf = true → rawDecode w v = some i) : Encoding.Statement i := by
  intro hw w' v'
  refine ⟨fun e => ?_, fun e => ?_⟩
  · rw [he] at e
    cases e
  · rw [he] at e
    cases e
    exact decode_eq (h hw) hw (by rw [he, wordsAt, hm]; rfl)

/-- An A-format instruction, through its half. -/
theorem Encoding.halfWord {i : Instr} {h : AHalf} {mask : BitVec 2} (he : encode i = .one (h.word mask))
    (hi : h.toInstr mask = i) (hm : ∀ v, rawDecode (h.word mask) v =
      match AHalf.ofWord (h.word mask) with
      | some h' => some (h'.toInstr (fMask (h.word mask)))
      | none => none) (hl : isLong (h.word mask) = false) : Encoding.Statement i :=
  Encoding.oneWord he hl (fun _ v => by rw [hm, ofWord_word, fMask_word]; exact congrArg some hi)

theorem Encoding.moduleReset (a0) : Encoding.Statement (.moduleReset a0) := Encoding.noWords rfl
theorem Encoding.msgWrite (a0 a1 a2 a3) : Encoding.Statement (.msgWrite a0 a1 a2 a3) := Encoding.noWords rfl
theorem Encoding.lqcfgWrite (a0 a1 a2) : Encoding.Statement (.lqcfgWrite a0 a1 a2) := Encoding.noWords rfl
theorem Encoding.waitCounterRead (a0) : Encoding.Statement (.waitCounterRead a0) := Encoding.noWords rfl
theorem Encoding.placementDecision : Encoding.Statement .placementDecision := Encoding.noWords rfl
theorem Encoding.launchComplete (a0) : Encoding.Statement (.launchComplete a0) := Encoding.noWords rfl
theorem Encoding.lctlWrite (a0) : Encoding.Statement (.lctlWrite a0) := Encoding.noWords rfl
theorem Encoding.vectorIssue (a0) : Encoding.Statement (.vectorIssue a0) := Encoding.noWords rfl
theorem Encoding.vectorPass (a0) : Encoding.Statement (.vectorPass a0) := Encoding.noWords rfl
theorem Encoding.laneGroupGate (a0 a1) : Encoding.Statement (.laneGroupGate a0 a1) := Encoding.noWords rfl
theorem Encoding.laneGroupWake (a0 a1) : Encoding.Statement (.laneGroupWake a0 a1) := Encoding.noWords rfl
theorem Encoding.dispatchGate (a0) : Encoding.Statement (.dispatchGate a0) := Encoding.noWords rfl
theorem Encoding.slewStep (a0) : Encoding.Statement (.slewStep a0) := Encoding.noWords rfl
theorem Encoding.slewCoreQuiet (a0) : Encoding.Statement (.slewCoreQuiet a0) := Encoding.noWords rfl
theorem Encoding.transitIssue (a0) : Encoding.Statement (.transitIssue a0) := Encoding.noWords rfl
theorem Encoding.transitOpComplete (a0) : Encoding.Statement (.transitOpComplete a0) := Encoding.noWords rfl
theorem Encoding.transitGate (a0) : Encoding.Statement (.transitGate a0) := Encoding.noWords rfl
theorem Encoding.transitWake (a0) : Encoding.Statement (.transitWake a0) := Encoding.noWords rfl
theorem Encoding.freqreqWrite (a0 a1) : Encoding.Statement (.freqreqWrite a0 a1) := Encoding.noWords rfl
theorem Encoding.freqRampStep (a0) : Encoding.Statement (.freqRampStep a0) := Encoding.noWords rfl
theorem Encoding.relockEnd (a0) : Encoding.Statement (.relockEnd a0) := Encoding.noWords rfl
theorem Encoding.fstatRead (a0) : Encoding.Statement (.fstatRead a0) := Encoding.noWords rfl
theorem Encoding.fstatWrite (a0) : Encoding.Statement (.fstatWrite a0) := Encoding.noWords rfl
theorem Encoding.cycwRead (a0) : Encoding.Statement (.cycwRead a0) := Encoding.noWords rfl
theorem Encoding.vlRcRead (a0 a1) : Encoding.Statement (.vlRcRead a0 a1) := Encoding.noWords rfl
theorem Encoding.stairRegRead (a0 a1) : Encoding.Statement (.stairRegRead a0 a1) := Encoding.noWords rfl
theorem Encoding.stairRegWrite (a0 a1) : Encoding.Statement (.stairRegWrite a0 a1) := Encoding.noWords rfl
theorem Encoding.xstepWrite (a0) : Encoding.Statement (.xstepWrite a0) := Encoding.noWords rfl
theorem Encoding.registerWrite (a0 a1) : Encoding.Statement (.registerWrite a0 a1) := Encoding.noWords rfl
theorem Encoding.claimWrite (a0 a1) : Encoding.Statement (.claimWrite a0 a1) := Encoding.noWords rfl
theorem Encoding.claimWindowClose : Encoding.Statement .claimWindowClose := Encoding.noWords rfl
theorem Encoding.handoverRelease (a0) : Encoding.Statement (.handoverRelease a0) := Encoding.noWords rfl
theorem Encoding.handoverTransfer (a0 a1) : Encoding.Statement (.handoverTransfer a0 a1) := Encoding.noWords rfl
theorem Encoding.ownerLinkDown (a0) : Encoding.Statement (.ownerLinkDown a0) := Encoding.noWords rfl
theorem Encoding.preempt (a0 a1) : Encoding.Statement (.preempt a0 a1) := Encoding.noWords rfl
theorem Encoding.resume (a0 a1) : Encoding.Statement (.resume a0 a1) := Encoding.noWords rfl
theorem Encoding.kill (a0 a1) : Encoding.Statement (.kill a0 a1) := Encoding.noWords rfl
theorem Encoding.gangSave (a0) : Encoding.Statement (.gangSave a0) := Encoding.noWords rfl
theorem Encoding.plateFill (a0) : Encoding.Statement (.plateFill a0) := Encoding.noWords rfl
theorem Encoding.intpostWrite (a0 a1) : Encoding.Statement (.intpostWrite a0 a1) := Encoding.noWords rfl
theorem Encoding.interruptTake (a0) : Encoding.Statement (.interruptTake a0) := Encoding.noWords rfl
theorem Encoding.migrationRequest (a0 a1) : Encoding.Statement (.migrationRequest a0 a1) := Encoding.noWords rfl
theorem Encoding.migrationContest (a0 a1) : Encoding.Statement (.migrationContest a0 a1) := Encoding.noWords rfl
theorem Encoding.dataError (a0) : Encoding.Statement (.dataError a0) := Encoding.noWords rfl
theorem Encoding.supplyLimit (a0) : Encoding.Statement (.supplyLimit a0) := Encoding.noWords rfl
theorem Encoding.resourceRemoval (a0) : Encoding.Statement (.resourceRemoval a0) := Encoding.noWords rfl
theorem Encoding.gleipFlitRetry (a0) : Encoding.Statement (.gleipFlitRetry a0) := Encoding.noWords rfl
theorem Encoding.gleipPortDown (a0) : Encoding.Statement (.gleipPortDown a0) := Encoding.noWords rfl
theorem Encoding.abortToken (a0 a1) : Encoding.Statement (.abortToken a0 a1) := Encoding.noWords rfl
theorem Encoding.ucieModuleLoss : Encoding.Statement .ucieModuleLoss := Encoding.noWords rfl
theorem Encoding.hostAccess (a0 a1) : Encoding.Statement (.hostAccess a0 a1) := Encoding.noWords rfl
theorem Encoding.getVersion : Encoding.Statement .getVersion := Encoding.noWords rfl
theorem Encoding.getCapabilities : Encoding.Statement .getCapabilities := Encoding.noWords rfl
theorem Encoding.negotiateAlgorithms (a0 a1) : Encoding.Statement (.negotiateAlgorithms a0 a1) := Encoding.noWords rfl
theorem Encoding.getDigests : Encoding.Statement .getDigests := Encoding.noWords rfl
theorem Encoding.getCertificate : Encoding.Statement .getCertificate := Encoding.noWords rfl
theorem Encoding.challenge (a0) : Encoding.Statement (.challenge a0) := Encoding.noWords rfl
theorem Encoding.getMeasurements : Encoding.Statement .getMeasurements := Encoding.noWords rfl
theorem Encoding.unsupportedRequest (a0) : Encoding.Statement (.unsupportedRequest a0) := Encoding.noWords rfl
theorem Encoding.engineCommandComplete (a0) : Encoding.Statement (.engineCommandComplete a0) := Encoding.noWords rfl
theorem Encoding.collectiveStart (a0 a1) : Encoding.Statement (.collectiveStart a0 a1) := Encoding.noWords rfl
theorem Encoding.streamRunahead (a0) : Encoding.Statement (.streamRunahead a0) := Encoding.noWords rfl
theorem Encoding.pageWalk (a0 a1) : Encoding.Statement (.pageWalk a0 a1) := Encoding.noWords rfl
theorem Encoding.fetch (a0) : Encoding.Statement (.fetch a0) := Encoding.noWords rfl
theorem Encoding.translationUnitLower (a0) : Encoding.Statement (.translationUnitLower a0) := Encoding.noWords rfl
theorem Encoding.lwaitReturn (a0) : Encoding.Statement (.lwaitReturn a0) := Encoding.noWords rfl
theorem Encoding.wfiWake (a0) : Encoding.Statement (.wfiWake a0) := Encoding.noWords rfl
theorem Encoding.mdasAssemble (a0 a1) : Encoding.Statement (.mdasAssemble a0 a1) := Encoding.noWords rfl
theorem Encoding.add (rd ra rb) : Encoding.Statement (.add rd ra rb) := by
  have h : ∀ w v, fMajor w = 0x01#6 → w.extractLsb' 6 5 = 0#5 ∧ fFunc w = 0x000#11 → rawDecode w v = some (.add (fRd w) (fRa w) (fRb w)) := fun w v h h' => by
    rw [rawDecode, h]; rw [rawR01, h'.1, h'.2]; rfl
  exact Encoding.oneWord rfl (by rw [isLong, fMajor_rWord]; rfl) (fun _ _ => (h _ _ (fMajor_rWord ..) (by
    simp (disch := decide) only [fFunc, rWord, field_above, field_below, bit_above, bit_below] <;> decide)).trans (by
    simp (disch := decide) only [fRd, fRa, fRb, rWord, field_above, field_below, bit_above, bit_below] <;>
      simp only [field_all, bit_ofBool, parts_four, parts_five, Nat.reduceSub, Nat.reduceAdd, BitVec.reduceExtractLsb']))
theorem Encoding.sub (rd ra rb) : Encoding.Statement (.sub rd ra rb) := by
  have h : ∀ w v, fMajor w = 0x01#6 → w.extractLsb' 6 5 = 0#5 ∧ fFunc w = 0x001#11 → rawDecode w v = some (.sub (fRd w) (fRa w) (fRb w)) := fun w v h h' => by
    rw [rawDecode, h]; rw [rawR01, h'.1, h'.2]; rfl
  exact Encoding.oneWord rfl (by rw [isLong, fMajor_rWord]; rfl) (fun _ _ => (h _ _ (fMajor_rWord ..) (by
    simp (disch := decide) only [fFunc, rWord, field_above, field_below, bit_above, bit_below] <;> decide)).trans (by
    simp (disch := decide) only [fRd, fRa, fRb, rWord, field_above, field_below, bit_above, bit_below] <;>
      simp only [field_all, bit_ofBool, parts_four, parts_five, Nat.reduceSub, Nat.reduceAdd, BitVec.reduceExtractLsb']))
theorem Encoding.and (rd ra rb) : Encoding.Statement (.and rd ra rb) := by
  have h : ∀ w v, fMajor w = 0x01#6 → w.extractLsb' 6 5 = 0#5 ∧ fFunc w = 0x002#11 → rawDecode w v = some (.and (fRd w) (fRa w) (fRb w)) := fun w v h h' => by
    rw [rawDecode, h]; rw [rawR01, h'.1, h'.2]; rfl
  exact Encoding.oneWord rfl (by rw [isLong, fMajor_rWord]; rfl) (fun _ _ => (h _ _ (fMajor_rWord ..) (by
    simp (disch := decide) only [fFunc, rWord, field_above, field_below, bit_above, bit_below] <;> decide)).trans (by
    simp (disch := decide) only [fRd, fRa, fRb, rWord, field_above, field_below, bit_above, bit_below] <;>
      simp only [field_all, bit_ofBool, parts_four, parts_five, Nat.reduceSub, Nat.reduceAdd, BitVec.reduceExtractLsb']))
theorem Encoding.or (rd ra rb) : Encoding.Statement (.or rd ra rb) := by
  have h : ∀ w v, fMajor w = 0x01#6 → w.extractLsb' 6 5 = 0#5 ∧ fFunc w = 0x003#11 → rawDecode w v = some (.or (fRd w) (fRa w) (fRb w)) := fun w v h h' => by
    rw [rawDecode, h]; rw [rawR01, h'.1, h'.2]; rfl
  exact Encoding.oneWord rfl (by rw [isLong, fMajor_rWord]; rfl) (fun _ _ => (h _ _ (fMajor_rWord ..) (by
    simp (disch := decide) only [fFunc, rWord, field_above, field_below, bit_above, bit_below] <;> decide)).trans (by
    simp (disch := decide) only [fRd, fRa, fRb, rWord, field_above, field_below, bit_above, bit_below] <;>
      simp only [field_all, bit_ofBool, parts_four, parts_five, Nat.reduceSub, Nat.reduceAdd, BitVec.reduceExtractLsb']))
theorem Encoding.xor (rd ra rb) : Encoding.Statement (.xor rd ra rb) := by
  have h : ∀ w v, fMajor w = 0x01#6 → w.extractLsb' 6 5 = 0#5 ∧ fFunc w = 0x004#11 → rawDecode w v = some (.xor (fRd w) (fRa w) (fRb w)) := fun w v h h' => by
    rw [rawDecode, h]; rw [rawR01, h'.1, h'.2]; rfl
  exact Encoding.oneWord rfl (by rw [isLong, fMajor_rWord]; rfl) (fun _ _ => (h _ _ (fMajor_rWord ..) (by
    simp (disch := decide) only [fFunc, rWord, field_above, field_below, bit_above, bit_below] <;> decide)).trans (by
    simp (disch := decide) only [fRd, fRa, fRb, rWord, field_above, field_below, bit_above, bit_below] <;>
      simp only [field_all, bit_ofBool, parts_four, parts_five, Nat.reduceSub, Nat.reduceAdd, BitVec.reduceExtractLsb']))
theorem Encoding.andn (rd ra rb) : Encoding.Statement (.andn rd ra rb) := by
  have h : ∀ w v, fMajor w = 0x01#6 → w.extractLsb' 6 5 = 0#5 ∧ fFunc w = 0x005#11 → rawDecode w v = some (.andn (fRd w) (fRa w) (fRb w)) := fun w v h h' => by
    rw [rawDecode, h]; rw [rawR01, h'.1, h'.2]; rfl
  exact Encoding.oneWord rfl (by rw [isLong, fMajor_rWord]; rfl) (fun _ _ => (h _ _ (fMajor_rWord ..) (by
    simp (disch := decide) only [fFunc, rWord, field_above, field_below, bit_above, bit_below] <;> decide)).trans (by
    simp (disch := decide) only [fRd, fRa, fRb, rWord, field_above, field_below, bit_above, bit_below] <;>
      simp only [field_all, bit_ofBool, parts_four, parts_five, Nat.reduceSub, Nat.reduceAdd, BitVec.reduceExtractLsb']))
theorem Encoding.sll (rd ra rb) : Encoding.Statement (.sll rd ra rb) := by
  have h : ∀ w v, fMajor w = 0x01#6 → w.extractLsb' 6 5 = 0#5 ∧ fFunc w = 0x006#11 → rawDecode w v = some (.sll (fRd w) (fRa w) (fRb w)) := fun w v h h' => by
    rw [rawDecode, h]; rw [rawR01, h'.1, h'.2]; rfl
  exact Encoding.oneWord rfl (by rw [isLong, fMajor_rWord]; rfl) (fun _ _ => (h _ _ (fMajor_rWord ..) (by
    simp (disch := decide) only [fFunc, rWord, field_above, field_below, bit_above, bit_below] <;> decide)).trans (by
    simp (disch := decide) only [fRd, fRa, fRb, rWord, field_above, field_below, bit_above, bit_below] <;>
      simp only [field_all, bit_ofBool, parts_four, parts_five, Nat.reduceSub, Nat.reduceAdd, BitVec.reduceExtractLsb']))
theorem Encoding.srl (rd ra rb) : Encoding.Statement (.srl rd ra rb) := by
  have h : ∀ w v, fMajor w = 0x01#6 → w.extractLsb' 6 5 = 0#5 ∧ fFunc w = 0x007#11 → rawDecode w v = some (.srl (fRd w) (fRa w) (fRb w)) := fun w v h h' => by
    rw [rawDecode, h]; rw [rawR01, h'.1, h'.2]; rfl
  exact Encoding.oneWord rfl (by rw [isLong, fMajor_rWord]; rfl) (fun _ _ => (h _ _ (fMajor_rWord ..) (by
    simp (disch := decide) only [fFunc, rWord, field_above, field_below, bit_above, bit_below] <;> decide)).trans (by
    simp (disch := decide) only [fRd, fRa, fRb, rWord, field_above, field_below, bit_above, bit_below] <;>
      simp only [field_all, bit_ofBool, parts_four, parts_five, Nat.reduceSub, Nat.reduceAdd, BitVec.reduceExtractLsb']))
theorem Encoding.sra (rd ra rb) : Encoding.Statement (.sra rd ra rb) := by
  have h : ∀ w v, fMajor w = 0x01#6 → w.extractLsb' 6 5 = 0#5 ∧ fFunc w = 0x008#11 → rawDecode w v = some (.sra (fRd w) (fRa w) (fRb w)) := fun w v h h' => by
    rw [rawDecode, h]; rw [rawR01, h'.1, h'.2]; rfl
  exact Encoding.oneWord rfl (by rw [isLong, fMajor_rWord]; rfl) (fun _ _ => (h _ _ (fMajor_rWord ..) (by
    simp (disch := decide) only [fFunc, rWord, field_above, field_below, bit_above, bit_below] <;> decide)).trans (by
    simp (disch := decide) only [fRd, fRa, fRb, rWord, field_above, field_below, bit_above, bit_below] <;>
      simp only [field_all, bit_ofBool, parts_four, parts_five, Nat.reduceSub, Nat.reduceAdd, BitVec.reduceExtractLsb']))
theorem Encoding.slt (rd ra rb) : Encoding.Statement (.slt rd ra rb) := by
  have h : ∀ w v, fMajor w = 0x01#6 → w.extractLsb' 6 5 = 0#5 ∧ fFunc w = 0x009#11 → rawDecode w v = some (.slt (fRd w) (fRa w) (fRb w)) := fun w v h h' => by
    rw [rawDecode, h]; rw [rawR01, h'.1, h'.2]; rfl
  exact Encoding.oneWord rfl (by rw [isLong, fMajor_rWord]; rfl) (fun _ _ => (h _ _ (fMajor_rWord ..) (by
    simp (disch := decide) only [fFunc, rWord, field_above, field_below, bit_above, bit_below] <;> decide)).trans (by
    simp (disch := decide) only [fRd, fRa, fRb, rWord, field_above, field_below, bit_above, bit_below] <;>
      simp only [field_all, bit_ofBool, parts_four, parts_five, Nat.reduceSub, Nat.reduceAdd, BitVec.reduceExtractLsb']))
theorem Encoding.sltn (rd ra rb) : Encoding.Statement (.sltn rd ra rb) := by
  have h : ∀ w v, fMajor w = 0x01#6 → w.extractLsb' 6 5 = 0#5 ∧ fFunc w = 0x00a#11 → rawDecode w v = some (.sltn (fRd w) (fRa w) (fRb w)) := fun w v h h' => by
    rw [rawDecode, h]; rw [rawR01, h'.1, h'.2]; rfl
  exact Encoding.oneWord rfl (by rw [isLong, fMajor_rWord]; rfl) (fun _ _ => (h _ _ (fMajor_rWord ..) (by
    simp (disch := decide) only [fFunc, rWord, field_above, field_below, bit_above, bit_below] <;> decide)).trans (by
    simp (disch := decide) only [fRd, fRa, fRb, rWord, field_above, field_below, bit_above, bit_below] <;>
      simp only [field_all, bit_ofBool, parts_four, parts_five, Nat.reduceSub, Nat.reduceAdd, BitVec.reduceExtractLsb']))
theorem Encoding.min (rd ra rb) : Encoding.Statement (.min rd ra rb) := by
  have h : ∀ w v, fMajor w = 0x01#6 → w.extractLsb' 6 5 = 0#5 ∧ fFunc w = 0x00b#11 → rawDecode w v = some (.min (fRd w) (fRa w) (fRb w)) := fun w v h h' => by
    rw [rawDecode, h]; rw [rawR01, h'.1, h'.2]; rfl
  exact Encoding.oneWord rfl (by rw [isLong, fMajor_rWord]; rfl) (fun _ _ => (h _ _ (fMajor_rWord ..) (by
    simp (disch := decide) only [fFunc, rWord, field_above, field_below, bit_above, bit_below] <;> decide)).trans (by
    simp (disch := decide) only [fRd, fRa, fRb, rWord, field_above, field_below, bit_above, bit_below] <;>
      simp only [field_all, bit_ofBool, parts_four, parts_five, Nat.reduceSub, Nat.reduceAdd, BitVec.reduceExtractLsb']))
theorem Encoding.max (rd ra rb) : Encoding.Statement (.max rd ra rb) := by
  have h : ∀ w v, fMajor w = 0x01#6 → w.extractLsb' 6 5 = 0#5 ∧ fFunc w = 0x00c#11 → rawDecode w v = some (.max (fRd w) (fRa w) (fRb w)) := fun w v h h' => by
    rw [rawDecode, h]; rw [rawR01, h'.1, h'.2]; rfl
  exact Encoding.oneWord rfl (by rw [isLong, fMajor_rWord]; rfl) (fun _ _ => (h _ _ (fMajor_rWord ..) (by
    simp (disch := decide) only [fFunc, rWord, field_above, field_below, bit_above, bit_below] <;> decide)).trans (by
    simp (disch := decide) only [fRd, fRa, fRb, rWord, field_above, field_below, bit_above, bit_below] <;>
      simp only [field_all, bit_ofBool, parts_four, parts_five, Nat.reduceSub, Nat.reduceAdd, BitVec.reduceExtractLsb']))
theorem Encoding.minn (rd ra rb) : Encoding.Statement (.minn rd ra rb) := by
  have h : ∀ w v, fMajor w = 0x01#6 → w.extractLsb' 6 5 = 0#5 ∧ fFunc w = 0x00d#11 → rawDecode w v = some (.minn (fRd w) (fRa w) (fRb w)) := fun w v h h' => by
    rw [rawDecode, h]; rw [rawR01, h'.1, h'.2]; rfl
  exact Encoding.oneWord rfl (by rw [isLong, fMajor_rWord]; rfl) (fun _ _ => (h _ _ (fMajor_rWord ..) (by
    simp (disch := decide) only [fFunc, rWord, field_above, field_below, bit_above, bit_below] <;> decide)).trans (by
    simp (disch := decide) only [fRd, fRa, fRb, rWord, field_above, field_below, bit_above, bit_below] <;>
      simp only [field_all, bit_ofBool, parts_four, parts_five, Nat.reduceSub, Nat.reduceAdd, BitVec.reduceExtractLsb']))
theorem Encoding.maxn (rd ra rb) : Encoding.Statement (.maxn rd ra rb) := by
  have h : ∀ w v, fMajor w = 0x01#6 → w.extractLsb' 6 5 = 0#5 ∧ fFunc w = 0x00e#11 → rawDecode w v = some (.maxn (fRd w) (fRa w) (fRb w)) := fun w v h h' => by
    rw [rawDecode, h]; rw [rawR01, h'.1, h'.2]; rfl
  exact Encoding.oneWord rfl (by rw [isLong, fMajor_rWord]; rfl) (fun _ _ => (h _ _ (fMajor_rWord ..) (by
    simp (disch := decide) only [fFunc, rWord, field_above, field_below, bit_above, bit_below] <;> decide)).trans (by
    simp (disch := decide) only [fRd, fRa, fRb, rWord, field_above, field_below, bit_above, bit_below] <;>
      simp only [field_all, bit_ofBool, parts_four, parts_five, Nat.reduceSub, Nat.reduceAdd, BitVec.reduceExtractLsb']))
theorem Encoding.clz (rd ra) : Encoding.Statement (.clz rd ra) := by
  have h : ∀ w v, fMajor w = 0x01#6 → w.extractLsb' 6 5 = 0#5 ∧ fFunc w = 0x00f#11 → rawDecode w v = some (.clz (fRd w) (fRa w)) := fun w v h h' => by
    rw [rawDecode, h]; rw [rawR01, h'.1, h'.2]; rfl
  exact Encoding.oneWord rfl (by rw [isLong, fMajor_rWord]; rfl) (fun _ _ => (h _ _ (fMajor_rWord ..) (by
    simp (disch := decide) only [fFunc, rWord, field_above, field_below, bit_above, bit_below] <;> decide)).trans (by
    simp (disch := decide) only [fRd, fRa, fRb, rWord, field_above, field_below, bit_above, bit_below] <;>
      simp only [field_all, bit_ofBool, parts_four, parts_five, Nat.reduceSub, Nat.reduceAdd, BitVec.reduceExtractLsb']))
theorem Encoding.ctz (rd ra) : Encoding.Statement (.ctz rd ra) := by
  have h : ∀ w v, fMajor w = 0x01#6 → w.extractLsb' 6 5 = 0#5 ∧ fFunc w = 0x010#11 → rawDecode w v = some (.ctz (fRd w) (fRa w)) := fun w v h h' => by
    rw [rawDecode, h]; rw [rawR01, h'.1, h'.2]; rfl
  exact Encoding.oneWord rfl (by rw [isLong, fMajor_rWord]; rfl) (fun _ _ => (h _ _ (fMajor_rWord ..) (by
    simp (disch := decide) only [fFunc, rWord, field_above, field_below, bit_above, bit_below] <;> decide)).trans (by
    simp (disch := decide) only [fRd, fRa, fRb, rWord, field_above, field_below, bit_above, bit_below] <;>
      simp only [field_all, bit_ofBool, parts_four, parts_five, Nat.reduceSub, Nat.reduceAdd, BitVec.reduceExtractLsb']))
theorem Encoding.popc (rd ra) : Encoding.Statement (.popc rd ra) := by
  have h : ∀ w v, fMajor w = 0x01#6 → w.extractLsb' 6 5 = 0#5 ∧ fFunc w = 0x011#11 → rawDecode w v = some (.popc (fRd w) (fRa w)) := fun w v h h' => by
    rw [rawDecode, h]; rw [rawR01, h'.1, h'.2]; rfl
  exact Encoding.oneWord rfl (by rw [isLong, fMajor_rWord]; rfl) (fun _ _ => (h _ _ (fMajor_rWord ..) (by
    simp (disch := decide) only [fFunc, rWord, field_above, field_below, bit_above, bit_below] <;> decide)).trans (by
    simp (disch := decide) only [fRd, fRa, fRb, rWord, field_above, field_below, bit_above, bit_below] <;>
      simp only [field_all, bit_ofBool, parts_four, parts_five, Nat.reduceSub, Nat.reduceAdd, BitVec.reduceExtractLsb']))
theorem Encoding.sxb (rd ra) : Encoding.Statement (.sxb rd ra) := by
  have h : ∀ w v, fMajor w = 0x01#6 → w.extractLsb' 6 5 = 0#5 ∧ fFunc w = 0x012#11 → rawDecode w v = some (.sxb (fRd w) (fRa w)) := fun w v h h' => by
    rw [rawDecode, h]; rw [rawR01, h'.1, h'.2]; rfl
  exact Encoding.oneWord rfl (by rw [isLong, fMajor_rWord]; rfl) (fun _ _ => (h _ _ (fMajor_rWord ..) (by
    simp (disch := decide) only [fFunc, rWord, field_above, field_below, bit_above, bit_below] <;> decide)).trans (by
    simp (disch := decide) only [fRd, fRa, fRb, rWord, field_above, field_below, bit_above, bit_below] <;>
      simp only [field_all, bit_ofBool, parts_four, parts_five, Nat.reduceSub, Nat.reduceAdd, BitVec.reduceExtractLsb']))
theorem Encoding.sxh (rd ra) : Encoding.Statement (.sxh rd ra) := by
  have h : ∀ w v, fMajor w = 0x01#6 → w.extractLsb' 6 5 = 0#5 ∧ fFunc w = 0x013#11 → rawDecode w v = some (.sxh (fRd w) (fRa w)) := fun w v h h' => by
    rw [rawDecode, h]; rw [rawR01, h'.1, h'.2]; rfl
  exact Encoding.oneWord rfl (by rw [isLong, fMajor_rWord]; rfl) (fun _ _ => (h _ _ (fMajor_rWord ..) (by
    simp (disch := decide) only [fFunc, rWord, field_above, field_below, bit_above, bit_below] <;> decide)).trans (by
    simp (disch := decide) only [fRd, fRa, fRb, rWord, field_above, field_below, bit_above, bit_below] <;>
      simp only [field_all, bit_ofBool, parts_four, parts_five, Nat.reduceSub, Nat.reduceAdd, BitVec.reduceExtractLsb']))
theorem Encoding.sxw (rd ra) : Encoding.Statement (.sxw rd ra) := by
  have h : ∀ w v, fMajor w = 0x01#6 → w.extractLsb' 6 5 = 0#5 ∧ fFunc w = 0x014#11 → rawDecode w v = some (.sxw (fRd w) (fRa w)) := fun w v h h' => by
    rw [rawDecode, h]; rw [rawR01, h'.1, h'.2]; rfl
  exact Encoding.oneWord rfl (by rw [isLong, fMajor_rWord]; rfl) (fun _ _ => (h _ _ (fMajor_rWord ..) (by
    simp (disch := decide) only [fFunc, rWord, field_above, field_below, bit_above, bit_below] <;> decide)).trans (by
    simp (disch := decide) only [fRd, fRa, fRb, rWord, field_above, field_below, bit_above, bit_below] <;>
      simp only [field_all, bit_ofBool, parts_four, parts_five, Nat.reduceSub, Nat.reduceAdd, BitVec.reduceExtractLsb']))
theorem Encoding.zxb (rd ra) : Encoding.Statement (.zxb rd ra) := by
  have h : ∀ w v, fMajor w = 0x01#6 → w.extractLsb' 6 5 = 0#5 ∧ fFunc w = 0x015#11 → rawDecode w v = some (.zxb (fRd w) (fRa w)) := fun w v h h' => by
    rw [rawDecode, h]; rw [rawR01, h'.1, h'.2]; rfl
  exact Encoding.oneWord rfl (by rw [isLong, fMajor_rWord]; rfl) (fun _ _ => (h _ _ (fMajor_rWord ..) (by
    simp (disch := decide) only [fFunc, rWord, field_above, field_below, bit_above, bit_below] <;> decide)).trans (by
    simp (disch := decide) only [fRd, fRa, fRb, rWord, field_above, field_below, bit_above, bit_below] <;>
      simp only [field_all, bit_ofBool, parts_four, parts_five, Nat.reduceSub, Nat.reduceAdd, BitVec.reduceExtractLsb']))
theorem Encoding.zxh (rd ra) : Encoding.Statement (.zxh rd ra) := by
  have h : ∀ w v, fMajor w = 0x01#6 → w.extractLsb' 6 5 = 0#5 ∧ fFunc w = 0x016#11 → rawDecode w v = some (.zxh (fRd w) (fRa w)) := fun w v h h' => by
    rw [rawDecode, h]; rw [rawR01, h'.1, h'.2]; rfl
  exact Encoding.oneWord rfl (by rw [isLong, fMajor_rWord]; rfl) (fun _ _ => (h _ _ (fMajor_rWord ..) (by
    simp (disch := decide) only [fFunc, rWord, field_above, field_below, bit_above, bit_below] <;> decide)).trans (by
    simp (disch := decide) only [fRd, fRa, fRb, rWord, field_above, field_below, bit_above, bit_below] <;>
      simp only [field_all, bit_ofBool, parts_four, parts_five, Nat.reduceSub, Nat.reduceAdd, BitVec.reduceExtractLsb']))
theorem Encoding.zxw (rd ra) : Encoding.Statement (.zxw rd ra) := by
  have h : ∀ w v, fMajor w = 0x01#6 → w.extractLsb' 6 5 = 0#5 ∧ fFunc w = 0x017#11 → rawDecode w v = some (.zxw (fRd w) (fRa w)) := fun w v h h' => by
    rw [rawDecode, h]; rw [rawR01, h'.1, h'.2]; rfl
  exact Encoding.oneWord rfl (by rw [isLong, fMajor_rWord]; rfl) (fun _ _ => (h _ _ (fMajor_rWord ..) (by
    simp (disch := decide) only [fFunc, rWord, field_above, field_below, bit_above, bit_below] <;> decide)).trans (by
    simp (disch := decide) only [fRd, fRa, fRb, rWord, field_above, field_below, bit_above, bit_below] <;>
      simp only [field_all, bit_ofBool, parts_four, parts_five, Nat.reduceSub, Nat.reduceAdd, BitVec.reduceExtractLsb']))
theorem Encoding.adds1 (rd ra rb) : Encoding.Statement (.adds1 rd ra rb) := by
  have h : ∀ w v, fMajor w = 0x01#6 → w.extractLsb' 6 5 = 0#5 ∧ fFunc w = 0x019#11 → rawDecode w v = some (.adds1 (fRd w) (fRa w) (fRb w)) := fun w v h h' => by
    rw [rawDecode, h]; rw [rawR01, h'.1, h'.2]; rfl
  exact Encoding.oneWord rfl (by rw [isLong, fMajor_rWord]; rfl) (fun _ _ => (h _ _ (fMajor_rWord ..) (by
    simp (disch := decide) only [fFunc, rWord, field_above, field_below, bit_above, bit_below] <;> decide)).trans (by
    simp (disch := decide) only [fRd, fRa, fRb, rWord, field_above, field_below, bit_above, bit_below] <;>
      simp only [field_all, bit_ofBool, parts_four, parts_five, Nat.reduceSub, Nat.reduceAdd, BitVec.reduceExtractLsb']))
theorem Encoding.adds2 (rd ra rb) : Encoding.Statement (.adds2 rd ra rb) := by
  have h : ∀ w v, fMajor w = 0x01#6 → w.extractLsb' 6 5 = 0#5 ∧ fFunc w = 0x01a#11 → rawDecode w v = some (.adds2 (fRd w) (fRa w) (fRb w)) := fun w v h h' => by
    rw [rawDecode, h]; rw [rawR01, h'.1, h'.2]; rfl
  exact Encoding.oneWord rfl (by rw [isLong, fMajor_rWord]; rfl) (fun _ _ => (h _ _ (fMajor_rWord ..) (by
    simp (disch := decide) only [fFunc, rWord, field_above, field_below, bit_above, bit_below] <;> decide)).trans (by
    simp (disch := decide) only [fRd, fRa, fRb, rWord, field_above, field_below, bit_above, bit_below] <;>
      simp only [field_all, bit_ofBool, parts_four, parts_five, Nat.reduceSub, Nat.reduceAdd, BitVec.reduceExtractLsb']))
theorem Encoding.adds3 (rd ra rb) : Encoding.Statement (.adds3 rd ra rb) := by
  have h : ∀ w v, fMajor w = 0x01#6 → w.extractLsb' 6 5 = 0#5 ∧ fFunc w = 0x01b#11 → rawDecode w v = some (.adds3 (fRd w) (fRa w) (fRb w)) := fun w v h h' => by
    rw [rawDecode, h]; rw [rawR01, h'.1, h'.2]; rfl
  exact Encoding.oneWord rfl (by rw [isLong, fMajor_rWord]; rfl) (fun _ _ => (h _ _ (fMajor_rWord ..) (by
    simp (disch := decide) only [fFunc, rWord, field_above, field_below, bit_above, bit_below] <;> decide)).trans (by
    simp (disch := decide) only [fRd, fRa, fRb, rWord, field_above, field_below, bit_above, bit_below] <;>
      simp only [field_all, bit_ofBool, parts_four, parts_five, Nat.reduceSub, Nat.reduceAdd, BitVec.reduceExtractLsb']))
theorem Encoding.sliceof (rd ra) : Encoding.Statement (.sliceof rd ra) := by
  have h : ∀ w v, fMajor w = 0x01#6 → w.extractLsb' 6 5 = 0#5 ∧ fFunc w = 0x020#11 → rawDecode w v = some (.sliceof (fRd w) (fRa w)) := fun w v h h' => by
    rw [rawDecode, h]; rw [rawR01, h'.1, h'.2]; rfl
  exact Encoding.oneWord rfl (by rw [isLong, fMajor_rWord]; rfl) (fun _ _ => (h _ _ (fMajor_rWord ..) (by
    simp (disch := decide) only [fFunc, rWord, field_above, field_below, bit_above, bit_below] <;> decide)).trans (by
    simp (disch := decide) only [fRd, fRa, fRb, rWord, field_above, field_below, bit_above, bit_below] <;>
      simp only [field_all, bit_ofBool, parts_four, parts_five, Nat.reduceSub, Nat.reduceAdd, BitVec.reduceExtractLsb']))
theorem Encoding.slli (rd ra n) : Encoding.Statement (.slli rd ra n) := by
  have h : ∀ w v, fMajor w = 0x01#6 → w.extractLsb' 6 5 = 1#5 → rawDecode w v = some (.slli (fRd w) (fRa w) (w.extractLsb' 0 6)) := fun w v h h' => by
    rw [rawDecode, h]; rw [rawR01, h']; rfl
  exact Encoding.oneWord rfl (by rw [isLong, fMajor_rWord]; rfl) (fun _ _ => (h _ _ (fMajor_rWord ..) (by
    simp (disch := decide) only [fFunc, rWord, field_above, field_below, bit_above, bit_below] <;> decide)).trans (by
    simp (disch := decide) only [fRd, fRa, fRb, rWord, field_above, field_below, bit_above, bit_below] <;>
      simp only [field_all, bit_ofBool, parts_four, parts_five, Nat.reduceSub, Nat.reduceAdd, BitVec.reduceExtractLsb']))
theorem Encoding.srli (rd ra n) : Encoding.Statement (.srli rd ra n) := by
  have h : ∀ w v, fMajor w = 0x01#6 → w.extractLsb' 6 5 = 2#5 → rawDecode w v = some (.srli (fRd w) (fRa w) (w.extractLsb' 0 6)) := fun w v h h' => by
    rw [rawDecode, h]; rw [rawR01, h']; rfl
  exact Encoding.oneWord rfl (by rw [isLong, fMajor_rWord]; rfl) (fun _ _ => (h _ _ (fMajor_rWord ..) (by
    simp (disch := decide) only [fFunc, rWord, field_above, field_below, bit_above, bit_below] <;> decide)).trans (by
    simp (disch := decide) only [fRd, fRa, fRb, rWord, field_above, field_below, bit_above, bit_below] <;>
      simp only [field_all, bit_ofBool, parts_four, parts_five, Nat.reduceSub, Nat.reduceAdd, BitVec.reduceExtractLsb']))
theorem Encoding.srai (rd ra n) : Encoding.Statement (.srai rd ra n) := by
  have h : ∀ w v, fMajor w = 0x01#6 → w.extractLsb' 6 5 = 3#5 → rawDecode w v = some (.srai (fRd w) (fRa w) (w.extractLsb' 0 6)) := fun w v h h' => by
    rw [rawDecode, h]; rw [rawR01, h']; rfl
  exact Encoding.oneWord rfl (by rw [isLong, fMajor_rWord]; rfl) (fun _ _ => (h _ _ (fMajor_rWord ..) (by
    simp (disch := decide) only [fFunc, rWord, field_above, field_below, bit_above, bit_below] <;> decide)).trans (by
    simp (disch := decide) only [fRd, fRa, fRb, rWord, field_above, field_below, bit_above, bit_below] <;>
      simp only [field_all, bit_ofBool, parts_four, parts_five, Nat.reduceSub, Nat.reduceAdd, BitVec.reduceExtractLsb']))
theorem Encoding.addi (rd ra imm) : Encoding.Statement (.addi rd ra imm) := by
  have h : ∀ w v, fMajor w = 0x02#6 → rawDecode w v = some (.addi (fRd w) (fRa w) (fImm w)) := fun w v h => by rw [rawDecode, h]; rfl
  exact Encoding.oneWord rfl (by rw [isLong, fMajor_iWord]; rfl) (fun _ _ => (h _ _ (fMajor_iWord ..)).trans (by
    simp (disch := decide) only [fRd, fRa, fImm, iWord, field_above, field_below, bit_above, bit_below] <;>
      simp only [field_all, bit_ofBool, parts_four, parts_five, Nat.reduceSub, Nat.reduceAdd, BitVec.reduceExtractLsb']))
theorem Encoding.andi (rd ra imm) : Encoding.Statement (.andi rd ra imm) := by
  have h : ∀ w v, fMajor w = 0x03#6 → rawDecode w v = some (.andi (fRd w) (fRa w) (fImm w)) := fun w v h => by rw [rawDecode, h]; rfl
  exact Encoding.oneWord rfl (by rw [isLong, fMajor_iWord]; rfl) (fun _ _ => (h _ _ (fMajor_iWord ..)).trans (by
    simp (disch := decide) only [fRd, fRa, fImm, iWord, field_above, field_below, bit_above, bit_below] <;>
      simp only [field_all, bit_ofBool, parts_four, parts_five, Nat.reduceSub, Nat.reduceAdd, BitVec.reduceExtractLsb']))
theorem Encoding.ori (rd ra imm) : Encoding.Statement (.ori rd ra imm) := by
  have h : ∀ w v, fMajor w = 0x04#6 → rawDecode w v = some (.ori (fRd w) (fRa w) (fImm w)) := fun w v h => by rw [rawDecode, h]; rfl
  exact Encoding.oneWord rfl (by rw [isLong, fMajor_iWord]; rfl) (fun _ _ => (h _ _ (fMajor_iWord ..)).trans (by
    simp (disch := decide) only [fRd, fRa, fImm, iWord, field_above, field_below, bit_above, bit_below] <;>
      simp only [field_all, bit_ofBool, parts_four, parts_five, Nat.reduceSub, Nat.reduceAdd, BitVec.reduceExtractLsb']))
theorem Encoding.xori (rd ra imm) : Encoding.Statement (.xori rd ra imm) := by
  have h : ∀ w v, fMajor w = 0x05#6 → rawDecode w v = some (.xori (fRd w) (fRa w) (fImm w)) := fun w v h => by rw [rawDecode, h]; rfl
  exact Encoding.oneWord rfl (by rw [isLong, fMajor_iWord]; rfl) (fun _ _ => (h _ _ (fMajor_iWord ..)).trans (by
    simp (disch := decide) only [fRd, fRa, fImm, iWord, field_above, field_below, bit_above, bit_below] <;>
      simp only [field_all, bit_ofBool, parts_four, parts_five, Nat.reduceSub, Nat.reduceAdd, BitVec.reduceExtractLsb']))
theorem Encoding.slti (rd ra imm) : Encoding.Statement (.slti rd ra imm) := by
  have h : ∀ w v, fMajor w = 0x06#6 → rawDecode w v = some (.slti (fRd w) (fRa w) (fImm w)) := fun w v h => by rw [rawDecode, h]; rfl
  exact Encoding.oneWord rfl (by rw [isLong, fMajor_iWord]; rfl) (fun _ _ => (h _ _ (fMajor_iWord ..)).trans (by
    simp (disch := decide) only [fRd, fRa, fImm, iWord, field_above, field_below, bit_above, bit_below] <;>
      simp only [field_all, bit_ofBool, parts_four, parts_five, Nat.reduceSub, Nat.reduceAdd, BitVec.reduceExtractLsb']))
theorem Encoding.sltni (rd ra imm) : Encoding.Statement (.sltni rd ra imm) := by
  have h : ∀ w v, fMajor w = 0x07#6 → rawDecode w v = some (.sltni (fRd w) (fRa w) (fImm w)) := fun w v h => by rw [rawDecode, h]; rfl
  exact Encoding.oneWord rfl (by rw [isLong, fMajor_iWord]; rfl) (fun _ _ => (h _ _ (fMajor_iWord ..)).trans (by
    simp (disch := decide) only [fRd, fRa, fImm, iWord, field_above, field_below, bit_above, bit_below] <;>
      simp only [field_all, bit_ofBool, parts_four, parts_five, Nat.reduceSub, Nat.reduceAdd, BitVec.reduceExtractLsb']))
theorem Encoding.lih (rd ra imm) : Encoding.Statement (.lih rd ra imm) := by
  have h : ∀ w v, fMajor w = 0x08#6 → rawDecode w v = some (.lih (fRd w) (fRa w) (fImm w)) := fun w v h => by rw [rawDecode, h]; rfl
  exact Encoding.oneWord rfl (by rw [isLong, fMajor_iWord]; rfl) (fun _ _ => (h _ _ (fMajor_iWord ..)).trans (by
    simp (disch := decide) only [fRd, fRa, fImm, iWord, field_above, field_below, bit_above, bit_below] <;>
      simp only [field_all, bit_ofBool, parts_four, parts_five, Nat.reduceSub, Nat.reduceAdd, BitVec.reduceExtractLsb']))
theorem Encoding.mul (rd ra rb) : Encoding.Statement (.mul rd ra rb) := by
  have h : ∀ w v, fMajor w = 0x09#6 → fFunc w = 0x000#11 → rawDecode w v = some (.mul (fRd w) (fRa w) (fRb w)) := fun w v h h' => by
    rw [rawDecode, h]; rw [rawR09, h']; rfl
  exact Encoding.oneWord rfl (by rw [isLong, fMajor_rWord]; rfl) (fun _ _ => (h _ _ (fMajor_rWord ..) (by
    simp (disch := decide) only [fFunc, rWord, field_above, field_below, bit_above, bit_below] <;> decide)).trans (by
    simp (disch := decide) only [fRd, fRa, fRb, rWord, field_above, field_below, bit_above, bit_below] <;>
      simp only [field_all, bit_ofBool, parts_four, parts_five, Nat.reduceSub, Nat.reduceAdd, BitVec.reduceExtractLsb']))
theorem Encoding.mulh (rd ra rb) : Encoding.Statement (.mulh rd ra rb) := by
  have h : ∀ w v, fMajor w = 0x09#6 → fFunc w = 0x001#11 → rawDecode w v = some (.mulh (fRd w) (fRa w) (fRb w)) := fun w v h h' => by
    rw [rawDecode, h]; rw [rawR09, h']; rfl
  exact Encoding.oneWord rfl (by rw [isLong, fMajor_rWord]; rfl) (fun _ _ => (h _ _ (fMajor_rWord ..) (by
    simp (disch := decide) only [fFunc, rWord, field_above, field_below, bit_above, bit_below] <;> decide)).trans (by
    simp (disch := decide) only [fRd, fRa, fRb, rWord, field_above, field_below, bit_above, bit_below] <;>
      simp only [field_all, bit_ofBool, parts_four, parts_five, Nat.reduceSub, Nat.reduceAdd, BitVec.reduceExtractLsb']))
theorem Encoding.mulhn (rd ra rb) : Encoding.Statement (.mulhn rd ra rb) := by
  have h : ∀ w v, fMajor w = 0x09#6 → fFunc w = 0x002#11 → rawDecode w v = some (.mulhn (fRd w) (fRa w) (fRb w)) := fun w v h h' => by
    rw [rawDecode, h]; rw [rawR09, h']; rfl
  exact Encoding.oneWord rfl (by rw [isLong, fMajor_rWord]; rfl) (fun _ _ => (h _ _ (fMajor_rWord ..) (by
    simp (disch := decide) only [fFunc, rWord, field_above, field_below, bit_above, bit_below] <;> decide)).trans (by
    simp (disch := decide) only [fRd, fRa, fRb, rWord, field_above, field_below, bit_above, bit_below] <;>
      simp only [field_all, bit_ofBool, parts_four, parts_five, Nat.reduceSub, Nat.reduceAdd, BitVec.reduceExtractLsb']))
theorem Encoding.mulhsn (rd ra rb) : Encoding.Statement (.mulhsn rd ra rb) := by
  have h : ∀ w v, fMajor w = 0x09#6 → fFunc w = 0x003#11 → rawDecode w v = some (.mulhsn (fRd w) (fRa w) (fRb w)) := fun w v h h' => by
    rw [rawDecode, h]; rw [rawR09, h']; rfl
  exact Encoding.oneWord rfl (by rw [isLong, fMajor_rWord]; rfl) (fun _ _ => (h _ _ (fMajor_rWord ..) (by
    simp (disch := decide) only [fFunc, rWord, field_above, field_below, bit_above, bit_below] <;> decide)).trans (by
    simp (disch := decide) only [fRd, fRa, fRb, rWord, field_above, field_below, bit_above, bit_below] <;>
      simp only [field_all, bit_ofBool, parts_four, parts_five, Nat.reduceSub, Nat.reduceAdd, BitVec.reduceExtractLsb']))
theorem Encoding.div (rd ra rb) : Encoding.Statement (.div rd ra rb) := by
  have h : ∀ w v, fMajor w = 0x09#6 → fFunc w = 0x008#11 → rawDecode w v = some (.div (fRd w) (fRa w) (fRb w)) := fun w v h h' => by
    rw [rawDecode, h]; rw [rawR09, h']; rfl
  exact Encoding.oneWord rfl (by rw [isLong, fMajor_rWord]; rfl) (fun _ _ => (h _ _ (fMajor_rWord ..) (by
    simp (disch := decide) only [fFunc, rWord, field_above, field_below, bit_above, bit_below] <;> decide)).trans (by
    simp (disch := decide) only [fRd, fRa, fRb, rWord, field_above, field_below, bit_above, bit_below] <;>
      simp only [field_all, bit_ofBool, parts_four, parts_five, Nat.reduceSub, Nat.reduceAdd, BitVec.reduceExtractLsb']))
theorem Encoding.divn (rd ra rb) : Encoding.Statement (.divn rd ra rb) := by
  have h : ∀ w v, fMajor w = 0x09#6 → fFunc w = 0x009#11 → rawDecode w v = some (.divn (fRd w) (fRa w) (fRb w)) := fun w v h h' => by
    rw [rawDecode, h]; rw [rawR09, h']; rfl
  exact Encoding.oneWord rfl (by rw [isLong, fMajor_rWord]; rfl) (fun _ _ => (h _ _ (fMajor_rWord ..) (by
    simp (disch := decide) only [fFunc, rWord, field_above, field_below, bit_above, bit_below] <;> decide)).trans (by
    simp (disch := decide) only [fRd, fRa, fRb, rWord, field_above, field_below, bit_above, bit_below] <;>
      simp only [field_all, bit_ofBool, parts_four, parts_five, Nat.reduceSub, Nat.reduceAdd, BitVec.reduceExtractLsb']))
theorem Encoding.rem (rd ra rb) : Encoding.Statement (.rem rd ra rb) := by
  have h : ∀ w v, fMajor w = 0x09#6 → fFunc w = 0x00a#11 → rawDecode w v = some (.rem (fRd w) (fRa w) (fRb w)) := fun w v h h' => by
    rw [rawDecode, h]; rw [rawR09, h']; rfl
  exact Encoding.oneWord rfl (by rw [isLong, fMajor_rWord]; rfl) (fun _ _ => (h _ _ (fMajor_rWord ..) (by
    simp (disch := decide) only [fFunc, rWord, field_above, field_below, bit_above, bit_below] <;> decide)).trans (by
    simp (disch := decide) only [fRd, fRa, fRb, rWord, field_above, field_below, bit_above, bit_below] <;>
      simp only [field_all, bit_ofBool, parts_four, parts_five, Nat.reduceSub, Nat.reduceAdd, BitVec.reduceExtractLsb']))
theorem Encoding.remn (rd ra rb) : Encoding.Statement (.remn rd ra rb) := by
  have h : ∀ w v, fMajor w = 0x09#6 → fFunc w = 0x00b#11 → rawDecode w v = some (.remn (fRd w) (fRa w) (fRb w)) := fun w v h h' => by
    rw [rawDecode, h]; rw [rawR09, h']; rfl
  exact Encoding.oneWord rfl (by rw [isLong, fMajor_rWord]; rfl) (fun _ _ => (h _ _ (fMajor_rWord ..) (by
    simp (disch := decide) only [fFunc, rWord, field_above, field_below, bit_above, bit_below] <;> decide)).trans (by
    simp (disch := decide) only [fRd, fRa, fRb, rWord, field_above, field_below, bit_above, bit_below] <;>
      simp only [field_all, bit_ofBool, parts_four, parts_five, Nat.reduceSub, Nat.reduceAdd, BitVec.reduceExtractLsb']))
theorem Encoding.setvl (rd ra ty) : Encoding.Statement (.setvl rd ra ty) := by
  have h : ∀ w v, fMajor w = 0x0a#6 → rawDecode w v = some (.setvl (fRd w) (fRa w) (w.extractLsb' 0 4)) := fun w v h => by rw [rawDecode, h]; rfl
  exact Encoding.oneWord rfl (by rw [isLong, fMajor_iWord]; rfl) (fun _ _ => (h _ _ (fMajor_iWord ..)).trans (by
    simp (disch := decide) only [fRd, fRa, fImm, iWord, field_above, field_below, bit_above, bit_below] <;>
      simp only [field_all, bit_ofBool, parts_four, parts_five, Nat.reduceSub, Nat.reduceAdd, BitVec.reduceExtractLsb']))
theorem Encoding.setvlG (rd ra ty) : Encoding.Statement (.setvlG rd ra ty) := by
  have h : ∀ w v, fMajor w = 0x0b#6 → rawDecode w v = some (.setvlG (fRd w) (fRa w) (w.extractLsb' 0 4)) := fun w v h => by rw [rawDecode, h]; rfl
  exact Encoding.oneWord rfl (by rw [isLong, fMajor_iWord]; rfl) (fun _ _ => (h _ _ (fMajor_iWord ..)).trans (by
    simp (disch := decide) only [fRd, fRa, fImm, iWord, field_above, field_below, bit_above, bit_below] <;>
      simp only [field_all, bit_ofBool, parts_four, parts_five, Nat.reduceSub, Nat.reduceAdd, BitVec.reduceExtractLsb']))
theorem Encoding.setrc (rd ra imm) : Encoding.Statement (.setrc rd ra imm) := by
  have h : ∀ w v, fMajor w = 0x0c#6 → rawDecode w v = some (.setrc (fRd w) (fRa w) (fImm w)) := fun w v h => by rw [rawDecode, h]; rfl
  exact Encoding.oneWord rfl (by rw [isLong, fMajor_iWord]; rfl) (fun _ _ => (h _ _ (fMajor_iWord ..)).trans (by
    simp (disch := decide) only [fRd, fRa, fImm, iWord, field_above, field_below, bit_above, bit_below] <;>
      simp only [field_all, bit_ofBool, parts_four, parts_five, Nat.reduceSub, Nat.reduceAdd, BitVec.reduceExtractLsb']))
theorem Encoding.jmp (disp) : Encoding.Statement (.jmp disp) := by
  have h : ∀ w v, fMajor w = 0x10#6 → rawDecode w v = some (.jmp (w.extractLsb' 0 26)) := fun w v h => by rw [rawDecode, h]; rfl
  exact Encoding.oneWord rfl (by rw [isLong, fMajor_jWord]; rfl) (fun _ _ => (h _ _ (fMajor_jWord ..)).trans (by
    simp (disch := decide) only [jWord, field_above, field_below, bit_above, bit_below] <;>
      simp only [field_all, bit_ofBool, parts_four, parts_five, Nat.reduceSub, Nat.reduceAdd, BitVec.reduceExtractLsb']))
theorem Encoding.call (disp) : Encoding.Statement (.call disp) := by
  have h : ∀ w v, fMajor w = 0x11#6 → rawDecode w v = some (.call (w.extractLsb' 0 26)) := fun w v h => by rw [rawDecode, h]; rfl
  exact Encoding.oneWord rfl (by rw [isLong, fMajor_jWord]; rfl) (fun _ _ => (h _ _ (fMajor_jWord ..)).trans (by
    simp (disch := decide) only [jWord, field_above, field_below, bit_above, bit_below] <;>
      simp only [field_all, bit_ofBool, parts_four, parts_five, Nat.reduceSub, Nat.reduceAdd, BitVec.reduceExtractLsb']))
theorem Encoding.beq (ra rb disp) : Encoding.Statement (.beq ra rb disp) := by
  have h : ∀ w v, fMajor w = 0x12#6 → rawDecode w v = some (.beq (fRd w) (fRa w) (fImm w)) := fun w v h => by rw [rawDecode, h]; rfl
  exact Encoding.oneWord rfl (by rw [isLong, fMajor_iWord]; rfl) (fun _ _ => (h _ _ (fMajor_iWord ..)).trans (by
    simp (disch := decide) only [fRd, fRa, fImm, iWord, field_above, field_below, bit_above, bit_below] <;>
      simp only [field_all, bit_ofBool, parts_four, parts_five, Nat.reduceSub, Nat.reduceAdd, BitVec.reduceExtractLsb']))
theorem Encoding.bne (ra rb disp) : Encoding.Statement (.bne ra rb disp) := by
  have h : ∀ w v, fMajor w = 0x13#6 → rawDecode w v = some (.bne (fRd w) (fRa w) (fImm w)) := fun w v h => by rw [rawDecode, h]; rfl
  exact Encoding.oneWord rfl (by rw [isLong, fMajor_iWord]; rfl) (fun _ _ => (h _ _ (fMajor_iWord ..)).trans (by
    simp (disch := decide) only [fRd, fRa, fImm, iWord, field_above, field_below, bit_above, bit_below] <;>
      simp only [field_all, bit_ofBool, parts_four, parts_five, Nat.reduceSub, Nat.reduceAdd, BitVec.reduceExtractLsb']))
theorem Encoding.blt (ra rb disp) : Encoding.Statement (.blt ra rb disp) := by
  have h : ∀ w v, fMajor w = 0x14#6 → rawDecode w v = some (.blt (fRd w) (fRa w) (fImm w)) := fun w v h => by rw [rawDecode, h]; rfl
  exact Encoding.oneWord rfl (by rw [isLong, fMajor_iWord]; rfl) (fun _ _ => (h _ _ (fMajor_iWord ..)).trans (by
    simp (disch := decide) only [fRd, fRa, fImm, iWord, field_above, field_below, bit_above, bit_below] <;>
      simp only [field_all, bit_ofBool, parts_four, parts_five, Nat.reduceSub, Nat.reduceAdd, BitVec.reduceExtractLsb']))
theorem Encoding.bge (ra rb disp) : Encoding.Statement (.bge ra rb disp) := by
  have h : ∀ w v, fMajor w = 0x15#6 → rawDecode w v = some (.bge (fRd w) (fRa w) (fImm w)) := fun w v h => by rw [rawDecode, h]; rfl
  exact Encoding.oneWord rfl (by rw [isLong, fMajor_iWord]; rfl) (fun _ _ => (h _ _ (fMajor_iWord ..)).trans (by
    simp (disch := decide) only [fRd, fRa, fImm, iWord, field_above, field_below, bit_above, bit_below] <;>
      simp only [field_all, bit_ofBool, parts_four, parts_five, Nat.reduceSub, Nat.reduceAdd, BitVec.reduceExtractLsb']))
theorem Encoding.bltn (ra rb disp) : Encoding.Statement (.bltn ra rb disp) := by
  have h : ∀ w v, fMajor w = 0x16#6 → rawDecode w v = some (.bltn (fRd w) (fRa w) (fImm w)) := fun w v h => by rw [rawDecode, h]; rfl
  exact Encoding.oneWord rfl (by rw [isLong, fMajor_iWord]; rfl) (fun _ _ => (h _ _ (fMajor_iWord ..)).trans (by
    simp (disch := decide) only [fRd, fRa, fImm, iWord, field_above, field_below, bit_above, bit_below] <;>
      simp only [field_all, bit_ofBool, parts_four, parts_five, Nat.reduceSub, Nat.reduceAdd, BitVec.reduceExtractLsb']))
theorem Encoding.bgen (ra rb disp) : Encoding.Statement (.bgen ra rb disp) := by
  have h : ∀ w v, fMajor w = 0x17#6 → rawDecode w v = some (.bgen (fRd w) (fRa w) (fImm w)) := fun w v h => by rw [rawDecode, h]; rfl
  exact Encoding.oneWord rfl (by rw [isLong, fMajor_iWord]; rfl) (fun _ _ => (h _ _ (fMajor_iWord ..)).trans (by
    simp (disch := decide) only [fRd, fRa, fImm, iWord, field_above, field_below, bit_above, bit_below] <;>
      simp only [field_all, bit_ofBool, parts_four, parts_five, Nat.reduceSub, Nat.reduceAdd, BitVec.reduceExtractLsb']))
theorem Encoding.jmpl (rd ra imm) : Encoding.Statement (.jmpl rd ra imm) := by
  have h : ∀ w v, fMajor w = 0x18#6 → rawDecode w v = some (.jmpl (fRd w) (fRa w) (fImm w)) := fun w v h => by rw [rawDecode, h]; rfl
  exact Encoding.oneWord rfl (by rw [isLong, fMajor_iWord]; rfl) (fun _ _ => (h _ _ (fMajor_iWord ..)).trans (by
    simp (disch := decide) only [fRd, fRa, fImm, iWord, field_above, field_below, bit_above, bit_below] <;>
      simp only [field_all, bit_ofBool, parts_four, parts_five, Nat.reduceSub, Nat.reduceAdd, BitVec.reduceExtractLsb']))
theorem Encoding.csrrw (rd ra csr) : Encoding.Statement (.csrrw rd ra csr) := by
  have h : ∀ w v, fMajor w = 0x19#6 → rawDecode w v = some (.csrrw (fRd w) (fRa w) (fImm w)) := fun w v h => by rw [rawDecode, h]; rfl
  exact Encoding.oneWord rfl (by rw [isLong, fMajor_iWord]; rfl) (fun _ _ => (h _ _ (fMajor_iWord ..)).trans (by
    simp (disch := decide) only [fRd, fRa, fImm, iWord, field_above, field_below, bit_above, bit_below] <;>
      simp only [field_all, bit_ofBool, parts_four, parts_five, Nat.reduceSub, Nat.reduceAdd, BitVec.reduceExtractLsb']))
theorem Encoding.csrrs (rd ra csr) : Encoding.Statement (.csrrs rd ra csr) := by
  have h : ∀ w v, fMajor w = 0x1a#6 → rawDecode w v = some (.csrrs (fRd w) (fRa w) (fImm w)) := fun w v h => by rw [rawDecode, h]; rfl
  exact Encoding.oneWord rfl (by rw [isLong, fMajor_iWord]; rfl) (fun _ _ => (h _ _ (fMajor_iWord ..)).trans (by
    simp (disch := decide) only [fRd, fRa, fImm, iWord, field_above, field_below, bit_above, bit_below] <;>
      simp only [field_all, bit_ofBool, parts_four, parts_five, Nat.reduceSub, Nat.reduceAdd, BitVec.reduceExtractLsb']))
theorem Encoding.csrrc (rd ra csr) : Encoding.Statement (.csrrc rd ra csr) := by
  have h : ∀ w v, fMajor w = 0x1b#6 → rawDecode w v = some (.csrrc (fRd w) (fRa w) (fImm w)) := fun w v h => by rw [rawDecode, h]; rfl
  exact Encoding.oneWord rfl (by rw [isLong, fMajor_iWord]; rfl) (fun _ _ => (h _ _ (fMajor_iWord ..)).trans (by
    simp (disch := decide) only [fRd, fRa, fImm, iWord, field_above, field_below, bit_above, bit_below] <;>
      simp only [field_all, bit_ofBool, parts_four, parts_five, Nat.reduceSub, Nat.reduceAdd, BitVec.reduceExtractLsb']))
theorem Encoding.trap (n) : Encoding.Statement (.trap n) := by
  have h : ∀ w v, fMajor w = 0x1c#6 → fFunc w = 0x001#11 → rawDecode w v = some (.trap (fRa w ++ fRb w)) := fun w v h h' => by
    rw [rawDecode, h]; rw [rawR1c, h']; rfl
  exact Encoding.oneWord rfl (by rw [isLong, fMajor_rWord]; rfl) (fun _ _ => (h _ _ (fMajor_rWord ..) (by
    simp (disch := decide) only [fFunc, rWord, field_above, field_below, bit_above, bit_below] <;> decide)).trans (by
    simp (disch := decide) only [fRd, fRa, fRb, rWord, field_above, field_below, bit_above, bit_below] <;>
      simp only [field_all, bit_ofBool, parts_four, parts_five, Nat.reduceSub, Nat.reduceAdd, BitVec.reduceExtractLsb']))
theorem Encoding.eret : Encoding.Statement .eret := by
  have h : ∀ w v, fMajor w = 0x1c#6 → fFunc w = 0x002#11 → rawDecode w v = some (.eret) := fun w v h h' => by
    rw [rawDecode, h]; rw [rawR1c, h']; rfl
  exact Encoding.oneWord rfl (by rw [isLong, fMajor_rWord]; rfl) (fun _ _ => (h _ _ (fMajor_rWord ..) (by
    simp (disch := decide) only [fFunc, rWord, field_above, field_below, bit_above, bit_below] <;> decide)).trans (by
    simp (disch := decide) only [fRd, fRa, fRb, rWord, field_above, field_below, bit_above, bit_below] <;>
      simp only [field_all, bit_ofBool, parts_four, parts_five, Nat.reduceSub, Nat.reduceAdd, BitVec.reduceExtractLsb']))
theorem Encoding.wfi : Encoding.Statement .wfi := by
  have h : ∀ w v, fMajor w = 0x1c#6 → fFunc w = 0x003#11 → rawDecode w v = some (.wfi) := fun w v h h' => by
    rw [rawDecode, h]; rw [rawR1c, h']; rfl
  exact Encoding.oneWord rfl (by rw [isLong, fMajor_rWord]; rfl) (fun _ _ => (h _ _ (fMajor_rWord ..) (by
    simp (disch := decide) only [fFunc, rWord, field_above, field_below, bit_above, bit_below] <;> decide)).trans (by
    simp (disch := decide) only [fRd, fRa, fRb, rWord, field_above, field_below, bit_above, bit_below] <;>
      simp only [field_all, bit_ofBool, parts_four, parts_five, Nat.reduceSub, Nat.reduceAdd, BitVec.reduceExtractLsb']))
theorem Encoding.dclean (ra rb) : Encoding.Statement (.dclean ra rb) := by
  have h : ∀ w v, fMajor w = 0x1c#6 → fFunc w = 0x010#11 → rawDecode w v = some (.dclean (fRa w) (fRb w)) := fun w v h h' => by
    rw [rawDecode, h]; rw [rawR1c, h']; rfl
  exact Encoding.oneWord rfl (by rw [isLong, fMajor_rWord]; rfl) (fun _ _ => (h _ _ (fMajor_rWord ..) (by
    simp (disch := decide) only [fFunc, rWord, field_above, field_below, bit_above, bit_below] <;> decide)).trans (by
    simp (disch := decide) only [fRd, fRa, fRb, rWord, field_above, field_below, bit_above, bit_below] <;>
      simp only [field_all, bit_ofBool, parts_four, parts_five, Nat.reduceSub, Nat.reduceAdd, BitVec.reduceExtractLsb']))
theorem Encoding.xcinv (ra rb) : Encoding.Statement (.xcinv ra rb) := by
  have h : ∀ w v, fMajor w = 0x1c#6 → fFunc w = 0x011#11 → rawDecode w v = some (.xcinv (fRa w) (fRb w)) := fun w v h h' => by
    rw [rawDecode, h]; rw [rawR1c, h']; rfl
  exact Encoding.oneWord rfl (by rw [isLong, fMajor_rWord]; rfl) (fun _ _ => (h _ _ (fMajor_rWord ..) (by
    simp (disch := decide) only [fFunc, rWord, field_above, field_below, bit_above, bit_below] <;> decide)).trans (by
    simp (disch := decide) only [fRd, fRa, fRb, rWord, field_above, field_below, bit_above, bit_below] <;>
      simp only [field_all, bit_ofBool, parts_four, parts_five, Nat.reduceSub, Nat.reduceAdd, BitVec.reduceExtractLsb']))
theorem Encoding.fbar : Encoding.Statement .fbar := by
  have h : ∀ w v, fMajor w = 0x1c#6 → fFunc w = 0x012#11 → rawDecode w v = some (.fbar) := fun w v h h' => by
    rw [rawDecode, h]; rw [rawR1c, h']; rfl
  exact Encoding.oneWord rfl (by rw [isLong, fMajor_rWord]; rfl) (fun _ _ => (h _ _ (fMajor_rWord ..) (by
    simp (disch := decide) only [fFunc, rWord, field_above, field_below, bit_above, bit_below] <;> decide)).trans (by
    simp (disch := decide) only [fRd, fRa, fRb, rWord, field_above, field_below, bit_above, bit_below] <;>
      simp only [field_all, bit_ofBool, parts_four, parts_five, Nat.reduceSub, Nat.reduceAdd, BitVec.reduceExtractLsb']))
theorem Encoding.ptsync : Encoding.Statement .ptsync := by
  have h : ∀ w v, fMajor w = 0x1c#6 → fFunc w = 0x013#11 → rawDecode w v = some (.ptsync) := fun w v h h' => by
    rw [rawDecode, h]; rw [rawR1c, h']; rfl
  exact Encoding.oneWord rfl (by rw [isLong, fMajor_rWord]; rfl) (fun _ _ => (h _ _ (fMajor_rWord ..) (by
    simp (disch := decide) only [fFunc, rWord, field_above, field_below, bit_above, bit_below] <;> decide)).trans (by
    simp (disch := decide) only [fRd, fRa, fRb, rWord, field_above, field_below, bit_above, bit_below] <;>
      simp only [field_all, bit_ofBool, parts_four, parts_five, Nat.reduceSub, Nat.reduceAdd, BitVec.reduceExtractLsb']))
theorem Encoding.launch (rd ra) : Encoding.Statement (.launch rd ra) := by
  have h : ∀ w v, fMajor w = 0x1c#6 → fFunc w = 0x020#11 → rawDecode w v = some (.launch (fRd w) (fRa w)) := fun w v h h' => by
    rw [rawDecode, h]; rw [rawR1c, h']; rfl
  exact Encoding.oneWord rfl (by rw [isLong, fMajor_rWord]; rfl) (fun _ _ => (h _ _ (fMajor_rWord ..) (by
    simp (disch := decide) only [fFunc, rWord, field_above, field_below, bit_above, bit_below] <;> decide)).trans (by
    simp (disch := decide) only [fRd, fRa, fRb, rWord, field_above, field_below, bit_above, bit_below] <;>
      simp only [field_all, bit_ofBool, parts_four, parts_five, Nat.reduceSub, Nat.reduceAdd, BitVec.reduceExtractLsb']))
theorem Encoding.fenceSv (scope) : Encoding.Statement (.fenceSv scope) := by
  have h : ∀ w v, fMajor w = 0x1d#6 → w.extractLsb' 3 2 = 0#2 → rawDecode w v = some (.fenceSv (w.extractLsb' 0 3)) := fun w v h h' => by
    rw [rawDecode, h]; rw [rawFence, h']; rfl
  exact Encoding.oneWord rfl (by rw [isLong, fMajor_rWord]; rfl) (fun _ _ => (h _ _ (fMajor_rWord ..) (by
    simp (disch := decide) only [fFunc, rWord, field_above, field_below, bit_above, bit_below] <;> decide)).trans (by
    simp (disch := decide) only [fRd, fRa, fRb, rWord, field_above, field_below, bit_above, bit_below] <;>
      simp only [field_all, bit_ofBool, parts_four, parts_five, Nat.reduceSub, Nat.reduceAdd, BitVec.reduceExtractLsb']))
theorem Encoding.fenceVs (scope) : Encoding.Statement (.fenceVs scope) := by
  have h : ∀ w v, fMajor w = 0x1d#6 → w.extractLsb' 3 2 = 1#2 → rawDecode w v = some (.fenceVs (w.extractLsb' 0 3)) := fun w v h h' => by
    rw [rawDecode, h]; rw [rawFence, h']; rfl
  exact Encoding.oneWord rfl (by rw [isLong, fMajor_rWord]; rfl) (fun _ _ => (h _ _ (fMajor_rWord ..) (by
    simp (disch := decide) only [fFunc, rWord, field_above, field_below, bit_above, bit_below] <;> decide)).trans (by
    simp (disch := decide) only [fRd, fRa, fRb, rWord, field_above, field_below, bit_above, bit_below] <;>
      simp only [field_all, bit_ofBool, parts_four, parts_five, Nat.reduceSub, Nat.reduceAdd, BitVec.reduceExtractLsb']))
theorem Encoding.fenceVv (scope) : Encoding.Statement (.fenceVv scope) := by
  have h : ∀ w v, fMajor w = 0x1d#6 → w.extractLsb' 3 2 = 2#2 → rawDecode w v = some (.fenceVv (w.extractLsb' 0 3)) := fun w v h h' => by
    rw [rawDecode, h]; rw [rawFence, h']; rfl
  exact Encoding.oneWord rfl (by rw [isLong, fMajor_rWord]; rfl) (fun _ _ => (h _ _ (fMajor_rWord ..) (by
    simp (disch := decide) only [fFunc, rWord, field_above, field_below, bit_above, bit_below] <;> decide)).trans (by
    simp (disch := decide) only [fRd, fRa, fRb, rWord, field_above, field_below, bit_above, bit_below] <;>
      simp only [field_all, bit_ofBool, parts_four, parts_five, Nat.reduceSub, Nat.reduceAdd, BitVec.reduceExtractLsb']))
theorem Encoding.fenceAll (scope) : Encoding.Statement (.fenceAll scope) := by
  have h : ∀ w v, fMajor w = 0x1d#6 → w.extractLsb' 3 2 = 3#2 → rawDecode w v = some (.fenceAll (w.extractLsb' 0 3)) := fun w v h h' => by
    rw [rawDecode, h]; rw [rawFence, h']; rfl
  exact Encoding.oneWord rfl (by rw [isLong, fMajor_rWord]; rfl) (fun _ _ => (h _ _ (fMajor_rWord ..) (by
    simp (disch := decide) only [fFunc, rWord, field_above, field_below, bit_above, bit_below] <;> decide)).trans (by
    simp (disch := decide) only [fRd, fRa, fRb, rWord, field_above, field_below, bit_above, bit_below] <;>
      simp only [field_all, bit_ofBool, parts_four, parts_five, Nat.reduceSub, Nat.reduceAdd, BitVec.reduceExtractLsb']))
theorem Encoding.larrive (rd) : Encoding.Statement (.larrive rd) := by
  have h : ∀ w v, fMajor w = 0x1e#6 → w.extractLsb' 5 6 = 0#6 ∧ fFunc w = 0x000#11 → rawDecode w v = some (.larrive (fRd w)) := fun w v h h' => by
    rw [rawDecode, h]; rw [rawR1e, h'.1, h'.2]; rfl
  exact Encoding.oneWord rfl (by rw [isLong, fMajor_rWord]; rfl) (fun _ _ => (h _ _ (fMajor_rWord ..) (by
    simp (disch := decide) only [fFunc, rWord, field_above, field_below, bit_above, bit_below] <;> decide)).trans (by
    simp (disch := decide) only [fRd, fRa, fRb, rWord, field_above, field_below, bit_above, bit_below] <;>
      simp only [field_all, bit_ofBool, parts_four, parts_five, Nat.reduceSub, Nat.reduceAdd, BitVec.reduceExtractLsb']))
theorem Encoding.lwait (rd ra) : Encoding.Statement (.lwait rd ra) := by
  have h : ∀ w v, fMajor w = 0x1e#6 → w.extractLsb' 5 6 = 0#6 ∧ fFunc w = 0x001#11 → rawDecode w v = some (.lwait (fRd w) (fRa w)) := fun w v h h' => by
    rw [rawDecode, h]; rw [rawR1e, h'.1, h'.2]; rfl
  exact Encoding.oneWord rfl (by rw [isLong, fMajor_rWord]; rfl) (fun _ _ => (h _ _ (fMajor_rWord ..) (by
    simp (disch := decide) only [fFunc, rWord, field_above, field_below, bit_above, bit_below] <;> decide)).trans (by
    simp (disch := decide) only [fRd, fRa, fRb, rWord, field_above, field_below, bit_above, bit_below] <;>
      simp only [field_all, bit_ofBool, parts_four, parts_five, Nat.reduceSub, Nat.reduceAdd, BitVec.reduceExtractLsb']))
theorem Encoding.larriveScope (rd ra scope) : Encoding.Statement (.larriveScope rd ra scope) := by
  have h : ∀ w v, fMajor w = 0x1e#6 → w.extractLsb' 5 6 = 8#6 → rawDecode w v = some (.larriveScope (fRd w) (fRa w) (w.extractLsb' 2 3)) := fun w v h h' => by
    rw [rawDecode, h]; rw [rawR1e, h']; rfl
  exact Encoding.oneWord rfl (by rw [isLong, fMajor_rWord]; rfl) (fun _ _ => (h _ _ (fMajor_rWord ..) (by
    simp (disch := decide) only [fFunc, rWord, field_above, field_below, bit_above, bit_below] <;> decide)).trans (by
    simp (disch := decide) only [fRd, fRa, fRb, rWord, field_above, field_below, bit_above, bit_below] <;>
      simp only [field_all, bit_ofBool, parts_four, parts_five, Nat.reduceSub, Nat.reduceAdd, BitVec.reduceExtractLsb']))
theorem Encoding.lwaitScope (rd ra rb scope) : Encoding.Statement (.lwaitScope rd ra rb scope) := by
  have h : ∀ w v, fMajor w = 0x1e#6 → w.extractLsb' 5 6 = 16#6 → rawDecode w v = some (.lwaitScope (fRd w) (fRa w) (fRb w) (w.extractLsb' 2 3)) := fun w v h h' => by
    rw [rawDecode, h]; rw [rawR1e, h']; rfl
  exact Encoding.oneWord rfl (by rw [isLong, fMajor_rWord]; rfl) (fun _ _ => (h _ _ (fMajor_rWord ..) (by
    simp (disch := decide) only [fFunc, rWord, field_above, field_below, bit_above, bit_below] <;> decide)).trans (by
    simp (disch := decide) only [fRd, fRa, fRb, rWord, field_above, field_below, bit_above, bit_below] <;>
      simp only [field_all, bit_ofBool, parts_four, parts_five, Nat.reduceSub, Nat.reduceAdd, BitVec.reduceExtractLsb']))
theorem Encoding.retire : Encoding.Statement .retire := by
  have h : ∀ w v, fMajor w = 0x1e#6 → w.extractLsb' 5 6 = 24#6 ∧ fFunc w = 0x300#11 → rawDecode w v = some (.retire) := fun w v h h' => by
    rw [rawDecode, h]; rw [rawR1e, h'.1, h'.2]; rfl
  exact Encoding.oneWord rfl (by rw [isLong, fMajor_rWord]; rfl) (fun _ _ => (h _ _ (fMajor_rWord ..) (by
    simp (disch := decide) only [fFunc, rWord, field_above, field_below, bit_above, bit_below] <;> decide)).trans (by
    simp (disch := decide) only [fRd, fRa, fRb, rWord, field_above, field_below, bit_above, bit_below] <;>
      simp only [field_all, bit_ofBool, parts_four, parts_five, Nat.reduceSub, Nat.reduceAdd, BitVec.reduceExtractLsb']))
theorem Encoding.twake : Encoding.Statement .twake := by
  have h : ∀ w v, fMajor w = 0x1f#6 → fFunc w = 0x000#11 → rawDecode w v = some (.twake) := fun w v h h' => by
    rw [rawDecode, h]; rw [rawR1f, h']; rfl
  exact Encoding.oneWord rfl (by rw [isLong, fMajor_rWord]; rfl) (fun _ _ => (h _ _ (fMajor_rWord ..) (by
    simp (disch := decide) only [fFunc, rWord, field_above, field_below, bit_above, bit_below] <;> decide)).trans (by
    simp (disch := decide) only [fRd, fRa, fRb, rWord, field_above, field_below, bit_above, bit_below] <;>
      simp only [field_all, bit_ofBool, parts_four, parts_five, Nat.reduceSub, Nat.reduceAdd, BitVec.reduceExtractLsb']))
theorem Encoding.tfill (ra) : Encoding.Statement (.tfill ra) := by
  have h : ∀ w v, fMajor w = 0x1f#6 → fFunc w = 0x001#11 → rawDecode w v = some (.tfill (fRa w)) := fun w v h h' => by
    rw [rawDecode, h]; rw [rawR1f, h']; rfl
  exact Encoding.oneWord rfl (by rw [isLong, fMajor_rWord]; rfl) (fun _ _ => (h _ _ (fMajor_rWord ..) (by
    simp (disch := decide) only [fFunc, rWord, field_above, field_below, bit_above, bit_below] <;> decide)).trans (by
    simp (disch := decide) only [fRd, fRa, fRb, rWord, field_above, field_below, bit_above, bit_below] <;>
      simp only [field_all, bit_ofBool, parts_four, parts_five, Nat.reduceSub, Nat.reduceAdd, BitVec.reduceExtractLsb']))
theorem Encoding.bkt (rd ra) : Encoding.Statement (.bkt rd ra) := by
  have h : ∀ w v, fMajor w = 0x1f#6 → fFunc w = 0x002#11 → rawDecode w v = some (.bkt (fRd w) (fRa w)) := fun w v h h' => by
    rw [rawDecode, h]; rw [rawR1f, h']; rfl
  exact Encoding.oneWord rfl (by rw [isLong, fMajor_rWord]; rfl) (fun _ _ => (h _ _ (fMajor_rWord ..) (by
    simp (disch := decide) only [fFunc, rWord, field_above, field_below, bit_above, bit_below] <;> decide)).trans (by
    simp (disch := decide) only [fRd, fRa, fRb, rWord, field_above, field_below, bit_above, bit_below] <;>
      simp only [field_all, bit_ofBool, parts_four, parts_five, Nat.reduceSub, Nat.reduceAdd, BitVec.reduceExtractLsb']))
theorem Encoding.lb (rd base off) : Encoding.Statement (.lb rd base off) := by
  have h : ∀ w v, fMajor w = 0x20#6 → w.extractLsb' 0 3 = 0#3 → rawDecode w v = some (.lb (w.extractLsb' 20 5) (fBase w) (fOff w)) := fun w v h h' => by
    rw [rawDecode, h]; unfold rawScalarMem; rw [h']; rfl
  exact Encoding.oneWord rfl (by rw [isLong, fMajor_mWord]; rfl) (fun _ _ => (h _ _ (fMajor_mWord ..) (by
    simp (disch := decide) only [fFunc, mWord, field_above, field_below, bit_above, bit_below] <;> decide)).trans (by
    simp (disch := decide) only [fApd, fBase, fOff, mWord, field_above, field_below, bit_above, bit_below] <;>
      simp only [field_all, bit_ofBool, parts_four, parts_five, Nat.reduceSub, Nat.reduceAdd, BitVec.reduceExtractLsb']))
theorem Encoding.lh (rd base off) : Encoding.Statement (.lh rd base off) := by
  have h : ∀ w v, fMajor w = 0x20#6 → w.extractLsb' 0 3 = 1#3 → rawDecode w v = some (.lh (w.extractLsb' 20 5) (fBase w) (fOff w)) := fun w v h h' => by
    rw [rawDecode, h]; unfold rawScalarMem; rw [h']; rfl
  exact Encoding.oneWord rfl (by rw [isLong, fMajor_mWord]; rfl) (fun _ _ => (h _ _ (fMajor_mWord ..) (by
    simp (disch := decide) only [fFunc, mWord, field_above, field_below, bit_above, bit_below] <;> decide)).trans (by
    simp (disch := decide) only [fApd, fBase, fOff, mWord, field_above, field_below, bit_above, bit_below] <;>
      simp only [field_all, bit_ofBool, parts_four, parts_five, Nat.reduceSub, Nat.reduceAdd, BitVec.reduceExtractLsb']))
theorem Encoding.lw (rd base off) : Encoding.Statement (.lw rd base off) := by
  have h : ∀ w v, fMajor w = 0x20#6 → w.extractLsb' 0 3 = 2#3 → rawDecode w v = some (.lw (w.extractLsb' 20 5) (fBase w) (fOff w)) := fun w v h h' => by
    rw [rawDecode, h]; unfold rawScalarMem; rw [h']; rfl
  exact Encoding.oneWord rfl (by rw [isLong, fMajor_mWord]; rfl) (fun _ _ => (h _ _ (fMajor_mWord ..) (by
    simp (disch := decide) only [fFunc, mWord, field_above, field_below, bit_above, bit_below] <;> decide)).trans (by
    simp (disch := decide) only [fApd, fBase, fOff, mWord, field_above, field_below, bit_above, bit_below] <;>
      simp only [field_all, bit_ofBool, parts_four, parts_five, Nat.reduceSub, Nat.reduceAdd, BitVec.reduceExtractLsb']))
theorem Encoding.ld (rd base off) : Encoding.Statement (.ld rd base off) := by
  have h : ∀ w v, fMajor w = 0x20#6 → w.extractLsb' 0 3 = 3#3 → rawDecode w v = some (.ld (w.extractLsb' 20 5) (fBase w) (fOff w)) := fun w v h h' => by
    rw [rawDecode, h]; unfold rawScalarMem; rw [h']; rfl
  exact Encoding.oneWord rfl (by rw [isLong, fMajor_mWord]; rfl) (fun _ _ => (h _ _ (fMajor_mWord ..) (by
    simp (disch := decide) only [fFunc, mWord, field_above, field_below, bit_above, bit_below] <;> decide)).trans (by
    simp (disch := decide) only [fApd, fBase, fOff, mWord, field_above, field_below, bit_above, bit_below] <;>
      simp only [field_all, bit_ofBool, parts_four, parts_five, Nat.reduceSub, Nat.reduceAdd, BitVec.reduceExtractLsb']))
theorem Encoding.lbn (rd base off) : Encoding.Statement (.lbn rd base off) := by
  have h : ∀ w v, fMajor w = 0x21#6 → w.extractLsb' 0 3 = 0#3 → rawDecode w v = some (.lbn (w.extractLsb' 20 5) (fBase w) (fOff w)) := fun w v h h' => by
    rw [rawDecode, h]; unfold rawScalarMem; rw [h']; rfl
  exact Encoding.oneWord rfl (by rw [isLong, fMajor_mWord]; rfl) (fun _ _ => (h _ _ (fMajor_mWord ..) (by
    simp (disch := decide) only [fFunc, mWord, field_above, field_below, bit_above, bit_below] <;> decide)).trans (by
    simp (disch := decide) only [fApd, fBase, fOff, mWord, field_above, field_below, bit_above, bit_below] <;>
      simp only [field_all, bit_ofBool, parts_four, parts_five, Nat.reduceSub, Nat.reduceAdd, BitVec.reduceExtractLsb']))
theorem Encoding.lhn (rd base off) : Encoding.Statement (.lhn rd base off) := by
  have h : ∀ w v, fMajor w = 0x21#6 → w.extractLsb' 0 3 = 1#3 → rawDecode w v = some (.lhn (w.extractLsb' 20 5) (fBase w) (fOff w)) := fun w v h h' => by
    rw [rawDecode, h]; unfold rawScalarMem; rw [h']; rfl
  exact Encoding.oneWord rfl (by rw [isLong, fMajor_mWord]; rfl) (fun _ _ => (h _ _ (fMajor_mWord ..) (by
    simp (disch := decide) only [fFunc, mWord, field_above, field_below, bit_above, bit_below] <;> decide)).trans (by
    simp (disch := decide) only [fApd, fBase, fOff, mWord, field_above, field_below, bit_above, bit_below] <;>
      simp only [field_all, bit_ofBool, parts_four, parts_five, Nat.reduceSub, Nat.reduceAdd, BitVec.reduceExtractLsb']))
theorem Encoding.lwn (rd base off) : Encoding.Statement (.lwn rd base off) := by
  have h : ∀ w v, fMajor w = 0x21#6 → w.extractLsb' 0 3 = 2#3 → rawDecode w v = some (.lwn (w.extractLsb' 20 5) (fBase w) (fOff w)) := fun w v h h' => by
    rw [rawDecode, h]; unfold rawScalarMem; rw [h']; rfl
  exact Encoding.oneWord rfl (by rw [isLong, fMajor_mWord]; rfl) (fun _ _ => (h _ _ (fMajor_mWord ..) (by
    simp (disch := decide) only [fFunc, mWord, field_above, field_below, bit_above, bit_below] <;> decide)).trans (by
    simp (disch := decide) only [fApd, fBase, fOff, mWord, field_above, field_below, bit_above, bit_below] <;>
      simp only [field_all, bit_ofBool, parts_four, parts_five, Nat.reduceSub, Nat.reduceAdd, BitVec.reduceExtractLsb']))
theorem Encoding.ldn (rd base off) : Encoding.Statement (.ldn rd base off) := by
  have h : ∀ w v, fMajor w = 0x21#6 → w.extractLsb' 0 3 = 3#3 → rawDecode w v = some (.ldn (w.extractLsb' 20 5) (fBase w) (fOff w)) := fun w v h h' => by
    rw [rawDecode, h]; unfold rawScalarMem; rw [h']; rfl
  exact Encoding.oneWord rfl (by rw [isLong, fMajor_mWord]; rfl) (fun _ _ => (h _ _ (fMajor_mWord ..) (by
    simp (disch := decide) only [fFunc, mWord, field_above, field_below, bit_above, bit_below] <;> decide)).trans (by
    simp (disch := decide) only [fApd, fBase, fOff, mWord, field_above, field_below, bit_above, bit_below] <;>
      simp only [field_all, bit_ofBool, parts_four, parts_five, Nat.reduceSub, Nat.reduceAdd, BitVec.reduceExtractLsb']))
theorem Encoding.sb (rd base off) : Encoding.Statement (.sb rd base off) := by
  have h : ∀ w v, fMajor w = 0x22#6 → w.extractLsb' 0 3 = 0#3 → rawDecode w v = some (.sb (w.extractLsb' 20 5) (fBase w) (fOff w)) := fun w v h h' => by
    rw [rawDecode, h]; unfold rawScalarMem; rw [h']; rfl
  exact Encoding.oneWord rfl (by rw [isLong, fMajor_mWord]; rfl) (fun _ _ => (h _ _ (fMajor_mWord ..) (by
    simp (disch := decide) only [fFunc, mWord, field_above, field_below, bit_above, bit_below] <;> decide)).trans (by
    simp (disch := decide) only [fApd, fBase, fOff, mWord, field_above, field_below, bit_above, bit_below] <;>
      simp only [field_all, bit_ofBool, parts_four, parts_five, Nat.reduceSub, Nat.reduceAdd, BitVec.reduceExtractLsb']))
theorem Encoding.sh (rd base off) : Encoding.Statement (.sh rd base off) := by
  have h : ∀ w v, fMajor w = 0x22#6 → w.extractLsb' 0 3 = 1#3 → rawDecode w v = some (.sh (w.extractLsb' 20 5) (fBase w) (fOff w)) := fun w v h h' => by
    rw [rawDecode, h]; unfold rawScalarMem; rw [h']; rfl
  exact Encoding.oneWord rfl (by rw [isLong, fMajor_mWord]; rfl) (fun _ _ => (h _ _ (fMajor_mWord ..) (by
    simp (disch := decide) only [fFunc, mWord, field_above, field_below, bit_above, bit_below] <;> decide)).trans (by
    simp (disch := decide) only [fApd, fBase, fOff, mWord, field_above, field_below, bit_above, bit_below] <;>
      simp only [field_all, bit_ofBool, parts_four, parts_five, Nat.reduceSub, Nat.reduceAdd, BitVec.reduceExtractLsb']))
theorem Encoding.sw (rd base off) : Encoding.Statement (.sw rd base off) := by
  have h : ∀ w v, fMajor w = 0x22#6 → w.extractLsb' 0 3 = 2#3 → rawDecode w v = some (.sw (w.extractLsb' 20 5) (fBase w) (fOff w)) := fun w v h h' => by
    rw [rawDecode, h]; unfold rawScalarMem; rw [h']; rfl
  exact Encoding.oneWord rfl (by rw [isLong, fMajor_mWord]; rfl) (fun _ _ => (h _ _ (fMajor_mWord ..) (by
    simp (disch := decide) only [fFunc, mWord, field_above, field_below, bit_above, bit_below] <;> decide)).trans (by
    simp (disch := decide) only [fApd, fBase, fOff, mWord, field_above, field_below, bit_above, bit_below] <;>
      simp only [field_all, bit_ofBool, parts_four, parts_five, Nat.reduceSub, Nat.reduceAdd, BitVec.reduceExtractLsb']))
theorem Encoding.sd (rd base off) : Encoding.Statement (.sd rd base off) := by
  have h : ∀ w v, fMajor w = 0x22#6 → w.extractLsb' 0 3 = 3#3 → rawDecode w v = some (.sd (w.extractLsb' 20 5) (fBase w) (fOff w)) := fun w v h h' => by
    rw [rawDecode, h]; unfold rawScalarMem; rw [h']; rfl
  exact Encoding.oneWord rfl (by rw [isLong, fMajor_mWord]; rfl) (fun _ _ => (h _ _ (fMajor_mWord ..) (by
    simp (disch := decide) only [fFunc, mWord, field_above, field_below, bit_above, bit_below] <;> decide)).trans (by
    simp (disch := decide) only [fApd, fBase, fOff, mWord, field_above, field_below, bit_above, bit_below] <;>
      simp only [field_all, bit_ofBool, parts_four, parts_five, Nat.reduceSub, Nat.reduceAdd, BitVec.reduceExtractLsb']))
theorem Encoding.amswp (rd ra rb dword scope q) : Encoding.Statement (.amswp rd ra rb dword scope q) := by
  have h : ∀ w v, fMajor w = 0x23#6 → w.extractLsb' 6 5 = 0#5 → rawDecode w v = some (.amswp (fRd w) (fRa w) (fRb w) (w.getLsbD 5) (w.extractLsb' 2 3) (w.extractLsb' 0 2)) := fun w v h h' => by
    rw [rawDecode, h]; rw [rawAtomic, h']; rfl
  exact Encoding.oneWord rfl (by rw [isLong, fMajor_rWord]; rfl) (fun _ _ => (h _ _ (fMajor_rWord ..) (by
    simp (disch := decide) only [fFunc, rWord, field_above, field_below, bit_above, bit_below] <;> decide)).trans (by
    simp (disch := decide) only [fRd, fRa, fRb, rWord, field_above, field_below, bit_above, bit_below] <;>
      simp only [field_all, bit_ofBool, parts_four, parts_five, Nat.reduceSub, Nat.reduceAdd, BitVec.reduceExtractLsb']))
theorem Encoding.amcas (rd ra rb dword scope q) : Encoding.Statement (.amcas rd ra rb dword scope q) := by
  have h : ∀ w v, fMajor w = 0x23#6 → w.extractLsb' 6 5 = 1#5 → rawDecode w v = some (.amcas (fRd w) (fRa w) (fRb w) (w.getLsbD 5) (w.extractLsb' 2 3) (w.extractLsb' 0 2)) := fun w v h h' => by
    rw [rawDecode, h]; rw [rawAtomic, h']; rfl
  exact Encoding.oneWord rfl (by rw [isLong, fMajor_rWord]; rfl) (fun _ _ => (h _ _ (fMajor_rWord ..) (by
    simp (disch := decide) only [fFunc, rWord, field_above, field_below, bit_above, bit_below] <;> decide)).trans (by
    simp (disch := decide) only [fRd, fRa, fRb, rWord, field_above, field_below, bit_above, bit_below] <;>
      simp only [field_all, bit_ofBool, parts_four, parts_five, Nat.reduceSub, Nat.reduceAdd, BitVec.reduceExtractLsb']))
theorem Encoding.amadd (rd ra rb dword scope q) : Encoding.Statement (.amadd rd ra rb dword scope q) := by
  have h : ∀ w v, fMajor w = 0x23#6 → w.extractLsb' 6 5 = 2#5 → rawDecode w v = some (.amadd (fRd w) (fRa w) (fRb w) (w.getLsbD 5) (w.extractLsb' 2 3) (w.extractLsb' 0 2)) := fun w v h h' => by
    rw [rawDecode, h]; rw [rawAtomic, h']; rfl
  exact Encoding.oneWord rfl (by rw [isLong, fMajor_rWord]; rfl) (fun _ _ => (h _ _ (fMajor_rWord ..) (by
    simp (disch := decide) only [fFunc, rWord, field_above, field_below, bit_above, bit_below] <;> decide)).trans (by
    simp (disch := decide) only [fRd, fRa, fRb, rWord, field_above, field_below, bit_above, bit_below] <;>
      simp only [field_all, bit_ofBool, parts_four, parts_five, Nat.reduceSub, Nat.reduceAdd, BitVec.reduceExtractLsb']))
theorem Encoding.amand (rd ra rb dword scope q) : Encoding.Statement (.amand rd ra rb dword scope q) := by
  have h : ∀ w v, fMajor w = 0x23#6 → w.extractLsb' 6 5 = 3#5 → rawDecode w v = some (.amand (fRd w) (fRa w) (fRb w) (w.getLsbD 5) (w.extractLsb' 2 3) (w.extractLsb' 0 2)) := fun w v h h' => by
    rw [rawDecode, h]; rw [rawAtomic, h']; rfl
  exact Encoding.oneWord rfl (by rw [isLong, fMajor_rWord]; rfl) (fun _ _ => (h _ _ (fMajor_rWord ..) (by
    simp (disch := decide) only [fFunc, rWord, field_above, field_below, bit_above, bit_below] <;> decide)).trans (by
    simp (disch := decide) only [fRd, fRa, fRb, rWord, field_above, field_below, bit_above, bit_below] <;>
      simp only [field_all, bit_ofBool, parts_four, parts_five, Nat.reduceSub, Nat.reduceAdd, BitVec.reduceExtractLsb']))
theorem Encoding.amor (rd ra rb dword scope q) : Encoding.Statement (.amor rd ra rb dword scope q) := by
  have h : ∀ w v, fMajor w = 0x23#6 → w.extractLsb' 6 5 = 4#5 → rawDecode w v = some (.amor (fRd w) (fRa w) (fRb w) (w.getLsbD 5) (w.extractLsb' 2 3) (w.extractLsb' 0 2)) := fun w v h h' => by
    rw [rawDecode, h]; rw [rawAtomic, h']; rfl
  exact Encoding.oneWord rfl (by rw [isLong, fMajor_rWord]; rfl) (fun _ _ => (h _ _ (fMajor_rWord ..) (by
    simp (disch := decide) only [fFunc, rWord, field_above, field_below, bit_above, bit_below] <;> decide)).trans (by
    simp (disch := decide) only [fRd, fRa, fRb, rWord, field_above, field_below, bit_above, bit_below] <;>
      simp only [field_all, bit_ofBool, parts_four, parts_five, Nat.reduceSub, Nat.reduceAdd, BitVec.reduceExtractLsb']))
theorem Encoding.amxor (rd ra rb dword scope q) : Encoding.Statement (.amxor rd ra rb dword scope q) := by
  have h : ∀ w v, fMajor w = 0x23#6 → w.extractLsb' 6 5 = 5#5 → rawDecode w v = some (.amxor (fRd w) (fRa w) (fRb w) (w.getLsbD 5) (w.extractLsb' 2 3) (w.extractLsb' 0 2)) := fun w v h h' => by
    rw [rawDecode, h]; rw [rawAtomic, h']; rfl
  exact Encoding.oneWord rfl (by rw [isLong, fMajor_rWord]; rfl) (fun _ _ => (h _ _ (fMajor_rWord ..) (by
    simp (disch := decide) only [fFunc, rWord, field_above, field_below, bit_above, bit_below] <;> decide)).trans (by
    simp (disch := decide) only [fRd, fRa, fRb, rWord, field_above, field_below, bit_above, bit_below] <;>
      simp only [field_all, bit_ofBool, parts_four, parts_five, Nat.reduceSub, Nat.reduceAdd, BitVec.reduceExtractLsb']))
theorem Encoding.ammin (rd ra rb dword scope q) : Encoding.Statement (.ammin rd ra rb dword scope q) := by
  have h : ∀ w v, fMajor w = 0x23#6 → w.extractLsb' 6 5 = 6#5 → rawDecode w v = some (.ammin (fRd w) (fRa w) (fRb w) (w.getLsbD 5) (w.extractLsb' 2 3) (w.extractLsb' 0 2)) := fun w v h h' => by
    rw [rawDecode, h]; rw [rawAtomic, h']; rfl
  exact Encoding.oneWord rfl (by rw [isLong, fMajor_rWord]; rfl) (fun _ _ => (h _ _ (fMajor_rWord ..) (by
    simp (disch := decide) only [fFunc, rWord, field_above, field_below, bit_above, bit_below] <;> decide)).trans (by
    simp (disch := decide) only [fRd, fRa, fRb, rWord, field_above, field_below, bit_above, bit_below] <;>
      simp only [field_all, bit_ofBool, parts_four, parts_five, Nat.reduceSub, Nat.reduceAdd, BitVec.reduceExtractLsb']))
theorem Encoding.ammax (rd ra rb dword scope q) : Encoding.Statement (.ammax rd ra rb dword scope q) := by
  have h : ∀ w v, fMajor w = 0x23#6 → w.extractLsb' 6 5 = 7#5 → rawDecode w v = some (.ammax (fRd w) (fRa w) (fRb w) (w.getLsbD 5) (w.extractLsb' 2 3) (w.extractLsb' 0 2)) := fun w v h h' => by
    rw [rawDecode, h]; rw [rawAtomic, h']; rfl
  exact Encoding.oneWord rfl (by rw [isLong, fMajor_rWord]; rfl) (fun _ _ => (h _ _ (fMajor_rWord ..) (by
    simp (disch := decide) only [fFunc, rWord, field_above, field_below, bit_above, bit_below] <;> decide)).trans (by
    simp (disch := decide) only [fRd, fRa, fRb, rWord, field_above, field_below, bit_above, bit_below] <;>
      simp only [field_all, bit_ofBool, parts_four, parts_five, Nat.reduceSub, Nat.reduceAdd, BitVec.reduceExtractLsb']))
theorem Encoding.amminn (rd ra rb dword scope q) : Encoding.Statement (.amminn rd ra rb dword scope q) := by
  have h : ∀ w v, fMajor w = 0x23#6 → w.extractLsb' 6 5 = 8#5 → rawDecode w v = some (.amminn (fRd w) (fRa w) (fRb w) (w.getLsbD 5) (w.extractLsb' 2 3) (w.extractLsb' 0 2)) := fun w v h h' => by
    rw [rawDecode, h]; rw [rawAtomic, h']; rfl
  exact Encoding.oneWord rfl (by rw [isLong, fMajor_rWord]; rfl) (fun _ _ => (h _ _ (fMajor_rWord ..) (by
    simp (disch := decide) only [fFunc, rWord, field_above, field_below, bit_above, bit_below] <;> decide)).trans (by
    simp (disch := decide) only [fRd, fRa, fRb, rWord, field_above, field_below, bit_above, bit_below] <;>
      simp only [field_all, bit_ofBool, parts_four, parts_five, Nat.reduceSub, Nat.reduceAdd, BitVec.reduceExtractLsb']))
theorem Encoding.ammaxn (rd ra rb dword scope q) : Encoding.Statement (.ammaxn rd ra rb dword scope q) := by
  have h : ∀ w v, fMajor w = 0x23#6 → w.extractLsb' 6 5 = 9#5 → rawDecode w v = some (.ammaxn (fRd w) (fRa w) (fRb w) (w.getLsbD 5) (w.extractLsb' 2 3) (w.extractLsb' 0 2)) := fun w v h h' => by
    rw [rawDecode, h]; rw [rawAtomic, h']; rfl
  exact Encoding.oneWord rfl (by rw [isLong, fMajor_rWord]; rfl) (fun _ _ => (h _ _ (fMajor_rWord ..) (by
    simp (disch := decide) only [fFunc, rWord, field_above, field_below, bit_above, bit_below] <;> decide)).trans (by
    simp (disch := decide) only [fRd, fRa, fRb, rWord, field_above, field_below, bit_above, bit_below] <;>
      simp only [field_all, bit_ofBool, parts_four, parts_five, Nat.reduceSub, Nat.reduceAdd, BitVec.reduceExtractLsb']))
theorem Encoding.amfadd (rd ra rb scope q) : Encoding.Statement (.amfadd rd ra rb scope q) := by
  have h : ∀ w v, fMajor w = 0x23#6 → w.extractLsb' 6 5 = 10#5 → rawDecode w v = some (.amfadd (fRd w) (fRa w) (fRb w) (w.extractLsb' 2 3) (w.extractLsb' 0 2)) := fun w v h h' => by
    rw [rawDecode, h]; rw [rawAtomic, h']; rfl
  exact Encoding.oneWord rfl (by rw [isLong, fMajor_rWord]; rfl) (fun _ _ => (h _ _ (fMajor_rWord ..) (by
    simp (disch := decide) only [fFunc, rWord, field_above, field_below, bit_above, bit_below] <;> decide)).trans (by
    simp (disch := decide) only [fRd, fRa, fRb, rWord, field_above, field_below, bit_above, bit_below] <;>
      simp only [field_all, bit_ofBool, parts_four, parts_five, Nat.reduceSub, Nat.reduceAdd, BitVec.reduceExtractLsb']))
theorem Encoding.amfmin (rd ra rb scope q) : Encoding.Statement (.amfmin rd ra rb scope q) := by
  have h : ∀ w v, fMajor w = 0x23#6 → w.extractLsb' 6 5 = 11#5 → rawDecode w v = some (.amfmin (fRd w) (fRa w) (fRb w) (w.extractLsb' 2 3) (w.extractLsb' 0 2)) := fun w v h h' => by
    rw [rawDecode, h]; rw [rawAtomic, h']; rfl
  exact Encoding.oneWord rfl (by rw [isLong, fMajor_rWord]; rfl) (fun _ _ => (h _ _ (fMajor_rWord ..) (by
    simp (disch := decide) only [fFunc, rWord, field_above, field_below, bit_above, bit_below] <;> decide)).trans (by
    simp (disch := decide) only [fRd, fRa, fRb, rWord, field_above, field_below, bit_above, bit_below] <;>
      simp only [field_all, bit_ofBool, parts_four, parts_five, Nat.reduceSub, Nat.reduceAdd, BitVec.reduceExtractLsb']))
theorem Encoding.amfmax (rd ra rb scope q) : Encoding.Statement (.amfmax rd ra rb scope q) := by
  have h : ∀ w v, fMajor w = 0x23#6 → w.extractLsb' 6 5 = 12#5 → rawDecode w v = some (.amfmax (fRd w) (fRa w) (fRb w) (w.extractLsb' 2 3) (w.extractLsb' 0 2)) := fun w v h h' => by
    rw [rawDecode, h]; rw [rawAtomic, h']; rfl
  exact Encoding.oneWord rfl (by rw [isLong, fMajor_rWord]; rfl) (fun _ _ => (h _ _ (fMajor_rWord ..) (by
    simp (disch := decide) only [fFunc, rWord, field_above, field_below, bit_above, bit_below] <;> decide)).trans (by
    simp (disch := decide) only [fRd, fRa, fRb, rWord, field_above, field_below, bit_above, bit_below] <;>
      simp only [field_all, bit_ofBool, parts_four, parts_five, Nat.reduceSub, Nat.reduceAdd, BitVec.reduceExtractLsb']))
theorem Encoding.amld (rd ra dword scope q) : Encoding.Statement (.amld rd ra dword scope q) := by
  have h : ∀ w v, fMajor w = 0x23#6 → w.extractLsb' 6 5 = 13#5 → rawDecode w v = some (.amld (fRd w) (fRa w) (w.getLsbD 5) (w.extractLsb' 2 3) (w.extractLsb' 0 2)) := fun w v h h' => by
    rw [rawDecode, h]; rw [rawAtomic, h']; rfl
  exact Encoding.oneWord rfl (by rw [isLong, fMajor_rWord]; rfl) (fun _ _ => (h _ _ (fMajor_rWord ..) (by
    simp (disch := decide) only [fFunc, rWord, field_above, field_below, bit_above, bit_below] <;> decide)).trans (by
    simp (disch := decide) only [fRd, fRa, fRb, rWord, field_above, field_below, bit_above, bit_below] <;>
      simp only [field_all, bit_ofBool, parts_four, parts_five, Nat.reduceSub, Nat.reduceAdd, BitVec.reduceExtractLsb']))
theorem Encoding.amst (ra rb dword scope q) : Encoding.Statement (.amst ra rb dword scope q) := by
  have h : ∀ w v, fMajor w = 0x23#6 → w.extractLsb' 6 5 = 14#5 → rawDecode w v = some (.amst (fRa w) (fRb w) (w.getLsbD 5) (w.extractLsb' 2 3) (w.extractLsb' 0 2)) := fun w v h h' => by
    rw [rawDecode, h]; rw [rawAtomic, h']; rfl
  exact Encoding.oneWord rfl (by rw [isLong, fMajor_rWord]; rfl) (fun _ _ => (h _ _ (fMajor_rWord ..) (by
    simp (disch := decide) only [fFunc, rWord, field_above, field_below, bit_above, bit_below] <;> decide)).trans (by
    simp (disch := decide) only [fRd, fRa, fRb, rWord, field_above, field_below, bit_above, bit_below] <;>
      simp only [field_all, bit_ofBool, parts_four, parts_five, Nat.reduceSub, Nat.reduceAdd, BitVec.reduceExtractLsb']))
theorem Encoding.vld (ap base off size) : Encoding.Statement (.vld ap base off size) := by
  have h : ∀ w v, fMajor w = 0x24#6 → rawDecode w v = some (.vld (fApd w) (fBase w) (fOff w) (w.extractLsb' 0 3)) := fun w v h => by rw [rawDecode, h]; rfl
  exact Encoding.oneWord rfl (by rw [isLong, fMajor_mWord]; rfl) (fun _ _ => (h _ _ (fMajor_mWord ..)).trans (by
    simp (disch := decide) only [fApd, fBase, fOff, mWord, field_above, field_below, bit_above, bit_below] <;>
      simp only [field_all, bit_ofBool, parts_four, parts_five, Nat.reduceSub, Nat.reduceAdd, BitVec.reduceExtractLsb']))
theorem Encoding.vst (ap base off size) : Encoding.Statement (.vst ap base off size) := by
  have h : ∀ w v, fMajor w = 0x25#6 → rawDecode w v = some (.vst (fApd w) (fBase w) (fOff w) (w.extractLsb' 0 3)) := fun w v h => by rw [rawDecode, h]; rfl
  exact Encoding.oneWord rfl (by rw [isLong, fMajor_mWord]; rfl) (fun _ _ => (h _ _ (fMajor_mWord ..)).trans (by
    simp (disch := decide) only [fApd, fBase, fOff, mWord, field_above, field_below, bit_above, bit_below] <;>
      simp only [field_all, bit_ofBool, parts_four, parts_five, Nat.reduceSub, Nat.reduceAdd, BitVec.reduceExtractLsb']))
theorem Encoding.vadd (apd apa apb mask) : Encoding.Statement (.vadd apd apa apb mask) := Encoding.halfWord (h := ⟨.vadd, apd, apa, apb⟩) (mask := mask) rfl rfl
  (fun _ => by rw [rawDecode, fMajor_word]; rfl) (by rw [isLong, fMajor_word]; rfl)
theorem Encoding.vsub (apd apa apb mask) : Encoding.Statement (.vsub apd apa apb mask) := Encoding.halfWord (h := ⟨.vsub, apd, apa, apb⟩) (mask := mask) rfl rfl
  (fun _ => by rw [rawDecode, fMajor_word]; rfl) (by rw [isLong, fMajor_word]; rfl)
theorem Encoding.vadds (apd apa apb mask) : Encoding.Statement (.vadds apd apa apb mask) := Encoding.halfWord (h := ⟨.vadds, apd, apa, apb⟩) (mask := mask) rfl rfl
  (fun _ => by rw [rawDecode, fMajor_word]; rfl) (by rw [isLong, fMajor_word]; rfl)
theorem Encoding.vsubs (apd apa apb mask) : Encoding.Statement (.vsubs apd apa apb mask) := Encoding.halfWord (h := ⟨.vsubs, apd, apa, apb⟩) (mask := mask) rfl rfl
  (fun _ => by rw [rawDecode, fMajor_word]; rfl) (by rw [isLong, fMajor_word]; rfl)
theorem Encoding.vmul (apd apa apb mask) : Encoding.Statement (.vmul apd apa apb mask) := Encoding.halfWord (h := ⟨.vmul, apd, apa, apb⟩) (mask := mask) rfl rfl
  (fun _ => by rw [rawDecode, fMajor_word]; rfl) (by rw [isLong, fMajor_word]; rfl)
theorem Encoding.vmulh (apd apa apb mask) : Encoding.Statement (.vmulh apd apa apb mask) := Encoding.halfWord (h := ⟨.vmulh, apd, apa, apb⟩) (mask := mask) rfl rfl
  (fun _ => by rw [rawDecode, fMajor_word]; rfl) (by rw [isLong, fMajor_word]; rfl)
theorem Encoding.vmacc (apd apa apb mask) : Encoding.Statement (.vmacc apd apa apb mask) := Encoding.halfWord (h := ⟨.vmacc, apd, apa, apb⟩) (mask := mask) rfl rfl
  (fun _ => by rw [rawDecode, fMajor_word]; rfl) (by rw [isLong, fMajor_word]; rfl)
theorem Encoding.vwmacc (apd apa apb mask) : Encoding.Statement (.vwmacc apd apa apb mask) := Encoding.halfWord (h := ⟨.vwmacc, apd, apa, apb⟩) (mask := mask) rfl rfl
  (fun _ => by rw [rawDecode, fMajor_word]; rfl) (by rw [isLong, fMajor_word]; rfl)
theorem Encoding.vand (apd apa apb mask) : Encoding.Statement (.vand apd apa apb mask) := Encoding.halfWord (h := ⟨.vand, apd, apa, apb⟩) (mask := mask) rfl rfl
  (fun _ => by rw [rawDecode, fMajor_word]; rfl) (by rw [isLong, fMajor_word]; rfl)
theorem Encoding.vor (apd apa apb mask) : Encoding.Statement (.vor apd apa apb mask) := Encoding.halfWord (h := ⟨.vor, apd, apa, apb⟩) (mask := mask) rfl rfl
  (fun _ => by rw [rawDecode, fMajor_word]; rfl) (by rw [isLong, fMajor_word]; rfl)
theorem Encoding.vxor (apd apa apb mask) : Encoding.Statement (.vxor apd apa apb mask) := Encoding.halfWord (h := ⟨.vxor, apd, apa, apb⟩) (mask := mask) rfl rfl
  (fun _ => by rw [rawDecode, fMajor_word]; rfl) (by rw [isLong, fMajor_word]; rfl)
theorem Encoding.vandn (apd apa apb mask) : Encoding.Statement (.vandn apd apa apb mask) := Encoding.halfWord (h := ⟨.vandn, apd, apa, apb⟩) (mask := mask) rfl rfl
  (fun _ => by rw [rawDecode, fMajor_word]; rfl) (by rw [isLong, fMajor_word]; rfl)
theorem Encoding.vsll (apd apa apb mask) : Encoding.Statement (.vsll apd apa apb mask) := Encoding.halfWord (h := ⟨.vsll, apd, apa, apb⟩) (mask := mask) rfl rfl
  (fun _ => by rw [rawDecode, fMajor_word]; rfl) (by rw [isLong, fMajor_word]; rfl)
theorem Encoding.vsrl (apd apa apb mask) : Encoding.Statement (.vsrl apd apa apb mask) := Encoding.halfWord (h := ⟨.vsrl, apd, apa, apb⟩) (mask := mask) rfl rfl
  (fun _ => by rw [rawDecode, fMajor_word]; rfl) (by rw [isLong, fMajor_word]; rfl)
theorem Encoding.vsra (apd apa apb mask) : Encoding.Statement (.vsra apd apa apb mask) := Encoding.halfWord (h := ⟨.vsra, apd, apa, apb⟩) (mask := mask) rfl rfl
  (fun _ => by rw [rawDecode, fMajor_word]; rfl) (by rw [isLong, fMajor_word]; rfl)
theorem Encoding.vssr (apd apa apb mask) : Encoding.Statement (.vssr apd apa apb mask) := Encoding.halfWord (h := ⟨.vssr, apd, apa, apb⟩) (mask := mask) rfl rfl
  (fun _ => by rw [rawDecode, fMajor_word]; rfl) (by rw [isLong, fMajor_word]; rfl)
theorem Encoding.vneg (apd apa mask) : Encoding.Statement (.vneg apd apa mask) := Encoding.halfWord (h := ⟨.vneg, apd, apa, 0⟩) (mask := mask) rfl rfl
  (fun _ => by rw [rawDecode, fMajor_word]; rfl) (by rw [isLong, fMajor_word]; rfl)
theorem Encoding.vfadd (apd apa apb mask) : Encoding.Statement (.vfadd apd apa apb mask) := Encoding.halfWord (h := ⟨.vfadd, apd, apa, apb⟩) (mask := mask) rfl rfl
  (fun _ => by rw [rawDecode, fMajor_word]; rfl) (by rw [isLong, fMajor_word]; rfl)
theorem Encoding.vfsub (apd apa apb mask) : Encoding.Statement (.vfsub apd apa apb mask) := Encoding.halfWord (h := ⟨.vfsub, apd, apa, apb⟩) (mask := mask) rfl rfl
  (fun _ => by rw [rawDecode, fMajor_word]; rfl) (by rw [isLong, fMajor_word]; rfl)
theorem Encoding.vfmul (apd apa apb mask) : Encoding.Statement (.vfmul apd apa apb mask) := Encoding.halfWord (h := ⟨.vfmul, apd, apa, apb⟩) (mask := mask) rfl rfl
  (fun _ => by rw [rawDecode, fMajor_word]; rfl) (by rw [isLong, fMajor_word]; rfl)
theorem Encoding.vfdiv (apd apa apb mask) : Encoding.Statement (.vfdiv apd apa apb mask) := Encoding.halfWord (h := ⟨.vfdiv, apd, apa, apb⟩) (mask := mask) rfl rfl
  (fun _ => by rw [rawDecode, fMajor_word]; rfl) (by rw [isLong, fMajor_word]; rfl)
theorem Encoding.vfsqrt (apd apa mask) : Encoding.Statement (.vfsqrt apd apa mask) := Encoding.halfWord (h := ⟨.vfsqrt, apd, apa, 0⟩) (mask := mask) rfl rfl
  (fun _ => by rw [rawDecode, fMajor_word]; rfl) (by rw [isLong, fMajor_word]; rfl)
theorem Encoding.vfrcp (apd apa mask) : Encoding.Statement (.vfrcp apd apa mask) := Encoding.halfWord (h := ⟨.vfrcp, apd, apa, 0⟩) (mask := mask) rfl rfl
  (fun _ => by rw [rawDecode, fMajor_word]; rfl) (by rw [isLong, fMajor_word]; rfl)
theorem Encoding.vfma (apd apa apb mask) : Encoding.Statement (.vfma apd apa apb mask) := Encoding.halfWord (h := ⟨.vfma, apd, apa, apb⟩) (mask := mask) rfl rfl
  (fun _ => by rw [rawDecode, fMajor_word]; rfl) (by rw [isLong, fMajor_word]; rfl)
theorem Encoding.vfms (apd apa apb mask) : Encoding.Statement (.vfms apd apa apb mask) := Encoding.halfWord (h := ⟨.vfms, apd, apa, apb⟩) (mask := mask) rfl rfl
  (fun _ => by rw [rawDecode, fMajor_word]; rfl) (by rw [isLong, fMajor_word]; rfl)
theorem Encoding.vfnma (apd apa apb mask) : Encoding.Statement (.vfnma apd apa apb mask) := Encoding.halfWord (h := ⟨.vfnma, apd, apa, apb⟩) (mask := mask) rfl rfl
  (fun _ => by rw [rawDecode, fMajor_word]; rfl) (by rw [isLong, fMajor_word]; rfl)
theorem Encoding.vfwma (apd apa apb mask) : Encoding.Statement (.vfwma apd apa apb mask) := Encoding.halfWord (h := ⟨.vfwma, apd, apa, apb⟩) (mask := mask) rfl rfl
  (fun _ => by rw [rawDecode, fMajor_word]; rfl) (by rw [isLong, fMajor_word]; rfl)
theorem Encoding.vceq (kd apa apb mask) : Encoding.Statement (.vceq kd apa apb mask) := Encoding.halfWord (h := ⟨.vceq, kField kd, apa, apb⟩) (mask := mask) rfl (by simp only [AHalf.toInstr, kOfField_kField])
  (fun _ => by rw [rawDecode, fMajor_word]; rfl) (by rw [isLong, fMajor_word]; rfl)
theorem Encoding.vcne (kd apa apb mask) : Encoding.Statement (.vcne kd apa apb mask) := Encoding.halfWord (h := ⟨.vcne, kField kd, apa, apb⟩) (mask := mask) rfl (by simp only [AHalf.toInstr, kOfField_kField])
  (fun _ => by rw [rawDecode, fMajor_word]; rfl) (by rw [isLong, fMajor_word]; rfl)
theorem Encoding.vclt (kd apa apb mask) : Encoding.Statement (.vclt kd apa apb mask) := Encoding.halfWord (h := ⟨.vclt, kField kd, apa, apb⟩) (mask := mask) rfl (by simp only [AHalf.toInstr, kOfField_kField])
  (fun _ => by rw [rawDecode, fMajor_word]; rfl) (by rw [isLong, fMajor_word]; rfl)
theorem Encoding.vcle (kd apa apb mask) : Encoding.Statement (.vcle kd apa apb mask) := Encoding.halfWord (h := ⟨.vcle, kField kd, apa, apb⟩) (mask := mask) rfl (by simp only [AHalf.toInstr, kOfField_kField])
  (fun _ => by rw [rawDecode, fMajor_word]; rfl) (by rw [isLong, fMajor_word]; rfl)
theorem Encoding.vfceq (kd apa apb mask) : Encoding.Statement (.vfceq kd apa apb mask) := Encoding.halfWord (h := ⟨.vfceq, kField kd, apa, apb⟩) (mask := mask) rfl (by simp only [AHalf.toInstr, kOfField_kField])
  (fun _ => by rw [rawDecode, fMajor_word]; rfl) (by rw [isLong, fMajor_word]; rfl)
theorem Encoding.vfclt (kd apa apb mask) : Encoding.Statement (.vfclt kd apa apb mask) := Encoding.halfWord (h := ⟨.vfclt, kField kd, apa, apb⟩) (mask := mask) rfl (by simp only [AHalf.toInstr, kOfField_kField])
  (fun _ => by rw [rawDecode, fMajor_word]; rfl) (by rw [isLong, fMajor_word]; rfl)
theorem Encoding.vfcle (kd apa apb mask) : Encoding.Statement (.vfcle kd apa apb mask) := Encoding.halfWord (h := ⟨.vfcle, kField kd, apa, apb⟩) (mask := mask) rfl (by simp only [AHalf.toInstr, kOfField_kField])
  (fun _ => by rw [rawDecode, fMajor_word]; rfl) (by rw [isLong, fMajor_word]; rfl)
theorem Encoding.vfcun (kd apa apb mask) : Encoding.Statement (.vfcun kd apa apb mask) := Encoding.halfWord (h := ⟨.vfcun, kField kd, apa, apb⟩) (mask := mask) rfl (by simp only [AHalf.toInstr, kOfField_kField])
  (fun _ => by rw [rawDecode, fMajor_word]; rfl) (by rw [isLong, fMajor_word]; rfl)
theorem Encoding.vmin (apd apa apb mask) : Encoding.Statement (.vmin apd apa apb mask) := Encoding.halfWord (h := ⟨.vmin, apd, apa, apb⟩) (mask := mask) rfl rfl
  (fun _ => by rw [rawDecode, fMajor_word]; rfl) (by rw [isLong, fMajor_word]; rfl)
theorem Encoding.vmax (apd apa apb mask) : Encoding.Statement (.vmax apd apa apb mask) := Encoding.halfWord (h := ⟨.vmax, apd, apa, apb⟩) (mask := mask) rfl rfl
  (fun _ => by rw [rawDecode, fMajor_word]; rfl) (by rw [isLong, fMajor_word]; rfl)
theorem Encoding.vfmin (apd apa apb mask) : Encoding.Statement (.vfmin apd apa apb mask) := Encoding.halfWord (h := ⟨.vfmin, apd, apa, apb⟩) (mask := mask) rfl rfl
  (fun _ => by rw [rawDecode, fMajor_word]; rfl) (by rw [isLong, fMajor_word]; rfl)
theorem Encoding.vfmax (apd apa apb mask) : Encoding.Statement (.vfmax apd apa apb mask) := Encoding.halfWord (h := ⟨.vfmax, apd, apa, apb⟩) (mask := mask) rfl rfl
  (fun _ => by rw [rawDecode, fMajor_word]; rfl) (by rw [isLong, fMajor_word]; rfl)
theorem Encoding.kand (kd ka kb) : Encoding.Statement (.kand kd ka kb) := Encoding.halfWord (h := ⟨.kand, kField kd, kField ka, kField kb⟩) (mask := 0) rfl (by simp only [AHalf.toInstr, kOfField_kField])
  (fun _ => by rw [rawDecode, fMajor_word]; rfl) (by rw [isLong, fMajor_word]; rfl)
theorem Encoding.kor (kd ka kb) : Encoding.Statement (.kor kd ka kb) := Encoding.halfWord (h := ⟨.kor, kField kd, kField ka, kField kb⟩) (mask := 0) rfl (by simp only [AHalf.toInstr, kOfField_kField])
  (fun _ => by rw [rawDecode, fMajor_word]; rfl) (by rw [isLong, fMajor_word]; rfl)
theorem Encoding.kxor (kd ka kb) : Encoding.Statement (.kxor kd ka kb) := Encoding.halfWord (h := ⟨.kxor, kField kd, kField ka, kField kb⟩) (mask := 0) rfl (by simp only [AHalf.toInstr, kOfField_kField])
  (fun _ => by rw [rawDecode, fMajor_word]; rfl) (by rw [isLong, fMajor_word]; rfl)
theorem Encoding.kandn (kd ka kb) : Encoding.Statement (.kandn kd ka kb) := Encoding.halfWord (h := ⟨.kandn, kField kd, kField ka, kField kb⟩) (mask := 0) rfl (by simp only [AHalf.toInstr, kOfField_kField])
  (fun _ => by rw [rawDecode, fMajor_word]; rfl) (by rw [isLong, fMajor_word]; rfl)
theorem Encoding.knot (kd ka) : Encoding.Statement (.knot kd ka) := Encoding.halfWord (h := ⟨.knot, kField kd, kField ka, 0⟩) (mask := 0) rfl (by simp only [AHalf.toInstr, kOfField_kField])
  (fun _ => by rw [rawDecode, fMajor_word]; rfl) (by rw [isLong, fMajor_word]; rfl)
theorem Encoding.kmw (ka) : Encoding.Statement (.kmw ka) := Encoding.halfWord (h := ⟨.kmw, 0, kField ka, 0⟩) (mask := 0) rfl (by simp only [AHalf.toInstr, kOfField_kField])
  (fun _ => by rw [rawDecode, fMajor_word]; rfl) (by rw [isLong, fMajor_word]; rfl)
theorem Encoding.kmr (kd) : Encoding.Statement (.kmr kd) := Encoding.halfWord (h := ⟨.kmr, kField kd, 0, 0⟩) (mask := 0) rfl (by simp only [AHalf.toInstr, kOfField_kField])
  (fun _ => by rw [rawDecode, fMajor_word]; rfl) (by rw [isLong, fMajor_word]; rfl)
theorem Encoding.vmov (apd apa mask) : Encoding.Statement (.vmov apd apa mask) := Encoding.halfWord (h := ⟨.vmov, apd, apa, 0⟩) (mask := mask) rfl rfl
  (fun _ => by rw [rawDecode, fMajor_word]; rfl) (by rw [isLong, fMajor_word]; rfl)
theorem Encoding.vfneg (apd apa mask) : Encoding.Statement (.vfneg apd apa mask) := Encoding.halfWord (h := ⟨.vfneg, apd, apa, 0⟩) (mask := mask) rfl rfl
  (fun _ => by rw [rawDecode, fMajor_word]; rfl) (by rw [isLong, fMajor_word]; rfl)
theorem Encoding.vfabs (apd apa mask) : Encoding.Statement (.vfabs apd apa mask) := Encoding.halfWord (h := ⟨.vfabs, apd, apa, 0⟩) (mask := mask) rfl rfl
  (fun _ => by rw [rawDecode, fMajor_word]; rfl) (by rw [isLong, fMajor_word]; rfl)
theorem Encoding.vfsgnj (apd apa apb mask) : Encoding.Statement (.vfsgnj apd apa apb mask) := Encoding.halfWord (h := ⟨.vfsgnj, apd, apa, apb⟩) (mask := mask) rfl rfl
  (fun _ => by rw [rawDecode, fMajor_word]; rfl) (by rw [isLong, fMajor_word]; rfl)
theorem Encoding.vrev (apd apa mask) : Encoding.Statement (.vrev apd apa mask) := Encoding.halfWord (h := ⟨.vrev, apd, apa, 0⟩) (mask := mask) rfl rfl
  (fun _ => by rw [rawDecode, fMajor_word]; rfl) (by rw [isLong, fMajor_word]; rfl)
theorem Encoding.vperm (apd apa apb mask) : Encoding.Statement (.vperm apd apa apb mask) := Encoding.halfWord (h := ⟨.vperm, apd, apa, apb⟩) (mask := mask) rfl rfl
  (fun _ => by rw [rawDecode, fMajor_word]; rfl) (by rw [isLong, fMajor_word]; rfl)
theorem Encoding.vslidn (apd apa apb mask) : Encoding.Statement (.vslidn apd apa apb mask) := Encoding.halfWord (h := ⟨.vslidn, apd, apa, apb⟩) (mask := mask) rfl rfl
  (fun _ => by rw [rawDecode, fMajor_word]; rfl) (by rw [isLong, fMajor_word]; rfl)
theorem Encoding.vsliup (apd apa apb mask) : Encoding.Statement (.vsliup apd apa apb mask) := Encoding.halfWord (h := ⟨.vsliup, apd, apa, apb⟩) (mask := mask) rfl rfl
  (fun _ => by rw [rawDecode, fMajor_word]; rfl) (by rw [isLong, fMajor_word]; rfl)
theorem Encoding.vidx (apd mask) : Encoding.Statement (.vidx apd mask) := Encoding.halfWord (h := ⟨.vidx, apd, 0, 0⟩) (mask := mask) rfl rfl
  (fun _ => by rw [rawDecode, fMajor_word]; rfl) (by rw [isLong, fMajor_word]; rfl)
theorem Encoding.vfcvt (apd apa mask) : Encoding.Statement (.vfcvt apd apa mask) := Encoding.halfWord (h := ⟨.vfcvt, apd, apa, 0⟩) (mask := mask) rfl rfl
  (fun _ => by rw [rawDecode, fMajor_word]; rfl) (by rw [isLong, fMajor_word]; rfl)
theorem Encoding.vfcvti (apd apa mask) : Encoding.Statement (.vfcvti apd apa mask) := Encoding.halfWord (h := ⟨.vfcvti, apd, apa, 0⟩) (mask := mask) rfl rfl
  (fun _ => by rw [rawDecode, fMajor_word]; rfl) (by rw [isLong, fMajor_word]; rfl)
theorem Encoding.vicvtf (apd apa mask) : Encoding.Statement (.vicvtf apd apa mask) := Encoding.halfWord (h := ⟨.vicvtf, apd, apa, 0⟩) (mask := mask) rfl rfl
  (fun _ => by rw [rawDecode, fMajor_word]; rfl) (by rw [isLong, fMajor_word]; rfl)
theorem Encoding.vnclip (apd apa apb mask) : Encoding.Statement (.vnclip apd apa apb mask) := Encoding.halfWord (h := ⟨.vnclip, apd, apa, apb⟩) (mask := mask) rfl rfl
  (fun _ => by rw [rawDecode, fMajor_word]; rfl) (by rw [isLong, fMajor_word]; rfl)
theorem Encoding.vext (apd apa mask) : Encoding.Statement (.vext apd apa mask) := Encoding.halfWord (h := ⟨.vext, apd, apa, 0⟩) (mask := mask) rfl rfl
  (fun _ => by rw [rawDecode, fMajor_word]; rfl) (by rw [isLong, fMajor_word]; rfl)
theorem Encoding.vredsum (apd apa mask) : Encoding.Statement (.vredsum apd apa mask) := Encoding.halfWord (h := ⟨.vredsum, apd, apa, 0⟩) (mask := mask) rfl rfl
  (fun _ => by rw [rawDecode, fMajor_word]; rfl) (by rw [isLong, fMajor_word]; rfl)
theorem Encoding.vwredsum (apd apa mask) : Encoding.Statement (.vwredsum apd apa mask) := Encoding.halfWord (h := ⟨.vwredsum, apd, apa, 0⟩) (mask := mask) rfl rfl
  (fun _ => by rw [rawDecode, fMajor_word]; rfl) (by rw [isLong, fMajor_word]; rfl)
theorem Encoding.vredmax (apd apa mask) : Encoding.Statement (.vredmax apd apa mask) := Encoding.halfWord (h := ⟨.vredmax, apd, apa, 0⟩) (mask := mask) rfl rfl
  (fun _ => by rw [rawDecode, fMajor_word]; rfl) (by rw [isLong, fMajor_word]; rfl)
theorem Encoding.vredmin (apd apa mask) : Encoding.Statement (.vredmin apd apa mask) := Encoding.halfWord (h := ⟨.vredmin, apd, apa, 0⟩) (mask := mask) rfl rfl
  (fun _ => by rw [rawDecode, fMajor_word]; rfl) (by rw [isLong, fMajor_word]; rfl)
theorem Encoding.vredand (apd apa mask) : Encoding.Statement (.vredand apd apa mask) := Encoding.halfWord (h := ⟨.vredand, apd, apa, 0⟩) (mask := mask) rfl rfl
  (fun _ => by rw [rawDecode, fMajor_word]; rfl) (by rw [isLong, fMajor_word]; rfl)
theorem Encoding.vredor (apd apa mask) : Encoding.Statement (.vredor apd apa mask) := Encoding.halfWord (h := ⟨.vredor, apd, apa, 0⟩) (mask := mask) rfl rfl
  (fun _ => by rw [rawDecode, fMajor_word]; rfl) (by rw [isLong, fMajor_word]; rfl)
theorem Encoding.vredxor (apd apa mask) : Encoding.Statement (.vredxor apd apa mask) := Encoding.halfWord (h := ⟨.vredxor, apd, apa, 0⟩) (mask := mask) rfl rfl
  (fun _ => by rw [rawDecode, fMajor_word]; rfl) (by rw [isLong, fMajor_word]; rfl)
theorem Encoding.vfredsum (apd apa mask) : Encoding.Statement (.vfredsum apd apa mask) := Encoding.halfWord (h := ⟨.vfredsum, apd, apa, 0⟩) (mask := mask) rfl rfl
  (fun _ => by rw [rawDecode, fMajor_word]; rfl) (by rw [isLong, fMajor_word]; rfl)
theorem Encoding.vfwredsum (apd apa mask) : Encoding.Statement (.vfwredsum apd apa mask) := Encoding.halfWord (h := ⟨.vfwredsum, apd, apa, 0⟩) (mask := mask) rfl rfl
  (fun _ => by rw [rawDecode, fMajor_word]; rfl) (by rw [isLong, fMajor_word]; rfl)
theorem Encoding.vfredmax (apd apa mask) : Encoding.Statement (.vfredmax apd apa mask) := Encoding.halfWord (h := ⟨.vfredmax, apd, apa, 0⟩) (mask := mask) rfl rfl
  (fun _ => by rw [rawDecode, fMajor_word]; rfl) (by rw [isLong, fMajor_word]; rfl)
theorem Encoding.vfredmin (apd apa mask) : Encoding.Statement (.vfredmin apd apa mask) := Encoding.halfWord (h := ⟨.vfredmin, apd, apa, 0⟩) (mask := mask) rfl rfl
  (fun _ => by rw [rawDecode, fMajor_word]; rfl) (by rw [isLong, fMajor_word]; rfl)
theorem Encoding.vsredsum (apd apa kb mask) : Encoding.Statement (.vsredsum apd apa kb mask) := Encoding.halfWord (h := ⟨.vsredsum, apd, apa, kField kb⟩) (mask := mask) rfl (by simp only [AHalf.toInstr, kOfField_kField])
  (fun _ => by rw [rawDecode, fMajor_word]; rfl) (by rw [isLong, fMajor_word]; rfl)
theorem Encoding.vswredsum (apd apa kb mask) : Encoding.Statement (.vswredsum apd apa kb mask) := Encoding.halfWord (h := ⟨.vswredsum, apd, apa, kField kb⟩) (mask := mask) rfl (by simp only [AHalf.toInstr, kOfField_kField])
  (fun _ => by rw [rawDecode, fMajor_word]; rfl) (by rw [isLong, fMajor_word]; rfl)
theorem Encoding.vsredmax (apd apa kb mask) : Encoding.Statement (.vsredmax apd apa kb mask) := Encoding.halfWord (h := ⟨.vsredmax, apd, apa, kField kb⟩) (mask := mask) rfl (by simp only [AHalf.toInstr, kOfField_kField])
  (fun _ => by rw [rawDecode, fMajor_word]; rfl) (by rw [isLong, fMajor_word]; rfl)
theorem Encoding.vsredmin (apd apa kb mask) : Encoding.Statement (.vsredmin apd apa kb mask) := Encoding.halfWord (h := ⟨.vsredmin, apd, apa, kField kb⟩) (mask := mask) rfl (by simp only [AHalf.toInstr, kOfField_kField])
  (fun _ => by rw [rawDecode, fMajor_word]; rfl) (by rw [isLong, fMajor_word]; rfl)
theorem Encoding.vsredand (apd apa kb mask) : Encoding.Statement (.vsredand apd apa kb mask) := Encoding.halfWord (h := ⟨.vsredand, apd, apa, kField kb⟩) (mask := mask) rfl (by simp only [AHalf.toInstr, kOfField_kField])
  (fun _ => by rw [rawDecode, fMajor_word]; rfl) (by rw [isLong, fMajor_word]; rfl)
theorem Encoding.vsredor (apd apa kb mask) : Encoding.Statement (.vsredor apd apa kb mask) := Encoding.halfWord (h := ⟨.vsredor, apd, apa, kField kb⟩) (mask := mask) rfl (by simp only [AHalf.toInstr, kOfField_kField])
  (fun _ => by rw [rawDecode, fMajor_word]; rfl) (by rw [isLong, fMajor_word]; rfl)
theorem Encoding.vsredxor (apd apa kb mask) : Encoding.Statement (.vsredxor apd apa kb mask) := Encoding.halfWord (h := ⟨.vsredxor, apd, apa, kField kb⟩) (mask := mask) rfl (by simp only [AHalf.toInstr, kOfField_kField])
  (fun _ => by rw [rawDecode, fMajor_word]; rfl) (by rw [isLong, fMajor_word]; rfl)
theorem Encoding.vsfredsum (apd apa kb mask) : Encoding.Statement (.vsfredsum apd apa kb mask) := Encoding.halfWord (h := ⟨.vsfredsum, apd, apa, kField kb⟩) (mask := mask) rfl (by simp only [AHalf.toInstr, kOfField_kField])
  (fun _ => by rw [rawDecode, fMajor_word]; rfl) (by rw [isLong, fMajor_word]; rfl)
theorem Encoding.vsfwredsum (apd apa kb mask) : Encoding.Statement (.vsfwredsum apd apa kb mask) := Encoding.halfWord (h := ⟨.vsfwredsum, apd, apa, kField kb⟩) (mask := mask) rfl (by simp only [AHalf.toInstr, kOfField_kField])
  (fun _ => by rw [rawDecode, fMajor_word]; rfl) (by rw [isLong, fMajor_word]; rfl)
theorem Encoding.vsfredmax (apd apa kb mask) : Encoding.Statement (.vsfredmax apd apa kb mask) := Encoding.halfWord (h := ⟨.vsfredmax, apd, apa, kField kb⟩) (mask := mask) rfl (by simp only [AHalf.toInstr, kOfField_kField])
  (fun _ => by rw [rawDecode, fMajor_word]; rfl) (by rw [isLong, fMajor_word]; rfl)
theorem Encoding.vsfredmin (apd apa kb mask) : Encoding.Statement (.vsfredmin apd apa kb mask) := Encoding.halfWord (h := ⟨.vsfredmin, apd, apa, kField kb⟩) (mask := mask) rfl (by simp only [AHalf.toInstr, kOfField_kField])
  (fun _ => by rw [rawDecode, fMajor_word]; rfl) (by rw [isLong, fMajor_word]; rfl)
theorem Encoding.vscore (apa apb mask) : Encoding.Statement (.vscore apa apb mask) := Encoding.halfWord (h := ⟨.vscore, 0, apa, apb⟩) (mask := mask) rfl rfl
  (fun _ => by rw [rawDecode, fMajor_word]; rfl) (by rw [isLong, fMajor_word]; rfl)
theorem Encoding.vscoreS (apd apa apb mask) : Encoding.Statement (.vscoreS apd apa apb mask) := Encoding.halfWord (h := ⟨.vscoreS, apd, apa, apb⟩) (mask := mask) rfl rfl
  (fun _ => by rw [rawDecode, fMajor_word]; rfl) (by rw [isLong, fMajor_word]; rfl)
theorem Encoding.vsegr (apd) : Encoding.Statement (.vsegr apd) := Encoding.halfWord (h := ⟨.vsegr, apd, 0, 0⟩) (mask := 0) rfl rfl
  (fun _ => by rw [rawDecode, fMajor_word]; rfl) (by rw [isLong, fMajor_word]; rfl)
theorem Encoding.vexps (apd) : Encoding.Statement (.vexps apd) := Encoding.halfWord (h := ⟨.vexps, apd, 0, 0⟩) (mask := 0) rfl rfl
  (fun _ => by rw [rawDecode, fMajor_word]; rfl) (by rw [isLong, fMajor_word]; rfl)
theorem Encoding.vwacc (apd apa apb mask) : Encoding.Statement (.vwacc apd apa apb mask) := Encoding.halfWord (h := ⟨.vwacc, apd, apa, apb⟩) (mask := mask) rfl rfl
  (fun _ => by rw [rawDecode, fMajor_word]; rfl) (by rw [isLong, fMajor_word]; rfl)
theorem Encoding.vclget (apd mask) : Encoding.Statement (.vclget apd mask) := Encoding.halfWord (h := ⟨.vclget, apd, 0, 0⟩) (mask := mask) rfl rfl
  (fun _ => by rw [rawDecode, fMajor_word]; rfl) (by rw [isLong, fMajor_word]; rfl)
theorem Encoding.vclput (apa mask) : Encoding.Statement (.vclput apa mask) := Encoding.halfWord (h := ⟨.vclput, 0, apa, 0⟩) (mask := mask) rfl rfl
  (fun _ => by rw [rawDecode, fMajor_word]; rfl) (by rw [isLong, fMajor_word]; rfl)
theorem Encoding.radd (apd apa apb mask) : Encoding.Statement (.radd apd apa apb mask) := Encoding.halfWord (h := ⟨.radd, apd, apa, apb⟩) (mask := mask) rfl rfl
  (fun _ => by rw [rawDecode, fMajor_word]; rfl) (by rw [isLong, fMajor_word]; rfl)
theorem Encoding.uadd (apd apa apb mask) : Encoding.Statement (.uadd apd apa apb mask) := Encoding.halfWord (h := ⟨.uadd, apd, apa, apb⟩) (mask := mask) rfl rfl
  (fun _ => by rw [rawDecode, fMajor_word]; rfl) (by rw [isLong, fMajor_word]; rfl)
theorem Encoding.rxor (apd apa apb mask) : Encoding.Statement (.rxor apd apa apb mask) := Encoding.halfWord (h := ⟨.rxor, apd, apa, apb⟩) (mask := mask) rfl rfl
  (fun _ => by rw [rawDecode, fMajor_word]; rfl) (by rw [isLong, fMajor_word]; rfl)
theorem Encoding.rmulo (apd apa apb mask) : Encoding.Statement (.rmulo apd apa apb mask) := Encoding.halfWord (h := ⟨.rmulo, apd, apa, apb⟩) (mask := mask) rfl rfl
  (fun _ => by rw [rawDecode, fMajor_word]; rfl) (by rw [isLong, fMajor_word]; rfl)
theorem Encoding.umulo (apd apa apb mask) : Encoding.Statement (.umulo apd apa apb mask) := Encoding.halfWord (h := ⟨.umulo, apd, apa, apb⟩) (mask := mask) rfl rfl
  (fun _ => by rw [rawDecode, fMajor_word]; rfl) (by rw [isLong, fMajor_word]; rfl)
theorem Encoding.rfmul (apd apa apb mask) : Encoding.Statement (.rfmul apd apa apb mask) := Encoding.halfWord (h := ⟨.rfmul, apd, apa, apb⟩) (mask := mask) rfl rfl
  (fun _ => by rw [rawDecode, fMajor_word]; rfl) (by rw [isLong, fMajor_word]; rfl)
theorem Encoding.ufmul (apd apa apb mask) : Encoding.Statement (.ufmul apd apa apb mask) := Encoding.halfWord (h := ⟨.ufmul, apd, apa, apb⟩) (mask := mask) rfl rfl
  (fun _ => by rw [rawDecode, fMajor_word]; rfl) (by rw [isLong, fMajor_word]; rfl)
theorem Encoding.rfadd (apd apa apb mask) : Encoding.Statement (.rfadd apd apa apb mask) := Encoding.halfWord (h := ⟨.rfadd, apd, apa, apb⟩) (mask := mask) rfl rfl
  (fun _ => by rw [rawDecode, fMajor_word]; rfl) (by rw [isLong, fMajor_word]; rfl)
theorem Encoding.ufadd (apd apa apb mask) : Encoding.Statement (.ufadd apd apa apb mask) := Encoding.halfWord (h := ⟨.ufadd, apd, apa, apb⟩) (mask := mask) rfl rfl
  (fun _ => by rw [rawDecode, fMajor_word]; rfl) (by rw [isLong, fMajor_word]; rfl)
theorem Encoding.rcvt (apd apa mask) : Encoding.Statement (.rcvt apd apa mask) := Encoding.halfWord (h := ⟨.rcvt, apd, apa, 0⟩) (mask := mask) rfl rfl
  (fun _ => by rw [rawDecode, fMajor_word]; rfl) (by rw [isLong, fMajor_word]; rfl)
theorem Encoding.ucvt (apd apa mask) : Encoding.Statement (.ucvt apd apa mask) := Encoding.halfWord (h := ⟨.ucvt, apd, apa, 0⟩) (mask := mask) rfl rfl
  (fun _ => by rw [rawDecode, fMajor_word]; rfl) (by rw [isLong, fMajor_word]; rfl)
theorem Encoding.rnrw (apd apa apb mask) : Encoding.Statement (.rnrw apd apa apb mask) := Encoding.halfWord (h := ⟨.rnrw, apd, apa, apb⟩) (mask := mask) rfl rfl
  (fun _ => by rw [rawDecode, fMajor_word]; rfl) (by rw [isLong, fMajor_word]; rfl)
theorem Encoding.unrw (apd apa mask) : Encoding.Statement (.unrw apd apa mask) := Encoding.halfWord (h := ⟨.unrw, apd, apa, 0⟩) (mask := mask) rfl rfl
  (fun _ => by rw [rawDecode, fMajor_word]; rfl) (by rw [isLong, fMajor_word]; rfl)
theorem Encoding.pair (g gs sc vec) : Encoding.Statement (.pair g gs sc vec) := Encoding.twoWords rfl (by rw [isLong, fMajor_pWord]; rfl) (fun _ => by
    have hs : (pWord g gs sc.sop).extractLsb' 0 22 = sc.sop := by
      simp (disch := decide) only [pWord, field_below, field_all]
    rw [rawDecode, fMajor_pWord]
    refine Eq.trans (b := rawPair (pWord g gs sc.sop) (vec.word 0)) rfl ?_
    unfold rawPair
    rw [hs, ofSop_sop, ofWord_word]
    simp (disch := decide) only [pWord, field_above, field_below, bit_above, bit_below] <;>
      simp only [field_all, bit_ofBool, parts_four, parts_five, Nat.reduceSub, Nat.reduceAdd, BitVec.reduceExtractLsb'])
theorem Encoding.adefRect (apd tr ty row0 col0 slots hm1) : Encoding.Statement (.adefRect apd tr ty row0 col0 slots hm1) := Encoding.twoWords rfl (by rw [isLong, fMajor_lWord]; rfl) (fun hw => by
    have hx : (0#7 ++ BitVec.ofBool tr ++ ty).toNat < 0x020 := by clear hw; cases tr <;> revert ty <;> decide
    rw [rawDecode_lWord]
    unfold rawL
    rw [fXop_lWord]
    simp only [if_pos hx]
    simp (disch := decide) only [lWord, field_above, field_below, bit_above, bit_below] <;>
      simp only [field_all, bit_ofBool, parts_four, parts_five, Nat.reduceSub, Nat.reduceAdd, BitVec.reduceExtractLsb'])
theorem Encoding.adefLine (apd line bc ty row0 col0 slots) : Encoding.Statement (.adefLine apd line bc ty row0 col0 slots) := Encoding.twoWords rfl (by rw [isLong, fMajor_lWord]; rfl) (fun hw => by
    have hx : ¬ (4#9 ++ BitVec.ofBool bc ++ line).toNat < 0x020 := by clear hw; cases bc <;> revert line <;> decide
    have hy : (4#9 ++ BitVec.ofBool bc ++ line).toNat < 0x028 := by clear hw; cases bc <;> revert line <;> decide
    rw [rawDecode_lWord]
    unfold rawL
    rw [fXop_lWord]
    simp only [if_neg hx, if_pos hy]
    simp (disch := decide) only [lWord, field_above, field_below, bit_above, bit_below] <;>
      simp only [field_all, bit_ofBool, parts_four, parts_five, Nat.reduceSub, Nat.reduceAdd, BitVec.reduceExtractLsb'])
theorem Encoding.adefx (apd ra) : Encoding.Statement (.adefx apd ra) := by
  have h : ∀ w v, fXop w = 0x028#12 → rawL w v = some (.adefx (v.extractLsb' 26 6) (v.extractLsb' 15 5)) := fun w v h => by rw [rawL, h]; rfl
  exact Encoding.twoWords rfl (by rw [isLong, fMajor_lWord]; rfl) (fun _ => (rawDecode_lWord ..).trans ((h _ _ (fXop_lWord ..)).trans (by
    simp (disch := decide) only [fKg, fKs, lWord, field_above, field_below, bit_above, bit_below] <;>
      simp only [field_all, bit_ofBool, parts_four, parts_five, Nat.reduceSub, Nat.reduceAdd, BitVec.reduceExtractLsb'])))
theorem Encoding.aget (rd apa) : Encoding.Statement (.aget rd apa) := by
  have h : ∀ w v, fXop w = 0x029#12 → rawL w v = some (.aget (v.extractLsb' 15 5) (v.extractLsb' 20 6)) := fun w v h => by rw [rawL, h]; rfl
  exact Encoding.twoWords rfl (by rw [isLong, fMajor_lWord]; rfl) (fun _ => (rawDecode_lWord ..).trans ((h _ _ (fXop_lWord ..)).trans (by
    simp (disch := decide) only [fKg, fKs, lWord, field_above, field_below, bit_above, bit_below] <;>
      simp only [field_all, bit_ofBool, parts_four, parts_five, Nat.reduceSub, Nat.reduceAdd, BitVec.reduceExtractLsb'])))
theorem Encoding.amov (apd apa) : Encoding.Statement (.amov apd apa) := by
  have h : ∀ w v, fXop w = 0x02a#12 → rawL w v = some (.amov (v.extractLsb' 26 6) (v.extractLsb' 20 6)) := fun w v h => by rw [rawL, h]; rfl
  exact Encoding.twoWords rfl (by rw [isLong, fMajor_lWord]; rfl) (fun _ => (rawDecode_lWord ..).trans ((h _ _ (fXop_lWord ..)).trans (by
    simp (disch := decide) only [fKg, fKs, lWord, field_above, field_below, bit_above, bit_below] <;>
      simp only [field_all, bit_ofBool, parts_four, parts_five, Nat.reduceSub, Nat.reduceAdd, BitVec.reduceExtractLsb'])))
theorem Encoding.aswap (apd apa) : Encoding.Statement (.aswap apd apa) := by
  have h : ∀ w v, fXop w = 0x02b#12 → rawL w v = some (.aswap (v.extractLsb' 26 6) (v.extractLsb' 20 6)) := fun w v h => by rw [rawL, h]; rfl
  exact Encoding.twoWords rfl (by rw [isLong, fMajor_lWord]; rfl) (fun _ => (rawDecode_lWord ..).trans ((h _ _ (fXop_lWord ..)).trans (by
    simp (disch := decide) only [fKg, fKs, lWord, field_above, field_below, bit_above, bit_below] <;>
      simp only [field_all, bit_ofBool, parts_four, parts_five, Nat.reduceSub, Nat.reduceAdd, BitVec.reduceExtractLsb'])))
theorem Encoding.abind (apd fs) : Encoding.Statement (.abind apd fs) := by
  have h : ∀ w v, fXop w = 0x02c#12 → rawL w v = some (.abind (v.extractLsb' 26 6) (v.extractLsb' 6 4)) := fun w v h => by rw [rawL, h]; rfl
  exact Encoding.twoWords rfl (by rw [isLong, fMajor_lWord]; rfl) (fun _ => (rawDecode_lWord ..).trans ((h _ _ (fXop_lWord ..)).trans (by
    simp (disch := decide) only [fKg, fKs, lWord, field_above, field_below, bit_above, bit_below] <;>
      simp only [field_all, bit_ofBool, parts_four, parts_five, Nat.reduceSub, Nat.reduceAdd, BitVec.reduceExtractLsb'])))
theorem Encoding.aunbind (apd) : Encoding.Statement (.aunbind apd) := by
  have h : ∀ w v, fXop w = 0x02d#12 → rawL w v = some (.aunbind (v.extractLsb' 26 6)) := fun w v h => by rw [rawL, h]; rfl
  exact Encoding.twoWords rfl (by rw [isLong, fMajor_lWord]; rfl) (fun _ => (rawDecode_lWord ..).trans ((h _ _ (fXop_lWord ..)).trans (by
    simp (disch := decide) only [fKg, fKs, lWord, field_above, field_below, bit_above, bit_below] <;>
      simp only [field_all, bit_ofBool, parts_four, parts_five, Nat.reduceSub, Nat.reduceAdd, BitVec.reduceExtractLsb'])))
theorem Encoding.efcget (kg ks apd) : Encoding.Statement (.efcget kg ks apd) := by
  have h : ∀ w v, fXop w = 0x030#12 → rawL w v = some (.efcget (fKg w) (fKs w) (v.extractLsb' 26 6)) := fun w v h => by rw [rawL, h]; rfl
  exact Encoding.twoWords rfl (by rw [isLong, fMajor_lWord]; rfl) (fun _ => (rawDecode_lWord ..).trans ((h _ _ (fXop_lWord ..)).trans (by
    simp (disch := decide) only [fKg, fKs, lWord, field_above, field_below, bit_above, bit_below] <;>
      simp only [field_all, bit_ofBool, parts_four, parts_five, Nat.reduceSub, Nat.reduceAdd, BitVec.reduceExtractLsb'])))
theorem Encoding.efcput (kg ks apa) : Encoding.Statement (.efcput kg ks apa) := by
  have h : ∀ w v, fXop w = 0x031#12 → rawL w v = some (.efcput (fKg w) (fKs w) (v.extractLsb' 20 6)) := fun w v h => by rw [rawL, h]; rfl
  exact Encoding.twoWords rfl (by rw [isLong, fMajor_lWord]; rfl) (fun _ => (rawDecode_lWord ..).trans ((h _ _ (fXop_lWord ..)).trans (by
    simp (disch := decide) only [fKg, fKs, lWord, field_above, field_below, bit_above, bit_below] <;>
      simp only [field_all, bit_ofBool, parts_four, parts_five, Nat.reduceSub, Nat.reduceAdd, BitVec.reduceExtractLsb'])))
theorem Encoding.vsplat (kg ks apd ra) : Encoding.Statement (.vsplat kg ks apd ra) := by
  have h : ∀ w v, fXop w = 0x032#12 → rawL w v = some (.vsplat (fKg w) (fKs w) (v.extractLsb' 26 6) (v.extractLsb' 15 5)) := fun w v h => by rw [rawL, h]; rfl
  exact Encoding.twoWords rfl (by rw [isLong, fMajor_lWord]; rfl) (fun _ => (rawDecode_lWord ..).trans ((h _ _ (fXop_lWord ..)).trans (by
    simp (disch := decide) only [fKg, fKs, lWord, field_above, field_below, bit_above, bit_below] <;>
      simp only [field_all, bit_ofBool, parts_four, parts_five, Nat.reduceSub, Nat.reduceAdd, BitVec.reduceExtractLsb'])))
theorem Encoding.vget (rd apa rb) : Encoding.Statement (.vget rd apa rb) := by
  have h : ∀ w v, fXop w = 0x033#12 → rawL w v = some (.vget (v.extractLsb' 15 5) (v.extractLsb' 20 6) (v.extractLsb' 10 5)) := fun w v h => by rw [rawL, h]; rfl
  exact Encoding.twoWords rfl (by rw [isLong, fMajor_lWord]; rfl) (fun _ => (rawDecode_lWord ..).trans ((h _ _ (fXop_lWord ..)).trans (by
    simp (disch := decide) only [fKg, fKs, lWord, field_above, field_below, bit_above, bit_below] <;>
      simp only [field_all, bit_ofBool, parts_four, parts_five, Nat.reduceSub, Nat.reduceAdd, BitVec.reduceExtractLsb'])))
theorem Encoding.vlds (kg ks ap base xs xr off) : Encoding.Statement (.vlds kg ks ap base xs xr off) := by
  have h : ∀ w v, fXop w = 0x040#12 → w.extractLsb' 0 3 = 0#3 → rawL w v = some (.vlds (fKg w) (fKs w) (w.extractLsb' 4 6) (v.extractLsb' 27 5) (v.extractLsb' 22 5) (v.extractLsb' 17 5) (v.extractLsb' 0 11)) := fun w v h h' => by rw [rawL, h]; exact if_pos h'
  exact Encoding.twoWords rfl (by rw [isLong, fMajor_lWord]; rfl) (fun hw => (rawDecode_lWord ..).trans ((h _ _ (fXop_lWord ..) (by
    simp (disch := decide) only [lWord, field_above, field_below, bit_above, bit_below] <;>
      simp only [field_all, bit_ofBool, parts_four, parts_five, Nat.reduceSub, Nat.reduceAdd, BitVec.reduceExtractLsb'])).trans (by
    simp (disch := decide) only [fKg, fKs, lWord, field_above, field_below, bit_above, bit_below] <;>
      simp only [field_all, bit_ofBool, parts_four, parts_five, Nat.reduceSub, Nat.reduceAdd, BitVec.reduceExtractLsb'])))
theorem Encoding.vlseg (kg ks ap nf base xs xr off) : Encoding.Statement (.vlseg kg ks ap nf base xs xr off) := by
  have h : ∀ w v, fXop w = 0x040#12 → w.extractLsb' 0 3 ≠ 0#3 → rawL w v = some (.vlseg (fKg w) (fKs w) (w.extractLsb' 4 6) (w.extractLsb' 0 3) (v.extractLsb' 27 5) (v.extractLsb' 22 5) (v.extractLsb' 17 5) (v.extractLsb' 0 11)) := fun w v h h' => by rw [rawL, h]; exact if_neg h'
  exact Encoding.twoWords rfl (by rw [isLong, fMajor_lWord]; rfl) (fun hw => (rawDecode_lWord ..).trans ((h _ _ (fXop_lWord ..) (by
    simp (disch := decide) only [lWord, field_above, field_below, bit_above, bit_below] <;>
      simp only [field_all, bit_ofBool, parts_four, parts_five, Nat.reduceSub, Nat.reduceAdd, BitVec.reduceExtractLsb']
    exact of_decide_eq_true hw)).trans (by
    simp (disch := decide) only [fKg, fKs, lWord, field_above, field_below, bit_above, bit_below] <;>
      simp only [field_all, bit_ofBool, parts_four, parts_five, Nat.reduceSub, Nat.reduceAdd, BitVec.reduceExtractLsb'])))
theorem Encoding.vsts (kg ks ap base xs xr off) : Encoding.Statement (.vsts kg ks ap base xs xr off) := by
  have h : ∀ w v, fXop w = 0x041#12 → w.extractLsb' 0 3 = 0#3 → rawL w v = some (.vsts (fKg w) (fKs w) (w.extractLsb' 4 6) (v.extractLsb' 27 5) (v.extractLsb' 22 5) (v.extractLsb' 17 5) (v.extractLsb' 0 11)) := fun w v h h' => by rw [rawL, h]; exact if_pos h'
  exact Encoding.twoWords rfl (by rw [isLong, fMajor_lWord]; rfl) (fun hw => (rawDecode_lWord ..).trans ((h _ _ (fXop_lWord ..) (by
    simp (disch := decide) only [lWord, field_above, field_below, bit_above, bit_below] <;>
      simp only [field_all, bit_ofBool, parts_four, parts_five, Nat.reduceSub, Nat.reduceAdd, BitVec.reduceExtractLsb'])).trans (by
    simp (disch := decide) only [fKg, fKs, lWord, field_above, field_below, bit_above, bit_below] <;>
      simp only [field_all, bit_ofBool, parts_four, parts_five, Nat.reduceSub, Nat.reduceAdd, BitVec.reduceExtractLsb'])))
theorem Encoding.vsseg (kg ks ap nf base xs xr off) : Encoding.Statement (.vsseg kg ks ap nf base xs xr off) := by
  have h : ∀ w v, fXop w = 0x041#12 → w.extractLsb' 0 3 ≠ 0#3 → rawL w v = some (.vsseg (fKg w) (fKs w) (w.extractLsb' 4 6) (w.extractLsb' 0 3) (v.extractLsb' 27 5) (v.extractLsb' 22 5) (v.extractLsb' 17 5) (v.extractLsb' 0 11)) := fun w v h h' => by rw [rawL, h]; exact if_neg h'
  exact Encoding.twoWords rfl (by rw [isLong, fMajor_lWord]; rfl) (fun hw => (rawDecode_lWord ..).trans ((h _ _ (fXop_lWord ..) (by
    simp (disch := decide) only [lWord, field_above, field_below, bit_above, bit_below] <;>
      simp only [field_all, bit_ofBool, parts_four, parts_five, Nat.reduceSub, Nat.reduceAdd, BitVec.reduceExtractLsb']
    exact of_decide_eq_true hw)).trans (by
    simp (disch := decide) only [fKg, fKs, lWord, field_above, field_below, bit_above, bit_below] <;>
      simp only [field_all, bit_ofBool, parts_four, parts_five, Nat.reduceSub, Nat.reduceAdd, BitVec.reduceExtractLsb'])))
theorem Encoding.vldx (kg ks ap base xr idx off) : Encoding.Statement (.vldx kg ks ap base xr idx off) := by
  have h : ∀ w v, fXop w = 0x042#12 → v.extractLsb' 22 5 = 0#5 → rawL w v = some (.vldx (fKg w) (fKs w) (w.extractLsb' 4 6) (v.extractLsb' 27 5) (v.extractLsb' 17 5) (v.extractLsb' 11 6) (v.extractLsb' 0 11)) := fun w v h h' => by rw [rawL, h]; exact if_pos h'
  exact Encoding.twoWords rfl (by rw [isLong, fMajor_lWord]; rfl) (fun hw => (rawDecode_lWord ..).trans ((h _ _ (fXop_lWord ..) (by
    simp (disch := decide) only [lWord, field_above, field_below, bit_above, bit_below] <;>
      simp only [field_all, bit_ofBool, parts_four, parts_five, Nat.reduceSub, Nat.reduceAdd, BitVec.reduceExtractLsb'])).trans (by
    simp (disch := decide) only [fKg, fKs, lWord, field_above, field_below, bit_above, bit_below] <;>
      simp only [field_all, bit_ofBool, parts_four, parts_five, Nat.reduceSub, Nat.reduceAdd, BitVec.reduceExtractLsb'])))
theorem Encoding.vldxr (kg ks ap base xs idx off) : Encoding.Statement (.vldxr kg ks ap base xs idx off) := by
  have h : ∀ w v, fXop w = 0x042#12 → v.extractLsb' 22 5 ≠ 0#5 → rawL w v = some (.vldxr (fKg w) (fKs w) (w.extractLsb' 4 6) (v.extractLsb' 27 5) (v.extractLsb' 22 5) (v.extractLsb' 11 6) (v.extractLsb' 0 11)) := fun w v h h' => by rw [rawL, h]; exact if_neg h'
  exact Encoding.twoWords rfl (by rw [isLong, fMajor_lWord]; rfl) (fun hw => (rawDecode_lWord ..).trans ((h _ _ (fXop_lWord ..) (by
    simp (disch := decide) only [lWord, field_above, field_below, bit_above, bit_below] <;>
      simp only [field_all, bit_ofBool, parts_four, parts_five, Nat.reduceSub, Nat.reduceAdd, BitVec.reduceExtractLsb']
    exact of_decide_eq_true hw)).trans (by
    simp (disch := decide) only [fKg, fKs, lWord, field_above, field_below, bit_above, bit_below] <;>
      simp only [field_all, bit_ofBool, parts_four, parts_five, Nat.reduceSub, Nat.reduceAdd, BitVec.reduceExtractLsb'])))
theorem Encoding.vstx (kg ks ap base xr idx off) : Encoding.Statement (.vstx kg ks ap base xr idx off) := by
  have h : ∀ w v, fXop w = 0x043#12 → v.extractLsb' 22 5 = 0#5 → rawL w v = some (.vstx (fKg w) (fKs w) (w.extractLsb' 4 6) (v.extractLsb' 27 5) (v.extractLsb' 17 5) (v.extractLsb' 11 6) (v.extractLsb' 0 11)) := fun w v h h' => by rw [rawL, h]; exact if_pos h'
  exact Encoding.twoWords rfl (by rw [isLong, fMajor_lWord]; rfl) (fun hw => (rawDecode_lWord ..).trans ((h _ _ (fXop_lWord ..) (by
    simp (disch := decide) only [lWord, field_above, field_below, bit_above, bit_below] <;>
      simp only [field_all, bit_ofBool, parts_four, parts_five, Nat.reduceSub, Nat.reduceAdd, BitVec.reduceExtractLsb'])).trans (by
    simp (disch := decide) only [fKg, fKs, lWord, field_above, field_below, bit_above, bit_below] <;>
      simp only [field_all, bit_ofBool, parts_four, parts_five, Nat.reduceSub, Nat.reduceAdd, BitVec.reduceExtractLsb'])))
theorem Encoding.vstxr (kg ks ap base xs idx off) : Encoding.Statement (.vstxr kg ks ap base xs idx off) := by
  have h : ∀ w v, fXop w = 0x043#12 → v.extractLsb' 22 5 ≠ 0#5 → rawL w v = some (.vstxr (fKg w) (fKs w) (w.extractLsb' 4 6) (v.extractLsb' 27 5) (v.extractLsb' 22 5) (v.extractLsb' 11 6) (v.extractLsb' 0 11)) := fun w v h h' => by rw [rawL, h]; exact if_neg h'
  exact Encoding.twoWords rfl (by rw [isLong, fMajor_lWord]; rfl) (fun hw => (rawDecode_lWord ..).trans ((h _ _ (fXop_lWord ..) (by
    simp (disch := decide) only [lWord, field_above, field_below, bit_above, bit_below] <;>
      simp only [field_all, bit_ofBool, parts_four, parts_five, Nat.reduceSub, Nat.reduceAdd, BitVec.reduceExtractLsb']
    exact of_decide_eq_true hw)).trans (by
    simp (disch := decide) only [fKg, fKs, lWord, field_above, field_below, bit_above, bit_below] <;>
      simp only [field_all, bit_ofBool, parts_four, parts_five, Nat.reduceSub, Nat.reduceAdd, BitVec.reduceExtractLsb'])))
theorem Encoding.fsbind (fs ra) : Encoding.Statement (.fsbind fs ra) := by
  have h : ∀ w v, fXop w = 0x048#12 → rawL w v = some (.fsbind (w.extractLsb' 0 4) (v.extractLsb' 27 5)) := fun w v h => by rw [rawL, h]; rfl
  exact Encoding.twoWords rfl (by rw [isLong, fMajor_lWord]; rfl) (fun _ => (rawDecode_lWord ..).trans ((h _ _ (fXop_lWord ..)).trans (by
    simp (disch := decide) only [fKg, fKs, lWord, field_above, field_below, bit_above, bit_below] <;>
      simp only [field_all, bit_ofBool, parts_four, parts_five, Nat.reduceSub, Nat.reduceAdd, BitVec.reduceExtractLsb'])))
theorem Encoding.fsrel (fs) : Encoding.Statement (.fsrel fs) := by
  have h : ∀ w v, fXop w = 0x049#12 → rawL w v = some (.fsrel (w.extractLsb' 0 4)) := fun w v h => by rw [rawL, h]; rfl
  exact Encoding.twoWords rfl (by rw [isLong, fMajor_lWord]; rfl) (fun _ => (rawDecode_lWord ..).trans ((h _ _ (fXop_lWord ..)).trans (by
    simp (disch := decide) only [fKg, fKs, lWord, field_above, field_below, bit_above, bit_below] <;>
      simp only [field_all, bit_ofBool, parts_four, parts_five, Nat.reduceSub, Nat.reduceAdd, BitVec.reduceExtractLsb'])))
theorem Encoding.fsget (rd fs) : Encoding.Statement (.fsget rd fs) := by
  have h : ∀ w v, fXop w = 0x04a#12 → rawL w v = some (.fsget (v.extractLsb' 27 5) (w.extractLsb' 0 4)) := fun w v h => by rw [rawL, h]; rfl
  exact Encoding.twoWords rfl (by rw [isLong, fMajor_lWord]; rfl) (fun _ => (rawDecode_lWord ..).trans ((h _ _ (fXop_lWord ..)).trans (by
    simp (disch := decide) only [fKg, fKs, lWord, field_above, field_below, bit_above, bit_below] <;>
      simp only [field_all, bit_ofBool, parts_four, parts_five, Nat.reduceSub, Nat.reduceAdd, BitVec.reduceExtractLsb'])))
theorem Encoding.vxlat (kg ks kd apd apa xt xp) : Encoding.Statement (.vxlat kg ks kd apd apa xt xp) := by
  have h : ∀ w v, fXop w = 0x060#12 → rawL w v = some (.vxlat (fKg w) (fKs w) (w.extractLsb' 0 3) (w.extractLsb' 4 6) (v.extractLsb' 11 6) (v.extractLsb' 27 5) (v.extractLsb' 22 5)) := fun w v h => by rw [rawL, h]; rfl
  exact Encoding.twoWords rfl (by rw [isLong, fMajor_lWord]; rfl) (fun _ => (rawDecode_lWord ..).trans ((h _ _ (fXop_lWord ..)).trans (by
    simp (disch := decide) only [fKg, fKs, lWord, field_above, field_below, bit_above, bit_below] <;>
      simp only [field_all, bit_ofBool, parts_four, parts_five, Nat.reduceSub, Nat.reduceAdd, BitVec.reduceExtractLsb'])))
theorem Encoding.vxlatFf (kg ks kd apd apa xt xp) : Encoding.Statement (.vxlatFf kg ks kd apd apa xt xp) := by
  have h : ∀ w v, fXop w = 0x061#12 → rawL w v = some (.vxlatFf (fKg w) (fKs w) (w.extractLsb' 0 3) (w.extractLsb' 4 6) (v.extractLsb' 11 6) (v.extractLsb' 27 5) (v.extractLsb' 22 5)) := fun w v h => by rw [rawL, h]; rfl
  exact Encoding.twoWords rfl (by rw [isLong, fMajor_lWord]; rfl) (fun _ => (rawDecode_lWord ..).trans ((h _ _ (fXop_lWord ..)).trans (by
    simp (disch := decide) only [fKg, fKs, lWord, field_above, field_below, bit_above, bit_below] <;>
      simp only [field_all, bit_ofBool, parts_four, parts_five, Nat.reduceSub, Nat.reduceAdd, BitVec.reduceExtractLsb'])))
theorem Encoding.vamadd (kg ks ret apd apa base idx scope q) : Encoding.Statement (.vamadd kg ks ret apd apa base idx scope q) := by
  have h : ∀ w v, fXop w = 0x100#12 → rawL w v = some (.vamadd (fKg w) (fKs w) (v.getLsbD 21) (v.extractLsb' 5 6) (w.extractLsb' 4 6) (v.extractLsb' 27 5) (v.extractLsb' 11 6) (v.extractLsb' 24 3) (v.extractLsb' 22 2)) := fun w v h => by rw [rawL, h]; rfl
  exact Encoding.twoWords rfl (by rw [isLong, fMajor_lWord]; rfl) (fun _ => (rawDecode_lWord ..).trans ((h _ _ (fXop_lWord ..)).trans (by
    simp (disch := decide) only [fKg, fKs, lWord, field_above, field_below, bit_above, bit_below] <;>
      simp only [field_all, bit_ofBool, parts_four, parts_five, Nat.reduceSub, Nat.reduceAdd, BitVec.reduceExtractLsb'])))
theorem Encoding.vamfadd (kg ks ret apd apa base idx scope q) : Encoding.Statement (.vamfadd kg ks ret apd apa base idx scope q) := by
  have h : ∀ w v, fXop w = 0x101#12 → rawL w v = some (.vamfadd (fKg w) (fKs w) (v.getLsbD 21) (v.extractLsb' 5 6) (w.extractLsb' 4 6) (v.extractLsb' 27 5) (v.extractLsb' 11 6) (v.extractLsb' 24 3) (v.extractLsb' 22 2)) := fun w v h => by rw [rawL, h]; rfl
  exact Encoding.twoWords rfl (by rw [isLong, fMajor_lWord]; rfl) (fun _ => (rawDecode_lWord ..).trans ((h _ _ (fXop_lWord ..)).trans (by
    simp (disch := decide) only [fKg, fKs, lWord, field_above, field_below, bit_above, bit_below] <;>
      simp only [field_all, bit_ofBool, parts_four, parts_five, Nat.reduceSub, Nat.reduceAdd, BitVec.reduceExtractLsb'])))
theorem Encoding.vammin (kg ks ret apd apa base idx scope q) : Encoding.Statement (.vammin kg ks ret apd apa base idx scope q) := by
  have h : ∀ w v, fXop w = 0x102#12 → rawL w v = some (.vammin (fKg w) (fKs w) (v.getLsbD 21) (v.extractLsb' 5 6) (w.extractLsb' 4 6) (v.extractLsb' 27 5) (v.extractLsb' 11 6) (v.extractLsb' 24 3) (v.extractLsb' 22 2)) := fun w v h => by rw [rawL, h]; rfl
  exact Encoding.twoWords rfl (by rw [isLong, fMajor_lWord]; rfl) (fun _ => (rawDecode_lWord ..).trans ((h _ _ (fXop_lWord ..)).trans (by
    simp (disch := decide) only [fKg, fKs, lWord, field_above, field_below, bit_above, bit_below] <;>
      simp only [field_all, bit_ofBool, parts_four, parts_five, Nat.reduceSub, Nat.reduceAdd, BitVec.reduceExtractLsb'])))
theorem Encoding.vammax (kg ks ret apd apa base idx scope q) : Encoding.Statement (.vammax kg ks ret apd apa base idx scope q) := by
  have h : ∀ w v, fXop w = 0x103#12 → rawL w v = some (.vammax (fKg w) (fKs w) (v.getLsbD 21) (v.extractLsb' 5 6) (w.extractLsb' 4 6) (v.extractLsb' 27 5) (v.extractLsb' 11 6) (v.extractLsb' 24 3) (v.extractLsb' 22 2)) := fun w v h => by rw [rawL, h]; rfl
  exact Encoding.twoWords rfl (by rw [isLong, fMajor_lWord]; rfl) (fun _ => (rawDecode_lWord ..).trans ((h _ _ (fXop_lWord ..)).trans (by
    simp (disch := decide) only [fKg, fKs, lWord, field_above, field_below, bit_above, bit_below] <;>
      simp only [field_all, bit_ofBool, parts_four, parts_five, Nat.reduceSub, Nat.reduceAdd, BitVec.reduceExtractLsb'])))
theorem Encoding.vamfmin (kg ks ret apd apa base idx scope q) : Encoding.Statement (.vamfmin kg ks ret apd apa base idx scope q) := by
  have h : ∀ w v, fXop w = 0x104#12 → rawL w v = some (.vamfmin (fKg w) (fKs w) (v.getLsbD 21) (v.extractLsb' 5 6) (w.extractLsb' 4 6) (v.extractLsb' 27 5) (v.extractLsb' 11 6) (v.extractLsb' 24 3) (v.extractLsb' 22 2)) := fun w v h => by rw [rawL, h]; rfl
  exact Encoding.twoWords rfl (by rw [isLong, fMajor_lWord]; rfl) (fun _ => (rawDecode_lWord ..).trans ((h _ _ (fXop_lWord ..)).trans (by
    simp (disch := decide) only [fKg, fKs, lWord, field_above, field_below, bit_above, bit_below] <;>
      simp only [field_all, bit_ofBool, parts_four, parts_five, Nat.reduceSub, Nat.reduceAdd, BitVec.reduceExtractLsb'])))
theorem Encoding.vamfmax (kg ks ret apd apa base idx scope q) : Encoding.Statement (.vamfmax kg ks ret apd apa base idx scope q) := by
  have h : ∀ w v, fXop w = 0x105#12 → rawL w v = some (.vamfmax (fKg w) (fKs w) (v.getLsbD 21) (v.extractLsb' 5 6) (w.extractLsb' 4 6) (v.extractLsb' 27 5) (v.extractLsb' 11 6) (v.extractLsb' 24 3) (v.extractLsb' 22 2)) := fun w v h => by rw [rawL, h]; rfl
  exact Encoding.twoWords rfl (by rw [isLong, fMajor_lWord]; rfl) (fun _ => (rawDecode_lWord ..).trans ((h _ _ (fXop_lWord ..)).trans (by
    simp (disch := decide) only [fKg, fKs, lWord, field_above, field_below, bit_above, bit_below] <;>
      simp only [field_all, bit_ofBool, parts_four, parts_five, Nat.reduceSub, Nat.reduceAdd, BitVec.reduceExtractLsb'])))
theorem Encoding.vamand (kg ks ret apd apa base idx scope q) : Encoding.Statement (.vamand kg ks ret apd apa base idx scope q) := by
  have h : ∀ w v, fXop w = 0x106#12 → rawL w v = some (.vamand (fKg w) (fKs w) (v.getLsbD 21) (v.extractLsb' 5 6) (w.extractLsb' 4 6) (v.extractLsb' 27 5) (v.extractLsb' 11 6) (v.extractLsb' 24 3) (v.extractLsb' 22 2)) := fun w v h => by rw [rawL, h]; rfl
  exact Encoding.twoWords rfl (by rw [isLong, fMajor_lWord]; rfl) (fun _ => (rawDecode_lWord ..).trans ((h _ _ (fXop_lWord ..)).trans (by
    simp (disch := decide) only [fKg, fKs, lWord, field_above, field_below, bit_above, bit_below] <;>
      simp only [field_all, bit_ofBool, parts_four, parts_five, Nat.reduceSub, Nat.reduceAdd, BitVec.reduceExtractLsb'])))
theorem Encoding.vamor (kg ks ret apd apa base idx scope q) : Encoding.Statement (.vamor kg ks ret apd apa base idx scope q) := by
  have h : ∀ w v, fXop w = 0x107#12 → rawL w v = some (.vamor (fKg w) (fKs w) (v.getLsbD 21) (v.extractLsb' 5 6) (w.extractLsb' 4 6) (v.extractLsb' 27 5) (v.extractLsb' 11 6) (v.extractLsb' 24 3) (v.extractLsb' 22 2)) := fun w v h => by rw [rawL, h]; rfl
  exact Encoding.twoWords rfl (by rw [isLong, fMajor_lWord]; rfl) (fun _ => (rawDecode_lWord ..).trans ((h _ _ (fXop_lWord ..)).trans (by
    simp (disch := decide) only [fKg, fKs, lWord, field_above, field_below, bit_above, bit_below] <;>
      simp only [field_all, bit_ofBool, parts_four, parts_five, Nat.reduceSub, Nat.reduceAdd, BitVec.reduceExtractLsb'])))
theorem Encoding.vamxor (kg ks ret apd apa base idx scope q) : Encoding.Statement (.vamxor kg ks ret apd apa base idx scope q) := by
  have h : ∀ w v, fXop w = 0x108#12 → rawL w v = some (.vamxor (fKg w) (fKs w) (v.getLsbD 21) (v.extractLsb' 5 6) (w.extractLsb' 4 6) (v.extractLsb' 27 5) (v.extractLsb' 11 6) (v.extractLsb' 24 3) (v.extractLsb' 22 2)) := fun w v h => by rw [rawL, h]; rfl
  exact Encoding.twoWords rfl (by rw [isLong, fMajor_lWord]; rfl) (fun _ => (rawDecode_lWord ..).trans ((h _ _ (fXop_lWord ..)).trans (by
    simp (disch := decide) only [fKg, fKs, lWord, field_above, field_below, bit_above, bit_below] <;>
      simp only [field_all, bit_ofBool, parts_four, parts_five, Nat.reduceSub, Nat.reduceAdd, BitVec.reduceExtractLsb'])))
theorem Encoding.accwin (aw op ty xb xl xg) : Encoding.Statement (.accwin aw op ty xb xl xg) := by
  have h : ∀ w v, fXop w = 0x110#12 → rawL w v = some (.accwin (w.extractLsb' 8 2) (w.extractLsb' 6 2) (w.extractLsb' 0 4) (v.extractLsb' 27 5) (v.extractLsb' 22 5) (v.extractLsb' 17 5)) := fun w v h => by rw [rawL, h]; rfl
  exact Encoding.twoWords rfl (by rw [isLong, fMajor_lWord]; rfl) (fun _ => (rawDecode_lWord ..).trans ((h _ _ (fXop_lWord ..)).trans (by
    simp (disch := decide) only [fKg, fKs, lWord, field_above, field_below, bit_above, bit_below] <;>
      simp only [field_all, bit_ofBool, parts_four, parts_five, Nat.reduceSub, Nat.reduceAdd, BitVec.reduceExtractLsb'])))
theorem Encoding.awacc (kg ks aw idx apa) : Encoding.Statement (.awacc kg ks aw idx apa) := by
  have h : ∀ w v, fXop w = 0x111#12 → rawL w v = some (.awacc (fKg w) (fKs w) (w.extractLsb' 8 2) (v.extractLsb' 11 6) (v.extractLsb' 5 6)) := fun w v h => by rw [rawL, h]; rfl
  exact Encoding.twoWords rfl (by rw [isLong, fMajor_lWord]; rfl) (fun _ => (rawDecode_lWord ..).trans ((h _ _ (fXop_lWord ..)).trans (by
    simp (disch := decide) only [fKg, fKs, lWord, field_above, field_below, bit_above, bit_below] <;>
      simp only [field_all, bit_ofBool, parts_four, parts_five, Nat.reduceSub, Nat.reduceAdd, BitVec.reduceExtractLsb'])))
theorem Encoding.merge (aw scope q) : Encoding.Statement (.merge aw scope q) := by
  have h : ∀ w v, fXop w = 0x112#12 → rawL w v = some (.merge (w.extractLsb' 8 2) (v.extractLsb' 24 3) (v.extractLsb' 22 2)) := fun w v h => by rw [rawL, h]; rfl
  exact Encoding.twoWords rfl (by rw [isLong, fMajor_lWord]; rfl) (fun _ => (rawDecode_lWord ..).trans ((h _ _ (fXop_lWord ..)).trans (by
    simp (disch := decide) only [fKg, fKs, lWord, field_above, field_below, bit_above, bit_below] <;>
      simp only [field_all, bit_ofBool, parts_four, parts_five, Nat.reduceSub, Nat.reduceAdd, BitVec.reduceExtractLsb'])))
theorem Encoding.awrel (aw) : Encoding.Statement (.awrel aw) := by
  have h : ∀ w v, fXop w = 0x113#12 → rawL w v = some (.awrel (w.extractLsb' 8 2)) := fun w v h => by rw [rawL, h]; rfl
  exact Encoding.twoWords rfl (by rw [isLong, fMajor_lWord]; rfl) (fun _ => (rawDecode_lWord ..).trans ((h _ _ (fXop_lWord ..)).trans (by
    simp (disch := decide) only [fKg, fKs, lWord, field_above, field_below, bit_above, bit_below] <;>
      simp only [field_all, bit_ofBool, parts_four, parts_five, Nat.reduceSub, Nat.reduceAdd, BitVec.reduceExtractLsb'])))
theorem Encoding.stpeek (rd) : Encoding.Statement (.stpeek rd) := by
  have h : ∀ w v, fXop w = 0x140#12 → rawL w v = some (.stpeek (v.extractLsb' 27 5)) := fun w v h => by rw [rawL, h]; rfl
  exact Encoding.twoWords rfl (by rw [isLong, fMajor_lWord]; rfl) (fun _ => (rawDecode_lWord ..).trans ((h _ _ (fXop_lWord ..)).trans (by
    simp (disch := decide) only [fKg, fKs, lWord, field_above, field_below, bit_above, bit_below] <;>
      simp only [field_all, bit_ofBool, parts_four, parts_five, Nat.reduceSub, Nat.reduceAdd, BitVec.reduceExtractLsb'])))
theorem Encoding.stdrop (ra) : Encoding.Statement (.stdrop ra) := by
  have h : ∀ w v, fXop w = 0x141#12 → rawL w v = some (.stdrop (v.extractLsb' 27 5)) := fun w v h => by rw [rawL, h]; rfl
  exact Encoding.twoWords rfl (by rw [isLong, fMajor_lWord]; rfl) (fun _ => (rawDecode_lWord ..).trans ((h _ _ (fXop_lWord ..)).trans (by
    simp (disch := decide) only [fKg, fKs, lWord, field_above, field_below, bit_above, bit_below] <;>
      simp only [field_all, bit_ofBool, parts_four, parts_five, Nat.reduceSub, Nat.reduceAdd, BitVec.reduceExtractLsb'])))
theorem Encoding.stcut (ra) : Encoding.Statement (.stcut ra) := by
  have h : ∀ w v, fXop w = 0x142#12 → rawL w v = some (.stcut (v.extractLsb' 27 5)) := fun w v h => by rw [rawL, h]; rfl
  exact Encoding.twoWords rfl (by rw [isLong, fMajor_lWord]; rfl) (fun _ => (rawDecode_lWord ..).trans ((h _ _ (fXop_lWord ..)).trans (by
    simp (disch := decide) only [fKg, fKs, lWord, field_above, field_below, bit_above, bit_below] <;>
      simp only [field_all, bit_ofBool, parts_four, parts_five, Nat.reduceSub, Nat.reduceAdd, BitVec.reduceExtractLsb'])))
theorem Encoding.stsync : Encoding.Statement .stsync := by
  have h : ∀ w v, fXop w = 0x143#12 → rawL w v = some (.stsync) := fun w v h => by rw [rawL, h]; rfl
  exact Encoding.twoWords rfl (by rw [isLong, fMajor_lWord]; rfl) (fun _ => (rawDecode_lWord ..).trans ((h _ _ (fXop_lWord ..)).trans (by
    simp (disch := decide) only [fKg, fKs, lWord, field_above, field_below, bit_above, bit_below] <;>
      simp only [field_all, bit_ofBool, parts_four, parts_five, Nat.reduceSub, Nat.reduceAdd, BitVec.reduceExtractLsb'])))
theorem Encoding.stpre (ra) : Encoding.Statement (.stpre ra) := by
  have h : ∀ w v, fXop w = 0x144#12 → rawL w v = some (.stpre (v.extractLsb' 27 5)) := fun w v h => by rw [rawL, h]; rfl
  exact Encoding.twoWords rfl (by rw [isLong, fMajor_lWord]; rfl) (fun _ => (rawDecode_lWord ..).trans ((h _ _ (fXop_lWord ..)).trans (by
    simp (disch := decide) only [fKg, fKs, lWord, field_above, field_below, bit_above, bit_below] <;>
      simp only [field_all, bit_ofBool, parts_four, parts_five, Nat.reduceSub, Nat.reduceAdd, BitVec.reduceExtractLsb'])))
theorem Encoding.tshape (nm1 km1) : Encoding.Statement (.tshape nm1 km1) := by
  have h : ∀ w v, fXop w = 0x180#12 → rawL w v = some (.tshape (v.extractLsb' 8 6) (v.extractLsb' 0 7)) := fun w v h => by rw [rawL, h]; rfl
  exact Encoding.twoWords rfl (by rw [isLong, fMajor_lWord]; rfl) (fun _ => (rawDecode_lWord ..).trans ((h _ _ (fXop_lWord ..)).trans (by
    simp (disch := decide) only [fKg, fKs, lWord, field_above, field_below, bit_above, bit_below] <;>
      simp only [field_all, bit_ofBool, parts_four, parts_five, Nat.reduceSub, Nat.reduceAdd, BitVec.reduceExtractLsb'])))
theorem Encoding.tload (t apa) : Encoding.Statement (.tload t apa) := by
  have h : ∀ w v, fXop w = 0x181#12 → rawL w v = some (.tload (v.extractLsb' 23 3) (v.extractLsb' 26 6)) := fun w v h => by rw [rawL, h]; rfl
  exact Encoding.twoWords rfl (by rw [isLong, fMajor_lWord]; rfl) (fun _ => (rawDecode_lWord ..).trans ((h _ _ (fXop_lWord ..)).trans (by
    simp (disch := decide) only [fKg, fKs, lWord, field_above, field_below, bit_above, bit_below] <;>
      simp only [field_all, bit_ofBool, parts_four, parts_five, Nat.reduceSub, Nat.reduceAdd, BitVec.reduceExtractLsb'])))
theorem Encoding.tmac (t apa xr) : Encoding.Statement (.tmac t apa xr) := by
  have h : ∀ w v, fXop w = 0x184#12 → rawL w v = some (.tmac (v.extractLsb' 23 3) (v.extractLsb' 26 6) (v.extractLsb' 18 5)) := fun w v h => by rw [rawL, h]; rfl
  exact Encoding.twoWords rfl (by rw [isLong, fMajor_lWord]; rfl) (fun _ => (rawDecode_lWord ..).trans ((h _ _ (fXop_lWord ..)).trans (by
    simp (disch := decide) only [fKg, fKs, lWord, field_above, field_below, bit_above, bit_below] <;>
      simp only [field_all, bit_ofBool, parts_four, parts_five, Nat.reduceSub, Nat.reduceAdd, BitVec.reduceExtractLsb'])))
theorem Encoding.tzero (t) : Encoding.Statement (.tzero t) := by
  have h : ∀ w v, fXop w = 0x188#12 → rawL w v = some (.tzero (v.extractLsb' 23 3)) := fun w v h => by rw [rawL, h]; rfl
  exact Encoding.twoWords rfl (by rw [isLong, fMajor_lWord]; rfl) (fun _ => (rawDecode_lWord ..).trans ((h _ _ (fXop_lWord ..)).trans (by
    simp (disch := decide) only [fKg, fKs, lWord, field_above, field_below, bit_above, bit_below] <;>
      simp only [field_all, bit_ofBool, parts_four, parts_five, Nat.reduceSub, Nat.reduceAdd, BitVec.reduceExtractLsb'])))
theorem Encoding.tdrain (kg ks apd t xr) : Encoding.Statement (.tdrain kg ks apd t xr) := by
  have h : ∀ w v, fXop w = 0x18c#12 → rawL w v = some (.tdrain (fKg w) (fKs w) (v.extractLsb' 26 6) (v.extractLsb' 23 3) (v.extractLsb' 18 5)) := fun w v h => by rw [rawL, h]; rfl
  exact Encoding.twoWords rfl (by rw [isLong, fMajor_lWord]; rfl) (fun _ => (rawDecode_lWord ..).trans ((h _ _ (fXop_lWord ..)).trans (by
    simp (disch := decide) only [fKg, fKs, lWord, field_above, field_below, bit_above, bit_below] <;>
      simp only [field_all, bit_ofBool, parts_four, parts_five, Nat.reduceSub, Nat.reduceAdd, BitVec.reduceExtractLsb'])))
theorem Encoding.trestart (disp) : Encoding.Statement (.trestart disp) := by
  have h : ∀ w v, fXop w = 0x190#12 → rawL w v = some (.trestart v) := fun w v h => by rw [rawL, h]; rfl
  exact Encoding.twoWords rfl (by rw [isLong, fMajor_lWord]; rfl) (fun _ => (rawDecode_lWord ..).trans ((h _ _ (fXop_lWord ..)).trans (by
    simp (disch := decide) only [fKg, fKs, lWord, field_above, field_below, bit_above, bit_below] <;>
      simp only [field_all, bit_ofBool, parts_four, parts_five, Nat.reduceSub, Nat.reduceAdd, BitVec.reduceExtractLsb'])))
theorem Encoding.tclose : Encoding.Statement .tclose := by
  have h : ∀ w v, fXop w = 0x191#12 → rawL w v = some (.tclose) := fun w v h => by rw [rawL, h]; rfl
  exact Encoding.twoWords rfl (by rw [isLong, fMajor_lWord]; rfl) (fun _ => (rawDecode_lWord ..).trans ((h _ _ (fXop_lWord ..)).trans (by
    simp (disch := decide) only [fKg, fKs, lWord, field_above, field_below, bit_above, bit_below] <;>
      simp only [field_all, bit_ofBool, parts_four, parts_five, Nat.reduceSub, Nat.reduceAdd, BitVec.reduceExtractLsb'])))
theorem Encoding.cpy (xd xs xn xc scope) : Encoding.Statement (.cpy xd xs xn xc scope) := by
  have h : ∀ w v, fXop w = 0x1c0#12 → rawL w v = some (.cpy (v.extractLsb' 27 5) (v.extractLsb' 22 5) (v.extractLsb' 17 5) (v.extractLsb' 12 5) (v.extractLsb' 9 3)) := fun w v h => by rw [rawL, h]; rfl
  exact Encoding.twoWords rfl (by rw [isLong, fMajor_lWord]; rfl) (fun _ => (rawDecode_lWord ..).trans ((h _ _ (fXop_lWord ..)).trans (by
    simp (disch := decide) only [fKg, fKs, lWord, field_above, field_below, bit_above, bit_below] <;>
      simp only [field_all, bit_ofBool, parts_four, parts_five, Nat.reduceSub, Nat.reduceAdd, BitVec.reduceExtractLsb'])))
theorem Encoding.collAr (xa scope) : Encoding.Statement (.collAr xa scope) := by
  have h : ∀ w v, fXop w = 0x1c4#12 → rawL w v = some (.collAr (v.extractLsb' 27 5) (v.extractLsb' 9 3)) := fun w v h => by rw [rawL, h]; rfl
  exact Encoding.twoWords rfl (by rw [isLong, fMajor_lWord]; rfl) (fun _ => (rawDecode_lWord ..).trans ((h _ _ (fXop_lWord ..)).trans (by
    simp (disch := decide) only [fKg, fKs, lWord, field_above, field_below, bit_above, bit_below] <;>
      simp only [field_all, bit_ofBool, parts_four, parts_five, Nat.reduceSub, Nat.reduceAdd, BitVec.reduceExtractLsb'])))
theorem Encoding.collRs (xa scope) : Encoding.Statement (.collRs xa scope) := by
  have h : ∀ w v, fXop w = 0x1c5#12 → rawL w v = some (.collRs (v.extractLsb' 27 5) (v.extractLsb' 9 3)) := fun w v h => by rw [rawL, h]; rfl
  exact Encoding.twoWords rfl (by rw [isLong, fMajor_lWord]; rfl) (fun _ => (rawDecode_lWord ..).trans ((h _ _ (fXop_lWord ..)).trans (by
    simp (disch := decide) only [fKg, fKs, lWord, field_above, field_below, bit_above, bit_below] <;>
      simp only [field_all, bit_ofBool, parts_four, parts_five, Nat.reduceSub, Nat.reduceAdd, BitVec.reduceExtractLsb'])))
theorem Encoding.collAg (xa scope) : Encoding.Statement (.collAg xa scope) := by
  have h : ∀ w v, fXop w = 0x1c6#12 → rawL w v = some (.collAg (v.extractLsb' 27 5) (v.extractLsb' 9 3)) := fun w v h => by rw [rawL, h]; rfl
  exact Encoding.twoWords rfl (by rw [isLong, fMajor_lWord]; rfl) (fun _ => (rawDecode_lWord ..).trans ((h _ _ (fXop_lWord ..)).trans (by
    simp (disch := decide) only [fKg, fKs, lWord, field_above, field_below, bit_above, bit_below] <;>
      simp only [field_all, bit_ofBool, parts_four, parts_five, Nat.reduceSub, Nat.reduceAdd, BitVec.reduceExtractLsb'])))
theorem Encoding.collA2a (xa scope) : Encoding.Statement (.collA2a xa scope) := by
  have h : ∀ w v, fXop w = 0x1c7#12 → rawL w v = some (.collA2a (v.extractLsb' 27 5) (v.extractLsb' 9 3)) := fun w v h => by rw [rawL, h]; rfl
  exact Encoding.twoWords rfl (by rw [isLong, fMajor_lWord]; rfl) (fun _ => (rawDecode_lWord ..).trans ((h _ _ (fXop_lWord ..)).trans (by
    simp (disch := decide) only [fKg, fKs, lWord, field_above, field_below, bit_above, bit_below] <;>
      simp only [field_all, bit_ofBool, parts_four, parts_five, Nat.reduceSub, Nat.reduceAdd, BitVec.reduceExtractLsb'])))
theorem Encoding.updSgdm (xa scope) : Encoding.Statement (.updSgdm xa scope) := by
  have h : ∀ w v, fXop w = 0x1c8#12 → rawL w v = some (.updSgdm (v.extractLsb' 27 5) (v.extractLsb' 9 3)) := fun w v h => by rw [rawL, h]; rfl
  exact Encoding.twoWords rfl (by rw [isLong, fMajor_lWord]; rfl) (fun _ => (rawDecode_lWord ..).trans ((h _ _ (fXop_lWord ..)).trans (by
    simp (disch := decide) only [fKg, fKs, lWord, field_above, field_below, bit_above, bit_below] <;>
      simp only [field_all, bit_ofBool, parts_four, parts_five, Nat.reduceSub, Nat.reduceAdd, BitVec.reduceExtractLsb'])))
theorem Encoding.updAdamw (xa scope) : Encoding.Statement (.updAdamw xa scope) := by
  have h : ∀ w v, fXop w = 0x1c9#12 → rawL w v = some (.updAdamw (v.extractLsb' 27 5) (v.extractLsb' 9 3)) := fun w v h => by rw [rawL, h]; rfl
  exact Encoding.twoWords rfl (by rw [isLong, fMajor_lWord]; rfl) (fun _ => (rawDecode_lWord ..).trans ((h _ _ (fXop_lWord ..)).trans (by
    simp (disch := decide) only [fKg, fKs, lWord, field_above, field_below, bit_above, bit_below] <;>
      simp only [field_all, bit_ofBool, parts_four, parts_five, Nat.reduceSub, Nat.reduceAdd, BitVec.reduceExtractLsb'])))
theorem Encoding.skipset (xa xb) : Encoding.Statement (.skipset xa xb) := by
  have h : ∀ w v, fXop w = 0x1cc#12 → rawL w v = some (.skipset (v.extractLsb' 27 5) (v.extractLsb' 22 5)) := fun w v h => by rw [rawL, h]; rfl
  exact Encoding.twoWords rfl (by rw [isLong, fMajor_lWord]; rfl) (fun _ => (rawDecode_lWord ..).trans ((h _ _ (fXop_lWord ..)).trans (by
    simp (disch := decide) only [fKg, fKs, lWord, field_above, field_below, bit_above, bit_below] <;>
      simp only [field_all, bit_ofBool, parts_four, parts_five, Nat.reduceSub, Nat.reduceAdd, BitVec.reduceExtractLsb'])))
theorem Encoding.wver (n xa) : Encoding.Statement (.wver n xa) := by
  have h : ∀ w v, fXop w = 0x1cd#12 → rawL w v = some (.wver (w.extractLsb' 0 6) (v.extractLsb' 27 5)) := fun w v h => by rw [rawL, h]; rfl
  exact Encoding.twoWords rfl (by rw [isLong, fMajor_lWord]; rfl) (fun _ => (rawDecode_lWord ..).trans ((h _ _ (fXop_lWord ..)).trans (by
    simp (disch := decide) only [fKg, fKs, lWord, field_above, field_below, bit_above, bit_below] <;>
      simp only [field_all, bit_ofBool, parts_four, parts_five, Nat.reduceSub, Nat.reduceAdd, BitVec.reduceExtractLsb'])))
theorem Encoding.memoryAccessPerformed (a0) : Encoding.Statement (.memoryAccessPerformed a0) := Encoding.noWords rfl
theorem Encoding.modulePowerRemoval : Encoding.Statement .modulePowerRemoval := Encoding.noWords rfl

end Sys2Proof.Laws
end

