-- ==== Sys2Proof/Tests/Slice0.lean ====
section
/-! SUPPORT. Tests: ill-formed terms that WellFormed refuses, words of the spec's encodings, single steps on small states with results
worked out from the spec, and for every statement that has hypotheses a state and operands that meet them. -/

namespace Sys2Proof.Tests

open Sys2Proof Sys2Proof.Machine

-- one proof at a time: the kernel evaluates each
set_option Elab.async false

/-! ### Helpers -/

/-- The answer is a next state, of which the test holds. -/
def nextIs (o : Host.Outcome State Fault Refusal) (p : State → Bool) : Bool :=
  match o with
  | .next t => p t
  | _ => false

/-- The answer is a next state, and its hart that moves passes the test. -/
def hartIs (o : Host.Outcome State Fault Refusal) (p : Hart → Bool) : Bool := nextIs o (fun t => t.hart?.any p)

/-- A good answer of which the test holds. -/
def okIs {ε α : Type} (e : Except ε α) (p : α → Bool) : Bool :=
  match e with
  | .ok a => p a
  | .error _ => false

/-- A bad answer of which the test holds. -/
def errIs {ε α : Type} (e : Except ε α) (p : ε → Bool) : Bool :=
  match e with
  | .ok _ => false
  | .error x => p x

/-- An Aperture Table entry: a rectangle at row `r`, column `c`, `h` rows of `e` elements of TYPE `ty`. -/
def rect (ty r c h e : Nat) : Word :=
  Apt.toWord { v := true, kind := 0, ty, row0 := r, col0 := c, h, w := e * tyWidth ty / 16, bc := false, sb := false, fs := 0 }

/-- A hart at U: x5 = 7, x6 = −1, x7 = 0x2000, x8 = 0x2004, gallery address x9, entries ap1 to ap3 of 2 × 4 elements of s16,
ap4 to ap6 of f32, ap8 of s32, VL 4, RC 2. -/
def hart : Hart :=
  { Hart.blank with
    pc := 0x1000
    x := [(5, 7), (6, 0xffffffffffffffff), (7, 0x2000), (8, 0x2004), (9, 0x2000000000000000), (10, 0x40), (12, 0x2000000000000100)]
    ap := [(1, rect 2 0 0 2 4), (2, rect 2 2 0 2 4), (3, rect 2 4 0 2 4), (4, rect 8 6 0 2 4), (5, rect 8 8 0 2 4), (6, rect 8 10 0 2 4),
      (7, rect 7 12 0 2 4), (8, rect 4 14 0 2 4), (9, rect 0 16 0 2 4)]
    csr := [(0xd10, 0x10000)]
    km := BitVec.allOnes 256, vl := 4, rc := 2, bh := 64, share := 4096 }

/-- Its gang, with one tile and a gallery allocation of 2 MiB. -/
def gang : Gang :=
  { core := 0, slot := 0, launch := 0, index := 0, seq := 0, since := 0, lreq := 8, gpri := 0, live := 1, arr := 0, phase := 0
    tiles := [⟨0, none, 0, 0, [], []⟩], galBase := 0, galSize := 2 ^ 21, ctxs := [0], bands := [0], rows := 64, stair := 1, rr := 0, passed := [], root := 0x10000, due := false }

/-- Its launch, running. -/
def launch : Launch := { Launch.ofMsg 0 0 loadMsg with st := .running, placed := 1 }

/-- Page tables of context 0: the first GiB is mapped to 0x4000_0000, readable and writable at U, A and D set. -/
def tables : Memory := [(0x10002, 2), (0x10007, 0x80), (0x20002, 3), (0x20007, 0x80), (0x30003, 0x40), (0x30007, 0xfb)]

/-- The machine with this hart alone; at physical address 0x4000_2000 stands 0x8000_0000_0000_00F1. -/
def base : State :=
  { State.reset with harts := [hart], gangs := [gang], launches := [launch], accepted := 1
                     mem := tables ++ [(0x40002000, 0xf1), (0x40002007, 0x80)] }

/-- The hart with another register or entry. -/
def base' (f : Hart → Hart) : State := { base with harts := [f hart] }

/-- The machine at the start of a program of one instruction. -/
noncomputable def prog (w : Nat) : State := State.reset.withFetchWord 64 w

/-! ### Ill-formed terms -/

theorem test_wf_numbers : [Instr.msgWrite 64 0 0 [], .msgWrite 0 0 6 [], .lqcfgWrite 64 0 0, .vectorIssue 512, .vectorPass 512,
    .laneGroupGate 512 0, .laneGroupGate 0 8, .laneGroupWake 0 8, .dispatchGate 512, .slewStep 8, .slewCoreQuiet 512, .transitIssue 512,
    .transitOpComplete 512, .transitGate 512, .transitWake 512, .freqreqWrite 512 0, .freqRampStep 512, .relockEnd 512,
    .registerWrite (.csr 0x10000) 0, .registerWrite (.mgmt 6 0) 0, .registerWrite (.mgmt 0 0x1000000) 0, .claimWrite 6 0,
    .handoverRelease 6, .handoverTransfer 6 0, .handoverTransfer 0 8, .ownerLinkDown 5, .preempt 6 0, .resume 6 0, .kill 6 0,
    .plateFill 256, .intpostWrite 6 0, .interruptTake 2048, .supplyLimit 8, .resourceRemoval (.core 8 0), .resourceRemoval (.core 0 64),
    .resourceRemoval (.way 8), .resourceRemoval (.row 8), .gleipFlitRetry ⟨16, 0⟩, .gleipPortDown 16, .abortToken 256 0, .abortToken 0 8,
    .collectiveStart 256 [], .fetch 2048, .translationUnitLower 2048, .lwaitReturn 2048, .wfiWake 2048,
    .memoryAccessPerformed 2048].all (fun i => !i.wf) = true := by decide +kernel

theorem test_wf_types : [Instr.setvl 1 2 11, .setvlG 1 2 15, .adefRect 0 false 11 0 0 0 0, .adefLine 0 0 false 12 0 0 0,
    .accwin 0 3 4 1 2 3, .accwin 0 0 6 1 2 3].all (fun i => !i.wf) = true := by decide +kernel

theorem test_wf_scopes : [Instr.fenceSv 6, .fenceVs 7, .fenceVv 6, .fenceAll 7, .larriveScope 1 2 1, .larriveScope 1 2 6,
    .lwaitScope 1 2 3 0, .lwaitScope 1 2 3 7, .amswp 1 2 3 true 6 0, .amcas 1 2 3 true 6 0, .amadd 1 2 3 true 7 0,
    .amand 1 2 3 false 6 0, .amor 1 2 3 false 6 0, .amxor 1 2 3 false 6 0, .ammin 1 2 3 false 6 0, .ammax 1 2 3 false 6 0,
    .amminn 1 2 3 false 6 0, .ammaxn 1 2 3 false 6 0, .amfadd 1 2 3 6 0, .amfmin 1 2 3 6 0, .amfmax 1 2 3 6 0, .amld 1 2 true 6 0,
    .amst 1 2 true 6 0, .vamadd 0 false true 1 2 3 4 6 0, .merge 0 6 0, .cpy 1 2 3 4 6, .collAr 1 6, .collRs 1 6, .collAg 1 7,
    .collA2a 1 6, .updSgdm 1 6, .updAdamw 1 7].all (fun i => !i.wf) = true := by decide +kernel

theorem test_wf_qualifiers : [Instr.amld 1 2 true 0 2, .amld 1 2 true 0 3, .amst 1 2 true 0 1, .amst 1 2 true 0 3, .merge 0 0 1,
    .merge 0 0 3].all (fun i => !i.wf) = true := by decide +kernel

theorem test_wf_fields : [Instr.vlseg 0 false 1 0 2 0 0 0, .vsseg 0 false 1 0 2 0 0 0, .vldxr 0 false 1 2 0 3 0, .vstxr 0 false 1 2 0 3 0,
    .vamadd 0 false false 1 2 3 4 0 0, .vamfmax 0 false false 1 2 3 4 0 0, .pair 1 false .nop ⟨.kand, 1, 2, 3⟩,
    .pair 0 true .nop ⟨.vsegr, 1, 0, 0⟩, .pair 0 false .nop ⟨.vneg, 1, 2, 3⟩, .pair 0 false .nop ⟨.kand, 8, 0, 0⟩,
    .pair 0 false .nop ⟨.vceq, 8, 1, 1⟩, .pair 0 false .nop ⟨.vsredsum, 1, 2, 8⟩].all (fun i => !i.wf) = true := by decide +kernel

/-! ### Words of the spec's encodings -/

/-- The example words that R113, R119, R241 and R253 print. -/
theorem test_decode_examples : decode 0x08630001 0 = some (.addi 3 3 1) ∧ decode 0xa4410502 0 = some (.vfadd 4 4 5 2) ∧
    decode 0xfc8818c1 0xa4410508 = some (.pair 1 false (.imm .addi 3 3 1) ⟨.vfmul, 4, 4, 5⟩) ∧
    decode 0xa4410508 0 = some (.vfmul 4 4 5 0) ∧ decode 0xa4410503 0 = some (.vfadd 4 4 5 3) ∧
    decode 0xfc8818c1 0xa4410509 = none ∧
    decode 0x78a00000 0 = some (.larrive 5) ∧ decode 0x78c50001 0 = some (.lwait 6 5) ∧
    decode 0x78aa010c 0 = some (.larriveScope 5 10 3) ∧ decode 0x78ca2a0c 0 = some (.lwaitScope 6 10 5 3) ∧
    decode 0x78000300 0 = some .retire ∧ decode 0x7c000000 0 = some .twake := by decide +kernel

/-- Those of R232, R246, R256 and of the worked program of the transit chapter. -/
theorem test_decode_long_examples : decode 0xf8404040 0x2b001000 = some (.vamfadd 0 false false 0 4 5 2 3 0) ∧
    decode 0xf8700000 0x298e8600 = some (.cpy 5 6 7 8 3) ∧ decode 0xf8600000 0x00000103 = some (.tshape 1 3) ∧
    decode 0xf8604000 0x04000000 = some (.tload 0 1) ∧ decode 0xf8620000 0 = some (.tzero 0) ∧
    decode 0xf8610000 0x081c0000 = some (.tmac 0 2 7) ∧ decode 0xf8630000 0x0c000000 = some (.tdrain 0 false 3 0 0) := by decide +kernel

theorem test_decode_scalar : decode 0b000001_00001_00010_00011_00000000000#32 0 = some (.add 1 2 3) ∧
    decode 0b000011_00001_00010_1111111111111111#32 0 = some (.andi 1 2 0xffff) ∧
    decode 0b001001_00001_00010_00011_00000001011#32 0 = some (.remn 1 2 3) ∧
    decode 0b010000_11111111111111111111111110#32 0 = some (.jmp 0x3fffffe) ∧
    decode 0b010111_00001_00010_0000000000000100#32 0 = some (.bgen 1 2 4) ∧
    decode 0b011000_00000_00001_0000000000000000#32 0 = some (.jmpl 0 1 0) ∧
    decode 0b011011_00101_00110_0000110000000011#32 0 = some (.csrrc 5 6 0xc03) ∧ decode 0 0 = none := by decide +kernel

theorem test_decode_system : decode 0b011100_00000_11111_00001_00000000001#32 0 = some (.trap 0x3e1) ∧
    decode 0b011100_00000_00000_00000_00000000010#32 0 = some .eret ∧
    decode 0b011100_00000_00001_00010_00000010001#32 0 = some (.xcinv 1 2) ∧
    decode 0b011100_00001_00010_00000_00000100000#32 0 = some (.launch 1 2) ∧
    decode 0b011101_00000_00000_00000_000000_11_101#32 0 = some (.fenceAll 5) ∧
    decode 0b011101_00000_00000_00000_000000_11_110#32 0 = none ∧
    decode 0b011111_00001_00010_00000_00000000010#32 0 = some (.bkt 1 2) := by decide +kernel

theorem test_decode_memory : decode 0b100000_0_00001_00010_111111111111_011#32 0 = some (.ld 1 2 0xfff) ∧
    decode 0b100001_0_00001_00010_000000000001_000#32 0 = some (.lbn 1 2 1) ∧
    decode 0b100010_0_00001_00010_000000000010_010#32 0 = some (.sw 1 2 2) ∧
    decode 0b100010_1_00001_00010_000000000010_010#32 0 = none ∧ decode 0b100000_0_00001_00010_000000000000_100#32 0 = none ∧
    decode 0b100011_00001_00010_00011_00010_1_011_10#32 0 = some (.amadd 1 2 3 true 3 2) ∧
    decode 0b100011_00001_00010_00000_01101_0_101_01#32 0 = some (.amld 1 2 false 5 1) ∧
    decode 0b100100_000001_00010_000000000100_111#32 0 = some (.vld 1 2 4 7) ∧
    decode 0b100101_111111_00010_000000000100_000#32 0 = some (.vst 63 2 4 0) := by decide +kernel

theorem test_decode_vector : decode 0b101010_000001_000010_000011_000000_01#32 0 = some (.vceq 1 2 3 1) ∧
    decode 0b101011_000001_000010_000011_000101_00#32 0 = some (.vperm 1 2 3 0) ∧
    decode 0b101011_000001_000000_000000_001000_10#32 0 = some (.vidx 1 2) ∧
    decode 0b101110_000000_000010_000011_000000_00#32 0 = some (.vscore 2 3 0) ∧
    decode 0b101110_000001_000000_000000_000010_00#32 0 = some (.vsegr 1) ∧
    decode 0b101110_000001_000000_000000_000010_01#32 0 = none ∧
    decode 0b101111_000001_000010_000011_000010_00#32 0 = some (.rxor 1 2 3 0) ∧
    decode 0b101100_000001_000010_000000_000000_00#32 0 = some (.vfcvt 1 2 0) ∧
    decode 0b101101_000001_000010_000000_000000_00#32 0 = some (.vredsum 1 2 0) := by decide +kernel

/-- `adef ap1, rect.s16 (2,3) 4×8`; `aget`-group, stair, stream, window and strided words. -/
theorem test_decode_long :
    decode 0b111110_000000000010_000_0_000001_0000#32 0b00000010_0000000011_0000001000_0011#32 = some (.adefRect 1 false 2 2 3 8 3) ∧
    decode 0b111110_000001000000_001_1_000100_0000#32 0b00101_00110_00111_000000_00000001000#32 = some (.vlds 1 true 4 5 6 7 8) ∧
    decode 0b111110_000001001000_000_0_000000_0011#32 0b00101_000000000000000000000000000#32 = some (.fsbind 3 5) ∧
    decode 0b111110_000101000000_000_0_0000000000#32 0b00101_000000000000000000000000000#32 = some (.stpeek 5) ∧
    decode 0b111110_000100010000_000_0_01_00_00_0100#32 0b00001_00010_00011_00000000000000000#32 = some (.accwin 1 0 4 1 2 3) ∧
    decode 0b111110_000111001101_000_0_0000_000101#32 0b00001_000000000000000000000000000#32 = some (.wver 5 1) ∧
    decode 0b111110_001000000000_000_0_0000000000#32 0 = none := by decide +kernel

/-! ### Single steps: results by hand from the entries of the instructions -/

theorem test_base : base.hart? = some hart ∧ base.gangOf hart = some gang ∧ base.Inv ∧ base.Quiet := by
  unfold State.Quiet State.Inv; decide +kernel

/-- 7 + (2^64 − 1) wraps to 6. -/
theorem test_add_wraps : hartIs (exec (.add 1 5 6) base) (fun h => h.getX 1 == 6 && h.pc == 0x1004) = true := by decide +kernel

/-- x0 discards a result and reads 0. -/
theorem test_x0_discards : hartIs (exec (.add 0 5 6) base) (fun h => h.getX 0 == 0 && h.x == hart.x) = true := by decide +kernel

/-- −1 × (2^64 − 1): the high half of −(2^64 − 1) is −1. -/
theorem test_mulhsn : hartIs (exec (.mulhsn 1 6 6) base) (fun h => h.getX 1 == 0xffffffffffffffff) = true := by decide +kernel

/-- A shift takes its count modulo 64: 7 shifted by the low 6 bits of −1, 63. -/
theorem test_sll_modulo : hartIs (exec (.sll 1 5 6) base) (fun h => h.getX 1 == 0x8000000000000000) = true := by decide +kernel

/-- −1 < 7 signed, not natural. -/
theorem test_slt_signed : hartIs (exec (.slt 1 6 5) base) (fun h => h.getX 1 == 1) = true ∧
    hartIs (exec (.sltn 1 6 5) base) (fun h => h.getX 1 == 0) = true := by decide +kernel

/-- `jmpl x1, x1, 0` jumps to the old x1. -/
theorem test_jmpl_old : hartIs (exec (.jmpl 7 7 3) base) (fun h => h.pc == 0x2000 && h.getX 7 == 0x1004) = true := by decide +kernel

/-- A taken branch with displacement −2 words, and one not taken. -/
theorem test_branch_back : hartIs (exec (.bne 5 6 0xfffe) base) (fun h => h.pc == 0xff8) = true ∧
    hartIs (exec (.beq 5 6 0xfffe) base) (fun h => h.pc == 0x1004) = true := by decide +kernel

/-- The doubleword at 0x2000, its low byte sign- and zero-extended, and a misaligned halfword. -/
theorem test_loads : hartIs (exec (.ld 1 7 0) base) (fun h => h.getX 1 == 0x80000000000000f1) = true ∧
    hartIs (exec (.lb 1 7 0) base) (fun h => h.getX 1 == 0xfffffffffffffff1) = true ∧
    hartIs (exec (.lbn 1 7 0) base) (fun h => h.getX 1 == 0xf1) = true ∧
    nextIs (exec (.lh 1 7 0) (base' (fun h => h.setX 7 0x2001))) (fun t => t.launches == ((base' (fun h => h.setX 7 0x2001)).takeTrap
      { code := 0x3014, tva := 0x2001 }).launches) = true := by decide +kernel

/-- A store is outstanding and then performed: bytes lowest first; its own hart reads it before that. -/
theorem test_store : nextIs (exec (.sw 5 8 1) base) (fun t => (t.drain 0).byte 0x40002008 == 7 && t.byte 0x40002008 == 0 &&
    hartIs (exec (.lwn 1 8 1) t) (fun h => h.getX 1 == 7)) = true := by decide +kernel

/-- `amadd.d` of 7: the old value comes back and the sum is stored. -/
theorem test_amadd : nextIs (exec (.amadd 5 7 5 true 5 0) base) (fun t => t.byte 0x40002000 == 0xf8 &&
    t.hart?.any (fun h => h.getX 5 == 0x80000000000000f1)) = true := by decide +kernel

/-- 0x7FFF + 1 in s16 wraps in `vadd` and saturates with SAT, FSTAT bit 5, in `vadds`; the second element is 0 + 0. -/
theorem test_vadd : let b := base' (fun h => { h with plane := [(2048, 0x7fff), (4096, 1)] })
    hartIs (exec (.vadd 1 2 3 0) b) (fun h => h.plane.get 0 == 0x8000 && h.plane.get 1 == 0 && h.getCsr 0xc03 == 0) = true ∧
    hartIs (exec (.vadds 1 2 3 0) b) (fun h => h.plane.get 0 == 0x7fff && h.getCsr 0xc03 == 0x20) = true := by decide +kernel

/-- 1.0 + 2^−24 in f32 ties to even with NX; the low half of an f32 is in the lower column. -/
theorem test_vfadd : hartIs (exec (.vfadd 4 5 6 0) (base' (fun h => { h with plane := [(8193, 0x3f80), (10241, 0x3380)], vl := 1, rc := 1 })))
    (fun h => h.plane.get 6144 == 0 && h.plane.get 6145 == 0x3f80 && h.getCsr 0xc03 == 1) = true := by decide +kernel

/-- A guard keeps inactive elements: under k1 = 0b10 only element 1 is written. -/
theorem test_guard : hartIs (exec (.vmov 1 2 1) (base' (fun h => { h with k := [(1, 2)], plane := [(0, 9), (2048, 5), (2049, 6)], rc := 1 })))
    (fun h => h.plane.get 0 == 9 && h.plane.get 1 == 6) = true := by decide +kernel

/-- A compare sets active bits only. -/
theorem test_vclt : hartIs (exec (.vclt 2 2 3 0) (base' (fun h => { h with k := [(2, 0x32)], plane := [(2048, 0xffff)] })))
    (fun h => h.getK 2 == 0x31) = true := by decide +kernel

/-- The sum of a row by reduction: 1 + 2 + 3 + 4. -/
theorem test_vredsum : hartIs (exec (.vredsum 1 2 0) (base' (fun h => { h with plane := [(2048, 1), (2049, 2), (2050, 3), (2051, 4)], rc := 1 })))
    (fun h => h.plane.get 0 == 10) = true := by decide +kernel

/-- f32 2.5 to s32 by `vfcvti` in rne is 2, with NX. -/
theorem test_vfcvti : hartIs (exec (.vfcvti 8 5 0) (base' (fun h => { h with plane := [(8193, 0x4020)], vl := 1, rc := 1 })))
    (fun h => h.plane.get 14336 == 2 && h.plane.get 14337 == 0) = true := by decide +kernel

/-- An enabled flag stops before its element, at index 1: FEN.SAT. -/
theorem test_enabled_flag : let b := base' (fun h => { h with plane := [(2048, 3), (2049, 0x7fff), (4096, 1), (4097, 1)], csr := [(0xc04, 0x20), (0xd10, 0x10000), (0xd27, 0x5001)] })
    hartIs (exec (.vadds 1 2 3 0) b) (fun h => h.plane.get 0 == 4 && h.plane.get 1 == 0 && h.getCsr 0xd20 == 0x2005 && h.getCsr 0xd22 == 1 &&
      h.getCsr 0xd21 == 0x1000 && h.pc == 0x5000 && h.priv == .s) = true := by decide +kernel

/-- `trap 5` to S and `eret` back to the next instruction. -/
theorem test_trap_eret : hartIs (exec (.trap 5) (base' (fun h => { h with csr := [(0xd27, 0x5001)] })))
      (fun h => h.getCsr 0xd20 == 5 && h.getCsr 0xd21 == 0x1004 && h.getCsr 0xd26 == 4 && h.pc == 0x5000) = true ∧
    hartIs (exec .eret (base' (fun h => { h with priv := .s, csr := [(0xd21, 0x1004), (0xd26, 4)] })))
      (fun h => h.pc == 0x1004 && h.priv == .u && h.getCsr 0xd26 == 0) = true := by decide +kernel

/-- A hart without a vector stops, and its launch has its entry. -/
theorem test_unhandled : nextIs (exec (.trap 5) base) (fun t => t.harts.isEmpty &&
    (t.launchAt 0).any (fun l => l.hartEntries.length == 1 && l.ended == 1)) = true := by decide +kernel

/-- The pair of R119's example: its scalar half runs, as k1 bit 0 is 1, and so does element 0. -/
theorem test_pair : hartIs (exec (.pair 1 false (.imm .addi 3 3 0x3f) ⟨.vmov, 1, 2, 0⟩) (base' (fun h => { h with k := [(1, 1)], plane := [(2048, 5), (2049, 6)] })))
    (fun h => h.getX 3 == 0xffffffffffffffff && h.plane.get 0 == 5 && h.plane.get 1 == 0 && h.pc == 0x1008) = true := by decide +kernel

/-- `setvl` for f32: at most 512 elements. -/
theorem test_setvl : hartIs (exec (.setvl 1 6 8) base) (fun h => h.vl == 512 && h.getX 1 == 512) = true := by decide +kernel

/-- A unit-stride load from the gallery. -/
theorem test_vld : hartIs (exec (.vld 1 9 0 0) { base with mem := tables ++ [(2 ^ 48 + 2, 0x34), (2 ^ 48 + 3, 0x12), (2 ^ 48 + 14, 9)] })
    (fun h => h.plane.get 1 == 0x1234 && h.plane.get 1027 == 9 && h.pc == 0x1004) = true := by decide +kernel

/-- A tile loaded with 2 × 2 of bf16 and one row multiplied: (1, 2) × [[1, 0], [0, 1]] = (1, 2). -/
theorem test_tmac : let b := base' (fun h => { h with csr := [(0xc48, 0x202)], plane := [(12288, 0x3f80), (12289, 0x4000)] })
    let b := { b with gangs := [{ gang with tiles := [⟨0, some 7, 2, 2, [(0, 0x3f80), (65, 0x3f80)], []⟩] }] }
    nextIs (exec (.tmac 0 7 0) b) (fun t => (t.gangAt 0 0).any (fun g => g.tiles.any (fun x => x.acc 0 0 == 0x3f800000 && x.acc 0 1 == 0x40000000))) = true := by
  decide +kernel

/-- `fence.all` performs every store; `retire` ends the hart and its gang. -/
theorem test_fence_retire : let b := base' (fun h => { h with pending := [{ vec := false, loc := 0x40002000, bytes := [1] }] })
    nextIs (exec (.fenceAll 5) b) (fun t => t.byte 0x40002000 == 1) = true ∧
    nextIs (exec .retire b) (fun t => t.byte 0x40002000 == 1 && t.harts.isEmpty && t.gangs.isEmpty) = true := by decide +kernel

/-- A program comes to run: the first step of a placed program runs its instruction. -/
theorem test_step_runs : nextIs (step (prog 0x08a00001)) (fun t => t.hart?.any (fun h => h.getX 5 == 1 && h.pc == 0x1004)) = true := by
  decide +kernel

/-- A `vld` that a younger `sw` overtakes may return the value stored (the table 'Two streams of one hart' with its lines exchanged,
R290), and the store is then performed; an instruction of its own stream leaves the load as it was, and `lw` leaves one late. -/
theorem test_late_load : let l : Late := { vec := true, loc := 0x40002000, n := 4, dest := .cell 8 0 0 0 }
    let b := base' (fun h => { h with pending := [{ vec := false, loc := 0x40002000, bytes := [5, 0, 0, 0] }], late := [l] })
    ((b.performLate 0 l).byte 0x40002000 == 5 && (b.performLate 0 l).hart?.any (fun g => g.getEl (g.apt 8) 0 0 == 5 && g.pending == [])) = true ∧
    nextIs (b.lateOutcome (.addi 1 5 0) (exec (.addi 1 5 0) b)) (fun t => t.hart?.any (fun g => g.late == [l])) = true ∧
    nextIs (b.lateOutcome (.vadd 1 2 3 0) (exec (.vadd 1 2 3 0) b)) (fun t => t.hart?.any (fun g => g.late == [])) = true ∧
    nextIs (base.lateOutcome (.lw 1 7 0) (exec (.lw 1 7 0) base)) (fun t => t.hart?.any (fun g => g.getX 1 == 0xf1 &&
      g.late == [{ vec := false, loc := 0x40002000, n := 4, dest := .xreg 1 true }])) = true ∧
    nextIs (base.lateOutcome (.vld 8 7 0 0) (exec (.vld 8 7 0 0) base)) (fun t => t.hart?.any (fun g => g.late.length == 8 &&
      g.late.getLast? == some { vec := true, loc := 0x4000201c, n := 4, dest := .cell 8 1 3 1 })) = true ∧
    nextIs (b.lateOutcome (.beq 0 0 0xffff) (exec (.beq 0 0 0xffff) b)) (fun t => t.hart?.any (fun g => g.late == [l])) = true := by
  decide +kernel

/-- A step on the all-zero word takes the illegal-encoding trap; without a vector the hart stops with code 0x1000. -/
theorem test_step_illegal : nextIs (step (prog 0)) (fun t => t.harts.isEmpty &&
    t.launches.any (fun l => l.hartEntries.any (fun e => e.code == 0x1000))) = true := by decide +kernel


/-! ### mdas -/

/-- R427, lines of its example: the diagnostics of the snapshot and the extent, no object file, and status 1. -/
theorem test_mdas_diagnostics : assemble ["f.s"] [("f.s",
"f: .band 16
adef ap1, rect.f32 (0,0) 2x4
adef ap2, row.f32 (0,2) 4
vfadd.f32 ap1, ap1, ap2
adef ap3, rect.s16 (4,0) 20x4
ret")] =
    ⟨1, none, none, [⟨[("f.s", 4)], false, "W410", "snapshot"⟩, ⟨[("f.s", 5)], true, "E401", "extent"⟩]⟩ := by decide +kernel

/-- R357, lines of its example with a fence of the wrong direction: a fence warning at the vector load, 4 relocations and the words
of the listing. -/
theorem test_mdas_fence : (let r := assemble ["-l", "f.l", "f.s"] [("f.s",
"f: la x5, buf
sw x7, [x5]
fence.vs.hart
vld.s32 ap2, [x5]
ret")]
    r.diags == [⟨[("f.s", 4)], false, "W420", "fence"⟩] && r.status == 0 &&
    r.object.any (fun o => o.1 == "f.mof" && leNat ((o.2.drop 0x1c).take 4) == 4) &&
    r.listing.any (fun l => l.2.flatMap (fun x => x.words) == [0x20a00000, 0x20a50000, 0x20a50000, 0x20a50000,
      0x88728002, 0x74000008, 0x90228000, 0x60010000])) = true := by decide +kernel

/-! ### Witnesses: states and operands that meet the hypotheses of the statements -/

/-- Of `StepKeepsMemoryCanonical`. -/
theorem witness_StepKeepsMemoryCanonical : Memory.wf (prog 0x08a00001).mem = true ∧ nextIs (step (prog 0x08a00001)) (fun _ => true) = true := by
  decide +kernel

/-- Of `EncodedInstructionsDecode`: one word and two, with extreme operands. -/
theorem witness_EncodedInstructionsDecode : Instr.wf (.addi 31 0 0x8000) = true ∧ encode (.addi 31 0 0x8000) = .one 0x0be08000 ∧
    Instr.wf (.vamfmax 7 true false 0 63 31 63 5 3) = true ∧ (match encode (.vamfmax 7 true false 0 63 31 63 5 3) with
      | .two _ _ => true
      | _ => false) = true := by decide +kernel

/-- Of `StepRunsDecoded`, with a word that decodes and with one that does not. -/
theorem witness_StepRunsDecoded : [0x08a00001, 0].all (fun w =>
    let s : State := prog w
    let s1 : State := { s with tick := s.tick + 1 }
    s.inbox == [] && s.power && s1.pickHart.any (fun h => (s1.tick % 2 != 0 || s1.pickCore.bind s1.coreWork == none) && s1.heldUp h == none && h.instead == none &&
      okIs (({ s1 with cur := h.hid } : State).fetchWords h) (fun r => decide (decode r.2.1 (r.2.2.getD 0) =
        if w = 0 then none else some (.addi 5 0 1)) &&
        (w == 0 || (r.1.hart?.isSome && r.1.harts.all (fun g => g.landed == [] && g.landedFlags == 0 && g.pending == []) &&
          nextIs (exec (.addi 5 0 1) (r.1.readyFor (.addi 5 0 1))) (fun u => !h.stopped (.addi 5 0 1) u && u.harts.all (fun g => g.late == []))))))) = true := by
  decide +kernel

/-- Of `IntegerForms`, and of every statement whose only premise is a hart that moves: counts of 7, which has 61 leading and no
trailing zeros, and of 0, which has 64 of both. -/
theorem witness_IntegerForms : base.hart? = some hart ∧ (
    let a := hart.getX 5
    (∀ i < 64, 3 ≤ i → a.getLsbD i = false) ∧ a.getLsbD (63 - 61) = true ∧ a.getLsbD 0 = true) ∧
    (∀ i < 64, (hart.getX 0).getLsbD i = false) := by decide +kernel

/-- Of `MultiplyAndDivide`: a divisor, a divisor of 0, the quotient that overflows; reserved func values beside the assigned ones. -/
theorem witness_MultiplyAndDivide : (∀ f ∈ [4#11, 7, 12, 2047], f.toNat ∉ [0, 1, 2, 3, 8, 9, 10, 11]) ∧ base.hart? = some hart ∧
    hart.getX 5 ≠ 0 ∧ hart.getX 0 = 0 ∧ (
    let h := hart.setX 1 0x8000000000000000
    (base' (fun h => h.setX 1 0x8000000000000000)).hart? = some h ∧ h.getX 1 = BitVec.ofInt 64 (-2 ^ 63) ∧
      h.getX 6 = BitVec.ofInt 64 (-1)) := by decide +kernel

/-- Of `SliceofReportsTheHome`: the gallery, an unmapped page, path 4 at an unmapped block and a mapped one, a mapped page. -/
theorem witness_SliceofReportsTheHome : base.hart? = some hart ∧ pathOf (hart.getX 9) ∈ [1, 2, 5, 6] ∧
    (pathOf 0x40000000 ∈ [0, 3, 7] ∧ base.validLeaf hart 0x40000000 = none) ∧
    (let va : Word := 0x8000000100000000
     pathOf va = 4 ∧ base.validLeaf hart (BitVec.ofNat 64 (64 * (va.toNat % 2 ^ 61 / 128))) = none) ∧
    (let va : Word := 0x8000000000000080
     pathOf va = 4 ∧ (base.validLeaf hart (BitVec.ofNat 64 (64 * (va.toNat % 2 ^ 61 / 128)))).isSome) ∧
    pathOf (hart.getX 7) ∈ [0, 3, 7] ∧ (base.validLeaf hart (hart.getX 7)).isSome := by decide +kernel

/-- Of `ConditionalBranches` and `Jumps`: conditions that hold and that do not. -/
theorem witness_ConditionalBranches : base.hart? = some hart ∧ hart.getX 5 = hart.getX 5 ∧ hart.getX 5 ≠ hart.getX 6 ∧
    (hart.getX 6).toInt < (hart.getX 5).toInt ∧ (hart.getX 5).toNat < (hart.getX 6).toNat := by decide +kernel

theorem witness_Jumps : base.hart? = some hart := by decide +kernel

/-- Of `ScalarFrame`. -/
theorem witness_ScalarFrame : Instr.xDest (.jmpl 31 5 0) = some 31 ∧ base.hart? = some hart ∧
    nextIs (exec (.jmpl 31 5 0) base) (fun _ => true) = true := by decide +kernel

/-- Of `CsrInstructions`: the ends of the ranges that a hart at U does not reach, numbers inside and outside them that nothing assigns,
CSRs that are read and written, with ra = 0 and another, and CYCW with nothing outstanding and with a store. -/
theorem witness_CsrInstructions : base.hart? = some hart ∧ (hart.priv = .u ∧ [0xd00, 0xdff, 0xf00, 0xfff].all (fun n =>
      hart.csrFault n == some { code := 0x1001 })) ∧ [0xbff, 0xc00, 0xcff, 0xe00, 0xeff, 0x1000].all (fun n => hart.csrFault n == some { code := 0x1101 }) = true ∧
    [0xd00, 0xdff, 0xf00, 0xfff].all (fun n => ({ hart with priv := .m } : Hart).csrFault n == some { code := 0x1101 }) = true ∧
    [0xc03, 0xc50].all (fun n => hart.csrFault n == none &&
      let r := base.readCsr hart n
      okIs (r.1.writeCsr ((r.1.hart?).getD hart) n (hart.getX 6)) (fun _ => true) &&
      okIs (r.1.writeCsr ((r.1.hart?).getD hart) n (r.2 ||| hart.getX 5)) (fun _ => true) &&
      okIs (r.1.writeCsr ((r.1.hart?).getD hart) n (r.2 &&& ~~~(hart.getX 5))) (fun _ => true)) = true ∧
    hart.csrFault 0xc22 = none ∧ base.holdsCycw hart = false ∧ (
      let f : Hart → Hart := fun h => { h with pending := [{ vec := false, loc := 0x40002000, bytes := [1] }] }
      (base' f).hart? = some (f hart) ∧ (base' f).holdsCycw (f hart) = true) := by decide +kernel

/-- Of `CsrFields`: a gang; a supervisor; a stair with a spill area, whose 32 bytes on chip reach it. -/
theorem witness_CsrFields : base.hart? = some hart ∧ base.gangOf hart = some gang ∧ base.holdsCycw hart = false ∧ hart.landedFlags = 0 ∧ hart.pending = [] ∧ (
      let h : Hart := { hart with priv := .s }
      (base' (fun h => { h with priv := .s })).hart? = some h ∧ h.priv ≠ .u) ∧
    (let f : Hart → Hart := fun h => { h with csr := [(0xc30, 0x8000), (0xc31, 0x10000), (0xc32, 0x8020), (0xd10, 0x10000)]
                                              stair := { h.stair with low := 0x8000, bytes := [(0x8000, 7)] } }
     (base' f).hart? = some (f hart) ∧ (f hart).noSpill = false ∧ okIs ((base' f).stairSync (f hart)) (fun s => (s.drain 0).byte 0x40008000 == 7)) := by
  decide +kernel

/-- Of `LengthInstructions`: the band's 64 rows and one more. -/
theorem witness_LengthInstructions : base.hart? = some hart ∧ (BitVec.ofNat 64 ((hart.getX 10).toNat + (0 : BitVec 16).toNat)).toNat ≤ hart.bh ∧
    hart.bh < (BitVec.ofNat 64 ((hart.getX 10).toNat + (1 : BitVec 16).toNat)).toNat := by decide +kernel

/-- Of `ApertureTable`: entries that break no condition, the last row of the band among them, and one for each condition; entries that suit
each other's places, a value that does not; an invalid entry, the last element and the places beyond it; a source bound to no stream. -/
theorem witness_ApertureTable : base.hart? = some hart ∧ [rect 2 63 0 2 4, 0].all (fun v => hart.aptFault 63 v == none) = true ∧
    (let e : Apt := { v := true, kind := 0, ty := 2, row0 := 0, col0 := 0, h := 2, w := 4, bc := false, sb := false, fs := 0 }
     [({ e with kind := 6 }, 0x4000), ({ e with ty := 11 }, 0x4000), ({ e with row0 := 64 }, 0x4001), ({ e with h := 0 }, 0x4002),
      ({ e with kind := 2 }, 0x4002), ({ e with bc := true }, 0x4003), ({ e with h := 65 }, 0x4004), ({ e with kind := 3, h := 1, w := 65 }, 0x4004)].all
        (fun x => hart.aptFault 63 x.1.toWord == some { code := x.2, tap := some 63 })) = true ∧
    hart.aptFault 1 (hart.ap.get 63) = none ∧ hart.aptFault 63 (hart.ap.get 1) = none ∧
    (hart.apt 63).v = false ∧ (let a := hart.apt 1
     a.v = true ∧ a.sb = false ∧ 1 < a.hl ∧ a.hl ≤ 2 ∧ 3 < a.e ∧ a.e ≤ 4 ∧ hart.absent [a] = none ∧ hart.streamFault [] [1] = none) ∧
    (let h : Hart := { hart with ap := hart.ap.set 3 (rect 2 64 0 2 4) }
     (base' (fun h => { h with ap := h.ap.set 3 (rect 2 64 0 2 4) })).hart? = some h ∧ (h.aptFault 1 (h.ap.get 3)).isSome ∧
     h.aptFault 3 (h.ap.get 1) = none) ∧
    (let h : Hart := { hart with ap := hart.ap.set 1 ((hart.ap.get 1) ||| 0x20000) }
     (h.apt 1).sb = true ∧ h.streamFault [] [1] = some 1) := by decide +kernel

/-- Of `TrapLevels`, case by case. -/
theorem witness_TrapLevels : base.hart? = some hart ∧ (
    let free (h : Hart) (tvec tstat : Nat) : Bool :=
      (h.getCsr tvec).getLsbD 0 && !(h.getCsr tstat).getLsbD 2
    let at' (p : Priv) (c : SMap 64) : Hart := { hart with priv := p, csr := c }
    free (at' .u [(0xd27, 0x5001)]) 0xd27 0xd26 && (!free (at' .u [(0xd26, 4), (0xd27, 0x5001), (0xf27, 0x6001)]) 0xd27 0xd26 &&
      free (at' .u [(0xd26, 4), (0xd27, 0x5001), (0xf27, 0x6001)]) 0xf27 0xf26) && free (at' .s [(0xf27, 0x6001)]) 0xf27 0xf26 &&
      !free (at' .s [(0xf26, 4), (0xf27, 0x6001)]) 0xf27 0xf26 && !free hart 0xd27 0xd26 && !free hart 0xf27 0xf26) = true ∧
    hart.priv = .u ∧ base.gangOf hart = some gang ∧ base.launchAt gang.launch = some launch ∧ launch.hartEntries = [] ∧
    [0, 2].all (fun (arr : BitVec 4) =>
      let s : State := { base with harts := [hart, { hart with hid := 512, idx := 1 }], gangs := [{ gang with live := 3, arr := arr }] }
      s.hart? == some hart && (s.gangOf hart).any (fun g => g.live &&& ~~~(1#4 <<< hart.idx) == 2 && s.harts.any (fun o =>
        o.hid != hart.hid && o.q == g.core && o.slot == g.slot))) = true := by decide +kernel

/-- Of `TrapsEnterAndReturn`: a hart at U with a vector at S, one without (above), and one at S. -/
theorem witness_TrapsEnterAndReturn : (
      let f : Hart → Hart := fun h => { h with csr := [(0xd27, 0x5001)] }
      (base' f).hart? = some (f hart) ∧ (f hart).trapLevel = some false ∧ (f hart).priv = .u) ∧
    (
      let f : Hart → Hart := fun h => { h with priv := .s, csr := [(0xd26, 4), (0xf27, 0x6001)] }
      (base' f).hart? = some (f hart) ∧ (f hart).trapLevel = some true ∧ (f hart).priv ≠ .u) := by decide +kernel

/-- Of `SystemInstructions`: at U and at S, with ranges of no byte, of some and of all. -/
theorem witness_SystemInstructions : base.hart? = some hart ∧ hart.priv = .u ∧ base.engines = [] ∧ (hart.getX 0).toNat = 0 ∧ (hart.getX 10).toNat < 2 ^ 32 ∧
    2 ^ 32 ≤ (hart.getX 6).toNat ∧
    (
      let f : Hart → Hart := fun h => { h with priv := .s }
      (base' f).hart? = some (f hart) ∧ (f hart).priv ≠ .u) := by decide +kernel

/-- Of `Interrupts`: an owner, its write of hart 0's number, another master; a pending interrupt that S takes, and `wfi`; none; one that M takes. -/
theorem witness_Interrupts : (
      let s := { base with mgmt := base.mgmt.set 0x200000 0x10000a300 }
      s.power = true ∧ s.hartAt 0 = some hart ∧ s.owner?.isSome = true ∧ s.owner? ≠ some 5) ∧ base.owner? ≠ some 0 ∧ (
      let f : Hart → Hart := fun h => { h with csr := [(0xd27, 0x5001), (0xd2b, 0x3), (0xd2c, 0x2), (0xf2c, 0x2)], run := .wfi }
      (base' f).hartAt 0 = some (f hart) ∧ (f hart).run = .wfi ∧ (f hart).takeable = some (1, false)) ∧ hart.takeable = none ∧
    ({ hart with csr := [(0xd26, 4), (0xd2b, 0x3), (0xd2c, 0x3), (0xf2b, 0x3), (0xf2c, 0x3)] } : Hart).takeable = some (0, true) := by decide +kernel

/-- The machine whose core 511 is changed, and that core. -/
def coreWith (f : CoreSt → CoreSt) : State := base.setCore (f (base.coreAt 511))

/-- A dispatched instruction of a charge: class 5 has weight 1. -/
def charged (n : Nat) : Job := { cls := 5, units := n, rc := 2, rows := 2 }

/-- Of `CoreTiming`, its frequency: a relock under way, up and down, and none; a target above, below and at the point. -/
theorem witness_CoreTiming : base.power = true ∧ (base.coreAt 511).relock = none ∧ (base.coreAt 511).target = (base.coreAt 511).cur ∧
    [true, false].all (fun up => ((coreWith (fun c => { c with relock := some up })).coreAt 511).relock == some up) = true ∧
    ((coreWith (fun c => { c with target := 950 })).coreAt 511).cur < 950 ∧ 930 < ((coreWith (fun c => { c with target := 930 })).coreAt 511).cur ∧
    ((coreWith (fun c => { c with target := 930 })).coreAt 511).target = 930 ∧ ((coreWith (fun c => { c with target := 950 })).coreAt 511).target = 950 := by
  decide +kernel

/-- Its gate: a head that just has room, a vector instruction and a `tdrain`; a charge above the capacity; a head that has none. -/
theorem witness_CoreTiming_gate : (
      let left (c : CoreSt) : Nat := c.level - (c.csr.get 0xd41).toNat % 2 ^ 16
      let cap (c : CoreSt) : Nat := (c.csr.get 0xd40).toNat % 2 ^ 32
      let at' (js : List Job) (level : Nat) : CoreSt := (coreWith (fun c => { c with gate := js, level })).coreAt 511
      let j (n : Nat) : Job := charged n
      (let a := at' [j 0x200] 0x10000
       a.relock = none ∧ a.gate = [j 0x200] ∧ left a + a.charge (j 0x200) ≤ cap a ∧ a.charge (j 0x200) = 0x200 ∧ (j 0x200).dropped = false ∧ (j 0x200).drain = none) ∧
      (let d : Job := { j 0x200 with drain := some 7 }
       let a := at' [d] 0x10000
       let full : CoreSt := (coreWith (fun c => { c with gate := [d], transit := List.replicate 32 ⟨{}, .fill, 0, 1, 0, none⟩ })).coreAt 511
       a.gate = [d] ∧ left a + a.charge d ≤ cap a ∧ d.drain = some 7 ∧ a.drains = [] ∧ a.transit.length < 32 ∧
       full.gate = [d] ∧ full.drains = [] ∧ 32 ≤ full.transit.length) ∧
      (let a := at' [j 0x10001] 0x200
       a.gate = [j 0x10001] ∧ left a = 0 ∧ cap a < a.charge (j 0x10001)) ∧
      (let a := at' [j 0x201, j 1] 0x10000
       a.gate = j 0x201 :: [j 1] ∧ cap a < left a + a.charge (j 0x201) ∧ ¬ (left a = 0 ∧ cap a < a.charge (j 0x201)))) := by decide +kernel

/-- Its lane groups: no wake, one that goes on and one that ends, at a pass boundary of its gang and within a pass. -/
theorem witness_CoreTiming_groups : (
      let at' (g : LaneGroup) (busy : List (Nat × Nat)) : CoreSt :=
        (coreWith (fun c => { c with cyc := 64, groups := [g], busy })).coreAt 511
      let g (w : Option Nat) : LaneGroup := ⟨none, some 3, true, w, 0⟩
      (at' ⟨none, none, false, none, 0⟩ []).groups[0]? = some ⟨none, none, false, none, 0⟩ ∧ (0 : Nat) + 64 ≤ (at' (g none) []).cyc ∧
      (at' (g (some 65)) []).groups[0]? = some (g (some 65)) ∧ (at' (g (some 65)) []).cyc < 65 ∧
      (at' (g (some 64)) []).groups[0]? = some (g (some 64)) ∧ 64 ≤ (at' (g (some 64)) []).cyc ∧ (at' (g (some 64)) []).midPass 3 = false ∧
      (at' (g (some 64)) [(3, 65)]).midPass 3 = true ∧ (base.coreAt 511).groups[7]?.isSome = true) := by decide +kernel

/-- A core of the gang of `base` with a group of the gang's. -/
def sequencing (f : CoreSt → CoreSt) : State :=
  base.setCore (f { base.coreAt 0 with groups := [⟨some 0, none, false, none, 0⟩] })

/-- Of `VectorSequencer`: two ready heads of two harts and their winner; no candidate; decisions made and not made; a queued instruction
alone; one in flight at a pass boundary. -/
theorem witness_VectorSequencer : (
      let a : Job := { charged 1 with seq := 0, since := 3, idx := 1, hid := 512 }
      let b : Job := { charged 1 with seq := 1, since := 2 }
      let s := sequencing (fun c => { c with vqueue := [a, b] })
      s.power = true ∧ s.winner (s.coreAt 0) gang = some (b, none) ∧ ((s.coreAt 0).candidates 0).length = 2 ∧
      s.winner (base.coreAt 0) gang = none ∧ (s.coreAt 0).decided = false ∧
      ((sequencing (fun c => { c with decided := true })).coreAt 0).decided = true ∧ s.gangs.filter (fun g => g.core == 0) = [gang] ∧
      (let u := sequencing (fun c => { c with vqueue := [b] })
       (u.coreAt 0).vqueue = [b] ∧ (u.coreAt 0).flight = [] ∧ (u.coreAt 0).transit = [] ∧ (u.coreAt 0).tflight = [] ∧ b.slot = gang.slot ∧
       b.idx < 4 ∧ 0 < (u.coreAt 0).groups.countP (fun x => x.owner == some b.slot)) ∧
      (let u := sequencing (fun c => { c with flight := [{ b with begun := 1 }] })
       let j : Job := { b with begun := 1 }
       (u.coreAt 0).flight = [j] ∧ j.slot < 4 ∧ j.fused = none ∧ j.chain = none ∧ j.drain = none ∧ j.begun < j.rows ∧
       (u.coreAt 0).midPass j.slot = false ∧ 0 < (u.coreAt 0).groups.countP (fun x => x.owner == some j.slot))) := by decide +kernel

/-- A head that chains on an instruction whose first results are not yet written, and one that has been passed over twice. -/
theorem witness_VectorSequencer_chain : (
      let i : Job := { charged 1 with seq := 0, bh := 64, vl := 4, begun := 1, ends := [(0, 9)], ops := [⟨rect 2 0 0 2 4, true, 2, 4, true⟩] }
      let j : Job := { charged 1 with seq := 1, bh := 64, vl := 4, ops := [⟨rect 2 0 0 2 4, false, 2, 4, true⟩] }
      let c := (sequencing (fun c => { c with cyc := 9, vqueue := [j], flight := [i] })).coreAt 0
      c.startable j = some (some i) ∧ (∀ e, find i.ends j.start = some e → c.cyc ≤ e) ∧ i.start ≤ j.start) ∧ (
      let a : Job := { charged 1 with seq := 2, since := 1, idx := 1, hid := 512 }
      let b : Job := { charged 1 with seq := 1, since := 2 }
      let g : Gang := { gang with passed := [(1, 1)] }
      let s := sequencing (fun c => { c with vqueue := [a, b] })
      s.winner (s.coreAt 0) g = some (b, none) ∧ (1, b.seq) ∈ g.passed ∧ s.hpri b.hid = s.hpri a.hid) := by
  refine ⟨⟨by decide +kernel, ?_, by decide +kernel⟩, by decide +kernel⟩
  intro e h
  exact Nat.le_of_eq (Option.some.inj h)

/-- A core 511 with one transit entry of a kind. -/
def transiting (k : TransitKind) (count : Nat) (f : CoreSt → CoreSt) : CoreSt :=
  (coreWith (fun c => f { c with transit := [⟨{}, k, 3, count, 8, none⟩] })).coreAt 511

/-- Of `TransitTiming`: an entry of each kind that nothing holds up, an engine awake, gated and waking; a limiter that grants a slot and
one that grants none; the last idle cycle, the one before it, TIDLE 0; a wake that has ended and one that has not. -/
theorem witness_TransitTiming : base.power = true ∧ [TransitKind.drain, .fill, .load, .zero, .mac, .macHalf, .mac32].all (fun k =>
      let c := transiting k 2 id
      !c.tissued && c.transit.length == 1 && c.tflight.isEmpty && c.gate.isEmpty && c.drains.isEmpty && c.vqueue.isEmpty && c.flight.isEmpty &&
      decide (c.port ≤ c.cyc) && decide (c.wport ≤ c.cyc) && decide (c.array ≤ c.cyc) && c.engine == .awake 0 && c.slew == none) = true ∧
    (transiting .mac 0 (fun c => { c with tissued := true })).tissued = true ∧
    (transiting .mac 0 (fun c => { c with engine := .gated })).engine = .gated ∧
    (transiting .mac 0 (fun c => { c with engine := .waking 5 })).engine = .waking 5 ∧ (
      let a := transiting .fill 1 (fun c => { c with slew := some 0, slewSlots := 0 })
      let e := base.dieAt 7
      a.slew = some 0 ∧ a.slewSlots < e.ramp 0 ∧ e.ramp 0 ≤ (transiting .fill 1 (fun c => { c with slewSlots := 1 })).slewSlots) ∧
    ((base.coreAt 511).csr.get 0xd48).toNat % 2 ^ 16 ≠ 0 ∧
    [0xff, 0xfe].all (fun n =>
      let c := (coreWith (fun c => { c with engine := .awake n })).coreAt 511
      c.engine == .awake n && c.relock == none && c.transit.isEmpty && c.tflight.isEmpty && !c.tissued && decide ((c.csr.get 0xd48).toNat % 2 ^ 16 = 0x100)) = true ∧
    ((transiting .load 0 (fun c => { c with csr := c.csr.set 0xd48 0 })).csr.get 0xd48).toNat % 2 ^ 16 = 0 ∧
    (transiting .load 0 (fun c => { c with engine := .waking 5, cyc := 5 })).cyc = 5 := by decide +kernel

/-- Its limiter: cores that have reached the end of the step, after a `tmac`, a filler and nothing; QUIET met and not. -/
theorem witness_TransitTiming_slew : (
      let at' (k n : Nat) : State := coreWith (fun c => { c with slew := some k, slewIssued := n, slewEmpty := 2, time := 2 ^ 20 })
      [((0 : Nat), (2 : Nat)), (15, 2), (0, 1), (15, 1), (7, 0)].all (fun x =>
        let s := at' x.1 x.2
        s.cores.all (fun b => b.q % 8 != 7 || decide ((s.dieAt 7).boundary ≤ b.time)) && (s.coreAt 511).slew == some x.1 &&
        (s.coreAt 511).slewIssued == x.2) = true ∧
      ((at' 7 0).coreAt 511).slewEmpty + 1 < ((at' 7 0).dieAt 7).quiet ∧ ((coreWith (fun c => { c with slewEmpty := 63 })).dieAt 7).quiet ≤
        ((coreWith (fun c => { c with slewEmpty := 63 })).coreAt 511).slewEmpty) := by decide +kernel

/-- A command of the hart, as it issues. -/
def copyCmd (dst src : Word) (n : Nat) : EngineCmd := base.newCmd hart 3 0 (.copy dst src n) n

/-- Of `FencesPerformStores`: no command and no fault, a fault, an outstanding store and an outstanding atomic. -/
theorem witness_FencesPerformStores : base.hart? = some hart ∧ base.enginesOf hart.hid = [] ∧ hart.engineFaults = [] ∧ (
      let f : Hart → Hart := fun h => { h with engineFaults := [⟨0x5010, 0⟩] }
      (base' f).hart? = some (f hart) ∧ (base' f).enginesOf (f hart).hid = [] ∧ (f hart).engineFaults = ⟨0x5010, 0⟩ :: []) ∧ (
      let p : Pending := { vec := true, loc := 0x40002000, bytes := [1] }
      let a : Rmw := { op := .add, b := 7, dests := [.xreg 1 true] }
      let f : Hart → Hart := fun h => { h with pending := [p, { p with rmw := some a }] }
      (base' f).hart? = some (f hart) ∧ base.power = true ∧ (f hart).pending = p :: [{ p with rmw := some a }] ∧ p.rmw = none ∧
      (let f : Hart → Hart := fun h => { h with pending := [{ p with rmw := some a }] }
       (base' f).hart? = some (f hart) ∧ (f hart).pending = { p with rmw := some a } :: [])) := by decide +kernel

/-- Of `Landings`, the gang's own: no command outstanding, and one that cannot complete; a hart that has arrived and one that has not; tokens 0, 1, 32,767 and 32,768 phases old; waits in
the phase of the token and after it. -/
theorem witness_Landings : base.hart? = some hart ∧ base.gangOf hart = some gang ∧ base.enginesOf hart.hid = [] ∧ gang.arr.getLsbD hart.idx = false ∧ (
      let g : Gang := { gang with arr := 1 }
      let s : State := { base with gangs := [g] }
      s.gangOf hart = some g ∧ g.arr.getLsbD hart.idx = true) ∧
    [0, 1, 32767, 32768].all (fun n =>
      let s : State := { base with gangs := [{ gang with phase := BitVec.ofNat 16 (n + 7) }] }
      (s.gangOf hart).any (fun g => (g.phase - (hart.getX 5).setWidth 16).toNat == n)) = true ∧ (
      let f : Hart → Hart := fun h => { h with run := .lwait 1 0 none }
      (base' f).gangOf (f hart) = some gang ∧ (f hart).run = .lwait 1 0 none ∧ gang.phase = 0) ∧ (
      let f : Hart → Hart := fun h => { h with run := .lwait 1 7 none }
      (base' f).gangOf (f hart) = some gang ∧ (f hart).run = .lwait 1 7 none ∧ gang.phase ≠ 7) ∧ (base.release hart.hid).2 = true ∧
    (let s : State := { base with engines := [{ copyCmd 0 0 4 with work := .collective 2 [] 0 1 }] }
     s.hart? = some hart ∧ s.gangOf hart = some gang ∧ (s.release hart.hid).2 = false) := by decide +kernel

/-- The block forms: COUNT 0 and 2 at 0x2000, for both instructions. -/
theorem witness_Landings_blocks : [0, 2].all (fun n =>
    let s : State := { base with mem := tables ++ (if n = 0 then [] else [(0x40002000, BitVec.ofNat 8 n)]) }
    let good (r : State × Place) : Bool := r.2 == .mem 0x40002000 && r.1.engines == [] && r.1.harts.all (fun g => g.pending.isEmpty) &&
      !poisoned r.1.poison 0x40002000 8 && bits (peekNat r.1.mem 0x40002000 8) 23 0 == n &&
      (BitVec.ofNat 16 (bits (peekNat r.1.mem 0x40002000 8) 63 48) - (hart.getX 0).setWidth 16).toNat == 0
    okIs ((s.markFence hart.hid).place hart .atomic (hart.getX 7) 8) good &&
      okIs (s.place hart .scalarLoad (hart.getX 7) 8) (fun r => good r && okIs (r.1.place hart .scalarLoad (hart.getX 7) 8) good)) = true ∧
    base.engines = [] ∧ (∀ g ∈ base.harts, g.pending = []) ∧ pathOf (hart.getX 7) = 0 ∧ (hart.getX 7).toNat % 8 = 0 := by decide +kernel

/-- Of `RetireEndsTheHart`: the last hart of a gang, one that leaves another that has arrived or not, and one with an instruction at the gate. -/
theorem witness_RetireEndsTheHart : base.hart? = some hart ∧ (base.coreAt hart.q).outstanding hart.hid = false ∧
    (((base.setCore { base.coreAt 0 with gate := [charged 1] }).coreAt hart.q).outstanding hart.hid = true) ∧ base.gangOf hart = some gang ∧ base.launchAt gang.launch = some launch ∧
    (∀ k ∈ base.harts, k.hid = hart.hid ∨ k.q ≠ hart.q ∨ k.slot ≠ hart.slot) ∧ (
      let other : Hart := { hart with hid := 512, idx := 1 }
      [(0 : BitVec 4), 2].all (fun arr =>
        let s : State := { base with harts := [hart, other], gangs := [{ gang with live := 3, arr := arr }] }
        s.hart? == some hart && (s.gangOf hart).any (fun g => g.arr &&& 2 == arr) && s.harts.any (fun k =>
          k.hid != hart.hid && k.q == hart.q && k.slot == hart.slot))) = true := by decide +kernel

/-- Of `HintsAndLabels`: a queue of 31 entries and one of 32, with x0 = 0 and x5 = 7. -/
theorem witness_HintsAndLabels : base.hart? = some hart ∧ (
      let j : TransitJob := ⟨{}, .fill, 0, 1, 0, none⟩
      let s (n : Nat) : State := base.setCore { base.coreAt 0 with transit := List.replicate n j }
      (s 31).hart? = some hart ∧ (s 31).transitRoom hart = true ∧ (s 32).hart? = some hart ∧ (s 32).transitRoom hart = false) ∧
    (hart.getX 0).toNat = 0 ∧ 0 < (hart.getX 5).toNat := by decide +kernel

/-- The bucket of `HintsAndLabels`, whatever number of cycles passes: an empty one has room for x5 = 7, and a full one that does not leak
has none. -/
theorem witness_HintsAndLabels_bucket : (
      let c := (base.passTime hart.q).coreAt hart.q
      min (hart.getX 5).toNat ((c.csr.get 0xd40).toNat % 2 ^ 32) + c.level ≤ (c.csr.get 0xd40).toNat % 2 ^ 32) ∧ (
      let s := base.setCore { base.coreAt 0 with csr := (base.coreAt 0).csr.set 0xd41 0, level := 0x10000 }
      let c := (s.passTime hart.q).coreAt hart.q
      s.hart? = some hart ∧ (c.csr.get 0xd40).toNat % 2 ^ 32 < min (hart.getX 5).toNat ((c.csr.get 0xd40).toNat % 2 ^ 32) + c.level) := by
  have calm {level : Nat} {csr : SMap 64} {s : State} (h : Laws.bucket (s.coreAt hart.q) = (hart.q, [], level, csr))
      (hl : level - (csr.get 0xd41).toNat % 2 ^ 16 = level) :
      ((s.passTime hart.q).coreAt hart.q).csr = csr ∧ ((s.passTime hart.q).coreAt hart.q).level = level := by
    have := Laws.Calm.passTime (s := s) (p := hart.q) h hart.q hl
    simp only [Laws.Calm, Laws.bucket, Prod.mk.injEq] at this
    exact ⟨this.2.2.2, this.2.2.1⟩
  refine ⟨?_, by decide +kernel, ?_⟩
  · obtain ⟨hc, hl⟩ := calm (s := base) (level := 0) (csr := (base.coreAt 0).csr) (by decide +kernel) (by decide +kernel)
    simp only [hc, hl]; decide +kernel
  · obtain ⟨hc, hl⟩ := calm (s := base.setCore { base.coreAt 0 with csr := (base.coreAt 0).csr.set 0xd41 0, level := 0x10000 })
      (level := 0x10000) (csr := (base.coreAt 0).csr.set 0xd41 0) (by decide +kernel) (by decide +kernel)
    simp only [hc, hl]; decide +kernel

/-- Of `TranslationsOnlyMark`: a store to a page whose leaf has A and D clear, and a load. -/
theorem witness_TranslationsOnlyMark : (
      let s : State := { base with mem := [(0x10002, 2), (0x10007, 0x80), (0x20002, 3), (0x20007, 0x80), (0x30003, 0x40), (0x30007, 0xf8)] }
      s.engines = [] ∧ (∀ g ∈ s.harts, g.pending = []) ∧ s.tlb = [] ∧ okIs (s.translate hart .store 0x3fffffff) (fun r => r.2 == 0x7fffffff &&
        r.1.byte 0x30007 == 0xfb) = true ∧ okIs (s.translate hart .load 0) (fun r => r.1.byte 0x30007 == 0xfa) = true) := by decide +kernel

/-- Of `ScalarLoads`: an address that is not aligned, a path that does not admit the load, an unmapped page, a device register, a
poisoned place, a good one and one on path 3. -/
theorem witness_ScalarLoads : base.hart? = some hart ∧ (hart.getX 7 + BitVec.ofInt 64 ((1 : BitVec 12).toInt * 2)).toNat % 2 = 0 ∧
    (0x2001 : Nat) % 2 ≠ 0 ∧ (Use.scalarLoad).admits (pathOf (hart.getX 7)) (hart.priv != .u) = true ∧
    (Use.scalarLoad).admits (pathOf 0xe000000000000000) (hart.priv != .u) = false ∧
    errIs (base.place hart .scalarLoad 0x40000000 8) (fun f => f == 0) = true ∧
    okIs (base.place { hart with priv := .s } .scalarLoad 0xa000000000200000 8) (fun r => r.2 == .dev 0x200000) = true ∧
    okIs (base.place hart .scalarLoad (hart.getX 7) 8) (fun r => r.2 == .mem 0x40002000 && r.1.engines == [] &&
      r.1.harts.all (fun g => g.pending.isEmpty) && !poisoned r.1.poison 0x40002000 8) = true ∧
    okIs (({ base with poison := [(0x40002000 / 32, none)] } : State).place hart .scalarLoad (hart.getX 7) 8) (fun r =>
      poisoned r.1.poison 0x40002000 8) = true ∧
    okIs (base.place hart .scalarLoad 0x6000000000002000 8) (fun r => r.2 == .mem 0x40002000) = true ∧ pathOf 0x6000000000002000 = 3 := by
  decide +kernel

/-- Of `ScalarStores`. -/
theorem witness_ScalarStores : base.hart? = some hart ∧ (Use.scalarStore).admits (pathOf (hart.getX 7)) (hart.priv != .u) = true ∧
    (Use.scalarStore).admits (pathOf 0x6000000000000000) (hart.priv != .u) = false ∧
    errIs (base.place hart .scalarStore 0x40000000 8) (fun f => f == 0) = true ∧
    okIs (base.place { hart with priv := .s } .scalarStore 0xa000000000200000 8) (fun r => r.2 == .dev 0x200000) = true ∧
    okIs (base.place hart .scalarStore (hart.getX 7) 8) (fun r => r.2 == .mem 0x40002000 && r.1.engines == [] &&
      r.1.harts.all (fun g => g.pending.isEmpty) && r.1.hart? == some hart) = true := by decide +kernel

/-- Of `ScalarAtomics`: aligned at both widths, and at 0x2004 aligned for a word alone; path 3, which admits none; a float form without a flag and one that enables
the flag it raises. -/
theorem witness_ScalarAtomics : base.hart? = some hart ∧ base.engines = [] ∧ (∀ g ∈ base.harts, g.pending = []) ∧
    [(hart.getX 7, 8), (hart.getX 8, 4)].all (fun (va, n) => [base, base.markFence hart.hid].all (fun s => okIs (s.place hart .atomic va n) (fun r => r.2 == .mem (0x40000000 + va.toNat) &&
      r.1.engines == [] && r.1.harts.all (fun g => g.pending.isEmpty) && !poisoned r.1.poison (0x40000000 + va.toNat) n))) = true ∧
    okIs (base.place hart .atomic (hart.getX 8) 8) (fun r => r.2 == .mem 0x40002004 && r.1.engines == [] &&
      r.1.harts.all (fun g => g.pending.isEmpty) && !poisoned r.1.poison 0x40002004 8) = true ∧
    (hart.getX 7).toNat % 8 = 0 ∧ (hart.getX 8).toNat % 4 = 0 ∧ (hart.getX 8).toNat % 8 ≠ 0 ∧
    (Use.atomic).admits (pathOf (hart.getX 8)) (hart.priv != .u) = true ∧ (Use.atomic).admits (pathOf 0x6000000000000000) (hart.priv != .u) = false ∧
    hart.fen &&& (fAdd f32 0 (f32.decode 0) (f32.decode 7)).2 = 0 ∧
    trapFlag 0x10 (fAdd f32 0 (f32.decode 0x7f800000) (f32.decode 0xff800000)).2 = some 4 := by decide +kernel

/-- The checks of a vector instruction pass, its plates are present, and its streams give their elements. -/
def ready (v : Vec) (s : State) (h : Hart) : Bool :=
  v.fault? h == none && h.absent (v.ops.map (fun o => h.apt o.n)) == none && (!v.valueAp.isSome || v.late? h == none) &&
    (v.feed s h).stop.isNone && (!v.valueStreamed h || v.value (v.feed s h).h (v.rc * v.vl) == none)

theorem ready_iff (v : Vec) (s : State) (h : Hart) : ready v s h = true → v.Ready s h := by
  intro hr
  simp only [ready, Bool.and_eq_true, beq_iff_eq, Bool.or_eq_true, Bool.not_eq_true'] at hr
  exact ⟨hr.1.1.1.1, hr.1.1.1.2, fun hs => hr.1.1.2.resolve_left (by simp [hs]), Option.isNone_iff_eq_none.mp hr.1.2,
    fun hs => hr.2.resolve_left (by simp [hs])⟩

/-- A load of ap1 at X9's new value: the checks pass, and the elements end as the test says. -/
def loadEnds (va : Word) (p : List (Nat × List Nat) → Option ElFault → Bool) : Bool :=
  let f : Hart → Hart := fun h => h.setX 9 va
  let s := base' f
  let h := f hart
  let m := unitForm true 1 9 0 0 h
  let v := m.vec h
  let f := v.feed s h
  let r := m.loadEls h (h.apt m.ap).ty (fun i n => m.addr f.h (i / h.vl) (i % h.vl) n) (v.todo h f) f.s f.blocks
  s.hart? == some h && m.load && ready v s h && (f.sum h.fen (v.todo h f) 0).2 == none && r.stop.all (fun e => e.miss.f != notReady) &&
    p r.els r.stop

/-- Of `VectorLoads`: no fault; a fault of the first element, of the third of row 0, and of the first of row 1; a failed check, of an
entry with V = 0. -/
theorem witness_VectorLoads : loadEnds 0x2000 (fun els e => els.length == 8 && e.isNone) = true ∧
    loadEnds 0x40000000 (fun els e => els.isEmpty && e.any (fun e => e.miss.f == 0 && e.i == 0)) = true ∧
    loadEnds 0x3ffffffc (fun els e => els.length == 2 && e.any (fun e => e.miss.f == 0 && e.i == 2)) = true ∧
    loadEnds 0x3ffffff8 (fun els e => els.length == 4 && e.any (fun e => e.miss.f == 0 && e.i == hart.vl)) = true ∧
    ((unitForm true 63 9 0 0 hart).vec hart).fault? hart = some { code := 0x1110, tap := some 63 } := by decide +kernel

/-- Of `GalleryLoadFillsTheAperture`: 16 bytes that end where the allocation of 2 MiB ends. -/
theorem witness_GalleryLoadFillsTheAperture : (
      let f : Hart → Hart := fun h => h.setX 9 0x20000000001ffff0
      let h := f hart
      let ea := (h.getX 9 + BitVec.ofInt 64 ((0 : BitVec 12).toInt * 2 ^ (0 : BitVec 3).toNat)).toNat
      (base' f).hart? = some h ∧ (base' f).gangOf h = some gang ∧ (base' f).engines = [] ∧ (∀ g ∈ (base' f).harts, g.pending = []) ∧
      (base' f).poison = [] ∧ h.swi = 0 ∧ ready ((unitForm true 1 9 0 0 h).vec h) (base' f) h = true ∧ 1 ≤ tyWidth (h.apt 1).ty / 8 ∧ ea / 2 ^ 61 = 1 ∧
      ea % 2 = 0 ∧ ea % 2 ^ 61 + h.rc * h.vl * 2 = gang.galSize ∧ gang.galSize ≤ 2 ^ 21 ∧
      snapshot h.bh h.vl h.rc (h.apt 1) [h.apt 1] = false) := by decide +kernel

/-- A store of ap1 in the same way. -/
def storeEnds (va : Word) (p : Option ElFault → Bool) : Bool :=
  let f : Hart → Hart := fun h => h.setX 9 va
  let s := base' f
  let h := f hart
  let m := unitForm false 1 9 0 0 h
  let v := m.vec h
  let f := v.feed s h
  let r := m.storeEls f.h (h.apt m.ap).ty (v.todo h f) (f.s, ⟨none, none⟩)
  s.hart? == some h && !m.load && ready v s h && (f.sum h.fen (v.todo h f) 0).2 == none && r.2.all (fun e => e.miss.f != notReady) && p r.2

/-- Of `VectorStores`: no fault, a fault of the third element, a failed check. -/
theorem witness_VectorStores : storeEnds 0x2000 (fun e => e.isNone) = true ∧
    storeEnds 0x3ffffffc (fun e => e.any (fun e => e.miss.f == 0 && e.i == 2)) = true ∧
    ((unitForm false 63 9 0 0 hart).vec hart).fault? hart = some { code := 0x1110, tap := some 63 } := by decide +kernel

/-- Its store into the gallery: 16 bytes that end where the allocation of 2 MiB ends. -/
theorem witness_VectorStores_gallery : (
      let f : Hart → Hart := fun h => h.setX 9 0x20000000001ffff0
      let h := f hart
      let ea := (h.getX 9 + BitVec.ofInt 64 ((0 : BitVec 12).toInt * 2 ^ (0 : BitVec 3).toNat)).toNat
      (base' f).hart? = some h ∧ (base' f).gangOf h = some gang ∧ (base' f).engines = [] ∧ (∀ g ∈ (base' f).harts, g.pending = []) ∧
      (base' f).poison = [] ∧ h.swi = 0 ∧ ready ((unitForm false 1 9 0 0 h).vec h) (base' f) h = true ∧ (h.apt 1).sb = false ∧
      1 ≤ tyWidth (h.apt 1).ty / 8 ∧ ea / 2 ^ 61 = 1 ∧ ea % 2 = 0 ∧ ea % 2 ^ 61 + h.rc * h.vl * 2 = gang.galSize ∧ gang.galSize ≤ 2 ^ 21) := by
  decide +kernel

/-- Of `StreamsAndTranslation`: an address that is no multiple of 32; a record of zeros, and one of format 11; translations of two
positions through a table, the first good and the second bad, and through one whose entries fault, at the first and at the second. -/
theorem witness_StreamsAndTranslation : base.hart? = some hart ∧ (hart.getX 5).toNat % 32 ≠ 0 ∧ (hart.getX 7).toNat % 32 = 0 ∧
    okIs (base.loadRecord hart 0x2020 32) (fun r => badRecord r.2 == false) = true ∧
    okIs (({ base with mem := tables ++ [(0x40002018, 11)] } : State).loadRecord hart (hart.getX 7) 32) (fun r => badRecord r.2) = true ∧ (
      let f (xt : Word) (nb : Word) (h : Hart) : Hart :=
        { h with x := [(1, xt), (2, nb)], plane := [(14336 + 2, 1)], vl := 2, ap := h.ap.set 10 (rect 5 20 0 1 4) }
      let out (xt nb : Word) (ff : Bool) : Bool × State × Hart × XlatEnd :=
        let h := f xt nb hart
        let v := xlatVec ⟨0, false⟩ 1 10 8 1 2 h
        let fd := v.feed (base' (f xt nb)) h
        (ready v (base' (f xt nb)) h && (fd.sum h.fen (v.todo h fd) 0).2 == none,
          xlatEls ⟨h.getX 1, bits nb.toNat 31 0, 0, 0⟩ ff 1 (h.apt 10) (h.apt 8) fd.h true (v.todo h fd) fd.s fd.h)
      (out 0x2100 1 false).1 = true ∧ (out 0x2100 1 false).2.2.2 = .all ∧ (out 0x2100 1 true).2.2.2 = .bad 1 ∧
      (out 0x40000000 2 false).1 = true ∧ (out 0x40000000 2 false).2.2.2 = .fault 0 true 0 0x40000000 ∧
      (out 0x3ffffffc 2 false).1 = true ∧ (out 0x3ffffffc 2 true).2.2.2 = .fault 1 false 0 0x40000000 ∧ (0 : Nat) ≠ notReady) ∧
    ((-1 : Int) < 0 ∧ (1 * 2 ^ 0 : Nat) ≤ (1 : Int)) := by decide +kernel

/-- A vector atomic on s32 with addresses X9 + index: its elements, and what its checks answer. -/
def vamEnds (va : Word) (p : State → Hart → Fed → Apt → List (Nat × Word) → Bool) : Bool :=
  let f : Hart → Hart := fun h => { h with x := [(9, va)], plane := [(14336 + 2, 4)], vl := 2, rc := 1, ap := h.ap.set 10 (rect 4 20 0 1 4) }
  let s := base' f
  let h := f hart
  let v := vamVec false true ⟨0, false⟩ 10 10 8 h
  let fd := v.feed s h
  s.hart? == some h && ready v s h && (fd.sum h.fen (v.todo h fd) 0).2 == none &&
    p fd.s h fd (h.apt 10) ((v.todo h fd).map (fun i => (i, h.getX 9 + fd.h.indexAt 8 (i / h.vl) (i % h.vl))))

/-- Of `VectorAtomics`: a failed check; an address that faults; two good addresses. -/
theorem witness_VectorAtomics : (vamVec false true ⟨0, false⟩ 63 63 8 hart).fault? hart = some { code := 0x1110, tap := some 63 } ∧
    vamEnds 0x3ffffffc (fun s h _ _ els => (s.vamCheck h els).2 == some (1, 0, 0x40000000)) = true ∧
    vamEnds 0x2004 (fun s h fd a els => els.length == 2 && (s.vamCheck h els).2.isNone && ((s.vamCheck h els).1.releaseIf 0 h.hid).2 &&
      (vamSteps a.ty 0 false h fd.h a els (distinct els) ((s.vamCheck h els).1.releaseIf 0 h.hid).1).any (fun r =>
        h.fen &&& r.2.foldl (fun f x => f ||| x.2.2) 0 == 0)) = true := by
  decide +kernel

/-- Its enabled flag: the first of two floating elements adds +∞ to a word that holds −∞. -/
theorem witness_VectorAtomics_flag : (
      let f : Hart → Hart := fun h => { h with x := [(9, 0x2000)], plane := [(14336 + 2, 4), (20480 + 1, 0x7f80)], vl := 2, rc := 1, ap := h.ap.set 10 (rect 8 20 0 1 4), csr := [(0xc04, 0x10), (0xd10, 0x10000)] }
      let s : State := { base' f with mem := tables ++ [(0x40002002, 0x80), (0x40002003, 0xff)] }
      let h := f hart
      let v := vamVec true true ⟨0, false⟩ 10 10 8 h
      let fd := v.feed s h
      let els := (v.todo h fd).map (fun i => (i, h.getX 9 + fd.h.indexAt 8 (i / h.vl) (i % h.vl)))
      s.hart? = some h ∧ ready v s h = true ∧ (fd.sum h.fen (v.todo h fd) 0).2 = none ∧ (fd.s.vamCheck h els).2 = none ∧
      els.map (fun x => x.2) = [0x2000, 0x2004] ∧
      (vamSteps 8 0 false h fd.h (h.apt 10) els (distinct els) ((fd.s.vamCheck h els).1.releaseIf 0 h.hid).1).any (fun r =>
        h.fen &&& r.2.foldl (fun f x => f ||| x.2.2) 0 != 0 && trapFlag h.fen (fd.flags 0 ||| flagsAt r.2 0x2000) == some 4) = true) ∧
    okIs (base.place hart .atomic 0x2000 4) (fun r => r.2 == .mem 0x40002000 && r.1.engines == [] && r.1.harts.all (fun g => g.pending.isEmpty) &&
      !poisoned r.1.poison 0x40002000 4) = true ∧ (hart.apt 8).ty ∈ [4, 5] := by decide +kernel

/-- Of `AccumulationWindows`: windows of 4 and of 8,192 bytes and one of 8,196; an update, a merge, and windows not declared. -/
theorem witness_AccumulationWindows : base.hart? = some hart ∧
    [(4, true), (8192, true), (8196, false), (0, false)].all (fun p => (decide (p.1 % 4 = 0 ∧ 4 ≤ p.1 ∧ p.1 ≤ 8192 ∧ 0 % 128 = 0 ∧
      0 + 128 * p.1 ≤ ((base.gangOf hart).map (fun g => g.galSize)).getD 0)) == p.2) = true ∧
    okIs (base.save hart true .vecStore (BitVec.ofNat 64 (2 ^ 61 + 0)) (List.replicate 128 (leBytes 4 0)).flatten) (fun _ => true) = true ∧ (
      let w : Window := ⟨0x2000, 4, 0, 0, 4⟩
      let f : Hart → Hart := fun h => { h with windows := [(3, w)], vl := 1, rc := 1, ap := h.ap.set 10 (rect 4 20 0 1 4) }
      let s := base' f
      let h := f hart
      let v := awaccVec 3 ⟨0, false⟩ 8 10 h
      s.hart? = some h ∧ ready v s h = true ∧ find h.windows 3 = some w ∧ find h.windows 0 = none ∧
      (let fd := v.feed s h
       (fd.sum h.fen (v.todo h fd) 0).2 = none ∧ okIs (State.accumulate h fd.h w 10 8 (v.todo h fd) fd.s) (fun _ => true)) ∧
      (s.releaseIf 0 h.hid).2 = true ∧ okIs ((s.releaseIf 0 h.hid).1.mergeWords h w false false (w.len / 4)) (fun _ => true) = true) ∧
    hart.getX 0 = 0 ∧ hart.getX 5 ≠ 0 ∧ okIs ((base.markFence hart.hid).place hart .atomic (hart.getX 7) 8) (fun r => r.2 == .mem 0x40002000 && r.1.engines == [] &&
      r.1.harts.all (fun g => g.pending.isEmpty) && !poisoned r.1.poison 0x40002000 8) = true ∧ (hart.getX 7).toNat % 8 = 0 := by decide +kernel

/-- Its merge, whose second word has no place: the word before it, from its 128 copies. -/
theorem witness_AccumulationWindows_merge : (
      let w : Window := ⟨0x3ffffffc, 8, 0, 0, 4⟩
      let h : Hart := { hart with windows := [(3, w)] }
      let s := base' (fun h => { h with windows := [(3, w)] })
      s.hart? = some h ∧ find h.windows 3 = some w ∧ (s.releaseIf 0 h.hid).2 = true ∧
      (match (s.releaseIf 0 h.hid).1.mergeWords h w false false (w.len / 4) with
        | .error (e, va) => e == 0 && va == 0x40000000
        | .ok _ => false) = true ∧ w.op = 0 ∧ w.ty ∈ [4#4, 5#4] ∧
      okIs (s.copies h w 0 128) (fun r => r.2.length == 128 && r.1.engines == [] && r.1.harts.all (fun g => g.pending.isEmpty) &&
        okIs (r.1.place h .atomic (w.base + BitVec.ofNat 64 (4 * 0)) 4) (fun r => r.2 == .mem 0x7ffffffc && r.1.engines == [] &&
          r.1.harts.all (fun g => g.pending.isEmpty) && !poisoned r.1.poison 0x7ffffffc 4)) = true ∧
      okIs (s.clearCopies h w 0 127) (fun u => okIs (u.save h true .vecStore (BitVec.ofNat 64 (2 ^ 61 + w.gal + 127 * w.len)) (leBytes 4 w.ident)) (fun _ => true)) = true) := by
  decide +kernel

/-- A sweep completes: its checks pass, its streams give their elements, and none of its flags is enabled. -/
def completes (v : Vec) (s : State) (h : Hart) : Bool :=
  ready v s h && h.fen &&& (v.result h (v.feed s h)).2 == 0

/-- The hart of the sweeps' witnesses: 3 and 0x7FFF in ap2, 1 and 1 in ap3, FEN as given. -/
def sums (fen : Word) (swi : Nat) (h : Hart) : Hart :=
  { h with plane := [(2048, 3), (2049, 0x7fff), (4096, 1), (4097, 1)], csr := [(0xc04, fen), (0xd10, 0x10000)], swi := swi }

/-- The sweep of an instruction, at a hart. -/
def sweepOf (i : Instr) (h : Hart) : Option Vec := i.sweep?.map (fun r => r.2 h)

/-- A stream of s16 elements 0 at 0x2100, without a scale stream. -/
def evens : Stream := { base := 0x2100, estr := 2, rstr := 8, rlen := 4, limit := 0xffffffff, fmt := 2, scl := 0, pos := 0, ahead := 0 }

/-- The same of the sweep of an instruction, as the hart meets it. -/
def sweeps (f : Hart → Hart) (i : Instr) : Bool :=
  match i.sweep? with
  | none => false
  | some (_, v) => completes (Vec.met v (base' f) (f hart)) (Vec.entry v (base' f) (f hart)) (f hart)

/-- Of `SweepsComplete`: a sweep that is no link of a chain, a failed check, a bad value (an even factor) in an entry and in a stream's elements, and completion. -/
theorem witness_SweepsComplete : (base' (sums 0 0)).hart? = some (sums 0 0 hart) ∧
    (sweepOf (.vceq 1 2 3 0) hart).any (fun v => !v.link) = true ∧
    (sweepOf (.vadd 63 2 3 0) hart).any (fun v => v.fault? hart == some { code := 0x1110, tap := some 63 }) = true ∧
    (sweepOf (.rmulo 1 2 3 0) hart).any (fun v => let u := Vec.met (fun _ => v) base hart
      u.fault? hart == none && hart.absent (u.ops.map (fun o => hart.apt o.n)) == none && u.valueAp.isSome && (u.late? hart).isSome) = true ∧
    (let f : Hart → Hart := fun h => { h with ap := h.ap.set 3 ((h.ap.get 3).setWidth 64 ||| 0x20000), streams := [(0, evens)] }
     let s := base' f
     let h := f hart
     s.hart? = some h ∧ (sweepOf (.rmulo 1 2 3 0) h).any (fun v => let u := Vec.met (fun _ => v) s h
       u.fault? h == none && hart.absent (u.ops.map (fun o => h.apt o.n)) == none && u.valueAp.isSome && u.late? h == none && u.valueStreamed h &&
       (u.value (u.feed s h).h (u.limit (u.feed s h))).isSome) = true) ∧
    ([Instr.vadds 1 2 3 0, .efcget 0 false 4, .vceq 1 2 3 0, .vfdiv 4 5 6 0]).all (sweeps (sums 0 0)) = true := by decide +kernel

/-- The job at the gate after an instruction takes 8 times the cycles of R79 for a quotient in f32 and 4 times for one in bf16; a sum takes them
once (R149). -/
theorem test_passes_of_division : [(Instr.vfdiv 4 5 6 0, 8), (.vfrcp 7 7 0, 4), (.vfadd 4 5 6 0, 1)].all (fun x =>
    nextIs (exec x.1 base) (fun t => (t.coreAt 0).gate.map (fun j => j.shape) == [.row x.2])) = true := by decide +kernel

/-- Of `EnabledFlagStopsTheSweep`: SAT enabled, at index 1 of a sweep from 0 and at the first index of one from 1; NV of 0 ÷ 0. -/
theorem witness_EnabledFlagStopsTheSweep : (
    let h := sums 0x10 0 hart
    (base' (sums 0x10 0)).hart? = some h ∧ (sweepOf (.vfdiv 4 5 6 0) h).any (fun v =>
      let u := Vec.met (fun _ => v) (base' (sums 0x10 0)) h
      let f := u.feed (base' (sums 0x10 0)) h
      ready u (base' (sums 0x10 0)) h && u.first h == 0 && decide (0 < u.rc * u.vl) && u.act 0 0 &&
      trapFlag h.fen ((u.el f.h f.h 0 0).2 ||| f.flags 0) == some 4) = true) ∧ [(0, 1), (1, 0)].all (fun p =>
    let h := sums 0x20 p.1 hart
    (base' (sums 0x20 p.1)).hart? == some h && (sweepOf (.vadds 1 2 3 0) h).any (fun v =>
      let u := Vec.met (fun _ => v) (base' (sums 0x20 p.1)) h
      let f := u.feed (base' (sums 0x20 p.1)) h
      let k := u.first h + p.2
      let a := u.fold f (u.first h) p.2 (f.h, 0)
      ready u (base' (sums 0x20 p.1)) h && k == 1 && decide (k < u.rc * u.vl) && h.fen &&& a.2 == 0 && u.act (k / u.vl) (k % u.vl) &&
      trapFlag h.fen ((u.el f.h a.1 (k / u.vl) (k % u.vl)).2 ||| f.flags k) == some 5)) = true := by decide +kernel

/-- Of `SweepFrame`, with a full mask and under k1, of sweeps that write a full sweep, a row, a reduction or no cell. -/
theorem witness_SweepFrame : (base' (sums 0 0)).hart? = some (sums 0 0 hart) ∧
    ([Instr.vadds 1 2 3 0, .vfdiv 4 5 6 0, .vadds 1 2 3 1, .vredsum 1 2 0, .vceq 1 2 3 0, .vmin 1 2 3 0, .efcput 0 false 5, .efcget 0 false 4, .vsplat 0 false 1 5] : List Instr).all (fun i =>
      (sweepOf i (sums 0 0 hart)).any (fun v => !v.streamed (sums 0 0 hart)) && sweeps (sums 0 0) i &&
      ((i.writes? (sums 0 0 hart)).isSome == ([Instr.vceq 1 2 3 0, .efcput 0 false 5].all (fun j => i != j)))) = true := by decide +kernel

/-- Of `IntegerElements`: the extreme elements of the narrowest and the widest type; `vfneg` of one width, `vext` and `vnclip`. -/
theorem witness_IntegerElements : (0 : Nat) ≤ 5 ∧ 255 < 2 ^ tyWidth 0 ∧ (5 : Nat) ≤ 5 ∧ 0xffffffff < 2 ^ tyWidth 5 ∧
    tyWidth (hart.apt 2).ty = tyWidth (hart.apt 1).ty ∧ (hart.apt 1).ty ≤ 10 ∧
    convertTypes .vext (hart.apt 8).ty (hart.apt 2).ty (hart.apt 1).ty = true ∧
    convertTypes .vnclip (hart.apt 2).ty (hart.apt 8).ty (hart.apt 1).ty = true ∧ hart.mode 0xc02 ≤ 4 := by decide +kernel

/-- Of `RoundingAndFloats`: a quiet and a signalling NaN, both infinities, both zeros, a negative finite number; a tie, exact values and
others in rounding; f32 to bf16 toward zero and back, and a floating value to an integer. -/
theorem witness_RoundingAndFloats : 0xffffffff < 2 ^ tyWidth 8 ∧ (f32.decode 0x7fc00000).isNaN = true ∧ f32.decode 0x7f800001 = .nan true ∧
    f32.decode 0x7f800000 = .inf false ∧ f32.decode 0xff800000 = .inf true ∧ (match f32.decode 0x80000000 with
      | .fin e => e.m == 0
      | _ => false) = true ∧ (match f32.decode 0xbf800000 with
      | .fin e => e.m != 0 && e.neg
      | _ => false) = true ∧ 2 * ((3 : Int) - 1 * 2 ^ 1).natAbs = 2 ^ 1 ∧ (4 : Int) % 2 ^ 1 = 0 ∧ (3 : Int) % 2 ^ 1 ≠ 0 ∧
    (hart.apt 7).ty = 7 ∧ (hart.apt 4).ty = 8 ∧ (⟨{ hart with csr := [(0xc01, 1)] }, 0⟩ : Hart × Nat).1.mode 0xc01 = 1 ∧
    bf16.decode 0x7f81 = .nan true ∧ (bf16.decode 0x3f80).isNaN = false ∧
    tyFloat (hart.apt 4).ty = true ∧ tyInt (hart.apt 1).ty = true ∧ hart.mode 0xc02 ≤ 4 := by decide +kernel

/-- The hart of the chain's witnesses: SEGLEN 1 and τ 1, a bf16 factor 1 beside 3 in ap13 and ap14, the factor 1 and an output in ap4 and
ap5, the scores 3 in the latch, no row enabled or all. -/
def chained (km : BitVec 256) (h : Hart) : Hart :=
  { h with
    ap := h.ap ++ [(13, rect 7 20 0 2 4), (14, rect 7 22 0 2 4), (15, rect 8 24 0 1 12)], km := km
    csr := [(0xc50, 0x3f800001), (0xd10, 0x10000)], cl := [(0, 0x40400000), (16, 0x40400000)]
    plane := ((h.setEl (Apt.ofWord (rect 7 20 0 2 4)) 0 0 0x4040).setEl (Apt.ofWord (rect 7 22 0 2 4)) 0 0 0x3f80
      |>.setEl (Apt.ofWord (rect 8 24 0 1 12)) 0 0 0x40400000 |>.setEl (Apt.ofWord (rect 8 24 0 1 12)) 0 8 0x3f800000).plane }

/-- Of `ReductionAndChainElements`: sums, extremes with and without active elements, a score, equal maxima, and an output kept. -/
theorem witness_ReductionAndChainElements : reduceTypes .vredsum (hart.apt 1).ty (hart.apt 2).ty = true ∧
    0 < ((List.range hart.vl).filter (fun e => decide (e = 0))).length ∧ 0 < hart.vl ∧ (hart.apt 1).ty ≤ 5 ∧ (hart.apt 2).ty = (hart.apt 1).ty ∧
    (let h := chained (BitVec.allOnes 256) hart
     h.seglen = 1 ∧ (h.apt 13).ty = 7 ∧ (h.apt 14).ty = 7 ∧ h.guardBit ⟨0, false⟩ 0 = true ∧ h.getEl (h.apt 14) 0 0 = 0x3f80 ∧
     (match bf16.decode (h.getEl (h.apt 13) 0 0) with
      | .fin y => y.m != 0
      | _ => false) = true ∧
     (f32.decode (h.getEl (h.apt 15) 0 0)).isNaN = false ∧ (List.range h.rc).all (fun r => h.getCL r 0 == h.getEl (h.apt 15) 0 0) = true ∧
     (match f32.decode 0x40400000 with
      | .fin _ => true
      | _ => false) = true) ∧
    (let h := chained 0 hart
     (List.range h.rc).all (fun r => !h.km.getLsbD r) = true ∧ h.getEl (h.apt 15) 0 (2 * h.heads + 0 / h.seglen) = 0x3f800000 ∧
     (match f32.decode (h.getEl (h.apt 15) 0 0) with
      | .fin y => y.m != 0
      | _ => false) = true) := by decide +kernel

/-- Of `MaskLogicAndCompares`: a compare that is ready, VL 4 and VL 1,024 in a type of 4 bits. -/
theorem witness_MaskLogicAndCompares : base.hart? = some hart ∧ (
      let v := compareVec ⟨.vclt, kField 7, 2, 3⟩ (maskGuard 0) hart
      ready v base hart = true ∧ v.streamed hart = false ∧ hart.swi = 0 ∧ hart.vl ≤ 1024 ∧ (7 : KReg) ≠ 0) := by decide +kernel

/-- Of `PairsCommitTogether`: a failed check, completion and a stop, under a guard whose bit 0 is 1 and one whose bit 0 is 0. -/
theorem witness_PairsCommitTogether : (
      let f : Hart → Hart := fun h => { h with k := [(1, 1)] }
      let h := f hart
      (base' f).hart? = some h ∧ ((h.getK 1).getLsbD 0 != false) = true ∧ ((h.getK 1).getLsbD 0 != true) = false ∧
      ((⟨.vadd, 63, 2, 3⟩ : AHalf).sweep? ⟨1, false⟩).any (fun v => ((Vec.met v (base' f) h).fault? h).isSome) = true ∧
      ((forwardVec ⟨.rfmul, 63, 5, 6⟩ ⟨1, false⟩ h).fault? h).isSome = true ∧ ((undoVec ⟨.ufmul, 63, 4, 6⟩ ⟨1, false⟩ [] h).fault? h).isSome = true ∧
      [false, true].all (fun gs => [(⟨.vadd, 1, 2, 3⟩ : AHalf), ⟨.vfdiv, 4, 5, 6⟩].all (fun a =>
        (a.sweep? ⟨1, gs⟩).any (fun v => completes (Vec.met v (base' f) h) (Vec.entry v (base' f) h) h))) = true) ∧ (
      let f : Hart → Hart := fun h => { sums 0x20 0 h with k := [(1, 0xf)] }
      let h := f hart
      let s := base' f
      s.hart? = some h ∧ ((⟨.vadds, 1, 2, 3⟩ : AHalf).sweep? ⟨1, false⟩).any (fun w =>
        let v := Vec.met w s h
        let s1 := Vec.entry w s h
        let fd := v.feed s1 h
        let a := v.fold fd (v.first h) 1 (fd.h, 0)
        ready v s1 h && v.first h == 0 && decide (1 < v.rc * v.vl) && h.fen &&& a.2 == 0 && v.act (1 / v.vl) (1 % v.vl) &&
          trapFlag h.fen ((v.el fd.h a.1 (1 / v.vl) (1 % v.vl)).2 ||| fd.flags 1) == some 5) = true) := by decide +kernel

/-- Of `ReversibleElements`: an odd factor; bf16, f32 and 32-bit operands, an escape, and a NaN and a finite number toward zero. -/
theorem witness_ReversibleElements : (5 : Nat) ≤ 5 ∧ 0xffffffff < 2 ^ tyWidth 5 ∧ 0xffffffff % 2 = 1 ∧ 0xffff < 2 ^ tyWidth 7 ∧
    0xffffffff < 2 ^ tyWidth 8 ∧ (forwardEl .rfmul hart 8 8 8 0x7f800000 0x3f800000).2.2.2 = true ∧ (f32.decode 0x7fc00000).isNaN = true ∧
    (⟨{ hart with csr := [(0xc01, 1)] }, 0⟩ : Hart × Nat).1.mode 0xc01 = 1 ∧ (match f32.decode 0x3f800001 with
      | .fin _ => true
      | _ => false) = true := by decide +kernel

/-- Of `PopReturnsThePush`: an empty stair at 0 whose share of 4,096 bytes the record just fills. -/
theorem witness_PopReturnsThePush : hart.noSpill = true ∧ hart.ven = false ∧ hart.stp % 32 = 0 ∧ hart.stair.low.toNat ≤ hart.stp ∧ hart.stb ≤ hart.stp ∧
    (let payload : List Byte := List.replicate 4064 0xff
     hart.stp + payload.length + 32 = hart.stb + hart.share ∧ hart.stb + hart.share < 2 ^ 64 ∧ payload.length % 32 = 0 ∧ payload.length < 2 ^ 32) ∧
    0xffff < 2 ^ 16 ∧ 0xffffffff < 2 ^ 32 ∧ 16 * 1024 < 2 ^ 32 := by decide +kernel

/-- The hart of the pushes: 1.5 in ap5, 2.0 in ap6, one element. -/
def factors (share : Nat) (h : Hart) : Hart :=
  { h with plane := [(8193, 0x3fc0), (10241, 0x4000)], vl := 1, rc := 1, share := share }

/-- Of `PushesAndPops`, the push: a failed check, a stair without room for 96 bytes, and completion. -/
theorem witness_PushesAndPops : ((forwardVec ⟨.rfmul, 63, 5, 6⟩ (maskGuard 0) hart).fault? hart).isSome = true ∧
    [95, 96].all (fun n =>
      let h := factors n hart
      let s := base' (factors n)
      let f : AHalf := ⟨.rfmul, 4, 5, 6⟩
      let v := forwardVec f (maskGuard 0) h
      let q := recordShape f.op (h.apt f.apd).ty
      let fd := v.feed s h
      let check := fd.s.pushCheck h f.apd (payloadLen q.1 q.2.1 (h.rc * h.vl) + 32)
      s.hart? == some h && decide (Instr.toHalf (.rfmul 4 5 6 0) = some (f, 0)) && ready v s h &&
      if n = 95 then errIs check (fun _ => true)
      else okIs check (fun r =>
        let res := v.result h fd
        h.fen &&& res.2 == 0 && okIs (r.1.stairPush res.1 (recordOf (payloadOf q.1 q.2.1 (slotsOf f (maskGuard 0) h fd.h))
          (0xbc00 + 64 * (h.apt f.apd).ty + q.2.2) r.2 (shapeHash (h.ap.get f.apd.toNat) (h.ap.get f.apa.toNat) h.rc h.vl) h.rc h.vl)) (fun _ => true))) = true := by
  decide +kernel

/-- The pop: a failed check, an empty stair, and the undo of the push above. -/
theorem witness_PushesAndPops_undo : ((undoVec ⟨.ufmul, 63, 4, 6⟩ (maskGuard 0) [] hart).fault? hart).isSome = true ∧ (
      let f : AHalf := ⟨.ufmul, 5, 4, 6⟩
      let popOf (s : State) (h : Hart) : Except Exec (State × Hart × List Byte) :=
        ((undoVec f (maskGuard 0) [] h).feed s h).s.stairPop h f.apa (0xbc00 + 64 * (h.apt f.apa).ty + (recordShape f.op (h.apt f.apa).ty).2.2)
          (shapeHash (h.ap.get f.apa.toNat) (h.ap.get f.apd.toNat) h.rc h.vl) (h.rc * h.vl)
      (let s := base' (factors 64)
       s.hart? = some (factors 64 hart) ∧ ready (undoVec f (maskGuard 0) [] (factors 64 hart)) s (factors 64 hart) = true ∧
       errIs (popOf s (factors 64 hart)) (fun _ => true) = true) ∧
      nextIs (exec (.rfmul 4 5 6 0) (base' (factors 4096))) (fun s => s.hart?.any (fun h => ready (undoVec f (maskGuard 0) [] h) s h &&
        okIs (popOf s h) (fun r => h.fen &&& ((undoVec f (maskGuard 0) r.2.2 h).result h ((undoVec f (maskGuard 0) [] h).feed s h)).2 == 0))) = true) := by
  decide +kernel

/-- Of `StairManagement`: an empty stair; one with a record of 32 bytes on top; cuts at the base, the top and a boundary, and 32 bytes
beside it. -/
theorem witness_StairManagement : base.hart? = some hart ∧ hart.stp = hart.stb ∧ (
      let f : Hart → Hart := fun h => { h with csr := [(0xc32, 0x60), (0xd10, 0x10000)], x := [(1, 0x60), (2, 0x40), (3, 0x20), (4, 1)], stair := { h.stair with marks := [0x40] } }
      let h := f hart
      let ok (r : XReg) : Bool :=
        let p := (h.getX r).toNat
        decide (h.stb ≤ p ∧ p ≤ h.stp ∧ p % 32 = 0 ∧ (p = h.stb ∨ p = h.stp ∨ h.getX r ∈ h.stair.marks))
      (base' f).hart? = some h ∧ h.stp ≠ h.stb ∧ okIs ((base' f).stairUnits h (BitVec.ofNat 64 h.stp - 32) 1) (fun _ => true) = true ∧
      ok 0 = true ∧ ok 1 = true ∧ ok 2 = true ∧ ok 3 = false ∧ okIs ((base' f).stairSync h) (fun _ => true) = true) ∧ (
      let f : Hart → Hart := fun h => { h with csr := [(0xc32, 0x20), (0xd10, 0x10000)], x := [(4, 1)] }
      let h := f hart
      (base' f).hart? = some h ∧ 1 ≤ (h.getX 4).toNat ∧ (h.getX 0).toNat = 0 ∧ h.stb + 32 ≤ h.stp ∧ h.stp < h.stb + 64 ∧
      okIs ((base' f).stairUnits h (BitVec.ofNat 64 (h.stp - 32)) 1) (fun r => leNat ((r.2.drop 12).take 4) == 0) = true ∧
      okIs ((base' f).stairDrop (min (h.getX 4).toNat ((h.stp - h.stb) / 32)) h) (fun _ => true) = true) := by decide +kernel

/-- The gang with a tile that holds 2 × 2 elements of bf16. -/
def loaded : Gang := { gang with tiles := [⟨0, some 7, 2, 2, [(0, 0x3f80), (65, 0x3f80)], []⟩] }

/-- Of `TransitInstructions`: a tile that the gang does not hold; a queue with room and a full one; the failures of `tload` and of `tmac`,
one by one, and both where they complete, with an enabled flag and without; a drain of one element. -/
theorem witness_TransitInstructions : base.hart? = some hart ∧ base.gangOf hart = some gang ∧ gang.tiles[(1 : BitVec 3).toNat]? = none ∧
    (gang.tiles[(0 : BitVec 3).toNat]?).isSome = true ∧ base.transitRoom hart = true ∧
    (base.setCore { base.coreAt 0 with transit := List.replicate 32 ⟨{}, .fill, 0, 1, 0, none⟩ }).transitRoom hart = false ∧
    (hart.apt 63).v = false ∧ (let a := hart.apt 7
     a.v = true ∧ a.kind ≤ 1 ∧ a.ty ∈ [7, 8, 9, 10] ∧ a.sb = false ∧ hart.absent [a] = none ∧ a.hl = 2 ∧ a.e = 4 ∧ (hart.apt 1).ty ∉ [7, 8, 9, 10]) ∧
    (hart.getCsr 0xc48).toNat % 256 = 0 ∧ ([0x202, 0x303, 0x502] : List Word).all (fun sh =>
      let h := hart.setCsr 0xc48 sh
      (base' (fun h => h.setCsr 0xc48 sh)).hart? == some h &&
      decide (((h.getCsr 0xc48).toNat % 256 ≤ (h.apt 7).hl ∧ (h.getCsr 0xc48).toNat / 256 % 256 ≤ (h.apt 7).e) ↔ sh = 0x202)) = true := by decide +kernel

theorem witness_TransitInstructions_tmac : (
      let s : State := { base with gangs := [loaded] }
      s.gangOf hart = some loaded ∧ (loaded.tiles[0]?).any (fun ti => ti.ty == some 7 && ti.rows == 2 && ti.cols == 2) = true ∧
      (gang.tiles[0]?).any (fun ti => ti.ty == none) = true) ∧ (hart.apt 7).v = true ∧ 2 ≤ (hart.apt 7).e ∧ (hart.getX 0).toNat % 256 < (hart.apt 7).hl ∧
    ¬ (hart.getX 5).toNat % 256 < (hart.apt 7).hl ∧ (hart.apt 7).bc = false ∧ (hart.apt 7).ty = (7 : BitVec 4).toNat ∧ (hart.apt 1).ty ≠ (7 : BitVec 4).toNat ∧
    [0, 0x7f80].all (fun v =>
      let h : Hart := { hart with plane := [(12288, BitVec.ofNat 16 v)], csr := [(0xc04, 0x10), (0xd10, 0x10000)] }
      let ti : Tile := ⟨0, some 7, 2, 2, [], []⟩
      let row := (List.range 2).map (fun k => h.getEl (h.apt 7) 0 k)
      let fl := ((List.range 2).map (fun c => ti.macEl 7 0 row c)).foldl (fun (f : Flags) x => f ||| x.2) 0
      trapFlag h.fen fl == if v = 0 then none else some 4) = true ∧ (
      let h : Hart := { hart with vl := 1, rc := 1 }
      let v (ap : Ap) : Vec := tdrainVec ⟨0, false⟩ ap 0 ⟨0, none, 0, 0, [], []⟩ 0 h
      (base' (fun h => { h with vl := 1, rc := 1 })).hart? = some h ∧ ready (v 4) (base' (fun h => { h with vl := 1, rc := 1 })) h = true ∧ ((v 63).fault? h).isSome ∧ h.rc * h.vl = 1 ∧
      h.active ⟨0, false⟩ 0 0 = true) := by decide +kernel

/-- A descriptor as the bytes of memory at 0x40002000. -/
def desc (fields : List (Nat × Byte)) : State := { base with mem := tables ++ fields.map (fun f => (0x40002000 + f.1, f.2)) }

/-- Of `EngineCommandsIssue`: a copy onto itself, one of whose ranges the source or the destination is a path fault, and a good one of 128
bytes in the gallery; fewer than 16 commands. -/
theorem witness_EngineCommandsIssue_cpy : base.hart? = some hart ∧ (base.engines.filter (fun c => c.hid == some hart.hid)).length < 16 ∧ (
      let c := base.newCmd hart 3 0 (.copy (hart.getX 12) (hart.getX 9) 128) 128
      let tip : Word := 0x20000000001fff81
      base.rangesOverlap c (hart.getX 9, 128) (hart.getX 9, 128) = true ∧ base.rangesOverlap c (hart.getX 9, 128) (hart.getX 12, 128) = false ∧
      base.rangesOverlap c (hart.getX 9, 128) (tip, 128) = false ∧ base.rangeFault c .engineRead (hart.getX 9, 128) = none ∧
      base.rangeFault c .engineWrite (hart.getX 12, 128) = none ∧ base.rangeFault c .engineRead (tip, 128) = some 0x2000000000200000 ∧
      base.rangeFault c .engineWrite (tip, 128) = some 0x2000000000200000) := by decide +kernel

/-- The collectives: a misaligned descriptor, a bad one (of zeros), and one of a registered group of this die alone. -/
theorem witness_EngineCommandsIssue_coll : (hart.getX 8).toNat % 64 ≠ 0 ∧ (hart.getX 7).toNat % 64 = 0 ∧
    okIs (base.loadRecord hart (hart.getX 7) 64) (fun r => badColl 2 r.2) = true ∧ (
      let s : State := { desc [(7, 0x20), (9, 1), (15, 0x20), (16, 4), (20, 8)] with mgmt := base.mgmt.set 0x220000 0x8000000001000000 }
      s.hart? = some hart ∧ okIs (s.loadRecord hart (hart.getX 7) 64) (fun r =>
        let c := r.1.newCmd hart 3 (descAddr r.2 0x18 0) (.collective 2 r.2 0 1) 16
        !badColl 2 r.2 && !r.1.badGroup hart.ctx hart.die 0 && descAddr r.2 0 0 == hart.getX 9 && descAddr r.2 8 0 == hart.getX 12 &&
        r.1.groupSize 0 == 1 && !r.1.rangesOverlap c (hart.getX 9, 16) (hart.getX 12, 16) && r.1.rangeFault c .engineRead (hart.getX 9, 16) == none &&
        r.1.rangeFault c .engineWrite (hart.getX 12, 16) == none) = true) := by decide +kernel

/-- The updates and `wver`: a misaligned descriptor, a bad one, and one of 4 weights with a skip word and without; addresses of a version. -/
theorem witness_EngineCommandsIssue_upd : (
      let s := desc [(7, 0x20), (9, 1), (15, 0x20), (17, 2), (23, 0x20), (25, 3), (31, 0x20), (40, 4), (44, 8), (49, 4), (55, 0x20)]
      s.hart? = some hart ∧ okIs (s.loadRecord hart (hart.getX 7) 128) (fun r => !badUpdate hart r.2 && descField r.2 0x30 8 != 0 &&
        (r.1.release hart.hid).2 && [descAddr r.2 0 0, descAddr r.2 8 0, descAddr r.2 0x10 0, descAddr r.2 0x18 0, descAddr r.2 0x30 0].all (fun a =>
          (r.1.release hart.hid).1.rangeFault (copyCmd 0 0 0) .engineRead (a, 16) == none &&
          (r.1.release hart.hid).1.rangeFault (copyCmd 0 0 0) .engineWrite (a, 16) == none)) = true) ∧ (hart.getX 8).toNat % 128 ≠ 0 ∧ (hart.getX 7).toNat % 128 = 0 ∧
    okIs (base.loadRecord hart (hart.getX 7) 128) (fun r => badUpdate hart r.2) = true ∧ (
      let s := desc [(7, 0x20), (9, 1), (15, 0x20), (17, 2), (23, 0x20), (25, 3), (31, 0x20), (40, 4), (44, 8)]
      s.hart? = some hart ∧ okIs (s.loadRecord hart (hart.getX 7) 128) (fun r => !badUpdate hart r.2 && descField r.2 0x30 8 == 0 &&
        [descAddr r.2 0 0, descAddr r.2 8 0, descAddr r.2 0x10 0, descAddr r.2 0x18 0].all (fun a =>
          r.1.rangeFault (copyCmd 0 0 0) .engineRead (a, 16) == none && r.1.rangeFault (copyCmd 0 0 0) .engineWrite (a, 16) == none)) = true) ∧
    (hart.getX 8).toNat % 8 ≠ 0 ∧ (hart.getX 7).toNat % 8 = 0 := by decide +kernel

/-- Of `CopyMovesBytes`: ranges that touch, the second up to the end of the allocation. -/
theorem witness_CopyMovesBytes : (
      let src : Word := 0x20000000001fff00
      let dst : Word := 0x20000000001fff80
      let c := copyCmd dst src 128
      let s : State := { base with engines := [c] }
      s.power = true ∧ s.poison = [] ∧ (∀ g ∈ s.harts, g.pending = []) ∧ c.work = .copy dst src 128 ∧ c.total = 128 ∧ c.next = 0 ∧ c.ctr = 0 ∧
      c.missing = [] ∧ c.galSize ≤ 2 ^ 21 ∧ pathOf dst = 1 ∧ pathOf src = 1 ∧ dst.toNat % 2 ^ 61 + 128 = c.galSize ∧
      src.toNat % 2 ^ 61 + 128 ≤ dst.toNat % 2 ^ 61) := by decide +kernel

/-- A collective of group 0 that has not started. -/
def collCmd : EngineCmd := base.newCmd hart 3 0 (.collective 2 [] 0 1) 0

/-- Of `EngineEvents`: no command, a copy that is done without and with a counter, a group without and with all members, one whose data has
come, one whose has not and one whose member waits for an older collective of its hart, an abort, tokens for commands that run and that do not, and a
flit's retries: none, few, and those before and at the last, beside another flit's. -/
theorem witness_EngineEvents : base.power = true ∧ base.engine? 0 = none ∧ base.groupReady 0 = none ∧ (∀ c ∈ base.engines, c.group? = none) ∧ (
      let c := { copyCmd 0 0 0 with ctr := hart.getX 7 }
      let s : State := { base with engines := [c] }
      c.next = c.total ∧ c.missing = [] ∧ (copyCmd 0 0 0).ctr = 0 ∧ c.ctr ≠ 0 ∧ c.hid = some 0 ∧ okIs (((s.drain 0).markFence 0).engineAdd c c.ctr) (fun _ => true) = true) ∧ (
      let s : State := { base with engines := [collCmd], mgmt := base.mgmt.set 0x220000 0x8000000001000000 }
      s.groupReady 0 = some [collCmd] ∧ s.remoteCome 0 (s.come 0 []) = true ∧ (s.sourcesReady [collCmd]).2 = true ∧
      s.memberOn 0 0 = some collCmd ∧ s.memberOn 1 0 = none ∧ s.tokens.find? (fun t => t.1 == 0 && t.2.1 == 0) = none ∧
      s.launchAt collCmd.launch = some launch ∧ launch.engEntries.length < 31 ∧ collCmd.hid = some 0 ∧ s.hartAt 0 = some hart) ∧ (
      let s : State := { base with engines := [collCmd], mgmt := base.mgmt.set 0x220000 0x8001000001000001 }
      s.groupReady 0 = some [collCmd] ∧ s.remoteCome 0 (s.come 0 []) = false) ∧ (
      let old : EngineCmd := { base.newCmd hart 3 0 (.collective 2 (List.replicate 22 0 ++ [1]) 0 1) 16 with writes := [(0x40002000, 16)] }
      let c : EngineCmd := { collCmd with id := 1, reads := [(0x40002008, 16)] }
      let s : State := { base with engines := [old, c], mgmt := base.mgmt.set 0x220000 0x8000000001000000 }
      s.groupReady 0 = some [c] ∧ s.remoteCome 0 (s.come 0 []) = true ∧ (s.sourcesReady [c]).2 = false) ∧ (
      let s : State := { base with engines := [collCmd], tokens := [(0, 0, 0)] }
      let t : State := { base with engines := [collCmd], tokens := [(0, 0, 7)] }
      s.tokens.find? (fun t => t.1 == 0 && t.2.1 == 0) = some (0, 0, 0) ∧ s.engine? 0 = some collCmd ∧
      t.tokens.find? (fun t => t.1 == 0 && t.2.1 == 0) = some (0, 0, 7) ∧ t.engine? 7 = none) ∧
    find base.portRetry (0, 7) = none ∧ [(1 : Nat), 1022, 1023].all (fun n =>
      find ({ base with portRetry := [((0, 6), 5), ((0, 7), n)] } : State).portRetry (0, 7) == some n) = true := by decide +kernel

/-- The machine with window 63 open to context 0, whose launches any master may make. -/
def opened : State := { base with mgmt := (((base.mgmt.set 0x13f048 1).set 0x210000 0x8007000000010000).set 0x250000 0x5001) }

/-- The bytes of the loading message. -/
def message : List Byte := leBytes 64 loadMsg.toNat

/-- Of `Launches`: a MSG write that is accepted, and one of another length; windows and offsets at the ends of their ranges; an owner. -/
theorem witness_Launches : opened.power = true ∧ (
      let l := Launch.ofMsg 63 (opened.windowCtx 63) (msgOf message)
      message.length = 64 ∧ opened.windowOpen 63 = true ∧ opened.masterOk l.ctx 4 = true ∧ opened.wellFormed l = true ∧ opened.taken 63 < 1024 ∧
      base.windowOpen 63 = false ∧ ({ opened with mgmt := opened.mgmt.set 0x210000 0x8003000000000000 } : State).masterOk l.ctx 4 = false ∧
      opened.wellFormed (Launch.ofMsg 63 0 0) = false ∧
      ¬ ({ opened with launches := List.replicate 1024 { l with placed := 0 } } : State).taken 63 < 1024) ∧
    ({ base with mgmt := base.mgmt.set 0x200000 0x10000a300 } : State).owner?.isSome = true ∧ base.owner? ≠ some 0 := by decide +kernel

/-- A launch that waits until the doubleword at 0x2000 reaches WVAL. -/
def waiter (wval : Nat) : Launch := { Launch.ofMsg 63 0 (loadMsg ||| BitVec.ofNat 512 (0x2000 * 2 ^ 128 + wval * 2 ^ 192 + 2 ^ 358)) with acc := 1, st := .waiting }

/-- The wait counter, a decision, a completion: a counter that has not come and one that has, an address without a translation; nothing to
choose, a launch that fits and one of 65 units of STAIR, which no core has, alone and co-scheduled; a launch that is done and one that is complete. -/
theorem witness_Launches_events : (
      let s (w : Nat) : State := { opened with launches := [waiter w] }
      [(0x80000000000000f1, true), (0x80000000000000f2, false)].all (fun p => (s p.1).launchAt 1 == some (waiter p.1) && (waiter p.1).wval == p.1 &&
        okIs ((s p.1).readCounter (waiter p.1)) (fun r => decide (r.1.launches = (s p.1).launches) && decide ((waiter p.1).wval ≤ r.2) == p.2)) = true ∧
      errIs (({ base with mgmt := base.mgmt.set 0x210000 0x30000 } : State).readCounter { waiter 0 with msg := (waiter 0).msg ||| BitVec.ofNat 512 (2 ^ 186) })
        (fun _ => true) = true) ∧ launch.st ≠ .waiting ∧ ({ launch with st := .complete } : Launch).st = .complete ∧
    ({ base with harts := [], gangs := [], launches := [{ launch with ended := 1 }] } : State).launchDone 0 = true ∧ base.launchDone 0 = false ∧ base.chosen = none ∧ (
      let l := { launch with st := .ready, placed := 0 }
      let s : State := { base with harts := [], gangs := [], launches := [l] }
      s.chosen = some l ∧ l.cosched = false ∧ l.held = [] ∧ (s.findCore l l.placed).isSome = true ∧ (s.placeNext l).isSome = true) ∧ (
      let l := { launch with st := .ready, placed := 0 }
      let l : Launch := { l with msg := l.msg ||| BitVec.ofNat 512 (65 * 2 ^ 400) }
      let full : State := { base with harts := [], gangs := [], launches := [l] }
      full.chosen = some l ∧ (full.placeNext l).isNone = true ∧ full.findCore l 0 = none) ∧ (
      let l := { launch with st := .ready, placed := 0, msg := launch.msg ||| BitVec.ofNat 512 (2 ^ 357) }
      let s : State := { base with harts := [], gangs := [], launches := [l] }
      s.chosen = some l ∧ l.cosched = true ∧ l.toPlace ≤ l.perCore * s.liveCores ∧
      (let n : Launch := { l with msg := l.msg ||| BitVec.ofNat 512 (65 * 2 ^ 400) }
       let r : State := { s with launches := [n] }
       r.chosen = some n ∧ n.cosched = true ∧ n.perCore * r.liveCores < n.toPlace)) := by decide +kernel

/-- Of `LaunchAndStart`: a misaligned message; a context without a window; a message that is not well formed, one that is; a hart that
waits with its message, the window full, with room, and closed, where no other or a lower one is open, and one that does not. -/
theorem witness_LaunchAndStart : (
      let f : Hart → Hart := fun h => { h with run := .launching 1 0x2000 loadMsg 63 }
      let s (n : Nat) : State := { opened with harts := [f hart], launches := List.replicate n { Launch.ofMsg 63 0 loadMsg with placed := 0 } }
      (s 0).hart? = some (f hart) ∧ (f hart).run = .launching 1 0x2000 loadMsg 63 ∧ (s 0).taken 63 < 1024 ∧ 1024 ≤ (s 1024).taken 63 ∧
      (s 0).windowCtx 63 = (f hart).ctx ∧ (s 0).windowOpen 63 = true ∧ (s 0).wellFormed (Launch.ofMsg 63 0 loadMsg) = true ∧ (s 0).wellFormed (Launch.ofMsg 63 0 0) = false ∧
      (let r : State := { base with harts := [f hart] }
       ¬ (r.windowCtx 63 = (f hart).ctx ∧ r.windowOpen 63 = true) ∧ r.launchWindow (f hart).ctx = none ∧
       ({ r with mgmt := (base.mgmt.set 0x105048 1).set 0x210000 0x8007000000010000 } : State).launchWindow (f hart).ctx = some 5)) ∧ hart.run = .running ∧ (hart.getX 8).toNat % 64 ≠ 0 ∧ (hart.getX 7).toNat % 64 = 0 ∧ (base.release hart.hid).2 = true ∧
    base.launchWindow hart.ctx = none ∧ (opened.release hart.hid).2 = true ∧ opened.launchWindow hart.ctx = some 63 ∧
    okIs ((opened.release hart.hid).1.load hart false .scalarLoad (hart.getX 7) 64) (fun r => !r.1.wellFormed (Launch.ofMsg 63 hart.ctx (msgOf r.2))) = true ∧ (
      let s (n : Nat) : State := { opened with mem := SMap.setAll (w := 8) tables 0x40002000 message
                                               launches := List.replicate n { Launch.ofMsg 63 0 loadMsg with placed := 0 } }
      [((0 : Nat), true), (1024, false)].all (fun p =>
        okIs (((s p.1).release hart.hid).1.load hart false .scalarLoad (hart.getX 7) 64) (fun r =>
          r.1.wellFormed (Launch.ofMsg 63 hart.ctx (msgOf r.2)) && decide (r.1.taken 63 < 1024) == p.2)) = true) := by decide +kernel

/-- The machine with an owner, master 3, and its launch in a given state; the gang holds 64 bytes of gallery. -/
def owned (st : LaunchState) (held : List HeldGang) : State :=
  { base with mgmt := (base.mgmt.set 0x200000 0x10000a303).set 0x210000 0x8007000000010000, launches := [{ launch with st := st, held := held, saveBase := some 0 }]
              gangs := [{ gang with galSize := 64 }] }

/-- Of `PreemptResumeKill`: the owner and another master; a save in progress and none; a launch placing, running, ready, held without
and with a gang, and complete; no engine command; a number of no gang. -/
theorem witness_PreemptResumeKill : (let s := owned .running []
     s.power = true ∧ s.owner? = some 3 ∧ s.owner? ≠ some 2 ∧ s.saving = false ∧ s.rotQueue = [] ∧ s.launchAt 1 = none ∧ s.runOnAll.rotQueue = [] ∧
     (s.launchAt 0).any (fun l => l.st == .running && !l.cosched) = true ∧ s.engines = [] ∧
     (∀ g ∈ s.gangs, 512 * g.slot + g.core = 0 → g.due = false) ∧
     ({ s with gangs := [{ gang with due := true }] } : State).saving = true ∧
     (∀ w, s.rotQueue.head? = some w → w.1 ≠ .kill) ∧ ({ s with rotQueue := [(.preempt, 0)] } : State).rotQueue ≠ [] ∧
     (s.launchAt 0).any (fun l => !l.killed && !l.failed) = true ∧ ({ launch with failed := true } : Launch).failed = true) ∧
    [LaunchState.placing, .ready, .complete, .held].all (fun st => ((owned st []).launchAt 0).any (fun l => l.st == st)) = true ∧
    ((owned .held [⟨1, gang, [], [], []⟩]).launchAt 0).any (fun l => l.st == .held && !l.held.isEmpty) = true ∧
    ((owned .held []).launchAt 0).any (fun l => l.held.isEmpty && decide (l.placed = l.gangs)) = true := by decide +kernel

/-- The save: an area without a translation, and, for a gang whose harts are gone, one that is mapped; the same of a co-scheduled launch. -/
theorem witness_PreemptResumeKill_save : (
      let g : Gang := { gang with galSize := 64, due := true }
      let s : State := { owned .held [] with gangs := [g] }
      s.gangs.find? (fun g => 512 * g.slot + g.core == 0 && g.due) = some g ∧
      (s.launchAt 0).any (fun l => l.st == .held && !l.cosched) = true ∧
      (saveGang g { s with launches := [{ launch with st := .held, saveBase := some 0x40000000 }] }).2.isSome = true ∧ (
        let r := saveGang g { s with harts := [] }
        r.2.isNone = true ∧ (r.1.gangAt 0 0).isSome = true ∧ (r.1.launchAt 0).isSome = true)) ∧ (
      let g : Gang := { gang with galSize := 64, due := true }
      let l : Launch := { launch with st := .held, saveBase := some 0, msg := launch.msg ||| BitVec.ofNat 512 (2 ^ 357) }
      let s : State := { owned .held [] with gangs := [g], launches := [l] }
      l.cosched = true ∧ s.gangs.find? (fun g => 512 * g.slot + g.core == 0 && g.due) = some g ∧ s.launchAt g.launch = some l ∧
      (let gs (s : State) : List Gang := s.gangs.filter (fun k => k.launch == l.acc)
       let u : State := { s with launches := [{ l with saveBase := some 0x40000000 }] }
       ((gs u).foldl (fun a g => Save.then a (saveGang g)) (u, none)).2.isSome = true ∧ (
         let n : State := { s with harts := [] }
         let r := (gs n).foldl (fun a g => Save.then a (saveGang g)) (n, none)
         r.2.isNone = true ∧ (r.1.gangAt 0 0).any (fun k => k.launch == l.acc && k.index == g.index) = true)) ) := by decide +kernel

/-- Of `Ownership`: no owner and an owner; a claim of ballot 0 and of 1, a candidate; masters and destinations at their ends; a register
that holds its fields and one that is read-only; a CSR. -/
theorem witness_Ownership : base.power = true ∧ base.owner? = none ∧ (owned .running []).owner? = some 3 ∧ (0 : Word).toNat % 2 ^ 32 = 0 ∧
    (1 : Word).toNat % 2 ^ 32 ≠ 0 ∧ base.candidate = none ∧ ({ base with candidate := some (5, 0xffffffff) } : State).candidate = some (5, 0xffffffff) ∧
    (owned .running []).owner? ≠ some 5 ∧ (5 : Nat) ≠ 3 ∧ (5 : Nat) ≤ 5 ∧ (5 : Nat) < 6 ∧
    (0x100000 ≤ 0x13f038 ∧ 0x13f038 < 0x140000 ∧ 0x13f038 % 0x1000 < 0x40) ∧ ¬ (0x100000 ≤ 0x300000 ∧ 0x300000 < 0x140000 ∧ 0x300000 % 0x1000 < 0x40) ∧
    (1023 : Nat) < 1024 ∧ (let h := (((base.flagsReady hart).hart?).getD hart)
      okIs (((base.flagsReady hart).readCsr h 0xc03).1.writeCsr ((((base.flagsReady hart).readCsr h 0xc03).1.hart?).getD h) 0xc03 1) (fun _ => true) = true) ∧ (0xc03 : Nat) ≠ 0xc22 ∧ 0x300000 ∉ [0x200008, 0x200010, 0x230008, 0x230010, 0x230020, 0x240000] ∧ ownerStored 0x300000 0 = some 1 ∧ ownerStored 0x200000 0 = none ∧
    base.hart? = some hart ∧ hart.csrFault 0xc03 = none ∧ okIs ((base.readCsr hart 0xc03).1.writeCsr (((base.readCsr hart 0xc03).1.hart?).getD hart) 0xc03 1)
      (fun _ => true) = true := by decide +kernel

/-- The machine with an invalid leaf of MIG 2 for frame 0. -/
def barring : State :=
  { base with mgmt := base.mgmt.set 0x210000 0x8000000000010000, mem := [(0x10006, 0x20), (0x10007, 0x40)] }

/-- The first entry of its table is that leaf, every other is 0. -/
theorem barring_entry (i : Nat) : peekNat barring.mem (0x10000 + 8 * i) 8 = if i = 0 then 0x4020000000000000 else 0 := by
  have hm : barring.mem = [(0x10006, 0x20), (0x10007, 0x40)] := rfl
  rw [hm]
  rcases Nat.eq_zero_or_pos i with rfl | h
  · decide +kernel
  · have hg : ∀ k, k < 8 → SMap.get (w := 8) [(0x10006, 0x20), (0x10007, 0x40)] (0x10000 + 8 * i + k) = 0 := by
      intro k hk
      rw [SMap.get, if_neg (by omega), SMap.get, if_neg (by omega), SMap.get]
    have hp : peek [(0x10006, 0x20), (0x10007, 0x40)] (0x10000 + 8 * i) 8 = List.replicate 8 0 := by
      rw [peek, List.map_congr_left (fun k hk => hg k (List.mem_range.mp hk))]
      rfl
    rw [peekNat, hp, if_neg (by omega)]
    rfl

theorem leavesFrom_none (m : Memory) (f : Nat) (ls : List (Nat × Nat)) : ∀ n, leavesFrom m f n ls [] = [] := by
  induction ls with
  | nil => intro n; rfl
  | cons l ls ih => intro n; exact ih (n + 1)

theorem leavesFrom_single (m : Memory) (h : (List.range (2 ^ 13)).map (fun i => peekNat m (0x10000 + 8 * i) 8) =
    0x4020000000000000 :: List.replicate 8191 0) : leavesFrom m 0 0 walkLevels [0x10000] = [0x4020000000000000] := by
  rw [walkLevels, leavesFrom, List.flatMap_singleton, h, List.filter_cons, List.filter_replicate, List.filter_cons, List.filter_replicate]
  rw [if_pos (by decide), if_neg (by decide), if_neg (by decide), if_neg (by decide), List.map_nil, leavesFrom_none, List.append_nil]

theorem map_first (m : Memory) (n x : Nat) (h : ∀ i, peekNat m (0x10000 + 8 * i) 8 = if i = 0 then x else 0) :
    (List.range (n + 1)).map (fun i => peekNat m (0x10000 + 8 * i) 8) = x :: List.replicate n 0 := by
  rw [List.map_congr_left (fun i _ => h i), List.range_succ_eq_map, List.map_cons, List.map_map,
    if_pos rfl, List.map_congr_left (g := fun _ => 0) (fun i _ => by simp), List.map_const', List.length_range]

theorem barring_leaves : barring.leavesOf 0 = [0x4020000000000000] := by
  have hr : barring.roots = [0x10000] := by decide +kernel
  rw [State.leavesOf, hr]
  have h := map_first barring.mem 8191 _ barring_entry
  rw [show 8191 + 1 = 2 ^ 13 from rfl] at h
  exact leavesFrom_single barring.mem h

theorem hostBars_one (s : State) (a n f : Nat) (es : List Nat) (hf : (List.range ((a % 65536 + n + 65535) / 65536)).map (fun i => a / 65536 + i) = [f])
    (hl : s.leavesOf f = es) (hb : (es.any (fun e => !pteBit e 63 && decide (bits e 53 52 = 2)) && !es.any (fun e => pteBit e 63)) = true) :
    s.hostBars a n = some f := by
  subst hl
  rw [State.hostBars, hf, List.find?_cons, hb]

/-- Of `HostAndReset`: a host access that is barred. -/
theorem witness_HostAndReset_barred : barring.power = true ∧ deviceRange 0x5000 8 = true ∧ barring.hostBars 0x5000 8 = some 0 :=
  ⟨rfl, by decide +kernel, hostBars_one barring 0x5000 8 0 _ (by decide) barring_leaves (by decide +kernel)⟩

/-- Of `HostAndReset`: power, nothing outstanding, the last bytes of device memory and the first beyond them; offers of algorithms;
command lines of mdas; a spared core. -/
theorem witness_HostAndReset : base.power = true ∧ base.engines = [] ∧ (∀ g ∈ base.harts, g.pending = []) ∧ base.arbiterOn = false ∧ base.hostBars 0xbfffffffff 1 = none ∧
    0xbfffffffff + 1 ≤ 0xc000000000 ∧
    deviceRange 0xbfffffffff 1 = true ∧ deviceRange 0xc000000000 1 = false ∧ 0x101 ∈ [0x101, 7] ∧ 0x101 ∉ [7] ∧ 0x102 ∈ [0x102] ∧ 0x102 ∉ [0x101] ∧
    readOptions ["-x", "f.s"] MdasOptions.none = none ∧ (readOptions ["f.s"] MdasOptions.none).isSome = true ∧
    (assemble ["f.s"] [("f.s", "")]).status = 0 ∧ { CoreSt.reset 5 with spared := true } ∈ ({ base with cores := [{ CoreSt.reset 5 with spared := true }] } : State).cores := by
  decide +kernel

/-- The machine whose page of code may be executed. -/
def coded : State := { base with mem := [(0x10002, 2), (0x10007, 0x80), (0x20002, 3), (0x20007, 0x80), (0x30003, 0x40), (0x30007, 0xf6)] }

/-- The machine whose arbiter is on, with HYST 64 and one tracked frame. -/
def tracking (count : Nat) (request : Option Bool) : State :=
  { base with mgmt := base.mgmt.set 0x300000 0x10040, tracks := [⟨5, count, request, false⟩] }

/-- Of `MigrationEvents`: the arbiter off and on; a count below HYST and at it; a frame without a request, with one of the same side and
with one of the other; a unit poisoned and not; a core taken and one free; the last die and none. -/
theorem witness_MigrationEvents : base.power = true ∧ (base.getMgmt 0x300000).toNat.testBit 16 = false ∧
    [none, some true, some false].all (fun r => let s := tracking 64 r
      (s.getMgmt 0x300000).toNat.testBit 16 && decide ((s.getMgmt 0x300000).toNat % 2 ^ 16 ≤ (((s.tracks.find? (fun t => t.frame == 5)).getD ⟨5, 0, none, false⟩)).count) &&
      ((s.tracks.find? (fun t => t.frame == 5)).getD ⟨5, 0, none, false⟩).request == r) = true ∧
    (((tracking 63 none).tracks.find? (fun t => t.frame == 5)).getD ⟨5, 0, none, false⟩).count < ((tracking 63 none).getMgmt 0x300000).toNat % 2 ^ 16 ∧
    base.poison.any (fun u => u.1 == 5) = false ∧ ({ base with poison := [(5, none)] } : State).poison.any (fun u => u.1 == 5) = true ∧
    (∀ g ∈ base.harts, g.pending = []) ∧ (∃ g ∈ base.gangs, g.core = 0) ∧
    ¬ ((8 : Nat) ≤ 7 ∨ (64 : Nat) ≤ 63 ∨ (base.coreAt 511).spared = true ∨ ∃ g ∈ base.gangs, g.core = 511) ∧ (8 : Nat) ≤ 8 ∧ (7 : Nat) < 8 := by
  decide +kernel

/-- Of `RunAheadEvents`: a hart with code and without, within a unit and not; an address translated and not; a plate that is present, absent
with no valid length and absent with one, whose fill succeeds and fails. -/
theorem witness_RunAheadEvents : base.power = true ∧
    base.hartAt 2047 = none ∧ base.hartAt 0 = some hart ∧ okIs (coded.fetchWord hart hart.pc) (fun _ => true) = true ∧
    errIs (base.fetchWord { hart with pc := 0x40000000 } 0x40000000) (fun _ => true) = true ∧ hart.inUnit hart.pc = none ∧
    { hart with unit := some ⟨0x1000, 0x1000, 0x1004⟩ }.inUnit hart.pc ≠ none ∧ coded.engines = [] ∧ (∀ g ∈ coded.harts, g.pending = []) ∧
    okIs (coded.codeAt hart hart.pc) (fun _ => true) = true ∧ errIs (base.codeAt { hart with pc := 0x40000000 } 0x40000000) (fun _ => true) = true ∧
    ({ base with cur := 2047 } : State).hart? = none ∧ base.hart? = some hart ∧ base.power = true ∧ errIs (base.translate hart .load 0x40000000) (fun _ => true) = true ∧
    okIs (base.translate hart .load 0x2000) (fun _ => true) = true ∧ (hart.plates.get 0).toNat / 64 ≠ 1 ∧
    (({ hart with plates := [(0, 64)] } : Hart).plates.get 0).toNat = 64 ∧ (
      let f : Hart → Hart := fun h => { h with plates := [(0, 0x41)] }
      ((f hart).plates.get 0).toNat / 64 = 1 ∧ okIs ((base' f).fillPlate (f hart) 0) (fun _ => true) = true ∧
      errIs (({ base' f with launches := [{ launch with saveBase := some 0xc000000000000000 }] } : State).fillPlate (f hart) 0) (fun e => e.1 == 3) = true) := by decide +kernel


end Sys2Proof.Tests
end

section
/-! The scope of the model (spec/00_scope.md): the state after module reset, the removal of power, accesses by the host, the DOE
mailbox and runs of mdas. -/

namespace Sys2Proof.Machine

open Sys2Proof

/-! ### The state after module reset (R11) -/

/-- A fault hall of a domain is off at reset: no base, HSIZE 6, and HEAD, LOST and TAIL 0 (R400). -/
theorem State.reset_hall {n : Nat} (hn : n < 6) :
    State.reset.getMgmt (0x260000 + 0x20 * n) = 0 ∧ State.reset.getMgmt (0x260008 + 0x20 * n) = 6 ∧
      State.reset.getMgmt (0x260010 + 0x20 * n) = 0 ∧ State.reset.getMgmt (0x260018 + 0x20 * n) = 0 := by
  decide +revert

/-- Every core stands at reset as one that has been idle for no step. -/
theorem State.reset_coreAt (q : Nat) : State.reset.coreAt q = CoreSt.idleFor q 0 := rfl

/-- No lane group has an owner while a core has been idle since reset. -/
theorem CoreSt.idleFor_owner {q steps : Nat} {g : LaneGroup} (hg : g ∈ (CoreSt.idleFor q steps).groups) : g.owner = none := by
  rw [List.eq_of_mem_replicate hg]

/-! ### What reset and the removal of power leave (R11, R80, R424) -/

/-- Keys copied from one map into another: what is read at each. -/
theorem SMap.get_foldl_copy {w : Nat} (m : SMap w) (key : Nat → Nat) (j : Nat) (ds : List Nat) : ∀ r : SMap w,
    (ds.foldl (fun r d => r.set (key d) (m.get (key d))) r).get j = if ∃ d ∈ ds, j = key d then m.get j else r.get j := by
  induction ds with
  | nil => intro r; simp
  | cons d ds ih =>
    intro r
    rw [List.foldl_cons, ih]
    by_cases hj : j = key d
    · simp [hj]
    · simp [SMap.get_set_ne _ _ hj, hj]

theorem keptMgmt_get_degst (m : SMap 64) {d : Nat} (hd : d < 8) :
    (keptMgmt m).get (0x270000 + 8 * d) = m.get (0x270000 + 8 * d) := by
  rw [keptMgmt, SMap.get_foldl_copy m (fun d => 0x270000 + 8 * d), if_pos ⟨d, List.mem_range.mpr hd, rfl⟩]

theorem keptMgmt_get_ne (m : SMap 64) {off : Nat} (ho : ∀ d, d < 8 → off ≠ 0x270000 + 8 * d) :
    (keptMgmt m).get off = resetMgmt.get off := by
  rw [keptMgmt, SMap.get_foldl_copy m (fun d => 0x270000 + 8 * d), if_neg]
  rintro ⟨d, hd, e⟩
  exact ho d (List.mem_range.mp hd) e

/-- The core of a number that is listed is spared where every listed core is. -/
theorem State.coreAt_spared {s : State} {q : Nat} (hs : ∀ b ∈ s.cores, b.spared = true) (hq : ∃ b ∈ s.cores, b.q = q) :
    (s.coreAt q).spared = true := by
  obtain ⟨c, hc, rfl⟩ := hq
  unfold State.coreAt
  split
  case h_1 b hb => exact hs b (List.mem_of_find?_eq_some hb)
  case h_2 hn => simpa using List.find?_eq_none.mp hn c hc

/-- DEGST and the spared cores of `s` are those of `t`, and every other management register of `t` is at its reset value. -/
def State.KeptOverReset (s t : State) : Prop :=
  (∀ d, d < 8 → t.getMgmt (0x270000 + 8 * d) = s.getMgmt (0x270000 + 8 * d)) ∧
  (∀ off, (∀ d, d < 8 → off ≠ 0x270000 + 8 * d) → t.getMgmt off = State.reset.getMgmt off) ∧
  ∀ c ∈ s.cores, c.spared = true → (t.coreAt c.q).spared = true

/-- Any state with the management registers and the cores of `afterReset` keeps what reset leaves. -/
theorem State.keptOverReset {s t : State} (hm : t.mgmt = s.afterReset.mgmt) (hc : t.cores = s.afterReset.cores) :
    s.KeptOverReset t := by
  refine ⟨fun d hd => ?_, fun off ho => ?_, fun c hcs hsp => ?_⟩
  · rw [State.getMgmt, hm]
    exact keptMgmt_get_degst s.mgmt hd
  · rw [State.getMgmt, hm]
    exact keptMgmt_get_ne s.mgmt ho
  · have hall : ∀ b ∈ t.cores, b.spared = true := by
      intro b hb
      rw [hc] at hb
      obtain ⟨_, _, rfl⟩ := List.mem_map.mp hb
      rfl
    have hmem : { CoreSt.reset c.q with spared := true } ∈ t.cores := by
      rw [hc]
      exact List.mem_map.mpr ⟨c, List.mem_filter.mpr ⟨hcs, hsp⟩, rfl⟩
    exact State.coreAt_spared hall ⟨_, hmem, rfl⟩

theorem exec_moduleReset (images : List Nat) (s : State) : exec (.moduleReset images) s =
    .next { s.afterReset with mem := s.mem, poison := s.poison, images, firmware := images.filter Config.firmwareValid } := rfl

theorem exec_modulePowerRemoval {s : State} (hp : s.power = true) :
    exec .modulePowerRemoval s = .next { s.afterReset with power := false, firmware := [] } :=
  event_eq hp (fun s => { s.afterReset with power := false, firmware := [] })

/-- Without power an event stops the machine (DESIGN CHOICE, log 49). -/
theorem exec_placementDecision_off {s : State} (hp : s.power = false) : exec .placementDecision s = .fault .powerOff :=
  event_off hp _

/-! ### A run of mdas (R347, R425) -/

theorem exec_mdasAssemble (args : List String) (files : List (String × String)) (s : State) :
    exec (.mdasAssemble args files) s = .next { s with mdas := some (assemble args files) } := rfl

/-- What a run can answer: status 2 and no object for a malformed command line; else status 1 without an object, or 0 with one. -/
theorem assemble_cases (args : List String) (files : List (String × String)) :
    let r := assemble args files
    let o := readOptions args MdasOptions.none
    (o = none ∧ r.status = 2 ∧ r.object = none) ∨
      (o ≠ none ∧ (r.status = 1 ∧ r.object = none ∨ r.status = 0 ∧ r.object.isSome)) := by
  dsimp only
  unfold assemble
  split
  case h_1 h => exact .inl ⟨h, rfl, rfl⟩
  case h_2 o h =>
    refine .inr ⟨by simp [h], ?_⟩
    split
    case h_1 => exact .inl ⟨rfl, rfl⟩
    case h_2 =>
      dsimp only
      split
      · exact .inl ⟨rfl, rfl⟩
      · exact .inr ⟨rfl, rfl⟩

/-- The status of a run: at most 2, 2 for a malformed command line alone, and 0 where there is an object and only there. -/
theorem assemble_status (args : List String) (files : List (String × String)) :
    (assemble args files).status ≤ 2 ∧
      ((assemble args files).status = 2 ↔ readOptions args MdasOptions.none = none) ∧
      ((assemble args files).status = 0 ↔ (assemble args files).object.isSome) := by
  obtain ⟨ho, hs, hn⟩ | ⟨ho, ⟨hs, hn⟩ | ⟨hs, hn⟩⟩ := assemble_cases args files <;> simp [ho, hs, hn]

/-! ### Accesses by the host (R20, R286, R403) -/

theorem exec_hostAccess {s : State} (hp : s.power = true) (a : Nat) (op : HostOp) :
    exec (.hostAccess a op) s = .next (s.hostOp a op) :=
  event_eq hp (fun s => s.hostOp a op)

theorem State.engineSettle_quiet {s : State} (hq : s.engines = []) (who : Option Nat) (vec store : Bool) (loc n : Nat)
    (near : Bool) : s.engineSettle who vec store loc n near = (s, false) := by
  simp [State.engineSettle, hq]

theorem State.hostCounts_off {s : State} (ho : s.arbiterOn = false) (a n : Nat) : s.hostCounts a n = s := by
  simp [State.hostCounts, ho]

/-- What a host access to open device memory reaches where nothing is outstanding and nothing counts it: the state as it is. -/
theorem State.hostReach_quiet {s : State} (hq : s.Quiet) (ho : s.arbiterOn = false) (store : Bool) (a n : Nat) :
    ((s.engineSettle none false store a n).1.settle (2 ^ 32) false a n).hostCounts a n = s := by
  rw [State.engineSettle_quiet hq.1, State.settle_quiet hq.2, State.hostCounts_off ho]

theorem deviceRange_of_le {a n : Nat} (h : a + n ≤ 0xc000000000) : deviceRange a n = true := by
  simp [deviceRange, h]

section
variable {s : State} {a : Nat}

theorem State.hostOp_read_outside {n : Nat} (hr : deviceRange a n = false) :
    s.hostOp a (.read n) = { s with hostData := none } := by
  simp [State.hostOp, hr]

theorem State.hostOp_write_outside {bs : List Byte} (hr : deviceRange a bs.length = false) :
    s.hostOp a (.write bs) = { s with hostData := none } := by
  simp [State.hostOp, hr]

theorem State.hostOp_read_barred {n f : Nat} (hr : deviceRange a n = true) (hb : s.hostBars a n = some f) :
    s.hostOp a (.read n) = { s.noteMigration { kind := 1, flags := 2 } f true with hostData := none } := by
  simp [State.hostOp, hr, hb]

theorem State.hostOp_read_quiet {n : Nat} (hr : deviceRange a n = true) (hb : s.hostBars a n = none) (hq : s.Quiet)
    (ho : s.arbiterOn = false) : s.hostOp a (.read n) =
      { s with hostData := if poisoned s.poison a n then none else some (peek s.mem a n) } := by
  simp only [State.hostOp, hr, hb, State.hostReach_quiet hq ho, Bool.not_true, Bool.false_eq_true, if_false]

theorem State.hostOp_write_quiet {bs : List Byte} (hr : deviceRange a bs.length = true) (hb : s.hostBars a bs.length = none)
    (hq : s.Quiet) (ho : s.arbiterOn = false) : s.hostOp a (.write bs) = { s.poke a bs with hostData := some [] } := by
  simp only [State.hostOp, hr, hb, State.hostReach_quiet hq ho, Bool.not_true, Bool.false_eq_true, if_false]

theorem State.hostOp_bar0 (n : Nat) : s.hostOp a (.bar0 n) =
    { s with hostData := if a + n ≤ 0x1000000 then some (s.devRead a n) else none } := by
  simp only [State.hostOp, State.barRead, Nat.zero_add]

theorem State.hostOp_bar2 (n : Nat) : s.hostOp a (.bar2 n) =
    { s with hostData := if a + n ≤ 0x40000 then some (s.devRead (0x100000 + a) n) else none } := rfl

end

/-- A byte of memory after a store: the byte stored at its place, or what was there. -/
theorem State.byte_poke (s : State) (a : Nat) (bs : List Byte) (loc : Nat) :
    (s.poke a bs).byte loc = if a ≤ loc then (bs[loc - a]?).getD (s.byte loc) else s.byte loc := by
  rw [State.byte, State.poke_mem, SMap.get_setAll]
  by_cases ha : a ≤ loc
  · by_cases hl : loc < a + bs.length
    · have hi : loc - a < bs.length := by omega
      rw [if_pos ⟨ha, hl⟩, if_pos ha, List.getD_eq_getElem?_getD, List.getElem?_eq_getElem hi]
      rfl
    · have hi : bs.length ≤ loc - a := by omega
      rw [if_neg (fun h => hl h.2), if_pos ha, List.getElem?_eq_none hi]
      rfl
  · rw [if_neg (fun h => ha h.1), if_neg ha]
    rfl

@[simp] theorem State.poke_harts (s : State) (a : Nat) (bs : List Byte) : (s.poke a bs).harts = s.harts := rfl

@[simp] theorem State.poke_tracks (s : State) (a : Nat) (bs : List Byte) : (s.poke a bs).tracks = s.tracks := rfl

@[simp] theorem State.postFH_tracks (s : State) : s.postFH.tracks = s.tracks := rfl

@[simp] theorem State.hall_tracks (s : State) (r : HallRec) : (s.hall r).tracks = s.tracks := by
  unfold State.hall
  split
  · exact State.setMgmt_tracks _ _ _
  · rw [State.postFH_tracks, State.setMgmt_tracks, State.poke_tracks]

/-- A fault on a moving page notes it in the tracking entry of its frame, and changes no entry otherwise (R286, R402). -/
theorem State.noteMigration_tracks (s : State) (r : HallRec) (frame : Nat) (host : Bool) :
    (s.noteMigration r frame host).tracks = s.tracks.map (fun t => if t.frame == frame then { t with noted := true } else t) := by
  simp only [State.noteMigration, apply_ite State.tracks, State.post_tracks, ite_self, State.hall_tracks]

theorem State.noteMigration_mem_tracks {s : State} {r : HallRec} {frame : Nat} {host : Bool} {k : Track}
    (hk : k ∈ (s.noteMigration r frame host).tracks) : ∃ m ∈ s.tracks, k = { m with noted := k.noted } := by
  rw [State.noteMigration_tracks] at hk
  obtain ⟨m, hm, rfl⟩ := List.mem_map.mp hk
  refine ⟨m, hm, ?_⟩
  split <;> rfl

/-! ### The DOE mailbox (R344 to R346) -/

/-- An event that answers adds its answer to those sent, and does nothing else. -/
theorem exec_answer {s : State} {i : Instr} (hp : s.power = true) (x : State → SpdmAnswer)
    (hi : exec i s = event s (fun s => s.answer (x s))) : exec i s = .next { s with doe := x s :: s.doe } :=
  hi.trans (event_eq hp _)

theorem exec_negotiateAlgorithms {s : State} (hp : s.power = true) (asym hash : List Nat) :
    exec (.negotiateAlgorithms asym hash) s = .next { s with doe :=
      (if 0x101 ∈ asym ∨ 0x102 ∈ hash then
        .algorithms (if 0x101 ∈ asym then 0x101 else 0) (if 0x102 ∈ hash then 0x102 else 0) else .error 1) :: s.doe } := by
  refine (exec_answer hp (fun _ => if asym.contains 0x101 || hash.contains 0x102 then
    .algorithms (if asym.contains 0x101 then 0x101 else 0) (if hash.contains 0x102 then 0x102 else 0) else .error 1) rfl).trans ?_
  simp only [List.contains_iff_mem, Bool.or_eq_true]

theorem State.measurements_eq (s : State) : s.measurements =
    [0, 1, 2].map (fun i => shake256 (Config.image (s.images.getD i 0))) ++ [shake256 steppings] := rfl

end Sys2Proof.Machine

namespace Sys2Proof.Proofs

open Sys2Proof Sys2Proof.Machine

/-- Settles O1: reset lists no byte of memory. -/
theorem resetInvariant : Obligations.ResetInvariant := by
  unfold Obligations.ResetInvariant State.Inv
  exact rfl

/-- Settles O2: the registers of the halls and of ownership are read from the reset table, and every core is one that has been idle
for no step. -/
theorem resetValues : Obligations.ResetValues := by
  unfold Obligations.ResetValues
  refine ⟨rfl, rfl, by decide, rfl, fun n hn => State.reset_hall hn, fun q => ?_⟩
  rw [State.reset_coreAt]
  exact ⟨rfl, rfl, rfl, rfl, rfl, fun g hg => CoreSt.idleFor_owner hg⟩

/-- Settles O58, part by part: reset, mdas, the removal of power, the accesses of the host, and the mailbox. -/
theorem hostAndReset : Obligations.HostAndReset := by
  unfold Obligations.HostAndReset
  intro s images asym hash a n nonce code bs args files kept
  refine ⟨⟨_, exec_moduleReset images s, State.keptOverReset rfl rfl, rfl⟩,
    ⟨_, exec_mdasAssemble args files s, assemble_status args files⟩, fun hp => ⟨?removal, ?access, ?barred, ?_, ?_, ?_, ?_, ?mailbox⟩⟩
  case removal =>
    exact ⟨_, exec_modulePowerRemoval hp, State.keptOverReset rfl rfl, rfl, rfl, rfl, rfl, rfl, rfl, rfl,
      exec_placementDecision_off rfl⟩
  case access =>
    intro hq ho
    refine ⟨fun hr hb => ?_, fun hr hb => ?_⟩
    · rw [exec_hostAccess hp, State.hostOp_read_quiet (deviceRange_of_le hr) hb hq ho]
    · refine ⟨{ s.poke a bs with hostData := some [] }, ?_, rfl, State.poke_harts s a bs, State.byte_poke s a bs⟩
      rw [exec_hostAccess hp, State.hostOp_write_quiet (deviceRange_of_le hr) hb hq ho]
  case barred =>
    intro hr f hb
    refine ⟨{ s.noteMigration { kind := 1, flags := 2 } f true with hostData := none }, ?_, rfl,
      fun k hk => State.noteMigration_mem_tracks hk⟩
    rw [exec_hostAccess hp, State.hostOp_read_barred hr hb]
  · intro hr
    rw [exec_hostAccess hp, State.hostOp_read_outside hr]
  · intro hr
    rw [exec_hostAccess hp, State.hostOp_write_outside hr]
  · rw [exec_hostAccess hp, State.hostOp_bar0]
  · rw [exec_hostAccess hp, State.hostOp_bar2]
  case mailbox =>
    dsimp only
    refine ⟨exec_answer hp (fun _ => .version [0x12, 0x13]) rfl, exec_answer hp (fun _ => .capabilities) rfl,
      ?both, ?asymOnly, ?hashOnly, ?neither, exec_answer hp (fun _ => .digests Config.certDigest) rfl,
      exec_answer hp (fun _ => .certificate Config.certificate) rfl,
      exec_answer hp (fun s => .challengeAuth Config.certDigest (Config.summary s.images) (Config.signature nonce)) rfl,
      ?measurements, exec_answer hp (fun _ => .error 7) rfl⟩
    case measurements =>
      rw [← State.measurements_eq]
      exact exec_answer hp (fun s => .measurements s.measurements) rfl
    all_goals
      intro ha hh
      rw [exec_negotiateAlgorithms hp]
      simp [ha, hh]

end Sys2Proof.Proofs
end

section
/-! Ownership of the module and register writes (R30, R133, R334 to R339, R412, R422). -/

namespace Sys2Proof.Machine

open Sys2Proof

/-! ### Management registers -/

@[simp] theorem State.getMgmt_setMgmt (s : State) (off : Nat) (v : Word) : (s.setMgmt off v).getMgmt off = v :=
  SMap.get_set_self s.mgmt off v

@[simp] theorem State.getMgmt_setCandidate (s : State) (c : Option (Nat × Nat)) (off : Nat) :
    ({ s with candidate := c } : State).getMgmt off = s.getMgmt off := rfl

/-! ### The fields of OWNST (R336) -/

theorem toNat_ownst (b e : Nat) (o : Bool) (m : Option Nat) : (ownst b e o m).toNat =
    b % 2 ^ 32 * 2 ^ 32 + e % 2 ^ 16 * 2 ^ 16 + (if o then 512 else 0) + (m.elim 0 (fun n => 256 + n % 8)) := by
  unfold ownst
  rw [BitVec.toNat_ofNat]
  cases m <;> cases o <;> simp only [Option.elim, if_true, Bool.false_eq_true, if_false] <;> omega

section
variable {t : State} {b e : Nat} {o : Bool} {m : Option Nat} (ht : t.getMgmt 0x200000 = ownst b e o m)
include ht

theorem State.owner?_of_ownst : t.owner? = m.map (· % 8) := by
  rw [State.owner?, ht, toNat_ownst]
  cases m <;> cases o <;> simp [pteBit] <;> omega

theorem State.ballot_of_ownst : (t.getMgmt 0x200000).toNat / 2 ^ 32 = b % 2 ^ 32 := by
  rw [ht, toNat_ownst]
  cases m <;> cases o <;> simp only [Option.elim, if_true, Bool.false_eq_true, if_false] <;> omega

theorem State.epoch_of_ownst : bits (t.getMgmt 0x200000).toNat 31 16 = e % 2 ^ 16 := by
  rw [ht, toNat_ownst, bits]
  cases m <;> cases o <;> simp only [Option.elim, if_true, Bool.false_eq_true, if_false] <;> omega

theorem State.open_of_ownst : (t.getMgmt 0x200000).toNat.testBit 9 = o := by
  rw [ht, toNat_ownst, Nat.testBit_eq_decide_div_mod_eq]
  cases m <;> cases o <;> simp only [Option.elim, if_true, Bool.false_eq_true, if_false, decide_eq_true_eq, decide_eq_false_iff_not] <;> omega

end

/-! ### Claims and handovers (R336, R337) -/

section
variable {s : State} (hp : s.power = true)
include hp

theorem exec_claimWrite (master : Nat) (v : Word) :
    exec (.claimWrite master v) s = .next (s.claim master (v.toNat % 2 ^ 32)) :=
  event_eq hp (fun s => s.claim master (v.toNat % 2 ^ 32))

theorem exec_claimWindowClose : exec .claimWindowClose s = .next s.closeWindow := event_eq hp State.closeWindow

theorem exec_handoverRelease (master : Nat) :
    exec (.handoverRelease master) s = .next (s.ownerWrite master 0x200010 State.disown) :=
  event_eq hp (fun s => s.ownerWrite master 0x200010 State.disown)

theorem exec_handoverTransfer (master dest : Nat) :
    exec (.handoverTransfer master dest) s = .next (s.ownerWrite master 0x200010 (fun s => s.transferTo master dest)) :=
  event_eq hp (fun s => s.ownerWrite master 0x200010 (fun s => s.transferTo master dest))

theorem exec_ownerLinkDown (master : Nat) : exec (.ownerLinkDown master) s = .next (s.ownerLost master) :=
  event_eq hp (fun s => s.ownerLost master)

theorem exec_msgWrite (window offset master : Nat) (bytes : List Byte) :
    exec (.msgWrite window offset master bytes) s = .next (s.msgWrite window offset master bytes) :=
  event_eq hp (fun s => s.msgWrite window offset master bytes)

theorem exec_registerWrite_mgmt (master off : Nat) (v : Word) :
    exec (.registerWrite (.mgmt master off) v) s = .next (s.mgmtWrite master off v) :=
  event_eq hp (fun s => s.mgmtWrite master off v)

end

section
variable {s : State} {master : Nat}

theorem State.ownerWrite_owner (ho : s.owner? = some master) (off : Nat) (f : State → State) :
    s.ownerWrite master off f = f s := if_pos ho

theorem State.ownerWrite_other (ho : s.owner? ≠ some master) (off : Nat) (f : State → State) :
    s.ownerWrite master off f = s.ignored master off := if_neg ho

theorem State.claim_ignored {b : Nat} (hb : b = 0 ∨ s.owner?.isSome) : s.claim master b = s.ignored master 0x200008 :=
  if_pos hb

/-- A claim while the module has no owner leaves the window open, and the higher ballot its candidate. -/
theorem State.claim_contends {b : Nat} (hb : b ≠ 0) (ho : s.owner? = none) :
    (s.claim master b).getMgmt 0x200000 = ownst s.ballot s.epoch true none ∧
      (s.claim master b).candidate = (match s.candidate with
        | none => some (master, b)
        | some (m, c) => if c < b then some (master, b) else some (m, c)) := by
  have hc : ¬ (b = 0 ∨ s.owner?.isSome) := by simp [hb, ho]
  have hw (c : Option (Nat × Nat)) : ({ s.setMgmt 0x200000 (ownst s.ballot s.epoch true none) with candidate := c } : State).getMgmt
      0x200000 = ownst s.ballot s.epoch true none := by rw [State.getMgmt_setCandidate, State.getMgmt_setMgmt]
  unfold State.claim
  rw [if_neg hc]
  dsimp only
  rw [State.setMgmt_candidate]
  cases hs : s.candidate with
  | none => exact ⟨hw _, rfl⟩
  | some p =>
    obtain ⟨m, c⟩ := p
    simp only [decide_eq_true_eq]
    split
    · exact ⟨hw _, rfl⟩
    · exact ⟨State.getMgmt_setMgmt .., (State.setMgmt_candidate ..).trans hs⟩

theorem State.closeWindow_none (hc : s.candidate = none) : s.closeWindow = s := by
  rw [State.closeWindow, hc]

theorem State.closeWindow_some {m b : Nat} (hc : s.candidate = some (m, b)) :
    s.closeWindow = { s.setMgmt 0x200000 (ownst b (s.epoch + 1) false (some m)) with candidate := none } := by
  rw [State.closeWindow, hc]

theorem State.ownerLost_owner (ho : s.owner? = some master) (hm : master ≤ 4) : s.ownerLost master = s.disown :=
  if_pos ⟨ho, hm⟩

theorem State.ownerLost_other (ho : s.owner? ≠ some master) : s.ownerLost master = s := if_neg (fun h => ho h.1)

theorem State.transferTo_ignored {dest : Nat} (hd : dest = master ∨ 5 < dest) :
    s.transferTo master dest = s.ignored master 0x200010 := if_pos hd

theorem State.transferTo_valid {dest : Nat} (hm : dest ≠ master) (hd : dest ≤ 5) :
    s.transferTo master dest = s.setMgmt 0x200000 (ownst s.ballot (s.epoch + 1) false (some dest)) :=
  if_neg (by omega)

theorem State.disown_ownst (s : State) : s.disown.getMgmt 0x200000 = ownst 0 (s.epoch + 1) false none :=
  State.getMgmt_setMgmt ..

/-! ### Register writes (R133, R335, R422) -/

/-- An offset that has no row of its own in the table of owner's writes. -/
theorem State.mgmtWrite_plain {off : Nat} (v : Word)
    (ho : off ∉ [0x200008, 0x200010, 0x230008, 0x230010, 0x230020, 0x240000]) : s.mgmtWrite master off v =
    if 0x100000 ≤ off ∧ off < 0x140000 ∧ off % 0x1000 < 0x40 then
      s.msgWrite ((off - 0x100000) / 0x1000) (off % 0x1000) master (leBytes 8 v.toNat)
    else
      match ownerStored off v with
      | none => s
      | some w => s.ownerWrite master off (fun s => s.setMgmt off w) := by
  simp only [List.mem_cons, List.not_mem_nil, or_false, not_or] at ho
  obtain ⟨h1, h2, h3, h4, h5, h6⟩ := ho
  exact State.mgmtWrite.eq_7 s master off v h1 h2 h3 h4 h5 h6

theorem State.mgmtWrite_msg {off : Nat} (v : Word) (hw : 0x100000 ≤ off ∧ off < 0x140000 ∧ off % 0x1000 < 0x40) :
    s.mgmtWrite master off v = s.msgWrite ((off - 0x100000) / 0x1000) (off % 0x1000) master (leBytes 8 v.toNat) := by
  rw [State.mgmtWrite_plain v (by simp only [List.mem_cons, List.not_mem_nil, or_false]; omega), if_pos hw]

section
variable {off : Nat} {v : Word} (ho : off ∉ [0x200008, 0x200010, 0x230008, 0x230010, 0x230020, 0x240000])
  (hw : ¬ (0x100000 ≤ off ∧ off < 0x140000 ∧ off % 0x1000 < 0x40))
include ho hw

theorem State.mgmtWrite_unheld (hv : ownerStored off v = none) : s.mgmtWrite master off v = s := by
  rw [State.mgmtWrite_plain v ho, if_neg hw, hv]

theorem State.mgmtWrite_stored {w : Word} (hv : ownerStored off v = some w) :
    s.mgmtWrite master off v = s.ownerWrite master off (fun s => s.setMgmt off w) := by
  rw [State.mgmtWrite_plain v ho, if_neg hw, hv]

end

/-- The entry of a context keeps V, MASTER and ROOT of what is written (R339). -/
theorem ownerStored_context {k : Nat} (hk : k < 1024) (v : Word) :
    ownerStored (0x210000 + 8 * k) v = some (v &&& 0x8007ffffffff0000) := by
  unfold ownerStored
  dsimp only
  rw [if_neg (by omega), if_neg (by omega), if_neg (by omega), if_pos (by omega)]

theorem csrOp_write {h : Hart} {n : Nat} (hs : s.hart? = some h) (hf : h.csrFault n = none) (hn : n ≠ 0xc22) (rd : XReg)
    (v : Word) {u : State} :
    let s1 := if n = 0xc03 then s.flagsReady h else s
    let h1 := (s1.hart?).getD h
    let r := s1.readCsr h1 n
    r.1.writeCsr ((r.1.hart?).getD h1) n v = .ok u →
      csrOp rd n (fun _ _ => some v) s = .next (u.did (fun g => g.setX rd r.2) 4) := by
  intro s1 h1 r hw
  rw [csrOp, onHart_eq hs, hf]
  simp only [hn, decide_false, Bool.false_and, Bool.false_eq_true, if_false]
  change Exec.outcome 4 (match r.1.writeCsr ((r.1.hart?).getD h1) n v with
    | .error (t, f, va) => t.memTrap ((r.1.hart?).getD h1) 2 f va 0 none none 32
    | .ok s => .done (s.updHart (fun h => h.setX rd r.2))) = _
  rw [hw]
  rfl

/-! ### A module of the UCIe link lost (R334) -/

/-- The modules that are left are counted, and nothing changes but that and what becomes due. -/
theorem exec_ucieModuleLoss (hp : s.power = true) :
    ∃ es, exec .ucieModuleLoss s = .next { s with ucie := s.ucie - 1, inbox := s.inbox ++ es } := by
  refine ⟨if s.ucie - 1 = 0 then
    ((s.owner?.filter (fun m => decide (m ≤ 3))).toList).map (fun m => .ownerLinkDown m) else [], ?_⟩
  have he : exec .ucieModuleLoss s = execUcieModuleLoss s := rfl
  rw [he, execUcieModuleLoss, event_eq hp]
  dsimp only
  split
  · rfl
  · rw [List.append_nil]

end

end Sys2Proof.Machine

namespace Sys2Proof.Proofs

open Sys2Proof Sys2Proof.Machine

/-- Settles O57: the ownership events by the fields of the OWNST word that each leaves, the register writes by the offset's class. -/
theorem ownership : Obligations.Ownership := by
  unfold Obligations.Ownership
  intro s master dest off n v hp b word epoch
  refine ⟨?_, ?claim, ?_, ?close, ?others, ?owner, ?msg, ?held, ?context, ?csr, ?ucie⟩
  · intro hb
    rw [exec_claimWrite hp, State.claim_ignored hb]
  case claim =>
    intro hb ho
    obtain ⟨hw, hc⟩ := State.claim_contends (master := master) hb ho
    exact ⟨_, exec_claimWrite hp master v, State.owner?_of_ownst hw, State.open_of_ownst hw, hc⟩
  · intro hc
    rw [exec_claimWindowClose hp, State.closeWindow_none hc]
  case close =>
    intro m c hc hm hb
    rw [exec_claimWindowClose hp, State.closeWindow_some hc]
    refine ⟨_, rfl, ?_⟩
    generalize ht : ({ s.setMgmt 0x200000 (ownst c (s.epoch + 1) false (some m)) with candidate := none } : State) = t
    have hw : t.getMgmt 0x200000 = ownst c (s.epoch + 1) false (some m) := by
      rw [← ht, State.getMgmt_setCandidate, State.getMgmt_setMgmt]
    refine ⟨?_, by rw [← ht], ?_, State.epoch_of_ownst hw, State.open_of_ownst hw⟩
    · rw [State.owner?_of_ownst hw, Option.map_some, Nat.mod_eq_of_lt (by omega)]
    · exact (State.ballot_of_ownst hw).trans (Nat.mod_eq_of_lt hb)
  case others =>
    intro ho
    rw [exec_handoverRelease hp, exec_handoverTransfer hp, exec_ownerLinkDown hp, State.ownerWrite_other ho,
      State.ownerWrite_other ho, State.ownerLost_other ho]
    exact ⟨rfl, rfl, rfl⟩
  case owner =>
    intro ho
    have hw := State.disown_ownst s
    refine ⟨⟨s.disown, ?_, State.owner?_of_ownst hw, State.ballot_of_ownst hw, State.epoch_of_ownst hw⟩, fun hd => ?_,
      fun hm hd => ?transfer, fun hm => ⟨s.disown, ?_, State.owner?_of_ownst hw, State.epoch_of_ownst hw⟩⟩
    · rw [exec_handoverRelease hp, State.ownerWrite_owner ho]
    · rw [exec_handoverTransfer hp, State.ownerWrite_owner ho, State.transferTo_ignored hd]
    case transfer =>
      refine ⟨s.setMgmt 0x200000 (ownst s.ballot (s.epoch + 1) false (some dest)), ?_, ?_, ?_, ?_⟩
      · rw [exec_handoverTransfer hp, State.ownerWrite_owner ho, State.transferTo_valid hm hd]
      · rw [State.owner?_of_ownst (State.getMgmt_setMgmt ..), Option.map_some, Nat.mod_eq_of_lt (by omega)]
      · refine (State.ballot_of_ownst (State.getMgmt_setMgmt ..)).trans (Nat.mod_eq_of_lt ?_)
        have := (s.getMgmt 0x200000).isLt
        rw [State.ballot]
        omega
      · exact State.epoch_of_ownst (State.getMgmt_setMgmt ..)
    · rw [exec_ownerLinkDown hp, State.ownerLost_owner ho hm]
  case msg =>
    intro hw
    rw [exec_registerWrite_mgmt hp, exec_msgWrite hp, State.mgmtWrite_msg v hw]
  case held =>
    intro ho hw
    rw [exec_registerWrite_mgmt hp]
    refine ⟨fun hv => ?_, fun w hv hm => ?_, fun w hv hm => ?_⟩
    · rw [State.mgmtWrite_unheld ho hw hv]
    · rw [State.mgmtWrite_stored ho hw hv, State.ownerWrite_owner hm]
    · rw [State.mgmtWrite_stored ho hw hv, State.ownerWrite_other hm]
  case context =>
    intro k hk hm
    have ho : 0x210000 + 8 * k ∉ [0x200008, 0x200010, 0x230008, 0x230010, 0x230020, 0x240000] := by
      simp only [List.mem_cons, List.not_mem_nil, or_false]
      omega
    rw [exec_registerWrite_mgmt hp, State.mgmtWrite_stored ho (by omega) (ownerStored_context hk v), State.ownerWrite_owner hm]
  case csr =>
    intro h hs hf hn s1 h1 r u hu
    exact csrOp_write hs hf hn 0 v hu
  case ucie =>
    obtain ⟨es, he⟩ := exec_ucieModuleLoss hp
    exact ⟨_, he, rfl, rfl⟩

end Sys2Proof.Proofs
end

section
/-! `launch` and the state in which a hart starts (R32 to R35, R46, R144, R370, R382). -/

namespace Sys2Proof.Machine

open Sys2Proof

/-! ### A message submitted (R144) -/

theorem State.submit_full {t : State} {l : Launch} (hf : 1024 ≤ t.taken l.window) (d : XReg) (va : Word) :
    t.submit d va l = .wait (t.updHart (fun g => { g with run := .launching d va l.msg l.window })) := if_pos hf

theorem State.submit_room {t : State} {l : Launch} (hf : t.taken l.window < 1024) (d : XReg) (va : Word) :
    t.submit d va l = .done ((t.accept l).updHart (fun g => { g.setX d (BitVec.ofNat 64 t.accepted) with run := .running })) :=
  if_neg (by omega)

/-- A launch as its acceptance leaves it (R30, R38, R45). -/
def Launch.accepted (l : Launch) (t : State) : Launch :=
  { l with acc := t.accepted, stamp := t.tick + 1, st := if l.waiten then .waiting else .ready }

@[simp] theorem State.accept_launches (t : State) (l : Launch) : (t.accept l).launches = t.launches ++ [l.accepted t] := rfl
@[simp] theorem State.accept_accepted (t : State) (l : Launch) : (t.accept l).accepted = t.accepted + 1 := rfl
@[simp] theorem State.accept_harts (t : State) (l : Launch) : (t.accept l).harts = t.harts := rfl
@[simp] theorem State.accept_mem (t : State) (l : Launch) : (t.accept l).mem = t.mem := rfl

/-- A message that is not well formed traps with 0x5001 (R32, R382). -/
theorem State.checkSubmit_malformed {t : State} {h : Hart} {msg : BitVec 512} {n : Nat}
    (hw : t.wellFormed (Launch.ofMsg n h.ctx msg) = false) (d : XReg) (va : Word) :
    t.checkSubmit h d va msg n = .trap t { code := 0x5001, tva := va } := by
  simp [State.checkSubmit, hw]

theorem State.checkSubmit_wellFormed {t : State} {h : Hart} {msg : BitVec 512} {n : Nat}
    (hw : t.wellFormed (Launch.ofMsg n h.ctx msg) = true) (d : XReg) (va : Word) :
    t.checkSubmit h d va msg n = t.submit d va (Launch.ofMsg n h.ctx msg) := by
  simp [State.checkSubmit, hw]

/-! ### `launch` as its hart meets it (R35, R144) -/

section
variable {s : State} {h : Hart} (hs : s.hart? = some h) (rd ra : XReg)
include hs

/-- A `launch` that has waited for room, by the window that it now submits to. -/
theorem exec_launch_again {rd' : XReg} {va : Word} {msg : BitVec 512} {n : Nat} (hr : h.run = .launching rd' va msg n) :
    (s.windowNow h.ctx n = none →
      exec (.launch rd ra) s = .next ((s.setHart { h with run := .running }).takeTrap { code := 0x1103 })) ∧
    ∀ m, s.windowNow h.ctx n = some m →
      exec (.launch rd ra) s = ((s.setHart { h with run := .running }).checkSubmit h rd' va msg m).outcome 4 := by
  have he : exec (.launch rd ra) s = execLaunch rd ra s := rfl
  have hn : (s.setHart { h with run := .running }).windowNow h.ctx n = s.windowNow h.ctx n := rfl
  rw [he, execLaunch, onHart_eq hs, hr]
  dsimp only
  rw [hn]
  refine ⟨fun hw => ?_, fun m hw => ?_⟩ <;> rw [hw]
  rfl

section
variable (hr : ∀ rd' va msg n, h.run ≠ .launching rd' va msg n)
include hr

theorem exec_launch_misaligned (ha : (h.getX ra).toNat % 64 ≠ 0) :
    exec (.launch rd ra) s = .next (s.takeTrap { code := 0x1102 }) := by
  have he : exec (.launch rd ra) s = execLaunch rd ra s := rfl
  rw [he, execLaunch, onHart_eq hs]
  dsimp only
  split
  · exact absurd ‹_› (hr _ _ _ _)
  · rw [if_pos ha]
    rfl

/-- A `launch` whose hart's older operations are performed, by the window that it finds. -/
theorem exec_launch_released {u : State} (ha : (h.getX ra).toNat % 64 = 0) (hu : s.release h.hid = (u, true)) :
    (u.launchWindow h.ctx = none → exec (.launch rd ra) s = .next (u.takeTrap { code := 0x1103 })) ∧
    ∀ n t bs, u.launchWindow h.ctx = some n → u.load h false .scalarLoad (h.getX ra) 64 = .ok (t, bs) →
      exec (.launch rd ra) s = (t.checkSubmit h rd (h.getX ra) (msgOf bs) n).outcome 4 := by
  have he : exec (.launch rd ra) s = execLaunch rd ra s := rfl
  rw [he, execLaunch, onHart_eq hs]
  dsimp only
  split
  · exact absurd ‹_› (hr _ _ _ _)
  · rw [if_neg (by omega), hu]
    dsimp only [Bool.not_true]
    refine ⟨fun hw => ?_, fun n t bs hw hl => ?_⟩ <;> rw [hw]
    · rfl
    · dsimp only
      rw [hl]
      rfl

end

end

/-! ### The hart as placement starts it (R46, R278, R370) -/

section
variable (s : State) (l : Launch) (g : Gang) (idx : Nat)

/-- The registers of a starting hart: its five arguments in x10 to x14. -/
theorem State.startHart_getX {n : XReg} (hn : n ≠ 0) : (s.startHart l g idx).getX n =
    if 10 ≤ n.toNat ∧ n.toNat < 15 then
      ([l.arg, g.index, idx, l.gangs, l.tag].map (BitVec.ofNat 64)).getD (n.toNat - 10) 0 else 0 := by
  rw [Hart.getX, if_neg hn]
  exact SMap.get_setAll _ [] 10 n.toNat

theorem State.startHart_getX_other {n : XReg} (hn : n < 10 ∨ 14 < n) : (s.startHart l g idx).getX n = 0 := by
  by_cases h0 : n = 0
  · rw [Hart.getX, if_pos h0]
  · rw [State.startHart_getX s l g idx h0, if_neg]
    have h10 : (10 : XReg).toNat = 10 := rfl
    have h14 : (14 : XReg).toNat = 14 := rfl
    rw [BitVec.lt_def, BitVec.lt_def] at hn
    omega

/-- TVEC of level S and of level M come from the context's vector-table entry. -/
theorem State.startHart_tvec :
    (s.startHart l g idx).getCsr 0xd27 = s.getMgmt (0x250000 + 16 * l.ctx) &&& ~~~2 ∧
      (s.startHart l g idx).getCsr 0xf27 = s.getMgmt (0x250008 + 16 * l.ctx) &&& ~~~2 := by
  have hS : (s.startHart l g idx).getCsr 0xd27 = s.tvec l.ctx 0 :=
    (SMap.get_set_ne _ _ (by decide)).trans (SMap.get_set_self ..)
  have hM : (s.startHart l g idx).getCsr 0xf27 = s.tvec l.ctx 1 := SMap.get_set_self ..
  refine ⟨hS, ?_⟩
  rw [hM, State.tvec, show 0x250000 + 16 * l.ctx + 8 * 1 = 0x250008 + 16 * l.ctx by omega]
  rfl

end

end Sys2Proof.Machine

namespace Sys2Proof.Proofs

open Sys2Proof Sys2Proof.Machine

/-- Settles O55: a `launch` comes to the submission of a message, at once or after a wait, and the submission by the room of its
window; the starting hart field by field. -/
theorem launchAndStart : Obligations.LaunchAndStart := by
  unfold Obligations.LaunchAndStart
  intro s u h rd ra hs va submit checked
  have submitted {t : State} {d : XReg} {va : Word} {l : Launch}
      (he : exec (.launch rd ra) s = (t.submit d va l).outcome 4) : submit t d va l := by
    refine ⟨fun hf => ?_, fun hf => ⟨t.accept l, l.accepted t, ?_, State.accept_launches t l, rfl,
      State.accept_accepted t l, State.accept_harts t l, State.accept_mem t l⟩⟩
    · rw [he, State.submit_full hf, Exec.outcome_wait]
    · rw [he, State.submit_room hf, Exec.outcome_done]
      rfl
  have verified {t : State} {d : XReg} {va : Word} {msg : BitVec 512} {n : Nat}
      (he : exec (.launch rd ra) s = (t.checkSubmit h d va msg n).outcome 4) : checked t d va (Launch.ofMsg n h.ctx msg) := by
    refine ⟨fun hw => ?_, fun hw => submitted ?_⟩
    · rw [he, State.checkSubmit_malformed hw, Exec.outcome_trap]
    · rw [he, State.checkSubmit_wellFormed hw]
  refine ⟨?again, ?first, ?start⟩
  case again =>
    intro rd' va msg n hr r now
    obtain ⟨hnone, hsome⟩ := exec_launch_again hs rd ra hr
    have hnow : s.windowNow h.ctx n = now := by simp [State.windowNow, now]
    rw [hnow] at hnone hsome
    exact ⟨hnone, fun m hm => verified (hsome m hm)⟩
  case first =>
    intro hr
    refine ⟨exec_launch_misaligned hs rd ra hr, fun ha hu => ?_⟩
    obtain ⟨hnone, hsome⟩ := exec_launch_released hs rd ra hr ha hu
    exact ⟨hnone, fun n t bs hw hl => verified (hsome n t bs hw hl)⟩
  case start =>
    intro l g idx k
    obtain ⟨hS, hM⟩ := State.startHart_tvec s l g idx
    have hx {n : XReg} (hn : n ≠ 0) := State.startHart_getX s l g idx hn
    exact ⟨rfl, rfl, rfl, rfl, rfl, rfl, rfl, hx (by decide), hx (by decide), hx (by decide), hx (by decide), hx (by decide),
      fun n hn => State.startHart_getX_other s l g idx hn, rfl, rfl, rfl, rfl, hS, hM⟩

end Sys2Proof.Proofs
end

section
/-! `retire` and the end of a hart (R28, R57, R245). -/

namespace Sys2Proof.Machine

open Sys2Proof

/-! ### What performing a hart's accesses may change (R239, R303) -/

/-- From `s` to `t` accesses of hart `hid` have been performed: memory and what memory brings with it have changed, and of the harts
only that one, which keeps its number. -/
structure State.Performed (hid : Nat) (s t : State) : Prop where
  frame : t = { s with harts := t.harts, mem := t.mem, poison := t.poison, history := t.history, inbox := t.inbox }
  harts : ∃ f : Hart → Hart, (∀ g, (f g).hid = g.hid) ∧ t.harts = s.harts.map (fun g => if g.hid == hid then f g else g)

namespace State.Performed

theorem refl (hid : Nat) (s : State) : State.Performed hid s s := ⟨rfl, id, fun _ => rfl, by simp⟩

theorem trans {hid : Nat} {s t u : State} (h : State.Performed hid s t) (k : State.Performed hid t u) :
    State.Performed hid s u := by
  obtain ⟨hf, f, hid', ht⟩ := h
  obtain ⟨kf, f', kid, hu⟩ := k
  refine ⟨by rw [kf, hf], fun g => f' (f g), fun g => (kid _).trans (hid' g), ?_⟩
  rw [hu, ht, List.map_map]
  refine List.map_congr_left (fun g _ => ?_)
  by_cases hg : g.hid = hid <;> simp [hg, hid' g]

theorem poke (hid : Nat) (s : State) (loc : Nat) (bs : List Byte) : State.Performed hid s (s.poke loc bs) :=
  ⟨rfl, id, fun _ => rfl, by simp⟩

theorem updHartAt (hid : Nat) (s : State) {f : Hart → Hart} (hf : ∀ g, (f g).hid = g.hid) :
    State.Performed hid s (s.updHartAt hid f) := ⟨rfl, f, hf, rfl⟩

theorem perform (hid : Nat) (s : State) (x : Pending) : State.Performed hid s (s.perform hid x) := by
  unfold State.perform
  split
  · exact poke hid s _ _
  · dsimp only
    split
    · exact updHartAt hid s (fun _ => rfl)
    · exact (poke hid s _ _).trans (updHartAt hid _ (fun _ => rfl))

theorem foldl {α : Type} {hid : Nat} {f : State → α → State} (hf : ∀ s a, State.Performed hid s (f s a)) :
    ∀ (l : List α) (s : State), State.Performed hid s (l.foldl f s)
  | [], s => refl hid s
  | a :: l, s => (hf s a).trans (foldl hf l _)

theorem performSome (hid : Nat) (s : State) (p : Pending → Bool) (c : Nat) :
    State.Performed hid s (s.performSome hid p c) := by
  unfold State.performSome
  split
  · exact refl hid s
  · refine State.Performed.trans (t := s.updHartAt hid _) ?_ (foldl (fun s (x : Pending × Bool) => perform hid s x.1) _ _)
    exact updHartAt hid s (fun _ => rfl)

theorem drain (hid : Nat) (s : State) : State.Performed hid s (s.drain hid) := performSome hid s _ _

theorem gangs {hid : Nat} {s t : State} (h : State.Performed hid s t) : t.gangs = s.gangs := by rw [h.frame]

theorem launches {hid : Nat} {s t : State} (h : State.Performed hid s t) : t.launches = s.launches := by rw [h.frame]

/-- The other harts stand as they stood. -/
theorem others {hid : Nat} {s t : State} (h : State.Performed hid s t) :
    t.harts.filter (fun g => g.hid != hid) = s.harts.filter (fun g => g.hid != hid) := by
  obtain ⟨f, hf, ht⟩ := h.harts
  rw [ht]
  induction s.harts with
  | nil => rfl
  | cons g l ih => cases hg : g.hid == hid <;> simp_all

end State.Performed

/-! ### Gangs and launches by what names them -/

theorem State.gangAt_place {s : State} {q slot : Nat} {g : Gang} (hg : s.gangAt q slot = some g) : g.core = q ∧ g.slot = slot := by
  simpa using List.find?_some hg

/-- The gang of a slot after a gang of that slot has been put there. -/
theorem State.gangAt_setGang {s : State} {q slot : Nat} {g g' : Gang} (hg : s.gangAt q slot = some g) (hq : g'.core = q)
    (hl : g'.slot = slot) : (s.setGang g').gangAt q slot = some g' := by
  have hp : ((fun k : Gang => k.core == q && k.slot == slot) ∘ fun f => if f.core == g'.core && f.slot == g'.slot then g' else f) =
      fun k => k.core == q && k.slot == slot := by
    funext k
    subst hq hl
    dsimp only [Function.comp]
    split <;> simp_all
  obtain ⟨hc, hs⟩ := State.gangAt_place hg
  unfold State.gangAt at hg ⊢
  rw [State.setGang_gangs, List.find?_map, hp, hg, Option.map_some, if_pos (by simp [hc, hs, hq, hl])]

/-- The launch of a number after a change of launches that keeps their numbers. -/
theorem State.launchAt_updLaunch (s : State) {acc : Nat} {f : Launch → Launch} (hf : ∀ l, (f l).acc = l.acc) :
    (s.updLaunch acc f).launchAt acc = (s.launchAt acc).map f := by
  have hp : ((fun l : Launch => l.acc == acc) ∘ fun l => if l.acc == acc then f l else l) = fun l => l.acc == acc := by
    funext l
    dsimp only [Function.comp]
    split <;> simp_all
  unfold State.launchAt
  rw [State.updLaunch_launches, List.find?_map, hp]
  cases hl : s.launches.find? (fun l => l.acc == acc) with
  | none => rfl
  | some l => rw [Option.map_some, Option.map_some, if_pos (List.find?_some hl)]

/-! ### The end of a hart (R245) -/

/-- The end of a gang takes it off its core and counts it with its launch (R28, R57). -/
theorem State.endGang_eq (s : State) (g : Gang) : ∃ cs es, s.endGang g = { s with
    gangs := s.gangs.filter (fun f => !(f.core == g.core && f.slot == g.slot))
    launches := s.launches.map (fun l => if l.acc == g.launch then { l with ended := l.ended + 1 } else l)
    cores := cs, inbox := es } := by
  unfold State.endGang
  dsimp only
  split <;> exact ⟨_, _, rfl⟩

@[simp] theorem Gang.leave_core (g : Gang) (idx : Nat) : (g.leave idx).core = g.core := by
  unfold Gang.leave; dsimp only; split <;> rfl
@[simp] theorem Gang.leave_slot (g : Gang) (idx : Nat) : (g.leave idx).slot = g.slot := by
  unfold Gang.leave; dsimp only; split <;> rfl
@[simp] theorem Gang.leave_launch (g : Gang) (idx : Nat) : (g.leave idx).launch = g.launch := by
  unfold Gang.leave; dsimp only; split <;> rfl
@[simp] theorem Gang.leave_index (g : Gang) (idx : Nat) : (g.leave idx).index = g.index := by
  unfold Gang.leave; dsimp only; split <;> rfl

/-- LND after a hart has left (R245). -/
theorem Gang.leave_lnd (g : Gang) (idx : Nat) :
    let live := g.live &&& ~~~(1#4 <<< idx)
    (g.leave idx).live = live ∧
      (live ≠ 0 → g.arr &&& live = live → (g.leave idx).phase = g.phase + 1 ∧ (g.leave idx).arr = 0) ∧
      (g.arr &&& live ≠ live → (g.leave idx).phase = g.phase ∧ (g.leave idx).arr = g.arr) := by
  intro live
  by_cases hc : live ≠ 0 ∧ g.arr &&& live = live
  · rw [show g.leave idx = { g with live, arr := 0, phase := g.phase + 1 } from if_pos hc]
    exact ⟨rfl, fun _ _ => ⟨rfl, rfl⟩, fun hn => absurd hc.2 hn⟩
  · rw [show g.leave idx = { g with live } from if_neg hc]
    exact ⟨rfl, fun h0 ha => absurd ⟨h0, ha⟩ hc, fun _ => ⟨rfl, rfl⟩⟩

/-- The harts of a hart's gang that stay when it leaves. -/
def State.mates (s : State) (h : Hart) : List Hart :=
  s.harts.filter (fun k => k.hid != h.hid && (k.q == h.q && k.slot == h.slot))

theorem State.mates_eq_nil {s : State} {h : Hart} :
    s.mates h = [] ↔ ∀ k ∈ s.harts, k.hid = h.hid ∨ k.q ≠ h.q ∨ k.slot ≠ h.slot := by
  simp [State.mates, List.filter_eq_nil_iff, or_iff_not_imp_left]

/-- What a hart that leaves does to the state, but for its gang: its older stores are performed, and it is gone. -/
def State.Departs (s : State) (h : Hart) (t : State) : Prop :=
  t.cur = s.cur ∧ t.mem = (s.drain h.hid).mem ∧ t.harts = s.harts.filter (fun g => g.hid != h.hid)

/-- The state without a hart of gang `g`, of which the gang's LND knows. -/
def State.gone (s : State) (h : Hart) (g : Gang) : State :=
  let u := ((s.drain h.hid).updCore h.q (fun c => c.dropJobs (fun j => j.hid == h.hid))).setGang (g.leave h.idx)
  { u with harts := u.harts.filter (fun k => k.hid != h.hid), engines := u.engines.map (fun (c : EngineCmd) =>
    if c.hid == some h.hid then { c with hid := none } else c) }

section
variable {s : State} {h : Hart}

theorem State.leaveHart_noGang (hg : s.gangOf h = none) : s.Departs h (s.leaveHart h) := by
  have hd := State.Performed.drain h.hid s
  have hc : (s.drain h.hid).cur = s.cur := by rw [hd.frame]
  have hg' : ((s.drain h.hid).updCore h.q (fun c => c.dropJobs (fun j => j.hid == h.hid))).gangOf h = none := by
    rw [State.gangOf, State.gangAt, State.updCore_gangs, hd.gangs]
    exact hg
  rw [State.leaveHart, hg']
  exact ⟨hc, rfl, hd.others⟩

/-- A hart of a gang leaves: its gang ends where no hart of it is left. -/
theorem State.leaveHart_some {g : Gang} (hg : s.gangOf h = some g) :
    s.leaveHart h = if ((s.gone h g).hartsOf g).isEmpty then (s.gone h g).endGang (g.leave h.idx) else s.gone h g := by
  have hd := State.Performed.drain h.hid s
  have hg' : ((s.drain h.hid).updCore h.q (fun c => c.dropJobs (fun j => j.hid == h.hid))).gangOf h = some g := by
    rw [State.gangOf, State.gangAt, State.updCore_gangs, hd.gangs]
    exact hg
  rw [State.leaveHart, hg']
  rfl

theorem State.gone_departs (s : State) (h : Hart) (g : Gang) : s.Departs h (s.gone h g) := by
  have hd := State.Performed.drain h.hid s
  exact ⟨by rw [State.gone, hd.frame]; rfl, rfl, hd.others⟩

theorem State.gone_gangs (s : State) (h : Hart) (g : Gang) : (s.gone h g).gangs = (s.setGang (g.leave h.idx)).gangs := by
  rw [State.setGang_gangs, ← (State.Performed.drain h.hid s).gangs]
  rfl

theorem State.gone_launches (s : State) (h : Hart) (g : Gang) : (s.gone h g).launches = s.launches :=
  (State.Performed.drain h.hid s).launches

theorem State.gone_hartsOf {g : Gang} (hg : s.gangOf h = some g) : (s.gone h g).hartsOf g = s.mates h := by
  obtain ⟨hq, hl⟩ := State.gangAt_place hg
  obtain ⟨-, -, hh⟩ := State.gone_departs s h g
  rw [State.hartsOf, State.mates, hh, List.filter_filter, hq, hl]
  exact List.filter_congr (fun k _ => Bool.and_comm ..)

/-- With other harts of its gang left, a hart that leaves only steps its gang's LND. -/
theorem State.leaveHart_mates {g : Gang} (hg : s.gangOf h = some g) (hm : s.mates h ≠ []) : s.leaveHart h = s.gone h g := by
  rw [State.leaveHart_some hg, State.gone_hartsOf hg, if_neg (by simpa using hm)]

/-- With its last hart a gang ends. -/
theorem State.leaveHart_alone {g : Gang} (hg : s.gangOf h = some g) (hm : s.mates h = []) :
    s.leaveHart h = (s.gone h g).endGang (g.leave h.idx) := by
  rw [State.leaveHart_some hg, State.gone_hartsOf hg, hm]
  rfl

theorem State.departs_leaveHart (s : State) (h : Hart) : s.Departs h (s.leaveHart h) := by
  cases hg : s.gangOf h with
  | none => exact State.leaveHart_noGang hg
  | some g =>
    by_cases hm : s.mates h = []
    · obtain ⟨cs, es, he⟩ := State.endGang_eq (s.gone h g) (g.leave h.idx)
      rw [State.leaveHart_alone hg hm, he]
      exact State.gone_departs s h g
    · rw [State.leaveHart_mates hg hm]
      exact State.gone_departs s h g

theorem State.Departs.hartAt_self {t : State} (hd : s.Departs h t) : t.hartAt h.hid = none := by
  obtain ⟨-, -, hh⟩ := hd
  simp [State.hartAt, hh]

theorem State.Departs.hartAt_ne {t : State} (hd : s.Departs h t) {n : Nat} (hn : n ≠ h.hid) : t.hartAt n = s.hartAt n := by
  obtain ⟨-, -, hh⟩ := hd
  rw [State.hartAt, hh, List.find?_filter]
  refine congrArg (fun p => s.harts.find? p) (funext fun g => ?_)
  by_cases hg : g.hid = n <;> simp [hg, hn]

/-- Where harts of the gang are left, it is in its slot with its new LND. -/
theorem State.leaveHart_gangAt {g : Gang} (hg : s.gangOf h = some g) (hm : s.mates h ≠ []) :
    (s.leaveHart h).gangAt h.q h.slot = some (g.leave h.idx) := by
  obtain ⟨hq, hl⟩ := State.gangAt_place hg
  rw [State.leaveHart_mates hg hm, State.gangAt, State.gone_gangs]
  exact State.gangAt_setGang hg ((Gang.leave_core ..).trans hq) ((Gang.leave_slot ..).trans hl)

/-- With its last hart the gang ends, and its launch counts it. -/
theorem State.leaveHart_last {g : Gang} (hg : s.gangOf h = some g) (hm : s.mates h = []) :
    (s.leaveHart h).gangAt h.q h.slot = none ∧
      (s.leaveHart h).launchAt g.launch = (s.launchAt g.launch).map (fun l => { l with ended := l.ended + 1 }) := by
  obtain ⟨hq, hl⟩ := State.gangAt_place hg
  obtain ⟨cs, es, he⟩ := State.endGang_eq (s.gone h g) (g.leave h.idx)
  rw [State.leaveHart_alone hg hm, he]
  refine ⟨?_, ?_⟩
  · rw [State.gangAt, List.find?_filter, List.find?_eq_none]
    intro k _
    simp only [Gang.leave_core, Gang.leave_slot, hq, hl]
    cases k.core == h.q && k.slot == h.slot <;> decide
  · refine Eq.trans ?_ (State.launchAt_updLaunch s (fun _ => rfl))
    rw [State.launchAt, State.gone_launches, Gang.leave_launch]
    rfl

theorem exec_retire (hs : s.hart? = some h) :
    exec .retire s = if (s.coreAt h.q).outstanding h.hid then .next s else .next (s.leaveHart h) := by
  refine (onHart_eq hs 4 _).trans ?_
  split <;> rfl

end

end Sys2Proof.Machine

namespace Sys2Proof.Proofs

open Sys2Proof Sys2Proof.Machine

/-- Settles O26: the hart that is gone, the others as they were, and the gang by whether harts of it are left. -/
theorem retireEndsTheHart : Obligations.RetireEndsTheHart := by
  unfold Obligations.RetireEndsTheHart
  intro s h hs
  have hid : h.hid = s.cur := State.hid_of_hart? hs
  refine ⟨fun ho => ?_, fun ho => ⟨s.leaveHart h, ?_, ?_, ?_, fun n hn => ?_, fun g hg => ⟨?stays, ?ends⟩⟩⟩
  · rw [exec_retire hs, if_pos ho]
  · rw [exec_retire hs, if_neg (by simp [ho])]
  all_goals have hd := State.departs_leaveHart s h
  · rw [State.hart?, hd.1, ← hid]
    exact hd.hartAt_self
  · exact hd.2.1
  · exact hd.hartAt_ne (hid ▸ hn)
  case stays =>
    rintro ⟨k, hk, hne, hkq, hks⟩
    have hm : s.mates h ≠ [] := fun hnil => by
      rcases State.mates_eq_nil.mp hnil k hk with e | e | e <;> contradiction
    obtain ⟨hlive, hstep, hkeep⟩ := Gang.leave_lnd g h.idx
    exact ⟨_, State.leaveHart_gangAt hg hm, hlive, Gang.leave_index .., hstep, hkeep⟩
  case ends =>
    intro hlast
    obtain ⟨hgang, hlaunch⟩ := State.leaveHart_last hg (State.mates_eq_nil.mpr hlast)
    exact ⟨hgang, fun l hl => by rw [hlaunch, hl, Option.map_some]⟩

end Sys2Proof.Proofs
end


section
/-! Launches: messages, wait counters, placement decisions and completion (R29 to R43, R57, R412, R416, R424). -/

namespace Sys2Proof.Machine

open Sys2Proof

/-! ### What the rotunda's accesses leave: the launches, and the gangs (R38, R401) -/

theorem State.launchAt_congr {s t : State} (h : t.launches = s.launches) (acc : Nat) : t.launchAt acc = s.launchAt acc := by
  rw [State.launchAt, h, State.launchAt]

@[simp] theorem State.poke_launches (s : State) (loc : Nat) (bs : List Byte) : (s.poke loc bs).launches = s.launches := rfl

@[simp] theorem State.poke_gangs (s : State) (loc : Nat) (bs : List Byte) : (s.poke loc bs).gangs = s.gangs := rfl
@[simp] theorem State.postFH_launches (s : State) : s.postFH.launches = s.launches := rfl
@[simp] theorem State.postFH_gangs (s : State) : s.postFH.gangs = s.gangs := rfl
@[simp] theorem State.post_launchAt (s : State) (es : List Instr) (acc : Nat) : (s.post es).launchAt acc = s.launchAt acc := rfl

@[simp] theorem State.hall_launches (s : State) (r : HallRec) : (s.hall r).launches = s.launches := by
  unfold State.hall
  split
  · exact State.setMgmt_launches ..
  · rw [State.postFH_launches, State.setMgmt_launches, State.poke_launches]

@[simp] theorem State.hall_gangs (s : State) (r : HallRec) : (s.hall r).gangs = s.gangs := by
  unfold State.hall
  split
  · exact State.setMgmt_gangs ..
  · rw [State.postFH_gangs, State.setMgmt_gangs, State.poke_gangs]

/-- Where a record goes, and so what memory holds after it, does not depend on the launches. -/
theorem State.hall_mem_updLaunch (s : State) (acc : Nat) (f : Launch → Launch) (r : HallRec) :
    ((s.updLaunch acc f).hall r).mem = (s.hall r).mem := by
  have hl : (s.updLaunch acc f).hallLoc = s.hallLoc := rfl
  unfold State.hall
  rw [hl]
  cases s.hallLoc <;> rfl

@[simp] theorem State.noteMigration_launches (s : State) (r : HallRec) (frame : Nat) (host : Bool) :
    (s.noteMigration r frame host).launches = s.launches := by
  unfold State.noteMigration
  dsimp only
  split <;> simp

@[simp] theorem State.noteBarred_launches (s : State) (w : Walk) (f : Nat) (r : HallRec) :
    (s.noteBarred w f r).launches = s.launches := by
  unfold State.noteBarred
  split
  · rfl
  · exact State.noteMigration_launches ..

@[simp] theorem State.performSome_launches (s : State) (hid : Nat) (p : Pending → Bool) (c : Nat) :
    (s.performSome hid p c).launches = s.launches := (State.Performed.performSome hid s p c).launches

@[simp] theorem State.settleOwn_launches (s : State) (hid : Nat) (vec : Bool) (loc n : Nat) :
    (s.settleOwn hid vec loc n).launches = s.launches := by
  unfold State.settleOwn
  dsimp only
  split
  · exact State.performSome_launches ..
  · rfl

/-- Steps that keep the launches, one after the other, keep them. -/
theorem State.foldl_launches {α : Type} {f : State → α → State} (hf : ∀ s a, (f s a).launches = s.launches) :
    ∀ (l : List α) (s : State), (l.foldl f s).launches = s.launches
  | [], _ => rfl
  | a :: l, s => (State.foldl_launches hf l (f s a)).trans (hf s a)

@[simp] theorem State.settle_launches (s : State) (hid : Nat) (vec : Bool) (loc n : Nat) :
    (s.settle hid vec loc n).launches = s.launches := by
  unfold State.settle
  rw [State.settleOwn_launches]
  refine State.foldl_launches (fun s h => ?_) _ s
  dsimp only
  split
  · exact State.performSome_launches ..
  · rfl

theorem State.settleWalk_launches (va : Nat) : ∀ (ls : List (Nat × Nat)) (s : State) (table : Nat),
    (s.settleWalk va table ls).launches = s.launches
  | [], _, _ => rfl
  | (lo, w) :: rest, s, table => by
    rw [State.settleWalk]
    split
    · exact (State.settleWalk_launches va rest _ _).trans (State.settle_launches ..)
    · exact State.settle_launches ..

@[simp] theorem State.seeTables_launches (s : State) (root va : Nat) : (s.seeTables root va).launches = s.launches := by
  unfold State.seeTables
  split
  · exact State.settleWalk_launches va walkLevels s root
  · rfl

@[simp] theorem State.noteRotunda_launches (s : State) (root f : Nat) (r : HallRec) :
    (s.noteRotunda root f r).launches = s.launches := by
  unfold State.noteRotunda
  dsimp only
  rw [State.noteBarred_launches, State.hall_launches]
  split
  · exact State.seeTables_launches ..
  · rfl

@[simp] theorem State.track_launches (s : State) (t : Track) : (s.track t).launches = s.launches := by
  unfold State.track
  split
  · rfl
  · split <;> rfl

@[simp] theorem State.countMove_launches (s : State) (frame : Nat) (host : Bool) (n : Nat) :
    (s.countMove frame host n).launches = s.launches := by
  unfold State.countMove
  dsimp only
  split
  · rfl
  · split <;> simp

@[simp] theorem State.countLines_launches (s : State) (mig pa n : Nat) : (s.countLines mig pa n).launches = s.launches := by
  unfold State.countLines
  split
  · exact State.countMove_launches ..
  · rfl

theorem State.rotAccess_launches {s t : State} {root va n pa : Nat} {need : Access}
    (h : s.rotAccess root need va n = .ok (t, pa)) : t.launches = s.launches := by
  unfold State.rotAccess at h
  dsimp only at h
  split at h
  · cases h
  · split at h
    · cases h
    · cases h
    · split at h
      · cases h
      · cases h
        rw [State.countLines_launches, apply_ite State.launches, State.poke_launches, ite_self, State.seeTables_launches]

theorem State.rotWrite_launches (root : Nat) : ∀ (ps : List (Nat × List Byte)) (s : State),
    (s.rotWrite root ps).1.launches = s.launches
  | [], _ => rfl
  | (va, bs) :: ps, s => by
    rw [State.rotWrite]
    split
    · rfl
    next t pa ht =>
      rw [State.rotWrite_launches root ps, State.poke_launches, State.settle_launches, State.rotAccess_launches ht]

/-! ### Messages (R29, R30, R412) -/

section
variable {s : State} {window offset master : Nat} {bytes : List Byte}

theorem State.msgWrite_outside (h : 64 ≤ window ∨ 64 ≤ offset) : s.msgWrite window offset master bytes = s := if_pos h

theorem State.msgWrite_window (hw : window < 64) (ho : offset < 64) :
    let l := Launch.ofMsg window (s.windowCtx window) (msgOf bytes)
    let d := s.dropReason window master (decide (offset = 0) && decide (bytes.length = 64)) l
    (d = none → s.msgWrite window offset master bytes = s.accept l) ∧
      ∀ r, d = some r → s.msgWrite window offset master bytes =
        s.hall { kind := 0x10, flags := if master ≤ 3 then 2 else 0, ctx := l.ctx, code := r, count := window } := by
  intro l d
  unfold State.msgWrite
  rw [if_neg (by omega)]
  refine ⟨fun hd => ?_, fun r hd => ?_⟩
  all_goals
    dsimp only
    rw [show s.dropReason window master (decide (offset = 0) && decide (bytes.length = 64))
      (Launch.ofMsg window (s.windowCtx window) (msgOf bytes)) = _ from hd]

/-- The first reason of R412 that a message meets, as a number, with 0 for none. -/
theorem State.dropReason_eq (s : State) (window offset master : Nat) (bytes : List Byte) (l : Launch) :
    s.dropReason window master (decide (offset = 0) && decide (bytes.length = 64)) l =
      let r := if offset ≠ 0 ∨ bytes.length ≠ 64 then 5 else if s.windowOpen window = false then 2
        else if s.masterOk l.ctx master = false then 3 else if s.wellFormed l = false then 1
        else if 1024 ≤ s.taken window then 4 else 0
      if r = 0 then none else some r := by
  have hw : (!(decide (offset = 0) && decide (bytes.length = 64))) = true ↔ offset ≠ 0 ∨ bytes.length ≠ 64 := by simp
  simp only [State.dropReason, hw, Bool.not_eq_true', apply_ite (fun r : Nat => if r = 0 then none else some r)]
  rfl

end

/-! ### Wait counters (R38, R39, R416) -/

section
variable {s : State} {acc : Nat} {l : Launch} (hl : s.launchAt acc = some l)
include hl

theorem State.waitRead_settled (hst : l.st ≠ .waiting) : s.waitRead acc = s := by
  simp [State.waitRead, hl, hst]

variable (hst : l.st = .waiting)
include hst

theorem State.waitRead_short {u : State} {w : Nat} (hr : s.readCounter l = .ok (u, w)) (hw : w < l.wval) : s.waitRead acc = u := by
  simp [State.waitRead, hl, hst, hr, hw]

theorem State.waitRead_reached {u : State} {w : Nat} (hr : s.readCounter l = .ok (u, w)) (hw : l.wval ≤ w) :
    s.waitRead acc = (u.updLaunch acc (fun l => { l with st := .ready })).post [.placementDecision] := by
  simp [State.waitRead, hl, hst, hr, Nat.not_lt.mpr hw]

theorem State.waitRead_failed {f : Nat} (hr : s.readCounter l = .error f) : s.waitRead acc =
    ((s.updLaunch acc (fun l => { l with failed := true, st := .running })).noteRotunda
      ((s.updLaunch acc (fun l => { l with failed := true, st := .running })).rootOf l) f
      { kind := 0x17, ctx := l.ctx, va := l.waddr, code := 0x3010 + f }).post [.launchComplete acc] := by
  simp [State.waitRead, hl, hst, hr]

end

/-! ### Completion (R57) -/

section
variable {s : State} {acc : Nat}

theorem State.launchDone_complete {l : Launch} (hl : s.launchAt acc = some l) (hst : l.st = .complete) :
    s.launchDone acc = false := by
  simp [State.launchDone, hl, hst]

theorem State.completeLaunch_notDone (hd : s.launchDone acc = false) : s.completeLaunch acc = s := by
  unfold State.completeLaunch
  rw [hd]
  split <;> rfl

/-- A launch that is done is complete after its event, whatever becomes of its record (R417). -/
theorem State.completeLaunch_done {l : Launch} (hl : s.launchAt acc = some l) (hd : s.launchDone acc = true) :
    (s.completeLaunch acc).launchAt acc = some { l with st := .complete } := by
  unfold State.completeLaunch
  rw [hl, hd]
  simp only [Bool.not_true, Bool.false_eq_true, if_false]
  rw [State.launchAt_updLaunch, State.launchAt_congr (s := s), hl, Option.map_some]
  case hf => exact fun _ => rfl
  case h =>
    split
    · exact State.noteRotunda_launches ..
    · exact State.rotWrite_launches ..

end

/-! ### The lowest free runs and numbers (R40, R41) -/

theorem runFree_iff {taken : List (Nat × Nat)} {size len b : Nat} :
    (decide (b + len ≤ size) && !taken.any (fun t => overlaps b len t.1 t.2)) = true ↔ RunFree taken size len b := by
  simp [RunFree]

/-- Nothing of no length meets a run at 0. -/
theorem runFree_zero (taken : List (Nat × Nat)) (size : Nat) : RunFree taken size 0 0 :=
  ⟨Nat.zero_le _, fun t _ => by simp [overlaps]⟩

theorem RunLowest.lt_size {taken : List (Nat × Nat)} {step size len b : Nat} (hs : 0 < size)
    (h : RunLowest taken step size len b) : b < size := by
  obtain ⟨-, hfree, hlow⟩ := h
  have hle := hfree.1
  rcases Nat.eq_zero_or_pos len with rfl | hl
  · rcases Nat.eq_zero_or_pos b with rfl | hb
    · exact hs
    · exact absurd (runFree_zero taken size) (hlow 0 hb (Nat.zero_mod _))
  · omega

theorem freeRun_eq_some_iff {taken : List (Nat × Nat)} {step size len b : Nat} (hstep : 0 < step) (hs : 0 < size)
    (hd : step ∣ size) : freeRun taken step size len = some b ↔ RunLowest taken step size len b := by
  rw [freeRun, List.find?_map, Option.map_eq_some_iff]
  simp only [List.find?_range_eq_some, Function.comp, List.mem_range, runFree_iff, Bool.not_eq_true',
    ← Bool.not_eq_true]
  constructor
  · rintro ⟨i, ⟨hfree, -, hlow⟩, rfl⟩
    refine ⟨Nat.mul_mod_left i step, hfree, fun c hc hm => ?_⟩
    obtain ⟨j, rfl⟩ := Nat.dvd_of_mod_eq_zero hm
    rw [Nat.mul_comm step j] at hc ⊢
    exact hlow j (Nat.lt_of_mul_lt_mul_right hc)
  · intro h
    have hlt := h.lt_size hs
    obtain ⟨hm, hfree, hlow⟩ := h
    obtain ⟨i, rfl⟩ := Nat.dvd_of_mod_eq_zero hm
    obtain ⟨n, rfl⟩ := hd
    rw [Nat.mul_comm step i] at hfree hlow ⊢
    refine ⟨i, ⟨hfree, ?_, fun j hj => hlow _ (Nat.mul_lt_mul_of_pos_right hj hstep) (Nat.mul_mod_left j step)⟩, rfl⟩
    rw [Nat.mul_div_cancel_left n hstep]
    exact Nat.lt_of_mul_lt_mul_left hlt

theorem bandRuns_eq_some_iff {rows : Nat} : ∀ {n : Nat} {taken : List (Nat × Nat)} {bs : List Nat},
    bandRuns rows n taken = some bs ↔ bs.length = n ∧ BandsLowest rows taken bs
  | 0, taken, bs => by
    rw [bandRuns, Option.some_inj, List.length_eq_zero_iff]
    constructor
    · rintro rfl
      exact ⟨rfl, trivial⟩
    · rintro ⟨rfl, -⟩
      rfl
  | n + 1, taken, bs => by
    have hrun {b : Nat} := freeRun_eq_some_iff (taken := taken) (step := 16) (size := 256) (len := rows) (b := b) (by decide)
      (by decide) (by decide)
    rw [bandRuns]
    cases bs with
    | nil => cases hb : freeRun taken 16 256 rows <;> simp
    | cons b bs =>
      rw [BandsLowest, ← hrun, List.length_cons, Nat.add_right_cancel_iff]
      cases hb : freeRun taken 16 256 rows with
      | none => simp
      | some c =>
        rw [Option.map_eq_some_iff, Option.some_inj]
        constructor
        · rintro ⟨ds, hds, he⟩
          obtain ⟨rfl, rfl⟩ := List.cons.inj he
          obtain ⟨hlen, hlow⟩ := bandRuns_eq_some_iff.mp hds
          exact ⟨hlen, rfl, hlow⟩
        · rintro ⟨hlen, rfl, hlow⟩
          exact ⟨bs, bandRuns_eq_some_iff.mpr ⟨hlen, hlow⟩, rfl⟩

theorem lowest_eq_some_iff {taken : List Nat} {size n : Nat} {ns : List Nat} :
    lowest taken size n = some ns ↔ n ≤ (unused taken size).length ∧ ns = (unused taken size).take n := by
  rw [show lowest taken size n = if n ≤ (unused taken size).length then some ((unused taken size).take n) else none from rfl]
  split
  case isTrue h => simp [h, eq_comm]
  case isFalse h => simp [h]

/-! ### The fit test (R40 to R42) -/

section
variable {s : State} {l : Launch} {idx q : Nat}

theorem galleryRun_iff {taken : List (Nat × Nat)} {len b : Nat} :
    freeRun taken 4096 (2 ^ 21) len = some b ↔ RunLowest taken 4096 (2 ^ 21) len b :=
  freeRun_eq_some_iff (by decide) (by decide) (by decide)

/-- A gang that passes the fit test of a core meets the conditions there, and receives what R41 says. -/
theorem State.fit_some {g : Gang} (h : s.fit l idx q = some g) : g.core = q ∧ s.Fits l q ∧ s.Allocates l g := by
  unfold State.fit at h
  dsimp only at h
  split at h
  · cases h
  next hfree =>
    split at h
    next ctxs slots bands gal tiles hctxs hslots hbands hgal htiles =>
      simp only [Bool.or_eq_true, decide_eq_true_eq, not_or, Bool.not_eq_true, Nat.not_lt] at hfree
      obtain ⟨hserved, hstair⟩ := hfree
      rw [lowest_eq_some_iff] at hctxs hslots htiles
      rw [bandRuns_eq_some_iff] at hbands
      rw [galleryRun_iff] at hgal
      cases h
      refine ⟨rfl, ⟨hserved, hctxs.1, hslots.1, ⟨bands, hbands⟩, ⟨gal, hgal⟩, hstair, htiles.1⟩,
        ⟨hbands.2, ⟨hbands.1, rfl⟩, ⟨rfl, hgal⟩, rfl, ?_, rfl⟩⟩
      rw [List.map_map, ← htiles.2]
      exact List.map_id' tiles
    · cases h

theorem State.fit_of_fits (h : s.Fits l q) (idx : Nat) : ∃ g, s.fit l idx q = some g := by
  obtain ⟨hserved, hctxs, hslots, ⟨bands, hbands⟩, ⟨gal, hgal⟩, hstair, htiles⟩ := h
  unfold State.fit
  dsimp only
  rw [if_neg (by simp only [hserved, Bool.false_or, decide_eq_true_eq]; omega), lowest_eq_some_iff.mpr ⟨hctxs, rfl⟩,
    lowest_eq_some_iff.mpr ⟨hslots, rfl⟩, bandRuns_eq_some_iff.mpr hbands, galleryRun_iff.mpr hgal,
    lowest_eq_some_iff.mpr ⟨htiles, rfl⟩]
  exact ⟨_, rfl⟩

theorem State.fit_eq_none_iff : s.fit l idx q = none ↔ ¬ s.Fits l q := by
  constructor
  · intro h hf
    obtain ⟨g, hg⟩ := State.fit_of_fits hf idx
    rw [h] at hg
    cases hg
  · intro h
    cases hg : s.fit l idx q with
    | none => rfl
    | some g => exact absurd (State.fit_some hg).2.1 h

/-- The first number below `n` at which a function answers. -/
theorem findSome?_range_eq_some {α : Type} {f : Nat → Option α} {a : α} : ∀ {n : Nat},
    (List.range n).findSome? f = some a → ∃ k, k < n ∧ f k = some a ∧ ∀ j, j < k → f j = none
  | 0, h => by cases h
  | n + 1, h => by
    rw [List.range_succ, List.findSome?_append, Option.or_eq_some_iff] at h
    rcases h with h | ⟨hnone, h⟩
    · obtain ⟨k, hk, hf, hlow⟩ := findSome?_range_eq_some h
      exact ⟨k, by omega, hf, hlow⟩
    · refine ⟨n, by omega, ?_, fun j hj => List.findSome?_eq_none_iff.mp hnone j (List.mem_range.mpr hj)⟩
      simpa using h

/-- A gang goes to the first core from NEXT on that it fits. -/
theorem State.findCore_some {g : Gang} (h : s.findCore l idx = some g) : s.Fits l g.core ∧ s.Allocates l g ∧
    ∃ k, k < 512 ∧ g.core = (s.next + k) % 512 ∧ ∀ j, j < k → ¬ s.Fits l ((s.next + j) % 512) := by
  obtain ⟨k, hk, hfit, hlow⟩ := findSome?_range_eq_some h
  obtain ⟨hq, hf, ha⟩ := State.fit_some hfit
  exact ⟨hq ▸ hf, ha, k, hk, hq, fun j hj => State.fit_eq_none_iff.mp (hlow j hj)⟩

theorem State.findCore_none : s.findCore l idx = none ↔ ∀ q, q < 512 → ¬ s.Fits l q := by
  simp only [State.findCore, List.findSome?_eq_none_iff, List.mem_range, State.fit_eq_none_iff]
  constructor
  · intro h q hq
    have he : (s.next + (q + 512 - s.next % 512) % 512) % 512 = q := by omega
    exact he ▸ h ((q + 512 - s.next % 512) % 512) (Nat.mod_lt _ (by decide))
  · exact fun h k _ => h _ (Nat.mod_lt _ (by decide))

end

/-! ### Placement decisions (R42, R43, R424) -/

/-- A key of which a filter keeps no entry reads 0. -/
theorem SMap.get_filter_removed {w : Nat} {p : Nat × BitVec w → Bool} {k : Nat} (hp : ∀ v, p (k, v) = false) :
    ∀ m : SMap w, SMap.get (m.filter p) k = 0
  | [] => rfl
  | (a, v) :: m => by
    have ih := SMap.get_filter_removed hp m
    rw [List.filter_cons]
    split
    next hk =>
      have ha : a ≠ k := fun e => by simp [e, hp] at hk
      rw [SMap.get, if_neg ha, ih]
    · exact ih

@[simp] theorem State.updLaunch_byte (s : State) (acc : Nat) (f : Launch → Launch) (loc : Nat) :
    (s.updLaunch acc f).byte loc = s.byte loc := rfl

theorem State.byte_zeroRange (s : State) {loc n o : Nat} (ho : o < n) : (s.zeroRange loc n).byte (loc + o) = 0 :=
  SMap.get_filter_removed (fun _ => by simp [ho]) s.mem

section
variable {s : State} {l : Launch}

/-- A launch's first gangs, one by one: the new gang on its core with its harts, NEXT after it, and a gallery of zeros (R42, R273). -/
theorem State.placeNext_new (hh : l.held = []) {g : Gang} (hg : s.findCore l l.placed = some g) :
    ∃ t, s.placeNext l = some t ∧ t.gangs = s.gangs ++ [g] ∧
      t.harts = s.harts ++ (List.range (l.hpg + 1)).map (s.startHart l g) ∧ t.next = (g.core + 1) % 512 ∧
      ∀ o, o < g.galSize → t.byte (galleryLoc g.core g.galBase + o) = 0 := by
  have hn : s.placeNext l = s.placeNew l := by rw [State.placeNext, hh, List.foldr_nil, List.head?_nil]
  rw [hn]
  unfold State.placeNew
  rw [hg]
  refine ⟨_, rfl, rfl, rfl, rfl, fun o ho => ?_⟩
  rw [State.updLaunch_byte]
  exact State.byte_zeroRange _ ho

/-- A launch that is settled changes, and its completion may become due; nothing else does. -/
theorem State.settleLaunch_frame (s : State) (acc : Nat) : s.settleLaunch acc =
    { s with launches := (s.settleLaunch acc).launches, inbox := (s.settleLaunch acc).inbox } := by
  unfold State.settleLaunch
  dsimp only
  split <;> rfl

section
variable (hc : s.chosen = some l)
include hc

theorem State.decision_evict (hs : l.cosched = true) (hf : l.perCore * s.liveCores < l.toPlace) :
    s.decision = s.evict l := by
  simp [State.decision, hc, hs, hf]

theorem State.decision_cosched (hs : l.cosched = true) (hf : l.toPlace ≤ l.perCore * s.liveCores)
    (hp : State.placeAll l.acc 2048 s = none) : s.decision = s := by
  simp [State.decision, hc, hs, Nat.not_lt.mpr hf, hp]

theorem State.decision_unplaced (hs : l.cosched = false) (hp : s.placeNext l = none) : s.decision = s := by
  simp [State.decision, hc, hs, hp]

theorem State.decision_placed (hs : l.cosched = false) {t : State} (hp : s.placeNext l = some t) :
    s.decision = (t.settleLaunch l.acc).post [.placementDecision] := by
  simp [State.decision, hc, hs, hp]

end

theorem State.evict_launchAt (s : State) (l : Launch) : (s.evict l).launchAt l.acc =
    (s.launchAt l.acc).map (fun l => { l with failed := true, held := [], st := .running }) := by
  refine Eq.trans ?_ (State.launchAt_updLaunch s (fun _ => rfl))
  exact State.launchAt_congr (State.hall_launches ..) l.acc

end

/-! ### The events -/

section
variable {s : State} (hp : s.power = true)
include hp

theorem exec_lqcfgWrite (window master : Nat) (v : Word) : exec (.lqcfgWrite window master v) s = .next (
    if 64 ≤ window then s
    else s.ownerWrite master (0x100048 + 0x1000 * window) (fun s => s.setMgmt (0x100048 + 0x1000 * window) (v &&& 0xffff0001))) := by
  have he : exec (.lqcfgWrite window master v) s = execLqcfgWrite window master v s := rfl
  rw [he, execLqcfgWrite, event_eq hp]

theorem exec_waitCounterRead (acc : Nat) : exec (.waitCounterRead acc) s = .next (s.waitRead acc) :=
  event_eq hp (fun s => s.waitRead acc)

theorem exec_launchComplete (acc : Nat) : exec (.launchComplete acc) s = .next (s.completeLaunch acc) :=
  event_eq hp (fun s => s.completeLaunch acc)

theorem exec_placementDecision : exec .placementDecision s = .next s.decision := event_eq hp State.decision

end

end Sys2Proof.Machine

namespace Sys2Proof.Proofs

open Sys2Proof Sys2Proof.Machine

/-- Settles O54, event by event: messages, LQCFG, wait counters, completion, the fit test, and the decisions. -/
theorem launches : Obligations.Launches := by
  unfold Obligations.Launches
  intro s window offset master acc bytes v hp
  refine ⟨?message, fun h => ?_, ?lqcfg, fun l hl => ⟨?_, ?counter, ?failure, ?early, ?done⟩, fun hc => ?_,
    fun l idx => ⟨fun g hg => State.findCore_some hg, State.findCore_none⟩, ?cosched, ?single⟩
  case message =>
    intro l r hw ho
    have hd := State.dropReason_eq s window offset master bytes l
    obtain ⟨haccept, hdrop⟩ := State.msgWrite_window (s := s) (master := master) (bytes := bytes) hw ho
    rw [exec_msgWrite hp]
    refine ⟨fun hr => ⟨s.accept l, l.accepted s, ?_, State.accept_launches s l, rfl,
      State.accept_accepted s l, State.accept_mem s l⟩, fun hr => ?_⟩
    · rw [haccept (hd.trans (if_pos hr))]
    · rw [hdrop r (hd.trans (if_neg hr))]
  · rw [exec_msgWrite hp, State.msgWrite_outside h]
  case lqcfg =>
    intro off
    rw [exec_lqcfgWrite hp]
    refine ⟨fun hw ho => ?_, fun hw ho => ?_, fun hw => ?_⟩
    · rw [if_neg (by omega), State.ownerWrite_owner ho]
    · rw [if_neg (by omega), State.ownerWrite_other ho]
    · rw [if_pos hw]
  · intro hst
    rw [exec_waitCounterRead hp, State.waitRead_settled hl hst]
  case counter =>
    intro hst u w hr hu
    rw [exec_waitCounterRead hp]
    refine ⟨fun hw => ?_, fun hw => ⟨_, rfl, ?_⟩⟩
    · rw [State.waitRead_short hl hst hr hw]
    · rw [State.waitRead_reached hl hst hr hw]
      refine ⟨?_, by simp⟩
      rw [State.post_launchAt, State.launchAt_updLaunch, State.launchAt_congr hu, hl, Option.map_some]
      exact fun _ => rfl
  case failure =>
    intro hst f hr
    refine ⟨_, exec_waitCounterRead hp acc, ?_⟩
    rw [State.waitRead_failed hl hst hr]
    refine ⟨?_, by simp⟩
    rw [State.post_launchAt, State.launchAt_congr (State.noteRotunda_launches ..), State.launchAt_updLaunch, hl, Option.map_some]
    exact fun _ => rfl
  case early =>
    intro h
    have hd : s.launchDone acc = false := h.elim (State.launchDone_complete hl) id
    rw [exec_launchComplete hp, State.completeLaunch_notDone hd]
  case done => exact fun hd => ⟨_, exec_launchComplete hp acc, State.completeLaunch_done hl hd⟩
  · rw [exec_placementDecision hp, State.decision, hc]
  case cosched =>
    intro l hc hs
    rw [exec_placementDecision hp]
    refine ⟨fun hf hall => ?_, fun hf => ?_⟩
    · rw [State.decision_cosched hc hs hf hall]
    · rw [State.decision_evict hc hs hf]
      exact ⟨_, rfl, State.hall_gangs .., State.evict_launchAt s l, State.hall_mem_updLaunch ..⟩
  case single =>
    intro l hc hs
    rw [exec_placementDecision hp]
    refine ⟨fun hn => ?_, fun hh g hg => ?_⟩
    · rw [State.decision_unplaced hc hs hn]
    · obtain ⟨t, ht, hgangs, hharts, hnext, hzero⟩ := State.placeNext_new hh hg
      rw [State.decision_placed hc hs ht, State.settleLaunch_frame]
      exact ⟨_, rfl, by simp [hgangs], hharts, hnext, hzero⟩

end Sys2Proof.Proofs
end

section
/-! The vector sequencer (R54, R55), and the states in which two gangs stand in one dome slot. -/

namespace Sys2Proof.Machine

open Sys2Proof

theorem exec_vectorIssue {s : State} (hp : s.power = true) (q : Nat) : exec (.vectorIssue q) s = .next (s.sequence q) :=
  event_eq hp (fun s => s.sequence q)

/-- A gang but for what the vector sequencer keeps of it. -/
def Gang.unsequenced (g : Gang) : Gang := { g with rr := 0, passed := [] }

/-- No two gangs stand in one dome slot of a core: what stands in a slot twice is one gang. -/
def State.SlotsDistinct (s : State) : Prop :=
  ∀ f ∈ s.gangs, ∀ g ∈ s.gangs, f.core = g.core → f.slot = g.slot → f.unsequenced = g.unsequenced

/-- A decision changes gangs and cores alone, and of the gangs, where no two share a slot, only what the sequencer keeps. -/
theorem State.decide1_frame {s t : State} (hs : s.SlotsDistinct) {g : Gang} (hg : g ∈ s.gangs)
    (ht : t = { s with cores := t.cores, gangs := t.gangs })
    (hm : t.gangs.map Gang.unsequenced = s.gangs.map Gang.unsequenced) :
    t.decide1 g = { s with cores := (t.decide1 g).cores, gangs := (t.decide1 g).gangs } ∧
      (t.decide1 g).gangs.map Gang.unsequenced = s.gangs.map Gang.unsequenced := by
  unfold State.decide1
  dsimp only
  split
  · exact ⟨ht, hm⟩
  next j on _ =>
    refine ⟨by rw [ht]; rfl, ?_⟩
    rw [State.updCore_gangs, State.setGang_gangs, List.map_map, ← hm]
    refine List.map_congr_left (fun f hf => ?_)
    dsimp only [Function.comp]
    split
    next hslot =>
      obtain ⟨f', hf', he⟩ : ∃ f' ∈ s.gangs, f'.unsequenced = f.unsequenced := by
        simpa [hm] using List.mem_map_of_mem (f := Gang.unsequenced) hf
      simp only [Bool.and_eq_true, beq_iff_eq] at hslot
      have hc : f'.core = g.core := (congrArg Gang.core he).trans hslot.1
      have hl : f'.slot = g.slot := (congrArg Gang.slot he).trans hslot.2
      exact (hs f' hf' g hg hc hl).symm.trans he
    · rfl

/-- Where no two gangs share a slot, the sequencer's cycle is timing alone. -/
theorem State.onlyTiming_sequence {s : State} (hs : s.SlotsDistinct) (q : Nat) : s.OnlyTiming (s.sequence q) := by
  have key : ∀ (gs : List Gang) (t : State), (∀ g ∈ gs, g ∈ s.gangs) → t = { s with cores := t.cores, gangs := t.gangs } →
      t.gangs.map Gang.unsequenced = s.gangs.map Gang.unsequenced →
      gs.foldl State.decide1 t = { s with cores := (gs.foldl State.decide1 t).cores, gangs := (gs.foldl State.decide1 t).gangs } ∧
        (gs.foldl State.decide1 t).gangs.map Gang.unsequenced = s.gangs.map Gang.unsequenced := by
    intro gs
    induction gs with
    | nil => exact fun t _ ht hm => ⟨ht, hm⟩
    | cons g gs ih =>
      intro t hgs ht hm
      obtain ⟨ht', hm'⟩ := State.decide1_frame hs (hgs g (by simp)) ht hm
      exact ih _ (fun g hg => hgs g (by simp [hg])) ht' hm'
  obtain ⟨ht, hm⟩ := key (s.gangsOn q) s (fun g hg => (List.mem_filter.mp hg).1) rfl rfl
  unfold State.sequence
  split
  · exact ⟨⟨rfl, fun _ => rfl, rfl⟩, rfl⟩
  · generalize (s.gangsOn q).foldl State.decide1 s = t at ht hm
    refine ⟨⟨by rw [ht]; rfl, fun d => by rw [ht]; rfl, hm⟩, by rw [ht]; rfl⟩

/-! ### The winner (R54, R55) -/

theorem insertBy_eq_orderedInsert {α : Type} (le : α → α → Bool) (a : α) : ∀ l : List α,
    insertBy le a l = l.orderedInsert (fun a b => le a b = true) a
  | [] => rfl
  | b :: l => by rw [insertBy, List.orderedInsert_cons, insertBy_eq_orderedInsert le a l]

theorem foldr_insertBy {α : Type} (le : α → α → Bool) (l : List α) :
    l.foldr (insertBy le) [] = l.insertionSort (fun a b => le a b = true) :=
  congrArg (fun f => l.foldr f []) (funext fun a => funext (insertBy_eq_orderedInsert le a))

theorem State.issuesFirst_iff {s : State} {g : Gang} {a b : Job} : s.issuesFirst g a b = true ↔
    s.hpri b.hid < s.hpri a.hid ∨ s.hpri a.hid = s.hpri b.hid ∧
      (a.since < b.since ∨ a.since = b.since ∧ g.turn a.idx ≤ g.turn b.idx) := by
  simp [State.issuesFirst]

theorem State.barred_eq_false_iff {s : State} {g : Gang} {js : List (Job × Option Nat)} {a : Job} :
    s.barred g js a = false ↔ ∀ b ∈ js, s.hpri b.1.hid = s.hpri a.hid → (a.idx, b.1.seq) ∉ g.passed := by
  simp [State.barred]

/-- The candidates of a gang in the order in which they come to win. -/
theorem State.pairwise_issuesFirst (s : State) (g : Gang) (js : List (Job × Option Nat)) :
    (js.foldr (insertBy (fun a b => s.issuesFirst g a.1 b.1)) []).Pairwise (fun a b => s.issuesFirst g a.1 b.1 = true) := by
  have htotal : Std.Total (fun a b : Job × Option Nat => s.issuesFirst g a.1 b.1 = true) :=
    ⟨fun a b => by simp only [State.issuesFirst_iff]; omega⟩
  have htrans : IsTrans (Job × Option Nat) (fun a b => s.issuesFirst g a.1 b.1 = true) :=
    ⟨fun a b c => by simp only [State.issuesFirst_iff]; omega⟩
  rw [foldr_insertBy]
  exact List.pairwise_insertionSort _ js

/-- A gang's winner is a candidate that is not barred, and no other such comes before it. -/
theorem State.winner_spec {s : State} {c : CoreSt} {g : Gang} {j : Job} {on : Option Nat} (h : s.winner c g = some (j, on)) :
    (j, on) ∈ c.candidates g.slot ∧
      (∀ k ∈ c.candidates g.slot, s.hpri k.1.hid = s.hpri j.hid → (j.idx, k.1.seq) ∉ g.passed) ∧
      ∀ k ∈ c.candidates g.slot, (∀ b ∈ c.candidates g.slot, s.hpri b.1.hid = s.hpri k.1.hid → (k.1.idx, b.1.seq) ∉ g.passed) →
        s.hpri k.1.hid ≤ s.hpri j.hid ∧ (s.hpri k.1.hid = s.hpri j.hid → j.since ≤ k.1.since) := by
  unfold State.winner at h
  dsimp only at h
  generalize c.candidates g.slot = js at h ⊢
  obtain ⟨rest, hrest⟩ := List.head?_eq_some_iff.mp h
  have hmem (k : Job × Option Nat) : k ∈ (j, on) :: rest ↔ k ∈ js ∧
      ∀ b ∈ js, s.hpri b.1.hid = s.hpri k.1.hid → (k.1.idx, b.1.seq) ∉ g.passed := by
    rw [← hrest, List.mem_filter, Bool.not_eq_true', State.barred_eq_false_iff, foldr_insertBy,
      (List.perm_insertionSort _ js).mem_iff]
  have hfirst := (s.pairwise_issuesFirst g js).filter (fun a => !s.barred g js a.1)
  rw [hrest] at hfirst
  obtain ⟨hj, hfree⟩ := (hmem (j, on)).mp List.mem_cons_self
  refine ⟨hj, hfree, fun k hk hkfree => ?_⟩
  rcases List.mem_cons.mp ((hmem k).mpr ⟨hk, hkfree⟩) with rfl | hr
  · exact ⟨Nat.le_refl _, fun _ => Nat.le_refl _⟩
  · have hle := State.issuesFirst_iff.mp (List.rel_of_pairwise_cons hfirst hr)
    dsimp only at hle
    omega

/-- A head that chains waits for the results of its first row. -/
theorem CoreSt.ready_unwritten {c : CoreSt} {j i : Job} (hs : c.startable j = some (some i))
    (he : ∀ e, find i.ends j.start = some e → c.cyc ≤ e) (hr : i.start ≤ j.start) : c.ready j = none := by
  have hw : i.written j.start c.cyc = false := by
    cases hf : find i.ends j.start with
    | none => simp [Job.written, hf, hr]
    | some e => simp [Job.written, hf, hr, he e hf]
  simp [CoreSt.ready, hs, hw]

/-! ### A head that nothing holds up -/

section
variable {c : CoreSt} {j : Job}

theorem CoreSt.heads_alone {slot : Nat} (hv : c.vqueue = [j]) (hs : j.slot = slot) (hi : j.idx < 4) : c.heads slot = [j] := by
  have hfind (idx : Nat) : c.vqueue.find? (fun i => i.slot == slot && i.idx == idx) = if idx = j.idx then some j else none := by
    by_cases h : idx = j.idx <;> simp [hv, hs, h, Ne.symm]
  simp only [CoreSt.heads, hfind]
  interval_cases j.idx <;> rfl

theorem CoreSt.ready_alone (hf : c.flight = []) (ht : c.transit = []) (htf : c.tflight = [])
    (hg : 0 < c.groups.countP (fun x => x.owner == some j.slot)) : c.ready j = some none := by
  have hs : c.startable j = some none := by
    simp [CoreSt.startable, CoreSt.metTransit, CoreSt.met, hf, ht, htf, ownedBy, Nat.pos_iff_ne_zero.mp hg]
  simp [CoreSt.ready, hs]

/-- The only instruction of a queue, with nothing in flight before it and a group to run on, wins. -/
theorem State.winner_alone {s : State} {g : Gang} (hv : c.vqueue = [j]) (hf : c.flight = []) (ht : c.transit = [])
    (htf : c.tflight = []) (hs : j.slot = g.slot) (hi : j.idx < 4) (hp : (j.idx, j.seq) ∉ g.passed)
    (hg : 0 < c.groups.countP (fun x => x.owner == some j.slot)) : s.winner c g = some (j, none) := by
  have hc : c.candidates g.slot = [(j, none)] := by
    simp [CoreSt.candidates, CoreSt.heads_alone hv hs hi, CoreSt.ready_alone hf ht htf hg]
  have hb : s.barred g [(j, none)] j = false := State.barred_eq_false_iff.mpr (by simpa using hp)
  simp [State.winner, hc, insertBy, hb]

end

/-! ### A cycle of the sequencer on a core of one gang -/

theorem State.sequence_decided {s : State} {q : Nat} (h : (s.coreAt q).decided = true) : s.sequence q = s := if_pos h

section
variable {s : State} {q : Nat} {g : Gang}

theorem State.coreAt_decided (t : State) (q : Nat) :
    (t.updCore q (fun c => { c with decided := true })).coreAt q = { t.coreAt q with decided := true } := by
  rw [Laws.coreAt_updCore, if_pos rfl]
  exact Laws.coreAt_q t q

theorem State.sequence_undecided (h : (s.coreAt q).decided = false) :
    s.sequence q = ((s.gangsOn q).foldl State.decide1 s).updCore q (fun c => { c with decided := true }) :=
  if_neg (by simp [h])

theorem State.gangAt_of_alone (hg : s.gangs.filter (fun g => g.core == q) = [g]) : g.core = q ∧ s.gangAt q g.slot = some g := by
  have hm : g ∈ s.gangs.filter (fun g => g.core == q) := by simp [hg]
  have hf : (s.gangs.filter (fun g => g.core == q)).find? (fun k => k.slot == g.slot) = some g := by simp [hg]
  simp only [List.find?_filter, Bool.decide_and, Bool.decide_eq_true] at hf
  exact ⟨by simpa using (List.mem_filter.mp hm).2, hf⟩

variable (hd : (s.coreAt q).decided = false) (hg : s.gangs.filter (fun g => g.core == q) = [g])
include hd hg

theorem State.sequence_alone : s.sequence q = (s.decide1 g).updCore q (fun c => { c with decided := true }) := by
  rw [State.sequence_undecided hd, State.gangsOn, hg]
  rfl

theorem State.sequence_noWinner (hw : s.winner (s.coreAt q) g = none) :
    (s.sequence q).coreAt q = { s.coreAt q with decided := true } := by
  obtain ⟨hq, -⟩ := State.gangAt_of_alone hg
  have h1 : s.decide1 g = s := by rw [State.decide1, hq, hw]
  rw [State.sequence_alone hd hg, h1, State.coreAt_decided]

/-- The winner has left its queue and is in flight, and its gang knows it. -/
theorem State.sequence_winner {j : Job} {on : Option Nat} (hw : s.winner (s.coreAt q) g = some (j, on)) :
    (s.sequence q).coreAt q = { (s.coreAt q).issue j on none with decided := true } ∧
      (s.sequence q).gangAt q g.slot = some (s.noteWin (s.coreAt q) j g) := by
  obtain ⟨hq, hat⟩ := State.gangAt_of_alone hg
  have h1 : s.decide1 g = (s.setGang (s.noteWin (s.coreAt q) j g)).updCore q (fun c => c.issue j on none) := by
    rw [State.decide1, hq, hw]
  rw [State.sequence_alone hd hg, h1, State.coreAt_decided, Laws.coreAt_updCore _ _ _ _ (Laws.coreAt_q s q), if_pos rfl]
  exact ⟨rfl, State.gangAt_setGang hat hq rfl⟩

end

theorem State.mem_noteWin {s : State} {c : CoreSt} {g : Gang} {j : Job} {k : Job × Option Nat} (hk : k ∈ c.candidates g.slot)
    (hn : k.1.seq ≠ j.seq) (hp : s.hpri k.1.hid = s.hpri j.hid) : (j.idx, k.1.seq) ∈ (s.noteWin c j g).passed :=
  List.mem_append_left _ (List.mem_map.mpr ⟨k, by simp [hk, hn, hp], rfl⟩)

/-! ### The passes of one instruction in flight (R78) -/

theorem find_put_self {κ α : Type} [BEq κ] [LawfulBEq κ] (l : List (κ × α)) (n : κ) (v : α) : find (put l n (some v)) n = some v := by
  have hn : (l.filter (fun p => p.1 != n)).find? (fun p => p.1 == n) = none := by
    rw [List.find?_filter, List.find?_eq_none]
    simp
  simp [find, put, List.find?_append, hn]

theorem CoreSt.joinDrain_vqueue (d : Nat) : ∀ (n k : Nat) (p : Job) (c : CoreSt),
    (CoreSt.joinDrain d n k p c).vqueue.length ≤ c.vqueue.length
  | 0, _, _, _ => Nat.le_refl _
  | n + 1, k, p, c => by
    unfold CoreSt.joinDrain
    split
    · exact Nat.le_refl _
    · split
      · exact (CoreSt.joinDrain_vqueue d n (k + 1) _ _).trans (List.length_filter_le _ _)
      · exact Nat.le_refl _

theorem CoreSt.runPass_vqueue (c : CoreSt) (j : Job) : (c.runPass j).vqueue.length ≤ c.vqueue.length := by
  unfold CoreSt.runPass
  dsimp only
  split
  · exact CoreSt.joinDrain_vqueue ..
  · exact Nat.le_refl _

/-- The pass of a gang in a cycle, if one begins. -/
def CoreSt.passOf (c : CoreSt) (slot : Nat) : CoreSt :=
  match c.nextPass slot with
  | none => c
  | some j => c.runPass j

theorem CoreSt.runPasses_eq (c : CoreSt) : c.runPasses = (List.range 4).foldl CoreSt.passOf c := rfl

theorem CoreSt.runPasses_vqueue (c : CoreSt) : c.runPasses.vqueue.length ≤ c.vqueue.length := by
  have key : ∀ (ls : List Nat) (c : CoreSt), (ls.foldl CoreSt.passOf c).vqueue.length ≤ c.vqueue.length := by
    intro ls
    induction ls with
    | nil => exact fun c => Nat.le_refl _
    | cons slot ls ih =>
      refine fun c => (ih _).trans ?_
      unfold CoreSt.passOf
      split
      · exact Nat.le_refl _
      · exact CoreSt.runPass_vqueue ..
  exact key _ c

@[simp] theorem Job.pass_slot (j : Job) (now c : Nat) : (j.pass now c).slot = j.slot := rfl

section
variable {c : CoreSt} {j : Job}

/-- A gang that has nothing in flight begins no pass. -/
theorem CoreSt.passOf_other {slot : Nat} (hf : c.flight = [j]) (hs : j.slot ≠ slot) : c.passOf slot = c := by
  have hn : c.nextPass slot = none := by simp [CoreSt.nextPass, hf, hs]
  rw [CoreSt.passOf, hn]

/-- The pass of a gang's only instruction in flight, at a pass boundary and with a group to run on. -/
theorem CoreSt.passOf_alone (hf : c.flight = [j]) (hfused : j.fused = none) (hchain : j.chain = none) (hdrain : j.drain = none)
    (hb : j.begun < j.rows) (hm : c.midPass j.slot = false) (hg : 0 < c.groups.countP (fun x => x.owner == some j.slot)) :
    let n := j.cycles (c.groups.countP (fun x => x.owner == some j.slot))
    c.passOf j.slot = { c with flight := [j.pass c.cyc n], busy := put c.busy j.slot (some (c.cyc + n)) } := by
  have hn : c.nextPass j.slot = some j := by
    simp [CoreSt.nextPass, CoreSt.chainFree, hf, hfused, hchain, hm, ownedBy, Job.begunAll, hb, Nat.pos_iff_ne_zero.mp hg]
  rw [CoreSt.passOf, hn]
  simp [CoreSt.runPass, hf, hfused, hdrain, ownedBy]

theorem CoreSt.foldl_passOf_other (hf : c.flight = [j]) : ∀ {slots : List Nat}, (∀ slot ∈ slots, j.slot ≠ slot) →
    slots.foldl CoreSt.passOf c = c
  | [], _ => rfl
  | slot :: slots, h => by
    rw [List.foldl_cons, CoreSt.passOf_other hf (h slot (by simp)), CoreSt.foldl_passOf_other hf (fun n hn => h n (by simp [hn]))]

theorem range_four_split {n : Nat} (hn : n < 4) : List.range 4 = List.range n ++ n :: List.range' (n + 1) (3 - n) := by
  interval_cases n <;> rfl

theorem CoreSt.runPasses_alone (hf : c.flight = [j]) (hslot : j.slot < 4) (hfused : j.fused = none) (hchain : j.chain = none)
    (hdrain : j.drain = none) (hb : j.begun < j.rows) (hm : c.midPass j.slot = false)
    (hg : 0 < c.groups.countP (fun x => x.owner == some j.slot)) :
    let n := j.cycles (c.groups.countP (fun x => x.owner == some j.slot))
    c.runPasses = { c with flight := [j.pass c.cyc n], busy := put c.busy j.slot (some (c.cyc + n)) } := by
  intro n
  rw [CoreSt.runPasses_eq, range_four_split hslot, List.foldl_append, List.foldl_cons,
    CoreSt.foldl_passOf_other hf (fun slot hs => (List.mem_range.mp hs).ne'),
    CoreSt.passOf_alone hf hfused hchain hdrain hb hm hg]
  exact CoreSt.foldl_passOf_other (j := j.pass c.cyc n) rfl (fun slot hs => Nat.ne_of_lt (List.mem_range'_1.mp hs).1)

end

/-- Two gangs in slot 0 of core 0, which holds one lane group for that slot and one vector instruction of its hart 0. -/
def twoGangsInOneSlot : State :=
  let g : Gang := { core := 0, slot := 0, launch := 0, index := 0, seq := 0, since := 0, lreq := 8, gpri := 0, live := 1, arr := 0, phase := 0,
                    tiles := [], galBase := 0, galSize := 0, ctxs := [0], bands := [0], rows := 16, stair := 0, rr := 0, passed := [],
                    root := 0, due := false }
  { State.reset with
    gangs := [g, { g with index := 1 }]
    cores := [{ CoreSt.reset 0 with groups := [⟨some 0, none, false, none, 0⟩], vqueue := [{}] }] }

/-- A decision of the first gang puts it in the place of the second, too. -/
theorem twoGangsInOneSlot_sequence : (twoGangsInOneSlot.sequence 0).gangs.map (fun g => g.index) = [0, 0] := by
  decide

theorem exec_vectorPass {s : State} (hp : s.power = true) (q : Nat) :
    exec (.vectorPass q) s = .next (s.updCore q CoreSt.runPasses) := event_eq hp (fun s => s.updCore q CoreSt.runPasses)

theorem State.onlyTiming_updCore (s : State) (q : Nat) (f : CoreSt → CoreSt) : s.OnlyTiming (s.updCore q f) :=
  ⟨⟨rfl, fun _ => rfl, rfl⟩, rfl⟩

theorem CoreSt.runPasses_q (c : CoreSt) : c.runPasses.q = c.q := congrArg Prod.fst (Laws.bucket_runPasses c)

/-- The results of a pass of an instruction that is no link of a drain chain. -/
theorem Job.pass_ends {j : Job} (hf : j.fused = none) (now n : Nat) :
    (j.pass now n).ends = if j.clOnly then j.ends else j.ends ++ [(j.start + j.begun, now + n + 7 + j.extra)] := by
  cases hc : j.clOnly <;> simp [Job.pass, hf, hc]

/-- What O22 says of the vector sequencer and of the passes, of every state in which no two gangs stand in one dome slot. -/
theorem State.vectorSequencer_of_slotsDistinct {s : State} (hp : s.power = true) (hs : s.SlotsDistinct) (q : Nat) :
    let c := s.coreAt q
    (∀ g j on, s.winner c g = some (j, on) → (j, on) ∈ c.candidates g.slot ∧
      (∀ k ∈ c.candidates g.slot, s.hpri k.1.hid = s.hpri j.hid → (j.idx, k.1.seq) ∉ g.passed) ∧
      ∀ k ∈ c.candidates g.slot, (∀ b ∈ c.candidates g.slot, s.hpri b.1.hid = s.hpri k.1.hid → (k.1.idx, b.1.seq) ∉ g.passed) →
        s.hpri k.1.hid ≤ s.hpri j.hid ∧ (s.hpri k.1.hid = s.hpri j.hid → j.since ≤ k.1.since)) ∧
    (∀ j i, c.startable j = some (some i) → (∀ e, find i.ends j.start = some e → c.cyc ≤ e) → i.start ≤ j.start → c.ready j = none) ∧
    (c.decided = true → exec (.vectorIssue q) s = .next s) ∧
    (c.decided = false → ∃ t, exec (.vectorIssue q) s = .next t ∧ s.OnlyTiming t ∧ (t.coreAt q).decided = true ∧
      ∀ g, s.gangs.filter (fun g => g.core == q) = [g] →
        (s.winner c g = none → (t.coreAt q).vqueue = c.vqueue ∧ (t.coreAt q).flight = c.flight) ∧
        (∀ j on, s.winner c g = some (j, on) → (t.coreAt q).vqueue = c.vqueue.filter (fun i => i.seq != j.seq) ∧
          (∃ j', (t.coreAt q).flight = c.flight ++ [j'] ∧ j'.seq = j.seq ∧ j'.chain = on ∧ j'.fused = none) ∧
          ∃ g', t.gangAt q g.slot = some g' ∧ g' = { g with rr := (j.idx + 1) % g.ctxs.length, passed := g'.passed } ∧
            ∀ k ∈ c.candidates g.slot, k.1.seq ≠ j.seq → s.hpri k.1.hid = s.hpri j.hid → (j.idx, k.1.seq) ∈ g'.passed) ∧
        ∀ j, c.vqueue = [j] → c.flight = [] → c.transit = [] → c.tflight = [] → j.slot = g.slot → j.idx < 4 → (j.idx, j.seq) ∉ g.passed →
          0 < c.groups.countP (fun x => x.owner == some j.slot) → (t.coreAt q).vqueue = [] ∧ (t.coreAt q).flight.length = 1) ∧
    ∃ t, exec (.vectorPass q) s = .next t ∧ s.OnlyTiming t ∧ (t.coreAt q).vqueue.length ≤ c.vqueue.length ∧
      ∀ j, c.flight = [j] → j.slot < 4 → j.fused = none → j.chain = none → j.drain = none → j.begun < j.rows →
        c.midPass j.slot = false → 0 < c.groups.countP (fun x => x.owner == some j.slot) →
        let n := j.cycles (c.groups.countP (fun x => x.owner == some j.slot))
        ∃ j', (t.coreAt q).flight = [j'] ∧ j'.begun = j.begun + 1 ∧ find (t.coreAt q).busy j.slot = some (c.cyc + n) ∧
          j'.ends = (if j.clOnly then j.ends else j.ends ++ [(j.start + j.begun, c.cyc + n + 7 + j.extra)]) := by
  intro c
  refine ⟨fun g j on => State.winner_spec, fun j i => CoreSt.ready_unwritten, fun hd => ?_, fun hd => ?issue, ?passes⟩
  · rw [exec_vectorIssue hp, State.sequence_decided hd]
  case issue =>
    refine ⟨_, exec_vectorIssue hp q, State.onlyTiming_sequence hs q, ?_, fun g hg => ?_⟩
    · rw [State.sequence_undecided hd, State.coreAt_decided]
    · refine ⟨fun hw => ?_, fun j on hw => ?_, fun j hv hf ht htf hslot hi hpassed hgroup => ?_⟩
      · rw [State.sequence_noWinner hd hg hw]
        exact ⟨rfl, rfl⟩
      · obtain ⟨hcore, hgang⟩ := State.sequence_winner hd hg hw
        rw [hcore]
        exact ⟨rfl, ⟨_, rfl, rfl, rfl, rfl⟩, _, hgang, rfl, fun k hk => State.mem_noteWin hk⟩
      · have hw := State.winner_alone (s := s) (g := g) hv hf ht htf hslot hi hpassed hgroup
        rw [(State.sequence_winner hd hg hw).1]
        change (c.vqueue.filter (fun i => i.seq != j.seq)) = [] ∧ (c.flight ++ [_]).length = 1
        simp [hv, hf]
  case passes =>
    have hcore : (s.updCore q CoreSt.runPasses).coreAt q = c.runPasses := by
      rw [Laws.coreAt_updCore _ _ _ _ ((CoreSt.runPasses_q _).trans (Laws.coreAt_q s q)), if_pos rfl]
    refine ⟨_, exec_vectorPass hp q, s.onlyTiming_updCore q _, ?_⟩
    rw [hcore]
    refine ⟨c.runPasses_vqueue, fun j hf hslot hfused hchain hdrain hb hm hg => ?_⟩
    rw [CoreSt.runPasses_alone hf hslot hfused hchain hdrain hb hm hg]
    exact ⟨_, rfl, rfl, find_put_self .., Job.pass_ends hfused ..⟩

end Sys2Proof.Machine

namespace Sys2Proof.Proofs

open Sys2Proof Sys2Proof.Machine

/-- Refutes O22: it says of every state that the sequencer's cycle is timing alone, which needs that no two gangs stand in one dome
slot. In `twoGangsInOneSlot` two gangs do, and when the first decides, the model's update of its slot overwrites the second. The fit
test asks for a free slot, so that no placement leads to such a state; but the statement has no premise that leaves it out, and
`State.vectorSequencer_of_slotsDistinct` shows that nothing else is missing. -/
theorem not_vectorSequencer : ¬ Obligations.VectorSequencer := by
  unfold Obligations.VectorSequencer
  intro h
  obtain ⟨-, -, -, hissue, -⟩ := h twoGangsInOneSlot 0 rfl
  obtain ⟨t, ht, ⟨⟨-, -, hgangs⟩, -⟩, -⟩ := hissue rfl
  rw [exec_vectorIssue rfl, Host.Outcome.next.injEq] at ht
  have hi := congrArg (List.map (fun g : Gang => g.index)) hgangs
  rw [← ht, List.map_map] at hi
  exact absurd (twoGangsInOneSlot_sequence.symm.trans hi) (by decide)

end Sys2Proof.Proofs
end

section
/-! The Aperture Table (R63 to R70, R151 to R154, R386 to R390). -/

namespace Sys2Proof.Machine

open Sys2Proof

/-! ### Bit fields replaced -/

theorem testBit_bits (v h l k : Nat) : (bits v h l).testBit k = (decide (k < h + 1 - l) && v.testBit (l + k)) := by
  rw [bits, Nat.testBit_mod_two_pow, Nat.testBit_div_two_pow, Nat.add_comm k]

/-- Subtracting a field and adding a new one leaves the parts above and below it. -/
theorem replaceField_eq (v l n y : Nat) : v - v / 2 ^ l % 2 ^ n * 2 ^ l + y * 2 ^ l =
    2 ^ l * (2 ^ n * (v / 2 ^ l / 2 ^ n) + y) + v % 2 ^ l := by
  have hv : v = 2 ^ l * (2 ^ n * (v / 2 ^ l / 2 ^ n)) + v / 2 ^ l % 2 ^ n * 2 ^ l + v % 2 ^ l := by
    rw [Nat.mul_comm (v / 2 ^ l % 2 ^ n), ← Nat.mul_add, Nat.div_add_mod, Nat.div_add_mod]
  rw [Nat.mul_add, Nat.mul_comm (2 ^ l) y]
  omega

/-- A field replaced: its bits are those of the new value, and no other bit changes. -/
theorem getLsbD_setField (v : Word) {l n : Nat} (hn : 0 < n) (hl : l + n ≤ 64) (x k : Nat) :
    (setField v l n x).getLsbD k = if l ≤ k ∧ k < l + n then x.testBit (k - l) else v.getLsbD k := by
  have hwidth : l + n - 1 + 1 - l = n := by omega
  rw [setField, bits, hwidth, replaceField_eq, BitVec.getLsbD_ofNat,
    Nat.testBit_two_pow_mul_add _ (Nat.mod_lt _ (Nat.two_pow_pos l)), Nat.testBit_two_pow_mul_add _ (Nat.mod_lt _ (Nat.two_pow_pos n))]
  simp only [Nat.testBit_mod_two_pow, Nat.testBit_div_two_pow]
  by_cases hlow : k < l
  · simp [hlow, show k < 64 by omega, BitVec.getLsbD]
  · by_cases hfield : k < l + n
    · simp [hlow, hfield, show k < 64 by omega, show k - l < n by omega, show l ≤ k by omega]
    · rw [if_neg hlow, if_neg (by omega), if_neg (by omega), show k - l - n + n + l = k by omega, ← BitVec.getLsbD]
      by_cases hk : k < 64
      · simp [hk]
      · simp [hk, BitVec.getLsbD_of_ge v k (by omega)]

theorem bits_setField (v : Word) {l n : Nat} (hn : 0 < n) (hl : l + n ≤ 64) (x : Nat) :
    bits (setField v l n x).toNat (l + n - 1) l = x % 2 ^ n := by
  refine Nat.eq_of_testBit_eq (fun k => ?_)
  rw [testBit_bits, ← BitVec.getLsbD, getLsbD_setField v hn hl, Nat.testBit_mod_two_pow]
  by_cases hk : k < n
  · simp [hk, show k < l + n - 1 + 1 - l by omega]
  · simp [hk, show ¬ k < l + n - 1 + 1 - l by omega]

/-! ### The conditions of R67 (R390) -/

/-- The code of the first condition of R67 that an entry's value breaks, read from its fields (R63, R390). -/
def firstBroken (bh : Nat) (v : Word) : Option Nat :=
  let kind := bits v.toNat 62 60
  let rows := bits v.toNat 37 29
  let slots := if bits v.toNat 28 19 = 0 then 1024 else bits v.toNat 28 19
  let wide := if bits v.toNat 59 56 ∈ [4, 5, 8] then 2 else 1
  if v.getLsbD 63 = false then none
  else if 6 ≤ kind ∨ 11 ≤ bits v.toNat 59 56 then some 0x4000
  else if bh ≤ bits v.toNat 55 48 then some 0x4001
  else if rows = 0 ∨ 256 < rows ∨ (2 ≤ kind ∧ rows ≠ 1) then some 0x4002
  else if v.getLsbD 18 = true ∧ 1 < rows then some 0x4003
  else if (kind = 0 ∧ (1024 < slots * wide ∨ bh < rows)) ∨ (kind = 1 ∧ (bh < slots ∨ 1024 < rows * wide)) ∨
    (kind = 2 ∧ 1024 < slots * wide) ∨ (kind = 3 ∧ bh < slots) ∨ (4 ≤ kind ∧ Nat.lcm bh (1024 / wide) < slots) then some 0x4004
  else none

theorem pteBit_toNat (v : Word) (n : Nat) : pteBit v.toNat n = v.getLsbD n := by
  rw [pteBit, BitVec.getLsbD, Nat.testBit_eq_decide_div_mod_eq]

theorem tyCells_eq {ty : Nat} (h : ty ≤ 10) : tyCells ty = if ty ∈ [4, 5, 8] then 2 else 1 := by
  interval_cases ty <;> rfl

/-- The space that an entry needs is there, by its kind. -/
theorem Apt.fault?_eq (a : Apt) (bh : Nat) : a.fault? bh =
    if 6 ≤ a.kind ∨ 11 ≤ a.ty then some 0x4000
    else if bh ≤ a.row0 then some 0x4001
    else if a.h = 0 ∨ 256 < a.h ∨ (2 ≤ a.kind ∧ a.h ≠ 1) then some 0x4002
    else if a.bc = true ∧ 1 < a.h then some 0x4003
    else if (a.kind = 0 ∧ (1024 < a.ws * tyCells a.ty ∨ bh < a.h)) ∨ (a.kind = 1 ∧ (bh < a.ws ∨ 1024 < a.h * tyCells a.ty)) ∨
      (a.kind = 2 ∧ 1024 < a.ws * tyCells a.ty) ∨ (a.kind = 3 ∧ bh < a.ws) ∨
      (4 ≤ a.kind ∧ Nat.lcm bh (1024 / tyCells a.ty) < a.ws) then some 0x4004
    else none := by
  unfold Apt.fault?
  refine ite_congr rfl (fun _ => rfl) (fun hk => ite_congr rfl (fun _ => rfl) (fun _ => ite_congr rfl (fun _ => rfl) (fun hh => ?_)))
  refine ite_congr ?_ (fun _ => rfl) (fun _ => ?_)
  · rw [Apt.hl]
    split
    · rfl
    · simp only [show a.h = 1 by omega]
  · rw [← ite_not]
    refine ite_congr (propext ?_) (fun _ => rfl) (fun _ => rfl)
    have h6 : a.kind < 6 := by omega
    generalize a.kind = kind at h6 ⊢
    interval_cases kind <;> simp [imp_iff_not_or]

/-- An entry's value breaks what `firstBroken` says (R67, R390). -/
theorem Hart.aptFault_eq (h : Hart) (n : Ap) (v : Word) :
    h.aptFault n v = (firstBroken h.bh v).map (fun c => { code := c, tap := some n.toNat }) := by
  unfold Hart.aptFault firstBroken
  simp only [Apt.fault?_eq, Apt.ofWord, Apt.ws, pteBit_toNat]
  cases hv : v.getLsbD 63
  · rfl
  · by_cases hk : 6 ≤ bits v.toNat 62 60 ∨ 11 ≤ bits v.toNat 59 56
    · simp only [if_true, if_pos hk, Bool.true_eq_false, if_false]
    · rw [tyCells_eq (by omega)]
      simp only [if_true, Bool.true_eq_false, if_false]

/-! ### Elements read (R154, R224, R380) -/

/-- Where no plate of an instruction's footprints is absent, nothing is filled (R380). -/
theorem withPlates_present {as : List Apt} {n : Nat} {s : State} {h : Hart} {f : State → Hart → Exec} (hab : h.absent as = none) :
    withPlates as n s h f = f s h := by
  cases n with
  | zero => rfl
  | succ n => rw [withPlates, hab]

/-- An entry that is bound to no stream breaks no rule of R224 as a source. -/
theorem Hart.streamFault_unbound {h : Hart} {a : Ap} (hb : (h.apt a).sb = false) : h.streamFault [] [a] = none := by
  simp [Hart.streamFault, hb]

theorem word_eq_ofInt (x : Int) : word x = BitVec.ofInt 64 x := by
  refine BitVec.eq_of_toNat_eq ?_
  rw [word, BitVec.toNat_ofNat, BitVec.toNat_ofInt, wrap]
  omega

theorem elementWord_eq (ty v : Nat) : elementWord ty v =
    if tySigned ty then BitVec.ofInt 64 (sext v (tyWidth ty)) else BitVec.ofNat 64 v := by
  rw [elementWord, word_eq_ofInt]

/-! ### Definitions (R151, R152) -/

section
variable {s : State} {h : Hart} (hs : s.hart? = some h)
include hs

theorem define_fits {n : Ap} {v : Hart → Word} (hv : firstBroken h.bh (v h) = none) :
    define n v s = .next (s.ran { h with ap := h.ap.set n.toNat (v h) } 8) := by
  rw [define, onHart_eq hs, Hart.aptFault_eq, hv]
  rfl

theorem define_breaks {n : Ap} {v : Hart → Word} {c : Nat} (hv : firstBroken h.bh (v h) = some c) :
    define n v s = .next (s.takeTrap { code := c, tap := some n.toNat }) := by
  rw [define, onHart_eq hs, Hart.aptFault_eq, hv]
  rfl

/-! ### Exchanges (R153) -/

theorem execAswap_fits {m n : Ap} (hn : firstBroken h.bh (h.ap.get n.toNat) = none)
    (hm : firstBroken h.bh (h.ap.get m.toNat) = none) :
    execAswap m n s = .next (s.ran { h with ap := (h.ap.set m.toNat (h.ap.get n.toNat)).set n.toNat (h.ap.get m.toNat) } 8) := by
  simp only [execAswap, onHart_eq hs, Hart.aptFault_eq, hn, hm]
  rfl

theorem execAswap_breaksFirst {m n : Ap} {c : Nat} (hn : firstBroken h.bh (h.ap.get n.toNat) = some c) :
    execAswap m n s = .next (s.takeTrap { code := c, tap := some m.toNat }) := by
  simp only [execAswap, onHart_eq hs, Hart.aptFault_eq, hn]
  rfl

theorem execAswap_breaksSecond {m n : Ap} {c : Nat} (hn : firstBroken h.bh (h.ap.get n.toNat) = none)
    (hm : firstBroken h.bh (h.ap.get m.toNat) = some c) :
    execAswap m n s = .next (s.takeTrap { code := c, tap := some n.toNat }) := by
  simp only [execAswap, onHart_eq hs, Hart.aptFault_eq, hn, hm]
  rfl

/-! ### Bindings (R151) -/

theorem execAbind_eq (n : Ap) (fs : BitVec 4) : execAbind n fs s =
    .next (s.ran { h with ap := h.ap.set n.toNat (setField (setField (h.ap.get n.toNat) 17 1 1) 13 4 fs.toNat) } 8) :=
  hartOp_eq hs 8 _

theorem execAunbind_eq (n : Ap) : execAunbind n s =
    .next (s.ran { h with ap := h.ap.set n.toNat (setField (h.ap.get n.toNat) 13 5 0) } 8) := hartOp_eq hs 8 _

/-! ### `vget` (R154) -/

variable {a : Ap} (rd rb : XReg)

theorem execVget_invalid (hv : (h.apt a).v = false) :
    execVget rd a rb s = .next (s.takeTrap { code := 0x1110, tap := some a.toNat }) := by
  simp only [execVget, onHart_eq hs, hv]
  rfl

theorem execVget_outside (hv : (h.apt a).v = true)
    (hp : (h.apt a).hl ≤ bits (h.getX rb).toNat 28 16 ∨ (h.apt a).e ≤ bits (h.getX rb).toNat 12 0) :
    execVget rd a rb s = .next (s.takeTrap { code := 0x1121, tap := some a.toNat }) := by
  simp only [execVget, onHart_eq hs, hv, if_pos hp]
  rfl

section
variable (hv : (h.apt a).v = true) (hr : bits (h.getX rb).toNat 28 16 < (h.apt a).hl) (he : bits (h.getX rb).toNat 12 0 < (h.apt a).e)
include hv hr he

theorem execVget_badStream {n : Ap} (hf : h.streamFault [] [a] = some n) :
    execVget rd a rb s = .next (s.takeTrap { code := 0x1144, tap := some n.toNat }) := by
  simp only [execVget, onHart_eq hs, hv, if_neg (not_or.mpr ⟨not_le.mpr hr, not_le.mpr he⟩), hf]
  rfl

theorem execVget_element (hf : h.streamFault [] [a] = none) (hab : h.absent [h.apt a] = none) :
    execVget rd a rb s = .next (((s.setHart (h.setX rd (elementWord (h.apt a).ty
      (h.getEl (h.apt a) (bits (h.getX rb).toNat 28 16) (bits (h.getX rb).toNat 12 0))))).dispatch h 5 0
        { ops := [⟨h.ap.get a.toNat, false, 1, 1, true⟩], rc := 1, vl := 1, rows := 1 }).stepOver 8) := by
  simp only [execVget, onHart_eq hs, hv, if_neg (not_or.mpr ⟨not_le.mpr hr, not_le.mpr he⟩), hf]
  rw [withPlates_present hab]
  rfl

end

end

end Sys2Proof.Machine

namespace Sys2Proof.Proofs

open Sys2Proof Sys2Proof.Machine

/-- Settles O16: every definition is `define`, whose condition is `firstBroken`; the bindings replace fields; `vget` by its checks in
their order. -/
theorem apertureTable : Obligations.ApertureTable := by
  unfold Obligations.ApertureTable
  intro s h rd rb apd apa fs ra tr bc line ty row0 col0 slots hm1 hs
  refine ⟨⟨fun hv => define_fits hs hv, fun c hc => define_breaks hs hc⟩, ⟨fun hv => define_fits hs hv, fun c hc => define_breaks hs hc⟩,
    ⟨fun hv => define_fits (v := fun h => h.getX ra &&& ~~~0x1fff) hs hv, fun c hc => define_breaks (v := fun h => h.getX ra &&& ~~~0x1fff) hs hc⟩,
    ⟨fun hv => define_fits (v := fun h => h.ap.get apa.toNat) hs hv, fun c hc => define_breaks (v := fun h => h.ap.get apa.toNat) hs hc⟩,
    hartOp_eq hs 8 _, execAswap_fits hs, fun c => execAswap_breaksFirst hs, fun c => execAswap_breaksSecond hs,
    ⟨_, execAbind_eq hs apd fs, ?bound, ?stream, fun n hn => ?others⟩, ⟨_, execAunbind_eq hs apd, ?unbound, fun n hn => ?rest⟩,
    execVget_invalid hs rd rb, execVget_outside hs rd rb, Hart.streamFault_unbound, fun hv hr he n => execVget_badStream hs rd rb hv hr he,
    fun hv hf hr he hab => ?element⟩
  case bound =>
    rw [getLsbD_setField _ (by decide) (by decide), if_neg (by decide), getLsbD_setField _ (by decide) (by decide), if_pos (by decide)]
    rfl
  case stream => exact (bits_setField _ (l := 13) (n := 4) (by decide) (by decide) _).trans (Nat.mod_eq_of_lt fs.isLt)
  case others =>
    rw [getLsbD_setField _ (by decide) (by decide), if_neg (by omega), getLsbD_setField _ (by decide) (by decide), if_neg (by omega)]
  case unbound => exact bits_setField _ (l := 13) (n := 5) (by decide) (by decide) 0
  case rest => rw [getLsbD_setField _ (by decide) (by decide), if_neg (by omega)]
  case element =>
    rw [← elementWord_eq]
    exact execVget_element hs rd rb hv hr he hf hab

end Sys2Proof.Proofs
end

section
/-! Cycles of a core as timing alone, where no two gangs share a dome slot (R54, R101, R310). -/

namespace Sys2Proof.Machine

open Sys2Proof

/-! ### Timing alone, one step after another -/

theorem State.TimingAlike.refl (s : State) : s.TimingAlike s := ⟨rfl, fun _ => rfl, rfl⟩

theorem State.TimingAlike.trans {s t u : State} (h : s.TimingAlike t) (k : t.TimingAlike u) : s.TimingAlike u := by
  obtain ⟨h1, h2, h3⟩ := h
  obtain ⟨k1, k2, k3⟩ := k
  exact ⟨by rw [k1, h1], fun d => (k2 d).trans (h2 d), k3.trans h3⟩

theorem State.TimingAlike.cur_eq {s t : State} (h : s.TimingAlike t) : t.cur = s.cur := by rw [h.1]

theorem State.OnlyTiming.trans {s t u : State} (h : s.OnlyTiming t) (k : t.OnlyTiming u) : s.OnlyTiming u :=
  ⟨h.1.trans k.1, k.2.trans h.2⟩

/-- What keeps the gangs but for the sequencer's part keeps their slots distinct. -/
theorem State.SlotsDistinct.of_timingAlike {s t : State} (hs : s.SlotsDistinct) (h : s.TimingAlike t) : t.SlotsDistinct := by
  have hm : t.gangs.map Gang.unsequenced = s.gangs.map Gang.unsequenced := h.2.2
  have hmem : ∀ f ∈ t.gangs, ∃ f' ∈ s.gangs, f'.unsequenced = f.unsequenced := fun f hf => by
    simpa [hm] using List.mem_map_of_mem (f := Gang.unsequenced) hf
  intro f hf g hg hc hl
  obtain ⟨f', hf', ef⟩ := hmem f hf
  obtain ⟨g', hg', eg⟩ := hmem g hg
  have hc' : f'.core = g'.core := ((congrArg Gang.core ef).trans hc).trans (congrArg Gang.core eg).symm
  have hl' : f'.slot = g'.slot := ((congrArg Gang.slot ef).trans hl).trans (congrArg Gang.slot eg).symm
  rw [← ef, ← eg, hs f' hf' g' hg' hc' hl']

/-- From a state whose slots are distinct, timing alone leads to the other. -/
def State.TimePasses (s t : State) : Prop := s.SlotsDistinct → s.OnlyTiming t

theorem State.TimePasses.refl (s : State) : s.TimePasses s := fun _ => ⟨.refl s, rfl⟩

theorem State.TimePasses.trans {s t u : State} (h : s.TimePasses t) (k : t.TimePasses u) : s.TimePasses u :=
  fun hs => (h hs).trans (k (hs.of_timingAlike (h hs).1))

theorem State.timePasses_foldl {α : Type} {f : State → α → State} (hf : ∀ (s : State) a, s.TimePasses (f s a)) :
    ∀ (l : List α) (s : State), s.TimePasses (l.foldl f s)
  | [], s => .refl s
  | a :: l, s => (hf s a).trans (State.timePasses_foldl hf l (f s a))

theorem State.timePasses_updCore (s : State) (q : Nat) (f : CoreSt → CoreSt) : s.TimePasses (s.updCore q f) :=
  fun _ => s.onlyTiming_updCore q f

/-! ### Dies -/

theorem State.dieAt_d (s : State) (d : Nat) : (s.dieAt d).d = d := by
  unfold State.dieAt
  split
  next c h => simpa using List.find?_some h
  · rfl

theorem State.dieAt_setDie (s : State) (e : DieSt) (d : Nat) : (s.setDie e).dieAt d = if e.d = d then e else s.dieAt d := by
  unfold State.dieAt State.setDie
  by_cases he : e.d = d
  · simp [he]
  · have hp : (fun b : DieSt => decide ((b.d != e.d) = true ∧ (b.d == d) = true)) = fun b => b.d == d := by
      funext b
      by_cases hb : b.d = d
      · simp [hb, Ne.symm he]
      · simp [hb]
    simp only [List.find?_cons, beq_eq_false_iff_ne.mpr he, List.find?_filter, hp, if_neg he]

/-- A die changed but for its almanac. -/
theorem State.timePasses_setDie (s : State) {d : Nat} {e : DieSt} (hd : e.d = d) (ha : e.almanac = (s.dieAt d).almanac) :
    s.TimePasses (s.setDie e) := fun _ => by
  refine ⟨⟨rfl, fun p => ?_, rfl⟩, rfl⟩
  rw [State.dieAt_setDie]
  split
  next he => rw [ha, ← hd, he]
  · rfl

/-! ### Cycles and boundaries (R326, R332) -/

theorem State.timePasses_nextCycle (s : State) (q : Nat) : s.TimePasses (s.nextCycle q) := by
  unfold State.nextCycle
  split
  · exact .refl s
  · exact s.timePasses_updCore q _

theorem State.timePasses_sequence (s : State) (q : Nat) : s.TimePasses (s.sequence q) := fun hs => State.onlyTiming_sequence hs q

theorem State.timePasses_coreCycle (s : State) (q : Nat) : s.TimePasses (s.coreCycle q) := by
  unfold State.coreCycle
  split
  · exact s.timePasses_updCore q _
  · exact (((s.timePasses_updCore q _).trans (State.timePasses_sequence _ q)).trans (State.timePasses_updCore _ q _)).trans
      (State.timePasses_nextCycle _ q)

theorem State.timePasses_catchUp (q time : Nat) : ∀ (n : Nat) (s : State), s.TimePasses (s.catchUp q time n)
  | 0, s => .refl s
  | n + 1, s => by
    unfold State.catchUp
    split
    · exact .refl s
    · exact (s.timePasses_coreCycle q).trans (State.timePasses_catchUp q time n _)

theorem State.timePasses_toBoundary (s : State) (q time : Nat) : s.TimePasses (s.toBoundary q time) :=
  (State.timePasses_catchUp q time _ s).trans (State.timePasses_updCore _ q _)

theorem State.timePasses_startCores (d ptr : Nat) : ∀ (ks : List Nat) (n : Nat) (s : State), s.TimePasses (startCores d ptr n ks s)
  | [], n, s => by
    unfold startCores
    exact .refl s
  | k :: ks, 0, s => by
    unfold startCores
    exact .refl s
  | k :: ks, n + 1, s => by
    unfold startCores
    dsimp only
    split
    · refine .trans ?_ (State.timePasses_startCores d ptr ks n _)
      exact .trans (s.timePasses_updCore _ _) (State.timePasses_setDie _ (State.dieAt_d _ d) rfl)
    · exact State.timePasses_startCores d ptr ks (n + 1) s

theorem State.timePasses_slewBoundary (s : State) (d : Nat) : s.TimePasses (s.slewBoundary d) := by
  have hcores (f : CoreSt → CoreSt) : s.TimePasses { s with cores := s.cores.map f } := fun _ => ⟨⟨rfl, fun _ => rfl, rfl⟩, rfl⟩
  unfold State.slewBoundary
  refine .trans ?_ (State.timePasses_startCores d _ _ _ _)
  exact (hcores _).trans (State.timePasses_setDie _ (State.dieAt_d s d) rfl)

theorem State.timePasses_slewStep (s : State) (d : Nat) : s.TimePasses (s.slewStep d) :=
  (State.timePasses_foldl (fun s q => s.timePasses_toBoundary q _) _ s).trans (State.timePasses_slewBoundary _ d)

theorem State.timePasses_boundaries (q : Nat) : ∀ (n : Nat) (s : State), s.TimePasses (s.boundaries q n)
  | 0, s => .refl s
  | n + 1, s => by
    unfold State.boundaries
    split
    · exact .refl s
    · exact (s.timePasses_slewStep _).trans (State.timePasses_boundaries q n _)

/-! ### What a drain chain waits for (R262) -/

theorem State.timePasses_untilStarted (q d : Nat) : ∀ (n : Nat) (s : State), s.TimePasses (s.untilStarted q d n)
  | 0, s => .refl s
  | n + 1, s => by
    unfold State.untilStarted
    split
    · exact .refl s
    · exact ((State.timePasses_boundaries q 7 s).trans (State.timePasses_coreCycle _ q)).trans (State.timePasses_untilStarted q d n _)

theorem State.timePasses_letDrainGo (s : State) (h : Hart) (j : Job) : s.TimePasses (s.letDrainGo h j) := by
  unfold State.letDrainGo
  split
  · exact .refl s
  · split
    · exact .refl s
    · exact State.timePasses_untilStarted _ _ _ s

theorem State.timePasses_settleLink (s : State) (h : Hart) (j : Job) : s.TimePasses (s.settleLink h j) := by
  unfold State.settleLink
  split
  · exact .refl s
  · exact State.timePasses_untilStarted _ _ _ s

end Sys2Proof.Machine
end

section
/-! Sweeps: the loop that every instruction of the shared form runs (R146, R375), and what it leaves unchanged (R77, R110, R111). -/

namespace Sys2Proof.Machine

open Sys2Proof

/-! ### The instructions that are one sweep -/

theorem kField_eq (k : KReg) : kField k = k.setWidth 6 := by
  revert k
  decide

theorem exec_toHalf {i : Instr} {f : AHalf} {mask : BitVec 2} (hi : i.toHalf = some (f, mask)) (s : State) :
    exec i s = onHart 4 s (vecHalf f (maskGuard mask) s) := by
  cases i <;> cases hi
  case vceq.refl | vcne.refl | vclt.refl | vcle.refl | vfceq.refl | vfclt.refl | vfcle.refl | vfcun.refl | kand.refl | kor.refl | kxor.refl
    | kandn.refl | knot.refl | kmw.refl | kmr.refl | vsredsum.refl | vswredsum.refl | vsredmax.refl | vsredmin.refl | vsredand.refl
    | vsredor.refl | vsredxor.refl | vsfredsum.refl | vsfwredsum.refl | vsfredmax.refl | vsfredmin.refl =>
    simp only [kField_eq]
    rfl
  all_goals rfl

theorem vecHalf_of_sweep? {f : AHalf} {g : Guard} {v : Hart → Vec} (hv : f.sweep? g = some v) : vecHalf f g = Vec.run v := by
  obtain ⟨op, apd, apa, apb⟩ := f
  cases op <;> cases hv <;> rfl

/-- An instruction that is one sweep runs it (R146). -/
theorem exec_sweep? {i : Instr} {len : Nat} {v : Hart → Vec} (hi : i.sweep? = some (len, v)) (s : State) :
    exec i s = onHart len s (Vec.run v s) := by
  unfold Instr.sweep? at hi
  split at hi
  · cases hi
    rfl
  · cases hi
    rfl
  · cases hi
    rfl
  · obtain ⟨⟨f, mask⟩, hf, hv⟩ := Option.bind_eq_some_iff.mp hi
    obtain ⟨w, hw, he⟩ := Option.map_eq_some_iff.mp hv
    cases he
    rw [exec_toHalf hf, vecHalf_of_sweep? hw]

/-! ### The loop of a sweep that no flag stops (R391) -/

theorem trapFlag_none {fen f : Flags} (h : fen &&& f = 0) : trapFlag fen f = none := by
  rw [trapFlag, h]
  decide

/-- One index of a sweep: the item takes its effect where it is active, and its flags join the others. -/
def sweepStep (vl : Nat) (act : Nat → Nat → Bool) (el : Hart → Nat → Nat → Hart × Flags) (a : Hart × Flags) (i : Nat) : Hart × Flags :=
  if act (i / vl) (i % vl) then ((el a.1 (i / vl) (i % vl)).1, a.2 ||| (el a.1 (i / vl) (i % vl)).2) else a

theorem Vec.fold_eq (v : Vec) (f : Fed) (i n : Nat) (a : Hart × Flags) :
    v.fold f i n a = (List.range' i n).foldl (sweepStep v.vl v.act (v.effect f)) a := rfl

theorem and_or_eq_zero {x a b : Flags} : x &&& (a ||| b) = 0 ↔ x &&& a = 0 ∧ x &&& b = 0 := by
  rw [BitVec.and_or_distrib_left]
  exact BitVec.or_eq_zero_iff

section
variable {fen : Flags} {vl : Nat} {act : Nat → Nat → Bool} {el : Hart → Nat → Nat → Hart × Flags}

/-- Flags only accumulate: none of a part is enabled where none of the whole is. -/
theorem sweepStep_flags : ∀ (l : List Nat) (a : Hart × Flags), fen &&& (l.foldl (sweepStep vl act el) a).2 = 0 → fen &&& a.2 = 0
  | [], _, hz => hz
  | i :: l, a, hz => by
    have h1 := sweepStep_flags l _ hz
    rw [sweepStep] at h1
    split at h1
    · exact (and_or_eq_zero.mp h1).1
    · exact h1

/-- A sweep none of whose flags is enabled comes to its end. -/
theorem sweep_eq_ok : ∀ (l : List Nat) (h : Hart) (fl : Flags), fen &&& (l.foldl (sweepStep vl act el) (h, fl)).2 = 0 →
    sweep fen vl act el l h fl = .ok (l.foldl (sweepStep vl act el) (h, fl)).1 (l.foldl (sweepStep vl act el) (h, fl)).2
  | [], _, _, _ => rfl
  | i :: l, h, fl, hz => by
    rw [List.foldl_cons] at hz ⊢
    have hstep := sweepStep_flags l _ hz
    rw [sweep]
    cases ha : act (i / vl) (i % vl) with
    | false =>
      simp only [sweepStep, ha, Bool.false_eq_true, if_false] at hz ⊢
      exact sweep_eq_ok l h fl hz
    | true =>
      simp only [sweepStep, ha, if_true] at hz hstep ⊢
      rw [trapFlag_none (and_or_eq_zero.mp hstep).2]
      exact sweep_eq_ok l _ _ hz

end

/-! ### A sweep that completes (R375, R376) -/

/-- What follows the sweep is the write of its flags, as in every instruction that is one sweep. -/
def Vec.Plain (v : Vec) : Prop := v.last = fun s _ h fl => .done (s.setHart (h.orFlags fl))

theorem Vec.finish_ok {v : Vec} {h : Hart} {f : Fed} (hp : v.Plain) (hf : f.stop = none) (hz : h.fen &&& (v.result h f).2 = 0) :
    v.finish h f = .done (f.s.setHart ((v.result h f).1.orFlags (v.result h f).2)) := by
  have hl : v.limit f = v.rc * v.vl := by rw [Vec.limit, hf]; rfl
  rw [Vec.finish, hl, sweep_eq_ok _ _ _ hz, hf, hp]
  rfl

theorem Vec.check_ready {v : Hart → Vec} {s : State} {h : Hart} (hr : (v h).Ready s h) (k : Vec → Hart → Fed → Exec) :
    Vec.check v s h k = k (v h) h ((v h).feed s h) := by
  have hl : (v h).limit ((v h).feed s h) = (v h).rc * (v h).vl := by rw [Vec.limit, hr.streams]; rfl
  have hlate : (if (v h).valueAp.isNone then none else (v h).late? h) = none := by
    split
    · rfl
    next hn => exact hr.late (by simpa [Option.isSome_iff_ne_none] using hn)
  have hvalue : (if (v h).valueStreamed h then (v h).value ((v h).feed s h).h ((v h).limit ((v h).feed s h)) else none) = none := by
    split
    next hn => rw [hl, hr.values hn]
    · rfl
  rw [Vec.check, hr.checks]
  dsimp only
  rw [withPlates_present hr.plates, hlate]
  dsimp only
  rw [hvalue]

theorem Vec.run_eq (v : Hart → Vec) (s : State) (h : Hart) : Vec.run v s h =
    (Vec.check (fun h' => (v h').linked ((Vec.entry v s h).joins h (v h).cls (v h).charge ((v h).job h))) (Vec.entry v s h) h Vec.finish).settle
      (fun stops u => u.dispatchVec h (Vec.met v s h) stops) := rfl

/-- A sweep that completes commits, in the state that `Vec.Completes` names. -/
theorem Vec.run_completes {v : Hart → Vec} {s t : State} {h : Hart} (hp : (v h).Plain)
    (hc : (Vec.met v s h).Completes (Vec.entry v s h) h t) : Vec.run v s h = .done t := by
  obtain ⟨hr, hz, rfl⟩ := hc
  have hmet : (Vec.met v s h).Plain := hp
  rw [Vec.run_eq, Vec.check_ready (v := fun h' => (v h').linked _) hr]
  exact congrArg (Exec.settle (fun stops u => u.dispatchVec h (Vec.met v s h) stops)) (Vec.finish_ok hmet hr.streams hz)

theorem AHalf.plain_of_sweep? {f : AHalf} {g : Guard} {v : Hart → Vec} (hv : f.sweep? g = some v) (h : Hart) : (v h).Plain := by
  obtain ⟨op, apd, apa, apb⟩ := f
  cases op <;> cases hv <;> rfl

theorem Instr.plain_of_sweep? {i : Instr} {len : Nat} {v : Hart → Vec} (hi : i.sweep? = some (len, v)) (h : Hart) : (v h).Plain := by
  unfold Instr.sweep? at hi
  split at hi
  · cases hi
    rfl
  · cases hi
    rfl
  · cases hi
    rfl
  · obtain ⟨⟨f, mask⟩, hf, hv⟩ := Option.bind_eq_some_iff.mp hi
    obtain ⟨w, hw, he⟩ := Option.map_eq_some_iff.mp hv
    cases he
    exact AHalf.plain_of_sweep? hw h

theorem exec_completes {i : Instr} {len : Nat} {v : Hart → Vec} {s t : State} {h : Hart} (hs : s.hart? = some h)
    (hi : i.sweep? = some (len, v)) (hc : (Vec.met v s h).Completes (Vec.entry v s h) h t) : exec i s = .next (t.stepOver len) := by
  rw [exec_sweep? hi, onHart_eq hs, Vec.run_completes (Instr.plain_of_sweep? hi h) hc, Exec.outcome_done]

end Sys2Proof.Machine
end

section
/-! The frame of a sweep (R77, R110, R111, R146, R169, R375). -/

namespace Sys2Proof.Machine

open Sys2Proof

/-! ### What an item may change -/

/-- A hart in the middle of a sweep from `h`: of it only cells, plates, mask registers, carries and latches have changed, no cell but
those of `cells`, and masks, carries and latches only where they may. -/
structure Hart.SweptFrom (h : Hart) (cells : Nat → Prop) (masks carries latches : Prop) (g : Hart) : Prop where
  frame : g = { h with plane := g.plane, plates := g.plates, k := g.k, efc := g.efc, cl := g.cl }
  kept : ∀ key, ¬ cells key → g.plane.get key = h.plane.get key
  noCell : (∀ key, ¬ cells key) → g.plane = h.plane
  mask : ¬ masks → g.k = h.k
  carry : ¬ carries → g.efc = h.efc
  latch : ¬ latches → g.cl = h.cl

/-- The cells that hold the elements that a sweep may write. -/
def Hart.elementCells (h : Hart) (w : Option (Ap × (Nat → Nat → Bool))) (key : Nat) : Prop :=
  ∃ ap at', w = some (ap, at') ∧ ∃ r e, at' r e = true ∧ ∃ p ∈ (h.apt ap).elBits h.bh r e, p.1 = key

section
variable {h g : Hart} {cells : Nat → Prop} {masks carries latches : Prop}

theorem Hart.SweptFrom.refl (h : Hart) (cells : Nat → Prop) (masks carries latches : Prop) : h.SweptFrom cells masks carries latches h :=
  ⟨rfl, fun _ _ => rfl, fun _ => rfl, fun _ => rfl, fun _ => rfl, fun _ => rfl⟩

variable (hg : h.SweptFrom cells masks carries latches g)
include hg

theorem Hart.SweptFrom.bh_eq : g.bh = h.bh := by rw [hg.frame]

theorem Hart.SweptFrom.putCell {rc : Nat × Nat} (hc : cells (cellKey rc)) (v : BitVec 16) :
    h.SweptFrom cells masks carries latches (g.putCell rc v) where
  frame := by
    unfold Hart.putCell
    rw [hg.frame]
  kept key hk := by
    rw [← hg.kept key hk]
    exact SMap.get_set_ne _ _ (fun e => hk (e ▸ hc))
  noCell hn := absurd hc (hn _)
  mask := hg.mask
  carry := hg.carry
  latch := hg.latch

/-- An element written changes the cells that hold its bits alone (R66). -/
theorem Hart.SweptFrom.setEl {a : Apt} {r e : Nat} (hc : ∀ p ∈ a.elBits h.bh r e, cells p.1) (v : Nat) :
    h.SweptFrom cells masks carries latches (g.setEl a r e v) := by
  unfold Apt.elBits at hc
  unfold Hart.setEl
  rw [hg.bh_eq]
  dsimp only at hc ⊢
  split at hc
  next hw =>
    rw [hw]
    obtain ⟨hlo, hhi⟩ : cells _ ∧ cells _ := by simpa using hc
    exact (hg.putCell hlo _).putCell hhi _
  next hw =>
    have hcell := hc _ (List.mem_singleton_self _)
    split
    next h32 => exact absurd h32 hw
    · exact hg.putCell hcell _
    · exact hg.putCell hcell _

theorem Hart.SweptFrom.setK (hm : masks) (n : Nat) (v : BitVec 1024) : h.SweptFrom cells masks carries latches (g.setK n v) := by
  unfold Hart.setK
  split
  · exact hg
  · exact ⟨by rw [hg.frame], hg.kept, hg.noCell, fun hn => absurd hm hn, hg.carry, hg.latch⟩

theorem Hart.SweptFrom.setEfc (hc : carries) (m : SMap 32) : h.SweptFrom cells masks carries latches { g with efc := m } :=
  ⟨by rw [hg.frame], hg.kept, hg.noCell, hg.mask, fun hn => absurd hc hn, hg.latch⟩

theorem Hart.SweptFrom.setCL (hl : latches) (r j v : Nat) : h.SweptFrom cells masks carries latches (g.setCL r j v) :=
  ⟨by unfold Hart.setCL; rw [hg.frame], hg.kept, hg.noCell, hg.mask, hg.carry, fun hn => absurd hl hn⟩

end

/-! ### What a sweep may change -/

/-- Every item of a sweep from `h` changes what `Hart.SweptFrom` says and no more. -/
def Vec.Keeps (v : Vec) (h : Hart) (cells : Nat → Prop) (masks carries latches : Prop) : Prop :=
  ∀ h1 g r e, r < v.rc → e < v.vl → v.act r e = true → h.SweptFrom cells masks carries latches g →
    h.SweptFrom cells masks carries latches (v.el h1 g r e).1

theorem Hart.SweptFrom.ite {h : Hart} {cells : Nat → Prop} {masks carries latches c : Prop} [Decidable c] {a b : Hart × Flags}
    (ha : h.SweptFrom cells masks carries latches a.1) (hb : h.SweptFrom cells masks carries latches b.1) :
    h.SweptFrom cells masks carries latches (if c then a else b).1 := by
  split
  · exact ha
  · exact hb

theorem Hart.SweptFrom.foldl {α : Type} {h : Hart} {cells : Nat → Prop} {masks carries latches : Prop} {f : Hart → α → Hart}
    (hf : ∀ g a, h.SweptFrom cells masks carries latches g → h.SweptFrom cells masks carries latches (f g a)) :
    ∀ (l : List α) (g : Hart), h.SweptFrom cells masks carries latches g → h.SweptFrom cells masks carries latches (l.foldl f g)
  | [], _, hg => hg
  | a :: l, g, hg => Hart.SweptFrom.foldl hf l _ (hf g a hg)

section
variable {v : Vec} {h : Hart} {cells : Nat → Prop} {masks carries latches : Prop} (hv : v.Keeps h cells masks carries latches)
include hv

theorem Vec.Keeps.foldl (f : Fed) : ∀ (l : List Nat) (a : Hart × Flags), (∀ i ∈ l, i < v.rc * v.vl) →
    h.SweptFrom cells masks carries latches a.1 → h.SweptFrom cells masks carries latches (l.foldl (sweepStep v.vl v.act (v.effect f)) a).1
  | [], _, _, ha => ha
  | i :: l, a, hl, ha => by
    refine Vec.Keeps.foldl f l _ (fun k hk => hl k (List.mem_cons_of_mem i hk)) ?_
    have hi : i < v.rc * v.vl := hl i List.mem_cons_self
    have hvl : 0 < v.vl := Nat.pos_of_ne_zero (fun h0 => by simp [h0] at hi)
    unfold sweepStep
    split
    next hact => exact hv f.h a.1 _ _ (Nat.div_lt_of_lt_mul (Nat.mul_comm v.rc v.vl ▸ hi)) (Nat.mod_lt i hvl) hact ha
    · exact ha

theorem Vec.Keeps.result {f : Fed} (hf : f.h = h) : h.SweptFrom cells masks carries latches (v.result h f).1 := by
  rw [Vec.result, Vec.fold_eq]
  refine hv.foldl f _ _ (fun i hi => ?_) (hf ▸ Hart.SweptFrom.refl h cells masks carries latches)
  obtain ⟨hlo, hhi⟩ := List.mem_range'_1.mp hi
  omega

end

/-! ### The sweeps, form by form (R146, R156 to R182) -/

/-- The active elements of a full sweep. -/
def Hart.fullAt (h : Hart) (g : Guard) (r e : Nat) : Bool := decide (r < h.rc) && decide (e < h.vl) && h.active g r e

section
variable {h : Hart} {masks carries latches : Prop} (f : AHalf) (g : Guard)

theorem Hart.SweptFrom.setElAt {x : Hart} {ap : Ap} {at' : Nat → Nat → Bool} {r e : Nat}
    (hx : h.SweptFrom (h.elementCells (some (ap, at'))) masks carries latches x) (hat : at' r e = true) (v : Nat) :
    h.SweptFrom (h.elementCells (some (ap, at'))) masks carries latches (x.setEl (h.apt ap) r e v) :=
  hx.setEl (fun p hp => ⟨ap, at', rfl, r, e, hat, p, hp, rfl⟩) v

theorem fullSweep_keeps (cls : Nat) (types : Nat → Nat → Nat → Bool) (acc : Bool) (el : Hart → Hart → Hart → Nat → Nat → Nat × Flags) :
    (fullSweep f g cls types acc el h).Keeps h (h.elementCells (some (f.apd, h.fullAt g))) masks carries latches :=
  fun _ _ r e hr he ha hx => hx.setElAt (by simp [Hart.fullAt, show r < h.rc from hr, show e < h.vl from he, show h.active g r e = true from ha]) _

theorem revIntVec_keeps : (revIntVec f g h).Keeps h (h.elementCells (some (f.apd, h.fullAt g))) masks carries latches := by
  have hfull (types : Nat → Nat → Nat → Bool) := fullSweep_keeps (h := h) (masks := masks) (carries := carries) (latches := latches)
    f g 9 types false (pointwise f (revIntEl f.op))
  unfold revIntVec
  generalize (if f.op = .rxor then typesAny3 else typesInt3) = types
  dsimp only
  split
  · exact hfull types
  · exact hfull types
  · exact hfull types

theorem splatVec_keeps (apd : Ap) (ra : XReg) :
    (splatVec apd ra g h).Keeps h (h.elementCells (some (apd, h.fullAt g))) masks carries latches :=
  fun _ _ r e hr he ha hx => hx.setElAt (by simp [Hart.fullAt, show r < h.rc from hr, show e < h.vl from he, show h.active g r e = true from ha]) _

theorem compareVec_keeps {cells : Nat → Prop} (hm : masks) : (compareVec f g h).Keeps h cells masks carries latches :=
  fun _ _ _ _ _ _ _ hx => hx.setK hm _ _

theorem convertVec_keeps (hc : carries) :
    (convertVec f g h).Keeps h (h.elementCells (some (f.apd, h.fullAt g))) masks carries latches := by
  intro h1 x r e hr he ha hx
  have hat : h.fullAt g r e = true := by
    simp [Hart.fullAt, show r < h.rc from hr, show e < h.vl from he, show h.active g r e = true from ha]
  unfold convertVec
  dsimp only
  split
  · exact hx.setElAt hat _
  · split <;> exact .ite ((hx.setElAt hat _).setEfc hc _) (hx.setElAt hat _)

theorem segStarts_length_le (k : BitVec 1024) (segmented : Bool) (vl : Nat) : (segStarts k segmented vl).length ≤ vl :=
  (List.length_filter_le _ _).trans (List.length_range).le

theorem reduceVec_keeps : (reduceVec f g h).Keeps h (h.elementCells (some (f.apd, fun r e =>
    decide (r < h.rc) && decide (e < h.vl) && h.km.getLsbD r))) masks carries latches :=
  fun _ _ r e hr he ha hx => hx.setElAt (by
    have hvl : e < h.vl := Nat.lt_of_lt_of_le he (segStarts_length_le _ _ _)
    simp [show r < h.rc from hr, hvl, show h.km.getLsbD r = true from ha]) _

theorem scoreVec_keeps {cells : Nat → Prop} (hl : latches) (scaled : Bool) : (scoreVec f g scaled h).Keeps h cells masks carries latches :=
  fun _ _ _ _ _ _ _ hx => hx.setCL hl _ _ _

theorem segrVec_keeps : (statVec f h false (segrEl h)).Keeps h (h.elementCells (some (f.apd, fun r e =>
    r == 0 && decide (e < 3 * h.heads) && !(decide (h.heads ≤ e) && decide (e < 2 * h.heads))))) masks carries latches := by
  intro h1 x r e hr he ha hx
  have he : e < h.heads := he
  exact (hx.setElAt (by simp; omega) _).setElAt (by simp; omega) _

theorem expsVec_keeps (hl : latches) : (statVec f h true (expsEl h)).Keeps h (h.elementCells (some (f.apd, fun r e =>
    r == 0 && decide (h.heads ≤ e) && decide (e < 2 * h.heads)))) masks carries latches := by
  intro h1 x r e hr he ha hx
  have he : e < h.heads := he
  refine Hart.SweptFrom.setElAt (Hart.SweptFrom.foldl (fun y k hy => ?_) _ _ hx) (by simp; omega) _
  split
  · exact hy.setCL hl _ _ _
  · exact hy

theorem waccVec_keeps : (waccVec f g h).Keeps h (h.elementCells (some (f.apd, fun r e =>
    r == 0 && decide (e < h.vl) && h.guardBit g e))) masks carries latches :=
  fun _ _ r e hr he ha hx => hx.setElAt (by simp [show e < h.vl from he, show h.guardBit g e = true from ha]) _

theorem latchVec_get_keeps : (latchVec f g true h).Keeps h (h.elementCells (some (f.apd, fun r e =>
    decide (r < h.rc) && decide (e < 16) && h.km.getLsbD r && h.guardBit g e))) masks carries latches := by
  intro h1 x r e hr he ha hx
  have ha : (h.km.getLsbD r && h.guardBit g e) = true := ha
  exact hx.setElAt (by simpa [show r < h.rc from hr, show e < 16 from he] using ha) _

theorem latchVec_put_keeps {cells : Nat → Prop} (hl : latches) : (latchVec f g false h).Keeps h cells masks carries latches :=
  fun _ _ _ _ _ _ _ hx => hx.setCL hl _ _ _

theorem efcVec_get_keeps (apd : Ap) : (efcVec apd true g h).Keeps h (h.elementCells (some (apd, fun r e =>
    r == 0 && decide (e < h.vl) && h.active g r e))) masks carries latches := by
  intro h1 x r e hr he ha hx
  obtain rfl : r = 0 := Nat.lt_one_iff.mp hr
  exact hx.setElAt (by simp [show e < h.vl from he, show h.active g 0 e = true from ha]) _

theorem efcVec_put_keeps {cells : Nat → Prop} (apa : Ap) (hc : carries) : (efcVec apa false g h).Keeps h cells masks carries latches :=
  fun _ _ _ _ _ _ _ hx => hx.setEfc hc _

end

section
variable {f : AHalf} {g : Guard} (h : Hart)

theorem AHalf.writes?_full (hm : f.op.code.1.toNat ≠ 0x2a ∧ f.op.code.1.toNat ≠ 0x2d ∧ f.op.code.1.toNat ≠ 0x2e) :
    f.writes? g h = some (f.apd, h.fullAt g) := by
  obtain ⟨hmask, hreduce, hchain⟩ := hm
  unfold AHalf.writes?
  split
  next he => exact absurd he hmask
  next he => exact absurd he hreduce
  next he => exact absurd he hchain
  · rfl

theorem AHalf.writes?_minMax (ho : f.op = .vmin ∨ f.op = .vmax ∨ f.op = .vfmin ∨ f.op = .vfmax) :
    f.writes? g h = some (f.apd, h.fullAt g) := by
  obtain ⟨op, apd, apa, apb⟩ := f
  rcases ho with rfl | rfl | rfl | rfl <;> rfl

/-- A sweep of the chain changes the elements that it may write and the latch. -/
theorem AHalf.chain_keeps {v : Hart → Vec} (hm : f.op.code.1.toNat = 0x2e) (hv : f.sweep? g = some v) {masks carries latches : Prop}
    (hl : latches) : (v h).Keeps h (h.elementCells (f.writes? g h)) masks carries latches := by
  simp only [AHalf.sweep?, hm] at hv
  simp only [AHalf.writes?, hm]
  split at hv <;> cases hv
  next => exact scoreVec_keeps f g hl false
  next => exact scoreVec_keeps f g hl true
  next ho =>
    simp only [ho]
    exact segrVec_keeps f
  next ho =>
    simp only [ho]
    exact expsVec_keeps f hl
  next ho =>
    simp only [ho]
    exact waccVec_keeps f g
  next ho =>
    simp only [ho]
    exact latchVec_get_keeps f g
  next => exact latchVec_put_keeps f g hl

/-- Every A-format sweep changes the elements that it may write and no other cell; mask registers only in major 0x2A, carries only in
0x2C, and the latch only in 0x2E. -/
theorem AHalf.keeps_of_sweep? {v : Hart → Vec} (hv : f.sweep? g = some v) : (v h).Keeps h (h.elementCells (f.writes? g h))
    (f.op.code.1.toNat = 0x2a) (f.op.code.1.toNat = 0x2c) (f.op.code.1.toNat = 0x2e) := by
  have hfull (hw : f.writes? g h = some (f.apd, h.fullAt g)) cls types acc el : (fullSweep f g cls types acc el h).Keeps h
      (h.elementCells (f.writes? g h)) (f.op.code.1.toNat = 0x2a) (f.op.code.1.toNat = 0x2c) (f.op.code.1.toNat = 0x2e) :=
    hw ▸ fullSweep_keeps f g cls types acc el
  have hv' := hv
  unfold AHalf.sweep? at hv
  split at hv
  next hm =>
    cases hv
    exact hfull (AHalf.writes?_full h (by omega)) _ _ _ _
  next hm =>
    cases hv
    exact hfull (AHalf.writes?_full h (by omega)) (floatClass f.op) (floatTypes f.op) (accumulates f.op) (pointwise f (floatEl f.op))
  next hm =>
    have hmm (ho : f.op = .vmin ∨ f.op = .vmax ∨ f.op = .vfmin ∨ f.op = .vfmax) := hfull (AHalf.writes?_minMax h ho)
      2 (minMaxTypes f.op) false (pointwise f (minMaxEl f.op))
    split at hv <;> cases hv
    next ho => exact hmm (by simp [ho])
    next ho => exact hmm (by simp [ho])
    next ho => exact hmm (by simp [ho])
    next ho => exact hmm (by simp [ho])
    next => exact compareVec_keeps f g hm
  next hm =>
    split at hv <;> cases hv <;> exact hfull (AHalf.writes?_full h (by omega)) 5 (moveTypes f.op) false (moveEl f)
  next hm =>
    rw [AHalf.writes?_full h (by omega)]
    cases hv
    exact convertVec_keeps f g hm
  next hm =>
    simp only [AHalf.writes?, hm]
    cases hv
    exact reduceVec_keeps f g
  next hm => exact AHalf.chain_keeps h hm hv' hm
  next h28 h29 h2a h2b h2c h2d h2e =>
    rw [AHalf.writes?_full h ⟨h2a, h2d, h2e⟩]
    split at hv <;> cases hv <;> exact revIntVec_keeps f g

end

/-- The instruction is an A-format one of a major (R117). -/
def Instr.isMajor (i : Instr) (c : BitVec 6) : Prop := ∃ p, i.toHalf = some p ∧ p.1.op.code.1 = c

theorem Instr.isMajor_eq {i : Instr} {f : AHalf} {mask : BitVec 2} (hf : i.toHalf = some (f, mask)) (c : BitVec 6) :
    Instr.isMajor i c = (f.op.code.1.toNat = c.toNat) := by
  refine propext ⟨fun ⟨p, hp, hc⟩ => ?_, fun hc => ⟨_, hf, BitVec.eq_of_toNat_eq hc⟩⟩
  cases hf.symm.trans hp
  rw [hc]

/-- Every sweep changes the elements that it may write and no other cell; mask registers only in major 0x2A, carries only in 0x2C and
`efcput`, and the latch only in 0x2E. -/
theorem Instr.keeps_of_sweep? {i : Instr} {len : Nat} {v : Hart → Vec} (hi : i.sweep? = some (len, v)) (h : Hart) :
    (v h).Keeps h (h.elementCells (i.writes? h)) (Instr.isMajor i 0x2a) (Instr.isMajor i 0x2c ∨ ∃ kg ks apa, i = .efcput kg ks apa)
      (Instr.isMajor i 0x2e) := by
  unfold Instr.sweep? at hi
  split at hi
  · cases hi
    exact efcVec_get_keeps _ _
  · cases hi
    exact efcVec_put_keeps _ _ (.inr ⟨_, _, _, rfl⟩)
  · cases hi
    exact splatVec_keeps _ _ _
  next hget hput hsplat =>
    obtain ⟨⟨f, mask⟩, hf, hv⟩ := Option.bind_eq_some_iff.mp hi
    obtain ⟨w, hw, he⟩ := Option.map_eq_some_iff.mp hv
    cases he
    have hnot : (∃ kg ks apa, i = .efcput kg ks apa) = False := eq_false (fun ⟨_, _, _, e⟩ => hput _ _ _ e)
    have hwr : i.writes? h = f.writes? (maskGuard mask) h := by
      unfold Instr.writes?
      split
      next => exact absurd rfl (hget _ _ _)
      next => exact absurd rfl (hput _ _ _)
      next => exact absurd rfl (hsplat _ _ _ _)
      · rw [hf]
        rfl
    rw [hwr, hnot, or_false, Instr.isMajor_eq hf, Instr.isMajor_eq hf, Instr.isMajor_eq hf]
    exact AHalf.keeps_of_sweep? h hw

/-! ### The state after a sweep -/

theorem Vec.feed_unstreamed {v : Vec} {h : Hart} (hv : v.streamed h = false) (s : State) : v.feed s h = ⟨s, h, [], none, []⟩ := by
  simp only [Vec.feed, hv, Bool.false_eq_true, if_false]

theorem State.OnlyHartAndTiming.trans {s t u : State} (h : s.OnlyHartAndTiming t) (k : t.OnlyHartAndTiming u) : s.OnlyHartAndTiming u :=
  ⟨h.1.trans k.1, fun n hn => (k.2 n (h.1.cur_eq ▸ hn)).trans (h.2 n hn)⟩

theorem State.OnlyTiming.onlyHartAndTiming {s t : State} (h : s.OnlyTiming t) : s.OnlyHartAndTiming t :=
  ⟨h.1, fun n _ => congrArg (List.find? (fun g : Hart => g.hid == n)) h.2⟩

theorem State.OnlyTiming.hart?_eq {s t : State} (h : s.OnlyTiming t) : t.hart? = s.hart? := by
  rw [State.hart?, State.hart?, State.hartAt, State.hartAt, h.2, h.1.cur_eq]

theorem State.onlyHartAndTiming_updHart (s : State) {f : Hart → Hart} (hf : ∀ g : Hart, g.hid = s.cur → (f g).hid = s.cur) :
    s.OnlyHartAndTiming (s.updHart f) := ⟨⟨rfl, fun _ => rfl, rfl⟩, fun _ hn => State.hartAt_updHartAt_ne hn hf⟩

/-- An instruction at the gate changes timing, and of its hart what it notes of its drain chain. -/
theorem State.dispatchVec_frame {s : State} (hd : s.SlotsDistinct) {g h : Hart} (hs : s.hart? = some g) (hh : h.hid = s.cur)
    (v : Vec) (stops : Bool) :
    s.OnlyHartAndTiming (s.dispatchVec h v stops) ∧ ∃ j, (s.dispatchVec h v stops).hart? = some (g.noteDrain j) := by
  have hcore (f : CoreSt → CoreSt) (j : Job) : s.OnlyHartAndTiming ((s.updCore h.q f).updHartAt h.hid (Hart.noteDrain j)) := by
    rw [hh]
    exact (s.onlyTiming_updCore h.q f).onlyHartAndTiming.trans (State.onlyHartAndTiming_updHart (s.updCore h.q f) (fun _ hg => hg))
  have hdispatch (j : Job) : s.OnlyHartAndTiming (s.dispatch h v.cls v.charge j) := hcore _ _
  have hnote (j : Job) : (s.dispatch h v.cls v.charge j).hart? = some (g.noteDrain (s.gated h v.cls v.charge j)) := by
    rw [State.dispatch, hh]
    exact State.hart?_updHart (s := s.updCore h.q _) hs rfl
  unfold State.dispatchVec
  dsimp only
  split
  · have hlink := State.timePasses_settleLink _ h (v.job h) (hd.of_timingAlike (hdispatch { v.job h with dropped := stops && v.drain.isSome }).1)
    exact ⟨(hdispatch _).trans hlink.onlyHartAndTiming, _, hlink.hart?_eq.trans (hnote _)⟩
  · exact ⟨hdispatch _, _, hnote _⟩

theorem Hart.clearRepeat_eq (g : Hart) : g.clearRepeat = { g with csr := g.clearRepeat.csr } := by
  unfold Hart.clearRepeat
  split <;> rfl

theorem Hart.getCsr_commit {g : Hart} {n : Nat} (hn : n ≠ 0xd32) (pc : Word) : (g.commit pc).getCsr n = g.getCsr n := by
  rw [Hart.getCsr, Hart.commit_csr, Hart.clearRepeat_csr]
  split
  · exact SMap.get_set_ne _ _ hn
  · rfl

theorem Hart.getCsr_orFlags {g : Hart} {n : Nat} (hn : n ≠ 0xc03) (fl : Flags) : (g.orFlags fl).getCsr n = g.getCsr n :=
  SMap.get_set_ne _ _ hn

/-- The hart after a sweep: as it stood at the end of it, with the flags, its note of the drain chain, and at the next instruction. -/
def Hart.sweptEnd (g : Hart) (fl : Flags) (j : Job) (len : Nat) : Hart :=
  ((g.orFlags fl).noteDrain j).commit (g.pc + BitVec.ofNat 64 len)

section
variable {h x : Hart} {cells : Nat → Prop} {masks carries latches : Prop} (hx : h.SweptFrom cells masks carries latches x)
  (fl : Flags) (j : Job) (len : Nat)

theorem Hart.getCsr_sweptEnd {n : Nat} (hf : n ≠ 0xc03) (hr : n ≠ 0xd32) : (x.sweptEnd fl j len).getCsr n = x.getCsr n := by
  rw [Hart.sweptEnd, Hart.getCsr_commit hr]
  exact Hart.getCsr_orFlags hf fl

include hx

theorem Hart.SweptFrom.sweptEnd_eq : x.sweptEnd fl j len = { h with
    plane := x.plane, plates := x.plates, k := x.k, efc := x.efc, cl := x.cl, pc := h.pc + BitVec.ofNat 64 len, swi := 0
    csr := (x.sweptEnd fl j len).csr, drain := (x.sweptEnd fl j len).drain } := by
  rw [Hart.sweptEnd, Hart.commit, Hart.clearRepeat_eq, hx.frame]
  rfl

theorem Hart.SweptFrom.setHart_eq {s : State} (hs : s.hart? = some h) : (s.setHart (x.orFlags fl)).hart? = some (x.orFlags fl) := by
  rw [State.hart?_setHart hs (by rw [hx.frame]; rfl), hx.frame]
  rfl

end

/-- The statement of `Obligations.SweepFrame` for the states in which no two gangs share a dome slot. -/
theorem State.sweepFrame_of_slotsDistinct {s t : State} (hd : s.SlotsDistinct) {h : Hart} {i : Instr} {len : Nat} {v : Hart → Vec}
    (hs : s.hart? = some h) (hi : i.sweep? = some (len, v)) (hv : (v h).streamed h = false)
    (hc : (Vec.met v s h).Completes (Vec.entry v s h) h t) :
    ∃ h', exec i s = .next (t.stepOver len) ∧ s.OnlyHartAndTiming (t.stepOver len) ∧ (t.stepOver len).hart? = some h' ∧
      h' = { h with plane := h'.plane, plates := h'.plates, k := h'.k, efc := h'.efc, cl := h'.cl, pc := h'.pc, swi := 0, csr := h'.csr, drain := h'.drain } ∧
      (∀ n, n ≠ 0xc03 → n ≠ 0xd32 → h'.getCsr n = h.getCsr n) ∧ h'.pc = h.pc + BitVec.ofNat 64 len ∧
      (¬ Instr.isMajor i 0x2a → h'.k = h.k) ∧ (¬ Instr.isMajor i 0x2c → (∀ kg ks apa, i ≠ .efcput kg ks apa) → h'.efc = h.efc) ∧
      (¬ Instr.isMajor i 0x2e → h'.cl = h.cl) ∧
      (i.writes? h = none → h'.plane = h.plane) ∧
      ∀ ap at', i.writes? h = some (ap, at') → ∀ key, (∀ r e, at' r e = true → ∀ p ∈ (h.apt ap).elBits h.bh r e, p.1 ≠ key) →
        h'.plane.get key = h.plane.get key := by
  have hexec := exec_completes hs hi hc
  obtain ⟨-, -, rfl⟩ := hc
  have hentry : s.OnlyTiming (Vec.entry v s h) := State.timePasses_letDrainGo s h _ hd
  have hfeed : (Vec.met v s h).feed (Vec.entry v s h) h = ⟨Vec.entry v s h, h, [], none, []⟩ := Vec.feed_unstreamed hv _
  have hkeeps : (Vec.met v s h).Keeps h _ _ _ _ := Instr.keeps_of_sweep? hi h
  have hx := hkeeps.result (f := (Vec.met v s h).feed (Vec.entry v s h) h) (by rw [hfeed])
  rw [hfeed] at hx hexec ⊢
  generalize (Vec.met v s h).result h _ = r at hx hexec ⊢
  have hat : (Vec.entry v s h).hart? = some h := hentry.hart?_eq.trans hs
  have hcur : h.hid = (Vec.entry v s h).cur := State.hid_of_hart? hat
  have hset : (Vec.entry v s h).OnlyHartAndTiming ((Vec.entry v s h).setHart (r.1.orFlags r.2)) :=
    State.onlyHartAndTiming_updHart _ (fun _ _ => by rw [hx.frame]; exact hcur)
  obtain ⟨hgate, j, hj⟩ := State.dispatchVec_frame ((hd.of_timingAlike hentry.1).of_timingAlike hset.1) (hx.setHart_eq r.2 hat) hcur
    (Vec.met v s h) false
  have hcommit := State.onlyHartAndTiming_updHart (((Vec.entry v s h).setHart (r.1.orFlags r.2)).dispatchVec h (Vec.met v s h) false)
    (f := fun g => g.commit (g.pc + BitVec.ofNat 64 len)) (fun _ hg => (Hart.commit_hid _ _).trans hg)
  have hend := hx.sweptEnd_eq r.2 j len
  refine ⟨r.1.sweptEnd r.2 j len, hexec, ((hentry.onlyHartAndTiming.trans hset).trans hgate).trans hcommit,
    State.hart?_updHart hj (Hart.commit_hid _ _), ?_, fun n hf hr => ?_, ?_, fun hn => ?_, fun hn hput => ?_, fun hn => ?_,
    fun hw => ?_, fun ap at' hw key hkey => ?_⟩
  · rw [hend]
  · rw [Hart.getCsr_sweptEnd r.2 j len hf hr, hx.frame]
    rfl
  · rw [hend]
  · exact (congrArg Hart.k hend).trans (hx.mask hn)
  · exact (congrArg Hart.efc hend).trans (hx.carry (not_or.mpr ⟨hn, fun ⟨kg, ks, apa, e⟩ => hput kg ks apa e⟩))
  · exact (congrArg Hart.cl hend).trans (hx.latch hn)
  · refine (congrArg Hart.plane hend).trans (hx.noCell (fun key ⟨ap, at', hw', _⟩ => ?_))
    exact absurd (hw.symm.trans hw') (by simp)
  · refine (congrArg (fun g : Hart => g.plane.get key) hend).trans (hx.kept key (fun ⟨ap', at'', hw', r', e, ha, p, hp, hk⟩ => ?_))
    cases hw.symm.trans hw'
    exact hkey r' e ha p hp hk

end Sys2Proof.Machine
end

section
/-! Sweeps in a state whose dome slot holds two gangs (R54, R262): what a drain chain's cycles do to the gangs. -/

namespace Sys2Proof.Machine

open Sys2Proof

/-- An entry of one s16 element. -/
def oneElement : Word := Apt.toWord { v := true, kind := 0, ty := 2, row0 := 0, col0 := 0, h := 1, w := 1, bc := false, sb := false, fs := 0 }

/-- A `tdrain` into that entry, in flight with no pass begun. -/
def pendingDrain : Job := { bh := 64, ops := [⟨oneElement, true, 1, 1, true⟩], rc := 1, vl := 1, rows := 1, drain := some 0 }

/-- A hart whose drain chain that `tdrain` has begun, and that resumes an instruction at item 1. -/
def resumingHart : Hart :=
  { Hart.blank with ap := [(1, oneElement)], km := 1, vl := 1, rc := 1, bh := 64, swi := 1, drain := [pendingDrain] }

/-- Two gangs in one dome slot, the hart that moves, and the queue of another hart, whose head the sequencer has not yet met. -/
def twoGangsAndADrain : State :=
  { twoGangsInOneSlot with
    harts := [resumingHart]
    cores := [{ CoreSt.reset 0 with
      groups := [⟨some 0, none, false, none, 0⟩], vqueue := [{ hid := 1, idx := 1, seq := 1 }], flight := [pendingDrain] }] }

/-- The sweep of a `vadd` of entry 1 to itself. -/
def doublingSweep : Hart → Vec :=
  fullSweep ⟨.vadd, 1, 1, 1⟩ (maskGuard 0) (intClass .vadd) (intTypes .vadd) (accumulates .vadd) (pointwise ⟨.vadd, 1, 1, 1⟩ (intEl .vadd))

/-- That sweep as the hart meets it: a link of its drain chain or none. -/
def resumedSweep (joins : Bool) : Vec := (doublingSweep resumingHart).linked joins

/-- The cycles in which the `tdrain` begins its first pass have passed, or have not, before the `vadd` is dispatched. -/
def drainMayHaveBegun (begun : Bool) : State :=
  if begun then twoGangsAndADrain.untilStarted 0 0 (2 ^ 18) else twoGangsAndADrain

/-- The state in which the `vadd` completes. -/
def resumedEnd (begun joins : Bool) : State :=
  let s := drainMayHaveBegun begun
  let v := resumedSweep joins
  let g := v.result resumingHart (v.feed s resumingHart)
  (s.setHart (g.1.orFlags g.2)).dispatchVec resumingHart v false

theorem resumedSweep_ready (joins : Bool) (s : State) : (resumedSweep joins).Ready s resumingHart where
  checks := by cases joins <;> decide +kernel
  plates := by cases joins <;> decide +kernel
  late := by cases joins <;> exact fun h => absurd h (by decide +kernel)
  streams := by cases joins <;> rfl
  values := by cases joins <;> exact fun h => absurd h (by decide +kernel)

theorem resumedSweep_completes (begun joins : Bool) :
    (resumedSweep joins).Completes (drainMayHaveBegun begun) resumingHart (resumedEnd begun joins) :=
  ⟨resumedSweep_ready joins _, by cases begun <;> cases joins <;> decide +kernel, rfl⟩

/-- The first gang's decision puts it in the place of the second, too: in the cycles before the dispatch, or in those that show whether
the resumed instruction has joined. -/
theorem resumedEnd_gangs (begun joins : Bool) : (resumedEnd begun joins).gangs.map (fun g => g.index) = [0, 0] := by
  cases begun <;> cases joins <;> decide +kernel

/-- Where its chain's `tdrain` goes first is a free value. -/
theorem letDrainGo_twoGangs : twoGangsAndADrain.letDrainGo resumingHart ((doublingSweep resumingHart).job resumingHart) =
    drainMayHaveBegun (!Config.joins twoGangsAndADrain.tick) := by
  have hnext : resumingHart.nextLink ((doublingSweep resumingHart).job resumingHart) = some pendingDrain := by decide +kernel
  rw [State.letDrainGo, hnext]
  cases Config.joins twoGangsAndADrain.tick <;> rfl

end Sys2Proof.Machine

namespace Sys2Proof.Proofs

open Sys2Proof Sys2Proof.Machine

/-- Refutes O40: it says of every state that of the gangs a sweep changes only what the sequencer keeps, which needs that no two gangs
stand in one dome slot. In `twoGangsAndADrain` two gangs do, and the sweep resumes at an item and may be a link of a drain chain, so that
cycles pass until the `tdrain` has begun; in the first of them one gang decides, and the model's update of its slot overwrites the other. The fit test asks for a free slot, so that no placement leads
to such a state; but the statement has no premise that leaves it out, and `State.sweepFrame_of_slotsDistinct` shows that nothing else is
missing. -/
theorem not_sweepFrame : ¬ Obligations.SweepFrame := by
  unfold Obligations.SweepFrame
  intro h
  have hentry : Vec.entry doublingSweep twoGangsAndADrain resumingHart = drainMayHaveBegun (!Config.joins twoGangsAndADrain.tick) :=
    letDrainGo_twoGangs
  obtain ⟨joins, hmet⟩ : ∃ joins, Vec.met doublingSweep twoGangsAndADrain resumingHart = resumedSweep joins := ⟨_, rfl⟩
  obtain ⟨-, -, ⟨⟨-, -, hgangs⟩, -⟩, -⟩ := h twoGangsAndADrain (resumedEnd (!Config.joins twoGangsAndADrain.tick) joins) resumingHart
    (.vadd 1 1 1 0) 4 doublingSweep rfl rfl (by decide +kernel) (by rw [hentry, hmet]; exact resumedSweep_completes _ joins)
  have hi := congrArg (List.map (fun g : Gang => g.index)) hgangs
  rw [List.map_map, List.map_map] at hi
  exact absurd ((resumedEnd_gangs _ joins).symm.trans hi) (by decide)

end Sys2Proof.Proofs
end

section
/-! The sweep that an enabled flag stops (R104, R375, R376, R383, R391). -/

namespace Sys2Proof.Machine

open Sys2Proof

section
variable {fen : Flags} {vl : Nat} {act : Nat → Nat → Bool} {el : Hart → Nat → Nat → Hart × Flags}

/-- An item whose flag is enabled stops the sweep where none before it raises one: what is before it is done, and nothing of it. -/
theorem sweep_eq_stop {i b : Nat} {rest : List Nat} (hact : act (i / vl) (i % vl) = true) : ∀ (l : List Nat) (h : Hart) (fl : Flags),
    fen &&& (l.foldl (sweepStep vl act el) (h, fl)).2 = 0 →
    trapFlag fen (el (l.foldl (sweepStep vl act el) (h, fl)).1 (i / vl) (i % vl)).2 = some b →
    sweep fen vl act el (l ++ i :: rest) h fl =
      .stop (l.foldl (sweepStep vl act el) (h, fl)).1 (l.foldl (sweepStep vl act el) (h, fl)).2 i b
  | [], h, fl, _, hb => by
    rw [List.foldl_nil] at hb ⊢
    rw [List.nil_append, sweep, if_pos hact]
    dsimp only
    rw [hb]
  | j :: l, h, fl, hz, hb => by
    rw [List.foldl_cons] at hz hb ⊢
    have hstep := sweepStep_flags l _ hz
    rw [List.cons_append, sweep]
    cases ha : act (j / vl) (j % vl) with
    | false =>
      simp only [sweepStep, ha, Bool.false_eq_true, if_false] at hz hb ⊢
      exact sweep_eq_stop hact l h fl hz hb
    | true =>
      simp only [sweepStep, ha, if_true] at hz hb hstep ⊢
      rw [trapFlag_none (and_or_eq_zero.mp hstep).2]
      exact sweep_eq_stop hact l _ _ hz hb

end

/-- The items of a sweep up to one of them, that one, and the rest. -/
theorem range'_split {i n m : Nat} (hn : n < m) : List.range' i m = List.range' i n ++ (i + n) :: List.range' (i + n + 1) (m - n - 1) := by
  rw [← List.range'_succ, List.range'_append_1]
  congr 1
  omega

/-- Where the item `k` stops a sweep, its rest is the trap of `Vec.Stops`. -/
theorem Vec.finish_stops {v : Vec} {s t : State} {h : Hart} {k b : Nat} {r : TrapRec} (hs : v.Stops s h k b t r) :
    v.finish h (v.feed s h) = .trap t r := by
  obtain ⟨hr, hfirst, hk, hz, hact, hb, rfl, rfl⟩ := hs
  have hl : v.limit (v.feed s h) = v.rc * v.vl := by rw [Vec.limit, hr.streams]; rfl
  obtain ⟨n, rfl⟩ := Nat.exists_eq_add_of_le hfirst
  have hitems := range'_split (i := v.first h) (n := n) (m := v.rc * v.vl - v.first h) (by omega)
  rw [Nat.add_sub_cancel_left] at hz hb ⊢
  have heffect (x : Hart) : (v.effect (v.feed s h) x ((v.first h + n) / v.vl) ((v.first h + n) % v.vl)).2 =
      (v.el (v.feed s h).h x ((v.first h + n) / v.vl) ((v.first h + n) % v.vl)).2 ||| (v.feed s h).flags (v.first h + n) := by
    rw [Vec.effect, Nat.div_add_mod']
  rw [Vec.finish, hl, hitems, sweep_eq_stop hact _ _ _ hz (by rw [heffect]; exact hb)]
  dsimp only
  rw [Vec.isWhole]
  cases v.whole || v.streamed h || v.snap <;> rfl

/-- An instruction that is one sweep and that an enabled flag stops traps there, and is charged all the same (R328, R375). -/
theorem exec_stops {i : Instr} {len k b : Nat} {v : Hart → Vec} {s t : State} {h : Hart} {r : TrapRec} (hs : s.hart? = some h)
    (hi : i.sweep? = some (len, v)) (hstop : (Vec.met v s h).Stops (Vec.entry v s h) h k b t r) :
    exec i s = .next ((Vec.met v s h).trapped h t r) := by
  rw [exec_sweep? hi, onHart_eq hs, Vec.run_eq, Vec.check_ready (v := fun h' => (v h').linked _) hstop.1]
  exact congrArg (fun x => Exec.outcome len (Exec.settle (fun stops u => u.dispatchVec h (Vec.met v s h) stops) x)) (Vec.finish_stops hstop)

end Sys2Proof.Machine

namespace Sys2Proof.Proofs

open Sys2Proof Sys2Proof.Machine

/-- Settles O39: the sweep's loop stops at its item `first + n`, and the stop is the one that `Vec.Stops` describes. -/
theorem enabledFlagStopsTheSweep : Obligations.EnabledFlagStopsTheSweep := by
  unfold Obligations.EnabledFlagStopsTheSweep
  intro s h i len n b v hs hi u f k a all hr hk hz hact hb h'
  have hn : k - u.first h = n := Nat.add_sub_cancel_left ..
  exact exec_stops hs hi (k := k) (b := b) ⟨hr, Nat.le_add_right .., hk, by rw [hn]; exact hz, hact, by rw [hn]; exact hb, by rw [hn], rfl⟩

end Sys2Proof.Proofs
end

section
/-! Memory accesses keep the harts: whatever an access performs, of stores, of engine commands and of records, no hart comes or goes
(R204, R247, R290, R401, R406). -/

namespace Sys2Proof.Machine

open Sys2Proof

/-- The same harts by their numbers, and the same one moves. -/
def State.SameHarts (s t : State) : Prop := t.cur = s.cur ∧ t.harts.map Hart.hid = s.harts.map Hart.hid

namespace State.SameHarts

theorem refl (s : State) : s.SameHarts s := ⟨rfl, rfl⟩

theorem trans {s t u : State} (h : s.SameHarts t) (k : t.SameHarts u) : s.SameHarts u := ⟨k.1.trans h.1, k.2.trans h.2⟩

/-- The hart that moves is still there. -/
theorem hart? {s t : State} (h : s.SameHarts t) {g : Hart} (hs : s.hart? = some g) : ∃ g', t.hart? = some g' ∧ g'.hid = g.hid := by
  obtain ⟨hc, hm⟩ := h
  have hfind (u : State) : (u.hart?).map Hart.hid = (u.harts.map Hart.hid).find? (fun n => n == u.cur) := by
    rw [List.find?_map]
    rfl
  have he := hfind t
  rw [hm, hc, ← hfind s, hs] at he
  exact Option.map_eq_some_iff.mp he

theorem updHartAt (s : State) (n : Nat) {f : Hart → Hart} (hf : ∀ g, (f g).hid = g.hid) : s.SameHarts (s.updHartAt n f) := by
  refine ⟨rfl, ?_⟩
  rw [State.updHartAt_harts, List.map_map]
  refine List.map_congr_left (fun g _ => ?_)
  dsimp only [Function.comp]
  split
  · exact hf g
  · rfl

theorem foldl {α : Type} {f : State → α → State} (hf : ∀ (s : State) a, s.SameHarts (f s a)) : ∀ (l : List α) (s : State), s.SameHarts (l.foldl f s)
  | [], s => refl s
  | a :: l, s => (hf s a).trans (foldl hf l _)

/-- Either way of a condition. -/
theorem ite {s t u : State} {c : Prop} [Decidable c] (ht : s.SameHarts t) (hu : s.SameHarts u) : s.SameHarts (if c then t else u) := by
  split
  · exact ht
  · exact hu

theorem poke (s : State) (loc : Nat) (bs : List Byte) : s.SameHarts (s.poke loc bs) := ⟨rfl, rfl⟩

theorem setMgmt (s : State) (off : Nat) (v : Word) : s.SameHarts (s.setMgmt off v) := ⟨rfl, rfl⟩

theorem post (s : State) (es : List Instr) : s.SameHarts (s.post es) := ⟨rfl, rfl⟩

theorem setTracks (s : State) (l : List Track) : s.SameHarts { s with tracks := l } := ⟨rfl, rfl⟩

theorem setTlb (s : State) (l : List Held) : s.SameHarts { s with tlb := l } := ⟨rfl, rfl⟩

/-! ### Stores and walks (R290, R298) -/

theorem of_performed {n : Nat} {s t : State} (h : State.Performed n s t) : s.SameHarts t := by
  obtain ⟨hf, f, hid, ht⟩ := h
  refine ⟨by rw [hf], ?_⟩
  rw [ht]
  exact (updHartAt s n hid).2

theorem performSome (s : State) (n : Nat) (p : Pending → Bool) (c : Nat) : s.SameHarts (s.performSome n p c) :=
  of_performed (State.Performed.performSome n s p c)

theorem performAll (s : State) (n : Nat) (p : Pending → Bool) : s.SameHarts (s.performAll n p) := performSome s n p _

theorem drain (s : State) (n : Nat) : s.SameHarts (s.drain n) := performAll s n _

theorem performLast (s : State) (n : Nat) : s.SameHarts (s.performLast n) := by
  unfold State.performLast
  split
  · exact refl s
  · exact performAll s n _

theorem settleOwn (s : State) (n : Nat) (vec : Bool) (loc k : Nat) : s.SameHarts (s.settleOwn n vec loc k) :=
  ite (performAll s n _) (refl s)

theorem settle (s : State) (n : Nat) (vec : Bool) (loc k : Nat) : s.SameHarts (s.settle n vec loc k) := by
  unfold State.settle
  refine (foldl (fun s h => ?_) _ s).trans (settleOwn _ n vec loc k)
  exact ite (performSome s _ _ _) (refl s)

theorem settleWalk (va : Nat) : ∀ (ls : List (Nat × Nat)) (s : State) (table : Nat), s.SameHarts (s.settleWalk va table ls)
  | [], s, _ => refl s
  | (lo, w) :: ls, s, table => by
    rw [State.settleWalk]
    exact ite ((settle s _ _ _ _).trans (settleWalk va ls _ _)) (settle s _ _ _ _)

theorem seeTables (s : State) (root va : Nat) : s.SameHarts (s.seeTables root va) := ite (settleWalk va _ s root) (refl s)

theorem leave (s : State) (n : Nat) (x : Pending) : s.SameHarts (s.leave n x) := by
  unfold State.leave
  have hupd : s.SameHarts (s.updHartAt n (fun h => { h with pending := h.pending ++ [x] })) := updHartAt s n (fun _ => rfl)
  dsimp only
  split
  · exact hupd
  · exact ite (hupd.trans (performSome _ n _ _)) hupd

/-! ### Records (R401, R402) -/

theorem postFH (s : State) : s.SameHarts s.postFH := by
  refine ⟨rfl, ?_⟩
  rw [State.postFH, List.map_map]
  refine List.map_congr_left (fun g _ => ?_)
  dsimp only [Function.comp]
  split <;> rfl

theorem hall (s : State) (r : HallRec) : s.SameHarts (s.hall r) := by
  unfold State.hall
  dsimp only
  split
  · exact setMgmt s _ _
  · exact ((poke s _ _).trans (setMgmt _ _ _)).trans (postFH _)

theorem noteMigration (s : State) (r : HallRec) (frame : Nat) (host : Bool) : s.SameHarts (s.noteMigration r frame host) := by
  unfold State.noteMigration
  have htracks := (hall s { r with pa := frame * 65536, count := (s.trackOf frame).count }).trans (setTracks _
    ((s.hall { r with pa := frame * 65536, count := (s.trackOf frame).count }).tracks.map
      (fun (t : Track) => if t.frame == frame then { t with noted := true } else t)))
  exact ite (htracks.trans (post _ _)) htracks

theorem noteBarred (s : State) (w : Walk) (f : Nat) (r : HallRec) : s.SameHarts (s.noteBarred w f r) := by
  unfold State.noteBarred
  split
  · exact refl s
  · exact noteMigration s _ _ _

/-! ### Translations and places (R204, R279 to R282, R286) -/

theorem hold (s : State) (h : Hart) (stream : Bool) (path va e loc level : Nat) : s.SameHarts (s.hold h stream path va e loc level) := by
  unfold State.hold
  dsimp only
  refine ite (refl s) ?_
  split
  · split
    · exact refl s
    · exact ite (refl s) (setTlb s _)
  · exact setTlb s _

theorem track (s : State) (t : Track) : s.SameHarts (s.track t) := ite (setTracks s _) (ite (setTracks s _) (setTracks s _))

theorem countMove (s : State) (frame : Nat) (host : Bool) (n : Nat) : s.SameHarts (s.countMove frame host n) := by
  unfold State.countMove
  exact ite (refl s) (ite ((track s _).trans (post _ _)) (track s _))

theorem countLines (s : State) (mig pa n : Nat) : s.SameHarts (s.countLines mig pa n) := ite (countMove s _ _ _) (refl s)

theorem translate {s t : State} {h : Hart} {need : Access} {va : Word} {stream : Bool} {n loc : Nat}
    (ht : s.translate h need va stream n = .ok (t, loc)) : s.SameHarts t := by
  unfold State.translate at ht
  have hsee := seeTables s (h.root (pathOf va)) (va.toNat % 2 ^ 61)
  dsimp only at ht
  split at ht
  · cases ht
  · cases ht
  · split at ht
    · cases ht
    · split at ht
      · cases ht
      · cases ht
        exact ((hsee.trans (ite (refl _) (poke _ _ _))).trans (hold _ h _ _ _ _ _ _)).trans (countLines _ _ _ _)

theorem place {s t : State} {h : Hart} {u : Use} {va : Word} {n : Nat} {p : Place} (ht : s.place h u va n = .ok (t, p)) : s.SameHarts t := by
  unfold State.place at ht
  dsimp only at ht
  split at ht
  · cases ht
  split at ht
  · split at ht
    · cases ht
    · split at ht
      · cases ht
        exact refl s
      · cases ht
  split at ht
  · split at ht
    · split at ht
      · cases ht
        exact refl s
      · cases ht
    · cases ht
  split at ht
  · split at ht
    · cases ht
    · split at ht
      · cases ht
      next hu =>
        cases ht
        exact translate hu
  split at ht
  · split at ht
    · cases ht
    · cases ht
      exact refl s
  split at ht
  · cases ht
  next hu =>
    cases ht
    exact translate hu

theorem enginePlace {s t : State} {c : EngineCmd} {u : Use} {va : Word} {n loc : Nat} (ht : s.enginePlace c u va n = .ok (t, loc)) :
    s.SameHarts t := by
  unfold State.enginePlace at ht
  dsimp only at ht
  split at ht
  · cases ht
  split at ht
  · split at ht
    · cases ht
      exact refl s
    · cases ht
  split at ht
  · split at ht
    · cases ht
    · split at ht
      · cases ht
        exact refl s
      · cases ht
  exact translate ht

/-! ### What an engine reads and writes (R247, R248, R403) -/

theorem setEngine (s : State) (c : EngineCmd) : s.SameHarts (s.setEngine c) := ⟨rfl, rfl⟩

theorem setPoison (s : State) (l : List (Nat × Option Nat)) : s.SameHarts { s with poison := l } := ⟨rfl, rfl⟩

theorem engineSees (s : State) (c : EngineCmd) (loc n : Nat) : s.SameHarts (s.engineSees c loc n) :=
  (settle s _ _ _ _).trans (performAll _ _ _)

theorem engineFetch {s t : State} {c : EngineCmd} {va : Word} {n : Nat} {r : List Byte × Bool}
    (ht : s.engineFetch c va n = .ok (t, r)) : s.SameHarts t := by
  unfold State.engineFetch at ht
  split at ht
  · cases ht
  next hp =>
    split at ht
    · cases ht
      exact enginePlace hp
    · cases ht
      exact (enginePlace hp).trans (engineSees _ _ _ _)

theorem engineRead {s t : State} {c : EngineCmd} {va : Word} {n : Nat} {bs : List Byte} (ht : s.engineRead c va n = .ok (t, bs)) :
    s.SameHarts t := by
  unfold State.engineRead at ht
  split at ht
  · cases ht
  next hf =>
    split at ht
    · cases ht
    · cases ht
      exact engineFetch hf

theorem engineWrite {s t : State} {c : EngineCmd} {va : Word} {bs : List Byte} {back : Nat} {bad : Bool}
    (ht : s.engineWrite c va bs back bad = .ok t) : s.SameHarts t := by
  unfold State.engineWrite at ht
  split at ht
  · cases ht
  next hp =>
    extract_lets written cleared at ht
    cases ht
    have hw : s.SameHarts written := ((enginePlace hp).trans (engineSees _ c _ _)).trans (poke _ _ bs)
    have hc : s.SameHarts cleared := ite (hw.trans (setPoison _ _)) hw
    exact ite (hc.trans (setPoison _ _)) hc

theorem engineAdd {s t : State} {c : EngineCmd} {va : Word} (ht : s.engineAdd c va = .ok t) : s.SameHarts t := by
  unfold State.engineAdd at ht
  split at ht
  · cases ht
  split at ht
  · cases ht
  next hp =>
    split at ht
    · cases ht
    · cases ht
      exact ((enginePlace hp).trans (engineSees _ c _ _)).trans (poke _ _ _)

theorem engineWord {s t : State} {c : EngineCmd} {va : Word} {n v : Nat} (ht : s.engineWord c va n = .ok (t, v)) : s.SameHarts t := by
  unfold State.engineWord at ht
  dsimp only at ht
  split at ht
  · cases ht
  next h1 =>
    split at ht
    · cases ht
      exact engineRead h1
    · split at ht
      · cases ht
      next h2 =>
        cases ht
        exact (engineRead h1).trans (engineRead h2)

theorem enginePut {s t : State} {c : EngineCmd} {va : Word} {i v n : Nat} (ht : s.enginePut c va i v n = .ok t) : s.SameHarts t := by
  unfold State.enginePut at ht
  dsimp only at ht
  split at ht
  · cases ht
  next h1 =>
    split at ht
    · cases ht
      exact engineWrite h1
    · split at ht
      · cases ht
      next h2 =>
        cases ht
        exact (engineWrite h1).trans (engineWrite h2)

theorem engineOld {s t : State} {c : EngineCmd} {va : Word} {v : Nat} (ht : s.engineOld c va = .ok (t, v)) : s.SameHarts t := by
  unfold State.engineOld at ht
  split at ht
  · cases ht
  next hp =>
    cases ht
    exact (enginePlace hp).trans (engineSees _ c _ _)

theorem putWeights {s t : State} {c : EngineCmd} {desc : List Byte} {i w : Nat} (ht : s.putWeights c desc i w = .ok t) :
    s.SameHarts t := by
  unfold State.putWeights at ht
  split at ht
  · cases ht
  next h1 =>
    split at ht
    · cases ht
      exact enginePut h1
    · exact (enginePut h1).trans (enginePut ht)

theorem updateStep {s t : State} {c : EngineCmd} {adamw : Bool} {desc : List Byte} {i : Nat}
    (ht : s.updateStep c adamw desc i = .ok t) : s.SameHarts t := by
  unfold State.updateStep at ht
  dsimp only at ht
  split at ht
  · cases ht
  next h1 =>
  split at ht
  · cases ht
  next h2 =>
  split at ht
  · cases ht
  next h3 =>
  have hread := ((engineWord h1).trans (engineWord h2)).trans (engineWord h3)
  split at ht
  · split at ht
    · cases ht
    next h4 =>
    split at ht
    · cases ht
    next h5 =>
    split at ht
    · cases ht
    next h6 => exact (((hread.trans (engineWord h4)).trans (enginePut h5)).trans (enginePut h6)).trans (putWeights ht)
  · split at ht
    · cases ht
    next h4 => exact (hread.trans (enginePut h4)).trans (putWeights ht)

theorem collStep {s t : State} {c : EngineCmd} {kind k size b m : Nat} {desc : List Byte} {parts : List (Nat × Nat × List Nat)}
    (ht : s.collStep c kind k size desc parts b = .ok (t, m)) : s.SameHarts t := by
  have hput {u : State} {va : Word} {i v n d : Nat} (hu : (u.enginePut c va i v n).map (fun s => (s, d)) = .ok (t, m)) : u.SameHarts t := by
    cases hp : u.enginePut c va i v n with
    | error e => simp [hp, Except.map] at hu
    | ok w =>
      rw [hp] at hu
      cases hu
      exact enginePut hp
  unfold State.collStep at ht
  dsimp only at ht
  split at ht
  · split at ht
    · cases ht
    next hhi =>
    split at hhi
    · cases hhi
      exact hput ht
    · split at hhi
      · cases hhi
      next hold =>
        cases hhi
        exact (engineOld hold).trans (hput ht)
  · exact hput ht

theorem copyStep {s t : State} {c : EngineCmd} {dst src : Word} {m n : Nat} (ht : s.copyStep c dst src m = .ok (t, n)) :
    s.SameHarts t := by
  unfold State.copyStep at ht
  dsimp only at ht
  split at ht
  · cases ht
  next h1 =>
    split at ht
    · cases ht
    · split at ht
      · cases ht
      next h2 =>
        cases ht
        exact ((engineFetch h1).trans (engineWrite h2)).trans (ite (setEngine _ _) (refl _))

theorem engineUnit {s t : State} {c : EngineCmd} {m n : Nat} (ht : s.engineUnit c m = .ok (t, n)) : s.SameHarts t := by
  unfold State.engineUnit at ht
  split at ht
  · exact copyStep ht
  · exact collStep ht
  next adamw desc _ _ =>
    cases hu : s.updateStep c adamw desc (c.next / 4) with
    | error e => simp [hu, Except.map] at ht
    | ok w =>
      rw [hu] at ht
      cases ht
      exact updateStep hu

/-! ### How a command runs and ends (R247, R251, R406, R418) -/

theorem setEngines (s : State) (l : List EngineCmd) : s.SameHarts { s with engines := l } := ⟨rfl, rfl⟩

theorem updLaunch (s : State) (acc : Nat) (f : Launch → Launch) : s.SameHarts (s.updLaunch acc f) := ⟨rfl, rfl⟩

theorem setTokens (s : State) (l : List (Nat × Nat × Nat)) : s.SameHarts { s with tokens := l } := ⟨rfl, rfl⟩

theorem endEngine (s : State) (c : EngineCmd) (status : Nat) : s.SameHarts (s.endEngine c status) := by
  unfold State.endEngine
  extract_lets gone entered waiting noted
  have hgone : s.SameHarts gone := setEngines s _
  have hentered : s.SameHarts entered := ite hgone (hgone.trans (updLaunch _ _ _))
  have hnoted : s.SameHarts noted := hentered.trans (post _ _)
  exact ite (hnoted.trans (post _ _)) hnoted

theorem owe (s : State) (c : EngineCmd) (f : EngineFault) : s.SameHarts (s.owe c f) := by
  unfold State.owe
  split
  · exact updHartAt s _ (fun _ => rfl)
  · exact updLaunch s _ _

theorem endAborted (s : State) (c : EngineCmd) : s.SameHarts (s.endAborted c) := (endEngine s c 3).trans (owe _ _ _)

theorem dropOut (s : State) (c : EngineCmd) : s.SameHarts (s.dropOut c) := by
  unfold State.dropOut
  split
  · refine foldl (fun u d => ?_) _ s
    extract_lets told
    have hrec : u.SameHarts told := hall u _
    refine ite ?_ ?_
    · split
      · exact hrec
      · exact hrec.trans (setEngine _ _)
    · split
      · exact hrec
      · exact (hrec.trans (setTokens _ _)).trans (post _ _)
  · exact refl s

theorem faultEngine (s : State) (c : EngineCmd) (k f : Nat) (va : Word) (src : Option Word) : s.SameHarts (s.faultEngine c k f va src) := by
  have hsaw : s.SameHarts (s.sawTables c.space va) := ite (seeTables s _ _) (refl s)
  unfold State.faultEngine
  refine ite (endAborted s c) ?_
  exact (((((ite hsaw (refl s)).trans (endEngine _ c 2)).trans (owe _ c _)).trans (hall _ _)).trans (noteBarred _ _ _ _)).trans (dropOut _ c)

theorem readSkip {s t : State} {c d : EngineCmd} (ht : s.readSkip c = .ok (t, d)) : s.SameHarts t := by
  unfold State.readSkip at ht
  split at ht
  · split at ht
    · cases ht
      exact refl s
    · split at ht
      · cases ht
      next hw =>
        cases ht
        exact engineWord hw
  · cases ht
    exact refl s

theorem transfer (id upto : Nat) : ∀ (n : Nat) (s : State), s.SameHarts (State.transfer id upto n s)
  | 0, s => refl s
  | n + 1, s => by
    rw [State.transfer]
    split
    · exact refl s
    · refine ite (refl s) ?_
      split
      · exact faultEngine s _ _ _ _ _
      next hu =>
        refine (engineUnit hu).trans (trans ?_ (transfer id upto n _))
        split
        · exact refl _
        · exact setEngine _ _

theorem advance : ∀ (n id upto : Nat) (s : State), s.SameHarts (State.advance n id upto s)
  | 0, _, _, s => refl s
  | n + 1, id, upto, s => by
    rw [State.advance]
    split
    · exact refl s
    · extract_lets olds begun
      have holds : s.SameHarts begun := foldl (fun u (d : EngineCmd) => advance n d.id d.total u) _ s
      refine ite holds (holds.trans ?_)
      split
      · exact faultEngine _ _ _ _ _ _
      next hskip => exact ((readSkip hskip).trans (setEngine _ _)).trans (transfer id upto _ _)

theorem advanceAll (s : State) (id : Nat) : s.SameHarts (s.advanceAll id) := by
  unfold State.advanceAll
  split
  · exact refl s
  · exact advance _ id _ s

theorem markFence (s : State) (n : Nat) : s.SameHarts (s.markFence n) := updHartAt s n (fun _ => rfl)

theorem closeEngine (s : State) (c : EngineCmd) : s.SameHarts (s.closeEngine c) := by
  unfold State.closeEngine
  refine ite ((endEngine s c 4).trans (owe _ c _)) ?_
  extract_lets released step
  have hrelease : s.SameHarts released := by
    unfold released
    split
    · exact ite ((drain s _).trans (markFence _ _)) (refl s)
    · exact refl s
  have hversion {t : State} (ht : step = .ok t) : s.SameHarts t := by
    unfold step at ht
    split at ht
    · split at ht
      · cases ht
      next hadd =>
        cases ht
        exact hrelease.trans (engineAdd hadd)
    · cases ht
      exact hrelease
  clear_value step released
  split
  · exact hrelease.trans (faultEngine _ c 3 _ _ _)
  next stepped =>
    refine ite ((hversion rfl).trans (endEngine _ c 0)) ?_
    split
    · exact hrelease.trans (faultEngine _ c 5 _ _ _)
    next hadd => exact ((hversion rfl).trans (engineAdd hadd)).trans (endEngine _ c 0)

theorem complete : ∀ (n id : Nat) (s : State), s.SameHarts (State.complete n id s)
  | 0, _, s => refl s
  | n + 1, id, s => by
    rw [State.complete]
    split
    · exact refl s
    · extract_lets olds run
      have hrun : s.SameHarts run := (foldl (fun u (d : EngineCmd) => complete n d.id u) olds s).trans (advanceAll _ id)
      split
      · exact hrun
      · exact ite hrun (hrun.trans (closeEngine _ _))

/-! ### Accesses of a hart (R206, R209, R214, R247) -/

theorem reach {s t : State} {h : Hart} {vec store : Bool} {loc n : Nat} {near : Bool} (ht : s.reach h vec store loc n near = some t) :
    s.SameHarts t := by
  have hfold : ∀ (f : State × Bool → EngineCmd → State × Bool), (∀ (a : State × Bool) c, a.1.SameHarts (f a c).1) →
      ∀ (l : List EngineCmd) (a : State × Bool), a.1.SameHarts (l.foldl f a).1 := by
    intro f hf l
    induction l with
    | nil => exact fun a => refl a.1
    | cons c l ih => exact fun a => (hf a c).trans (ih (f a c))
  have hengines : s.SameHarts (s.engineSettle (some h.hid) vec store loc n near).1 := by
    unfold State.engineSettle
    refine hfold _ (fun a c => ?_) s.engines (s, false)
    dsimp only
    split
    · exact advanceAll a.1 c.id
    · split
      · split
        · exact advance _ c.id _ a.1
        · exact complete _ c.id a.1
      · exact refl a.1
  unfold State.reach at ht
  split at ht
  · dsimp only at ht
    split at ht
    · cases ht
    · cases ht
      exact refl s
  · dsimp only at ht
    split at ht
    · cases ht
    · cases ht
      exact hengines

theorem save {s t : State} {h : Hart} {vec : Bool} {u : Use} {va : Word} {bs : List Byte} (ht : s.save h vec u va bs = .ok t) :
    s.SameHarts t := by
  unfold State.save at ht
  split at ht
  · cases ht
  next hp =>
    cases ht
    exact place hp
  next hp =>
    split at ht
    · cases ht
    next hr =>
      cases ht
      exact ((place hp).trans (reach hr)).trans (leave _ _ _)

theorem stairOut {h : Hart} : ∀ {n : Nat} {s t : State} {va : Word}, s.stairOut h va n = .ok t → s.SameHarts t
  | 0, s, t, _, ht => by
    cases ht
    exact refl s
  | n + 1, s, t, va, ht => by
    rw [State.stairOut] at ht
    split at ht
    · cases ht
    next hs => exact ((save hs).trans (ite (performLast _ _) (refl _))).trans (stairOut ht)

theorem stairSync {s t : State} {h : Hart} (ht : s.stairSync h = .ok t) : s.SameHarts t := by
  unfold State.stairSync at ht
  split at ht
  · cases ht
    exact refl s
  · split at ht
    · cases ht
    next hout =>
      cases ht
      exact (stairOut hout).trans (drain _ _)

end State.SameHarts

end Sys2Proof.Machine
end

section
/-! The accesses of CSRs (R47, R88, R102 to R104, R133, R137, R138, R174, R317). -/

namespace Sys2Proof.Machine

open Sys2Proof

/-! ### Harts changed one after the other -/

/-- The registers that a change of the moving hart leaves are as if they had been put there at once. -/
theorem State.updHart_setHart {s : State} {g : Hart} (hg : g.hid = s.cur) {f : Hart → Hart}
    (hf : ∀ x : Hart, f { g with pending := x.pending, landed := x.landed, landedFlags := x.landedFlags, engineFaults := x.engineFaults } =
      { f g with pending := x.pending, landed := x.landed, landedFlags := x.landedFlags, engineFaults := x.engineFaults }) :
    (s.setHart g).updHart f = s.setHart (f g) := by
  simp only [State.setHart, State.updHart, State.updHartAt, List.map_map]
  congr 1
  refine List.map_congr_left (fun x _ => ?_)
  have hcur : (g.hid == s.cur) = true := beq_iff_eq.mpr hg
  cases hx : x.hid == s.cur with
  | true =>
    simp only [Function.comp, hx, hcur, if_true]
    exact hf x
  | false => simp only [Function.comp, hx, Bool.false_eq_true, if_false]

theorem Hart.setX_zero (h : Hart) (v : Word) : h.setX 0 v = h := rfl

theorem State.updHart_id (s : State) {f : Hart → Hart} (hf : ∀ g, f g = g) : s.updHart f = s := by
  simp [State.updHart, State.updHartAt, hf]

theorem State.did_setX_setHart {s : State} {g : Hart} (hg : g.hid = s.cur) (rd : XReg) (v : Word) (len : Nat) :
    (s.setHart g).did (fun x => x.setX rd v) len = s.ran (g.setX rd v) len := by
  refine congrArg (fun t : State => t.stepOver len) (State.updHart_setHart hg (fun x => ?_))
  unfold Hart.setX
  split <;> rfl

theorem State.did_setX_zero (s : State) (v : Word) (len : Nat) : s.did (fun g => g.setX 0 v) len = s.stepOver len :=
  congrArg (fun t : State => t.stepOver len) (s.updHart_id (fun g => g.setX_zero v))

/-! ### An access, read and write (R133) -/

section
variable {s s1 s2 : State} {h h1 h2 : Hart} (hs : s.hart? = some h) {n : Nat} (hf : h.csrFault n = none)
  (hwait : n ≠ 0xc22 ∨ s.holdsCycw h = false) (hready : (if n = 0xc03 then s.flagsReady h else s) = s1) (hs1 : s1.hart? = some h1)
  {old : Word} (hread : s1.readCsr h1 n = (s2, old)) (rd : XReg) {new : Hart → Word → Option Word}
include hs hf hwait hready hs1 hread

/-- A CSR instruction that writes nothing gives X(rd) the value read. -/
theorem csrOp_reads (hnew : new h1 old = none) : csrOp rd n new s = .next (s2.did (fun g => g.setX rd old) 4) := by
  have hgo : (decide (n = 0xc22) && s.holdsCycw h) = false := by simpa [imp_iff_not_or] using hwait
  simp only [csrOp, onHart_eq hs, hf, hgo, Bool.false_eq_true, if_false, hready, hs1, Option.getD_some, hread, hnew]
  rfl

/-- One that writes gives it the old value, once the write is made. -/
theorem csrOp_writes {v : Word} {u : State} (hs2 : s2.hart? = some h2) (hnew : new h1 old = some v) (hwrite : s2.writeCsr h2 n v = .ok u) :
    csrOp rd n new s = .next (u.did (fun g => g.setX rd old) 4) := by
  have hgo : (decide (n = 0xc22) && s.holdsCycw h) = false := by simpa [imp_iff_not_or] using hwait
  simp only [csrOp, onHart_eq hs, hf, hgo, Bool.false_eq_true, if_false, hready, hs1, Option.getD_some, hread, hs2, hnew, hwrite]
  rfl

end

theorem Hart.csrFault_user (h : Hart) {n : Nat} (hn : n ∈ [0xc01, 0xc02, 0xc03, 0xc04, 0xc08, 0xc09, 0xc10, 0xc22, 0xc30, 0xc31, 0xc32, 0xc40, 0xc50]) :
    h.csrFault n = none := by
  simp only [List.mem_cons, List.not_mem_nil, or_false] at hn
  rcases hn with rfl | rfl | rfl | rfl | rfl | rfl | rfl | rfl | rfl | rfl | rfl | rfl | rfl <;> rfl

theorem Hart.csrFault_xstep {h : Hart} (hp : h.priv ≠ .u) : h.csrFault 0xd12 = none := by
  have hr : csrReach h.priv 0xd12 = true := by simpa [csrReach] using hp
  simp [Hart.csrFault, hr, csrAssigned]

/-- The registers that a hart holds raw and that a write of a user field replaces. -/
theorem State.writeCsr_field (s : State) (h : Hart) {n : Nat} (hn : n ∈ [0xc01, 0xc02, 0xc03, 0xc04, 0xc50]) (v : Word) :
    s.readCsr h n = (s, h.getCsr n) ∧ s.writeCsr h n v = .ok (s.setHart (h.setCsr n (csrStored n (h.getCsr n) v))) := by
  simp only [List.mem_cons, List.not_mem_nil, or_false] at hn
  rcases hn with rfl | rfl | rfl | rfl | rfl <;> exact ⟨rfl, rfl⟩

/-- MODE 6 and 7 are not stored (R88). -/
theorem csrStored_mode {n : Nat} (hn : n = 0xc01 ∨ n = 0xc02) (old v : Word) :
    csrStored n old v = if v.toNat % 8 < 6 then v &&& 7 else old := by
  have hmask : csrMask n = 7 := by rcases hn with rfl | rfl <;> rfl
  have hlow : (v &&& 7).toNat = v.toNat % 8 := by
    rw [BitVec.toNat_and]
    exact Nat.and_two_pow_sub_one_eq_mod _ 3
  rw [csrStored, hmask, if_pos hn, hlow, ← ite_not]
  simp only [not_le]

/-- A write of such a register, by an instruction that reads it, too. -/
theorem execCsrrw_field {s : State} {h : Hart} (hs : s.hart? = some h) {rd ra : XReg} {csr : BitVec 16}
    (hn : csr.toNat ∈ [0xc01, 0xc02, 0xc03, 0xc04, 0xc50]) (hready : csr.toNat ≠ 0xc03 ∨ s.flagsReady h = s) : exec (.csrrw rd ra csr) s =
      .next (s.ran ((h.setCsr csr.toNat (csrStored csr.toNat (h.getCsr csr.toNat) (h.getX ra))).setX rd (h.getCsr csr.toNat)) 4) := by
  obtain ⟨hread, hwrite⟩ := s.writeCsr_field h hn (h.getX ra)
  have huser : h.csrFault csr.toNat = none := h.csrFault_user (by simp only [List.mem_cons, List.not_mem_nil, or_false] at hn ⊢; omega)
  have hn22 : csr.toNat ≠ 0xc22 := by simp only [List.mem_cons, List.not_mem_nil, or_false] at hn; omega
  have hs1 : (if csr.toNat = 0xc03 then s.flagsReady h else s) = s := by
    rcases hready with h3 | h3
    · rw [if_neg h3]
    · rw [h3, ite_self]
  have hmet := csrOp_writes hs huser (.inl hn22) hs1 hs hread rd (new := fun h _ => some (h.getX ra)) hs rfl hwrite
  have hid : (h.setCsr csr.toNat (csrStored csr.toNat (h.getCsr csr.toNat) (h.getX ra))).hid = s.cur :=
    (rfl : _ = h.hid).trans (State.hid_of_hart? hs)
  exact hmet.trans (congrArg Host.Outcome.next (State.did_setX_setHart hid rd _ 4))

/-! ### FSTAT and the older floating atomics (R104) -/

theorem State.flagsReady_settled (s : State) {h : Hart} (hl : h.landedFlags = 0) (hp : ∀ x ∈ h.pending, x.raises = false) : s.flagsReady h = s := by
  have hany : h.pending.any Pending.raises = false := List.any_eq_false.mpr (fun x hx => by simp [hp x hx])
  simp [State.flagsReady, hany, hl]

/-- Those that are marked are all that satisfy the condition, where there are as many to mark. -/
theorem choose_all (p : Pending → Bool) : ∀ (l : List Pending) (c : Nat), l.length ≤ c → choose p c l = l.map (fun x => (x, p x))
  | [], _, _ => rfl
  | x :: l, c, hc => by
    have hlen : l.length + 1 ≤ c := hc
    rw [choose, List.map_cons]
    cases hp : p x with
    | true =>
      rw [if_pos (by simp; omega), choose_all p l (c - 1) (by omega)]
    | false => rw [if_neg (by simp), choose_all p l c (by omega)]

/-- What is not marked by way of the older stores was not marked before. -/
theorem withOlder_unmarked {x : Pending} : ∀ {l : List (Pending × Bool)}, (x, false) ∈ withOlder l → (x, false) ∈ l
  | (y, b) :: l, hx => by
    rw [withOlder] at hx
    rcases List.mem_cons.mp hx with h | h
    · obtain ⟨rfl, hb⟩ := Prod.mk.inj h
      rw [(Bool.or_eq_false_iff.mp hb.symm).1]
      exact List.mem_cons_self
    · exact List.mem_cons_of_mem _ (withOlder_unmarked h)

/-- What stays outstanding where the first `c` stores that satisfy `p`, and what must come before them, are performed. -/
def leftOf (p : Pending → Bool) (c : Nat) (l : List Pending) : List Pending :=
  ((withOlder (choose p c l)).filter (fun x => !x.2)).map (fun x => x.1)

theorem leftOf_all {p : Pending → Bool} {l : List Pending} {x : Pending} (hx : x ∈ leftOf p l.length l) : p x = false := by
  obtain ⟨⟨y, b⟩, hy, rfl⟩ := List.mem_map.mp hx
  obtain ⟨hmem, hb⟩ := List.mem_filter.mp hy
  obtain rfl : b = false := by simpa using hb
  have hmarked := withOlder_unmarked hmem
  rw [choose_all p l _ le_rfl] at hmarked
  obtain ⟨z, -, hz⟩ := List.mem_map.mp hmarked
  obtain ⟨rfl, hpz⟩ := Prod.mk.inj hz
  exact hpz

/-- A change that keeps the numbers of harts and what they have outstanding. -/
theorem State.pending_updHartAt (s : State) (n hid : Nat) {f : Hart → Hart} (hf : ∀ g, (f g).hid = g.hid ∧ (f g).pending = g.pending) :
    ((s.updHartAt hid f).hartAt n).map Hart.pending = (s.hartAt n).map Hart.pending := by
  have hp : ((fun g : Hart => g.hid == n) ∘ fun g => if g.hid == hid then f g else g) = fun g => g.hid == n := by
    funext g
    dsimp only [Function.comp]
    split
    · rw [(hf g).1]
    · rfl
  rw [State.hartAt, State.updHartAt_harts, List.find?_map, hp, State.hartAt, Option.map_map]
  refine Option.map_congr (fun g _ => ?_)
  dsimp only [Function.comp]
  split
  · exact (hf g).2
  · rfl

theorem State.pending_perform (s : State) (n hid : Nat) (x : Pending) :
    ((s.perform hid x).hartAt n).map Hart.pending = (s.hartAt n).map Hart.pending := by
  unfold State.perform
  split
  · rfl
  · refine (State.pending_updHartAt _ n hid ?_).trans ?_
    · exact fun g => ⟨rfl, rfl⟩
    · split <;> rfl

theorem State.pending_performSome {s : State} {n : Nat} {h : Hart} (hs : s.hartAt n = some h) (p : Pending → Bool) (c : Nat) :
    ((s.performSome n p c).hartAt n).map Hart.pending = some (leftOf p c h.pending) := by
  have hfold : ∀ (l : List (Pending × Bool)) (t : State),
      ((l.foldl (fun t x => t.perform n x.1) t).hartAt n).map Hart.pending = (t.hartAt n).map Hart.pending := by
    intro l
    induction l with
    | nil => exact fun _ => rfl
    | cons x l ih => exact fun t => (ih _).trans (State.pending_perform t n n x.1)
  rw [State.performSome, hs]
  refine (hfold _ _).trans ?_
  rw [State.hartAt_updHartAt hs rfl]
  rfl

/-- Of what satisfies the condition nothing is left outstanding. -/
theorem State.performAll_pending {s : State} {n : Nat} {h : Hart} (hs : s.hartAt n = some h) (p : Pending → Bool) :
    ∃ g, (s.performAll n p).hartAt n = some g ∧ ∀ x ∈ g.pending, p x = false := by
  have hlen : s.outstanding n = h.pending.length := by rw [State.outstanding, hs]
  obtain ⟨g, hg, hp⟩ := Option.map_eq_some_iff.mp (State.pending_performSome hs p (s.outstanding n))
  refine ⟨g, hg, fun x hx => ?_⟩
  rw [hp, hlen] at hx
  exact leftOf_all hx

theorem Hart.setEl_pending (h : Hart) (a : Apt) (r e v : Nat) : (h.setEl a r e v).pending = h.pending ∧ (h.setEl a r e v).hid = h.hid := by
  unfold Hart.setEl
  dsimp only
  split <;> exact ⟨rfl, rfl⟩

theorem LateDest.put_pending (d : LateDest) (bs : List Byte) (h : Hart) : (d.put bs h).pending = h.pending ∧ (d.put bs h).hid = h.hid := by
  cases d with
  | xreg r signed => exact ⟨Hart.setX_pending .., Hart.setX_hid ..⟩
  | cell ap r e part => exact Hart.setEl_pending ..
  | block ap els =>
    have hfold : ∀ (l : List (Nat × Nat × Nat)) (g : Hart), (l.foldl (fun g x => g.setEl (h.apt ap) x.1 x.2.1 (expandI4S bs x.2.2)) g).pending =
        g.pending ∧ (l.foldl (fun g x => g.setEl (h.apt ap) x.1 x.2.1 (expandI4S bs x.2.2)) g).hid = g.hid := by
      intro l
      induction l with
      | nil => exact fun _ => ⟨rfl, rfl⟩
      | cons x l ih =>
        intro g
        have h1 := ih (g.setEl (h.apt ap) x.1 x.2.1 (expandI4S bs x.2.2))
        have h2 := g.setEl_pending (h.apt ap) x.1 x.2.1 (expandI4S bs x.2.2)
        exact ⟨h1.1.trans h2.1, h1.2.trans h2.2⟩
    exact hfold els h

theorem Hart.arrive_pending (h : Hart) : h.arrive.pending = h.pending ∧ h.arrive.hid = h.hid := by
  have hfold : ∀ (l : List (LateDest × List Byte)) (g : Hart), (l.foldl (fun g x => x.1.put x.2 g) g).pending = g.pending ∧
      (l.foldl (fun g x => x.1.put x.2 g) g).hid = g.hid := by
    intro l
    induction l with
    | nil => exact fun _ => ⟨rfl, rfl⟩
    | cons x l ih =>
      intro g
      have h1 := ih (x.1.put x.2 g)
      have h2 := x.1.put_pending x.2 g
      exact ⟨h1.1.trans h2.1, h1.2.trans h2.2⟩
  unfold Hart.arrive
  split
  · exact ⟨rfl, rfl⟩
  · exact hfold h.landed h

/-- Where FSTAT is accessed none of the hart's floating atomics is left outstanding (R104). -/
theorem State.flagsReady_hart {s : State} {h : Hart} (hs : s.hart? = some h) :
    ∃ g, (s.flagsReady h).hart? = some g ∧ g.hid = h.hid ∧ ∀ x ∈ g.pending, x.raises = false := by
  unfold State.flagsReady
  split
  · have hperf : State.Performed h.hid s (s.performAll h.hid Pending.raises) := State.Performed.performSome h.hid s _ _
    have hcur : (s.performAll h.hid Pending.raises).cur = h.hid := (congrArg State.cur hperf.frame).trans (State.hid_of_hart? hs).symm
    have hat : s.hartAt h.hid = some h := by rw [State.hid_of_hart? hs]; exact hs
    obtain ⟨g, hg, hp⟩ := State.performAll_pending hat Pending.raises
    refine ⟨g.arrive, State.hart?_updHart (by rw [State.hart?, hcur]; exact hg) g.arrive_pending.2,
      g.arrive_pending.2.trans (State.hid_of_hartAt hg), ?_⟩
    rw [g.arrive_pending.1]
    exact hp
  next hn =>
    simp only [Bool.or_eq_true, List.any_eq_true, not_or, not_exists, not_and, Bool.not_eq_true] at hn
    exact ⟨h, hs, rfl, hn.1⟩

/-! ### LCTL (R47, R50) -/

theorem State.writeLctl_gang {s : State} {h : Hart} {g : Gang} (hg : s.gangOf h = some g) (v : Word) :
    (s.writeLctl h v).gangAt h.q h.slot = some { g with
      gpri := bits v.toNat 5 4, lreq := if v.toNat % 16 = 0 then 1 else if 8 < v.toNat % 16 then 8 else v.toNat % 16 } := by
  obtain ⟨hq, hl⟩ := State.gangAt_place hg
  unfold State.writeLctl
  dsimp only
  rw [show (s.setHart _).gangOf h = some g from hg]
  exact State.gangAt_setGang (s := s.setHart _) hg hq hl

end Sys2Proof.Machine

/-! ### The stair's registers (R197, R203) -/

namespace Sys2Proof.Machine

open Sys2Proof

theorem stairCsr_cases (reg : StairReg) : stairCsr reg = 0xc30 ∨ stairCsr reg = 0xc31 ∨ stairCsr reg = 0xc32 := by
  cases reg <;> simp [stairCsr]

theorem State.readCsr_stair (s : State) (h : Hart) (reg : StairReg) : s.readCsr h (stairCsr reg) = (s, h.getCsr (stairCsr reg)) := by
  cases reg <;> rfl

theorem State.writeCsr_stair (s : State) (h : Hart) (reg : StairReg) (v : Word) :
    s.writeCsr h (stairCsr reg) v = (s.stairWrite h reg v).map (fun r => r.1.setHart r.2) := by
  cases reg <;> rfl

/-- What a write of a stair register leaves of the hart: the register, no mark, and no byte where there was a spill area. -/
theorem State.stairWrite_ok {s s1 : State} {h : Hart} (hsync : s.stairSync h = .ok s1) (reg : StairReg) (v : Word) :
    ∃ g, s.stairWrite h reg v = .ok (s1, g) ∧ g.hid = h.hid ∧ g.pc = h.pc ∧ g.getCsr (stairCsr reg) = v &&& ~~~31 ∧ g.stair.marks = [] ∧
      (h.noSpill = false → g.stair.bytes = []) := by
  unfold State.stairWrite
  rw [hsync]
  refine ⟨_, rfl, rfl, rfl, SMap.get_set_self _ _ _, rfl, fun hspill => ?_⟩
  simp [hspill]

theorem exec_stairRegWrite {s s1 : State} {h : Hart} (hs : s.hart? = some h) (reg : StairReg) (v : Word)
    (hsync : s.stairSync h = .ok s1) : ∃ t h', exec (.stairRegWrite reg v) s = .next t ∧ t.hart? = some h' ∧
      h'.getCsr (stairCsr reg) = v &&& ~~~31 ∧ h'.stair.marks = [] ∧ (h.noSpill = false → h'.stair.bytes = []) ∧ h'.pc = h.pc + 4 := by
  obtain ⟨g, hwrite, hgid, hpc, hcsr, hmarks, hbytes⟩ := State.stairWrite_ok hsync reg v
  obtain ⟨h1, hs1, hid⟩ := (State.SameHarts.stairSync hsync).hart? hs
  have hn := stairCsr_cases reg
  have huser : h.csrFault (stairCsr reg) = none := h.csrFault_user (by simp only [List.mem_cons, List.not_mem_nil, or_false]; omega)
  have hput := csrOp_writes hs huser (.inl (by omega)) (if_neg (by omega)) hs (State.readCsr_stair s h reg) 0 (new := fun _ _ => some v)
    (u := s1.setHart g) hs rfl ((State.writeCsr_stair s h reg v).trans (by rw [hwrite]; rfl))
  rw [State.did_setX_zero] at hput
  refine ⟨_, _, hput, State.hart?_updHart (State.hart?_setHart hs1 (hgid.trans hid.symm)) (Hart.commit_hid _ _), ?_, ?_, ?_,
    congrArg (fun pc : Word => pc + 4) hpc⟩
  · rw [Hart.getCsr_commit (by omega)]
    exact hcsr
  · rw [Hart.commit_stair]
    exact hmarks
  · rw [Hart.commit_stair]
    exact hbytes

end Sys2Proof.Machine

namespace Sys2Proof.Proofs

open Sys2Proof Sys2Proof.Machine

/-- Settles O14: each access is a CSR instruction whose read finds its value and whose write replaces its field; before FSTAT is accessed
the hart's floating atomics are performed, and before a stair register is written the stair is, which keeps the harts. -/
theorem csrFields : Obligations.CsrFields := by
  unfold Obligations.CsrFields
  intro s h rd ra v hs u settled
  have hready (hset : settled) : s.flagsReady h = s := s.flagsReady_settled hset.1 hset.2
  have hid := State.hid_of_hart? hs
  have hfixed {n : Nat} {x : Word} (hn : n ∈ [0xc08, 0xc09, 0xc30, 0xc31, 0xc32]) (hread : s.readCsr h n = (s, x)) :
      csrGet rd n s = .next (s.did (fun g => g.setX rd x) 4) := by
    have huser : h.csrFault n = none := h.csrFault_user (by simp only [List.mem_cons, List.not_mem_nil, or_false] at hn ⊢; omega)
    simp only [List.mem_cons, List.not_mem_nil, or_false] at hn
    exact csrOp_reads hs huser (.inl (by omega)) (if_neg (by omega)) hs hread rd rfl
  refine ⟨?flags, execCsrrw_field hs (by decide) (.inl (by decide)), ?modes, ?place, ?fstat, hfixed (n := 0xc08) (by decide) rfl, hfixed (n := 0xc09) (by decide) rfl,
    fun reg => hfixed (by cases reg <;> decide) (State.readCsr_stair s h reg), fun hwait => ?cycw, fun hp => ?xstep, fun g hg => ?lctl,
    fun reg s1 => exec_stairRegWrite hs reg v⟩
  case flags =>
    rintro csr (⟨rfl, hset⟩ | rfl)
    · exact execCsrrw_field hs (by decide) (.inr (hready hset))
    · exact execCsrrw_field hs (by decide) (.inl (by decide))
  case modes =>
    intro csr hcsr
    have hn : csr.toNat = 0xc01 ∨ csr.toNat = 0xc02 := by rcases hcsr with rfl | rfl <;> decide
    rw [execCsrrw_field hs (by simp only [List.mem_cons]; omega) (.inl (by omega)), csrStored_mode hn]
  case place =>
    exact csrOp_writes hs (h.csrFault_user (n := 0xc10) (by decide)) (.inl (by decide)) (if_neg (by decide)) hs rfl rd
      (new := fun h _ => some (h.getX ra)) hs rfl rfl
  case fstat =>
    obtain ⟨h1, hs1, hid1, hp⟩ := State.flagsReady_hart hs
    have huser := h.csrFault_user (n := 0xc03) (by decide)
    obtain ⟨hread, hwrite⟩ := (s.flagsReady h).writeCsr_field h1 (n := 0xc03) (by decide) v
    refine ⟨h1, hs1, hready, hp, csrOp_reads hs huser (.inl (by decide)) (if_pos rfl) hs1 hread rd (new := fun _ _ => none) rfl, ?_⟩
    refine (csrOp_writes hs huser (.inl (by decide)) (if_pos rfl) hs1 hread 0 (new := fun _ _ => some v) hs1 rfl hwrite).trans ?_
    rw [State.did_setX_zero]
    rfl
  case cycw =>
    exact csrOp_reads hs (h.csrFault_user (n := 0xc22) (by decide)) (.inr hwait) (if_neg (by decide)) hs rfl rd
      (new := fun _ _ => none) rfl
  case xstep =>
    refine (csrOp_writes hs (Hart.csrFault_xstep hp) (.inl (by decide)) (if_neg (by decide)) hs rfl 0 (new := fun _ _ => some v) hs rfl
      rfl).trans ?_
    rw [State.did_setX_zero]
    rfl
  case lctl =>
    have hread : s.readCsr h 0xc40 = (s, h.getCsr 0xc40 + BitVec.ofNat 64 (g.gpri * 16 + g.lreq)) := by
      unfold State.readCsr
      simp only [hg]
    refine ⟨_, csrOp_writes hs (h.csrFault_user (n := 0xc40) (by decide)) (.inl (by decide)) (if_neg (by decide)) hs hread 0
      (new := fun _ _ => some v) hs rfl rfl, _, State.writeLctl_gang hg v, rfl, rfl⟩

end Sys2Proof.Proofs
end

section
/-! Elements of the integer forms, of moves and permutations (R66, R81, R120, R156, R157, R163 to R168). -/

namespace Sys2Proof.Machine

open Sys2Proof

/-! ### Two's complement (R120) -/

theorem twoPow_pos (n : Nat) : (0 : Int) < (2 ^ n : Nat) := by exact_mod_cast Nat.two_pow_pos n

theorem wrap_eq (n : Nat) (x : Int) : (wrap n x : Int) = x % (2 ^ n : Nat) :=
  Int.toNat_of_nonneg (Int.emod_nonneg x (twoPow_pos n).ne')

theorem wrap_lt (n : Nat) (x : Int) : wrap n x < 2 ^ n := by
  have := Int.emod_lt_of_pos x (twoPow_pos n)
  rw [← wrap_eq] at this
  exact_mod_cast this

theorem wrap_congr {n : Nat} {x y : Int} (h : x % (2 ^ n : Nat) = y % (2 ^ n : Nat)) : wrap n x = wrap n y := by rw [wrap, wrap, h]

theorem wrap_natCast (n m : Nat) : wrap n (m : Int) = m % 2 ^ n := by
  have h := wrap_eq n m
  exact_mod_cast h

/-- Numbers of one range of 2^n that agree modulo 2^n are equal. -/
theorem eq_of_emod_eq {n : Nat} {lo x y : Int} (hx : lo ≤ x ∧ x < lo + (2 ^ n : Nat)) (hy : lo ≤ y ∧ y < lo + (2 ^ n : Nat))
    (h : x % (2 ^ n : Nat) = y % (2 ^ n : Nat)) : x = y := by
  have hd : ((2 ^ n : Nat) : Int) ∣ x - y := Int.dvd_of_emod_eq_zero (Int.emod_eq_emod_iff_emod_sub_eq_zero.mp h)
  have := Int.eq_zero_of_abs_lt_dvd hd (abs_lt.mpr ⟨by omega, by omega⟩)
  omega

theorem twoPow_half {n : Nat} (hn : 0 < n) : 2 ^ n = 2 * 2 ^ (n - 1) := by
  rw [← Nat.pow_succ']
  congr 1
  omega

theorem sext_emod {n : Nat} (hn : 0 < n) (v : Nat) : sext v n % (2 ^ n : Nat) = (v : Int) % (2 ^ n : Nat) := by
  have hcast : ((v % 2 ^ n : Nat) : Int) % (2 ^ n : Nat) = (v : Int) % (2 ^ n : Nat) := by exact_mod_cast Nat.mod_mod v (2 ^ n)
  rw [sext, if_neg hn.ne']
  split
  · rw [Int.sub_emod_right, hcast]
  · rw [Int.sub_zero, hcast]

theorem sext_range {n : Nat} (hn : 0 < n) (v : Nat) : -(2 ^ (n - 1) : Nat) ≤ sext v n ∧ sext v n < (2 ^ (n - 1) : Nat) := by
  have hhalf := twoPow_half hn
  have hlt := Nat.mod_lt v (Nat.two_pow_pos n)
  rw [sext, if_neg hn.ne']
  split <;> omega

theorem sext_wrap {n : Nat} (hn : 0 < n) {z : Int} (hz : -(2 ^ (n - 1) : Nat) ≤ z ∧ z < (2 ^ (n - 1) : Nat)) : sext (wrap n z) n = z := by
  have hhalf : ((2 ^ n : Nat) : Int) = 2 * (2 ^ (n - 1) : Nat) := by exact_mod_cast twoPow_half hn
  obtain ⟨hlo, hhi⟩ := sext_range hn (wrap n z)
  refine eq_of_emod_eq (n := n) (lo := -(2 ^ (n - 1) : Nat)) ⟨hlo, by omega⟩ ⟨hz.1, by omega⟩ ?_
  rw [sext_emod hn, wrap_eq, Int.emod_emod]

/-! ### Integer types (R64, R81) -/

theorem tyWidth_pos (ty : Nat) : 0 < tyWidth ty := by
  unfold tyWidth
  split <;> decide

theorem intMax_eq (ty : Nat) : intMax ty = intMin ty + (2 ^ tyWidth ty : Nat) - 1 := by
  have hhalf := twoPow_half (tyWidth_pos ty)
  unfold intMax intMin
  split <;> omega

theorem intVal_emod (ty b : Nat) : intVal ty b % (2 ^ tyWidth ty : Nat) = (b : Int) % (2 ^ tyWidth ty : Nat) := by
  unfold intVal
  split
  · exact sext_emod (tyWidth_pos ty) b
  · exact_mod_cast Nat.mod_mod b (2 ^ tyWidth ty)

theorem intVal_range (ty b : Nat) : intMin ty ≤ intVal ty b ∧ intVal ty b ≤ intMax ty := by
  have hsext := sext_range (tyWidth_pos ty) b
  have hlt := Nat.mod_lt b (Nat.two_pow_pos (tyWidth ty))
  unfold intMin intMax intVal
  split <;> omega

/-- A number in the range of a type is the value of its bits. -/
theorem intVal_wrap {ty : Nat} {z : Int} (hlo : intMin ty ≤ z) (hhi : z ≤ intMax ty) : intVal ty (wrap (tyWidth ty) z) = z := by
  obtain ⟨h1, h2⟩ := intVal_range ty (wrap (tyWidth ty) z)
  rw [intMax_eq] at h2 hhi
  refine eq_of_emod_eq (n := tyWidth ty) (lo := intMin ty) ⟨h1, by omega⟩ ⟨hlo, by omega⟩ ?_
  rw [intVal_emod, wrap_eq, Int.emod_emod]

/-- The bits of a value are the element. -/
theorem wrap_intVal {ty b : Nat} (hb : b < 2 ^ tyWidth ty) : wrap (tyWidth ty) (intVal ty b) = b := by
  rw [wrap_congr (intVal_emod ty b), wrap_natCast, Nat.mod_eq_of_lt hb]

theorem intVal_wrap_emod (ty : Nat) (z : Int) : intVal ty (wrap (tyWidth ty) z) % 2 ^ tyWidth ty = z % 2 ^ tyWidth ty := by
  have h := intVal_emod ty (wrap (tyWidth ty) z)
  rw [wrap_eq, Int.emod_emod] at h
  exact_mod_cast h

theorem intMin_le_zero (ty : Nat) : intMin ty ≤ 0 := by
  have hpos := twoPow_pos (tyWidth ty - 1)
  unfold intMin
  split <;> omega

theorem intMax_nonneg (ty : Nat) : 0 ≤ intMax ty := by
  have hpos := Nat.two_pow_pos (tyWidth ty)
  have hhalf := Nat.two_pow_pos (tyWidth ty - 1)
  unfold intMax
  split <;> omega

/-- The clamp of R120, with SAT where the value lies outside. -/
theorem intVal_clampInt (ty : Nat) (z : Int) : intVal ty (clampInt ty z).1 = max (intMin ty) (min z (intMax ty)) ∧
    (clampInt ty z).2 = if z < intMin ty ∨ intMax ty < z then fSAT else 0 := by
  have hmin := intMin_le_zero ty
  have hmax := intMax_nonneg ty
  unfold clampInt
  split
  next hlo => exact ⟨(intVal_wrap le_rfl (by omega)).trans (by omega), (if_pos (.inl hlo)).symm⟩
  next hlo =>
    split
    next hhi => exact ⟨(intVal_wrap (by omega) le_rfl).trans (by omega), (if_pos (.inr hhi)).symm⟩
    next hhi => exact ⟨(intVal_wrap (by omega) (by omega)).trans (by omega), (if_neg (by omega)).symm⟩

/-! ### Rounding to an integer (R90) -/

/-- What rounding ± m ÷ 2^k chooses between. -/
theorem Ex.toInt_shift (neg : Bool) (m k mode : Nat) : Ex.toInt ⟨neg, m, -(k : Int)⟩ mode =
    if neg then -(roundMag mode neg (m / 2 ^ k) (m % 2 ^ k) k : Int) else (roundMag mode neg (m / 2 ^ k) (m % 2 ^ k) k : Int) := by
  have hcut : cut m (-(k : Int)) 0 = (m / 2 ^ k, m % 2 ^ k, k) := by
    unfold cut
    split
    next h =>
      obtain rfl : k = 0 := by omega
      simp [Nat.mod_one]
    · simp
  rw [Ex.toInt, hcut]

theorem roundMag_le_succ (mode : Nat) (neg : Bool) (lo rem sh : Nat) : roundMag mode neg lo rem sh ≤ if rem = 0 then lo else lo + 1 := by
  unfold roundMag
  split
  · exact le_rfl
  · repeat' split
    all_goals omega

theorem roundMag_le (mode : Nat) (neg : Bool) (m k : Nat) : roundMag mode neg (m / 2 ^ k) (m % 2 ^ k) k ≤ m := by
  have hdiv := Nat.div_add_mod m (2 ^ k)
  have hle : m / 2 ^ k ≤ 2 ^ k * (m / 2 ^ k) := Nat.le_mul_of_pos_left _ (Nat.two_pow_pos k)
  refine (roundMag_le_succ mode neg _ _ k).trans ?_
  split <;> omega

/-- A value shifted right and rounded stays in the range of its type. -/
theorem shiftRound_range {ty : Nat} (mode : Nat) {x : Int} (hx : intMin ty ≤ x ∧ x ≤ intMax ty) (k : Nat) :
    intMin ty ≤ shiftRound mode x k ∧ shiftRound mode x k ≤ intMax ty := by
  have hround := roundMag_le mode (decide (x < 0)) x.natAbs k
  have hmin := intMin_le_zero ty
  have hmax := intMax_nonneg ty
  rw [shiftRound, Ex.toInt_shift]
  by_cases hneg : x < 0
  · simp only [hneg, decide_true, if_true] at hround ⊢
    omega
  · simp only [hneg, decide_false, Bool.false_eq_true, if_false] at hround ⊢
    omega

/-! ### Integer arithmetic (R156) -/

section
variable (h : Hart) {ty a b : Nat} (d : Nat)

/-- The high half of a product of two values of a type is a value of the type. -/
theorem intMulh_range (ty a b : Nat) : intMin ty ≤ intVal ty a * intVal ty b / (2 ^ tyWidth ty : Nat) ∧
    intVal ty a * intVal ty b / (2 ^ tyWidth ty : Nat) ≤ intMax ty := by
  obtain ⟨ha1, ha2⟩ := intVal_range ty a
  obtain ⟨hb1, hb2⟩ := intVal_range ty b
  have hpos := twoPow_pos (tyWidth ty)
  have hhalf : ((2 ^ tyWidth ty : Nat) : Int) = 2 * (2 ^ (tyWidth ty - 1) : Nat) := by exact_mod_cast twoPow_half (tyWidth_pos ty)
  have hP := twoPow_pos (tyWidth ty - 1)
  generalize intVal ty a = x at *
  generalize intVal ty b = y at *
  rw [Int.le_ediv_iff_mul_le hpos, ← Int.lt_add_one_iff (a := x * y / _), Int.ediv_lt_iff_lt_mul hpos]
  unfold intMin intMax at *
  generalize ((2 ^ (tyWidth ty - 1) : Nat) : Int) = p at *
  generalize ((2 ^ tyWidth ty : Nat) : Int) = q at *
  generalize tySigned ty = signed at *
  cases signed <;> simp only [Bool.false_eq_true, if_false, if_true] at *
  · have hxy := mul_le_mul ha2 hb2 hb1 (by omega)
    exact ⟨by linarith [mul_nonneg ha1 hb1], by linarith⟩
  · have hxy : |x * y| ≤ p * p := abs_mul x y ▸ mul_le_mul (abs_le.mpr ⟨ha1, by omega⟩) (abs_le.mpr ⟨hb1, by omega⟩) (abs_nonneg y) hP.le
    obtain ⟨hlo, hhi⟩ := abs_le.mp hxy
    exact ⟨by nlinarith, by nlinarith⟩

theorem intEl_vmulh : intVal ty (intEl .vmulh h ty ty ty a b d).1 = intVal ty a * intVal ty b / 2 ^ tyWidth ty := by
  obtain ⟨hlo, hhi⟩ := intMulh_range ty a b
  exact (intVal_wrap hlo hhi).trans (by push_cast; rfl)

theorem intEl_vsll : (intEl .vsll h ty ty ty a b d).1 = a * 2 ^ (b % tyWidth ty) % 2 ^ tyWidth ty := by
  refine (wrap_congr ?_).trans (wrap_natCast (tyWidth ty) (a * 2 ^ (b % tyWidth ty)))
  rw [Int.mul_emod, intVal_emod, ← Int.mul_emod, Nat.cast_mul]
  rfl

theorem intEl_vsra : sext (intEl .vsra h ty ty ty a b d).1 (tyWidth ty) = sext a (tyWidth ty) / 2 ^ (b % tyWidth ty) := by
  obtain ⟨hlo, hhi⟩ := sext_range (tyWidth_pos ty) a
  have hcast : ((2 ^ (b % tyWidth ty) : Nat) : Int) = 2 ^ (b % tyWidth ty) := by push_cast; rfl
  have hpos := twoPow_pos (b % tyWidth ty)
  rw [← hcast]
  change sext (wrap (tyWidth ty) (sext a (tyWidth ty) / (2 ^ (b % tyWidth ty) : Nat))) (tyWidth ty) = _
  refine sext_wrap (tyWidth_pos ty) ⟨?_, ?_⟩
  · rw [Int.le_ediv_iff_mul_le hpos]
    nlinarith
  · rw [Int.ediv_lt_iff_lt_mul hpos]
    nlinarith

theorem intEl_vssr : intVal ty (intEl .vssr h ty ty ty a b d).1 =
    Ex.toInt ⟨decide (intVal ty a < 0), (intVal ty a).natAbs, -((b % tyWidth ty : Nat) : Int)⟩ (h.mode 0xc02) := by
  obtain ⟨hlo, hhi⟩ := shiftRound_range (h.mode 0xc02) (intVal_range ty a) (b % tyWidth ty)
  exact intVal_wrap hlo hhi

theorem testBit_intEl_vandn (hb : b < 2 ^ tyWidth ty) (k : Nat) (ha : a < 2 ^ tyWidth ty) :
    (intEl .vandn h ty ty ty a b d).1.testBit k = (a.testBit k && !b.testBit k) := by
  change (a &&& (2 ^ tyWidth ty - 1 - b)).testBit k = _
  rw [Nat.testBit_and, Nat.sub_sub, Nat.add_comm 1, Nat.testBit_two_pow_sub_succ hb]
  by_cases hk : k < tyWidth ty
  · simp [hk]
  · simp [Nat.testBit_lt_two_pow (ha.trans_le (Nat.pow_le_pow_right two_pos (Nat.le_of_not_lt hk)))]

theorem intVal_vmin : intVal ty (minMaxEl .vmin h ty ty ty a b d).1 = min (intVal ty a) (intVal ty b) := by
  change intVal ty (if intVal ty b < intVal ty a then b else a) = _
  split <;> omega

theorem intVal_vmax : intVal ty (minMaxEl .vmax h ty ty ty a b d).1 = max (intVal ty a) (intVal ty b) := by
  change intVal ty (if intVal ty a < intVal ty b then b else a) = _
  split <;> omega

end

/-! ### Elements of a register (R66) -/

theorem Hart.getEl_lt (h : Hart) (a : Apt) (r e : Nat) : h.getEl a r e < 2 ^ tyWidth a.ty := by
  unfold Hart.getEl
  dsimp only
  split
  next hw =>
    rw [hw]
    have hlo := (h.plane.get (cellKey (a.cell h.bh r e))).isLt
    have hhi := (h.plane.get (cellKey ((a.cell h.bh r e).1, ((a.cell h.bh r e).2 + 1) % 1024))).isLt
    omega
  next hw =>
    rw [hw]
    exact (h.plane.get _).isLt
  next => exact Nat.mod_lt _ (Nat.two_pow_pos _)

/-! ### Moves of major 0x2B (R163) -/

theorem testBit_eq_false_of_lt {x n k : Nat} (hx : x < 2 ^ n) (hk : n ≤ k) : x.testBit k = false :=
  Nat.testBit_lt_two_pow (hx.trans_le (Nat.pow_le_pow_right two_pos hk))

/-- A sign changed. -/
theorem testBit_xor_sign (x s k : Nat) : (x ^^^ 2 ^ s).testBit k = (x.testBit k ^^ decide (k = s)) := by
  rw [Nat.testBit_xor, Nat.testBit_two_pow]
  congr 1
  exact decide_eq_decide.mpr eq_comm

/-- A sign cleared. -/
theorem testBit_mod_sign {x s : Nat} (hx : x < 2 ^ (s + 1)) (k : Nat) : (x % 2 ^ s).testBit k = (x.testBit k && decide (k ≠ s)) := by
  rw [Nat.testBit_mod_two_pow]
  obtain hk | rfl | hk := lt_trichotomy k s
  · simp [hk, hk.ne]
  · simp
  · simp [testBit_eq_false_of_lt hx hk, hk.not_gt]

/-- A sign taken from another value. -/
theorem testBit_signed_as {x y s : Nat} (hx : x < 2 ^ (s + 1)) (hy : y < 2 ^ (s + 1)) (k : Nat) :
    (x % 2 ^ s + y / 2 ^ s * 2 ^ s).testBit k = if k = s then y.testBit k else x.testBit k := by
  rw [Nat.add_comm, Nat.mul_comm, Nat.testBit_two_pow_mul_add _ (Nat.mod_lt _ (Nat.two_pow_pos s))]
  obtain hk | rfl | hk := lt_trichotomy k s
  · simp [hk, hk.ne, Nat.testBit_mod_two_pow]
  · rw [if_neg (lt_irrefl _), if_pos rfl, Nat.testBit_div_two_pow, Nat.sub_self, Nat.zero_add]
  · rw [if_neg hk.not_gt, if_neg hk.ne', testBit_eq_false_of_lt hx hk, Nat.testBit_div_two_pow, testBit_eq_false_of_lt hy (by omega)]

/-! ### Conversions between integer types (R166) -/

/-- A value of a source of `vext` is one of its destination. -/
theorem vext_range {td ta tb : Nat} (htypes : convertTypes .vext td ta tb = true) : intMin td ≤ intMin ta ∧ intMax ta ≤ intMax td := by
  have hall : ∀ td < 6, ∀ ta < 11, convertTypes .vext td ta 0 = true → intMin td ≤ intMin ta ∧ intMax ta ≤ intMax td := by decide
  have hd : td < 6 ∧ ta < 11 := by
    simp only [convertTypes, tyInt, Bool.and_eq_true, Bool.or_eq_true, decide_eq_true_eq] at htypes
    omega
  exact hall td hd.1 ta hd.2 htypes

end Sys2Proof.Machine

namespace Sys2Proof.Proofs

open Sys2Proof Sys2Proof.Machine

/-- Settles O41: the sums, products and shifts by the arithmetic of two's complement modulo 2^w, the clamped and rounded ones by the
range of their type, and the bitwise ones and the moves of signs bit by bit. -/
theorem integerElements : Obligations.IntegerElements := by
  unfold Obligations.IntegerElements
  refine ⟨?_, ?_⟩
  · intro h ty a b d _ ha hb _ w x y out same clamp
    have hsame (z : Int) : intVal ty (wrap w z) % 2 ^ w = z % 2 ^ w ∧ wrap w z < 2 ^ w := ⟨intVal_wrap_emod ty z, wrap_lt w z⟩
    exact ⟨hsame _, hsame _, hsame _, hsame _, hsame _, intVal_clampInt ty _, intVal_clampInt ty _, intEl_vmulh h d,
      fun k => Nat.testBit_and a b k, fun k => Nat.testBit_or a b k, fun k => Nat.testBit_xor a b k,
      fun k => testBit_intEl_vandn h d hb k ha, intEl_vsll h d, rfl, intEl_vsra h d, intEl_vssr h d, intVal_vmin h d, intVal_vmax h d⟩
  · intro h g gd apd apa apb r e d a b x sign moved conv
    refine ⟨rfl, rfl, rfl, rfl, rfl, rfl, ?_, ?_, ?_⟩
    · intro hwa hwb _
      have hpow : sign + 1 = tyWidth d.ty := Nat.sub_add_cancel (tyWidth_pos d.ty)
      have hx : x < 2 ^ (sign + 1) := hpow ▸ hwa ▸ h.getEl_lt a r e
      have hy : h.getEl b r e < 2 ^ (sign + 1) := hpow ▸ hwb ▸ h.getEl_lt b r e
      exact ⟨⟨_, rfl, testBit_xor_sign x sign⟩, ⟨_, rfl, testBit_mod_sign hx⟩, _, rfl, testBit_signed_as hx hy⟩
    · intro htypes
      obtain ⟨hlo, hhi⟩ := vext_range htypes
      obtain ⟨hxlo, hxhi⟩ := intVal_range a.ty x
      exact ⟨_, rfl, intVal_wrap (hlo.trans hxlo) (hxhi.trans hhi), wrap_lt _ _⟩
    · intro _ hmode y z
      have hef : (narrowing .vnclip d.ty a.ty && decide (h.mode 0xc02 = 5)) = false := by
        rw [decide_eq_false (by omega), Bool.and_false]
      refine ⟨(clampInt d.ty z).1, (clampInt d.ty z).2, ?_, intVal_clampInt d.ty z⟩
      exact if_neg (Bool.eq_false_iff.mp hef)

end Sys2Proof.Proofs
end

section
/-! Rounding to integers (R87, R90), and the formats that have infinities: what their bits stand for and what rounding an exactly representable
value gives (R82 to R92). -/

namespace Sys2Proof.Machine

open Sys2Proof

/-! ### The magnitude that a mode chooses (R90) -/

section
variable (neg : Bool) {lo rem sh : Nat}

theorem roundMag_exact (mode : Nat) : roundMag mode neg lo 0 sh = lo := if_pos rfl

/-- To nearest, ties to even. -/
theorem roundMag_nearest : (roundMag 0 neg lo rem sh = lo ∧ 2 * rem ≤ 2 ^ sh ∧ (2 * rem = 2 ^ sh → lo % 2 = 0)) ∨
    (roundMag 0 neg lo rem sh = lo + 1 ∧ 2 ^ sh ≤ 2 * rem ∧ (2 * rem = 2 ^ sh → lo % 2 = 1)) := by
  have hpos := Nat.two_pow_pos sh
  have hround : roundMag 0 neg lo rem sh =
      if rem = 0 then lo else if 2 ^ sh < 2 * rem then lo + 1 else if 2 * rem < 2 ^ sh then lo else lo + lo % 2 := rfl
  rw [hround]
  split_ifs <;> omega

theorem roundMag_towardZero : roundMag 1 neg lo rem sh = lo := by
  unfold roundMag
  split <;> rfl

theorem roundMag_down : roundMag 2 neg lo rem sh = if neg && decide (rem ≠ 0) then lo + 1 else lo := by
  unfold roundMag
  by_cases hrem : rem = 0 <;> simp [hrem]

theorem roundMag_up : roundMag 3 neg lo rem sh = if !neg && decide (rem ≠ 0) then lo + 1 else lo := by
  unfold roundMag
  by_cases hrem : rem = 0 <;> cases neg <;> simp [hrem]

theorem roundMag_odd (hrem : rem ≠ 0) : roundMag 4 neg lo rem sh = if lo % 2 = 1 then lo else lo + 1 := if_neg hrem

end

/-! ### Rounding ± m ÷ 2^k to an integer (R87) -/

section
variable (neg : Bool) (m k : Nat)

/-- The exact value as a signed integer over 2^k. -/
def signedInt (neg : Bool) (m : Nat) : Int := if neg then -(m : Int) else m

theorem toInt_eq_signedInt (mode : Nat) :
    Ex.toInt ⟨neg, m, -(k : Int)⟩ mode = signedInt neg (roundMag mode neg (m / 2 ^ k) (m % 2 ^ k) k) := Ex.toInt_shift neg m k mode

theorem signedInt_natAbs_sub (neg : Bool) (m n p : Nat) : (signedInt neg m - signedInt neg n * p).natAbs = ((m : Int) - n * p).natAbs := by
  cases neg
  · rfl
  · rw [← Int.natAbs_neg]
    congr 1
    simp only [signedInt, if_true]
    ring

theorem signedInt_emod_two (neg : Bool) (n : Nat) : signedInt neg n % 2 = (n : Int) % 2 := by
  unfold signedInt
  split <;> omega

/-- −⌈m ÷ 2^k⌉. -/
theorem neg_ediv_twoPow : -(m : Int) / (2 ^ k : Nat) = -((if m % 2 ^ k ≠ 0 then m / 2 ^ k + 1 else m / 2 ^ k : Nat) : Int) := by
  have hdvd : ((2 ^ k : Nat) : Int) ∣ (m : Int) ↔ m % 2 ^ k = 0 := by rw [Int.natCast_dvd_natCast, Nat.dvd_iff_mod_eq_zero]
  rw [Int.neg_ediv, Int.sign_eq_one_of_pos (twoPow_pos k)]
  by_cases h : m % 2 ^ k = 0
  · rw [if_pos (hdvd.mpr h), if_neg (not_not.mpr h)]
    push_cast
    omega
  · rw [if_neg (mt hdvd.mp h), if_pos h]
    push_cast
    omega

theorem signedInt_emod_eq_zero : signedInt neg m % (2 ^ k : Nat) = 0 ↔ m % 2 ^ k = 0 := by
  unfold signedInt
  split
  · rw [← Int.dvd_iff_emod_eq_zero, dvd_neg, Int.dvd_iff_emod_eq_zero]
    exact_mod_cast Iff.rfl
  · exact_mod_cast Iff.rfl

theorem toInt_nearest : 2 * (signedInt neg m - Ex.toInt ⟨neg, m, -(k : Int)⟩ 0 * (2 ^ k : Nat)).natAbs ≤ 2 ^ k ∧
    (2 * (signedInt neg m - Ex.toInt ⟨neg, m, -(k : Int)⟩ 0 * (2 ^ k : Nat)).natAbs = 2 ^ k → Ex.toInt ⟨neg, m, -(k : Int)⟩ 0 % 2 = 0) := by
  have hm : (m : Int) = 2 ^ k * (m / 2 ^ k : Nat) + (m % 2 ^ k : Nat) := by exact_mod_cast (Nat.div_add_mod m (2 ^ k)).symm
  have hlt := Nat.mod_lt m (Nat.two_pow_pos k)
  rw [toInt_eq_signedInt, signedInt_natAbs_sub, signedInt_emod_two]
  obtain ⟨hK, hle, htie⟩ | ⟨hK, hle, htie⟩ := roundMag_nearest neg (lo := m / 2 ^ k) (rem := m % 2 ^ k) (sh := k)
  · have hdiff : (m : Int) - (m / 2 ^ k : Nat) * (2 ^ k : Nat) = (m % 2 ^ k : Nat) := by push_cast at hm ⊢; linarith
    rw [hK, hdiff]
    omega
  · have hdiff : (m : Int) - (m / 2 ^ k + 1 : Nat) * (2 ^ k : Nat) = (m % 2 ^ k : Nat) - (2 ^ k : Nat) := by push_cast at hm ⊢; linarith
    rw [hK, hdiff]
    omega

theorem toInt_towardZero : Ex.toInt ⟨neg, m, -(k : Int)⟩ 1 = (signedInt neg m).tdiv (2 ^ k : Nat) := by
  rw [toInt_eq_signedInt, roundMag_towardZero]
  cases neg
  · exact_mod_cast rfl
  · change -((m / 2 ^ k : Nat) : Int) = (-(m : Int)).tdiv _
    rw [Int.neg_tdiv]
    exact_mod_cast rfl

theorem toInt_down : Ex.toInt ⟨neg, m, -(k : Int)⟩ 2 = signedInt neg m / (2 ^ k : Nat) := by
  rw [toInt_eq_signedInt, roundMag_down]
  cases neg
  · exact_mod_cast rfl
  · change _ = -(m : Int) / (2 ^ k : Nat)
    rw [neg_ediv_twoPow]
    simp [signedInt]

theorem toInt_up : Ex.toInt ⟨neg, m, -(k : Int)⟩ 3 = -(-signedInt neg m / (2 ^ k : Nat)) := by
  rw [toInt_eq_signedInt, roundMag_up]
  cases neg
  · change _ = -(-(m : Int) / (2 ^ k : Nat))
    rw [neg_ediv_twoPow]
    simp [signedInt]
  · change -((m / 2 ^ k : Nat) : Int) = -(- -(m : Int) / (2 ^ k : Nat))
    rw [neg_neg]
    exact_mod_cast rfl

theorem toInt_odd_exact (h : m % 2 ^ k = 0) : Ex.toInt ⟨neg, m, -(k : Int)⟩ 4 = signedInt neg m / (2 ^ k : Nat) := by
  rw [toInt_eq_signedInt, ← toInt_down, toInt_eq_signedInt, h, roundMag_exact, roundMag_exact]

theorem toInt_odd_inexact (h : m % 2 ^ k ≠ 0) : Ex.toInt ⟨neg, m, -(k : Int)⟩ 4 % 2 = 1 ∧
    (signedInt neg m - Ex.toInt ⟨neg, m, -(k : Int)⟩ 4 * (2 ^ k : Nat)).natAbs < 2 ^ k := by
  have hm : (m : Int) = 2 ^ k * (m / 2 ^ k : Nat) + (m % 2 ^ k : Nat) := by exact_mod_cast (Nat.div_add_mod m (2 ^ k)).symm
  have hlt := Nat.mod_lt m (Nat.two_pow_pos k)
  rw [toInt_eq_signedInt, signedInt_natAbs_sub, signedInt_emod_two, roundMag_odd neg h]
  split
  next hodd =>
    have hdiff : (m : Int) - (m / 2 ^ k : Nat) * (2 ^ k : Nat) = (m % 2 ^ k : Nat) := by push_cast at hm ⊢; linarith
    rw [hdiff]
    omega
  next heven =>
    have hdiff : (m : Int) - (m / 2 ^ k + 1 : Nat) * (2 ^ k : Nat) = (m % 2 ^ k : Nat) - (2 ^ k : Nat) := by push_cast at hm ⊢; linarith
    rw [hdiff]
    omega

end

end Sys2Proof.Machine
end

section
/-! The formats that have infinities: their bits in parts, what they stand for, and what rounding a value that the format has gives
(R82 to R85, R90 to R92). -/

namespace Sys2Proof.Machine

open Sys2Proof

/-! ### The parts of an element's bits (R82) -/

/-- A format with infinities: a sign, an exponent field and a fraction. -/
structure Fmt.Ieee (f : Fmt) : Prop where
  inf : f.inf = true
  width : f.w = f.ebits + f.fbits + 1
  fbits_pos : 0 < f.fbits
  bias_pos : 0 < f.bias
  bias_lt : f.bias < 2 ^ f.ebits - 1

/-- The bits with a sign, an exponent field and a fraction. -/
def Fmt.parts (f : Fmt) (neg : Bool) (ef fr : Nat) : Nat := (if neg then 2 ^ (f.w - 1) else 0) + (ef * 2 ^ f.fbits + fr)

/-- The significand with an exponent field and a fraction. -/
def Fmt.sig (f : Fmt) (ef fr : Nat) : Nat := if ef = 0 then fr else 2 ^ f.fbits + fr

/-- The exponent of the last place of a significand. -/
def Fmt.expo (f : Fmt) (ef : Nat) : Int := (max ef 1 : Nat) - f.bias - f.fbits

theorem f32_ieee : f32.Ieee := ⟨by decide, by decide, by decide, by decide, by decide⟩

theorem f16_ieee : f16.Ieee := ⟨by decide, by decide, by decide, by decide, by decide⟩

theorem bf16_ieee : bf16.Ieee := ⟨by decide, by decide, by decide, by decide, by decide⟩

theorem fmtOf_ieee {ty : Nat} (hty : ty = 6 ∨ ty = 7 ∨ ty = 8) : (fmtOf ty).Ieee := by
  obtain rfl | rfl | rfl := hty
  · exact f16_ieee
  · exact bf16_ieee
  · exact f32_ieee

theorem fmtOf_w {ty : Nat} (hty : ty = 6 ∨ ty = 7 ∨ ty = 8) : (fmtOf ty).w = tyWidth ty := by
  obtain rfl | rfl | rfl := hty <;> rfl

section
variable {f : Fmt} (hf : f.Ieee)
include hf

theorem Fmt.Ieee.ebits_pos : 0 < f.ebits := by
  have hpos := hf.bias_pos
  have hlt := hf.bias_lt
  by_contra h
  obtain h0 : f.ebits = 0 := by omega
  rw [h0] at hlt
  omega

theorem Fmt.Ieee.signBit : f.w - 1 = f.ebits + f.fbits := by
  have := hf.width
  omega

/-- Every element is a sign, an exponent field and a fraction. -/
theorem Fmt.exists_parts {a : Nat} (ha : a < 2 ^ f.w) : ∃ neg ef fr, ef < 2 ^ f.ebits ∧ fr < 2 ^ f.fbits ∧ a = f.parts neg ef fr := by
  have hw : 2 ^ f.w = 2 * 2 ^ (f.w - 1) := twoPow_half (by have := hf.width; omega)
  have hlow := Nat.mod_lt a (Nat.two_pow_pos (f.w - 1))
  refine ⟨decide (2 ^ (f.w - 1) ≤ a), a % 2 ^ (f.w - 1) / 2 ^ f.fbits, a % 2 ^ (f.w - 1) % 2 ^ f.fbits, ?_, Nat.mod_lt _ (Nat.two_pow_pos _), ?_⟩
  · rw [Nat.div_lt_iff_lt_mul (Nat.two_pow_pos _), ← Nat.pow_add, ← hf.signBit]
    exact hlow
  · rw [Fmt.parts, Nat.div_add_mod']
    by_cases h : 2 ^ (f.w - 1) ≤ a
    · rw [Nat.mod_eq_sub_mod h, Nat.mod_eq_of_lt (by omega)]
      simp [h]
    · rw [Nat.mod_eq_of_lt (by omega)]
      simp [h]

section
variable (neg : Bool) {ef fr : Nat} (hef : ef < 2 ^ f.ebits) (hfr : fr < 2 ^ f.fbits)
include hef hfr

theorem Fmt.parts_low_lt : ef * 2 ^ f.fbits + fr < 2 ^ (f.w - 1) := by
  rw [hf.signBit, Nat.pow_add]
  nlinarith [Nat.two_pow_pos f.fbits]

theorem Fmt.parts_lt : f.parts neg ef fr < 2 ^ f.w := by
  have hlow := Fmt.parts_low_lt hf hef hfr
  have hw : 2 ^ f.w = 2 * 2 ^ (f.w - 1) := twoPow_half (by have := hf.width; omega)
  unfold Fmt.parts
  split <;> omega

theorem Fmt.parts_sign : decide (bits (f.parts neg ef fr) (f.w - 1) (f.w - 1) = 1) = neg := by
  have hlow := Fmt.parts_low_lt hf hef hfr
  have hone : f.w - 1 + 1 - (f.w - 1) = 1 := by omega
  rw [bits, hone, Fmt.parts]
  cases neg
  · simp [Nat.div_eq_of_lt hlow]
  · simp [Nat.add_div_left _ (Nat.two_pow_pos _), Nat.div_eq_of_lt hlow]

theorem Fmt.parts_field : bits (f.parts neg ef fr) (f.w - 2) f.fbits = ef := by
  have hwidth : f.w - 2 + 1 - f.fbits = f.ebits := by
    have := hf.ebits_pos
    have := hf.width
    omega
  have hdiv : (ef * 2 ^ f.fbits + fr) / 2 ^ f.fbits = ef := by
    rw [Nat.add_comm, Nat.add_mul_div_right _ _ (Nat.two_pow_pos _), Nat.div_eq_of_lt hfr, Nat.zero_add]
  rw [bits, hwidth, Fmt.parts]
  cases neg
  · simp [hdiv, Nat.mod_eq_of_lt hef]
  · rw [if_pos rfl, hf.signBit, Nat.pow_add, Nat.add_comm, Nat.add_mul_div_right _ _ (Nat.two_pow_pos _), hdiv, Nat.add_mod_right, Nat.mod_eq_of_lt hef]

omit hef in
theorem Fmt.parts_fraction : f.parts neg ef fr % 2 ^ f.fbits = fr := by
  have hmod : (ef * 2 ^ f.fbits + fr) % 2 ^ f.fbits = fr := by rw [Nat.mul_comm, Nat.mul_add_mod, Nat.mod_eq_of_lt hfr]
  rw [Fmt.parts]
  cases neg
  · simpa using hmod
  · rw [if_pos rfl, hf.signBit, Nat.pow_add, Nat.mul_add_mod_self_right, hmod]

/-- What an exponent field below the highest stands for. -/
theorem Fmt.decode_finite (hmax : ef ≠ 2 ^ f.ebits - 1) : f.decode (f.parts neg ef fr) = .fin ⟨neg, f.sig ef fr, f.expo ef⟩ := by
  rw [Fmt.decode]
  simp only [Fmt.parts_sign hf neg hef hfr, Fmt.parts_field hf neg hef hfr, Fmt.parts_fraction hf neg hfr, hf.inf, hmax,
    decide_false, Bool.and_false, Bool.not_true, Bool.false_and, Bool.false_eq_true, if_false]
  unfold Fmt.sig Fmt.expo
  split
  next h0 => simp [h0]
  next h0 => rw [Nat.max_eq_left (by omega)]

end

/-- The highest exponent field with a fraction is a NaN, signalling where the fraction's first bit is 0. -/
theorem Fmt.decode_special (neg : Bool) {fr : Nat} (hfr : fr < 2 ^ f.fbits) : f.decode (f.parts neg (2 ^ f.ebits - 1) fr) =
    if fr = 0 then .inf neg else .nan (decide (fr < 2 ^ (f.fbits - 1))) := by
  have hef : 2 ^ f.ebits - 1 < 2 ^ f.ebits := Nat.sub_lt (Nat.two_pow_pos _) one_pos
  rw [Fmt.decode]
  simp only [Fmt.parts_sign hf neg hef hfr, Fmt.parts_field hf neg hef hfr, Fmt.parts_fraction hf neg hfr, hf.inf,
    decide_true, Bool.and_true, if_true]

theorem Fmt.decode_infBits (neg : Bool) : f.decode (f.infBits neg) = .inf neg := Fmt.decode_special hf neg (Nat.two_pow_pos _)

theorem Fmt.decode_zero : f.decode 0 = .fin ⟨false, 0, f.expo 0⟩ := by
  have hparts : f.parts false 0 0 = 0 := by simp [Fmt.parts]
  have hlt := hf.bias_lt
  have hfin := Fmt.decode_finite hf false (ef := 0) (fr := 0) (Nat.two_pow_pos _) (Nat.two_pow_pos _) (by omega)
  rwa [hparts] at hfin

/-- The bits of 1. -/
theorem Fmt.decode_one : f.decode (f.bias * 2 ^ f.fbits) = .fin ⟨false, 2 ^ f.fbits, -(f.fbits : Int)⟩ := by
  have hparts : f.parts false f.bias 0 = f.bias * 2 ^ f.fbits := by simp [Fmt.parts]
  have hlt := hf.bias_lt
  have hpos := hf.bias_pos
  have hfin := Fmt.decode_finite hf false (ef := f.bias) (fr := 0) (by omega) (Nat.two_pow_pos _) (by omega)
  have hexpo : f.expo f.bias = -(f.fbits : Int) := by rw [Fmt.expo, Nat.max_eq_left hpos]; omega
  rwa [hparts, Fmt.sig, if_neg hpos.ne', Nat.add_zero, hexpo] at hfin

/-- A finite element in parts. -/
theorem Fmt.parts_of_fin {a : Nat} (ha : a < 2 ^ f.w) {x : Ex} (hx : f.decode a = .fin x) :
    ∃ neg ef fr, ef < 2 ^ f.ebits - 1 ∧ fr < 2 ^ f.fbits ∧ a = f.parts neg ef fr ∧ x = ⟨neg, f.sig ef fr, f.expo ef⟩ := by
  obtain ⟨neg, ef, fr, hef, hfr, rfl⟩ := Fmt.exists_parts hf ha
  by_cases hmax : ef = 2 ^ f.ebits - 1
  · subst hmax
    rw [Fmt.decode_special hf neg hfr] at hx
    split at hx <;> cases hx
  · rw [Fmt.decode_finite hf neg hef hfr hmax] at hx
    cases hx
    exact ⟨neg, ef, fr, by omega, hfr, rfl, rfl⟩

/-- An infinite element. -/
theorem Fmt.eq_infBits {a : Nat} (ha : a < 2 ^ f.w) {neg : Bool} (hx : f.decode a = .inf neg) : a = f.infBits neg := by
  obtain ⟨n, ef, fr, hef, hfr, rfl⟩ := Fmt.exists_parts hf ha
  by_cases hmax : ef = 2 ^ f.ebits - 1
  · subst hmax
    rw [Fmt.decode_special hf n hfr] at hx
    split at hx
    next h0 =>
      cases hx
      rw [h0]
      rfl
    · cases hx
  · rw [Fmt.decode_finite hf n hef hfr hmax] at hx
    cases hx

end

/-! ### Rounding a value of the format (R90) -/

theorem log2_mul_twoPow {m : Nat} (hm : m ≠ 0) (j : Nat) : Nat.log2 (m * 2 ^ j) = Nat.log2 m + j := by
  induction j with
  | zero => simp
  | succ j ih => rw [Nat.pow_succ, ← Nat.mul_assoc, Nat.log2_eq_log_two, Nat.log_mul_base Nat.one_lt_two (by positivity),
      ← Nat.log2_eq_log_two, ih, Nat.add_assoc]

/-- A number cut at a quantum j places above its own. -/
theorem cut_shiftedDown (m j : Nat) (e : Int) : cut (m * 2 ^ j) (e - j) e = (m, 0, j) := by
  unfold cut
  split
  next h =>
    obtain rfl : j = 0 := by omega
    simp
  next h =>
    have hj : (e - (e - (j : Int))).toNat = j := by omega
    dsimp only
    rw [hj, Nat.mul_div_cancel _ (Nat.two_pow_pos _), Nat.mul_mod_left]

/-- A number cut at a quantum j places below its own. -/
theorem cut_shiftedUp (m j : Nat) (e : Int) : cut m (e + j) e = (m * 2 ^ j, 0, 0) := by
  rw [cut, if_pos (by omega), add_sub_cancel_left, Int.toNat_natCast]

section
variable {f : Fmt} {ef fr : Nat} (hfr : fr < 2 ^ f.fbits)
include hfr

theorem Fmt.sig_lt : f.sig ef fr < 2 ^ (f.fbits + 1) := by
  rw [Nat.pow_succ]
  unfold Fmt.sig
  split <;> omega

theorem Fmt.sig_lt_iff : f.sig ef fr < 2 ^ f.fbits ↔ ef = 0 := by
  unfold Fmt.sig
  split <;> omega

/-- The quantum of a significand of the format is its own. -/
theorem Fmt.quantum (hsig : f.sig ef fr ≠ 0) :
    max (1 - (f.bias : Int) - f.fbits) (f.expo ef + Nat.log2 (f.sig ef fr) - f.fbits) = f.expo ef := by
  by_cases h0 : ef = 0
  · have hlog := (Nat.log2_lt hsig).mpr ((Fmt.sig_lt_iff hfr).mpr h0)
    simp only [Fmt.expo, h0] at hlog ⊢
    omega
  · have hle : 2 ^ f.fbits ≤ f.sig ef fr := Nat.le_of_not_lt (mt (Fmt.sig_lt_iff hfr).mp h0)
    have hlog : Nat.log2 (f.sig ef fr) = f.fbits := (Nat.log2_eq_iff hsig).mpr ⟨hle, Fmt.sig_lt hfr⟩
    rw [hlog, Fmt.expo, Nat.max_eq_left (Nat.pos_of_ne_zero h0)]
    omega

theorem Fmt.encode_sig (neg : Bool) : f.encode neg (f.sig ef fr) (f.expo ef) = f.parts neg ef fr := by
  rw [Fmt.encode, Fmt.parts]
  congr 1
  by_cases h0 : ef = 0
  · rw [if_pos ((Fmt.sig_lt_iff hfr).mpr h0), Fmt.sig, if_pos h0, h0]
    omega
  · have hexpo : (f.expo ef + f.fbits + f.bias).toNat = ef := by rw [Fmt.expo]; omega
    rw [if_neg (mt (Fmt.sig_lt_iff hfr).mp h0), hexpo, Fmt.sig, if_neg h0, Nat.add_sub_cancel_left]

/-- A value whose magnitude a mode takes to a significand of the format, at its quantum: the bits, with no flag where nothing is cut off. -/
theorem Fmt.round_to_sig (hf : f.Ieee) (hef : ef < 2 ^ f.ebits - 1) (mode : Nat) {y : Ex} (hy : y.m ≠ 0)
    (hq : max (1 - (f.bias : Int) - f.fbits) (y.e + Nat.log2 y.m - f.fbits) = f.expo ef)
    (hk : roundMag mode y.neg (cut y.m y.e (f.expo ef)).1 (cut y.m y.e (f.expo ef)).2.1 (cut y.m y.e (f.expo ef)).2.2 = f.sig ef fr) :
    (f.round mode y).1 = f.parts y.neg ef fr ∧ ((cut y.m y.e (f.expo ef)).2.1 = 0 → (f.round mode y).2 = 0) := by
  have hcarry : f.sig ef fr ≠ 2 ^ (f.fbits + 1) := (Fmt.sig_lt hfr).ne
  have hovf : (decide (2 ^ f.fbits ≤ f.sig ef fr) && decide ((2 ^ f.ebits - 1 : Nat) ≤ f.expo ef + f.fbits + f.bias)) = false := by
    rw [Bool.and_eq_false_imp]
    intro hnormal
    have h0 : ef ≠ 0 := fun h => absurd ((Fmt.sig_lt_iff hfr).mpr h) (not_lt.mpr (of_decide_eq_true hnormal))
    rw [decide_eq_false_iff_not, Fmt.expo]
    omega
  unfold Fmt.round
  rw [if_neg hy]
  dsimp only
  rw [hq, hk, if_neg hcarry, if_neg hcarry, hf.inf, if_pos rfl, hovf, if_neg Bool.false_ne_true]
  refine ⟨Fmt.encode_sig hfr y.neg, fun hcut => ?_⟩
  simp [hcut]

/-- A value of the format written with j places more is rounded to itself. -/
theorem Fmt.round_shiftedDown (hf : f.Ieee) (hef : ef < 2 ^ f.ebits - 1) (mode : Nat) (neg : Bool) (j : Nat) (hsig : f.sig ef fr ≠ 0) :
    f.round mode ⟨neg, f.sig ef fr * 2 ^ j, f.expo ef - j⟩ = (f.parts neg ef fr, 0) := by
  have hcut := cut_shiftedDown (f.sig ef fr) j (f.expo ef)
  have hq : max (1 - (f.bias : Int) - f.fbits) (f.expo ef - j + Nat.log2 (f.sig ef fr * 2 ^ j) - f.fbits) = f.expo ef := by
    rw [log2_mul_twoPow hsig, ← Fmt.quantum hfr hsig]
    congr 1
    rw [Fmt.quantum hfr hsig]
    push_cast
    ring
  obtain ⟨h1, h2⟩ := Fmt.round_to_sig hfr hf hef mode (y := ⟨neg, f.sig ef fr * 2 ^ j, f.expo ef - j⟩) (by positivity) hq
    (by rw [hcut]; exact roundMag_exact neg mode)
  exact Prod.ext h1 (h2 (by rw [hcut]))

/-- A value of the format written with j places less is rounded to itself. -/
theorem Fmt.round_shiftedUp (hf : f.Ieee) (hef : ef < 2 ^ f.ebits - 1) (mode : Nat) (neg : Bool) {m j : Nat} (hm : m ≠ 0)
    (hsig : f.sig ef fr = m * 2 ^ j) : f.round mode ⟨neg, m, f.expo ef + j⟩ = (f.parts neg ef fr, 0) := by
  have hcut := cut_shiftedUp m j (f.expo ef)
  have hne : f.sig ef fr ≠ 0 := by rw [hsig]; positivity
  have hq : max (1 - (f.bias : Int) - f.fbits) (f.expo ef + j + Nat.log2 m - f.fbits) = f.expo ef := by
    have hown := Fmt.quantum hfr hne
    rw [hsig, log2_mul_twoPow hm] at hown
    rw [← hown]
    congr 1
    rw [hown]
    push_cast
    ring
  obtain ⟨h1, h2⟩ := Fmt.round_to_sig hfr hf hef mode (y := ⟨neg, m, f.expo ef + j⟩) hm hq
    (by rw [hcut, hsig]; exact roundMag_exact neg mode)
  exact Prod.ext h1 (h2 (by rw [hcut]))

end

end Sys2Proof.Machine
end

section
/-! Special and exact cases of the floating forms, and the conversions (R85, R90, R92, R158, R159, R166). -/

namespace Sys2Proof.Machine

open Sys2Proof

/-! ### NaN operands (R85, R102) -/

theorem FV.sig_or_sig (x y : FV) : x.sig ||| y.sig = if x = .nan true ∨ y = .nan true then fNV else 0 := by
  have hsig (v : FV) : v.sig = if v = .nan true then fNV else 0 := by
    cases v with
    | nan s => cases s <;> rfl
    | inf n => rfl
    | fin e => rfl
  rw [hsig, hsig]
  by_cases hx : x = .nan true <;> by_cases hy : y = .nan true <;> simp [hx, hy]

theorem FV.isNaN_negate (x : FV) : x.negate.isNaN = x.isNaN := by cases x <;> rfl

theorem FV.sig_negate (x : FV) : x.negate.sig = x.sig := by cases x <;> rfl

section
variable (f : Fmt) (mode : Nat) {x y : FV} (hnan : x.isNaN = true ∨ y.isNaN = true)
include hnan

theorem fAdd_nan : fAdd f mode x y = (f.canon, if x = .nan true ∨ y = .nan true then fNV else 0) := by
  rw [← FV.sig_or_sig]
  cases x <;> cases y <;> simp [FV.isNaN] at hnan <;> rfl

theorem fSub_nan : fAdd f mode x y.negate = (f.canon, if x = .nan true ∨ y = .nan true then fNV else 0) := by
  rw [← FV.sig_or_sig, ← y.sig_negate, FV.sig_or_sig]
  exact fAdd_nan f mode (y.isNaN_negate.symm ▸ hnan)

theorem fMul_nan : fMul f mode x y = (f.canon, if x = .nan true ∨ y = .nan true then fNV else 0) := by
  have hquiet (s : Bool) (v : FV) : (if (s || v.sig != 0) = true then fNV else 0) = FV.sig (.nan s) ||| v.sig := by
    have hbit : (if (v.sig != 0) = true then fNV else 0) = v.sig := by
      cases v with
      | nan t => cases t <;> rfl
      | inf n => rfl
      | fin e => rfl
    cases s
    · exact hbit.trans (BitVec.zero_or).symm
    · rw [Bool.true_or, if_pos rfl, ← hbit]
      split <;> rfl
  rw [← FV.sig_or_sig]
  cases x with
  | nan s => exact Prod.ext rfl (hquiet s y)
  | inf n =>
    cases y with
    | nan t => exact Prod.ext rfl ((hquiet t _).trans (BitVec.or_comm _ _))
    | _ => simp [FV.isNaN] at hnan
  | fin e =>
    cases y with
    | nan t => exact Prod.ext rfl ((hquiet t _).trans (BitVec.or_comm _ _))
    | _ => simp [FV.isNaN] at hnan

theorem fDiv_nan : fDiv f mode x y = (f.canon, if x = .nan true ∨ y = .nan true then fNV else 0) := by
  rw [← FV.sig_or_sig]
  cases x <;> cases y <;> simp [FV.isNaN] at hnan <;> rfl

end

/-! ### Exact sums, products and quotients -/

theorem Ex.at_zero {z : Ex} (hz : z.m = 0) (e : Int) : z.at e = 0 := by simp [Ex.at, hz]

/-- A nonzero number plus a zero, at the lower of their exponents. -/
theorem Ex.add_zero {x z : Ex} (hx : x.m ≠ 0) (hz : z.m = 0) (mode : Nat) :
    x.add z mode = ⟨x.neg, x.m * 2 ^ (x.e - min x.e z.e).toNat, x.e - (x.e - min x.e z.e).toNat⟩ := by
  have hpos : 0 < x.m * 2 ^ (x.e - min x.e z.e).toNat := by positivity
  have hat : x.at (min x.e z.e) = signedInt x.neg (x.m * 2 ^ (x.e - min x.e z.e).toNat) := rfl
  rw [Ex.add, Ex.at_zero hz, Int.add_zero, hat]
  generalize hn : x.m * 2 ^ (x.e - min x.e z.e).toNat = n at *
  have hexp : min x.e z.e = x.e - (x.e - min x.e z.e).toNat := by omega
  rw [← hexp]
  cases hneg : x.neg <;> simp [signedInt, hpos.ne', hpos]

/-- A number divided by a power of two written with j places. -/
theorem Ex.div_twoPow (x : Ex) (j : Nat) : x.div ⟨false, 2 ^ j, -(j : Int)⟩ = ⟨x.neg, x.m * 2 ^ 102, x.e - 102⟩ := by
  have hn : x.m * 2 ^ (100 + j) = x.m * 2 ^ 100 * 2 ^ j := by rw [Nat.pow_add, Nat.mul_assoc]
  rw [Ex.div]
  dsimp only
  rw [Nat.log2_two_pow, hn, Nat.mul_mod_left, Nat.mul_div_cancel _ (Nat.two_pow_pos j), if_pos rfl, Bool.bne_false]
  congr 1
  · omega
  · push_cast
    ring

theorem fDiv_fin (f : Fmt) (mode : Nat) (x y : Ex) : fDiv f mode (.fin x) (.fin y) =
    if y.m = 0 then if x.m = 0 then (f.canon, fNV) else (f.infBits (x.neg != y.neg), fDZ) else f.round mode (x.div y) := rfl

/-! ### Special and exact operands at a format with infinities (R159) -/

section
variable {f : Fmt} (hf : f.Ieee) (mode : Nat)
include hf

theorem Fmt.inf?_eq (neg : Bool) : f.inf? neg = (f.infBits neg, 0) := if_pos hf.inf

theorem fAdd_inf_opposite (n : Bool) : fAdd f mode (.inf n) (f.decode (f.infBits !n)) = (f.canon, fNV) := by
  rw [Fmt.decode_infBits hf]
  exact if_neg (by cases n <;> decide)

theorem fSub_inf_same (n : Bool) : fAdd f mode (.inf n) (f.decode (f.infBits n)).negate = (f.canon, fNV) := by
  rw [Fmt.decode_infBits hf]
  exact if_neg (by cases n <;> decide)

theorem fMul_inf_zero (n : Bool) : fMul f mode (.inf n) (f.decode 0) = (f.canon, fNV) := by
  rw [Fmt.decode_zero hf]
  rfl

theorem fDiv_inf_inf (n : Bool) : fDiv f mode (.inf n) (f.decode (f.infBits n)) = (f.canon, fNV) := by
  rw [Fmt.decode_infBits hf]
  rfl

section
variable {e : Ex} (hzero : e.m = 0)
include hzero

theorem fDiv_zero_zero : fDiv f mode (.fin e) (f.decode 0) = (f.canon, fNV) := by
  rw [Fmt.decode_zero hf]
  rw [fDiv_fin, if_pos rfl, if_pos hzero]

theorem fMul_zero_inf : fMul f mode (.fin e) (f.decode (f.infBits false)) = (f.canon, fNV) := by
  rw [Fmt.decode_infBits hf, fMul, fProd, if_pos hzero]

theorem fSqrt_zero {a : Nat} (ha : a < 2 ^ f.w) (hx : f.decode a = .fin e) : fSqrt f mode (f.decode a) = (a, 0) := by
  obtain ⟨neg, ef, fr, _, hfr, rfl, rfl⟩ := Fmt.parts_of_fin hf ha hx
  have hsig : f.sig ef fr = 0 := hzero
  have hef : ef = 0 := (Fmt.sig_lt_iff hfr).mp (hsig ▸ Nat.two_pow_pos _)
  subst hef
  obtain rfl : fr = 0 := hsig
  rw [hx, fSqrt, if_pos hzero]
  simp [Fmt.parts]

end

section
variable {a : Nat} (ha : a < 2 ^ f.w) {e : Ex} (hx : f.decode a = .fin e) (hnz : e.m ≠ 0)
include hnz

theorem fDiv_by_zero : fDiv f mode (.fin e) (f.decode 0) = (f.infBits e.neg, fDZ) := by
  rw [Fmt.decode_zero hf]
  rw [fDiv_fin, if_pos rfl, if_neg hnz, Bool.bne_false]

include ha hx

/-- A finite nonzero element's value, written with j places more, is rounded to the element. -/
theorem Fmt.round_same (j : Nat) : f.round mode ⟨e.neg, e.m * 2 ^ j, e.e - j⟩ = (a, 0) := by
  obtain ⟨neg, ef, fr, hef, hfr, rfl, rfl⟩ := Fmt.parts_of_fin hf ha hx
  exact Fmt.round_shiftedDown hfr hf hef mode neg j hnz

/-- Beside a zero it is itself. -/
theorem Fmt.round_add_zero {z : Ex} (hz : z.m = 0) : f.round mode (e.add z mode) = (a, 0) := by
  rw [Ex.add_zero hnz hz]
  exact Fmt.round_same hf mode ha hx hnz _

theorem fAdd_zero : fAdd f mode (.fin e) (f.decode 0) = (a, 0) := by
  rw [Fmt.decode_zero hf]
  exact Fmt.round_add_zero hf mode ha hx hnz rfl

theorem fSub_zero : fAdd f mode (.fin e) (f.decode 0).negate = (a, 0) := by
  rw [Fmt.decode_zero hf]
  exact Fmt.round_add_zero hf mode ha hx hnz rfl

theorem fMul_one : fMul f mode (.fin e) (f.decode (f.bias * 2 ^ f.fbits)) = (a, 0) := by
  rw [Fmt.decode_one hf, fMul, fProd]
  dsimp only
  rw [Ex.mul, Bool.bne_false]
  exact Fmt.round_same hf mode ha hx hnz f.fbits

theorem fDiv_one : fDiv f mode (.fin e) (f.decode (f.bias * 2 ^ f.fbits)) = (a, 0) := by
  rw [Fmt.decode_one hf]
  rw [fDiv_fin, if_neg (Nat.two_pow_pos _).ne', Ex.div_twoPow]
  exact Fmt.round_same hf mode ha hx hnz 102

end

end

/-! ### Conversions between f32 and bf16 (R92, R166) -/

/-- A bf16 element is the f32 element of the same value with 16 fraction bits more. -/
theorem bf16_parts_widen (neg : Bool) (ef fr : Nat) : bf16.parts neg ef fr * 2 ^ 16 = f32.parts neg ef (fr * 2 ^ 16) := by
  cases neg <;> simp [Fmt.parts, bf16, f32] <;> ring

/-- The f32 significand of a bf16 value. -/
theorem f32_sig_widen (ef fr : Nat) : f32.sig ef (fr * 2 ^ 16) = bf16.sig ef fr * 2 ^ 16 := by
  unfold Fmt.sig
  split
  · rfl
  · simp only [f32, bf16]
    ring

theorem bf16_expo (ef : Nat) : bf16.expo ef = f32.expo ef + (16 : Nat) := by
  simp only [Fmt.expo, f32, bf16]
  push_cast
  ring

theorem f32_round_zero (mode : Nat) (neg : Bool) (e : Int) : f32.round mode ⟨neg, 0, e⟩ = (f32.parts neg 0 0, 0) := by
  cases neg <;> rfl

/-- A finite bf16 value in f32. -/
theorem f32_round_bf16 {a : Nat} (ha : a < 2 ^ 16) {x : Ex} (hx : bf16.decode a = .fin x) (mode : Nat) : f32.round mode x = (a * 2 ^ 16, 0) := by
  obtain ⟨neg, ef, fr, hef, hfr, rfl, rfl⟩ := Fmt.parts_of_fin bf16_ieee ha hx
  have hfr' : fr * 2 ^ 16 < 2 ^ f32.fbits := by
    have : fr < 2 ^ 7 := hfr
    change fr * 2 ^ 16 < 2 ^ 23
    omega
  rw [bf16_parts_widen, bf16_expo]
  by_cases hsig : bf16.sig ef fr = 0
  · have hef0 : ef = 0 := (Fmt.sig_lt_iff hfr).mp (hsig ▸ Nat.two_pow_pos _)
    subst hef0
    obtain rfl : fr = 0 := hsig
    exact f32_round_zero mode neg _
  · exact Fmt.round_shiftedUp hfr' f32_ieee hef mode neg hsig (f32_sig_widen ef fr)

theorem bf16_convert_f32 {a : Nat} (ha : a < 2 ^ 16) (mode : Nat) (hnan : (bf16.decode a).isNaN = false) :
    (bf16.decode a).convert f32 mode = (a * 2 ^ 16, 0) := by
  cases hx : bf16.decode a with
  | nan s => rw [hx] at hnan; cases hnan
  | inf neg =>
    rw [Fmt.eq_infBits bf16_ieee ha hx]
    cases neg <;> rfl
  | fin x => exact f32_round_bf16 ha hx mode

/-- The bf16 significand that truncation leaves. -/
theorem bf16_sig_truncate (ef fr : Nat) : bf16.sig ef (fr / 2 ^ 16) = f32.sig ef fr / 2 ^ 16 := by
  unfold Fmt.sig
  split
  · rfl
  · simp only [f32, bf16]
    omega

theorem f32_parts_truncate {fr : Nat} (neg : Bool) (ef : Nat) : f32.parts neg ef fr / 2 ^ 16 = bf16.parts neg ef (fr / 2 ^ 16) := by
  cases neg <;> simp [Fmt.parts, bf16, f32] <;> omega

/-- A finite f32 value toward zero in bf16. -/
theorem bf16_round_truncates {a : Nat} (ha : a < 2 ^ 32) {x : Ex} (hx : f32.decode a = .fin x) : (bf16.round 1 x).1 = a / 2 ^ 16 := by
  obtain ⟨neg, ef, fr, hef, hfr, rfl, rfl⟩ := Fmt.parts_of_fin f32_ieee ha hx
  have hfr' : fr / 2 ^ 16 < 2 ^ bf16.fbits := by
    have : fr < 2 ^ 23 := hfr
    change fr / 2 ^ 16 < 2 ^ 7
    omega
  rw [f32_parts_truncate]
  by_cases hsig : f32.sig ef fr = 0
  · have hef0 : ef = 0 := (Fmt.sig_lt_iff hfr).mp (hsig ▸ Nat.two_pow_pos _)
    subst hef0
    obtain rfl : fr = 0 := hsig
    cases neg <;> rfl
  · have hexpo := bf16_expo ef
    have hq : max (1 - (bf16.bias : Int) - bf16.fbits) (f32.expo ef + Nat.log2 (f32.sig ef fr) - bf16.fbits) = bf16.expo ef := by
      have hown := Fmt.quantum hfr hsig
      simp only [f32, bf16] at hown hexpo ⊢
      omega
    have hcut : cut (f32.sig ef fr) (f32.expo ef) (bf16.expo ef) = (f32.sig ef fr / 2 ^ 16, f32.sig ef fr % 2 ^ 16, 16) := by
      rw [hexpo, cut, if_neg (by omega), add_sub_cancel_left, Int.toNat_natCast]
    exact (Fmt.round_to_sig hfr' bf16_ieee hef 1 (y := ⟨neg, f32.sig ef fr, f32.expo ef⟩) hsig hq
      (by rw [hcut, roundMag_towardZero, bf16_sig_truncate])).1

/-! ### The conversions as elements (R166) -/

section
variable (h g : Hart) (gd : Guard) (apd apa apb : Ap) (r e : Nat)

/-- A conversion that does not round with error feedback, between floating formats. -/
theorem convertVec_vfcvt {q : Nat × Flags}
    (hef : (narrowing .vfcvt (h.apt apd).ty (h.apt apa).ty && decide (h.mode 0xc01 = 5)) = false)
    (hq : ((fmtOf (h.apt apa).ty).decode (h.getEl (h.apt apa) r e)).convert (fmtOf (h.apt apd).ty) (h.mode 0xc01) = q) :
    (convertVec ⟨.vfcvt, apd, apa, apb⟩ gd h).el h g r e = (g.setEl (h.apt apd) r e q.1, q.2) :=
  hq ▸ if_neg (Bool.eq_false_iff.mp hef)

/-- A conversion to an integer type that does not round with error feedback. -/
theorem convertVec_vfcvti {q : Nat × Flags} (hmode : h.mode 0xc02 ≤ 4)
    (hq : ((fmtOf (h.apt apa).ty).decode (h.getEl (h.apt apa) r e)).toIntType (h.apt apd).ty (h.mode 0xc02) = q) :
    (convertVec ⟨.vfcvti, apd, apa, apb⟩ gd h).el h g r e = (g.setEl (h.apt apd) r e q.1, q.2) := by
  have hef : (narrowing .vfcvti (h.apt apd).ty (h.apt apa).ty && decide (h.mode 0xc02 = 5)) = false := by
    rw [decide_eq_false (by omega), Bool.and_false]
  exact hq ▸ if_neg (Bool.eq_false_iff.mp hef)

end

/-- A finite value in an integer type: the clamp of R120, with NV beside SAT (R93). -/
theorem FV.toIntType_fin (x : Ex) (ty mode : Nat) : intVal ty ((FV.fin x).toIntType ty mode).1 = max (intMin ty) (min (x.toInt mode) (intMax ty)) ∧
    ((FV.fin x).toIntType ty mode).2 = if x.toInt mode < intMin ty ∨ intMax ty < x.toInt mode then fNV ||| fSAT else 0 := by
  obtain ⟨hval, hflag⟩ := intVal_clampInt ty (x.toInt mode)
  refine ⟨hval, ?_⟩
  change (if (clampInt ty (x.toInt mode)).2 = 0 then 0 else fNV ||| fSAT) = _
  rw [hflag]
  split <;> rfl

end Sys2Proof.Machine

namespace Sys2Proof.Proofs

open Sys2Proof Sys2Proof.Machine

/-- Settles O42: rounding by the two magnitudes around v ÷ 2^k; the special cases by what the operands' bits stand for; the exact ones
because a value of a format is rounded to its own bits however many places it is written with. -/
theorem roundingAndFloats : Obligations.RoundingAndFloats := by
  unfold Obligations.RoundingAndFloats
  refine ⟨?_, ?_, ?_⟩
  · intro neg m k v r
    have hpow : ((2 ^ k : Nat) : Int) = 2 ^ k := by push_cast; rfl
    rw [← hpow]
    exact ⟨(toInt_nearest neg m k).1, (toInt_nearest neg m k).2, toInt_towardZero neg m k, toInt_down neg m k, toInt_up neg m k,
      fun h => toInt_odd_exact neg m k ((signedInt_emod_eq_zero neg m k).mp h),
      fun h => toInt_odd_inexact neg m k (mt (signedInt_emod_eq_zero neg m k).mpr h)⟩
  · intro h ty a b d hty ha _ f x y out
    have hf : f.Ieee := fmtOf_ieee hty
    have haw : a < 2 ^ f.w := (fmtOf_w hty).symm ▸ ha
    refine ⟨?_, ?_, ?_, ?_⟩
    · intro hnan op hop
      simp only [List.mem_cons, List.not_mem_nil, or_false] at hop
      obtain rfl | rfl | rfl | rfl := hop
      · exact fAdd_nan f _ hnan
      · exact fSub_nan f _ hnan
      · exact fMul_nan f _ hnan
      · exact fDiv_nan f _ hnan
    · intro n hx
      change fAdd f _ x _ = _ ∧ fAdd f _ x _ = _ ∧ fMul f _ x _ = _ ∧ fDiv f _ x _ = _
      rw [hx]
      exact ⟨fAdd_inf_opposite hf _ n, fSub_inf_same hf _ n, fMul_inf_zero hf _ n, fDiv_inf_inf hf _ n⟩
    · intro e hx hzero
      have hsqrt := fSqrt_zero hf (h.mode 0xc01) hzero haw hx
      change fDiv f _ x _ = _ ∧ fMul f _ x _ = _ ∧ fSqrt f _ x = _
      rw [hx]
      exact ⟨fDiv_zero_zero hf _ hzero, fMul_zero_inf hf _ hzero, hx ▸ hsqrt⟩
    · intro e hx hnz one
      change fDiv f _ x _ = _ ∧ fAdd f _ x _ = _ ∧ fAdd f _ x _ = _ ∧ fMul f _ x _ = _ ∧ fDiv f _ x _ = _ ∧ (_ → fSqrt f _ x = _)
      rw [hx]
      exact ⟨fDiv_by_zero hf _ hnz, fAdd_zero hf _ haw hx hnz, fSub_zero hf _ haw hx hnz, fMul_one hf _ haw hx hnz, fDiv_one hf _ haw hx hnz,
        fun hneg => (if_neg hnz).trans (if_pos hneg)⟩
  · intro h g gd apd apa apb r e d a x v conv
    refine ⟨?_, ?_, ?_⟩
    · intro ha hd
      have hx : x < 2 ^ 16 := (congrArg (fun ty => 2 ^ tyWidth ty) ha : _ = 2 ^ 16) ▸ h.getEl_lt a r e
      have hv : v = bf16.decode x := congrArg (fun ty => (fmtOf ty).decode x) ha
      have hf : fmtOf d.ty = f32 := congrArg fmtOf hd
      have hel {q : Nat × Flags} (hq : v.convert f32 (h.mode 0xc01) = q) : conv .vfcvt q.1 q.2 :=
        convertVec_vfcvt h g gd apd apa apb r e (by rw [ha, hd]; rfl) (hf ▸ hq)
      refine ⟨fun hnan => hel (q := (x * 2 ^ 16, 0)) ?_, fun sig hsig => hel (q := (f32.canon, if sig then fNV else 0)) ?_⟩
      · rw [hv]
        exact bf16_convert_f32 hx _ (hv ▸ hnan)
      · rw [hsig]
        rfl
    · intro ha hd hmode
      have hx : x < 2 ^ 32 := (congrArg (fun ty => 2 ^ tyWidth ty) ha : _ = 2 ^ 32) ▸ h.getEl_lt a r e
      have hv : v = f32.decode x := congrArg (fun ty => (fmtOf ty).decode x) ha
      have hf : fmtOf d.ty = bf16 := congrArg fmtOf hd
      have hel {q : Nat × Flags} (hq : v.convert bf16 1 = q) : conv .vfcvt q.1 q.2 :=
        convertVec_vfcvt h g gd apd apa apb r e (by rw [hmode]; exact Bool.and_false _) (hmode ▸ hf ▸ hq)
      refine ⟨fun y hy => ⟨(bf16.round 1 y).2, hel (q := (x / 2 ^ 16, _)) ?_⟩, fun sig hsig => hel (q := (bf16.canon, if sig then fNV else 0)) ?_⟩
      · rw [hy]
        exact Prod.ext (bf16_round_truncates hx (hv ▸ hy)) rfl
      · rw [hsig]
        rfl
    · intro _ _ hmode
      have hel {q : Nat × Flags} (hq : v.toIntType d.ty (h.mode 0xc02) = q) : conv .vfcvti q.1 q.2 :=
        convertVec_vfcvti h g gd apd apa apb r e hmode hq
      refine ⟨fun sig hsig => hel (q := (0, fNV)) ?_, fun y hy => ?_⟩
      · rw [hsig]
        rfl
      · obtain ⟨hval, hflag⟩ := FV.toIntType_fin y d.ty (h.mode 0xc02)
        have hconv := hel (congrArg (FV.toIntType · d.ty (h.mode 0xc02)) hy)
        rw [hflag] at hconv
        exact ⟨_, hconv, hval⟩

end Sys2Proof.Proofs
end

section
/-! The pairwise tree (R98), the reductions (R169 to R171) and the attention chain (R173 to R180) on elements. -/

namespace Sys2Proof.Machine

open Sys2Proof

/-! ### What the tree computes (R98)

A relation between lists of leaves and results that holds at every leaf, and that the operator carries from two neighbouring lists to their
concatenation, holds between all the leaves present and the tree's result. -/

section
variable {α β : Type} (R : List β → α → Prop)

/-- A node stands for a list of leaves: an absent one for none. -/
def NodeOf : Option α → List β → Prop
  | some a, l => R l a
  | none, l => l = []

/-- The nodes of a level stand, one after the other, for the leaves of a list. -/
def LevelOf : List (Option α) → List β → Prop
  | [], l => l = []
  | n :: ns, l => ∃ l1 l2, l = l1 ++ l2 ∧ NodeOf R n l1 ∧ LevelOf ns l2

variable {R}

theorem levelOf_treeLevel {op : α → α → α} (hop : ∀ l1 l2 a b, R l1 a → R l2 b → R (l1 ++ l2) (op a b)) (ns : List (Option α)) :
    ∀ l : List β, LevelOf R ns l → LevelOf R (treeLevel op ns) l := by
  induction ns using treeLevel.induct with
  | case1 a b r ih =>
    rintro _ ⟨l1, _, rfl, ha, l2, l3, rfl, hb, hr⟩
    exact ⟨l1 ++ l2, l3, (List.append_assoc _ _ _).symm, hop _ _ _ _ ha hb, ih _ hr⟩
  | case2 a r ih =>
    rintro _ ⟨l1, _, rfl, ha, l2, l3, rfl, rfl, hr⟩
    exact ⟨l1, l3, rfl, ha, ih _ hr⟩
  | case3 b r ih =>
    rintro _ ⟨_, _, rfl, rfl, l2, l3, rfl, hb, hr⟩
    exact ⟨l2, l3, rfl, hb, ih _ hr⟩
  | case4 a => simp [treeLevel]
  | case5 => simp [treeLevel]

theorem length_treeLevel (op : α → α → α) (ns : List (Option α)) : (treeLevel op ns).length = (ns.length + 1) / 2 := by
  induction ns using treeLevel.induct with
  | case1 a b r ih => simp only [treeLevel, List.length_cons, ih]; omega
  | case2 a r ih => simp only [treeLevel, List.length_cons, ih]; omega
  | case3 b r ih => simp only [treeLevel, List.length_cons, ih]; omega
  | case4 a => simp [treeLevel]
  | case5 => simp [treeLevel]

theorem nodeOf_treeFuel {op : α → α → α} (hop : ∀ l1 l2 a b, R l1 a → R l2 b → R (l1 ++ l2) (op a b)) (n : Nat) :
    ∀ (ns : List (Option α)) (l : List β), ns.length ≤ n → LevelOf R ns l → NodeOf R (treeFuel op n ns) l := by
  induction n with
  | zero =>
    intro ns l hlen hl
    obtain rfl := List.eq_nil_of_length_eq_zero (Nat.le_zero.mp hlen)
    exact hl
  | succ n ih =>
    intro ns l hlen hl
    match ns, hlen, hl with
    | [], _, hl => exact hl
    | [a], _, hl =>
      obtain ⟨l1, _, rfl, ha, rfl⟩ := hl
      rw [List.append_nil]
      exact ha
    | a :: b :: r, hlen, hl =>
      refine ih _ l ?_ (levelOf_treeLevel hop _ l hl)
      rw [length_treeLevel]
      simp only [List.length_cons] at hlen ⊢
      omega

/-- The tree over the leaves of the indices that a condition holds of. -/
theorem nodeOf_tree {op : α → α → α} (hop : ∀ l1 l2 a b, R l1 a → R l2 b → R (l1 ++ l2) (op a b)) {p : β → Bool} {leaf : β → α}
    (es : List β) (hleaf : ∀ e ∈ es, p e = true → R [e] (leaf e)) :
    NodeOf R (tree op (es.map (fun e => if p e then some (leaf e) else none))) (es.filter p) := by
  have hlevel : LevelOf R (es.map (fun e => if p e then some (leaf e) else none)) (es.filter p) := by
    induction es with
    | nil => rfl
    | cons e es ih =>
      have hrest := ih (fun e' he' => hleaf e' (List.mem_cons_of_mem e he'))
      rw [List.map_cons]
      by_cases he : p e = true
      · rw [if_pos he, List.filter_cons_of_pos he]
        exact ⟨[e], _, rfl, hleaf e List.mem_cons_self he, hrest⟩
      · rw [if_neg he, List.filter_cons_of_neg he]
        exact ⟨[], _, rfl, rfl, hrest⟩
  exact nodeOf_treeFuel hop _ _ _ (Nat.le_succ _) hlevel

end

/-- A reduction gives what the tree computes of its active leaves, and the identity where there is none. -/
theorem reduce_of_leaves {β : Type} {R : List β → Nat × Flags → Prop} {ty op mode : Nat}
    (hop : ∀ l1 l2 a b, R l1 a → R l2 b → R (l1 ++ l2) (redOp ty op mode a b)) {p : β → Bool} {leaf : β → Nat × Flags} (es : List β)
    (hleaf : ∀ e ∈ es, p e = true → R [e] (leaf e)) :
    let r := reduce ty op mode (es.map (fun e => if p e then some (leaf e) else none))
    R (es.filter p) r ∨ (es.filter p = [] ∧ r = (redId ty op, 0)) := by
  have htree := nodeOf_tree hop es hleaf
  unfold reduce
  generalize tree (redOp ty op mode) (es.map (fun e => if p e then some (leaf e) else none)) = node at htree
  cases node with
  | some r => exact .inl htree
  | none => exact .inr ⟨htree, rfl⟩

/-! ### Integer reductions (R170) -/

section
variable {ty : Nat} (hint : tyFloat ty = false)
include hint

section
variable (mode : Nat) (a b : Nat × Flags)

theorem redOp_sum : redOp ty 0 mode a b = ((a.1 + b.1) % 2 ^ tyWidth ty, a.2 ||| b.2) := if_neg (Bool.eq_false_iff.mp hint)

theorem redOp_max : redOp ty 1 mode a b = (if intVal ty a.1 < intVal ty b.1 then b.1 else a.1, a.2 ||| b.2) :=
  if_neg (Bool.eq_false_iff.mp hint)

theorem redOp_min : redOp ty 2 mode a b = (if intVal ty b.1 < intVal ty a.1 then b.1 else a.1, a.2 ||| b.2) :=
  if_neg (Bool.eq_false_iff.mp hint)

theorem redOp_and : redOp ty 3 mode a b = (a.1 &&& b.1, a.2 ||| b.2) := if_neg (Bool.eq_false_iff.mp hint)

theorem redOp_or : redOp ty 4 mode a b = (a.1 ||| b.1, a.2 ||| b.2) := if_neg (Bool.eq_false_iff.mp hint)

theorem redOp_xor : redOp ty 5 mode a b = (a.1 ^^^ b.1, a.2 ||| b.2) := if_neg (Bool.eq_false_iff.mp hint)

end

theorem redId_int (op : Nat) : redId ty op =
    match op with
    | 1 => wrap (tyWidth ty) (intMin ty)
    | 2 => wrap (tyWidth ty) (intMax ty)
    | 3 => 2 ^ tyWidth ty - 1
    | _ => 0 := if_neg (Bool.eq_false_iff.mp hint)

/-- An integer sum modulo 2^w, whatever the source's type. -/
theorem reduce_sum (mode : Nat) (p : Nat → Bool) (x : Nat → Int) (es : List Nat) :
    ∃ v, reduce ty 0 mode (es.map (fun e => if p e then some (wrap (tyWidth ty) (x e), 0) else none)) = (v, 0) ∧
      (v : Int) = ((es.filter p).map x).sum % (2 ^ tyWidth ty : Nat) := by
  have h := reduce_of_leaves (R := fun l r => r.2 = 0 ∧ (r.1 : Int) = (l.map x).sum % (2 ^ tyWidth ty : Nat)) (ty := ty) (op := 0) (mode := mode)
    (p := p) (leaf := fun e => (wrap (tyWidth ty) (x e), 0)) (fun l1 l2 a b ha hb => ?_) es (fun e _ _ => ⟨rfl, ?_⟩)
  · obtain ⟨hfl, hv⟩ | ⟨hnil, hr⟩ := h
    · exact ⟨_, Prod.ext rfl hfl, hv⟩
    · refine ⟨_, hr, ?_⟩
      rw [hnil, redId_int hint]
      rfl
  · obtain ⟨ha0, ha⟩ := ha
    obtain ⟨hb0, hb⟩ := hb
    rw [redOp_sum hint]
    refine ⟨by simp [ha0, hb0], ?_⟩
    push_cast at ha hb ⊢
    rw [ha, hb, List.map_append, List.sum_append, ← Int.add_emod]
  · rw [wrap_eq, List.map_singleton, List.sum_singleton]

section
variable (mode : Nat) (p : Nat → Bool) (x : Nat → Nat) (es : List Nat)

omit hint in
/-- A reduction whose operator picks the greater of two elements in some order. -/
theorem reduce_greatest {op : Nat} {le : Nat → Nat → Prop} (hrefl : ∀ a, le a a) (htrans : ∀ a b c, le a b → le b c → le a c)
    (hflag : ∀ a b, (redOp ty op mode a b).2 = a.2 ||| b.2)
    (hpick : ∀ a b, ((redOp ty op mode a b).1 = a.1 ∧ le b.1 a.1) ∨ ((redOp ty op mode a b).1 = b.1 ∧ le a.1 b.1)) :
    ∃ v, reduce ty op mode (es.map (fun e => if p e then some (x e, 0) else none)) = (v, 0) ∧
      (∀ e ∈ es.filter p, le (x e) v) ∧ (es.filter p ≠ [] → ∃ e ∈ es.filter p, v = x e) ∧ (es.filter p = [] → v = redId ty op) := by
  have h := reduce_of_leaves (R := fun l r => r.2 = 0 ∧ (∀ e ∈ l, le (x e) r.1) ∧ ∃ e ∈ l, r.1 = x e) (ty := ty) (op := op)
    (mode := mode) (p := p) (leaf := fun e => (x e, 0)) (fun l1 l2 a b ha hb => ?_) es (fun e _ _ => ⟨rfl, by simp [hrefl], by simp⟩)
  · obtain ⟨hfl, hle, e, he, hex⟩ | ⟨hnil, hr⟩ := h
    · exact ⟨_, Prod.ext rfl hfl, hle, fun _ => ⟨e, he, hex⟩, fun hnil => absurd (hnil ▸ he) List.not_mem_nil⟩
    · exact ⟨_, hr, fun e he => absurd (hnil ▸ he) List.not_mem_nil, fun h => absurd hnil h, fun _ => rfl⟩
  · obtain ⟨ha0, hale, ea, hea, hax⟩ := ha
    obtain ⟨hb0, hble, eb, heb, hbx⟩ := hb
    refine ⟨by rw [hflag, ha0, hb0]; rfl, ?_⟩
    obtain ⟨hpicked, hba⟩ | ⟨hpicked, hab⟩ := hpick a b
    · rw [hpicked]
      exact ⟨fun e he => (List.mem_append.mp he).elim (hale e) (fun h => htrans _ _ _ (hble e h) hba), ea, List.mem_append_left l2 hea, hax⟩
    · rw [hpicked]
      exact ⟨fun e he => (List.mem_append.mp he).elim (fun h => htrans _ _ _ (hale e h) hab) (hble e), eb, List.mem_append_right l1 heb, hbx⟩

theorem reduce_max : ∃ v, reduce ty 1 mode (es.map (fun e => if p e then some (x e, 0) else none)) = (v, 0) ∧
    (∀ e ∈ es.filter p, intVal ty (x e) ≤ intVal ty v) ∧ (es.filter p ≠ [] → ∃ e ∈ es.filter p, v = x e) ∧
    (es.filter p = [] → intVal ty v = intMin ty) := by
  have hid : intVal ty (redId ty 1) = intMin ty := by
    rw [redId_int hint]
    exact intVal_wrap le_rfl ((intMin_le_zero ty).trans (intMax_nonneg ty))
  obtain ⟨v, hv, hle, hex, hnil⟩ := reduce_greatest (ty := ty) (op := 1) mode p x es (le := fun a b => intVal ty a ≤ intVal ty b) (fun _ => le_rfl)
    (fun _ _ _ => le_trans) (fun a b => by rw [redOp_max hint]) (fun a b => by rw [redOp_max hint]; dsimp only; split <;> omega)
  exact ⟨v, hv, hle, hex, fun h => hnil h ▸ hid⟩

theorem reduce_min : ∃ v, reduce ty 2 mode (es.map (fun e => if p e then some (x e, 0) else none)) = (v, 0) ∧
    (∀ e ∈ es.filter p, intVal ty v ≤ intVal ty (x e)) ∧ (es.filter p ≠ [] → ∃ e ∈ es.filter p, v = x e) ∧
    (es.filter p = [] → intVal ty v = intMax ty) := by
  have hid : intVal ty (redId ty 2) = intMax ty := by
    rw [redId_int hint]
    exact intVal_wrap ((intMin_le_zero ty).trans (intMax_nonneg ty)) le_rfl
  obtain ⟨v, hv, hle, hex, hnil⟩ := reduce_greatest (ty := ty) (op := 2) mode p x es (le := fun a b => intVal ty b ≤ intVal ty a) (fun _ => le_rfl)
    (fun _ _ _ hab hbc => hbc.trans hab) (fun a b => by rw [redOp_min hint]) (fun a b => by rw [redOp_min hint]; dsimp only; split <;> omega)
  exact ⟨v, hv, hle, hex, fun h => hnil h ▸ hid⟩

omit hint in
/-- A bitwise reduction: where the operator, bit by bit, carries a function of lists of indices over concatenation. -/
theorem reduce_bitwise {op : Nat} {bit : List Nat → Nat → Bool}
    (hop : ∀ l1 l2 a b, (∀ k, a.1.testBit k = bit l1 k) → (∀ k, b.1.testBit k = bit l2 k) → ∀ k, (redOp ty op mode a b).1.testBit k = bit (l1 ++ l2) k)
    (hflag : ∀ a b, (redOp ty op mode a b).2 = a.2 ||| b.2) (hleaf : ∀ e k, (x e).testBit k = bit [e] k)
    (hid : ∀ k, k < tyWidth ty → (redId ty op).testBit k = bit [] k) :
    ∃ v, reduce ty op mode (es.map (fun e => if p e then some (x e, 0) else none)) = (v, 0) ∧
      ∀ k, k < tyWidth ty → v.testBit k = bit (es.filter p) k := by
  have h := reduce_of_leaves (R := fun l r => r.2 = 0 ∧ ∀ k, r.1.testBit k = bit l k) (p := p) (leaf := fun e => (x e, 0))
    (fun l1 l2 a b ha hb => ⟨by rw [hflag, ha.1, hb.1]; rfl, hop l1 l2 a b ha.2 hb.2⟩) es (fun e _ _ => ⟨rfl, hleaf e⟩)
  obtain ⟨hfl, hbits⟩ | ⟨hnil, hr⟩ := h
  · exact ⟨_, Prod.ext rfl hfl, fun k _ => hbits k⟩
  · exact ⟨_, hr, fun k hk => hnil ▸ hid k hk⟩

theorem reduce_and : ∃ v, reduce ty 3 mode (es.map (fun e => if p e then some (x e, 0) else none)) = (v, 0) ∧
    ∀ k, k < tyWidth ty → v.testBit k = (es.filter p).all (fun e => (x e).testBit k) := by
  refine reduce_bitwise mode p x es (bit := fun l k => l.all (fun e => (x e).testBit k)) (fun l1 l2 a b ha hb k => ?_)
    (fun a b => by rw [redOp_and hint]) (fun e k => by simp) (fun k hk => ?_)
  · rw [redOp_and hint, Nat.testBit_and, ha, hb, List.all_append]
  · rw [redId_int hint]
    simpa using hk

theorem reduce_or : ∃ v, reduce ty 4 mode (es.map (fun e => if p e then some (x e, 0) else none)) = (v, 0) ∧
    ∀ k, k < tyWidth ty → v.testBit k = (es.filter p).any (fun e => (x e).testBit k) := by
  refine reduce_bitwise mode p x es (bit := fun l k => l.any (fun e => (x e).testBit k)) (fun l1 l2 a b ha hb k => ?_)
    (fun a b => by rw [redOp_or hint]) (fun e k => by simp) (fun k hk => ?_)
  · rw [redOp_or hint, Nat.testBit_or, ha, hb, List.any_append]
  · rw [redId_int hint]
    simp

theorem reduce_xor : ∃ v, reduce ty 5 mode (es.map (fun e => if p e then some (x e, 0) else none)) = (v, 0) ∧
    ∀ k, k < tyWidth ty → v.testBit k = decide ((es.filter p).countP (fun e => (x e).testBit k) % 2 = 1) := by
  refine reduce_bitwise mode p x es (bit := fun l k => decide (l.countP (fun e => (x e).testBit k) % 2 = 1)) (fun l1 l2 a b ha hb k => ?_)
    (fun a b => by rw [redOp_xor hint]) (fun e k => ?_) (fun k hk => ?_)
  · rw [redOp_xor hint, Nat.testBit_xor, ha, hb, List.countP_append, Bool.eq_iff_iff, Bool.xor_iff_ne, ne_eq, decide_eq_decide, decide_eq_true_eq]
    omega
  · rw [List.countP_singleton]
    cases (x e).testBit k <;> rfl
  · rw [redId_int hint]
    simp

end

end

/-! ### The items of a reduction (R169) -/

theorem segStarts_row (k : BitVec 1024) {vl : Nat} (hvl : 0 < vl) : segStarts k false vl = [0] := by
  obtain ⟨n, rfl⟩ := Nat.exists_eq_add_of_lt hvl
  rw [Nat.zero_add, segStarts, List.range_succ_eq_map, List.filter_cons_of_pos (by rfl)]
  simp

theorem segStarts_getD_le (k : BitVec 1024) (seg : Bool) (vl j : Nat) : (segStarts k seg vl).getD j vl ≤ vl := by
  rw [List.getD_eq_getElem?_getD]
  cases h : (segStarts k seg vl)[j]? with
  | none => exact le_rfl
  | some e => exact (List.mem_range.mp (List.mem_of_mem_filter (List.mem_of_getElem? h))).le

/-- The elements from lo to below hi, among the first vl. -/
theorem filter_range_between {lo hi vl : Nat} (hhi : hi ≤ vl) (p : Nat → Bool) :
    (List.range vl).filter (fun e => decide (lo ≤ e) && decide (e < hi) && p e) = (List.range' lo (hi - lo)).filter p := by
  have hwindow : (List.range vl).filter (fun e => decide (lo ≤ e) && decide (e < hi)) = List.range' lo (hi - lo) := by
    refine List.Perm.eq_of_pairwise (le := (· < ·)) (fun a b _ _ hab hba => absurd hab (Nat.lt_asymm hba)) ?_ List.pairwise_lt_range' ?_
    · exact List.pairwise_lt_range.filter _
    · refine (List.perm_ext_iff_of_nodup (List.nodup_range.filter _) List.nodup_range').mpr (fun e => ?_)
      simp only [List.mem_filter, List.mem_range, Bool.and_eq_true, decide_eq_true_eq, List.mem_range'_1]
      omega
  rw [← hwindow, List.filter_filter]
  refine List.filter_congr (fun e _ => ?_)
  rw [Bool.and_comm]

theorem leafOf_int {td ta : Nat} (hint : tyFloat td = false) (b : Nat) : leafOf td ta b = (wrap (tyWidth td) (intVal ta b), 0) :=
  if_neg (Bool.eq_false_iff.mp hint)

theorem leafOf_same {ty b : Nat} (hint : tyFloat ty = false) (hb : b < 2 ^ tyWidth ty) : leafOf ty ty b = (b, 0) := by
  rw [leafOf_int hint, wrap_intVal hb]

/-- The integer types are no floating ones. -/
theorem tyFloat_of_int {ty : Nat} (hty : ty ≤ 5) : tyFloat ty = false := by
  have hall : ∀ ty < 6, tyFloat ty = false := by decide
  exact hall ty (by omega)

/-- The destination of an integer sum is an integer type. -/
theorem reduceTypes_sum {op : AOp} (hop : op ∈ [AOp.vredsum, .vwredsum, .vsredsum, .vswredsum]) {td ta : Nat} (htypes : reduceTypes op td ta = true) :
    td ≤ 5 := by
  simp only [List.mem_cons, List.not_mem_nil, or_false] at hop
  obtain rfl | rfl | rfl | rfl := hop <;> simp [reduceTypes, tyInt] at htypes <;> omega

section
variable (h g : Hart) (gd : Guard) (op : AOp) (apd apa apb : Ap) (r j : Nat)

/-- The leaves of a reduction's item: the active elements of its segment. -/
def reduceLeaves (h : Hart) (gd : Guard) (td : Nat) (a : Apt) (r lo hi : Nat) : List (Option (Nat × Flags)) :=
  (List.range' lo (hi - lo)).map (fun e => if h.guardBit gd e then some (leafOf td a.ty (h.getEl a r e)) else none)

theorem reduceVec_el : (reduceVec ⟨op, apd, apa, apb⟩ gd h).el h g r j =
    (let st := segStarts (h.getK (apb.toNat % 8)) (reduceOp op).2 h.vl
     let v := reduce (h.apt apd).ty (reduceOp op).1 (h.mode 0xc01)
       (reduceLeaves h gd (h.apt apd).ty (h.apt apa) r (st.getD j 0) (st.getD (j + 1) h.vl))
     (g.setEl (h.apt apd) r j v.1, v.2)) := rfl

/-- A reduction of whole rows takes all their elements. -/
theorem reduceVec_el_row (hseg : (reduceOp op).2 = false) (hvl : 0 < h.vl) (hint : tyFloat (h.apt apd).ty = false)
    (hty : (h.apt apa).ty = (h.apt apd).ty) {v : Nat}
    (hv : reduce (h.apt apd).ty (reduceOp op).1 (h.mode 0xc01)
      ((List.range h.vl).map (fun e => if h.guardBit gd e then some (h.getEl (h.apt apa) r e, 0) else none)) = (v, 0)) :
    (reduceVec ⟨op, apd, apa, apb⟩ gd h).el h g r 0 = (g.setEl (h.apt apd) r 0 v, 0) := by
  have hleaves : reduceLeaves h gd (h.apt apd).ty (h.apt apa) r 0 h.vl =
      (List.range h.vl).map (fun e => if h.guardBit gd e then some (h.getEl (h.apt apa) r e, 0) else none) := by
    rw [reduceLeaves, Nat.sub_zero, ← List.range_eq_range']
    refine List.map_congr_left (fun e _ => ?_)
    rw [hty, leafOf_same hint (hty ▸ h.getEl_lt (h.apt apa) r e)]
  rw [reduceVec_el, hseg, segStarts_row _ hvl]
  change (g.setEl _ r 0 (reduce _ _ _ (reduceLeaves h gd _ _ r 0 h.vl)).1, (reduce _ _ _ (reduceLeaves h gd _ _ r 0 h.vl)).2) = _
  rw [hleaves, hv]

/-- An integer sum of an item. -/
theorem reduceVec_el_sum (hop : (reduceOp op).1 = 0) (hint : tyFloat (h.apt apd).ty = false) :
    let st := segStarts (h.getK (apb.toNat % 8)) (reduceOp op).2 h.vl
    let lo := st.getD j 0
    let hi := st.getD (j + 1) h.vl
    ∃ v, (reduceVec ⟨op, apd, apa, apb⟩ gd h).el h g r j = (g.setEl (h.apt apd) r j v, 0) ∧
      (v : Int) = (((List.range h.vl).filter (fun e => decide (lo ≤ e) && decide (e < hi) && h.guardBit gd e)).map
        (fun e => intVal (h.apt apa).ty (h.getEl (h.apt apa) r e))).sum % (2 ^ tyWidth (h.apt apd).ty : Nat) := by
  intro st lo hi
  obtain ⟨v, hv, hsum⟩ := reduce_sum hint (h.mode 0xc01) (h.guardBit gd) (fun e => intVal (h.apt apa).ty (h.getEl (h.apt apa) r e))
    (List.range' lo (hi - lo))
  have hleaves : reduce (h.apt apd).ty (reduceOp op).1 (h.mode 0xc01) (reduceLeaves h gd (h.apt apd).ty (h.apt apa) r lo hi) = (v, 0) := by
    rw [hop, reduceLeaves, ← hv]
    congr 1
    refine List.map_congr_left (fun e _ => ?_)
    rw [leafOf_int hint]
  refine ⟨v, ?_, ?_⟩
  · rw [reduceVec_el]
    change (g.setEl _ r j (reduce _ _ _ (reduceLeaves h gd _ _ r lo hi)).1, (reduce _ _ _ (reduceLeaves h gd _ _ r lo hi)).2) = _
    rw [hleaves]
  · rw [filter_range_between (segStarts_getD_le _ _ _ _)]
    exact hsum

end

end Sys2Proof.Machine
end

section
/-! The attention chain on elements: products against 1, the running maximum, and the factor 1 (R173 to R180). -/

namespace Sys2Proof.Machine

open Sys2Proof

/-! ### Scores (R177) -/

/-- A finite bf16 value times 1 in f32. -/
theorem f32_round_bf16_mul_one {a : Nat} (ha : a < 2 ^ 16) {x : Ex} (hx : bf16.decode a = .fin x) (hnz : x.m ≠ 0) (mode : Nat) :
    (fProd (bf16.decode a) (bf16.decode 0x3f80)).round f32 mode = (a * 2 ^ 16, 0) := by
  obtain ⟨neg, ef, fr, hef, hfr, rfl, rfl⟩ := Fmt.parts_of_fin bf16_ieee ha hx
  have hone : bf16.decode 0x3f80 = .fin ⟨false, 2 ^ 7, -7⟩ := Fmt.decode_one bf16_ieee
  have hfr' : fr * 2 ^ 16 < 2 ^ f32.fbits := by
    have : fr < 2 ^ 7 := hfr
    change fr * 2 ^ 16 < 2 ^ 23
    omega
  have hsig : f32.sig ef (fr * 2 ^ 16) = bf16.sig ef fr * 2 ^ 7 * 2 ^ 9 := by rw [f32_sig_widen]; ring
  have hexpo : bf16.expo ef + -7 = f32.expo ef + (9 : Nat) := by rw [bf16_expo]; push_cast; ring
  rw [hx, hone, fProd, bf16_parts_widen]
  change f32.round mode ⟨neg != false, bf16.sig ef fr * 2 ^ 7, bf16.expo ef + -7⟩ = _
  rw [Bool.bne_false, hexpo]
  exact Fmt.round_shiftedUp hfr' f32_ieee hef mode neg (Nat.mul_ne_zero hnz (by decide)) hsig

/-- A segment of one enabled element: its score alone. -/
theorem scoreVec_el_single (h g : Hart) (gd : Guard) (apd apa apb : Ap) (r j : Nat) (hseg : h.seglen = 1) (hg : h.guardBit gd j = true) :
    (scoreVec ⟨.vscore, apd, apa, apb⟩ gd false h).el h g r j =
      (let y := (fProd ((fmtOf (h.apt apa).ty).decode (h.getEl (h.apt apa) r j)) ((fmtOf (h.apt apb).ty).decode (h.getEl (h.apt apb) r j))).round f32
         (h.mode 0xc01)
       (g.setCL r j y.1, y.2)) := by
  simp only [scoreVec, hseg, Nat.mul_one, List.range_one, List.map_singleton, Nat.add_zero, hg, if_true]
  rfl

/-! ### The running maximum (R162, R178) -/

section
variable {old : Nat} (hnum : (f32.decode old).isNaN = false)
include hnum

omit hnum in
theorem FV.sig_of_number {v : FV} (hv : v.isNaN = false) : v.sig = 0 := by
  cases v with
  | nan s => cases hv
  | inf n => rfl
  | fin x => rfl

theorem fMinMax_self : fMinMax f32 true old old = (old, 0) := by
  unfold fMinMax
  simp only [hnum, ite_self, FV.sig_of_number hnum]
  rfl

/-- −∞ is no greater than any number. -/
theorem fMinMax_negInf : fMinMax f32 true old (f32.infBits true) = (old, 0) := by
  have hless : ((f32.decode old).lt (.inf true) || ((f32.decode old).eq (.inf true) && (f32.decode old).neg && !FV.neg (.inf true))) = false := by
    cases hv : f32.decode old with
    | nan s => simp [FV.lt, FV.eq]
    | inf n => cases n <;> rfl
    | fin x => rfl
  unfold fMinMax
  simp only [Fmt.decode_infBits f32_ieee, hnum, hless, FV.sig_of_number hnum]
  rfl

/-- The maximum of leaves that all hold one number is the number, and −∞ where there is none. -/
theorem reduce_max_constant (mode : Nat) (p : Nat → Bool) (es : List Nat) (x : Nat → Nat) (hx : ∀ e ∈ es, p e = true → x e = old) :
    let r := reduce 8 1 mode (es.map (fun e => if p e then some (x e, (0 : Flags)) else none))
    r = (old, 0) ∨ r = (f32.infBits true, 0) := by
  have h := reduce_of_leaves (R := fun _ r => r = (old, 0)) (ty := 8) (op := 1) (mode := mode) (p := p) (leaf := fun e => (x e, 0))
    (fun _ _ a b ha hb => ?_) es (fun e he hp => by rw [hx e he hp])
  · exact h.imp id And.right
  · have hmax : redOp 8 1 mode a b = ((fMinMax f32 true a.1 b.1).1, a.2 ||| b.2 ||| (fMinMax f32 true a.1 b.1).2) := rfl
    rw [hmax, ha, hb, fMinMax_self hnum, BitVec.or_self, BitVec.or_self]

theorem segrEl_same (h g : Hart) (d : Apt) (j : Nat) (hold : h.getEl d 0 j = old)
    (hsame : ∀ r, r < h.rc → h.km.getLsbD r = true → h.getCL r j = old) :
    segrEl h d h g j = ((g.setEl d 0 j old).setEl d 0 (2 * h.heads + j) 0x3f800000, 0) := by
  have hmax := reduce_max_constant hnum 0 (fun r => h.km.getLsbD r) (List.range h.rc) (fun r => h.getCL r j)
    (fun r hr => hsame r (List.mem_range.mp hr))
  unfold segrEl
  dsimp only at hmax ⊢
  rw [hold]
  obtain hr | hr := hmax
  · rw [hr, fMinMax_self hnum, hnum]
    simp
  · rw [hr, fMinMax_negInf hnum, hnum]
    simp

end

/-! ### The exponential at the maximum (R179) -/

theorem Ex.add_negate_m (y : Ex) (mode : Nat) : (y.add y.negate mode).m = 0 := by
  have hat : y.negate.at (min y.e y.negate.e) = -y.at (min y.e y.negate.e) := by
    unfold Ex.at Ex.negate
    cases y.neg <;> simp
  have hsum : y.at (min y.e y.negate.e) + y.negate.at (min y.e y.negate.e) = 0 := by rw [hat, Int.add_right_neg]
  rw [Ex.add, if_pos hsum]

theorem expScore_maximum (h : Hart) {s : Nat} {y : Ex} (hs : f32.decode s = .fin y) : expScore h s s = (0x3f800000, 0) := by
  have hm : (h.tauEx.mul (y.add y.negate 0)).m = 0 := by rw [Ex.mul, Ex.add_negate_m, Nat.mul_zero]
  have hexp : expDiff h.tauEx (.fin y) (.fin y) = f32.round 0 (h.tauEx.mul (y.add y.negate 0)).exp := rfl
  have hscore : expScore h s s = expDiff h.tauEx (.fin y) (.fin y) := by
    rw [expScore, hs]
    rfl
  rw [hscore, hexp, Ex.exp, if_pos hm]
  decide

theorem expScore_negInf (h : Hart) (m : Nat) : expScore h 0xff800000 m = (0, 0) := by
  have hinf : f32.decode 0xff800000 = .inf true := Fmt.decode_infBits f32_ieee true
  rw [expScore, hinf]
  rfl

/-! ### The accumulation with the factor 1 (R180) -/

/-- A finite f32 number times 1, plus a zero, is rounded to itself. -/
theorem fProdAdd_one_zero {a : Nat} (ha : a < 2 ^ 32) {x : Ex} (hx : f32.decode a = .fin x) (hnz : x.m ≠ 0) (mode : Nat) :
    fProdAdd f32 mode (fProd (f32.decode 0x3f800000) (f32.decode a)) (f32.decode 0) = (a, 0) := by
  have hone : f32.decode 0x3f800000 = .fin ⟨false, 2 ^ 23, -23⟩ := Fmt.decode_one f32_ieee
  have hprod : (⟨false, 2 ^ 23, -23⟩ : Ex).mul x = ⟨x.neg, x.m * 2 ^ 23, x.e - 23⟩ := by
    rw [Ex.mul, Bool.false_bne, Nat.mul_comm]
    congr 1
    ring
  rw [hx, hone, Fmt.decode_zero f32_ieee, fProd, hprod]
  change f32.round mode (Ex.add _ _ mode) = _
  rw [Ex.add_zero (Nat.mul_ne_zero hnz (by decide)) rfl]
  have hround := Fmt.round_same f32_ieee mode ha hx hnz (23 + (x.e - 23 - min (x.e - 23) (f32.expo 0)).toNat)
  rw [Nat.pow_add, ← Nat.mul_assoc, Nat.cast_add, ← sub_sub] at hround
  exact hround

theorem reduce_no_leaf (ty op mode : Nat) {p : Nat → Bool} (leaf : Nat → Nat × Flags) {es : List Nat} (hoff : ∀ e ∈ es, p e = false) :
    reduce ty op mode (es.map (fun e => if p e then some (leaf e) else none)) = (redId ty op, 0) := by
  have hr := reduce_of_leaves (R := fun (_ : List Nat) _ => False) (ty := ty) (op := op) (mode := mode) (p := p) (leaf := leaf)
    (fun _ _ _ _ ha _ => ha) es (fun e he hp => Bool.false_ne_true ((hoff e he).symm.trans hp))
  exact (hr.resolve_left id).2

/-- With no enabled row nothing is added to an output but its own product with the factor. -/
theorem waccVec_el_off (h g : Hart) (gd : Guard) (apd apa apb : Ap) (j : Nat) (hoff : ∀ r, r < h.rc → h.km.getLsbD r = false) {v : Nat}
    (hv : fProdAdd f32 (h.mode 0xc01) (fProd (f32.decode (h.getEl (h.apt apa) 0 (2 * h.heads + j / h.seglen))) (f32.decode (h.getEl (h.apt apd) 0 j)))
      (f32.decode 0) = (v, 0)) :
    (waccVec ⟨.vwacc, apd, apa, apb⟩ gd h).el h g 0 j = (g.setEl (h.apt apd) 0 j v, 0) := by
  have hsum := reduce_no_leaf 8 0 (h.mode 0xc01) (p := fun r => h.km.getLsbD r)
    (fun r => (fProd (f32.decode (h.getCL r (j / h.seglen))) ((fmtOf (h.apt apb).ty).decode (h.getEl (h.apt apb) r j))).round f32 (h.mode 0xc01))
    (es := List.range h.rc) (fun r hr => hoff r (List.mem_range.mp hr))
  have hid : redId 8 0 = 0 := rfl
  unfold waccVec
  dsimp only
  rw [hsum, hid, hv]
  dsimp only
  rw [BitVec.or_self]

end Sys2Proof.Machine

namespace Sys2Proof.Proofs

open Sys2Proof Sys2Proof.Machine

/-- Settles O43: the integer reductions by what the tree keeps of its leaves, the chain because a number times 1 and a number plus zero are
rounded to themselves. -/
theorem reductionAndChainElements : Obligations.ReductionAndChainElements := by
  unfold Obligations.ReductionAndChainElements
  intro h g gd apd apa apb r j d a b
  refine ⟨?_, ?_, ?_, rfl, rfl, ?_, ?_, ?_⟩
  · intro op seg hop htypes starts _ lo hi
    simp only [List.mem_cons, List.not_mem_nil, or_false, Prod.mk.injEq] at hop
    have hmem : op ∈ [AOp.vredsum, .vwredsum, .vsredsum, .vswredsum] := by
      obtain ⟨rfl, -⟩ | ⟨rfl, -⟩ | ⟨rfl, -⟩ | ⟨rfl, -⟩ := hop <;> decide
    have hint := tyFloat_of_int (reduceTypes_sum hmem htypes)
    have hseg : reduceOp op = (0, seg) := by
      obtain ⟨rfl, rfl⟩ | ⟨rfl, rfl⟩ | ⟨rfl, rfl⟩ | ⟨rfl, rfl⟩ := hop <;> rfl
    have hsum := reduceVec_el_sum h g gd op apd apa apb r j (by rw [hseg]) hint
    rw [hseg] at hsum
    exact hsum
  · intro hvl hd hty on x red
    have hint := tyFloat_of_int hd
    have hel (op : AOp) (hseg : (reduceOp op).2 = false) {v : Nat} (hv : reduce d.ty (reduceOp op).1 (h.mode 0xc01)
        ((List.range h.vl).map (fun e => if h.guardBit gd e then some (x e, 0) else none)) = (v, 0)) : red op v :=
      reduceVec_el_row h g gd op apd apa apb r hseg hvl hint hty hv
    obtain ⟨vmax, hmax, hmax'⟩ := reduce_max hint (h.mode 0xc01) (h.guardBit gd) x (List.range h.vl)
    obtain ⟨vmin, hmin, hmin'⟩ := reduce_min hint (h.mode 0xc01) (h.guardBit gd) x (List.range h.vl)
    obtain ⟨vand, hand, hand'⟩ := reduce_and hint (h.mode 0xc01) (h.guardBit gd) x (List.range h.vl)
    obtain ⟨vor, hor, hor'⟩ := reduce_or hint (h.mode 0xc01) (h.guardBit gd) x (List.range h.vl)
    obtain ⟨vxor, hxor, hxor'⟩ := reduce_xor hint (h.mode 0xc01) (h.guardBit gd) x (List.range h.vl)
    exact ⟨⟨vmax, hel .vredmax rfl hmax, hmax'⟩, ⟨vmin, hel .vredmin rfl hmin, hmin'⟩, ⟨vand, hel .vredand rfl hand, hand'⟩,
      ⟨vor, hel .vredor rfl hor, hor'⟩, ⟨vxor, hel .vredxor rfl hxor, hxor'⟩⟩
  · intro hseg ha hb hg hone y hy hnz
    have hlt : h.getEl a r j < 2 ^ 16 := (congrArg (fun ty => 2 ^ tyWidth ty) ha : _ = 2 ^ 16) ▸ h.getEl_lt a r j
    have hround := f32_round_bf16_mul_one hlt hy hnz (h.mode 0xc01)
    have hfa : fmtOf a.ty = bf16 := congrArg fmtOf ha
    have hfb : fmtOf b.ty = bf16 := congrArg fmtOf hb
    rw [scoreVec_el_single h g gd apd apa apb r j hseg hg, hfa, hfb, hone, hround]
  · intro old hnum hsame
    exact segrEl_same hnum h g d j rfl hsame
  · intro s y hs
    exact ⟨expScore_maximum h hs, expScore_negInf h s⟩
  · intro hoff hfactor y hy hnz
    have hwidth : tyWidth d.ty ≤ 32 := by
      unfold tyWidth
      split <;> decide
    have hlt : h.getEl d 0 j < 2 ^ 32 := (h.getEl_lt d 0 j).trans_le (Nat.pow_le_pow_right two_pos hwidth)
    exact waccVec_el_off h g gd apd apa apb j hoff (hfactor ▸ fProdAdd_one_zero hlt hy hnz (h.mode 0xc01))

end Sys2Proof.Proofs
end

section
/-! The transit engine's instructions (R100, R254 to R261, R263). -/

namespace Sys2Proof.Machine

open Sys2Proof

theorem State.hart?_stepOver {s : State} {h : Hart} (hs : s.hart? = some h) (len : Nat) :
    (s.stepOver len).hart? = some (h.commit (h.pc + BitVec.ofNat 64 len)) := State.hart?_updHart hs (Hart.commit_hid _ _)

/-! ### Entries and tiles (R254, R263, R389) -/

section
variable {s : State} {h : Hart} {n : Ap} (k : State → Hart → Exec)

theorem readEntry_invalid (hv : (h.apt n).v = false) (own : Option TrapRec) :
    readEntry s h n own k = .trap s { code := 0x1110, tap := some n.toNat } := by
  unfold readEntry
  rw [hv]
  rfl

theorem readEntry_own (hv : (h.apt n).v = true) (r : TrapRec) : readEntry s h n (some r) k = .trap s r := by
  rw [readEntry, hv]
  rfl

theorem readEntry_reads (hv : (h.apt n).v = true) (hb : (h.apt n).sb = false) (hab : h.absent [h.apt n] = none) :
    readEntry s h n none k = k s h := by
  rw [readEntry, hv, Hart.streamFault_unbound hb]
  exact withPlates_present hab

end

section
variable {s : State} {h : Hart} {g : Gang} (hs : s.hart? = some h) (hg : s.gangOf h = some g)
include hg

theorem onTile_missing {n : BitVec 3} (ht : g.tiles[n.toNat]? = none) (f : Gang → Tile → Exec) : onTile n s h f = .trap s { code := 0x1130 } := by
  rw [onTile, hg]
  dsimp only [Gang.tile?]
  rw [ht]
  rfl

theorem onTile_held {n : BitVec 3} {ti : Tile} (ht : g.tiles[n.toNat]? = some ti) (f : Gang → Tile → Exec) : onTile n s h f = f g ti := by
  rw [onTile, hg]
  dsimp only [Gang.tile?]
  rw [ht]

include hs

theorem transit_missing {n : BitVec 3} (ht : g.tiles[n.toNat]? = none) (f : Hart → Gang → Tile → Exec) :
    transit n s f = .next (s.takeTrap { code := 0x1130 }) := by
  rw [transit, onHart_eq hs, onTile_missing hg ht, Exec.outcome_trap]

theorem transit_full {n : BitVec 3} {ti : Tile} (ht : g.tiles[n.toNat]? = some ti) (hroom : s.transitRoom h = false)
    (f : Hart → Gang → Tile → Exec) : transit n s f = .next s := by
  rw [transit, onHart_eq hs, onTile_held hg ht, hroom]
  rfl

theorem transit_runs {n : BitVec 3} {ti : Tile} (ht : g.tiles[n.toNat]? = some ti) (hroom : s.transitRoom h = true)
    (f : Hart → Gang → Tile → Exec) : transit n s f = (f h g ti).outcome 8 := by
  rw [transit, onHart_eq hs, onTile_held hg ht, hroom]
  rfl

end

/-- What an instruction that takes effect on a tile does to gangs, memory and its core's queue: the tile is replaced, and one entry is
made (R254, R263). -/
def State.EntersTile (s : State) (h : Hart) (g : Gang) (n : Nat) (u : State) (kind : TransitKind) (ti : Tile) : Prop :=
  (∃ g', u.gangAt h.q h.slot = some g' ∧ g' = { g with tiles := g'.tiles } ∧ ∀ k, g'.tiles[k]? = if k = n then some ti else g.tiles[k]?) ∧
  u.mem = s.mem ∧
  ∃ j, (u.coreAt h.q).transit = (s.coreAt h.q).transit ++ [j] ∧ j.kind = kind ∧ j.tile = n ∧ j.job.hid = h.hid ∧ j.job.slot = h.slot

section
variable {s : State} {h : Hart} {g : Gang} {n : Nat} {ti : Tile} (hg : s.gangOf h = some g) (ht : g.tiles[n]? = some ti) (f : Tile → Tile)
  (kind : TransitKind) (ops : List SweptAp) (count port : Nat)
include hg ht

theorem State.entersTile_enqueue : s.EntersTile h g n ((s.updTile g n f).enqueue h kind ops n count port) kind (f ti) := by
  obtain ⟨hcore, hslot⟩ := State.gangAt_place hg
  have hgang : ((s.updTile g n f).enqueue h kind ops n count port).gangAt h.q h.slot = some { g with tiles := g.tiles.modify n f } :=
    State.gangAt_setGang (g' := { g with tiles := g.tiles.modify n f }) hg hcore hslot
  refine ⟨⟨_, hgang, rfl, fun k => ?_⟩, rfl, ?_⟩
  · rw [List.getElem?_modify]
    by_cases hk : n = k
    · subst hk
      simp [ht]
    · rw [if_neg (Ne.symm hk)]
      simp [hk]
  · have hcoreAt : (s.updTile g n f).coreAt h.q = s.coreAt h.q := rfl
    rw [State.enqueue, Laws.coreAt_updCore _ _ _ _ (by simp), if_pos rfl, hcoreAt]
    exact ⟨_, rfl, rfl, rfl, rfl, rfl⟩

end

/-- It holds of what its hart's registers are afterwards as well. -/
theorem State.EntersTile.updHart {s u : State} {h : Hart} {g : Gang} {n : Nat} {kind : TransitKind} {ti : Tile}
    (hu : s.EntersTile h g n u kind ti) (f : Hart → Hart) : s.EntersTile h g n (u.updHart f) kind ti := hu

/-! ### `tzero` and `tload` (R258, R260) -/

section
variable {s : State} {h : Hart} {g : Gang} {t : BitVec 3} {ti : Tile} (hs : s.hart? = some h) (hg : s.gangOf h = some g)
  (ht : g.tiles[t.toNat]? = some ti) (hroom : s.transitRoom h = true)
include hs hg ht hroom

theorem exec_tzero : ∃ u, exec (.tzero t) s = .next u ∧ s.EntersTile h g t.toNat u .zero { ti with bank := [] } ∧
    u.hart? = some (h.commit (h.pc + 8)) :=
  ⟨_, transit_runs hs hg ht hroom _, (State.entersTile_enqueue hg ht (fun x => { x with bank := [] }) .zero [] 0 0).updHart _,
    State.hart?_stepOver (s := (s.updTile g t.toNat _).enqueue h .zero [] t.toNat 0 0) hs 8⟩

/-- `tload` and what its entry comes to. -/
theorem exec_tload (ap : Ap) : exec (.tload t ap) s = (readEntry s h ap (tloadFault h ap) (fun s h =>
    match s.gangOf h with
    | none => .wait s
    | some g =>
      .done ((s.updTile g t.toNat (fun x => x.load h (h.apt ap) h.shapeK h.shapeN)).enqueue h .load
        [⟨h.ap.get ap.toNat, false, h.shapeK, h.shapeN, true⟩] t.toNat 0 (portCycles (h.apt ap) h.shapeK h.shapeN)))).outcome 8 :=
  transit_runs hs hg ht hroom _

theorem exec_tload_invalid {ap : Ap} (hv : (h.apt ap).v = false) :
    exec (.tload t ap) s = .next (s.takeTrap { code := 0x1110, tap := some ap.toNat }) := by
  rw [exec_tload hs hg ht hroom, readEntry_invalid _ hv, Exec.outcome_trap]

theorem exec_tload_fault {ap : Ap} (hv : (h.apt ap).v = true) {r : TrapRec} (hr : tloadFault h ap = some r) :
    exec (.tload t ap) s = .next (s.takeTrap r) := by
  rw [exec_tload hs hg ht hroom, hr, readEntry_own _ hv, Exec.outcome_trap]

theorem exec_tload_loads {ap : Ap} (hv : (h.apt ap).v = true) (hr : tloadFault h ap = none) (hb : (h.apt ap).sb = false)
    (hab : h.absent [h.apt ap] = none) :
    ∃ u, exec (.tload t ap) s = .next u ∧ s.EntersTile h g t.toNat u .load (ti.load h (h.apt ap) h.shapeK h.shapeN) ∧
      u.hart? = some (h.commit (h.pc + 8)) := by
  rw [exec_tload hs hg ht hroom, hr, readEntry_reads _ hv hb hab, hg]
  exact ⟨_, rfl, (State.entersTile_enqueue hg ht (fun x => x.load h (h.apt ap) h.shapeK h.shapeN) .load _ 0 _).updHart _,
    State.hart?_stepOver (s := (s.updTile g t.toNat _).enqueue h .load _ t.toNat 0 _) hs 8⟩

end

section
variable {h : Hart} {ap : Ap}

/-- The shape of the entry covers K × N elements. -/
theorem tloadFault_cover (hc : ¬ ((h.shapeK ≤ (h.apt ap).hl ∨ (h.apt ap).bc = true) ∧ h.shapeN ≤ (h.apt ap).e)) :
    tloadFault h ap = some { code := 0x1111, tap := some ap.toNat } := by
  have hcover : ((decide (h.shapeK ≤ (h.apt ap).hl) || (h.apt ap).bc) && decide (h.shapeN ≤ (h.apt ap).e)) = false :=
    Bool.eq_false_iff.mpr (by simpa using hc)
  refine if_pos ?_
  rw [hcover]
  rfl

theorem tloadFault_covered (hrows : h.shapeK ≤ (h.apt ap).hl ∨ (h.apt ap).bc = true) (hcols : h.shapeN ≤ (h.apt ap).e) :
    tloadFault h ap = if 1 < (h.apt ap).kind ∨ !tileType (h.apt ap).ty then some { code := 0x1131, tap := some ap.toNat }
      else if h.shapeK = 0 then some { code := 0x1131 } else none := by
  have hcover : ((decide (h.shapeK ≤ (h.apt ap).hl) || (h.apt ap).bc) && decide (h.shapeN ≤ (h.apt ap).e)) = true := by
    simp [hrows, hcols]
  refine if_neg ?_
  rw [hcover]
  decide

theorem tileType_iff (ty : Nat) : tileType ty = true ↔ ty ∈ [7, 8, 9, 10] := by
  simp only [tileType, Bool.or_eq_true, decide_eq_true_eq, List.mem_cons, List.not_mem_nil, or_false]
  omega

theorem not_tileType_iff (ty : Nat) : (!tileType ty) = true ↔ ty ∉ [7, 8, 9, 10] := by
  rw [← tileType_iff, Bool.not_eq_true', Bool.not_eq_true]

end

/-! ### The elements of a tile loaded (R258) -/

theorem SMap.get_eq_zero {w : Nat} : ∀ {l : SMap w} {k : Nat}, (∀ p ∈ l, p.1 ≠ k) → SMap.get l k = 0
  | [], _, _ => rfl
  | (a, v) :: l, k, h => by
    rw [SMap.get, if_neg (h (a, v) List.mem_cons_self)]
    exact SMap.get_eq_zero (fun p hp => h p (List.mem_cons_of_mem _ hp))

/-- A key that is listed with one value alone. -/
theorem SMap.get_eq_of_mem {w : Nat} {v : BitVec w} : ∀ {l : SMap w} {k : Nat}, (k, v) ∈ l → (∀ p ∈ l, p.1 = k → p.2 = v) → SMap.get l k = v
  | (a, u) :: l, k, hmem, hone => by
    rw [SMap.get]
    by_cases ha : a = k
    · rw [if_pos ha]
      exact hone (a, u) List.mem_cons_self ha
    · rw [if_neg ha]
      refine SMap.get_eq_of_mem ((List.mem_cons.mp hmem).resolve_left (fun e => ha ?_)) (fun p hp => hone p (List.mem_cons_of_mem _ hp))
      cases e
      rfl

theorem Hart.getEl_lt_32 (h : Hart) (a : Apt) (r e : Nat) : h.getEl a r e < 2 ^ 32 := by
  have hwidth : tyWidth a.ty ≤ 32 := by
    unfold tyWidth
    split <;> decide
  exact (h.getEl_lt a r e).trans_le (Nat.pow_le_pow_right two_pos hwidth)

theorem Tile.elem_load (t : Tile) (h : Hart) (a : Apt) {k n r c : Nat} (hr : r < k) (hc : c < n) (hn : n ≤ 64) :
    (t.load h a k n).elem r c = h.getEl a r c := by
  let els : SMap 32 := ((List.range k).map (fun r => (List.range n).map (fun c => (64 * r + c, BitVec.ofNat 32 (h.getEl a r c))))).flatten
  have hlisted (p : Nat × BitVec 32) : p ∈ els ↔ ∃ r' < k, ∃ c' < n, (64 * r' + c', BitVec.ofNat 32 (h.getEl a r' c')) = p := by
    simp [els]
  have hone (p : Nat × BitVec 32) (hp : p ∈ els) (hkey : p.1 = 64 * r + c) : p.2 = BitVec.ofNat 32 (h.getEl a r c) := by
    obtain ⟨r', _, c', hc', rfl⟩ := (hlisted p).mp hp
    dsimp only at hkey
    obtain rfl : r' = r := by omega
    obtain rfl : c' = c := by omega
    rfl
  have hget : SMap.get (els.filter (fun x => decide (x.2 ≠ 0))) (64 * r + c) = BitVec.ofNat 32 (h.getEl a r c) := by
    by_cases hz : BitVec.ofNat 32 (h.getEl a r c) = 0
    · rw [hz]
      refine SMap.get_eq_zero (fun p hp hkey => ?_)
      obtain ⟨hmem, hnz⟩ := List.mem_filter.mp hp
      exact of_decide_eq_true hnz ((hone p hmem hkey).trans hz)
    · exact SMap.get_eq_of_mem (List.mem_filter.mpr ⟨(hlisted _).mpr ⟨r, hr, c, hc, rfl⟩, decide_eq_true hz⟩)
        (fun p hp => hone p (List.mem_of_mem_filter hp))
  change (SMap.get (els.filter (fun x => decide (x.2 ≠ 0))) (64 * r + c)).toNat = _
  rw [hget, BitVec.toNat_ofNat, Nat.mod_eq_of_lt (h.getEl_lt_32 a r c)]

/-! ### `tmac` (R100, R259) -/

/-- The columns of a `tmac`, with their flags. -/
def macColumns (h : Hart) (ap : Ap) (ti : Tile) (m : Nat) : List (Nat × Flags) :=
  (List.range ti.cols).map (fun c => ti.macEl (h.apt ap).ty m ((List.range ti.rows).map (fun k => h.getEl (h.apt ap) m k)) c)

/-- The flags that the columns raise. -/
def macFlags (h : Hart) (ap : Ap) (ti : Tile) (m : Nat) : Flags := (macColumns h ap ti m).foldl (fun (f : Flags) x => f ||| x.2) 0

/-- A tile with row m of its bank accumulated. -/
def Tile.accumulated (ti : Tile) (h : Hart) (ap : Ap) (m : Nat) : Tile :=
  { ti with bank := ti.bank.setAll (64 * m) ((macColumns h ap ti m).map (fun v => BitVec.ofNat 32 v.1)) }

section
variable {s : State} {h : Hart} {g : Gang} {t : BitVec 3} {ti : Tile} (hs : s.hart? = some h) (hg : s.gangOf h = some g)
  (ht : g.tiles[t.toNat]? = some ti) (hroom : s.transitRoom h = true)
include hs hg ht hroom

theorem exec_tmac_fault {ap : Ap} (xr : XReg) (hv : (h.apt ap).v = true) {r : TrapRec}
    (hr : tmacFault h ap ti ((h.getX xr).toNat % 256) = some r) : exec (.tmac t ap xr) s = .next (s.takeTrap r) := by
  change transit t s _ = _
  rw [transit_runs hs hg ht hroom]
  dsimp only
  rw [hr, readEntry_own _ hv, Exec.outcome_trap]

section
variable {ap : Ap} (xr : XReg) (hv : (h.apt ap).v = true) (hr : tmacFault h ap ti ((h.getX xr).toNat % 256) = none)
  (hb : (h.apt ap).sb = false) (hab : h.absent [h.apt ap] = none)
include hv hr hb hab

theorem exec_tmac_reads : exec (.tmac t ap xr) s =
    ((match trapFlag h.fen (macFlags h ap ti ((h.getX xr).toNat % 256)) with
      | some b => .trap (s.setHart (h.orFlags (flagBit b))) { code := 0x2000 + b, tap := some ap.toNat }
      | none => .done (((s.updTile g t.toNat (fun x =>
          { x with bank := x.bank.setAll (64 * ((h.getX xr).toNat % 256)) ((macColumns h ap ti ((h.getX xr).toNat % 256)).map (fun v => BitVec.ofNat 32 v.1)) })).enqueue
            h (macKind (h.apt ap).ty) [⟨h.ap.get ap.toNat, false, 1, ti.rows, true⟩] t.toNat 0 0).setHart
              (h.orFlags (macFlags h ap ti ((h.getX xr).toNat % 256)))) : Exec)).outcome 8 := by
  change transit t s _ = _
  rw [transit_runs hs hg ht hroom]
  dsimp only
  rw [hr, readEntry_reads _ hv hb hab, hg]
  rfl

theorem exec_tmac_stops {b : Nat} (hfl : trapFlag h.fen (macFlags h ap ti ((h.getX xr).toNat % 256)) = some b) : exec (.tmac t ap xr) s =
    .next ((s.setHart (h.orFlags (1#6 <<< b))).takeTrap { code := 0x2000 + b, tap := some ap.toNat }) := by
  rw [exec_tmac_reads hs hg ht hroom xr hv hr hb hab, hfl]
  rfl

theorem exec_tmac_accumulates (hfl : trapFlag h.fen (macFlags h ap ti ((h.getX xr).toNat % 256)) = none) :
    ∃ u, exec (.tmac t ap xr) s = .next u ∧
      s.EntersTile h g t.toNat u (macKind (h.apt ap).ty) (ti.accumulated h ap ((h.getX xr).toNat % 256)) ∧
      u.hart? = some ((h.orFlags (macFlags h ap ti ((h.getX xr).toNat % 256))).commit (h.pc + 8)) := by
  rw [exec_tmac_reads hs hg ht hroom xr hv hr hb hab, hfl]
  refine ⟨_, rfl, ((State.entersTile_enqueue hg ht _ _ _ 0 0).updHart _).updHart _, ?_⟩
  exact State.hart?_stepOver (State.hart?_setHart (s := (s.updTile g t.toNat _).enqueue h _ _ t.toNat 0 0)
    (g := h.orFlags (macFlags h ap ti ((h.getX xr).toNat % 256))) hs rfl) 8

end

end

/-- The bank of an accumulated tile: the columns in row m, every other element as before. -/
theorem Tile.acc_accumulated (ti : Tile) (h : Hart) (ap : Ap) (m : Nat) (hcols : ti.cols ≤ 64) (r : Nat) {c : Nat} (hc : c < 64) :
    (ti.accumulated h ap m).acc r c = if r = m ∧ c < ti.cols then
      (ti.macEl (h.apt ap).ty m ((List.range ti.rows).map (fun k => h.getEl (h.apt ap) m k)) c).1 % 2 ^ 32 else ti.acc r c := by
  change (SMap.get (SMap.setAll ti.bank _ _) (64 * r + c)).toNat = _
  rw [SMap.get_setAll, List.length_map, macColumns, List.length_map, List.length_range]
  by_cases hrow : r = m ∧ c < ti.cols
  · obtain ⟨rfl, hlt⟩ := hrow
    rw [if_pos (by omega), if_pos ⟨rfl, hlt⟩, Nat.add_sub_cancel_left]
    simp [hlt]
  · rw [if_neg (by omega), if_neg hrow]
    rfl

/-- The integer products of a row with a column (R100). -/
theorem Tile.macEl_integer (ti : Tile) (h : Hart) (a : Apt) (m c : Nat) :
    (ti.macEl 10 m ((List.range ti.rows).map (fun k => h.getEl a m k)) c).1 % 2 ^ 32 =
      ((ti.acc m c + ((List.range ti.rows).map (fun k => sext (h.getEl a m k) 4 * sext (ti.elem k c) 4)).sum) % 2 ^ 32).toNat := by
  have hrow : (List.range ti.rows).map (fun k => sext (((List.range ti.rows).map (fun k => h.getEl a m k)).getD k 0) 4 * sext (ti.elem k c) 4) =
      (List.range ti.rows).map (fun k => sext (h.getEl a m k) 4 * sext (ti.elem k c) 4) := by
    refine List.map_congr_left (fun k hk => ?_)
    have hlt := List.mem_range.mp hk
    simp [hlt]
  rw [Tile.macEl, if_pos rfl, hrow]
  exact Nat.mod_eq_of_lt (wrap_lt 32 _)

end Sys2Proof.Machine
end

section
/-! `tdrain` as a sweep that goes by the dispatch gate (R261, R263, R328), and the transit instructions' statement. -/

namespace Sys2Proof.Machine

open Sys2Proof

/-! ### Instructions that are no links of a drain chain (R262) -/

theorem Hart.nextLink_none (h : Hart) {j : Job} (hj : j.link = false) : h.nextLink j = none := by
  unfold Hart.nextLink
  dsimp only
  rw [hj]
  cases h.drain <;> rfl

section
variable {v : Hart → Vec} {s : State} {h : Hart} (hl : (v h).link = false)
include hl

theorem Vec.entry_unlinked : Vec.entry v s h = s := by
  rw [Vec.entry, State.letDrainGo, h.nextLink_none (j := (v h).job h) hl]

theorem Vec.joins_unlinked (s : State) (cls n : Nat) : s.joins h cls n ((v h).job h) = false := by
  rw [State.joins, h.nextLink_none (j := (v h).job h) hl]

omit hl in
theorem Vec.linked_false (v : Vec) : v.linked false = v := by
  rw [Vec.linked, Bool.or_false]

/-- It runs as it is, from the state that its hart meets it in. -/
theorem Vec.run_unlinked : Vec.run v s h = (Vec.check v s h Vec.finish).settle (fun stops u => u.dispatchVec h (v h) stops) := by
  have hlinked : (fun h' => (v h').linked false) = v := funext fun h' => Vec.linked_false (v h')
  rw [Vec.run_eq, Vec.met, Vec.entry_unlinked hl, Vec.joins_unlinked hl, hlinked, Vec.linked_false]

theorem State.dispatchVec_unlinked (s : State) : s.dispatchVec h (v h) false = s.dispatch h (v h).cls (v h).charge { (v h).job h with dropped := false } := by
  unfold State.dispatchVec State.settleLink
  rw [h.nextLink_none (j := (v h).job h) hl]
  dsimp only
  rw [ite_self, Bool.false_and]

end

/-- A sweep that raises no flag. -/
theorem sweepStep_noFlags {vl : Nat} {act : Nat → Nat → Bool} {el : Hart → Nat → Nat → Hart × Flags} (hel : ∀ g r e, (el g r e).2 = 0)
    (l : List Nat) (a : Hart × Flags) : (l.foldl (sweepStep vl act el) a).2 = a.2 := by
  induction l generalizing a with
  | nil => rfl
  | cons i l ih =>
    rw [List.foldl_cons, ih, sweepStep]
    split
    · exact (congrArg (a.2 ||| ·) (hel _ _ _)).trans BitVec.or_zero
    · rfl

/-! ### One element of 32 bits read back (R66) -/

theorem Hart.getEl_congr {g h : Hart} (hbh : g.bh = h.bh) (hplane : g.plane = h.plane) (a : Apt) (r e : Nat) : g.getEl a r e = h.getEl a r e := by
  unfold Hart.getEl
  rw [hbh, hplane]

theorem Hart.getEl_setEl_32 {h : Hart} {a : Apt} (hw : tyWidth a.ty = 32) (r e : Nat) {v : Nat} (hv : v < 2 ^ 32) :
    (h.setEl a r e v).getEl a r e = v := by
  have hne : cellKey (a.cell h.bh r e) ≠ cellKey ((a.cell h.bh r e).1, ((a.cell h.bh r e).2 + 1) % 1024) := by
    have hlt : (a.cell h.bh r e).2 < 1024 := Nat.mod_lt _ (by decide)
    simp only [cellKey, ne_eq]
    omega
  have hset : h.setEl a r e v = (h.putCell (a.cell h.bh r e) (BitVec.ofNat 16 v)).putCell
      ((a.cell h.bh r e).1, ((a.cell h.bh r e).2 + 1) % 1024) (BitVec.ofNat 16 (v / 65536)) := by
    unfold Hart.setEl
    rw [hw]
    rfl
  have hget (g : Hart) : g.getEl a r e = (g.plane.get (cellKey (a.cell g.bh r e))).toNat +
      (g.plane.get (cellKey ((a.cell g.bh r e).1, ((a.cell g.bh r e).2 + 1) % 1024))).toNat * 65536 := by
    unfold Hart.getEl
    rw [hw]
    rfl
  rw [hset, hget]
  simp only [Hart.putCell]
  rw [SMap.get_set_ne _ _ hne, SMap.get_set_self, SMap.get_set_self, BitVec.toNat_ofNat, BitVec.toNat_ofNat]
  omega

/-! ### `tdrain` (R261) -/

section
variable {s : State} {h : Hart} {g : Gang} {t : BitVec 3} {ti : Tile} {kg : KReg} {ks : Bool} {ap : Ap} {xr : XReg}

theorem tdrainVec_streamed (gd : Guard) (n : Nat) : (tdrainVec gd ap n ti xr h).streamed h = false := rfl

theorem tdrainVec_first (gd : Guard) (n : Nat) : (tdrainVec gd ap n ti xr h).first h = 0 := by
  change (if h.swi = 0 then 0 else if true = true then 0 else h.swi) = 0
  rw [if_pos rfl, ite_self]

theorem tdrainVec_result (gd : Guard) (n : Nat) (s : State) :
    (tdrainVec gd ap n ti xr h).result h ((tdrainVec gd ap n ti xr h).feed s h) =
      (List.range' 0 (h.rc * h.vl)).foldl (sweepStep h.vl (h.active gd) ((tdrainVec gd ap n ti xr h).effect ⟨s, h, [], none, []⟩)) (h, 0) := by
  rw [Vec.result, tdrainVec_first, Vec.feed_unstreamed (tdrainVec_streamed gd n), Vec.fold_eq]
  rfl

theorem tdrainVec_noFlags (gd : Guard) (n : Nat) (s : State) :
    ((tdrainVec gd ap n ti xr h).result h ((tdrainVec gd ap n ti xr h).feed s h)).2 = 0 := by
  rw [tdrainVec_result]
  exact sweepStep_noFlags (fun _ _ _ => BitVec.or_self) _ _

/-- Of its hart the sweep changes cells alone. -/
theorem tdrainVec_keeps (gd : Guard) (n : Nat) : (tdrainVec gd ap n ti xr h).Keeps h (h.elementCells (some (ap, h.fullAt gd))) False False False :=
  fun _ _ r e hr he ha hx => hx.setElAt (by simp [Hart.fullAt, show r < h.rc from hr, show e < h.vl from he, show h.active gd r e = true from ha]) _

theorem tdrainVec_finish (gd : Guard) (n : Nat) (s : State) : (tdrainVec gd ap n ti xr h).finish h ((tdrainVec gd ap n ti xr h).feed s h) =
    .done (s.setHart ((tdrainVec gd ap n ti xr h).result h ((tdrainVec gd ap n ti xr h).feed s h)).1) := by
  have hresult := tdrainVec_result (h := h) (ap := ap) (ti := ti) (xr := xr) gd n s
  have hz := tdrainVec_noFlags (h := h) (ap := ap) (ti := ti) (xr := xr) gd n s
  rw [hresult] at hz ⊢
  have hok := sweep_eq_ok (fen := h.fen) (vl := h.vl) (act := h.active gd) (el := (tdrainVec gd ap n ti xr h).effect ⟨s, h, [], none, []⟩)
    (List.range' 0 (h.rc * h.vl)) h 0 (by rw [hz]; exact BitVec.and_zero)
  rw [Vec.finish, tdrainVec_first, Vec.feed_unstreamed (tdrainVec_streamed gd n)]
  change (match sweep h.fen h.vl (h.active gd) _ (List.range' 0 (h.rc * h.vl)) h 0 with
    | .ok h2 fl => _
    | .stop h2 fl i b => _) = _
  rw [hok]
  rfl

section
variable (hs : s.hart? = some h) (hg : s.gangOf h = some g) (ht : g.tiles[t.toNat]? = some ti)
include hs hg ht

theorem exec_tdrain : exec (.tdrain kg ks ap t xr) s = (Vec.run (tdrainVec ⟨kg.toNat, ks⟩ ap t.toNat ti xr) s h).outcome 8 := by
  change onHart 8 s _ = _
  rw [onHart_eq hs, onTile_held hg ht]

theorem exec_tdrain_fault {r : TrapRec} (hr : (tdrainVec ⟨kg.toNat, ks⟩ ap t.toNat ti xr h).fault? h = some r) :
    exec (.tdrain kg ks ap t xr) s = .next ((tdrainVec ⟨kg.toNat, ks⟩ ap t.toNat ti xr h).trapped h s r) := by
  rw [exec_tdrain hs hg ht, Vec.run_unlinked rfl, Vec.check, hr]
  rfl

theorem exec_tdrain_ready (hr : (tdrainVec ⟨kg.toNat, ks⟩ ap t.toNat ti xr h).Ready s h) : exec (.tdrain kg ks ap t xr) s =
    .next (((s.setHart ((tdrainVec ⟨kg.toNat, ks⟩ ap t.toNat ti xr h).result h ((tdrainVec ⟨kg.toNat, ks⟩ ap t.toNat ti xr h).feed s h)).1).dispatch
      h 14 (h.rc * h.vl) { (tdrainVec ⟨kg.toNat, ks⟩ ap t.toNat ti xr h).job h with dropped := false }).stepOver 8) := by
  rw [exec_tdrain hs hg ht, Vec.run_unlinked rfl, Vec.check_ready hr, tdrainVec_finish]
  change Host.Outcome.next (State.stepOver (State.dispatchVec _ h (tdrainVec _ ap _ ti xr h) false) 8) = _
  rw [State.dispatchVec_unlinked (v := tdrainVec ⟨kg.toNat, ks⟩ ap t.toNat ti xr) rfl]
  rfl

end

/-- The reasons of `tmac`, by what the tile holds (R387, R389). -/
theorem tmacFault_empty {n : Ap} {m : Nat} (hty : ti.ty = none) : tmacFault h n ti m = some { code := 0x1132 } := by
  rw [tmacFault, hty]
  rfl

theorem tmacFault_typed {n : Ap} {m : Nat} {ty : BitVec 4} (hty : ti.ty = some ty) : tmacFault h n ti m =
    if (h.apt n).e < ti.rows ∨ ((!(h.apt n).bc) = true ∧ (h.apt n).hl ≤ m) then some { code := 0x1111, tap := some n.toNat }
    else if (h.apt n).ty ≠ ty.toNat then some { code := 0x1113, tap := some n.toNat } else none := by
  rw [tmacFault, hty]
  rfl

theorem tmacFault_covered {n : Ap} {m : Nat} {ty : BitVec 4} (hty : ti.ty = some ty) (hcols : ti.rows ≤ (h.apt n).e)
    (hrows : (h.apt n).bc = true ∨ m < (h.apt n).hl) :
    tmacFault h n ti m = if (h.apt n).ty ≠ ty.toNat then some { code := 0x1113, tap := some n.toNat } else none := by
  have hcover : ¬ ((h.apt n).e < ti.rows ∨ ((!(h.apt n).bc) = true ∧ (h.apt n).hl ≤ m)) := by
    refine not_or.mpr ⟨hcols.not_gt, fun ⟨hbc, hle⟩ => hrows.elim (fun h1 => ?_) (fun h1 => absurd hle h1.not_ge)⟩
    rw [h1] at hbc
    cases hbc
  exact (tmacFault_typed hty).trans (if_neg hcover)

/-- An instruction of the hart that moves, at the gate of its core. -/
theorem State.gate_dispatch (s : State) (h : Hart) (cls n : Nat) (j : Job) : ((s.dispatch h cls n j).coreAt h.q).gate =
    insertBy Job.arrives (s.gated h cls n j) (s.coreAt h.q).gate := by
  have hcore : (s.dispatch h cls n j).coreAt h.q = (s.updCore h.q (fun c =>
      { c with gate := insertBy Job.arrives (s.gated h cls n j) c.gate, jobs := c.jobs + 1 })).coreAt h.q := rfl
  rw [hcore, Laws.coreAt_updCore _ _ _ _ (by simp), if_pos rfl]

theorem State.hart?_dispatch {s : State} {g h : Hart} (hs : s.hart? = some g) (hh : h.hid = s.cur) (cls n : Nat) (j : Job) :
    (s.dispatch h cls n j).hart? = some (g.noteDrain (s.gated h cls n j)) := by
  rw [State.dispatch, hh]
  exact State.hart?_updHart (s := s.updCore h.q _) hs rfl

theorem Hart.SweptFrom.x_eq {x : Hart} {cells : Nat → Prop} {masks carries latches : Prop} (hx : h.SweptFrom cells masks carries latches x) :
    x.x = h.x := by rw [hx.frame]

theorem Hart.SweptFrom.pc_eq {x : Hart} {cells : Nat → Prop} {masks carries latches : Prop} (hx : h.SweptFrom cells masks carries latches x) :
    x.pc = h.pc := by rw [hx.frame]

/-- The registers of a hart after a sweep put into the hart that moves. -/
theorem Hart.SweptFrom.hart?_setHart {x : Hart} {cells : Nat → Prop} {masks carries latches : Prop} (hx : h.SweptFrom cells masks carries latches x)
    (hs : s.hart? = some h) : (s.setHart x).hart? = some x := by
  rw [State.hart?_setHart hs (by rw [hx.frame]), hx.frame]

/-- A `tdrain` of one active element writes its bank's element. -/
theorem tdrainVec_single (gd : Guard) (n : Nat) (s : State) (hone : h.rc * h.vl = 1) (hact : h.active gd 0 0 = true)
    (hw : tyWidth (h.apt ap).ty = 32) :
    ((tdrainVec gd ap n ti xr h).result h ((tdrainVec gd ap n ti xr h).feed s h)).1.getEl (h.apt ap) 0 0 = ti.acc ((h.getX xr).toNat % 256) 0 := by
  have hvl : h.vl = 1 := Nat.eq_one_of_mul_eq_one_left hone
  rw [tdrainVec_result, hone, hvl]
  change (sweepStep 1 (h.active gd) _ (h, 0) 0).1.getEl _ 0 0 = _
  rw [sweepStep, if_pos hact]
  change (h.setEl (h.apt ap) 0 0 (ti.acc (((h.getX xr).toNat % 256 + 0) % 256) 0)).getEl _ 0 0 = _
  rw [Nat.add_zero, Nat.mod_mod, Hart.getEl_setEl_32 hw 0 0 (v := ti.acc _ 0) (BitVec.isLt _)]

theorem Vec.Ready.typesOk {v : Vec} (hr : v.Ready s h) : v.typesOk = true := by
  have hchecks := hr.checks
  by_contra hbad
  rw [Bool.not_eq_true] at hbad
  unfold Vec.fault? Hart.sharedFault at hchecks
  rw [hbad] at hchecks
  split at hchecks
  · cases hchecks
  next hnone =>
    split at hnone
    · cases hnone
    · split at hnone
      · cases hnone
      · split at hnone <;> cases hnone

end

end Sys2Proof.Machine

namespace Sys2Proof.Proofs

open Sys2Proof Sys2Proof.Machine

/-- Settles O50: each of the first three replaces its tile and makes its entry once its checks pass; `tdrain` is a sweep that raises no flag and
is no link of a drain chain, so the gate receives it and its hart keeps all but cells. -/
theorem transitInstructions : Obligations.TransitInstructions := by
  unfold Obligations.TransitInstructions
  intro s h g t ap xr kg ks hs hg a m K N forms
  refine ⟨?_, ?_⟩
  · intro ht i hi
    simp only [forms, List.mem_cons, List.not_mem_nil, or_false] at hi
    obtain rfl | rfl | rfl | rfl := hi
    · exact transit_missing hs hg ht _
    · exact transit_missing hs hg ht _
    · exact transit_missing hs hg ht _
    · change onHart 8 s _ = _
      rw [onHart_eq hs, onTile_missing hg ht, Exec.outcome_trap]
  · intro ti ht v
    refine ⟨fun r hr => exec_tdrain_fault hs hg ht hr, fun hr => ?_, ?_, fun hroom => ⟨exec_tzero hs hg ht hroom, ?_, ?_⟩⟩
    · have hx := (tdrainVec_keeps (h := h) (ap := ap) (ti := ti) (xr := xr) ⟨kg.toNat, ks⟩ t.toNat).result (f := v.feed s h) rfl
      have hw : tyWidth a.ty = 32 := of_decide_eq_true hr.typesOk
      have hsingle := tdrainVec_single (h := h) (ap := ap) (ti := ti) (xr := xr) ⟨kg.toNat, ks⟩ t.toNat s
      have hexec := exec_tdrain_ready hs hg ht hr
      have hcur : h.hid = s.cur := State.hid_of_hart? hs
      have hat := State.hart?_stepOver (State.hart?_dispatch (hx.hart?_setHart hs) hcur 14 (h.rc * h.vl)
        { v.job h with dropped := false }) 8
      refine ⟨_, hexec, ⟨_, hat, Hart.commit_plane _ _, ?_, ?_⟩, rfl, rfl, ⟨_, State.gate_dispatch _ h 14 _ _, rfl, rfl, rfl, rfl⟩, fun hone hact h' hh' => ?_⟩
      · exact (Hart.commit_x _ _).trans hx.x_eq
      · exact (Hart.commit_pc _ _).trans (congrArg (· + 8) hx.pc_eq)
      · cases hat.symm.trans hh'
        exact (Hart.getEl_congr (Hart.commit_bh _ _) (Hart.commit_plane _ _) a 0 0).trans (hsingle hone hact hw)
    · intro hroom i hi
      simp only [List.mem_cons, List.not_mem_nil, or_false] at hi
      obtain rfl | rfl | rfl := hi
      · exact transit_full hs hg ht hroom _
      · exact transit_full hs hg ht hroom _
      · exact transit_full hs hg ht hroom _
    · refine ⟨exec_tload_invalid hs hg ht hroom, fun hv hc => exec_tload_fault hs hg ht hroom hv (tloadFault_cover hc), fun hv hrows hcols => ?_⟩
      have hfault := tloadFault_covered hrows hcols
      refine ⟨fun hkind => ?_, fun hkind hty hK => ?_, fun hkind hty hK hN hb hab => ?_⟩
      · exact exec_tload_fault hs hg ht hroom hv (hfault.trans (if_pos (hkind.imp_right (not_tileType_iff _).mpr)))
      · have hform : ¬ (1 < a.kind ∨ (!tileType a.ty) = true) := not_or.mpr ⟨hkind.not_gt, fun hn => (not_tileType_iff _).mp hn hty⟩
        exact exec_tload_fault hs hg ht hroom hv (hfault.trans ((if_neg hform).trans (if_pos hK)))
      · have hform : ¬ (1 < a.kind ∨ (!tileType a.ty) = true) := not_or.mpr ⟨hkind.not_gt, fun hn => (not_tileType_iff _).mp hn hty⟩
        obtain ⟨u, hexec, htile, hhart⟩ := exec_tload_loads hs hg ht hroom hv (hfault.trans ((if_neg hform).trans (if_neg hK.ne'))) hb hab
        exact ⟨u, _, hexec, htile, hhart, rfl, rfl, rfl, rfl, fun r c hr hc => Tile.elem_load ti h a hr hc hN⟩
    · refine ⟨fun hty hv => exec_tmac_fault hs hg ht hroom xr hv (tmacFault_empty hty), fun ty hty hv => ?_⟩
      refine ⟨fun hc => exec_tmac_fault hs hg ht hroom xr hv ((tmacFault_typed hty).trans (if_pos (by simpa using hc))), fun hcols hrows hne => ?_,
        fun hcols hrows heq hb hab hN => ?_⟩
      · exact exec_tmac_fault hs hg ht hroom xr hv ((tmacFault_covered hty hcols hrows).trans (if_pos hne))
      · have hnone : tmacFault h ap ti m = none := (tmacFault_covered hty hcols hrows).trans (if_neg (not_not.mpr heq))
        intro row fl
        refine ⟨fun b hfl => exec_tmac_stops hs hg ht hroom xr hv hnone hb hab hfl, fun hfl => ?_⟩
        obtain ⟨u, hexec, htile, hhart⟩ := exec_tmac_accumulates hs hg ht hroom xr hv hnone hb hab hfl
        refine ⟨u, _, hexec, htile, hhart, rfl, fun r c hc => ?_⟩
        rw [Tile.acc_accumulated ti h ap m hN r hc]
        refine if_congr Iff.rfl ?_ rfl
        split
        next h10 =>
          rw [show (h.apt ap).ty = 10 from h10]
          exact ti.macEl_integer h a m c
        · rfl

end Sys2Proof.Proofs
end

section
/-! The decoder reads every well-formed instruction back from its words (R105 to R119). -/

namespace Sys2Proof.Proofs

open Sys2Proof Sys2Proof.Laws

/-- Every row of the opcode table: the events, which have no words, and then each instruction by its own encoding. -/
theorem encoding_statement (i : Instr) : Encoding.Statement i := by
  cases i with
  | moduleReset | msgWrite | lqcfgWrite | waitCounterRead | placementDecision | launchComplete | lctlWrite | vectorIssue | vectorPass
  | laneGroupGate | laneGroupWake | dispatchGate | slewStep | slewCoreQuiet | transitIssue | transitOpComplete | transitGate | transitWake
  | freqreqWrite | freqRampStep | relockEnd | fstatRead | fstatWrite | cycwRead | vlRcRead | stairRegRead | stairRegWrite | xstepWrite
  | registerWrite | claimWrite | claimWindowClose | handoverRelease | handoverTransfer | ownerLinkDown | preempt | resume | kill | gangSave
  | plateFill | intpostWrite | interruptTake | migrationRequest | migrationContest | dataError | supplyLimit | resourceRemoval | gleipFlitRetry
  | gleipPortDown | abortToken | ucieModuleLoss | hostAccess | getVersion | getCapabilities | negotiateAlgorithms | getDigests | getCertificate
  | challenge | getMeasurements | unsupportedRequest | engineCommandComplete | collectiveStart | streamRunahead | pageWalk | fetch
  | translationUnitLower | lwaitReturn | wfiWake | mdasAssemble | memoryAccessPerformed | modulePowerRemoval => exact Encoding.noWords rfl
  | add rd ra rb => exact Encoding.add rd ra rb
  | sub rd ra rb => exact Encoding.sub rd ra rb
  | and rd ra rb => exact Encoding.and rd ra rb
  | or rd ra rb => exact Encoding.or rd ra rb
  | xor rd ra rb => exact Encoding.xor rd ra rb
  | andn rd ra rb => exact Encoding.andn rd ra rb
  | sll rd ra rb => exact Encoding.sll rd ra rb
  | srl rd ra rb => exact Encoding.srl rd ra rb
  | sra rd ra rb => exact Encoding.sra rd ra rb
  | slt rd ra rb => exact Encoding.slt rd ra rb
  | sltn rd ra rb => exact Encoding.sltn rd ra rb
  | min rd ra rb => exact Encoding.min rd ra rb
  | max rd ra rb => exact Encoding.max rd ra rb
  | minn rd ra rb => exact Encoding.minn rd ra rb
  | maxn rd ra rb => exact Encoding.maxn rd ra rb
  | clz rd ra => exact Encoding.clz rd ra
  | ctz rd ra => exact Encoding.ctz rd ra
  | popc rd ra => exact Encoding.popc rd ra
  | sxb rd ra => exact Encoding.sxb rd ra
  | sxh rd ra => exact Encoding.sxh rd ra
  | sxw rd ra => exact Encoding.sxw rd ra
  | zxb rd ra => exact Encoding.zxb rd ra
  | zxh rd ra => exact Encoding.zxh rd ra
  | zxw rd ra => exact Encoding.zxw rd ra
  | adds1 rd ra rb => exact Encoding.adds1 rd ra rb
  | adds2 rd ra rb => exact Encoding.adds2 rd ra rb
  | adds3 rd ra rb => exact Encoding.adds3 rd ra rb
  | sliceof rd ra => exact Encoding.sliceof rd ra
  | slli rd ra n => exact Encoding.slli rd ra n
  | srli rd ra n => exact Encoding.srli rd ra n
  | srai rd ra n => exact Encoding.srai rd ra n
  | addi rd ra imm => exact Encoding.addi rd ra imm
  | andi rd ra imm => exact Encoding.andi rd ra imm
  | ori rd ra imm => exact Encoding.ori rd ra imm
  | xori rd ra imm => exact Encoding.xori rd ra imm
  | slti rd ra imm => exact Encoding.slti rd ra imm
  | sltni rd ra imm => exact Encoding.sltni rd ra imm
  | lih rd ra imm => exact Encoding.lih rd ra imm
  | mul rd ra rb => exact Encoding.mul rd ra rb
  | mulh rd ra rb => exact Encoding.mulh rd ra rb
  | mulhn rd ra rb => exact Encoding.mulhn rd ra rb
  | mulhsn rd ra rb => exact Encoding.mulhsn rd ra rb
  | div rd ra rb => exact Encoding.div rd ra rb
  | divn rd ra rb => exact Encoding.divn rd ra rb
  | rem rd ra rb => exact Encoding.rem rd ra rb
  | remn rd ra rb => exact Encoding.remn rd ra rb
  | setvl rd ra ty => exact Encoding.setvl rd ra ty
  | setvlG rd ra ty => exact Encoding.setvlG rd ra ty
  | setrc rd ra imm => exact Encoding.setrc rd ra imm
  | jmp disp => exact Encoding.jmp disp
  | call disp => exact Encoding.call disp
  | beq ra rb disp => exact Encoding.beq ra rb disp
  | bne ra rb disp => exact Encoding.bne ra rb disp
  | blt ra rb disp => exact Encoding.blt ra rb disp
  | bge ra rb disp => exact Encoding.bge ra rb disp
  | bltn ra rb disp => exact Encoding.bltn ra rb disp
  | bgen ra rb disp => exact Encoding.bgen ra rb disp
  | jmpl rd ra imm => exact Encoding.jmpl rd ra imm
  | csrrw rd ra csr => exact Encoding.csrrw rd ra csr
  | csrrs rd ra csr => exact Encoding.csrrs rd ra csr
  | csrrc rd ra csr => exact Encoding.csrrc rd ra csr
  | trap n => exact Encoding.trap n
  | eret => exact Encoding.eret
  | wfi => exact Encoding.wfi
  | dclean ra rb => exact Encoding.dclean ra rb
  | xcinv ra rb => exact Encoding.xcinv ra rb
  | fbar => exact Encoding.fbar
  | ptsync => exact Encoding.ptsync
  | launch rd ra => exact Encoding.launch rd ra
  | fenceSv scope => exact Encoding.fenceSv scope
  | fenceVs scope => exact Encoding.fenceVs scope
  | fenceVv scope => exact Encoding.fenceVv scope
  | fenceAll scope => exact Encoding.fenceAll scope
  | larrive rd => exact Encoding.larrive rd
  | lwait rd ra => exact Encoding.lwait rd ra
  | larriveScope rd ra scope => exact Encoding.larriveScope rd ra scope
  | lwaitScope rd ra rb scope => exact Encoding.lwaitScope rd ra rb scope
  | retire => exact Encoding.retire
  | twake => exact Encoding.twake
  | tfill ra => exact Encoding.tfill ra
  | bkt rd ra => exact Encoding.bkt rd ra
  | lb rd base off => exact Encoding.lb rd base off
  | lh rd base off => exact Encoding.lh rd base off
  | lw rd base off => exact Encoding.lw rd base off
  | ld rd base off => exact Encoding.ld rd base off
  | lbn rd base off => exact Encoding.lbn rd base off
  | lhn rd base off => exact Encoding.lhn rd base off
  | lwn rd base off => exact Encoding.lwn rd base off
  | ldn rd base off => exact Encoding.ldn rd base off
  | sb rd base off => exact Encoding.sb rd base off
  | sh rd base off => exact Encoding.sh rd base off
  | sw rd base off => exact Encoding.sw rd base off
  | sd rd base off => exact Encoding.sd rd base off
  | amswp rd ra rb dword scope q => exact Encoding.amswp rd ra rb dword scope q
  | amcas rd ra rb dword scope q => exact Encoding.amcas rd ra rb dword scope q
  | amadd rd ra rb dword scope q => exact Encoding.amadd rd ra rb dword scope q
  | amand rd ra rb dword scope q => exact Encoding.amand rd ra rb dword scope q
  | amor rd ra rb dword scope q => exact Encoding.amor rd ra rb dword scope q
  | amxor rd ra rb dword scope q => exact Encoding.amxor rd ra rb dword scope q
  | ammin rd ra rb dword scope q => exact Encoding.ammin rd ra rb dword scope q
  | ammax rd ra rb dword scope q => exact Encoding.ammax rd ra rb dword scope q
  | amminn rd ra rb dword scope q => exact Encoding.amminn rd ra rb dword scope q
  | ammaxn rd ra rb dword scope q => exact Encoding.ammaxn rd ra rb dword scope q
  | amfadd rd ra rb scope q => exact Encoding.amfadd rd ra rb scope q
  | amfmin rd ra rb scope q => exact Encoding.amfmin rd ra rb scope q
  | amfmax rd ra rb scope q => exact Encoding.amfmax rd ra rb scope q
  | amld rd ra dword scope q => exact Encoding.amld rd ra dword scope q
  | amst ra rb dword scope q => exact Encoding.amst ra rb dword scope q
  | vld ap base off size => exact Encoding.vld ap base off size
  | vst ap base off size => exact Encoding.vst ap base off size
  | vadd apd apa apb mask => exact Encoding.vadd apd apa apb mask
  | vsub apd apa apb mask => exact Encoding.vsub apd apa apb mask
  | vadds apd apa apb mask => exact Encoding.vadds apd apa apb mask
  | vsubs apd apa apb mask => exact Encoding.vsubs apd apa apb mask
  | vmul apd apa apb mask => exact Encoding.vmul apd apa apb mask
  | vmulh apd apa apb mask => exact Encoding.vmulh apd apa apb mask
  | vmacc apd apa apb mask => exact Encoding.vmacc apd apa apb mask
  | vwmacc apd apa apb mask => exact Encoding.vwmacc apd apa apb mask
  | vand apd apa apb mask => exact Encoding.vand apd apa apb mask
  | vor apd apa apb mask => exact Encoding.vor apd apa apb mask
  | vxor apd apa apb mask => exact Encoding.vxor apd apa apb mask
  | vandn apd apa apb mask => exact Encoding.vandn apd apa apb mask
  | vsll apd apa apb mask => exact Encoding.vsll apd apa apb mask
  | vsrl apd apa apb mask => exact Encoding.vsrl apd apa apb mask
  | vsra apd apa apb mask => exact Encoding.vsra apd apa apb mask
  | vssr apd apa apb mask => exact Encoding.vssr apd apa apb mask
  | vneg apd apa mask => exact Encoding.vneg apd apa mask
  | vfadd apd apa apb mask => exact Encoding.vfadd apd apa apb mask
  | vfsub apd apa apb mask => exact Encoding.vfsub apd apa apb mask
  | vfmul apd apa apb mask => exact Encoding.vfmul apd apa apb mask
  | vfdiv apd apa apb mask => exact Encoding.vfdiv apd apa apb mask
  | vfsqrt apd apa mask => exact Encoding.vfsqrt apd apa mask
  | vfrcp apd apa mask => exact Encoding.vfrcp apd apa mask
  | vfma apd apa apb mask => exact Encoding.vfma apd apa apb mask
  | vfms apd apa apb mask => exact Encoding.vfms apd apa apb mask
  | vfnma apd apa apb mask => exact Encoding.vfnma apd apa apb mask
  | vfwma apd apa apb mask => exact Encoding.vfwma apd apa apb mask
  | vceq kd apa apb mask => exact Encoding.vceq kd apa apb mask
  | vcne kd apa apb mask => exact Encoding.vcne kd apa apb mask
  | vclt kd apa apb mask => exact Encoding.vclt kd apa apb mask
  | vcle kd apa apb mask => exact Encoding.vcle kd apa apb mask
  | vfceq kd apa apb mask => exact Encoding.vfceq kd apa apb mask
  | vfclt kd apa apb mask => exact Encoding.vfclt kd apa apb mask
  | vfcle kd apa apb mask => exact Encoding.vfcle kd apa apb mask
  | vfcun kd apa apb mask => exact Encoding.vfcun kd apa apb mask
  | vmin apd apa apb mask => exact Encoding.vmin apd apa apb mask
  | vmax apd apa apb mask => exact Encoding.vmax apd apa apb mask
  | vfmin apd apa apb mask => exact Encoding.vfmin apd apa apb mask
  | vfmax apd apa apb mask => exact Encoding.vfmax apd apa apb mask
  | kand kd ka kb => exact Encoding.kand kd ka kb
  | kor kd ka kb => exact Encoding.kor kd ka kb
  | kxor kd ka kb => exact Encoding.kxor kd ka kb
  | kandn kd ka kb => exact Encoding.kandn kd ka kb
  | knot kd ka => exact Encoding.knot kd ka
  | kmw ka => exact Encoding.kmw ka
  | kmr kd => exact Encoding.kmr kd
  | vmov apd apa mask => exact Encoding.vmov apd apa mask
  | vfneg apd apa mask => exact Encoding.vfneg apd apa mask
  | vfabs apd apa mask => exact Encoding.vfabs apd apa mask
  | vfsgnj apd apa apb mask => exact Encoding.vfsgnj apd apa apb mask
  | vrev apd apa mask => exact Encoding.vrev apd apa mask
  | vperm apd apa apb mask => exact Encoding.vperm apd apa apb mask
  | vslidn apd apa apb mask => exact Encoding.vslidn apd apa apb mask
  | vsliup apd apa apb mask => exact Encoding.vsliup apd apa apb mask
  | vidx apd mask => exact Encoding.vidx apd mask
  | vfcvt apd apa mask => exact Encoding.vfcvt apd apa mask
  | vfcvti apd apa mask => exact Encoding.vfcvti apd apa mask
  | vicvtf apd apa mask => exact Encoding.vicvtf apd apa mask
  | vnclip apd apa apb mask => exact Encoding.vnclip apd apa apb mask
  | vext apd apa mask => exact Encoding.vext apd apa mask
  | vredsum apd apa mask => exact Encoding.vredsum apd apa mask
  | vwredsum apd apa mask => exact Encoding.vwredsum apd apa mask
  | vredmax apd apa mask => exact Encoding.vredmax apd apa mask
  | vredmin apd apa mask => exact Encoding.vredmin apd apa mask
  | vredand apd apa mask => exact Encoding.vredand apd apa mask
  | vredor apd apa mask => exact Encoding.vredor apd apa mask
  | vredxor apd apa mask => exact Encoding.vredxor apd apa mask
  | vfredsum apd apa mask => exact Encoding.vfredsum apd apa mask
  | vfwredsum apd apa mask => exact Encoding.vfwredsum apd apa mask
  | vfredmax apd apa mask => exact Encoding.vfredmax apd apa mask
  | vfredmin apd apa mask => exact Encoding.vfredmin apd apa mask
  | vsredsum apd apa kb mask => exact Encoding.vsredsum apd apa kb mask
  | vswredsum apd apa kb mask => exact Encoding.vswredsum apd apa kb mask
  | vsredmax apd apa kb mask => exact Encoding.vsredmax apd apa kb mask
  | vsredmin apd apa kb mask => exact Encoding.vsredmin apd apa kb mask
  | vsredand apd apa kb mask => exact Encoding.vsredand apd apa kb mask
  | vsredor apd apa kb mask => exact Encoding.vsredor apd apa kb mask
  | vsredxor apd apa kb mask => exact Encoding.vsredxor apd apa kb mask
  | vsfredsum apd apa kb mask => exact Encoding.vsfredsum apd apa kb mask
  | vsfwredsum apd apa kb mask => exact Encoding.vsfwredsum apd apa kb mask
  | vsfredmax apd apa kb mask => exact Encoding.vsfredmax apd apa kb mask
  | vsfredmin apd apa kb mask => exact Encoding.vsfredmin apd apa kb mask
  | vscore apa apb mask => exact Encoding.vscore apa apb mask
  | vscoreS apd apa apb mask => exact Encoding.vscoreS apd apa apb mask
  | vsegr apd => exact Encoding.vsegr apd
  | vexps apd => exact Encoding.vexps apd
  | vwacc apd apa apb mask => exact Encoding.vwacc apd apa apb mask
  | vclget apd mask => exact Encoding.vclget apd mask
  | vclput apa mask => exact Encoding.vclput apa mask
  | radd apd apa apb mask => exact Encoding.radd apd apa apb mask
  | uadd apd apa apb mask => exact Encoding.uadd apd apa apb mask
  | rxor apd apa apb mask => exact Encoding.rxor apd apa apb mask
  | rmulo apd apa apb mask => exact Encoding.rmulo apd apa apb mask
  | umulo apd apa apb mask => exact Encoding.umulo apd apa apb mask
  | rfmul apd apa apb mask => exact Encoding.rfmul apd apa apb mask
  | ufmul apd apa apb mask => exact Encoding.ufmul apd apa apb mask
  | rfadd apd apa apb mask => exact Encoding.rfadd apd apa apb mask
  | ufadd apd apa apb mask => exact Encoding.ufadd apd apa apb mask
  | rcvt apd apa mask => exact Encoding.rcvt apd apa mask
  | ucvt apd apa mask => exact Encoding.ucvt apd apa mask
  | rnrw apd apa apb mask => exact Encoding.rnrw apd apa apb mask
  | unrw apd apa mask => exact Encoding.unrw apd apa mask
  | pair g gs sc vec => exact Encoding.pair g gs sc vec
  | adefRect apd tr ty row0 col0 slots hm1 => exact Encoding.adefRect apd tr ty row0 col0 slots hm1
  | adefLine apd line bc ty row0 col0 slots => exact Encoding.adefLine apd line bc ty row0 col0 slots
  | adefx apd ra => exact Encoding.adefx apd ra
  | aget rd apa => exact Encoding.aget rd apa
  | amov apd apa => exact Encoding.amov apd apa
  | aswap apd apa => exact Encoding.aswap apd apa
  | abind apd fs => exact Encoding.abind apd fs
  | aunbind apd => exact Encoding.aunbind apd
  | efcget kg ks apd => exact Encoding.efcget kg ks apd
  | efcput kg ks apa => exact Encoding.efcput kg ks apa
  | vsplat kg ks apd ra => exact Encoding.vsplat kg ks apd ra
  | vget rd apa rb => exact Encoding.vget rd apa rb
  | vlds kg ks ap base xs xr off => exact Encoding.vlds kg ks ap base xs xr off
  | vlseg kg ks ap nf base xs xr off => exact Encoding.vlseg kg ks ap nf base xs xr off
  | vsts kg ks ap base xs xr off => exact Encoding.vsts kg ks ap base xs xr off
  | vsseg kg ks ap nf base xs xr off => exact Encoding.vsseg kg ks ap nf base xs xr off
  | vldx kg ks ap base xr idx off => exact Encoding.vldx kg ks ap base xr idx off
  | vldxr kg ks ap base xs idx off => exact Encoding.vldxr kg ks ap base xs idx off
  | vstx kg ks ap base xr idx off => exact Encoding.vstx kg ks ap base xr idx off
  | vstxr kg ks ap base xs idx off => exact Encoding.vstxr kg ks ap base xs idx off
  | fsbind fs ra => exact Encoding.fsbind fs ra
  | fsrel fs => exact Encoding.fsrel fs
  | fsget rd fs => exact Encoding.fsget rd fs
  | vxlat kg ks kd apd apa xt xp => exact Encoding.vxlat kg ks kd apd apa xt xp
  | vxlatFf kg ks kd apd apa xt xp => exact Encoding.vxlatFf kg ks kd apd apa xt xp
  | vamadd kg ks ret apd apa base idx scope q => exact Encoding.vamadd kg ks ret apd apa base idx scope q
  | vamfadd kg ks ret apd apa base idx scope q => exact Encoding.vamfadd kg ks ret apd apa base idx scope q
  | vammin kg ks ret apd apa base idx scope q => exact Encoding.vammin kg ks ret apd apa base idx scope q
  | vammax kg ks ret apd apa base idx scope q => exact Encoding.vammax kg ks ret apd apa base idx scope q
  | vamfmin kg ks ret apd apa base idx scope q => exact Encoding.vamfmin kg ks ret apd apa base idx scope q
  | vamfmax kg ks ret apd apa base idx scope q => exact Encoding.vamfmax kg ks ret apd apa base idx scope q
  | vamand kg ks ret apd apa base idx scope q => exact Encoding.vamand kg ks ret apd apa base idx scope q
  | vamor kg ks ret apd apa base idx scope q => exact Encoding.vamor kg ks ret apd apa base idx scope q
  | vamxor kg ks ret apd apa base idx scope q => exact Encoding.vamxor kg ks ret apd apa base idx scope q
  | accwin aw op ty xb xl xg => exact Encoding.accwin aw op ty xb xl xg
  | awacc kg ks aw idx apa => exact Encoding.awacc kg ks aw idx apa
  | merge aw scope q => exact Encoding.merge aw scope q
  | awrel aw => exact Encoding.awrel aw
  | stpeek rd => exact Encoding.stpeek rd
  | stdrop ra => exact Encoding.stdrop ra
  | stcut ra => exact Encoding.stcut ra
  | stsync => exact Encoding.stsync
  | stpre ra => exact Encoding.stpre ra
  | tshape nm1 km1 => exact Encoding.tshape nm1 km1
  | tload t apa => exact Encoding.tload t apa
  | tmac t apa xr => exact Encoding.tmac t apa xr
  | tzero t => exact Encoding.tzero t
  | tdrain kg ks apd t xr => exact Encoding.tdrain kg ks apd t xr
  | trestart disp => exact Encoding.trestart disp
  | tclose => exact Encoding.tclose
  | cpy xd xs xn xc scope => exact Encoding.cpy xd xs xn xc scope
  | collAr xa scope => exact Encoding.collAr xa scope
  | collRs xa scope => exact Encoding.collRs xa scope
  | collAg xa scope => exact Encoding.collAg xa scope
  | collA2a xa scope => exact Encoding.collA2a xa scope
  | updSgdm xa scope => exact Encoding.updSgdm xa scope
  | updAdamw xa scope => exact Encoding.updAdamw xa scope
  | skipset xa xb => exact Encoding.skipset xa xb
  | wver n xa => exact Encoding.wver n xa

/-- Settles O5, row by row of the opcode table. -/
theorem encodedInstructionsDecode : Obligations.EncodedInstructionsDecode := by
  unfold Obligations.EncodedInstructionsDecode
  intro i w v hw he
  obtain ⟨hone, htwo⟩ := encoding_statement i hw w v
  exact he.elim hone htwo

end Sys2Proof.Proofs
end

section
/-! One step at a fetching state: the decoded instruction, or the illegal-encoding trap (R119, R290, R374, R381, R384). -/

namespace Sys2Proof.Machine

open Sys2Proof

/-! ### The hart that moves (R54, R315) -/

theorem step_eq_stepHart {s s1 : State} {h : Hart} (hs1 : s1 = { s with tick := s.tick + 1 }) (hinbox : s.inbox = []) (hpower : s.power = true)
    (hpick : s1.pickHart = some h) (hcore : s1.tick % 2 = 0 → s1.pickCore.bind s1.coreWork = none) (hheld : s1.heldUp h = none) :
    step s = stepHart { s1 with cur := h.hid } h := by
  have hin : s1.inbox = [] := hs1 ▸ hinbox
  have hon : s1.power = true := hs1 ▸ hpower
  have hwork : (if s1.tick % 2 = 0 then s1.pickCore.bind s1.coreWork else none) = none := by
    split
    next he => exact hcore he
    · rfl
  unfold step
  rw [← hs1]
  extract_lets
  split
  next he => rw [hin] at he; cases he
  · rw [hon, if_neg (by simp), hwork]
    dsimp only
    rw [hpick]
    dsimp only
    rw [hheld]

section
variable {s t : State} {h : Hart} {w : IWord} {v : Option IWord} (hinstead : h.instead = none) (hw : s.fetchWords h = .ok (t, w, v))
include hinstead hw

theorem stepHart_decoded {i : Instr} (hi : decode w (v.getD 0) = some i) : stepHart s h = t.runFetched h i := by
  simp only [stepHart, hinstead, State.fetchInstr, hw, hi]

theorem stepHart_illegal (hi : decode w (v.getD 0) = none) : stepHart s h = .next (t.takeTrap (illegalEncoding w v)) := by
  simp only [stepHart, hinstead, State.fetchInstr, hw, hi, Exec.outcome_trap]

end

/-! ### An atomic performed at its step, or later (R290) -/

theorem State.runInstr_cases (t : State) (i : Instr) :
    t.runInstr i = (t.readyFor i).lateOutcome i (exec i (t.readyFor i)) ∨
      ∃ f, i.later? = some f ∧ t.runInstr i = (t.readyFor i).lateOutcome i (f (t.readyFor i)) := by
  unfold State.runInstr
  dsimp only
  split
  next f hf =>
    split at hf
    · exact .inr ⟨f, hf, rfl⟩
    · cases hf
  · exact .inl rfl

theorem State.runInstr_now {t : State} {i : Instr} (hi : i.later? = none) :
    t.runInstr i = (t.readyFor i).lateOutcome i (exec i (t.readyFor i)) := by
  obtain he | ⟨f, hf, -⟩ := t.runInstr_cases i
  · exact he
  · rw [hi] at hf
    cases hf

/-! ### What has been read by atomics arrives (R290) -/

theorem State.updHart_fixed {s : State} {f : Hart → Hart} (hf : ∀ g ∈ s.harts, f g = g) : s.updHart f = s := by
  have hm : s.harts.map (fun g => if g.hid == s.cur then f g else g) = s.harts := by
    conv_rhs => rw [← List.map_id s.harts]
    refine List.map_congr_left fun g hg => ?_
    rw [hf g hg, ite_self, id]
  rw [State.updHart, State.updHartAt, hm]

theorem State.readyFor_noAtomics {t : State} (i : Instr)
    (hn : ∀ g ∈ t.harts, g.landed = [] ∧ g.landedFlags = 0 ∧ ∀ x ∈ g.pending, x.rmw = none) : t.readyFor i = t := by
  have harrive : t.updHart Hart.arrive = t := State.updHart_fixed fun g hg => by
    obtain ⟨hl, hf, -⟩ := hn g hg
    rw [Hart.arrive, hl, hf]
    rfl
  unfold State.readyFor
  dsimp only
  split
  · exact harrive
  next h hs =>
    obtain ⟨-, -, hrmw⟩ := hn h (List.mem_of_find?_eq_some hs)
    rw [if_neg, harrive]
    simp only [List.any_eq_true, not_exists, not_and]
    intro x hx
    rw [hrmw x hx]
    exact Bool.false_ne_true

/-! ### Late loads and the instructions that follow (R290, R384) -/

theorem State.lateAfter_eq_updHart {s y : State} {g : Hart} (i : Instr) (hs : s.hart? = some g) (hl : ∀ x ∈ y.harts, x.late = []) :
    ∃ late, s.lateAfter i y = y.updHart (fun x => { x with late }) := by
  cases hy : y.hart? with
  | none =>
    refine ⟨[], ?_⟩
    rw [State.updHart_late_nil (f := fun _ => []) rfl hl, State.lateAfter, hs, hy]
  | some g' =>
    refine ⟨s.lateNew i g g', ?_⟩
    rw [State.lateAfter_none i hs hy hl, State.updHart, State.updHart, State.updHartAt, State.updHartAt]
    congr 1
    refine List.map_congr_left fun x hx => ?_
    rw [hl x hx, List.nil_append]

theorem State.afterStop_running {t y : State} {h : Hart} {i : Instr} (hy : h.stopped i y = false) : t.afterStop h i y = y := by
  rw [State.afterStop, hy]
  rfl

theorem State.afterStop_cases (t : State) (h : Hart) (i : Instr) (y : State) :
    t.afterStop h i y = y ∨ ∃ js, t.afterStop h i y = y.chargeYounger h.q h.hid js := by
  unfold State.afterStop
  dsimp only
  split
  · exact .inl rfl
  · split
    · exact .inl rfl
    · exact .inr ⟨_, rfl⟩

end Sys2Proof.Machine

namespace Sys2Proof.Proofs

open Sys2Proof Sys2Proof.Machine

/-- Settles O6: the step is `stepHart` of the hart that moves, and that is `runFetched` of the decoded instruction, or its trap. -/
theorem stepRunsDecoded : Obligations.StepRunsDecoded := by
  unfold Obligations.StepRunsDecoded
  intro s t h w v s1 hinbox hpower hpick hcore hheld hinstead hw
  have hstep : step s = stepHart { s1 with cur := h.hid } h := step_eq_stepHart rfl hinbox hpower hpick hcore hheld
  refine ⟨fun i hi => ?_, fun hi => hstep.trans (stepHart_illegal hinstead hw hi)⟩
  have hrun : step s = t.runFetched h i := hstep.trans (stepHart_decoded hinstead hw hi)
  refine ⟨?_, fun y => State.afterStop_running, State.afterStop_cases t h i,
    State.readyFor_noAtomics i, fun hlater => ⟨fun f hf => ?_, fun y hy => ⟨?_, ?_⟩⟩⟩
  · rw [hrun, State.runFetched]
    obtain he | ⟨f, hf, he⟩ := t.runInstr_cases i
    · exact .inl (by rw [he] <;> rfl)
    · exact .inr ⟨f, hf, by rw [he] <;> rfl⟩
  · rw [hrun, State.runFetched, State.runInstr_now hlater, hf]
    rfl
  · rw [hrun, State.runFetched, State.runInstr_now hlater, hy]
    rfl
  · exact fun g hg hl => State.lateAfter_eq_updHart i hg hl

end Sys2Proof.Proofs
end

section
/-! Sweeps that trap before their first item (R386, R387), and those that complete. -/

namespace Sys2Proof.Machine

open Sys2Proof

/-! ### The checks of a sweep (R386, R387, R389, R407) -/

theorem Vec.check_fault {v : Hart → Vec} {s : State} {h : Hart} {r : TrapRec} (hr : (v h).fault? h = some r) (k : Vec → Hart → Fed → Exec) :
    Vec.check v s h k = .trap s r := by
  rw [Vec.check, hr]

section
variable {v : Hart → Vec} {s : State} {h : Hart} {r : TrapRec} (hchecks : (v h).fault? h = none)
  (hplates : h.absent ((v h).ops.map (fun o => h.apt o.n)) = none)
include hchecks hplates

/-- A bad value in an entry that no stream gives, or what follows the bad values in code order. -/
theorem Vec.check_late (hvalue : (v h).valueAp.isSome = true) (hr : (v h).late? h = some r) (k : Vec → Hart → Fed → Exec) : Vec.check v s h k = .trap s r := by
  rw [Vec.check, hchecks]
  dsimp only
  rw [withPlates_present hplates, if_neg (by rw [Option.isNone_iff_eq_none, ← Option.not_isSome_iff_eq_none]; exact not_not.mpr hvalue), hr]

/-- A bad value among the elements that a stream has given. -/
theorem Vec.check_value (hlate : (v h).late? h = none) (hstreamed : (v h).valueStreamed h = true)
    (hr : (v h).value ((v h).feed s h).h ((v h).limit ((v h).feed s h)) = some r) (k : Vec → Hart → Fed → Exec) :
    Vec.check v s h k = .trap ((v h).feed s h).s r := by
  rw [Vec.check, hchecks]
  dsimp only
  rw [withPlates_present hplates, hlate, ite_self]
  dsimp only
  rw [if_pos hstreamed, hr]

end

/-! ### A sweep that traps is charged all the same (R328) -/

theorem Vec.met_unlinked {v : Hart → Vec} {s : State} {h : Hart} (hl : (v h).link = false) : Vec.met v s h = v h :=
  (congrArg (v h).linked (Vec.joins_unlinked hl _ _ _)).trans (Vec.linked_false _)

theorem Vec.run_trap {v : Hart → Vec} {s t : State} {h : Hart} {r : TrapRec}
    (hc : Vec.check (fun h' => (v h').linked ((Vec.entry v s h).joins h (v h).cls (v h).charge ((v h).job h))) (Vec.entry v s h) h Vec.finish = .trap t r) :
    Vec.run v s h = .trap (t.dispatchVec h (Vec.met v s h) true) r := by
  rw [Vec.run_eq, hc]
  rfl

theorem Vec.run_fault {v : Hart → Vec} {s : State} {h : Hart} {r : TrapRec} (hr : (Vec.met v s h).fault? h = some r) :
    Vec.run v s h = .trap ((Vec.entry v s h).dispatchVec h (Vec.met v s h) true) r :=
  Vec.run_trap (Vec.check_fault (v := fun h' => (v h').linked _) hr _)

theorem Vec.run_stops {v : Hart → Vec} {s t : State} {h : Hart} {k b : Nat} {r : TrapRec}
    (hstop : (Vec.met v s h).Stops (Vec.entry v s h) h k b t r) : Vec.run v s h = .trap (t.dispatchVec h (Vec.met v s h) true) r :=
  Vec.run_trap ((Vec.check_ready (v := fun h' => (v h').linked _) hstop.1 _).trans (Vec.finish_stops hstop))

theorem exec_traps {i : Instr} {len : Nat} {v : Hart → Vec} {s t : State} {h : Hart} {r : TrapRec} (hs : s.hart? = some h)
    (hi : i.sweep? = some (len, v)) (hr : Vec.run v s h = .trap (t.dispatchVec h (Vec.met v s h) true) r) :
    exec i s = .next ((Vec.met v s h).trapped h t r) := by
  rw [exec_sweep? hi, onHart_eq hs, hr, Exec.outcome_trap, Vec.trapped]

end Sys2Proof.Machine

namespace Sys2Proof.Proofs

open Sys2Proof Sys2Proof.Machine

/-- Settles O38: each check of a sweep that fails is its trap, and a sweep past them completes as `Vec.Completes` says. -/
theorem sweepsComplete : Obligations.SweepsComplete := by
  unfold Obligations.SweepsComplete
  intro s t h i len v hs hi u s1 f
  refine ⟨fun hl => ⟨Vec.met_unlinked hl, Vec.entry_unlinked hl⟩,
    fun r hr => exec_traps hs hi (Vec.run_fault hr),
    fun hchecks hplates hvalue r => ⟨fun hr => ?_, fun hlate hst hr => ?_⟩,
    exec_completes hs hi⟩
  · exact exec_traps hs hi (Vec.run_trap (Vec.check_late (v := fun h' => (v h').linked _) hchecks hplates hvalue hr _))
  · exact exec_traps hs hi (Vec.run_trap (Vec.check_value (v := fun h' => (v h').linked _) hchecks hplates hlate hst hr _))

end Sys2Proof.Proofs
end

section
/-! The pair (R112 to R114, R145), with what its vector half may be: a sweep, a push, a pop or mask logic. -/

namespace Sys2Proof.Machine

open Sys2Proof

/-! ### The scalar half (R114) -/

section
variable (h : Hart) (rd ra rb : XReg)

theorem shiftLeft_eq_ofNat (a : Word) (n : Nat) : a <<< n = BitVec.ofNat 64 (a.toNat * 2 ^ n) := by
  apply BitVec.eq_of_toNat_eq
  rw [BitVec.toNat_shiftLeft, Nat.shiftLeft_eq, BitVec.toNat_ofNat]

theorem ushiftRight_eq_ofNat (a : Word) (n : Nat) : a >>> n = BitVec.ofNat 64 (a.toNat / 2 ^ n) := by
  apply BitVec.eq_of_toNat_eq
  rw [BitVec.toNat_ushiftRight, Nat.shiftRight_eq_div_pow, BitVec.toNat_ofNat, Nat.mod_eq_of_lt]
  exact Nat.lt_of_le_of_lt (Nat.div_le_self ..) a.isLt

theorem sshiftRight_eq_ofInt (a : Word) (n : Nat) : a.sshiftRight n = BitVec.ofInt 64 (a.toInt / 2 ^ n) := by
  rw [BitVec.sshiftRight, Int.shiftRight_eq_div_pow]
  norm_cast

theorem add_signExtend_eq_ofInt (a : Word) (imm : BitVec 6) : a + imm.signExtend 64 = BitVec.ofInt 64 (a.toInt + imm.toInt) := by
  rw [BitVec.ofInt_add, BitVec.ofInt_toInt, BitVec.signExtend]

theorem scalarHalf_sll : scalarHalf (.reg .sll rd ra rb) h =
    some (rd, BitVec.ofNat 64 ((h.getX ra).toNat * 2 ^ ((h.getX rb).toNat % 64))) :=
  congrArg (fun v => some (rd, v)) (shiftLeft_eq_ofNat _ _)

theorem scalarHalf_srl : scalarHalf (.reg .srl rd ra rb) h =
    some (rd, BitVec.ofNat 64 ((h.getX ra).toNat / 2 ^ ((h.getX rb).toNat % 64))) :=
  congrArg (fun v => some (rd, v)) (ushiftRight_eq_ofNat _ _)

theorem scalarHalf_sra : scalarHalf (.reg .sra rd ra rb) h =
    some (rd, BitVec.ofInt 64 ((h.getX ra).toInt / 2 ^ ((h.getX rb).toNat % 64))) :=
  congrArg (fun v => some (rd, v)) (sshiftRight_eq_ofInt _ _)

variable (imm : BitVec 6)

theorem scalarHalf_addi : scalarHalf (.imm .addi rd ra imm) h = some (rd, BitVec.ofInt 64 ((h.getX ra).toInt + imm.toInt)) :=
  congrArg (fun v => some (rd, v)) (add_signExtend_eq_ofInt _ _)

theorem scalarHalf_slli : scalarHalf (.imm .slli rd ra imm) h = some (rd, BitVec.ofNat 64 ((h.getX ra).toNat * 2 ^ imm.toNat)) :=
  congrArg (fun v => some (rd, v)) (shiftLeft_eq_ofNat _ _)

theorem scalarHalf_srli : scalarHalf (.imm .srli rd ra imm) h = some (rd, BitVec.ofNat 64 ((h.getX ra).toNat / 2 ^ imm.toNat)) :=
  congrArg (fun v => some (rd, v)) (ushiftRight_eq_ofNat _ _)

theorem scalarHalf_srai : scalarHalf (.imm .srai rd ra imm) h = some (rd, BitVec.ofInt 64 ((h.getX ra).toInt / 2 ^ imm.toNat)) :=
  congrArg (fun v => some (rd, v)) (sshiftRight_eq_ofInt _ _)

end

/-! ### The commit of the pair (R112) -/

/-- What a pair's vector half has led to, with the effect of the scalar half where bit 0 of the guard is 1. -/
def State.withScalarHalf (t : State) (h : Hart) (g : Guard) (sc : PairScalar) : State :=
  match scalarHalf sc h with
  | none => t
  | some (rd, x) => if h.guardBit g 0 then t.updHart (fun k => k.setX rd x) else t

section
variable {s t : State} {h : Hart} (hs : s.hart? = some h) {g : KReg} {gs : Bool} (sc : PairScalar) {f : AHalf}
include hs

theorem exec_pair : exec (.pair g gs sc f) s = (pair ⟨g.toNat, gs⟩ sc f s h).outcome 8 := onHart_eq hs 8 _

theorem exec_pair_done (hv : vecHalf f ⟨g.toNat, gs⟩ s h = .done t) :
    exec (.pair g gs sc f) s = .next ((t.withScalarHalf h ⟨g.toNat, gs⟩ sc).stepOver 8) := by
  rw [exec_pair hs, pair, hv, State.withScalarHalf]
  cases h.guardBit ⟨g.toNat, gs⟩ 0 <;> cases scalarHalf sc h <;> rfl

/-- Where the vector half stops, the scalar half does nothing. -/
theorem exec_pair_trap {r : TrapRec} (hv : vecHalf f ⟨g.toNat, gs⟩ s h = .trap t r) : exec (.pair g gs sc f) s = .next (t.takeTrap r) := by
  rw [exec_pair hs, pair, hv]
  rfl

end

/-! ### Instructions that push or pop (R183, R192) -/

/-- An instruction of the shared form that is no link of a drain chain, whatever follows its checks. -/
theorem Vec.start_unlinked {v : Hart → Vec} {s : State} {h : Hart} (hl : (v h).link = false) (k : Vec → Hart → Fed → Exec) :
    Vec.start v s h k = (Vec.check v s h k).settle (fun stops u => u.dispatchVec h (v h) stops) := by
  have hlinked : (fun h' => (v h').linked false) = v := funext fun h' => Vec.linked_false (v h')
  have hentry : s.letDrainGo h ((v h).job h) = s := Vec.entry_unlinked hl
  rw [Vec.start]
  rw [hentry, Vec.joins_unlinked hl, hlinked, Vec.linked_false]

/-- A sweep that no flag stops comes to what follows it. -/
theorem Vec.finish_last {v : Vec} {h : Hart} {f : Fed} (hf : f.stop = none) (hz : h.fen &&& (v.result h f).2 = 0) :
    v.finish h f = v.last f.s f.h (v.result h f).1 (v.result h f).2 := by
  have hl : v.limit f = v.rc * v.vl := by rw [Vec.limit, hf]; rfl
  rw [Vec.finish, hl, sweep_eq_ok _ _ _ hz, hf]
  rfl

/-- The same where the stair's part has led to another state, and what follows the sweep is its own. -/
theorem Vec.finish_with_last {v : Vec} {h : Hart} {f : Fed} (last : State → Hart → Hart → Flags → Exec) (s : State) (hf : f.stop = none)
    (hz : h.fen &&& (v.result h f).2 = 0) :
    ({ v with last } : Vec).finish h { f with s } = last s f.h (v.result h f).1 (v.result h f).2 :=
  Vec.finish_last (v := { v with last }) (f := { f with s }) hf hz

section
variable {f : AHalf} {g : Guard} {s t : State} {h : Hart}

theorem forwardVec_link (h : Hart) : (forwardVec f g h).link = false := by
  unfold forwardVec
  dsimp only
  split <;> rfl

theorem undoVec_link (payload : List Byte) (h : Hart) : (undoVec f g payload h).link = false := by
  unfold undoVec
  dsimp only
  split <;> rfl

theorem revPush_fault {r : TrapRec} (hr : (forwardVec f g h).fault? h = some r) :
    revPush f g s h = .trap (s.dispatchVec h (forwardVec f g h) true) r := by
  rw [revPush, Vec.start_unlinked (forwardVec_link h), Vec.check_fault hr]
  rfl

theorem revPush_pushed (hp : f.Pushed g s h t) : revPush f g s h = .done t := by
  obtain ⟨hr, hz, s1, wvt, s2, h2, hcheck, hpush, rfl⟩ := hp
  rw [revPush, Vec.start_unlinked (forwardVec_link h), Vec.check_ready hr]
  dsimp only
  rw [hcheck]
  dsimp only
  rw [Vec.finish_with_last (v := forwardVec f g h) (f := (forwardVec f g h).feed s h) _ _ hr.streams hz]
  rw [hpush]
  rfl

theorem revPop_fault {r : TrapRec} (hr : (undoVec f g [] h).fault? h = some r) :
    revPop f g s h = .trap (s.dispatchVec h (undoVec f g [] h) true) r := by
  rw [revPop, Vec.start_unlinked (undoVec_link [] h), Vec.check_fault hr]
  rfl

theorem revPop_popped (hp : f.Popped g s h t) : revPop f g s h = .done t := by
  obtain ⟨hr, s1, hp, payload, hpop, hz, rfl⟩ := hp
  rw [revPop, Vec.start_unlinked (undoVec_link [] h), Vec.check_ready hr]
  dsimp only
  rw [hpop]
  dsimp only
  rw [Vec.finish_with_last (v := undoVec f g payload h) (f := (undoVec f g [] h).feed s h) _ _ hr.streams hz]
  rfl

theorem vecHalf_push (hf : f.op ∈ [AOp.rfmul, .rfadd, .rcvt, .rnrw]) : vecHalf f g s h = revPush f g s h := by
  obtain ⟨op, apd, apa, apb⟩ := f
  simp only [List.mem_cons, List.not_mem_nil, or_false] at hf
  obtain rfl | rfl | rfl | rfl := hf <;> rfl

theorem vecHalf_pop (hf : f.op ∈ [AOp.ufmul, .ufadd, .ucvt, .unrw]) : vecHalf f g s h = revPop f g s h := by
  obtain ⟨op, apd, apa, apb⟩ := f
  simp only [List.mem_cons, List.not_mem_nil, or_false] at hf
  obtain rfl | rfl | rfl | rfl := hf <;> rfl

/-! ### Mask logic (R160) -/

theorem vecHalf_maskLogic (hf : f.op ∈ [AOp.kand, .kor, .kxor, .kandn, .knot, .kmw, .kmr]) :
    vecHalf f g s h = .done ((s.setHart (maskLogic f h)).dispatch h 2 0 (maskJob f)) := by
  obtain ⟨op, apd, apa, apb⟩ := f
  simp only [List.mem_cons, List.not_mem_nil, or_false] at hf
  obtain rfl | rfl | rfl | rfl | rfl | rfl | rfl := hf <;> rfl

end

end Sys2Proof.Machine

namespace Sys2Proof.Proofs

open Sys2Proof Sys2Proof.Machine

/-- Settles O45: what the vector half comes to, alone, and then the commit of the pair. -/
theorem pairsCommitTogether : Obligations.PairsCommitTogether := by
  unfold Obligations.PairsCommitTogether
  intro s t h g gs sc f v hs guard
  refine ⟨fun rd ra rb => ?_, fun hv => ?_, fun hf => ⟨fun r hr => ?_, fun hp => ?_⟩, fun hf => ⟨fun r hr => ?_, fun hp => ?_⟩,
    fun hf => exec_pair_done hs sc (vecHalf_maskLogic hf)⟩
  · exact ⟨rfl, rfl, rfl, rfl, rfl, rfl, scalarHalf_sll .., scalarHalf_srl .., scalarHalf_sra .., fun imm =>
      ⟨scalarHalf_addi .., scalarHalf_slli .., scalarHalf_srli .., scalarHalf_srai ..⟩⟩
  · have hrun : vecHalf f guard s h = Vec.run v s h := by rw [vecHalf_of_sweep? hv]
    exact ⟨fun r hr => exec_pair_trap hs sc (hrun.trans (Vec.run_fault hr)),
      fun hc => exec_pair_done hs sc (hrun.trans (Vec.run_completes (AHalf.plain_of_sweep? hv h) hc)),
      fun k b r hstop => exec_pair_trap hs sc (hrun.trans (Vec.run_stops hstop))⟩
  · exact exec_pair_trap hs sc ((vecHalf_push hf).trans (revPush_fault hr))
  · exact exec_pair_done hs sc ((vecHalf_push hf).trans (revPush_pushed hp))
  · exact exec_pair_trap hs sc ((vecHalf_pop hf).trans (revPop_fault hr))
  · exact exec_pair_done hs sc ((vecHalf_pop hf).trans (revPop_popped hp))

end Sys2Proof.Proofs
end

section
/-! Mask logic and compares of integer elements (R120, R147, R160, R161). -/

namespace Sys2Proof.Machine

open Sys2Proof

/-! ### Mask logic (R160) -/

@[simp] theorem kField_toNat_mod (k : KReg) : (kField k).toNat % 8 = k.toNat := by
  revert k
  decide

section
variable (kd ka kb : KReg)

/-- A number of a mask register in what the queues hold: k0 is none (R147). -/
theorem filter_kreg : [kd.toNat].filter (fun k => k != 0) = if kd.toNat = 0 then [] else [kd.toNat] := by
  by_cases hk : kd.toNat = 0 <;> simp [hk]

theorem filter_kreg_zero : [ka.toNat, 0].filter (fun k => k != 0) = [ka.toNat].filter (fun k => k != 0) := by
  simp [List.filter_cons]

theorem maskJob_binary {op : AOp} (hr : op ≠ .kmr) (hw : op ≠ .kmw) : maskJob ⟨op, kField kd, kField ka, kField kb⟩ =
    { kr := [ka.toNat, kb.toNat].filter (fun k => k != 0), kw := [kd.toNat].filter (fun k => k != 0) } := by
  simp only [maskJob, if_neg hr, if_neg hw, kField_toNat_mod, filter_kreg]

theorem maskJob_knot : maskJob ⟨.knot, kField kd, kField ka, 0⟩ =
    { kr := [ka.toNat].filter (fun k => k != 0), kw := [kd.toNat].filter (fun k => k != 0) } := by
  rw [← filter_kreg_zero ka, filter_kreg kd, ← kField_toNat_mod ka, ← kField_toNat_mod kd]
  rfl

theorem maskJob_kmr : maskJob ⟨.kmr, kField kd, 0, 0⟩ = { kr := [8], kw := [kd.toNat].filter (fun k => k != 0) } := by
  rw [filter_kreg kd, ← kField_toNat_mod kd]
  rfl

theorem maskJob_kmw : maskJob ⟨.kmw, 0, kField ka, 0⟩ = { kr := [ka.toNat].filter (fun k => k != 0), kw := [8] } := by
  rw [← filter_kreg_zero ka, ← kField_toNat_mod ka]
  rfl

end

/-- Mask logic: its hart, and what the core's queues hold of it. -/
theorem exec_maskLogic {s : State} {h h' : Hart} (hs : s.hart? = some h) {i : Instr} {f : AHalf} {mask : BitVec 2} {j : Job}
    (hi : i.toHalf = some (f, mask)) (hf : f.op ∈ [AOp.kand, .kor, .kxor, .kandn, .knot, .kmw, .kmr]) (hh : maskLogic f h = h')
    (hj : maskJob f = j) : exec i s = .next (((s.setHart h').dispatch h 2 0 j).stepOver 4) := by
  rw [exec_toHalf hi, onHart_eq hs, vecHalf_maskLogic hf, Exec.outcome_done, hh, hj]

/-! ### One bit replaced (R161) -/

theorem getLsbD_oneBit {n : Nat} (p : Nat) {e : Nat} (he : e < n) : (1#n <<< p).getLsbD e = decide (e = p) := by
  rw [BitVec.getLsbD_shiftLeft, BitVec.getLsbD_one, decide_eq_true he, decide_eq_true (Nat.zero_lt_of_lt he)]
  simp only [Bool.true_and, ← decide_not, ← Bool.decide_and, decide_eq_decide]
  omega

theorem getLsbD_setBit {n : Nat} (v : BitVec n) (p : Nat) {e : Nat} (he : e < n) (b : Bool) :
    (setBit v p b).getLsbD e = if e = p then b else v.getLsbD e := by
  cases b with
  | false =>
    change (v &&& ~~~(1#n <<< p)).getLsbD e = _
    rw [BitVec.getLsbD_and, BitVec.getLsbD_not, getLsbD_oneBit p he, decide_eq_true he]
    split
    next h => rw [decide_eq_true h, Bool.not_true, Bool.and_false, Bool.and_false]
    next h => rw [decide_eq_false h, Bool.not_false, Bool.and_true, Bool.and_true]
  | true =>
    change (v ||| 1#n <<< p).getLsbD e = _
    rw [BitVec.getLsbD_or, getLsbD_oneBit p he]
    split
    next h => rw [decide_eq_true h, Bool.or_true]
    next h => rw [decide_eq_false h, Bool.or_false]

theorem Hart.getK_setK {h : Hart} {n : Nat} (hn : n ≠ 0) (v : BitVec 1024) : (h.setK n v).getK n = v := by
  rw [Hart.getK, Hart.setK, if_neg hn, if_neg hn]
  exact SMap.get_set_self _ _ _

theorem Hart.getK_congr {g h : Hart} (hk : g.k = h.k) (n : Nat) : g.getK n = h.getK n := by rw [Hart.getK, Hart.getK, hk]

/-! ### Compares (R161) -/

/-- The condition of a compare of integer elements at position e. -/
def Hart.compares (h : Hart) (c : Int → Int → Bool) (f : AHalf) (e : Nat) : Bool :=
  c (intVal (h.apt f.apa).ty (h.getEl (h.apt f.apa) 0 e)) (intVal (h.apt f.apb).ty (h.getEl (h.apt f.apb) 0 e))

section
variable {h : Hart} {f : AHalf} {gd : Guard} {c : Int → Int → Bool} (hc : ∀ ty a b, compare f.op ty a b = (c (intVal ty a) (intVal ty b), 0))
include hc

theorem compareVec_effect_flags (s : State) (x : Hart) (r e : Nat) : ((compareVec f gd h).effect ⟨s, h, [], none, []⟩ x r e).2 = 0 := by
  change (compare f.op _ _ _).2 ||| 0 = 0
  rw [hc]
  exact BitVec.or_zero

variable (hty : (h.apt f.apa).ty = (h.apt f.apb).ty)
include hty

theorem compareVec_effect (s : State) (x : Hart) (r e : Nat) : ((compareVec f gd h).effect ⟨s, h, [], none, []⟩ x r e).1 =
    x.setK (f.apd.toNat % 8) (setBit (x.getK (f.apd.toNat % 8)) (e % 1024) (h.compares c f e)) := by
  change x.setK (f.apd.toNat % 8) (setBit (x.getK (f.apd.toNat % 8)) (e % 1024) (compare f.op _ _ _).1) = _
  rw [hc, Hart.compares, ← hty]

/-- The bits of kd after the first n items of a compare. -/
theorem compareVec_bits (hkd : f.apd.toNat % 8 ≠ 0) (hvl : h.vl ≤ 1024) (s : State) {e : Nat} (he : e < 1024) : ∀ n, n ≤ h.vl →
    (((List.range n).foldl (sweepStep h.vl (h.active gd) ((compareVec f gd h).effect ⟨s, h, [], none, []⟩)) (h, 0)).1.getK
      (f.apd.toNat % 8)).getLsbD e =
      if e < n ∧ h.active gd 0 e = true then h.compares c f e else (h.getK (f.apd.toNat % 8)).getLsbD e
  | 0, _ => by
    rw [if_neg (fun hx => Nat.not_lt_zero e hx.1)]
    rfl
  | n + 1, hn => by
    have ih := compareVec_bits hkd hvl s he n (Nat.le_of_succ_le hn)
    rw [List.range_succ, List.foldl_append, List.foldl_cons, List.foldl_nil, sweepStep, Nat.div_eq_of_lt hn, Nat.mod_eq_of_lt hn]
    cases hact : h.active gd 0 n with
    | false =>
      have hlast : (e < n + 1 ∧ h.active gd 0 e = true) ↔ (e < n ∧ h.active gd 0 e = true) := by
        refine and_congr_left fun hx => ?_
        have hen : e ≠ n := fun hen => by rw [hen, hact] at hx; cases hx
        omega
      rw [if_neg Bool.false_ne_true, ih, if_congr hlast rfl rfl]
    | true =>
      rw [if_pos rfl]
      dsimp only
      rw [compareVec_effect hc hty, Hart.getK_setK hkd, getLsbD_setBit _ _ he, Nat.mod_eq_of_lt (Nat.lt_of_lt_of_le hn hvl), ih]
      by_cases hen : e = n
      · rw [if_pos hen, hen, if_pos ⟨Nat.lt_succ_self n, hact⟩]
      · rw [if_neg hen]
        exact if_congr (and_congr_left' (by omega)) rfl rfl

end

/-- A compare that starts at SWI 0 sweeps all of row 0. -/
theorem compareVec_result {h : Hart} {f : AHalf} {gd : Guard} (s : State) (hswi : h.swi = 0) : (compareVec f gd h).result h ⟨s, h, [], none, []⟩ =
    (List.range h.vl).foldl (sweepStep h.vl (h.active gd) ((compareVec f gd h).effect ⟨s, h, [], none, []⟩)) (h, 0) := by
  have hfirst : (compareVec f gd h).first h = 0 := if_pos hswi
  have hitems : (compareVec f gd h).rc * (compareVec f gd h).vl - 0 = h.vl := Nat.one_mul h.vl
  rw [Vec.result, Vec.fold_eq, hfirst, hitems, List.range_eq_range']
  rfl

/-- A compare of integer elements that reads no stream completes: it raises no flag, and its hart has the mask registers of its sweep's end. -/
theorem exec_compare {s : State} {h : Hart} {i : Instr} {f : AHalf} {gd : Guard} {c : Int → Int → Bool} (hs : s.hart? = some h)
    (hi : i.sweep? = some (4, compareVec f gd)) (hc : ∀ ty a b, compare f.op ty a b = (c (intVal ty a) (intVal ty b), 0))
    (hr : (compareVec f gd h).Ready s h) (hst : (compareVec f gd h).streamed h = false) :
    ∃ t h', exec i s = .next t ∧ t.hart? = some h' ∧ h'.k = ((compareVec f gd h).result h ⟨s, h, [], none, []⟩).1.k := by
  have hl : (compareVec f gd h).link = false := rfl
  have hfeed := Vec.feed_unstreamed hst s
  have hz : ((compareVec f gd h).result h ⟨s, h, [], none, []⟩).2 = 0 := by
    rw [Vec.result, Vec.fold_eq]
    exact sweepStep_noFlags (compareVec_effect_flags hc s) _ _
  have hx := (compareVec_keeps (f := f) (g := gd) (h := h) (masks := True) (carries := False) (latches := False)
    (cells := fun _ => False) trivial).result (f := ⟨s, h, [], none, []⟩) rfl
  have hend := hx.setHart_eq ((compareVec f gd h).result h ⟨s, h, [], none, []⟩).2 hs
  have hcur : h.hid = s.cur := State.hid_of_hart? hs
  have hgate := State.hart?_dispatch hend hcur (compareVec f gd h).cls (compareVec f gd h).charge
    { (compareVec f gd h).job h with dropped := false }
  rw [← State.dispatchVec_unlinked hl] at hgate
  refine ⟨_, _, exec_completes hs hi ?_, State.hart?_stepOver hgate 4, Hart.commit_k _ _⟩
  rw [Vec.met_unlinked hl, Vec.entry_unlinked hl]
  exact ⟨hr, by rw [hfeed, hz]; exact BitVec.and_zero, by rw [hfeed]⟩

end Sys2Proof.Machine

namespace Sys2Proof.Proofs

open Sys2Proof Sys2Proof.Machine

/-- Settles O44: mask logic form by form, and the bits of kd by induction on the items of a compare. -/
theorem maskLogicAndCompares : Obligations.MaskLogicAndCompares := by
  unfold Obligations.MaskLogicAndCompares
  intro s h kd ka kb apa apb mask hs a b did w ab
  refine ⟨exec_maskLogic hs rfl (by simp) ?_ (maskJob_binary kd ka kb (by decide) (by decide)),
    exec_maskLogic hs rfl (by simp) ?_ (maskJob_binary kd ka kb (by decide) (by decide)),
    exec_maskLogic hs rfl (by simp) ?_ (maskJob_binary kd ka kb (by decide) (by decide)),
    exec_maskLogic hs rfl (by simp) ?_ (maskJob_binary kd ka kb (by decide) (by decide)),
    exec_maskLogic hs rfl (by simp) ?_ (maskJob_knot kd ka), exec_maskLogic hs rfl (by simp) ?_ (maskJob_kmr kd),
    exec_maskLogic hs rfl (by simp) ?_ (maskJob_kmw ka), ?_⟩
  iterate 7 simp only [maskLogic, kField_toNat_mod, a, b]
  intro i op c hform v hr hst hswi hvl hkd
  obtain ⟨hi, hcmp⟩ : i.sweep? = some (4, compareVec ⟨op, kField kd, apa, apb⟩ (maskGuard mask)) ∧
      ∀ ty a b, compare op ty a b = (c (intVal ty a) (intVal ty b), 0) := by
    obtain ⟨rfl, rfl, rfl⟩ | ⟨rfl, rfl, rfl⟩ | ⟨rfl, rfl, rfl⟩ | ⟨rfl, rfl, rfl⟩ := hform <;> exact ⟨rfl, fun _ _ _ => rfl⟩
  have hty : (h.apt apa).ty = (h.apt apb).ty := of_decide_eq_true (Bool.and_eq_true_iff.mp hr.typesOk).1
  have hfield : (kField kd).toNat % 8 = kd.toNat := kField_toNat_mod kd
  have hk : (kField kd).toNat % 8 ≠ 0 := fun h0 => hkd (BitVec.eq_of_toNat_eq (hfield ▸ h0))
  obtain ⟨t, h', he, ht, hkeep⟩ := exec_compare hs hi hcmp hr hst
  refine ⟨t, h', he, ht, fun e he1 => ?_⟩
  have hbits := compareVec_bits (gd := maskGuard mask) (f := ⟨op, kField kd, apa, apb⟩) hcmp hty hk hvl s he1 h.vl le_rfl
  rw [← compareVec_result s hswi, hfield] at hbits
  rw [Hart.getK_congr hkeep, hbits]
  rfl

end Sys2Proof.Proofs
end

section
/-! The scalar integer instructions: registers, shifts, immediates, multiply and divide, with the encodings of the last two (R125 to R127). -/

namespace Sys2Proof.Machine

open Sys2Proof

/-! ### One result written (R125 to R127) -/

/-- An instruction that gives one register a value, whichever way the value is written. -/
theorem hartOp_setX {s : State} {h : Hart} (hs : s.hart? = some h) {len : Nat} {f : Hart → Hart} {rd : XReg} {x v : Word}
    (hf : f h = h.setX rd x) (hx : x = v) : hartOp len s f = .next (s.ran (h.setX rd v) len) := by
  rw [hartOp_eq hs, hf, hx]

/-! ### Sums, differences and shifts as numbers (R125, R126) -/

section
variable (a b : Word) (imm : BitVec 16)

theorem add_eq_ofInt : a + b = BitVec.ofInt 64 (a.toInt + b.toInt) := by
  rw [BitVec.ofInt_add, BitVec.ofInt_toInt, BitVec.ofInt_toInt]

theorem sub_eq_ofInt : a - b = BitVec.ofInt 64 (a.toInt - b.toInt) := by
  rw [Int.sub_eq_add_neg, BitVec.ofInt_add, BitVec.ofInt_neg, BitVec.ofInt_toInt, BitVec.ofInt_toInt, BitVec.sub_eq_add_neg]

theorem add_simm_eq_ofInt : a + simm imm = BitVec.ofInt 64 (a.toInt + imm.toInt) := by
  rw [BitVec.ofInt_add, BitVec.ofInt_toInt, simm, BitVec.signExtend]

theorem add_mul_eq_ofNat (k : Nat) : a + BitVec.ofNat 64 k * b = BitVec.ofNat 64 (a.toNat + k * b.toNat) := by
  rw [BitVec.ofNat_add, BitVec.ofNat_mul, BitVec.ofNat_toNat, BitVec.ofNat_toNat, BitVec.setWidth_eq, BitVec.setWidth_eq]

theorem zimm_eq_ofNat : zimm imm = BitVec.ofNat 64 imm.toNat := (BitVec.ofNat_toNat ..).symm

theorem shiftIn_eq_ofNat : a <<< 16 + zimm imm = BitVec.ofNat 64 (a.toNat * 2 ^ 16 + imm.toNat) := by
  rw [shiftLeft_eq_ofNat, zimm_eq_ofNat, ← BitVec.ofNat_add]

/-- The shift count of a register is its bits 5:0. -/
theorem bits_shift : bits b.toNat 5 0 = b.toNat % 64 := by simp [bits]

theorem shiftLeft_bits : a <<< (b.toNat % 64) = BitVec.ofNat 64 (a.toNat * 2 ^ bits b.toNat 5 0) := by
  rw [bits_shift, shiftLeft_eq_ofNat]

theorem ushiftRight_bits : a >>> (b.toNat % 64) = BitVec.ofNat 64 (a.toNat / 2 ^ bits b.toNat 5 0) := by
  rw [bits_shift, ushiftRight_eq_ofNat]

theorem sshiftRight_bits : a.sshiftRight (b.toNat % 64) = BitVec.ofInt 64 (a.toInt / 2 ^ bits b.toNat 5 0) := by
  rw [bits_shift, sshiftRight_eq_ofInt]

theorem signExt_eq_ofInt {n : Nat} (hn : 0 < n) : signExt n a = BitVec.ofInt 64 (sext a.toNat n) := by
  obtain ⟨m, rfl⟩ : ∃ m, n = m + 1 := ⟨n - 1, by omega⟩
  rw [signExt, BitVec.signExtend, BitVec.toInt_eq_toNat_cond, BitVec.toNat_setWidth, sext, if_neg (Nat.succ_ne_zero m), Nat.add_sub_cancel,
    Nat.pow_succ']
  congr 1
  split <;> split <;> omega

theorem zeroExt_eq_ofNat (n : Nat) : zeroExt n a = BitVec.ofNat 64 (a.toNat % 2 ^ n) := by
  rw [zeroExt, ← BitVec.toNat_setWidth, BitVec.ofNat_toNat]

/-! ### Comparisons (R125, R126) -/

theorem boolWord_slt : boolWord (a.slt b) = if a.toInt < b.toInt then 1 else 0 := by simp [boolWord, BitVec.slt]

theorem boolWord_ult : boolWord (a.ult b) = if a.toNat < b.toNat then 1 else 0 := by simp [boolWord, BitVec.ult]

theorem boolWord_slt_simm (imm : BitVec 16) : boolWord (a.slt (simm imm)) = if a.toInt < imm.toInt then 1 else 0 := by
  rw [boolWord_slt, simm, BitVec.toInt_signExtend_of_le (by decide)]

/-- The signed one of two words that is not below the other, or not above it. -/
theorem ite_slt {α : Type} (x y : α) : (if a.slt b then x else y) = if b.toInt ≤ a.toInt then y else x := by
  simp only [BitVec.slt, decide_eq_true_eq, ← not_le, ite_not]

theorem ite_ult {α : Type} (x y : α) : (if a.ult b then x else y) = if b.toNat ≤ a.toNat then y else x := by
  simp only [BitVec.ult, decide_eq_true_eq, ← not_le, ite_not]

end

/-! ### Counts of bits (R125) -/

/-- A word whose highest 1 bit is bit 63 − n has n leading zeros; 0 has 64. -/
theorem leadingZeros_eq {a : Word} {n : Nat} (hn : n ≤ 64) (hzero : ∀ i, 64 - n ≤ i → i < 64 → a.getLsbD i = false)
    (hone : n < 64 → a.getLsbD (63 - n) = true) : leadingZeros a = BitVec.ofNat 64 n := by
  unfold leadingZeros
  have hlt : a.toNat < 2 ^ (64 - n) := by
    refine Nat.lt_pow_two_of_testBit _ (fun i hi => ?_)
    by_cases h64 : i < 64
    · exact hzero i hi h64
    · exact BitVec.getLsbD_of_ge a i (by omega)
  split
  next ha =>
    obtain rfl : n = 64 := by
      by_contra hne
      have := hone (by omega)
      simp [ha] at this
    rfl
  next ha =>
    have hpos : a.toNat ≠ 0 := fun h0 => ha (BitVec.eq_of_toNat_eq h0)
    have hn64 : n < 64 := by
      by_contra hge
      obtain rfl : n = 64 := by omega
      omega
    have hle : 2 ^ (63 - n) ≤ a.toNat := Nat.ge_two_pow_of_testBit (hone hn64)
    have hlog : Nat.log2 a.toNat = 63 - n := (Nat.log2_eq_iff hpos).mpr ⟨hle, by rwa [show 63 - n + 1 = 64 - n by omega]⟩
    rw [hlog, show 63 - (63 - n) = n by omega]

/-- The count from bit i on ends at the lowest 1 bit from there, or past the last bit. -/
theorem trailingFrom_eq {a : Word} {n : Nat} : ∀ {m i : Nat}, i ≤ n → n ≤ i + m → (∀ j, i ≤ j → j < n → a.getLsbD j = false) →
    (n < i + m → a.getLsbD n = true) → trailingFrom a m i = n
  | 0, i, hi, hm, _, _ => by rw [trailingFrom]; omega
  | m + 1, i, hi, hm, hzero, hone => by
    rw [trailingFrom]
    split
    next hbit =>
      by_contra hne
      simp [hzero i le_rfl (by omega)] at hbit
    next hbit =>
      have hne : i ≠ n := by
        rintro rfl
        exact hbit (hone (by omega))
      exact trailingFrom_eq (by omega) (by omega) (fun j hj => hzero j (by omega)) (fun h => hone (by omega))

theorem trailingZeros_eq {a : Word} {n : Nat} (hn : n ≤ 64) (hzero : ∀ i, i < n → a.getLsbD i = false)
    (hone : n < 64 → a.getLsbD n = true) : trailingZeros a = BitVec.ofNat 64 n := by
  rw [trailingZeros, trailingFrom_eq (Nat.zero_le n) (by omega) (fun j _ => hzero j) (fun h => hone (by omega))]

theorem popCount_eq (a : Word) : popCount a = BitVec.ofNat 64 ((List.range 64).countP (fun i => a.getLsbD i)) := by
  rw [popCount, List.countP_eq_length_filter]

/-! ### Products and quotients (R127) -/

section
variable (a b : Word)

theorem mul_eq_ofNat : a * b = BitVec.ofNat 64 (a.toNat * b.toNat) := by
  rw [BitVec.ofNat_mul, BitVec.ofNat_toNat, BitVec.ofNat_toNat, BitVec.setWidth_eq, BitVec.setWidth_eq]

theorem highWord_eq_ofInt (x : Int) : highWord x = BitVec.ofInt 64 (x / 2 ^ 64) := by
  rw [highWord, word_eq_ofInt]
  norm_cast

theorem highWord_eq_ofNat (x : Nat) : highWord x = BitVec.ofNat 64 (x / 2 ^ 64) := by
  rw [highWord_eq_ofInt, ← BitVec.ofInt_natCast]
  norm_cast

variable {b} (hb : b ≠ 0)
include hb

theorem divSigned_eq_ofInt : divSigned a b = BitVec.ofInt 64 (a.toInt.tdiv b.toInt) := by
  rw [divSigned, if_neg hb, word_eq_ofInt]

theorem remSigned_eq_ofInt : remSigned a b = BitVec.ofInt 64 (a.toInt - b.toInt * a.toInt.tdiv b.toInt) := by
  rw [remSigned, if_neg hb, word_eq_ofInt, Int.tmod_def]

theorem div_eq_ofNat : (if b = 0 then BitVec.allOnes 64 else a / b) = BitVec.ofNat 64 (a.toNat / b.toNat) := by
  rw [if_neg hb, ← BitVec.toNat_udiv, BitVec.ofNat_toNat, BitVec.setWidth_eq]

theorem mod_eq_ofNat : (if b = 0 then a else a % b) = BitVec.ofNat 64 (a.toNat % b.toNat) := by
  rw [if_neg hb, ← BitVec.toNat_umod, BitVec.ofNat_toNat, BitVec.setWidth_eq]

end

theorem divSigned_zero (a : Word) {b : Word} (hb : b = 0) : divSigned a b = BitVec.ofInt 64 (-1) := (if_pos hb).trans (by decide)

theorem divUnsigned_zero (a : Word) {b : Word} (hb : b = 0) : (if b = 0 then BitVec.allOnes 64 else a / b) = BitVec.ofInt 64 (-1) :=
  (if_pos hb).trans (by decide)

/-- The quotient 2^63, which no 64-bit integer is, wraps to −2^63, and nothing remains. -/
theorem divSigned_overflow {a b : Word} (ha : a = BitVec.ofInt 64 (-2 ^ 63)) (hb : b = BitVec.ofInt 64 (-1)) :
    divSigned a b = BitVec.ofInt 64 (-2 ^ 63) ∧ remSigned a b = 0 := by
  subst ha hb
  decide

/-! ### Encodings of multiply and divide (R127) -/

theorem decode_none {w v : IWord} (h : rawDecode w v = none) : decode w v = none := by simp [decode, h]

/-- Of major 0x09 every func value but those of the eight instructions is reserved. -/
theorem decode_reservedR09 (rd ra rb : XReg) {f : BitVec 11} (v : IWord) (hf : f.toNat ∉ [0, 1, 2, 3, 8, 9, 10, 11]) :
    decode (rWord 0x09 rd ra rb f) v = none := by
  have hmajor : rawDecode (rWord 0x09 rd ra rb f) v = rawR09 (rWord 0x09 rd ra rb f) := by
    rw [rawDecode, Laws.fMajor_rWord]
    rfl
  have hfunc : fFunc (rWord 0x09 rd ra rb f) = f := by
    simp (disch := decide) only [fFunc, rWord, Laws.field_below, Laws.field_all]
  refine decode_none ?_
  rw [hmajor, rawR09, hfunc]
  split <;> simp_all

end Sys2Proof.Machine

namespace Sys2Proof.Proofs

open Sys2Proof Sys2Proof.Machine

/-- Settles O7, form by form: each writes the value of a function of its operands, which is then read as a number. -/
theorem integerForms : Obligations.IntegerForms := by
  unfold Obligations.IntegerForms
  intro s h rd ra rb imm hs a b k w
  have put {f : Hart → Hart} {x v : Word} (hf : f h = h.setX rd x) (hx : x = v) : hartOp 4 s f = w v := hartOp_setX hs hf hx
  refine ⟨put rfl (add_eq_ofInt a b), put rfl (sub_eq_ofInt a b), put rfl rfl, put rfl rfl, put rfl rfl, put rfl rfl,
    put rfl (shiftLeft_bits a b), put rfl (ushiftRight_bits a b), put rfl (sshiftRight_bits a b), put rfl (boolWord_slt a b),
    put rfl (boolWord_ult a b), put rfl (ite_slt b a b a), put rfl (ite_slt a b b a), put rfl (ite_ult b a b a), put rfl (ite_ult a b b a),
    put rfl (add_mul_eq_ofNat a b 2), put rfl (add_mul_eq_ofNat a b 4), put rfl (add_mul_eq_ofNat a b 8),
    fun n hn hzero hone => put rfl (leadingZeros_eq hn hzero hone), fun n hn hzero hone => put rfl (trailingZeros_eq hn hzero hone),
    put rfl (popCount_eq a), put rfl (signExt_eq_ofInt a (by decide)), put rfl (signExt_eq_ofInt a (by decide)),
    put rfl (signExt_eq_ofInt a (by decide)), put rfl (zeroExt_eq_ofNat a 8), put rfl (zeroExt_eq_ofNat a 16), put rfl (zeroExt_eq_ofNat a 32),
    put rfl (add_simm_eq_ofInt a imm), put rfl (congrArg (a &&& ·) (zimm_eq_ofNat imm)), put rfl (congrArg (a ||| ·) (zimm_eq_ofNat imm)),
    put rfl (congrArg (a ^^^ ·) (zimm_eq_ofNat imm)), put rfl (boolWord_slt_simm a imm), put rfl (boolWord_ult a (simm imm)),
    put rfl (shiftIn_eq_ofNat a imm), fun n => ⟨put rfl (shiftLeft_eq_ofNat a _), put rfl (ushiftRight_eq_ofNat a _),
      put rfl (sshiftRight_eq_ofInt a _)⟩⟩

/-- Settles O8: the eight instructions by their encodings, which decode to them, and by what products and quotients are as numbers. -/
theorem multiplyAndDivide : Obligations.MultiplyAndDivide := by
  unfold Obligations.MultiplyAndDivide
  refine ⟨fun rd ra rb f v hf => decode_reservedR09 rd ra rb v hf, ?_⟩
  intro s h rd ra rb hs a b r
  have row {i : Instr} {f : BitVec 11} {v x : Word} {g : Hart → Hart} (hwf : i.wf = true) (he : encode i = .one (rWord 0x09 rd ra rb f))
      (hi : exec i s = hartOp 4 s g) (hg : g h = h.setX rd x) (hx : x = v) : r i f v :=
    ⟨he, fun _ => encodedInstructionsDecode i _ _ hwf (.inl he), hi.trans (hartOp_setX hs hg hx)⟩
  refine ⟨row rfl rfl rfl rfl (mul_eq_ofNat a b), row rfl rfl rfl rfl (highWord_eq_ofInt _), row rfl rfl rfl rfl (highWord_eq_ofNat _),
    row rfl rfl rfl rfl (highWord_eq_ofInt _), fun hb => ⟨row rfl rfl rfl rfl (divSigned_eq_ofInt a hb), row rfl rfl rfl rfl (div_eq_ofNat a hb),
      row rfl rfl rfl rfl (remSigned_eq_ofInt a hb), row rfl rfl rfl rfl (mod_eq_ofNat a hb)⟩,
    fun hb => ⟨row rfl rfl rfl rfl (divSigned_zero a hb), row rfl rfl rfl rfl (divUnsigned_zero a hb), row rfl rfl rfl rfl (if_pos hb),
      row rfl rfl rfl rfl (if_pos hb)⟩,
    fun ha hb => ⟨row rfl rfl rfl rfl (divSigned_overflow ha hb).1, row rfl rfl rfl rfl (divSigned_overflow ha hb).2⟩⟩

end Sys2Proof.Proofs
end

section
/-! `sliceof`, the conditional branches and the jumps, with the encodings of the last two (R128 to R132, R428). -/

namespace Sys2Proof.Machine

open Sys2Proof

/-! ### `sliceof` (R128, R428) -/

section
variable {s : State} {h : Hart} {va : Word}

theorem State.sliceOf_noHome (hp : pathOf va ∈ [1, 2, 5, 6]) : s.sliceOf h va = 2 ^ 62 := by
  simp only [List.mem_cons, List.not_mem_nil, or_false] at hp
  rw [State.sliceOf, if_pos hp]

/-- On the other paths the answer is about the leaf of the address, or of the block of a path-4 address. -/
theorem State.sliceOf_leaf (hp : pathOf va ∉ [1, 2, 5, 6]) : s.sliceOf h va = match s.validLeaf h (viewBase va) with
    | none => 2 ^ 63
    | some (e, level) =>
      let pa := leafAddr e level ((viewBase va).toNat % 2 ^ 61)
      BitVec.ofNat 64 ((if isTier2 pa then 2 ^ 10 else 0) + (if pteBit e 51 then 2 ^ 9 else 0) + homeDie pa * 2 ^ 6 + homeSlice pa) := by
  simp only [List.mem_cons, List.not_mem_nil, or_false] at hp
  rw [State.sliceOf, if_neg hp]
  rfl

theorem State.sliceOf_unmapped (hp : pathOf va ∉ [1, 2, 5, 6]) (hl : s.validLeaf h (viewBase va) = none) : s.sliceOf h va = 2 ^ 63 := by
  rw [State.sliceOf_leaf hp, hl]

theorem State.sliceOf_mapped (hp : pathOf va ∉ [1, 2, 5, 6]) {e level : Nat} (hl : s.validLeaf h (viewBase va) = some (e, level)) :
    let pa := leafAddr e level ((viewBase va).toNat % 2 ^ 61)
    s.sliceOf h va = BitVec.ofNat 64 ((if isTier2 pa then 2 ^ 10 else 0) + (if pteBit e 51 then 2 ^ 9 else 0) + homeDie pa * 2 ^ 6 +
      homeSlice pa) := by
  rw [State.sliceOf_leaf hp, hl]

theorem viewBase_path4 (hp : pathOf va = 4) : viewBase va = BitVec.ofNat 64 (64 * (va.toNat % 2 ^ 61 / 128)) := if_pos hp

theorem viewBase_same (hp : pathOf va ≠ 4) : viewBase va = va := if_neg hp

end

/-! ### Branches and jumps (R130, R131) -/

theorem branchTarget_eq_ofInt {n : Nat} (pc : Word) (disp : BitVec n) :
    branchTarget pc disp = BitVec.ofInt 64 (pc.toInt + 4 * disp.toInt) := by
  rw [branchTarget, BitVec.ofInt_add, BitVec.ofInt_mul, BitVec.ofInt_toInt, BitVec.signExtend]
  rfl

theorem not_slt_iff (a b : Word) : (!a.slt b) = true ↔ a.toInt ≥ b.toInt := by simp [BitVec.slt]

theorem not_ult_iff (a b : Word) : (!a.ult b) = true ↔ a.toNat ≥ b.toNat := by simp [BitVec.ult]

section
variable {s : State} {h : Hart} (hs : s.hart? = some h) {ra rb : XReg} {disp : BitVec 16} {cond : Word → Word → Bool}
include hs

theorem branch_taken (hc : cond (h.getX ra) (h.getX rb) = true) :
    branch ra rb disp cond s = .next (s.went (BitVec.ofInt 64 (h.pc.toInt + 4 * disp.toInt))) := by
  rw [branch, onHart_eq hs, if_pos hc, branchTarget_eq_ofInt]
  rfl

theorem branch_notTaken (hc : cond (h.getX ra) (h.getX rb) = false) : branch ra rb disp cond s = .next (s.stepOver 4) := by
  rw [branch, onHart_eq hs, hc]
  rfl

end

end Sys2Proof.Machine

namespace Sys2Proof.Proofs

open Sys2Proof Sys2Proof.Machine

/-- Settles O9: by the path, and by the leaf of the address that the path looks at. -/
theorem sliceofReportsTheHome : Obligations.SliceofReportsTheHome := by
  unfold Obligations.SliceofReportsTheHome
  intro s h rd ra hs va w
  have put {v : Word} (hv : s.sliceOf h va = v) : exec (.sliceof rd ra) s = w v := hartOp_setX hs rfl hv
  have hdirect (hp : pathOf va ∈ [0, 3, 7]) : pathOf va ∉ [1, 2, 5, 6] ∧ viewBase va = va := by
    simp only [List.mem_cons, List.not_mem_nil, or_false] at hp ⊢
    exact ⟨by omega, viewBase_same (by omega)⟩
  have hview (hp : pathOf va = 4) : pathOf va ∉ [1, 2, 5, 6] := by simp [hp]
  refine ⟨fun hp => put (State.sliceOf_noHome hp), fun hp hl => ?_, fun hp hl => ?_, ?_⟩
  · obtain ⟨hn, hv⟩ := hdirect hp
    exact put (State.sliceOf_unmapped hn (by rw [hv, hl]))
  · exact put (State.sliceOf_unmapped (hview hp) (by rw [viewBase_path4 hp, hl]))
  · intro v e level hcase hl
    obtain ⟨hn, rfl⟩ : pathOf va ∉ [1, 2, 5, 6] ∧ viewBase va = v := by
      obtain ⟨hp, rfl⟩ | ⟨hp, rfl⟩ := hcase
      · exact hdirect hp
      · exact ⟨hview hp, viewBase_path4 hp⟩
    exact put (State.sliceOf_mapped hn hl)

/-- Settles O10: the six branches by their encodings and by their conditions. -/
theorem conditionalBranches : Obligations.ConditionalBranches := by
  unfold Obligations.ConditionalBranches
  intro s h ra rb disp hs a b r
  have row {i : Instr} {major : BitVec 6} {c : Prop} {cond : Word → Word → Bool} (hwf : i.wf = true)
      (he : encode i = .one (iWord major ra rb disp)) (hi : exec i s = branch ra rb disp cond s) (hc : cond a b = true ↔ c) : r i major c :=
    ⟨fun _ => encodedInstructionsDecode i _ _ hwf (.inl he), fun h => hi.trans (branch_taken hs (hc.mpr h)),
      fun h => hi.trans (branch_notTaken hs (Bool.eq_false_iff.mpr (mt hc.mp h)))⟩
  exact ⟨row rfl rfl rfl beq_iff_eq, row rfl rfl rfl bne_iff_ne, row rfl rfl rfl BitVec.slt_iff_toInt_lt,
    row (cond := fun a b => !a.slt b) rfl rfl rfl (not_slt_iff a b), row rfl rfl rfl BitVec.ult_iff_toNat_lt,
    row (cond := fun a b => !a.ult b) rfl rfl rfl (not_ult_iff a b)⟩

/-- Settles O11: the three jumps by their encodings, and their targets as numbers. -/
theorem jumps : Obligations.Jumps := by
  unfold Obligations.Jumps
  intro s h rd ra imm disp hs far
  have hfar : branchTarget h.pc disp = far := branchTarget_eq_ofInt h.pc disp
  have hdecode {i : Instr} {w : IWord} (hwf : i.wf = true) (he : encode i = .one w) (x : IWord) : decode w x = some i :=
    encodedInstructionsDecode i w x hwf (.inl he)
  refine ⟨hdecode rfl rfl, hdecode rfl rfl, hdecode rfl rfl, ?_, ?_, ?_⟩
  · rw [← hfar]
    exact onHart_eq hs 4 _
  · rw [← hfar]
    exact onHart_eq hs 4 _
  · rw [← add_simm_eq_ofInt]
    exact onHart_eq hs 4 _

end Sys2Proof.Proofs
end

section
/-! The frame of the scalar instructions (R125 to R132, R153, R376, R398). -/

namespace Sys2Proof.Machine

open Sys2Proof

/-! ### What they leave (R120) -/

theorem Hart.getX_zero (h : Hart) : h.getX 0 = 0 := rfl

theorem Hart.getX_setX_ne {h : Hart} {rd n : XReg} (hn : n ≠ rd) (v : Word) : (h.setX rd v).getX n = h.getX n := by
  have hne : n.toNat ≠ rd.toNat := fun he => hn (BitVec.eq_of_toNat_eq he)
  unfold Hart.setX
  split
  · rfl
  · rw [Hart.getX, Hart.getX, SMap.get_set_ne _ _ hne]

theorem Hart.setX_eq (h : Hart) (rd : XReg) (v : Word) : h.setX rd v = { h with x := (h.setX rd v).x } := by
  unfold Hart.setX
  split <;> rfl

theorem Hart.commit_eq (h : Hart) (pc : Word) : h.commit pc = { h with pc := pc, swi := 0, csr := (h.commit pc).csr } := by
  unfold Hart.commit Hart.clearRepeat
  split <;> rfl

/-- A result written and the program counter moved: no other register but SWI and RPTCNT changes. -/
theorem Hart.keepsButX_commit {h g : Hart} (hg : g = { h with x := g.x }) (pc : Word) : h.KeepsButX (g.commit pc) := by
  refine ⟨?_, fun n hn => ?_⟩
  · rw [Hart.commit_eq, hg]
  · rw [Hart.getCsr_commit hn, hg]
    rfl

/-- Registers put into the hart that moves, whose outstanding stores and what has arrived are the hart's own. -/
theorem State.hart?_setHart_own {s : State} {h g : Hart} (hs : s.hart? = some h) (hid : g.hid = h.hid) (hp : g.pending = h.pending)
    (hl : g.landed = h.landed) (hf : g.landedFlags = h.landedFlags) (he : g.engineFaults = h.engineFaults) : (s.setHart g).hart? = some g := by
  rw [State.hart?_setHart hs hid, ← hp, ← hl, ← hf, ← he]

theorem State.hart?_setHart_setX {s : State} {h : Hart} (hs : s.hart? = some h) (rd : XReg) (v : Word) :
    (s.setHart (h.setX rd v)).hart? = some (h.setX rd v) :=
  State.hart?_setHart_own hs (Hart.setX_hid ..) (Hart.setX_pending ..) (Hart.setX_landed ..) (Hart.setX_landedFlags ..)
    (Hart.setX_engineFaults ..)

/-! ### What they can do (R125 to R132, R153) -/

/-- One register has been written or none, and then the program counter has moved. -/
def State.Puts (s : State) (h : Hart) (rd : XReg) (t : State) : Prop :=
  ∃ (u : State) (pc : Hart → Word), (u = s ∨ ∃ v, u = s.setHart (h.setX rd v)) ∧ t = u.updHart (fun g => g.commit (pc g))

theorem hartOp_puts {s : State} {h : Hart} (hs : s.hart? = some h) {rd : XReg} {len : Nat} {f : Hart → Hart} {v : Word}
    (hf : f h = h.setX rd v) : ∃ t, hartOp len s f = .next t ∧ s.Puts h rd t :=
  ⟨_, hartOp_setX hs hf rfl, _, _, .inr ⟨v, rfl⟩, rfl⟩

theorem branch_puts {s : State} {h : Hart} (hs : s.hart? = some h) (ra rb : XReg) (disp : BitVec 16) (cond : Word → Word → Bool) :
    ∃ t, branch ra rb disp cond s = .next t ∧ s.Puts h 0 t := by
  cases hc : cond (h.getX ra) (h.getX rb) with
  | true => exact ⟨_, branch_taken hs hc, s, _, .inl rfl, rfl⟩
  | false => exact ⟨_, branch_notTaken hs hc, s, _, .inl rfl, rfl⟩

theorem exec_puts {i : Instr} {s : State} {h : Hart} {rd : XReg} (hi : i.xDest = some rd) (hs : s.hart? = some h) :
    ∃ t, exec i s = .next t ∧ s.Puts h rd t := by
  cases i with
  | beq | bne | blt | bltn =>
    obtain rfl : 0 = rd := Option.some.inj hi
    exact branch_puts hs ..
  | bge =>
    obtain rfl : 0 = rd := Option.some.inj hi
    exact branch_puts hs _ _ _ (fun a b => !a.slt b)
  | bgen =>
    obtain rfl : 0 = rd := Option.some.inj hi
    exact branch_puts hs _ _ _ (fun a b => !a.ult b)
  | jmp =>
    obtain rfl : 0 = rd := Option.some.inj hi
    exact ⟨_, onHart_eq hs 4 _, s, _, .inl rfl, rfl⟩
  | call | jmpl =>
    cases hi
    exact ⟨_, onHart_eq hs 4 _, _, _, .inr ⟨_, rfl⟩, rfl⟩
  | add | sub | and | or | xor | andn | sll | srl | sra | slt | sltn | min | max | minn | maxn | adds1 | adds2 | adds3 | mul | mulh | mulhn
  | mulhsn | div | divn | rem | remn | clz | ctz | popc | sxb | sxh | sxw | zxb | zxh | zxw | sliceof | slli | srli | srai | addi | andi | ori
  | xori | slti | sltni | lih | aget =>
    cases hi
    exact hartOp_puts hs rfl
  | _ => cases hi

end Sys2Proof.Machine

namespace Sys2Proof.Proofs

open Sys2Proof Sys2Proof.Machine

/-- Settles O12: one register is written or none, and then the program counter moves. -/
theorem scalarFrame : Obligations.ScalarFrame := by
  unfold Obligations.ScalarFrame
  intro i s t h rd hi hs ht
  obtain ⟨t', he, u, pc, hput, rfl⟩ := exec_puts hi hs
  obtain rfl := Host.Outcome.next.inj (ht.symm.trans he)
  have hmoved (g : Hart) (hg : g.hid = u.cur) : (g.commit (pc g)).hid = u.cur := (Hart.commit_hid _ _).trans hg
  obtain ⟨g, hu, hg, honly, hbyte, hother⟩ : ∃ g, u.hart? = some g ∧ g = { h with x := g.x } ∧ s.OnlyHart u ∧ (∀ a, u.byte a = s.byte a) ∧
      ∀ n, n ≠ rd → g.getX n = h.getX n := by
    obtain rfl | ⟨v, rfl⟩ := hput
    · exact ⟨h, hs, rfl, ⟨rfl, fun _ _ => rfl⟩, fun _ => rfl, fun _ _ => rfl⟩
    · exact ⟨h.setX rd v, State.hart?_setHart_setX hs rd v, Hart.setX_eq h rd v,
        s.onlyHart_setHart ((Hart.setX_hid ..).trans (State.hid_of_hart? hs)), fun _ => rfl, fun n hn => Hart.getX_setX_ne hn v⟩
  refine ⟨honly.trans (u.onlyHart_updHart hmoved), hbyte, g.commit (pc g), State.hart?_updHart hu (Hart.commit_hid _ _),
    Hart.keepsButX_commit hg _, Hart.getX_zero _, fun n hn => ?_⟩
  rw [Hart.getX, Hart.commit_x]
  exact hother n hn

end Sys2Proof.Proofs
end

section
/-! The CSR instructions: the numbers that fault, the old value read and the new one written (R104, R133 to R136, R138, R382). -/

namespace Sys2Proof.Machine

open Sys2Proof

/-! ### Numbers (R134, R382) -/

/-- The CSR numbers that the chapters assign (R135, R136, R371). -/
def assignedCsrs : List Nat := [0xc01, 0xc02, 0xc03, 0xc04, 0xc08, 0xc09, 0xc0a, 0xc10, 0xc11, 0xc13, 0xc20, 0xc21, 0xc22, 0xc30, 0xc31, 0xc32,
  0xc33, 0xc40, 0xc41, 0xc42, 0xc44, 0xc46, 0xc48, 0xc49, 0xc50, 0xd10, 0xd11, 0xd12, 0xd20, 0xd21, 0xd22, 0xd23, 0xd24, 0xd25, 0xd26, 0xd27,
  0xd28, 0xd29, 0xd2a, 0xd2b, 0xd2c, 0xd30, 0xd31, 0xd32, 0xd40, 0xd41, 0xd44, 0xd45, 0xd46, 0xd47, 0xd48, 0xd4c, 0xf20, 0xf21, 0xf22, 0xf23,
  0xf24, 0xf25, 0xf26, 0xf27, 0xf28, 0xf29, 0xf2a, 0xf2b, 0xf2c]

theorem csrAssigned_iff (n : Nat) : csrAssigned n = true ↔ n ∈ assignedCsrs := by
  have hrun (a : Nat) : (decide (a ≤ n) && decide (n ≤ a + 0xc)) = true ↔ n ∈ List.range' a 13 := by
    simp only [Bool.and_eq_true, decide_eq_true_eq, List.mem_range'_1]
    omega
  rw [csrAssigned, Bool.or_eq_true, Bool.or_eq_true, hrun 0xd20, hrun 0xf20, List.contains_iff_mem, ← List.mem_append, ← List.mem_append]
  exact List.Perm.mem_iff (by decide)

/-- The numbers of the two upper ranges that a privilege does not reach. -/
def Priv.Bars (p : Priv) (n : Nat) : Prop := (p = .u ∧ 0xd00 ≤ n ∧ n ≤ 0xdff) ∨ (p ≠ .m ∧ 0xf00 ≤ n ∧ n ≤ 0xfff)

theorem csrReach_iff (p : Priv) (n : Nat) : csrReach p n = true ↔ ¬ p.Bars n := by
  have hd : n / 256 = 0xd ↔ 0xd00 ≤ n ∧ n ≤ 0xdff := by omega
  have hf : n / 256 = 0xf ↔ 0xf00 ≤ n ∧ n ≤ 0xfff := by omega
  rw [Priv.Bars, ← hd, ← hf, csrReach]
  cases p with
  | u => simp
  | s =>
    simp
    omega
  | m => simp

section
variable {h : Hart} {n : Nat}

theorem Hart.csrFault_barred (hb : h.priv.Bars n) : h.csrFault n = some { code := 0x1001 } := by
  have hr : csrReach h.priv n = false := by simpa [hb] using csrReach_iff h.priv n
  simp [Hart.csrFault, hr, privilegeViolation]

theorem Hart.csrFault_unassigned (hb : ¬ h.priv.Bars n) (ha : n ∉ assignedCsrs) : h.csrFault n = some { code := 0x1101 } := by
  have hn : csrAssigned n = false := by simpa [ha] using csrAssigned_iff n
  simp [Hart.csrFault, (csrReach_iff ..).mpr hb, hn, illegalUse]

theorem Hart.csrFault_none (hb : ¬ h.priv.Bars n) (ha : n ∈ assignedCsrs) : h.csrFault n = none := by
  simp [Hart.csrFault, (csrReach_iff ..).mpr hb, (csrAssigned_iff n).mpr ha]

end

/-! ### The three instructions (R133) -/

section
variable (rd ra : XReg) (csr : BitVec 16) (s : State)

theorem exec_csrrw : exec (.csrrw rd ra csr) s = csrOp rd csr.toNat (fun h _ => some (h.getX ra)) s := rfl

theorem exec_csrrs : exec (.csrrs rd ra csr) s = csrOp rd csr.toNat (fun h old => if ra = 0 then none else some (old ||| h.getX ra)) s := rfl

theorem exec_csrrc : exec (.csrrc rd ra csr) s = csrOp rd csr.toNat (fun h old => if ra = 0 then none else some (old &&& ~~~(h.getX ra))) s :=
  rfl

end

/-! ### The three outcomes of an access (R133, R138, R374) -/

section
variable {s : State} {h : Hart} (hs : s.hart? = some h) {n : Nat} (rd : XReg) (new : Hart → Word → Option Word)
include hs

theorem csrOp_faults {r : TrapRec} (hf : h.csrFault n = some r) : csrOp rd n new s = .next (s.takeTrap r) := by
  rw [csrOp, onHart_eq hs, hf]
  rfl

theorem csrOp_waits (hn : n = 0xc22) (hw : s.holdsCycw h = true) : csrOp rd n new s = .next (s.drain h.hid) := by
  have huser : h.csrFault n = none := hn ▸ h.csrFault_user (by decide)
  rw [csrOp, onHart_eq hs, huser, hn, hw]
  rfl

variable (hf : h.csrFault n = none) (hwait : n ≠ 0xc22 ∨ s.holdsCycw h = false)
include hf hwait

/-- An access that is met reads the old value, writes a new one or none, and gives X(rd) the old one. -/
theorem csrOp_met :
    let s1 := if n = 0xc03 then s.flagsReady h else s
    let h1 := (s1.hart?).getD h
    let r := s1.readCsr h1 n
    (new h1 r.2 = none → csrOp rd n new s = .next (r.1.did (fun g => g.setX rd r.2) 4)) ∧
    ∀ v u, new h1 r.2 = some v → r.1.writeCsr ((r.1.hart?).getD h1) n v = .ok u →
      csrOp rd n new s = .next (u.did (fun g => g.setX rd r.2) 4) := by
  intro s1 h1 r
  have hgo : (decide (n = 0xc22) && s.holdsCycw h) = false := by simpa [imp_iff_not_or] using hwait
  have hr : s1.readCsr h1 n = r := rfl
  simp only [s1, h1] at hr
  refine ⟨fun hnew => ?_, fun v u hnew hu => ?_⟩
  · simp only [s1, h1] at hnew
    simp only [csrOp, onHart_eq hs, hf, hgo, Bool.false_eq_true, if_false, hr, hnew]
    rfl
  · simp only [s1, h1] at hnew hu
    simp only [csrOp, onHart_eq hs, hf, hgo, Bool.false_eq_true, if_false, hr, hnew, hu]
    rfl

end

end Sys2Proof.Machine

namespace Sys2Proof.Proofs

open Sys2Proof Sys2Proof.Machine

/-- Settles O13: by what the number meets, and by the value that the instruction writes. -/
theorem csrInstructions : Obligations.CsrInstructions := by
  unfold Obligations.CsrInstructions
  intro s h rd ra csr hs n assigned barred
  refine ⟨fun i hi => ?_, fun hb ha hwait => ?_⟩
  · obtain ⟨new, he⟩ : ∃ new, exec i s = csrOp rd n new s := by
      obtain rfl | rfl | rfl := hi
      · exact ⟨_, exec_csrrw rd ra csr s⟩
      · exact ⟨_, exec_csrrs rd ra csr s⟩
      · exact ⟨_, exec_csrrc rd ra csr s⟩
    rw [he]
    exact ⟨fun hb => csrOp_faults hs rd new (Hart.csrFault_barred hb), fun hb ha => csrOp_faults hs rd new (Hart.csrFault_unassigned hb ha),
      csrOp_waits hs rd new⟩
  · have hmet (new : Hart → Word → Option Word) := csrOp_met hs rd new (Hart.csrFault_none hb ha) hwait
    intro s1 h1 r h' w
    have hset (x : XReg) := exec_csrrs rd x csr s
    have hclear (x : XReg) := exec_csrrc rd x csr s
    exact ⟨(hset 0).trans ((hmet _).1 (if_pos rfl)), (hclear 0).trans ((hmet _).1 (if_pos rfl)),
      fun u hu => (exec_csrrw rd ra csr s).trans ((hmet _).2 _ u rfl hu), fun hra =>
        ⟨fun u hu => (hset ra).trans ((hmet _).2 _ u (if_neg hra) hu), fun u hu => (hclear ra).trans ((hmet _).2 _ u (if_neg hra) hu)⟩⟩

end Sys2Proof.Proofs
end

section
/-! Traps taken and left, and interrupts (R139 to R141, R369, R371, R372, R376, R422). -/

namespace Sys2Proof.Machine

open Sys2Proof

/-! ### A CSR read after a write -/

theorem Hart.getCsr_setCsr (h : Hart) (k n : Nat) (v : Word) : (h.setCsr k v).getCsr n = if n = k then v else h.getCsr n := by
  split
  next hn => rw [hn, Hart.getCsr, Hart.setCsr, SMap.get_set_self]
  next hn => exact SMap.get_set_ne _ _ hn

theorem Hart.getCsr_clearRepeat {h : Hart} {n : Nat} (hn : n ≠ 0xd32) : h.clearRepeat.getCsr n = h.getCsr n := Hart.getCsr_commit hn 0

/-! ### Taking a trap (R369) -/

section
variable (h : Hart) (m : Bool) (t : TrapRec)

/-- The CSRs with the seven registers of the level written. -/
def Hart.trapCsrs : SMap 64 :=
  ((((((h.csr.set (trapBase m) (BitVec.ofNat 64 t.code)).set (trapBase m + 1) (t.tpc.getD h.pc)).set (trapBase m + 2)
    (BitVec.ofNat 64 t.tswi)).set (trapBase m + 3) (tapWord t.tap)).set (trapBase m + 4) (tcellWord t.tcell)).set (trapBase m + 5)
    t.tva).set (trapBase m + 6) (BitVec.ofNat 64 (4 + h.priv.code))

theorem Hart.setCsrs_eq_trapCsrs : ((((((h.setCsr (trapBase m) (BitVec.ofNat 64 t.code)).setCsr (trapBase m + 1) (t.tpc.getD h.pc)).setCsr
    (trapBase m + 2) (BitVec.ofNat 64 t.tswi)).setCsr (trapBase m + 3) (tapWord t.tap)).setCsr (trapBase m + 4) (tcellWord t.tcell)).setCsr
    (trapBase m + 5) t.tva).setCsr (trapBase m + 6) (BitVec.ofNat 64 (4 + h.priv.code)) = { h with csr := h.trapCsrs m t } := by
  simp only [Hart.setCsr, Hart.trapCsrs]

/-- All that taking a trap changes. -/
theorem Hart.enterTrap_eq : h.enterTrap m t = { h with
    csr := h.trapCsrs m t, tefcM := if m then h.efc else h.tefcM, tefcS := if m then h.tefcS else h.efc
    priv := if m then .m else .s, pc := h.getCsr (trapBase m + 7) &&& ~~~3, swi := 0, run := .running, unit := none, late := [], drain := [] } := by
  unfold Hart.enterTrap
  extract_lets b saved g
  have hsaved : saved = { h with csr := h.trapCsrs m t } := h.setCsrs_eq_trapCsrs m t
  clear_value saved
  subst hsaved
  cases m <;> rfl

theorem Hart.getCsr_enterTrap (n : Nat) : (h.enterTrap m t).getCsr n =
    if n = trapBase m + 6 then BitVec.ofNat 64 (4 + h.priv.code) else if n = trapBase m + 5 then t.tva
    else if n = trapBase m + 4 then tcellWord t.tcell else if n = trapBase m + 3 then tapWord t.tap
    else if n = trapBase m + 2 then BitVec.ofNat 64 t.tswi else if n = trapBase m + 1 then t.tpc.getD h.pc
    else if n = trapBase m then BitVec.ofNat 64 t.code else h.getCsr n := by
  have hget (c : SMap 64) (k : Nat) (v : Word) : (c.set k v).get n = if n = k then v else c.get n := by
    split
    next hn => rw [hn, SMap.get_set_self]
    next hn => exact SMap.get_set_ne _ _ hn
  rw [Hart.enterTrap_eq, Hart.getCsr, Hart.trapCsrs]
  simp only [hget, Hart.getCsr]

theorem Hart.getCsr_enterTrap_other {n : Nat} (hn : n < trapBase m ∨ trapBase m + 6 < n) : (h.enterTrap m t).getCsr n = h.getCsr n := by
  rw [Hart.getCsr_enterTrap]
  iterate 7 rw [if_neg (by omega)]

theorem Hart.enterTrap_tcause : (h.enterTrap m t).getCsr (trapBase m) = BitVec.ofNat 64 t.code := by simp [Hart.getCsr_enterTrap]

theorem Hart.enterTrap_tpc : (h.enterTrap m t).getCsr (trapBase m + 1) = t.tpc.getD h.pc := by simp [Hart.getCsr_enterTrap]

theorem Hart.enterTrap_tswi : (h.enterTrap m t).getCsr (trapBase m + 2) = BitVec.ofNat 64 t.tswi := by simp [Hart.getCsr_enterTrap]

theorem Hart.enterTrap_tap : (h.enterTrap m t).getCsr (trapBase m + 3) = tapWord t.tap := by simp [Hart.getCsr_enterTrap]

theorem Hart.enterTrap_tcell : (h.enterTrap m t).getCsr (trapBase m + 4) = tcellWord t.tcell := by simp [Hart.getCsr_enterTrap]

theorem Hart.enterTrap_tva : (h.enterTrap m t).getCsr (trapBase m + 5) = t.tva := by simp [Hart.getCsr_enterTrap]

theorem Hart.enterTrap_tstat : (h.enterTrap m t).getCsr (trapBase m + 6) = BitVec.ofNat 64 (4 + h.priv.code) := by
  simp [Hart.getCsr_enterTrap]

theorem Hart.enterTrap_priv : (h.enterTrap m t).priv = if m then .m else .s := by rw [Hart.enterTrap_eq]

theorem Hart.enterTrap_pc : (h.enterTrap m t).pc = h.getCsr (trapBase m + 7) &&& ~~~3 := by rw [Hart.enterTrap_eq]

end

section
variable {s : State} {h : Hart} (hs : s.hart? = some h)
include hs

theorem State.takeTrap_level {m : Bool} (hm : h.trapLevel = some m) (t : TrapRec) :
    s.takeTrap t = s.setHart (h.enterTrap m t) ∧ (s.setHart (h.enterTrap m t)).hart? = some (h.enterTrap m t) ∧
      s.OnlyHart (s.setHart (h.enterTrap m t)) := by
  have hkept : (h.enterTrap m t).hid = h.hid ∧ (h.enterTrap m t).pending = h.pending ∧ (h.enterTrap m t).landed = h.landed ∧
      (h.enterTrap m t).landedFlags = h.landedFlags ∧ (h.enterTrap m t).engineFaults = h.engineFaults := by
    rw [Hart.enterTrap_eq]
    exact ⟨rfl, rfl, rfl, rfl, rfl⟩
  obtain ⟨hid, hp, hl, hf, he⟩ := hkept
  refine ⟨?_, State.hart?_setHart_own hs hid hp hl hf he, s.onlyHart_setHart (hid.trans (State.hid_of_hart? hs))⟩
  unfold State.takeTrap
  rw [hs]
  dsimp only
  rw [hm]

theorem State.hart?_clearRepeat : (s.setHart h.clearRepeat).hart? = some h.clearRepeat :=
  State.hart?_setHart_own hs h.clearRepeat_hid h.clearRepeat_pending h.clearRepeat_landed h.clearRepeat_landedFlags h.clearRepeat_engineFaults

end

theorem Hart.trapLevel_clearRepeat (h : Hart) : h.clearRepeat.trapLevel = h.trapLevel := by
  have hfree (m : Bool) : h.clearRepeat.levelFree m = h.levelFree m := by
    unfold Hart.levelFree
    rw [Hart.getCsr_clearRepeat (by cases m <;> decide), Hart.getCsr_clearRepeat (by cases m <;> decide)]
  unfold Hart.trapLevel
  rw [h.clearRepeat_priv, hfree, hfree]

/-- `trap n` takes its trap at the next instruction's address (R140). -/
theorem exec_trap {s : State} {h : Hart} (hs : s.hart? = some h) (n : BitVec 10) :
    exec (.trap n) s = .next ((s.setHart h.clearRepeat).takeTrap { code := n.toNat, tpc := some (h.pc + 4) }) := onHart_eq hs 4 _

/-! ### The return from a trap (R139, R369) -/

theorem Priv.code_ofCode (n : Nat) : (Priv.ofCode n).code = if n % 4 = 2 then 0 else n % 4 := by
  have hn : n % 4 < 4 := Nat.mod_lt _ (by decide)
  unfold Priv.ofCode
  split
  next h1 => simp [h1, Priv.code]
  next h1 =>
    split
    next h3 => simp [h3, Priv.code]
    next h3 =>
      simp only [Priv.code]
      split <;> omega

theorem Hart.leaveTrap_eq (h : Hart) : h.leaveTrap = { h with
    csr := h.csr.set (trapBase (h.priv == .m) + 6) (h.getCsr (trapBase (h.priv == .m) + 6) &&& ~~~4#64)
    pc := h.getCsr (trapBase (h.priv == .m) + 1) &&& ~~~3, priv := .ofCode (h.getCsr (trapBase (h.priv == .m) + 6)).toNat
    swi := bits (h.getCsr (trapBase (h.priv == .m) + 2)).toNat 19 0, efc := if h.priv == .m then h.tefcM else h.tefcS } := rfl

section
variable {s : State} {h : Hart} (hs : s.hart? = some h)
include hs

theorem exec_eret_user (hp : h.priv = .u) : exec .eret s = .next (s.takeTrap { code := 0x1001 }) :=
  (onHart_eq hs 4 _).trans (by rw [if_pos hp]; rfl)

theorem exec_eret_returns (hp : h.priv ≠ .u) : exec .eret s = .next (s.setHart h.clearRepeat.leaveTrap) ∧
    (s.setHart h.clearRepeat.leaveTrap).hart? = some h.clearRepeat.leaveTrap ∧ s.OnlyHart (s.setHart h.clearRepeat.leaveTrap) := by
  have hid : h.clearRepeat.leaveTrap.hid = h.hid := h.clearRepeat_hid
  refine ⟨(onHart_eq hs 4 _).trans (by rw [if_neg hp]; rfl), State.hart?_setHart_own hs hid h.clearRepeat_pending h.clearRepeat_landed
    h.clearRepeat_landedFlags h.clearRepeat_engineFaults, s.onlyHart_setHart (hid.trans (State.hid_of_hart? hs))⟩

end

/-- What comes back from the registers of the level, as they stood before the instruction. -/
theorem Hart.leaveTrap_clearRepeat (h : Hart) {b : Nat} (hb : trapBase (h.priv == .m) = b) : h.clearRepeat.leaveTrap = { h with
    csr := h.clearRepeat.csr.set (b + 6) (h.getCsr (b + 6) &&& ~~~4#64), pc := h.getCsr (b + 1) &&& ~~~3
    priv := .ofCode (h.getCsr (b + 6)).toNat, swi := bits (h.getCsr (b + 2)).toNat 19 0
    efc := if h.priv == .m then h.tefcM else h.tefcS } := by
  have hne (k : Nat) (hk : k < 0x10) : b + k ≠ 0xd32 := by
    have hlevel : b = 0xf20 ∨ b = 0xd20 := by cases hm : h.priv == .m <;> simp [← hb, hm, trapBase]
    omega
  rw [Hart.leaveTrap_eq, Hart.clearRepeat_priv, Hart.clearRepeat_tefcM, Hart.clearRepeat_tefcS, hb,
    Hart.getCsr_clearRepeat (hne 6 (by decide)), Hart.getCsr_clearRepeat (hne 1 (by decide)), Hart.getCsr_clearRepeat (hne 2 (by decide)),
    Hart.clearRepeat_eq]

end Sys2Proof.Machine

namespace Sys2Proof.Proofs

open Sys2Proof Sys2Proof.Machine

/-- Settles O18: a trap by the registers that it writes, and the return by those that it reads. -/
theorem trapsEnterAndReturn : Obligations.TrapsEnterAndReturn := by
  unfold Obligations.TrapsEnterAndReturn
  refine ⟨fun h m t => ?enter, fun s h n hs => ⟨fun m hm => ?trap, exec_eret_user hs, fun hp => ?eret⟩⟩
  case enter =>
    intro b g
    have hg : g = _ := h.enterTrap_eq m t
    refine ⟨h.enterTrap_tcause m t, h.enterTrap_tpc m t, h.enterTrap_tswi m t, (h.enterTrap_tap m t).trans ?_, (h.enterTrap_tcell m t).trans ?_,
      h.enterTrap_tva m t, (h.enterTrap_tstat m t).trans ?_, ?_, h.enterTrap_priv m t, h.enterTrap_pc m t, by rw [hg],
      fun k hk => h.getCsr_enterTrap_other m t hk, by rw [hg]⟩
    · cases t.tap <;> rfl
    · cases t.tcell <;> rfl
    · cases h.priv <;> rfl
    · rw [hg]
      cases m <;> exact ⟨rfl, rfl⟩
  case trap =>
    obtain ⟨htaken, hhart, honly⟩ := State.takeTrap_level (State.hart?_clearRepeat hs) (h.trapLevel_clearRepeat.trans hm)
      { code := n.toNat, tpc := some (h.pc + 4) }
    have hone : s.OnlyHart (s.setHart h.clearRepeat) := s.onlyHart_setHart (h.clearRepeat_hid.trans (State.hid_of_hart? hs))
    have hb (k : Nat) : (if m then 0xf20 + k else 0xd20 + k) = trapBase m + k := by cases m <;> rfl
    have hx : (h.clearRepeat.enterTrap m { code := n.toNat, tpc := some (h.pc + 4) }).x = h.x := by
      rw [Hart.enterTrap_eq]
      exact h.clearRepeat_x
    refine ⟨_, _, (exec_trap hs n).trans (congrArg _ htaken), hhart, Hart.enterTrap_tcause .., ?_, ?_, ?_, Hart.enterTrap_priv .., ?_, hx,
      hone.trans honly⟩
    · rw [hb 1, Hart.enterTrap_tpc]
      rfl
    · rw [hb 2, Hart.enterTrap_tswi]
      rfl
    · rw [hb 5, Hart.enterTrap_tva]
    · rw [hb 7, Hart.enterTrap_pc, Hart.getCsr_clearRepeat (by cases m <;> decide)]
  case eret =>
    intro b
    have hb : trapBase (h.priv == .m) = b := by simp [trapBase, b]
    obtain ⟨he, hhart, honly⟩ := exec_eret_returns hs hp
    have hg := h.leaveTrap_clearRepeat hb
    refine ⟨_, _, he, hhart, ?_, ?_, ?_, ?_, ?_, ?_, ?_, honly⟩
    all_goals rw [hg]
    · exact Priv.code_ofCode _
    · simp
    · rw [Hart.getCsr, SMap.get_set_self]
      simp

end Sys2Proof.Proofs
end

section
/-! Interrupts posted and taken, and the end of `wfi` (R141, R372, R373, R422). -/

namespace Sys2Proof.Machine

open Sys2Proof

/-! ### The pending bit of an interrupt (R371, R372) -/

section
variable (h : Hart) {k : Nat} (hk : k < 64)
include hk

theorem Hart.postIrq_pending : ((h.postIrq k).getCsr 0xd2c).getLsbD k = true ∧ ((h.postIrq k).getCsr 0xf2c).getLsbD k = true := by
  simp [Hart.postIrq, Hart.getCsr_setCsr, hk]

theorem Hart.clearIrq_notPending : ((h.clearIrq k).getCsr 0xd2c).getLsbD k = false ∧ ((h.clearIrq k).getCsr 0xf2c).getLsbD k = false := by
  simp [Hart.clearIrq, Hart.getCsr_setCsr, hk]

end

/-! ### The interrupt that a hart takes (R372) -/

/-- A level has not its handler running, and enables interrupt k, which is pending. -/
def Hart.IrqEnabled (h : Hart) (m : Bool) (k : Nat) : Prop :=
  k < 2 ∧ (h.getCsr (trapBase m + 6)).getLsbD 2 = false ∧ (h.getCsr (trapBase m + 11)).getLsbD k = true ∧
    (h.getCsr (trapBase m + 12)).getLsbD k = true

/-- The interrupt that a level would take. -/
def Hart.levelIrq (h : Hart) (m : Bool) : Option Nat := if (h.getCsr (trapBase m + 6)).getLsbD 2 then none else h.enabledIrq m

section
variable {h : Hart} {m : Bool}

theorem Hart.levelIrq_none (hn : ∀ k, ¬ h.IrqEnabled m k) : h.levelIrq m = none := by
  unfold Hart.levelIrq
  split
  · rfl
  next hact =>
    have hbit (k : Nat) (hk : k < 2) : (h.getCsr (trapBase m + 12) &&& h.getCsr (trapBase m + 11)).getLsbD k = false := by
      rw [BitVec.getLsbD_and, Bool.eq_false_iff]
      intro hset
      obtain ⟨hpending, henabled⟩ := Bool.and_eq_true_iff.mp hset
      exact hn k ⟨hk, Bool.eq_false_iff.mpr hact, henabled, hpending⟩
    simp only [Hart.enabledIrq, hbit 0 (by decide), hbit 1 (by decide), Bool.false_eq_true, if_false]

theorem Hart.levelIrq_some {k : Nat} (hk : h.IrqEnabled m k) (hlow : ∀ j, j < k → ¬ h.IrqEnabled m j) : h.levelIrq m = some k := by
  obtain ⟨hlt, hact, henabled, hpending⟩ := hk
  unfold Hart.levelIrq Hart.enabledIrq
  rw [hact, if_neg (by decide)]
  dsimp only
  have hset : (h.getCsr (trapBase m + 12) &&& h.getCsr (trapBase m + 11)).getLsbD k = true := by
    rw [BitVec.getLsbD_and, hpending, henabled]
    rfl
  obtain rfl | rfl : k = 0 ∨ k = 1 := by omega
  · rw [if_pos hset]
  · have hzero : ¬ (h.getCsr (trapBase m + 12) &&& h.getCsr (trapBase m + 11)).getLsbD 0 = true := by
      rw [BitVec.getLsbD_and, Bool.and_eq_true]
      exact fun hb => hlow 0 (by decide) ⟨by decide, hact, hb.2, hb.1⟩
    rw [if_neg hzero, if_pos hset]

theorem Hart.takeable_none (hs : h.levelIrq false = none) (hm : h.levelIrq true = none) : h.takeable = none := by
  unfold Hart.levelIrq at hs hm
  unfold Hart.takeable
  rw [show (if (h.getCsr 0xd26).getLsbD 2 then none else h.enabledIrq false) = none from hs]
  dsimp only
  rw [show (if (h.getCsr 0xf26).getLsbD 2 then none else h.enabledIrq true) = none from hm]

theorem Hart.takeable_supervisor {k : Nat} (hs : h.levelIrq false = some k) : h.takeable = some (k, false) := by
  unfold Hart.takeable
  rw [show (if (h.getCsr 0xd26).getLsbD 2 then none else h.enabledIrq false) = some k from hs]

theorem Hart.takeable_machine {k : Nat} (hs : h.levelIrq false = none) (hm : h.levelIrq true = some k) : h.takeable = some (k, true) := by
  unfold Hart.takeable
  rw [show (if (h.getCsr 0xd26).getLsbD 2 then none else h.enabledIrq false) = none from hs]
  dsimp only
  rw [show (if (h.getCsr 0xf26).getLsbD 2 then none else h.enabledIrq true) = some k from hm]

theorem Hart.takeIrq_none (ht : h.takeable = none) : h.takeIrq = h := by
  unfold Hart.takeIrq
  rw [ht]

theorem Hart.takeIrq_some {k : Nat} (ht : h.takeable = some (k, m)) :
    h.takeIrq = (h.clearIrq k).enterTrap m { code := 0x8000 + k, tswi := h.swi } := by
  unfold Hart.takeIrq
  rw [ht]

end

/-! ### The events (R141, R372, R422) -/

section
variable {s : State} (hp : s.power = true)
include hp

theorem exec_intpostWrite (master : Nat) (v : Word) : exec (.intpostWrite master v) s =
    .next (s.ownerWrite master 0x240000 (fun s => if v.toNat / 2 ^ 11 = 0 then s.updHartAt v.toNat (fun h => h.postIrq 0) else s)) :=
  event_eq hp (fun s => s.ownerWrite master 0x240000 (fun s => if v.toNat / 2 ^ 11 = 0 then s.updHartAt v.toNat (fun h => h.postIrq 0) else s))

theorem exec_interruptTake (n : Nat) : exec (.interruptTake n) s = .next (s.updHartAt n Hart.takeIrq) :=
  event_eq hp (fun s => s.updHartAt n Hart.takeIrq)

theorem exec_wfiWake (n : Nat) :
    exec (.wfiWake n) s = .next (s.updHartAt n (fun h => if h.run = .wfi then { h with run := .running } else h)) :=
  event_eq hp (fun s => s.updHartAt n (fun h => if h.run = .wfi then { h with run := .running } else h))

end

end Sys2Proof.Machine

namespace Sys2Proof.Proofs

open Sys2Proof Sys2Proof.Machine

/-- Settles O20: the post sets the pending bit; what is taken is the lowest enabled interrupt of the first level that has one. -/
theorem interrupts : Obligations.Interrupts := by
  unfold Obligations.Interrupts
  intro s h n master v hp hs hn
  refine ⟨fun ho hv => ?post, fun ho => ?other, ?_⟩
  case post =>
    refine ⟨_, h.postIrq 0, exec_intpostWrite hp master v, ?_, h.postIrq_pending (k := 0) (by decide)⟩
    rw [State.ownerWrite_owner ho, if_pos (by omega), hv]
    exact State.hartAt_updHartAt hs rfl
  case other => rw [exec_intpostWrite hp, State.ownerWrite_other ho]
  intro enabled taken
  have henabled (m : Bool) (k : Nat) : enabled m k ↔ h.IrqEnabled m k := by cases m <;> rfl
  refine ⟨fun hnone => ?none, fun k m htaken => ?taken, fun hw => ?wake⟩
  case none =>
    have hlevel (m : Bool) : h.levelIrq m = none := Hart.levelIrq_none (fun k => mt (henabled m k).mpr (hnone m k))
    have hid := Hart.takeIrq_none (Hart.takeable_none (hlevel false) (hlevel true))
    refine ⟨_, exec_interruptTake hp n, ?_⟩
    rw [State.hartAt_updHartAt hs (by rw [hid]), hid]
  case taken =>
    obtain ⟨hk, hlow, hfirst⟩ := htaken
    have hlevel : h.levelIrq m = some k :=
      Hart.levelIrq_some ((henabled m k).mp hk) (fun j hj => mt (henabled m j).mpr (hlow j hj))
    have htakes : h.takeable = some (k, m) := by
      cases m with
      | false => exact Hart.takeable_supervisor hlevel
      | true =>
        exact Hart.takeable_machine (Hart.levelIrq_none (fun j => mt (henabled false j).mpr (hfirst rfl j))) hlevel
    obtain ⟨htp, hfp⟩ := h.clearIrq_notPending (k := k) (by omega)
    have hid : h.takeIrq.hid = h.hid := by
      rw [Hart.takeIrq_some htakes, Hart.enterTrap_eq]
      rfl
    have hhart : (s.updHartAt n Hart.takeIrq).hartAt n = some ((h.clearIrq k).enterTrap m { code := 0x8000 + k, tswi := h.swi }) := by
      rw [State.hartAt_updHartAt hs hid, Hart.takeIrq_some htakes]
    have hb (j : Nat) : (if m then 0xf20 + j else 0xd20 + j) = trapBase m + j := by cases m <;> rfl
    have htip (j : Nat) (hj : j = 0xd2c ∨ j = 0xf2c) : j < trapBase m ∨ trapBase m + 6 < j := by
      cases m <;> simp only [trapBase, if_true, Bool.false_eq_true, if_false] <;> omega
    refine ⟨_, _, exec_interruptTake hp n, hhart, Hart.enterTrap_tcause .., ?_, ?_, Hart.enterTrap_priv .., ?_, ?_⟩
    · rw [hb 2, Hart.enterTrap_tswi]
    · rw [hb 1, Hart.enterTrap_tpc]
      rfl
    · rw [Hart.getCsr_enterTrap_other _ _ _ (htip _ (.inl rfl)), htp]
    · rw [Hart.getCsr_enterTrap_other _ _ _ (htip _ (.inr rfl)), hfp]
  case wake =>
    refine ⟨_, _, exec_wfiWake hp n, State.hartAt_updHartAt hs ?_, if_pos hw⟩
    rw [if_pos hw]

end Sys2Proof.Proofs
end

section
/-! Words of the spec, written out bit by bit (R125 to R127, R130, R133, R146, R241, R256). -/

namespace Sys2Proof.Proofs

open Sys2Proof

/-- Settles O4: each word is the encoding of its instruction. -/
theorem wordsDecode : Obligations.WordsDecode := by
  unfold Obligations.WordsDecode
  have row {i : Instr} {w : IWord} (hwf : i.wf = true) (he : encode i = .one w) : decode w 0 = some i :=
    encodedInstructionsDecode i w 0 hwf (.inl he)
  exact ⟨row rfl rfl, row rfl rfl, row rfl rfl, row rfl rfl, row rfl rfl, row rfl rfl,
    encodedInstructionsDecode .tclose _ 0 rfl (.inr rfl)⟩

end Sys2Proof.Proofs
end

section
/-! `wfi`, `dclean`, `fbar`, `xcinv` and `ptsync` (R141 to R143, R303, R308 to R310, R321, R409). -/

namespace Sys2Proof.Machine

open Sys2Proof

/-! ### What a hart's stores leave of the hart as they are performed (R227, R239) -/

/-- From `h` to `g` only what is outstanding and what has been read for the hart has changed. -/
def Hart.PerformedTo (h g : Hart) : Prop := g = { h with pending := g.pending, landed := g.landed, landedFlags := g.landedFlags }

theorem Hart.PerformedTo.trans {h g k : Hart} (hg : h.PerformedTo g) (hk : g.PerformedTo k) : h.PerformedTo k := by
  unfold Hart.PerformedTo at *
  rw [hk, hg]

theorem State.perform_hartAt {s : State} {n : Nat} {h : Hart} (hs : s.hartAt n = some h) (x : Pending) :
    ∃ g, (s.perform n x).hartAt n = some g ∧ h.PerformedTo g := by
  unfold State.perform
  split
  · exact ⟨h, hs, rfl⟩
  · refine ⟨_, State.hartAt_updHartAt (h := h) ?_ rfl, rfl⟩
    split <;> exact hs

theorem State.performSome_hartAt {s : State} {n : Nat} {h : Hart} (hs : s.hartAt n = some h) (p : Pending → Bool) (c : Nat) :
    ∃ g, (s.performSome n p c).hartAt n = some g ∧ h.PerformedTo g := by
  have hfold : ∀ (l : List (Pending × Bool)) {t : State} {k : Hart}, t.hartAt n = some k →
      ∃ g, (l.foldl (fun t x => t.perform n x.1) t).hartAt n = some g ∧ k.PerformedTo g := by
    intro l
    induction l with
    | nil => exact fun hk => ⟨_, hk, rfl⟩
    | cons x l ih =>
      intro t k hk
      obtain ⟨g, hg, hkg⟩ := State.perform_hartAt hk x.1
      obtain ⟨g', hg', hgg⟩ := ih hg
      exact ⟨g', hg', hkg.trans hgg⟩
  have hto : h.PerformedTo { h with pending := leftOf p c h.pending } := rfl
  have htaken := State.hartAt_updHartAt hs (f := fun g => { g with pending := leftOf p c h.pending }) rfl
  obtain ⟨g, hg, hk⟩ := hfold ((withOlder (choose p c h.pending)).filter (fun x => x.2)) htaken
  refine ⟨g, ?_, hto.trans hk⟩
  rw [State.performSome, hs]
  exact hg

theorem map_fst_choose (p : Pending → Bool) : ∀ (l : List Pending) (c : Nat), (choose p c l).map Prod.fst = l
  | [], _ => rfl
  | x :: l, c => by
    rw [choose]
    split
    · rw [List.map_cons, map_fst_choose p l]
    · rw [List.map_cons, map_fst_choose p l]

theorem map_fst_withOlder : ∀ l : List (Pending × Bool), (withOlder l).map Prod.fst = l.map Prod.fst
  | [] => rfl
  | (x, b) :: l => by rw [withOlder, List.map_cons, List.map_cons, map_fst_withOlder l]

theorem mem_of_mem_leftOf {p : Pending → Bool} {c : Nat} {l : List Pending} {x : Pending} (hx : x ∈ leftOf p c l) : x ∈ l := by
  obtain ⟨y, hy, rfl⟩ := List.mem_map.mp hx
  have hfst := List.mem_map_of_mem (f := Prod.fst) (List.mem_filter.mp hy).1
  rwa [map_fst_withOlder, map_fst_choose] at hfst

/-- Of a hart's stores those that satisfy a condition are performed: none of them is left, and no other is added. -/
theorem State.performAll_hartAt {s : State} {n : Nat} {h : Hart} (hs : s.hartAt n = some h) (p : Pending → Bool) :
    ∃ g, (s.performAll n p).hartAt n = some g ∧ h.PerformedTo g ∧ (∀ x ∈ g.pending, x ∈ h.pending) ∧ ∀ x ∈ g.pending, p x = false := by
  obtain ⟨g, hg, hto⟩ := State.performSome_hartAt hs p (s.outstanding n)
  obtain ⟨g', hg', hclean⟩ := State.performAll_pending hs p
  obtain rfl : g = g' := Option.some.inj (hg.symm.trans hg')
  have hleft : g.pending = leftOf p (s.outstanding n) h.pending := by
    have hmap := State.pending_performSome hs p (s.outstanding n)
    rw [hg] at hmap
    exact Option.some.inj hmap
  exact ⟨g, hg, hto, fun x hx => mem_of_mem_leftOf (hleft ▸ hx), hclean⟩

/-! ### `dclean` (R142) -/

/-- What `dclean` leaves of its hart: no store to a byte of the range outstanding. -/
structure Hart.Cleaned (h : Hart) (rs : List (Nat × Nat)) (g : Hart) : Prop where
  performed : h.PerformedTo g
  older : ∀ x ∈ g.pending, x ∈ h.pending
  clean : ∀ x ∈ g.pending, ∀ r ∈ rs, overlaps r.1 r.2 x.loc x.bytes.length = false

theorem State.cleanRange_quiet {h : Hart} : ∀ (rs : List (Nat × Nat)) {s : State} {k : Hart}, s.engines = [] → s.hartAt h.hid = some k →
    ∃ t g, s.cleanRange h rs = some t ∧ State.Performed h.hid s t ∧ t.hartAt h.hid = some g ∧ k.Cleaned rs g
  | [], s, k, _, hs => ⟨s, k, rfl, State.Performed.refl _ s, hs, rfl, fun _ hx => hx, by simp⟩
  | (loc, n) :: rs, s, k, hq, hs => by
    have hp : State.Performed h.hid s (s.performAll h.hid (fun x => overlaps loc n x.loc x.bytes.length)) :=
      State.Performed.performSome h.hid s _ _
    obtain ⟨k', hk', hto, holder, hclean⟩ := State.performAll_hartAt hs (fun x => overlaps loc n x.loc x.bytes.length)
    obtain ⟨t, g, ht, hpt, hg, hc⟩ := cleanRange_quiet rs (by rw [hp.frame]; exact hq) hk'
    refine ⟨t, g, ?_, hp.trans hpt, hg, hto.trans hc.performed, fun x hx => holder x (hc.older x hx), fun x hx r hr => ?_⟩
    · rw [State.cleanRange, State.reach_quiet hq]
      exact ht
    · obtain rfl | hr := List.mem_cons.mp hr
      · exact hclean x (hc.older x hx)
      · exact hc.clean x hx r hr

/-- Ranges that are walked page by page are those below 2^32 bytes (R142; DESIGN CHOICE, log 48). -/
theorem pages_lt_pageLimit (n : Nat) : n / 65536 < pageLimit ↔ n < 2 ^ 32 := by
  unfold pageLimit
  omega

theorem State.rangeOf_zero (s : State) (h : Hart) (va : Word) : s.rangeOf h va 0 = [] := rfl

section
variable {s : State} {h : Hart} (hs : s.hart? = some h) (ra rb : XReg)
include hs

theorem exec_dclean_empty (hn : (h.getX rb).toNat = 0) : exec (.dclean ra rb) s = .next (s.stepOver 4) := by
  refine (onHart_eq hs 4 _).trans ?_
  dsimp only
  rw [hn, State.rangeOf_zero]
  rfl

theorem exec_dclean_quiet (hq : s.engines = []) : ∃ (t : State) (g : Hart), exec (.dclean ra rb) s = .next (t.stepOver 4) ∧ t.hart? = some g ∧
    h.Cleaned (if (h.getX rb).toNat < 2 ^ 32 then s.rangeOf h (h.getX ra) (h.getX rb).toNat else []) g ∧
    (2 ^ 32 ≤ (h.getX rb).toNat → g.pending = []) := by
  have hcur : h.hid = s.cur := State.hid_of_hart? hs
  have hat : s.hartAt h.hid = some h := by rw [hcur]; exact hs
  have hmoves {t : State} (hp : State.Performed h.hid s t) : t.hart? = t.hartAt h.hid := by rw [State.hart?, hp.frame, hcur]
  have he : exec (.dclean ra rb) s = _ := onHart_eq hs 4 _
  dsimp only at he
  by_cases hn : (h.getX rb).toNat < 2 ^ 32
  · obtain ⟨t, g, ht, hp, hg, hc⟩ := State.cleanRange_quiet (s.rangeOf h (h.getX ra) (h.getX rb).toNat) hq hat
    rw [if_pos ((pages_lt_pageLimit _).mpr hn), ht] at he
    exact ⟨t, g, he, (hmoves hp).trans hg, by rwa [if_pos hn], fun hge => absurd hn (not_lt.mpr hge)⟩
  · obtain ⟨g, hg, hto, holder, hclean⟩ := State.performAll_hartAt hat (fun _ => true)
    rw [if_neg (mt (pages_lt_pageLimit _).mp hn)] at he
    refine ⟨s.drain h.hid, g, he, (hmoves (State.Performed.drain ..)).trans hg, ?_, fun _ => ?_⟩
    · rw [if_neg hn]
      exact ⟨hto, holder, by simp⟩
    · exact List.eq_nil_iff_forall_not_mem.mpr (fun x hx => Bool.noConfusion (hclean x hx))

/-! ### `xcinv` and `ptsync` (R143, R308, R309, R321, R409) -/

theorem exec_xcinv_user (hp : h.priv = .u) : exec (.xcinv ra rb) s = .next (s.takeTrap { code := 0x1001 }) :=
  (onHart_eq hs 4 _).trans (by rw [if_pos hp]; rfl)

theorem exec_ptsync_user (hp : h.priv = .u) : exec .ptsync s = .next (s.takeTrap { code := 0x1001 }) :=
  (onHart_eq hs 4 _).trans (by rw [if_pos hp]; rfl)

variable (hp : h.priv ≠ .u)
include hp

/-- The units that `xcinv` leaves were read from none of the frames that the range maps, and a range of 2^32 bytes leaves none. -/
theorem exec_xcinv_above : ∃ p, exec (.xcinv ra rb) s = .next ((s.dropUnits p).stepOver 4) ∧ ∀ u, p u = false →
    (h.getX rb).toNat < 2 ^ 32 ∧ ∀ r ∈ s.rangeOf h (h.getX ra) (h.getX rb).toNat, r.1 / 65536 ∉ u.frames ∧ u.past ≠ some (r.1 / 65536) := by
  have he : exec (.xcinv ra rb) s = _ := onHart_eq hs 4 _
  dsimp only at he
  rw [if_neg hp] at he
  by_cases hn : (h.getX rb).toNat < 2 ^ 32
  · rw [if_pos ((pages_lt_pageLimit _).mpr hn)] at he
    refine ⟨_, he, fun u hu => ⟨hn, fun r hr => ?_⟩⟩
    have hmet : ∀ f, f ∈ u.past.toList ∨ f ∈ u.frames → f ≠ r.1 / 65536 := by
      rintro f hf rfl
      have := List.any_eq_false.mp hu _ (List.mem_append.mpr hf)
      simp only [List.contains_eq_mem, decide_eq_true_eq] at this
      exact this (List.mem_map_of_mem hr)
    exact ⟨fun hf => hmet _ (.inr hf) rfl, fun hpast => hmet _ (.inl (by simp [hpast])) rfl⟩
  · rw [if_neg (mt (pages_lt_pageLimit _).mp hn)] at he
    exact ⟨_, he, fun u hu => Bool.noConfusion hu⟩

/-- `ptsync` leaves no translation in a TLB, and only units that their leaves still translate. -/
theorem exec_ptsync_above : ∃ u : State, exec .ptsync s = .next (u.stepOver 4) ∧ u.tlb = [] ∧ u.mem = (s.drain h.hid).mem ∧
    (∀ d ∈ u.dies, ∀ a ∈ d.almanac, u.unitValid a = true) ∧ ∀ g ∈ u.harts, ∀ a ∈ g.fetched, u.unitValid a = true := by
  have he : exec .ptsync s = _ := onHart_eq hs 4 _
  dsimp only at he
  rw [if_neg hp] at he
  refine ⟨_, he, rfl, rfl, fun d hd a ha => ?_, fun g hg a ha => ?_⟩
  · obtain ⟨d', -, rfl⟩ := List.mem_map.mp hd
    exact (Bool.and_eq_true_iff.mp (List.mem_filter.mp ha).2).1
  · obtain ⟨g', -, rfl⟩ := List.mem_map.mp hg
    exact (Bool.and_eq_true_iff.mp (List.mem_filter.mp ha).2).1

end

theorem State.mem_dropUnits_dies {s : State} {p : AlmUnit → Bool} {d : DieSt} (hd : d ∈ (s.dropUnits p).dies) {u : AlmUnit} (hu : u ∈ d.almanac) :
    (∃ d' ∈ s.dies, u ∈ d'.almanac) ∧ p u = false := by
  obtain ⟨d', hd', rfl⟩ := List.mem_map.mp hd
  obtain ⟨hmem, hnot⟩ := List.mem_filter.mp hu
  exact ⟨⟨d', hd', hmem⟩, by simpa using hnot⟩

/-- A hart that commits keeps the words that it has fetched. -/
theorem State.mem_stepOver_fetched {s : State} {len : Nat} {g : Hart} (hg : g ∈ (s.stepOver len).harts) : ∃ g' ∈ s.harts, g.fetched = g'.fetched := by
  obtain ⟨g', hg', rfl⟩ := List.mem_map.mp hg
  refine ⟨g', hg', ?_⟩
  split
  · exact Hart.commit_fetched ..
  · rfl

end Sys2Proof.Machine

namespace Sys2Proof.Proofs

open Sys2Proof Sys2Proof.Machine

/-- Settles O19: `dclean` by the stores that performing its range leaves, `xcinv` and `ptsync` by the units that they keep. -/
theorem systemInstructions : Obligations.SystemInstructions := by
  unfold Obligations.SystemInstructions
  intro s h ra rb hs n
  refine ⟨onHart_eq hs 4 _, exec_dclean_empty hs ra rb, fun hq => ?dclean, hartOp_eq hs 4 _,
    fun hp => ⟨exec_xcinv_user hs ra rb hp, exec_ptsync_user hs hp⟩, fun hp => ⟨?xcinv, ?ptsync⟩⟩
  case dclean =>
    obtain ⟨t, g, he, hg, hc, hall⟩ := exec_dclean_quiet hs ra rb hq
    have hto := hc.performed
    refine ⟨_, _, he, State.hart?_updHart hg (Hart.commit_hid ..), ?_, ?_, ?_, ?_, fun hn => ?_⟩
    · rw [Hart.commit_pc, hto]
      rfl
    · rw [Hart.commit_x, hto]
    · rw [Hart.commit_pending]
      exact hc.older
    · rw [Hart.commit_pending]
      exact hall
    · rw [Hart.commit_pending]
      have hclean := hc.clean
      rwa [if_pos hn] at hclean
  case xcinv =>
    obtain ⟨p, he, hkept⟩ := exec_xcinv_above hs ra rb hp
    refine ⟨_, he, rfl, fun d hd u hu => ?_⟩
    obtain ⟨hold, hnot⟩ := State.mem_dropUnits_dies hd hu
    exact ⟨hold, hkept u hnot⟩
  case ptsync =>
    obtain ⟨u, he, htlb, hmem, hdies, hharts⟩ := exec_ptsync_above hs hp
    refine ⟨_, he, htlb, hmem, hdies, fun g hg a ha => ?_⟩
    obtain ⟨g', hg', hf⟩ := State.mem_stepOver_fetched hg
    exact hharts g' hg' a (hf ▸ ha)

end Sys2Proof.Proofs
end

section
/-! `setvl`, `setvl.g` and `setrc` (R48, R150, R388). -/

namespace Sys2Proof.Machine

open Sys2Proof

theorem add_zimm_eq_ofNat (a : Word) (imm : BitVec 16) : a + zimm imm = BitVec.ofNat 64 (a.toNat + imm.toNat) := by
  rw [zimm_eq_ofNat, BitVec.ofNat_add, BitVec.ofNat_toNat _ a, BitVec.setWidth_eq]

section
variable {s : State} {h : Hart} (hs : s.hart? = some h) (rd ra : XReg)
include hs

theorem exec_setvl {ty : BitVec 4} {n : Nat} (hn : min (h.getX ra).toNat (16384 / tyWidth ty.toNat) = n) :
    exec (.setvl rd ra ty) s = .next (s.ran { h.setX rd (BitVec.ofNat 64 n) with vl := n } 4) := by
  subst hn
  exact hartOp_eq hs 4 _

/-- `setvl.g` clamps to what the dome gives the gang now, and shows that grant in LGRANT.VIS (R48, R150). -/
theorem exec_setvlG {ty : BitVec 4} {n : Nat} (hn : min (h.getX ra).toNat (s.target h * 2048 / tyWidth ty.toNat) = n) :
    exec (.setvlG rd ra ty) s =
      .next (s.ran (({ h.setX rd (BitVec.ofNat 64 n) with vl := n } : Hart).setVis (s.target h)) 4) := by
  subst hn
  exact hartOp_eq hs 4 _

/-- The two outcomes of `setrc`: the band has `n` rows or it has fewer (R150, R388). -/
theorem exec_setrc {imm : BitVec 16} {n : Word} (hn : h.getX ra + zimm imm = n) : exec (.setrc rd ra imm) s =
    if h.bh < n.toNat then .next (s.takeTrap { code := 0x1120 }) else .next (s.ran { h.setX rd n with rc := n.toNat } 4) := by
  refine (onHart_eq hs 4 _).trans ?_
  dsimp only
  rw [hn]
  split
  · rfl
  · rfl

end

end Sys2Proof.Machine

namespace Sys2Proof.Proofs

open Sys2Proof Sys2Proof.Machine

/-- Settles O15: the lengths as `hartOp` gives them, and `setrc` by whether the band has that many rows. -/
theorem lengthInstructions : Obligations.LengthInstructions := by
  unfold Obligations.LengthInstructions
  intro s h rd ra ty imm hs a n m r
  have hsetrc := exec_setrc hs rd ra (add_zimm_eq_ofNat (h.getX ra) imm)
  exact ⟨exec_setvl hs rd ra rfl, exec_setvlG hs rd ra rfl, fun hfits => hsetrc.trans (if_neg (not_lt.mpr hfits)),
    fun hover => hsetrc.trans (if_pos hover)⟩

end Sys2Proof.Proofs
end

section
/-! Instructions that push a record or pop one, as they end (R183 to R194, R328, R393). -/

namespace Sys2Proof.Machine

open Sys2Proof

section
variable {f : AHalf} {g : Guard} {s : State} {h : Hart} {e : Exec}

/-- A push that the stair's checks refuse, after its own have passed. -/
theorem revPush_refused (hr : (forwardVec f g h).Ready s h) (he : ((forwardVec f g h).feed s h).s.pushCheck h f.apd
    (payloadLen (recordShape f.op (h.apt f.apd).ty).1 (recordShape f.op (h.apt f.apd).ty).2.1 (h.rc * h.vl) + 32) = .error e) :
    revPush f g s h = e.settle (fun stops u => u.dispatchVec h (forwardVec f g h) stops) := by
  rw [revPush, Vec.start_unlinked (forwardVec_link h), Vec.check_ready hr]
  dsimp only
  rw [he]

/-- An undo whose record is not the one on top. -/
theorem revPop_refused (hr : (undoVec f g [] h).Ready s h) (he : ((undoVec f g [] h).feed s h).s.stairPop h f.apa
    (0xbc00 + 64 * (h.apt f.apa).ty + (recordShape f.op (h.apt f.apa).ty).2.2)
    (shapeHash (h.ap.get f.apa.toNat) (h.ap.get f.apd.toNat) h.rc h.vl) (h.rc * h.vl) = .error e) :
    revPop f g s h = e.settle (fun stops u => u.dispatchVec h (undoVec f g [] h) stops) := by
  rw [revPop, Vec.start_unlinked (undoVec_link [] h), Vec.check_ready hr]
  dsimp only
  rw [he]

end

section
variable {s : State} {h : Hart} (hs : s.hart? = some h) {i : Instr} {f : AHalf} {mask : BitVec 2} (hi : i.toHalf = some (f, mask))
include hs hi

theorem exec_push (hf : f.op ∈ [AOp.rfmul, .rfadd, .rcvt, .rnrw]) : exec i s = (revPush f (maskGuard mask) s h).outcome 4 := by
  rw [exec_toHalf hi, onHart_eq hs, vecHalf_push hf]

theorem exec_pop (hf : f.op ∈ [AOp.ufmul, .ufadd, .ucvt, .unrw]) : exec i s = (revPop f (maskGuard mask) s h).outcome 4 := by
  rw [exec_toHalf hi, onHart_eq hs, vecHalf_pop hf]

end

end Sys2Proof.Machine

namespace Sys2Proof.Proofs

open Sys2Proof Sys2Proof.Machine

/-- Settles O48: a push and a pop by what they come to, past their own checks and past those of the stair. -/
theorem pushesAndPops : Obligations.PushesAndPops := by
  unfold Obligations.PushesAndPops
  intro s t h i f mask hs hi g
  refine ⟨fun hf => ?_, fun hf => ?_⟩
  · have hexec := exec_push hs hi hf
    exact ⟨fun r hr => hexec.trans (congrArg (Exec.outcome 4) (revPush_fault hr)),
      fun hr e he => hexec.trans (congrArg (Exec.outcome 4) (revPush_refused hr he)),
      fun hp => hexec.trans (congrArg (Exec.outcome 4) (revPush_pushed hp))⟩
  · have hexec := exec_pop hs hi hf
    exact ⟨fun r hr => hexec.trans (congrArg (Exec.outcome 4) (revPop_fault hr)),
      fun hr e he => hexec.trans (congrArg (Exec.outcome 4) (revPop_refused hr he)),
      fun hp => hexec.trans (congrArg (Exec.outcome 4) (revPop_popped hp))⟩

end Sys2Proof.Proofs
end

section
/-! Scalar atomics where nothing is outstanding (R199, R227 to R231, R395). -/

namespace Sys2Proof.Machine

open Sys2Proof

/-- An instruction that is one scalar atomic of n bytes, with its address register and its qualifier. -/
def IsAtom (i : Instr) (n : Nat) (ra : XReg) (q : BitVec 2) : Prop :=
  ∃ a : AtomForm, (∀ s, exec i s = a.run false s) ∧ a.n = n ∧ a.ra = ra ∧ a.q = q

/-- The state in which an atomic of a quiet hart reaches its location: a release notes how far the stair's bytes have been pushed (R199). -/
def State.releasing (s : State) (q : BitVec 2) (hid : Nat) : State := if q.getLsbD 1 then s.markFence hid else s

/-- A hart with the old value in the atomic's register, where it names one. -/
def AtomForm.receive (a : AtomForm) (m : Nat) (g : Hart) : Hart := (a.rd.map (fun x => g.setX x (BitVec.ofNat 64 m))).getD g

/-- The atomic step of an aligned atomic, and what follows it. -/
def AtomForm.perform (a : AtomForm) (u : State) (h : Hart) : Exec :=
  match u.rmw h false (h.getX a.ra) a.n (fun m => if (trapFlag h.fen (a.apply h m).2).isSome then none else (a.apply h m).1) (isAcq a.q) with
  | .error e => u.missTrap h 3 ⟨e, h.getX a.ra, a.n, false⟩
  | .ok (t, m) =>
    match trapFlag h.fen (a.apply h m).2 with
    | some b => .trap (t.updHart (fun g => g.orFlags (flagBit b))) { code := 0x2000 + b }
    | none => .done (t.updHart (fun g => (a.receive m g).orFlags (a.apply h m).2))

section
variable {s t : State} {h : Hart} (hs : s.hart? = some h) (hq : s.Quiet) (a : AtomForm)
include hs hq

theorem AtomForm.run_quiet : a.run false s =
    (if misaligned h .atomic (h.getX a.ra) a.n then (s.releasing a.q h.hid).memTrap h 3 4 (h.getX a.ra)
      else a.perform (s.releasing a.q h.hid) h).outcome 4 := by
  rw [AtomForm.run, onHart_eq hs, State.releaseIf_quiet hq]
  rfl

theorem AtomForm.run_misaligned (hadm : Use.atomic.admits (pathOf (h.getX a.ra)) (h.priv != .u) = true) (hmis : (h.getX a.ra).toNat % a.n ≠ 0) :
    a.run false s = .next ((s.releasing a.q h.hid).takeTrap { code := 0x3034, tva := h.getX a.ra }) := by
  have hm : misaligned h .atomic (h.getX a.ra) a.n = true := by simp [misaligned, hadm, hmis]
  rw [AtomForm.run_quiet hs hq, if_pos hm]
  rfl

theorem AtomForm.run_barred (hadm : ¬ Use.atomic.admits (pathOf (h.getX a.ra)) (h.priv != .u) = true) :
    a.run false s = .next ((s.releasing a.q h.hid).takeTrap { code := 0x3033, tva := h.getX a.ra }) := by
  have hm : misaligned h .atomic (h.getX a.ra) a.n = false := by simp [misaligned, hadm]
  have hplace : (s.releasing a.q h.hid).place h .atomic (h.getX a.ra) a.n = .error 3 := by simp [State.place, hadm]
  rw [AtomForm.run_quiet hs hq, if_neg (Bool.eq_false_iff.mp hm), AtomForm.perform, State.rmw, hplace]
  rfl

section
variable {loc : Nat} (hplace : (s.releasing a.q h.hid).place h .atomic (h.getX a.ra) a.n = .ok (t, .mem loc)) (ht : t.Quiet)
  (hp : poisoned t.poison loc a.n = false) (hal : (h.getX a.ra).toNat % a.n = 0)
include hplace ht hp hal

theorem AtomForm.run_placed : a.run false s = (match trapFlag h.fen (a.apply h (peekNat t.mem loc a.n)).2 with
    | some b => Exec.trap (t.updHart (fun g => g.orFlags (flagBit b))) { code := 0x2000 + b }
    | none => .done (((a.apply h (peekNat t.mem loc a.n)).1.elim t (fun v => t.poke loc (leBytes a.n v))).updHart
        (fun g => (a.receive (peekNat t.mem loc a.n) g).orFlags (a.apply h (peekNat t.mem loc a.n)).2))).outcome 4 := by
  have hm : misaligned h .atomic (h.getX a.ra) a.n = false := by simp [misaligned, hal]
  rw [AtomForm.run_quiet hs hq, if_neg (Bool.eq_false_iff.mp hm), AtomForm.perform, State.rmw_quiet hplace ht hp]
  dsimp only
  cases trapFlag h.fen (a.apply h (peekNat t.mem loc a.n)).2 with
  | some b => rfl
  | none => cases (a.apply h (peekNat t.mem loc a.n)).1 <;> rfl

variable {v : Nat} {fl : Flags}

theorem AtomForm.run_writes (hr : a.apply h (peekNat t.mem loc a.n) = (some v, fl)) (hz : h.fen &&& fl = 0) : a.run false s =
    .next ((t.poke loc (leBytes a.n v)).did (fun g => (a.receive (peekNat t.mem loc a.n) g).orFlags fl) 4) := by
  rw [AtomForm.run_placed hs hq a hplace ht hp hal, hr, trapFlag_none hz]
  rfl

theorem AtomForm.run_reads (hr : a.apply h (peekNat t.mem loc a.n) = (none, fl)) (hz : h.fen &&& fl = 0) : a.run false s =
    .next (t.did (fun g => (a.receive (peekNat t.mem loc a.n) g).orFlags fl) 4) := by
  rw [AtomForm.run_placed hs hq a hplace ht hp hal, hr, trapFlag_none hz]
  rfl

theorem AtomForm.run_traps (hr : a.apply h (peekNat t.mem loc a.n) = (some v, fl)) {k : Nat} (hk : trapFlag h.fen fl = some k) : a.run false s =
    .next ((t.updHart (fun g => g.orFlags (1#6 <<< k))).takeTrap { code := 0x2000 + k }) := by
  rw [AtomForm.run_placed hs hq a hplace ht hp hal, hr, hk]
  rfl

end

variable {i : Instr} {n : Nat} {ra : XReg} {q : BitVec 2} (hi : IsAtom i n ra q)
omit a
include hi

theorem exec_misalignedAtom (hadm : Use.atomic.admits (pathOf (h.getX ra)) (h.priv != .u) = true) (hmis : (h.getX ra).toNat % n ≠ 0) :
    exec i s = .next ((s.releasing q h.hid).takeTrap { code := 0x3034, tva := h.getX ra }) := by
  obtain ⟨a, hexec, rfl, rfl, rfl⟩ := hi
  exact (hexec s).trans (AtomForm.run_misaligned hs hq a hadm hmis)

theorem exec_barredAtom (hadm : ¬ Use.atomic.admits (pathOf (h.getX ra)) (h.priv != .u) = true) :
    exec i s = .next ((s.releasing q h.hid).takeTrap { code := 0x3033, tva := h.getX ra }) := by
  obtain ⟨a, hexec, rfl, rfl, rfl⟩ := hi
  exact (hexec s).trans (AtomForm.run_barred hs hq a hadm)

end

end Sys2Proof.Machine

namespace Sys2Proof.Proofs

open Sys2Proof Sys2Proof.Machine

/-- Settles O31: every form is one atomic step, whose outcome is by its address and then by what it makes of the location's value. -/
theorem scalarAtomics : Obligations.ScalarAtomics := by
  unfold Obligations.ScalarAtomics
  intro s t h rd ra rb sc q dw loc hs hq n u va sized floats admitted
  have hsized : ∀ i ∈ sized, IsAtom i n ra q := by
    simp only [sized, List.forall_mem_cons]
    refine ⟨?_, ?_, ?_, ?_, ?_, ?_, ?_, ?_, ?_, ?_, ?_, ?_, fun _ hi => absurd hi List.not_mem_nil⟩ <;> exact ⟨_, fun _ => rfl, rfl, rfl, rfl⟩
  have hfloats : ∀ i ∈ floats, IsAtom i 4 ra q := by
    simp only [floats, List.forall_mem_cons]
    refine ⟨?_, ?_, ?_, fun _ hi => absurd hi List.not_mem_nil⟩ <;> exact ⟨_, fun _ => rfl, rfl, rfl, rfl⟩
  refine ⟨fun hadm hmis i hi => exec_misalignedAtom hs hq (hsized i hi) hadm hmis,
    fun hadm hmis i hi => exec_misalignedAtom hs hq (hfloats i hi) hadm hmis, fun hadm i hi => ?_, ?_⟩
  · obtain hi | hi := List.mem_append.mp hi
    · exact exec_barredAtom hs hq (hsized i hi) hadm
    · exact exec_barredAtom hs hq (hfloats i hi) hadm
  · intro ht hplace hp hal m b c w put got
    have hint (op : AtomOp) {v : Nat} (hv : op.apply w m b = (some v, 0)) : (intForm op rd ra rb dw q).run false s = got (put v) 0 :=
      AtomForm.run_writes hs hq (intForm op rd ra rb dw q) hplace ht hp hal hv BitVec.and_zero
    refine ⟨hint .swp rfl, hint .add rfl, hint .and rfl, hint .or rfl, hint .xor rfl, hint .min rfl, hint .max rfl, hint .minn rfl,
      hint .maxn rfl, ?_, AtomForm.run_reads hs hq (intForm .ld rd ra 0 dw q) hplace ht hp hal rfl BitVec.and_zero,
      AtomForm.run_writes hs hq (stForm ra rb dw q) hplace ht hp hal rfl BitVec.and_zero, ?_⟩
    · by_cases hm : m = c
      · rw [if_pos hm]
        exact AtomForm.run_writes hs hq (casForm rd ra rb dw q) hplace ht hp hal (congrArg (·, 0) (if_pos hm)) BitVec.and_zero
      · rw [if_neg hm]
        exact AtomForm.run_reads hs hq (casForm rd ra rb dw q) hplace ht hp hal (congrArg (·, 0) (if_neg hm)) BitVec.and_zero
    · rintro rfl i f hif
      have hfloat (op : AtomOp) (hi : ∀ s, exec i s = (floatForm op rd ra rb q).run false s) (hf : op.apply 32 m b = (some f.1, f.2)) :
          (h.fen &&& f.2 = 0 → exec i s = got (put f.1) f.2) ∧ ∀ k, trapFlag h.fen f.2 = some k →
            exec i s = .next ((t.updHart (fun g => g.orFlags (1#6 <<< k))).takeTrap { code := 0x2000 + k }) :=
        ⟨fun hz => (hi s).trans (AtomForm.run_writes hs hq (floatForm op rd ra rb q) hplace ht hp hal hf hz),
          fun k hk => (hi s).trans (AtomForm.run_traps hs hq (floatForm op rd ra rb q) hplace ht hp hal hf hk)⟩
      obtain ⟨rfl, rfl⟩ | ⟨rfl, rfl⟩ | ⟨rfl, rfl⟩ := hif
      · exact hfloat .fadd (fun _ => rfl) rfl
      · exact hfloat .fmin (fun _ => rfl) rfl
      · exact hfloat .fmax (fun _ => rfl) rfl

end Sys2Proof.Proofs
end

section
/-! The stair: bytes put on it, read from it and cut off, and the record that a push leaves for its pop (R191 to R198). -/

namespace Sys2Proof.Machine

open Sys2Proof

/-! ### Bytes of a number, and of a filtered map -/

/-- Bytes written lowest first read back, as far as they reach (R8). -/
theorem leNat_leBytes : ∀ n v : Nat, leNat (leBytes n v) = v % 256 ^ n
  | 0, v => by rw [Nat.pow_zero, Nat.mod_one]; rfl
  | n + 1, v => by
    rw [leBytes, leNat, leNat_leBytes n, BitVec.toNat_ofNat, Nat.pow_succ' (m := 256), Nat.mod_mul]

theorem leNat_leBytes_of_lt {n v : Nat} (hv : v < 256 ^ n) : leNat (leBytes n v) = v := by
  rw [leNat_leBytes, Nat.mod_eq_of_lt hv]

/-- A key whose entry a filter keeps reads as before. -/
theorem SMap.get_filter_kept {w : Nat} {p : Nat × BitVec w → Bool} {k : Nat} (hp : ∀ v, p (k, v) = true) :
    ∀ m : SMap w, SMap.get (m.filter p) k = SMap.get m k
  | [] => rfl
  | (a, v) :: m => by
    have ih := SMap.get_filter_kept hp m
    by_cases ha : a = k
    · subst ha
      rw [List.filter_cons_of_pos (hp v), SMap.get, if_pos rfl, SMap.get, if_pos rfl]
    · rw [SMap.get, if_neg ha, ← ih, List.filter_cons]
      split
      · rw [SMap.get, if_neg ha]
      · rfl

/-! ### The stair's parts after an operation -/

/-- A byte that a cut leaves on chip. -/
theorem Stair.get_cut (t : Stair) {low top k : Nat} (hlow : low ≤ k) (htop : k < top) : (t.cut low top).bytes.get k = t.bytes.get k :=
  SMap.get_filter_kept (fun _ => by simp [hlow, htop]) t.bytes

section
variable {h : Hart} {p : Nat}

/-- STP set to a multiple of 32 inside 64 bits (R195). -/
theorem Hart.stairTop_stp (hp : p < 2 ^ 64) (h32 : p % 32 = 0) : (h.stairTop p).stp = p := by
  have hmul : p / 32 * 32 = p := Nat.div_mul_cancel (Nat.dvd_of_mod_eq_zero h32)
  rw [Hart.stp, Hart.stairTop, hmul]
  exact (congrArg BitVec.toNat (SMap.get_set_self _ _ _)).trans (BitVec.toNat_ofNat p 64 |>.trans (Nat.mod_eq_of_lt hp))

theorem Hart.getCsr_stairTop {n : Nat} (hn : n ≠ 0xc32) : (h.stairTop p).getCsr n = h.getCsr n := SMap.get_set_ne _ _ hn

theorem Hart.stairTop_eq : h.stairTop p = { h with csr := (h.stairTop p).csr, stair := (h.stairTop p).stair } := rfl

/-- A byte below the new STP stays. -/
theorem Hart.stairTop_byte (h32 : p % 32 = 0) {k : Nat} (hk : k < p) (hlow : h.stair.low.toNat ≤ k) :
    (h.stairTop p).stair.bytes.get k = h.stair.bytes.get k := by
  have hmul : p / 32 * 32 = p := Nat.div_mul_cancel (Nat.dvd_of_mod_eq_zero h32)
  exact h.stair.get_cut (low := min h.stair.low.toNat (p / 32 * 32)) (top := p / 32 * 32) ((Nat.min_le_left _ _).trans hlow) (by omega)

end

/-! ### Units read on chip (R198) -/

/-- On a stair without a spill area the units from an address on are the bytes on chip. -/
theorem State.stairUnits_onChip (s : State) {h : Hart} (hn : h.noSpill = true) : ∀ (n : Nat) (va : Word) (bs : List Byte), bs.length = 32 * n →
    va.toNat + bs.length < 2 ^ 64 → (∀ i, i < bs.length → h.stair.bytes.get (va.toNat + i) = bs.getD i 0) → s.stairUnits h va n = .ok (s, bs)
  | 0, _, bs, hlen, _, _ => by
    rw [List.eq_nil_of_length_eq_zero hlen]
    rfl
  | n + 1, va, bs, hlen, hva, hget => by
    have hnext : (va + 32).toNat = va.toNat + 32 := by
      rw [BitVec.toNat_add]
      exact Nat.mod_eq_of_lt (by simp; omega)
    have hunit : (List.range 32).map (fun i => h.stair.bytes.get (va.toNat + i)) = bs.take 32 := by
      refine List.ext_getElem (by simp; omega) (fun i hi _ => ?_)
      have hi32 : i < 32 := by simpa using hi
      rw [List.getElem_map, List.getElem_range, hget i (by omega), List.getElem_take, List.getD_eq_getElem]
    have hrest := State.stairUnits_onChip s hn n (va + 32) (bs.drop 32) (by rw [List.length_drop]; omega)
      (by rw [hnext, List.length_drop]; omega) (fun i hi => by
        rw [List.length_drop] at hi
        rw [hnext, Nat.add_assoc, hget (32 + i) (by omega), List.getD_eq_getElem?_getD, List.getD_eq_getElem?_getD, List.getElem?_drop])
    rw [State.stairUnits, hn, Bool.true_or, if_pos rfl, hunit]
    dsimp only
    rw [hrest]
    dsimp only
    rw [List.take_append_drop]

/-! ### A push on a stair without a spill area (R194) -/

/-- The hart with bytes put above STP, and none spilled. -/
def Hart.pushed (h : Hart) (bs : List Byte) : Hart :=
  { h.setCsr 0xc32 (BitVec.ofNat 64 (h.stp + bs.length)) with stair := Stair.cut { h.stair with
      bytes := h.stair.bytes.setAll h.stp bs, marks := BitVec.ofNat 64 (h.stp + bs.length) :: h.stair.marks } h.stair.low.toNat (h.stp + bs.length) }

section
variable {h : Hart} (bs : List Byte)

theorem State.stairPush_noSpill (s : State) (hn : h.noSpill = true) : s.stairPush h bs = .ok (s, h.pushed bs) := by
  unfold State.stairPush
  dsimp only
  rw [hn, Bool.true_or, if_pos rfl, Nat.sub_self, Nat.zero_div]
  rfl

theorem Hart.getCsr_pushed {n : Nat} (hn : n ≠ 0xc32) : (h.pushed bs).getCsr n = h.getCsr n := SMap.get_set_ne _ _ hn

theorem Hart.pushed_stb : (h.pushed bs).stb = h.stb := congrArg BitVec.toNat (Hart.getCsr_pushed bs (by decide))

theorem Hart.pushed_noSpill : (h.pushed bs).noSpill = h.noSpill := by
  rw [Hart.noSpill, Hart.noSpill, Hart.pushed_stb, Hart.stl, Hart.stl, Hart.getCsr_pushed bs (by decide)]

theorem Hart.pushed_ven : (h.pushed bs).ven = h.ven := by rw [Hart.ven, Hart.ven, Hart.getCsr_pushed bs (by decide)]

variable {bs}

theorem Hart.pushed_stp (hb : h.stp + bs.length < 2 ^ 64) : (h.pushed bs).stp = h.stp + bs.length :=
  (congrArg BitVec.toNat (SMap.get_set_self _ _ _)).trans (BitVec.toNat_ofNat _ 64 |>.trans (Nat.mod_eq_of_lt hb))

theorem Hart.pushed_byte (hlow : h.stair.low.toNat ≤ h.stp) {i : Nat} (hi : i < bs.length) :
    (h.pushed bs).stair.bytes.get (h.stp + i) = bs.getD i 0 := by
  refine (Stair.get_cut _ (by omega) (by omega)).trans ?_
  rw [SMap.get_setAll, if_pos (by omega), Nat.add_sub_cancel_left]

/-- What a record's push has put on chip, read back unit by unit. -/
theorem Hart.pushed_units (s : State) (hn : h.noSpill = true) (hlow : h.stair.low.toNat ≤ h.stp) {pre part : List Byte} {n : Nat}
    (hbs : ∃ post, bs = pre ++ part ++ post) (hb : h.stp + bs.length < 2 ^ 64) (hlen : part.length = 32 * n) :
    s.stairUnits (h.pushed bs) (BitVec.ofNat 64 (h.stp + pre.length)) n = .ok (s, part) := by
  obtain ⟨post, hbs⟩ := hbs
  have hlength : bs.length = pre.length + part.length + post.length := by rw [hbs, List.length_append, List.length_append]
  have hva : (BitVec.ofNat 64 (h.stp + pre.length)).toNat = h.stp + pre.length := by
    rw [BitVec.toNat_ofNat, Nat.mod_eq_of_lt (by omega)]
  refine State.stairUnits_onChip s ((Hart.pushed_noSpill bs).trans hn) n _ part hlen (by rw [hva]; omega) (fun i hi => ?_)
  rw [hva, Nat.add_assoc, Hart.pushed_byte hlow (by omega), hbs, List.append_assoc, List.getD_append_right _ _ _ _ (by omega),
    Nat.add_sub_cancel_left, List.getD_append _ _ _ _ hi]

/-- STP lies inside a stair without a spill area up to the share (R196). -/
theorem Hart.stairHolds_noSpill (hn : h.noSpill = true) {p : Nat} (hlo : h.stb ≤ p) (hhi : p ≤ h.stb + h.share) (h64 : p < 2 ^ 64) :
    h.stairHolds p = true := by
  have hcap : h.stairCap = h.share := if_pos hn
  have hle : h.stb ≤ h.stl := (of_decide_eq_true hn : h.stl = h.stb).ge
  simp only [Hart.stairHolds, hcap, hn, hlo, hhi, h64, hle, decide_true, Bool.and_true, Bool.true_or]

end

/-! ### A record's header (R191) -/

/-- The header of a record. -/
def headerOf (plen tag wvt shape rc vl : Nat) : List Byte :=
  leBytes 2 tag ++ leBytes 2 wvt ++ leBytes 4 (rc * vl) ++ leBytes 4 shape ++ leBytes 4 plen ++ leBytes 2 vl ++ leBytes 2 rc ++ List.replicate 12 0

section
variable (payload : List Byte) (plen tag wvt shape rc vl : Nat)

theorem recordOf_eq : recordOf payload tag wvt shape rc vl = payload ++ headerOf payload.length tag wvt shape rc vl := by
  simp only [recordOf, headerOf, List.append_assoc]

theorem headerOf_length : (headerOf plen tag wvt shape rc vl).length = 32 := rfl

theorem recordOf_length : (recordOf payload tag wvt shape rc vl).length = payload.length + 32 := by
  rw [recordOf_eq, List.length_append, headerOf_length]

variable {plen tag shape rc vl}

theorem headField_tag (hlt : tag < 2 ^ 16) : headField (headerOf plen tag wvt shape rc vl) 0 2 = tag := leNat_leBytes_of_lt (n := 2) hlt

theorem headField_count (hlt : rc * vl < 2 ^ 32) : headField (headerOf plen tag wvt shape rc vl) 4 4 = rc * vl := leNat_leBytes_of_lt (n := 4) hlt

theorem headField_shape (hlt : shape < 2 ^ 32) : headField (headerOf plen tag wvt shape rc vl) 8 4 = shape := leNat_leBytes_of_lt (n := 4) hlt

theorem headField_length (hlt : plen < 2 ^ 32) : headField (headerOf plen tag wvt shape rc vl) 12 4 = plen := leNat_leBytes_of_lt (n := 4) hlt

end

/-! ### A pop that finds its record (R194, R393) -/

theorem State.popVersion_off (s : State) {h : Hart} (hv : h.ven = false) (ap : Ap) (wvt : Nat) : s.popVersion h ap wvt = .ok s := by
  rw [State.popVersion, hv]
  rfl

/-- The checks of a pop pass on a header of its tag, shape and count, and it takes the record off. -/
theorem State.stairPop_found {s : State} {h : Hart} {ap : Ap} {tag shape n plen : Nat} {hd payload : List Byte} (hin : h.stairHolds h.stp = true)
    (hv : h.ven = false) (hroom : h.stb + plen + 32 ≤ h.stp) (hhead : s.stairUnits h (BitVec.ofNat 64 (h.stp - 32)) 1 = .ok (s, hd))
    (hlength : headField hd 12 4 = plen) (htag : headField hd 0 2 = tag) (hshape : headField hd 8 4 = shape) (hcount : headField hd 4 4 = n)
    (hunits : s.stairUnits h (BitVec.ofNat 64 (h.stp - 32 - plen)) (plen / 32) = .ok (s, payload)) :
    s.stairPop h ap tag shape n = .ok (s, h.stairTop (h.stp - 32 - plen), payload) := by
  rw [State.stairPop, hin, if_neg (by decide), if_neg (by omega), hhead]
  dsimp only
  rw [hlength, if_neg (by omega), if_neg (not_not.mpr htag), if_neg (not_not.mpr hshape), if_neg (not_not.mpr hcount), State.popVersion_off s hv]
  dsimp only
  rw [hunits]

end Sys2Proof.Machine

namespace Sys2Proof.Proofs

open Sys2Proof Sys2Proof.Machine

/-- Settles O47: the push puts payload and header above STP, and the pop reads both back from there. -/
theorem popReturnsThePush : Obligations.PopReturnsThePush := by
  unfold Obligations.PopReturnsThePush
  intro s h ap payload tag wvt shape rc vl hn hv h32 hlow hbase hroom h64 hmul hplen htag hshape hcount
  have hlen := recordOf_length payload tag wvt shape rc vl
  have hrec := recordOf_eq payload tag wvt shape rc vl
  generalize recordOf payload tag wvt shape rc vl = bs at hlen hrec ⊢
  have hstp : (h.pushed bs).stp = h.stp + payload.length + 32 := (Hart.pushed_stp (by omega)).trans (by omega)
  have hstb := Hart.pushed_stb (h := h) bs
  have hpn := (Hart.pushed_noSpill bs).trans hn
  have htop : h.stp + payload.length + 32 - 32 = h.stp + payload.length := by omega
  have hbot : h.stp + payload.length - payload.length = h.stp := by omega
  have hhead : s.stairUnits (h.pushed bs) (BitVec.ofNat 64 ((h.pushed bs).stp - 32)) 1 =
      .ok (s, headerOf payload.length tag wvt shape rc vl) := by
    rw [hstp, htop]
    exact Hart.pushed_units s hn hlow ⟨[], by rw [hrec, List.append_nil]⟩ (by omega) (headerOf_length ..)
  have hunits : s.stairUnits (h.pushed bs) (BitVec.ofNat 64 ((h.pushed bs).stp - 32 - payload.length)) (payload.length / 32) = .ok (s, payload) := by
    rw [hstp, htop, hbot]
    exact Hart.pushed_units s hn hlow (pre := []) ⟨_, hrec⟩ (by omega) (by omega)
  have hin : (h.pushed bs).stairHolds (h.pushed bs).stp = true := by
    refine Hart.stairHolds_noSpill hpn ?_ ?_ ?_ <;> rw [hstp]
    · rw [hstb]
      omega
    · exact hstb ▸ hroom
    · omega
  refine ⟨h.pushed bs, State.stairPush_noSpill bs s hn, hstp, _, State.stairPop_found hin ((Hart.pushed_ven bs).trans hv) (by omega) hhead
    (headField_length wvt hplen) (headField_tag wvt htag) (headField_shape wvt hshape) (headField_count wvt hcount) hunits, ?_⟩
  rw [hstp, htop, hbot]
  exact Hart.stairTop_stp (by omega) h32

end Sys2Proof.Proofs
end

section
/-! The stair's management instructions (R196, R199, R203, R394). -/

namespace Sys2Proof.Machine

open Sys2Proof

/-! ### Loads and fills keep the harts (R198, R206, R207) -/

namespace State.SameHarts

theorem foldl_fst {α β : Type} {f : State × β → α → State × β} (hf : ∀ (a : State × β) x, a.1.SameHarts (f a x).1) :
    ∀ (l : List α) (a : State × β), a.1.SameHarts (l.foldl f a).1
  | [], a => refl a.1
  | x :: l, a => (hf a x).trans (foldl_fst hf l (f a x))

theorem constLine (s : State) (core launch since line : Nat) : s.SameHarts (s.constLine core launch since line).1 := by
  unfold State.constLine
  dsimp only
  split
  · exact ⟨rfl, rfl⟩
  · exact refl s

theorem constRead (s : State) (g : Gang) (stamp loc n : Nat) : s.SameHarts (s.constRead g stamp loc n).1 :=
  foldl_fst (fun (a : State × List Byte) line => constLine a.1 _ _ _ line) _ (s, [])

theorem load {s t : State} {h : Hart} {vec : Bool} {u : Use} {va : Word} {n : Nat} {bs : List Byte} (ht : s.load h vec u va n = .ok (t, bs)) :
    s.SameHarts t := by
  unfold State.load at ht
  split at ht
  · cases ht
  next hp =>
    cases ht
    exact place hp
  next s1 loc hp =>
    have hplace := place hp
    split at ht
    · split at ht
      · cases ht
      · split at ht
        · cases ht
          exact hplace
        next g _ =>
          have hread : (s1.constRead g _ loc n).1 = t := congrArg Prod.fst (Except.ok.inj ht)
          exact hread ▸ hplace.trans (constRead s1 g _ loc n)
    · split at ht
      · cases ht
      next s2 hr =>
        extract_lets s3 s4 at ht
        have hsettled : s.SameHarts s3 := (hplace.trans (reach hr)).trans (settle s2 h.hid vec loc n)
        have hperformed : s.SameHarts s4 := hsettled.trans (ite (performAll _ _ _) (refl _))
        split at ht
        · cases ht
        · have hend : s4 = t := by
            split at ht
            · exact congrArg Prod.fst (Except.ok.inj ht)
            · exact congrArg Prod.fst (Except.ok.inj ht)
          exact hend ▸ hperformed

theorem stairUnits {h : Hart} : ∀ {n : Nat} {s t : State} {va : Word} {bs : List Byte}, s.stairUnits h va n = .ok (t, bs) → s.SameHarts t
  | 0, s, t, _, _, ht => by
    cases ht
    exact refl s
  | n + 1, s, t, va, bs, ht => by
    rw [State.stairUnits] at ht
    split at ht
    · cases ht
    next s1 _ hunit =>
      have hfirst : s.SameHarts s1 := by
        split at hunit
        · cases hunit
          exact refl s
        · exact load hunit
      split at ht
      · cases ht
      next hrest =>
        cases ht
        exact hfirst.trans (stairUnits hrest)

end State.SameHarts

/-- A fill changes of its hart what stands on chip. -/
theorem State.stairPre_keeps (s : State) (h : Hart) (n : Nat) : s.SameHarts (s.stairPre h n).1 ∧
    (s.stairPre h n).2 = { h with stair := (s.stairPre h n).2.stair } := by
  unfold State.stairPre
  dsimp only
  split
  · exact ⟨.refl s, rfl⟩
  next hunits => exact ⟨.stairUnits hunits, rfl⟩

/-! ### How a management instruction ends (R202, R203, R328) -/

/-- A management instruction at the gate, without charge. -/
def State.manageGate (t : State) (h : Hart) : State := t.dispatch h 15 0 { stair := some .manage }

section
variable {s : State} {h : Hart} (hs : s.hart? = some h) {f : Hart → Exec}
include hs

theorem stairManaged_done {t : State} (hf : f h = .done t) : stairManaged s f = .next ((t.manageGate h).stepOver 8) := by
  rw [stairManaged, onHart_eq hs, hf]
  rfl

theorem stairManaged_trap {t : State} {r : TrapRec} (hf : f h = .trap t r) : stairManaged s f = .next ((t.manageGate h).takeTrap r) := by
  rw [stairManaged, onHart_eq hs, hf]
  rfl

omit hs in
/-- The hart after it. -/
theorem State.hart?_managed {t : State} {g : Hart} (ht : t.hart? = some g) (hg : g.hid = h.hid) : ∃ j,
    ((t.manageGate h).stepOver 8).hart? = some ((g.noteDrain j).commit (g.pc + 8)) :=
  ⟨_, State.hart?_updHart (State.hart?_dispatch ht (hg.symm.trans (State.hid_of_hart? ht)) 15 0 _) (Hart.commit_hid _ _)⟩

/-- Of a state whose hart it leaves as `g`, it changes that hart and timing. -/
theorem State.onlyHartAndTiming_managed {g : Hart} (hg : g.hid = h.hid) : s.OnlyHartAndTiming (((s.setHart g).manageGate h).stepOver 8) := by
  have hcur := State.hid_of_hart? hs
  have hset : s.OnlyHartAndTiming (s.setHart g) := State.onlyHartAndTiming_updHart s (fun _ _ => hg.trans hcur)
  have hgate (t : State) (ht : h.hid = t.cur) (c : CoreSt → CoreSt) (j : Job) : t.OnlyHartAndTiming ((t.updCore h.q c).updHartAt h.hid (Hart.noteDrain j)) := by
    rw [ht]
    exact (t.onlyTiming_updCore h.q c).onlyHartAndTiming.trans (State.onlyHartAndTiming_updHart (t.updCore h.q c) (fun _ hx => hx))
  exact (hset.trans (hgate (s.setHart g) hcur _ _)).trans
    (State.onlyHartAndTiming_updHart _ (f := fun x => x.commit (x.pc + BitVec.ofNat 64 8)) (fun _ hx => (Hart.commit_hid _ _).trans hx))

end

section
variable (g : Hart) (j : Job) (pc : Word)

theorem Hart.managed_stair : ((g.noteDrain j).commit pc).stair = g.stair := Hart.commit_stair _ _

theorem Hart.managed_x : ((g.noteDrain j).commit pc).x = g.x := Hart.commit_x _ _

theorem Hart.managed_plane : ((g.noteDrain j).commit pc).plane = g.plane := Hart.commit_plane _ _

theorem Hart.managed_stp : ((g.noteDrain j).commit pc).stp = g.stp := congrArg BitVec.toNat (Hart.getCsr_commit (by decide) pc)

theorem Hart.managed_stb : ((g.noteDrain j).commit pc).stb = g.stb := congrArg BitVec.toNat (Hart.getCsr_commit (by decide) pc)

theorem Hart.managed_stl : ((g.noteDrain j).commit pc).stl = g.stl := congrArg BitVec.toNat (Hart.getCsr_commit (by decide) pc)

end

/-! ### The instructions (R203) -/

/-- The hart that moves is `h` but for what stands on chip of its stair, its outstanding stores and what has arrived for it. -/
def State.Restocked (t : State) (h : Hart) : Prop :=
  ∃ g, t.hart? = some g ∧ g.hid = h.hid ∧ g.pc = h.pc ∧ g.x = h.x ∧ g.plane = h.plane ∧ g.csr = h.csr

/-- One record dropped, where a whole one stands above STB. -/
theorem State.stairDrop_succ {s t : State} {h : Hart} {hd : List Byte} (n : Nat) (hne : h.stb < h.stp)
    (hunits : s.stairUnits h (BitVec.ofNat 64 (h.stp - 32)) 1 = .ok (t, hd)) {len : Nat} (hlen : headField hd 12 4 + 32 = len) :
    s.stairDrop (n + 1) h = if h.stp < h.stb + len then .ok (t, h) else t.stairDrop n (h.stairTop (h.stp - len)) := by
  subst hlen
  rw [State.stairDrop, if_neg (not_le.mpr hne), hunits]
  dsimp only
  rw [Nat.add_assoc, Nat.sub_sub, Nat.add_comm 32]

section
variable {s : State} {h : Hart} (hs : s.hart? = some h)
include hs

theorem exec_stpeek_empty (rd : XReg) (he : h.stp = h.stb) : exec (.stpeek rd) s = .next (((s.setHart (h.setX rd 0)).manageGate h).stepOver 8) :=
  stairManaged_done hs (if_pos he)

theorem exec_stpeek_header (rd : XReg) {t : State} {hd : List Byte} (hne : h.stp ≠ h.stb)
    (hunits : s.stairUnits h (BitVec.ofNat 64 h.stp - 32) 1 = .ok (t, hd)) : exec (.stpeek rd) s = .next (((t.setHart (h.setX rd (BitVec.ofNat 64
      (headField hd 4 4 * 2 ^ 32 + headField hd 2 2 * 2 ^ 16 + headField hd 0 2)))).manageGate h).stepOver 8) :=
  stairManaged_done hs (by
    rw [if_neg hne, hunits]
    rfl)

theorem exec_stdrop (ra : XReg) {t : State} {h' : Hart} (hdrop : s.stairDrop (min (h.getX ra).toNat ((h.stp - h.stb) / 32)) h = .ok (t, h')) :
    exec (.stdrop ra) s = .next (((t.setHart h').manageGate h).stepOver 8) :=
  stairManaged_done hs (by
    rw [hdrop])

theorem exec_stcut_boundary (ra : XReg) {p : Nat} (hp : (h.getX ra).toNat = p)
    (hok : h.stb ≤ p ∧ p ≤ h.stp ∧ p % 32 = 0 ∧ (p = h.stb ∨ p = h.stp ∨ h.getX ra ∈ h.stair.marks)) :
    exec (.stcut ra) s = .next (((s.setHart (h.stairTop p)).manageGate h).stepOver 8) := by
  subst hp
  exact stairManaged_done hs (if_pos hok)

theorem exec_stcut_elsewhere (ra : XReg) {p : Nat} (hp : (h.getX ra).toNat = p)
    (hno : ¬ (h.stb ≤ p ∧ p ≤ h.stp ∧ p % 32 = 0 ∧ (p = h.stb ∨ p = h.stp ∨ h.getX ra ∈ h.stair.marks))) :
    exec (.stcut ra) s = .next ((s.manageGate h).takeTrap { code := 0x112b }) := by
  subst hp
  exact stairManaged_trap hs (if_neg hno)

theorem exec_stsync {t : State} (hsync : s.stairSync h = .ok t) : exec .stsync s = .next (((t.setHart h).manageGate h).stepOver 8) :=
  stairManaged_done hs (by
    rw [hsync])

/-- What a fill leaves, whatever room there is for it and however much of it is filled. -/
theorem State.stairPre_restocked (room k : Nat) : ∃ t, (if room = 0 then Exec.done s
    else .done ((s.stairPre h (min room k)).1.setHart (s.stairPre h (min room k)).2)) = .done t ∧ t.Restocked h := by
  split
  · exact ⟨s, rfl, h, hs, rfl, rfl, rfl, rfl, rfl⟩
  · obtain ⟨hsame, hpre⟩ := s.stairPre_keeps h (min room k)
    obtain ⟨g, hg, hid⟩ := hsame.hart? hs
    refine ⟨_, rfl, _, State.hart?_setHart hg ?_, ?_, ?_, ?_, ?_, ?_⟩ <;> rw [hpre]
    exact hid.symm

theorem exec_stpre (ra : XReg) : ∃ t : State, exec (.stpre ra) s = .next ((t.manageGate h).stepOver 8) ∧ t.Restocked h :=
  (State.stairPre_restocked hs _ _).imp (fun _ ht => ⟨stairManaged_done hs ht.1, ht.2⟩)

end

end Sys2Proof.Machine

namespace Sys2Proof.Proofs

open Sys2Proof Sys2Proof.Machine

/-- Settles O49, instruction by instruction; what `stcut` leaves is the hart with STP lowered and the on-chip part cut there. -/
theorem stairManagement : Obligations.StairManagement := by
  unfold Obligations.StairManagement
  intro s h rd ra hs p did
  refine ⟨exec_stpeek_empty hs rd, fun t hd hne hunits => exec_stpeek_header hs rd hne hunits, fun hnone => exec_stdrop hs ra ?_,
    fun t h' hdrop => exec_stdrop hs ra hdrop, fun n t hd hne hunits => State.stairDrop_succ n hne hunits rfl,
    ⟨fun hok => ?_, exec_stcut_elsewhere hs ra rfl⟩, fun t hsync => exec_stsync hs hsync, ?_⟩
  · have hzero : min (h.getX ra).toNat ((h.stp - h.stb) / 32) = 0 := by
      obtain hp | hle := hnone
      · exact Nat.min_eq_zero_iff.mpr (.inl hp)
      · rw [Nat.sub_eq_zero_of_le hle, Nat.zero_div, Nat.min_zero]
    rw [hzero]
    rfl
  · have hset := State.hart?_setHart_own (g := h.stairTop p) hs rfl rfl rfl rfl rfl
    obtain ⟨j, hj⟩ := State.hart?_managed hset rfl
    obtain ⟨hbase, htop, h32, hmark⟩ := hok
    refine ⟨_, _, exec_stcut_boundary hs ra rfl ⟨hbase, htop, h32, hmark⟩, hj, ?_, ?_, ?_, Hart.managed_x .., State.onlyHartAndTiming_managed hs rfl, fun k hk hlow => ?_⟩
    · rw [Hart.managed_stp]
      exact Hart.stairTop_stp (h.getX ra).isLt h32
    · rw [Hart.managed_stb]
      exact congrArg BitVec.toNat (Hart.getCsr_stairTop (by decide))
    · rw [Hart.managed_stl]
      exact congrArg BitVec.toNat (Hart.getCsr_stairTop (by decide))
    · rw [Hart.managed_stair]
      exact Hart.stairTop_byte h32 hk hlow
  · obtain ⟨t, hexec, g, hg, hid, hpc, hx, hplane, hcsr⟩ := exec_stpre hs ra
    obtain ⟨j, hj⟩ := State.hart?_managed hg hid
    have hstair (n : Nat) : g.getCsr n = h.getCsr n := congrArg (SMap.get · n) hcsr
    exact ⟨_, _, hexec, hj, congrArg (· + 8) hpc, (Hart.managed_x ..).trans hx, (Hart.managed_plane ..).trans hplane,
      (Hart.managed_stp ..).trans (congrArg BitVec.toNat (hstair _)), (Hart.managed_stb ..).trans (congrArg BitVec.toNat (hstair _)),
      (Hart.managed_stl ..).trans (congrArg BitVec.toNat (hstair _))⟩

end Sys2Proof.Proofs
end

section
/-! Elements of the reversible forms and of their undos (R184 to R189). -/

namespace Sys2Proof.Machine

open Sys2Proof

/-! ### The inverse of an odd number modulo 2^w (R185) -/

/-- One round of the inverse. -/
def inverseRound (w b x : Nat) : Nat := x * (2 ^ w + 2 - b * x % 2 ^ w) % 2 ^ w

theorem oddInverse_eq (w b : Nat) : oddInverse w b =
    inverseRound w b (inverseRound w b (inverseRound w b (inverseRound w b (b % 2 ^ w)))) := rfl

/-- A remainder as an integer differs from its number by a multiple of the modulus. -/
theorem natCast_mod_eq (a m : Nat) : ((a % m : Nat) : Int) = a - m * (a / m : Nat) := by
  have hdiv : (m : Int) * (a / m : Nat) + (a % m : Nat) = a := by exact_mod_cast Nat.div_add_mod a m
  linarith

/-- A power of two divides whatever a higher one of an exponent that does not pass w does. -/
theorem twoPow_min_dvd (j w : Nat) : ((2 : Int) ^ min j w) ∣ (2 ^ w : Nat) := by
  push_cast
  exact pow_dvd_pow 2 (Nat.min_le_right j w)

/-- The square of an odd number is 1 modulo 8: three bits are right from the start. -/
theorem inverseStart {b : Nat} (hb : b % 2 = 1) (w : Nat) : ((2 : Int) ^ min 3 w) ∣ (b : Int) * (b % 2 ^ w : Nat) - 1 := by
  have hodd : Odd (b : Int) := by exact_mod_cast Nat.odd_iff.mpr hb
  have hsq : ((2 : Int) ^ min 3 w) ∣ (b : Int) ^ 2 - 1 :=
    (pow_dvd_pow 2 (Nat.min_le_left 3 w)).trans (Int.eight_dvd_sq_sub_one_of_odd hodd)
  have hsplit : (b : Int) * (b % 2 ^ w : Nat) - 1 = (b ^ 2 - 1) - (2 ^ w : Nat) * (b * (b / 2 ^ w : Nat)) := by
    rw [natCast_mod_eq]
    ring
  rw [hsplit]
  exact dvd_sub hsq ((twoPow_min_dvd 3 w).mul_right _)

/-- A round doubles the number of right bits, as far as w. -/
theorem inverseRound_doubles {w b x j : Nat} (hx : ((2 : Int) ^ min j w) ∣ (b : Int) * x - 1) :
    ((2 : Int) ^ min (2 * j) w) ∣ (b : Int) * inverseRound w b x - 1 := by
  have hsq : ((2 : Int) ^ min (2 * j) w) ∣ ((b : Int) * x - 1) ^ 2 := by
    refine (pow_dvd_pow 2 ?_).trans (pow_mul (2 : Int) (min j w) 2 ▸ pow_dvd_pow_of_dvd hx 2)
    omega
  have hle : b * x % 2 ^ w ≤ 2 ^ w + 2 := (Nat.mod_lt _ (Nat.two_pow_pos w)).le.trans (Nat.le_add_right _ 2)
  have hcast : ((2 ^ w + 2 - b * x % 2 ^ w : Nat) : Int) = (2 ^ w : Nat) + 2 - (b * x - (2 ^ w : Nat) * (b * x / 2 ^ w : Nat)) := by
    rw [Nat.cast_sub hle, natCast_mod_eq (b * x)]
    push_cast
    ring
  have hsplit : ∃ c : Int, (b : Int) * inverseRound w b x - 1 = (2 ^ w : Nat) * c - ((b : Int) * x - 1) ^ 2 := by
    refine ⟨b * x * (1 + (b * x / 2 ^ w : Nat)) - b * (x * (2 ^ w + 2 - b * x % 2 ^ w) / 2 ^ w : Nat), ?_⟩
    rw [inverseRound, natCast_mod_eq, Nat.cast_mul, hcast]
    ring
  obtain ⟨c, hc⟩ := hsplit
  rw [hc]
  exact dvd_sub ((twoPow_min_dvd _ w).mul_right c) hsq

/-- Four rounds are enough for 48 bits. -/
theorem mul_oddInverse {w b : Nat} (hw : w ≤ 48) (hb : b % 2 = 1) : b * oddInverse w b ≡ 1 [MOD 2 ^ w] := by
  have hdvd := inverseRound_doubles (inverseRound_doubles (inverseRound_doubles (inverseRound_doubles (inverseStart hb w))))
  rw [← oddInverse_eq, Nat.min_eq_right hw] at hdvd
  exact (Nat.modEq_of_dvd (a := 1) (by exact_mod_cast hdvd)).symm

/-! ### The integer pairs (R185) -/

/-- Two factors whose product is 1 undo each other. -/
theorem mul_mul_mod_cancel {a m p q : Nat} (ham : a < m) (hpq : p * q ≡ 1 [MOD m]) : a * p % m * q % m = a := by
  have hone : a * (p * q) ≡ a * 1 [MOD m] := hpq.mul_left a
  rw [Nat.mod_mul_mod, Nat.mul_assoc, hone, Nat.mul_one, Nat.mod_eq_of_lt ham]

theorem tyWidth_le (ty : Nat) : tyWidth ty ≤ 32 := by
  unfold tyWidth
  split <;> decide

section
variable {h : Hart} {ty a b c : Nat} (ha : a < 2 ^ tyWidth ty)
include ha

theorem uadd_radd (hb : b < 2 ^ tyWidth ty) : (revIntEl .uadd h ty ty ty (revIntEl .radd h ty ty ty a b c).1 b c).1 = a := by
  change ((a + b) % 2 ^ tyWidth ty + 2 ^ tyWidth ty - b) % 2 ^ tyWidth ty = a
  generalize 2 ^ tyWidth ty = m at *
  by_cases hover : a + b < m
  · rw [Nat.mod_eq_of_lt hover, show a + b + m - b = a + m by omega, Nat.add_mod_right, Nat.mod_eq_of_lt ha]
  · have hwrap : (a + b) % m = a + b - m := by rw [Nat.mod_eq_sub_mod (by omega), Nat.mod_eq_of_lt (by omega)]
    rw [hwrap, show a + b - m + m - b = a by omega, Nat.mod_eq_of_lt ha]

theorem radd_uadd (hb : b < 2 ^ tyWidth ty) : (revIntEl .radd h ty ty ty (revIntEl .uadd h ty ty ty a b c).1 b c).1 = a := by
  change ((a + 2 ^ tyWidth ty - b) % 2 ^ tyWidth ty + b) % 2 ^ tyWidth ty = a
  rw [Nat.mod_add_mod, Nat.sub_add_cancel (by omega), Nat.add_mod_right, Nat.mod_eq_of_lt ha]

omit ha in
theorem rxor_rxor : (revIntEl .rxor h ty ty ty (revIntEl .rxor h ty ty ty a b c).1 b c).1 = a := Nat.xor_xor_cancel_right ..

section
variable (hodd : b % 2 = 1)
include hodd

theorem umulo_rmulo : (revIntEl .umulo h ty ty ty (revIntEl .rmulo h ty ty ty a b c).1 b c).1 = a :=
  mul_mul_mod_cancel ha (mul_oddInverse ((tyWidth_le ty).trans (by decide)) hodd)

theorem rmulo_umulo : (revIntEl .rmulo h ty ty ty (revIntEl .umulo h ty ty ty a b c).1 b c).1 = a :=
  mul_mul_mod_cancel ha (Nat.mul_comm b _ ▸ mul_oddInverse ((tyWidth_le ty).trans (by decide)) hodd)

end

end

/-! ### The floating pairs (R186, R187) -/

/-- A slot with its escape bit is the original. -/
theorem residual_escape {f : Fmt} {x : Option Ex} {d a : Nat} (he : (residual f x d a).2 = true) : (residual f x d a).1 = a := by
  revert he
  unfold residual
  split
  · split
    · exact fun he => absurd he Bool.false_ne_true
    · exact fun _ => rfl
  · exact fun _ => rfl

/-! ### `rcvt` and its undo (R188) -/

/-- `ucvt` gives back a number from its high half, taken as it is or one higher, its low half, and the bit that says which. -/
theorem undoEl_ucvt {a q b : Nat} (ha : a < 2 ^ 32) (hq : q = a / 2 ^ 16 ∨ q = a / 2 ^ 16 + 1) :
    undoEl .ucvt 8 q b (a % 2 ^ 16, decide (q ≠ a / 2 ^ 16)) = a := by
  change ((q + 2 ^ 16 - if decide (q ≠ a / 2 ^ 16) = true then 1 else 0) * 2 ^ 16 + a % 2 ^ 16) % 2 ^ 32 = a
  obtain rfl | rfl := hq
  · rw [if_neg (by simp)]
    omega
  · rw [if_pos (by simp)]
    omega

section
variable (h : Hart) (td ta tb b : Nat) {a : Nat}

/-- The result of `rcvt` on what is converted so is the high half or one more, and its slot has the low half and which of the two it is. -/
theorem forwardEl_rcvt (ha : a < 2 ^ 32) (hx : (f32.decode a).isNaN = true ∨ (h.mode 0xc01 = 1 ∧ ∃ y, f32.decode a = .fin y)) :
    ∃ q fl, (q = a / 2 ^ 16 ∨ q = a / 2 ^ 16 + 1) ∧
      forwardEl .rcvt h td ta tb a b = (q, fl, a % 2 ^ 16, decide (q ≠ a / 2 ^ 16)) := by
  unfold forwardEl
  obtain hnan | ⟨hm, y, hy⟩ := hx
  · cases hd : f32.decode a with
    | nan sig =>
      refine ⟨if a / 2 ^ 16 % 2 ^ 7 = 0 then a / 2 ^ 16 + 1 else a / 2 ^ 16, 0, ?_, rfl⟩
      split
      · exact .inr rfl
      · exact .inl rfl
    | inf n =>
      rw [hd] at hnan
      cases hnan
    | fin y =>
      rw [hd] at hnan
      cases hnan
  · rw [hy, hm]
    exact ⟨(bf16.round 1 y).1, (bf16.round 1 y).2, .inl (bf16_round_truncates ha hy), rfl⟩

/-- `ucvt` gives back what `rcvt` has converted toward zero, and a NaN in any mode. -/
theorem ucvt_rcvt (ha : a < 2 ^ 32) (hx : (f32.decode a).isNaN = true ∨ (h.mode 0xc01 = 1 ∧ ∃ y, f32.decode a = .fin y)) :
    undoEl .ucvt 8 (forwardEl .rcvt h td ta tb a b).1 b (forwardEl .rcvt h td ta tb a b).2.2 = a := by
  obtain ⟨q, fl, hq, he⟩ := forwardEl_rcvt h td ta tb b ha hx
  rw [he]
  exact undoEl_ucvt ha hq

end

end Sys2Proof.Machine

namespace Sys2Proof.Proofs

open Sys2Proof Sys2Proof.Machine

/-- Settles O46: the integer pairs modulo 2^w, the floating pairs by what their slots hold, and the two that narrow by what they leave in
the result and in the slot. -/
theorem reversibleElements : Obligations.ReversibleElements := by
  unfold Obligations.ReversibleElements
  intro h ty a b c
  refine ⟨?_, ?_⟩
  · intro _ ha hb el
    exact ⟨uadd_radd ha hb, radd_uadd ha hb, rxor_rxor, fun hodd => ⟨umulo_rmulo ha hodd, rmulo_umulo ha hodd⟩⟩
  intro fwd
  refine ⟨fun _ _ _ => ⟨fun p hp => ?_, fun op hop x => ?_⟩, fun ha => ⟨fun _ => rfl, intVal_clampInt 0 _, ucvt_rcvt h 7 8 7 b ha⟩⟩
  · simp only [List.mem_cons, List.not_mem_nil, or_false] at hp
    obtain rfl | rfl := hp
    · exact ⟨rfl, residual_escape⟩
    · exact ⟨rfl, residual_escape⟩
  · simp only [List.mem_cons, List.not_mem_nil, or_false] at hop
    obtain rfl | rfl := hop
    · rfl
    · rfl

end Sys2Proof.Proofs
end

section
/-! Memory stays canonical (R205, R275, R290): outcomes, and what the management interface does. -/

namespace Sys2Proof.Machine

open Sys2Proof State

theorem State.memOk_ite {c : Prop} [Decidable c] {t u : State} (ht : t.memOk) (hu : u.memOk) : (if c then t else u).memOk := by
  split
  · exact ht
  · exact hu

theorem memOk_foldl_fst {α β : Type} {f : State × β → α → State × β} (hf : ∀ a x, a.1.memOk → (f a x).1.memOk) :
    ∀ (l : List α) {a : State × β}, a.1.memOk → (l.foldl f a).1.memOk
  | [], _, h => h
  | x :: l, _, h => memOk_foldl_fst hf l (hf _ x h)

theorem State.memOk_afterReset {s : State} : s.afterReset.memOk := rfl

/-- Memory is canonical in the state that an outcome answers, if it answers one. -/
def NextMemOk (o : Host.Outcome State Fault Refusal) : Prop := ∀ t, o = .next t → t.memOk

theorem NextMemOk.next {s : State} (hm : s.memOk) : NextMemOk (.next s) := fun _ ht => by
  cases ht
  exact hm

theorem NextMemOk.fault {f : Fault} : NextMemOk (.fault f) := fun _ ht => nomatch ht

theorem NextMemOk.outcome {e : Exec} (len : Nat) (he : e.state.memOk) : NextMemOk (e.outcome len) := fun _ ht => Exec.memOk_outcome len he ht

theorem memOk_onHart {len : Nat} {s : State} {f : Hart → Exec} (hf : ∀ h, (f h).state.memOk) : NextMemOk (onHart len s f) := by
  unfold onHart
  split
  · exact .fault
  · exact .outcome len (hf _)

theorem memOk_hartOp {len : Nat} {s : State} {f : Hart → Hart} (hm : s.memOk) : NextMemOk (hartOp len s f) := memOk_onHart (fun _ => hm)

theorem memOk_event {s : State} {f : State → State} (hf : (f s).memOk) : NextMemOk (event s f) := by
  unfold event
  split
  · exact .next hf
  · exact .fault

theorem State.memOk_post {s : State} {es : List Instr} (hm : s.memOk) : (s.post es).memOk := hm

theorem State.memOk_accept {s : State} {l : Launch} (hm : s.memOk) : (s.accept l).memOk := memOk_post hm

theorem State.memOk_setMgmt {s : State} {off : Nat} {v : Word} (hm : s.memOk) : (s.setMgmt off v).memOk := hm

theorem State.memOk_msgWrite {s : State} {window offset master : Nat} {bytes : List Byte} (hm : s.memOk) :
    (s.msgWrite window offset master bytes).memOk := by
  unfold State.msgWrite
  dsimp only
  split
  · exact hm
  · split
    · exact memOk_accept hm
    · exact memOk_hall _ hm

theorem State.memOk_ignored {s : State} {master off : Nat} (hm : s.memOk) : (s.ignored master off).memOk := memOk_hall _ hm

end Sys2Proof.Machine
end

section
/-! Memory stays canonical: migration, translation, and the engine's reads and writes. -/

namespace Sys2Proof.Machine

open Sys2Proof State

theorem State.memOk_track {s : State} {t : Track} (hm : s.memOk) : (s.track t).memOk := memOk_ite hm (memOk_ite hm hm)

theorem State.memOk_countMove {s : State} {frame : Nat} {host : Bool} {n : Nat} (hm : s.memOk) : (s.countMove frame host n).memOk := memOk_ite hm
    (memOk_ite (memOk_post (memOk_track hm)) (memOk_track hm))

theorem State.memOk_countLines {s : State} {mig pa n : Nat} (hm : s.memOk) : (s.countLines mig pa n).memOk := memOk_ite (memOk_countMove hm) hm

theorem State.memOk_rotAccess {s : State} {root : Nat} {need : Access} {va n : Nat} {t : State} {r : Nat} (ht : s.rotAccess root need va n = .ok
    (t, r)) (hm : s.memOk) : t.memOk := by
  unfold State.rotAccess at ht
  dsimp only at ht
  split at ht
  · cases ht
  · split at ht
    · cases ht
    · cases ht
    · split at ht
      · cases ht
      · cases ht
        exact memOk_countLines (memOk_ite (memOk_seeTables _ _ hm) (memOk_poke _ _ (memOk_seeTables _ _ hm)))

theorem State.memOk_hold {s : State} {h : Hart} {stream : Bool} {path va e loc level : Nat} (hm : s.memOk) :
    (s.hold h stream path va e loc level).memOk := by
  unfold State.hold
  dsimp only
  split
  · exact hm
  · split
    · split
      · exact hm
      · exact memOk_ite hm hm
    · exact hm

theorem State.memOk_translate {s : State} {h : Hart} {need : Access} {va : Word} {stream : Bool} {n : Nat} {t : State} {r : Nat} (ht :
    s.translate h need va stream n = .ok (t, r)) (hm : s.memOk) : t.memOk := by
  unfold State.translate at ht
  dsimp only at ht
  split at ht
  · cases ht
  · cases ht
  · split at ht
    · cases ht
    · split at ht
      · cases ht
      · cases ht
        exact memOk_countLines (memOk_hold (memOk_ite (memOk_seeTables _ _ hm) (memOk_poke _ _ (memOk_seeTables _ _ hm))))

theorem State.memOk_enginePlace {s : State} {c : EngineCmd} {u : Use} {va : Word} {n : Nat} {t : State} {r : Nat} (ht :
    s.enginePlace c u va n = .ok (t, r)) (hm : s.memOk) : t.memOk := by
  unfold State.enginePlace at ht
  dsimp only at ht
  split at ht
  · cases ht
  · split at ht
    · split at ht
      · cases ht
        exact hm
      · cases ht
    · split at ht
      · split at ht
        · cases ht
        · split at ht
          · cases ht
            exact hm
          · cases ht
      · exact memOk_translate ht hm

theorem State.memOk_engineSees {s : State} {c : EngineCmd} {loc n : Nat} (hm : s.memOk) : (s.engineSees c loc n).memOk := memOk_performAll _ _
    (memOk_settle _ _ _ _ hm)

theorem State.memOk_engineFetch {s : State} {c : EngineCmd} {va : Word} {n : Nat} {t : State} {r : List Byte × Bool} (ht :
    s.engineFetch c va n = .ok (t, r)) (hm : s.memOk) : t.memOk := by
  unfold State.engineFetch at ht
  dsimp only at ht
  split at ht
  · cases ht
  next e1 =>
    split at ht
    · cases ht
      exact memOk_enginePlace e1 hm
    · cases ht
      exact memOk_engineSees (memOk_enginePlace e1 hm)

theorem State.memOk_engineRead {s : State} {c : EngineCmd} {va : Word} {n : Nat} {t : State} {r : List Byte} (ht : s.engineRead c va n = .ok
    (t, r)) (hm : s.memOk) : t.memOk := by
  unfold State.engineRead at ht
  split at ht
  · cases ht
  next e1 =>
    split at ht
    · cases ht
    · cases ht
      exact memOk_engineFetch e1 hm

theorem State.memOk_engineWord {s : State} {c : EngineCmd} {va : Word} {n : Nat} {t : State} {r : Nat} (ht : s.engineWord c va n = .ok (t, r))
    (hm : s.memOk) : t.memOk := by
  unfold State.engineWord at ht
  dsimp only at ht
  split at ht
  · cases ht
  next e1 =>
    split at ht
    · cases ht
      exact memOk_engineRead e1 hm
    · split at ht
      · cases ht
      next e3 =>
        cases ht
        exact memOk_engineRead e3 (memOk_engineRead e1 hm)

theorem State.memOk_readSkip {s : State} {c : EngineCmd} {t : State} {r : EngineCmd} (ht : s.readSkip c = .ok (t, r)) (hm : s.memOk) : t.memOk := by
  unfold State.readSkip at ht
  split at ht
  · split at ht
    · cases ht
      exact hm
    · split at ht
      · cases ht
      next e3 =>
        cases ht
        exact memOk_engineWord e3 hm
  · cases ht
    exact hm

theorem State.memOk_updLaunch {s : State} {acc : Nat} {f : Launch → Launch} (hm : s.memOk) : (s.updLaunch acc f).memOk := hm

theorem State.memOk_owe {s : State} {c : EngineCmd} {f : EngineFault} (hm : s.memOk) : (s.owe c f).memOk := by
  unfold State.owe
  split
  · exact memOk_updHartAt _ _ hm
  · exact memOk_updLaunch hm

theorem State.memOk_endEngine {s : State} {c : EngineCmd} {status : Nat} (hm : s.memOk) : (s.endEngine c status).memOk := memOk_ite (memOk_post
    (memOk_post (memOk_ite hm (memOk_updLaunch hm)))) (memOk_post (memOk_ite hm (memOk_updLaunch hm)))

theorem State.memOk_endAborted {s : State} {c : EngineCmd} (hm : s.memOk) : (s.endAborted c).memOk := memOk_owe (memOk_endEngine hm)

theorem State.memOk_sawTables {s : State} {h : Hart} {va : Word} (hm : s.memOk) : (s.sawTables h va).memOk := memOk_ite (memOk_seeTables _ _ hm) hm

theorem State.memOk_noteMigration {s : State} {r : HallRec} {frame : Nat} {host : Bool} (hm : s.memOk) :
    (s.noteMigration r frame host).memOk :=
  have hh : (s.hall { r with pa := frame * 65536, count := (s.trackOf frame).count }).memOk := memOk_hall _ hm
  memOk_ite (memOk_post hh) hh

theorem State.memOk_noteBarred {s : State} {w : Walk} {f : Nat} {r : HallRec} (hm : s.memOk) : (s.noteBarred w f r).memOk := by
  unfold State.noteBarred
  split
  · exact hm
  · exact memOk_noteMigration hm

theorem State.memOk_setEngine {s : State} {c : EngineCmd} (hm : s.memOk) : (s.setEngine c).memOk := hm

theorem State.memOk_sendTokens {s : State} {g : Nat} {ds : List EngineCmd} (hm : s.memOk) : (s.sendTokens g ds).memOk := memOk_post hm

theorem State.memOk_dropOut {s : State} {c : EngineCmd} (hm : s.memOk) : (s.dropOut c).memOk := by
  unfold State.dropOut
  split
  · refine memOk_foldl (fun u d hu => ?_) _ hm
    have hh (r : HallRec) : (u.hall r).memOk := memOk_hall r hu
    dsimp only
    split
    · split
      · exact hh _
      · exact memOk_setEngine (hh _)
    · split
      · exact hh _
      · exact memOk_sendTokens (hh _)
  · exact hm

theorem State.memOk_faultEngine {s : State} {c : EngineCmd} {k f : Nat} {va : Word} {src : Option Word} (hm : s.memOk) :
    (s.faultEngine c k f va src).memOk := memOk_ite (memOk_endAborted hm) (memOk_dropOut (memOk_noteBarred (memOk_hall _ (memOk_owe
        (memOk_endEngine (memOk_ite (memOk_sawTables hm) hm))))))

theorem State.memOk_engineWrite {s : State} {c : EngineCmd} {va : Word} {bs : List Byte} {back : Nat} {bad : Bool} {t : State}
    (ht : s.engineWrite c va bs back bad = .ok t) (hm : s.memOk) : t.memOk := by
  unfold State.engineWrite at ht
  split at ht
  · cases ht
  next hp =>
    have hw {loc : Nat} := memOk_poke loc bs (memOk_engineSees (c := c) (loc := loc) (n := bs.length) (memOk_enginePlace hp hm))
    cases ht
    exact memOk_ite (memOk_ite hw hw) (memOk_ite hw hw)

theorem State.memOk_copyStep {s : State} {c : EngineCmd} {dst src : Word} {m : Nat} {t : State} {r : Nat} (ht : s.copyStep c dst src m = .ok
    (t, r)) (hm : s.memOk) : t.memOk := by
  unfold State.copyStep at ht
  dsimp only at ht
  split at ht
  · cases ht
  next e1 =>
    split at ht
    · cases ht
    · split at ht
      · cases ht
      next e3 =>
        cases ht
        exact memOk_ite (memOk_setEngine (memOk_engineWrite e3 (memOk_engineFetch e1 hm))) (memOk_engineWrite e3 (memOk_engineFetch e1 hm))

theorem State.memOk_engineOld {s : State} {c : EngineCmd} {va : Word} {t : State} {r : Nat} (ht : s.engineOld c va = .ok (t, r)) (hm : s.memOk) :
    t.memOk := by
  unfold State.engineOld at ht
  dsimp only at ht
  split at ht
  · cases ht
  next e1 =>
    cases ht
    exact memOk_engineSees (memOk_enginePlace e1 hm)

theorem State.memOk_enginePut {s : State} {c : EngineCmd} {va : Word} {i v n : Nat} {t : State} (ht : s.enginePut c va i v n = .ok t) (hm :
    s.memOk) : t.memOk := by
  unfold State.enginePut at ht
  dsimp only at ht
  split at ht
  · cases ht
  next e1 =>
    split at ht
    · cases ht
      exact memOk_engineWrite e1 hm
    · split at ht
      · cases ht
      next e3 =>
        cases ht
        exact memOk_engineWrite e3 (memOk_engineWrite e1 hm)

theorem Except.map_eq_ok {ε α β : Type} {f : α → β} {x : Except ε α} {b : β} (h : x.map f = .ok b) : ∃ a, x = .ok a ∧ f a = b := by
  cases x with
  | error e => cases h
  | ok a =>
    cases h
    exact ⟨a, rfl, rfl⟩

theorem State.memOk_collStep {s : State} {c : EngineCmd} {kind k size : Nat} {desc : List Byte} {parts : List (Nat × Nat × List Nat)}
    {b : Nat} {t : State} {r : Nat} (ht : s.collStep c kind k size desc parts b = .ok (t, r)) (hm : s.memOk) : t.memOk := by
  unfold State.collStep at ht
  dsimp only at ht
  split at ht
  · split at ht
    · cases ht
    next hx =>
      obtain ⟨u, hu, hr⟩ := Except.map_eq_ok ht
      cases hr
      refine memOk_enginePut hu ?_
      split at hx
      · cases hx
        exact hm
      · split at hx
        · cases hx
        next ho =>
          cases hx
          exact memOk_engineOld ho hm
  · obtain ⟨u, hu, hr⟩ := Except.map_eq_ok ht
    cases hr
    exact memOk_enginePut hu hm

theorem State.memOk_putWeights {s : State} {c : EngineCmd} {desc : List Byte} {i w : Nat} {t : State} (ht : s.putWeights c desc i w = .ok t)
    (hm : s.memOk) : t.memOk := by
  unfold State.putWeights at ht
  split at ht
  · cases ht
  next e1 =>
    split at ht
    · cases ht
      exact memOk_enginePut e1 hm
    · exact memOk_enginePut ht (memOk_enginePut e1 hm)

theorem State.memOk_updateStep {s : State} {c : EngineCmd} {adamw : Bool} {desc : List Byte} {i : Nat} {t : State} (ht :
    s.updateStep c adamw desc i = .ok t) (hm : s.memOk) : t.memOk := by
  unfold State.updateStep at ht
  dsimp only at ht
  split at ht
  · cases ht
  next e1 =>
    split at ht
    · cases ht
    next e2 =>
      split at ht
      · cases ht
      next e3 =>
        split at ht
        · split at ht
          · cases ht
          next e5 =>
            split at ht
            · cases ht
            next e6 =>
              split at ht
              · cases ht
              next e7 =>
                exact memOk_putWeights ht (memOk_enginePut e7 (memOk_enginePut e6 (memOk_engineWord e5 (memOk_engineWord e3 (memOk_engineWord e2
                    (memOk_engineWord e1 hm))))))
        · split at ht
          · cases ht
          next e5 =>
            exact memOk_putWeights ht (memOk_enginePut e5 (memOk_engineWord e3 (memOk_engineWord e2 (memOk_engineWord e1 hm))))

theorem State.memOk_engineUnit {s : State} {c : EngineCmd} {m : Nat} {t : State} {r : Nat} (ht : s.engineUnit c m = .ok (t, r))
    (hm : s.memOk) : t.memOk := by
  unfold State.engineUnit at ht
  split at ht
  · exact memOk_copyStep ht hm
  · exact memOk_collStep ht hm
  · obtain ⟨u, hu, hr⟩ := Except.map_eq_ok ht
    cases hr
    exact memOk_updateStep hu hm

theorem State.memOk_transfer (id upto : Nat) : ∀ (n : Nat) {s : State}, s.memOk → (State.transfer id upto n s).memOk
  | 0, _, hm => hm
  | n + 1, s, hm => by
    rw [State.transfer]
    split
    · exact hm
    · refine memOk_ite hm ?_
      split
      · exact memOk_faultEngine hm
      next hu =>
        refine memOk_transfer id upto n ?_
        have ht := memOk_engineUnit hu hm
        split
        · exact ht
        · exact memOk_setEngine ht

theorem State.memOk_advance : ∀ (n id upto : Nat) {s : State}, s.memOk → (State.advance n id upto s).memOk
  | 0, _, _, _, hm => hm
  | n + 1, id, upto, s, hm => by
    rw [State.advance]
    split
    · exact hm
    next c _ =>
      have holds := memOk_foldl (f := fun s d => State.advance n d.id d.total s) (fun _ d hu => memOk_advance n d.id d.total hu)
        (s.engines.filter (fun d => s.follows c d)) hm
      dsimp only
      refine memOk_ite holds ?_
      split
      · exact memOk_faultEngine holds
      next hr => exact memOk_transfer _ _ _ (memOk_setEngine (memOk_readSkip hr holds))

theorem State.memOk_advanceAll {s : State} {id : Nat} (hm : s.memOk) : (s.advanceAll id).memOk := by
  unfold State.advanceAll
  split
  · exact hm
  · exact memOk_advance _ _ _ hm

theorem State.memOk_markFence {s : State} {hid : Nat} (hm : s.memOk) : (s.markFence hid).memOk := memOk_updHartAt _ _ hm

theorem State.memOk_engineAdd {s : State} {c : EngineCmd} {va : Word} {t : State} (ht : s.engineAdd c va = .ok t) (hm : s.memOk) : t.memOk := by
  unfold State.engineAdd at ht
  dsimp only at ht
  split at ht
  · cases ht
  · split at ht
    · cases ht
    next e2 =>
      split at ht
      · cases ht
      · cases ht
        exact memOk_poke _ _ (memOk_engineSees (memOk_enginePlace e2 hm))

theorem State.memOk_closeEngine {s : State} {c : EngineCmd} (hm : s.memOk) : (s.closeEngine c).memOk := by
  unfold State.closeEngine
  refine memOk_ite (memOk_owe (memOk_endEngine hm)) ?_
  have hs : (match c.hid with
      | some hid => if c.releases then (s.drain hid).markFence hid else s
      | none => s).memOk := by
    split
    · exact memOk_ite (memOk_markFence (memOk_drain _ hm)) hm
    · exact hm
  dsimp only
  split
  · exact memOk_faultEngine hs
  next t hstep =>
    have ht : t.memOk := by
      split at hstep
      · split at hstep
        · cases hstep
        next ha =>
          cases hstep
          exact memOk_engineAdd ha hs
      · cases hstep
        exact hs
    refine memOk_ite (memOk_endEngine ht) ?_
    split
    · exact memOk_faultEngine hs
    next ha => exact memOk_endEngine (memOk_engineAdd ha ht)

theorem State.memOk_complete : ∀ (n id : Nat) {s : State}, s.memOk → (State.complete n id s).memOk
  | 0, _, _, hm => hm
  | n + 1, id, s, hm => by
    rw [State.complete]
    split
    · exact hm
    · have hall (l : List EngineCmd) : ((l.foldl (fun s d => State.complete n d.id s) s).advanceAll id).memOk :=
        memOk_advanceAll (memOk_foldl (fun _ d hu => memOk_complete n d.id hu) l hm)
      dsimp only
      split
      · exact hall _
      · exact memOk_ite (hall _) (memOk_closeEngine (hall _))

theorem State.memOk_completeEngine {s : State} {id : Nat} (hm : s.memOk) : (s.completeEngine id).memOk := memOk_complete _ _ hm

theorem State.memOk_engineSettle {s : State} {who : Option Nat} {vec store : Bool} {loc n : Nat} {near : Bool} (hm : s.memOk) :
    (s.engineSettle who vec store loc n near).1.memOk := by
  unfold State.engineSettle
  refine memOk_foldl_fst (fun a c ha => ?_) _ hm
  dsimp only
  split
  · exact memOk_advanceAll ha
  · split
    · split
      · exact memOk_advance _ _ _ ha
      · exact memOk_completeEngine ha
    · exact ha

end Sys2Proof.Machine
end

section
/-! Memory stays canonical: launches and their placement. -/

namespace Sys2Proof.Machine

open Sys2Proof State

theorem State.memOk_readCounter {s : State} {l : Launch} {t : State} {r : Nat} (ht : s.readCounter l = .ok (t, r)) (hm : s.memOk) : t.memOk := by
  unfold State.readCounter at ht
  dsimp only at ht
  split at ht
  · cases ht
  next e1 =>
    split at ht
    · cases ht
    · split at ht
      · cases ht
      · cases ht
        exact memOk_settle _ _ _ _ (memOk_engineSettle (memOk_rotAccess e1 hm))

theorem State.memOk_noteRotunda {s : State} {root f : Nat} {r : HallRec} (hm : s.memOk) : (s.noteRotunda root f r).memOk := memOk_noteBarred
    (memOk_hall _ (memOk_ite (memOk_seeTables _ _ hm) hm))

theorem State.memOk_waitRead {s : State} {acc : Nat} (hm : s.memOk) : (s.waitRead acc).memOk := by
  unfold State.waitRead
  dsimp only
  split
  · exact hm
  · split
    · exact hm
    · split
      · exact memOk_post (memOk_noteRotunda (memOk_updLaunch hm))
      next e3 =>
        exact memOk_ite (memOk_readCounter e3 hm) (memOk_post (memOk_updLaunch (memOk_readCounter e3 hm)))

theorem State.memOk_evict {s : State} {l : Launch} (hm : s.memOk) : (s.evict l).memOk := memOk_post (memOk_hall _ (memOk_updLaunch hm))

theorem State.memOk_rotSeen {root : Nat} {s : State} {r : Nat × Nat} (hm : s.memOk) : (State.rotSeen root s r).memOk := by
  unfold State.rotSeen
  refine memOk_foldl (fun u p hu => ?_) _ hm
  split
  · exact hu
  next ht => exact memOk_rotAccess ht hu

theorem State.memOk_setCore {s : State} {c : CoreSt} (hm : s.memOk) : (s.setCore c).memOk := hm

theorem State.memOk_updCore {s : State} {q : Nat} {f : CoreSt → CoreSt} (hm : s.memOk) : (s.updCore q f).memOk := memOk_setCore hm

theorem State.memOk_regroup {s : State} {q : Nat} (hm : s.memOk) : (s.regroup q).memOk := memOk_updCore hm

theorem State.memOk_settleGang {s : State} {g : Gang} {hs : List Hart} (hm : s.memOk) : (s.settleGang g hs).memOk := memOk_regroup (memOk_updCore hm)

theorem State.memOk_placeHeld {s : State} {l : Launch} {hg : HeldGang} {t : State} (ht : s.placeHeld l hg = some t) (hm : s.memOk) :
    t.memOk := by
  unfold State.placeHeld at ht
  split at ht
  · cases ht
  · cases ht
    exact memOk_poke _ _ (memOk_settleGang (memOk_foldl (fun _ _ hu => memOk_rotSeen hu) _ hm))

theorem SMap.above_filter {w : Nat} (p : Nat × BitVec w → Bool) : ∀ (m : SMap w) (lo : Nat), SMap.above lo m = true →
    SMap.above lo (m.filter p) = true
  | [], _, _ => rfl
  | (a, v) :: m, lo, h => by
    simp only [SMap.above, Bool.and_eq_true, decide_eq_true_eq] at h
    obtain ⟨⟨hlo, hv⟩, hm⟩ := h
    by_cases hp : p (a, v) = true
    · have ih := above_filter p m (a + 1) hm
      simp only [List.filter, hp, SMap.above, hlo, hv, ih, decide_true, Bool.and_self, ne_eq, not_false_eq_true]
    · simpa [List.filter, hp] using above_filter p m lo (SMap.above_mono (by omega) hm)

theorem State.memOk_zeroRange {s : State} {loc n : Nat} (hm : s.memOk) : (s.zeroRange loc n).memOk :=
  SMap.above_filter (w := 8) _ s.mem 0 hm

theorem State.memOk_placeNew {s : State} {l : Launch} {t : State} (ht : s.placeNew l = some t) (hm : s.memOk) : t.memOk := by
  unfold State.placeNew at ht
  split at ht
  · cases ht
  · cases ht
    exact memOk_zeroRange (memOk_settleGang hm)

theorem State.memOk_placeNext {s : State} {l : Launch} {t : State} (ht : s.placeNext l = some t) (hm : s.memOk) : t.memOk := by
  unfold State.placeNext at ht
  split at ht
  · exact memOk_placeHeld ht hm
  · exact memOk_placeNew ht hm

theorem State.memOk_placeAll (acc : Nat) : ∀ (n : Nat) {s t : State}, State.placeAll acc n s = some t → s.memOk → t.memOk
  | 0, _, _, ht, hm => by
    cases ht
    exact hm
  | n + 1, s, t, ht, hm => by
    rw [State.placeAll] at ht
    split at ht
    · cases ht
      exact hm
    · split at ht
      · cases ht
        exact hm
      · split at ht
        · cases ht
        next hp => exact memOk_placeAll acc n ht (memOk_placeNext hp hm)

theorem State.memOk_settleLaunch {s : State} {acc : Nat} (hm : s.memOk) : (s.settleLaunch acc).memOk := memOk_ite (memOk_post
    (memOk_updLaunch hm)) (memOk_updLaunch hm)

theorem State.memOk_decision {s : State} (hm : s.memOk) : s.decision.memOk := by
  unfold State.decision
  split
  · exact hm
  · refine memOk_ite (memOk_evict hm) ?_
    split
    · exact hm
    next hp =>
      refine memOk_post (memOk_settleLaunch ?_)
      split at hp
      · exact memOk_placeAll _ _ hp hm
      · exact memOk_placeNext hp hm

theorem State.memOk_rotWrite (root : Nat) : ∀ (ps : List (Nat × List Byte)) {s : State}, s.memOk → (s.rotWrite root ps).1.memOk
  | [], _, hm => hm
  | (va, bs) :: ps, s, hm => by
    rw [State.rotWrite]
    split
    · exact hm
    next ht => exact memOk_rotWrite root ps (memOk_poke _ _ (memOk_settle _ _ _ _ (memOk_rotAccess ht hm)))

theorem State.memOk_completeLaunch {s : State} {acc : Nat} (hm : s.memOk) : (s.completeLaunch acc).memOk := by
  unfold State.completeLaunch
  dsimp only
  split
  · exact hm
  · split
    · exact hm
    · split
      · exact memOk_updLaunch (memOk_noteRotunda hm)
      · exact memOk_updLaunch (memOk_rotWrite _ _ hm)

theorem State.memOk_setHart {s : State} {h : Hart} (hm : s.memOk) : (s.setHart h).memOk := memOk_updHart _ hm

theorem State.memOk_setGang {s : State} {g : Gang} (hm : s.memOk) : (s.setGang g).memOk := hm

theorem State.memOk_clearGang {s : State} {g : Gang} (hm : s.memOk) : (s.clearGang g).memOk := memOk_regroup (memOk_updCore hm)

theorem State.memOk_flagsReady {s : State} {h : Hart} (hm : s.memOk) : (s.flagsReady h).memOk := memOk_ite (memOk_updHart _
    (memOk_performAll _ _ hm)) hm

end Sys2Proof.Machine
end

section
/-! Memory stays canonical: the cycles of a core and the steps of a slew. -/

namespace Sys2Proof.Machine

open Sys2Proof State

theorem State.memOk_decide1 {s : State} {g : Gang} (hm : s.memOk) : (s.decide1 g).memOk := by
  unfold State.decide1
  dsimp only
  split
  · exact hm
  · exact memOk_updCore (memOk_setGang hm)

theorem State.memOk_sequence {s : State} {q : Nat} (hm : s.memOk) : (s.sequence q).memOk := memOk_ite hm (memOk_updCore (memOk_foldl
    (fun _ _ hs => memOk_decide1 hs) _ hm))

theorem State.memOk_nextCycle {s : State} {q : Nat} (hm : s.memOk) : (s.nextCycle q).memOk := memOk_ite hm (memOk_updCore hm)

theorem State.memOk_coreCycle {s : State} {q : Nat} (hm : s.memOk) : (s.coreCycle q).memOk := memOk_ite (memOk_updCore hm) (memOk_nextCycle
    (memOk_updCore (memOk_sequence (memOk_updCore hm))))

theorem State.memOk_setDie {s : State} {c : DieSt} (hm : s.memOk) : (s.setDie c).memOk := hm

theorem memOk_startCores (d ptr : Nat) : ∀ (n : Nat) (ks : List Nat) {s : State}, s.memOk → (startCores d ptr n ks s).memOk
  | _, [], _, hm => by
    rw [startCores]
    exact hm
  | 0, _ :: _, _, hm => hm
  | n + 1, k :: ks, s, hm => by
    rw [startCores]
    exact memOk_ite (memOk_startCores d ptr n ks (memOk_setDie (memOk_updCore hm))) (memOk_startCores d ptr (n + 1) ks hm)

theorem State.memOk_slewBoundary {s : State} {d : Nat} (hm : s.memOk) : (s.slewBoundary d).memOk := memOk_startCores _ _ _ _ (memOk_setDie hm)

theorem State.memOk_catchUp (q time : Nat) : ∀ (n : Nat) {s : State}, s.memOk → (s.catchUp q time n).memOk
  | 0, _, hm => hm
  | n + 1, s, hm => by
    rw [State.catchUp]
    exact memOk_ite hm (memOk_catchUp q time n (memOk_coreCycle hm))

theorem State.memOk_toBoundary {s : State} {q time : Nat} (hm : s.memOk) : (s.toBoundary q time).memOk := memOk_updCore (memOk_catchUp _ _ _ hm)

theorem State.memOk_slewStep {s : State} {d : Nat} (hm : s.memOk) : (s.slewStep d).memOk := memOk_slewBoundary (memOk_foldl
    (fun _ _ hs => memOk_toBoundary hs) _ hm)

theorem State.memOk_boundaries (q : Nat) : ∀ (n : Nat) {s : State}, s.memOk → (s.boundaries q n).memOk
  | 0, _, hm => hm
  | n + 1, s, hm => by
    rw [State.boundaries]
    exact memOk_ite hm (memOk_boundaries q n (memOk_slewStep hm))

theorem State.memOk_runCycles (q : Nat) : ∀ (n : Nat) {s : State}, s.memOk → (s.runCycles q n).memOk
  | 0, _, hm => hm
  | n + 1, _, hm => memOk_runCycles q n (memOk_coreCycle (memOk_boundaries q 7 hm))

theorem State.memOk_passTime {s : State} {q : Nat} (hm : s.memOk) : (s.passTime q).memOk := memOk_runCycles _ _ hm

end Sys2Proof.Machine
end

section
/-! Memory stays canonical: CSRs, the stair's writes and memory traps. -/

namespace Sys2Proof.Machine

open Sys2Proof State

theorem State.memOk_readCsr {s : State} {h : Hart} {n : Nat} (hm : s.memOk) : (s.readCsr h n).1.memOk := by
  unfold State.readCsr
  dsimp only
  split
  · exact hm
  · exact hm
  · exact hm
  · exact hm
  · exact hm
  · exact memOk_passTime hm
  · exact memOk_passTime hm
  · exact memOk_passTime hm
  · split
    · exact hm
    · exact hm
  · exact hm
  · exact hm
  · exact memOk_passTime hm
  · exact hm
  · exact hm
  · exact hm
  · exact hm
  · split
    · exact hm
    · exact hm

theorem State.memOk_place {s : State} {h : Hart} {u : Use} {va : Word} {n : Nat} {t : State} {r : Place} (ht : s.place h u va n = .ok (t, r))
    (hm : s.memOk) : t.memOk := by
  unfold State.place at ht
  dsimp only at ht
  split at ht
  · cases ht
  · split at ht
    · split at ht
      · cases ht
      · split at ht
        · cases ht
          exact hm
        · cases ht
    · split at ht
      · split at ht
        · split at ht
          · cases ht
            exact hm
          · cases ht
        · cases ht
      · split at ht
        · split at ht
          · cases ht
          · split at ht
            · cases ht
            next e6 =>
              cases ht
              exact memOk_translate e6 hm
        · split at ht
          · split at ht
            · cases ht
            · cases ht
              exact hm
          · split at ht
            · cases ht
            next e6 =>
              cases ht
              exact memOk_translate e6 hm

theorem State.memOk_reach {s : State} {h : Hart} {vec store : Bool} {loc n : Nat} {near : Bool} {t : State} (ht :
    s.reach h vec store loc n near = some t) (hm : s.memOk) : t.memOk := by
  unfold State.reach at ht
  dsimp only at ht
  split at ht
  · dsimp only at ht
    split at ht
    · cases ht
    · cases ht
      exact hm
  · split at ht
    · cases ht
    · cases ht
      exact memOk_engineSettle hm

theorem State.memOk_save {s : State} {h : Hart} {vec : Bool} {u : Use} {va : Word} {bs : List Byte} {t : State} (ht :
    s.save h vec u va bs = .ok t) (hm : s.memOk) : t.memOk := by
  unfold State.save at ht
  split at ht
  · cases ht
  next e1 =>
    cases ht
    exact memOk_place e1 hm
  next e1 =>
    split at ht
    · cases ht
    next e2 =>
      cases ht
      exact memOk_store _ _ _ _ (memOk_reach e2 (memOk_place e1 hm))

theorem State.memOk_performLast {s : State} {hid : Nat} (hm : s.memOk) : (s.performLast hid).memOk := by
  unfold State.performLast
  split
  · exact hm
  · exact memOk_performAll _ _ hm

theorem State.memOk_stairOut {h : Hart} : ∀ (n : Nat) {s t : State} {va : Word}, s.stairOut h va n = .ok t → s.memOk → t.memOk
  | 0, _, _, _, ht, hm => by
    cases ht
    exact hm
  | n + 1, s, t, va, ht, hm => by
    rw [State.stairOut] at ht
    split at ht
    · cases ht
    next hs =>
      have hu := memOk_save hs hm
      exact memOk_stairOut n ht (memOk_ite (memOk_performLast hu) hu)

theorem State.memOk_stairOut_error {h : Hart} : ∀ (n : Nat) {s t : State} {va : Word} {r : Nat × Word},
    s.stairOut h va n = .error (t, r) → s.memOk → t.memOk
  | 0, _, _, _, _, he, _ => by cases he
  | n + 1, s, t, va, r, he, hm => by
    rw [State.stairOut] at he
    split at he
    · cases he
      exact hm
    next hs =>
      have hu := memOk_save hs hm
      exact memOk_stairOut_error n he (memOk_ite (memOk_performLast hu) hu)

theorem State.memOk_stairSync {s : State} {h : Hart} {t : State} (ht : s.stairSync h = .ok t) (hm : s.memOk) : t.memOk := by
  unfold State.stairSync at ht
  split at ht
  · cases ht
    exact hm
  · split at ht
    · cases ht
    next ho =>
      cases ht
      exact memOk_drain _ (memOk_stairOut _ ho hm)

theorem State.memOk_stairSync_error {s : State} {h : Hart} {t : State} {r : Nat × Word} (he : s.stairSync h = .error (t, r))
    (hm : s.memOk) : t.memOk := by
  unfold State.stairSync at he
  split at he
  · cases he
  · split at he
    next ho =>
      cases he
      exact memOk_stairOut_error _ ho hm
    · cases he

theorem State.memOk_stairWrite {s : State} {h : Hart} {reg : StairReg} {v : Word} {t : State} {r : Hart}
    (ht : s.stairWrite h reg v = .ok (t, r)) (hm : s.memOk) : t.memOk := by
  unfold State.stairWrite at ht
  split at ht
  · cases ht
  next hs =>
    cases ht
    exact memOk_stairSync hs hm

theorem State.memOk_stairWrite_error {s : State} {h : Hart} {reg : StairReg} {v : Word} {t : State} {r : Nat × Word}
    (he : s.stairWrite h reg v = .error (t, r)) (hm : s.memOk) : t.memOk := by
  unfold State.stairWrite at he
  split at he
  next hs =>
    cases he
    exact memOk_stairSync_error hs hm
  · cases he

theorem State.memOk_writeLctl {s : State} {h : Hart} {v : Word} (hm : s.memOk) : (s.writeLctl h v).memOk := by
  unfold State.writeLctl
  dsimp only
  split
  · exact memOk_setHart hm
  · exact memOk_regroup (memOk_setGang (memOk_setHart hm))

theorem State.memOk_writeCsr {s : State} {h : Hart} {n : Nat} {v : Word} {t : State} (ht : s.writeCsr h n v = .ok t) (hm : s.memOk) :
    t.memOk := by
  have hstair {reg : StairReg} (hw : (s.stairWrite h reg v).map (fun r => r.1.setHart r.2) = .ok t) : t.memOk := by
    obtain ⟨⟨u, g⟩, hu, rfl⟩ := Except.map_eq_ok hw
    exact memOk_setHart (memOk_stairWrite hu hm)
  unfold State.writeCsr at ht
  split at ht
  case h_1 | h_2 | h_3 => exact hstair ht
  case h_4 =>
    cases ht
    exact memOk_writeLctl hm
  case h_16 =>
    split at ht
    · cases ht
      exact hm
    · cases ht
      exact hm
  all_goals
    cases ht
    exact hm

theorem State.memOk_writeCsr_error {s : State} {h : Hart} {n : Nat} {v : Word} {t : State} {r : Nat × Word}
    (he : s.writeCsr h n v = .error (t, r)) (hm : s.memOk) : t.memOk := by
  have hstair {reg : StairReg} (hw : (s.stairWrite h reg v).map (fun r => r.1.setHart r.2) = .error (t, r)) : t.memOk := by
    cases hs : s.stairWrite h reg v with
    | ok u =>
      rw [hs] at hw
      cases hw
    | error e =>
      rw [hs] at hw
      cases hw
      exact memOk_stairWrite_error hs hm
  unfold State.writeCsr at he
  split at he
  case h_1 | h_2 | h_3 => exact hstair he
  case h_16 => split at he <;> cases he
  all_goals cases he

theorem State.memOk_noteUsed {s : State} {h : Hart} {va : Word} {wr : Bool} (hm : s.memOk) : (s.noteUsed h va wr).memOk := by
  unfold State.noteUsed
  dsimp only
  split
  · exact hm
  · split
    · exact memOk_hold (memOk_sawTables hm)
    · exact memOk_sawTables hm

theorem State.memOk_notePoison {s : State} {h : Hart} {loc : Nat} {va : Word} (hm : s.memOk) : (s.notePoison h loc va).memOk := by
  unfold State.notePoison
  split
  · exact memOk_poke _ _ (memOk_poke _ _ hm)
  · exact hm

theorem State.memOk_noteFault {s : State} {h : Hart} {wr : Bool} {f : Nat} {tva : Word} {n : Nat} {block : Bool} (hm : s.memOk) :
    (s.noteFault h wr f tva n block).1.memOk := by
  unfold State.noteFault
  dsimp only
  split
  · exact memOk_noteUsed (memOk_ite (memOk_sawTables hm) hm)
  · split
    · split
      · exact memOk_ite (memOk_sawTables hm) hm
      · exact memOk_notePoison (memOk_noteUsed (memOk_ite (memOk_sawTables hm) hm))
    · exact memOk_ite (memOk_sawTables hm) hm

theorem State.memOk_memTrap {s : State} {h : Hart} {k f : Nat} {tva : Word} {tswi : Nat} {tap : Option Nat} {tcell : Option (Nat × Nat)}
    {n : Nat} {block : Bool} (hm : s.memOk) : (s.memTrap h k f tva tswi tap tcell n block).state.memOk := by
  have hn := memOk_noteFault (h := h) (wr := decide (k = 2 ∨ k = 3)) (f := f) (tva := tva) (n := n) (block := block) hm
  unfold State.memTrap
  split
  · exact hm
  · dsimp only
    split
    · exact memOk_ite (memOk_hall _ (memOk_noteBarred hn)) (memOk_noteBarred hn)
    · exact hn

theorem memOk_csrOp {rd : XReg} {n : Nat} {new : Hart → Word → Option Word} {s : State} (hm : s.memOk) : NextMemOk (csrOp rd n new s) := by
  refine memOk_onHart fun h => ?_
  split
  · exact hm
  · split
    · exact memOk_drain _ hm
    · have hr (g : Hart) := memOk_readCsr (h := g) (n := n) (memOk_ite (c := n = 0xc03) (memOk_flagsReady (h := h) hm) hm)
      dsimp only
      split
      · exact hr _
      · split
        next he => exact memOk_memTrap (memOk_writeCsr_error he (hr _))
        next hw => exact (memOk_writeCsr hw (hr _) :)

theorem memOk_coreEvent {q : Nat} {s : State} {f : CoreSt → CoreSt} (hm : s.memOk) : NextMemOk (coreEvent q s f) :=
  memOk_event (memOk_updCore hm)

end Sys2Proof.Machine
end

section
/-! Memory stays canonical: the owner, the rotunda and a gang's save area. -/

namespace Sys2Proof.Machine

open Sys2Proof State

theorem State.memOk_setCandidate {s : State} {c : Option (Nat × Nat)} (hm : s.memOk) : ({ s with candidate := c } : State).memOk := hm

theorem State.memOk_claim {s : State} {master ballot : Nat} (hm : s.memOk) : (s.claim master ballot).memOk := by
  unfold State.claim
  exact memOk_ite (memOk_ignored hm) (memOk_ite (memOk_setCandidate (memOk_setMgmt hm)) (memOk_setMgmt hm))

theorem State.memOk_disown {s : State} (hm : s.memOk) : s.disown.memOk := memOk_setMgmt hm

theorem State.memOk_transferTo {s : State} {master dest : Nat} (hm : s.memOk) : (s.transferTo master dest).memOk := memOk_ite (memOk_ignored hm)
    (memOk_setMgmt hm)

theorem State.memOk_preemptLaunch {s : State} {acc : Nat} (hm : s.memOk) : (s.preemptLaunch acc).memOk := by
  unfold State.preemptLaunch
  split
  · exact hm
  · exact memOk_ite hm hm

theorem State.memOk_resumeLaunch {s : State} {acc : Nat} (hm : s.memOk) : (s.resumeLaunch acc).memOk := by
  unfold State.resumeLaunch
  split
  · exact hm
  · exact memOk_ite hm (memOk_post (memOk_settleLaunch (memOk_updLaunch hm)))

theorem State.memOk_runOn {s : State} {acc : Nat} (hm : s.memOk) : (s.runOn acc).memOk := memOk_ite (memOk_post (memOk_updLaunch hm))
    (memOk_updLaunch hm)

theorem State.memOk_runOnAll {s : State} (hm : s.memOk) : s.runOnAll.memOk := memOk_foldl (fun _ _ hs => memOk_runOn hs) _ hm

theorem State.memOk_killGang {s : State} {g : Gang} (hm : s.memOk) : (s.killGang g).memOk := by
  unfold State.killGang
  exact memOk_foldl (f := fun s hid => s.drain hid) (fun _ hid hu => memOk_drain hid hu) _ hm

theorem State.memOk_lastChunks {s : State} {c : EngineCmd} (hm : s.memOk) : (s.lastChunks c).1.memOk := by
  unfold State.lastChunks
  dsimp only
  split
  · exact hm
  · exact memOk_advance _ _ _ hm

theorem State.memOk_abortEngine {s : State} {c : EngineCmd} (hm : s.memOk) : (s.abortEngine c).memOk := by
  unfold State.abortEngine
  dsimp only
  split
  · exact memOk_ite hm (memOk_lastChunks (memOk_setEngine hm))
  · exact memOk_endAborted (memOk_ite hm (memOk_lastChunks (memOk_setEngine hm)))

theorem State.memOk_abortMember {s : State} {g : Nat} {c : EngineCmd} (hm : s.memOk) : (s.abortMember g c).memOk := memOk_sendTokens
    (memOk_abortEngine hm)

theorem State.memOk_killEngine {s : State} {id : Nat} (hm : s.memOk) : (s.killEngine id).memOk := by
  unfold State.killEngine
  split
  · exact hm
  · split
    · exact memOk_abortMember hm
    · exact memOk_endEngine hm

theorem State.memOk_lastWork {s : State} {id : Nat} (hm : s.memOk) : (s.lastWork id).memOk := by
  unfold State.lastWork
  dsimp only
  split
  · exact hm
  · exact memOk_ite (memOk_lastChunks (memOk_setEngine hm)) (memOk_ite (memOk_completeEngine (memOk_lastChunks hm)) (memOk_lastChunks hm))

theorem State.memOk_killLaunch {s : State} {acc : Nat} (hm : s.memOk) : (s.killLaunch acc).memOk := by
  unfold State.killLaunch
  dsimp only
  split
  · exact hm
  · exact memOk_ite hm (memOk_post (memOk_foldl (fun _ _ hs => memOk_killEngine hs) _ (memOk_foldl (fun _ _ hs => memOk_lastWork hs) _
      (memOk_foldl (fun _ _ hs => memOk_killGang hs) _ (memOk_updLaunch hm)))))

theorem State.memOk_rotunda : ∀ (n : Nat) {s : State}, s.memOk → (State.rotunda n s).memOk
  | 0, _, hm => hm
  | n + 1, s, hm => by
    rw [State.rotunda]
    split
    · exact hm
    next w acc q _ =>
      have hq : ({ s with rotQueue := q } : State).memOk := hm
      refine memOk_ite hm (memOk_rotunda n ?_)
      cases w with
      | preempt => exact memOk_preemptLaunch hq
      | resume => exact memOk_resumeLaunch hq
      | kill => exact memOk_runOnAll (memOk_killLaunch hq)

theorem State.memOk_rotundaWrite {s : State} {w : RotWrite} {acc : Nat} (hm : s.memOk) : (s.rotundaWrite w acc).memOk := memOk_rotunda _ hm

theorem State.memOk_mgmtWrite {s : State} {master off : Nat} {v : Word} (hm : s.memOk) : (s.mgmtWrite master off v).memOk := by
  unfold State.mgmtWrite
  split
  · exact memOk_claim hm
  · exact memOk_ownerWrite _ _ _ (memOk_ite (memOk_disown hm) (memOk_transferTo hm)) hm
  · exact memOk_ownerWrite _ _ _ (memOk_rotundaWrite hm) hm
  · exact memOk_ownerWrite _ _ _ (memOk_rotundaWrite hm) hm
  · exact memOk_ownerWrite _ _ _ (memOk_rotundaWrite hm) hm
  · exact memOk_post hm
  · split
    · exact memOk_msgWrite hm
    · split
      · exact hm
      · exact memOk_ownerWrite _ _ _ (memOk_setMgmt hm) hm

theorem State.memOk_closeWindow {s : State} (hm : s.memOk) : s.closeWindow.memOk := by
  unfold State.closeWindow
  split
  · exact hm
  · exact memOk_setCandidate (memOk_setMgmt hm)

theorem State.memOk_ownerLost {s : State} {master : Nat} (hm : s.memOk) : (s.ownerLost master).memOk := memOk_ite (memOk_disown hm) hm

theorem State.memOk_saved {s : State} (hm : s.memOk) : s.saved.memOk := memOk_rotunda _ (memOk_runOnAll hm)

theorem State.memOk_completeAll {s : State} {hid : Nat} (hm : s.memOk) : (s.completeAll hid).memOk := memOk_foldl
    (fun _ _ hs => memOk_completeEngine hs) _ hm

theorem State.memOk_abandon {s : State} {l : Launch} {gs : List Gang} {f : Nat × Nat} (hm : s.memOk) : (s.abandon l gs f).memOk :=
  have hn {root : Nat} {r : HallRec} : (s.noteRotunda root f.1 r).memOk := memOk_noteRotunda hm
  memOk_ite hn hn

theorem State.memOk_holdGang {s : State} {g : Gang} (hm : s.memOk) : (s.holdGang g).memOk := memOk_post (memOk_clearGang (memOk_updLaunch hm))

/-- The state that a save has come to is canonical. -/
abbrev SaveOk (a : Save) : Prop := a.1.memOk

theorem saveOk_then {a : Save} {f : State → Save} (hf : ∀ s, s.memOk → SaveOk (f s)) (ha : SaveOk a) : SaveOk (Save.then a f) := by
  unfold Save.then
  split
  · exact hf _ ha
  · exact ha

theorem saveOk_each {α : Type} {f : α → State → Save} (hf : ∀ x s, s.memOk → SaveOk (f x s)) :
    ∀ (l : List α) {a : Save}, SaveOk a → SaveOk (l.foldl (fun a x => Save.then a (f x)) a)
  | [], _, ha => ha
  | x :: l, _, ha => saveOk_each hf l (saveOk_then (hf x) ha)

theorem saveOk_saveBytes {root va : Nat} {bs : List Byte} {s : State} (hm : s.memOk) : SaveOk (saveBytes root va bs s) := memOk_rotWrite _ _ hm

theorem saveOk_saveStair {root area hid : Nat} {s : State} (hm : s.memOk) : SaveOk (saveStair root area hid s) := by
  unfold saveStair
  split
  · exact hm
  · dsimp only
    split
    · exact saveOk_saveBytes hm
    · split
      next he => exact saveOk_saveBytes (memOk_drain _ (memOk_stairSync_error he hm))
      next ht => exact (memOk_stairSync ht hm :)

theorem saveOk_savePlate {root area hid p : Nat} {s : State} (hm : s.memOk) : SaveOk (savePlate root area hid p s) := by
  unfold savePlate
  split
  · exact hm
  · exact saveOk_then (fun _ hu => hu) (memOk_rotWrite _ _ hm)

theorem saveOk_savePlates {root area hid : Nat} {s : State} (hm : s.memOk) : SaveOk (savePlates root area hid s) := by
  unfold savePlates
  split
  · exact hm
  · exact saveOk_each (f := fun (p : Nat × BitVec 8) => savePlate root area hid p.1) (fun _ _ hu => saveOk_savePlate hu) _ (a := (s, none)) hm

theorem saveOk_saveHart {root area : Nat} {g : Gang} {hid : Nat} {s : State} (hm : s.memOk) : SaveOk (saveHart root area g hid s) := by
  unfold saveHart
  split
  · exact hm
  next h _ =>
    exact saveOk_each (f := fun (p : Nat × List Byte) => saveBytes root (area + hartArea h.idx + p.1) p.2)
      (fun _ _ hu => saveOk_saveBytes hu) _ (a := (s, none)) hm

theorem saveOk_saveGallery {root area : Nat} {g : Gang} {s : State} (hm : s.memOk) : SaveOk (saveGallery root area g s) :=
  saveOk_saveBytes (memOk_foldl (f := fun s (h : Hart) => s.performAll h.hid
    (fun x => overlaps (galleryLoc g.core g.galBase) g.galSize x.loc x.bytes.length)) (fun _ _ hu => memOk_performAll _ _ hu) _ hm)

theorem State.memOk_halt {s : State} {hid : Nat} (hm : s.memOk) : (s.halt hid).memOk :=
  memOk_updHartAt _ _ (memOk_markFence (memOk_drain _ hm))

theorem saveOk_saveGang {g : Gang} {s : State} (hm : s.memOk) : SaveOk (saveGang g s) := by
  unfold saveGang
  split
  · exact hm
  next l _ =>
    have hhalt := memOk_foldl (f := fun s hid => (s.halt hid).completeAll hid) (fun _ _ hu => memOk_completeAll (memOk_halt hu))
      ((s.hartsOf g).map (fun h => h.hid)) hm
    have hstair := saveOk_each (f := saveStair g.root (l.area g.index)) (fun _ _ => saveOk_saveStair)
      ((s.hartsOf g).map (fun h => h.hid)) (a := (_, none)) hhalt
    have hplates := saveOk_each (f := savePlates g.root (l.area g.index)) (fun _ _ => saveOk_savePlates)
      ((s.hartsOf g).map (fun h => h.hid)) hstair
    have hharts := saveOk_each (f := saveHart g.root (l.area g.index) g) (fun _ _ => saveOk_saveHart)
      ((s.hartsOf g).map (fun h => h.hid)) hplates
    exact saveOk_then (fun _ => saveOk_saveBytes) (saveOk_then (fun _ => saveOk_saveGallery) hharts)

theorem State.memOk_gangSave {s : State} {n : Nat} (hm : s.memOk) : (s.gangSave n).memOk := by
  unfold State.gangSave
  split
  · exact memOk_saved hm
  · split
    · exact hm
    · have hsave (gs : List Gang) := saveOk_each (fun g _ => saveOk_saveGang (g := g)) gs (a := (s, none)) hm
      refine memOk_saved ?_
      split
      · exact memOk_abandon (hsave _)
      · refine memOk_foldl (fun u g hu => ?_) _ (hsave _)
        split
        · exact memOk_holdGang hu
        · exact hu

end Sys2Proof.Machine
end

section
/-! Memory stays canonical: loads, fills of plates, damage, collectives, the host and fetched code. -/

namespace Sys2Proof.Machine

open Sys2Proof State

theorem State.memOk_constLine {s : State} {core launch since line : Nat} (hm : s.memOk) : (s.constLine core launch since line).1.memOk := by
  unfold State.constLine
  dsimp only
  split
  · exact hm
  · exact hm

theorem State.memOk_constRead {s : State} {g : Gang} {stamp loc n : Nat} (hm : s.memOk) : (s.constRead g stamp loc n).1.memOk := by
  unfold State.constRead
  refine memOk_foldl_fst (fun a line ha => ?_) _ hm
  exact memOk_constLine ha

theorem State.memOk_load {s : State} {h : Hart} {vec : Bool} {u : Use} {va : Word} {n : Nat} {t : State} {r : List Byte}
    (ht : s.load h vec u va n = .ok (t, r)) (hm : s.memOk) : t.memOk := by
  unfold State.load at ht
  split at ht
  · cases ht
  next hp =>
    cases ht
    exact memOk_place hp hm
  next s0 loc hp =>
    have hu := memOk_place hp hm
    split at ht
    · split at ht
      · cases ht
      · split at ht
        · cases ht
          exact hu
        · obtain rfl := congrArg Prod.fst (Except.ok.inj ht)
          exact memOk_constRead hu
    · split at ht
      · cases ht
      next s1 hr =>
        extract_lets s2 s3 at ht
        have hs : s2.memOk := memOk_settle _ _ _ _ (memOk_reach hr hu)
        have hs3 : s3.memOk := memOk_ite (memOk_performAll _ _ hs) hs
        split at ht
        · cases ht
        · split at ht
          · obtain ⟨rfl, -⟩ := Prod.mk.inj (Except.ok.inj ht)
            exact hs3
          · obtain ⟨rfl, -⟩ := Prod.mk.inj (Except.ok.inj ht)
            exact hs3

/-- The body of `fillRow` is put in at the constant: compared at its arguments, the kernel would evaluate the address, a word of an open
number. -/
theorem State.memOk_fillRow {s : State} {h : Hart} {area plate n : Nat} {t : State} {r : List (BitVec 16)}
    (ht : s.fillRow h area plate n = .ok (t, r)) (hm : s.memOk) : t.memOk := by
  have hf : State.fillRow = State.fillRow := rfl
  conv at hf => rhs; delta State.fillRow
  rw [hf] at ht
  dsimp only at ht
  split at ht
  · cases ht
  next hl =>
    obtain ⟨rfl, -⟩ := Prod.mk.inj (Except.ok.inj ht)
    exact memOk_load hl hm

/-- The function of one row is made opaque: where its body is in sight, the kernel evaluates the address, a word of an open number. -/
theorem State.memOk_fillRows {s : State} {h : Hart} {area plate : Nat} (n : Nat) {m r : SMap 16} {t : State}
    (ht : s.fillRows h area plate n m = .ok (t, r)) (hm : s.memOk) : t.memOk := by
  induction n generalizing m r t with
  | zero =>
    obtain ⟨rfl, -⟩ := Prod.mk.inj (Except.ok.inj ht)
    exact hm
  | succ n ih =>
    obtain ⟨row, hrow⟩ : ∃ row, State.fillRow = row := ⟨_, rfl⟩
    rw [State.fillRows, hrow] at ht
    split at ht
    · cases ht
    next hf =>
      split at ht
      · cases ht
      next hr =>
        obtain ⟨rfl, -⟩ := Prod.mk.inj (Except.ok.inj ht)
        rw [← hrow] at hr
        exact memOk_fillRow hr (ih hf)

theorem State.memOk_fillPlate {s : State} {h : Hart} {p : Nat} {t : State} (ht : s.fillPlate h p = .ok t) (hm : s.memOk) : t.memOk := by
  unfold State.fillPlate at ht
  dsimp only at ht
  split at ht
  · cases ht
  next hf =>
    cases ht
    exact (memOk_fillRows _ hf hm :)

theorem State.memOk_requestMove {s : State} {frame : Nat} {host : Bool} (hm : s.memOk) : (s.requestMove frame host).memOk := by
  unfold State.requestMove
  dsimp only
  split
  · exact hm
  · split
    · exact memOk_ite hm (memOk_post hm)
    · exact memOk_hall _ (memOk_track hm)

theorem State.memOk_contest {s : State} {frame : Nat} {host : Bool} (hm : s.memOk) : (s.contest frame host).memOk := by
  unfold State.contest
  split
  · exact hm
  · exact memOk_ite (memOk_hall _ (memOk_track hm)) hm

theorem State.memOk_damage {s : State} {unit : Nat} (hm : s.memOk) : (s.damage unit).memOk := by
  unfold State.damage
  refine memOk_ite hm ?_
  exact memOk_hall _ (memOk_foldl (f := fun s (h : Hart) => s.performAll h.hid (fun x => overlaps (32 * unit) 32 x.loc x.bytes.length &&
    !x.holds (32 * unit) 32)) (fun _ _ hu => memOk_performAll _ _ hu) _ hm)

theorem State.memOk_advise {s : State} (hm : s.memOk) : s.advise.memOk := memOk_ite (memOk_hall _ (memOk_foldl
    (fun _ _ hs => memOk_setMgmt hs) _ hm)) hm

theorem State.memOk_degrade {s : State} {d lo n : Nat} (hm : s.memOk) : (s.degrade d lo n).memOk := memOk_setMgmt hm

theorem State.memOk_remove {s : State} {what : Resource} (hm : s.memOk) : (s.remove what).memOk := by
  unfold State.remove
  dsimp only
  split
  · exact memOk_ite hm (memOk_post (memOk_advise (memOk_hall _ (memOk_degrade (memOk_updCore hm)))))
  · exact memOk_ite hm (memOk_post (memOk_advise (memOk_hall _ (memOk_degrade hm))))
  · exact memOk_ite hm (memOk_post (memOk_advise (memOk_hall _ (memOk_degrade hm))))

theorem State.memOk_lackRanks {s : State} {c : EngineCmd} {rs : List Nat} (hm : s.memOk) : (s.lackRanks c rs).memOk := memOk_ite (memOk_foldl
    (fun _ _ hs => memOk_hall _ hs) _ (memOk_setEngine hm)) (memOk_abortEngine (memOk_foldl (fun _ _ hs => memOk_hall _ hs) _ (memOk_setEngine hm)))

theorem State.memOk_sourceReady {s : State} {c : EngineCmd} (hm : s.memOk) : (s.sourceReady c).1.memOk := memOk_foldl
    (fun _ _ hs => memOk_advanceAll hs) _ hm

theorem State.memOk_sourcesReady {s : State} {cs : List EngineCmd} (hm : s.memOk) : (s.sourcesReady cs).1.memOk := by
  unfold State.sourcesReady
  refine memOk_foldl_fst (fun a c ha => ?_) _ hm
  exact memOk_sourceReady ha

theorem State.memOk_readRun {c : EngineCmd} {va : Word} {ty : Nat} : ∀ (n i : Nat) {s : State}, s.memOk →
    (State.readRun c va ty n i s).1.memOk
  | 0, _, _, hm => hm
  | n + 1, i, s, hm => by
    rw [State.readRun]
    dsimp only
    split
    · exact hm
    next hw => exact memOk_readRun n (i + 1) (memOk_engineWord hw hm)

theorem State.memOk_contribution {s : State} {c : EngineCmd} {kind : Nat} {desc : List Byte} {size : Nat} (hm : s.memOk) :
    (s.contribution c kind desc size).1.memOk := by
  unfold State.contribution
  dsimp only
  refine memOk_foldl_fst (fun a j ha => ?_) _ (a := (s, [], none)) hm
  exact memOk_readRun _ _ ha

theorem State.memOk_gather {s : State} {cs : List EngineCmd} (hm : s.memOk) : (s.gather cs).1.memOk := by
  unfold State.gather
  refine memOk_foldl_fst (fun a c ha => ?_) _ hm
  split
  · exact memOk_contribution ha
  · exact ha

theorem State.memOk_startGroup {s : State} {g : Nat} {remote : List (Nat × List Byte)} (hm : s.memOk) : (s.startGroup g remote).memOk := by
  unfold State.startGroup
  split
  · exact hm
  next cs _ =>
    have hready : (if s.remoteCome g remote then s.sourcesReady cs else (s, false)).1.memOk := by
      split
      · exact memOk_sourcesReady hm
      · exact hm
    refine memOk_ite hready (memOk_foldl (fun u id hu => ?_) _ (memOk_foldl (fun u x hu => ?_) _ (memOk_foldl (fun u id hu => ?_) _
      (memOk_gather hready))))
    · split
      · exact hu
      · exact memOk_lackRanks hu
    · split
      · exact hu
      · exact memOk_faultEngine hu
    · split
      · exact hu
      · exact memOk_setEngine hu

theorem State.memOk_selfStart {s : State} {g : Nat} (hm : s.memOk) : (s.selfStart g).memOk := memOk_startGroup hm

theorem State.memOk_portDown {s : State} {port : Nat} (hm : s.memOk) : (s.portDown port).memOk := by
  unfold State.portDown
  refine memOk_foldl (fun u c hu => ?_) _ (memOk_foldl (fun u c hu => ?_) _ hm)
  · split
    · exact memOk_selfStart hu
    · exact hu
  · split
    · exact memOk_lackRanks hu
    · exact hu

theorem State.memOk_retryFlit {s : State} {port flit : Nat} (hm : s.memOk) : (s.retryFlit port flit).memOk :=
  memOk_ite (memOk_portDown hm) hm

theorem State.memOk_abortDie {s : State} {g die : Nat} (hm : s.memOk) : (s.abortDie g die).memOk := by
  unfold State.abortDie
  dsimp only
  split
  · split
    · exact hm
    · exact memOk_abortMember hm
  · split
    · exact hm
    · exact memOk_abortMember hm

theorem State.memOk_hostCounts {s : State} {a n : Nat} (hm : s.memOk) : (s.hostCounts a n).memOk := by
  unfold State.hostCounts
  refine memOk_ite (memOk_foldl (fun u i hu => ?_) _ hm) hm
  dsimp only
  split
  · exact hu
  · exact memOk_countMove hu

theorem State.memOk_barRead {s : State} {size base off n : Nat} (hm : s.memOk) : (s.barRead size base off n).memOk := hm

theorem State.memOk_hostOp {s : State} {a : Nat} {op : HostOp} (hm : s.memOk) : (s.hostOp a op).memOk := by
  have hgo (n : Nat) (store : Bool) : (((s.engineSettle none false store a n).1.settle (2 ^ 32) false a n).hostCounts a n).memOk :=
    memOk_hostCounts (memOk_settle _ _ _ _ (memOk_engineSettle hm))
  unfold State.hostOp
  cases op with
  | read n =>
    refine memOk_ite hm ?_
    split
    · exact memOk_noteMigration hm
    · exact hgo n false
  | write bs =>
    refine memOk_ite hm ?_
    split
    · exact memOk_noteMigration hm
    · exact memOk_poke _ _ (hgo bs.length true)
  | bar0 n => exact memOk_barRead hm
  | bar2 n => exact memOk_barRead hm

theorem State.memOk_answer {s : State} {a : SpdmAnswer} (hm : s.memOk) : (s.answer a).memOk := hm

theorem State.memOk_codeAt {s : State} {h : Hart} {va : Word} {t : State} {r : Nat} (ht : s.codeAt h va = .ok (t, r)) (hm : s.memOk) : t.memOk := by
  unfold State.codeAt at ht
  split at ht
  · exact memOk_translate ht hm
  · cases ht

theorem State.memOk_readCode {s : State} {h : Hart} {va : Word} (hm : s.memOk) : (s.readCode h va).1.memOk := by
  unfold State.readCode
  dsimp only
  split
  · exact hm
  next e1 =>
    exact memOk_settle _ _ _ _ (memOk_ite (memOk_codeAt e1 hm) (memOk_engineSettle (memOk_codeAt e1 hm)))

theorem State.memOk_fetchWord {s : State} {h : Hart} {va : Word} {t : State} {r : IWord} (ht : s.fetchWord h va = .ok (t, r)) (hm : s.memOk) :
    t.memOk := by
  unfold State.fetchWord at ht
  dsimp only at ht
  split at ht
  · split at ht
    · cases ht
    · cases ht
      exact memOk_readCode hm
  · split at ht
    · cases ht
    · cases ht
      exact memOk_readCode hm

theorem State.memOk_install {s : State} {h : Hart} {u : AlmUnit} (hm : s.memOk) : (s.install h u).memOk := memOk_updHartAt _ _ (memOk_setDie hm)

theorem State.memOk_lower {s : State} {h : Hart} {va : Word} (hm : s.memOk) : (s.lower h va).memOk := by
  unfold State.lower
  split
  next e1 =>
    split
    · exact memOk_ite (memOk_install (memOk_codeAt e1 hm)) (memOk_updHartAt _ _ (memOk_codeAt e1 hm))
    · exact memOk_install (memOk_codeAt e1 hm)
  · exact hm

theorem State.memOk_fetchAhead {s : State} {hid : Nat} (hm : s.memOk) : (s.fetchAhead hid).memOk := by
  unfold State.fetchAhead
  split
  · exact hm
  · split
    · exact hm
    next e2 =>
      exact memOk_lower (memOk_fetchWord e2 hm)

end Sys2Proof.Machine
end

section
/-! Memory stays canonical: waits, fences, launches and scalar accesses. -/

namespace Sys2Proof.Machine

open Sys2Proof State

theorem memOk_lwaitEnd {s : State} {rd : XReg} {p t : BitVec 16} (hm : s.memOk) : (lwaitEnd s rd p t).state.memOk := by
  unfold lwaitEnd
  dsimp only
  split
  · exact hm
  · exact memOk_updHart _ hm

theorem State.memOk_blockRead {s : State} {h : Hart} {va : Word} {t : State} {r : Nat} (ht : s.blockRead h va = .ok (t, r))
    (hm : s.memOk) : t.memOk := by
  unfold State.blockRead at ht
  split at ht
  · cases ht
  · obtain ⟨⟨u, bs⟩, hl, hr⟩ := Except.map_eq_ok ht
    cases hr
    refine memOk_load hl ?_
    split
    next hp => exact memOk_performAll _ _ (memOk_place hp hm)
    · exact hm

theorem memOk_lwaitAgain {s : State} {h : Hart} (hm : s.memOk) : (lwaitAgain s h).state.memOk := by
  unfold lwaitAgain
  split
  · split
    · exact hm
    · exact memOk_lwaitEnd hm
  · split
    · exact memOk_memTrap hm
    next e2 =>
      split
      · exact memOk_blockRead e2 hm
      · exact memOk_lwaitEnd (memOk_blockRead e2 hm)
  · exact hm

theorem memOk_branch {ra rb : XReg} {disp : BitVec 16} {cond : Word → Word → Bool} {s : State} (hm : s.memOk) :
    NextMemOk (branch ra rb disp cond s) := by
  refine memOk_onHart fun h => ?_
  split
  · exact hm
  · exact hm

theorem State.memOk_cleanRange {h : Hart} : ∀ (rs : List (Nat × Nat)) {s t : State}, s.cleanRange h rs = some t → s.memOk → t.memOk
  | [], _, _, ht, hm => by
    cases ht
    exact hm
  | (loc, n) :: rs, s, t, ht, hm => by
    rw [State.cleanRange] at ht
    split at ht
    · cases ht
    next hr => exact memOk_cleanRange rs ht (memOk_performAll _ _ (memOk_reach hr hm))

theorem State.memOk_dropUnits {s : State} {p : AlmUnit → Bool} (hm : s.memOk) : (s.dropUnits p).memOk := hm

theorem State.memOk_submit {s : State} {rd : XReg} {va : Word} {l : Launch} (hm : s.memOk) : (s.submit rd va l).state.memOk := by
  unfold State.submit
  dsimp only
  split
  · exact memOk_updHart _ hm
  · exact memOk_updHart _ (memOk_accept hm)

theorem State.memOk_checkSubmit {s : State} {h : Hart} {rd : XReg} {va : Word} {msg : BitVec 512} {window : Nat} (hm : s.memOk) :
    (s.checkSubmit h rd va msg window).state.memOk := by
  unfold State.checkSubmit
  dsimp only
  split
  · exact hm
  · exact memOk_submit hm

theorem State.memOk_release {s : State} {hid : Nat} (hm : s.memOk) : (s.release hid).1.memOk := memOk_completeAll (memOk_markFence (memOk_drain _ hm))

theorem State.memOk_performStream {s : State} {hid : Nat} {vec : Bool} (hm : s.memOk) : (s.performStream hid vec).memOk := memOk_ite
    (memOk_markFence (memOk_performAll _ _ hm)) (memOk_performAll _ _ hm)

theorem memOk_fenceEngines {s : State} {h : Hart} (hm : s.memOk) : (fenceEngines s h).state.memOk := by
  unfold fenceEngines
  dsimp only
  split
  · exact memOk_completeAll hm
  · split
    · exact memOk_completeAll hm
    · exact memOk_updHartAt _ _ (memOk_completeAll hm)

theorem memOk_lwaitOn {s : State} {rd : XReg} {p t : BitVec 16} {block : Option Word} (hm : s.memOk) : (lwaitOn s rd p t block).state.memOk := by
  unfold lwaitOn
  dsimp only
  split
  · exact hm
  · split
    · exact memOk_updHart _ hm
    · exact memOk_updHart _ hm

theorem State.memOk_rmw {s : State} {h : Hart} {vec : Bool} {va : Word} {n : Nat} {f : Nat → Option Nat} {acq : Bool} {t : State} {r : Nat} (ht :
    s.rmw h vec va n f acq = .ok (t, r)) (hm : s.memOk) : t.memOk := by
  unfold State.rmw at ht
  dsimp only at ht
  split at ht
  · cases ht
  · cases ht
  next e1 =>
    split at ht
    · cases ht
    next e2 =>
      split at ht
      · cases ht
      · split at ht
        · cases ht
          exact memOk_performAll _ _ (memOk_settle _ _ _ _ (memOk_reach e2 (memOk_place e1 hm)))
        · cases ht
          exact memOk_poke _ _ (memOk_performAll _ _ (memOk_settle _ _ _ _ (memOk_reach e2 (memOk_place e1 hm))))

theorem State.memOk_enqueue {s : State} {h : Hart} {kind : TransitKind} {ops : List SweptAp} {tile count port : Nat} (hm : s.memOk) :
    (s.enqueue h kind ops tile count port).memOk := memOk_updCore hm

theorem State.memOk_missTrap {s : State} {h : Hart} {k : Nat} {m : MemMiss} {tswi : Nat} {tap : Option Nat} {tcell : Option (Nat × Nat)} (hm :
    s.memOk) : (s.missTrap h k m tswi tap tcell).state.memOk := memOk_memTrap hm

theorem memOk_scalarLoad {n : Nat} {signed : Bool} {rd base : XReg} {off : BitVec 12} {s : State} (hm : s.memOk) :
    NextMemOk (scalarLoad n signed rd base off s) := by
  refine memOk_onHart fun h => ?_
  dsimp only
  split
  · exact memOk_missTrap hm
  next hl =>
    split at hl
    · cases hl
    · exact (memOk_load hl hm :)

theorem memOk_scalarStore {n : Nat} {rd base : XReg} {off : BitVec 12} {s : State} (hm : s.memOk) :
    NextMemOk (scalarStore n rd base off s) := by
  refine memOk_onHart fun h => ?_
  dsimp only
  split
  · exact memOk_missTrap hm
  next hs =>
    split at hs
    · cases hs
    · exact memOk_save hs hm

theorem State.memOk_releaseIf {s : State} {q : BitVec 2} {hid : Nat} (hm : s.memOk) : (s.releaseIf q hid).1.memOk := by
  unfold State.releaseIf
  split
  · exact memOk_release hm
  · exact hm

theorem State.memOk_rmwLate {s : State} {h : Hart} {vec : Bool} {va : Word} {n : Nat} {a : Rmw} {t : State} (ht : s.rmwLate h vec va n a = .ok t)
    (hm : s.memOk) : t.memOk := by
  unfold State.rmwLate at ht
  dsimp only at ht
  split at ht
  · cases ht
  · cases ht
  next e1 =>
    split at ht
    · cases ht
    next e2 =>
      split at ht
      · split at ht
        · cases ht
        · cases ht
          exact memOk_leave _ _ (memOk_performAll _ _ (memOk_reach e2 (memOk_place e1 hm)))
      · cases ht
        exact memOk_leave _ _ (memOk_reach e2 (memOk_place e1 hm))

theorem AtomForm.memOk_run {a : AtomForm} {later : Bool} {s : State} (hm : s.memOk) : NextMemOk (a.run later s) := by
  refine memOk_onHart fun h => ?_
  have hr := memOk_releaseIf (q := a.q) (hid := h.hid) hm
  dsimp only
  split
  · exact hr
  split
  · exact memOk_memTrap hr
  split
  · split
    · exact memOk_missTrap hr
    next hl => exact memOk_rmwLate hl hr
  · split
    · exact memOk_missTrap hr
    next hu =>
      have ht := memOk_rmw hu hr
      split
      · exact ht
      · exact ht

end Sys2Proof.Machine
end

section
/-! Memory stays canonical: vector loads and stores, and the sweeps. -/

namespace Sys2Proof.Machine

open Sys2Proof State

theorem State.memOk_untilStarted (q d : Nat) : ∀ (n : Nat) {s : State}, s.memOk → (s.untilStarted q d n).memOk
  | 0, _, hm => hm
  | n + 1, s, hm => by
    rw [State.untilStarted]
    exact memOk_ite hm (memOk_untilStarted q d n (memOk_coreCycle (memOk_boundaries q 7 hm)))

theorem State.memOk_letDrainGo {s : State} {h : Hart} {j : Job} (hm : s.memOk) : (s.letDrainGo h j).memOk := by
  unfold State.letDrainGo
  split
  · exact hm
  · exact memOk_ite hm (memOk_untilStarted _ _ _ hm)

theorem State.memOk_dispatch {s : State} {h : Hart} {cls n : Nat} {j : Job} (hm : s.memOk) : (s.dispatch h cls n j).memOk := memOk_updHartAt _ _
    (memOk_updCore hm)

theorem Exec.memOk_ite {c : Prop} [Decidable c] {a b : Exec} (ha : a.state.memOk) (hb : b.state.memOk) :
    (if c then a else b).state.memOk := by
  split
  · exact ha
  · exact hb

theorem Exec.memOk_also {f : State → State} (hf : ∀ s, s.memOk → (f s).memOk) {e : Exec} (he : e.state.memOk) :
    (e.also f).state.memOk := by
  cases e with
  | done s | jump s _ | trap s _ => exact hf s he
  | moved s | wait s => exact he

theorem Exec.memOk_settle {f : Bool → State → State} (hf : ∀ b s, s.memOk → (f b s).memOk) {e : Exec} (he : e.state.memOk) :
    (e.settle f).state.memOk := by
  cases e with
  | done s | jump s _ => exact hf false s he
  | trap s _ => exact hf true s he
  | moved s | wait s => exact he

theorem State.memOk_settleLink {s : State} {h : Hart} {j : Job} (hm : s.memOk) : (s.settleLink h j).memOk := by
  unfold State.settleLink
  split
  · exact hm
  · exact memOk_untilStarted _ _ _ hm

theorem State.memOk_dispatchVec {s : State} {h : Hart} {v : Vec} {stops : Bool} (hm : s.memOk) : (s.dispatchVec h v stops).memOk := memOk_ite
    (memOk_settleLink (memOk_dispatch hm)) (memOk_dispatch hm)

/-- What follows the sweep keeps memory canonical: it writes the hart, or pushes or pops a record. -/
def Vec.LastOk (v : Vec) : Prop := ∀ s h g fl, s.memOk → (v.last s h g fl).state.memOk

theorem memOk_withPlates {as : List Apt} {k : State → Hart → Exec} (hk : ∀ s h, s.memOk → (k s h).state.memOk) :
    ∀ (n : Nat) {s : State} {h : Hart}, s.memOk → (withPlates as n s h k).state.memOk
  | 0, _, _, hm => hk _ _ hm
  | n + 1, s, h, hm => by
    rw [withPlates]
    split
    · exact hk _ _ hm
    · split
      · exact memOk_memTrap hm
      next hp =>
        split
        · exact hk _ _ (memOk_fillPlate hp hm)
        · exact memOk_withPlates hk n (memOk_fillPlate hp hm)

theorem State.memOk_loadEl {s : State} {h : Hart} {u : Use} {ty : Nat} {va : Word} {nib : Nat} {bl : Blocks} {t : State} {r : Nat × Blocks} (ht :
    s.loadEl h u ty va nib bl = .ok (t, r)) (hm : s.memOk) : t.memOk := by
  unfold State.loadEl at ht
  split at ht
  · split at ht
    · cases ht
    · split at ht
      · cases ht
      · split at ht
        · cases ht
          exact hm
        · split at ht
          · cases ht
          next e5 =>
            cases ht
            exact memOk_load e5 hm
  · split at ht
    · cases ht
    · split at ht
      · cases ht
      next e3 =>
        cases ht
        exact memOk_load e3 hm

theorem State.memOk_rawEl {s : State} {h : Hart} {t : Stream} {n : Nat} {bl : Blocks} {t' : State} {r : Nat × Blocks} (ht : s.rawEl h t n bl = .ok
    (t', r)) (hm : s.memOk) : t'.memOk := by
  unfold State.rawEl at ht
  split at ht
  · cases ht
    exact hm
  · exact memOk_loadEl ht hm

theorem State.memOk_streamEl {s : State} {h : Hart} {t : Stream} {n : Nat} {bl : Blocks} {t' : State} {r : Nat × Flags × Blocks} (ht :
    s.streamEl h t n bl = .ok (t', r)) (hm : s.memOk) : t'.memOk := by
  unfold State.streamEl at ht
  dsimp only at ht
  split at ht
  · cases ht
  next e1 =>
    split at ht
    · cases ht
      exact memOk_rawEl e1 hm
    · split at ht
      · cases ht
      next e3 =>
        cases ht
        exact memOk_rawEl e3 (memOk_rawEl e1 hm)

theorem State.memOk_readBefore {s : State} {h : Hart} {t : Stream} {n : Nat} {bl : Blocks} (hm : s.memOk) : (s.readBefore h t n bl).memOk := by
  unfold State.readBefore
  split
  · exact hm
  next e1 =>
    exact memOk_rawEl e1 hm

theorem Fed.halt_s (f : Fed) (x : FeedStop) : (f.halt x).s = f.s := by
  unfold Fed.halt
  split
  · rfl
  · split <;> rfl

theorem Fed.memOk_read {h0 : Hart} {n : Ap} {st : Stream} {els : Nat} : ∀ (ps : List (Nat × Nat × Nat)) {f : Fed}, f.s.memOk →
    (Fed.read h0 n st els ps f).s.memOk
  | [], _, hf => hf
  | (item, r, e) :: ps, f, hf => by
    rw [Fed.read]
    split
    · exact memOk_read ps hf
    · split
      · refine memOk_read ps ?_
        rw [Fed.halt_s]
        exact memOk_readBefore hf
      next he => exact memOk_read ps (memOk_streamEl he hf)

theorem State.memOk_holdAhead {s : State} {h : Hart} {t : Stream} (hm : s.memOk) : (s.holdAhead h t).memOk := by
  unfold State.holdAhead
  refine memOk_foldl (fun u va hu => ?_) _ hm
  dsimp only
  split
  · exact hu
  · split
    · exact memOk_ite hu hu
    · exact hu

theorem Fed.memOk_source {h0 : Hart} {els size : Nat} {places : List (Nat × Nat × Nat)} {f : Fed} {n : Ap} (hf : f.s.memOk) :
    (Fed.source h0 els size places f n).s.memOk := by
  unfold Fed.source
  split
  · exact hf
  · exact memOk_holdAhead (Fed.memOk_read _ hf)

theorem Vec.memOk_feed {v : Vec} {s : State} {h : Hart} (hm : s.memOk) : (v.feed s h).s.memOk := by
  have hfold (els size : Nat) (places : List (Nat × Nat × Nat)) : ∀ (l : List Ap) {f : Fed}, f.s.memOk →
      (l.foldl (Fed.source h els size places) f).s.memOk := by
    intro l
    induction l with
    | nil => exact fun hf => hf
    | cons n l ih => exact fun hf => ih (Fed.memOk_source hf)
  unfold Vec.feed
  dsimp only
  split
  · exact hfold _ _ _ _ (hfold _ _ _ _ hm)
  · exact hm

theorem Vec.memOk_check {v : Hart → Vec} {s : State} {h : Hart} {k : Vec → Hart → Fed → Exec}
    (hk : ∀ h f, f.s.memOk → (k (v h) h f).state.memOk) (hm : s.memOk) : (Vec.check v s h k).state.memOk := by
  unfold Vec.check
  split
  · exact hm
  · refine memOk_withPlates (fun u g hu => ?_) _ hm
    dsimp only
    split
    · exact hu
    · split
      · exact Vec.memOk_feed hu
      · exact hk _ _ (Vec.memOk_feed hu)

theorem Vec.memOk_start {v : Hart → Vec} {s : State} {h : Hart} {k : Vec → Hart → Fed → Exec}
    (hk : ∀ joins h f, f.s.memOk → (k ((v h).linked joins) h f).state.memOk) (hm : s.memOk) : (Vec.start v s h k).state.memOk := by
  unfold Vec.start
  exact Exec.memOk_settle (fun _ _ hu => memOk_dispatchVec hu) (Vec.memOk_check (hk _) (memOk_letDrainGo hm))

theorem MemForm.memOk_loadFields {m : MemForm} {h : Hart} {ty i : Nat} {va : Nat → Word} : ∀ (fs : List Nat) {s t : State} {bl : Blocks}
    {r : List Nat × Blocks}, m.loadFields h ty i va fs s bl = .ok (t, r) → s.memOk → t.memOk
  | [], _, _, _, _, ht, hm => by
    cases ht
    exact hm
  | f :: fs, s, t, bl, r, ht, hm => by
    rw [MemForm.loadFields] at ht
    split at ht
    · cases ht
    next hl =>
      obtain ⟨⟨u, x⟩, hu, hr⟩ := Except.map_eq_ok ht
      cases hr
      exact memOk_loadFields fs hu (memOk_loadEl hl hm)

theorem MemForm.memOk_loadEls {m : MemForm} {h : Hart} {ty : Nat} {addr : Nat → Nat → Word} : ∀ (is : List Nat) {s : State} {bl : Blocks},
    s.memOk → (m.loadEls h ty addr is s bl).s.memOk
  | [], _, _, hm => hm
  | i :: is, s, bl, hm => by
    rw [MemForm.loadEls]
    split
    · exact hm
    next hl => exact memOk_loadEls is (MemForm.memOk_loadFields _ hl hm)

theorem FeedStop.memOk_trap {x : FeedStop} {s : State} {h : Hart} (hm : s.memOk) : (x.trap s h).state.memOk := memOk_missTrap hm

theorem Vec.memOk_fedStop_getD {v : Vec} {h : Hart} {f : Fed} {flag : Option (Nat × Nat)} {s : State} {e : Exec} (hs : s.memOk)
    (he : e.state.memOk) : ((v.fedStop h f flag s).getD e).state.memOk := by
  unfold Vec.fedStop
  split
  · exact hs
  · exact memOk_missTrap hs
  · exact he

theorem MemForm.memOk_used {m : MemForm} {h h1 : Hart} {i n : Nat} {s : State} (hm : s.memOk) : (m.used h h1 i n s).memOk := by
  unfold MemForm.used
  exact memOk_foldl (fun _ _ hu => memOk_noteUsed hu) _ hm

theorem MemForm.memOk_elTrap {m : MemForm} {v : Vec} {s : State} {h g : Hart} {k : Nat} {e : ElFault} (hm : s.memOk) :
    (m.elTrap v s h g k e).state.memOk := memOk_missTrap (MemForm.memOk_used hm)

theorem MemForm.memOk_runLoad {m : MemForm} {v : Vec} {h : Hart} {f : Fed} (hf : f.s.memOk) : (m.runLoad v h f).state.memOk := by
  have hl (is : List Nat) := MemForm.memOk_loadEls (m := m) (h := h) (ty := (h.apt m.ap).ty)
    (addr := fun i n => m.addr f.h (i / h.vl) (i % h.vl) n) is (bl := f.blocks) hf
  unfold MemForm.runLoad
  dsimp only
  split
  · exact Vec.memOk_fedStop_getD (hl _) (hl _)
  · split
    · exact hf
    · split
      · exact MemForm.memOk_elTrap (hl _)
      · split
        · exact hl _
        · exact hl _

theorem State.memOk_flushRun {s : State} {h : Hart} {b : StoreRun} (hm : s.memOk) : (s.flushRun h b).memOk := by
  unfold State.flushRun
  dsimp only
  split
  · split
    · exact hm
    · exact memOk_store _ _ _ _ hm
  · split
    · exact memOk_leave _ _ hm
    · exact memOk_leave _ _ (memOk_store _ _ _ _ hm)

theorem MemForm.memOk_storePlaces {m : MemForm} {h : Hart} {n i : Nat} {va : Nat → Word} : ∀ (fs : List Nat) {s t : State} {r : List Place},
    m.storePlaces h n i va fs s = .ok (t, r) → s.memOk → t.memOk
  | [], _, _, _, ht, hm => by
    cases ht
    exact hm
  | f :: fs, s, t, r, ht, hm => by
    rw [MemForm.storePlaces] at ht
    split at ht
    · cases ht
    next u p hp =>
      have hu : u.memOk := by
        split at hp
        · cases hp
        · exact memOk_place hp hm
      split at ht
      · cases ht
      next w hw =>
        obtain ⟨⟨x, ps⟩, hx, hr⟩ := Except.map_eq_ok ht
        cases hr
        refine memOk_storePlaces fs hx ?_
        split at hw
        · exact memOk_reach hw hu
        · cases hw
          exact hu

theorem State.memOk_addRun {s : State} {h : Hart} {b : StoreRun} {loc : Nat} {bs : List Byte} (hm : s.memOk) : (s.addRun h b loc bs).1.memOk := by
  unfold State.addRun
  split
  · split
    · exact hm
    · exact memOk_flushRun hm
  · exact memOk_flushRun hm

theorem State.memOk_addNibble {s : State} {h : Hart} {b : StoreRun} {loc : Nat} {hi : Bool} {v : Nat} (hm : s.memOk) :
    (s.addNibble h b loc hi v).1.memOk := by
  unfold State.addNibble
  split
  · split
    · exact memOk_addRun hm
    · exact memOk_flushRun hm
  · exact memOk_flushRun hm
  · exact hm

theorem MemForm.memOk_putFields {m : MemForm} {h : Hart} {ty i r e : Nat} : ∀ (ps : List (Nat × Place)) {a : State × StoreRun},
    a.1.memOk → (m.putFields h ty i r e ps a).1.memOk
  | [], _, ha => ha
  | (f, p) :: ps, a, ha => by
    refine memOk_putFields ps ?_
    split
    · exact memOk_flushRun ha
    · split
      · exact memOk_addNibble ha
      · exact memOk_addRun ha

theorem MemForm.memOk_storeEls {m : MemForm} {h : Hart} {ty : Nat} : ∀ (is : List Nat) {a : State × StoreRun}, a.1.memOk →
    (m.storeEls h ty is a).1.memOk
  | [], _, ha => memOk_flushRun ha
  | i :: is, a, ha => by
    rw [MemForm.storeEls]
    split
    · exact memOk_flushRun ha
    next hp => exact memOk_storeEls is (MemForm.memOk_putFields _ (MemForm.memOk_storePlaces _ hp ha))

theorem State.memOk_clearUnits {s : State} {hid : Nat} {rs : List (Nat × Nat)} (hm : s.memOk) : (s.clearUnits hid rs).memOk := by
  unfold State.clearUnits
  exact memOk_foldl (fun u x hu => (memOk_performAll hid
    (fun y => y.vec && overlaps y.loc y.bytes.length (32 * x.1) 32) hu : _)) _ hm

theorem MemForm.memOk_runStore {m : MemForm} {v : Vec} {h : Hart} {f : Fed} (hf : f.s.memOk) : (m.runStore v h f).state.memOk := by
  have hstore (is : List Nat) := MemForm.memOk_storeEls (m := m) (h := f.h) (ty := (h.apt m.ap).ty) is (a := (f.s, ⟨none, none⟩)) hf
  have hwhole (is : List Nat) := memOk_foldl (f := fun s i => m.used h f.h i m.nf s) (fun _ _ hu => MemForm.memOk_used hu) is hf
  have hstored (is : List Nat) (rs : List (Nat × Nat)) := memOk_ite (c := f.s.poison.isEmpty = true) (hstore is)
    (memOk_clearUnits (hid := h.hid) (rs := rs) (hstore is))
  unfold MemForm.runStore
  dsimp only
  split
  · exact Vec.memOk_fedStop_getD (hwhole _) (hstored _ _)
  · split
    · exact hf
    · refine MemForm.memOk_elTrap ?_
      split
      · exact hwhole _
      · exact hstored _ _

theorem MemForm.memOk_run {form : Hart → MemForm} {s : State} {h : Hart} (hm : s.memOk) : (MemForm.run form s h).state.memOk := by
  unfold MemForm.run
  refine Vec.memOk_start (fun joins g f hf => ?_) hm
  split
  · exact MemForm.memOk_runLoad hf
  · exact MemForm.memOk_runStore hf

theorem Vec.memOk_finish {v : Vec} {h : Hart} {f : Fed} (hlast : v.LastOk) (hf : f.s.memOk) : (v.finish h f).state.memOk := by
  unfold Vec.finish
  split
  · split
    · exact hlast _ _ _ _ hf
    · exact FeedStop.memOk_trap hf
  · dsimp only
    split
    · exact hf
    · exact hf

theorem Vec.memOk_run {v : Hart → Vec} {s : State} {h : Hart} (hlast : ∀ g, (v g).LastOk) (hm : s.memOk) : (Vec.run v s h).state.memOk :=
  Vec.memOk_start (fun _ _ _ hf => Vec.memOk_finish (hlast _) hf) hm

theorem memOk_vecInt {f : AHalf} {g : Guard} {s : State} {h : Hart} (hm : s.memOk) : (vecInt f g s h).state.memOk :=
  Vec.memOk_run (fun _ _ _ _ _ hu => hu) hm

theorem memOk_vecFloat {f : AHalf} {g : Guard} {s : State} {h : Hart} (hm : s.memOk) : (vecFloat f g s h).state.memOk :=
  Vec.memOk_run (fun _ _ _ _ _ hu => hu) hm

theorem memOk_vecMask {f : AHalf} {g : Guard} {s : State} {h : Hart} (hm : s.memOk) : (vecMask f g s h).state.memOk := by
  unfold vecMask
  split
  case h_5 | h_6 | h_7 | h_8 | h_9 | h_10 | h_11 => exact Exec.memOk_also (e := .done (s.setHart _)) (fun _ hu => memOk_dispatch hu) hm
  all_goals exact Vec.memOk_run (fun _ _ _ _ _ hu => hu) hm

theorem memOk_vecMove {f : AHalf} {g : Guard} {s : State} {h : Hart} (hm : s.memOk) : (vecMove f g s h).state.memOk := by
  refine Vec.memOk_run (fun x _ _ _ _ hu => ?_) hm
  dsimp only
  split <;> exact hu

theorem memOk_vecConvert {f : AHalf} {g : Guard} {s : State} {h : Hart} (hm : s.memOk) : (vecConvert f g s h).state.memOk :=
  Vec.memOk_run (fun _ _ _ _ _ hu => hu) hm

theorem memOk_vecReduce {f : AHalf} {g : Guard} {s : State} {h : Hart} (hm : s.memOk) : (vecReduce f g s h).state.memOk :=
  Vec.memOk_run (fun _ _ _ _ _ hu => hu) hm

theorem memOk_vecChain {f : AHalf} {g : Guard} {s : State} {h : Hart} (hm : s.memOk) : (vecChain f g s h).state.memOk := by
  unfold vecChain
  split <;> exact Vec.memOk_run (fun _ _ _ _ _ hu => hu) hm

end Sys2Proof.Machine
end

section
/-! Memory stays canonical: the stair's pushes and pops. -/

namespace Sys2Proof.Machine

open Sys2Proof State

theorem State.memOk_versionOf {s : State} {h : Hart} {n : Nat} {t : State} {r : Option Nat} (ht : s.versionOf h n = .ok (t, r)) (hm : s.memOk) :
    t.memOk := by
  unfold State.versionOf at ht
  split at ht
  · cases ht
    exact hm
  · split at ht
    · cases ht
    next e2 =>
      cases ht
      exact memOk_load e2 hm

theorem State.memOk_pushCheck {s : State} {h : Hart} {ap : Ap} {len : Nat} {t : State} {r : Nat} (ht : s.pushCheck h ap len = .ok (t, r))
    (hm : s.memOk) : t.memOk := by
  unfold State.pushCheck at ht
  split at ht
  · cases ht
  · split at ht
    · split at ht
      · cases ht
      · cases ht
      next hv =>
        cases ht
        exact memOk_versionOf hv hm
    · cases ht
      exact hm

theorem State.memOk_pushCheck_error {s : State} {h : Hart} {ap : Ap} {len : Nat} {e : Exec} (he : s.pushCheck h ap len = .error e)
    (hm : s.memOk) : e.state.memOk := by
  unfold State.pushCheck at he
  split at he
  · cases he
    exact hm
  · split at he
    · split at he
      · cases he
        exact memOk_memTrap hm
      next hv =>
        cases he
        exact memOk_versionOf hv hm
      · cases he
    · cases he

theorem State.memOk_stairPush {s : State} {h : Hart} {bs : List Byte} {t : State} {r : Hart} (ht : s.stairPush h bs = .ok (t, r))
    (hm : s.memOk) : t.memOk := by
  unfold State.stairPush at ht
  dsimp only at ht
  split at ht
  · cases ht
  next ho =>
    cases ht
    exact memOk_stairOut _ ho hm

theorem State.memOk_stairPush_error {s : State} {h : Hart} {bs : List Byte} {t : State} {r : Nat × Word}
    (he : s.stairPush h bs = .error (t, r)) (hm : s.memOk) : t.memOk := by
  unfold State.stairPush at he
  dsimp only at he
  split at he
  next ho =>
    cases he
    exact memOk_stairOut_error _ ho hm
  · cases he

theorem memOk_revPush {f : AHalf} {g : Guard} {s : State} {h : Hart} (hm : s.memOk) : (revPush f g s h).state.memOk := by
  unfold revPush
  refine Vec.memOk_start (fun joins h fd hf => ?_) hm
  dsimp only
  split
  next he => exact memOk_pushCheck_error he hf
  next hc =>
    refine Vec.memOk_finish (fun u h1 h2 fl hu => ?_) (memOk_pushCheck hc hf)
    dsimp only
    split
    next he => exact memOk_memTrap (memOk_stairPush_error he hu)
    next hp => exact (memOk_stairPush hp hu :)

theorem State.memOk_stairUnits {h : Hart} : ∀ (n : Nat) {s t : State} {va : Word} {r : List Byte},
    s.stairUnits h va n = .ok (t, r) → s.memOk → t.memOk
  | 0, _, _, _, _, ht, hm => by
    cases ht
    exact hm
  | n + 1, s, t, va, r, ht, hm => by
    rw [State.stairUnits] at ht
    split at ht
    · cases ht
    next hl =>
      split at ht
      · cases ht
      next hu =>
        cases ht
        refine memOk_stairUnits n hu ?_
        split at hl
        · cases hl
          exact hm
        · exact memOk_load hl hm

theorem State.memOk_popVersion {s : State} {h : Hart} {ap : Ap} {wvt : Nat} {t : State} (ht : s.popVersion h ap wvt = .ok t)
    (hm : s.memOk) : t.memOk := by
  unfold State.popVersion at ht
  split at ht
  · split at ht
    · cases ht
    · cases ht
    next hv =>
      split at ht
      · cases ht
        exact memOk_versionOf hv hm
      · cases ht
  · cases ht
    exact hm

theorem State.memOk_popVersion_error {s : State} {h : Hart} {ap : Ap} {wvt : Nat} {e : Exec} (he : s.popVersion h ap wvt = .error e)
    (hm : s.memOk) : e.state.memOk := by
  unfold State.popVersion at he
  split at he
  · split at he
    · cases he
      exact memOk_memTrap hm
    next hv =>
      cases he
      exact memOk_versionOf hv hm
    next hv =>
      split at he
      · cases he
      · cases he
        exact memOk_versionOf hv hm
  · cases he

theorem State.memOk_noteRange {s : State} {h : Hart} {va : Word} {n : Nat} {wr : Bool} (hm : s.memOk) : (s.noteRange h va n wr).memOk :=
  memOk_ite hm (memOk_noteUsed (memOk_foldl (f := fun s i => s.noteUsed h (va + BitVec.ofNat 64 (65536 * i)) wr)
    (fun _ _ hu => memOk_noteUsed hu) _ hm))

theorem State.memOk_stairPop {s : State} {h : Hart} {ap : Ap} {tag shape n : Nat} {t : State} {r : Hart × List Byte}
    (ht : s.stairPop h ap tag shape n = .ok (t, r)) (hm : s.memOk) : t.memOk := by
  unfold State.stairPop at ht
  split at ht
  · cases ht
  split at ht
  · cases ht
  split at ht
  · cases ht
  next hu =>
    dsimp only at ht
    split at ht
    · cases ht
    split at ht
    · cases ht
    split at ht
    · cases ht
    split at ht
    · cases ht
    split at ht
    · cases ht
    next hv =>
      split at ht
      · cases ht
      next hp =>
        cases ht
        exact memOk_stairUnits _ hp (memOk_popVersion hv (memOk_stairUnits _ hu hm))

theorem State.memOk_stairPop_error {s : State} {h : Hart} {ap : Ap} {tag shape n : Nat} {e : Exec}
    (he : s.stairPop h ap tag shape n = .error e) (hm : s.memOk) : e.state.memOk := by
  unfold State.stairPop at he
  split at he
  · cases he
    exact hm
  split at he
  · cases he
    exact hm
  split at he
  · cases he
    exact memOk_memTrap hm
  next hu =>
    have hs := memOk_stairUnits _ hu hm
    dsimp only at he
    split at he
    · cases he
      exact hs
    split at he
    · cases he
      exact hs
    split at he
    · cases he
      exact hs
    split at he
    · cases he
      exact hs
    split at he
    next hv =>
      cases he
      exact memOk_popVersion_error hv hs
    next hv =>
      split at he
      · cases he
        exact memOk_memTrap (memOk_noteRange (memOk_popVersion hv hs))
      · cases he

theorem memOk_revPop {f : AHalf} {g : Guard} {s : State} {h : Hart} (hm : s.memOk) : (revPop f g s h).state.memOk := by
  unfold revPop
  refine Vec.memOk_start (fun joins h fd hf => ?_) hm
  dsimp only
  split
  next he => exact memOk_stairPop_error he hf
  next hp => exact Vec.memOk_finish (fun _ _ _ _ hu => hu) (memOk_stairPop hp hf)

theorem memOk_vecReversible {f : AHalf} {g : Guard} {s : State} {h : Hart} (hm : s.memOk) : (vecReversible f g s h).state.memOk := by
  unfold vecReversible
  split
  case h_1 | h_2 | h_3 | h_4 => exact memOk_revPush hm
  case h_5 | h_6 | h_7 | h_8 => exact memOk_revPop hm
  case h_9 =>
    refine Vec.memOk_run (fun x _ _ _ _ hu => ?_) hm
    unfold revIntVec
    dsimp only
    split <;> exact hu

theorem memOk_vecHalf {f : AHalf} {g : Guard} {s : State} {h : Hart} (hm : s.memOk) : (vecHalf f g s h).state.memOk := by
  unfold vecHalf
  split
  · exact memOk_vecInt hm
  · exact memOk_vecFloat hm
  · exact memOk_vecMask hm
  · exact memOk_vecMove hm
  · exact memOk_vecConvert hm
  · exact memOk_vecReduce hm
  · exact memOk_vecChain hm
  · exact memOk_vecReversible hm

theorem memOk_pair {g : Guard} {sc : PairScalar} {vec : AHalf} {s : State} {h : Hart} (hm : s.memOk) :
    (pair g sc vec s h).state.memOk := by
  have hv := memOk_vecHalf (f := vec) (g := g) (h := h) hm
  unfold pair
  split
  next ht =>
    rw [ht] at hv
    split
    · split
      · exact hv
      · exact hv
    · exact hv
  · exact hv

end Sys2Proof.Machine
end

section
/-! Memory stays canonical: entries, translated positions, vector atomics, windows, the stair, tiles and engine commands. -/

namespace Sys2Proof.Machine

open Sys2Proof State

theorem memOk_define {n : Ap} {v : Hart → Word} {s : State} (hm : s.memOk) : NextMemOk (define n v s) := by
  refine memOk_onHart fun h => ?_
  split
  · exact hm
  · exact hm

theorem State.memOk_loadRecord {s : State} {h : Hart} {va : Word} {n : Nat} {t : State} {r : List Byte} (ht : s.loadRecord h va n = .ok (t, r))
    (hm : s.memOk) : t.memOk := by
  unfold State.loadRecord at ht
  split at ht
  · cases ht
  · exact memOk_load ht hm

theorem State.memOk_xlatEl {s : State} {h : Hart} {x2 : Xlat} {p : Int} {t : State} {r : Option Nat} (ht : s.xlatEl h x2 p = .ok (t, r)) (hm :
    s.memOk) : t.memOk := by
  unfold State.xlatEl at ht
  dsimp only at ht
  split at ht
  · cases ht
    exact hm
  · split at ht
    · cases ht
    next e2 =>
      cases ht
      exact memOk_load e2 hm

theorem memOk_xlatEls {x : Xlat} {ff : Bool} {kd : KReg} {d a : Apt} {h1 : Hart} : ∀ (es : List Nat) {first : Bool} {s : State} {h : Hart},
    s.memOk → (xlatEls x ff kd d a h1 first es s h).1.memOk
  | [], _, _, _, hm => hm
  | e :: es, first, s, h, hm => by
    rw [xlatEls]
    split
    · exact hm
    next hx =>
      have hu := memOk_xlatEl hx hm
      split
      · exact hu
      · exact memOk_xlatEls es hu

theorem memOk_xlatRun {ff : Bool} {kd : KReg} {apd apa : Ap} {xt xp : XReg} {v : Vec} {h : Hart} {f : Fed} (hf : f.s.memOk) :
    (xlatRun ff kd apd apa xt xp v h f).state.memOk := by
  have hx (x : Xlat) (is : List Nat) := memOk_xlatEls (x := x) (ff := ff) (kd := kd) (d := h.apt apd) (a := h.apt apa) (h1 := f.h) is
    (first := true) (h := f.h) hf
  unfold xlatRun
  dsimp only
  split
  next hend =>
    have hs := hx ⟨h.getX xt, bits (h.getX xp).toNat 31 0, bits (h.getX xp).toNat 36 32, bits (h.getX xp).toNat 44 40⟩
      (cutAt (v.todo h f) (f.sum h.fen (v.todo h f) 0).2)
    rw [hend] at hs
    exact Vec.memOk_fedStop_getD hs hs
  next hend =>
    have hs := hx ⟨h.getX xt, bits (h.getX xp).toNat 31 0, bits (h.getX xp).toNat 36 32, bits (h.getX xp).toNat 44 40⟩
      (cutAt (v.todo h f) (f.sum h.fen (v.todo h f) 0).2)
    rw [hend] at hs
    exact hs
  next hend =>
    have hs := hx ⟨h.getX xt, bits (h.getX xp).toNat 31 0, bits (h.getX xp).toNat 36 32, bits (h.getX xp).toNat 44 40⟩
      (cutAt (v.todo h f) (f.sum h.fen (v.todo h f) 0).2)
    rw [hend] at hs
    split
    · exact hf
    · split
      · exact memOk_missTrap hs
      · exact hs

theorem memOk_xlat {ff : Bool} {kg : KReg} {ks : Bool} {kd : KReg} {apd apa : Ap} {xt xp : XReg} {s : State} (hm : s.memOk) :
    NextMemOk (xlat ff kg ks kd apd apa xt xp s) :=
  memOk_onHart fun _ => Vec.memOk_start (fun _ _ _ hf => memOk_xlatRun hf) hm

theorem State.memOk_vamCheck {h : Hart} : ∀ (l : List (Nat × Word)) {s : State}, s.memOk → (s.vamCheck h l).1.memOk
  | [], _, hm => hm
  | (i, va) :: l, s, hm => by
    rw [State.vamCheck]
    split
    · exact hm
    · split
      · exact hm
      next hp =>
        have hu := memOk_place hp hm
        split
        · exact hu
        · exact memOk_vamCheck l hu
      next hp => exact memOk_vamCheck l (memOk_place hp hm)

theorem memOk_vamLeave {ty op : Nat} {ret : Bool} {apd : Ap} {h h1 : Hart} {a : Apt} {els : List (Nat × Word)} :
    ∀ (vas : List Word) {s t : State} {fl : Flags}, vamLeave ty op ret apd h h1 a els vas s = some (t, fl) → s.memOk → t.memOk
  | [], _, _, _, ht, hm => by
    cases ht
    exact hm
  | va :: vas, s, t, fl, ht, hm => by
    rw [vamLeave] at ht
    split at ht
    · cases ht
    next hr =>
      obtain ⟨⟨u, fl'⟩, hu, he⟩ := Option.map_eq_some_iff.mp ht
      cases he
      exact memOk_vamLeave vas hu (memOk_rmwLate hr hm)

theorem memOk_vamSteps {ty op : Nat} {acq : Bool} {h h1 : Hart} {a : Apt} {els : List (Nat × Word)} :
    ∀ (vas : List Word) {s t : State} {r : List (Word × Nat × Flags)}, vamSteps ty op acq h h1 a els vas s = some (t, r) → s.memOk → t.memOk
  | [], _, _, _, ht, hm => by
    cases ht
    exact hm
  | va :: vas, s, t, r, ht, hm => by
    rw [vamSteps] at ht
    split at ht
    · cases ht
    next hr =>
      obtain ⟨⟨u, l⟩, hu, he⟩ := Option.map_eq_some_iff.mp ht
      cases he
      exact memOk_vamSteps vas hu (memOk_rmw hr hm)

theorem VamForm.memOk_body {m : VamForm} {later : Bool} {v : Vec} {h : Hart} {f : Fed} (hf : f.s.memOk) :
    (m.body later v h f).state.memOk := by
  have hc (els : List (Nat × Word)) := memOk_releaseIf (q := m.q) (hid := h.hid) (memOk_vamCheck (h := h) els hf)
  unfold VamForm.body
  dsimp only
  split
  · exact memOk_missTrap (memOk_vamCheck _ hf)
  · split
    · exact hc _
    · split
      · split
        next e he =>
          have hs := Vec.memOk_fedStop_getD (v := v) (h := h) (f := f) (flag := (f.sum h.fen (v.todo h f) 0).2)
            (e := .wait f.s) (hc ((cutAt (v.todo h f) (f.sum h.fen (v.todo h f) 0).2).map
              (fun i => (i, h.getX m.base + f.h.indexAt m.idx (i / h.vl) (i % h.vl))))) hf
          rw [he] at hs
          exact hs
        · split
          · exact hf
          next hl => exact (memOk_vamLeave _ hl (hc _) :)
      · split
        · exact hf
        next hl =>
          split
          · exact hc _
          · split
            · exact FeedStop.memOk_trap (hc _)
            · exact (memOk_vamSteps _ hl (hc _) :)

theorem VamForm.memOk_run {m : VamForm} {later : Bool} {s : State} (hm : s.memOk) : NextMemOk (m.run later s) :=
  memOk_onHart fun _ => Vec.memOk_start (fun _ _ _ hf => VamForm.memOk_body hf) hm

theorem State.memOk_accumulate {h h1 : Hart} {w : Window} {apa idx : Ap} : ∀ (is : List Nat) {s t : State},
    State.accumulate h h1 w apa idx is s = .ok t → s.memOk → t.memOk
  | [], _, _, ht, hm => by
    cases ht
    exact hm
  | i :: is, s, t, ht, hm => by
    rw [State.accumulate] at ht
    dsimp only at ht
    split at ht
    · cases ht
    next hl =>
      split at ht
      · cases ht
      next hs => exact memOk_accumulate is ht (memOk_save hs (memOk_load hl hm))

theorem memOk_awaccRun {aw : BitVec 2} {idx apa : Ap} {v : Vec} {h : Hart} {f : Fed} (hf : f.s.memOk) :
    (awaccRun aw idx apa v h f).state.memOk := by
  unfold awaccRun
  split
  · exact hf
  · dsimp only
    split
    · exact memOk_missTrap hf
    next ha => exact Vec.memOk_fedStop_getD hf (memOk_accumulate _ ha hf :)

theorem State.memOk_copies {h : Hart} {w : Window} {k : Nat} : ∀ (n : Nat) {s t : State} {r : List (Option (Nat × Flags))},
    s.copies h w k n = .ok (t, r) → s.memOk → t.memOk
  | 0, _, _, _, ht, hm => by
    cases ht
    exact hm
  | n + 1, s, t, r, ht, hm => by
    rw [State.copies] at ht
    split at ht
    · cases ht
    next hc =>
      split at ht
      · cases ht
      next hl =>
        cases ht
        exact memOk_load hl (memOk_copies n hc hm)

theorem State.memOk_clearCopies {h : Hart} {w : Window} {k : Nat} : ∀ (n : Nat) {s t : State},
    s.clearCopies h w k n = .ok t → s.memOk → t.memOk
  | 0, _, _, ht, hm => by
    cases ht
    exact hm
  | n + 1, s, t, ht, hm => by
    rw [State.clearCopies] at ht
    split at ht
    · cases ht
    next hc =>
      split at ht
      · cases ht
      next hs =>
        cases ht
        exact memOk_save hs (memOk_clearCopies n hc hm)

theorem State.memOk_mergeWords {h : Hart} {w : Window} {acq later : Bool} : ∀ (n : Nat) {s t : State},
    s.mergeWords h w acq later n = .ok t → s.memOk → t.memOk
  | 0, _, _, ht, hm => by
    cases ht
    exact hm
  | n + 1, s, t, ht, hm => by
    unfold State.mergeWords at ht
    split at ht
    · cases ht
    next hw =>
      split at ht
      · cases ht
      next hc =>
        have hu := memOk_copies _ hc (memOk_mergeWords n hw hm)
        dsimp only at ht
        split at ht
        · cases ht
        next hr =>
          refine memOk_clearCopies _ ht ?_
          split at hr
          · exact memOk_rmwLate hr hu
          · obtain ⟨⟨x, m⟩, hx, rfl⟩ := Except.map_eq_ok hr
            exact memOk_rmw hx hu

theorem memOk_merge {aw q : BitVec 2} {later : Bool} {s : State} (hm : s.memOk) : NextMemOk (merge aw q later s) := by
  refine memOk_onHart fun h => ?_
  have hr := memOk_releaseIf (q := q) (hid := h.hid) hm
  split
  · exact hm
  · dsimp only
    split
    · exact hr
    · refine Exec.memOk_also (fun _ hu => memOk_dispatch hu) ?_
      split
      · exact memOk_missTrap (memOk_noteRange hr)
      next hw => exact memOk_mergeWords _ hw hr

theorem memOk_stairManaged {s : State} {f : Hart → Exec} (hf : ∀ h, (f h).state.memOk) : NextMemOk (stairManaged s f) :=
  memOk_onHart (fun h => Exec.memOk_also (fun _ hu => memOk_dispatch hu) (hf h))

theorem memOk_stairOp {s : State} {h : Hart} {k : Nat} {r : Except (Nat × Word) (State × Hart)}
    (hr : ∀ t g, r = .ok (t, g) → t.memOk) (hm : s.memOk) : (stairOp s h k r).state.memOk := by
  unfold stairOp
  split
  · exact memOk_memTrap hm
  · exact (hr _ _ rfl :)

theorem State.memOk_stairDrop : ∀ (n : Nat) {s t : State} {h g : Hart}, s.stairDrop n h = .ok (t, g) → s.memOk → t.memOk
  | 0, _, _, _, _, ht, hm => by
    cases ht
    exact hm
  | n + 1, s, t, h, g, ht, hm => by
    rw [State.stairDrop] at ht
    split at ht
    · cases ht
      exact hm
    · split at ht
      · cases ht
      next hu =>
        have hs := memOk_stairUnits _ hu hm
        split at ht
        · cases ht
          exact hs
        · exact memOk_stairDrop n ht hs

theorem State.memOk_stairDrop_error : ∀ (n : Nat) {s t : State} {h : Hart} {r : Nat × Word},
    s.stairDrop n h = .error (t, r) → s.memOk → t.memOk
  | 0, _, _, _, _, he, _ => by cases he
  | n + 1, s, t, h, r, he, hm => by
    rw [State.stairDrop] at he
    split at he
    · cases he
    · split at he
      · cases he
        exact hm
      next hu =>
        have hs := memOk_stairUnits _ hu hm
        split at he
        · cases he
        · exact memOk_stairDrop_error n he hs

theorem State.memOk_stairPre {s : State} {h : Hart} {n : Nat} (hm : s.memOk) : (s.stairPre h n).1.memOk := by
  unfold State.stairPre
  dsimp only
  split
  · exact hm
  next e1 =>
    exact memOk_stairUnits _ e1 hm

theorem memOk_onTile {n : BitVec 3} {s : State} {h : Hart} {f : Gang → Tile → Exec} (hf : ∀ g t, (f g t).state.memOk) (hm : s.memOk) :
    (onTile n s h f).state.memOk := by
  unfold onTile
  split
  · exact hm
  · split
    · exact hm
    · exact hf _ _

theorem memOk_transit {n : BitVec 3} {s : State} {f : Hart → Gang → Tile → Exec} (hf : ∀ h g t, (f h g t).state.memOk) (hm : s.memOk) :
    NextMemOk (transit n s f) :=
  memOk_onHart (fun h => memOk_onTile (fun g t => by
    split
    · exact hf h g t
    · exact hm) hm)

theorem memOk_readEntry {s : State} {h : Hart} {n : Ap} {own : Option TrapRec} {k : State → Hart → Exec}
    (hk : ∀ s h, s.memOk → (k s h).state.memOk) (hm : s.memOk) : (readEntry s h n own k).state.memOk := by
  unfold readEntry
  split
  · exact hm
  · split
    · exact hm
    · split
      · exact hm
      · exact memOk_withPlates hk _ hm

theorem State.memOk_updTile {s : State} {g : Gang} {n : Nat} {f : Tile → Tile} (hm : s.memOk) : (s.updTile g n f).memOk := memOk_setGang hm

theorem State.memOk_issue {s : State} {h : Hart} {c : EngineCmd} {reads writes : List Range} (hm : s.memOk) :
    (s.issue h c reads writes).state.memOk := by
  have hroom : (if (s.enginesOf h.hid).length < 16 then s
      else (s.enginesOf h.hid).foldl (fun s d => if (s.enginesOf h.hid).length < 16 then s else s.completeEngine d.id) s).memOk :=
    memOk_ite hm (memOk_foldl (fun _ _ hu => memOk_ite hu (memOk_completeEngine hu)) _ hm)
  unfold State.issue
  dsimp only
  generalize (if (s.enginesOf h.hid).length < 16 then s
    else (s.enginesOf h.hid).foldl (fun s d => if (s.enginesOf h.hid).length < 16 then s else s.completeEngine d.id) s) = u at hroom ⊢
  split
  · exact hroom
  · exact hroom

theorem State.memOk_checkIssue {s : State} {h : Hart} {c : EngineCmd} {reads writes word : List Range} (hm : s.memOk) :
    (s.checkIssue h c reads writes word).state.memOk := by
  unfold State.checkIssue
  split
  · exact memOk_memTrap hm
  · split
    · exact memOk_memTrap hm
    · exact memOk_issue hm

theorem Exec.memOk_thenStart {g : Nat} {e : Exec} (he : e.state.memOk) : (e.thenStart g).state.memOk := by
  cases e with
  | done s => exact memOk_selfStart he
  | jump s _ | trap s _ | moved s | wait s => exact he

theorem memOk_collective {kind : Nat} {xa : XReg} {scope : BitVec 3} {s : State} (hm : s.memOk) : NextMemOk (collective kind xa scope s) := by
  refine memOk_onHart fun h => ?_
  dsimp only
  split
  · exact hm
  · split
    · exact memOk_memTrap hm
    next hl =>
      have hu := memOk_loadRecord hl hm
      exact Exec.memOk_ite hu (Exec.memOk_thenStart (memOk_checkIssue hu))

theorem Exec.memOk_thenSkip {e : Exec} (he : e.state.memOk) : e.thenSkip.state.memOk := by
  cases e with
  | done s => exact memOk_advance _ _ _ he
  | jump s _ | trap s _ | moved s | wait s => exact he

theorem memOk_update {adamw : Bool} {xa : XReg} {scope : BitVec 3} {s : State} (hm : s.memOk) : NextMemOk (update adamw xa scope s) := by
  refine memOk_onHart fun h => ?_
  dsimp only
  split
  · exact hm
  split
  · exact memOk_memTrap hm
  next hl =>
    have hu := memOk_loadRecord hl hm
    split
    · exact hu
    split
    · exact memOk_checkIssue hu
    split
    · exact memOk_release hu
    · exact Exec.memOk_thenSkip (memOk_checkIssue (memOk_release hu))

theorem State.memOk_fetchFault {s : State} {h : Hart} {f : Nat} {va : Word} (hm : s.memOk) : (s.fetchFault h f va).state.memOk := memOk_memTrap hm

theorem State.memOk_fetchWords {s : State} {h : Hart} {t : State} {r : IWord × Option IWord} (ht : s.fetchWords h = .ok (t, r)) (hm : s.memOk) :
    t.memOk := by
  unfold State.fetchWords at ht
  dsimp only at ht
  split at ht
  · cases ht
  next e1 =>
    split at ht
    · cases ht
      exact memOk_updHartAt _ _ (memOk_lower (memOk_fetchWord e1 hm))
    · split at ht
      · cases ht
      next e3 =>
        cases ht
        exact memOk_fetchWord e3 (memOk_updHartAt _ _ (memOk_lower (memOk_fetchWord e1 hm)))

theorem State.memOk_fetchInstr {s : State} {h : Hart} {t : State} {r : Instr} (ht : s.fetchInstr h = .ok (t, r)) (hm : s.memOk) : t.memOk := by
  unfold State.fetchInstr at ht
  split at ht
  · cases ht
  next e1 =>
    split at ht
    · cases ht
    · cases ht
      exact memOk_fetchWords e1 hm

theorem State.memOk_readyFor {s : State} {i : Instr} (hm : s.memOk) : (s.readyFor i).memOk := by
  unfold State.readyFor
  dsimp only
  split
  · exact memOk_updHart _ hm
  · exact memOk_updHart _ (memOk_ite (memOk_performAll _ _ hm) hm)

end Sys2Proof.Machine
end

section
/-! Every instruction, every event and every step keeps memory canonical (R205, R275, R290; the invariant of O1 and O3). -/

namespace Sys2Proof.Machine

open Sys2Proof State

theorem memOk_halfForm {i : Instr} {f : AHalf} {mask : BitVec 2} (hi : i.toHalf = some (f, mask)) {s : State} (hm : s.memOk) :
    NextMemOk (exec i s) := by
  rw [exec_toHalf hi]
  exact memOk_onHart fun _ => memOk_vecHalf hm

/-- A hart that waits leaves the state as it is. -/
theorem Exec.memOk_wait {s : State} (hm : s.memOk) : (Exec.wait s).state.memOk := hm

section
variable {s : State} (hm : s.memOk)
include hm

theorem memOk_csrGet {rd : XReg} {n : Nat} : NextMemOk (csrGet rd n s) := memOk_csrOp hm

theorem memOk_csrPut {n : Nat} {v : Word} : NextMemOk (csrPut n v s) := memOk_csrOp hm

theorem memOk_execModuleReset {images : List Nat} : NextMemOk (execModuleReset images s) := .next hm

theorem memOk_execMdasAssemble {args : List String} {files : List (String × String)} : NextMemOk (execMdasAssemble args files s) := .next hm

theorem memOk_execRegisterWrite {target : RegTarget} {v : Word} : NextMemOk (execRegisterWrite target v s) := by
  cases target with
  | csr n => exact memOk_csrPut hm
  | mgmt master off => exact (memOk_event (memOk_mgmtWrite hm) : NextMemOk (event s (fun s => s.mgmtWrite master off v)))

theorem memOk_execPlateFill {plate : Nat} : NextMemOk (execPlateFill plate s) := by
  unfold execPlateFill
  split
  · exact .fault
  split
  · exact .next hm
  split
  · exact .next hm
  split
  · exact .outcome _ (memOk_memTrap hm)
  next ht => exact .next (memOk_fillPlate ht hm)

theorem memOk_execPageWalk {va : Word} {need : Access} : NextMemOk (execPageWalk va need s) := by
  refine memOk_event ?_
  split
  · exact hm
  split
  · exact hm
  next ht => exact memOk_translate ht hm

theorem memOk_execTranslationUnitLower {hart : Nat} : NextMemOk (execTranslationUnitLower hart s) := by
  refine memOk_event ?_
  split
  · exact hm
  · exact memOk_lower hm

theorem memOk_execLwaitReturn {hart : Nat} : NextMemOk (execLwaitReturn hart s) := by
  unfold execLwaitReturn
  split
  · exact .fault
  split
  · exact .next hm
  · exact .outcome _ (memOk_lwaitAgain hm)

theorem memOk_execSetrc {rd ra : XReg} {imm : BitVec 16} : NextMemOk (execSetrc rd ra imm s) := by
  refine memOk_onHart fun h => ?_
  dsimp only
  split <;> exact hm

theorem memOk_execEret : NextMemOk (execEret s) := by
  refine memOk_onHart fun h => ?_
  split <;> exact hm

theorem memOk_execDclean {ra rb : XReg} : NextMemOk (execDclean ra rb s) := by
  refine memOk_onHart fun h => ?_
  dsimp only
  split
  · split
    · exact hm
    next ht => exact memOk_cleanRange _ ht hm
  · exact memOk_drain _ hm

theorem memOk_execXcinv {ra rb : XReg} : NextMemOk (execXcinv ra rb s) := by
  refine memOk_onHart fun h => ?_
  dsimp only
  split
  · exact hm
  split
  · exact memOk_dropUnits hm
  · exact memOk_dropUnits hm

theorem memOk_execPtsync : NextMemOk (execPtsync s) := by
  refine memOk_onHart fun h => ?_
  split
  · exact hm
  · exact memOk_drain _ hm

theorem memOk_execLaunch {rd ra : XReg} : NextMemOk (execLaunch rd ra s) := by
  refine memOk_onHart fun h => ?_
  split
  · dsimp only
    split
    · exact memOk_setHart hm
    · exact memOk_checkSubmit (memOk_setHart hm)
  · have hr : (s.release h.hid).1.memOk := memOk_release hm
    dsimp only
    split
    · exact hm
    split
    · exact hr
    split
    · exact hr
    split
    · exact memOk_memTrap hr
    next ht => exact memOk_checkSubmit (memOk_load ht hr)

theorem memOk_execFenceSv {scope : BitVec 3} : NextMemOk (execFenceSv scope s) :=
  memOk_onHart fun h => (memOk_performStream hm : (s.performStream h.hid false).memOk)

theorem memOk_execFenceVs {scope : BitVec 3} : NextMemOk (execFenceVs scope s) :=
  memOk_onHart fun _ => memOk_fenceEngines (memOk_performStream hm)

theorem memOk_execFenceVv {scope : BitVec 3} : NextMemOk (execFenceVv scope s) :=
  memOk_onHart fun _ => memOk_fenceEngines (memOk_performStream hm)

theorem memOk_execFenceAll {scope : BitVec 3} : NextMemOk (execFenceAll scope s) :=
  memOk_onHart fun _ => memOk_fenceEngines (memOk_markFence (memOk_drain _ hm))

theorem memOk_execLarrive {rd : XReg} : NextMemOk (execLarrive rd s) := by
  refine memOk_onHart fun h => ?_
  have hr : (s.release h.hid).1.memOk := memOk_release hm
  split
  · exact hm
  split
  · exact hm
  dsimp only
  split
  · exact hr
  · exact (memOk_updHart _ (memOk_setGang hr) :)

theorem memOk_execLwait {rd ra : XReg} : NextMemOk (execLwait rd ra s) := by
  refine memOk_onHart fun h => ?_
  split
  · exact hm
  · exact memOk_lwaitOn hm

theorem memOk_execLarriveScope {rd ra : XReg} {scope : BitVec 3} : NextMemOk (execLarriveScope rd ra scope s) := by
  refine memOk_onHart fun h => ?_
  have hr : (s.release h.hid).1.memOk := memOk_release hm
  dsimp only
  split
  · exact hr
  split
  · exact memOk_memTrap hr
  split
  · exact memOk_memTrap hr
  next ht =>
    split
    · exact (memOk_rmw ht hr :)
    · exact (memOk_updHart _ (memOk_rmw ht hr) :)

theorem memOk_execLwaitScope {rd ra rb : XReg} {scope : BitVec 3} : NextMemOk (execLwaitScope rd ra rb scope s) := by
  refine memOk_onHart fun h => ?_
  dsimp only
  split
  · exact memOk_memTrap hm
  next ht =>
    split
    · exact (memOk_blockRead ht hm :)
    · exact memOk_lwaitOn (memOk_blockRead ht hm)

theorem memOk_execRetire : NextMemOk (execRetire s) := by
  refine memOk_onHart fun h => ?_
  split
  · exact hm
  · exact (memOk_leaveHart _ hm :)

theorem memOk_execTwake : NextMemOk (execTwake s) := memOk_onHart fun _ => (memOk_updCore hm :)

theorem memOk_execTfill {ra : XReg} : NextMemOk (execTfill ra s) := by
  refine memOk_onHart fun h => ?_
  dsimp only
  split
  · exact hm
  split
  · exact hm
  · exact (memOk_enqueue hm :)

theorem memOk_execBkt {rd ra : XReg} : NextMemOk (execBkt rd ra s) := by
  refine memOk_onHart fun h => ?_
  have hp : (s.passTime h.q).memOk := memOk_passTime hm
  exact Exec.memOk_ite (memOk_updHart _ hp :) (Exec.memOk_wait (memOk_runCycles _ _ hp))

theorem memOk_execAswap {apd apa : Ap} : NextMemOk (execAswap apd apa s) := by
  refine memOk_onHart fun h => ?_
  dsimp only
  split
  · exact hm
  split
  · exact hm
  · exact (memOk_setHart hm :)

theorem memOk_execVget {rd : XReg} {apa : Ap} {rb : XReg} : NextMemOk (execVget rd apa rb s) := by
  refine memOk_onHart fun h => ?_
  dsimp only
  split
  · exact hm
  split
  · exact hm
  split
  · exact hm
  · refine memOk_withPlates (fun s h hs => Exec.memOk_also (fun _ hu => memOk_dispatch hu) ?_) _ hm
    exact (memOk_setHart hs :)

theorem memOk_execFsbind {fs : BitVec 4} {ra : XReg} : NextMemOk (execFsbind fs ra s) := by
  refine memOk_onHart fun h => ?_
  dsimp only
  split
  · exact hm
  split
  · exact memOk_missTrap hm
  next ht =>
    have hr := memOk_loadRecord ht hm
    split
    · exact hr
    · exact (memOk_updHart _ (memOk_holdAhead hr) :)

theorem memOk_execAccwin {aw op : BitVec 2} {ty : BitVec 4} {xb xl xg : XReg} : NextMemOk (execAccwin aw op ty xb xl xg s) := by
  refine memOk_onHart fun h => ?_
  dsimp only
  split
  · exact hm
  split
  · exact memOk_missTrap hm
  next ht => exact (memOk_updHart _ (memOk_save ht hm) :)

theorem memOk_execAwacc {kg : KReg} {ks : Bool} {aw : BitVec 2} {idx apa : Ap} : NextMemOk (execAwacc kg ks aw idx apa s) :=
  memOk_onHart fun _ => Vec.memOk_start (fun _ _ _ hf => memOk_awaccRun hf) hm

theorem memOk_execAwrel {aw : BitVec 2} : NextMemOk (execAwrel aw s) := by
  refine memOk_onHart fun h => ?_
  split
  · exact hm
  · exact (memOk_updHart _ hm :)

theorem memOk_execStpeek {rd : XReg} : NextMemOk (execStpeek rd s) := by
  refine memOk_stairManaged fun h => ?_
  split
  · exact (memOk_setHart hm :)
  · refine memOk_stairOp (fun t g hg => ?_) hm
    split at hg
    · cases hg
    next ht =>
      obtain ⟨rfl, -⟩ := Prod.mk.inj (Except.ok.inj hg)
      exact memOk_stairUnits _ ht hm

theorem memOk_execStdrop {ra : XReg} : NextMemOk (execStdrop ra s) := by
  refine memOk_stairManaged fun h => ?_
  split
  next ht => exact memOk_memTrap (memOk_stairDrop_error _ ht hm)
  next ht => exact (memOk_setHart (memOk_stairDrop _ ht hm) :)

theorem memOk_execStcut {ra : XReg} : NextMemOk (execStcut ra s) := by
  refine memOk_stairManaged fun h => ?_
  dsimp only
  split
  · exact (memOk_setHart hm :)
  · exact hm

theorem memOk_execStsync : NextMemOk (execStsync s) := by
  refine memOk_stairManaged fun h => ?_
  split
  next ht => exact memOk_memTrap (memOk_stairSync_error ht hm)
  next ht => exact (memOk_setHart (memOk_stairSync ht hm) :)

theorem memOk_execStpre {ra : XReg} : NextMemOk (execStpre ra s) := by
  refine memOk_stairManaged fun h => ?_
  extract_lets want room r
  split
  · exact hm
  · exact (memOk_setHart (memOk_stairPre hm) :)

theorem memOk_execTload {t : BitVec 3} {apa : Ap} : NextMemOk (execTload t apa s) := by
  refine memOk_transit (fun h _ _ => memOk_readEntry (fun s h hs => ?_) hm) hm
  split
  · exact hs
  · exact (memOk_enqueue (memOk_updTile hs) :)

theorem memOk_execTmac {t : BitVec 3} {apa : Ap} {xr : XReg} : NextMemOk (execTmac t apa xr s) := by
  refine memOk_transit (fun h _ _ => ?_) hm
  refine memOk_readEntry (fun s h hs => ?_) hm
  split
  · exact hs
  dsimp only
  split
  · exact (memOk_setHart hs :)
  · exact (memOk_setHart (memOk_enqueue (memOk_updTile hs)) :)

theorem memOk_execTzero {t : BitVec 3} : NextMemOk (execTzero t s) := memOk_transit (fun _ _ _ => (memOk_enqueue (memOk_updTile hm) :)) hm

theorem memOk_execTdrain {kg : KReg} {ks : Bool} {apd : Ap} {t : BitVec 3} {xr : XReg} : NextMemOk (execTdrain kg ks apd t xr s) :=
  memOk_onHart fun _ => memOk_onTile (fun _ _ => Vec.memOk_run (fun _ _ _ _ _ hs => (memOk_setHart hs :)) hm) hm

theorem memOk_execCpy {xd xs xn xc : XReg} {scope : BitVec 3} : NextMemOk (execCpy xd xs xn xc scope s) := by
  refine memOk_onHart fun h => ?_
  dsimp only
  split
  · exact hm
  · exact memOk_checkIssue hm

theorem memOk_execSkipset {xa xb : XReg} : NextMemOk (execSkipset xa xb s) := by
  refine memOk_onHart fun h => ?_
  have hr : (s.release h.hid).1.memOk := memOk_release hm
  dsimp only
  split
  · exact hm
  split
  · exact hr
  split
  · exact memOk_memTrap hr
  split
  · exact memOk_missTrap hr
  next ht => exact (memOk_rmw ht hr :)

theorem memOk_execWver {n : BitVec 6} {xa : XReg} : NextMemOk (execWver n xa s) := by
  refine memOk_onHart fun h => ?_
  split
  · exact hm
  · exact (memOk_setHart hm :)

end

/-- Every instruction and every event keeps memory canonical: one case per form of instruction. -/
theorem memOk_exec (i : Instr) {s : State} (hm : s.memOk) : NextMemOk (exec i s) := by
  cases i
  case vadd | vsub | vadds | vsubs | vmul | vmulh | vmacc | vwmacc | vand | vor | vxor | vandn | vsll | vsrl | vsra | vssr | vneg
    | vfadd | vfsub | vfmul | vfdiv | vfsqrt | vfrcp | vfma | vfms | vfnma | vfwma | vceq | vcne | vclt | vcle | vfceq | vfclt
    | vfcle | vfcun | vmin | vmax | vfmin | vfmax | kand | kor | kxor | kandn | knot | kmw | kmr | vmov | vfneg | vfabs | vfsgnj
    | vrev | vperm | vslidn | vsliup | vidx | vfcvt | vfcvti | vicvtf | vnclip | vext | vredsum | vwredsum | vredmax | vredmin
    | vredand | vredor | vredxor | vfredsum | vfwredsum | vfredmax | vfredmin | vsredsum | vswredsum | vsredmax | vsredmin
    | vsredand | vsredor | vsredxor | vsfredsum | vsfwredsum | vsfredmax | vsfredmin | vscore | vscoreS | vsegr | vexps | vwacc
    | vclget | vclput | radd | uadd | rxor | rmulo | umulo | rfmul | ufmul | rfadd | ufadd | rcvt | ucvt | rnrw | unrw =>
    exact memOk_halfForm rfl hm
  all_goals dsimp only [exec]
  case add | sub | and | or | xor | andn | sll | srl | sra | slt | sltn | min | max | minn | maxn | clz | ctz | popc | sxb | sxh
    | sxw | zxb | zxh | zxw | adds1 | adds2 | adds3 | sliceof | slli | srli | srai | addi | andi | ori | xori | slti | sltni | lih
    | mul | mulh | mulhn | mulhsn | div | divn | rem | remn | setvl | setvlG | fbar | aget | abind | aunbind | fsrel | fsget
    | tshape | trestart | tclose => exact memOk_hartOp hm
  case lb | lh | lw | ld | lbn | lhn | lwn | ldn => exact memOk_scalarLoad hm
  case sb | sh | sw | sd => exact memOk_scalarStore hm
  case beq | bne | blt | bge | bltn | bgen => exact memOk_branch hm
  case lctlWrite | fstatWrite | stairRegWrite | xstepWrite => exact memOk_csrPut hm
  case fstatRead | cycwRead | vlRcRead | stairRegRead => exact memOk_csrGet hm
  case csrrw | csrrs | csrrc => exact memOk_csrOp hm
  case vectorPass | laneGroupGate | laneGroupWake | transitOpComplete | transitWake | freqRampStep | relockEnd => exact memOk_coreEvent hm
  case amswp | amcas | amadd | amand | amor | amxor | ammin | ammax | amminn | ammaxn | amfadd | amfmin | amfmax | amld | amst =>
    exact AtomForm.memOk_run hm
  case vamadd | vamfadd | vammin | vammax | vamfmin | vamfmax | vamand | vamor | vamxor => exact VamForm.memOk_run hm
  case collAr | collRs | collAg | collA2a => exact memOk_collective hm
  case updSgdm | updAdamw => exact memOk_update hm
  case adefRect | adefLine | adefx | amov => exact memOk_define hm
  case vxlat | vxlatFf => exact memOk_xlat hm
  case vld | vst | vlds | vlseg | vsts | vsseg | vldx | vldxr | vstx | vstxr => exact memOk_onHart fun _ => MemForm.memOk_run hm
  case merge => exact memOk_merge hm
  case pair => exact memOk_onHart fun _ => memOk_pair hm
  case efcget | efcput | vsplat => exact memOk_onHart fun _ => Vec.memOk_run (fun _ _ _ _ _ hs => memOk_setHart hs) hm
  case jmp | call | jmpl | trap | wfi => exact memOk_onHart fun _ => hm
  case msgWrite => exact memOk_event (memOk_msgWrite hm)
  case lqcfgWrite => exact memOk_event (memOk_ite hm (memOk_ownerWrite _ _ _ (memOk_setMgmt hm) hm))
  case waitCounterRead => exact memOk_event (memOk_waitRead hm)
  case placementDecision => exact memOk_event (memOk_decision hm)
  case launchComplete => exact memOk_event (memOk_completeLaunch hm)
  case vectorIssue => exact memOk_event (memOk_sequence hm)
  case dispatchGate => exact memOk_event (memOk_nextCycle hm)
  case slewStep => exact memOk_event (memOk_slewStep hm)
  case slewCoreQuiet | transitIssue | freqreqWrite => exact memOk_event (memOk_updCore hm)
  case transitGate => exact memOk_event (memOk_nextCycle (memOk_updCore hm))
  case claimWrite => exact memOk_event (memOk_claim hm)
  case claimWindowClose => exact memOk_event (memOk_closeWindow hm)
  case handoverRelease => exact memOk_event (memOk_ownerWrite _ _ _ (memOk_disown hm) hm)
  case handoverTransfer => exact memOk_event (memOk_ownerWrite _ _ _ (memOk_transferTo hm) hm)
  case ownerLinkDown => exact memOk_event (memOk_ownerLost hm)
  case preempt | resume | kill => exact memOk_event (memOk_ownerWrite _ _ _ (memOk_rotundaWrite hm) hm)
  case gangSave => exact memOk_event (memOk_gangSave hm)
  case intpostWrite => exact memOk_event (memOk_ownerWrite _ _ _ (memOk_ite (memOk_updHartAt _ _ hm) hm) hm)
  case interruptTake | wfiWake => exact memOk_event (memOk_updHartAt _ _ hm)
  case migrationRequest => exact memOk_event (memOk_requestMove hm)
  case migrationContest => exact memOk_event (memOk_contest hm)
  case dataError => exact memOk_event (memOk_damage hm)
  case supplyLimit => exact memOk_event (memOk_foldl (fun _ _ hs => memOk_updCore hs) _ (memOk_hall _ hm))
  case resourceRemoval => exact memOk_event (memOk_remove hm)
  case gleipFlitRetry => exact memOk_event (memOk_retryFlit hm)
  case gleipPortDown => exact memOk_event (memOk_portDown hm)
  case abortToken => exact memOk_event (memOk_abortDie hm)
  case ucieModuleLoss => exact memOk_event (memOk_ite (memOk_post hm) hm)
  case hostAccess => exact memOk_event (memOk_hostOp hm)
  case getVersion | getCapabilities | negotiateAlgorithms | getDigests | getCertificate | challenge | getMeasurements
    | unsupportedRequest => exact memOk_event (memOk_answer hm)
  case engineCommandComplete => exact memOk_event (memOk_completeEngine hm)
  case collectiveStart => exact memOk_event (memOk_startGroup hm)
  case streamRunahead => exact memOk_event (memOk_updHart _ hm)
  case fetch => exact memOk_event (memOk_fetchAhead hm)
  case memoryAccessPerformed => exact memOk_event (memOk_performSome _ _ _ hm)
  case modulePowerRemoval => exact memOk_event (memOk_afterReset (s := s))
  case moduleReset => exact memOk_execModuleReset hm
  case registerWrite => exact memOk_execRegisterWrite hm
  case plateFill => exact memOk_execPlateFill hm
  case pageWalk => exact memOk_execPageWalk hm
  case translationUnitLower => exact memOk_execTranslationUnitLower hm
  case lwaitReturn => exact memOk_execLwaitReturn hm
  case mdasAssemble => exact memOk_execMdasAssemble hm
  case setrc => exact memOk_execSetrc hm
  case eret => exact memOk_execEret hm
  case dclean => exact memOk_execDclean hm
  case xcinv => exact memOk_execXcinv hm
  case ptsync => exact memOk_execPtsync hm
  case launch => exact memOk_execLaunch hm
  case fenceSv => exact memOk_execFenceSv hm
  case fenceVs => exact memOk_execFenceVs hm
  case fenceVv => exact memOk_execFenceVv hm
  case fenceAll => exact memOk_execFenceAll hm
  case larrive => exact memOk_execLarrive hm
  case lwait => exact memOk_execLwait hm
  case larriveScope => exact memOk_execLarriveScope hm
  case lwaitScope => exact memOk_execLwaitScope hm
  case retire => exact memOk_execRetire hm
  case twake => exact memOk_execTwake hm
  case tfill => exact memOk_execTfill hm
  case bkt => exact memOk_execBkt hm
  case aswap => exact memOk_execAswap hm
  case vget => exact memOk_execVget hm
  case fsbind => exact memOk_execFsbind hm
  case accwin => exact memOk_execAccwin hm
  case awacc => exact memOk_execAwacc hm
  case awrel => exact memOk_execAwrel hm
  case stpeek => exact memOk_execStpeek hm
  case stdrop => exact memOk_execStdrop hm
  case stcut => exact memOk_execStcut hm
  case stsync => exact memOk_execStsync hm
  case stpre => exact memOk_execStpre hm
  case tload => exact memOk_execTload hm
  case tmac => exact memOk_execTmac hm
  case tzero => exact memOk_execTzero hm
  case tdrain => exact memOk_execTdrain hm
  case cpy => exact memOk_execCpy hm
  case skipset => exact memOk_execSkipset hm
  case wver => exact memOk_execWver hm

theorem memOk_lateOutcome {s : State} {i : Instr} {o : Host.Outcome State Fault Refusal} (ho : NextMemOk o) :
    NextMemOk (s.lateOutcome i o) := by
  cases o with
  | next t => exact .next (memOk_lateAfter s i (ho t rfl))
  | fault f => exact .fault
  | refused r => exact fun _ ht => nomatch ht

theorem memOk_later {i : Instr} {f : State → Host.Outcome State Fault Refusal} (hf : i.later? = some f) {s : State} (hm : s.memOk) :
    NextMemOk (f s) := by
  unfold Instr.later? at hf
  split at hf
  · cases hf
    exact AtomForm.memOk_run hm
  · cases hf
    exact VamForm.memOk_run hm
  · cases hf
    exact memOk_merge hm
  · cases hf

theorem memOk_runInstr {s : State} (i : Instr) (hm : s.memOk) : NextMemOk (s.runInstr i) := by
  have hr : (s.readyFor i).memOk := memOk_readyFor hm
  obtain he | ⟨f, hf, he⟩ := State.runInstr_cases s i
  · rw [he]
    exact memOk_lateOutcome (memOk_exec i hr)
  · rw [he]
    exact memOk_lateOutcome (memOk_later hf hr)

theorem State.memOk_afterStop {s : State} {h : Hart} {i : Instr} {t : State} (hm : t.memOk) : (s.afterStop h i t).memOk := by
  obtain he | ⟨js, he⟩ := State.afterStop_cases s h i t
  · rw [he]
    exact hm
  · rw [he]
    exact memOk_updCore (memOk_runCycles _ _ (memOk_updCore hm))

theorem memOk_runFetched {s : State} {h : Hart} {i : Instr} (hm : s.memOk) : NextMemOk (s.runFetched h i) := by
  have hr := memOk_runInstr i hm
  unfold State.runFetched
  split
  next t ht => exact .next (memOk_afterStop (hr t ht))
  next => exact hr

theorem State.memOk_fetchWords_error {s : State} {h : Hart} {e : Exec} (he : s.fetchWords h = .error e) (hm : s.memOk) : e.state.memOk := by
  unfold State.fetchWords at he
  dsimp only at he
  split at he
  · cases he
    exact memOk_fetchFault hm
  next hw =>
    split at he
    · cases he
    split at he
    · cases he
      exact memOk_fetchFault (memOk_updHartAt _ _ (memOk_lower (memOk_fetchWord hw hm)))
    · cases he

theorem State.memOk_fetchInstr_error {s : State} {h : Hart} {e : Exec} (he : s.fetchInstr h = .error e) (hm : s.memOk) : e.state.memOk := by
  unfold State.fetchInstr at he
  split at he
  next hw =>
    cases he
    exact memOk_fetchWords_error hw hm
  next hw =>
    split at he
    · cases he
      exact (memOk_fetchWords hw hm :)
    · cases he

theorem memOk_stepHart {s : State} {h : Hart} (hm : s.memOk) : NextMemOk (stepHart s h) := by
  unfold stepHart
  split
  · exact memOk_exec _ hm
  split
  next he => exact .outcome _ (memOk_fetchInstr_error he hm)
  next hf => exact memOk_runFetched (memOk_fetchInstr hf hm)

/-- A step runs an event that is due, a core's turn, or a hart, each from a state with the memory of the state before. -/
theorem memOk_step {s : State} (hm : s.memOk) : NextMemOk (step s) := by
  unfold step
  dsimp only
  split
  · exact memOk_exec _ hm
  split
  · exact .fault
  split
  · exact memOk_exec _ hm
  split
  · split
    · exact memOk_exec _ hm
    · exact .next hm
  split
  · exact memOk_exec _ hm
  · exact memOk_stepHart hm

end Sys2Proof.Machine

namespace Sys2Proof.Proofs

open Sys2Proof Sys2Proof.Machine

/-- Settles O3: the memory of every state that a step answers is built by the operations above, each of which keeps it canonical. -/
theorem stepKeepsMemoryCanonical : Obligations.StepKeepsMemoryCanonical := by
  unfold Obligations.StepKeepsMemoryCanonical
  intro s t hs ht
  exact memOk_step hs t ht

end Sys2Proof.Proofs
end

section
/-! Scalar loads (R204 to R206, R208, R272, R395): where a load reads, what it meets, and what the constant path may give. -/

namespace Sys2Proof.Machine

open Sys2Proof

theorem signExtend_mul_ofNat {w : Nat} (a : BitVec w) (n : Nat) : a.signExtend 64 * BitVec.ofNat 64 n = BitVec.ofInt 64 (a.toInt * n) := by
  rw [BitVec.ofInt_mul, BitVec.ofInt_natCast]
  rfl

theorem scaledAddr_eq (h : Hart) (base : XReg) (off : BitVec 12) (n : Nat) :
    scaledAddr h base off n = h.getX base + BitVec.ofInt 64 (off.toInt * n) := by
  rw [scaledAddr, signExtend_mul_ofNat]

section
variable {s t : State} {h : Hart} {vec : Bool} {u : Use} {va : Word} {n : Nat}

theorem State.place_barred (hadm : ¬ u.admits (pathOf va) (h.priv != .u) = true) : s.place h u va n = .error 3 := by
  simp [State.place, hadm]

theorem State.load_error {f : Nat} (hp : s.place h u va n = .error f) : s.load h vec u va n = .error f := by simp only [State.load, hp]

theorem State.load_device {o : Nat} (hp : s.place h u va n = .ok (t, .dev o)) : s.load h vec u va n = .ok (t, t.devRead o n) := by
  simp only [State.load, hp]

variable {loc : Nat} (hp : s.place h u va n = .ok (t, .mem loc)) (hq : t.Quiet)
include hp

theorem State.load_constant (h3 : pathOf va = 3) (hb : poisoned t.poison loc n = false) : s.load h vec u va n =
    .ok (((t.gangOf h).map (fun g => t.constRead g (((t.launchAt g.launch).map (fun l => l.stamp)).getD 0) loc n)).getD
      (t, peek t.mem loc n)) := by
  simp only [State.load, hp, h3, if_true, hb, Bool.false_eq_true, if_false]
  cases t.gangOf h <;> rfl

include hq

theorem State.load_poisoned (hb : poisoned t.poison loc n = true) : s.load h vec u va n = .error 5 := by
  by_cases h3 : pathOf va = 3
  · simp only [State.load, hp, h3, if_true, hb]
  · simp only [State.load, hp, h3, State.reach_quiet hq.1, State.settle_quiet hq.2, State.performAll_quiet hq.2, ite_self, hb, if_true]

end

/-! A read through the constant path: the lines that it fills are noted, and every byte is one that the path allows (R206, R272). -/

theorem State.constLine_state (s : State) (core launch since line : Nat) :
    (s.constLine core launch since line).1 = { s with consts := (s.constLine core launch since line).1.consts } := by
  unfold State.constLine
  dsimp only
  split <;> rfl

theorem le_foldl_max {α : Type} (f : α → Nat) : ∀ (l : List α) (m : Nat), m ≤ l.foldl (fun m c => max m (f c)) m
  | [], _ => Nat.le_refl _
  | c :: l, m => Nat.le_trans (Nat.le_max_left _ _) (le_foldl_max f l (max m (f c)))

/-- A line is read as it stood at a moment no earlier than the given one. -/
theorem State.since_le_constLine (s : State) (core launch since line : Nat) : since ≤ (s.constLine core launch since line).2 := by
  unfold State.constLine
  extract_lets old lo
  have hlo : since ≤ lo := le_foldl_max _ old since
  split
  · exact Nat.le_add_right_of_le hlo
  · exact hlo

/-- A byte at a moment since the launch is one of those that the constant path may return. -/
theorem State.byteAt_mem_constValues (s : State) {stamp moment : Nat} (hle : stamp ≤ moment) (loc : Nat) :
    s.byteAt moment loc ∈ s.constValues stamp loc := by
  unfold State.byteAt State.constValues
  cases hl : (s.history.filter (fun x => decide (x.1 = loc) && decide (moment ≤ x.2.2))).getLast? with
  | none => exact List.mem_cons_self
  | some x =>
    obtain ⟨hx, hc⟩ := List.mem_filter.mp (List.mem_of_getLast? hl)
    simp only [Bool.and_eq_true, decide_eq_true_eq] at hc
    refine List.mem_cons_of_mem _ (List.mem_map.mpr ⟨x, List.mem_filter.mpr ⟨hx, ?_⟩, rfl⟩)
    simp only [Bool.and_eq_true, decide_eq_true_eq]
    exact ⟨hc.1, Nat.le_trans hle hc.2⟩

/-- What reading bytes of the constant path from one state on gives: a state that differs in the lines noted, and as many bytes as the
locations, each allowed. -/
def ConstBytes (s : State) (stamp : Nat) (locs : List Nat) (r : State × List Byte) : Prop :=
  r.1 = { s with consts := r.1.consts } ∧ List.Forall₂ (fun loc b => b ∈ s.constValues stamp loc) locs r.2

/-- The locations that a read of n bytes takes from a line. -/
def lineLocs (loc n line : Nat) : List Nat :=
  List.range' (max loc (128 * line)) (min (loc + n) (128 * line + 128) - max loc (128 * line))

/-- Lines one after the other hold the locations one after the other. -/
theorem flatMap_lineLocs {loc n : Nat} (c : Nat) : ∀ a : Nat, loc / 128 ≤ a → loc + n ≤ 128 * (a + c) →
    (List.range' a c).flatMap (lineLocs loc n) = List.range' (max loc (128 * a)) (loc + n - max loc (128 * a)) := by
  induction c with
  | zero =>
    intro a _ hn
    have : loc + n - max loc (128 * a) = 0 := by omega
    rw [this]
    rfl
  | succ c ih =>
    intro a ha hn
    rw [List.range'_succ, List.flatMap_cons, ih (a + 1) (by omega) (by omega), lineLocs]
    have hnext : max loc (128 * (a + 1)) = 128 * a + 128 := by omega
    rw [hnext]
    by_cases hlt : loc + n ≤ 128 * a + 128
    · have h0 : loc + n - (128 * a + 128) = 0 := by omega
      rw [h0, Nat.min_eq_left hlt, List.range'_zero, List.append_nil]
    · have hmin : min (loc + n) (128 * a + 128) = 128 * a + 128 := by omega
      have hlen : loc + n - max loc (128 * a) = 128 * a + 128 - max loc (128 * a) + (loc + n - (128 * a + 128)) := by omega
      have hstart : 128 * a + 128 = max loc (128 * a) + (128 * a + 128 - max loc (128 * a)) := by omega
      rw [hmin, hlen, ← List.range'_append_1, ← hstart]

/-- The step of a read of the constant path for one line. -/
def State.constStep (g : Gang) (stamp loc n : Nat) (a : State × List Byte) (line : Nat) : State × List Byte :=
  let r := a.1.constLine g.core g.launch (max stamp g.since) line
  (r.1, a.2 ++ (lineLocs loc n line).map (r.1.byteAt r.2))

theorem State.constRead_eq (s : State) (g : Gang) (stamp loc n : Nat) : s.constRead g stamp loc n =
    (List.range' (loc / 128) ((loc + n + 127) / 128 - loc / 128)).foldl (State.constStep g stamp loc n) (s, []) := rfl

theorem ConstBytes.step {s : State} {stamp : Nat} {locs : List Nat} {a : State × List Byte} (ha : ConstBytes s stamp locs a) (g : Gang)
    (loc n line : Nat) : ConstBytes s stamp (locs ++ lineLocs loc n line) (State.constStep g stamp loc n a line) := by
  obtain ⟨hs, hb⟩ := ha
  have hline : (State.constStep g stamp loc n a line).1 = { s with consts := (State.constStep g stamp loc n a line).1.consts } :=
    (State.constLine_state _ _ _ _ _).trans (congrArg (fun u : State => { u with consts := (State.constStep g stamp loc n a line).1.consts }) hs)
  refine ⟨hline, List.rel_append hb (List.forall₂_map_right_iff.mpr (List.forall₂_same.mpr fun x _ => ?_))⟩
  have hsame : (State.constStep g stamp loc n a line).1.constValues stamp x = s.constValues stamp x := by
    rw [hline]
    rfl
  rw [← hsame]
  exact State.byteAt_mem_constValues _ (Nat.le_trans (Nat.le_max_left stamp g.since) (State.since_le_constLine _ _ _ _ _)) x

theorem ConstBytes.foldl {s : State} {stamp : Nat} (g : Gang) (loc n : Nat) : ∀ (lines : List Nat) {locs : List Nat} {a : State × List Byte},
    ConstBytes s stamp locs a →
      ConstBytes s stamp (locs ++ lines.flatMap (lineLocs loc n)) (lines.foldl (State.constStep g stamp loc n) a)
  | [], _, _, ha => by rwa [List.flatMap_nil, List.append_nil]
  | line :: lines, _, _, ha => by
    rw [List.flatMap_cons, ← List.append_assoc]
    exact ConstBytes.foldl g loc n lines (ha.step g loc n line)

theorem ConstBytes.constRead (s : State) (g : Gang) (stamp loc n : Nat) :
    ConstBytes s stamp (List.range' loc n) (s.constRead g stamp loc n) := by
  have hlocs : (List.range' (loc / 128) ((loc + n + 127) / 128 - loc / 128)).flatMap (lineLocs loc n) = List.range' loc n := by
    rw [flatMap_lineLocs _ _ (Nat.le_refl _) (by omega)]
    congr 1 <;> omega
  rw [State.constRead_eq, ← hlocs]
  exact ConstBytes.foldl g loc n _ (locs := []) ⟨rfl, .nil⟩

theorem ConstBytes.present (s : State) (stamp loc n : Nat) : ConstBytes s stamp (List.range' loc n) (s, peek s.mem loc n) := by
  refine ⟨rfl, ?_⟩
  have hlocs : List.range' loc n = (List.range n).map (fun i => loc + i) := by simp [List.range_eq_range', List.map_add_range']
  rw [hlocs, peek, List.forall₂_map_left_iff, List.forall₂_map_right_iff, List.forall₂_same]
  exact fun i _ => List.mem_cons_self

theorem ConstBytes.getD {s : State} {stamp loc n : Nat} {r : State × List Byte} (hr : ConstBytes s stamp (List.range' loc n) r) :
    r.2.length = n ∧ ∀ k, k < n → r.2.getD k 0 ∈ s.constValues stamp (loc + k) := by
  have hlen : r.2.length = n := hr.2.length_eq.symm.trans List.length_range'
  refine ⟨hlen, fun k hk => ?_⟩
  have hget := hr.2.get (i := k) (by rwa [List.length_range']) (by rwa [hlen])
  rw [List.getD_eq_getElem _ _ (hlen.symm ▸ hk)]
  simpa using hget

/-- A load through the constant path, not poisoned: it notes the lines read, and gives bytes that the path allows (R206, R272). -/
theorem State.load_constant_bytes {s t : State} {h : Hart} {vec : Bool} {u : Use} {va : Word} {n loc : Nat}
    (hp : s.place h u va n = .ok (t, .mem loc)) (h3 : pathOf va = 3) (hb : poisoned t.poison loc n = false) :
    ∃ r, s.load h vec u va n = .ok r ∧ ConstBytes t (((t.launchOf h).map (fun l => l.stamp)).getD 0) (List.range' loc n) r := by
  refine ⟨_, State.load_constant hp h3 hb, ?_⟩
  unfold State.launchOf
  cases t.gangOf h with
  | none => exact ConstBytes.present t _ loc n
  | some g => exact ConstBytes.constRead t g _ loc n

/-- The value that a scalar load of n bytes writes (R208). -/
def loadValue (n : Nat) (signed : Bool) (v : Nat) : Word := if signed then BitVec.ofInt 64 (sext v (8 * n)) else BitVec.ofNat 64 v

section
variable {s : State} {h : Hart} (hs : s.hart? = some h) (n : Nat) (signed : Bool) (rd base : XReg) (off : BitVec 12)
include hs

theorem scalarLoad_misaligned (hadm : Use.scalarLoad.admits (pathOf (scaledAddr h base off n)) (h.priv != .u) = true)
    (hmis : (scaledAddr h base off n).toNat % n ≠ 0) :
    scalarLoad n signed rd base off s = .next (s.takeTrap { code := 0x3014, tva := scaledAddr h base off n }) := by
  have hm : misaligned h .scalarLoad (scaledAddr h base off n) n = true := by simp [misaligned, hadm, hmis]
  rw [scalarLoad, onHart_eq hs]
  dsimp only
  rw [if_pos hm]
  rfl

theorem scalarLoad_error {f : Nat} (hm : misaligned h .scalarLoad (scaledAddr h base off n) n = false)
    (hl : s.load h false .scalarLoad (scaledAddr h base off n) n = .error f) :
    scalarLoad n signed rd base off s = (s.memTrap h 1 f (scaledAddr h base off n) 0 none none n).outcome 4 := by
  rw [scalarLoad, onHart_eq hs]
  dsimp only
  rw [if_neg (Bool.eq_false_iff.mp hm), hl]
  rfl

theorem scalarLoad_ok {t : State} {bs : List Byte} (hm : misaligned h .scalarLoad (scaledAddr h base off n) n = false)
    (hl : s.load h false .scalarLoad (scaledAddr h base off n) n = .ok (t, bs)) :
    scalarLoad n signed rd base off s = .next (t.did (fun g => g.setX rd (loadValue n signed (leNat bs))) 4) := by
  rw [scalarLoad, onHart_eq hs]
  dsimp only
  rw [if_neg (Bool.eq_false_iff.mp hm), hl]
  simp only [word_eq_ofInt]
  rfl

end

end Sys2Proof.Machine

namespace Sys2Proof.Proofs

open Sys2Proof Sys2Proof.Machine

/-- Settles O29: every form is one load, whose outcome is by its address and then by its place. -/
theorem scalarLoads : Obligations.ScalarLoads := by
  unfold Obligations.ScalarLoads
  intro s h rd base off hs r
  have hr {i : Instr} {n : Nat} {signed : Bool} (hi : exec i s = scalarLoad n signed rd base off s) : r i n signed := by
    dsimp only [r]
    rw [hi, ← scaledAddr_eq]
    refine ⟨fun hadm hmis => scalarLoad_misaligned hs n signed rd base off hadm hmis, fun hadm => ?_, fun hadm hal => ?_⟩
    · have hm : misaligned h .scalarLoad (scaledAddr h base off n) n = false := by simp [misaligned, hadm]
      exact scalarLoad_error hs n signed rd base off hm (State.load_error (State.place_barred hadm))
    have hm : misaligned h .scalarLoad (scaledAddr h base off n) n = false := by simp [misaligned, hal]
    have hok {u : State} {bs : List Byte} (hl : s.load h false .scalarLoad (scaledAddr h base off n) n = .ok (u, bs)) :=
      scalarLoad_ok hs n signed rd base off hm hl
    have herror {f : Nat} (hl : s.load h false .scalarLoad (scaledAddr h base off n) n = .error f) :=
      scalarLoad_error hs n signed rd base off hm hl
    refine ⟨fun f hp => herror (State.load_error hp), fun t o hp => hok (State.load_device hp), 
      fun t loc hp hq => ⟨fun hb => ?_, fun hb h3 => ?_, fun hb h3 => ?_⟩⟩
    · exact herror (State.load_poisoned hp hq hb)
    · exact hok (State.load_quiet hp hq h3 hb)
    · obtain ⟨⟨u, bs⟩, hl, hc⟩ := State.load_constant_bytes (vec := false) hp h3 hb
      obtain ⟨hlen, hbytes⟩ := hc.getD
      exact ⟨u, bs, hlen, hc.1, hbytes, hok hl⟩
  exact ⟨hr rfl, hr rfl, hr rfl, hr rfl, hr rfl, hr rfl, hr rfl, hr rfl⟩

end Sys2Proof.Proofs
end

section
/-! Scalar stores (R204, R205, R208, R290, R335, R395): a store becomes outstanding, and is performed where its bytes go. -/

namespace Sys2Proof.Machine

open Sys2Proof

@[simp] theorem length_leBytes (n : Nat) : ∀ v : Nat, (leBytes n v).length = n := by
  induction n with
  | zero => exact fun _ => rfl
  | succ n ih => exact fun v => congrArg (· + 1) (ih (v / 256))

theorem getElem?_leBytes (n : Nat) : ∀ (v : Nat) {k : Nat}, k < n → (leBytes n v)[k]? = some (BitVec.ofNat 8 (v / 2 ^ (8 * k))) := by
  induction n with
  | zero => exact fun _ _ hk => absurd hk (Nat.not_lt_zero _)
  | succ n ih =>
    intro v k hk
    cases k with
    | zero => simp [leBytes]
    | succ k =>
      rw [leBytes, List.getElem?_cons_succ, ih (v / 256) (by omega), Nat.div_div_eq_div_mul, Nat.mul_succ, Nat.pow_add, Nat.mul_comm]

theorem extractLsb'_eq_ofNat {w : Nat} (v : BitVec w) (k n : Nat) : v.extractLsb' k n = BitVec.ofNat n (v.toNat / 2 ^ k) := by
  rw [BitVec.extractLsb', Nat.shiftRight_eq_div_pow]

/-- A byte of memory after a store: a location that the store does not reach keeps its byte. -/
theorem State.byte_poke_outside (s : State) {a : Nat} {bs : List Byte} {b : Nat} (hb : b < a ∨ a + bs.length ≤ b) :
    (s.poke a bs).byte b = s.byte b := by
  rw [State.byte_poke]
  split
  · rw [List.getElem?_eq_none (by omega)]
    rfl
  · rfl

theorem State.byte_poke_inside (s : State) {a : Nat} {bs : List Byte} {k : Nat} {b : Byte} (hk : bs[k]? = some b) :
    (s.poke a bs).byte (a + k) = b := by
  rw [State.byte_poke, if_pos (Nat.le_add_right _ _), Nat.add_sub_cancel_left, hk]
  rfl

/-- A hart with one more store outstanding. -/
def Hart.addStore (g : Hart) (x : Pending) : Hart := { g with pending := g.pending ++ [x] }

section
variable {s : State} {hid : Nat} {h : Hart} {x : Pending} (hs : s.hartAt hid = some h)
include hs

/-- A store of a hart that has none outstanding becomes its only one (R290). -/
theorem State.leave_first (hp : h.pending = []) (x : Pending) :
    s.leave hid x = s.updHartAt hid (fun g => g.addStore x) := by
  have hu := State.hartAt_updHartAt hs (f := fun g => g.addStore x) rfl
  have hlimit : ¬ pendingLimit < (h.addStore x).pending.length := by
    rw [Hart.addStore, hp]
    exact show ¬ pendingLimit < 1 by decide
  change (match (s.updHartAt hid (fun g => g.addStore x)).hartAt hid with | none => _ | some g => ite _ _ _ : State) = _
  rw [hu]
  exact if_neg hlimit

/-- Performing the only outstanding store of a hart puts its bytes at their place. -/
theorem State.byte_drain_only (hp : h.pending = [x]) (hr : x.rmw = none) (b : Nat) : (s.drain hid).byte b = (s.poke x.loc x.bytes).byte b := by
  simp [State.drain, State.performAll, State.performSome, State.outstanding, hs, hp, choose, withOlder, State.perform, hr]
  rfl

end

section
variable {s t : State} {h : Hart} {vec : Bool} {u : Use} {va : Word} {bs : List Byte}

theorem State.save_error {f : Nat} (hp : s.place h u va bs.length = .error f) : s.save h vec u va bs = .error f := by
  simp only [State.save, hp]

theorem State.save_device {o : Nat} (hp : s.place h u va bs.length = .ok (t, .dev o)) : s.save h vec u va bs = .ok t := by
  simp only [State.save, hp]

theorem State.save_quiet {loc : Nat} (hp : s.place h u va bs.length = .ok (t, .mem loc)) (hq : t.engines = []) :
    s.save h vec u va bs = .ok (t.store h.hid vec loc bs) := by
  simp only [State.save, hp, State.reach_quiet hq]

end

section
variable {s t : State} {h : Hart} (hs : s.hart? = some h) (n : Nat) (rd base : XReg) (off : BitVec 12)
include hs

theorem scalarStore_misaligned (hadm : Use.scalarStore.admits (pathOf (scaledAddr h base off n)) (h.priv != .u) = true)
    (hmis : (scaledAddr h base off n).toNat % n ≠ 0) :
    scalarStore n rd base off s = .next (s.takeTrap { code := 0x3024, tva := scaledAddr h base off n }) := by
  have hm : misaligned h .scalarStore (scaledAddr h base off n) n = true := by simp [misaligned, hadm, hmis]
  rw [scalarStore, onHart_eq hs]
  dsimp only
  rw [if_pos hm]
  rfl

variable (hm : misaligned h .scalarStore (scaledAddr h base off n) n = false)
include hm

theorem scalarStore_error {f : Nat} (hl : s.save h false .scalarStore (scaledAddr h base off n) (leBytes n (h.getX rd).toNat) = .error f) :
    scalarStore n rd base off s = (s.memTrap h 2 f (scaledAddr h base off n) 0 none none n).outcome 4 := by
  rw [scalarStore, onHart_eq hs]
  dsimp only
  rw [if_neg (Bool.eq_false_iff.mp hm), hl]
  rfl

theorem scalarStore_ok (hl : s.save h false .scalarStore (scaledAddr h base off n) (leBytes n (h.getX rd).toNat) = .ok t) :
    scalarStore n rd base off s = .next (t.stepOver 4) := by
  rw [scalarStore, onHart_eq hs]
  dsimp only
  rw [if_neg (Bool.eq_false_iff.mp hm), hl]
  rfl

end

/-- A hart that commits with a store that it has added to none is the hart but for its program counter, SWI and RPTCNT. -/
theorem Hart.keepsButX_commit_addStore {h : Hart} (hp : h.pending = []) (x : Pending) (pc : Word) :
    h.KeepsButX { (h.addStore x).commit pc with pending := [] } := by
  refine ⟨?_, fun n hn => Hart.getCsr_commit (g := h.addStore x) hn pc⟩
  rw [Hart.commit_eq]
  simp only [Hart.addStore, hp]

/-- A store that a quiet hart leaves behind it as it commits: its only outstanding one, and what performing it does (R205, R290). -/
theorem State.stepOver_store {t : State} {h : Hart} (ht : t.hart? = some h) (hp : h.pending = []) (loc : Nat) (bs : List Byte) (len : Nat) :
    ∃ g, ((t.store h.hid false loc bs).stepOver len).hart? = some g ∧ t.OnlyHart ((t.store h.hid false loc bs).stepOver len) ∧
      h.KeepsButX { g with pending := [] } ∧ g.x = h.x ∧ g.pending = [{ vec := false, loc := loc, bytes := bs }] ∧
      ∀ b, (((t.store h.hid false loc bs).stepOver len).drain t.cur).byte b = (t.poke loc bs).byte b := by
  have hid : h.hid = t.cur := State.hid_of_hart? ht
  have hstore : t.store h.hid false loc bs = t.updHart (fun g => g.addStore { vec := false, loc := loc, bytes := bs }) := by
    rw [State.store, State.leave_first (hid ▸ ht) hp, hid]
    rfl
  have hu := State.hart?_updHart ht (f := fun g => g.addStore { vec := false, loc := loc, bytes := bs }) rfl
  have hstep := State.hart?_updHart hu (f := fun g => g.commit (g.pc + BitVec.ofNat 64 len)) (Hart.commit_hid _ _)
  have hpend : (h.addStore { vec := false, loc := loc, bytes := bs }).pending = [{ vec := false, loc := loc, bytes := bs }] := by
    rw [Hart.addStore, hp]
    rfl
  rw [hstore]
  refine ⟨_, hstep, (State.onlyHart_updHart t (f := fun g => g.addStore { vec := false, loc := loc, bytes := bs }) fun _ hg => hg).trans
    (State.onlyHart_updHart _ fun g hg => (Hart.commit_hid g _).trans hg), Hart.keepsButX_commit_addStore hp _ _, Hart.commit_x _ _,
    (Hart.commit_pending _ _).trans hpend, fun b => ?_⟩
  exact (State.byte_drain_only hstep ((Hart.commit_pending _ _).trans hpend) rfl b).trans (by simp only [State.byte_poke]; rfl)

end Sys2Proof.Machine

namespace Sys2Proof.Proofs

open Sys2Proof Sys2Proof.Machine

/-- Settles O30: every form is one store, whose outcome is by its address and then by its place. -/
theorem scalarStores : Obligations.ScalarStores := by
  unfold Obligations.ScalarStores
  intro s h rd base off hs r
  have hr {i : Instr} {n : Nat} (hi : exec i s = scalarStore n rd base off s) : r i n := by
    dsimp only [r]
    rw [hi, ← scaledAddr_eq]
    have hlen : (leBytes n (h.getX rd).toNat).length = n := length_leBytes n _
    refine ⟨fun hadm hmis => scalarStore_misaligned hs n rd base off hadm hmis, fun hadm => ?_, fun hadm hal => ?_⟩
    · have hm : misaligned h .scalarStore (scaledAddr h base off n) n = false := by simp [misaligned, hadm]
      exact scalarStore_error hs n rd base off hm (State.save_error (State.place_barred hadm))
    have hm : misaligned h .scalarStore (scaledAddr h base off n) n = false := by simp [misaligned, hal]
    refine ⟨fun f hp => scalarStore_error hs n rd base off hm (State.save_error (by rwa [hlen])),
      fun t o hp => scalarStore_ok hs n rd base off hm (State.save_device (o := o) (by rwa [hlen])), fun t loc hp hq ht => ?_⟩
    obtain ⟨g, hg, honly, hkeep, hx, hpend, hbyte⟩ :=
      State.stepOver_store ht (hq.2 h (List.mem_of_find?_eq_some ht)) loc (leBytes n (h.getX rd).toNat) 4
    have hcur : s.cur = t.cur := (State.hid_of_hart? hs).symm.trans (State.hid_of_hart? ht)
    refine ⟨_, g, scalarStore_ok hs n rd base off hm (State.save_quiet (by rwa [hlen]) hq.1), hg, honly, hkeep, hx, hpend, fun a ha => ?_, fun k hk => ?_⟩
    · rw [hcur, hbyte, State.byte_poke_outside t (hlen.symm ▸ ha)]
    · rw [hcur, hbyte, State.byte_poke_inside t (getElem?_leBytes n _ hk), extractLsb'_eq_ofNat]
  exact ⟨hr rfl, hr rfl, hr rfl, hr rfl⟩

end Sys2Proof.Proofs
end

section
/-! Vector loads (R210 to R212, R216 to R218, R399, R407): past the checks, an instruction is what its loop over the elements comes to. -/

namespace Sys2Proof.Machine

open Sys2Proof

/-- A vector load or store is one instruction of the shared form (R210). -/
theorem exec_memForm? {i : Instr} {len : Nat} {form : Hart → MemForm} (hi : i.memForm? = some (len, form)) (s : State) :
    exec i s = onHart len s (MemForm.run form s) := by
  cases i <;> cases hi <;> rfl

theorem Vec.fedStop_ready {v : Vec} {h : Hart} {f : Fed} (hf : f.stop = none) (s : State) : v.fedStop h f none s = none := by
  simp only [Vec.fedStop, hf]

section
variable {s : State} {h : Hart} (hs : s.hart? = some h) {i : Instr} {len : Nat} {form : Hart → MemForm} (hi : i.memForm? = some (len, form))
include hs hi

theorem exec_memForm?_fault {t : TrapRec} (ht : ((form h).vec h).fault? h = some t) :
    exec i s = .next (((form h).vec h).trapped h s t) := by
  rw [exec_memForm? hi, onHart_eq hs, MemForm.run, Vec.start_unlinked rfl, Vec.check_fault (v := fun h => (form h).vec h) ht]
  rfl

variable (hr : ((form h).vec h).Ready s h)
include hr

/-- A load past its checks. -/
theorem exec_load_ready (hl : (form h).load = true) : exec i s =
    (((form h).runLoad ((form h).vec h) h (((form h).vec h).feed s h)).settle
      (fun stops u => u.dispatchVec h ((form h).vec h) stops)).outcome len := by
  rw [exec_memForm? hi, onHart_eq hs, MemForm.run, Vec.start_unlinked rfl, Vec.check_ready (v := fun h => (form h).vec h) hr, if_pos hl]

/-- A store past its checks. -/
theorem exec_store_ready (hl : (form h).load = false) : exec i s =
    (((form h).runStore ((form h).vec h) h (((form h).vec h).feed s h)).settle
      (fun stops u => u.dispatchVec h ((form h).vec h) stops)).outcome len := by
  rw [exec_memForm? hi, onHart_eq hs, MemForm.run, Vec.start_unlinked rfl, Vec.check_ready (v := fun h => (form h).vec h) hr, if_neg (Bool.eq_false_iff.mp hl)]

end

section
variable {m : MemForm} {v : Vec} {h : Hart} {f : Fed} {q : Flags × Option (Nat × Nat)} {r : Loaded}
  (hq : f.sum h.fen (v.todo h f) 0 = q) (hflag : q.2 = none)
  (hr : m.loadEls h (h.apt m.ap).ty (fun i n => m.addr f.h (i / h.vl) (i % h.vl) n) (v.todo h f) f.s f.blocks = r)
include hq hflag hr

/-- A load none of whose elements faults writes each to its place. -/
theorem MemForm.runLoad_complete (hf : f.stop = none) (hstop : r.stop = none) :
    m.runLoad v h f = .done (r.s.setHart ((m.deliver h r.els f.h).orFlags q.1)) := by
  subst hq
  rw [MemForm.runLoad]
  simp only [hflag, cutAt, hr, hstop, Vec.fedStop_ready hf, Option.getD_none]

variable {e : ElFault} (hstop : r.stop = some e) (he : e.miss.f ≠ notReady)
include hstop he

/-- A load whose first active element faults takes the memory fault. -/
theorem MemForm.runLoad_first (hels : r.els = []) : m.runLoad v h f = m.elTrap v r.s h f.h 1 e := by
  subst hq
  rw [MemForm.runLoad]
  simp only [hflag, cutAt, hr, hstop, he, if_false, hels, List.isEmpty_nil, if_true]

/-- A load that faults later in row 0 completes short of the faulting element. -/
theorem MemForm.runLoad_short (hels : r.els ≠ []) (hrow : e.i < h.vl) :
    m.runLoad v h f = .done (r.s.setHart { (m.deliver h r.els f.h).orFlags q.1 with vl := e.i, rc := 1 }) := by
  subst hq
  rw [MemForm.runLoad]
  simp only [hflag, cutAt, hr, hstop, he, if_false, List.isEmpty_iff, hels, hrow, if_true]

/-- A load that faults below row 0 completes short of the faulting row. -/
theorem MemForm.runLoad_shortRows (hels : r.els ≠ []) (hrow : h.vl ≤ e.i) :
    m.runLoad v h f = .done (r.s.setHart
      { (m.deliver h (r.els.filter (fun x => decide (x.1 < e.i / h.vl * h.vl))) f.h).orFlags q.1 with rc := e.i / h.vl }) := by
  subst hq
  rw [MemForm.runLoad]
  simp only [hflag, cutAt, hr, hstop, he, if_false, List.isEmpty_iff, hels, Nat.not_lt.mpr hrow]

end

end Sys2Proof.Machine

namespace Sys2Proof.Proofs

open Sys2Proof Sys2Proof.Machine

/-- Settles O32: each check that fails is its trap, and a load past them by the first of its elements that faults. -/
theorem vectorLoads : Obligations.VectorLoads := by
  unfold Obligations.VectorLoads
  intro s h i len form hs hi hload m v f q r out
  refine ⟨fun t ht => exec_memForm?_fault hs hi ht, fun hr hflag => ?_⟩
  have hexec := exec_load_ready hs hi hr hload
  refine ⟨fun hstop => ?_, fun e hstop he => ⟨fun hels => ?_, fun hels hrow => ?_, fun hels hrow => ?_⟩⟩
  · rw [hexec, MemForm.runLoad_complete rfl hflag rfl hr.streams hstop]
    rfl
  · rw [hexec, MemForm.runLoad_first rfl hflag rfl hstop he hels]
    rfl
  · rw [hexec, MemForm.runLoad_short rfl hflag rfl hstop he hels hrow]
    rfl
  · rw [hexec, MemForm.runLoad_shortRows rfl hflag rfl hstop he hels hrow]
    rfl

end Sys2Proof.Proofs
end

section
/-! Finder streams and position translation (R222 to R226, R404, R407). -/

namespace Sys2Proof.Machine

open Sys2Proof

/-! ### fsbind -/

section
variable {s : State} {h : Hart} (hs : s.hart? = some h) (fs : BitVec 4) {ra : XReg}
include hs

theorem exec_fsbind_misaligned (hal : (h.getX ra).toNat % 32 ≠ 0) :
    exec (.fsbind fs ra) s = .next (s.takeTrap { code := 0x1143 }) := by
  change onHart 8 s _ = _
  rw [onHart_eq hs]
  dsimp only
  rw [if_pos hal]
  rfl

variable {t : State} {r : List Byte} (hal : (h.getX ra).toNat % 32 = 0) (hl : s.loadRecord h (h.getX ra) 32 = .ok (t, r))
include hal hl

theorem exec_fsbind_loaded : exec (.fsbind fs ra) s = (if badRecord r then Exec.trap t (illegalUse 0x43)
    else .done ((t.holdAhead h (Stream.ofRecord r)).updHart (fun h =>
      { h with streams := put h.streams fs.toNat (some (Stream.ofRecord r)) }))).outcome 8 := by
  change onHart 8 s _ = _
  rw [onHart_eq hs]
  dsimp only
  rw [if_neg (not_not.mpr hal), hl]

theorem exec_fsbind_bad (hb : badRecord r = true) : exec (.fsbind fs ra) s = .next (t.takeTrap { code := 0x1143 }) := by
  rw [exec_fsbind_loaded hs fs hal hl, if_pos hb]
  rfl

theorem exec_fsbind_binds (hb : badRecord r = false) : exec (.fsbind fs ra) s =
    .next ((t.holdAhead h (Stream.ofRecord r)).did (fun g => { g with streams := put g.streams fs.toNat (some (Stream.ofRecord r)) }) 8) := by
  rw [exec_fsbind_loaded hs fs hal hl, if_neg (Bool.eq_false_iff.mp hb)]
  rfl

end

/-! ### vxlat and vxlat.ff -/

/-- A position below 0 or at or past the end of the table has no block. -/
theorem State.xlatEl_outside (s : State) (h : Hart) {x : Xlat} {p : Int} (hp : p < 0 ∨ x.nb * 2 ^ x.bsh ≤ p) :
    s.xlatEl h x p = .ok (s, none) := by
  have hout : p < 0 ∨ (x.nb : Int) ≤ p / (2 ^ x.bsh : Nat) := by
    refine hp.imp_right fun hle => (Int.le_ediv_iff_mul_le (by positivity)).mpr ?_
    push_cast
    exact hle
  rw [State.xlatEl]
  exact if_pos hout

section
variable {ff : Bool} {kd : KReg} {apd apa : Ap} {xt xp : XReg} {v : Vec} {h : Hart} {f : Fed} {q : Flags × Option (Nat × Nat)}
  {out : State × Hart × XlatEnd} (hq : f.sum h.fen (v.todo h f) 0 = q) (hflag : q.2 = none)
  (hout : xlatEls ⟨h.getX xt, bits (h.getX xp).toNat 31 0, bits (h.getX xp).toNat 36 32, bits (h.getX xp).toNat 44 40⟩ ff kd
    (h.apt apd) (h.apt apa) f.h true (v.todo h f) f.s f.h = out)
include hq hflag hout

/-- A translation none of whose positions is bad where that matters, and none of whose reads faults. -/
theorem xlatRun_all (hf : f.stop = none) (he : out.2.2 = .all) :
    xlatRun ff kd apd apa xt xp v h f = .done (out.1.setHart (out.2.1.orFlags q.1)) := by
  obtain ⟨s, g, e⟩ := out
  cases he
  subst hq
  simp only [xlatRun, hflag, cutAt, hout, Vec.fedStop_ready hf, Option.getD_none]

theorem xlatRun_bad {e : Nat} (he : out.2.2 = .bad e) :
    xlatRun ff kd apd apa xt xp v h f = .done (out.1.setHart { out.2.1.orFlags q.1 with vl := e }) := by
  obtain ⟨s, g, x⟩ := out
  cases he
  subst hq
  simp only [xlatRun, hflag, cutAt, hout]

variable {e c : Nat} {va : Word} (hc : c ≠ notReady)
include hc

theorem xlatRun_first (he : out.2.2 = .fault e true c va) : xlatRun ff kd apd apa xt xp v h f =
    out.1.missTrap h 1 ⟨c, va, 4, false⟩ (if v.isWhole h then 0 else e) (some apd.toNat) (some ((h.apt apd).cell h.bh 0 e)) := by
  obtain ⟨s, g, x⟩ := out
  cases he
  subst hq
  simp only [xlatRun, hflag, cutAt, hout, hc, if_false, if_true]

theorem xlatRun_later (he : out.2.2 = .fault e false c va) :
    xlatRun ff kd apd apa xt xp v h f = .done (out.1.setHart { out.2.1.orFlags q.1 with vl := e, rc := 1 }) := by
  obtain ⟨s, g, x⟩ := out
  cases he
  subst hq
  simp only [xlatRun, hflag, cutAt, hout, hc, Bool.false_eq_true, if_false]

end

section
variable {s : State} {h : Hart} (hs : s.hart? = some h) (ff : Bool) {kg kd : KReg} {ks : Bool} {apd apa : Ap} {xt xp : XReg}
include hs

theorem xlat_fault {t : TrapRec} (ht : (xlatVec ⟨kg.toNat, ks⟩ kd apd apa xt xp h).fault? h = some t) :
    xlat ff kg ks kd apd apa xt xp s = .next ((xlatVec ⟨kg.toNat, ks⟩ kd apd apa xt xp h).trapped h s t) := by
  rw [xlat, onHart_eq hs, Vec.start_unlinked rfl, Vec.check_fault ht]
  rfl

theorem xlat_ready (hr : (xlatVec ⟨kg.toNat, ks⟩ kd apd apa xt xp h).Ready s h) : xlat ff kg ks kd apd apa xt xp s =
    ((xlatRun ff kd apd apa xt xp (xlatVec ⟨kg.toNat, ks⟩ kd apd apa xt xp h) h ((xlatVec ⟨kg.toNat, ks⟩ kd apd apa xt xp h).feed s h)).settle
      (fun stops u => u.dispatchVec h (xlatVec ⟨kg.toNat, ks⟩ kd apd apa xt xp h) stops)).outcome 8 := by
  rw [xlat, onHart_eq hs, Vec.start_unlinked rfl, Vec.check_ready hr]

end

end Sys2Proof.Machine

namespace Sys2Proof.Proofs

open Sys2Proof Sys2Proof.Machine

/-- Settles O35: the stream instructions by the record and the binding, the translations by what their loop over the positions comes to. -/
theorem streamsAndTranslation : Obligations.StreamsAndTranslation := by
  unfold Obligations.StreamsAndTranslation
  intro s h rd ra fs hs va
  refine ⟨exec_fsbind_misaligned hs fs, fun t r hal hl => ⟨exec_fsbind_bad hs fs hal hl, exec_fsbind_binds hs fs hal hl⟩,
    hartOp_eq hs 8 _, ?_, ?_, fun x p hp => State.xlatEl_outside s h hp⟩
  · refine (hartOp_eq hs 8 _).trans ?_
    rw [find]
    cases h.streams.find? (fun p => p.1 == fs.toNat) <;> rfl
  intro kg kd ks ff apd apa xt xp i hi v p f q out
  have hexec : exec i s = xlat ff kg ks kd apd apa xt xp s := by
    subst hi
    cases ff <;> rfl
  rw [hexec]
  refine ⟨fun t ht => xlat_fault hs ff ht, fun hr hflag => ⟨fun he => ?_, fun e he => ?_, fun e c a hc => ⟨fun he => ?_, fun he => ?_⟩⟩⟩
  · rw [xlat_ready hs ff hr, xlatRun_all rfl hflag rfl hr.streams he]
    rfl
  · rw [xlat_ready hs ff hr, xlatRun_bad rfl hflag rfl he]
    rfl
  · rw [xlat_ready hs ff hr, xlatRun_first rfl hflag rfl hc he]
    rfl
  · rw [xlat_ready hs ff hr, xlatRun_later rfl hflag rfl hc he]
    rfl

end Sys2Proof.Proofs
end

section
/-! Elements of an entry written and read back (R66): what an element's bits hold, and that elements which share no bit keep theirs. -/

namespace Sys2Proof.Machine

open Sys2Proof

/-- A width of whole bytes is one of three. -/
theorem tyWidth_of_bytes {ty : Nat} (hn : 1 ≤ tyWidth ty / 8) : tyWidth ty = 8 ∨ tyWidth ty = 16 ∨ tyWidth ty = 32 := by
  unfold tyWidth at *
  split at * <;> simp_all

theorem tyBytes_eq {ty : Nat} (hn : 1 ≤ tyWidth ty / 8) : tyBytes ty = tyWidth ty / 8 := by
  rw [tyBytes, if_neg]
  omega

@[simp] theorem Hart.putCell_bh (h : Hart) (rc : Nat × Nat) (v : BitVec 16) : (h.putCell rc v).bh = h.bh := rfl

theorem Hart.putCell_same (h : Hart) (rc : Nat × Nat) (v : BitVec 16) : (h.putCell rc v).plane.get (cellKey rc) = v := SMap.get_set_self _ _ _

theorem Hart.putCell_other (h : Hart) {rc : Nat × Nat} {key : Nat} (hk : key ≠ cellKey rc) (v : BitVec 16) :
    (h.putCell rc v).plane.get key = h.plane.get key := SMap.get_set_ne _ _ hk

section
variable {a : Apt}

/-- The cell that holds the upper half of an element of 32 bits. -/
def Apt.cell2 (a : Apt) (bh r e : Nat) : Nat × Nat := ((a.cell bh r e).1, ((a.cell bh r e).2 + 1) % 1024)

section
variable (hw : tyWidth a.ty = 32) (h : Hart) (r e : Nat)
include hw

theorem Hart.getEl_word : h.getEl a r e =
    (h.plane.get (cellKey (a.cell h.bh r e))).toNat + (h.plane.get (cellKey (a.cell2 h.bh r e))).toNat * 65536 := by
  unfold Hart.getEl
  rw [hw]
  rfl

theorem Hart.setEl_word (v : Nat) : h.setEl a r e v =
    (h.putCell (a.cell h.bh r e) (BitVec.ofNat 16 v)).putCell (a.cell2 h.bh r e) (BitVec.ofNat 16 (v / 65536)) := by
  unfold Hart.setEl
  rw [hw]
  rfl

theorem Apt.elBits_word (bh : Nat) : a.elBits bh r e = [(cellKey (a.cell bh r e), 0, 16), (cellKey (a.cell2 bh r e), 0, 16)] := by
  unfold Apt.elBits
  rw [hw]
  rfl

end

section
variable (hw : tyWidth a.ty = 16) (h : Hart) (r e : Nat)
include hw

theorem Hart.getEl_half : h.getEl a r e = (h.plane.get (cellKey (a.cell h.bh r e))).toNat := by
  unfold Hart.getEl
  rw [hw]
  rfl

theorem Hart.setEl_half (v : Nat) : h.setEl a r e v = h.putCell (a.cell h.bh r e) (BitVec.ofNat 16 v) := by
  unfold Hart.setEl
  rw [hw]
  rfl

theorem Apt.elBits_half (bh : Nat) : a.elBits bh r e = [(cellKey (a.cell bh r e), 0, 16)] := by
  unfold Apt.elBits
  rw [hw, tyPack, hw]
  simp [Nat.mod_one]

end

section
variable (hw : tyWidth a.ty = 8) (h : Hart) (r e : Nat)
include hw

theorem Hart.getEl_byte : h.getEl a r e = (h.plane.get (cellKey (a.cell h.bh r e))).toNat / 2 ^ (8 * (e % 2)) % 2 ^ 8 := by
  unfold Hart.getEl
  rw [hw, tyPack, hw]
  rfl

theorem Hart.setEl_byte (v : Nat) : h.setEl a r e v = h.putCell (a.cell h.bh r e) (BitVec.ofNat 16
    ((h.plane.get (cellKey (a.cell h.bh r e))).toNat -
      (h.plane.get (cellKey (a.cell h.bh r e))).toNat / 2 ^ (8 * (e % 2)) % 2 ^ 8 * 2 ^ (8 * (e % 2)) + v % 2 ^ 8 * 2 ^ (8 * (e % 2)))) := by
  unfold Hart.setEl
  rw [hw, tyPack, hw]
  rfl

theorem Apt.elBits_byte (bh : Nat) : a.elBits bh r e = [(cellKey (a.cell bh r e), 8 * (e % 2), 8)] := by
  unfold Apt.elBits
  rw [hw, tyPack, hw]
  rfl

end

/-- One of the two bytes of a cell put anew: it holds the value, and the other byte stays. -/
theorem putByte_bytes {x v i j : Nat} (hx : x < 2 ^ 16) (hi : i < 2) (hj : j < 2) :
    (BitVec.ofNat 16 (x - x / 2 ^ (8 * i) % 2 ^ 8 * 2 ^ (8 * i) + v % 2 ^ 8 * 2 ^ (8 * i))).toNat / 2 ^ (8 * j) % 2 ^ 8 =
      if j = i then v % 2 ^ 8 else x / 2 ^ (8 * j) % 2 ^ 8 := by
  rw [BitVec.toNat_ofNat]
  obtain rfl | rfl : i = 0 ∨ i = 1 := by omega
  · obtain rfl | rfl : j = 0 ∨ j = 1 := by omega
    · norm_num
      omega
    · norm_num
      omega
  · obtain rfl | rfl : j = 0 ∨ j = 1 := by omega
    · norm_num
      omega
    · norm_num
      omega

variable (hn : 1 ≤ tyWidth a.ty / 8) (h : Hart) (r e : Nat)
include hn

/-- An element written reads as the value. -/
theorem Hart.getEl_setEl_same {v : Nat} (hv : v < 2 ^ tyWidth a.ty) : (h.setEl a r e v).getEl a r e = v := by
  obtain hw | hw | hw := tyWidth_of_bytes hn
  · rw [hw] at hv
    rw [Hart.getEl_byte hw, Hart.setEl_byte hw]
    rw [Hart.putCell_bh, Hart.putCell_same, putByte_bytes (BitVec.isLt _) (Nat.mod_lt _ two_pos) (Nat.mod_lt _ two_pos), if_pos rfl,
      Nat.mod_eq_of_lt hv]
  · rw [hw] at hv
    rw [Hart.getEl_half hw, Hart.setEl_half hw, Hart.putCell_bh, Hart.putCell_same, BitVec.toNat_ofNat, Nat.mod_eq_of_lt hv]
  · rw [hw] at hv
    exact Hart.getEl_setEl_32 hw r e hv

/-- An element that shares no bit with the one written keeps its value. -/
theorem Hart.getEl_setEl_other {r' e' : Nat} (hd : shareBit (a.elBits h.bh r e) (a.elBits h.bh r' e') = false) (v : Nat) :
    (h.setEl a r e v).getEl a r' e' = h.getEl a r' e' := by
  obtain hw | hw | hw := tyWidth_of_bytes hn
  · rw [Apt.elBits_byte hw, Apt.elBits_byte hw] at hd
    rw [Hart.getEl_byte hw, Hart.getEl_byte hw, Hart.setEl_byte hw, Hart.putCell_bh]
    by_cases hk : cellKey (a.cell h.bh r' e') = cellKey (a.cell h.bh r e)
    · have hne : e' % 2 ≠ e % 2 := by
        rintro he
        simp [shareBit, overlaps, hk, he] at hd
      rw [hk, Hart.putCell_same, putByte_bytes (BitVec.isLt _) (Nat.mod_lt _ two_pos) (Nat.mod_lt _ two_pos), if_neg hne]
    · rw [Hart.putCell_other _ hk]
  · rw [Apt.elBits_half hw, Apt.elBits_half hw] at hd
    have hk : cellKey (a.cell h.bh r' e') ≠ cellKey (a.cell h.bh r e) := by
      rintro hk
      simp [shareBit, overlaps, hk] at hd
    rw [Hart.getEl_half hw, Hart.getEl_half hw, Hart.setEl_half hw, Hart.putCell_bh, Hart.putCell_other _ hk]
  · rw [Apt.elBits_word hw, Apt.elBits_word hw] at hd
    simp [shareBit, overlaps] at hd
    obtain ⟨⟨h11, h12⟩, h21, h22⟩ := hd
    rw [Hart.getEl_word hw, Hart.getEl_word hw, Hart.setEl_word hw, Hart.putCell_bh, Hart.putCell_bh,
      Hart.putCell_other _ (Ne.symm h21), Hart.putCell_other _ (Ne.symm h11), Hart.putCell_other _ (Ne.symm h22), Hart.putCell_other _ (Ne.symm h12)]

end

end Sys2Proof.Machine
end

section
/-! A unit-stride load from the hart's own gallery (R204, R205, R211, R212, R215): where its elements lie, and what it reads. -/

namespace Sys2Proof.Machine

open Sys2Proof

theorem leNat_lt : ∀ bs : List Byte, leNat bs < 256 ^ bs.length
  | [] => Nat.one_pos
  | b :: bs => by
    have hb := b.isLt
    have ih := leNat_lt bs
    rw [leNat, List.length_cons, Nat.pow_succ]
    omega

theorem peekNat_lt {ty : Nat} (hn : 1 ≤ tyWidth ty / 8) (mem : Memory) (loc : Nat) : peekNat mem loc (tyWidth ty / 8) < 2 ^ tyWidth ty := by
  have hlt := leNat_lt (peek mem loc (tyWidth ty / 8))
  have hlen : (peek mem loc (tyWidth ty / 8)).length = tyWidth ty / 8 := by simp [peek]
  have hpow : 256 ^ (tyWidth ty / 8) = 2 ^ tyWidth ty := by
    obtain hw | hw | hw := tyWidth_of_bytes hn <;> norm_num [hw]
  rwa [hlen, hpow] at hlt

theorem Hart.guardBit_none (h : Hart) (e : Nat) : h.guardBit ⟨0, false⟩ e = true := by
  have hlt : e % 1024 < 1024 := Nat.mod_lt _ (by decide)
  rw [Hart.guardBit, Hart.getK, if_pos rfl, BitVec.getLsbD_allOnes, decide_eq_true hlt]
  rfl

/-! ### Items of a sweep -/

/-- The items of a unit-stride form that starts at its first element: those of the enabled rows, in order. -/
def Hart.rowItems (h : Hart) : List Nat := (List.range' 0 (h.rc * h.vl)).filter (fun i => h.km.getLsbD (i / h.vl))

theorem Hart.mem_rowItems {h : Hart} {i : Nat} : i ∈ h.rowItems ↔ i < h.rc * h.vl ∧ h.km.getLsbD (i / h.vl) = true := by
  simp [Hart.rowItems, List.mem_range'_1]

theorem Hart.rowItems_nodup (h : Hart) : h.rowItems.Nodup := List.Nodup.filter _ List.nodup_range'

/-- The item of an element of the sweep. -/
theorem Hart.item_spec (h : Hart) {r e : Nat} (hr : r < h.rc) (he : e < h.vl) :
    (r * h.vl + e) / h.vl = r ∧ (r * h.vl + e) % h.vl = e ∧ r * h.vl + e < h.rc * h.vl := by
  have hvl : 0 < h.vl := Nat.lt_of_le_of_lt (Nat.zero_le e) he
  refine ⟨?_, ?_, ?_⟩
  · rw [Nat.mul_comm, Nat.mul_add_div hvl, Nat.div_eq_of_lt he, Nat.add_zero]
  · rw [Nat.mul_comm, Nat.mul_add_mod, Nat.mod_eq_of_lt he]
  · calc r * h.vl + e < r * h.vl + h.vl := Nat.add_lt_add_left he _
      _ = (r + 1) * h.vl := (Nat.succ_mul r h.vl).symm
      _ ≤ h.rc * h.vl := Nat.mul_le_mul_right _ hr

section
variable {ld : Bool} {ap : Ap} {base : XReg} {off : BitVec 12} {size : BitVec 3} {h : Hart}

theorem unitForm_todo (hswi : h.swi = 0) {f : Fed} (hf : f.stop = none) :
    ((unitForm ld ap base off size h).vec h).todo h f = h.rowItems := by
  have hfirst : ((unitForm ld ap base off size h).vec h).first h = 0 := if_pos hswi
  have hlimit : ((unitForm ld ap base off size h).vec h).limit f = h.rc * h.vl := by
    rw [Vec.limit, hf]
    rfl
  rw [Vec.todo, hfirst, hlimit]
  refine List.filter_congr fun i _ => ?_
  change h.active ⟨0, false⟩ _ _ = _
  rw [Hart.active, Hart.guardBit_none, Bool.true_and]
  rfl

theorem Fed.sum_noFlags {f : Fed} (hf : f.fl = []) (fen : Flags) : ∀ (is : List Nat) (fl : Flags), f.sum fen is fl = (fl, none)
  | [], _ => rfl
  | i :: is, fl => by
    have hz : f.flags i = 0 := by rw [Fed.flags, hf]; rfl
    have hnone : trapFlag fen 0 = none := trapFlag_none BitVec.and_zero
    rw [Fed.sum, hz, hnone]
    exact (Fed.sum_noFlags hf fen is _).trans (by rw [show fl ||| 0 = fl from BitVec.or_zero])

end

/-! ### Elements of a gallery -/

/-- Elements of n bytes one after the other from an address of path 1 on, all inside the gang's gallery allocation. -/
structure GalleryRun (s : State) (h : Hart) (g : Gang) (ea : Word) (n count : Nat) : Prop where
  gang : s.gangOf h = some g
  bytes : 1 ≤ n
  path : ea.toNat / 2 ^ 61 = 1
  aligned : ea.toNat % n = 0
  inside : ea.toNat % 2 ^ 61 + count * n ≤ g.galSize
  size : g.galSize ≤ 2 ^ 21

/-- Where element i of such a run lies. -/
def galleryEl (h : Hart) (g : Gang) (ea : Word) (n i : Nat) : Nat := galleryLoc h.q (g.galBase + ea.toNat % 2 ^ 61 + i * n)

section
variable {s : State} {h : Hart} {g : Gang} {ea : Word} {n count : Nat} (hrun : GalleryRun s h g ea n count) {i : Nat} (hi : i < count)
include hrun hi

omit hrun in
theorem mul_add_le_of_lt : i * n + n ≤ count * n := by
  rw [← Nat.succ_mul]
  exact Nat.mul_le_mul_right _ hi

theorem GalleryRun.toNat_address : (ea + BitVec.ofNat 64 (i * n)).toNat = ea.toNat + i * n := by
  have hle := mul_add_le_of_lt (n := n) hi
  have hin := hrun.inside
  have hsize := hrun.size
  have hpath := hrun.path
  rw [BitVec.toNat_add, BitVec.toNat_ofNat]
  omega

theorem GalleryRun.pathOf_address : pathOf (ea + BitVec.ofNat 64 (i * n)) = 1 := by
  have hle := mul_add_le_of_lt (n := n) hi
  have hin := hrun.inside
  have hsize := hrun.size
  have hpath := hrun.path
  rw [pathOf, hrun.toNat_address hi]
  omega

theorem GalleryRun.aligned_address : (ea + BitVec.ofNat 64 (i * n)).toNat % n = 0 := by
  rw [hrun.toNat_address hi, Nat.add_mul_mod_self_right, hrun.aligned]

theorem GalleryRun.place {u : Use} : s.place h u (ea + BitVec.ofNat 64 (i * n)) n = .ok (s, .mem (galleryEl h g ea n i)) := by
  have hle := mul_add_le_of_lt (n := n) hi
  have hin := hrun.inside
  have hsize := hrun.size
  have hpath := hrun.path
  have hn := hrun.bytes
  have hp := hrun.pathOf_address hi
  have hoff : (ea + BitVec.ofNat 64 (i * n)).toNat % 2 ^ 61 = ea.toNat % 2 ^ 61 + i * n := by
    rw [hrun.toNat_address hi]
    omega
  have hadm : u.admits 1 (h.priv != .u) = true := by simp [Use.admits]
  have hlt : ea.toNat % 2 ^ 61 + i * n < g.galSize := by omega
  simp only [State.place, hp, hadm, hoff, hrun.gang, Bool.not_true, Bool.false_eq_true, if_false, if_true, hlt, galleryEl, Nat.add_assoc]

end

/-! ### What is loaded -/

section
variable {s : State} {h : Hart} {g : Gang} {ea : Word} {ty count : Nat} (hrun : GalleryRun s h g ea (tyWidth ty / 8) count) (hq : s.Quiet)
  (hpoison : s.poison = [])
include hrun hq hpoison

theorem GalleryRun.loadEl {i : Nat} (hi : i < count) (u : Use) (nib : Nat) (bl : Blocks) :
    s.loadEl h u ty (ea + BitVec.ofNat 64 (i * (tyWidth ty / 8))) nib bl =
      .ok (s, peekNat s.mem (galleryEl h g ea (tyWidth ty / 8) i) (tyWidth ty / 8), bl) := by
  have hp := hrun.pathOf_address hi
  have hb : poisoned s.poison (galleryEl h g ea (tyWidth ty / 8) i) (tyWidth ty / 8) = false := by
    rw [hpoison]
    rfl
  have hw : tyWidth ty ≠ 4 := by
    have hn := hrun.bytes
    omega
  have h3 : pathOf (ea + BitVec.ofNat 64 (i * (tyWidth ty / 8))) ≠ 3 := by rw [hp]; decide
  rw [State.loadEl, hp, if_neg (by decide), tyBytes_eq hrun.bytes, hrun.aligned_address hi, State.load_quiet (hrun.place hi) hq h3 hb]
  simp only [ne_eq, not_true, decide_false, Bool.and_false, Bool.false_eq_true, if_false, hw]
  rfl

theorem GalleryRun.loadEls {m : MemForm} (hnf : m.nf = 1) {addr : Nat → Nat → Word}
    (haddr : ∀ i, addr i 0 = ea + BitVec.ofNat 64 (i * (tyWidth ty / 8))) (bl : Blocks) : ∀ is : List Nat, (∀ i ∈ is, i < count) →
    m.loadEls h ty addr is s bl = ⟨s, is.map (fun i => (i, [peekNat s.mem (galleryEl h g ea (tyWidth ty / 8) i) (tyWidth ty / 8)])), none⟩
  | [], _ => rfl
  | i :: is, his => by
    have hfields : m.loadFields h ty i (addr i) (List.range m.nf) s bl =
        .ok (s, [peekNat s.mem (galleryEl h g ea (tyWidth ty / 8) i) (tyWidth ty / 8)], bl) := by
      rw [hnf]
      change m.loadFields h ty i (addr i) [0] s bl = _
      rw [MemForm.loadFields, haddr, hrun.loadEl hq hpoison (his i List.mem_cons_self)]
      rfl
    rw [MemForm.loadEls, hfields]
    dsimp only
    rw [GalleryRun.loadEls hnf haddr bl is fun j hj => his j (List.mem_cons_of_mem _ hj)]
    rfl

end

/-! ### What the loaded elements make of the entry -/

theorem Hart.setEl_bh (h : Hart) (a : Apt) (r e v : Nat) : (h.setEl a r e v).bh = h.bh := by
  unfold Hart.setEl
  dsimp only
  split <;> rfl

/-- Two elements of a sweep that reads no cell it writes share no bit. -/
theorem shareBit_of_not_snapshot {h : Hart} {a : Apt} (hd : snapshot h.bh h.vl h.rc a [a] = false) {i j : Nat} (hi : i < h.rc * h.vl)
    (hj : j < h.rc * h.vl) (hij : i ≠ j) : shareBit (a.elBits h.bh (i / h.vl) (i % h.vl)) (a.elBits h.bh (j / h.vl) (j % h.vl)) = false := by
  by_contra hs
  rw [Bool.not_eq_false] at hs
  rw [Bool.eq_false_iff] at hd
  refine hd (List.any_eq_true.mpr ⟨i, ?_, List.any_eq_true.mpr ⟨a, List.mem_singleton_self a, List.any_eq_true.mpr ⟨j, ?_, ?_⟩⟩⟩)
  · exact List.mem_range.mpr hi
  · exact List.mem_range.mpr hj
  · rw [hs, Bool.and_true]
    exact bne_iff_ne.mpr hij

/-- Elements of one field put into their places, as a load delivers them. -/
theorem MemForm.deliver_cons {m : MemForm} (hnf : m.nf = 1) (h0 h : Hart) (i v : Nat) (els : List (Nat × List Nat)) :
    m.deliver h0 ((i, [v]) :: els) h = m.deliver h0 els (h.setEl (h0.apt (m.entry 0)) (i / h0.vl) (i % h0.vl) v) := by
  simp only [MemForm.deliver, hnf, List.foldl_cons]
  rfl

section
variable {m : MemForm} (hnf : m.nf = 1) {h : Hart} (val : Nat → Nat)
include hnf

/-- A load of one field changes cells alone. -/
theorem MemForm.deliver_sweptFrom : ∀ (is : List Nat) {x : Hart}, h.SweptFrom (fun _ => True) False False False x →
    h.SweptFrom (fun _ => True) False False False (m.deliver h (is.map (fun i => (i, [val i]))) x)
  | [], _, hx => hx
  | i :: is, x, hx => by
    rw [List.map_cons, MemForm.deliver_cons hnf]
    exact MemForm.deliver_sweptFrom is (hx.setEl (fun _ _ => trivial) _)

variable (hn : 1 ≤ tyWidth (h.apt (m.entry 0)).ty / 8)
  (hd : snapshot h.bh h.vl h.rc (h.apt (m.entry 0)) [h.apt (m.entry 0)] = false)
include hn hd

/-- An element that is not loaded stays. -/
theorem MemForm.getEl_deliver_other {is : List Nat} (his : ∀ i ∈ is, i < h.rc * h.vl) {j : Nat} (hj : j < h.rc * h.vl) (hnot : j ∉ is) {x : Hart}
    (hx : x.bh = h.bh) : (m.deliver h (is.map (fun i => (i, [val i]))) x).getEl (h.apt (m.entry 0)) (j / h.vl) (j % h.vl) =
      x.getEl (h.apt (m.entry 0)) (j / h.vl) (j % h.vl) := by
  induction is generalizing x with
  | nil => rfl
  | cons i is ih =>
    rw [List.map_cons, MemForm.deliver_cons hnf, ih (fun i hi => his i (List.mem_cons_of_mem _ hi)) (fun h => hnot (List.mem_cons_of_mem _ h))
      ((Hart.setEl_bh ..).trans hx)]
    refine Hart.getEl_setEl_other hn x _ _ ?_ _
    rw [hx]
    exact shareBit_of_not_snapshot hd (his i List.mem_cons_self) hj (fun e => hnot (e ▸ List.mem_cons_self))

/-- An element that is loaded reads as its value. -/
theorem MemForm.getEl_deliver_same {is : List Nat} (his : ∀ i ∈ is, i < h.rc * h.vl) (hnodup : is.Nodup) {j : Nat} (hj : j ∈ is)
    (hval : val j < 2 ^ tyWidth (h.apt (m.entry 0)).ty) {x : Hart} (hx : x.bh = h.bh) :
    (m.deliver h (is.map (fun i => (i, [val i]))) x).getEl (h.apt (m.entry 0)) (j / h.vl) (j % h.vl) = val j := by
  induction is generalizing x with
  | nil => exact absurd hj List.not_mem_nil
  | cons i is ih =>
    obtain ⟨hnot, hnodup⟩ := List.nodup_cons.mp hnodup
    have hrest : ∀ i ∈ is, i < h.rc * h.vl := fun i hi => his i (List.mem_cons_of_mem _ hi)
    have hbh (v : Nat) : (x.setEl (h.apt (m.entry 0)) (i / h.vl) (i % h.vl) v).bh = h.bh := (Hart.setEl_bh ..).trans hx
    rw [List.map_cons, MemForm.deliver_cons hnf]
    obtain rfl | hj := List.mem_cons.mp hj
    · rw [MemForm.getEl_deliver_other hnf val hn hd hrest (his j List.mem_cons_self) hnot (hbh _)]
      exact Hart.getEl_setEl_same hn x _ _ hval
    · exact ih hrest hnodup hj (hbh _)

end

/-! ### The unit-stride forms -/

section
variable (ld : Bool) (ap : Ap) (base : XReg) (off : BitVec 12) (size : BitVec 3) (h : Hart)

/-- The address of a unit-stride form (R208, R211). -/
def unitAddr (h : Hart) (base : XReg) (off : BitVec 12) (size : BitVec 3) : Word := h.getX base + BitVec.ofInt 64 (off.toInt * 2 ^ size.toNat)

theorem unitForm_entry : (unitForm ld ap base off size h).entry 0 = ap := BitVec.eq_of_toNat_eq (by simp [MemForm.entry, unitForm])

theorem unitForm_addr (hn : 1 ≤ tyWidth (h.apt ap).ty / 8) (g : Hart) (i : Nat) :
    (unitForm ld ap base off size h).addr g (i / h.vl) (i % h.vl) 0 =
      unitAddr h base off size + BitVec.ofNat 64 (i * (tyWidth (h.apt ap).ty / 8)) := by
  have hea : scaledAddr h base off (2 ^ size.toNat) = unitAddr h base off size := by
    rw [scaledAddr_eq, unitAddr]
    push_cast
    rfl
  have hwhole : i * tyWidth (h.apt ap).ty / 8 = i * (tyWidth (h.apt ap).ty / 8) := by
    obtain hw | hw | hw := tyWidth_of_bytes hn <;> rw [hw] <;> omega
  change scaledAddr h base off (2 ^ size.toNat) + BitVec.ofNat 64 ((i / h.vl * h.vl + i % h.vl) * tyWidth (h.apt ap).ty / 8) = _
  rw [hea, Nat.div_add_mod', hwhole]

end

/-- The state in which an instruction that is no link of a drain chain has been charged, and its hart in it. -/
theorem Vec.ran_unlinked {v : Hart → Vec} {s : State} {h x : Hart} {cells : Nat → Prop} {masks carries latches : Prop} (hl : (v h).link = false)
    (hs : s.hart? = some h) (hx : h.SweptFrom cells masks carries latches x) (fl : Flags) (len : Nat) :
    ∃ j, ((v h).ran h s (x.orFlags fl) len).hart? = some (x.sweptEnd fl j len) ∧ ((v h).ran h s (x.orFlags fl) len).mem = s.mem := by
  have hcur : h.hid = (s.setHart (x.orFlags fl)).cur := (State.hid_of_hart? hs :)
  rw [Vec.ran, State.dispatchVec_unlinked hl]
  exact ⟨_, State.hart?_updHart (State.hart?_dispatch (hx.setHart_eq fl hs) hcur _ _ _) (Hart.commit_hid _ _), rfl⟩

section
variable (s : State) (h : Hart) (g : Gang) (ap : Ap) (base : XReg) (off : BitVec 12) (size : BitVec 3)

/-- The value that a unit-stride load from a gallery gives to its item i. -/
def galleryVal (i : Nat) : Nat :=
  peekNat s.mem (galleryEl h g (unitAddr h base off size) (tyWidth (h.apt ap).ty / 8) i) (tyWidth (h.apt ap).ty / 8)

/-- A hart after a unit-stride load from its gallery. -/
def Hart.galleryLoaded : Hart :=
  (unitForm true ap base off size h).deliver h (h.rowItems.map (fun i => (i, [galleryVal s h g ap base off size i]))) h

theorem Hart.galleryLoaded_sweptFrom :
    h.SweptFrom (fun _ => True) False False False (Hart.galleryLoaded s h g ap base off size) :=
  MemForm.deliver_sweptFrom rfl _ h.rowItems (Hart.SweptFrom.refl h _ _ _ _)

variable {s h g ap base off size}

theorem Hart.getEl_galleryLoaded (hn : 1 ≤ tyWidth (h.apt ap).ty / 8) (hd : snapshot h.bh h.vl h.rc (h.apt ap) [h.apt ap] = false) {i : Nat}
    (hi : i ∈ h.rowItems) : (Hart.galleryLoaded s h g ap base off size).getEl (h.apt ap) (i / h.vl) (i % h.vl) = galleryVal s h g ap base off size i := by
  have hentry : (unitForm true ap base off size h).entry 0 = ap := unitForm_entry true ap base off size h
  have hget := MemForm.getEl_deliver_same (m := unitForm true ap base off size h) rfl (galleryVal s h g ap base off size) (by rwa [hentry])
    (by rwa [hentry]) (fun i hi => (Hart.mem_rowItems.mp hi).1) h.rowItems_nodup hi (by rw [hentry]; exact peekNat_lt hn _ _) (x := h) rfl
  rwa [hentry] at hget

variable (hs : s.hart? = some h) (hq : s.Quiet) (hpoison : s.poison = []) (hswi : h.swi = 0)
  (hready : ((unitForm true ap base off size h).vec h).Ready s h)
  (hrun : GalleryRun s h g (unitAddr h base off size) (tyWidth (h.apt ap).ty / 8) (h.rc * h.vl))
include hs hq hpoison hswi hready hrun

theorem exec_vld_gallery : exec (.vld ap base off size) s =
    .next (((unitForm true ap base off size h).vec h).ran h s ((Hart.galleryLoaded s h g ap base off size).orFlags 0) 4) := by
  have hfeed : ((unitForm true ap base off size h).vec h).feed s h = ⟨s, h, [], none, []⟩ := Vec.feed_unstreamed rfl s
  have htodo : ((unitForm true ap base off size h).vec h).todo h ⟨s, h, [], none, []⟩ = h.rowItems := unitForm_todo hswi rfl
  have hels := hrun.loadEls hq hpoison (m := unitForm true ap base off size h) rfl
    (addr := fun i f => (unitForm true ap base off size h).addr h (i / h.vl) (i % h.vl) f)
    (unitForm_addr true ap base off size h hrun.bytes h) [] h.rowItems fun i hi => (Hart.mem_rowItems.mp hi).1
  rw [exec_load_ready hs (form := unitForm true ap base off size) rfl hready rfl, hfeed,
    MemForm.runLoad_complete (Fed.sum_noFlags rfl h.fen _ 0) rfl (congrArg (fun is => MemForm.loadEls _ h _ _ is s []) htodo |>.trans hels) rfl rfl]
  rfl

end

end Sys2Proof.Machine

namespace Sys2Proof.Proofs

open Sys2Proof Sys2Proof.Machine

/-- Settles O33: no element of the run faults, each is loaded from its place, and no two of them share a bit of the plane. -/
theorem galleryLoadFillsTheAperture : Obligations.GalleryLoadFillsTheAperture := by
  unfold Obligations.GalleryLoadFillsTheAperture
  intro s h g ap base off size hs hg hq hpoison hswi hready a n ea hn hpath hal hin hsize hd
  have hrun : GalleryRun s h g (unitAddr h base off size) n (h.rc * h.vl) := ⟨hg, hn, hpath, hal, hin, hsize⟩
  have hx := Hart.galleryLoaded_sweptFrom s h g ap base off size
  obtain ⟨j, hh, hmem⟩ := Vec.ran_unlinked (v := (unitForm true ap base off size h).vec) rfl hs hx 0 4
  have hend := hx.sweptEnd_eq 0 j 4
  refine ⟨_, _, exec_vld_gallery hs hq hpoison hswi hready hrun, hh, ?_, hmem, ?_, fun r e hr he hkm => ?_⟩
  · rw [hend]
    rfl
  · rw [hend]
  · obtain ⟨hdiv, hmod, hlt⟩ := h.item_spec hr he
    have hplane := Hart.getEl_congr (g := (Hart.galleryLoaded s h g ap base off size).sweptEnd 0 j 4)
      (by rw [hend, hx.bh_eq]) (by rw [hend]) a r e
    have hget := Hart.getEl_galleryLoaded (s := s) (g := g) (base := base) (off := off) (size := size) hn hd
      (Hart.mem_rowItems.mpr ⟨hlt, by rwa [hdiv]⟩)
    rw [hdiv, hmod] at hget
    exact hplane.trans hget

end Sys2Proof.Proofs
end

section
/-! Vector stores (R210, R211, R213, R214, R216 to R218, R399, R403, R407): past the checks, an instruction is what its loop comes to. -/

namespace Sys2Proof.Machine

open Sys2Proof

theorem Vec.mem_todo_lt {v : Vec} {h : Hart} {f : Fed} (hf : f.stop = none) {i : Nat} (hi : i ∈ v.todo h f) : i < v.rc * v.vl := by
  have hlimit : v.limit f = v.rc * v.vl := by
    rw [Vec.limit, hf]
    rfl
  rw [Vec.todo, hlimit] at hi
  obtain ⟨hi, -⟩ := List.mem_filter.mp hi
  have hrange := List.mem_range'_1.mp hi
  omega

/-- A store, once its elements have been stored up to the items of `p`: what covers a poisoned unit in pieces clears it (R403). -/
def MemForm.cleared (m : MemForm) (h : Hart) (f : Fed) (items : List Nat) (u : State) (p : Nat → Bool) : State :=
  if f.s.poison.isEmpty then u else u.clearUnits h.hid ((items.filter p).flatMap (m.halves h f.h f.s))

section
variable {m : MemForm} {v : Vec} {h : Hart} {f : Fed} {q : Flags × Option (Nat × Nat)} {r : State × Option ElFault}
  (hq : f.sum h.fen (v.todo h f) 0 = q) (hflag : q.2 = none) (hf : f.stop = none)
  (hr : m.storeEls f.h (h.apt m.ap).ty (v.todo h f) (f.s, ⟨none, none⟩) = r)
include hq hflag hf hr

/-- A store none of whose elements faults completes. -/
theorem MemForm.runStore_complete (hstop : r.2 = none) :
    m.runStore v h f = .done ((m.cleared h f (v.todo h f) r.1 (fun _ => true)).setHart (f.h.orFlags q.1)) := by
  subst hq
  rw [MemForm.runStore]
  simp only [hflag, cutAt, hr, hstop, Vec.ownAt, hf, ite_self, Option.or_none, Vec.fedStop_ready hf, Option.getD_none]
  rfl

omit hf in
/-- A store one of whose elements faults takes the memory fault, the elements before it stored, or, where it reads a stream, looked up. -/
theorem MemForm.runStore_fault {e : ElFault} (hstop : r.2 = some e) (he : e.miss.f ≠ notReady) : m.runStore v h f =
    m.elTrap v (if v.isWhole h then ((v.todo h f).filter (fun i => decide (i < e.i))).foldl (fun u i => m.used h f.h i m.nf u) f.s
      else m.cleared h f (v.todo h f) r.1 (fun i => decide (i < e.i))) h f.h 2 e := by
  subst hq
  rw [MemForm.runStore]
  simp only [hflag, cutAt, hr, hstop, Option.some_or, he, if_false]
  cases v.isWhole h <;> rfl

end

/-! ### A run of stores, before it is performed (R290) -/

/-- A memory with bytes put at a place. -/
def overwrite (f : Nat → Byte) (loc : Nat) (bs : List Byte) (b : Nat) : Byte := if loc ≤ b then (bs[b - loc]?).getD (f b) else f b

theorem State.byte_poke_eq (s : State) (loc : Nat) (bs : List Byte) : (s.poke loc bs).byte = overwrite s.byte loc bs :=
  funext fun b => State.byte_poke s loc bs b

theorem overwrite_outside (f : Nat → Byte) {loc b : Nat} {bs : List Byte} (hb : b < loc ∨ loc + bs.length ≤ b) : overwrite f loc bs b = f b := by
  unfold overwrite
  split
  · rw [List.getElem?_eq_none (by omega)]
    rfl
  · rfl

theorem overwrite_inside (f : Nat → Byte) {loc k : Nat} {bs : List Byte} {x : Byte} (hk : bs[k]? = some x) : overwrite f loc bs (loc + k) = x := by
  unfold overwrite
  rw [if_pos (Nat.le_add_right _ _), Nat.add_sub_cancel_left, hk]
  rfl

/-- Bytes put one after the other are put at once. -/
theorem overwrite_append (f : Nat → Byte) (loc : Nat) (as bs : List Byte) :
    overwrite f loc (as ++ bs) = overwrite (overwrite f loc as) (loc + as.length) bs := by
  funext b
  unfold overwrite
  by_cases hb : loc ≤ b
  · rw [if_pos hb]
    by_cases hlt : b - loc < as.length
    · rw [List.getElem?_append_left hlt, if_neg (by omega), if_pos hb]
    · rw [List.getElem?_append_right (by omega), if_pos (by omega), if_pos hb, List.getElem?_eq_none (l := as) (by omega), Nat.sub_sub]
      rfl
  · rw [if_neg hb, if_neg (by omega), if_neg hb]

/-- Stores performed one after the other. -/
def performed (f : Nat → Byte) (ps : List Pending) : Nat → Byte := ps.foldl (fun f x => overwrite f x.loc x.bytes) f

theorem performed_cons (f : Nat → Byte) (x : Pending) (ps : List Pending) : performed f (x :: ps) = performed (overwrite f x.loc x.bytes) ps := rfl

theorem performed_snoc (f : Nat → Byte) (ps : List Pending) (x : Pending) :
    performed f (ps ++ [x]) = overwrite (performed f ps) x.loc x.bytes := by
  rw [performed, List.foldl_append]
  rfl

theorem choose_zero (p : Pending → Bool) (l : List Pending) : choose p 0 l = l.map (fun x => (x, false)) := by
  induction l with
  | nil => rfl
  | cons x l ih =>
    rw [choose, if_neg (by simp), ih]
    rfl

theorem withOlder_all (l : List Pending) : withOlder (l.map (fun x => (x, true))) = l.map (fun x => (x, true)) := by
  induction l with
  | nil => rfl
  | cons x l ih =>
    rw [List.map_cons, withOlder, ih]
    rfl

theorem withOlder_none (l : List Pending) : withOlder (l.map (fun x => (x, false))) = l.map (fun x => (x, false)) := by
  induction l with
  | nil => rfl
  | cons x l ih =>
    rw [List.map_cons, withOlder, ih]
    simp

/-- A hart with other stores outstanding. -/
def Hart.withPending (g : Hart) (ps : List Pending) : Hart := { g with pending := ps }

theorem State.foldl_perform (hid : Nat) (ps : List Pending) : ∀ w : State, (∀ x ∈ ps, x.rmw = none) →
    (ps.foldl (fun w x => w.perform hid x) w).byte = performed w.byte ps := by
  induction ps with
  | nil => exact fun _ _ => rfl
  | cons x ps ih =>
    intro w hps
    rw [List.foldl_cons, ih _ (fun y hy => hps y (List.mem_cons_of_mem _ hy)), performed_cons, State.perform, hps x List.mem_cons_self]
    dsimp only
    rw [State.byte_poke_eq]

section
variable {u : State} {hid : Nat} {h : Hart} (hu : u.hartAt hid = some h)
include hu

/-- Of plain stores the oldest alone performed: the others stay outstanding (R290). -/
theorem State.performSome_first {x : Pending} {ps : List Pending} (hp : h.pending = x :: ps) (hx : x.rmw = none) :
    u.performSome hid (fun _ => true) 1 = (u.updHartAt hid (fun g => g.withPending ps)).poke x.loc x.bytes := by
  have hl : withOlder (choose (fun _ => true) 1 h.pending) = (x, true) :: ps.map (fun y => (y, false)) := by
    rw [hp, choose, if_pos (by simp), Nat.sub_self, choose_zero, withOlder, withOlder_none]
    rfl
  have hkept : (((x, true) :: ps.map (fun y => (y, false))).filter (fun y => !y.2)).map (·.1) = ps := by
    simp [List.filter_map, Function.comp_def]
  have hdone : ((x, true) :: ps.map (fun y => (y, false))).filter (·.2) = [(x, true)] := by
    simp [List.filter_map, Function.comp_def]
  simp only [State.performSome, hu, hl, hkept, hdone, List.foldl_cons, List.foldl_nil, State.perform, hx]
  rfl

/-- All plain stores performed. -/
theorem State.byte_drain_plain (hx : ∀ x ∈ h.pending, x.rmw = none) : (u.drain hid).byte = performed u.byte h.pending := by
  have hl : withOlder (choose (fun _ => true) h.pending.length h.pending) = h.pending.map (fun y => (y, true)) := by
    rw [choose_all _ _ _ le_rfl, withOlder_all]
  have hdone : (h.pending.map (fun y => (y, true))).filter (·.2) = h.pending.map (fun y => (y, true)) := by
    simp [List.filter_map, Function.comp_def]
  simp only [State.drain, State.performAll, State.performSome, State.outstanding, hu, hl, hdone, List.foldl_map]
  exact State.foldl_perform hid h.pending _ hx

theorem State.leave_eq (x : Pending) : u.leave hid x = if pendingLimit < (h.pending ++ [x]).length then
    (u.updHartAt hid (fun g => g.addStore x)).performSome hid (fun _ => true) 1 else u.updHartAt hid (fun g => g.addStore x) := by
  have hadd := State.hartAt_updHartAt hu (f := fun g => g.addStore x) rfl
  change (match (u.updHartAt hid (fun g => g.addStore x)).hartAt hid with
    | none => u.updHartAt hid (fun g => g.addStore x)
    | some g => if pendingLimit < g.pending.length then (u.updHartAt hid (fun g => g.addStore x)).performSome hid (fun _ => true) 1
      else u.updHartAt hid (fun g => g.addStore x)) = _
  rw [hadd]
  rfl

end

/-- The stores of a hart so far: all that it has outstanding is plain, and performed in order it makes memory read as `f`. -/
structure State.Stored (s : State) (h : Hart) (u : State) (f : Nat → Byte) : Prop where
  gangs : u.gangs = s.gangs
  engines : u.engines = s.engines
  cur : u.cur = s.cur
  hart : ∃ ps, u.hartAt h.hid = some (h.withPending ps) ∧ (∀ x ∈ ps, x.rmw = none) ∧ performed u.byte ps = f

section
variable {s u : State} {h : Hart} {f : Nat → Byte} (hu : s.Stored h u f)

theorem State.Stored.start (hs : s.hartAt h.hid = some h) (hp : h.pending = []) : s.Stored h s s.byte :=
  ⟨rfl, rfl, rfl, [], by rw [hs, ← hp]; rfl, fun _ hx => absurd hx List.not_mem_nil, rfl⟩

include hu

/-- A plain store more (R290). -/
theorem State.Stored.store (vec : Bool) (loc : Nat) (bs : List Byte) : s.Stored h (u.store h.hid vec loc bs) (overwrite f loc bs) := by
  obtain ⟨hg, he, hc, ps, hh, hplain, hf⟩ := hu
  let x : Pending := { vec := vec, loc := loc, bytes := bs }
  have hadd : (u.updHartAt h.hid (fun g => g.addStore x)).hartAt h.hid = some (h.withPending (ps ++ [x])) :=
    State.hartAt_updHartAt (f := fun g => g.addStore x) hh rfl
  have hplain' : ∀ y ∈ ps ++ [x], y.rmw = none := by
    intro y hy
    obtain hy | hy := List.mem_append.mp hy
    · exact hplain y hy
    · rw [List.mem_singleton.mp hy]
  have hbyte : performed u.byte (ps ++ [x]) = overwrite f loc bs := by rw [performed_snoc, hf]
  rw [State.store, State.leave_eq hh]
  split
  · cases hp : ps ++ [x] with
    | nil => exact absurd hp (by simp)
    | cons y ys =>
      rw [hp] at hplain' hbyte hadd
      rw [State.performSome_first hadd rfl (hplain' y List.mem_cons_self)]
      refine ⟨hg, he, hc, ys, State.hartAt_updHartAt (f := fun g => g.withPending ys) hadd rfl,
        fun z hz => hplain' z (List.mem_cons_of_mem _ hz), ?_⟩
      rw [State.byte_poke_eq]
      exact hbyte
  · exact ⟨hg, he, hc, ps ++ [x], hadd, hplain', hbyte⟩

/-! ### Adjacent stores joined to runs -/

/-- What a run of adjacent stores that has not been made puts into memory. -/
def StoreRun.put (b : StoreRun) (f : Nat → Byte) : Nat → Byte :=
  match b.run with
  | none => f
  | some (loc, bs) => overwrite f loc bs.reverse

theorem State.Stored.flushRun {b : StoreRun} (hb : b.half = none) : s.Stored h (u.flushRun h b) (b.put f) := by
  obtain ⟨run, half⟩ := b
  cases hb
  cases run with
  | none => exact hu
  | some r => exact hu.store true r.1 r.2.reverse

/-- Bytes stored join the run where they follow it, and begin one otherwise. -/
theorem State.Stored.addRun {b : StoreRun} (hb : b.half = none) (loc : Nat) (bs : List Byte) :
    ∃ f', s.Stored h (u.addRun h b loc bs).1 f' ∧ (u.addRun h b loc bs).2.half = none ∧
      (u.addRun h b loc bs).2.put f' = overwrite (b.put f) loc bs := by
  have hnew : ∀ f', (⟨some (loc, bs.reverse), none⟩ : StoreRun).put f' = overwrite f' loc bs := fun f' => by
    simp only [StoreRun.put, List.reverse_reverse]
  obtain ⟨run, half⟩ := b
  cases hb
  cases run with
  | none => exact ⟨f, hu, rfl, hnew f⟩
  | some r =>
    obtain ⟨l, rs⟩ := r
    rw [State.addRun]
    split
    next hadj =>
      refine ⟨f, hu, rfl, ?_⟩
      simp only [StoreRun.put, List.reverse_append, List.reverse_reverse]
      rw [overwrite_append, List.length_reverse, hadj]
    · exact ⟨_, (hu.flushRun (b := ⟨some (l, rs), none⟩) rfl), rfl, hnew _⟩

end

/-! ### A unit-stride store into the hart's own gallery -/

/-- Elements of n bytes put at their places in a gallery, one after the other. -/
def putElements (h : Hart) (g : Gang) (ea : Word) (n : Nat) (val : Nat → Nat) (is : List Nat) (f : Nat → Byte) : Nat → Byte :=
  is.foldl (fun f i => overwrite f (galleryEl h g ea n i) (leBytes n (val i))) f

section
variable {s : State} {h : Hart} {g : Gang} {ea : Word} {n count : Nat}

theorem GalleryRun.of_gangs {u : State} (hrun : GalleryRun s h g ea n count) (hg : u.gangs = s.gangs) : GalleryRun u h g ea n count :=
  ⟨by rw [← hrun.gang, State.gangOf, State.gangOf, State.gangAt, State.gangAt, hg], hrun.bytes, hrun.path, hrun.aligned, hrun.inside, hrun.size⟩

/-- Where an element of a run in a gallery is stored. -/
theorem GalleryRun.storePlaces {m : MemForm} (hrun : GalleryRun s h g ea n count) (he : s.engines = []) {i : Nat} (hi : i < count) {va : Nat → Word}
    (hva : va 0 = ea + BitVec.ofNat 64 (i * n)) : m.storePlaces h n i va [0] s = .ok (s, [.mem (galleryEl h g ea n i)]) := by
  have hal : misaligned h m.use (ea + BitVec.ofNat 64 (i * n)) n = false := by
    rw [misaligned, hrun.aligned_address hi, decide_eq_false (not_not.mpr rfl), Bool.and_false]
  rw [MemForm.storePlaces, hva, hal, if_neg Bool.false_ne_true, hrun.place hi]
  dsimp only
  rw [State.reach_quiet he]
  rfl

end

section
variable {s : State} {h : Hart} {g : Gang} {ea : Word} {ty count : Nat} (hrun : GalleryRun s h g ea (tyWidth ty / 8) count) (he : s.engines = [])
  {m : MemForm} (hnf : m.nf = 1)
  (haddr : ∀ i, m.addr h (i / h.vl) (i % h.vl) 0 = ea + BitVec.ofNat 64 (i * (tyWidth ty / 8)))
include hrun he hnf haddr

/-- The loop of a store into a gallery: no element faults, and all are put at their places (R290). -/
theorem GalleryRun.storeEls : ∀ (is : List Nat), (∀ i ∈ is, i < count) → ∀ {u : State} {b : StoreRun} {f : Nat → Byte},
    s.Stored h u f → b.half = none → ∃ w, m.storeEls h ty is (u, b) = (w, none) ∧
      s.Stored h w (putElements h g ea (tyWidth ty / 8) (fun i => h.getEl (h.apt (m.entry 0)) (i / h.vl) (i % h.vl)) is (b.put f))
  | [], _, _, _, _, hu, hb => ⟨_, rfl, hu.flushRun hb⟩
  | i :: is, his, u, b, f, hu, hb => by
    have hw : tyWidth ty ≠ 4 := by
      have hn := hrun.bytes
      omega
    have hplaces := (hrun.of_gangs hu.gangs).storePlaces (m := m) (hu.engines.trans he) (his i List.mem_cons_self)
      (va := m.addr h (i / h.vl) (i % h.vl)) (haddr i)
    obtain ⟨f', hadd, hhalf, hput⟩ := hu.addRun hb (galleryEl h g ea (tyWidth ty / 8) i)
      (leBytes (tyWidth ty / 8) (h.getEl (h.apt (m.entry 0)) (i / h.vl) (i % h.vl)))
    obtain ⟨w, hw', hend⟩ := GalleryRun.storeEls is (fun j hj => his j (List.mem_cons_of_mem _ hj)) hadd hhalf
    refine ⟨w, ?_, by rw [putElements, List.foldl_cons, ← hput]; exact hend⟩
    rw [MemForm.storeEls]
    dsimp only
    rw [hnf, tyBytes_eq hrun.bytes, List.range_one, hplaces]
    change m.storeEls h ty is (m.putFields h ty i (i / h.vl) (i % h.vl) [(0, .mem (galleryEl h g ea (tyWidth ty / 8) i))] (u, b)) = _
    rw [MemForm.putFields, MemForm.putFields]
    dsimp only
    rw [if_neg hw]
    exact hw'

end

section
variable (h : Hart) (g : Gang) (ea : Word) (n : Nat) (val : Nat → Nat)

theorem putElements_cons (i : Nat) (is : List Nat) (f : Nat → Byte) :
    putElements h g ea n val (i :: is) f = putElements h g ea n val is (overwrite f (galleryEl h g ea n i) (leBytes n (val i))) := by
  simp only [putElements, List.foldl_cons]

theorem galleryLoc_add (q off k : Nat) : galleryLoc q (off + k) = galleryLoc q off + k := (Nat.add_assoc (2 ^ 48 + q * 2 ^ 21) off k).symm

theorem galleryEl_eq (i : Nat) : galleryEl h g ea n i = galleryEl h g ea n 0 + i * n := by
  rw [galleryEl, galleryEl, Nat.zero_mul, Nat.add_zero]
  exact galleryLoc_add h.q _ _

/-- Two elements of a run share no byte. -/
theorem galleryEl_disjoint {i j k : Nat} (hij : i ≠ j) (hk : k < n) :
    galleryEl h g ea n j + k < galleryEl h g ea n i ∨ galleryEl h g ea n i + n ≤ galleryEl h g ea n j + k := by
  rw [galleryEl_eq h g ea n i, galleryEl_eq h g ea n j]
  generalize galleryEl h g ea n 0 = b
  obtain hlt | hlt := Nat.lt_or_gt_of_ne hij
  · have hle := mul_add_le_of_lt (n := n) hlt
    omega
  · have hle := mul_add_le_of_lt (n := n) hlt
    omega

theorem putElements_outside {b : Nat} {is : List Nat} (hb : ∀ i ∈ is, b < galleryEl h g ea n i ∨ galleryEl h g ea n i + n ≤ b) (f : Nat → Byte) :
    putElements h g ea n val is f b = f b := by
  induction is generalizing f with
  | nil => rfl
  | cons i is ih =>
    rw [putElements_cons, ih (fun j hj => hb j (List.mem_cons_of_mem _ hj)), overwrite_outside]
    rw [length_leBytes]
    exact hb i List.mem_cons_self

theorem putElements_inside {is : List Nat} (hnodup : is.Nodup) {i k : Nat} (hi : i ∈ is) (hk : k < n) (f : Nat → Byte) :
    putElements h g ea n val is f (galleryEl h g ea n i + k) = BitVec.ofNat 8 (val i / 2 ^ (8 * k)) := by
  induction is generalizing f with
  | nil => exact absurd hi List.not_mem_nil
  | cons j is ih =>
    obtain ⟨hnot, hnodup⟩ := List.nodup_cons.mp hnodup
    rw [putElements_cons]
    obtain rfl | hi := List.mem_cons.mp hi
    · rw [putElements_outside _ _ _ _ _ (fun j hj => galleryEl_disjoint h g ea n (ne_of_mem_of_not_mem hj hnot) hk)]
      exact overwrite_inside f (getElem?_leBytes n (val i) hk)
    · exact ih hnodup hi _

end

theorem unitForm_streamed (ap : Ap) (base : XReg) (off : BitVec 12) (size : BitVec 3) {h : Hart} (hsb : (h.apt ap).sb = false) :
    ((unitForm false ap base off size h).vec h).streamed h = false := by
  have hone : min 1 (64 - ap.toNat) = 1 := by
    have hlt := ap.isLt
    omega
  change (((List.range (min 1 (64 - ap.toNat))).map (unitForm false ap base off size h).entry ++ [] ++ []).any (fun n => (h.apt n).sb)) = false
  rw [hone, List.range_one]
  simp [unitForm_entry, hsb]

/-- A hart that commits with stores outstanding, and the memory that performing them makes. -/
theorem State.Stored.ran {s u : State} {h : Hart} {f : Nat → Byte} (hs : s.hart? = some h) (hu : s.Stored h u f) {v : Hart → Vec}
    (hl : (v h).link = false) (fl : Flags) (len : Nat) : ∃ h', ((v h).ran h u (h.orFlags fl) len).hart? = some h' ∧
      h'.pc = h.pc + BitVec.ofNat 64 len ∧ h'.x = h.x ∧ h'.plane = h.plane ∧ (((v h).ran h u (h.orFlags fl) len).drain s.cur).byte = f := by
  obtain ⟨hg, he, hc, ps, hh, hplain, hf⟩ := hu
  have hid : h.hid = s.cur := State.hid_of_hart? hs
  have hat : u.hart? = some (h.withPending ps) := by
    rw [State.hart?, hc, ← hid]
    exact hh
  have hset := State.hart?_setHart hat (g := h.orFlags fl) rfl
  have hcur : h.hid = (u.setHart (h.orFlags fl)).cur := hid.trans hc.symm
  have hgate := State.hart?_dispatch hset hcur (v h).cls (v h).charge { (v h).job h with dropped := false }
  have hend := State.hart?_updHart hgate (f := fun g => g.commit (g.pc + BitVec.ofNat 64 len)) (Hart.commit_hid _ _)
  rw [Vec.ran, State.dispatchVec_unlinked hl]
  refine ⟨_, hend, Hart.commit_pc _ _, Hart.commit_x _ _, Hart.commit_plane _ _, ?_⟩
  rw [← hc]
  refine (State.byte_drain_plain hend ?_).trans ?_
  · rw [Hart.commit_pending]
    exact hplain
  · rw [Hart.commit_pending]
    exact hf

section
variable {s : State} {h : Hart} {g : Gang} {ap : Ap} {base : XReg} {off : BitVec 12} {size : BitVec 3} (hs : s.hart? = some h) (hq : s.Quiet)
  (hpoison : s.poison = []) (hswi : h.swi = 0) (hready : ((unitForm false ap base off size h).vec h).Ready s h) (hsb : (h.apt ap).sb = false)
  (hrun : GalleryRun s h g (unitAddr h base off size) (tyWidth (h.apt ap).ty / 8) (h.rc * h.vl))
include hs hq hpoison hswi hready hsb hrun

theorem exec_vst_gallery : ∃ u, exec (.vst ap base off size) s = .next (((unitForm false ap base off size h).vec h).ran h u (h.orFlags 0) 4) ∧
    s.Stored h u (putElements h g (unitAddr h base off size) (tyWidth (h.apt ap).ty / 8) (fun i => h.getEl (h.apt ap) (i / h.vl) (i % h.vl))
      h.rowItems s.byte) := by
  have hfeed : ((unitForm false ap base off size h).vec h).feed s h = ⟨s, h, [], none, []⟩ :=
    Vec.feed_unstreamed (unitForm_streamed ap base off size hsb) s
  have htodo : ((unitForm false ap base off size h).vec h).todo h ⟨s, h, [], none, []⟩ = h.rowItems := unitForm_todo hswi rfl
  have hid : h.hid = s.cur := State.hid_of_hart? hs
  have hstart : s.Stored h s s.byte := .start (by rw [hid]; exact hs) (hq.2 h (List.mem_of_find?_eq_some hs))
  obtain ⟨u, hels, hu⟩ := hrun.storeEls hq.1 (m := unitForm false ap base off size h) rfl
    (unitForm_addr false ap base off size h hrun.bytes h) h.rowItems (fun i hi => (Hart.mem_rowItems.mp hi).1) hstart (b := ⟨none, none⟩) rfl
  rw [unitForm_entry] at hu
  refine ⟨u, ?_, hu⟩
  rw [exec_store_ready hs (form := unitForm false ap base off size) rfl hready rfl, hfeed,
    MemForm.runStore_complete (r := (u, none)) (Fed.sum_noFlags rfl h.fen _ 0) rfl rfl (by rw [htodo]; exact hels) rfl, MemForm.cleared,
    hpoison]
  rfl

end

/-- The instruction of a store is of the whole class where it reads a stream (R224). -/
theorem MemForm.isWhole_store {m : MemForm} {h : Hart} (hl : m.load = false) : (m.vec h).isWhole h = (m.vec h).streamed h := by
  have hsnap : m.snap h = false := by
    rw [MemForm.snap]
    split
    · rw [hl, Bool.false_and]
    · rfl
  change (false || (m.vec h).streamed h || m.snap h) = _
  rw [hsnap, Bool.or_false, Bool.false_or]

section
variable {s : State} {h : Hart} {g : Gang} {ea : Word} {n : Nat} (val : Nat → Nat) {u : Nat → Byte}

/-- The elements of the enabled rows, put into a gallery. -/
theorem putRows_inside {r e k : Nat} (hr : r < h.rc) (he : e < h.vl) (hkm : h.km.getLsbD r = true) (hk : k < n) :
    putElements h g ea n val h.rowItems u (galleryEl h g ea n (r * h.vl + e) + k) = BitVec.ofNat 8 (val (r * h.vl + e) / 2 ^ (8 * k)) := by
  obtain ⟨hdiv, -, hlt⟩ := h.item_spec hr he
  exact putElements_inside h g ea n val h.rowItems_nodup (Hart.mem_rowItems.mpr ⟨hlt, by rwa [hdiv]⟩) hk u

theorem putRows_outside {b : Nat} (hb : ∀ r e, r < h.rc → e < h.vl → h.km.getLsbD r = true →
    b < galleryEl h g ea n (r * h.vl + e) ∨ galleryEl h g ea n (r * h.vl + e) + n ≤ b) : putElements h g ea n val h.rowItems u b = u b := by
  refine putElements_outside h g ea n val (fun i hi => ?_) u
  obtain ⟨hlt, hkm⟩ := Hart.mem_rowItems.mp hi
  have hvl : 0 < h.vl := Nat.pos_of_ne_zero fun hz => by simp [hz] at hlt
  have hel := hb (i / h.vl) (i % h.vl) (Nat.div_lt_of_lt_mul (by rwa [Nat.mul_comm] at hlt)) (Nat.mod_lt _ hvl) hkm
  rwa [Nat.div_add_mod'] at hel

end

end Sys2Proof.Machine

namespace Sys2Proof.Proofs

open Sys2Proof Sys2Proof.Machine

/-- Settles O34: each check that fails is its trap, a store past them is by the first of its elements that faults, and one into the gallery
puts every element of an enabled row at its place. -/
theorem vectorStores : Obligations.VectorStores := by
  unfold Obligations.VectorStores
  intro s h i len form hs hi hstore m v f q r stored
  refine ⟨fun t ht => exec_memForm?_fault hs hi ht, fun hr hflag => ⟨fun hstop => ?_, fun e hstop he => ?_⟩, ?_⟩
  · have hall : (v.todo h f).filter (fun i => decide (i < h.rc * h.vl)) = (v.todo h f).filter (fun _ => true) :=
      List.filter_congr fun i hi => decide_eq_true (Vec.mem_todo_lt hr.streams hi)
    rw [exec_store_ready hs hi hr hstore, MemForm.runStore_complete rfl hflag hr.streams rfl hstop, MemForm.cleared, ← hall]
    rfl
  · rw [exec_store_ready hs hi hr hstore, MemForm.runStore_fault rfl hflag rfl hstop he, MemForm.elTrap, MemForm.isWhole_store hstore]
    rfl
  · intro g ap base off size hvst hg hq hpoison hswi hready hsb n ea loc hn hpath hal hin hsize
    subst hvst
    cases hi
    have hrun : GalleryRun s h g (unitAddr h base off size) n (h.rc * h.vl) := ⟨hg, hn, hpath, hal, hin, hsize⟩
    obtain ⟨u, hexec, hu⟩ := exec_vst_gallery hs hq hpoison hswi hready hsb hrun
    obtain ⟨h', hh, hpc, hx, hplane, hbyte⟩ := State.Stored.ran (v := fun h => (unitForm false ap base off size h).vec h) hs hu rfl 0 4
    refine ⟨_, h', hexec, hh, hpc, hx, hplane, fun r e k hr he hkm hk => ?_, fun b hb => ?_⟩
    · rw [hbyte]
      have hin := putRows_inside (h := h) (g := g) (ea := unitAddr h base off size) (fun i => h.getEl (h.apt ap) (i / h.vl) (i % h.vl))
        (u := s.byte) hr he hkm hk
      obtain ⟨hdiv, hmod, -⟩ := h.item_spec hr he
      simp only [hdiv, hmod] at hin
      exact hin
    · rw [hbyte]
      exact putRows_outside _ hb

end Sys2Proof.Proofs
end

section
/-! A copy inside a core's gallery, run to its end (R204, R205, R247, R248). -/

namespace Sys2Proof.Machine

open Sys2Proof

/-! ### What an engine finds in a gallery, with nothing outstanding and nothing damaged -/

/-- An address of path 1 with bytes after it that path 1 holds. -/
theorem gallery_address {va : Word} {k : Nat} (hp : pathOf va = 1) (hin : va.toNat % 2 ^ 61 + k ≤ 2 ^ 21) :
    pathOf (va + BitVec.ofNat 64 k) = 1 ∧ (va + BitVec.ofNat 64 k).toNat % 2 ^ 61 = va.toNat % 2 ^ 61 + k := by
  rw [pathOf] at hp
  have hsum : (va + BitVec.ofNat 64 k).toNat = va.toNat + k := by
    rw [BitVec.toNat_add, BitVec.toNat_ofNat]
    omega
  rw [pathOf, hsum]
  constructor <;> omega

theorem length_peek (mem : Memory) (loc n : Nat) : (peek mem loc n).length = n := by simp [peek]

theorem getElem?_peek (mem : Memory) {loc n k : Nat} (hk : k < n) : (peek mem loc n)[k]? = some (SMap.get (w := 8) mem (loc + k)) := by
  simp [peek, hk]

section
variable {s : State} {c : EngineCmd} {va : Word} {m : Nat}

theorem State.enginePlace_gallery (hp : pathOf va = 1) (hin : va.toNat % 2 ^ 61 + m ≤ c.galSize) (u : Use) :
    s.enginePlace c u va m = .ok (s, galleryLoc c.core (c.galBase + va.toNat % 2 ^ 61)) := by
  have hadm : u.admits 1 (c.priv != .u) = true := by simp [Use.admits]
  simp only [State.enginePlace, hp, hadm, Bool.not_true, Bool.false_eq_true, if_false, if_true, hin]

theorem State.poke_undamaged (hpoison : s.poison = []) (loc : Nat) (bs : List Byte) : (s.poke loc bs).poison = [] := by
  change clearPoison s.poison loc bs.length = []
  rw [hpoison]
  rfl

variable (hquiet : ∀ g ∈ s.harts, g.pending = []) (hpoison : s.poison = [])
include hquiet

theorem State.engineSees_quiet (loc : Nat) : s.engineSees c loc m = s := by
  rw [State.engineSees, State.settle_quiet hquiet, State.performAll_quiet hquiet]

include hpoison

theorem State.engineFetch_gallery (hp : pathOf va = 1) (hin : va.toNat % 2 ^ 61 + m ≤ c.galSize) :
    s.engineFetch c va m = .ok (s, peek s.mem (galleryLoc c.core (c.galBase + va.toNat % 2 ^ 61)) m, false) := by
  have h3 : pathOf va ≠ 3 := by rw [hp]; decide
  rw [State.engineFetch, State.enginePlace_gallery hp hin]
  simp only [h3, if_false, State.engineSees_quiet hquiet, hpoison]
  rfl

theorem State.engineWrite_gallery (hp : pathOf va = 1) {bs : List Byte} (hin : va.toNat % 2 ^ 61 + bs.length ≤ c.galSize) (back : Nat) :
    s.engineWrite c va bs back = .ok (s.poke (galleryLoc c.core (c.galBase + va.toNat % 2 ^ 61)) bs) := by
  rw [State.engineWrite, State.enginePlace_gallery hp hin]
  generalize galleryLoc c.core (c.galBase + va.toNat % 2 ^ 61) = loc
  have hclear (a k : Nat) : clearPoison (s.poke loc bs).poison a k = (s.poke loc bs).poison := by
    rw [State.poke_undamaged hpoison]
    rfl
  simp only [State.engineSees_quiet hquiet, hclear, ite_self, Bool.false_and, Bool.false_eq_true, if_false]

/-- A piece of a copy from gallery to gallery is bytes put at their places. -/
theorem State.copyStep_gallery {dst src : Word} (hd : pathOf dst = 1) (hr : pathOf src = 1) (hdin : dst.toNat % 2 ^ 61 + m ≤ c.galSize)
    (hrin : src.toNat % 2 ^ 61 + m ≤ c.galSize) (hm : 0 < m) : ∃ k, 0 < k ∧ k ≤ m ∧ s.copyStep c dst src m =
      .ok (s.poke (galleryLoc c.core (c.galBase + dst.toNat % 2 ^ 61)) (peek s.mem (galleryLoc c.core (c.galBase + src.toNat % 2 ^ 61)) k), k) := by
  obtain ⟨k, hk⟩ : ∃ k, k = min m (min (65536 - dst.toNat % 65536) (65536 - src.toNat % 65536)) := ⟨_, rfl⟩
  have hpos : 0 < k := by omega
  have hle : k ≤ m := by omega
  refine ⟨k, hpos, hle, ?_⟩
  rw [State.copyStep, ← hk]
  simp only [hpoison, List.isEmpty_nil, if_true]
  rw [State.engineFetch_gallery hquiet hpoison hr (by omega)]
  simp only [Bool.false_and, Bool.false_eq_true, if_false]
  rw [State.engineWrite_gallery hquiet hpoison hd (by rw [length_peek]; omega)]

end

/-! ### A copy and how far it has come -/

/-- A command that copies n bytes between ranges of its core's gallery that do not meet. -/
structure GalleryCopy (c : EngineCmd) (dst src : Word) (n : Nat) : Prop where
  work : c.work = .copy dst src n
  total : c.total = n
  ctr : c.ctr = 0
  missing : c.missing = []
  size : c.galSize ≤ 2 ^ 21
  dstPath : pathOf dst = 1
  srcPath : pathOf src = 1
  dstIn : dst.toNat % 2 ^ 61 + n ≤ c.galSize
  srcIn : src.toNat % 2 ^ 61 + n ≤ c.galSize
  apart : dst.toNat % 2 ^ 61 + n ≤ src.toNat % 2 ^ 61 ∨ src.toNat % 2 ^ 61 + n ≤ dst.toNat % 2 ^ 61

/-- Where an address of path 1 lies in the gallery of a command's core. -/
def EngineCmd.galleryAt (c : EngineCmd) (va : Word) : Nat := galleryLoc c.core (c.galBase + va.toNat % 2 ^ 61)

/-- A command of which k bytes are done. -/
def EngineCmd.upTo (c : EngineCmd) (k : Nat) : EngineCmd := { c with next := k }

/-- Memory with k bytes from `b` on moved to `a`. -/
def moved (f : Nat → Byte) (a b k loc : Nat) : Byte := if a ≤ loc ∧ loc < a + k then f (b + (loc - a)) else f loc

theorem moved_inside (f : Nat → Byte) (a b : Nat) {k i : Nat} (hi : i < k) : moved f a b k (a + i) = f (b + i) := by
  rw [moved, if_pos ⟨Nat.le_add_right _ _, Nat.add_lt_add_left hi a⟩, Nat.add_sub_cancel_left]

theorem moved_outside (f : Nat → Byte) {a k loc : Nat} (b : Nat) (hloc : loc < a ∨ a + k ≤ loc) : moved f a b k loc = f loc := by
  rw [moved, if_neg (by omega)]

/-- k bytes of a copy are done, and nothing else has changed. -/
structure State.Copied (s : State) (c : EngineCmd) (dst src : Word) (k : Nat) (u : State) : Prop where
  engines : u.engines = [c.upTo k]
  poison : u.poison = []
  quiet : ∀ g ∈ u.harts, g.pending = []
  bytes : u.byte = moved s.byte (c.galleryAt dst) (c.galleryAt src) k

/-- Bytes read past what has been moved, and put after it, are moved too. -/
theorem overwrite_moved {f : Nat → Byte} {a b n k m : Nat} {bs : List Byte} (hapart : a + n ≤ b ∨ b + n ≤ a) (hkm : k + m ≤ n)
    (hlen : bs.length = m) (hbs : ∀ i, i < m → bs[i]? = some (moved f a b k (b + k + i))) :
    overwrite (moved f a b k) (a + k) bs = moved f a b (k + m) := by
  funext loc
  by_cases hin : a + k ≤ loc ∧ loc < a + k + m
  · obtain ⟨i, rfl⟩ := Nat.exists_eq_add_of_le hin.1
    have hi : i < m := by omega
    rw [overwrite_inside _ (hbs i hi), moved_outside f b (by omega), Nat.add_assoc a k i, moved_inside f a b (Nat.add_lt_add_left hi k), Nat.add_assoc]
  · rw [overwrite_outside _ (by omega), moved, moved]
    have hiff : (a ≤ loc ∧ loc < a + k) ↔ a ≤ loc ∧ loc < a + (k + m) := by omega
    rw [if_congr hiff rfl rfl]

theorem State.engine?_only {s : State} {c : EngineCmd} (he : s.engines = [c]) : s.engine? c.id = some c := by
  rw [State.engine?, he, List.find?_cons_of_pos (by simp)]

theorem State.engine?_upTo {s : State} {c : EngineCmd} {k : Nat} (he : s.engines = [c.upTo k]) : s.engine? c.id = some (c.upTo k) :=
  State.engine?_only he

theorem State.setEngine_only {s : State} {c d : EngineCmd} (he : s.engines = [c]) (hid : c.id = d.id) :
    s.setEngine d = { s with engines := [d] } := by
  simp [State.setEngine, he, hid]

section
variable {s u : State} {c : EngineCmd} {dst src : Word} {n k : Nat} (hcopy : GalleryCopy c dst src n)
include hcopy

theorem GalleryCopy.apart_places : c.galleryAt dst + n ≤ c.galleryAt src ∨ c.galleryAt src + n ≤ c.galleryAt dst := by
  have hapart := hcopy.apart
  rw [EngineCmd.galleryAt, EngineCmd.galleryAt, galleryLoc_add, galleryLoc_add]
  omega

theorem GalleryCopy.galleryAt_add {va : Word} (hp : pathOf va = 1) (hin : va.toNat % 2 ^ 61 + n ≤ c.galSize) (hk : k ≤ n) :
    pathOf (va + BitVec.ofNat 64 k) = 1 ∧ (va + BitVec.ofNat 64 k).toNat % 2 ^ 61 + (n - k) ≤ c.galSize ∧
      c.galleryAt (va + BitVec.ofNat 64 k) = c.galleryAt va + k := by
  have hsize := hcopy.size
  obtain ⟨hpath, hoff⟩ := gallery_address (k := k) hp (by omega)
  refine ⟨hpath, ?_, ?_⟩
  · rw [hoff]
    omega
  · rw [EngineCmd.galleryAt, hoff, ← Nat.add_assoc, galleryLoc_add, EngineCmd.galleryAt]

/-- A piece of the copy more is done. -/
theorem GalleryCopy.step (hu : s.Copied c dst src k u) (hk : k < n) : ∃ m t, 0 < m ∧ k + m ≤ n ∧
    u.engineUnit (c.upTo k) (n - k) = .ok (t, m) ∧ t.engines = u.engines ∧
    s.Copied c dst src (k + m) (t.setEngine (c.upTo (k + m))) := by
  obtain ⟨hdp, hdin, hdat⟩ := hcopy.galleryAt_add hcopy.dstPath hcopy.dstIn hk.le
  obtain ⟨hrp, hrin, hrat⟩ := hcopy.galleryAt_add hcopy.srcPath hcopy.srcIn hk.le
  obtain ⟨m, hpos, hle, hstep⟩ := State.copyStep_gallery (c := c.upTo k) hu.quiet hu.poison hdp hrp hdin hrin (Nat.sub_pos_of_lt hk)
  have hkm : k + m ≤ n := by omega
  have hunit : u.engineUnit (c.upTo k) (n - k) =
      .ok (u.poke (c.galleryAt dst + k) (peek u.mem (c.galleryAt src + k) m), m) := by
    rw [State.engineUnit, show (c.upTo k).work = .copy dst src n from hcopy.work]
    refine hstep.trans ?_
    rw [← hdat, ← hrat]
    rfl
  refine ⟨m, _, hpos, hkm, hunit, rfl, ⟨?_, State.poke_undamaged hu.poison _ _, hu.quiet, ?_⟩⟩
  · exact congrArg State.engines (State.setEngine_only (hu.engines :) (d := c.upTo (k + m)) rfl)
  · change (u.poke _ _).byte = _
    rw [State.byte_poke_eq, hu.bytes]
    refine overwrite_moved hcopy.apart_places hkm (length_peek _ _ _) fun i hi => ?_
    rw [getElem?_peek _ hi, ← hu.bytes]
    rfl

/-- A copy transferred as far as all its bytes. -/
theorem GalleryCopy.transfer : ∀ (N : Nat) {u : State} {k : Nat}, s.Copied c dst src k u → k ≤ n → n ≤ k + N →
    s.Copied c dst src n (State.transfer c.id n N u)
  | 0, u, k, hu, hk, hN => by
    obtain rfl : k = n := by omega
    exact hu
  | N + 1, u, k, hu, hk, hN => by
    rw [State.transfer, State.engine?_upTo hu.engines]
    dsimp only
    obtain rfl | hlt := Nat.eq_or_lt_of_le hk
    · rw [if_pos (show k ≤ (c.upTo k).next from le_refl k)]
      exact hu
    · obtain ⟨m, t, hpos, hkm, hunit, ht, hstep⟩ := hcopy.step hu hlt
      have hnext : min (c.upTo k).total ((c.upTo k).next + m) = k + m := by
        rw [show (c.upTo k).total = n from hcopy.total]
        exact Nat.min_eq_right hkm
      rw [if_neg (show ¬ n ≤ (c.upTo k).next from Nat.not_le.mpr hlt), show (c.upTo k).next = k from rfl, hunit]
      dsimp only
      rw [State.engine?_upTo (ht.trans hu.engines)]
      dsimp only
      rw [hnext]
      exact GalleryCopy.transfer N hstep hkm (by omega)

/-! ### Its run and its end -/

theorem GalleryCopy.releases : c.releases = false := by
  rw [EngineCmd.releases, hcopy.work, hcopy.ctr]
  rfl

theorem GalleryCopy.startable : c.startable = true := by
  rw [EngineCmd.startable, EngineCmd.group?, hcopy.work]
  rfl

theorem GalleryCopy.version : c.version = none := by
  rw [EngineCmd.version, hcopy.work]

theorem GalleryCopy.readSkip (s : State) : s.readSkip c = .ok (s, c) := by
  rw [State.readSkip, hcopy.work]

theorem GalleryCopy.upTo (k : Nat) : GalleryCopy (c.upTo k) dst src n := by
  obtain ⟨h1, h2, h3, h4, h5, h6, h7, h8, h9, h10⟩ := hcopy
  exact ⟨h1, h2, h3, h4, h5, h6, h7, h8, h9, h10⟩

omit hcopy in
theorem State.follows_self (s : State) (c : EngineCmd) : s.follows c c = false := by
  rw [State.follows, decide_eq_false (Nat.lt_irrefl _), Bool.and_false, Bool.false_and]

/-- The only command, none of whose bytes is done, runs to its end. -/
theorem GalleryCopy.advanceAll (hs : s.Copied c dst src 0 s) (hnext : c.next = 0) : s.Copied c dst src n (s.advanceAll c.id) := by
  have hc : c.upTo 0 = c := by
    rw [EngineCmd.upTo, ← hnext]
  have he : s.engines = [c] := by rw [hs.engines, hc]
  have holds : s.engines.filter (fun d => s.follows c d) = [] := by
    rw [he, List.filter_cons_of_neg (by rw [State.follows_self]; exact Bool.false_ne_true), List.filter_nil]
  have hset : s.setEngine c = s := by
    rw [State.setEngine_only he rfl, ← he]
  rw [State.advanceAll, State.engine?_only he]
  dsimp only
  rw [State.advance, State.engine?_only he]
  dsimp only
  rw [holds, List.foldl_nil, hcopy.startable, hcopy.readSkip]
  simp only [List.any_nil, Bool.not_true, Bool.or_false, Bool.false_eq_true, if_false]
  rw [hset, hcopy.total]
  exact hcopy.transfer _ hs (Nat.zero_le n) (by omega)

/-- A copy whose bytes are done ends. -/
theorem GalleryCopy.closeEngine : s.closeEngine c = s.endEngine c 0 := by
  rw [State.closeEngine, hcopy.missing, hcopy.releases, hcopy.version, hcopy.ctr]
  cases c.hid <;> rfl

end

/-- A command that ends done is gone, and no byte changes. -/
theorem State.endEngine_done {s : State} {c : EngineCmd} (he : s.engines = [c]) :
    (s.endEngine c 0).engines = [] ∧ (s.endEngine c 0).byte = s.byte := by
  have hgone : s.engines.filter (fun d => d.id != c.id) = [] := by simp [he]
  simp only [State.endEngine, hgone, if_true]
  split <;> exact ⟨rfl, rfl⟩

theorem GalleryCopy.completeEngine {s : State} {c : EngineCmd} {dst src : Word} {n : Nat} (hcopy : GalleryCopy c dst src n)
    (hs : s.Copied c dst src 0 s) (hnext : c.next = 0) :
    (s.completeEngine c.id).engines = [] ∧ (s.completeEngine c.id).byte = moved s.byte (c.galleryAt dst) (c.galleryAt src) n := by
  have hc : c.upTo 0 = c := by
    rw [EngineCmd.upTo, ← hnext]
  have hrun := hcopy.advanceAll hs hnext
  have hend := State.endEngine_done hrun.engines
  rw [State.completeEngine, State.complete, State.engine?_only (hs.engines.trans (by rw [hc]))]
  dsimp only
  rw [hcopy.releases, if_neg Bool.false_ne_true, List.foldl_nil, State.engine?_upTo hrun.engines]
  dsimp only
  rw [(hcopy.upTo n).startable, show (c.upTo n).next = n from rfl, show (c.upTo n).total = n from hcopy.total, decide_eq_false (lt_irrefl n)]
  simp only [List.any_nil, Bool.not_true, Bool.or_false, Bool.false_eq_true, if_false]
  rw [(hcopy.upTo n).closeEngine]
  exact ⟨hend.1, hend.2.trans hrun.bytes⟩

end Sys2Proof.Machine

namespace Sys2Proof.Proofs

open Sys2Proof Sys2Proof.Machine

/-- Settles O52: each piece of the copy puts bytes of SRC that no piece has changed at their places in DST, and the last one ends it. -/
theorem copyMovesBytes : Obligations.CopyMovesBytes := by
  unfold Obligations.CopyMovesBytes
  intro s c dst src n hpower he hpoison hquiet hwork htotal hnext hctr hmissing hsize hdp hrp d r hdin hrin hapart at'
  have hcopy : GalleryCopy c dst src n := ⟨hwork, htotal, hctr, hmissing, hsize, hdp, hrp, hdin, hrin, hapart⟩
  have hstart : s.Copied c dst src 0 s := by
    refine ⟨by rw [he, EngineCmd.upTo, ← hnext], hpoison, hquiet, ?_⟩
    exact (funext fun loc => moved_outside s.byte _ (Nat.lt_or_ge loc _)).symm
  obtain ⟨hgone, hbyte⟩ := hcopy.completeEngine hstart hnext
  have hat (o i : Nat) : at' (o + i) = at' o + i := by
    change galleryLoc _ (c.galBase + (o + i)) = _
    rw [← Nat.add_assoc, galleryLoc_add]
    rfl
  refine ⟨s.completeEngine c.id, event_eq hpower (fun s => s.completeEngine c.id), hgone, fun i hi => ?_, fun loc hloc => ?_⟩
  · rw [hbyte, hat, hat]
    exact moved_inside s.byte (at' d) (at' r) hi
  · rw [hbyte]
    rw [hat] at hloc
    exact moved_outside s.byte (at' r) hloc

end Sys2Proof.Proofs
end

section
/-! The cycle counter of a core never goes back, whatever cycles pass (R327). -/

namespace Sys2Proof.Machine

open Sys2Proof

/-! ### One core -/

/-- The same core, in its cycle or a later one. -/
def CoreSt.Onward (c d : CoreSt) : Prop := d.q = c.q ∧ c.cyc ≤ d.cyc

namespace CoreSt.Onward

theorem refl (c : CoreSt) : c.Onward c := ⟨rfl, le_rfl⟩

theorem trans {c d e : CoreSt} (h : c.Onward d) (k : d.Onward e) : c.Onward e := ⟨k.1.trans h.1, h.2.trans k.2⟩

theorem foldl {α : Type} {f : CoreSt → α → CoreSt} (hf : ∀ (c : CoreSt) a, c.Onward (f c a)) : ∀ (l : List α) (c : CoreSt), c.Onward (l.foldl f c)
  | [], c => refl c
  | a :: l, c => (hf c a).trans (foldl hf l _)

theorem wakeEngine (c : CoreSt) : c.Onward c.wakeEngine := by
  unfold CoreSt.wakeEngine
  split
  · split <;> exact ⟨rfl, le_rfl⟩
  · exact refl c

theorem opened (c : CoreSt) : c.Onward c.opened :=
  (trans (d := c.landTransit) ⟨rfl, le_rfl⟩ (wakeEngine _)).trans (foldl (f := CoreSt.wakeGroup) (fun _ _ => ⟨rfl, le_rfl⟩) _ _)

theorem fly (c : CoreSt) (j : TransitJob) : c.Onward (c.fly j) := by
  unfold CoreSt.fly
  dsimp only
  cases j.kind <;> exact ⟨rfl, le_rfl⟩

theorem issueEntry (c : CoreSt) (i : Nat) (j : TransitJob) : c.Onward (c.issueEntry i j) := by
  refine (fly c j).trans ?_
  unfold CoreSt.issueEntry
  dsimp only
  split <;> exact ⟨rfl, le_rfl⟩

theorem issueReady (c : CoreSt) (d : DieSt) : c.Onward (c.issueReady d) := by
  unfold CoreSt.issueReady
  dsimp only
  split
  · exact refl c
  next i j _ =>
    split
    next n k _ =>
      obtain ⟨hq, hc⟩ := (issueEntry c n k).trans (issueEntry _ i j)
      exact ⟨hq, hc⟩
    · obtain ⟨hq, hc⟩ := issueEntry c i j
      exact ⟨hq, hc⟩

theorem transit1 (c : CoreSt) (d : DieSt) : c.Onward (c.transit1 d) := by
  unfold CoreSt.transit1
  split
  · exact refl c
  · split
    · exact refl c
    · split <;> exact ⟨rfl, le_rfl⟩
    · exact issueReady c d

theorem joinDrain (d : Nat) : ∀ (n k : Nat) (p : Job) (c : CoreSt), c.Onward (CoreSt.joinDrain d n k p c)
  | 0, _, _, c => refl c
  | n + 1, k, p, c => by
    unfold CoreSt.joinDrain
    split
    · exact refl c
    · split
      · obtain ⟨hq, hc⟩ := joinDrain d n (k + 1) _ (c.issue _ _ _)
        exact ⟨hq, hc⟩
      · exact refl c

theorem runPass (c : CoreSt) (j : Job) : c.Onward (c.runPass j) := by
  unfold CoreSt.runPass
  dsimp only
  split
  · obtain ⟨hq, hc⟩ := joinDrain j.seq 4 1 j c
    exact ⟨hq, hc⟩
  · exact ⟨rfl, le_rfl⟩

theorem runPasses (c : CoreSt) : c.Onward c.runPasses := by
  refine foldl (fun c slot => ?_) _ c
  split
  · exact refl c
  · exact runPass c _

theorem gateEngine (c : CoreSt) : c.Onward c.gateEngine := by
  unfold CoreSt.gateEngine
  dsimp only
  split
  · split <;> exact ⟨rfl, le_rfl⟩
  · exact refl c

theorem work (c : CoreSt) (d : DieSt) : c.Onward (c.work d) :=
  (((transit1 c d).trans (runPasses _)).trans (foldl (f := CoreSt.gateGroup) (fun _ _ => ⟨rfl, le_rfl⟩) _ _)).trans (gateEngine _)

theorem relocked (c : CoreSt) : c.Onward c.relocked := by
  unfold CoreSt.relocked
  split <;> exact ⟨rfl, le_rfl⟩

theorem countIdle (c : CoreSt) : c.Onward c.countIdle := by
  unfold CoreSt.countIdle
  split <;> exact ⟨rfl, le_rfl⟩

theorem count (c : CoreSt) : c.Onward c.count := ⟨rfl, Nat.le_succ _⟩

theorem stepEnd (c : CoreSt) (n : Nat) : c.Onward (c.stepEnd n) := by
  have hquieten (d : CoreSt) : d.Onward (d.quieten n) := by
    unfold CoreSt.quieten
    split <;> exact ⟨rfl, le_rfl⟩
  unfold CoreSt.stepEnd
  split
  · exact ⟨rfl, le_rfl⟩
  next j _ =>
    extract_lets moved
    have hmoved : c.Onward moved := by
      unfold moved
      split
      · exact ⟨rfl, le_rfl⟩
      · split <;> exact ⟨rfl, le_rfl⟩
    obtain ⟨hq, hc⟩ := hmoved.trans (hquieten moved)
    exact ⟨hq, hc⟩

end CoreSt.Onward

/-! ### A core of a state -/

/-- Core p is in its cycle or a later one. -/
def State.Onward (p : Nat) (s t : State) : Prop := (s.coreAt p).cyc ≤ (t.coreAt p).cyc

namespace State.Onward

theorem trans {p : Nat} {s t u : State} (h : State.Onward p s t) (k : State.Onward p t u) : State.Onward p s u := Nat.le_trans h k

theorem foldl {α : Type} {p : Nat} {f : State → α → State} (hf : ∀ (s : State) a, State.Onward p s (f s a)) :
    ∀ (l : List α) (s : State), State.Onward p s (l.foldl f s)
  | [], _ => le_rfl
  | a :: l, s => (hf s a).trans (foldl hf l _)

theorem updCore (p : Nat) (s : State) (q : Nat) {f : CoreSt → CoreSt} (hf : ∀ c : CoreSt, c.Onward (f c)) : State.Onward p s (s.updCore q f) := by
  unfold State.Onward
  rw [Laws.coreAt_updCore s q p f ((hf _).1.trans (Laws.coreAt_q s q))]
  split
  next e =>
    subst e
    exact (hf _).2
  · exact le_rfl

theorem sequence (p : Nat) (s : State) (q : Nat) : State.Onward p s (s.sequence q) := by
  unfold State.sequence
  split
  · exact Nat.le_refl _
  · refine (foldl (fun s g => ?_) _ s).trans (updCore p _ q (fun _ => ⟨rfl, le_rfl⟩))
    unfold State.decide1
    dsimp only
    split
    · exact Nat.le_refl _
    · exact updCore p (s.setGang _) _ (fun _ => ⟨rfl, le_rfl⟩)

theorem nextCycle (p : Nat) (s : State) (q : Nat) : State.Onward p s (s.nextCycle q) := by
  unfold State.nextCycle
  split
  · exact Nat.le_refl _
  · refine updCore p s q (fun c => ?_)
    obtain ⟨hq, hc⟩ := (CoreSt.Onward.countIdle c).trans (CoreSt.Onward.count _)
    exact ⟨hq, hc⟩

theorem coreCycle (p : Nat) (s : State) (q : Nat) : State.Onward p s (s.coreCycle q) := by
  unfold State.coreCycle
  split
  · exact updCore p s q CoreSt.Onward.relocked
  · exact (((updCore p s q CoreSt.Onward.opened).trans (sequence p _ q)).trans (updCore p _ q (fun c => CoreSt.Onward.work c _))).trans
      (nextCycle p _ q)

theorem catchUp (p q time : Nat) : ∀ (n : Nat) (s : State), State.Onward p s (s.catchUp q time n)
  | 0, _ => le_rfl
  | n + 1, s => by
    unfold State.catchUp
    split
    · exact Nat.le_refl _
    · exact (coreCycle p s q).trans (catchUp p q time n _)

theorem toBoundary (p : Nat) (s : State) (q time : Nat) : State.Onward p s (s.toBoundary q time) :=
  (catchUp p q time _ s).trans (updCore p _ q CoreSt.Onward.opened)

/-- A die at the same step or a later one: an untouched core of it has come as far. -/
theorem setDie (p : Nat) (s : State) {d : Nat} {e : DieSt} (hd : e.d = d) (he : (s.dieAt d).steps ≤ e.steps) :
    State.Onward p s (s.setDie e) := by
  subst hd
  unfold State.Onward State.coreAt
  rw [State.setDie_cores]
  split
  · exact le_rfl
  · rw [State.dieAt_setDie]
    split
    next hd =>
      rw [hd] at he
      exact Nat.mul_le_mul_left 4 he
    · exact le_rfl

theorem mapCores (p : Nat) (s : State) {f : CoreSt → CoreSt} (hf : ∀ c : CoreSt, c.Onward (f c)) :
    State.Onward p s { s with cores := s.cores.map f } := by
  have hfind : (s.cores.map f).find? (fun c => c.q == p) = (s.cores.find? (fun c => c.q == p)).map f := by
    rw [List.find?_map]
    exact congrArg (fun g => (s.cores.find? g).map f) (funext fun c => congrArg (· == p) (hf c).1)
  unfold State.Onward State.coreAt
  dsimp only
  rw [hfind]
  cases s.cores.find? (fun c => c.q == p) with
  | none => exact le_rfl
  | some c => exact (hf c).2

theorem startCores (p d ptr : Nat) : ∀ (ks : List Nat) (n : Nat) (s : State), State.Onward p s (startCores d ptr n ks s)
  | [], n, s => by
    unfold Machine.startCores
    exact Nat.le_refl _
  | k :: ks, 0, s => by
    unfold Machine.startCores
    exact Nat.le_refl _
  | k :: ks, n + 1, s => by
    unfold Machine.startCores
    dsimp only
    split
    · refine .trans ?_ (startCores p d ptr ks n _)
      refine .trans (updCore p s (8 * ((ptr + k) % 64) + d) (f := fun c => { c with slew := some 0, slewEmpty := 0 }) (fun _ => ⟨rfl, le_rfl⟩)) ?_
      exact setDie p _ (State.dieAt_d _ d) le_rfl
    · exact startCores p d ptr ks (n + 1) s

theorem slewBoundary (p : Nat) (s : State) (d : Nat) : State.Onward p s (s.slewBoundary d) := by
  unfold State.slewBoundary
  refine .trans ?_ (startCores p d _ _ _ _)
  refine .trans (mapCores p s (f := fun c => if c.q % 8 == d then c.stepEnd (s.dieAt d).quiet else c) (fun c => ?_)) (setDie p _ (State.dieAt_d s d) (Nat.le_succ _))
  split
  · exact CoreSt.Onward.stepEnd c _
  · exact CoreSt.Onward.refl c

theorem slewStep (p : Nat) (s : State) (d : Nat) : State.Onward p s (s.slewStep d) :=
  (foldl (fun s q => toBoundary p s q _) _ s).trans (slewBoundary p _ d)

theorem boundaries (p q : Nat) : ∀ (n : Nat) (s : State), State.Onward p s (s.boundaries q n)
  | 0, _ => le_rfl
  | n + 1, s => by
    unfold State.boundaries
    split
    · exact Nat.le_refl _
    · exact (slewStep p s _).trans (boundaries p q n _)

theorem runCycles (p q : Nat) : ∀ (k : Nat) (s : State), State.Onward p s (s.runCycles q k)
  | 0, _ => le_rfl
  | k + 1, s => ((boundaries p q 7 s).trans (coreCycle p _ q)).trans (runCycles p q k _)

end State.Onward

end Sys2Proof.Machine
end

section
/-! Power hints, TSHAPE and the restart label (R253, R255, R257, R267, R269, R328). -/

namespace Sys2Proof.Machine

open Sys2Proof

theorem State.runCycles_succ (q : Nat) : ∀ (k : Nat) (s : State), (s.runCycles q k).runCycles q 1 = s.runCycles q (k + 1)
  | 0, _ => rfl
  | k + 1, _ => State.runCycles_succ q k _

theorem State.timePasses_runCycles (q : Nat) : ∀ (k : Nat) (s : State), s.TimePasses (s.runCycles q k)
  | 0, s => .refl s
  | k + 1, s => ((State.timePasses_boundaries q 7 s).trans (State.timePasses_coreCycle _ q)).trans (State.timePasses_runCycles q k _)

/-- `bkt` where the bucket has no room: one more cycle passes. -/
theorem exec_bkt_full {s : State} {h : Hart} (hs : s.hart? = some h) (rd ra : XReg)
    (hfull : let c := (s.passTime h.q).coreAt h.q
      (c.csr.get 0xd40).toNat % 2 ^ 32 < min (h.getX ra).toNat ((c.csr.get 0xd40).toNat % 2 ^ 32) + c.level) :
    exec (.bkt rd ra) s = .next (s.runCycles h.q (Config.cycles s.tick + 1)) := by
  refine (onHart_eq hs 4 _).trans ?_
  dsimp only
  rw [if_neg (Nat.not_le.mpr hfull), Exec.outcome_wait, State.passTime, State.runCycles_succ]

section
variable {s : State} {h : Hart} (hs : s.hart? = some h)
include hs

/-- `tfill` by the room of the queue and by its count (R366). -/
theorem exec_tfill (ra : XReg) : exec (.tfill ra) s =
    if s.transitRoom h then
      if min (h.getX ra).toNat 1024 = 0 then .next (s.stepOver 4)
      else .next ((s.enqueue h .fill [] 0 (min (h.getX ra).toNat 1024) 0).stepOver 4)
    else .next s := by
  refine (onHart_eq hs 4 _).trans ?_
  dsimp only
  cases s.transitRoom h with
  | false => rfl
  | true =>
    rw [if_neg (by simp), if_pos rfl]
    split <;> rfl

omit hs in
/-- The target of a restart label, as its signed sum. -/
theorem restartTarget_eq (pc : Word) (disp : BitVec 32) : BitVec.ofInt 64 (pc.toInt + 4 * disp.toInt) = pc + 4 * disp.signExtend 64 := by
  rw [BitVec.ofInt_add, BitVec.ofInt_mul, BitVec.ofInt_toInt]
  rfl

/-- What O27 says, of every state in which no two gangs stand in one dome slot. -/
theorem State.hintsAndLabels_of_slotsDistinct (hslots : s.SlotsDistinct) (rd ra : XReg) (nm1 : BitVec 6) (km1 : BitVec 7) (disp : BitVec 32) :
    let x := (h.getX ra).toNat
    let u := s.passTime h.q
    let c := u.coreAt h.q
    let cap := (c.csr.get 0xd40).toNat % 2 ^ 32
    (∃ t, exec .twake s = .next (t.stepOver 4) ∧ s.OnlyTiming t ∧ (t.coreAt h.q).engine = (match (s.coreAt h.q).engine with
      | .gated => .waking ((s.coreAt h.q).cyc + 96)
      | .waking n => .waking n
      | .awake _ => .awake 0)) ∧
    (s.transitRoom h = true → x = 0 → exec (.tfill ra) s = .next (s.stepOver 4)) ∧
    (s.transitRoom h = true → 0 < x → ∃ t j, exec (.tfill ra) s = .next (t.stepOver 4) ∧ s.OnlyTiming t ∧
      (t.coreAt h.q).transit = (s.coreAt h.q).transit ++ [j] ∧ j.kind = .fill ∧ j.count = min x 1024 ∧ j.job.slot = h.slot) ∧
    (s.transitRoom h = false → exec (.tfill ra) s = .next s) ∧
    (min x cap + c.level ≤ cap → exec (.bkt rd ra) s = .next (u.did (fun g => g.setX rd (BitVec.ofNat 64 c.level)) 4)) ∧
    (cap < min x cap + c.level → ∃ t, exec (.bkt rd ra) s = .next t ∧ s.OnlyTiming t ∧ c.cyc ≤ (t.coreAt h.q).cyc) ∧
    exec (.tshape nm1 km1) s =
      .next (s.ran (h.setCsr 0xc48 (BitVec.ofNat 64 ((nm1.toNat + 1) * 256 + (km1.toNat + 1)))) 8) ∧
    exec (.trestart disp) s =
      .next (s.ran (h.setCsr 0xc49 (((BitVec.ofInt 64 (h.pc.toInt + 4 * disp.toInt)) &&& ~~~3) ||| 1)) 8) ∧
    exec .tclose s = .next (s.ran (h.setCsr 0xc49 (h.getCsr 0xc49 &&& ~~~1)) 8) := by
  intro x u c cap
  refine ⟨?wake, fun hroom hx => ?none, fun hroom hx => ?fill, fun hroom => ?queue, fun hfits => ?room, fun hfull => ?full,
    ?shape, ?label, hartOp_eq hs 8 _⟩
  case wake =>
    refine ⟨s.updCore h.q CoreSt.wake, onHart_eq hs 4 _, s.onlyTiming_updCore h.q _, ?_⟩
    rw [Laws.coreAt_updCore _ _ _ _ (Laws.coreAt_q s h.q), if_pos rfl]
    unfold CoreSt.wake
    cases (s.coreAt h.q).engine <;> rfl
  case none => rw [exec_tfill hs, if_pos hroom, if_pos (by omega)]
  case fill =>
    refine ⟨s.enqueue h .fill [] 0 (min x 1024) 0,
      ⟨{ hid := h.hid, slot := h.slot, idx := h.idx, seq := (s.coreAt h.q).jobs, bh := h.bh }, .fill, 0, min x 1024, 0, none⟩,
      ?_, s.onlyTiming_updCore h.q _, ?_, rfl, rfl, rfl⟩
    · rw [exec_tfill hs, if_pos hroom, if_neg (by omega)]
    · rw [State.enqueue, Laws.coreAt_updCore _ _ _ _ (Laws.coreAt_q s h.q), if_pos rfl]
  case queue => rw [exec_tfill hs, if_neg (by simp [hroom])]
  case room =>
    refine (onHart_eq hs 4 _).trans ?_
    dsimp only
    rw [if_pos hfits]
    rfl
  case full =>
    refine ⟨_, exec_bkt_full hs rd ra hfull, State.timePasses_runCycles h.q _ s hslots, ?_⟩
    rw [← State.runCycles_succ]
    exact State.Onward.runCycles h.q h.q 1 u
  case shape =>
    rw [← Nat.add_assoc]
    exact hartOp_eq hs 8 _
  case label =>
    rw [restartTarget_eq]
    exact hartOp_eq hs 8 _

end

/-! ### A state in which two gangs stand in one dome slot -/

/-- `twoGangsInOneSlot` with a hart, and with a bucket of its core that is above its capacity and does not leak. -/
def twoGangsAndAFullBucket : State :=
  { twoGangsInOneSlot with
    harts := [Hart.blank]
    cores := [{ CoreSt.reset 0 with
      groups := [⟨some 0, none, false, none, 0⟩], vqueue := [{}], csr := resetWeights.set 0xd41 0, level := 0x10001 }] }

/-- That state after its first cycle. -/
def twoGangsAfterACycle : State := (twoGangsAndAFullBucket.boundaries 0 7).coreCycle 0

theorem twoGangsAfterACycle_gangs : twoGangsAfterACycle.gangs.map (fun g => g.index) = [0, 0] := by decide +kernel

theorem twoGangsAfterACycle_slotsDistinct : twoGangsAfterACycle.SlotsDistinct := by
  unfold State.SlotsDistinct
  decide +kernel

/-- The first cycle's decision of the first gang puts it in the place of the second, too, however many cycles follow. -/
theorem twoGangsAndAFullBucket_runCycles (k : Nat) :
    (twoGangsAndAFullBucket.runCycles 0 (k + 1)).gangs.map (fun g => g.index) = [0, 0] := by
  obtain ⟨⟨-, -, hgangs⟩, -⟩ := State.timePasses_runCycles 0 k twoGangsAfterACycle twoGangsAfterACycle_slotsDistinct
  have hi := congrArg (List.map (fun g : Gang => g.index)) hgangs
  rw [List.map_map, List.map_map] at hi
  exact hi.trans twoGangsAfterACycle_gangs

/-- The bucket stays above its capacity, however many cycles pass. -/
theorem twoGangsAndAFullBucket_full :
    let c := (twoGangsAndAFullBucket.passTime 0).coreAt 0
    (c.csr.get 0xd40).toNat % 2 ^ 32 < c.level := by
  intro c
  have hnow : Laws.Calm 0 0x10001 (resetWeights.set 0xd41 0) (twoGangsAndAFullBucket.coreAt 0) := by
    unfold Laws.Calm
    decide +kernel
  have hcalm := hnow.passTime 0 (by decide +kernel)
  simp only [Laws.Calm, Laws.bucket, Prod.mk.injEq] at hcalm
  obtain ⟨-, -, hlevel, hcsr⟩ := hcalm
  rw [show c.level = _ from hlevel, show c.csr = _ from hcsr]
  decide +kernel

end Sys2Proof.Machine

namespace Sys2Proof.Proofs

open Sys2Proof Sys2Proof.Machine

/-- Refutes O27: it says of every state that of the gangs a `bkt` that waits changes only what the sequencer keeps, which needs that no two
gangs stand in one dome slot. In `twoGangsAndAFullBucket` two gangs do, and a bucket that has no room; in the first cycle that passes one
gang decides, and the model's update of its slot overwrites the other. The fit test asks for a free slot, so that no placement leads to
such a state; but the statement has no premise that leaves it out, and `State.hintsAndLabels_of_slotsDistinct` shows that nothing else is
missing. -/
theorem not_hintsAndLabels : ¬ Obligations.HintsAndLabels := by
  unfold Obligations.HintsAndLabels
  intro h
  have hs : twoGangsAndAFullBucket.hart? = some Hart.blank := rfl
  have hfull : let c := (twoGangsAndAFullBucket.passTime Hart.blank.q).coreAt Hart.blank.q
      (c.csr.get 0xd40).toNat % 2 ^ 32 < min (Hart.blank.getX 0).toNat ((c.csr.get 0xd40).toNat % 2 ^ 32) + c.level :=
    Nat.lt_add_left _ twoGangsAndAFullBucket_full
  obtain ⟨-, -, -, -, -, hbkt, -⟩ := h twoGangsAndAFullBucket Hart.blank 0 0 0 0 0 hs
  obtain ⟨t, ht, ⟨⟨-, -, hgangs⟩, -⟩, -⟩ := hbkt hfull
  rw [exec_bkt_full hs 0 0 hfull, Host.Outcome.next.injEq] at ht
  have hi := congrArg (List.map (fun g : Gang => g.index)) hgangs
  rw [← ht, List.map_map] at hi
  exact absurd ((twoGangsAndAFullBucket_runCycles _).symm.trans hi) (by decide)

end Sys2Proof.Proofs
end

section
/-! Fences, and a store or an atomic that is performed by itself (R238, R239, R303, R406). -/

namespace Sys2Proof.Machine

open Sys2Proof

/-! ### Which stores are performed (R238, R239) -/

/-- A condition on whole streams marks with a store every older one of its stream already. -/
theorem withOlder_stream {p : Pending → Bool} (hp : ∀ x y : Pending, x.vec = y.vec → p x = p y) :
    ∀ l : List Pending, withOlder (l.map (fun x => (x, p x))) = l.map (fun x => (x, p x))
  | [] => rfl
  | x :: l => by
    rw [List.map_cons, withOlder, withOlder_stream hp l]
    cases hx : p x with
    | true => rfl
    | false =>
      have hyounger : (l.map (fun y => (y, p y))).any (fun y => y.2 && y.1.vec == x.vec &&
          keepOrder x.loc x.bytes.length y.1.loc y.1.bytes.length) = false := by
        refine List.any_eq_false.mpr fun y hy => ?_
        obtain ⟨z, -, rfl⟩ := List.mem_map.mp hy
        by_cases hv : z.vec = x.vec
        · simp [hp z x hv, hx]
        · simp [hv]
      rw [hyounger, Bool.or_false]

/-- What a condition on whole streams leaves outstanding is what does not satisfy it. -/
theorem leftOf_stream {p : Pending → Bool} (hp : ∀ x y : Pending, x.vec = y.vec → p x = p y) (l : List Pending) :
    leftOf p l.length l = l.filter (fun x => !p x) := by
  rw [leftOf, choose_all p l _ le_rfl, withOlder_stream hp, List.filter_map, List.map_map]
  exact List.map_id _

/-- The oldest outstanding store of a hart performed takes no other with it. -/
theorem State.performSome_oldest {s : State} {n : Nat} {h : Hart} (hs : s.hartAt n = some h) {p : Pending} {ps : List Pending}
    (hp : h.pending = p :: ps) :
    s.performSome n (fun _ => true) 1 = (s.updHartAt n (fun g => { g with pending := ps })).perform n p := by
  have hmarked : withOlder (choose (fun _ => true) 1 (p :: ps)) = (p, true) :: ps.map (fun x => (x, false)) := by
    rw [choose, if_pos (by simp), choose_zero, withOlder, withOlder_none]
    rfl
  have hleft : ((ps.map (fun x => (x, false))).filter (fun x => !x.2)).map (fun x => x.1) = ps := by
    rw [List.filter_map, List.map_map]
    simp [Function.comp_def]
  have hrest : (ps.map (fun x => (x, false))).filter (fun x => x.2) = [] := by simp
  rw [State.performSome, hs]
  dsimp only
  rw [hp, hmarked, List.filter_cons_of_neg (by simp), List.filter_cons_of_pos rfl, hleft, hrest]
  rfl

/-- One store or atomic performed: what it leaves of its hart, and memory. -/
theorem State.perform_result {s : State} {n : Nat} {h : Hart} (hs : s.hartAt n = some h) (x : Pending) :
    ∃ g, (s.perform n x).hartAt n = some g ∧ g.pending = h.pending ∧
      (x.rmw = none → g.landed = h.landed ∧ (s.perform n x).mem = SMap.setAll (w := 8) s.mem x.loc x.bytes) ∧
      ∀ a, x.rmw = some a → g.landed = h.landed ++ a.dests.map (fun d => (d, peek s.mem x.loc x.bytes.length)) ∧
        (s.perform n x).mem = (match (a.op.apply (8 * x.bytes.length) (peekNat s.mem x.loc x.bytes.length) a.b).1 with
          | none => s.mem
          | some v => SMap.setAll (w := 8) s.mem x.loc (leBytes x.bytes.length v)) := by
  unfold State.perform
  cases hx : x.rmw with
  | none => exact ⟨h, hs, rfl, fun _ => ⟨rfl, rfl⟩, fun a ha => absurd ha (by simp)⟩
  | some a =>
    dsimp only
    refine ⟨_, State.hartAt_updHartAt (h := h) (by split <;> exact hs) rfl, rfl, fun hn => absurd hn (by simp), fun b hb => ?_⟩
    obtain rfl : a = b := Option.some.inj hb
    refine ⟨rfl, ?_⟩
    unfold peekNat
    generalize (a.op.apply (8 * x.bytes.length) (leNat (peek s.mem x.loc x.bytes.length)) a.b).1 = new
    cases new <;> rfl

/-! ### Fences (R238, R239, R406) -/

/-- What a fence leaves of its hart: of its stores those that the fence does not cover. -/
structure Hart.Fenced (h : Hart) (p : Pending → Bool) (g : Hart) : Prop where
  pending : g.pending = h.pending.filter (fun x => !p x)
  x : g.x = h.x
  pc : g.pc = h.pc
  hid : g.hid = h.hid
  faults : g.engineFaults = h.engineFaults

section
variable {s : State} {h : Hart}

theorem State.performAll_fenced {n : Nat} (hs : s.hartAt n = some h) {p : Pending → Bool} (hp : ∀ x y : Pending, x.vec = y.vec → p x = p y) :
    ∃ g, (s.performAll n p).hartAt n = some g ∧ h.Fenced p g := by
  obtain ⟨g, hg, hto⟩ := State.performSome_hartAt hs p (s.outstanding n)
  have hleft := State.pending_performSome hs p (s.outstanding n)
  have hlen : s.outstanding n = h.pending.length := by rw [State.outstanding, hs]
  rw [hg, Option.map_some, Option.some.injEq, hlen, leftOf_stream hp] at hleft
  exact ⟨g, hg, hleft, by rw [hto], by rw [hto], by rw [hto], by rw [hto]⟩

theorem State.markFence_fenced {n : Nat} {p : Pending → Bool} {t : State} {g : Hart} (ht : t.hartAt n = some g) (hg : h.Fenced p g) :
    ∃ g', (t.markFence n).hartAt n = some g' ∧ h.Fenced p g' :=
  ⟨_, State.hartAt_updHartAt ht rfl, hg.pending, hg.x, hg.pc, hg.hid, hg.faults⟩

theorem State.performAll_engines (s : State) (n : Nat) (p : Pending → Bool) : (s.performAll n p).engines = s.engines := by
  rw [State.performAll, (State.Performed.performSome n s p _).frame]

theorem State.performAll_cur (s : State) (n : Nat) (p : Pending → Bool) : (s.performAll n p).cur = s.cur := by
  rw [State.performAll, (State.Performed.performSome n s p _).frame]

/-- The next instruction follows a fence. -/
theorem State.stepOver_fenced {t : State} {p : Pending → Bool} {g : Hart} (ht : t.hart? = some g) (hg : h.Fenced p g) :
    ∃ g', (t.stepOver 4).hart? = some g' ∧ g'.pending = h.pending.filter (fun x => !p x) ∧ g'.x = h.x ∧ g'.pc = h.pc + 4 := by
  refine ⟨g.commit (g.pc + 4), State.hart?_updHart ht (Hart.commit_hid ..), ?_, ?_, ?_⟩
  · rw [Hart.commit_pending, hg.pending]
  · rw [Hart.commit_x, hg.x]
  · rw [Hart.commit_pc, hg.pc]

theorem fenceEngines_done (hq : s.enginesOf h.hid = []) {g : Hart} (hs : s.hartAt h.hid = some g) (hf : g.engineFaults = []) :
    fenceEngines s h = .done s := by
  rw [fenceEngines, State.completeAll_none hq, hq, hs]
  simp [hf]

theorem fenceEngines_fault (hq : s.enginesOf h.hid = []) {g : Hart} (hs : s.hartAt h.hid = some g) {f : EngineFault} {fs : List EngineFault}
    (hf : g.engineFaults = f :: fs) : fenceEngines s h =
      .trap (s.updHartAt h.hid (fun g => { g with engineFaults := g.engineFaults.drop 1 })) { code := f.code, tva := f.tva } := by
  rw [fenceEngines, State.completeAll_none hq, hq, hs]
  simp [hf]

end

end Sys2Proof.Machine

namespace Sys2Proof.Proofs

open Sys2Proof Sys2Proof.Machine

/-- Settles O24: each fence by the stores that its streams' stores being performed leave, then by what the hart's engines owe it; the oldest
store by what performing one store changes. -/
theorem fencesPerformStores : Obligations.FencesPerformStores := by
  unfold Obligations.FencesPerformStores
  intro s h sc hs
  have hcur : h.hid = s.cur := State.hid_of_hart? hs
  have hat : s.hartAt h.hid = some h := hcur ▸ hs
  have hstream (v : Bool) (x y : Pending) (hv : x.vec = y.vec) : (x.vec == v) = (y.vec == v) := by rw [hv]
  have hall (x y : Pending) (_ : x.vec = y.vec) : (fun _ => true : Pending → Bool) x = (fun _ => true : Pending → Bool) y := rfl
  obtain ⟨gs, hgs, hsc⟩ := State.performAll_fenced hat (hstream false)
  obtain ⟨gv, hgv, hvec⟩ := State.performAll_fenced hat (hstream true)
  obtain ⟨gv, hgv, hvec⟩ := State.markFence_fenced hgv hvec
  obtain ⟨ga, hga, hany⟩ := State.performAll_fenced hat hall
  obtain ⟨ga, hga, hany⟩ := State.markFence_fenced hga hany
  have hmoves {t : State} {g : Hart} (hc : t.cur = s.cur) (ht : t.hartAt h.hid = some g) : t.hart? = some g := by
    rw [State.hart?, hc, ← hcur]
    exact ht
  have hgone (hq : s.enginesOf h.hid = []) (p : Pending → Bool) : ((s.performAll h.hid p).markFence h.hid).enginesOf h.hid = [] :=
    (congrArg (List.filter _) (s.performAll_engines h.hid p)).trans hq
  refine ⟨?scalar, fun hq hf => ⟨fun i hi => ?vector, ?all⟩, fun f fs hq hf => ?fault, fun hpower p ps hp => ?oldest⟩
  case scalar =>
    obtain ⟨g, hg, hpend, hx, hpc⟩ := State.stepOver_fenced (hmoves (s.performAll_cur _ _) hgs) hsc
    refine ⟨_, g, onHart_eq hs 4 _, hg, hpend.trans ?_, hx, hpc⟩
    simp
  case vector =>
    have hdone : fenceEngines (s.performStream h.hid true) h = .done (s.performStream h.hid true) :=
      fenceEngines_done (hgone hq _) hgv (hvec.faults.trans hf)
    obtain ⟨g, hg, hpend, hx, hpc⟩ := State.stepOver_fenced (t := s.performStream h.hid true) (hmoves (s.performAll_cur _ _) hgv) hvec
    refine ⟨(s.performStream h.hid true).stepOver 4, g, ?_, hg, hpend.trans (by simp), hx, hpc⟩
    obtain rfl | rfl := hi <;> exact (onHart_eq hs 4 _).trans (congrArg (Exec.outcome 4) hdone)
  case all =>
    have hdone := fenceEngines_done (hgone hq _) hga (hany.faults.trans hf)
    obtain ⟨g, hg, hpend, hx, hpc⟩ := State.stepOver_fenced (t := (s.drain h.hid).markFence h.hid) (hmoves (s.performAll_cur _ _) hga) hany
    exact ⟨_, g, (onHart_eq hs 4 _).trans (congrArg (Exec.outcome 4) hdone), hg, hpend.trans (by simp), hx, hpc⟩
  case fault =>
    exact (onHart_eq hs 4 _).trans (congrArg (Exec.outcome 4) (fenceEngines_fault (hgone hq _) hga (hany.faults.trans hf)))
  case oldest =>
    have htaken := State.hartAt_updHartAt hs (f := fun g => { g with pending := ps }) rfl
    obtain ⟨g, hg, hpend, hstore, hatomic⟩ := State.perform_result htaken p
    have hone := State.performSome_oldest hs hp
    have hperf := State.Performed.perform s.cur (s.updHartAt s.cur (fun g => { g with pending := ps })) p
    refine ⟨_, g, event_eq hpower (fun s => s.performSome s.cur (fun _ => true) 1), ?_, hpend, ?_⟩
    all_goals rw [hone]
    · rw [State.hart?, hperf.frame]
      exact hg
    · exact ⟨hstore, hatomic⟩

end Sys2Proof.Proofs
end

section
/-! Landings: `larrive`, `lwait`, their memory forms, and the end of a wait (R240 to R244, R407, R420). -/

namespace Sys2Proof.Machine

open Sys2Proof

/-! ### The gang's landing register (R242, R244) -/

/-- A release of a hart without engine commands: its stores are performed at their homes. -/
theorem State.release_noCommands {s : State} {hid : Nat} (hq : s.enginesOf hid = []) :
    s.release hid = ((s.drain hid).markFence hid, true) := by
  have hgone : ((s.drain hid).markFence hid).enginesOf hid = [] := by
    rw [State.enginesOf, State.markFence, State.updHartAt_engines, (State.Performed.drain hid s).frame]
    exact hq
  rw [State.release, State.completeAll_none hgone, hgone]
  rfl

theorem State.release_snd (s : State) (hid : Nat) : (s.release hid).2 = true ↔ (s.release hid).1.enginesOf hid = [] :=
  List.isEmpty_iff

section
variable {s : State} {h : Hart} (hs : s.hart? = some h) (rd ra rb : XReg)
include hs

/-- `larrive` of a hart of a gang (R242). -/
theorem exec_larrive {g : Gang} (hg : s.gangOf h = some g) : exec (.larrive rd) s =
    if g.arr.getLsbD h.idx then .next s
    else if (s.release h.hid).2 then
      .next (((s.release h.hid).1.setGang (g.arrive h.idx)).did (fun k => k.setX rd (g.phase.setWidth 64)) 4)
    else .next (s.release h.hid).1 := by
  refine (onHart_eq hs 4 _).trans ?_
  rw [hg]
  dsimp only
  split
  · rfl
  · cases (s.release h.hid).2 <;> rfl

/-- `lwait` of a hart of a gang, by the phase and the token (R244). -/
theorem exec_lwait {g : Gang} (hg : s.gangOf h = some g) :
    exec (.lwait rd ra) s = (lwaitOn s rd g.phase ((h.getX ra).setWidth 16) none).outcome 4 := by
  refine (onHart_eq hs 4 _).trans ?_
  rw [hg]

omit hs in
theorem lwaitAgain_gang {g : Gang} (hg : s.gangOf h = some g) {tok : BitVec 16} (hrun : h.run = .lwait rd tok none) :
    lwaitAgain s h = lwaitEnd s rd g.phase tok := by
  rw [lwaitAgain, hrun]
  dsimp only
  rw [hg]

/-- The end of a wait for the gang's phase (R244). -/
theorem exec_lwaitReturn {g : Gang} (hpower : s.power = true) (hg : s.gangOf h = some g) {tok : BitVec 16} (hrun : h.run = .lwait rd tok none) :
    exec (.lwaitReturn s.cur) s = (lwaitEnd s rd g.phase tok).outcome 4 := by
  change execLwaitReturn s.cur s = _
  rw [execLwaitReturn, if_neg (by simp [hpower]), show s.hartAt s.cur = some h from hs]
  exact congrArg (Exec.outcome 4) (lwaitAgain_gang rd hg hrun)

end

section
variable (s : State) (rd : XReg) {p t : BitVec 16} (block : Option Word)

/-- A token from the future traps (R420). -/
theorem lwaitOn_future (hd : 32768 ≤ (p - t).toNat) : lwaitOn s rd p t block = .trap s { code := 0x5000, tva := block.getD 0 } := if_pos hd

/-- A token of the present phase waits. -/
theorem lwaitOn_present (hd : (p - t).toNat = 0) :
    lwaitOn s rd p t block = .wait (s.updHart (fun k => { k with run := .lwait rd t block })) := by
  have hfuture : ¬ 32768 ≤ phaseDistance p t := by rw [phaseDistance, hd]; decide
  rw [lwaitOn, if_neg hfuture]
  exact if_pos hd

/-- A token of a phase that is over gives how many have passed. -/
theorem lwaitOn_past (hpos : 0 < (p - t).toNat) (hd : (p - t).toNat < 32768) : lwaitOn s rd p t block =
    .done (s.updHart (fun k => k.setX rd (if (p - t).toNat = 1 then 0 else BitVec.ofNat 64 (p - t).toNat))) := by
  have hfuture : ¬ 32768 ≤ phaseDistance p t := Nat.not_le.mpr hd
  rw [lwaitOn, if_neg hfuture]
  exact if_neg (Nat.pos_iff_ne_zero.mp hpos)

end

/-! ### Landing blocks (R243, R244) -/

theorem peekNat_doubleword_lt (mem : Memory) (loc : Nat) : peekNat mem loc 8 < 2 ^ 64 := by
  have hlt := leNat_lt (peek mem loc 8)
  rw [length_peek] at hlt
  exact hlt

/-- A block in its fields: COUNT, ARR and PHASE. -/
theorem block_fields {w : Nat} (hw : w < 2 ^ 64) : bits w 23 0 = w % 2 ^ 24 ∧ bits w 63 48 = w / 2 ^ 48 := by
  unfold bits
  omega

/-- A block after one more arrival, by its fields (R243). -/
theorem blockArrive_eq {w : Nat} (hw : w < 2 ^ 64) : blockArrive w =
    if bits w 23 0 ≤ bits w 47 24 + 1 then (bits w 63 48 + 1) % 2 ^ 16 * 2 ^ 48 + bits w 23 0
    else bits w 63 48 * 2 ^ 48 + (bits w 47 24 + 1) * 2 ^ 24 + bits w 23 0 := by
  obtain ⟨hcount, hphase⟩ := block_fields hw
  rw [hcount, hphase]
  rfl

/-- A block lies where an atomic may go, aligned. -/
theorem blockFault_none {h : Hart} {va : Word} (hp : pathOf va ∈ [0, 1, 2] ∨ (pathOf va = 7 ∧ h.priv ≠ .u)) (hal : va.toNat % 8 = 0) :
    blockFault h va = none := by
  have hadm : Use.atomic.admits (pathOf va) (h.priv != .u) = true := by
    obtain hp | ⟨hp, hu⟩ := hp
    · simp only [List.mem_cons, List.not_mem_nil, or_false] at hp
      obtain hp | hp | hp := hp <;> rw [hp] <;> rfl
    · rw [hp]
      simpa [Use.admits] using hu
  simp [blockFault, hadm, hal]

section
variable {s t : State} {h : Hart} (hs : s.hart? = some h) (hq : s.Quiet) {va : Word} (hblock : blockFault h va = none) {loc : Nat}
  (htq : t.Quiet) (hbad : poisoned t.poison loc 8 = false) (rd ra rb : XReg) (sc : BitVec 3)
include hs hq hblock htq hbad

/-- An arrival at a block, by its COUNT (R243). -/
theorem exec_larriveScope (hva : h.getX ra = va) (hplace : (s.markFence h.hid).place h .atomic va 8 = .ok (t, .mem loc)) :
    exec (.larriveScope rd ra sc) s = if peekNat t.mem loc 8 % 2 ^ 24 = 0 then .next (t.takeTrap { code := 0x1149 })
      else .next ((t.poke loc (leBytes 8 (blockArrive (peekNat t.mem loc 8)))).did
        (fun k => k.setX rd (BitVec.ofNat 64 (peekNat t.mem loc 8 / 2 ^ 48))) 4) := by
  refine (onHart_eq hs 4 _).trans ?_
  dsimp only
  rw [State.release_quiet hq, hva]
  simp only [Bool.not_true, Bool.false_eq_true, if_false, hblock, State.rmw_quiet hplace htq hbad]
  split
  · rfl
  · rfl

end

section
variable {s u t : State} {h : Hart} {va : Word} (hblock : blockFault h va = none) {l loc : Nat}
  (hplace : s.place h .scalarLoad va 8 = .ok (u, .mem l)) (huq : u.Quiet) (hagain : u.place h .scalarLoad va 8 = .ok (t, .mem loc))
  (htq : t.Quiet) (h3 : pathOf va ≠ 3) (hbad : poisoned t.poison loc 8 = false)
include hblock hplace huq hagain htq h3 hbad

/-- The read of a block where nothing is outstanding. -/
theorem State.blockRead_quiet : s.blockRead h va = .ok (t, peekNat t.mem loc 8) := by
  rw [State.blockRead, hblock]
  dsimp only
  rw [hplace]
  dsimp only
  rw [State.performAll_quiet huq.2, State.load_quiet hagain htq h3 hbad]
  rfl

/-- A wait at a block, by its COUNT (R244). -/
theorem exec_lwaitScope (hs : s.hart? = some h) (rd ra rb : XReg) (sc : BitVec 3) (hva : h.getX ra = va) :
    exec (.lwaitScope rd ra rb sc) s = (if peekNat t.mem loc 8 % 2 ^ 24 = 0 then .trap t (illegalUse 0x49)
      else lwaitOn t rd (BitVec.ofNat 16 (peekNat t.mem loc 8 / 2 ^ 48)) ((h.getX rb).setWidth 16) (some va)).outcome 4 := by
  refine (onHart_eq hs 4 _).trans ?_
  dsimp only
  rw [hva, State.blockRead_quiet hblock hplace huq hagain htq h3 hbad]

end

end Sys2Proof.Machine

namespace Sys2Proof.Proofs

open Sys2Proof Sys2Proof.Machine

/-- Settles O25: the release, then each instruction by what it finds of the gang's register or of a block. -/
theorem landings : Obligations.Landings := by
  unfold Obligations.Landings
  intro s h rd ra rb sc hs va r
  refine ⟨State.release_noCommands, State.release_snd s h.hid, fun g hg => ?arrive, fun g hg => ?wait,
    fun hq hp hal t loc htq hbad => ?block, fun g tok hpower hg hrun => ?back⟩
  case arrive =>
    have hexec := exec_larrive hs rd hg
    refine ⟨fun harr => ?_, fun harr hr => ?_, fun harr hr => ?_⟩
    · rw [hexec, if_pos harr]
    · rw [hexec, if_neg (Bool.eq_false_iff.mp harr), if_neg (Bool.eq_false_iff.mp hr)]
    · rw [hexec, if_neg (Bool.eq_false_iff.mp harr), if_pos hr]
      rfl
  case wait =>
    have hexec := exec_lwait hs rd ra hg
    refine ⟨fun hd => ?_, fun hd => ?_, fun hpos hd => ?_⟩
    · rw [hexec, lwaitOn_future s rd none hd]
      rfl
    · rw [hexec, lwaitOn_present s rd none hd]
      rfl
    · rw [hexec, lwaitOn_past s rd none hpos hd]
      rfl
  case block =>
    intro w count arr phase
    have hblock := blockFault_none hp hal
    have hw : w < 2 ^ 64 := peekNat_doubleword_lt t.mem loc
    obtain ⟨hcount, hphase⟩ := block_fields hw
    have h3 : pathOf va ≠ 3 := by
      rintro h3
      simp [h3] at hp
    refine ⟨fun hplace => ?_, fun u l hplace huq hagain => ?_⟩
    · have hexec := exec_larriveScope hs hq hblock htq hbad rd ra sc rfl hplace
      refine ⟨fun hc => ?_, fun hc => ?_⟩
      · rw [hexec, if_pos (hcount.symm.trans hc)]
      · rw [hexec, if_neg (fun h0 => hc (hcount.trans h0)), blockArrive_eq hw, ← hphase]
    · have hexec := exec_lwaitScope hblock hplace huq hagain htq h3 hbad hs rd ra rb sc rfl
      rw [← hcount, ← hphase] at hexec
      refine ⟨fun hc => ?_, fun hc hd => ?_, fun hc hd => ?_, fun hc hpos hd => ?_⟩
      · rw [hexec, if_pos hc]
        rfl
      · rw [hexec, if_neg hc, lwaitOn_future t rd _ hd]
        rfl
      · rw [hexec, if_neg hc, lwaitOn_present t rd _ hd]
        rfl
      · rw [hexec, if_neg hc, lwaitOn_past t rd _ hpos hd]
        rfl
  case back =>
    have hexec := exec_lwaitReturn hs rd hpower hg hrun
    refine ⟨fun hp => ?_, fun hp => ?_⟩
    · rw [hexec, lwaitEnd, if_pos hp]
      rfl
    · rw [hexec, lwaitEnd, if_neg hp]
      rfl

end Sys2Proof.Proofs
end

section
/-! Vector atomics (R232, R233, R407): past the checks, an instruction is its checks by element, its atomic steps, and the flags of both. -/

namespace Sys2Proof.Machine

open Sys2Proof

/-! ### Flags that are not enabled (R374) -/

/-- None of the flags that a feed's items bring is enabled where none of their sum is. -/
theorem Fed.sum_disabled {f : Fed} {fen : Flags} : ∀ {is : List Nat} {fl : Flags}, (f.sum fen is fl).2 = none → fen &&& (f.sum fen is fl).1 = 0 →
    fen &&& fl = 0 ∧ ∀ i ∈ is, fen &&& f.flags i = 0
  | [], _, _, hz => ⟨hz, by simp⟩
  | i :: is, fl, hn, hz => by
    rw [Fed.sum] at hn hz
    cases hb : trapFlag fen (f.flags i) with
    | some b => simp [hb] at hn
    | none =>
      rw [hb] at hn hz
      obtain ⟨hfl, hrest⟩ := Fed.sum_disabled hn hz
      obtain ⟨hfl, hi⟩ := and_or_eq_zero.mp hfl
      exact ⟨hfl, List.forall_mem_cons.mpr ⟨hi, hrest⟩⟩

/-- The flags of atomic steps joined to others. -/
def raisedBy (steps : List (Word × Nat × Flags)) (fl : Flags) : Flags := steps.foldl (fun g x => g ||| x.2.2) fl

theorem raisedBy_disabled {fen : Flags} : ∀ {steps : List (Word × Nat × Flags)} {fl : Flags}, fen &&& raisedBy steps fl = 0 →
    fen &&& fl = 0 ∧ ∀ x ∈ steps, fen &&& x.2.2 = 0
  | [], _, hz => ⟨hz, by simp⟩
  | x :: steps, fl, hz => by
    obtain ⟨hfl, hrest⟩ := raisedBy_disabled (steps := steps) hz
    obtain ⟨hfl, hx⟩ := and_or_eq_zero.mp hfl
    exact ⟨hfl, List.forall_mem_cons.mpr ⟨hx, hrest⟩⟩

theorem flagsAt_disabled {fen : Flags} {steps : List (Word × Nat × Flags)} (hz : ∀ x ∈ steps, fen &&& x.2.2 = 0) (va : Word) :
    fen &&& flagsAt steps va = 0 := by
  rw [flagsAt]
  cases hf : steps.find? (fun x => x.1 == va) with
  | none => exact BitVec.and_zero
  | some x => exact hz x (List.mem_of_find?_eq_some hf)

/-! ### An instruction past its checks (R233) -/

/-- An element that a vector atomic works on: its item, and its address. -/
def VamForm.at (m : VamForm) (h : Hart) (f : Fed) (i : Nat) : Nat × Word := (i, h.getX m.base + f.h.indexAt m.idx (i / h.vl) (i % h.vl))

/-- The enabled flag that an element brings, by its streams or by the step at its address. -/
def stepTrap (fen : Flags) (f : Fed) (steps : List (Word × Nat × Flags)) (x : Nat × Word) : Option Nat :=
  trapFlag fen (f.flags x.1 ||| flagsAt steps x.2)

section
variable {m : VamForm} {v : Vec} {h : Hart} {f : Fed} (hflag : (f.sum h.fen (v.todo h f) 0).2 = none)
include hflag

/-- The first element that fails a check is the memory fault of the instruction. -/
theorem VamForm.body_missed {i e : Nat} {va : Word} (hc : (f.s.vamCheck h ((v.todo h f).map (m.at h f))).2 = some (i, e, va)) :
    m.body false v h f = (f.s.vamCheck h ((v.todo h f).map (m.at h f))).1.missTrap h 3 ⟨e, va, 4, false⟩ 0 (some m.apa.toNat)
      (some ((h.apt m.apa).cell h.bh (i / h.vl) (i % h.vl))) := by
  unfold VamForm.body
  dsimp only
  rw [hflag]
  change (match Option.or (f.s.vamCheck h ((v.todo h f).map (m.at h f))).2 _ with | some (i, e, va) => _ | none => _) = _
  rw [hc]
  rfl

variable (hstop : f.stop = none) {els : List (Nat × Word)} (hels : (v.todo h f).map (m.at h f) = els)
  (hc : (f.s.vamCheck h els).2 = none)
  {u : State × Bool} (hu : (f.s.vamCheck h els).1.releaseIf m.q h.hid = u) (hgo : u.2 = true)
  {t : State} {steps : List (Word × Nat × Flags)}
  (hsteps : vamSteps (h.apt m.apa).ty m.op (isAcq m.q) h f.h (h.apt m.apa) els (distinct els) u.1 = some (t, steps))
include hstop hels hc hu hgo hsteps

/-- Once every step is made, what is left is by the flags. -/
theorem VamForm.body_stepped : m.body false v h f =
    match els.findSome? (fun x => (stepTrap h.fen f steps x).map (fun b => (x.1, b))) with
    | some (i, b) => .trap (u.1.setHart (u.1.withStair (h.orFlags (flagBit b))))
        { code := 0x2000 + b, tap := some m.apa.toNat, tcell := some ((h.apt m.apa).cell h.bh (i / h.vl) (i % h.vl)) }
    | none => .done (t.setHart (u.1.withStair ((if m.ret then els.foldl (fun g x =>
        g.setEl (h.apt m.apd) (x.1 / h.vl) (x.1 % h.vl) (oldAt steps x.2)) f.h else f.h).orFlags
          (raisedBy steps (f.sum h.fen (v.todo h f) 0).1)))) := by
  subst hels hu
  have hown : ∀ own : Nat → Option ((Nat × Nat × Word) × Nat), v.ownAt f own = none := fun own => by rw [Vec.ownAt, hstop]
  unfold VamForm.body
  dsimp only
  rw [hflag, hown, ite_self, Option.or_none]
  change (match (f.s.vamCheck h ((v.todo h f).map (m.at h f))).2 with | some (i, e, va) => _ | none => _) = _
  rw [hc]
  dsimp only
  change (if (!((f.s.vamCheck h ((v.todo h f).map (m.at h f))).1.releaseIf m.q h.hid).2) = true then _ else _) = _
  rw [hgo]
  simp only [Bool.not_true, Bool.false_eq_true, if_false, Bool.false_and]
  change (match vamSteps _ m.op _ h f.h _ ((v.todo h f).map (m.at h f)) (distinct ((v.todo h f).map (m.at h f)))
    ((f.s.vamCheck h ((v.todo h f).map (m.at h f))).1.releaseIf m.q h.hid).1 with | none => _ | some (s, steps) => _) = _
  rw [hsteps, hstop]
  rfl

/-- Where FEN enables no flag raised, the instruction completes. -/
theorem VamForm.body_complete (hz : h.fen &&& raisedBy steps (f.sum h.fen (v.todo h f) 0).1 = 0) : m.body false v h f =
    .done (t.setHart (u.1.withStair ((if m.ret then els.foldl (fun g x =>
      g.setEl (h.apt m.apd) (x.1 / h.vl) (x.1 % h.vl) (oldAt steps x.2)) f.h else f.h).orFlags
        (raisedBy steps (f.sum h.fen (v.todo h f) 0).1)))) := by
  obtain ⟨hsum, hflags⟩ := raisedBy_disabled hz
  obtain ⟨-, hitems⟩ := Fed.sum_disabled hflag hsum
  have hnone : els.findSome? (fun x => (stepTrap h.fen f steps x).map (fun b => (x.1, b))) = none := by
    refine List.findSome?_eq_none_iff.mpr fun x hx => ?_
    subst hels
    obtain ⟨i, hi, rfl⟩ := List.mem_map.mp hx
    rw [stepTrap, show (m.at h f i).1 = i from rfl, trapFlag_none (and_or_eq_zero.mpr ⟨hitems i hi, flagsAt_disabled hflags _⟩)]
    rfl
  rw [VamForm.body_stepped hflag hstop hels hc hu hgo hsteps, hnone]

/-- The lowest element that brings an enabled flag stops the instruction as a whole. -/
theorem VamForm.body_stopped {j b : Nat} (hj : j < els.length) (hb : stepTrap h.fen f steps (els.getD j (0, 0)) = some b)
    (hbefore : ∀ k, k < j → stepTrap h.fen f steps (els.getD k (0, 0)) = none) : m.body false v h f =
    .trap (u.1.setHart (u.1.withStair (h.orFlags (flagBit b))))
      { code := 0x2000 + b, tap := some m.apa.toNat
        tcell := some ((h.apt m.apa).cell h.bh ((els.getD j (0, 0)).1 / h.vl) ((els.getD j (0, 0)).1 % h.vl)) } := by
  have hfind : els.findSome? (fun x => (stepTrap h.fen f steps x).map (fun b => (x.1, b))) = some ((els.getD j (0, 0)).1, b) := by
    refine List.findSome?_eq_some_iff.mpr ⟨els.take j, els.getD j (0, 0), els.drop (j + 1), ?_, by rw [hb]; rfl, fun x hx => ?_⟩
    · rw [List.getD_eq_getElem _ _ hj, List.getElem_cons_drop, List.take_append_drop]
    · obtain ⟨k, hk, rfl⟩ := List.mem_iff_getElem.mp hx
      have hkj : k < j := by simp at hk; omega
      have hnone := hbefore k hkj
      rw [List.getD_eq_getElem _ _ (by omega)] at hnone
      rw [List.getElem_take, hnone]
      rfl
  rw [VamForm.body_stepped hflag hstop hels hc hu hgo hsteps, hfind]

end

section
variable {s : State} {h : Hart} (hs : s.hart? = some h)
include hs

/-- A check of a vector atomic that fails is its trap. -/
theorem VamForm.run_fault (m : VamForm) {v : Hart → Vec} (hv : vamVec m.float m.ret ⟨m.kg.toNat, m.ks⟩ m.apd m.apa m.idx = v) {t : TrapRec}
    (ht : (v h).fault? h = some t) : m.run false s = .next ((v h).trapped h s t) := by
  subst hv
  rw [VamForm.run, onHart_eq hs, Vec.start_unlinked rfl, Vec.check_fault ht]
  rfl

/-- A vector atomic past the checks of its operands. -/
theorem VamForm.run_ready (m : VamForm) {v : Hart → Vec} (hv : vamVec m.float m.ret ⟨m.kg.toNat, m.ks⟩ m.apd m.apa m.idx = v)
    (hr : (v h).Ready s h) : m.run false s =
      ((m.body false (v h) h ((v h).feed s h)).settle (fun stops u => u.dispatchVec h (v h) stops)).outcome 8 := by
  subst hv
  rw [VamForm.run, onHart_eq hs, Vec.start_unlinked rfl, Vec.check_ready hr]

end

/-! ### Integer sums at one address (R98, R232) -/

theorem wordType_facts {ty : Nat} (hty : ty ∈ [4, 5]) : tyFloat ty = false ∧ tyWidth ty = 32 ∧ redId ty 0 = 0 := by
  rcases List.mem_pair.mp hty with rfl | rfl
  · exact ⟨rfl, rfl, rfl⟩
  · exact ⟨rfl, rfl, rfl⟩

/-- The integer sum of present leaves without flags is their sum modulo 2^32. -/
theorem reduce_wordSum {ty : Nat} (hty : ty ∈ [4, 5]) (l : List Nat) :
    (reduce ty 0 0 (l.map (fun x => some (x, 0)))).1 % 2 ^ 32 = l.sum % 2 ^ 32 ∧ (reduce ty 0 0 (l.map (fun x => some (x, 0)))).2 = 0 := by
  obtain ⟨hint, hwidth, hid⟩ := wordType_facts hty
  have htree := reduce_of_leaves (R := fun es r => r.1 % 2 ^ 32 = es.sum % 2 ^ 32 ∧ r.2 = 0) (ty := ty) (op := 0) (mode := 0)
    (fun l1 l2 a b ⟨ha, hfa⟩ ⟨hb, hfb⟩ => by
      rw [redOp_sum hint, hwidth, hfa, hfb, List.sum_append, Nat.mod_mod, Nat.add_mod, ha, hb, ← Nat.add_mod]
      exact ⟨rfl, rfl⟩)
    (p := fun _ => true) (leaf := fun x => (x, 0)) l (fun e _ _ => by simp)
  simp only [if_true, List.filter_true] at htree
  rcases htree with hsum | ⟨rfl, hnone⟩
  · exact hsum
  · rw [hnone, hid]
    exact ⟨rfl, rfl⟩

/-- A word to which such a sum is added. -/
theorem redOp_wordSum {ty : Nat} (hty : ty ∈ [4, 5]) (m : Nat) (l : List Nat) :
    redOp ty 0 0 (m, 0) (reduce ty 0 0 (l.map (fun x => some (x, 0)))) = ((m + l.sum) % 2 ^ 32, 0) := by
  obtain ⟨hint, hwidth, -⟩ := wordType_facts hty
  obtain ⟨hsum, hflags⟩ := reduce_wordSum hty l
  rw [redOp_sum hint, hwidth, hflags, Nat.add_mod, hsum, ← Nat.add_mod]
  exact congrArg _ BitVec.or_zero

/-- Elements that share an address have one distinct address. -/
theorem distinct_same {els : List (Nat × Word)} {va : Word} (hne : els ≠ []) (hva : ∀ x ∈ els, x.2 = va) : distinct els = [va] := by
  have hkeep : ∀ l : List (Nat × Word), (∀ x ∈ l, x.2 = va) →
      l.foldl (fun ds x => if ds.contains x.2 then ds else ds ++ [x.2]) [va] = [va] := by
    intro l hl
    induction l with
    | nil => rfl
    | cons x l ih =>
      obtain ⟨hx, hl⟩ := List.forall_mem_cons.mp hl
      simpa [hx] using ih hl
  obtain ⟨x, l, rfl⟩ := List.exists_cons_of_ne_nil hne
  obtain ⟨rfl, hl⟩ := List.forall_mem_cons.mp hva
  exact hkeep l hl

/-- The step of an integer `vamadd` whose elements share the address of a quiet word. -/
theorem vamSteps_add {ty : Nat} {acq : Bool} {h g : Hart} {a : Apt} {els : List (Nat × Word)} {va : Word} {s t : State} {loc : Nat}
    (hva : ∀ x ∈ els, x.2 = va) (hty : ty ∈ [4, 5]) (hp : s.place h .atomic va 4 = .ok (t, .mem loc)) (hq : t.Quiet)
    (hb : poisoned t.poison loc 4 = false) : vamSteps ty 0 acq h g a els [va] s =
      some (t.poke loc (leBytes 4 ((peekNat t.mem loc 4 + (els.map (fun x => g.getEl a (x.1 / h.vl) (x.1 % h.vl))).sum) % 2 ^ 32)),
        [(va, peekNat t.mem loc 4, 0)]) := by
  have hall : els.filter (fun x => x.2 == va) = els := List.filter_eq_self.mpr fun x hx => by simp [hva x hx]
  have hleaves : els.map (fun x => some (g.getEl a (x.1 / h.vl) (x.1 % h.vl), (0 : Flags))) =
      (els.map (fun x => g.getEl a (x.1 / h.vl) (x.1 % h.vl))).map (fun x => some (x, 0)) := by
    rw [List.map_map]
    rfl
  have hop := redOp_wordSum hty (peekNat t.mem loc 4) (els.map (fun x => g.getEl a (x.1 / h.vl) (x.1 % h.vl)))
  rw [vamSteps, hall, hleaves, State.rmw_quiet hp hq hb]
  dsimp only
  rw [hop]
  rfl

end Sys2Proof.Machine

namespace Sys2Proof.Proofs

open Sys2Proof Sys2Proof.Machine

/-- Settles O36: every form is one instruction of its operator, whose outcome past the checks is by the first element that fails one, then
by the flags; the elements at one address are reduced by the tree of R98. -/
theorem vectorAtomics : Obligations.VectorAtomics := by
  unfold Obligations.VectorAtomics
  intro s h kg ks ret apd apa idx base sc q hs a r
  have hr {i : Instr} {float : Bool} {op : Nat}
      (hi : exec i s = (⟨float, op, kg, ks, ret, apd, apa, base, idx, q⟩ : VamForm).run false s) : r i float op := by
    dsimp only [r]
    rw [hi]
    let m : VamForm := ⟨float, op, kg, ks, ret, apd, apa, base, idx, q⟩
    refine ⟨fun t ht => VamForm.run_fault hs m rfl ht, fun hr hflag => ?_⟩
    rw [VamForm.run_ready hs m rfl hr]
    have hstop := hr.streams
    generalize vamVec float ret ⟨kg.toNat, ks⟩ apd apa idx h = v at *
    generalize v.feed s h = f at *
    refine ⟨fun j e va hc => ?_, fun hc hgo t steps hsteps => ⟨fun hz => ?_, fun n j b hj hn hb hbefore => ?_⟩⟩
    · rw [VamForm.body_missed (m := m) hflag hc]
      rfl
    · rw [VamForm.body_complete (m := m) hflag hstop rfl hc rfl hgo hsteps hz]
      rfl
    · subst hn
      rw [VamForm.body_stopped (m := m) hflag hstop rfl hc rfl hgo hsteps hj hb hbefore]
      rfl
  refine ⟨hr rfl, hr rfl, hr rfl, hr rfl, hr rfl, hr rfl, hr rfl, hr rfl, hr rfl, fun g els va t loc acq hne hva hty hp hq hb => ?_⟩
  dsimp only
  rw [distinct_same hne hva]
  refine ⟨_, vamSteps_add hva hty hp hq hb, ?_, ?_⟩
  · simp [oldAt]
  · simp [flagsAt]

end Sys2Proof.Proofs
end

section
/-! Accumulation windows and `skipset` (R234 to R237, R251, R407). -/

namespace Sys2Proof.Machine

open Sys2Proof

/-! ### Declarations (R234, R235) -/

theorem badWindow_false_iff {size n gal : Nat} {base : Word} : badWindow size base.toNat n gal = false ↔
    base.toNat % 4 = 0 ∧ (pathOf base = 0 ∨ pathOf base = 7) ∧ n % 4 = 0 ∧ 4 ≤ n ∧ n ≤ 8192 ∧ gal % 128 = 0 ∧ gal + 128 * n ≤ size := by
  simp only [badWindow, pathOf, Bool.or_eq_false_iff, decide_eq_false_iff_not, Bool.not_eq_false', Bool.or_eq_true, decide_eq_true_eq]
  omega

theorem Window.addr_zero (w : Window) : w.addr 0 0 = BitVec.ofNat 64 (2 ^ 61 + w.gal) := by
  rw [Window.addr, Nat.zero_mul]
  rfl

section
variable {s : State} {h : Hart} (hs : s.hart? = some h)
include hs

section
variable (aw op : BitVec 2) (ty : BitVec 4) (xb xl xg : XReg)

/-- The window that an `accwin` declares. -/
def Hart.declares (h : Hart) (op : BitVec 2) (ty : BitVec 4) (xb xl xg : XReg) : Window :=
  ⟨h.getX xb, (h.getX xl).toNat, (h.getX xg).toNat, op, ty⟩

theorem exec_accwin_bad (hbad : badWindow (((s.gangOf h).map (fun g => g.galSize)).getD 0) (h.getX xb).toNat (h.getX xl).toNat (h.getX xg).toNat = true) :
    exec (.accwin aw op ty xb xl xg) s = .next (s.takeTrap { code := 0x1146 }) := by
  refine (onHart_eq hs 8 _).trans ?_
  dsimp only
  rw [if_pos hbad]
  rfl

theorem exec_accwin_ok (hok : badWindow (((s.gangOf h).map (fun g => g.galSize)).getD 0) (h.getX xb).toNat (h.getX xl).toNat (h.getX xg).toNat = false)
    {t : State} (hsave : s.save h true .vecStore (BitVec.ofNat 64 (2 ^ 61 + (h.getX xg).toNat))
      ((List.replicate (32 * (h.getX xl).toNat) (leBytes 4 (h.declares op ty xb xl xg).ident)).flatten) = .ok t) :
    exec (.accwin aw op ty xb xl xg) s =
      .next (t.did (fun g => { g with windows := put g.windows aw.toNat (some (h.declares op ty xb xl xg)) }) 8) := by
  refine (onHart_eq hs 8 _).trans ?_
  dsimp only
  rw [if_neg (Bool.eq_false_iff.mp hok), Window.addr_zero]
  change (match s.save h true .vecStore _ ((List.replicate _ (leBytes 4 (h.declares op ty xb xl xg).ident)).flatten) with
    | .error f => _ | .ok s => _ : Exec).outcome 8 = _
  rw [hsave]
  rfl

end

/-! ### Updates (R236) -/

theorem exec_awacc (kg : KReg) (ks : Bool) (aw : BitVec 2) (idx apa : Ap) (hr : (awaccVec aw ⟨kg.toNat, ks⟩ idx apa h).Ready s h) :
    exec (.awacc kg ks aw idx apa) s =
      ((awaccRun aw idx apa (awaccVec aw ⟨kg.toNat, ks⟩ idx apa h) h ((awaccVec aw ⟨kg.toNat, ks⟩ idx apa h).feed s h)).settle
        (fun stops u => u.dispatchVec h (awaccVec aw ⟨kg.toNat, ks⟩ idx apa h) stops)).outcome 8 := by
  refine (onHart_eq hs 8 _).trans ?_
  rw [Vec.start_unlinked rfl, Vec.check_ready hr]

omit hs in
theorem awaccRun_complete {aw : BitVec 2} {idx apa : Ap} {v : Vec} {f : Fed} {w : Window} {t : State} (hw : find h.windows aw.toNat = some w)
    (hstop : f.stop = none) (hflag : (f.sum h.fen (v.todo h f) 0).2 = none)
    (ha : State.accumulate h f.h w apa idx (v.todo h f) f.s = .ok t) :
    awaccRun aw idx apa v h f = .done (t.setHart (f.h.orFlags (f.sum h.fen (v.todo h f) 0).1)) := by
  unfold awaccRun
  simp only [hw, hflag, cutAt, ha, Vec.fedStop_ready hstop, Option.getD_none]

/-! ### Merges and the end of a declaration (R237) -/

section
variable (aw : BitVec 2) (sc : BitVec 3) (q : BitVec 2)

theorem exec_merge_undeclared (hw : find h.windows aw.toNat = none) : exec (.merge aw sc q) s = .next (s.takeTrap { code := 0x1147 }) := by
  refine (onHart_eq hs 8 _).trans ?_
  rw [hw]
  rfl

theorem exec_awrel_undeclared (hw : find h.windows aw.toNat = none) : exec (.awrel aw) s = .next (s.takeTrap { code := 0x1147 }) := by
  refine (onHart_eq hs 8 _).trans ?_
  rw [hw]
  rfl

variable {w : Window} (hw : find h.windows aw.toNat = some w)
include hw

theorem exec_awrel : exec (.awrel aw) s = .next (s.did (fun g => { g with windows := put g.windows aw.toNat none }) 8) := by
  refine (onHart_eq hs 8 _).trans ?_
  rw [hw]
  rfl

/-- A `merge` of a declared window is its release, and then its words. -/
theorem exec_merge : exec (.merge aw sc q) s =
    if (s.releaseIf q h.hid).2 then
      match (s.releaseIf q h.hid).1.mergeWords h w (q.getLsbD 0) false (w.len / 4) with
      | .ok t => .next ((t.dispatch h 12 0 {}).stepOver 8)
      | .error (e, va) => ((((s.releaseIf q h.hid).1.noteRange h w.base (va - w.base).toNat true).missTrap h 3 ⟨e, va, 4, false⟩).also
          (fun t => t.dispatch h 12 0 {})).outcome 8
    else .next (s.releaseIf q h.hid).1 := by
  refine (onHart_eq hs 8 _).trans ?_
  rw [hw]
  dsimp only
  cases hr : (s.releaseIf q h.hid).2 with
  | false => rfl
  | true =>
    change ((match (s.releaseIf q h.hid).1.mergeWords h w (q.getLsbD 0) false (w.len / 4) with
      | .error (f, va) => _ | .ok s => _ : Exec).also _).outcome 8 = _
    cases (s.releaseIf q h.hid).1.mergeWords h w (q.getLsbD 0) false (w.len / 4) <;> rfl

end

end

/-- The leaves that copies give are present and without flags, one for each copy. -/
theorem State.copies_leaves {s : State} {h : Hart} {w : Window} {k : Nat} : ∀ {c : Nat} {t : State} {l : List (Option (Nat × Flags))},
    s.copies h w k c = .ok (t, l) → l.length = c ∧ l = (l.map (fun x => (x.getD (0, 0)).1)).map (fun x => some (x, 0))
  | 0, _, _, hc => by
    cases hc
    exact ⟨rfl, rfl⟩
  | c + 1, t, l, hc => by
    rw [State.copies] at hc
    cases hprev : s.copies h w k c with
    | error e => simp [hprev] at hc
    | ok r =>
      obtain ⟨s1, l1⟩ := r
      rw [hprev] at hc
      dsimp only at hc
      cases hload : s1.load h true .vecLoad (w.addr c (4 * k)) 4 with
      | error f => simp [hload] at hc
      | ok r =>
        rw [hload] at hc
        cases hc
        obtain ⟨hlen, hl⟩ := State.copies_leaves hprev
        refine ⟨by rw [List.length_append, hlen]; rfl, ?_⟩
        rw [List.map_append, List.map_append, ← hl]
        rfl

theorem State.copies_succ {s t u : State} {h : Hart} {w : Window} {k c : Nat} {l : List (Option (Nat × Flags))} {bs : List Byte}
    (hc : s.copies h w k c = .ok (t, l)) (hl : t.load h true .vecLoad (w.addr c (4 * k)) 4 = .ok (u, bs)) :
    s.copies h w k (c + 1) = .ok (u, l ++ [some (leNat bs, 0)]) := by
  rw [State.copies, hc]
  dsimp only
  rw [hl]

theorem State.clearCopies_succ {s t u : State} {h : Hart} {w : Window} {k c : Nat} (hc : s.clearCopies h w k c = .ok t)
    (hsave : t.save h true .vecStore (w.addr c (4 * k)) (leBytes 4 w.ident) = .ok u) : s.clearCopies h w k (c + 1) = .ok u := by
  rw [State.clearCopies, hc]
  dsimp only
  rw [hsave]

/-- The merge of one word more, whose copies are read (R237). -/
theorem State.mergeWords_succ {s s1 s2 : State} {h : Hart} {w : Window} {acq : Bool} {k : Nat} {l : List (Option (Nat × Flags))}
    (hm : s.mergeWords h w acq false k = .ok s1) (hc : s1.copies h w k 128 = .ok (s2, l)) :
    s.mergeWords h w acq false (k + 1) =
      match s2.rmw h true (w.base + BitVec.ofNat 64 (4 * k)) 4
        (fun m => some (redOp w.ty.toNat w.redop 0 (m, 0) ((reduce w.ty.toNat w.redop 0 l).1, 0)).1) acq with
      | .error f => .error (f, w.base + BitVec.ofNat 64 (4 * k))
      | .ok (s3, _) => s3.clearCopies h w k 128 := by
  change (match s.mergeWords h w acq false k with | .error e => _ | .ok s1 => _) = _
  rw [hm]
  change (match s1.copies h w k 128 with | .error e => _ | .ok (s2, l) => _) = _
  rw [hc]
  dsimp only
  cases s2.rmw h true (w.base + BitVec.ofNat 64 (4 * k)) 4
    (fun m => some (redOp w.ty.toNat w.redop 0 (m, 0) ((reduce w.ty.toNat w.redop 0 l).1, 0)).1) acq <;> rfl

/-- One word of an integer add merged where the word at the base is quiet. -/
theorem State.mergeWords_add {s s1 s2 t : State} {h : Hart} {w : Window} {acq : Bool} {k loc : Nat} {l : List (Option (Nat × Flags))}
    (hop : w.op = 0) (hty : w.ty.toNat ∈ [4, 5]) (hm : s.mergeWords h w acq false k = .ok s1) (hc : s1.copies h w k 128 = .ok (s2, l))
    (hp : s2.place h .atomic (w.base + BitVec.ofNat 64 (4 * k)) 4 = .ok (t, .mem loc)) (hq : t.Quiet) (hb : poisoned t.poison loc 4 = false) :
    s.mergeWords h w acq false (k + 1) =
      (t.poke loc (leBytes 4 ((peekNat t.mem loc 4 + (l.map (fun x => (x.getD (0, 0)).1)).sum) % 2 ^ 32))).clearCopies h w k 128 := by
  have hadd : w.redop = 0 := if_pos hop
  have hsum : ∀ m, (redOp w.ty.toNat w.redop 0 (m, 0) ((reduce w.ty.toNat w.redop 0 l).1, 0)).1 =
      (m + (l.map (fun x => (x.getD (0, 0)).1)).sum) % 2 ^ 32 := by
    intro m
    obtain ⟨hint, hwidth, -⟩ := wordType_facts hty
    have hl := (reduce_wordSum hty (l.map (fun x => (x.getD (0, 0)).1))).1
    rw [← (State.copies_leaves hc).2] at hl
    rw [hadd, redOp_sum hint, hwidth, Nat.add_mod, hl, ← Nat.add_mod]
  rw [State.mergeWords_succ hm hc, State.rmw_quiet hp hq hb]
  simp only [hsum]

/-! ### `skipset` (R251) -/

section
variable {s : State} {h : Hart} (hs : s.hart? = some h) (xa xb : XReg)
include hs

theorem exec_skipset_zero (hz : h.getX xb = 0) : exec (.skipset xa xb) s = .next (s.stepOver 8) := by
  refine (onHart_eq hs 8 _).trans ?_
  rw [if_pos hz]
  rfl

theorem exec_skipset_quiet {t : State} {loc : Nat} (hz : h.getX xb ≠ 0) (hq : s.Quiet) (ht : t.Quiet)
    (hp : (s.markFence h.hid).place h .atomic (h.getX xa) 8 = .ok (t, .mem loc)) (hal : (h.getX xa).toNat % 8 = 0)
    (hb : poisoned t.poison loc 8 = false) :
    exec (.skipset xa xb) s = .next ((t.poke loc (leBytes 8 (peekNat t.mem loc 8 ||| 1))).stepOver 8) := by
  have hmis : misaligned h .atomic (h.getX xa) 8 = false := by simp [misaligned, hal]
  refine (onHart_eq hs 8 _).trans ?_
  dsimp only
  rw [if_neg hz, State.release_quiet hq, hmis, State.rmw_quiet hp ht hb]
  rfl

end

end Sys2Proof.Machine

namespace Sys2Proof.Proofs

open Sys2Proof Sys2Proof.Machine

/-- Settles O37: a declaration is by R235's conditions, a merge is its release and then its words, one by one, and the leaves of a word are
those of the 128 copies. -/
theorem accumulationWindows : Obligations.AccumulationWindows := by
  unfold Obligations.AccumulationWindows
  intro s h aw op ty xa xb xl xg hs n gal size w ok
  refine ⟨fun hbad => ?_, fun hok t hsave => exec_accwin_ok hs aw op ty xb xl xg (badWindow_false_iff.mpr hok) hsave, ?_,
    fun sc q hw => ⟨exec_merge_undeclared hs aw sc q hw, exec_awrel_undeclared hs aw hw⟩, fun w hw => ⟨exec_awrel hs aw hw, ?_⟩,
    fun w acq k loc s1 s2 t l hop hty hm hc _ hp _ hb => ⟨(State.copies_leaves hc).1, ?_⟩, ?_,
    exec_skipset_zero hs xa xb, fun t loc hz hq ht hp hal hb => exec_skipset_quiet hs xa xb hz hq ht hp hal hb⟩
  · exact exec_accwin_bad hs aw op ty xb xl xg ((Bool.eq_false_or_eq_true _).resolve_right (hbad ∘ badWindow_false_iff.mp))
  · intro t kg ks idx apa w v f q hr hflag hw ha
    rw [exec_awacc hs kg ks aw idx apa hr, awaccRun_complete hw hr.streams hflag ha]
    rfl
  · intro sc q u m
    rw [exec_merge hs aw sc q hw]
    refine ⟨fun hu => if_neg (Bool.eq_false_iff.mp hu), fun hu => ⟨fun t hm => ?_, fun e va hm => ?_⟩⟩
    · rw [if_pos hu, show State.mergeWords _ h w (q.getLsbD 0) false (w.len / 4) = .ok t from hm]
    · rw [if_pos hu, show State.mergeWords _ h w (q.getLsbD 0) false (w.len / 4) = .error (e, va) from hm]
  · refine State.mergeWords_add hop ?_ hm hc hp ‹_› hb
    rcases List.mem_pair.mp hty with hty | hty <;> rw [hty] <;> decide
  · intro w k c s1 t u l bs hc va
    exact ⟨State.copies_succ hc, fun hcl t hsave => State.clearCopies_succ hcl hsave⟩

end Sys2Proof.Proofs
end

section
/-! What an access leaves as it was: gangs, launches, engine commands, and what the engines owe each hart (R204, R247, R248, R290, R401). -/

namespace Sys2Proof.Machine

open Sys2Proof

/-- What the engines owe each hart (R406). -/
def State.owed (s : State) : List (Nat × List EngineFault) := s.harts.map (fun g => (g.hid, g.engineFaults))

theorem State.engineFaults_of_owed {s t : State} (h : t.owed = s.owed) (k : Nat) :
    (t.hartAt k).map (fun g => g.engineFaults) = (s.hartAt k).map (fun g => g.engineFaults) := by
  have hfind (u : State) : (u.hartAt k).map (fun g => g.engineFaults) = (u.owed.find? (fun p => p.1 == k)).map (fun p => p.2) := by
    rw [State.owed, List.find?_map, Option.map_map]
    rfl
  rw [hfind t, h, ← hfind s]

/-- From `s` to `t` only accesses and records have been made: no gang, launch or engine command has changed, and no fault is owed that was not. -/
structure State.Accessed (s t : State) : Prop where
  gangs : t.gangs = s.gangs
  launches : t.launches = s.launches
  engines : t.engines = s.engines
  engineId : t.engineId = s.engineId
  owed : t.owed = s.owed

namespace State.Accessed

theorem refl (s : State) : s.Accessed s := ⟨rfl, rfl, rfl, rfl, rfl⟩

theorem trans {s t u : State} (h : s.Accessed t) (k : t.Accessed u) : s.Accessed u :=
  ⟨k.gangs.trans h.gangs, k.launches.trans h.launches, k.engines.trans h.engines, k.engineId.trans h.engineId, k.owed.trans h.owed⟩

theorem ite {s t u : State} {c : Prop} [Decidable c] (ht : s.Accessed t) (hu : s.Accessed u) : s.Accessed (if c then t else u) := by
  split
  · exact ht
  · exact hu

theorem foldl {α : Type} {f : State → α → State} (hf : ∀ (s : State) a, s.Accessed (f s a)) : ∀ (l : List α) (s : State), s.Accessed (l.foldl f s)
  | [], s => refl s
  | a :: l, s => (hf s a).trans (foldl hf l _)

/-! ### Single changes -/

/-- Harts that keep their numbers and what they are owed. -/
theorem mapHarts (s : State) {f : Hart → Hart} (hf : ∀ g, ((f g).hid, (f g).engineFaults) = (g.hid, g.engineFaults)) :
    s.Accessed { s with harts := s.harts.map f } :=
  ⟨rfl, rfl, rfl, rfl, (List.map_map ..).trans (List.map_congr_left fun g _ => hf g)⟩

theorem updHartAt (s : State) (n : Nat) {f : Hart → Hart} (hf : ∀ g, ((f g).hid, (f g).engineFaults) = (g.hid, g.engineFaults)) :
    s.Accessed (s.updHartAt n f) := mapHarts s fun g => by
  split
  · exact hf g
  · rfl

theorem poke (s : State) (loc : Nat) (bs : List Byte) : s.Accessed (s.poke loc bs) := ⟨rfl, rfl, rfl, rfl, rfl⟩

theorem setPoison (s : State) (l : List (Nat × Option Nat)) : s.Accessed { s with poison := l } := ⟨rfl, rfl, rfl, rfl, rfl⟩

theorem setTlb (s : State) (l : List Held) : s.Accessed { s with tlb := l } := ⟨rfl, rfl, rfl, rfl, rfl⟩

theorem setTracks (s : State) (l : List Track) : s.Accessed { s with tracks := l } := ⟨rfl, rfl, rfl, rfl, rfl⟩

theorem setMgmt (s : State) (off : Nat) (v : Word) : s.Accessed (s.setMgmt off v) := ⟨rfl, rfl, rfl, rfl, rfl⟩

theorem post (s : State) (es : List Instr) : s.Accessed (s.post es) := ⟨rfl, rfl, rfl, rfl, rfl⟩

/-! ### Stores that are performed (R290) -/

theorem perform (s : State) (n : Nat) (x : Pending) : s.Accessed (s.perform n x) := by
  unfold State.perform
  split
  · exact poke s _ _
  · dsimp only
    split
    · exact updHartAt s n fun _ => rfl
    · exact (poke s _ _).trans (updHartAt _ n fun _ => rfl)

theorem performSome (s : State) (n : Nat) (p : Pending → Bool) (c : Nat) : s.Accessed (s.performSome n p c) := by
  unfold State.performSome
  split
  · exact refl s
  · extract_lets l left
    have hleft : s.Accessed left := updHartAt s n fun _ => rfl
    exact hleft.trans (foldl (fun u (x : Pending × Bool) => perform u n x.1) _ _)

theorem performAll (s : State) (n : Nat) (p : Pending → Bool) : s.Accessed (s.performAll n p) := performSome s n p _

theorem settle (s : State) (n : Nat) (vec : Bool) (loc k : Nat) : s.Accessed (s.settle n vec loc k) := by
  unfold State.settle State.settleOwn
  exact (foldl (fun u h => ite (performSome u _ _ _) (refl u)) _ s).trans (ite (performAll _ n _) (refl _))

theorem drainMarked (s : State) (n : Nat) : s.Accessed ((s.drain n).markFence n) :=
  (performAll s n _).trans (updHartAt _ n fun _ => rfl)

/-! ### Records (R401, R402) -/

theorem hall (s : State) (r : HallRec) : s.Accessed (s.hall r) := by
  unfold State.hall
  dsimp only
  split
  · exact setMgmt s _ _
  · exact ((poke s _ _).trans (setMgmt _ _ _)).trans (mapHarts _ fun g => by split <;> rfl)

theorem noteBarred (s : State) (w : Walk) (f : Nat) (r : HallRec) : s.Accessed (s.noteBarred w f r) := by
  unfold State.noteBarred
  split
  · exact refl s
  · unfold State.noteMigration
    exact ite (((hall s _).trans (setTracks _ _)).trans (post _ _)) ((hall s _).trans (setTracks _ _))

/-! ### Translations and places (R204, R279 to R282, R286, R298) -/

theorem settleWalk (va : Nat) : ∀ (ls : List (Nat × Nat)) (s : State) (table : Nat), s.Accessed (s.settleWalk va table ls)
  | [], s, _ => refl s
  | (lo, w) :: ls, s, table => by
    rw [State.settleWalk]
    exact ite ((settle s _ _ _ _).trans (settleWalk va ls _ _)) (settle s _ _ _ _)

theorem seeTables (s : State) (root va : Nat) : s.Accessed (s.seeTables root va) := ite (settleWalk va _ s root) (refl s)

theorem sawTables (s : State) (h : Hart) (va : Word) : s.Accessed (s.sawTables h va) := ite (seeTables s _ _) (refl s)

theorem hold (s : State) (h : Hart) (stream : Bool) (path va e loc level : Nat) : s.Accessed (s.hold h stream path va e loc level) := by
  unfold State.hold
  dsimp only
  refine ite (refl s) ?_
  split
  · split
    · exact refl s
    · exact ite (refl s) (setTlb s _)
  · exact setTlb s _

theorem track (s : State) (t : Track) : s.Accessed (s.track t) := ite (setTracks s _) (ite (setTracks s _) (setTracks s _))

theorem countLines (s : State) (mig pa n : Nat) : s.Accessed (s.countLines mig pa n) := by
  unfold State.countLines State.countMove
  exact ite (ite (refl s) (ite ((track s _).trans (post _ _)) (track s _))) (refl s)

theorem translate {s t : State} {h : Hart} {need : Access} {va : Word} {stream : Bool} {n loc : Nat}
    (ht : s.translate h need va stream n = .ok (t, loc)) : s.Accessed t := by
  unfold State.translate at ht
  dsimp only at ht
  split at ht
  · cases ht
  · cases ht
  · split at ht
    · cases ht
    · split at ht
      · cases ht
      · cases ht
        exact (((seeTables s _ _).trans (ite (refl _) (poke _ _ _))).trans (hold _ h _ _ _ _ _ _)).trans (countLines _ _ _ _)

theorem enginePlace {s t : State} {c : EngineCmd} {u : Use} {va : Word} {n loc : Nat} (ht : s.enginePlace c u va n = .ok (t, loc)) :
    s.Accessed t := by
  unfold State.enginePlace at ht
  dsimp only at ht
  split at ht
  · cases ht
  split at ht
  · split at ht
    · cases ht
      exact refl s
    · cases ht
  split at ht
  · split at ht
    · cases ht
    · split at ht
      · cases ht
        exact refl s
      · cases ht
  exact translate ht

/-! ### What an engine reads and writes (R247, R248, R403) -/

theorem engineSees (s : State) (c : EngineCmd) (loc n : Nat) : s.Accessed (s.engineSees c loc n) := (settle s _ _ _ _).trans (performAll _ _ _)

theorem engineFetch {s t : State} {c : EngineCmd} {va : Word} {n : Nat} {r : List Byte × Bool} (ht : s.engineFetch c va n = .ok (t, r)) :
    s.Accessed t := by
  unfold State.engineFetch at ht
  split at ht
  · cases ht
  next hp =>
    split at ht <;> cases ht
    · exact enginePlace hp
    · exact (enginePlace hp).trans (engineSees _ _ _ _)

theorem engineRead {s t : State} {c : EngineCmd} {va : Word} {n : Nat} {bs : List Byte} (ht : s.engineRead c va n = .ok (t, bs)) :
    s.Accessed t := by
  unfold State.engineRead at ht
  split at ht
  · cases ht
  next hf =>
    split at ht <;> cases ht
    exact engineFetch hf

theorem engineWrite {s t : State} {c : EngineCmd} {va : Word} {bs : List Byte} {back : Nat} {bad : Bool}
    (ht : s.engineWrite c va bs back bad = .ok t) : s.Accessed t := by
  unfold State.engineWrite at ht
  split at ht
  · cases ht
  next hp =>
    extract_lets written cleared at ht
    cases ht
    have hw : s.Accessed written := ((enginePlace hp).trans (engineSees _ c _ _)).trans (poke _ _ bs)
    have hc : s.Accessed cleared := ite (hw.trans (setPoison _ _)) hw
    exact ite (hc.trans (setPoison _ _)) hc

theorem engineAdd {s t : State} {c : EngineCmd} {va : Word} (ht : s.engineAdd c va = .ok t) : s.Accessed t := by
  unfold State.engineAdd at ht
  split at ht
  · cases ht
  split at ht
  · cases ht
  next hp =>
    split at ht <;> cases ht
    exact ((enginePlace hp).trans (engineSees _ c _ _)).trans (poke _ _ _)

theorem engineWord {s t : State} {c : EngineCmd} {va : Word} {n v : Nat} (ht : s.engineWord c va n = .ok (t, v)) : s.Accessed t := by
  unfold State.engineWord at ht
  dsimp only at ht
  split at ht
  · cases ht
  next h1 =>
    split at ht
    · cases ht
      exact engineRead h1
    · split at ht <;> cases ht
      next h2 => exact (engineRead h1).trans (engineRead h2)

theorem enginePut {s t : State} {c : EngineCmd} {va : Word} {i v n : Nat} (ht : s.enginePut c va i v n = .ok t) : s.Accessed t := by
  unfold State.enginePut at ht
  dsimp only at ht
  split at ht
  · cases ht
  next h1 =>
    split at ht
    · cases ht
      exact engineWrite h1
    · split at ht <;> cases ht
      next h2 => exact (engineWrite h1).trans (engineWrite h2)

theorem engineOld {s t : State} {c : EngineCmd} {va : Word} {v : Nat} (ht : s.engineOld c va = .ok (t, v)) : s.Accessed t := by
  unfold State.engineOld at ht
  split at ht <;> cases ht
  next hp => exact (enginePlace hp).trans (engineSees _ c _ _)

/-! ### One unit of an engine's work (R248 to R250) -/

theorem putWeights {s t : State} {c : EngineCmd} {desc : List Byte} {i w : Nat} (ht : s.putWeights c desc i w = .ok t) : s.Accessed t := by
  unfold State.putWeights at ht
  split at ht
  · cases ht
  next h1 =>
    split at ht
    · cases ht
      exact enginePut h1
    · exact (enginePut h1).trans (enginePut ht)

theorem updateStep {s t : State} {c : EngineCmd} {adamw : Bool} {desc : List Byte} {i : Nat} (ht : s.updateStep c adamw desc i = .ok t) :
    s.Accessed t := by
  unfold State.updateStep at ht
  dsimp only at ht
  split at ht
  · cases ht
  next hgrad =>
  split at ht
  · cases ht
  next hm =>
  split at ht
  · cases ht
  next hw =>
  have hread := ((engineWord hgrad).trans (engineWord hm)).trans (engineWord hw)
  split at ht
  · split at ht
    · cases ht
    next hv =>
    split at ht
    · cases ht
    next hm' =>
    split at ht
    · cases ht
    next hv' => exact (((hread.trans (engineWord hv)).trans (enginePut hm')).trans (enginePut hv')).trans (putWeights ht)
  · split at ht
    · cases ht
    next hm' => exact (hread.trans (enginePut hm')).trans (putWeights ht)

theorem collStep {s t : State} {c : EngineCmd} {kind k size b m : Nat} {desc : List Byte} {parts : List (Nat × Nat × List Nat)}
    (ht : s.collStep c kind k size desc parts b = .ok (t, m)) : s.Accessed t := by
  have hput {u : State} {va : Word} {i v n d : Nat} (hu : (u.enginePut c va i v n).map (fun s => (s, d)) = .ok (t, m)) : u.Accessed t := by
    obtain ⟨w, hw, hwt⟩ := Except.map_eq_ok hu
    cases hwt
    exact enginePut hw
  unfold State.collStep at ht
  dsimp only at ht
  split at ht
  · split at ht
    · cases ht
    next hhi =>
    split at hhi
    · cases hhi
      exact hput ht
    · split at hhi <;> cases hhi
      next hold => exact (engineOld hold).trans (hput ht)
  · exact hput ht

/-- A piece of a copy is accesses, and a note in its command where it has brought poison. -/
theorem copyStep {s t : State} {c : EngineCmd} {dst src : Word} {m n : Nat} (ht : s.copyStep c dst src m = .ok (t, n)) :
    ∃ u k, s.Accessed u ∧ (t = u ∨ t = u.setEngine { c with tainted := k }) := by
  unfold State.copyStep at ht
  dsimp only at ht
  split at ht
  · cases ht
  next hf =>
    split at ht
    · cases ht
    · split at ht
      · cases ht
      next hw =>
        simp only [Except.ok.injEq, Prod.mk.injEq] at ht
        obtain ⟨rfl, -⟩ := ht
        split
        · exact ⟨_, _, (engineFetch hf).trans (engineWrite hw), .inr rfl⟩
        · exact ⟨_, 0, (engineFetch hf).trans (engineWrite hw), .inl rfl⟩

/-- So is a unit of any command. -/
theorem engineUnit {s t : State} {c : EngineCmd} {m n : Nat} (ht : s.engineUnit c m = .ok (t, n)) :
    ∃ u k, s.Accessed u ∧ (t = u ∨ t = u.setEngine { c with tainted := k }) := by
  unfold State.engineUnit at ht
  split at ht
  · exact copyStep ht
  · exact ⟨t, 0, collStep ht, .inl rfl⟩
  · obtain ⟨u, hu, htu⟩ := Except.map_eq_ok ht
    cases htu
    exact ⟨_, 0, updateStep hu, .inl rfl⟩

/-! ### What members of a collective contribute (R249) -/

theorem readRun (c : EngineCmd) (va : Word) (ty : Nat) : ∀ (n i : Nat) (s : State), s.Accessed (State.readRun c va ty n i s).1
  | 0, _, s => refl s
  | n + 1, i, s => by
    rw [State.readRun]
    dsimp only
    split
    · exact refl s
    next hw => exact (engineWord hw).trans (readRun c va ty n (i + 1) _)

/-- A loop whose state only sees accesses. -/
theorem foldl_fst {α β : Type} {f : State × β → α → State × β} (hf : ∀ (a : State × β) x, a.1.Accessed (f a x).1) :
    ∀ (l : List α) (a : State × β), a.1.Accessed (l.foldl f a).1
  | [], a => refl a.1
  | x :: l, a => (hf a x).trans (foldl_fst hf l _)

theorem contribution (s : State) (c : EngineCmd) (kind : Nat) (desc : List Byte) (size : Nat) : s.Accessed (s.contribution c kind desc size).1 := by
  unfold State.contribution
  extract_lets n blocks r got unit whole
  change s.Accessed r.1
  refine foldl_fst (fun a j => ?_) (List.range blocks) (s, [], none)
  exact readRun c _ _ n (j * n) a.1

theorem gather (s : State) (cs : List EngineCmd) : s.Accessed (s.gather cs).1 := by
  refine foldl_fst (fun a c => ?_) cs (s, [], [])
  split
  · exact contribution a.1 c _ _ _
  · exact refl a.1

end State.Accessed

end Sys2Proof.Machine
end

section
/-! What the engines do as their commands run and end: no gang and no command's number changes, and every command that still runs is one that
ran before, of the same work, with the data of its collective (R247, R249, R251, R252, R406, R418, R419). -/

namespace Sys2Proof.Machine

open Sys2Proof

/-- Two states of one command, which differ in how far it has come. -/
def EngineCmd.Same (c d : EngineCmd) : Prop := c.id = d.id ∧ c.work = d.work ∧ c.remote = d.remote

/-- A state of a command that runs. -/
def State.Has (s : State) (c : EngineCmd) : Prop := ∃ d ∈ s.engines, c.Same d

theorem State.has_of_mem {s : State} {c : EngineCmd} (hc : c ∈ s.engines) : s.Has c := ⟨c, hc, rfl, rfl, rfl⟩

theorem State.engine?_id {s : State} {id : Nat} {c : EngineCmd} (hc : s.engine? id = some c) : c.id = id := by
  simpa using List.find?_some hc

theorem State.has_of_engine? {s : State} {id : Nat} {c : EngineCmd} (hc : s.engine? id = some c) : s.Has c :=
  State.has_of_mem (List.mem_of_find?_eq_some hc)

/-- From `s` to `t` only commands have run or ended. -/
structure State.Runs (s t : State) : Prop where
  gangs : t.gangs = s.gangs
  engineId : t.engineId = s.engineId
  engines : ∀ c ∈ t.engines, s.Has c

theorem State.Accessed.runs {s t : State} (h : s.Accessed t) : s.Runs t := ⟨h.gangs, h.engineId, fun _ hc => State.has_of_mem (h.engines ▸ hc)⟩

namespace State.Runs

theorem refl (s : State) : s.Runs s := (State.Accessed.refl s).runs

theorem has {s t : State} (h : s.Runs t) {c : EngineCmd} (hc : t.Has c) : s.Has c := by
  obtain ⟨d, hd, hid, hwork, hremote⟩ := hc
  obtain ⟨e, he, hid', hwork', hremote'⟩ := h.engines d hd
  exact ⟨e, he, hid.trans hid', hwork.trans hwork', hremote.trans hremote'⟩

theorem trans {s t u : State} (h : s.Runs t) (k : t.Runs u) : s.Runs u :=
  ⟨k.gangs.trans h.gangs, k.engineId.trans h.engineId, fun c hc => h.has (k.engines c hc)⟩

theorem ite {s t u : State} {c : Prop} [Decidable c] (ht : s.Runs t) (hu : s.Runs u) : s.Runs (if c then t else u) := by
  split
  · exact ht
  · exact hu

theorem foldl {α : Type} {f : State → α → State} (hf : ∀ (s : State) a, s.Runs (f s a)) : ∀ (l : List α) (s : State), s.Runs (l.foldl f s)
  | [], s => refl s
  | a :: l, s => (hf s a).trans (foldl hf l _)

/-- A change that no command sees. -/
theorem of_engines {s t : State} (hg : t.gangs = s.gangs) (hi : t.engineId = s.engineId) (he : t.engines = s.engines) : s.Runs t :=
  ⟨hg, hi, fun _ hc => State.has_of_mem (he ▸ hc)⟩

theorem setEngine {s t : State} (h : s.Runs t) {c : EngineCmd} (hc : s.Has c) : s.Runs (t.setEngine c) := by
  refine ⟨h.gangs, h.engineId, fun d hd => ?_⟩
  obtain ⟨e, he, rfl⟩ := List.mem_map.mp hd
  split
  · exact hc
  · exact h.engines e he

/-! ### How a command ends (R252, R406, R418, R419) -/

theorem endEngine (s : State) (c : EngineCmd) (status : Nat) : s.Runs (s.endEngine c status) := by
  unfold State.endEngine
  extract_lets gone entered waiting noted
  have hgone : s.Runs gone := ⟨rfl, rfl, fun d hd => State.has_of_mem (List.mem_filter.mp hd).1⟩
  have hentered : s.Runs entered := ite hgone (hgone.trans (of_engines rfl rfl rfl))
  have hnoted : s.Runs noted := hentered.trans (of_engines rfl rfl rfl)
  exact ite (hnoted.trans (of_engines rfl rfl rfl)) hnoted

theorem owe (s : State) (c : EngineCmd) (f : EngineFault) : s.Runs (s.owe c f) := by
  unfold State.owe
  split <;> exact of_engines rfl rfl rfl

theorem endAborted (s : State) (c : EngineCmd) : s.Runs (s.endAborted c) := (endEngine s c 3).trans (owe _ _ _)

theorem sendTokens (s : State) (g : Nat) (ds : List EngineCmd) : s.Runs (s.sendTokens g ds) := of_engines rfl rfl rfl

theorem dropOut (s : State) (c : EngineCmd) : s.Runs (s.dropOut c) := by
  unfold State.dropOut
  split
  · refine foldl (fun u d => ?_) _ s
    extract_lets told
    have htold : u.Runs told := (State.Accessed.hall u _).runs
    refine ite ?_ ?_
    · split
      · exact htold
      next d hd =>
        have hhas : u.Has { d with missing := d.missing } := htold.has (State.has_of_engine? hd)
        exact htold.setEngine hhas
    · split
      · exact htold
      · exact htold.trans (sendTokens _ _ _)
  · exact refl s

theorem faultEngine (s : State) (c : EngineCmd) (k f : Nat) (va : Word) (src : Option Word) : s.Runs (s.faultEngine c k f va src) := by
  unfold State.faultEngine
  refine ite (endAborted s c) ?_
  have hended := (ite (State.Accessed.sawTables s c.space va).runs (refl s) (c := f = 0)).trans (endEngine _ c 2)
  exact (((hended.trans (owe _ c _)).trans (State.Accessed.hall _ _).runs).trans (State.Accessed.noteBarred _ _ _ _).runs).trans (dropOut _ c)

/-! ### Progress (R247, R249, R251) -/

theorem engineUnit {s t : State} {c : EngineCmd} {m n : Nat} (hc : s.Has c) (ht : s.engineUnit c m = .ok (t, n)) : s.Runs t := by
  obtain ⟨u, k, hu, rfl | rfl⟩ := State.Accessed.engineUnit ht
  · exact hu.runs
  · exact hu.runs.setEngine hc

theorem readSkip {s t : State} {c d : EngineCmd} (ht : s.readSkip c = .ok (t, d)) : s.Accessed t ∧ d.Same c := by
  unfold State.readSkip at ht
  split at ht
  · split at ht
    · cases ht
      exact ⟨State.Accessed.refl s, rfl, rfl, rfl⟩
    · split at ht
      · cases ht
      next hw =>
        simp only [Except.ok.injEq, Prod.mk.injEq] at ht
        obtain ⟨rfl, rfl⟩ := ht
        refine ⟨State.Accessed.engineWord hw, ?_⟩
        split <;> exact ⟨rfl, rfl, rfl⟩
  · cases ht
    exact ⟨State.Accessed.refl s, rfl, rfl, rfl⟩

theorem transfer (id upto : Nat) : ∀ (n : Nat) (s : State), s.Runs (State.transfer id upto n s)
  | 0, s => refl s
  | n + 1, s => by
    rw [State.transfer]
    split
    · exact refl s
    next c hc =>
    refine ite (refl s) ?_
    split
    · exact faultEngine s c 5 _ _ _
    next hu =>
      have hunit := engineUnit (State.has_of_engine? hc) hu
      refine trans ?_ (transfer id upto n _)
      split
      · exact hunit
      next d hd =>
        have hhas : s.Has { d with next := d.next } := hunit.has (State.has_of_engine? hd)
        exact hunit.setEngine hhas

theorem advance : ∀ (n id upto : Nat) (s : State), s.Runs (State.advance n id upto s)
  | 0, _, _, s => refl s
  | n + 1, id, upto, s => by
    rw [State.advance]
    split
    · exact refl s
    next c hc =>
    extract_lets olds begun
    have holds : s.Runs begun := foldl (fun u (d : EngineCmd) => advance n d.id d.total u) _ s
    refine ite holds ?_
    split
    · exact holds.trans (faultEngine _ c 5 _ _ _)
    next hskip =>
      obtain ⟨hread, hid, hwork, hremote⟩ := readSkip hskip
      obtain ⟨e, he, hid', hwork', hremote'⟩ := State.has_of_engine? hc
      exact ((holds.trans hread.runs).setEngine ⟨e, he, hid.trans hid', hwork.trans hwork', hremote.trans hremote'⟩).trans (transfer id upto _ _)

theorem advanceAll (s : State) (id : Nat) : s.Runs (s.advanceAll id) := by
  unfold State.advanceAll
  split
  · exact refl s
  · exact advance _ id _ s

/-! ### Aborts and ranks that drop out (R418, R419) -/

theorem abortEngine {s t : State} {c : EngineCmd} (h : s.Runs t) (hc : s.Has c) : s.Runs (t.abortEngine c) := by
  unfold State.abortEngine
  extract_lets stopped
  have hlast (u : State) (d : EngineCmd) : u.Runs (u.lastChunks d).1 := by
    unfold State.lastChunks
    dsimp only
    split
    · exact refl u
    · exact advance _ d.id _ u
  have htoken : s.Has { c with token := true } := hc
  have hstopped : s.Runs stopped := ite h ((h.setEngine htoken).trans (hlast _ _))
  split
  · exact hstopped
  · exact hstopped.trans (endAborted _ _)

theorem lackRanks {s : State} {c : EngineCmd} (hc : s.Has c) (rs : List Nat) : s.Runs (s.lackRanks c rs) := by
  unfold State.lackRanks
  extract_lets lacking d told
  have hd : s.Has d := hc
  have htold : s.Runs told := ((refl s).setEngine hd).trans (foldl (fun u _ => (State.Accessed.hall u _).runs) _ _)
  exact ite htold (abortEngine htold hd)

/-! ### Completion (R227, R247, R251) -/

theorem closeEngine (s : State) (c : EngineCmd) : s.Runs (s.closeEngine c) := by
  unfold State.closeEngine
  refine ite ((endEngine s c 4).trans (owe _ c _)) ?_
  extract_lets released step
  have hrelease : s.Runs released := by
    unfold released
    split
    · exact ite (State.Accessed.drainMarked s _).runs (refl s)
    · exact refl s
  have hversion {t : State} (ht : step = .ok t) : s.Runs t := by
    unfold step at ht
    split at ht
    · split at ht <;> cases ht
      next hadd => exact hrelease.trans (State.Accessed.engineAdd hadd).runs
    · cases ht
      exact hrelease
  clear_value step released
  split
  · exact hrelease.trans (faultEngine _ c 3 _ _ _)
  next t =>
    refine ite ((hversion rfl).trans (endEngine t c 0)) ?_
    split
    · exact hrelease.trans (faultEngine _ c 5 _ _ _)
    next hadd => exact ((hversion rfl).trans (State.Accessed.engineAdd hadd).runs).trans (endEngine _ c 0)

theorem complete : ∀ (n id : Nat) (s : State), s.Runs (State.complete n id s)
  | 0, _, s => refl s
  | n + 1, id, s => by
    rw [State.complete]
    split
    · exact refl s
    · extract_lets olds run
      have hrun : s.Runs run := (foldl (fun u (d : EngineCmd) => complete n d.id u) olds s).trans (advanceAll _ id)
      split
      · exact hrun
      · exact ite hrun (hrun.trans (closeEngine _ _))

theorem release (s : State) (n : Nat) : s.Runs (s.release n).1 :=
  (State.Accessed.drainMarked s n).runs.trans (foldl (fun u (c : EngineCmd) => complete _ c.id u) _ _)

end State.Runs

end Sys2Proof.Machine
end

section
/-! Engine commands at their issue (R247 to R251, R341, R342, R406, R407). -/

namespace Sys2Proof.Machine

open Sys2Proof

/-! ### Ranges (R406, R247) -/

section
variable {s : State} {h : Hart} {c : EngineCmd} {reads writes word : List Range}

/-- A range read that is a path fault known at issue. -/
theorem State.checkIssue_read {va : Word} (hr : (reads ++ word).findSome? (s.rangeFault c .engineRead) = some va) :
    s.checkIssue h c reads writes word = .trap s { code := 0x3013, tva := va } := by
  rw [State.checkIssue, hr]
  rfl

variable (hr : (reads ++ word).findSome? (s.rangeFault c .engineRead) = none)
include hr

/-- A range written that is a path fault known at issue, where none read is. -/
theorem State.checkIssue_write {va : Word} (hw : writes.findSome? (s.rangeFault c .engineWrite) = some va) :
    s.checkIssue h c reads writes word = .trap s { code := 0x3023, tva := va } := by
  rw [State.checkIssue, hr]
  dsimp only
  rw [hw]
  rfl

/-- A command without a path fault issues, where its hart has room for it. -/
theorem State.checkIssue_done (hw : writes.findSome? (s.rangeFault c .engineWrite) = none) (hfew : s.FewCommands h) :
    s.checkIssue h c reads writes word = .done (s.issued c reads writes) := by
  have hroom : (s.enginesOf h.hid).length < 16 := hfew
  rw [State.checkIssue, hr]
  dsimp only
  rw [hw]
  dsimp only
  rw [State.issue]
  dsimp only
  rw [if_pos hroom, if_neg (Nat.not_le.mpr hroom)]
  simp only [State.issued, List.flatMap_def]

end

/-! ### Copies (R248) -/

section
variable {s : State} {h : Hart} (hs : s.hart? = some h)
include hs

section
variable (xd xs xn xc : XReg) (scope : BitVec 3)

/-- A copy whose ranges share a byte is illegal; any other is checked and issues. -/
theorem exec_cpy : exec (.cpy xd xs xn xc scope) s =
    (if s.rangesOverlap (s.newCmd h scope (h.getX xc) (.copy (h.getX xd) (h.getX xs) (h.getX xn).toNat) (h.getX xn).toNat)
        (h.getX xs, (h.getX xn).toNat) (h.getX xd, (h.getX xn).toNat) then Exec.trap s (illegalUse 0x4a)
      else s.checkIssue h (s.newCmd h scope (h.getX xc) (.copy (h.getX xd) (h.getX xs) (h.getX xn).toNat) (h.getX xn).toNat)
        [(h.getX xs, (h.getX xn).toNat)] [(h.getX xd, (h.getX xn).toNat)]).outcome 8 := onHart_eq hs 8 _

end

/-! ### Version registers (R251) -/

section
variable (n : BitVec 6) (xa : XReg)

theorem exec_wver_misaligned (hal : (h.getX xa).toNat % 8 ≠ 0) : exec (.wver n xa) s = .next (s.takeTrap { code := 0x114d }) := by
  refine (onHart_eq hs 8 _).trans ?_
  rw [if_pos hal]
  rfl

theorem exec_wver (hal : (h.getX xa).toNat % 8 = 0) :
    exec (.wver n xa) s = .next (s.ran { h with wver := put h.wver n.toNat (some (h.getX xa)) } 8) := by
  refine (onHart_eq hs 8 _).trans ?_
  rw [if_neg (not_not.mpr hal)]
  rfl

end

/-! ### Collectives (R249, R341, R342) -/

/-- A collective descriptor's checks, and its command (R249, R341, R342). -/
def State.collChecked (u : State) (h : Hart) (kind : Nat) (scope : BitVec 3) (d : List Byte) : Exec :=
  let g := descField d 0x16 2
  let src : Range := (descAddr d 0 0, elBytes (collTy d) ((if kind = 3 ∨ kind = 5 then u.groupSize g else 1) * collCount d))
  let bytes := elBytes (collTy d) (collElements kind (u.groupSize g) d)
  let dst : Range := (descAddr d 8 0, bytes)
  let rank := u.groupBase g + ((u.groupDies g).filter (fun x => x < h.die)).length
  let c := u.newCmd h scope (descAddr d 0x18 0) (.collective kind d rank (u.groupSize g)) bytes
  if badColl kind d || u.badGroup h.ctx h.die g || (u.rangesOverlap c src dst && !(kind = 2 && u.byName c src.1 = u.byName c dst.1)) then
    .trap u (illegalUse 0x4b)
  else (u.checkIssue h c [src] [dst]).thenStart g

section
variable (kind : Nat) (xa : XReg) (scope : BitVec 3)

theorem collective_misaligned (hal : (h.getX xa).toNat % 64 ≠ 0) : collective kind xa scope s = .next (s.takeTrap { code := 0x114b }) := by
  refine (onHart_eq hs 8 _).trans ?_
  dsimp only
  rw [if_pos hal]
  rfl

theorem collective_loaded {u : State} {d : List Byte} (hal : (h.getX xa).toNat % 64 = 0)
    (hl : s.loadRecord h (h.getX xa) 64 = .ok (u, d)) : collective kind xa scope s = (u.collChecked h kind scope d).outcome 8 := by
  refine (onHart_eq hs 8 _).trans ?_
  dsimp only
  rw [if_neg (not_not.mpr hal), hl]
  simp only [State.collChecked, Bool.or_eq_true, decide_eq_true_eq]

end

/-! ### Updates (R250, R251) -/

/-- What an update reads, what it writes, and its command. -/
def updReads (adamw : Bool) (d : List Byte) : List Range :=
  [(descAddr d 0 0, 4 * descField d 0x28 4), (descAddr d 8 0, tyWidth (descField d 0x2c 1) / 8 * descField d 0x28 4),
    (descAddr d 0x10 0, 4 * descField d 0x28 4)] ++ if adamw then [(descAddr d 0x18 0, 4 * descField d 0x28 4)] else []

def updWrites (adamw : Bool) (d : List Byte) : List Range :=
  [(descAddr d 0 0, 4 * descField d 0x28 4), (descAddr d 0x10 0, 4 * descField d 0x28 4)] ++
    (if adamw then [(descAddr d 0x18 0, 4 * descField d 0x28 4)] else []) ++
    if descField d 0x20 8 = 0 then [] else [(descAddr d 0x20 0, 2 * descField d 0x28 4)]

def State.updCmd (u : State) (h : Hart) (scope : BitVec 3) (adamw : Bool) (d : List Byte) : EngineCmd :=
  u.newCmd h scope (descAddr d 0x38 0) (.update adamw d (if (descField d 0x2d 1).testBit 7 then find h.wver (descField d 0x2d 1 % 64) else none))
    (4 * descField d 0x28 4)

omit hs in
theorem pteBit_eq_testBit (e n : Nat) : pteBit e n = e.testBit n := (Nat.testBit_eq_decide_div_mod_eq ..).symm

section
variable (adamw : Bool) (xa : XReg) (scope : BitVec 3)

theorem update_misaligned (hal : (h.getX xa).toNat % 128 ≠ 0) : update adamw xa scope s = .next (s.takeTrap { code := 0x114c }) := by
  refine (onHart_eq hs 8 _).trans ?_
  dsimp only
  rw [if_pos hal]
  rfl

variable {u : State} {d : List Byte} (hal : (h.getX xa).toNat % 128 = 0) (hl : s.loadRecord h (h.getX xa) 128 = .ok (u, d))
include hal hl

theorem update_bad (hbad : badUpdate h d = true) : update adamw xa scope s = .next (u.takeTrap { code := 0x114c }) := by
  refine (onHart_eq hs 8 _).trans ?_
  dsimp only
  rw [if_neg (not_not.mpr hal), hl]
  dsimp only
  rw [if_pos hbad]
  rfl

/-- A well-formed update without a skip word is checked and issues; one with a skip word after its hart's release. -/
theorem update_loaded (hok : badUpdate h d = false) : update adamw xa scope s =
    (if descField d 0x30 8 = 0 then u.checkIssue h (u.updCmd h scope adamw d) (updReads adamw d) (updWrites adamw d)
      else if (u.release h.hid).2 then
        ((u.release h.hid).1.checkIssue h (u.updCmd h scope adamw d) (updReads adamw d) (updWrites adamw d) [(descAddr d 0x30 0, 8)]).thenSkip
      else .wait (u.release h.hid).1).outcome 8 := by
  refine (onHart_eq hs 8 _).trans ?_
  dsimp only
  rw [if_neg (not_not.mpr hal), hl]
  dsimp only
  rw [if_neg (Bool.eq_false_iff.mp hok)]
  rw [State.updCmd, ← pteBit_eq_testBit]
  cases (u.release h.hid).2 <;> rfl

end

end

/-- A command is made the same after its hart's older ones have run. -/
theorem State.Runs.newCmd {s t : State} (h : s.Runs t) (g : Hart) (scope : BitVec 3) (ctr : Word) (work : EngineWork) (total : Nat) :
    t.newCmd g scope ctr work total = s.newCmd g scope ctr work total := by
  simp only [State.newCmd, State.gangOf, State.gangAt, h.gangs, h.engineId]

theorem find_put_ne {κ α : Type} [BEq κ] [LawfulBEq κ] {l : List (κ × α)} {n k : κ} (hk : k ≠ n) (v : α) :
    find (put l n (some v)) k = find l k := by
  have hkept : (l.filter (fun p => p.1 != n)).find? (fun p => p.1 == k) = l.find? (fun p => p.1 == k) := by
    rw [List.find?_filter]
    refine congrArg (fun p => l.find? p) (funext fun x => ?_)
    by_cases hx : x.1 = k
    · simp [hx, hk]
    · simp [hx]
  have hlast : [(n, v)].find? (fun p => p.1 == k) = none := by simp [Ne.symm hk]
  simp [find, put, List.find?_append, hkept, hlast]

end Sys2Proof.Machine

namespace Sys2Proof.Proofs

open Sys2Proof Sys2Proof.Machine

/-- Settles O51: every command is its checks and then the issue of one command; a release before the issue changes nothing that the command
is made of. -/
theorem engineCommandsIssue : Obligations.EngineCommandsIssue := by
  unfold Obligations.EngineCommandsIssue
  intro s h xd xs xn xc xa scope n hs size va checked
  have hchecked {i : Instr} {u : State} {c : EngineCmd} {rd wr word : List Range} {k : State → State} {f : Exec → Exec}
      (hi : exec i s = (f (u.checkIssue h c rd wr word)).outcome 8) (htrap : ∀ r, f (.trap u r) = .trap u r)
      (hdone : ∀ t, f (.done t) = .done (k t)) : checked i u c rd wr word k := by
    dsimp only [checked]
    rw [hi]
    refine ⟨fun a hr => ?_, fun hr => ⟨fun a hw => ?_, fun hw hfew => ?_⟩⟩
    · rw [State.checkIssue_read hr, htrap]
      rfl
    · rw [State.checkIssue_write hr hw, htrap]
      rfl
    · rw [State.checkIssue_done hr hw hfew, hdone]
      rfl
  refine ⟨⟨fun hover => ?_, fun hclear => ?_⟩, fun i kind hi => ?_, fun i adamw hi => ?_, exec_wver_misaligned hs n xa, fun hal => ?_⟩
  · rw [exec_cpy hs, if_pos hover]
    rfl
  · refine hchecked (f := id) ?_ (fun _ => rfl) (fun _ => rfl)
    rw [exec_cpy hs, if_neg (Bool.eq_false_iff.mp hclear)]
    rfl
  · have hcoll : exec i s = collective kind xa scope s := by rcases hi with ⟨rfl, rfl⟩ | ⟨rfl, rfl⟩ | ⟨rfl, rfl⟩ | ⟨rfl, rfl⟩ <;> rfl
    refine ⟨fun hal => hcoll.trans (collective_misaligned hs kind xa scope hal), fun u d hal hl => ?_⟩
    have hexec := hcoll.trans (collective_loaded hs kind xa scope hal hl)
    refine ⟨fun hbad => ?_, fun hok => hchecked (f := Exec.thenStart _) ?_ (fun _ => rfl) (fun _ => rfl)⟩
    · rw [hexec, State.collChecked]
      exact congrArg (Exec.outcome 8) (if_pos hbad)
    · rw [hexec, State.collChecked]
      exact congrArg (Exec.outcome 8) (if_neg (Bool.eq_false_iff.mp hok))
  · have hupd : exec i s = update adamw xa scope s := by rcases hi with ⟨rfl, rfl⟩ | ⟨rfl, rfl⟩ <;> rfl
    refine ⟨fun hal => hupd.trans (update_misaligned hs adamw xa scope hal), fun u d hal hl =>
      ⟨fun hbad => hupd.trans (update_bad hs adamw xa scope hal hl hbad), fun hok => ?_⟩⟩
    have hexec := hupd.trans (update_loaded hs adamw xa scope hal hl hok)
    refine ⟨fun hskip => hchecked (f := id) ?_ (fun _ => rfl) (fun _ => rfl), fun hskip hgone => ?_⟩
    · rw [hexec, if_pos hskip]
      rfl
    · refine hchecked (f := Exec.thenSkip) (k := fun x => x.advance (x.engines.length + 1) (x.engineId - 1) 0) ?_ (fun _ => rfl) (fun _ => rfl)
      rw [hexec, if_neg hskip, if_pos hgone, State.updCmd, ← (State.Runs.release u h.hid).newCmd]
      rfl
  · refine ⟨_, exec_wver hs n xa hal, rfl, fun k => ?_⟩
    split
    next hk => rw [hk]; exact find_put_self _ _ _
    next hk => exact find_put_ne hk _

end Sys2Proof.Proofs
end

section
/-! Events of the engines and the ports (R247, R249, R252, R340, R342, R406, R418, R419). -/

namespace Sys2Proof.Machine

open Sys2Proof

/-! ### A command that runs alone (R247) -/

/-- The only command runs without waiting for another. -/
theorem State.advance_only {s : State} {c : EngineCmd} (he : s.engines = [c]) (n upto : Nat) : State.advance (n + 1) c.id upto s =
    if c.startable then
      match s.readSkip c with
      | .error (f, va) => s.faultEngine c 5 f va
      | .ok (t, d) => State.transfer c.id upto (upto - d.next) (t.setEngine d)
    else s := by
  have holds : s.engines.filter (fun d => s.follows c d) = [] := by simp [he, State.follows_self]
  rw [State.advance, State.engine?_only he]
  dsimp only
  rw [holds]
  simp only [List.foldl_nil, List.any_nil, Bool.or_false, Bool.not_eq_true']
  cases c.startable with
  | false => rfl
  | true =>
    rcases s.readSkip c with ⟨f, va⟩ | ⟨t, d⟩ <;> simp only [Bool.true_eq_false, if_false, if_true]

/-- A command of a copy, as the rules of its end see it. -/
theorem EngineCmd.copy_facts {c : EngineCmd} {dst src : Word} {n : Nat} (hw : c.work = .copy dst src n) :
    c.startable = true ∧ c.version = none ∧ c.releases = (c.ctr != 0) ∧ ∀ s : State, s.readSkip c = .ok (s, c) := by
  refine ⟨?_, ?_, ?_, fun s => ?_⟩
  · rw [EngineCmd.startable, EngineCmd.group?, hw]
    rfl
  · rw [EngineCmd.version, hw]
  · rw [EngineCmd.releases, hw]
    exact Bool.or_false _
  · rw [State.readSkip, hw]

section
variable {s : State} {c : EngineCmd}

/-- The only command, a copy whose bytes are done, closes. -/
theorem State.completeEngine_copy (he : s.engines = [c]) (hn : c.next = c.total) {dst src : Word} {n : Nat} (hw : c.work = .copy dst src n) :
    s.completeEngine c.id = s.closeEngine c := by
  obtain ⟨hstart, -, -, hskip⟩ := EngineCmd.copy_facts hw
  have hall : s.advanceAll c.id = s := by
    rw [State.advanceAll, State.engine?_only he]
    dsimp only
    rw [State.advance_only he, if_pos hstart, hskip]
    dsimp only
    rw [hn, Nat.sub_self, State.transfer, State.setEngine_only he rfl, ← he]
  have holds : (if c.releases then s.engines.filter (fun d => c.sameHart d && decide (d.id < c.id)) else []) = [] := by
    simp [he]
  rw [State.completeEngine, State.complete, State.engine?_only he]
  dsimp only
  rw [holds, List.foldl_nil, hall, State.engine?_only he]
  simp [hn, hstart]

/-- A copy that closes adds 1 to its counter after its hart's stores, where it has one. -/
theorem State.closeEngine_copy (hm : c.missing = []) {dst src : Word} {n : Nat} (hw : c.work = .copy dst src n) :
    (c.ctr = 0 → s.closeEngine c = s.endEngine c 0) ∧
      (c.ctr ≠ 0 → ∀ t, (match c.hid with
        | some k => (s.drain k).markFence k
        | none => s).engineAdd c c.ctr = .ok t → s.closeEngine c = t.endEngine c 0) := by
  obtain ⟨-, hversion, hrel, -⟩ := EngineCmd.copy_facts hw
  refine ⟨fun hctr => ?_, fun hctr t ht => ?_⟩
  · rw [State.closeEngine, hm, hversion, hrel, hctr]
    cases c.hid <;> rfl
  · have hrel : c.releases = true := hrel.trans (bne_iff_ne.mpr hctr)
    rw [State.closeEngine, hm, hversion, hrel]
    cases hk : c.hid <;> simp only [hk] at ht <;> simp only [List.isEmpty_nil, Bool.not_true, Bool.false_eq_true, if_false, if_true, hctr, ht]

end

/-! ### A collective that starts (R249) -/

/-- The members of a group that have not started have numbers of a list. -/
def State.WaitingIn (s : State) (g : Nat) (ids : List Nat) : Prop :=
  ∀ c ∈ s.engines, c.group? = some g → c.remote = none → c.id ∈ ids

theorem EngineCmd.Same.group? {c d : EngineCmd} (h : c.Same d) : c.group? = d.group? := by
  rw [EngineCmd.group?, EngineCmd.group?, h.2.1]

/-- Commands that run or end leave no other member waiting. -/
theorem State.Runs.waitingIn {s t : State} (h : s.Runs t) {g : Nat} {ids : List Nat} (hs : s.WaitingIn g ids) : t.WaitingIn g ids := by
  intro c hc hg hr
  obtain ⟨d, hd, hsame⟩ := h.engines c hc
  rw [hsame.1]
  exact hs d hd (hsame.group? ▸ hg) (hsame.2.2 ▸ hr)

/-- The members of a group that have not started, where some commands run. -/
theorem State.groupReady_waiting {s : State} {g : Nat} {cs : List EngineCmd} (hcs : s.groupReady g = some cs) :
    s.WaitingIn g (cs.map (fun c => c.id)) := by
  have hmembers : s.engines.filter (fun c => c.group? == some g && c.remote.isNone) = cs := by
    rw [State.groupReady] at hcs
    generalize s.engines.filter (fun c => c.group? == some g && c.remote.isNone) = all at hcs
    cases all with
    | nil => cases hcs
    | cons c l =>
      dsimp only at hcs
      split at hcs
      · exact Option.some.inj hcs
      · cases hcs
  intro c hc hg hr
  refine List.mem_map_of_mem (hmembers ▸ List.mem_filter.mpr ⟨hc, ?_⟩)
  simp [hg, hr]

/-- Its data given to the command of a number. -/
def State.beginEngine (parts : List (Nat × Nat × List Nat)) (remote : List (Nat × List Byte)) (s : State) (id : Nat) : State :=
  match s.engine? id with
  | none => s
  | some c => s.setEngine (c.begun parts remote)

theorem EngineCmd.begun_id (c : EngineCmd) (parts : List (Nat × Nat × List Nat)) (remote : List (Nat × List Byte)) : (c.begun parts remote).id = c.id := by
  unfold EngineCmd.begun
  split <;> rfl

/-- A collective that has begun has its data fixed. -/
theorem EngineCmd.begun_group {c : EngineCmd} {g : Nat} {parts : List (Nat × Nat × List Nat)} {remote : List (Nat × List Byte)}
    (hg : (c.begun parts remote).group? = some g) : (c.begun parts remote).remote ≠ none := by
  cases hw : c.work with
  | collective kind desc k size => simp [EngineCmd.begun, hw]
  | copy dst src n => simp [EngineCmd.begun, EngineCmd.group?, hw] at hg
  | update adamw desc word => simp [EngineCmd.begun, EngineCmd.group?, hw] at hg

/-- Each member given its data is no longer waiting. -/
theorem State.beginEngine_waiting (parts : List (Nat × Nat × List Nat)) (remote : List (Nat × List Byte)) {g : Nat} :
    ∀ (ids : List Nat) {s : State}, s.WaitingIn g ids → (ids.foldl (State.beginEngine parts remote) s).WaitingIn g []
  | [], _, hs => hs
  | id :: ids, s, hs => by
    refine State.beginEngine_waiting parts remote ids fun c hc hg hr => ?_
    unfold State.beginEngine at hc
    cases hf : s.engine? id with
    | none =>
      rw [hf] at hc
      have hne : c.id ≠ id := by simpa using List.find?_eq_none.mp hf c hc
      exact (List.mem_cons.mp (hs c hc hg hr)).resolve_left hne
    | some d =>
      rw [hf] at hc
      obtain ⟨e, he, rfl⟩ := List.mem_map.mp hc
      split at hg
      next heq =>
        rw [if_pos heq] at hr
        exact absurd hr (EngineCmd.begun_group hg)
      next hne =>
        rw [if_neg hne] at hr ⊢
        rw [EngineCmd.begun_id, State.engine?_id hf, beq_iff_eq] at hne
        exact (List.mem_cons.mp (hs e he hg hr)).resolve_left hne

theorem State.Runs.sourcesReady (s : State) (cs : List EngineCmd) : s.Runs (s.sourcesReady cs).1 := by
  have hfold : ∀ (cs : List EngineCmd) (a : State × Bool),
      a.1.Runs (cs.foldl (fun (a : State × Bool) c => let r := a.1.sourceReady c; (r.1, a.2 && r.2)) a).1 := by
    intro cs
    induction cs with
    | nil => exact fun a => State.Runs.refl a.1
    | cons c cs ih =>
      refine fun a => State.Runs.trans ?_ (ih _)
      exact State.Runs.foldl (fun u (d : EngineCmd) => State.Runs.advanceAll u d.id) _ a.1
  exact hfold cs (s, true)

/-- A change made to commands by their numbers, while they run. -/
theorem State.Runs.foldl_engine {α : Type} {id : α → Nat} {f : State → EngineCmd → α → State}
    (hf : ∀ (s : State) c a, s.Has c → s.Runs (f s c a)) (l : List α) (s : State) :
    s.Runs (l.foldl (fun s a => match s.engine? (id a) with
      | none => s
      | some c => f s c a) s) := by
  refine State.Runs.foldl (fun u a => ?_) l s
  cases hc : u.engine? (id a) with
  | none => exact State.Runs.refl u
  | some c => exact hf u c a (State.has_of_engine? hc)

section
variable {s : State} {g : Nat} {remote : List (Nat × List Byte)} {cs : List EngineCmd} (hcs : s.groupReady g = some cs)
include hcs

theorem State.startGroup_waits (hcome : s.remoteCome g remote = false) : s.startGroup g remote = s := by
  rw [State.startGroup, hcs]
  simp [hcome]

theorem State.startGroup_notReady (hcome : s.remoteCome g remote = true) (hready : (s.sourcesReady cs).2 = false) :
    s.startGroup g remote = (s.sourcesReady cs).1 := by
  rw [State.startGroup, hcs]
  simp [hcome, hready]

/-- Every member of a group that starts has its data. -/
theorem State.startGroup_started (hcome : s.remoteCome g remote = true) (hready : (s.sourcesReady cs).2 = true) :
    (s.startGroup g remote).WaitingIn g [] := by
  rw [State.startGroup, hcs]
  dsimp only
  rw [if_pos hcome, hready, if_neg (by decide)]
  have hgathered : s.Runs ((s.sourcesReady cs).1.gather cs).1 :=
    (State.Runs.sourcesReady s cs).trans (State.Accessed.gather _ cs).runs
  have hbegun := State.beginEngine_waiting ((s.sourcesReady cs).1.gather cs).2.1 remote _ (hgathered.waitingIn (State.groupReady_waiting hcs))
  have hfaulted := (State.Runs.foldl_engine (id := fun x : EngineCmd × Nat × Word => x.1.id)
    (f := fun s c x => s.faultEngine c 5 x.2.1 x.2.2 (some x.2.2)) (fun u c x _ => State.Runs.faultEngine u c 5 _ _ _)
    ((s.sourcesReady cs).1.gather cs).2.2 _).waitingIn hbegun
  exact (State.Runs.foldl_engine (id := fun x : Nat => x) (f := fun s c _ => s.lackRanks c (c.short remote))
    (fun u c _ hc => State.Runs.lackRanks hc _) _ _).waitingIn hfaulted

end

end Sys2Proof.Machine
end

section
/-! Abort tokens, ports that go down, and flits sent again (R340, R418, R419). -/

namespace Sys2Proof.Machine

open Sys2Proof

/-! ### A command that a token has reached is gone (R418) -/

/-- Nothing that follows the end of a command brings it back. -/
theorem State.endEngine_engines (s : State) (c : EngineCmd) (status : Nat) :
    (s.endEngine c status).engines = s.engines.filter (fun d => d.id != c.id) := by
  unfold State.endEngine
  dsimp only
  split <;> split <;> rfl

theorem State.owe_engines (s : State) (c : EngineCmd) (f : EngineFault) : (s.owe c f).engines = s.engines := by
  unfold State.owe
  split <;> rfl

theorem State.engine?_endAborted (s : State) (c : EngineCmd) : (s.endAborted c).engine? c.id = none := by
  rw [State.engine?, State.endAborted, State.owe_engines, State.endEngine_engines, List.find?_filter, List.find?_eq_none]
  simp

theorem State.engine?_abortMember (s : State) (g : Nat) (c : EngineCmd) : (s.abortMember g c).engine? c.id = none := by
  change (s.abortEngine c).engine? c.id = none
  unfold State.abortEngine
  extract_lets stopped
  cases hd : stopped.engine? c.id with
  | none => exact hd
  | some d =>
    rw [← State.engine?_id hd]
    exact State.engine?_endAborted stopped d

/-! ### How far a command that a token reaches has come (R252, R418) -/

/-- A later state of a command on its way: more of its bytes done. -/
structure EngineCmd.Later (c d : EngineCmd) : Prop where
  next : c.next ≤ d.next
  same : d = { c with next := d.next, tainted := d.tainted, skip := d.skip }

theorem EngineCmd.Later.refl (c : EngineCmd) : c.Later c := ⟨le_rfl, rfl⟩

theorem EngineCmd.Later.trans {c d e : EngineCmd} (h : c.Later d) (k : d.Later e) : c.Later e :=
  ⟨h.next.trans k.next, by rw [k.same, h.same]⟩

/-- The end of a command that a token has reached: its hart, its launch and what its entry says are those of the command with some of its
bytes done. -/
structure EngineCmd.Stopped (c d : EngineCmd) : Prop where
  id : d.id = c.id
  hid : d.hid = c.hid
  launch : d.launch = c.launch
  entry : ∃ done, c.next ≤ done ∧ d.entryBytes 3 = ({ c with next := done }).entryBytes 3

theorem EngineCmd.Later.stopped {c d : EngineCmd} (h : c.Later d) : c.Stopped d := by
  obtain ⟨hnext, hsame⟩ := h
  rw [hsame]
  exact ⟨rfl, rfl, rfl, d.next, hnext, rfl⟩

/-- An engine entry by what it says of its command. -/
theorem EngineCmd.entryBytes_congr {d e : EngineCmd} (hpc : d.pc = e.pc) (hgang : d.gang = e.gang) (hidx : d.idx = e.idx) (hkind : d.kind = e.kind)
    (htotal : d.total = e.total) (hfinal : ∀ n, (min e.total n ≤ d.final) = (min e.total n ≤ e.final)) (status : Nat) :
    d.entryBytes status = e.entryBytes status := by
  have hcl : d.cl = e.cl := by rw [EngineCmd.cl, EngineCmd.cl, htotal]
  have hchunks : d.chunks = e.chunks := by rw [EngineCmd.chunks, EngineCmd.chunks, hcl, htotal]
  unfold EngineCmd.entryBytes
  simp only [hpc, hgang, hidx, hkind, htotal, hcl, hchunks, hfinal]

/-- An update that its skip word has stopped has all its bytes done, however many its command has counted. -/
theorem EngineCmd.stopped_skipped {c : EngineCmd} {adamw : Bool} {desc : List Byte} {word : Option Word} (hw : c.work = .update adamw desc word)
    (skip : Option Bool) : c.Stopped { c with skip := skip, next := c.total } := by
  refine ⟨rfl, rfl, rfl, max c.next c.total, le_max_left _ _, ?_⟩
  have hfinal (d : EngineCmd) (hd : d.work = c.work) : d.final = d.next := by rw [EngineCmd.final, hd, hw]
  refine EngineCmd.entryBytes_congr (d := { c with skip := skip, next := c.total }) (e := { c with next := max c.next c.total })
    rfl rfl rfl rfl rfl (fun n => ?_) 3
  rw [hfinal { c with skip := skip, next := c.total } rfl, hfinal { c with next := max c.next c.total } rfl]
  exact propext ⟨fun h => h.trans (le_max_right _ _), fun _ => Nat.min_le_left _ _⟩

/-! ### Its run (R418) -/

/-- `s` with accesses made since, in which the command `d` runs alone. -/
structure State.Alone (s : State) (d : EngineCmd) (t : State) : Prop where
  engines : t.engines = [d]
  launches : t.launches = s.launches
  owed : t.owed = s.owed

theorem State.Alone.accessed {s t u : State} {d : EngineCmd} (h : s.Alone d t) (hu : t.Accessed u) : s.Alone d u :=
  ⟨hu.engines.trans h.engines, hu.launches.trans h.launches, hu.owed.trans h.owed⟩

theorem State.Alone.setEngine {s t : State} {d e : EngineCmd} (h : s.Alone d t) (hid : d.id = e.id) : s.Alone e (t.setEngine e) := by
  rw [State.setEngine_only h.engines hid]
  exact ⟨rfl, h.launches, h.owed⟩

/-- The only command has come from `c` to a state that `P` holds of, and runs on or has met a fault and ended ABORTED. -/
def State.RunsOrAborted (s : State) (P : EngineCmd → Prop) (t : State) : Prop :=
  ∃ d u, P d ∧ s.Alone d u ∧ (t = u ∨ t = u.endAborted d)

/-- A command that a token has reached transfers, alone. -/
theorem State.transfer_alone {s : State} {upto : Nat} : ∀ (n : Nat) {u : State} {d : EngineCmd}, s.Alone d u → d.token = true → upto ≤ d.total →
    s.RunsOrAborted d.Later (State.transfer d.id upto n u)
  | 0, u, d, hu, _, _ => ⟨d, u, .refl d, hu, .inl rfl⟩
  | n + 1, u, d, hu, htoken, hupto => by
    rw [State.transfer, State.engine?_only hu.engines]
    dsimp only
    split
    · exact ⟨d, u, .refl d, hu, .inl rfl⟩
    next hleft =>
    split
    · rw [State.faultEngine, if_pos htoken]
      exact ⟨d, u, .refl d, hu, .inr rfl⟩
    next t m hunit =>
      have hstep : ∃ k, s.Alone { d with tainted := k } t := by
        obtain ⟨w, k, hw, rfl | rfl⟩ := State.Accessed.engineUnit hunit
        · exact ⟨d.tainted, hu.accessed hw⟩
        · exact ⟨k, (hu.accessed hw).setEngine rfl⟩
      obtain ⟨k, ht⟩ := hstep
      have hengine : t.engine? d.id = some { d with tainted := k } := State.engine?_only (c := { d with tainted := k }) ht.engines
      rw [hengine]
      dsimp only
      have hlater : d.Later { d with tainted := k, next := min d.total (d.next + m) } := ⟨by dsimp only; omega, rfl⟩
      obtain ⟨e, v, he, hv, hend⟩ := State.transfer_alone n (d := { d with tainted := k, next := min d.total (d.next + m) }) (ht.setEngine rfl) htoken hupto
      exact ⟨e, v, hlater.trans he, hv, hend⟩

/-- A skip word leaves a command as it was, but for its answer, or has it done (R251). -/
theorem State.readSkip_cases {s t : State} {c d : EngineCmd} (ht : s.readSkip c = .ok (t, d)) :
    c.Later d ∨ d = { c with skip := some true, next := c.total } ∧ c.Stopped d := by
  unfold State.readSkip at ht
  split at ht
  next hw _ =>
    split at ht
    · cases ht
      exact .inl ⟨le_rfl, rfl⟩
    · split at ht
      · cases ht
      · simp only [Except.ok.injEq, Prod.mk.injEq] at ht
        obtain ⟨-, rfl⟩ := ht
        split
        · exact .inl ⟨le_rfl, rfl⟩
        · exact .inr ⟨rfl, EngineCmd.stopped_skipped hw _⟩
  · cases ht
    exact .inl (.refl c)

/-- A command that a token has reached runs, alone, until some of its bytes are done. -/
theorem State.advance_alone {s u : State} {c : EngineCmd} (hu : s.Alone c u) (htoken : c.token = true) {upto : Nat} (hupto : upto ≤ c.total) (n : Nat) :
    s.RunsOrAborted c.Stopped (State.advance (n + 1) c.id upto u) := by
  have hhere := (EngineCmd.Later.refl c).stopped
  rw [State.advance_only hu.engines]
  split
  · cases hskip : u.readSkip c with
    | error e =>
      obtain ⟨f, va⟩ := e
      dsimp only
      rw [State.faultEngine, if_pos htoken]
      exact ⟨c, u, hhere, hu, .inr rfl⟩
    | ok r =>
      obtain ⟨t, d⟩ := r
      dsimp only
      obtain ⟨hread, hid, -, -⟩ := State.Runs.readSkip hskip
      have hset : s.Alone d (t.setEngine d) := (hu.accessed hread).setEngine hid.symm
      rcases State.readSkip_cases hskip with hlater | ⟨rfl, hstopped⟩
      · have htoken' : d.token = true := by rw [hlater.same]; exact htoken
        have htotal : upto ≤ d.total := by rw [hlater.same]; exact hupto
        obtain ⟨e, v, he, hv, hend⟩ := State.transfer_alone (upto - d.next) hset htoken' htotal
        rw [← hid]
        exact ⟨e, v, (hlater.trans he).stopped, hv, hend⟩
      · rw [Nat.sub_eq_zero_of_le hupto]
        exact ⟨_, _, hstopped, hset, .inl rfl⟩
  · exact ⟨c, u, hhere, hu, .inl rfl⟩

/-- A token that reaches the only command ends it ABORTED, however far it has come. -/
theorem State.abortEngine_alone {s : State} {c : EngineCmd} (he : s.engines = [c]) :
    ∃ d u, c.Stopped d ∧ s.Alone d u ∧ s.abortEngine c = u.endAborted d := by
  have hends {t : State} (ht : s.RunsOrAborted c.Stopped t) : ∃ d u, c.Stopped d ∧ s.Alone d u ∧ (match t.engine? c.id with
      | none => t
      | some d => t.endAborted d) = u.endAborted d := by
    obtain ⟨d, u, hd, hu, rfl | rfl⟩ := ht
    · refine ⟨d, t, hd, hu, ?_⟩
      rw [← hd.id, State.engine?_only hu.engines]
    · refine ⟨d, u, hd, hu, ?_⟩
      rw [← hd.id, State.engine?_endAborted]
  have halone : s.Alone c s := ⟨he, rfl, rfl⟩
  unfold State.abortEngine
  extract_lets stopped
  refine hends ?_
  unfold stopped
  split
  · exact ⟨c, s, (EngineCmd.Later.refl c).stopped, halone, .inl rfl⟩
  · have hset : s.Alone { c with token := true } (s.setEngine { c with token := true }) := halone.setEngine rfl
    have hforget {t : State} (ht : s.RunsOrAborted ({ c with token := true } : EngineCmd).Stopped t) : s.RunsOrAborted c.Stopped t := by
      obtain ⟨d, u, hd, hu⟩ := ht
      exact ⟨d, u, ⟨hd.id, hd.hid, hd.launch, hd.entry⟩, hu⟩
    unfold State.lastChunks
    dsimp only
    split
    · exact hforget ⟨_, _, (EngineCmd.Later.refl _).stopped, hset, .inl rfl⟩
    · exact hforget (State.advance_alone hset rfl (Nat.min_le_left _ _) _)

/-! ### What the end leaves (R252, R406) -/

theorem State.endAborted_alone {s u : State} {d : EngineCmd} (hu : s.Alone d u) : (u.endAborted d).engines = [] := by
  rw [State.endAborted, State.owe_engines, State.endEngine_engines, hu.engines]
  simp

theorem State.endEngine_launches (s : State) (c : EngineCmd) {status : Nat} (hs : status ≠ 0) : (s.endEngine c status).launches =
    (s.updLaunch c.launch (fun l => if l.engEntries.length < 31 then { l with engEntries := l.engEntries ++ [c.entryBytes status] } else l)).launches := by
  unfold State.endEngine
  dsimp only
  rw [if_neg hs]
  split <;> rfl

theorem State.endEngine_harts (s : State) (c : EngineCmd) (status : Nat) : (s.endEngine c status).harts = s.harts := by
  unfold State.endEngine
  dsimp only
  split <;> split <;> rfl

/-- What the engines owe a hart is in no engine entry. -/
theorem State.owe_entries (s : State) (c : EngineCmd) (f : EngineFault) :
    ((s.owe c f).launchAt c.launch).map (fun l => l.engEntries) = (s.launchAt c.launch).map (fun l => l.engEntries) := by
  unfold State.owe
  split
  · rfl
  · rw [State.launchAt_updLaunch, Option.map_map]
    · rfl
    · exact fun _ => rfl

/-- The entry of a command that ends ABORTED, where its launch has room for it. -/
theorem State.endAborted_entry {s : State} {d : EngineCmd} {l : Launch} (hl : s.launchAt d.launch = some l) (hroom : l.engEntries.length < 31) :
    ((s.endAborted d).launchAt d.launch).map (fun l => l.engEntries) = some (l.engEntries ++ [d.entryBytes 3]) := by
  rw [State.endAborted, State.owe_entries, State.launchAt_congr (State.endEngine_launches s d (by decide)),
    State.launchAt_updLaunch s (fun l => by split <;> rfl), hl]
  simp only [Option.map_some, if_pos hroom]

/-- The fault that the hart of a command that ends ABORTED is owed. -/
theorem State.endAborted_owes {s : State} {d : EngineCmd} {k : Nat} (hk : d.hid = some k) {h : Hart} (hs : s.hartAt k = some h) :
    ((s.endAborted d).hartAt k).map (fun g => g.engineFaults) = some (h.engineFaults ++ [{ code := 0x5010, tva := 0 }]) := by
  have hended : (s.endEngine d 3).hartAt k = some h := by rw [State.hartAt, State.endEngine_harts]; exact hs
  rw [State.endAborted, State.owe, hk]
  dsimp only
  rw [State.hartAt_updHartAt hended rfl, Option.map_some]

/-- A token for the only command: it is gone, its entry says ABORTED, and its hart is owed the fault. -/
theorem State.abortMember_only {s : State} {c : EngineCmd} (he : s.engines = [c]) (g : Nat) : (s.abortMember g c).engines = [] ∧
    (∀ l, s.launchAt c.launch = some l → l.engEntries.length < 31 → ∃ done, c.next ≤ done ∧
      ((s.abortMember g c).launchAt c.launch).map (fun l => l.engEntries) = some (l.engEntries ++ [({ c with next := done }).entryBytes 3])) ∧
    ∀ k h, c.hid = some k → s.hartAt k = some h →
      ((s.abortMember g c).hartAt k).map (fun h => h.engineFaults) = some (h.engineFaults ++ [{ code := 0x5010, tva := 0 }]) := by
  obtain ⟨d, u, hd, hu, hend⟩ := State.abortEngine_alone he
  change (s.abortEngine c).engines = [] ∧ (∀ l, _ → _ → ∃ done, _ ∧ ((s.abortEngine c).launchAt c.launch).map _ = _) ∧
    ∀ k h, _ → _ → ((s.abortEngine c).hartAt k).map _ = _
  rw [hend]
  refine ⟨State.endAborted_alone hu, fun l hl hroom => ?_, fun k h hk hs => ?_⟩
  · obtain ⟨done, hdone, hentry⟩ := hd.entry
    refine ⟨done, hdone, ?_⟩
    rw [← hentry, ← hd.launch]
    exact State.endAborted_entry ((State.launchAt_congr hu.launches _).trans (hd.launch ▸ hl)) hroom
  · have hfaults := State.engineFaults_of_owed hu.owed k
    rw [hs] at hfaults
    obtain ⟨g, hg, hgf⟩ := Option.map_eq_some_iff.mp hfaults
    rw [State.endAborted_owes (hd.hid.trans hk) hg, hgf]

/-! ### Ports (R419) -/

/-- A port that goes down where no collective runs is only down. -/
theorem State.portDown_quiet {s : State} (hs : ∀ c ∈ s.engines, c.group? = none) (port : Nat) :
    s.portDown port = { s with portsDown := if s.portsDown.contains port then s.portsDown else port :: s.portsDown } := by
  have hcut (t : State) : t.engines = s.engines → t.engines.filter (fun c => match c.group? with
      | some g => t.cutOff g
      | none => false) = [] := by
    intro ht
    rw [ht, List.filter_eq_nil_iff]
    intro c hc
    rw [hs c hc]
    exact Bool.false_ne_true
  unfold State.portDown
  extract_lets down cut lacking
  have hnone : cut = [] := hcut down rfl
  clear_value cut
  subst hnone
  rfl

/-! ### The events while power is applied (R80) -/

section
variable {s : State} (hp : s.power = true)
include hp

theorem exec_engineCommandComplete (n : Nat) : exec (.engineCommandComplete n) s = .next (s.completeEngine n) :=
  event_eq hp (fun s => s.completeEngine n)

theorem exec_collectiveStart (g : Nat) (remote : List (Nat × List Byte)) :
    exec (.collectiveStart g remote) s = .next (s.startGroup g (s.come g remote)) := event_eq hp (fun s => s.startGroup g (s.come g remote))

theorem exec_gleipPortDown (port : Nat) : exec (.gleipPortDown port) s = .next (s.portDown port) := event_eq hp (fun s => s.portDown port)

theorem exec_gleipFlitRetry (port flit : Nat) : exec (.gleipFlitRetry ⟨port, flit⟩) s = .next (s.retryFlit port flit) :=
  event_eq hp (fun s => s.retryFlit port flit)

variable {g die : Nat}

/-- A token of a member on this module is for one command (R418). -/
theorem exec_abortToken_member {id : Nat} (ht : s.tokens.find? (fun t => t.1 == g && t.2.1 == die) = some (g, die, id)) :
    exec (.abortToken g die) s = .next (match s.engine? id with
      | none => { s with tokens := s.tokens.erase (g, die, id) }
      | some c => ({ s with tokens := s.tokens.erase (g, die, id) } : State).abortMember g c) := by
  refine (event_eq hp (fun s => s.abortDie g die)).trans (congrArg _ ?_)
  rw [State.abortDie, ht]
  change (match s.engine? id with | none => _ | some c => _ : State) = _
  cases s.engine? id <;> rfl

/-- A token from elsewhere is for the command that runs (R418). -/
theorem exec_abortToken_outside (ht : s.tokens.find? (fun t => t.1 == g && t.2.1 == die) = none) :
    exec (.abortToken g die) s = .next (match s.memberOn g die with
      | none => s
      | some c => s.abortMember g c) := by
  refine (event_eq hp (fun s => s.abortDie g die)).trans (congrArg _ ?_)
  cases hm : s.memberOn g die <;> simp only [State.abortDie, ht, hm]

end

end Sys2Proof.Machine

namespace Sys2Proof.Proofs

open Sys2Proof Sys2Proof.Machine

/-- Settles O53: a completion and a start by the command or the members they name, a token by what the run of one command alone comes to. -/
theorem engineEvents : Obligations.EngineEvents := by
  unfold Obligations.EngineEvents
  intro s n group die port flit remote hp
  refine ⟨fun hn => ?_, fun c he hid hnext hmissing hcopy => ?_, fun hg => ?_, fun cs hcs => ?_, fun id ht => ?_, fun ht => ?_, fun hs => ?_, ?_⟩
  · rw [exec_engineCommandComplete hp, State.completeEngine, State.complete, hn]
  · obtain ⟨dst, src, k, hw⟩ := hcopy
    obtain ⟨hzero, hcounter⟩ := State.closeEngine_copy (s := s) hmissing hw
    rw [exec_engineCommandComplete hp, ← hid, State.completeEngine_copy he hnext hw]
    exact ⟨fun hctr => congrArg _ (hzero hctr), fun hctr t ht => congrArg _ (hcounter hctr t ht)⟩
  · rw [exec_collectiveStart hp, State.startGroup, hg]
  · rw [exec_collectiveStart hp]
    refine ⟨fun hcome => ?_, fun hcome hready => ?_, fun hcome hready => ⟨_, rfl, fun c hc hg => ?_⟩⟩
    · rw [State.startGroup_waits hcs hcome]
    · rw [State.startGroup_notReady hcs hcome hready]
    · refine Option.isSome_iff_ne_none.mpr fun hr => ?_
      exact List.not_mem_nil (State.startGroup_started hcs hcome hready c hc hg hr)
  · rw [exec_abortToken_member hp ht]
    refine ⟨fun hn => by rw [hn], fun c hc => ⟨_, rfl, ?_⟩⟩
    rw [hc, ← State.engine?_id hc]
    exact State.engine?_abortMember _ _ _
  · rw [exec_abortToken_outside hp ht]
    refine ⟨fun hn => by rw [hn], fun c hc => ⟨_, rfl, ?_⟩, fun c hc he => ⟨_, rfl, ?_⟩⟩
    · rw [hc]
      exact State.engine?_abortMember _ _ _
    · rw [hc]
      exact State.abortMember_only he group
  · rw [exec_gleipPortDown hp, State.portDown_quiet hs]
  · rw [exec_gleipPortDown hp, exec_gleipFlitRetry hp, State.retryFlit]
    exact ⟨fun hfew => congrArg _ (if_neg (by omega)), fun hmany => ⟨_, rfl, congrArg _ (if_pos (by omega))⟩⟩

end Sys2Proof.Proofs
end
